-- ==== Sys2Proof/Word.lean ====
section
/-! DEFINITION. The word types of the Amiup model: a 64-bit scalar word, a 32-bit lane, a 256 B line, a beat's
sideband word, and the sparse tables that hold everything the module indexes. -/

namespace Sys2Proof

/-- A 64-bit scalar register or instruction word (Table 3.2, Table 3.6). -/
abbrev Word := BitVec 64

/-- One lane of a vector register (R95). -/
abbrev Lane := BitVec 32

/-- A 256 B line, byte 0 in bits [7:0] (R58). -/
abbrev Line := BitVec 2048

/-- A digest or key hash of 32 bytes. -/
abbrev Hash := BitVec 256

/-- A sparse table: entries with strictly rising keys, none equal to the table's default (Machine/Map.lean). -/
abbrev SMap (α : Type) := List (Nat × α)

/-- A byte memory: address and byte pairs in canonical form (Machine/Map.lean). An unlisted byte reads 0. -/
abbrev Mem := List Host.Cell

/-- What the SEC-DED code finds on a word that is read (R59). -/
inductive Ecc where
  | ok | corrected | uncorrectable
  deriving DecidableEq, Repr

/-- What the code finds in the words of one access: a word's number within the access with the outcome; a word that is not
named is sound (R59). -/
abbrev EccW := List (Nat × Ecc)

/-- What the codes of the beats read at a switch in one cycle find: the switch port of a beat with its words, 0 to 31 the
payload and 32 the sideband (R161). -/
abbrev BeatEcc := List (Nat × EccW)

end Sys2Proof
end

