-- ==== Sys2Proof/Syntax.lean ====
section
/-! DEFINITION. The commands of the block: one constructor per row of spec/opcode_table.json, in the table's order, with
the operand types they carry. Operands are plain data; a numbered unit is a natural number whose range WellFormed checks. -/

namespace Sys2Proof

/-- A physical cell: 32 × block number + physical cell index 0 to 17 (PCELL_ID, Table 3.3). -/
abbrev CellId := Nat

/-- Fields every instruction word carries (Table 3.6), with what the SEC-DED code finds in the fetched word (R59). -/
structure En where
  pred  : BitVec 4
  sense : Bool
  fecc  : Ecc
  deriving DecidableEq, Repr

/-- Format RR of Table 3.8: register and register. `rsv` is bits [31:0]. -/
structure RR where
  en  : En
  rd  : BitVec 5
  ra  : BitVec 5
  rb  : BitVec 5
  rsv : BitVec 32
  deriving DecidableEq, Repr

/-- Format RI of Table 3.8: register and immediate. `rsv` is bits [42:32]. -/
structure RI where
  en  : En
  rd  : BitVec 5
  ra  : BitVec 5
  rsv : BitVec 11
  imm : BitVec 32
  deriving DecidableEq, Repr

/-- Format MEM of Table 3.8. `rd` is the destination of a load or the source of a store; `rsv` is bits [39:32]. -/
structure MemF where
  en   : En
  rd   : BitVec 5
  ra   : BitVec 5
  size : BitVec 3
  rsv  : BitVec 8
  imm  : BitVec 32
  deriving DecidableEq, Repr

/-- Format CMP of Table 3.8, RR form. `rsvHi` is bit [48]; `rsv` is bits [34:0]. -/
structure CmpR where
  en    : En
  pd    : BitVec 4
  rsvHi : BitVec 1
  ra    : BitVec 5
  rb    : BitVec 5
  rsv   : BitVec 35
  deriving DecidableEq, Repr

/-- Format CMP of Table 3.8, RI form. `rsvHi` is bit [48]; `rsv` is bits [39:32]. -/
structure CmpI where
  en    : En
  pd    : BitVec 4
  rsvHi : BitVec 1
  ra    : BitVec 5
  rsv   : BitVec 8
  imm   : BitVec 32
  deriving DecidableEq, Repr

/-- Format PL of Table 3.8: predicate logic. -/
structure PlF where
  en  : En
  pd  : BitVec 4
  pa  : BitVec 4
  pb  : BitVec 4
  rsv : BitVec 38
  deriving DecidableEq, Repr

/-- Format PM of Table 3.8: predicate moves. `rsv` is bits [39:16]. -/
structure PmF where
  en   : En
  rd   : BitVec 5
  ra   : BitVec 5
  rsv  : BitVec 24
  mask : BitVec 16
  deriving DecidableEq, Repr

/-- Format SR of Table 3.8: special reads. -/
structure SrF where
  en  : En
  rd  : BitVec 5
  sr  : BitVec 8
  rsv : BitVec 40
  deriving DecidableEq, Repr

/-- Format CTL of Table 3.8. `rsvHi` is bits [52:48], `rsvMid` bits [42:32], `lo` bits [31:0] (COUNT in WAIT.C). -/
structure Ctl where
  en     : En
  rsvHi  : BitVec 5
  ra     : BitVec 5
  rsvMid : BitVec 11
  lo     : BitVec 32
  deriving DecidableEq, Repr

/-- LOOP.C (Table 4.12). -/
structure LoopF where
  en    : En
  body  : BitVec 5
  depth : BitVec 2
  rsv   : BitVec 2
  trip3 : BitVec 11
  trip2 : BitVec 11
  trip1 : BitVec 11
  trip0 : BitVec 11
  deriving DecidableEq, Repr

/-- AGSET.A24 and AGADD.A24 (Table 4.11). `rsv` is bits [39:32]. -/
structure AgF where
  en    : En
  ag    : BitVec 4
  field : BitVec 4
  ra    : BitVec 5
  rsv   : BitVec 8
  imm   : BitVec 32
  deriving DecidableEq, Repr

/-- AGRD.U24 and LCRD.U11 (Table 4.11); SEL is the constructor's. -/
structure AgRdF where
  en  : En
  rd  : BitVec 5
  idx : BitVec 4
  rsv : BitVec 42
  deriving DecidableEq, Repr

/-- The V format (Table 4.3); FUNC is the constructor's. `lo` is bits [17:0] (OFS in its low 16 bits where used). -/
structure VecF where
  en  : En
  vd  : BitVec 5
  va  : BitVec 5
  vb  : BitVec 5
  vc  : BitVec 5
  lm  : BitVec 5
  bc  : Bool
  rm  : BitVec 2
  sat : Bool
  lo  : BitVec 18
  deriving DecidableEq, Repr

/-- MLW (Table 6.6). -/
structure MlwF where
  en   : En
  ag   : BitVec 4
  wfmt : BitVec 4
  wmx  : Bool
  wb   : Bool
  rsv  : BitVec 43
  deriving DecidableEq, Repr

/-- MMA (Table 6.7). -/
structure MmaF where
  en   : En
  ag   : BitVec 4
  vs   : BitVec 5
  afmt : BitVec 4
  wfmt : BitVec 4
  amx  : Bool
  wmx  : Bool
  wb   : Bool
  z    : Bool
  acc  : BitVec 7
  rows : BitVec 6
  rsv  : BitVec 19
  deriving DecidableEq, Repr

/-- MCVT (Table 6.8). -/
structure McvtF where
  en   : En
  ag   : BitVec 4
  rs   : BitVec 5
  ofmt : BitVec 4
  rm   : BitVec 2
  sat  : Bool
  clr  : Bool
  accf : Bool
  acc  : BitVec 7
  rows : BitVec 6
  rsv  : BitVec 22
  deriving DecidableEq, Repr

/-- MSTX, MADDX and MCLR (Table 6.9). `opt` is CLR of MSTX or Z of MADDX. -/
structure MaccF where
  en   : En
  ag   : BitVec 4
  acc  : BitVec 7
  rows : BitVec 6
  opt  : Bool
  rsv  : BitVec 35
  deriving DecidableEq, Repr

/-! ### The plan image (15_plan_image_and_sieve.md), as the loader parses it -/

/-- Plan image header (Table 15.1). `tailZero`: the bytes that must be zero are zero. -/
structure ImgHeader where
  format     : Nat
  kind       : Nat
  mode       : Nat
  grade      : Nat
  stepKinds  : Nat
  cycleLen   : Nat
  drain      : Nat
  settle     : Nat
  diameter   : Nat
  stepCycle  : List Nat
  positions  : Nat
  gustGroup  : Nat
  gustH      : Nat
  vregions   : Nat
  envelopeW  : Nat
  sections   : Nat
  seedBase   : Word
  parent     : Hash
  signer     : Hash
  planId     : BitVec 128
  imageBytes : Nat
  tailZero   : Bool
  deriving DecidableEq, Repr

/-- A step kind entry (Table 15.2); `epochAt` lists the entries in use; `zero`: unused bytes are zero. -/
structure StepKindE where
  switchAt : List Nat := []
  length  : Nat
  window  : Nat
  epochAt : List Nat
  zero    : Bool
  deriving DecidableEq, Repr

/-- A run word (R186): FIRST, COUNT and REPEAT as encoded, and bits [13:0]. -/
structure Run where
  first : Nat
  count : Nat
  rep   : Nat
  rsv   : Nat
  deriving DecidableEq, Repr

/-- A segment entry: the runs `first .. first + n - 1` (log entry 20). -/
structure SegE where
  first : Nat := 0
  n     : Nat := 0
  deriving DecidableEq, Repr

/-- One version of a trellis: the rows the section supplies by row number, runs, and segment entries keyed
16 × kind + epoch index. -/
structure Tbl (α : Type) where
  rows : SMap α
  runs : List Run
  segs : SMap SegE
  deriving DecidableEq, Repr

/-- A barrow descriptor (Table 7.3) with its reserved bits. -/
structure Desc where
  srcKind : BitVec 4
  dstKind : BitVec 4
  pen     : Bool
  psense  : Bool
  paddr   : BitVec 23
  pbit    : BitVec 3
  dblock  : BitVec 6
  dmask   : BitVec 16
  spos    : BitVec 4
  rsv0    : BitVec 2
  rsv1    : BitVec 24
  src     : BitVec 40
  rsv2    : BitVec 24
  dst     : BitVec 40
  lines   : BitVec 12
  rep     : BitVec 12
  srcInc  : BitVec 20
  dstInc  : BitVec 20
  deriving DecidableEq, Repr

/-- A lease entry (Table 15.5). -/
structure LeaseE where
  res   : Nat
  use   : Nat
  unit  : Nat
  chan  : Nat
  first : Nat
  count : Nat
  zero  : Bool
  deriving DecidableEq, Repr

/-- An address-map entry (Table 15.6). -/
structure MapE where
  kind   : Nat
  aux    : Nat
  first  : Nat
  last   : Nat
  second : Nat
  deriving DecidableEq, Repr

/-- The SERVING section (Table 15.7). -/
structure ServingE where
  slots      : Nat := 0
  specMax    : Nat := 0
  tokLines   : Nat := 0
  pagesMax   : Nat := 0
  outLines   : Nat := 0
  kvGroups   : Nat := 0
  tokCap     : Nat := 0
  editCap    : Nat := 0
  kvPages    : Nat := 0
  winReady   : Nat := 0
  kvBase     : Nat := 0
  winBase    : Nat := 0
  groups     : Nat := 0
  groupFirst : List Nat := []
  deriving DecidableEq, Repr

/-- A PEERS entry: none where the port faces no member. -/
structure PeerE where
  rank : Nat
  part : Nat
  deriving DecidableEq, Repr

/-- The TREE section: depth, vote parent and children, seed parent and children. -/
structure TreeE where
  depth        : Nat := 0
  voteParent   : Nat := 0xF
  voteChildren : BitVec 16 := 0
  seedParent   : Nat := 0xF
  seedChildren : BitVec 16 := 0
  deriving DecidableEq, Repr

/-- The contents of a section by type (Table 15.4). -/
inductive SecData where
  | steps (l : List StepKindE)
  | cellCode (words : SMap Word) (entry : List Nat)
  | blockTrellis (v0 v1 : Tbl (BitVec 128))
  | barrows (v0 v1 : Tbl Desc)
  | router (v0 v1 : Tbl (BitVec 128))
  | merge (v0 v1 : Tbl (BitVec 32))
  | port (budget : Nat) (v0 v1 : Tbl (BitVec 32))
  | routes (r : SMap (BitVec 16))
  | leases (l : List LeaseE)
  | addressMap (l : List MapE)
  | serving (e : ServingE)
  | peers (l : List (Option PeerE))
  | tree (t : TreeE)
  deriving DecidableEq, Repr

/-- A directory entry with its data (Table 15.3). `zero`: reserved bytes are zero. -/
structure Section where
  type     : Nat
  position : Nat
  variant  : Nat
  unit     : Nat
  sub      : Nat
  zero     : Bool
  off      : Nat
  bytes    : Nat
  digest   : Hash
  data     : SecData
  deriving DecidableEq, Repr

/-- A plan image or plan section. `sigOk`: the ML-DSA-44 signature verifies over the image digest (R398). -/
structure PlanImage where
  hdr   : ImgHeader
  secs  : List Section
  sigOk : Bool
  deriving DecidableEq, Repr

/-- Where a command's data comes from (Tables 15.8, 9.8). -/
inductive Src where
  | host (addr : Nat)
  | cold (paddr : Nat)
  | seedTree
  deriving DecidableEq, Repr

/-- A memory tier (Table 9.2). -/
inductive Tier where
  | stack | cold
  deriving DecidableEq, Repr

/-- How a retraining step of a cold-frame channel ends (R255). -/
inductive RetrainOut where
  | none | good | pin | whole
  deriving DecidableEq, Repr

/-! ### Links and the fabric (11_links.md, 12_trellis_and_routing.md) -/

/-- A received codeword of a lane (R285): its symbols in error with the error's bits, and whether its last message bit lies in the
segment. -/
structure LaneCw where
  ends : Bool
  errs : List (Nat × Nat)
  deriving DecidableEq, Repr

/-- A received segment of a physical lane (Table 11.2): its fields after decoding, and the codewords that carry its bits (R287). -/
structure Seg where
  tag : BitVec 16
  par : BitVec 16
  pay : BitVec 512
  cws : List LaneCw
  deriving DecidableEq, Repr

/-- A flit: its tag fields (Table 11.3) and its 512 bytes as two lines. -/
structure Flit where
  typ   : Nat
  epoch : Bool
  check : Nat
  lo    : Line
  hi    : Line
  deriving DecidableEq, Repr

/-- A control flit (Table 11.5); `commit` lists VALID and step per sender partition. -/
structure CtlFlit where
  frame     : Nat
  serial    : Nat
  port      : Nat
  role      : Nat
  gustReq   : Nat
  gustRed   : Nat
  gustValid : Bool
  laneBad   : BitVec 9
  spareLane : Nat
  spareAt   : Nat
  latRx     : Nat
  heartbeat : Nat
  commit    : List (Bool × Nat)
  rotReady  : BitVec 16
  rotRed    : BitVec 16
  deriving DecidableEq, Repr

/-- What a training or retraining finds and measures (R283, R286, R302, R303, R308): every lane came to lock with fewer than 1 failed
segment in 10^9; LANE of the alignment segments of physical lanes 0 to 9 and how far apart they arrive, in ns; the maximum flight
under the storm pattern and in the quiet measurement, in 1/8 cycles. -/
structure TrainOut where
  trained : Bool
  lanes   : List Nat
  skewNs  : Nat
  storm8  : Nat
  quiet8  : Nat
  deriving DecidableEq, Repr

/-- A dynamic flit header (Table 12.3). -/
structure DynHdr where
  dst    : Nat
  src    : Nat
  dpart  : Nat
  rpart  : Nat
  op     : Nat
  ch     : Nat
  last   : Bool
  tag    : Nat
  seq    : Nat
  gen    : Nat
  status : Nat
  piece  : Nat
  total  : Nat
  job    : Nat
  addr   : Nat
  hops   : Nat
  deriving DecidableEq, Repr

/-- An outbound TW slot map with the job and rank it serves, the job key it carries, and whether the installation starts the
partition's carried state afresh, and the size in lines of the region that its sender holds for this module's partition (R338,
R339, R425, R515). -/
structure TwinMap where
  slots  : List Nat
  job    : Nat
  rank   : Nat
  key    : Option Hash
  fresh  : Bool
  region : Nat
  deriving DecidableEq, Repr

/-- A TWIN transfer that asks for a shadow (R389): the spare's serial, job and rank. -/
structure ShadowReq where
  serial : Nat
  job    : Nat
  rank   : Nat
  deriving DecidableEq, Repr

/-! ### Jobs (14_jobs_at_scale.md) -/

/-- A manager message (Table 14.3), with bytes 112 to 127 as `tail` and its KMAC256 tag (R372). -/
structure MgrMsg where
  format  : Nat
  kind    : Nat
  cause   : Nat
  sender  : Nat
  job     : Nat
  seq     : Nat
  subject : Nat
  aux     : Nat
  dseq    : Nat
  arg0    : Nat
  arg1    : Nat
  arg2    : Nat
  digest0 : Hash
  digest1 : Hash
  tail    : Nat
  tag     : Hash
  deriving DecidableEq, Repr

/-- An entry of a bundle's section table (Table 9.2), with the lines at its FILE_OFFSET; `zero` is bytes 0x02 to 0x07. -/
structure BSec where
  tier    : Nat
  content : Nat
  zero    : Nat := 0
  paddr   : Nat
  lines   : Nat
  off     : Nat
  digest  : Hash
  data    : List Line
  deriving DecidableEq, Repr

/-- A bundle: its header (Table 9.1), section table and data. `zero0` to `zero3` are the bytes at 0x00C, 0x049, 0x050 and 0x080. `sigOk`:
the ML-DSA-44 signature verifies over the bundle digest under the key that SIGNER names (R222). -/
structure Bundle where
  format     : Nat
  kind       : Nat
  sections   : Nat
  layouts    : Nat
  zero0      : Nat := 0
  modelId    : BitVec 128
  rootDigest : Hash
  span       : Nat
  recLines   : Nat
  zero1      : Nat := 0
  depth      : Nat
  zero2      : Nat := 0
  signer     : Hash
  zero3      : Nat := 0
  secs       : List BSec
  sigOk      : Bool
  deriving DecidableEq, Repr

/-- A bundle on its way along the seed tree, with the scion number and pool slot it is loaded under. -/
structure SeedBundle where
  scion : Nat
  slot  : Nat
  bn    : Bundle
  deriving DecidableEq, Repr

/-- What a twin answers a grafted spare that reads the shadow (R389): STATUS, the step of C(c), the lines of APPEND and FLIP ranges by
tier and partition address, the slot words with their page tables, and the page-table digest in C(c). -/
structure ShadowIn where
  status : Nat
  stepNo : Nat
  lines  : List (Tier × Nat × Line)
  slots  : List (Nat × BitVec 128 × List Nat)
  digest : Hash
  deriving DecidableEq, Repr

/-- A piece that arrives on the seed tree, or for a grafted spare from the twin (R375, R389). -/
inductive SeedPiece where
  | image (img : PlanImage)
  | bundle (b : SeedBundle)
  | jobKey (key : Hash) (ok : Bool)
  | shadow (x : ShadowIn)
  deriving DecidableEq, Repr

/-! ### Power, start-up, service (18, 20, 21) -/

/-- Sensor groups (Table 18.7; the two parts of its last row apart). -/
inductive SensorGroup where
  | region | hub | stack | cold | converter | regulator
  deriving DecidableEq, Repr

/-- Which coolant condition was lost, with the flow in 0.05 L/min or the inlet temperature in °C (R487). -/
inductive CoolantOut where
  | flow (v : Nat)
  | inlet (c : Nat)
  deriving DecidableEq, Repr

/-- What start-up finds and measures: TIME_REF present, ID_FAIL, tray slots, optical engines, units that need a search
because they do not train from their values (rows of Table 20.5), ports, beacon offsets and crossing skews per island, crossings beyond
their allowance, stacks whose repair record has no matching digest, column faults that the base dies repair (stack, channel, bank, column), cold-frame channels whose density does not match, units that
still fail, and single pin pairs of stack channels that do (stack, channel, pair). -/
structure BootOut where
  refOk      : Bool
  idFail     : BitVec 4
  slot       : Nat
  twinSlot   : Nat
  optPresent : BitVec 5
  searchRows : List Nat
  ports      : List (Nat × TrainOut)
  offsets    : List (Nat × Nat)
  skews      : List (Nat × Nat)
  crossBad   : List Nat
  recordsBad : List Nat
  columns    : List (Nat × Nat × Nat × Nat)
  chansBad   : List Nat
  portsBad   : List Nat
  stacksBad  : List Nat
  pairsBad   : List (Nat × Nat × Nat)
  coldBad    : Bool
  deriving DecidableEq, Repr

/-- Firmware targets. -/
inductive FwTarget where
  | security | management
  deriving DecidableEq, Repr

/-- What a live self-calibration measures (R516, R517): the flash write succeeded; the port's training; skews of the crossings of
islands; islands with a crossing beyond its allowance. -/
structure CalOut where
  flashOk : Bool
  port    : TrainOut
  skews   : List (Nat × Nat)
  bad     : List Nat
  deriving DecidableEq, Repr

/-! ### The host (16, 17) -/

/-- A command's header (Table 17.7) with the path it came by: function 0–16, or 17 for the management connector; set 0 or 1.
`plen`, `body` and `data` are PLEN, the 192-byte body (Table 17.8) and, with INDIRECT, the bytes read from PADDR; `encOk`: every reserved
byte is zero, every parameter lies in its encoding and the parameters are those of the row; `dmaOk`: no DMA read it made ended with an
error (R558); `resOk`: the write of its results did not fail. -/
structure Hdr where
  fn      : Nat
  set     : Nat
  cid     : Nat
  sid     : Nat
  part    : Nat
  indir   : Bool
  fence   : Bool
  counter : Nat
  plen    : Nat
  rmax    : Nat
  tag     : Hash
  body    : List Nat
  data    : List Nat
  encOk   : Bool
  dmaOk   : Bool
  resOk   : Bool
  deriving DecidableEq, Repr

/-- A session proof (R432, R435): the ciphertext, the public key, the passphrase proof P; whether a maker certificate verifies under
ROOT_HASH, the signature over T verifies, the ciphertext decapsulates. -/
structure ProveIn where
  c      : Nat
  pk     : Nat
  proof  : Hash
  certOk : Bool
  sigOk  : Bool
  capsOk : Bool
  deriving DecidableEq, Repr

/-- A job-key wrap (Table 16.3). -/
structure JobWrap where
  format : Nat
  job    : Nat
  ct     : Nat
  masked : Hash
  check  : Hash
  deriving DecidableEq, Repr

/-- A lease target: index, unit, channel, and quarter or slice (Tables 8.3, 10.2). -/
structure LeaseT where
  idx  : Nat
  unit : Nat
  ch   : Nat
  sub  : Nat
  deriving DecidableEq, Repr

/-- PART_CREATE and PART_RESIZE (Table 16.11). -/
structure PartDef where
  blocks  : BitVec 64
  stack   : List LeaseT
  cold    : List LeaseT
  landing : List Nat
  alloc   : Nat
  entry   : Nat
  deriving DecidableEq, Repr

/-- A slot-edit payload (Table 10.7); pages are page number + 1, 0 for an invalid entry. -/
structure EditIn where
  op        : Nat
  variant   : Nat
  length    : Nat
  pageFirst : Nat
  pages     : List Nat
  ttlS      : Nat
  park      : Nat
  parkAddr  : Nat
  deriving DecidableEq, Repr

/-- JOB_JOIN (Table 14.7). -/
structure JobIn where
  job      : Nat
  rank     : Nat
  cube     : Nat
  boc      : Nat
  mgrs     : List Nat
  parent   : Nat
  children : BitVec 16
  deriving DecidableEq, Repr

/-- FABRIC_COPY (Table 12.9). -/
structure CopyIn where
  write   : Bool
  rank    : Nat
  part    : Nat
  ch      : Nat
  laddr   : Nat
  raddr   : Nat
  lines   : Nat
  timeout : Nat
  retries : Nat
  deriving DecidableEq, Repr

/-- What a self-test finds. -/
structure DiagOut where
  mask  : Nat
  fault : Bool
  deriving DecidableEq, Repr

/-- A firmware image: its version and digest, and whether it is signed under ROOT_HASH (R437). -/
structure FwImage where
  version : Nat
  digest  : Hash
  signed  : Bool
  deriving DecidableEq, Repr

/-- A record of a calibration set (Table 20.4). `meas` are its measured values: PORT the LAT, storm correction and maximum flight in
1/8 cycles; ISLAND the beacon offset; CROSSING the read offset and 1 for a FAILED mark. -/
structure CalRec where
  kind   : Nat
  unit   : Nat
  search : List Nat := []
  meas   : List Nat := []
  deriving DecidableEq, Repr

/-- The SHADOW record (R515): slices (64 × channel + slice) and region sizes in lines per partner partition. -/
structure ShadowRec where
  slices  : List Nat
  regions : SMap Nat
  deriving DecidableEq, Repr

/-- A calibration set (Tables 20.3, 20.4): header fields, records of kinds 0x01 to 0x05, and records of kind 0x06. -/
structure CalSet where
  format  : Nat := 0
  writer  : Nat := 0
  serial  : Nat := 0
  hallNs  : Nat := 0
  digest  : Hash := 0
  recs    : List CalRec := []
  shadow  : List ShadowRec := []
  deriving DecidableEq, Repr

/-- The commands, one per row of spec/opcode_table.json. -/
inductive Instr where
  | nopC (c : CellId) (w : Word) (fecc : Ecc)
  | addI64 (c : CellId) (f : RR)
  | subI64 (c : CellId) (f : RR)
  | andB64 (c : CellId) (f : RR)
  | orB64 (c : CellId) (f : RR)
  | xorB64 (c : CellId) (f : RR)
  | shlB64 (c : CellId) (f : RR)
  | shrU64 (c : CellId) (f : RR)
  | sarS64 (c : CellId) (f : RR)
  | minS64 (c : CellId) (f : RR)
  | maxS64 (c : CellId) (f : RR)
  | minU64 (c : CellId) (f : RR)
  | maxU64 (c : CellId) (f : RR)
  | mulI64 (c : CellId) (f : RR)
  | mulhU64 (c : CellId) (f : RR)
  | divU64 (c : CellId) (f : RR)
  | remU64 (c : CellId) (f : RR)
  | addiI64 (c : CellId) (f : RI)
  | andiB64 (c : CellId) (f : RI)
  | oriB64 (c : CellId) (f : RI)
  | xoriB64 (c : CellId) (f : RI)
  | shliB64 (c : CellId) (f : RI)
  | shriU64 (c : CellId) (f : RI)
  | sariS64 (c : CellId) (f : RI)
  | lihB64 (c : CellId) (f : RI)
  | muliI64 (c : CellId) (f : RI)
  | ld (c : CellId) (f : MemF)
  | st (c : CellId) (f : MemF)
  | ldx (c : CellId) (f : MemF)
  | stx (c : CellId) (f : MemF)
  | ceqI64 (c : CellId) (f : CmpR)
  | cneI64 (c : CellId) (f : CmpR)
  | cltS64 (c : CellId) (f : CmpR)
  | cgeS64 (c : CellId) (f : CmpR)
  | cltU64 (c : CellId) (f : CmpR)
  | cgeU64 (c : CellId) (f : CmpR)
  | ceqiI64 (c : CellId) (f : CmpI)
  | cneiI64 (c : CellId) (f : CmpI)
  | cltiS64 (c : CellId) (f : CmpI)
  | cgeiS64 (c : CellId) (f : CmpI)
  | cltiU64 (c : CellId) (f : CmpI)
  | cgeiU64 (c : CellId) (f : CmpI)
  | pandP (c : CellId) (f : PlF)
  | porP (c : CellId) (f : PlF)
  | pxorP (c : CellId) (f : PlF)
  | pandnP (c : CellId) (f : PlF)
  | psetP (c : CellId) (f : PlF)
  | pclrP (c : CellId) (f : PlF)
  | prdP16 (c : CellId) (f : PmF)
  | pwrP16 (c : CellId) (f : PmF)
  | rdsrI64 (c : CellId) (f : SrF)
  | waitC (c : CellId) (f : Ctl)
  | waitoC (c : CellId) (f : Ctl)
  | stependC (c : CellId) (f : Ctl)
  | loopC (c : CellId) (f : LoopF)
  | agsetA24 (c : CellId) (f : AgF)
  | agrdU24 (c : CellId) (f : AgRdF)
  | lcrdU11 (c : CellId) (f : AgRdF)
  | agaddA24 (c : CellId) (f : AgF)
  | vaddF32 (c : CellId) (f : VecF)
  | vsubF32 (c : CellId) (f : VecF)
  | vmulF32 (c : CellId) (f : VecF)
  | vfmaF32 (c : CellId) (f : VecF)
  | vminF32 (c : CellId) (f : VecF)
  | vmaxF32 (c : CellId) (f : VecF)
  | vabsF32 (c : CellId) (f : VecF)
  | vnegF32 (c : CellId) (f : VecF)
  | vaddI32 (c : CellId) (f : VecF)
  | vsubI32 (c : CellId) (f : VecF)
  | vmulI32 (c : CellId) (f : VecF)
  | vandB32 (c : CellId) (f : VecF)
  | vorB32 (c : CellId) (f : VecF)
  | vxorB32 (c : CellId) (f : VecF)
  | vshlB32 (c : CellId) (f : VecF)
  | vshrU32 (c : CellId) (f : VecF)
  | vsarS32 (c : CellId) (f : VecF)
  | vminS32 (c : CellId) (f : VecF)
  | vmaxS32 (c : CellId) (f : VecF)
  | vminU32 (c : CellId) (f : VecF)
  | vmaxU32 (c : CellId) (f : VecF)
  | vrcpF32 (c : CellId) (f : VecF)
  | vsqrtF32 (c : CellId) (f : VecF)
  | vrsqrtF32 (c : CellId) (f : VecF)
  | vexp2F32 (c : CellId) (f : VecF)
  | vlog2F32 (c : CellId) (f : VecF)
  | vceqF32 (c : CellId) (f : VecF)
  | vcltF32 (c : CellId) (f : VecF)
  | vcleF32 (c : CellId) (f : VecF)
  | vcunF32 (c : CellId) (f : VecF)
  | vceqI32 (c : CellId) (f : VecF)
  | vcltS32 (c : CellId) (f : VecF)
  | vcltU32 (c : CellId) (f : VecF)
  | vcleS32 (c : CellId) (f : VecF)
  | vrsumF32 (c : CellId) (f : VecF)
  | vrmaxF32 (c : CellId) (f : VecF)
  | vrminF32 (c : CellId) (f : VecF)
  | vrsumI32 (c : CellId) (f : VecF)
  | vmxscE2m1 (c : CellId) (f : VecF)
  | vmxscE2m3 (c : CellId) (f : VecF)
  | vmxscE3m2 (c : CellId) (f : VecF)
  | vmxscE4m3 (c : CellId) (f : VecF)
  | vmxscE5m2 (c : CellId) (f : VecF)
  | vmxscI8 (c : CellId) (f : VecF)
  | vldL (c : CellId) (f : VecF)
  | vstL (c : CellId) (f : VecF)
  | vgatherU8 (c : CellId) (f : VecF)
  | vgatherU16 (c : CellId) (f : VecF)
  | vgatherB32 (c : CellId) (f : VecF)
  | vscatterB8 (c : CellId) (f : VecF)
  | vscatterB16 (c : CellId) (f : VecF)
  | vscatterB32 (c : CellId) (f : VecF)
  | vcvtI32F32 (c : CellId) (f : VecF)
  | vcvtF32I32 (c : CellId) (f : VecF)
  | vpkBf16 (c : CellId) (f : VecF)
  | vpkF16 (c : CellId) (f : VecF)
  | vpkE4m3 (c : CellId) (f : VecF)
  | vpkE5m2 (c : CellId) (f : VecF)
  | vpkE2m3 (c : CellId) (f : VecF)
  | vpkE3m2 (c : CellId) (f : VecF)
  | vpkE2m1 (c : CellId) (f : VecF)
  | vpkI8 (c : CellId) (f : VecF)
  | vpkI4 (c : CellId) (f : VecF)
  | vunpkBf16 (c : CellId) (f : VecF)
  | vunpkF16 (c : CellId) (f : VecF)
  | vunpkE4m3 (c : CellId) (f : VecF)
  | vunpkE5m2 (c : CellId) (f : VecF)
  | vunpkE2m3 (c : CellId) (f : VecF)
  | vunpkE3m2 (c : CellId) (f : VecF)
  | vunpkE2m1 (c : CellId) (f : VecF)
  | vunpkI8 (c : CellId) (f : VecF)
  | vunpkI4 (c : CellId) (f : VecF)
  | vscaleE8m0 (c : CellId) (f : VecF)
  | vmovB32 (c : CellId) (f : VecF)
  | vbcastB32 (c : CellId) (f : VecF)
  | viotaI32 (c : CellId) (f : VecF)
  | vpermB32 (c : CellId) (f : VecF)
  | vinsB32 (c : CellId) (f : VecF)
  | vextB32 (c : CellId) (f : VecF)
  | mlw (c : CellId) (f : MlwF)
  | mma (c : CellId) (f : MmaF) (wecc : EccW)
  | mcvt (c : CellId) (f : McvtF)
  | mstxX128 (c : CellId) (f : MaccF)
  | maddxX128 (c : CellId) (f : MaccF)
  | mclrX128 (c : CellId) (f : MaccF)
  | resultLanding (c : CellId)
  | scalarMemoryAccess (c : CellId) (ecc : Ecc)
  | vectorPortAccess (c : CellId) (ecc : EccW)
  | loopIterationEnd (c : CellId)
  | weightLineWrite (c : CellId)
  | weightTagSet (c : CellId)
  | mmaRowLanding (c : CellId) (ecc : EccW)
  | accRowRead (c : CellId) (ecc : EccW)
  | maddxGroupLanding (c : CellId) (ecc : EccW)
  | mclrZeroing (c : CellId)
  | sequencerEntry (lags : List (Nat × Nat))
  | crossbarRow (b : Nat) (tecc : Ecc)
  | crossbarBeatDelivery (b : Nat) (pecc : BeatEcc)
  | routerRow (b : Nat) (tecc : List (Nat × Ecc)) (pecc : BeatEcc)
  | barrowGo (b w : Nat) (recc tecc pecc : Ecc)
  | barrowLine (b w : Nat) (ecc : EccW)
  | instructionLoadComplete (p : Nat)
  | frameBoundary
  | stepBoundary (p : Nat)
  | bodyBoundary (p : Nat)
  | epochBoundary (p : Nat)
  | windowEngineSchedule (p : Nat)
  | jobZero
  | stackRead (k : Nat) (errs : List (Nat × Nat × Nat)) (pecc : BeatEcc)
  | stackDataReturn (k : Nat)
  | stackWriteOpen (k : Nat) (pecc : BeatEcc)
  | stackWriteBeat (k : Nat) (pecc : BeatEcc)
  | stackRefresh (k ch : Nat)
  | stackScrub (k ch : Nat) (errs : List (Nat × Nat × Nat))
  | retrainSweepDue
  | stackRetrainStep (k ch : Nat) (failed : List Nat) (whole : Bool)
  | rowRepair (k ch : Nat)
  | dieEvacuation (k : Nat)
  | spareDieAssign (k : Nat)
  | mergeFetch (k : Nat) (errs : List (Nat × Nat × Nat)) (pecc : BeatEcc)
  | mergedRead (k : Nat) (errs : List (Nat × Nat × Nat)) (mecc tecc : Ecc) (pecc : BeatEcc)
  | leaseZeroise (p : Nat) (tier : Tier) (idx : Nat)
  | zeroDone (p : Nat) (tier : Tier) (idx : Nat)
  | coldRequest (errs : List (Nat × List (Nat × Nat))) (pecc : BeatEcc)
  | coldDataReturn
  | coldRefresh (ch : Nat) (errs : List (Nat × Nat)) (retrain : RetrainOut)
  | coldChannelCopy
  | coldSpared
  | completionFlagSet (p seq : Nat)
  | completionFlagVisible (p seq : Nat)
  | stepResultPost (p : Nat)
  | parkCopy (p entry : Nat)
  | parked (p entry : Nat)
  | parkExpiryCheck
  | expired (p entry : Nat)
  | resumeCopyDone (p entry : Nat)
  | slotTransmit (i : Nat) (tecc : Ecc) (pecc : BeatEcc)
  | controlFlitTx (i : Nat)
  | flitReceive (i : Nat) (segs : List Seg) (flight8 : Nat)
  | controlFlitRx (i : Nat)
  | flitDeliver (i : Nat) (tecc : Ecc)
  | forwardLaunch (i : Nat)
  | spareDualSend (i : Nat)
  | laneSpared (i : Nat)
  | spareOkRestore (i : Nat)
  | portTraining (i : Nat) (r : TrainOut)
  | fastRetrain (i : Nat) (r : TrainOut)
  | linkDown (i : Nat) (lost : List Nat) (whole : Bool)
  | dynRequestRx
  | dynResponseRx
  | dynForward (i : Nat)
  | dynTimeout (ch tag : Nat)
  | quarantineResend (ch tag : Nat)
  | shadowFlitRx
  | twinMapTransfer (q : Nat) (m : TwinMap)
  | twinParkCopy (q entry : Nat)
  | twinRelease (q entry : Nat)
  | twinShadowServe (q : Nat) (rq : ShadowReq)
  | pairKeyExchange (chainOk : Bool)
  | twinHeartbeatLost
  | frameMark (refCycles : Nat) (word : BitVec 128) (err8 : Int)
  | hallLost
  | timeRefLost
  | refChangeover
  | gustSwitch
  | rotReadyLatch (p : Nat)
  | managerRound
  | health (m : MgrMsg)
  | seeded (m : MgrMsg)
  | notSeeded (m : MgrMsg)
  | vote (m : MgrMsg)
  | startAt (m : MgrMsg)
  | prune (m : MgrMsg)
  | graft (m : MgrMsg)
  | resumeAt (m : MgrMsg)
  | teardown (m : MgrMsg)
  | reseed (m : MgrMsg)
  | managerReplace (m : MgrMsg)
  | seedTransfer (p : Nat) (sp : SeedPiece)
  | seedAck (p child : Nat) (digest : Hash)
  | seedTimeout (p : Nat)
  | windbreakEstimate
  | overpower
  | thermalSensorRead (g : SensorGroup) (idx : Nat) (tempC : Int)
  | thermalStageStep
  | coolantLost (r : CoolantOut)
  | converterFailure (i : Nat)
  | phaseFailure (rail : Nat)
  | railFault (rail mV : Nat)
  | supplyUv (mV : Nat)
  | supplyOv (mV : Nat)
  | inputLockout (mV : Nat)
  | inputTurnOn (mV : Nat)
  | clipDetOpen
  | trayRstN
  | moduleReset (b : BootOut)
  | ready (startDs : Nat)
  | domainSwitch (d : Nat) (on : Bool)
  | sessionTimeout (sid : Nat)
  | proveWindowExpiry (sid : Nat)
  | passLockExpiry
  | managementRestartDone
  | fwActivateTimeout (t : FwTarget)
  | selfCalibrateDone (r : CalOut)
  | hostLinkReset (link : Nat) (fns : List Nat)
  | ideKeyChange (link stream : Nat)
  | doorbellWrite (fn k q : Nat) (v : Word)
  | ringEnable (fn k q : Nat)
  | ringDisable (fn k q : Nat)
  | submissionFetch (h : Hdr) (opcode : Nat)
  | mgmtDatagram (h : Hdr) (opcode : Nat)
  | counterSelect (v : Word)
  | counterSample
  | portWmRestart (i : Nat)
  | islandLagRestart (i : Nat)
  | pwrPeakRestart
  | registerWrite (fn off : Nat) (v : Word)
  | hubDomWrite (v : BitVec 8)
  | seqResetWrite (v : BitVec 8)
  | sessionOpen (h : Hdr) (role : Nat) (kh : Hash)
  | sessionProve (h : Hdr) (sid : Nat) (pf : ProveIn)
  | passOpen (h : Hdr)
  | passProve (h : Hdr) (sid : Nat) (pf : ProveIn)
  | sessionClose (h : Hdr)
  | identityRead (h : Hdr)
  | attest (h : Hdr) (nonce : Hash)
  | auditRead (h : Hdr) (sel first count : Nat)
  | roleKeySet (h : Hdr) (table entry : Nat) (kh : Hash) (parts : List Nat)
  | passphraseSet (h : Hdr) (pass : List Nat)
  | tenantBind (h : Hdr) (entry : Nat) (kh : Hash)
  | tenantUnbind (h : Hdr) (entry : Nat) (kh : Hash)
  | keyRotate (h : Hdr)
  | twinPair (h : Hdr) (serial : Option Nat)
  | provision (h : Hdr) (certs : List Nat) (kh : Hash)
  | debugUnlock (h : Hdr) (tokenOk : Bool)
  | partCreate (h : Hdr) (d : PartDef)
  | partResize (h : Hdr) (d : PartDef)
  | partDestroy (h : Hdr)
  | partStatus (h : Hdr)
  | zeroiseAll (h : Hdr)
  | planLoad (h : Hdr) (src : Src) (len x : Nat) (img : PlanImage)
  | planSectionLoad (h : Hdr) (src : Src) (len : Nat) (img : PlanImage)
  | planCheck (h : Hdr) (src : Src) (len x : Nat) (img : PlanImage)
  | planUnload (h : Hdr)
  | planStart (h : Hdr) (mark : Nat)
  | planStop (h : Hdr)
  | planBankSwitch (h : Hdr)
  | planResume (h : Hdr) (mark : Nat)
  | bundleLoad (h : Hdr) (src : Src) (set : Bool) (scion slot : Nat) (bn : Bundle)
  | bundleLoadDone (p : Nat)
  | bundleStatus (h : Hdr) (set : Bool) (scion : Nat)
  | bundleFree (h : Hdr) (set : Bool) (scion : Nat)
  | rotate (h : Hdr) (step : Nat)
  | coldStage (h : Hdr) (host paddr lines : Nat) (data : List Line)
  | slotInput (h : Hdr) (slot host count : Nat) (tokens : List Lane)
  | slotAccept (h : Hdr) (slot count : Nat)
  | slotDeadline (h : Hdr) (slot hallNs : Nat)
  | slotEdit (h : Hdr) (slot host : Nat) (e : EditIn)
  | slotResume (h : Hdr) (entry : Nat) (pages : List Nat)
  | parkStatus (h : Hdr) (entry : Nat)
  | parkDrop (h : Hdr) (entry : Nat)
  | slotRead (h : Hdr) (slot : Nat)
  | jobJoin (h : Hdr) (j : JobIn) (wrap : JobWrap)
  | jobStatus (h : Hdr)
  | jobLeave (h : Hdr)
  | managerSet (h : Hdr) (on : Bool) (floor budget score : Nat) (spares : List Nat)
  | seedSource (h : Hdr) (img : PlanImage) (bundles : List SeedBundle)
  | spareOffer (h : Hdr) (job : Nat) (mgrs : List Nat)
  | detachPrepare (h : Hdr)
  | detachCancel (h : Hdr)
  | jobEnd (h : Hdr) (frame : Nat)
  | portOpen (h : Hdr) (i job rank serial : Nat) (routes : SMap (BitVec 16))
  | portFence (h : Hdr) (i : Nat)
  | fabricCopy (h : Hdr) (x : CopyIn)
  | fabricStatus (h : Hdr) (i : Nat)
  | powerStatus (h : Hdr)
  | powerCapSet (h : Hdr) (watts : Nat)
  | powerFloorSet (h : Hdr) (gust : Nat)
  | windbreakMode (h : Hdr) (on : Bool)
  | energyRead (h : Hdr)
  | counterSet (h : Hdr) (loc idx event mode : Nat)
  | counterRead (h : Hdr) (loc : Nat) (idxs : List Nat)
  | errorLogRead (h : Hdr) (first count : Nat)
  | healthRead (h : Hdr)
  | cellRetire (h : Hdr) (b cell : Nat)
  | diagRun (h : Hdr) (kind unit : Nat) (r : DiagOut)
  | rmaDiag (h : Hdr) (kind unit test : Nat) (r : DiagOut) (unretire : Option Nat)
  | fwInstall (h : Hdr) (t : FwTarget) (img : FwImage)
  | fwActivate (h : Hdr) (t : FwTarget) (runs : Bool)
  | fwStatus (h : Hdr) (t : FwTarget)
  | fwMinAdvance (h : Hdr) (t : FwTarget)
  | calRead (h : Hdr) (host : Nat)
  | calWrite (h : Hdr) (host : Nat) (set : CalSet) (flashOk : Bool)
  | selfCalibrate (h : Hdr) (region : Bool) (idx : Nat)
  | portConfig (h : Hdr) (i : Nat) (on : Bool) (role : Nat)
  | hostLinkConfig (h : Hdr) (bifurcated : Bool)
  | fuseWrite (h : Hdr) (group : Nat) (value : Word)
  | missingPulse
  | spareLaneSegment (i : Nat) (sg : Seg)
  | trayRstNHigh
  | perstNRelease (n : Nat)
  | setdasa (addr : BitVec 7)
  | hubDomBootDone (b : BootOut)
  | fwInstallDone (t : FwTarget) (ok : Bool)
  | coldStageDone (p : Nat)
  deriving DecidableEq, Repr

end Sys2Proof
end

