-- ==== Sys2Proof/Decode.lean ====
section
/-! DEFINITION. The words of the commands. No row of the opcode table gives bits, so `decodeTableWord` answers none. The
cell instructions do have 64-bit words (Tables 3.6 to 3.8, 4.3, 4.11, 4.12, 6.6 to 6.9): `cellInstr` reads one as the
command it stands for, and `<format>.word` writes it. -/

namespace Sys2Proof

/-- The command a table word spells: no row of the table gives bits. -/
def decodeTableWord (_nbits _w : Nat) : Option Instr := none

/-- Opcode and predicate fields of a word (Table 3.6), bits [63:53]. -/
def En.head (opc : Nat) (e : En) : Nat := opc * 2 ^ 58 + e.pred.toNat * 2 ^ 54 + e.sense.toNat * 2 ^ 53

def RR.word (func : Nat) (f : RR) : Word := BitVec.ofNat 64
  (f.en.head 0x01 + f.rd.toNat * 2 ^ 48 + f.ra.toNat * 2 ^ 43 + f.rb.toNat * 2 ^ 38 + func * 2 ^ 32 + f.rsv.toNat)

def RI.word (opc : Nat) (f : RI) : Word := BitVec.ofNat 64
  (f.en.head opc + f.rd.toNat * 2 ^ 48 + f.ra.toNat * 2 ^ 43 + f.rsv.toNat * 2 ^ 32 + f.imm.toNat)

def MemF.word (opc : Nat) (f : MemF) : Word := BitVec.ofNat 64
  (f.en.head opc + f.rd.toNat * 2 ^ 48 + f.ra.toNat * 2 ^ 43 + f.size.toNat * 2 ^ 40 + f.rsv.toNat * 2 ^ 32 + f.imm.toNat)

def CmpR.word (cond : Nat) (f : CmpR) : Word := BitVec.ofNat 64
  (f.en.head 0x18 + f.pd.toNat * 2 ^ 49 + f.rsvHi.toNat * 2 ^ 48 + f.ra.toNat * 2 ^ 43 + f.rb.toNat * 2 ^ 38
    + cond * 2 ^ 35 + f.rsv.toNat)

def CmpI.word (cond : Nat) (f : CmpI) : Word := BitVec.ofNat 64
  (f.en.head 0x19 + f.pd.toNat * 2 ^ 49 + f.rsvHi.toNat * 2 ^ 48 + f.ra.toNat * 2 ^ 43 + cond * 2 ^ 40
    + f.rsv.toNat * 2 ^ 32 + f.imm.toNat)

def PlF.word (func : Nat) (f : PlF) : Word := BitVec.ofNat 64
  (f.en.head 0x1A + f.pd.toNat * 2 ^ 49 + f.pa.toNat * 2 ^ 45 + f.pb.toNat * 2 ^ 41 + func * 2 ^ 38 + f.rsv.toNat)

def PmF.word (func : Nat) (f : PmF) : Word := BitVec.ofNat 64
  (f.en.head 0x1B + f.rd.toNat * 2 ^ 48 + f.ra.toNat * 2 ^ 43 + func * 2 ^ 40 + f.rsv.toNat * 2 ^ 16 + f.mask.toNat)

def SrF.word (f : SrF) : Word := BitVec.ofNat 64
  (f.en.head 0x20 + f.rd.toNat * 2 ^ 48 + f.sr.toNat * 2 ^ 40 + f.rsv.toNat)

def Ctl.word (opc : Nat) (f : Ctl) : Word := BitVec.ofNat 64
  (f.en.head opc + f.rsvHi.toNat * 2 ^ 48 + f.ra.toNat * 2 ^ 43 + f.rsvMid.toNat * 2 ^ 32 + f.lo.toNat)

def LoopF.word (f : LoopF) : Word := BitVec.ofNat 64
  (f.en.head 0x24 + f.body.toNat * 2 ^ 48 + f.depth.toNat * 2 ^ 46 + f.rsv.toNat * 2 ^ 44 + f.trip3.toNat * 2 ^ 33
    + f.trip2.toNat * 2 ^ 22 + f.trip1.toNat * 2 ^ 11 + f.trip0.toNat)

def AgF.word (opc : Nat) (f : AgF) : Word := BitVec.ofNat 64
  (f.en.head opc + f.ag.toNat * 2 ^ 49 + f.field.toNat * 2 ^ 45 + f.ra.toNat * 2 ^ 40 + f.rsv.toNat * 2 ^ 32 + f.imm.toNat)

def AgRdF.word (sel : Nat) (f : AgRdF) : Word := BitVec.ofNat 64
  (f.en.head 0x26 + f.rd.toNat * 2 ^ 48 + sel * 2 ^ 46 + f.idx.toNat * 2 ^ 42 + f.rsv.toNat)

def VecF.word (opc func : Nat) (f : VecF) : Word := BitVec.ofNat 64
  (f.en.head opc + f.vd.toNat * 2 ^ 48 + f.va.toNat * 2 ^ 43 + f.vb.toNat * 2 ^ 38 + f.vc.toNat * 2 ^ 33
    + f.lm.toNat * 2 ^ 28 + func * 2 ^ 22 + f.bc.toNat * 2 ^ 21 + f.rm.toNat * 2 ^ 19 + f.sat.toNat * 2 ^ 18 + f.lo.toNat)

def MlwF.word (f : MlwF) : Word := BitVec.ofNat 64
  (f.en.head 0x34 + f.ag.toNat * 2 ^ 49 + f.wfmt.toNat * 2 ^ 45 + f.wmx.toNat * 2 ^ 44 + f.wb.toNat * 2 ^ 43 + f.rsv.toNat)

def MmaF.word (f : MmaF) : Word := BitVec.ofNat 64
  (f.en.head 0x35 + f.ag.toNat * 2 ^ 49 + f.vs.toNat * 2 ^ 44 + f.afmt.toNat * 2 ^ 40 + f.wfmt.toNat * 2 ^ 36
    + f.amx.toNat * 2 ^ 35 + f.wmx.toNat * 2 ^ 34 + f.wb.toNat * 2 ^ 33 + f.z.toNat * 2 ^ 32 + f.acc.toNat * 2 ^ 25
    + f.rows.toNat * 2 ^ 19 + f.rsv.toNat)

def McvtF.word (f : McvtF) : Word := BitVec.ofNat 64
  (f.en.head 0x36 + f.ag.toNat * 2 ^ 49 + f.rs.toNat * 2 ^ 44 + f.ofmt.toNat * 2 ^ 40 + f.rm.toNat * 2 ^ 38
    + f.sat.toNat * 2 ^ 37 + f.clr.toNat * 2 ^ 36 + f.accf.toNat * 2 ^ 35 + f.acc.toNat * 2 ^ 28 + f.rows.toNat * 2 ^ 22
    + f.rsv.toNat)

def MaccF.word (opc : Nat) (f : MaccF) : Word := BitVec.ofNat 64
  (f.en.head opc + f.ag.toNat * 2 ^ 49 + f.acc.toNat * 2 ^ 42 + f.rows.toNat * 2 ^ 36 + f.opt.toNat * 2 ^ 35 + f.rsv.toNat)

/-- The bits `[lo + n - 1 : lo]` of an instruction word. -/
def fieldOf (w : Word) (lo n : Nat) : BitVec n := BitVec.extractLsb' lo n w

/-- One bit of an instruction word. -/
def flagOf (w : Word) (i : Nat) : Bool := w.getLsbD i

def enOf (w : Word) (e : Ecc) : En := ⟨fieldOf w 54 4, flagOf w 53, e⟩
def rrOf (w : Word) (e : Ecc) : RR := ⟨enOf w e, fieldOf w 48 5, fieldOf w 43 5, fieldOf w 38 5, fieldOf w 0 32⟩
def riOf (w : Word) (e : Ecc) : RI := ⟨enOf w e, fieldOf w 48 5, fieldOf w 43 5, fieldOf w 32 11, fieldOf w 0 32⟩
def memOf (w : Word) (e : Ecc) : MemF :=
  ⟨enOf w e, fieldOf w 48 5, fieldOf w 43 5, fieldOf w 40 3, fieldOf w 32 8, fieldOf w 0 32⟩
def cmpROf (w : Word) (e : Ecc) : CmpR :=
  ⟨enOf w e, fieldOf w 49 4, fieldOf w 48 1, fieldOf w 43 5, fieldOf w 38 5, fieldOf w 0 35⟩
def cmpIOf (w : Word) (e : Ecc) : CmpI :=
  ⟨enOf w e, fieldOf w 49 4, fieldOf w 48 1, fieldOf w 43 5, fieldOf w 32 8, fieldOf w 0 32⟩
def plOf (w : Word) (e : Ecc) : PlF := ⟨enOf w e, fieldOf w 49 4, fieldOf w 45 4, fieldOf w 41 4, fieldOf w 0 38⟩
def pmOf (w : Word) (e : Ecc) : PmF :=
  ⟨enOf w e, fieldOf w 48 5, fieldOf w 43 5, fieldOf w 16 24, fieldOf w 0 16⟩
def srOf (w : Word) (e : Ecc) : SrF := ⟨enOf w e, fieldOf w 48 5, fieldOf w 40 8, fieldOf w 0 40⟩
def ctlOf (w : Word) (e : Ecc) : Ctl :=
  ⟨enOf w e, fieldOf w 48 5, fieldOf w 43 5, fieldOf w 32 11, fieldOf w 0 32⟩
def loopOf (w : Word) (e : Ecc) : LoopF :=
  ⟨enOf w e, fieldOf w 48 5, fieldOf w 46 2, fieldOf w 44 2, fieldOf w 33 11, fieldOf w 22 11, fieldOf w 11 11, fieldOf w 0 11⟩
def agOf (w : Word) (e : Ecc) : AgF :=
  ⟨enOf w e, fieldOf w 49 4, fieldOf w 45 4, fieldOf w 40 5, fieldOf w 32 8, fieldOf w 0 32⟩
def agRdOf (w : Word) (e : Ecc) : AgRdF := ⟨enOf w e, fieldOf w 48 5, fieldOf w 42 4, fieldOf w 0 42⟩
def vecOf (w : Word) (e : Ecc) : VecF :=
  ⟨enOf w e, fieldOf w 48 5, fieldOf w 43 5, fieldOf w 38 5, fieldOf w 33 5, fieldOf w 28 5, flagOf w 21,
   fieldOf w 19 2, flagOf w 18, fieldOf w 0 18⟩
def mlwOf (w : Word) (e : Ecc) : MlwF :=
  ⟨enOf w e, fieldOf w 49 4, fieldOf w 45 4, flagOf w 44, flagOf w 43, fieldOf w 0 43⟩
def mmaOf (w : Word) (e : Ecc) : MmaF :=
  ⟨enOf w e, fieldOf w 49 4, fieldOf w 44 5, fieldOf w 40 4, fieldOf w 36 4, flagOf w 35, flagOf w 34, flagOf w 33,
   flagOf w 32, fieldOf w 25 7, fieldOf w 19 6, fieldOf w 0 19⟩
def mcvtOf (w : Word) (e : Ecc) : McvtF :=
  ⟨enOf w e, fieldOf w 49 4, fieldOf w 44 5, fieldOf w 40 4, fieldOf w 38 2, flagOf w 37, flagOf w 36, flagOf w 35,
   fieldOf w 28 7, fieldOf w 22 6, fieldOf w 0 22⟩
def maccOf (w : Word) (e : Ecc) : MaccF :=
  ⟨enOf w e, fieldOf w 49 4, fieldOf w 42 7, fieldOf w 36 6, flagOf w 35, fieldOf w 0 35⟩

/-! ### Legality of the formats (R83) -/

def RR.legal (f : RR) : Bool := f.rsv == 0
def RI.legal (f : RI) : Bool := f.rsv == 0
/-- Shift immediates reserve IMM32[31:6] (R85). -/
def RI.legalShift (f : RI) : Bool := f.rsv == 0 && decide (f.imm.toNat < 64)
/-- A MEM word whose size code is among those assigned (Table 3.11). -/
def MemF.legal (f : MemF) (sizes : List Nat) : Bool := f.rsv == 0 && sizes.contains f.size.toNat
def CmpR.legal (f : CmpR) : Bool := f.rsvHi == 0 && f.rsv == 0
def CmpI.legal (f : CmpI) : Bool := f.rsvHi == 0 && f.rsv == 0
def PlF.legal (f : PlF) : Bool := f.rsv == 0
/-- PSET.P and PCLR.P reserve PA and PB. -/
def PlF.legalConst (f : PlF) : Bool := f.rsv == 0 && f.pa == 0 && f.pb == 0
/-- PRD.P16 reserves RA and MASK. -/
def PmF.legalRead (f : PmF) : Bool := f.rsv == 0 && f.ra == 0 && f.mask == 0
/-- PWR.P16 reserves RD. -/
def PmF.legalWrite (f : PmF) : Bool := f.rsv == 0 && f.rd == 0
/-- Special codes 0x08 to 0xFF are unassigned. -/
def SrF.legal (f : SrF) : Bool := f.rsv == 0 && decide (f.sr.toNat ≤ 7)
def Ctl.legalWait (f : Ctl) : Bool := f.rsvHi == 0 && f.ra == 0 && f.rsvMid == 0 && decide (f.lo.toNat < 2 ^ 24)
def Ctl.legalWaito (f : Ctl) : Bool := f.rsvHi == 0 && f.rsvMid == 0 && f.lo == 0
/-- R92: STEPEND.C takes PRED = 0 and SENSE = 0 only. -/
def Ctl.legalStepend (f : Ctl) : Bool :=
  f.rsvHi == 0 && f.ra == 0 && f.rsvMid == 0 && f.lo == 0 && f.en.pred == 0 && !f.en.sense
/-- A word is NOP.C when its opcode and bits [52:0] are zero. -/
def nopLegal (w : Word) : Bool := decide (w.toNat / 2 ^ 58 = 0) && decide (w.toNat % 2 ^ 53 = 0)
/-- TRIP of a level at or above D must be 0 (Table 4.12). -/
def LoopF.legal (f : LoopF) : Bool :=
  f.rsv == 0 && (decide (1 ≤ f.depth.toNat) || f.trip1 == 0) && (decide (2 ≤ f.depth.toNat) || f.trip2 == 0)
    && (decide (3 ≤ f.depth.toNat) || f.trip3 == 0)
/-- FIELD 6 to 15 are unassigned. -/
def AgF.legalSet (f : AgF) : Bool := f.rsv == 0 && decide (f.field.toNat ≤ 5)
def AgF.legalAdd (f : AgF) : Bool := f.rsv == 0 && f.field == 0
def AgRdF.legal (f : AgRdF) : Bool := f.rsv == 0
/-- LCRD.U11 reserves IDX[3:2]. -/
def AgRdF.legalLc (f : AgRdF) : Bool := f.rsv == 0 && decide (f.idx.toNat < 4)

/-- The fields every V word outside OPC 0x2F leaves reserved: RM, SAT and, except line offsets, bits [17:0]. -/
def VecF.plain (f : VecF) : Bool := f.rm == 0 && !f.sat && f.lo == 0

/-- VC is reserved. -/
def VecF.noC (f : VecF) : Bool := f.plain && f.vc == 0
/-- VB, VC and BC are reserved. -/
def VecF.noBC (f : VecF) : Bool := f.plain && f.vc == 0 && f.vb == 0 && !f.bc
/-- VC and BC are reserved. -/
def VecF.noCBc (f : VecF) : Bool := f.plain && f.vc == 0 && !f.bc
/-- The address generator a memory instruction names: VA[46:43]. -/
def VecF.agOf (f : VecF) : Nat := f.va.toNat % 16
/-- Bit [47] and bits [17:16] are reserved in OPC 0x2D and 0x2E, and RM, SAT and BC. -/
def VecF.memPlain (f : VecF) : Bool :=
  decide (f.va.toNat < 16) && f.vc == 0 && !f.bc && f.rm == 0 && !f.sat && decide (f.lo.toNat < 2 ^ 16)
/-- The field index Q, bits [35:33]. -/
def VecF.q (f : VecF) : Nat := f.vc.toNat % 8
/-- OPC 0x2F: bits [37:36], BC and bits [17:0] are reserved, Q is below the fields per lane, RM 0b11 is unassigned. -/
def VecF.cvtPlain (f : VecF) (fields : Nat) : Bool :=
  decide (f.vc.toNat < 8) && decide (f.q < fields) && !f.bc && f.lo == 0 && decide (f.rm.toNat < 3)

/-- Formats an MX bit may go with: codes 0x1 to 0x6 (R142). -/
def mxFmt (fmt : Nat) : Bool := decide (1 ≤ fmt) && decide (fmt ≤ 6)
/-- MLW (Table 6.6, R142). -/
def MlwF.legal (f : MlwF) : Bool := f.rsv == 0 && decide (f.wfmt.toNat ≤ 9) && (!f.wmx || mxFmt f.wfmt.toNat)
/-- The permitted pairs of Table 6.3. -/
def pairOk (a w : Nat) : Bool := (decide (a ≤ 7) && decide (w ≤ 7)) || (decide (a = w) && (a == 8 || a == 9))
/-- MMA (Table 6.7, R142, R146); VS is reserved when AMX = 0. -/
def MmaF.legal (f : MmaF) : Bool :=
  f.rsv == 0 && pairOk f.afmt.toNat f.wfmt.toNat && (!f.amx || mxFmt f.afmt.toNat) && (!f.wmx || mxFmt f.wfmt.toNat)
    && (f.amx || f.vs == 0) && decide (f.acc.toNat + f.rows.toNat + 1 ≤ 128)
/-- Rows per line R of Table 6.4; 0 stands for the half row of 32-bit formats. -/
def rowsPerLine (fmt : Nat) : Nat :=
  match fmt with
  | 0 => 4
  | 1 => 4
  | 7 => 1
  | 8 => 1
  | 9 => 0
  | 10 => 0
  | _ => 2
/-- MCVT (Table 6.8, R146). -/
def McvtF.legal (f : McvtF) : Bool :=
  f.rsv == 0 && decide (f.ofmt.toNat ≤ 10) && decide (f.rm.toNat < 3) && decide (f.acc.toNat + f.rows.toNat + 1 ≤ 128)
    && (rowsPerLine f.ofmt.toNat == 0 || (f.rows.toNat + 1) % rowsPerLine f.ofmt.toNat == 0)
/-- MSTX and MADDX (Table 6.9, R146). -/
def MaccF.legal (f : MaccF) : Bool :=
  f.rsv == 0 && decide (f.acc.toNat + f.rows.toNat + 1 ≤ 128) && (f.rows.toNat + 1) % 4 == 0
/-- MCLR reserves AG and bit [35] and takes any row count (Table 6.9). -/
def MaccF.legalClr (f : MaccF) : Bool :=
  f.rsv == 0 && f.ag == 0 && !f.opt && decide (f.acc.toNat + f.rows.toNat + 1 ≤ 128)

/-- OPC 0x01 by FUNC (Table 3.9). -/
def rrInstr (c : CellId) (w : Word) (e : Ecc) : Option Instr :=
  match (fieldOf w 32 6).toNat with
  | 0x0 => some (.addI64 c (rrOf w e))
  | 0x1 => some (.subI64 c (rrOf w e))
  | 0x2 => some (.andB64 c (rrOf w e))
  | 0x3 => some (.orB64 c (rrOf w e))
  | 0x4 => some (.xorB64 c (rrOf w e))
  | 0x5 => some (.shlB64 c (rrOf w e))
  | 0x6 => some (.shrU64 c (rrOf w e))
  | 0x7 => some (.sarS64 c (rrOf w e))
  | 0x8 => some (.minS64 c (rrOf w e))
  | 0x9 => some (.maxS64 c (rrOf w e))
  | 0xA => some (.minU64 c (rrOf w e))
  | 0xB => some (.maxU64 c (rrOf w e))
  | 0xC => some (.mulI64 c (rrOf w e))
  | 0xD => some (.mulhU64 c (rrOf w e))
  | 0xE => some (.divU64 c (rrOf w e))
  | 0xF => some (.remU64 c (rrOf w e))
  | _ => none

/-- OPC 0x18 by COND (Table 3.13). -/
def cmpRInstr (c : CellId) (w : Word) (e : Ecc) : Option Instr :=
  match (fieldOf w 35 3).toNat with
  | 0x0 => some (.ceqI64 c (cmpROf w e))
  | 0x1 => some (.cneI64 c (cmpROf w e))
  | 0x2 => some (.cltS64 c (cmpROf w e))
  | 0x3 => some (.cgeS64 c (cmpROf w e))
  | 0x4 => some (.cltU64 c (cmpROf w e))
  | 0x5 => some (.cgeU64 c (cmpROf w e))
  | _ => none

/-- OPC 0x19 by COND (Table 3.13). -/
def cmpIInstr (c : CellId) (w : Word) (e : Ecc) : Option Instr :=
  match (fieldOf w 40 3).toNat with
  | 0x0 => some (.ceqiI64 c (cmpIOf w e))
  | 0x1 => some (.cneiI64 c (cmpIOf w e))
  | 0x2 => some (.cltiS64 c (cmpIOf w e))
  | 0x3 => some (.cgeiS64 c (cmpIOf w e))
  | 0x4 => some (.cltiU64 c (cmpIOf w e))
  | 0x5 => some (.cgeiU64 c (cmpIOf w e))
  | _ => none

/-- OPC 0x1A by FUNC (Table 3.14). -/
def plInstr (c : CellId) (w : Word) (e : Ecc) : Option Instr :=
  match (fieldOf w 38 3).toNat with
  | 0x0 => some (.pandP c (plOf w e))
  | 0x1 => some (.porP c (plOf w e))
  | 0x2 => some (.pxorP c (plOf w e))
  | 0x3 => some (.pandnP c (plOf w e))
  | 0x4 => some (.psetP c (plOf w e))
  | 0x5 => some (.pclrP c (plOf w e))
  | _ => none

/-- OPC 0x1B by FUNC (Table 3.14). -/
def pmInstr (c : CellId) (w : Word) (e : Ecc) : Option Instr :=
  match (fieldOf w 40 3).toNat with
  | 0x0 => some (.prdP16 c (pmOf w e))
  | 0x1 => some (.pwrP16 c (pmOf w e))
  | _ => none

/-- OPC 0x26 by SEL (Table 4.11). -/
def agRdInstr (c : CellId) (w : Word) (e : Ecc) : Option Instr :=
  match (fieldOf w 46 2).toNat with
  | 0x0 => some (.agrdU24 c (agRdOf w e))
  | 0x1 => some (.lcrdU11 c (agRdOf w e))
  | _ => none

/-- OPC 0x28 by FUNC (Tables 4.4 to 4.9). -/
def vec28Instr (c : CellId) (w : Word) (e : Ecc) : Option Instr :=
  match (fieldOf w 22 6).toNat with
  | 0x0 => some (.vaddF32 c (vecOf w e))
  | 0x1 => some (.vsubF32 c (vecOf w e))
  | 0x2 => some (.vmulF32 c (vecOf w e))
  | 0x3 => some (.vfmaF32 c (vecOf w e))
  | 0x4 => some (.vminF32 c (vecOf w e))
  | 0x5 => some (.vmaxF32 c (vecOf w e))
  | 0x6 => some (.vabsF32 c (vecOf w e))
  | 0x7 => some (.vnegF32 c (vecOf w e))
  | _ => none

/-- OPC 0x29 by FUNC (Tables 4.4 to 4.9). -/
def vec29Instr (c : CellId) (w : Word) (e : Ecc) : Option Instr :=
  match (fieldOf w 22 6).toNat with
  | 0x0 => some (.vaddI32 c (vecOf w e))
  | 0x1 => some (.vsubI32 c (vecOf w e))
  | 0x2 => some (.vmulI32 c (vecOf w e))
  | 0x3 => some (.vandB32 c (vecOf w e))
  | 0x4 => some (.vorB32 c (vecOf w e))
  | 0x5 => some (.vxorB32 c (vecOf w e))
  | 0x6 => some (.vshlB32 c (vecOf w e))
  | 0x7 => some (.vshrU32 c (vecOf w e))
  | 0x8 => some (.vsarS32 c (vecOf w e))
  | 0x9 => some (.vminS32 c (vecOf w e))
  | 0xA => some (.vmaxS32 c (vecOf w e))
  | 0xB => some (.vminU32 c (vecOf w e))
  | 0xC => some (.vmaxU32 c (vecOf w e))
  | _ => none

/-- OPC 0x2A by FUNC (Tables 4.4 to 4.9). -/
def vec2AInstr (c : CellId) (w : Word) (e : Ecc) : Option Instr :=
  match (fieldOf w 22 6).toNat with
  | 0x0 => some (.vrcpF32 c (vecOf w e))
  | 0x1 => some (.vsqrtF32 c (vecOf w e))
  | 0x2 => some (.vrsqrtF32 c (vecOf w e))
  | 0x3 => some (.vexp2F32 c (vecOf w e))
  | 0x4 => some (.vlog2F32 c (vecOf w e))
  | _ => none

/-- OPC 0x2B by FUNC (Tables 4.4 to 4.9). -/
def vec2BInstr (c : CellId) (w : Word) (e : Ecc) : Option Instr :=
  match (fieldOf w 22 6).toNat with
  | 0x0 => some (.vceqF32 c (vecOf w e))
  | 0x1 => some (.vcltF32 c (vecOf w e))
  | 0x2 => some (.vcleF32 c (vecOf w e))
  | 0x3 => some (.vcunF32 c (vecOf w e))
  | 0x8 => some (.vceqI32 c (vecOf w e))
  | 0x9 => some (.vcltS32 c (vecOf w e))
  | 0xA => some (.vcltU32 c (vecOf w e))
  | 0xB => some (.vcleS32 c (vecOf w e))
  | _ => none

/-- OPC 0x2C by FUNC (Tables 4.4 to 4.9). -/
def vec2CInstr (c : CellId) (w : Word) (e : Ecc) : Option Instr :=
  match (fieldOf w 22 6).toNat with
  | 0x0 => some (.vrsumF32 c (vecOf w e))
  | 0x1 => some (.vrmaxF32 c (vecOf w e))
  | 0x2 => some (.vrminF32 c (vecOf w e))
  | 0x3 => some (.vrsumI32 c (vecOf w e))
  | 0x8 => some (.vmxscE2m1 c (vecOf w e))
  | 0x9 => some (.vmxscE2m3 c (vecOf w e))
  | 0xA => some (.vmxscE3m2 c (vecOf w e))
  | 0xB => some (.vmxscE4m3 c (vecOf w e))
  | 0xC => some (.vmxscE5m2 c (vecOf w e))
  | 0xD => some (.vmxscI8 c (vecOf w e))
  | _ => none

/-- OPC 0x2D by FUNC (Tables 4.4 to 4.9). -/
def vec2DInstr (c : CellId) (w : Word) (e : Ecc) : Option Instr :=
  match (fieldOf w 22 6).toNat with
  | 0x0 => some (.vldL c (vecOf w e))
  | 0x1 => some (.vstL c (vecOf w e))
  | _ => none

/-- OPC 0x2E by FUNC (Tables 4.4 to 4.9). -/
def vec2EInstr (c : CellId) (w : Word) (e : Ecc) : Option Instr :=
  match (fieldOf w 22 6).toNat with
  | 0x0 => some (.vgatherU8 c (vecOf w e))
  | 0x1 => some (.vgatherU16 c (vecOf w e))
  | 0x2 => some (.vgatherB32 c (vecOf w e))
  | 0x4 => some (.vscatterB8 c (vecOf w e))
  | 0x5 => some (.vscatterB16 c (vecOf w e))
  | 0x6 => some (.vscatterB32 c (vecOf w e))
  | _ => none

/-- OPC 0x2F by FUNC (Tables 4.4 to 4.9). -/
def vec2FInstr (c : CellId) (w : Word) (e : Ecc) : Option Instr :=
  match (fieldOf w 22 6).toNat with
  | 0x0 => some (.vcvtI32F32 c (vecOf w e))
  | 0x1 => some (.vcvtF32I32 c (vecOf w e))
  | 0x2 => some (.vpkBf16 c (vecOf w e))
  | 0x3 => some (.vpkF16 c (vecOf w e))
  | 0x4 => some (.vpkE4m3 c (vecOf w e))
  | 0x5 => some (.vpkE5m2 c (vecOf w e))
  | 0x6 => some (.vpkE2m3 c (vecOf w e))
  | 0x7 => some (.vpkE3m2 c (vecOf w e))
  | 0x8 => some (.vpkE2m1 c (vecOf w e))
  | 0x9 => some (.vpkI8 c (vecOf w e))
  | 0xA => some (.vpkI4 c (vecOf w e))
  | 0x10 => some (.vunpkBf16 c (vecOf w e))
  | 0x11 => some (.vunpkF16 c (vecOf w e))
  | 0x12 => some (.vunpkE4m3 c (vecOf w e))
  | 0x13 => some (.vunpkE5m2 c (vecOf w e))
  | 0x14 => some (.vunpkE2m3 c (vecOf w e))
  | 0x15 => some (.vunpkE3m2 c (vecOf w e))
  | 0x16 => some (.vunpkE2m1 c (vecOf w e))
  | 0x17 => some (.vunpkI8 c (vecOf w e))
  | 0x18 => some (.vunpkI4 c (vecOf w e))
  | 0x20 => some (.vscaleE8m0 c (vecOf w e))
  | _ => none

/-- OPC 0x30 by FUNC (Tables 4.4 to 4.9). -/
def vec30Instr (c : CellId) (w : Word) (e : Ecc) : Option Instr :=
  match (fieldOf w 22 6).toNat with
  | 0x0 => some (.vmovB32 c (vecOf w e))
  | 0x1 => some (.vbcastB32 c (vecOf w e))
  | 0x2 => some (.viotaI32 c (vecOf w e))
  | 0x3 => some (.vpermB32 c (vecOf w e))
  | 0x4 => some (.vinsB32 c (vecOf w e))
  | 0x5 => some (.vextB32 c (vecOf w e))
  | _ => none

/-- The command a cell instruction word stands for; none where its opcode, function or condition is unassigned (R83). -/
def cellInstr (c : CellId) (w : Word) (e : Ecc) : Option Instr :=
  match (fieldOf w 58 6).toNat with
  | 0x00 => some (.nopC c w e)
  | 0x01 => rrInstr c w e
  | 0x2 => some (.addiI64 c (riOf w e))
  | 0x3 => some (.andiB64 c (riOf w e))
  | 0x4 => some (.oriB64 c (riOf w e))
  | 0x5 => some (.xoriB64 c (riOf w e))
  | 0x6 => some (.shliB64 c (riOf w e))
  | 0x7 => some (.shriU64 c (riOf w e))
  | 0x8 => some (.sariS64 c (riOf w e))
  | 0x9 => some (.lihB64 c (riOf w e))
  | 0xA => some (.muliI64 c (riOf w e))
  | 0x10 => some (.ld c (memOf w e))
  | 0x11 => some (.st c (memOf w e))
  | 0x12 => some (.ldx c (memOf w e))
  | 0x13 => some (.stx c (memOf w e))
  | 0x18 => cmpRInstr c w e
  | 0x19 => cmpIInstr c w e
  | 0x1A => plInstr c w e
  | 0x1B => pmInstr c w e
  | 0x20 => some (.rdsrI64 c (srOf w e))
  | 0x21 => some (.waitC c (ctlOf w e))
  | 0x22 => some (.waitoC c (ctlOf w e))
  | 0x23 => some (.stependC c (ctlOf w e))
  | 0x24 => some (.loopC c (loopOf w e))
  | 0x25 => some (.agsetA24 c (agOf w e))
  | 0x26 => agRdInstr c w e
  | 0x27 => some (.agaddA24 c (agOf w e))
  | 0x28 => vec28Instr c w e
  | 0x29 => vec29Instr c w e
  | 0x2A => vec2AInstr c w e
  | 0x2B => vec2BInstr c w e
  | 0x2C => vec2CInstr c w e
  | 0x2D => vec2DInstr c w e
  | 0x2E => vec2EInstr c w e
  | 0x2F => vec2FInstr c w e
  | 0x30 => vec30Instr c w e
  | 0x34 => some (.mlw c (mlwOf w e))
  | 0x35 => some (.mma c (mmaOf w e) [])
  | 0x36 => some (.mcvt c (mcvtOf w e))
  | 0x37 => some (.mstxX128 c (maccOf w e))
  | 0x38 => some (.maddxX128 c (maccOf w e))
  | 0x39 => some (.mclrX128 c (maccOf w e))
  | _ => none

/-- A word is a legal instruction (R83, R85, R92): its opcode, function and codes are assigned and its reserved fields
are zero. -/
def wordLegal (w : Word) : Bool :=
  match cellInstr 0 w .ok with
  | none => false
  | some i =>
    match i with
    | .nopC _ w _ => nopLegal w
    | .addI64 _ f => f.legal
    | .subI64 _ f => f.legal
    | .andB64 _ f => f.legal
    | .orB64 _ f => f.legal
    | .xorB64 _ f => f.legal
    | .shlB64 _ f => f.legal
    | .shrU64 _ f => f.legal
    | .sarS64 _ f => f.legal
    | .minS64 _ f => f.legal
    | .maxS64 _ f => f.legal
    | .minU64 _ f => f.legal
    | .maxU64 _ f => f.legal
    | .mulI64 _ f => f.legal
    | .mulhU64 _ f => f.legal
    | .divU64 _ f => f.legal
    | .remU64 _ f => f.legal
    | .addiI64 _ f => f.legal
    | .andiB64 _ f => f.legal
    | .oriB64 _ f => f.legal
    | .xoriB64 _ f => f.legal
    | .lihB64 _ f => f.legal
    | .muliI64 _ f => f.legal
    | .shliB64 _ f => f.legalShift
    | .shriU64 _ f => f.legalShift
    | .sariS64 _ f => f.legalShift
    | .ld _ f => f.legal [0, 1, 2, 3, 4, 5, 6]
    | .st _ f => f.legal [0, 2, 4, 6]
    | .ldx _ f => f.legal [4, 5, 6]
    | .stx _ f => f.legal [4, 6]
    | .ceqI64 _ f => f.legal
    | .cneI64 _ f => f.legal
    | .cltS64 _ f => f.legal
    | .cgeS64 _ f => f.legal
    | .cltU64 _ f => f.legal
    | .cgeU64 _ f => f.legal
    | .ceqiI64 _ f => f.legal
    | .cneiI64 _ f => f.legal
    | .cltiS64 _ f => f.legal
    | .cgeiS64 _ f => f.legal
    | .cltiU64 _ f => f.legal
    | .cgeiU64 _ f => f.legal
    | .pandP _ f => f.legal
    | .porP _ f => f.legal
    | .pxorP _ f => f.legal
    | .pandnP _ f => f.legal
    | .psetP _ f => f.legalConst
    | .pclrP _ f => f.legalConst
    | .prdP16 _ f => f.legalRead
    | .pwrP16 _ f => f.legalWrite
    | .rdsrI64 _ f => f.legal
    | .waitC _ f => f.legalWait
    | .waitoC _ f => f.legalWaito
    | .stependC _ f => f.legalStepend
    | .loopC _ f => f.legal
    | .agsetA24 _ f => f.legalSet
    | .agaddA24 _ f => f.legalAdd
    | .agrdU24 _ f => f.legal
    | .lcrdU11 _ f => f.legalLc
    | .vfmaF32 _ f => f.plain
    | .vabsF32 _ f => f.noBC
    | .vnegF32 _ f => f.noBC
    | .vaddF32 _ f => f.noC
    | .vsubF32 _ f => f.noC
    | .vmulF32 _ f => f.noC
    | .vminF32 _ f => f.noC
    | .vmaxF32 _ f => f.noC
    | .vaddI32 _ f => f.noC
    | .vsubI32 _ f => f.noC
    | .vmulI32 _ f => f.noC
    | .vandB32 _ f => f.noC
    | .vorB32 _ f => f.noC
    | .vxorB32 _ f => f.noC
    | .vshlB32 _ f => f.noC
    | .vshrU32 _ f => f.noC
    | .vsarS32 _ f => f.noC
    | .vminS32 _ f => f.noC
    | .vmaxS32 _ f => f.noC
    | .vminU32 _ f => f.noC
    | .vmaxU32 _ f => f.noC
    | .vrcpF32 _ f => f.noBC
    | .vsqrtF32 _ f => f.noBC
    | .vrsqrtF32 _ f => f.noBC
    | .vexp2F32 _ f => f.noBC
    | .vlog2F32 _ f => f.noBC
    | .vceqF32 _ f => f.noCBc
    | .vcltF32 _ f => f.noCBc
    | .vcleF32 _ f => f.noCBc
    | .vcunF32 _ f => f.noCBc
    | .vceqI32 _ f => f.noCBc
    | .vcltS32 _ f => f.noCBc
    | .vcltU32 _ f => f.noCBc
    | .vcleS32 _ f => f.noCBc
    | .vrsumF32 _ f => f.noBC
    | .vrmaxF32 _ f => f.noBC
    | .vrminF32 _ f => f.noBC
    | .vrsumI32 _ f => f.noBC
    | .vmxscE2m1 _ f => f.noBC
    | .vmxscE2m3 _ f => f.noBC
    | .vmxscE3m2 _ f => f.noBC
    | .vmxscE4m3 _ f => f.noBC
    | .vmxscE5m2 _ f => f.noBC
    | .vmxscI8 _ f => f.noBC
    | .vldL _ f => f.memPlain && f.vb == 0
    | .vstL _ f => f.memPlain && f.vb == 0
    | .vgatherU8 _ f => f.memPlain
    | .vgatherU16 _ f => f.memPlain
    | .vgatherB32 _ f => f.memPlain
    | .vscatterB8 _ f => f.memPlain
    | .vscatterB16 _ f => f.memPlain
    | .vscatterB32 _ f => f.memPlain
    | .vcvtI32F32 _ f => f.cvtPlain 1 && f.vb == 0
    | .vcvtF32I32 _ f => f.cvtPlain 1 && f.vb == 0
    | .vpkBf16 _ f => f.cvtPlain 2 && f.vb == 0
    | .vpkF16 _ f => f.cvtPlain 2 && f.vb == 0
    | .vpkE4m3 _ f => f.cvtPlain 4 && f.vb == 0
    | .vpkE5m2 _ f => f.cvtPlain 4 && f.vb == 0
    | .vpkE2m3 _ f => f.cvtPlain 4 && f.vb == 0
    | .vpkE3m2 _ f => f.cvtPlain 4 && f.vb == 0
    | .vpkE2m1 _ f => f.cvtPlain 8 && f.vb == 0
    | .vpkI8 _ f => f.cvtPlain 4 && f.vb == 0
    | .vpkI4 _ f => f.cvtPlain 8 && f.vb == 0
    | .vunpkBf16 _ f => f.cvtPlain 2 && f.vb == 0 && f.rm == 0 && !f.sat
    | .vunpkF16 _ f => f.cvtPlain 2 && f.vb == 0 && f.rm == 0 && !f.sat
    | .vunpkE4m3 _ f => f.cvtPlain 4 && f.vb == 0 && f.rm == 0 && !f.sat
    | .vunpkE5m2 _ f => f.cvtPlain 4 && f.vb == 0 && f.rm == 0 && !f.sat
    | .vunpkE2m3 _ f => f.cvtPlain 4 && f.vb == 0 && f.rm == 0 && !f.sat
    | .vunpkE3m2 _ f => f.cvtPlain 4 && f.vb == 0 && f.rm == 0 && !f.sat
    | .vunpkE2m1 _ f => f.cvtPlain 8 && f.vb == 0 && f.rm == 0 && !f.sat
    | .vunpkI8 _ f => f.cvtPlain 4 && f.vb == 0 && f.rm == 0 && !f.sat
    | .vunpkI4 _ f => f.cvtPlain 8 && f.vb == 0 && f.rm == 0 && !f.sat
    | .vscaleE8m0 _ f => f.cvtPlain 1
    | .vmovB32 _ f => f.noBC
    | .vbcastB32 _ f => f.noBC
    | .viotaI32 _ f => f.noBC && f.va == 0
    | .vpermB32 _ f => f.noCBc
    | .vinsB32 _ f => f.noCBc
    | .vextB32 _ f => f.noCBc && f.lm == 0
    | .mlw _ f => f.legal
    | .mma _ f _ => f.legal
    | .mcvt _ f => f.legal
    | .mstxX128 _ f => f.legal
    | .maddxX128 _ f => f.legal
    | .mclrX128 _ f => f.legalClr
    | _ => false

/-- The word of a cell instruction with its cell and the fetch outcome; none for every other command, for a NOP.C that stands
for a word of another opcode, and for an MMA whose buffer read is not clean (the word does not say it). -/
def Instr.cellWord (i : Instr) : Option (CellId × Word × Ecc) :=
  match i with
  | .nopC c w e => if fieldOf w 58 6 = 0 then some (c, w, e) else none
  | .addI64 c f => some (c, f.word 0x0, f.en.fecc)
  | .subI64 c f => some (c, f.word 0x1, f.en.fecc)
  | .andB64 c f => some (c, f.word 0x2, f.en.fecc)
  | .orB64 c f => some (c, f.word 0x3, f.en.fecc)
  | .xorB64 c f => some (c, f.word 0x4, f.en.fecc)
  | .shlB64 c f => some (c, f.word 0x5, f.en.fecc)
  | .shrU64 c f => some (c, f.word 0x6, f.en.fecc)
  | .sarS64 c f => some (c, f.word 0x7, f.en.fecc)
  | .minS64 c f => some (c, f.word 0x8, f.en.fecc)
  | .maxS64 c f => some (c, f.word 0x9, f.en.fecc)
  | .minU64 c f => some (c, f.word 0xA, f.en.fecc)
  | .maxU64 c f => some (c, f.word 0xB, f.en.fecc)
  | .mulI64 c f => some (c, f.word 0xC, f.en.fecc)
  | .mulhU64 c f => some (c, f.word 0xD, f.en.fecc)
  | .divU64 c f => some (c, f.word 0xE, f.en.fecc)
  | .remU64 c f => some (c, f.word 0xF, f.en.fecc)
  | .addiI64 c f => some (c, f.word 0x2, f.en.fecc)
  | .andiB64 c f => some (c, f.word 0x3, f.en.fecc)
  | .oriB64 c f => some (c, f.word 0x4, f.en.fecc)
  | .xoriB64 c f => some (c, f.word 0x5, f.en.fecc)
  | .shliB64 c f => some (c, f.word 0x6, f.en.fecc)
  | .shriU64 c f => some (c, f.word 0x7, f.en.fecc)
  | .sariS64 c f => some (c, f.word 0x8, f.en.fecc)
  | .lihB64 c f => some (c, f.word 0x9, f.en.fecc)
  | .muliI64 c f => some (c, f.word 0xA, f.en.fecc)
  | .ld c f => some (c, f.word 0x10, f.en.fecc)
  | .st c f => some (c, f.word 0x11, f.en.fecc)
  | .ldx c f => some (c, f.word 0x12, f.en.fecc)
  | .stx c f => some (c, f.word 0x13, f.en.fecc)
  | .ceqI64 c f => some (c, f.word 0x0, f.en.fecc)
  | .cneI64 c f => some (c, f.word 0x1, f.en.fecc)
  | .cltS64 c f => some (c, f.word 0x2, f.en.fecc)
  | .cgeS64 c f => some (c, f.word 0x3, f.en.fecc)
  | .cltU64 c f => some (c, f.word 0x4, f.en.fecc)
  | .cgeU64 c f => some (c, f.word 0x5, f.en.fecc)
  | .ceqiI64 c f => some (c, f.word 0x0, f.en.fecc)
  | .cneiI64 c f => some (c, f.word 0x1, f.en.fecc)
  | .cltiS64 c f => some (c, f.word 0x2, f.en.fecc)
  | .cgeiS64 c f => some (c, f.word 0x3, f.en.fecc)
  | .cltiU64 c f => some (c, f.word 0x4, f.en.fecc)
  | .cgeiU64 c f => some (c, f.word 0x5, f.en.fecc)
  | .pandP c f => some (c, f.word 0x0, f.en.fecc)
  | .porP c f => some (c, f.word 0x1, f.en.fecc)
  | .pxorP c f => some (c, f.word 0x2, f.en.fecc)
  | .pandnP c f => some (c, f.word 0x3, f.en.fecc)
  | .psetP c f => some (c, f.word 0x4, f.en.fecc)
  | .pclrP c f => some (c, f.word 0x5, f.en.fecc)
  | .prdP16 c f => some (c, f.word 0x0, f.en.fecc)
  | .pwrP16 c f => some (c, f.word 0x1, f.en.fecc)
  | .rdsrI64 c f => some (c, f.word, f.en.fecc)
  | .waitC c f => some (c, f.word 0x21, f.en.fecc)
  | .waitoC c f => some (c, f.word 0x22, f.en.fecc)
  | .stependC c f => some (c, f.word 0x23, f.en.fecc)
  | .loopC c f => some (c, f.word, f.en.fecc)
  | .agsetA24 c f => some (c, f.word 0x25, f.en.fecc)
  | .agrdU24 c f => some (c, f.word 0x0, f.en.fecc)
  | .lcrdU11 c f => some (c, f.word 0x1, f.en.fecc)
  | .agaddA24 c f => some (c, f.word 0x27, f.en.fecc)
  | .vaddF32 c f => some (c, f.word 0x28 0x0, f.en.fecc)
  | .vsubF32 c f => some (c, f.word 0x28 0x1, f.en.fecc)
  | .vmulF32 c f => some (c, f.word 0x28 0x2, f.en.fecc)
  | .vfmaF32 c f => some (c, f.word 0x28 0x3, f.en.fecc)
  | .vminF32 c f => some (c, f.word 0x28 0x4, f.en.fecc)
  | .vmaxF32 c f => some (c, f.word 0x28 0x5, f.en.fecc)
  | .vabsF32 c f => some (c, f.word 0x28 0x6, f.en.fecc)
  | .vnegF32 c f => some (c, f.word 0x28 0x7, f.en.fecc)
  | .vaddI32 c f => some (c, f.word 0x29 0x0, f.en.fecc)
  | .vsubI32 c f => some (c, f.word 0x29 0x1, f.en.fecc)
  | .vmulI32 c f => some (c, f.word 0x29 0x2, f.en.fecc)
  | .vandB32 c f => some (c, f.word 0x29 0x3, f.en.fecc)
  | .vorB32 c f => some (c, f.word 0x29 0x4, f.en.fecc)
  | .vxorB32 c f => some (c, f.word 0x29 0x5, f.en.fecc)
  | .vshlB32 c f => some (c, f.word 0x29 0x6, f.en.fecc)
  | .vshrU32 c f => some (c, f.word 0x29 0x7, f.en.fecc)
  | .vsarS32 c f => some (c, f.word 0x29 0x8, f.en.fecc)
  | .vminS32 c f => some (c, f.word 0x29 0x9, f.en.fecc)
  | .vmaxS32 c f => some (c, f.word 0x29 0xA, f.en.fecc)
  | .vminU32 c f => some (c, f.word 0x29 0xB, f.en.fecc)
  | .vmaxU32 c f => some (c, f.word 0x29 0xC, f.en.fecc)
  | .vrcpF32 c f => some (c, f.word 0x2A 0x0, f.en.fecc)
  | .vsqrtF32 c f => some (c, f.word 0x2A 0x1, f.en.fecc)
  | .vrsqrtF32 c f => some (c, f.word 0x2A 0x2, f.en.fecc)
  | .vexp2F32 c f => some (c, f.word 0x2A 0x3, f.en.fecc)
  | .vlog2F32 c f => some (c, f.word 0x2A 0x4, f.en.fecc)
  | .vceqF32 c f => some (c, f.word 0x2B 0x0, f.en.fecc)
  | .vcltF32 c f => some (c, f.word 0x2B 0x1, f.en.fecc)
  | .vcleF32 c f => some (c, f.word 0x2B 0x2, f.en.fecc)
  | .vcunF32 c f => some (c, f.word 0x2B 0x3, f.en.fecc)
  | .vceqI32 c f => some (c, f.word 0x2B 0x8, f.en.fecc)
  | .vcltS32 c f => some (c, f.word 0x2B 0x9, f.en.fecc)
  | .vcltU32 c f => some (c, f.word 0x2B 0xA, f.en.fecc)
  | .vcleS32 c f => some (c, f.word 0x2B 0xB, f.en.fecc)
  | .vrsumF32 c f => some (c, f.word 0x2C 0x0, f.en.fecc)
  | .vrmaxF32 c f => some (c, f.word 0x2C 0x1, f.en.fecc)
  | .vrminF32 c f => some (c, f.word 0x2C 0x2, f.en.fecc)
  | .vrsumI32 c f => some (c, f.word 0x2C 0x3, f.en.fecc)
  | .vmxscE2m1 c f => some (c, f.word 0x2C 0x8, f.en.fecc)
  | .vmxscE2m3 c f => some (c, f.word 0x2C 0x9, f.en.fecc)
  | .vmxscE3m2 c f => some (c, f.word 0x2C 0xA, f.en.fecc)
  | .vmxscE4m3 c f => some (c, f.word 0x2C 0xB, f.en.fecc)
  | .vmxscE5m2 c f => some (c, f.word 0x2C 0xC, f.en.fecc)
  | .vmxscI8 c f => some (c, f.word 0x2C 0xD, f.en.fecc)
  | .vldL c f => some (c, f.word 0x2D 0x0, f.en.fecc)
  | .vstL c f => some (c, f.word 0x2D 0x1, f.en.fecc)
  | .vgatherU8 c f => some (c, f.word 0x2E 0x0, f.en.fecc)
  | .vgatherU16 c f => some (c, f.word 0x2E 0x1, f.en.fecc)
  | .vgatherB32 c f => some (c, f.word 0x2E 0x2, f.en.fecc)
  | .vscatterB8 c f => some (c, f.word 0x2E 0x4, f.en.fecc)
  | .vscatterB16 c f => some (c, f.word 0x2E 0x5, f.en.fecc)
  | .vscatterB32 c f => some (c, f.word 0x2E 0x6, f.en.fecc)
  | .vcvtI32F32 c f => some (c, f.word 0x2F 0x0, f.en.fecc)
  | .vcvtF32I32 c f => some (c, f.word 0x2F 0x1, f.en.fecc)
  | .vpkBf16 c f => some (c, f.word 0x2F 0x2, f.en.fecc)
  | .vpkF16 c f => some (c, f.word 0x2F 0x3, f.en.fecc)
  | .vpkE4m3 c f => some (c, f.word 0x2F 0x4, f.en.fecc)
  | .vpkE5m2 c f => some (c, f.word 0x2F 0x5, f.en.fecc)
  | .vpkE2m3 c f => some (c, f.word 0x2F 0x6, f.en.fecc)
  | .vpkE3m2 c f => some (c, f.word 0x2F 0x7, f.en.fecc)
  | .vpkE2m1 c f => some (c, f.word 0x2F 0x8, f.en.fecc)
  | .vpkI8 c f => some (c, f.word 0x2F 0x9, f.en.fecc)
  | .vpkI4 c f => some (c, f.word 0x2F 0xA, f.en.fecc)
  | .vunpkBf16 c f => some (c, f.word 0x2F 0x10, f.en.fecc)
  | .vunpkF16 c f => some (c, f.word 0x2F 0x11, f.en.fecc)
  | .vunpkE4m3 c f => some (c, f.word 0x2F 0x12, f.en.fecc)
  | .vunpkE5m2 c f => some (c, f.word 0x2F 0x13, f.en.fecc)
  | .vunpkE2m3 c f => some (c, f.word 0x2F 0x14, f.en.fecc)
  | .vunpkE3m2 c f => some (c, f.word 0x2F 0x15, f.en.fecc)
  | .vunpkE2m1 c f => some (c, f.word 0x2F 0x16, f.en.fecc)
  | .vunpkI8 c f => some (c, f.word 0x2F 0x17, f.en.fecc)
  | .vunpkI4 c f => some (c, f.word 0x2F 0x18, f.en.fecc)
  | .vscaleE8m0 c f => some (c, f.word 0x2F 0x20, f.en.fecc)
  | .vmovB32 c f => some (c, f.word 0x30 0x0, f.en.fecc)
  | .vbcastB32 c f => some (c, f.word 0x30 0x1, f.en.fecc)
  | .viotaI32 c f => some (c, f.word 0x30 0x2, f.en.fecc)
  | .vpermB32 c f => some (c, f.word 0x30 0x3, f.en.fecc)
  | .vinsB32 c f => some (c, f.word 0x30 0x4, f.en.fecc)
  | .vextB32 c f => some (c, f.word 0x30 0x5, f.en.fecc)
  | .mlw c f => some (c, f.word, f.en.fecc)
  | .mma c f e => if e = [] then some (c, f.word, f.en.fecc) else none
  | .mcvt c f => some (c, f.word, f.en.fecc)
  | .mstxX128 c f => some (c, f.word 0x37, f.en.fecc)
  | .maddxX128 c f => some (c, f.word 0x38, f.en.fecc)
  | .mclrX128 c f => some (c, f.word 0x39, f.en.fecc)
  | _ => none

end Sys2Proof
end

