-- ==== Sys2Proof/Machine/Map.lean ====
section
/-! DEFINITION. Sparse tables and byte memories in one canonical form: keys strictly rising, no entry equal to the
table's default. Every read and write of indexed state goes through the operations of this file. -/

namespace Sys2Proof.Machine

/-- What a table holds at key `k`; the default `d` where nothing is listed. -/
def look {α : Type} (d : α) : SMap α → Nat → α
  | [], _ => d
  | (k', v) :: m, k => if k = k' then v else look d m k

/-- The table without any entry at `k`. -/
def SMap.without {α : Type} : SMap α → Nat → SMap α
  | [], _ => []
  | (k', v) :: m, k => if k = k' then SMap.without m k else (k', v) :: SMap.without m k

/-- The table with `(k, v)` placed before the first greater key. -/
def SMap.place {α : Type} : SMap α → Nat → α → SMap α
  | [], k, v => [(k, v)]
  | (k', v') :: m, k, v => if k < k' then (k, v) :: (k', v') :: m else (k', v') :: SMap.place m k v

/-- Write `v` at `k`; writing the default removes the entry. -/
def put {α : Type} [DecidableEq α] (d : α) (m : SMap α) (k : Nat) (v : α) : SMap α :=
  if v = d then SMap.without m k else SMap.place (SMap.without m k) k v

/-- Keys strictly rising, all at least `lo`. -/
def SMap.rising {α : Type} : Nat → SMap α → Bool
  | _, [] => true
  | lo, (k, _) :: m => decide (lo ≤ k) && SMap.rising (k + 1) m

/-- The canonical form of a table whose default is `d`. -/
def SMap.wf {α : Type} [DecidableEq α] (d : α) (m : SMap α) : Bool :=
  SMap.rising 0 m && m.all (fun e => decide (e.2 ≠ d))

/-- Apply `f` to the entry at `k` (the default where nothing is listed). -/
def upd {α : Type} [DecidableEq α] (d : α) (m : SMap α) (k : Nat) (f : α → α) : SMap α :=
  put d m k (f (look d m k))

/-- Apply `f` to every entry listed, dropping those that become the default. -/
def mapv {α : Type} [DecidableEq α] (d : α) (m : SMap α) (f : Nat → α → α) : SMap α :=
  (m.map (fun e => (e.1, f e.1 e.2))).filter (fun e => decide (e.2 ≠ d))

/-- Put every pair of a list in turn. -/
def putAll {α : Type} [DecidableEq α] (d : α) (m : SMap α) (l : List (Nat × α)) : SMap α :=
  l.foldl (fun m e => put d m e.1 e.2) m

/-- The byte at address `a`. -/
def Mem.byte (m : Mem) (a : Nat) : BitVec 8 := look 0#8 m a

/-- Write one byte. -/
def Mem.setByte (m : Mem) (a : Nat) (b : BitVec 8) : Mem := put 0#8 m a b

/-- Write bytes at rising addresses from `a`. -/
def Mem.setBytes (m : Mem) : Nat → List (BitVec 8) → Mem
  | _, [] => m
  | a, b :: bs => Mem.setBytes (Mem.setByte m a b) (a + 1) bs

/-- Write single bytes in list order. -/
def Mem.setCells (m : Mem) (l : List Host.Cell) : Mem :=
  l.foldl (fun m e => Mem.setByte m e.1 e.2) m

/-- The `n` bytes from `a`. -/
def Mem.bytes (m : Mem) : Nat → Nat → List (BitVec 8)
  | _, 0 => []
  | a, n + 1 => Mem.byte m a :: Mem.bytes m (a + 1) n

/-- The canonical form of a byte memory. -/
def Mem.wf (m : Mem) : Bool := SMap.wf 0#8 m

/-- bytes_le (R58, R137) over a list of bytes: the first is the least significant. -/
def leNat : List (BitVec 8) → Nat
  | [] => 0
  | b :: bs => b.toNat + 256 * leNat bs

/-- The low `n` bytes of `x`, least significant first (R58). -/
def natLe (x : Nat) : Nat → List (BitVec 8)
  | 0 => []
  | n + 1 => BitVec.ofNat 8 x :: natLe (x / 256) n

/-- bytes_le(mem, ea, n) of R137. -/
def Mem.le (m : Mem) (ea n : Nat) : Nat := leNat (Mem.bytes m ea n)

/-- The 256 B line whose first byte is at `ea`, byte 0 in bits [7:0]. -/
def Mem.line (m : Mem) (ea : Nat) : Line := BitVec.ofNat 2048 (Mem.le m ea 256)

/-- The 256 bytes of a line. -/
def lineBytes (l : Line) : List (BitVec 8) := natLe l.toNat 256

/-- Write a 256 B line at `ea`. -/
def Mem.setLine (m : Mem) (ea : Nat) (l : Line) : Mem := Mem.setBytes m ea (lineBytes l)

/-- Zero the `n` bytes from `a`. -/
def Mem.clear (m : Mem) (a n : Nat) : Mem := m.filter (fun e => decide (e.1 < a ∨ a + n ≤ e.1))

/-- The bits `[lo + w - 1 : lo]` of `x`. -/
def bits (x lo w : Nat) : Nat := x / 2 ^ lo % 2 ^ w

/-- Bit `i` of `x`. -/
def bit (x i : Nat) : Bool := x / 2 ^ i % 2 == 1

/-- 1 for true, 0 for false. -/
def b2n (b : Bool) : Nat := if b then 1 else 0

/-- A rotation of entry `i` of a list through `f`. -/
def modifyAt {α : Type} (l : List α) (i : Nat) (f : α → α) : List α :=
  match l, i with
  | [], _ => []
  | x :: xs, 0 => f x :: xs
  | x :: xs, i + 1 => x :: modifyAt xs i f

/-- The `n` bytes of a number, lowest first. -/
def leBytes (n v : Nat) : List Nat := (List.range n).map (fun i => bits v (8 * i) 8)

end Sys2Proof.Machine
end

