-- ==== Sys2Proof/Machine/Num.lean ====
section
/-! DEFINITION. The thirteen number formats, exact values, rounding, conversion, the rounding generator and the FP32
helper functions (05_number_formats.md). A finite value is a sign, a natural mantissa and a power of two. -/

namespace Sys2Proof.Machine

/-- What `decode` returns (R137): NaN, an infinity, or the exact value (-1)^s × m × 2^e. -/
inductive Num where
  | nan
  | inf (s : Bool)
  | fin (s : Bool) (m : Nat) (e : Int)
  deriving DecidableEq, Repr

/-- How a format treats the codes with all exponent bits one (Table 5.1). -/
inductive Special where
  | none | e4m3 | ieee
  deriving DecidableEq, Repr

/-- A floating-point format of Table 5.1: mantissa bits, exponent bits, bias. -/
structure FloatFmt where
  p    : Nat
  eb   : Nat
  bias : Int
  spec : Special
  deriving DecidableEq, Repr

/-- The formats a code names (Table 5.1). -/
inductive Fmt where
  | int (w : Nat)
  | flt (f : FloatFmt)
  | e8m0
  | x128
  deriving DecidableEq, Repr

def fE2M1 : FloatFmt := ⟨1, 2, 1, .none⟩
def fE2M3 : FloatFmt := ⟨3, 2, 1, .none⟩
def fE3M2 : FloatFmt := ⟨2, 3, 3, .none⟩
def fE4M3 : FloatFmt := ⟨3, 4, 7, .e4m3⟩
def fE5M2 : FloatFmt := ⟨2, 5, 15, .ieee⟩
def fF16  : FloatFmt := ⟨10, 5, 15, .ieee⟩
def fBF16 : FloatFmt := ⟨7, 8, 127, .ieee⟩
def fF32  : FloatFmt := ⟨23, 8, 127, .ieee⟩

/-- Format codes 0x0 to 0xC (R119); 0xD to 0xF are unassigned. -/
def fmtOf : Nat → Option Fmt
  | 0x0 => some (.int 4)
  | 0x1 => some (.flt fE2M1)
  | 0x2 => some (.flt fE2M3)
  | 0x3 => some (.flt fE3M2)
  | 0x4 => some (.flt fE4M3)
  | 0x5 => some (.flt fE5M2)
  | 0x6 => some (.int 8)
  | 0x7 => some (.flt fF16)
  | 0x8 => some (.flt fBF16)
  | 0x9 => some (.flt fF32)
  | 0xA => some (.int 32)
  | 0xB => some .e8m0
  | 0xC => some .x128
  | _ => none

/-- Bits per element of a format (Table 5.1). -/
def Fmt.width : Fmt → Nat
  | .int w => w
  | .flt f => f.p + f.eb + 1
  | .e8m0 => 8
  | .x128 => 128

/-- zext of R137 as a natural. -/
def zextN (x w : Nat) : Nat := x % 2 ^ w

/-- sext(x, w) of R137, modulo 2^64. -/
def sext (x w : Nat) : Word :=
  BitVec.ofInt 64 (if bit x (w - 1) then (x % 2 ^ w : Nat) - (2 ^ w : Nat) else (x % 2 ^ w : Nat))

/-- The `w` low bits of `x` read as two's complement. -/
def signedN (x w : Nat) : Int :=
  if bit x (w - 1) then ((x % 2 ^ w : Nat) : Int) - ((2 ^ w : Nat) : Int) else ((x % 2 ^ w : Nat) : Int)

/-- An integer as a finite value scaled by 2^e. -/
def Num.ofInt (v e : Int) : Num := .fin (decide (v < 0)) v.natAbs e

/-- The mantissa field of all-ones-exponent codes decides infinity or NaN (Table 5.1). -/
def FloatFmt.special (f : FloatFmt) (e m : Nat) (s : Bool) : Option Num :=
  match f.spec with
  | .none => none
  | .e4m3 => if e = 2 ^ f.eb - 1 ∧ m = 2 ^ f.p - 1 then some .nan else none
  | .ieee => if e = 2 ^ f.eb - 1 then some (if m = 0 then .inf s else .nan) else none

/-- R120 with the special codes of Table 5.1. -/
def FloatFmt.decode (f : FloatFmt) (x : Nat) : Num :=
  let s := bit x (f.p + f.eb)
  let e := bits x f.p f.eb
  let m := bits x 0 f.p
  match f.special e m s with
  | some v => v
  | none =>
    if e = 0 then .fin s m (1 - f.bias - f.p) else .fin s (2 ^ f.p + m) (e - f.bias - f.p)

/-- decode(fmt, x) of R137. -/
def decodeNum : Fmt → Nat → Num
  | .int w, x => Num.ofInt (signedN x w) 0
  | .flt f, x => f.decode x
  | .e8m0, x => if x % 256 = 255 then .nan else .fin false 1 ((x % 256 : Nat) - 127)
  | .x128, x => Num.ofInt (signedN x 128) (-48)

/-- ⌊log2 m⌋ for m > 0. -/
def flog2 (m : Nat) : Nat := Nat.log2 m

/-- round_grid (R127) of the magnitude m × 2^e on a grid of step 2^q: the multiple of 2^q. -/
def roundAt (m : Nat) (e q : Int) (rm h : Nat) : Nat :=
  if q ≤ e then m * 2 ^ (e - q).toNat
  else
    let d := 2 ^ (q - e).toNat
    let n := m / d
    let r := m % d
    let up : Bool :=
      match rm with
      | 0 => decide (2 * r > d) || (decide (2 * r = d) && decide (n % 2 = 1))
      | 1 => false
      | _ => decide (h % 2 ^ 24 < r * 2 ^ 24 / d)
    if up then n + 1 else n

/-- The grid step (as a power of two) of round_grid for a float target. -/
def FloatFmt.gridExp (f : FloatFmt) (m : Nat) (e : Int) : Int :=
  max ((flog2 m : Int) + e) (1 - f.bias) - f.p

/-- Largest finite value of a float format as mantissa and exponent (Table 5.1). -/
def FloatFmt.maxFin (f : FloatFmt) : Nat × Int :=
  match f.spec with
  | .none => (2 ^ (f.p + 1) - 1, ((2 ^ f.eb - 1 : Nat) : Int) - f.bias - f.p)
  | .e4m3 => (2 ^ (f.p + 1) - 2, ((2 ^ f.eb - 1 : Nat) : Int) - f.bias - f.p)
  | .ieee => (2 ^ (f.p + 1) - 1, ((2 ^ f.eb - 2 : Nat) : Int) - f.bias - f.p)

/-- n × 2^q > m × 2^e. -/
def gtDyadic (n : Nat) (q : Int) (m : Nat) (e : Int) : Bool :=
  if q ≤ e then decide (n > m * 2 ^ (e - q).toNat) else decide (n * 2 ^ (q - e).toNat > m)

/-- Sign bit of a float format in place. -/
def FloatFmt.signBit (f : FloatFmt) (s : Bool) : Nat := if s then 2 ^ (f.p + f.eb) else 0

/-- encode (R137) for a float format: n × 2^q on the grid, n ≤ 2^(p+1). -/
def FloatFmt.encode (f : FloatFmt) (s : Bool) (n : Nat) (q : Int) : Nat :=
  let n' := if n = 2 ^ (f.p + 1) then 2 ^ f.p else n
  let q' := if n = 2 ^ (f.p + 1) then q + 1 else q
  f.signBit s +
    (if n' < 2 ^ f.p then n' else (q' + f.p + f.bias).toNat * 2 ^ f.p + (n' - 2 ^ f.p))

/-- The code of the largest finite value with sign `s`. -/
def FloatFmt.maxCode (f : FloatFmt) (s : Bool) : Nat :=
  f.signBit s +
    (match f.spec with
     | .none => 2 ^ (f.p + f.eb) - 1
     | .e4m3 => 2 ^ (f.p + f.eb) - 2
     | .ieee => (2 ^ f.eb - 2) * 2 ^ f.p + (2 ^ f.p - 1))

/-- nan_result (Table 5.4). -/
def FloatFmt.nanCode (f : FloatFmt) : Nat :=
  match f.spec with
  | .none => 0
  | .e4m3 => 2 ^ (f.p + f.eb) - 1
  | .ieee => (2 ^ f.eb - 1) * 2 ^ f.p + 2 ^ (f.p - 1)

/-- inf_result (Table 5.4). -/
def FloatFmt.infCode (f : FloatFmt) (s sat : Bool) : Nat :=
  match f.spec with
  | .none => f.maxCode s
  | .e4m3 => if sat then f.maxCode s else f.nanCode
  | .ieee => if sat then f.maxCode s else f.signBit s + (2 ^ f.eb - 1) * 2 ^ f.p

/-- overflow_result (Table 5.3). -/
def FloatFmt.ovfCode (f : FloatFmt) (s sat : Bool) (rm : Nat) : Nat :=
  match f.spec with
  | .none => f.maxCode s
  | .e4m3 => if sat || rm == 1 then f.maxCode s else f.nanCode
  | .ieee => if sat || rm == 1 then f.maxCode s else f.signBit s + (2 ^ f.eb - 1) * 2 ^ f.p

/-- encode_int of a clamped value in `w` bits. -/
def encodeInt (w : Nat) (v : Int) : Nat :=
  let hi : Int := (2 ^ (w - 1) : Nat) - 1
  let lo : Int := -((2 ^ (w - 1) : Nat) : Int)
  let c := if v > hi then hi else if v < lo then lo else v
  (c % ((2 ^ w : Nat) : Int)).toNat

/-- cvt_value (R137). X128 and E8M0 are no targets of any conversion (Table 5.5). -/
def cvtValue (v : Num) (dst : Fmt) (rm : Nat) (sat : Bool) (h : Nat) : Nat :=
  match dst with
  | .int w =>
    match v with
    | .nan => 0
    | .inf s => encodeInt w (if s then -(2 ^ w : Nat) else (2 ^ w : Nat))
    | .fin s m e =>
      let r : Int := roundAt m e 0 rm h
      encodeInt w (if s then -r else r)
  | .flt f =>
    match v with
    | .nan => f.nanCode
    | .inf s => f.infCode s sat
    | .fin s m e =>
      if m = 0 then f.signBit s
      else
        let q := f.gridExp m e
        let n := roundAt m e q rm h
        if gtDyadic n q f.maxFin.1 f.maxFin.2 then f.ovfCode s sat rm else f.encode s n q
  | .e8m0 => 0
  | .x128 => 0

/-- cvt (R137). -/
def cvt (x : Nat) (src dst : Fmt) (rm : Nat) (sat : Bool) (h : Nat) : Nat :=
  cvtValue (decodeNum src x) dst rm sat h

/-! ### The rounding generator (R131) -/

/-- mix64 of R131. -/
def mix64 (z : Word) : Word :=
  let z := (z ^^^ (z >>> 31)) * 0x9E6B2C4D5A17F3C5#64
  let z := (z ^^^ (z >>> 29)) * 0xD1B54A32D192ED03#64
  z ^^^ (z >>> 32)

/-- rotl64 of R131. -/
def rotl64 (z : Word) (k : Nat) : Word := (z <<< k) ||| (z >>> (64 - k))

/-- sr_key of R131. -/
def srKey (seed stepNo kind offset vcell lane fld unit : Nat) : Nat :=
  let c0 := bits offset 0 32 + 2 ^ 32 * bits vcell 0 10 + 2 ^ 42 * bits lane 0 8 + 2 ^ 50 * bits fld 0 3
    + 2 ^ 53 * bits kind 0 3 + 2 ^ 56 * bits unit 0 8
  let c1 := bits stepNo 0 48 + 2 ^ 48 * bits offset 32 10
  let sd := BitVec.ofNat 64 seed
  let h := mix64 (BitVec.ofNat 64 c0 ^^^ sd)
  (mix64 (h ^^^ BitVec.ofNat 64 c1 ^^^ rotl64 sd 29)).toNat

/-! ### FP32 arithmetic (R137, R139) -/

/-- A format as the FP32 target. -/
def F32 : Fmt := .flt fF32

def nan32 : Nat := 0x7FC00000

/-- fp32_round. -/
def round32 (v : Num) : Nat := cvtValue v F32 0 false 0

/-- The signed integer m × 2^(e - q) for q ≤ e. -/
def scaled (s : Bool) (m : Nat) (e q : Int) : Int :=
  let x : Int := (m * 2 ^ (e - q).toNat : Nat)
  if s then -x else x

/-- Exact sum of two finite values; the sign of an exact zero follows R139. -/
def addFin (s1 : Bool) (m1 : Nat) (e1 : Int) (s2 : Bool) (m2 : Nat) (e2 : Int) : Num :=
  let q := min e1 e2
  let x := scaled s1 m1 e1 q + scaled s2 m2 e2 q
  if x = 0 then .fin (decide (m1 = 0) && decide (m2 = 0) && s1 && s2) 0 0
  else .fin (decide (x < 0)) x.natAbs q

/-- Exact sum of two values. -/
def addNum : Num → Num → Num
  | .nan, _ => .nan
  | _, .nan => .nan
  | .inf s, .inf s' => if s = s' then .inf s else .nan
  | .inf s, .fin _ _ _ => .inf s
  | .fin _ _ _, .inf s => .inf s
  | .fin s1 m1 e1, .fin s2 m2 e2 => addFin s1 m1 e1 s2 m2 e2

/-- Exact product of two values. -/
def mulNum : Num → Num → Num
  | .nan, _ => .nan
  | _, .nan => .nan
  | .inf s, .inf s' => .inf (s ^^ s')
  | .inf s, .fin s' m _ => if m = 0 then .nan else .inf (s ^^ s')
  | .fin s m _, .inf s' => if m = 0 then .nan else .inf (s ^^ s')
  | .fin s m e, .fin s' m' e' => .fin (s ^^ s') (m * m') (e + e')

def fp32Add (a b : Nat) : Nat := round32 (addNum (decodeNum F32 a) (decodeNum F32 b))
def fp32Mul (a b : Nat) : Nat := round32 (mulNum (decodeNum F32 a) (decodeNum F32 b))
def fp32Fma (a b c : Nat) : Nat :=
  round32 (addNum (mulNum (decodeNum F32 a) (decodeNum F32 b)) (decodeNum F32 c))

/-- value(a) < value(b), for values that are no NaN. -/
def ltNum : Num → Num → Bool
  | .nan, _ => false
  | _, .nan => false
  | .inf s, .inf s' => s && !s'
  | .inf s, .fin _ _ _ => s
  | .fin _ _ _, .inf s => !s
  | .fin s1 m1 e1, .fin s2 m2 e2 => decide (scaled s1 m1 e1 (min e1 e2) < scaled s2 m2 e2 (min e1 e2))

/-- value(a) = value(b), with −0 = +0. -/
def eqNum : Num → Num → Bool
  | .nan, _ => false
  | _, .nan => false
  | .inf s, .inf s' => s == s'
  | .inf _, .fin _ _ _ => false
  | .fin _ _ _, .inf _ => false
  | .fin s1 m1 e1, .fin s2 m2 e2 => decide (scaled s1 m1 e1 (min e1 e2) = scaled s2 m2 e2 (min e1 e2))

def isNan32 (a : Nat) : Bool := decodeNum F32 a == .nan
def fp32Lt (a b : Nat) : Bool := ltNum (decodeNum F32 a) (decodeNum F32 b)
def fp32Eq (a b : Nat) : Bool := eqNum (decodeNum F32 a) (decodeNum F32 b)
def fp32Le (a b : Nat) : Bool := fp32Lt a b || fp32Eq a b

/-- `a` lies below `b` in the order that puts −0 below +0; neither is a NaN. -/
def below32 (a b : Nat) : Bool := fp32Lt a b || (fp32Eq a b && bit a 31 && !bit b 31)

/-- fp32_min (R100). -/
def fp32Min (a b : Nat) : Nat :=
  if isNan32 a || isNan32 b then nan32 else if below32 b a then b else a

/-- fp32_max (R100). -/
def fp32Max (a b : Nat) : Nat :=
  if isNan32 a || isNan32 b then nan32 else if below32 a b then b else a

/-! ### Special functions (R101) -/

/-- Digits of ⌊√n⌋ from bit `k` down. -/
def isqrtFrom (n : Nat) : Nat → Nat → Nat
  | 0, r => if (r + 1) * (r + 1) ≤ n then r + 1 else r
  | k + 1, r =>
    let c := r + 2 ^ (k + 1)
    isqrtFrom n k (if c * c ≤ n then c else r)

/-- ⌊√n⌋. -/
def isqrt (n : Nat) : Nat := if n = 0 then 0 else isqrtFrom n (flog2 n / 2 + 1) 0

/-- ⌈√n⌉. -/
def isqrtUp (n : Nat) : Nat := if isqrt n * isqrt n = n then isqrt n else isqrt n + 1

/-- An exact magnitude with a sticky bit below it: the value lies strictly between n and n + 1 when `inexact`. -/
def stickyNum (s : Bool) (n : Nat) (inexact : Bool) (e : Int) : Num := .fin s (2 * n + b2n inexact) (e - 1)

/-- 1 / (m × 2^e) with a sticky bit, over 64 quotient bits beyond m. -/
def rcpFin (s : Bool) (m : Nat) (e : Int) : Num :=
  let k := flog2 m + 64
  stickyNum s (2 ^ k / m) (decide (2 ^ k % m ≠ 0)) (-e - k)

/-- √(m × 2^e) with a sticky bit. -/
def sqrtFin (m : Nat) (e : Int) : Num :=
  let m' := if e % 2 = 0 then m else 2 * m
  let e' := if e % 2 = 0 then e else e - 1
  let x := m' * 2 ^ 128
  stickyNum false (isqrt x) (decide (isqrt x * isqrt x ≠ x)) (e' / 2 - 64)

/-- 1/√(m × 2^e) with a sticky bit. -/
def rsqrtFin (m : Nat) (e : Int) : Num :=
  let m' := if e % 2 = 0 then m else 2 * m
  let e' := if e % 2 = 0 then e else e - 1
  let k := flog2 m' + 64
  let n := isqrt (2 ^ (2 * k) / m')
  stickyNum false n (decide (n * n * m' ≠ 2 ^ (2 * k))) (-(e' / 2) - k)

/-- Lower and upper bounds of 2^(f / 2^w), scaled by 2^p, by the product of square roots of 2. `lo` and `hi` bound
2^(2^-i), `pl` and `ph` the product so far; the bits of f are taken from the top. -/
def exp2Bits (p f : Nat) : Nat → Nat → Nat → Nat → Nat → Nat × Nat
  | 0, _, _, pl, ph => (pl, ph)
  | w + 1, lo, hi, pl, ph =>
    let lo := isqrt (lo * 2 ^ p)
    let hi := isqrtUp (hi * 2 ^ p)
    if bit f w then exp2Bits p f w lo hi (pl * lo / 2 ^ p) ((ph * hi + 2 ^ p - 1) / 2 ^ p)
    else exp2Bits p f w lo hi pl ph

/-- Bounds of 2^v at precision `p`, for v = x / 2^w. -/
def exp2Bounds (p : Nat) (x : Int) (w : Nat) : Num × Num :=
  let n := x / (2 ^ w : Nat)
  let f := (x % (2 ^ w : Nat)).toNat
  let r := exp2Bits p f w (2 * 2 ^ p) (2 * 2 ^ p) (2 ^ p) (2 ^ p)
  (.fin false r.1 (n - p), .fin false r.2 (n - p))

/-- Bits of log2 of y / 2^p in [1, 2), rounding the squares down. -/
def log2Lo (p : Nat) : Nat → Nat → Nat → Nat
  | 0, _, acc => acc
  | k + 1, y, acc =>
    let y2 := y * y / 2 ^ p
    if y2 ≥ 2 * 2 ^ p then log2Lo p k (y2 / 2) (2 * acc + 1) else log2Lo p k y2 (2 * acc)

/-- The same, rounding the squares up. -/
def log2Hi (p : Nat) : Nat → Nat → Nat → Nat
  | 0, _, acc => acc + 1
  | k + 1, y, acc =>
    let y2 := (y * y + 2 ^ p - 1) / 2 ^ p
    if y2 ≥ 2 * 2 ^ p then log2Hi p k ((y2 + 1) / 2) (2 * acc + 1) else log2Hi p k y2 (2 * acc)

/-- Bounds of log2(m × 2^e) at precision `p` with p/2 fraction bits. -/
def log2Bounds (p : Nat) (m : Nat) (e : Int) : Num × Num :=
  let l := flog2 m
  let k := p / 2
  let y := m * 2 ^ p / 2 ^ l
  let n : Int := (l : Int) + e
  (Num.ofInt (n * (2 ^ k : Nat) + log2Lo p k y 0) (-k), Num.ofInt (n * (2 ^ k : Nat) + log2Hi p k y 0) (-k))

/-- The binary32 value both bounds round to, trying rising precisions; the lower bound's after the last. -/
def settle32 (f : Nat → Num × Num) : List Nat → Nat
  | [] => nan32
  | [p] => round32 (f p).1
  | p :: ps => if round32 (f p).1 = round32 (f p).2 then round32 (f p).1 else settle32 f ps

/-- Precisions the bounds are formed at (log entry 21). -/
def precisions : List Nat := [128, 256, 512, 1024]

/-- 1/a. -/
def fp32Rcp (a : Nat) : Nat :=
  match decodeNum F32 a with
  | .nan => nan32
  | .inf s => fF32.signBit s
  | .fin s m e => if m = 0 then fF32.infCode s false else round32 (rcpFin s m e)

/-- √a. -/
def fp32Sqrt (a : Nat) : Nat :=
  match decodeNum F32 a with
  | .nan => nan32
  | .inf s => if s then nan32 else fF32.infCode false false
  | .fin s m e => if m = 0 then fF32.signBit s else if s then nan32 else round32 (sqrtFin m e)

/-- 1/√a; of −0 it is −∞, as 1/±0 is ±∞ of √(−0) = −0. -/
def fp32Rsqrt (a : Nat) : Nat :=
  match decodeNum F32 a with
  | .nan => nan32
  | .inf s => if s then nan32 else 0
  | .fin s m e => if m = 0 then fF32.infCode s false else if s then nan32 else round32 (rsqrtFin m e)

/-- 2^a. -/
def fp32Exp2 (a : Nat) : Nat :=
  match decodeNum F32 a with
  | .nan => nan32
  | .inf s => if s then 0 else fF32.infCode false false
  | .fin s m e =>
    if gtDyadic m e 151 0 then (if s then 0 else fF32.infCode false false)
    else
      let w := if e < 0 then (-e).toNat else 0
      let x : Int := if e < 0 then m else (m * 2 ^ e.toNat : Nat)
      let x := if s then -x else x
      if x % (2 ^ w : Nat) = 0 then round32 (.fin false 1 (x / (2 ^ w : Nat)))
      else settle32 (fun p => exp2Bounds p x w) precisions

/-- log₂ a. -/
def fp32Log2 (a : Nat) : Nat :=
  match decodeNum F32 a with
  | .nan => nan32
  | .inf s => if s then nan32 else fF32.infCode false false
  | .fin s m e =>
    if m = 0 then fF32.infCode true false
    else if s then nan32
    else if m = 2 ^ flog2 m then round32 (Num.ofInt ((flog2 m : Int) + e) 0)
    else settle32 (fun p => log2Bounds p m e) precisions

/-- emax of a block-scaled element format (Table 5.2). -/
def emaxOf : Fmt → Nat
  | .flt f => if f = fE4M3 then 8 else if f = fE5M2 then 15 else if f = fE3M2 then 4 else 2
  | _ => 0

/-- mx_scale (R125). `amax` is none for a NaN or an infinity, else the FP32 magnitude m × 2^e. -/
def mxScale (amax : Num) (t : Fmt) : Nat :=
  match amax with
  | .nan => 0xFF
  | .inf _ => 0xFF
  | .fin _ m e =>
    if m = 0 then 0
    else
      let x : Int := (flog2 m : Int) + e - emaxOf t
      ((if x < -127 then -127 else if x > 127 then 127 else x) + 127).toNat

end Sys2Proof.Machine
end

