-- ==== Sys2Proof/Config.lean ====
section
/-! DEFINITION. What the spec leaves to the implementation or leaves open: constants without a body, so that nothing can be
proved of their values. Each is applied to the free-value counter `State.freeCtr`, read and advanced by the step that uses
it (notes/assumptions/2.md). -/

namespace Sys2Proof

/-- What an uncorrectable line read from a path or a block store carries on (R167, R192). -/
opaque Config.freeLine : Nat → Line
/-- What an uncorrectable trellis row reads as (R187). -/
opaque Config.freeRow : Nat → BitVec 128
/-- What a merge trellis row that cannot be read reads as (R187). -/
opaque Config.freeBits : Nat → Nat
/-- SHA3-256 over a sequence of fields, uninterpreted. -/
opaque Config.sha3 : List Nat → Hash
/-- KMAC256 with 32 bytes of output, of the key, the data and the customisation string, uninterpreted. -/
opaque Config.kmac : List Nat → List Nat → String → Hash
/-- Random bytes, keys and signatures that the security processor draws or makes. -/
opaque Config.secret : Nat → Nat
/-- Public keys and the session certificate's signature that the security processor makes of the device seed at every reset, by serial:
0 the identity key, 1 the session key, 2 the signature, 3 + i the signature of the checkpoint record at INDEX i. -/
opaque Config.deviceKey : Nat → Nat → Nat
/-- What an ML-KEM-768 ciphertext decapsulates to under the wrap key of a generation (R423). -/
opaque Config.decap : Nat → Nat → Hash
/-- What an ML-KEM-768 ciphertext decapsulates to under the session key pair of the module of a serial (Table 16.5). -/
opaque Config.decapSession : Nat → Nat → Hash
/-- The record-list entries for which the outbound ring sizes a result (R552). -/
opaque Config.ringRecords : Nat
/-- The state of the PRBS31 register with which the scrambler of a lane restarts, and the one from which the fill of a port's physical
lane continues (R285, R289). -/
opaque Config.scrambleSeed : Nat
opaque Config.fillSeed : Nat → Nat
/-- A choice the spec leaves open. -/
opaque Config.freeBool : Nat → Bool

end Sys2Proof
end

