-- ==== Sys2Proof/Machine/Calib.lean ====
section
/-! DEFINITION. The calibration set: its units, its DIGEST, when it is valid, and the set of a delivered module
(20_startup_and_service.md, R511 to R515). -/

namespace Sys2Proof.Machine

/-- FORMAT of a calibration set. -/
def calFormat : Nat := 0x49544341

/-- Units that have a record of a kind, on a module whose fused blocks are `fused`: ports, islands (a fused block has none), crossings
by the island that reads them, stacks, physical cold-frame channels (Table 20.4). -/
def calUnits (fused : BitVec 64) (kind : Nat) : List Nat :=
  let islands := (List.range 95).filter (fun i => decide (64 ≤ i) || !fused.getLsbD i)
  match kind with
  | 1 => List.range 12
  | 2 => islands
  | 3 => islands
  | 4 => List.range 12
  | 5 => List.range 17
  | _ => []

/-- The fields of the records after the header, in order. -/
def calFields (c : CalSet) : List Nat :=
  c.recs.foldl (fun a r => a ++ r.kind :: r.unit :: r.search ++ r.meas) [] ++
    c.shadow.foldl (fun a r => a ++ r.slices ++ r.regions.foldl (fun b e => b ++ [e.1, e.2]) []) []

/-- The DIGEST that a set's records have. -/
def calDigest (c : CalSet) : Hash := Config.sha3 (calFields c)

/-- A set with its DIGEST written. -/
def calSealed (c : CalSet) : CalSet := { c with digest := calDigest c }

/-- R511. -/
def calValid (serial : Nat) (fused : BitVec 64) (c : CalSet) : Bool :=
  decide (c.format = calFormat ∧ c.serial = serial ∧ c.digest = calDigest c ∧ c.shadow.length ≤ 1) &&
    ([1, 2, 3, 4, 5] : List Nat).all (fun k => (calUnits fused k).all (fun u =>
      decide ((c.recs.filter (fun r => decide (r.kind = k ∧ r.unit = u))).length = 1)))

/-- Measured value `i` of a unit. -/
def calMeas (c : CalSet) (kind unit i : Nat) : Nat :=
  ((c.recs.find? (fun r => decide (r.kind = kind ∧ r.unit = unit))).map (fun r => r.meas.getD i 0)).getD 0

/-- The set with the measured values of a unit replaced. -/
def calPut (c : CalSet) (kind unit : Nat) (meas : List Nat) : CalSet :=
  if c.recs.any (fun r => decide (r.kind = kind ∧ r.unit = unit)) then
    { c with recs := c.recs.map (fun r => if r.kind = kind ∧ r.unit = unit then { r with meas } else r) }
  else { c with recs := c.recs ++ [{ kind, unit, meas }] }

/-- Slices and regions of the SHADOW record; none without one (R515). -/
def calShadow (c : CalSet) : ShadowRec := c.shadow.headD { slices := [], regions := [] }

/-- A set with a record of every unit and no values. -/
def blankSet (serial : Nat) (fused : BitVec 64) : CalSet :=
  { format := calFormat, serial
    recs := ([1, 2, 3, 4, 5] : List Nat).foldl (fun a k => a ++ (calUnits fused k).map (fun u => { kind := k, unit := u })) [] }

/-- The set the factory writes; its values are not in the spec and stand as 0 (DESIGN CHOICE, log entry 5). -/
def factorySet (serial : Nat) (fused : BitVec 64) : CalSet := calSealed { blankSet serial fused with writer := 1 }

end Sys2Proof.Machine
end

