-- ==== Sys2Proof/Machine/State.lean ====
section
/-! DEFINITION. Everything the spec gives the module, as plain data; the queue of waiting commands; the reasons a step can
stop; the machine at reset. Indexed state is kept in sparse tables (Machine/Map.lean). -/

namespace Sys2Proof.Machine

/-! ### The cell (03_cell_scalar.md, 04_vector_and_loops.md, 06_matrix_engine.md) -/

/-- An address generator (Table 4.10). -/
structure Ag where
  addr    : BitVec 24 := 0
  inc0    : BitVec 24 := 0
  inc1    : BitVec 24 := 0
  inc2    : BitVec 24 := 0
  inc3    : BitVec 24 := 0
  winBase : BitVec 13 := 0
  winSize : BitVec 13 := 0
  deriving DecidableEq, Repr

/-- What lands in a register file when a result lands. -/
inductive RegWrite where
  | g (r : Nat) (x : Word)
  | p (l : List (Nat × Bool))
  | v (r : Nat) (lanes : List (Nat × Lane))
  | agSet (a fld : Nat) (x : Word)
  | agMove (a : Nat) (d : Int)
  deriving DecidableEq, Repr

/-- A result that lands at the end of cycle `due`; `issued` is its instruction's issue cycle (R66, R67). -/
structure PendRes where
  due    : Nat
  issued : Nat
  w      : RegWrite
  deriving DecidableEq, Repr

/-- A scalar memory access of cycle `due` (R68). -/
structure MemAcc where
  due    : Nat
  issued : Nat
  cs     : Bool
  en     : Bool
  store  : Bool
  rd     : Nat
  ea     : Nat
  n      : Nat
  sx     : Bool
  data   : Word
  deriving DecidableEq, Repr

/-- What a vector and matrix port operation does in its port cycles. -/
inductive PortAct where
  | idle
  | vld (vd : Nat) (mask : Word) (ea : Nat)
  | vst (mask : Word) (ea : Nat) (data : List Lane)
  | gather (n vd : Nat) (lanes : List (Nat × Nat)) (got : List (Nat × Lane))
  | scatter (n : Nat) (lanes : List (Nat × Nat × Lane))
  | mlw (wb : Bool) (ea : Nat)
  | mma (ea : Nat)
  | accOut (ea : Nat)
  | maddx (ea : Nat)
  deriving DecidableEq, Repr

/-- Port cycles start, start + step, ..., `count` of them, the first `done` already made (Tables 4.2, 6.10). -/
structure PortOp where
  start  : Nat
  step   : Nat
  count  : Nat
  done   : Nat
  issued : Nat
  act    : PortAct
  deriving DecidableEq, Repr

/-- Format and MX setting of a weight buffer's tile (Table 6.1). -/
structure Tag where
  fmt : Nat
  mx  : Bool
  deriving DecidableEq, Repr

/-- A weight buffer: tile lines, then two scale lines when MX, and the tag. -/
structure WBuf where
  lines : SMap Line := []
  tag   : Option Tag := none
  deriving DecidableEq, Repr

/-- A weight-buffer line written at the end of cycle `due`. -/
structure WLine where
  due  : Nat
  wb   : Bool
  j    : Nat
  line : Line
  deriving DecidableEq, Repr

/-- A tag set at the end of cycle `due`. -/
structure TagSet where
  due : Nat
  wb  : Bool
  tag : Tag
  deriving DecidableEq, Repr

/-- An enabled MMA whose rows are streaming (R148, R150, Table 6.10). -/
structure MmaOp where
  issued : Nat
  f      : MmaF
  sA     : List Lane
  w      : WBuf
  xs     : SMap Line
  landed : Nat
  wecc   : EccW
  deriving DecidableEq, Repr

/-- What an accumulator-engine output forms from a row. -/
inductive OutKind where
  | cvt (ofmt rm : Nat) (sat accf : Bool) (sh : Int)
  | raw
  deriving DecidableEq, Repr

/-- An enabled MCVT or MSTX. `reads` row reads are made; `lines` are the formed lines not yet written. -/
structure AccOut where
  issued : Nat
  kind   : OutKind
  clr    : Bool
  acc    : Nat
  rows   : Nat
  reads  : Nat
  lines  : SMap Line
  deriving DecidableEq, Repr

/-- An enabled MADDX. -/
structure Maddx where
  issued : Nat
  z      : Bool
  acc    : Nat
  rows   : Nat
  lines  : SMap Line
  landed : Nat
  deriving DecidableEq, Repr

/-- An enabled MCLR, zeroing at the end of cycle `due`. -/
structure Mclr where
  due  : Nat
  acc  : Nat
  rows : Nat
  deriving DecidableEq, Repr

/-- An accumulator entry and its flags, bits NAN, PINF, NINF, OVF (Table 6.2). -/
structure AccEntry where
  code  : BitVec 128 := 0
  flags : BitVec 4 := 0
  deriving DecidableEq, Repr

/-- A command in progress (R113 to R118): header address, body length, levels, trip counts, command predicate. -/
structure LoopSt where
  h     : Nat
  n     : Nat
  d     : Nat
  trip0 : Nat
  trip1 : Nat
  trip2 : Nat
  trip3 : Nat
  en    : Bool
  deriving DecidableEq, Repr

/-- A port of the cell store, in the order R61 applies same-cycle writes. -/
inductive CsPort where
  | xbar | vec | scalar
  deriving DecidableEq, Repr

/-- A cell-store write of cycle `cyc`, applied when that cycle is over (R60, R61). -/
structure CsWrite where
  cyc  : Nat
  port : CsPort
  data : List Host.Cell
  deriving DecidableEq, Repr

/-- The fault a cell stopped on (R93, R546). -/
structure CellFault where
  code  : Nat
  cycle : Nat
  deriving DecidableEq, Repr

/-- An instruction bank with its entry table (R70, R75). -/
structure Bank where
  words : SMap Word := []
  entry : SMap Nat := []
  valid : Bool := false
  deriving DecidableEq, Repr

/-- A physical cell: register files, memories, units and everything in flight. Cycles are counts of `State.cycle`. -/
structure Cell where
  g         : SMap Word := []
  p         : SMap Bool := []
  v         : SMap Lane := []
  ag        : SMap Ag := []
  lc        : SMap Nat := []
  pc        : Nat := 0
  issueFree : Nat := 0
  stepEnd   : Bool := true
  slotEn    : Bool := false
  lastPort  : Nat := 0
  fault     : Option CellFault := none
  loop      : Option LoopSt := none
  pend      : List PendRes := []
  macc      : List MemAcc := []
  port      : List PortOp := []
  wlines    : List WLine := []
  tagSets   : List TagSet := []
  mma       : List MmaOp := []
  accOut    : List AccOut := []
  maddx     : List Maddx := []
  mclr      : List Mclr := []
  divFree   : Nat := 0
  vecFree   : Nat := 0
  wleFree   : Nat := 0
  arrFree   : Nat := 0
  accFree   : Nat := 0
  vecEn     : Bool := false
  wleEn     : Bool := false
  arrEn     : Bool := false
  accEn     : Bool := false
  wleBuf    : Bool := false
  arrBuf    : Bool := false
  sdm       : Mem := []
  cs        : Mem := []
  csw       : List CsWrite := []
  acc       : SMap AccEntry := []
  wb0       : WBuf := {}
  wb1       : WBuf := {}
  bank0     : Bank := {}
  bank1     : Bank := {}
  deriving DecidableEq, Repr

/-- A cell at reset: every register zero (p0 reads 1), nothing in flight, memories listing nothing. -/
def Cell.zero : Cell := {}

/-! ### Beats, blocks and the region mesh (07_blocks_and_regions.md) -/

/-- The sideband word of a beat (Table 7.1), without its check bits. -/
structure Sb where
  part   : BitVec 4
  kind   : BitVec 2
  dkind  : BitVec 2
  dblock : BitVec 6
  dmask  : BitVec 16
  line   : BitVec 15
  deriving DecidableEq, Repr

/-- A beat: a 256 B line and its sideband word (R161). Lulls are not held. -/
structure Beat where
  sb   : Sb
  data : Line
  deriving DecidableEq, Repr

/-- A beat at an input or output of a switch, or in flight to it, in cycle `cyc`. -/
structure Hop where
  cyc  : Nat
  port : Nat
  beat : Beat
  deriving DecidableEq, Repr

/-- A block store write of cycle `cyc` by barrow port `port`, applied when that cycle is over (R166). -/
structure BsWrite where
  cyc  : Nat
  port : Nat
  ea   : Nat
  line : Line
  deriving DecidableEq, Repr

/-- An iteration a barrow is moving: started in cycle `g`, `done` lines read (R172). -/
structure Move where
  g    : Nat
  desc : Desc
  iter : Nat
  done : Nat
  deriving DecidableEq, Repr

/-- A barrow: the descriptor under its cursor, the segment's end, the iteration count, occupancy, moves in progress. -/
structure Barrow where
  cursor : Option Nat := none
  stop   : Nat := 0
  iter   : Nat := 0
  busy   : Nat := 0
  moves  : List Move := []
  deriving DecidableEq, Repr

/-- A block and the router at its position. `map` lists the physical cell of each plan position under the mapping in force
(R176); `codePos` and `usedPos` are the positions with code and the positions the installed image uses. -/
structure Block where
  owner   : Option Nat := none
  vblock  : Nat := 0
  map     : List Nat := []
  codePos : BitVec 16 := 0
  usedPos : BitVec 16 := 0
  store   : Mem := []
  bsw     : List BsWrite := []
  barrow0 : Barrow := {}
  barrow1 : Barrow := {}
  xin     : List Hop := []
  xout    : List Hop := []
  rin     : List Hop := []
  deriving DecidableEq, Repr

def Block.zero : Block := {}

/-! ### Obliner stacks (08_obliner_stacks.md) and merge units (09_weights_and_scions.md) -/

/-- A stored line: the plaintext with the key and the tweak it is encrypted under (R216), which give its ciphertext; under key 0
`data` is the ciphertext itself. -/
structure SLine where
  key   : Nat := 0
  tweak : Nat := 0
  data  : Line := 0
  deriving DecidableEq, Repr

/-- What the unlisted lines of a lease's place hold: zeros encrypted under `key` with the tweaks of lease index `lease`, or, under
key 0, all-zero ciphertext with valid check symbols (R218). -/
structure Blank where
  key   : Nat := 0
  lease : Nat := 0
  deriving DecidableEq, Repr

/-- Zeroisation of a lease's place: what its lines become, the lines done, the frame (plus 1) of the latest (R218). -/
structure Wipe where
  to'   : Blank
  done  : Nat := 0
  frame : Nat := 0
  deriving DecidableEq, Repr

/-- Where a lease index lies (Tables 8.3, 10.2): stack, channel and quarter, or channel and slice (unit 0). -/
structure LeaseLoc where
  unit : Nat
  ch   : Nat
  sub  : Nat
  deriving DecidableEq, Repr

/-- An open write count (R197): first address, lines, the next place. -/
structure OpenCount where
  paddr : Nat
  lines : Nat
  next  : Nat
  deriving DecidableEq, Repr

/-- A beat that leaves a stack or the cold frame in cycle `due`, or a line on its way to a merge buffer. -/
structure Ret where
  due   : Nat
  port  : Nat
  beat  : Beat
  merge : Bool
  ch    : Nat
  deriving DecidableEq, Repr

/-- A row copy to a spare row (R212). -/
structure RowCopy where
  bank : Nat
  row  : Nat
  done : Nat
  deriving DecidableEq, Repr

/-- State of a stack or of the cold frame (Tables 8.6, 10.3). -/
inductive MemState where
  | ok | degraded | failed
  deriving DecidableEq, Repr

/-- One channel of a stack: its refresh and scrub sequences, corrected lines of the scrub pass, retraining, repairs. `copies` are
the rows to be copied, the first in progress; `refAt` is the half window (twice the frame, plus 0 or 1, plus 1) of the latest
refresh operation; `window` and `trained` are the frames (plus 1) of the latest line handled in a scrub
window and of the latest retraining step; `pins` the pin pairs lost. -/
structure StkChan where
  refresh   : Nat := 0
  refAt     : Nat := 0
  scrub     : Nat := 0
  pass      : Nat := 0
  passCorr  : Nat := 0
  window    : Nat := 0
  sweep     : Option Nat := none
  trained   : Nat := 0
  pins      : List Nat := []
  hits      : SMap Nat := []
  copies    : List RowCopy := []
  rowsUsed  : SMap Nat := []
  colsUsed  : Nat := 0
  failing   : Bool := false
  mbuf      : SMap Line := []
  deriving DecidableEq, Repr

def StkChan.zero : StkChan := {}

/-- A stack. `repairs` are the entries of its identity memory, `digest` the DIGEST as last rewritten (none: as delivered), `badRec`
a record whose DIGEST did not match at start-up, `mirror` the hub-flash copy (Table 8.5, R219); `keys` are the 16 key slots
(R217). -/
structure Stack where
  tempC    : Int := 0
  hot      : Bool := false
  state    : MemState := .ok
  spareFor : Option Nat := none
  evac     : Option (Nat × Nat) := none
  evacDone : Bool := false
  ce       : BitVec 16 := 0
  pinFail  : Nat := 0
  repairs  : List (BitVec 64) := []
  digest   : Option Hash := none
  badRec   : Bool := false
  mirror   : List (BitVec 64) := []
  serial   : Nat := 0
  build    : Nat := 0
  keys     : SMap Nat := []
  chans    : SMap StkChan := []
  arrive   : List Hop := []
  rets     : List Ret := []
  opens    : SMap (Option OpenCount) := []
  lastSlot : SMap Nat := []
  lines    : SMap SLine := []
  blank    : SMap Blank := []
  wipes    : SMap (Option Wipe) := []
  deriving DecidableEq, Repr

def Stack.zero : Stack := {}

/-! ### The cold frame (10_serving_state.md) -/

/-- One logical channel of the cold frame; `refAt` is the group (51 times the frame, plus its number, plus 1) of the latest
operation in a reserved group, `window` the frame (plus 1) of the latest line copied. -/
structure CfChan where
  refresh  : Nat := 0
  refAt    : Nat := 0
  scrub    : Nat := 0
  passCorr : Nat := 0
  sweep    : Bool := false
  failing  : Bool := false
  window   : Nat := 0
  deriving DecidableEq, Repr

def CfChan.zero : CfChan := {}

/-- The cold frame; `keys` are its 16 key slots (R253). -/
structure Cold where
  tempC    : Int := 0
  hot      : Bool := false
  state    : MemState := .ok
  spareFor : Option Nat := none
  copy     : Option (Nat × Nat) := none
  copyDone : Bool := false
  ce       : BitVec 16 := 0
  chans    : SMap CfChan := []
  arrive   : List Hop := []
  rets     : List Ret := []
  opens    : SMap (Option OpenCount) := []
  keys     : SMap Nat := []
  lines    : SMap SLine := []
  blank    : SMap Blank := []
  wipes    : SMap (Option Wipe) := []
  deriving DecidableEq, Repr

/-! ### Landing records, slots, parking (02, 10) -/

/-- A landing record (Table 10.4). `flagAt` is the hall time its completion flag was set; `visible` the plan domain sees
it; `held` a step has consumed it and has not committed. -/
structure Rec where
  kind    : Nat
  slot    : Option Nat
  arg     : Nat
  lines   : List Line
  paddr   : Nat
  bytes   : Nat
  flagAt  : Option Nat
  visible : Bool
  held    : Bool
  hdr     : Option Hdr
  deriving DecidableEq, Repr

/-- What became of a record in the window in force (Table 10.12). -/
inductive RecOutcome where
  | applied | held | stale
  deriving DecidableEq, Repr

structure RecEntry where
  seq  : Nat
  slot : Option Nat
  kind : Nat
  out  : RecOutcome
  deriving DecidableEq, Repr

/-- A stamp record (R269). -/
structure Stamp where
  admitAt  : Nat := 0
  first  : Nat := 0
  last   : Nat := 0
  gapMax : Nat := 0
  tokens : Nat := 0
  deriving DecidableEq, Repr

/-- A request slot: the slot table entry, its page table (page number + 1, 0 invalid), deadline, OFF_LATE, stamps, and what
the step in progress and the last committed step say of it. -/
structure Slot where
  assigned : Bool := false
  length   : Nat := 0
  variant  : Nat := 0
  appended : Nat := 0
  pages    : SMap Nat := []
  deadline : Nat := 0
  offLate  : Bool := false
  stamp    : Stamp := {}
  tokensIn : Nat := 0
  takes    : Bool := false
  groupOff : Bool := false
  deriving DecidableEq, Repr

def Slot.zero : Slot := {}

/-- A per-slot entry of a step result (Table 10.11). -/
structure SlotResult where
  consumed    : Bool := false
  inputAbsent : Bool := false
  offLate     : Bool := false
  late        : Bool := false
  stale       : Bool := false
  assigned    : Bool := false
  takes       : Bool := false
  outTokens   : Nat := 0
  appended    : Nat := 0
  length      : Nat := 0
  stamp       : Stamp := {}
  deadline    : Nat := 0
  deriving DecidableEq, Repr

/-- A step result with its record list and the outputs of the slots that took part (R270, R271). -/
structure StepResult where
  kind          : Nat
  variantAbsent : BitVec 16
  stepNo        : Nat
  endHall       : Nat
  startFrame    : Nat
  postLost      : Nat
  slots         : SMap SlotResult
  recs          : List RecEntry
  outputs       : SMap Line
  deriving DecidableEq, Repr

/-- Park entry states (Table 10.13). -/
inductive ParkState where
  | free | parking | parked | resuming | zeroising
  deriving DecidableEq, Repr

/-- A park entry: the conversation, its page layout at the PAUSE (KV_BASE, KV_GROUPS), the pages it came from and those it resumes
into, with the layout they have. -/
structure Park where
  st      : ParkState := .free
  length  : Nat := 0
  variant : Nat := 0
  ttlS    : Nat := 0
  expiry  : Nat := 0
  addr    : Nat := 0
  slot    : Nat := 0
  kvBase  : Nat := 0
  groups  : Nat := 0
  pages   : List Nat := []
  toBase  : Nat := 0
  toGroups : Nat := 0
  dest    : List Nat := []
  copied  : Nat := 0
  ready   : Bool := false
  expired : Bool := false
  hdr     : Option Hdr := none
  deriving DecidableEq, Repr

def Park.zero : Park := {}

/-! ### Weight sets and rotation (09) -/

/-- A set's directory: rootstock, and scions by number with their pool slot. -/
structure WSet where
  valid  : Bool := false
  digest : Hash := 0
  span   : Nat := 0
  recL   : Nat := 0
  scions : SMap (Option Nat) := []
  digs   : SMap Hash := []
  pool   : SMap Nat := []
  deriving DecidableEq, Repr

/-- LOAD_STATUS codes (Tables 3.5, 9.7). -/
inductive LoadStatus where
  | none | busy | done | failed
  deriving DecidableEq, Repr

/-! ### Partitions (02, 03, 09, 10, 15) -/

/-- STATE of hub.part.step (Table 2.4). -/
inductive PState where
  | empty | staged | armed | running | faulted | stopped
  deriving DecidableEq, Repr

/-- A load of a plan section into the inactive bank (R75, R76, R79); `done` of its lines are written. -/
structure BankLoad where
  bank  : Bool
  secs  : List Section
  hdr   : Option Hdr
  done  : Nat
  deriving DecidableEq, Repr

/-- hub.part.sieve (Table 15.11): VERDICT 0 none, 1 accepted, 2 rejected, 3 in progress. -/
structure SieveReg where
  check   : Nat := 0
  verdict : Nat := 0
  binding : Nat := 0
  sec     : Nat := 0
  item    : Nat := 0
  deriving DecidableEq, Repr

/-- Hub-kept state of the last committed step boundary, to which a discarded step returns (R50). -/
structure Saved where
  slots   : SMap Slot := []
  active  : Bool := false
  held    : Bool := false
  pendRot : Option (Nat × Nat) := none
  bankAct : Bool := false
  deriving DecidableEq, Repr

/-- What the window of the step in progress has consumed (R36 to R43). -/
structure Window where
  consumed : List Nat := []
  entries  : List RecEntry := []
  bankRec  : Option Nat := none
  absent   : BitVec 16 := 0
  deriving DecidableEq, Repr

/-! ### Fabric ports (11, 12) -/

/-- STATE of hub.port.status (Table 11.7). -/
inductive PortSt where
  | off | down | training | calibrating | up | fenced | failed
  deriving DecidableEq, Repr

/-- A flit received and held until its delivery, `due` counted in the receiver's cycles; `frm` and `slot` are those of its
launch. -/
structure RxFlit where
  due  : Nat
  frm  : Nat
  slot : Nat
  flit : Flit
  deriving DecidableEq, Repr

/-- A flit waiting to be launched from cycle `due`: forwarded plan flits name their source port and slot. -/
structure FwdFlit where
  due   : Nat
  port  : Nat
  slot  : Nat
  flit  : Flit
  deriving DecidableEq, Repr

/-- A dynamic flit in a queue (R325), ready from cycle `due`: its layer, class and, once launched, its EPOCH (R317). -/
structure DynFlit where
  due   : Nat
  lay   : Nat
  cls   : Nat
  epoch : Option Bool
  hdr   : DynHdr
  line  : Line
  deriving DecidableEq, Repr

/-- A flit handed to a port's transmitter: the wall time of its launch, in 1/2,520 ns, and the segments of the ten physical lanes
(R288, R292). -/
structure TxFlit where
  at'  : Nat
  segs : List (Option (BitVec 544))
  deriving DecidableEq, Repr

/-- A control flit received, with its frame, until it is delivered in cycle `due` (R304). -/
structure RxCtl where
  due : Nat
  frm : Nat
  ctl : CtlFlit
  deriving DecidableEq, Repr

/-- A layer opened by PORT_OPEN (R333): job, rank, expected serial, bootstrap routes. -/
structure Boot where
  job    : Nat
  rank   : Nat
  serial : Nat
  routes : SMap (BitVec 16)
  deriving DecidableEq, Repr

/-- A fabric port. `lanesRx` and `lanesTx` are the LANE of each physical lane, 9 for the spare (R283, R289); `superAt` is the wall time
of the transmitter's first superframe, `segNext` its next free segment time, `superTx` the superframe in progress and `txSegs` what its
segment times carry (fill where nothing is listed), `superRx` the superframe count last received;
`lostLock` marks lanes whose receiver has lost lock; `act` and `lay` are the partitions that are ARMED or RUNNING and the
layers that run the bootstrap trellis in the present frame (R335). -/
structure Port where
  st        : PortSt := .off
  roleSet   : Option Nat := none
  fault     : Bool := false
  spareRx   : Nat := 0xF
  spareTx   : Nat := 0xF
  spareOk   : Bool := false
  degraded  : Bool := false
  badRx     : BitVec 9 := 0
  lastFatal : Nat := 0
  rebuilt   : BitVec 16 := 0
  badSeg    : BitVec 16 := 0
  fast      : Bool := false
  stormCorr : Nat := 0
  latTx     : Nat := 0
  latRx     : Nat := 0
  flightMax : Nat := 0
  warnHold  : Bool := false
  warnGuard : Bool := false
  holdMax   : Nat := 0
  holdMin   : Nat := 0xFF
  guardMax  : Nat := 0
  fwdDrop   : BitVec 8 := 0
  stray     : BitVec 8 := 0
  boot      : SMap (Option Boot) := []
  peer      : Option CtlFlit := none
  failAt    : SMap (List Nat) := []
  spareLane : Nat := 0xF
  spareAt   : Nat := 0
  dual      : Bool := false
  spareSeen : Nat := 0
  budgetBad : BitVec 16 := 0
  outBeats  : List Hop := []
  inbox     : List RxFlit := []
  fwd       : List FwdFlit := []
  dynQ      : SMap (List DynFlit) := []
  fwdDyn    : List DynFlit := []
  lastTx    : Nat := 0
  lanesRx   : List Nat := [0, 1, 2, 3, 4, 5, 6, 7, 8, 9]
  lanesTx   : List Nat := [0, 1, 2, 3, 4, 5, 6, 7, 8, 9]
  superAt   : Nat := 0
  segNext   : Nat := 0
  superTx   : Nat := 0
  txSegs    : SMap (List (BitVec 544)) := []
  superRx   : Nat := 0
  lostLock  : BitVec 10 := 0
  txq       : List TxFlit := []
  ctlIn     : List RxCtl := []
  lay       : List Nat := []
  inSync    : Bool := false
  act       : List Nat := []
  hbAt      : Nat := 0
  hbLost    : Bool := false
  deriving DecidableEq, Repr

def Port.zero : Port := {}

/-! ### Dynamic transfers and the twin (12) -/

/-- A transfer that this module requested (R328): `hdr` of its first flit, the pieces held, `left` the ports its latest attempt
left by, `quar` the port whose fall has quarantined it, `done` its status once complete. -/
structure Xfer where
  part    : Nat
  hdr     : DynHdr
  laddr   : Nat
  gen     : Nat
  tries   : Nat
  retries : Nat
  timeout : Nat
  got     : List Nat
  quar    : Option Nat
  left    : List Nat
  sentAt  : Nat := 0
  done    : Option Nat
  hdrCmd  : Option Hdr
  deriving DecidableEq, Repr

/-- The responder's record of one sequence number (R330): pieces held, TOTAL once known, the outcome once executed. -/
structure DupRec where
  seq    : Nat
  pieces : SMap Line
  total  : Option Nat
  status : Option Nat
  deriving DecidableEq, Repr

/-- The duplicate-table entry of a requester and channel: the next sequence number, the last 64 records, the headers of the
transfers in progress, the time of the newest record. -/
structure DupEntry where
  next : Nat := 0
  recs : List DupRec := []
  heads : List (Nat × DynHdr) := []
  at'  : Nat := 0
  deriving DecidableEq, Repr

/-- Pieces the fabric engine is still to launch (R324, R329): pieces `next` up to `n` of the flits of header `hdr` in layer
`part`, class 2 request or 3 response; lines, if any, are read from `laddr` on. -/
structure Outgo where
  part  : Nat
  cls   : Nat
  hdr   : DynHdr
  data  : Bool
  laddr : Nat
  next  : Nat
  n     : Nat
  deriving DecidableEq, Repr

/-- The fabric engine (Table 12.6): `inq` are the dynamic flits delivered to it, with the port each came by, `shadowIn` the plan flits
delivered on TW. -/
structure Fab where
  inq      : List (Nat × DynFlit) := []
  shadowIn : List Flit := []
  outq     : List Outgo := []
  xfers    : SMap (Option Xfer) := []
  seqs     : SMap Nat := []
  dups     : SMap (Option DupEntry) := []
  retries  : BitVec 16 := 0
  lateDrop : BitVec 16 := 0
  badTags  : Nat := 0
  deriving DecidableEq, Repr

/-- What the shadow engine holds for a sender partition (Table 12.7, R338 to R341): its map, the stream position, the
promoted and the provisional checkpoint, lines, park copies. `twinSize` is the region that the twin last reported for this module's
partition of the same number. -/
structure Shadow where
  map      : Option TwinMap := none
  left     : Nat := 0
  line     : Nat := 0
  kind     : Nat := 0
  stepNo   : Nat := 0
  building : List Line := []
  promoted : Option (Nat × List Line) := none
  prov     : Option (Nat × List Line) := none
  incompl  : Bool := false
  missed   : Nat := 0
  lost     : Bool := false
  lines    : SMap Line := []
  parks    : SMap (List Line) := []
  parkReq  : SMap (Option (Nat × Nat)) := []
  grafts   : List MgrMsg := []
  twinSize : Nat := 0
  deriving DecidableEq, Repr

def Shadow.zero : Shadow := {}

/-! ### The time unit (13) -/

inductive HallSt where
  | unlocked | locked | hold
  deriving DecidableEq, Repr

/-- The vote for mark `mark`, held in frame `frm` of `State.frm` (R364): the largest request so far, the decision once held,
whether a port of it was lost (R365). -/
structure Vote where
  mark : Nat
  frm  : Nat
  req  : Nat
  dec  : Option Nat
  lost : Bool
  deriving DecidableEq, Repr

/-- A frame of the hall grid: the hall frame of its mark, its index in the mark period, the gust step (R356, R359). -/
structure Grid where
  mark : Nat
  j    : Nat
  gust : Nat
  deriving DecidableEq, Repr

/-- The time unit (Tables 13.6 to 13.9). `mark` is the hall frame of the most recent mark, `j` the frame's index in its mark
period; `prevGust` the gust step of the mark period before. -/
structure TimeU where
  hall      : HallSt := .unlocked
  refOk     : Bool := false
  refLocal  : Bool := false
  alignWarn : Bool := false
  lagWarn   : Bool := false
  synthB    : Bool := false
  alignErr  : Int := 0
  holdMarks : BitVec 16 := 0
  wordErr   : BitVec 16 := 0
  goodRun   : Nat := 0
  named     : Option Nat := none
  holdRun   : Nat := 0
  seen      : Nat := 0
  mark      : Nat := 0
  j         : Nat := 0
  gust      : Nat := 0
  prevGust  : Nat := 0
  votes     : List Vote := []
  floor     : Nat := 0
  deriving DecidableEq, Repr

/-- A clock island (Table 13.10). -/
structure Island where
  lagMax : Nat := 0
  lag    : Nat := 0
  warn   : Bool := false
  failed : Bool := false
  offset : Nat := 0
  warns  : BitVec 16 := 0
  deriving DecidableEq, Repr

def Island.zero : Island := {}

/-! ### Managers (14) -/

/-- What the manager function of a partition holds (R372 to R391, Table 14.5). -/
structure Mgr where
  floor     : Nat := 2
  budget    : Nat := 4
  score     : Nat := 400
  spares    : List Nat := []
  round     : Nat := 0
  health    : SMap (Option MgrMsg) := []
  lastHeard : SMap Nat := []
  low       : SMap Nat := []
  seeded    : SMap (Option Hash) := []
  votes     : List (Nat × Nat × Nat) := []
  prunes    : List (Nat × Nat) := []
  cands     : List (Nat × Nat) := []
  orphans   : List (Nat × Nat) := []
  gone      : List Nat := []
  grafts    : List Nat := []
  ends      : List (Nat × Nat) := []
  nextDseq  : Nat := 1
  deriving DecidableEq, Repr

/-! ### Power (18) -/

/-- `core` is the set voltage of VDD_CORE in mV (Table 18.4, R470); `estAt` the number of 2,048-cycle intervals estimated (R476). -/
structure Power where
  capW      : Nat := 3000
  core      : Nat := 800
  capNext   : Option Nat := none
  estW      : Nat := 0
  peakW     : Nat := 0
  gustAct   : Bool := false
  overW      : Bool := false
  overRun   : Nat := 0
  actReq    : Nat := 0
  low16     : Nat := 0
  estAt     : Nat := 0
  busV      : Nat := 0
  inletC    : Nat := 0
  outletC   : Nat := 0
  flow      : Nat := 0
  dom       : BitVec 96 := BitVec.ofNat 96 0xF00000000000000000000000
  domOff    : BitVec 96 := 0
  tripped   : BitVec 96 := 0
  tripGrp   : SMap Nat := []
  convOk    : BitVec 5 := 31
  phLost    : SMap Nat := []
  sensors   : SMap Int := []
  stages    : SMap Nat := []
  thermReq  : Nat := 0
  stageAt   : Nat := 0
  lowFlow   : Option Nat := none
  hotInlet  : Option Nat := none
  swNext    : Nat := 0
  lockout   : Bool := false
  deriving DecidableEq, Repr

/-- The sequencer's registers (Table 21.7). -/
structure Seqr where
  hubDom  : BitVec 4 := 0xF
  hubAct  : BitVec 4 := 0
  refused : Bool := false
  coolant : Bool := false
  trip    : Bool := false
  lockout : Bool := false
  clip    : Bool := false
  deriving DecidableEq, Repr

/-! ### Security, firmware, host (16, 17, 20) -/

inductive Role where
  | none | operator | installer | maker | module
  deriving DecidableEq, Repr

/-- A session, open or being opened. -/
structure Session where
  role    : Role := .none
  kh      : Hash := 0
  entry   : Nat := 0
  proved  : Bool := false
  pass    : Bool := false
  nonce   : Nat := 0
  openAt  : Nat := 0
  lastAt  : Nat := 0
  counter : Nat := 0
  badTags : Nat := 0
  key     : Hash := 0
  deriving DecidableEq, Repr

/-- An audit entry (Table 16.8). -/
structure Audit where
  index  : Nat
  hallNs : Nat
  role   : Role
  event  : Nat
  opcode : Nat
  status : Nat
  part   : Nat
  sid    : Nat
  keyId  : Hash
  param  : Hash
  prev   : Hash
  deriving DecidableEq, Repr

/-- A checkpoint record (R444): INDEX, the chain hash at it, HALL_NS. -/
structure CheckRec where
  index  : Nat
  chain  : Hash
  hallNs : Nat
  deriving DecidableEq, Repr

/-- The firmware of a target: the bank in use, its banks (empty, or an image), the fused minimum, an install and an activation in
progress. The module is delivered with an image in bank A. -/
structure FwT where
  bankB   : Bool := false
  a       : Option FwImage := some { version := 0, digest := 0, signed := true }
  b       : Option FwImage := none
  min     : Nat := 0
  install : Option (Option Hdr × FwImage) := none
  activ   : Option Hdr := none
  activAt : Nat := 0
  deriving DecidableEq, Repr

/-- PHASE of hub.boot.status (Table 20.8). -/
inductive Phase where
  | power | boot | identity | memory | calibration | search | ready | bootFail
  deriving DecidableEq, Repr

structure BootR where
  phase     : Phase := .power
  calSource : Nat := 0
  selfcal   : Option (Bool × Nat) := none
  selfHdr   : Option Hdr := none
  startDs   : Nat := 0
  resets    : BitVec 16 := 0
  idFail    : BitVec 4 := 0
  rstLow    : Bool := false
  perst     : BitVec 2 := 0
  deriving DecidableEq, Repr

/-- hub.io.status, hub.io.mac and the links (Tables 21.9, 21.10, R448). -/
structure Io where
  clip     : Bool := true
  slot     : Nat := 0xFF
  twinSlot : Nat := 0xFF
  opt      : BitVec 5 := 0
  dynAddr  : BitVec 7 := 0
  mac      : BitVec 48 := 0
  bifur    : Bool := false
  bifurNxt : Bool := false
  ideKeys  : SMap Nat := []
  deriving DecidableEq, Repr

/-- Fused identity (00_scope.md): GRADE, the positions chosen for fused blocks, serial, groups blown. -/
structure Fuses where
  grade    : Nat := 1
  fusedAt  : BitVec 64 := 0
  serial   : Nat := 0
  debugCnt : Nat := 0
  blown    : SMap Word := []
  deriving DecidableEq, Repr

/-- A ring (Tables 17.3 to 17.6). -/
structure Ring where
  base    : Nat := 0
  enable  : Bool := false
  err     : Bool := false
  vector  : Nat := 0
  entry   : Nat := 0
  size    : Nat := 4
  db      : Nat := 0
  phase   : Bool := true
  lost    : Nat := 0
  flight  : Nat := 0
  ptr     : Nat := 0
  deriving DecidableEq, Repr

/-- A completion (Table 17.10): results as width in bytes and value. -/
structure Compl where
  opcode  : Nat
  status  : Nat
  hdr     : Hdr
  phase   : Bool
  trunc   : Bool
  results : List (Nat × Nat)
  tag     : Hash := 0
  deriving DecidableEq, Repr

/-- An event (Table 17.14). -/
structure Event where
  kind   : Nat
  part   : Nat
  phase  : Bool := false
  lost   : Nat
  hallNs : Nat
  args   : List Nat
  deriving DecidableEq, Repr

/-- What the module has sent to the outside, oldest first. -/
inductive Sent where
  | compl (c : Compl)
  | event (fn set : Nat) (e : Event)
  | result (fn set p : Nat) (phase : Bool) (r : StepResult)
  | msix (fn set vector : Nat)
  | flit (port slot cyc hold : Nat) (f : Flit)
  | superframe (port n : Nat) (words : List (List (BitVec 5440)))
  | ctl (port hold : Nat) (c : CtlFlit)
  | mgr (m : MgrMsg)
  | seed (p port : Nat) (piece : SeedPiece)
  | seedAck (p : Nat) (digest : Hash)
  | twinMap (p : Nat) (m : TwinMap)
  | twinRelease (p entry : Nat)
  | twinStatus (serial status : Nat) (rec : Option (Nat × List Line)) (lines : SMap Line)
  | twinParked (p entry : Nat)
  | calSet (host : Nat) (c : CalSet)
  deriving DecidableEq, Repr

/-- An error record (Table 19.7). -/
structure ErrRec where
  index  : Nat
  hallNs : Nat
  cause  : Nat
  cls    : Nat
  part   : Nat
  level  : Nat
  unit   : Nat
  rep    : Nat
  stepNo : Nat
  frame  : Nat
  offset : Nat
  job    : Nat
  d0     : Nat
  d1     : Nat
  deriving DecidableEq, Repr

/-- hub.health (Table 19.12) and the histories behind it (R504). -/
structure Health where
  score    : Nat := 0x3E8
  cePen    : Nat := 0
  sparePen : Nat := 0
  thermPen : Nat := 0
  wmPen    : Nat := 0
  round    : Nat := 0
  inputs   : List (Nat × Nat) := []
  ces      : List (Nat × Nat × Nat) := []
  wms      : SMap Nat := []
  deriving DecidableEq, Repr

/-- hub.cnt.sel and hub.cnt.data (Tables 19.5, 19.6). -/
structure CntReg where
  selErr : Bool := false
  loc    : Nat := 0
  idx    : Nat := 0
  sticky : Bool := false
  valid  : Bool := false
  mode   : Nat := 0
  event  : Nat := 0
  value  : BitVec 48 := 0
  selAt  : Option Nat := none
  want   : Option (Nat × Nat) := none
  deriving DecidableEq, Repr

/-- Roles' keys and the passphrase (Table 16.2, R430, R434 to R436). -/
structure Keys where
  installers : SMap Hash := []
  operators  : SMap Hash := []
  opParts    : SMap (BitVec 16) := []
  passSet    : Bool := false
  salt       : Nat := 0
  passV      : Hash := 0
  passFails  : Nat := 0
  passLock   : Bool := false
  passUntil  : Nat := 0
  twinSerial : Option Nat := none
  pairKey    : Bool := false
  certs      : List Nat := []
  attestEp   : BitVec 16 := 0
  debugOn    : Bool := false
  deriving DecidableEq, Repr

/-! ### What a partition holds besides its plan (09, 14, 16, 18) -/

/-- JSTATE of hub.part.job (Table 14.2). -/
inductive JState where
  | none | joined | seeding | seeded | member | pruned | spare
  deriving DecidableEq, Repr

/-- A bundle load in progress (R224): the target set, the scion number (0 the rootstock), its pool slot, the command. -/
structure BLoad where
  setB  : Bool
  scion : Nat
  slot  : Nat
  bn    : Bundle
  hdr   : Option Hdr
  deriving DecidableEq, Repr

/-- Ownership and keys (Tables 16.9, R414, R428). -/
structure SecSt where
  created    : Bool := false
  opEntry    : Nat := 0
  tenants    : SMap Hash := []
  keyGen     : BitVec 16 := 0
  wrapGen    : Nat := 0
  zeroPend   : List (Tier × Nat) := []
  cleanKeys  : Bool := false
  jobKey     : Option Hash := none
  jobKeyWait : Option Hash := none
  deriving DecidableEq, Repr

/-- Membership of a job (Table 14.2, R370 to R393). `decs` are decision copies received, `seen` messages acted on. -/
structure JobSt where
  jstate    : JState := .none
  manager   : Bool := false
  grafted   : Bool := false
  applied   : Nat := 0
  job       : Nat := 0
  cube      : Nat := 0
  boc       : Nat := 0
  mgrs      : List Nat := []
  seedPar   : Nat := 0xF
  seedKids  : BitVec 16 := 0
  acks      : SMap Bool := []
  seedBad   : Bool := false
  seedAt    : Nat := 0
  restored  : Bool := false
  seedDigs  : List Hash := []
  seq       : Nat := 0
  decs      : List MgrMsg := []
  seen      : List (Nat × Nat) := []
  mgr       : Mgr := {}
  startMark : Option Nat := none
  resume    : Option (Nat × Nat × Nat) := none
  rampFrom  : Nat := 0
  stopAt    : Option Nat := none
  teardown  : Option Nat := none
  detach    : Bool := false
  rotAgreed : Option Bool := none
  rotKept   : Option (Nat × Bool) := none
  rotV      : Option Nat := none
  rotVal    : Bool := false
  deriving DecidableEq, Repr

/-- Allocation, envelope split and energy (Table 18.14); `energyRem` in nanojoules short of a millijoule. -/
structure PwrSt where
  alloc     : Nat := 0
  envelope  : Nat := 0
  computeW  : Nat := 0
  memoryW   : Nat := 0
  linkW     : Nat := 0
  overClass : Bool := false
  energyMj  : Nat := 0
  energyRem : Nat := 0
  deriving DecidableEq, Repr


/-- A partition: its plan and step (Tables 2.3 to 2.6), banks (Table 3.5), slots and records (10), weight sets (9), lease tables, keys,
job, ownership and power. -/
structure Part where
  st         : PState := .empty
  planTime   : Nat := 0
  planFrame  : Nat := 0
  stepNo     : Nat := 0
  stepKind   : Nat := 0
  cyclePos   : Nat := 0
  stepStart  : Nat := 0
  epoch      : BitVec 16 := 0
  stepEpoch  : BitVec 16 := 0
  commEpoch  : BitVec 16 := 0
  fenceAt    : Option (Bool × Nat) := none
  epochIdx   : Nat := 0
  epochStart : Nat := 0
  prevSeg    : Option (Nat × Nat) := none
  seed       : Word := 0
  image      : Option PlanImage := none
  axRole     : Option Nat := none
  rank       : Nat := 0
  jobSize    : Nat := 1
  binding    : Nat := 0
  graftSel   : BitVec 16 := 0
  bankCode0  : List Section := []
  bankCode1  : List Section := []
  bankAct    : Bool := false
  switches   : BitVec 16 := 0
  bankStatus : LoadStatus := .none
  bankTarget : Bool := false
  bankLoad   : Option BankLoad := none
  sieve      : SieveReg := {}
  stopReq    : Option Nat := none
  win        : Window := {}
  replay     : Option Window := none
  saved      : Saved := {}
  slots      : SMap Slot := []
  recs       : SMap (Option Rec) := []
  nextSeq    : Nat := 0
  landLeases : List Nat := []
  outRing    : List (Bool × StepResult) := []
  outNext    : Option StepResult := none
  lastResult : Option StepResult := none
  postLost   : Nat := 0
  park       : SMap Park := []
  setA       : WSet := {}
  setB       : WSet := {}
  active     : Bool := false
  held       : Bool := false
  pendRot    : Option (Nat × Nat) := none
  rotLoad    : LoadStatus := .none
  stackTabA  : SMap (Option LeaseLoc) := []
  stackTabB  : SMap (Option LeaseLoc) := []
  coldTabA   : SMap (Option LeaseLoc) := []
  coldTabB   : SMap (Option LeaseLoc) := []
  stackKey   : Nat := 0
  coldKey    : Nat := 0
  committed  : Option Nat := none
  commKind   : Nat := 0
  bundle     : Option BLoad := none
  stageHdr   : Option Hdr := none
  jb         : JobSt := {}
  sx         : SecSt := {}
  pw         : PwrSt := {}
  deriving DecidableEq, Repr

def Part.zero : Part := {}

/-! ### Faults and counters (19_counters_and_faults.md) -/

/-- CLASS of an error record (Table 19.7). -/
inductive RClass where
  | partition | job | event
  deriving DecidableEq, Repr

/-- A fault or module event raised and not yet recorded. `cycle` is the module's plan cycle of the raise; `parts` the
partitions against which it is raised; `ending` marks the two causes that belong to the step that ends (R500). -/
structure Raise where
  cls    : RClass
  code   : Nat
  parts  : List Nat
  unit   : Nat
  d0     : Nat
  d1     : Nat
  cycle  : Nat
  ending : Bool
  deriving DecidableEq, Repr

/-- A counter: selected event or tap, MODE, value, STICKY, the tap's last sample (R490 to R493). -/
structure Counter where
  event  : Nat := 0
  mode   : Nat := 0
  value  : BitVec 48 := 0
  sticky : Bool := false
  last   : Bool := false
  deriving DecidableEq, Repr

def Counter.zero : Counter := {}

/-- The whole module. `act` counts the events of Table 18.5 since Windbreak's last estimate, by row and partition (R476, R484).
`pending` is the queue of waiting commands; `inProg` and `taken` the commands in progress and those of them accepted; `cycle` the master
plan time since reset and `wallAt` the wall time in 1/2,520 ns at which the present frame began; `freeCtr` numbers the free values taken and `nextKey` the keys drawn (the model's own
fields, log entry 2). -/
structure State where
  pending  : List Instr := []
  cycle    : Nat := 0
  frameNo  : Nat := 0
  wallAt   : Nat := 0
  freeCtr  : Nat := 0
  nextKey  : Nat := 1
  out      : List Sent := []
  cells    : SMap Cell := []
  blocks   : SMap Block := []
  stks   : SMap Stack := []
  cold     : Cold := {}
  parts    : SMap Part := []
  raised   : List Raise := []
  counters : SMap Counter := []
  act      : SMap Nat := []
  retired  : SMap (BitVec 18) := []
  ports    : SMap Port := []
  fab      : Fab := {}
  shadows  : SMap Shadow := []
  tu       : TimeU := {}
  islands  : SMap Island := []
  pwr      : Power := {}
  seqr     : Seqr := {}
  keys     : Keys := {}
  sessions : SMap (Option Session) := []
  openFail : BitVec 12 := 0
  audit    : List Audit := []
  auditIdx : Nat := 0
  auditHead : Hash := 0
  checks   : List CheckRec := []
  openSec  : Nat × Nat := (0, 0)
  mute     : List (Hdr × Nat) := []
  spFw     : FwT := {}
  mgFw     : FwT := {}
  spRun    : Hash := 0
  mgRun    : Hash := 0
  mgmtDown : Bool := false
  boot     : BootR := {}
  io       : Io := {}
  fuses    : Fuses := {}
  rings    : SMap Ring := []
  msix     : SMap Word := []
  msixWait : SMap Bool := []
  inProg   : List (Hdr × Nat) := []
  taken    : List (Hdr × Nat) := []
  rota     : Nat := 0
  rotaSet  : BitVec 17 := 0
  errs     : List ErrRec := []
  errNext  : Nat := 0
  flashErr : List ErrRec := []
  pFaults  : BitVec 16 := 0
  jFaults  : BitVec 16 := 0
  health   : Health := {}
  cnt      : CntReg := {}
  round    : Nat := 0
  calFlash : CalSet := factorySet 0 0
  calLoad  : CalSet := {}
  mgrDrop  : Nat := 0
  detachCmd : Option Hdr := none
  deriving DecidableEq, Repr

/-- `exec` raises no fault: every stop of a command is an effect on the state (a status, an error record). -/
inductive Fault where
  /-- Raised by nothing; kept because the host asks for a fault type. Safe. -/
  | none
  deriving DecidableEq, Repr

inductive Refusal where
  /-- Raised by `exec` for a row that has no meaning yet. Safe: the model stops. -/
  | notModelled (mnemonic : String)
  deriving DecidableEq, Repr

/-- The module at the start of a module reset (R506): PHASE POWER, every register at its reset value, memories listing
nothing, every partition without a plan. -/
def State.reset : State := {}

end Sys2Proof.Machine
end

