-- ==== Sys2Proof/Machine/Flags.lean ====
section
/-! DEFINITION. Predicate conditions, the predicate word, lane relations and the flags of accumulator entries. -/

namespace Sys2Proof.Machine

/-- COND of Table 3.13: 0 equal, 1 unequal, 2 and 3 signed less and not less, 4 and 5 unsigned less and not less. -/
def condHolds (cond : Nat) (a b : Word) : Bool :=
  match cond with
  | 0 => a == b
  | 1 => a != b
  | 2 => a.slt b
  | 3 => !a.slt b
  | 4 => a.ult b
  | _ => !a.ult b

/-- The predicate registers as a word, bit 0 reading 1 (PRD.P16, Table 3.14). -/
def predWord (read : Nat → Bool) : Word :=
  BitVec.ofNat 64 ((List.range 16).foldl (fun acc i => acc + b2n (read i) * 2 ^ i) 0)

/-- A word of lane bits. -/
def laneWord (f : Nat → Bool) : Word :=
  BitVec.ofNat 64 ((List.range 64).foldl (fun acc i => acc + b2n (f i) * 2 ^ i) 0)

/-- The four flags of an accumulator entry (Table 6.2). -/
def mkFlags (nan pinf ninf ovf : Bool) : BitVec 4 :=
  BitVec.ofNat 4 (b2n nan + 2 * b2n pinf + 4 * b2n ninf + 8 * b2n ovf)

def flNan (f : BitVec 4) : Bool := f.getLsbD 0
def flPinf (f : BitVec 4) : Bool := f.getLsbD 1
def flNinf (f : BitVec 4) : Bool := f.getLsbD 2
def flOvf (f : BitVec 4) : Bool := f.getLsbD 3

/-- land of R148: add or replace the term `t` (in units of 2^-48) with flags `fl` in an entry. -/
def landX128 (e : AccEntry) (z : Bool) (t : Int) (fl : BitVec 4) : AccEntry :=
  let v : Int := if z then t else e.code.toInt + t
  let ovf : Bool := decide (v < -(2 ^ 127 : Int)) || decide (v ≥ (2 ^ 127 : Int))
  let fl := if ovf then fl ||| 8#4 else fl
  { code := BitVec.ofInt 128 v, flags := if z then fl else e.flags ||| fl }

/-- The value an MCVT reads from an entry (R151). -/
def entryNum (accf : Bool) (e : AccEntry) : Num :=
  if accf then decodeNum F32 (e.code.toNat % 2 ^ 32)
  else if flNan e.flags || flOvf e.flags || (flPinf e.flags && flNinf e.flags) then .nan
  else if flPinf e.flags then .inf false
  else if flNinf e.flags then .inf true
  else decodeNum .x128 e.code.toNat

end Sys2Proof.Machine
end

