-- ==== Sys2Proof/Machine/Ops.lean ====
section
/-! DEFINITION. The named operations over the state that the families share: reading and writing indexed units, counting
events, raising faults and module events. -/

namespace Sys2Proof.Machine

/-- The answer of a meaning. -/
abbrev Out := Host.Outcome State Fault Refusal

/-! ### Indexed units -/

def State.cell (s : State) (c : Nat) : Cell := look Cell.zero s.cells c
def State.block (s : State) (b : Nat) : Block := look Block.zero s.blocks b
def State.part (s : State) (p : Nat) : Part := look Part.zero s.parts p
def State.setCell (s : State) (c : Nat) (x : Cell) : State := { s with cells := put Cell.zero s.cells c x }
def State.setBlock (s : State) (b : Nat) (x : Block) : State := { s with blocks := put Block.zero s.blocks b x }
def State.setPart (s : State) (p : Nat) (x : Part) : State := { s with parts := put Part.zero s.parts p x }
def State.onCell (s : State) (c : Nat) (f : Cell → Cell) : State := s.setCell c (f (s.cell c))
def State.onBlock (s : State) (b : Nat) (f : Block → Block) : State := s.setBlock b (f (s.block b))
def State.onPart (s : State) (p : Nat) (f : Part → Part) : State := s.setPart p (f (s.part p))

def State.stack (s : State) (k : Nat) : Stack := look Stack.zero s.stks k
def State.onStack (s : State) (k : Nat) (f : Stack → Stack) : State := { s with stks := upd Stack.zero s.stks k f }
def State.port (s : State) (i : Nat) : Port := look Port.zero s.ports i
def State.onPort (s : State) (i : Nat) (f : Port → Port) : State := { s with ports := upd Port.zero s.ports i f }
def State.shadow (s : State) (p : Nat) : Shadow := look Shadow.zero s.shadows p
def State.onShadow (s : State) (p : Nat) (f : Shadow → Shadow) : State := { s with shadows := upd Shadow.zero s.shadows p f }
def State.island (s : State) (i : Nat) : Island := look Island.zero s.islands i
def State.onIsland (s : State) (i : Nat) (f : Island → Island) : State := { s with islands := upd Island.zero s.islands i f }

/-- All partition numbers. -/
def allParts : List Nat := List.range 16

/-- The partition is RUNNING. -/
def State.running (s : State) (p : Nat) : Bool := decide ((s.part p).st = .running)

/-- The partition is ARMED or RUNNING. -/
def Part.active? (p : Part) : Bool := decide (p.st = .armed ∨ p.st = .running)

/-- Partitions ARMED or RUNNING. -/
def State.activeParts (s : State) : List Nat := allParts.filter (fun p => (s.part p).active?)

/-- The block of a physical cell, and the cell's index in it (PCELL_ID, Table 3.3). -/
def blockOf (c : Nat) : Nat := c / 32
def physOf (c : Nat) : Nat := c % 32

/-- The partition that owns the block of cell `c`. -/
def State.cellOwner (s : State) (c : Nat) : Option Nat := (s.block (blockOf c)).owner

/-- The index of the first entry equal to `x`. -/
def indexOf (l : List Nat) (x : Nat) : Option Nat :=
  match l with
  | [] => none
  | y :: ys => if y = x then some 0 else (indexOf ys x).map (· + 1)

/-- The plan position that cell `c` carries under its block's mapping (R176). -/
def State.posOf (s : State) (c : Nat) : Option Nat := indexOf (s.block (blockOf c)).map (physOf c)

/-! ### Grades (Table 0.2, R8) -/

/-- Fused blocks per region. -/
def fusedPer (grade : Nat) : Nat := if grade = 2 then 2 else if grade = 3 then 4 else 0

/-- The fused blocks: in each region as many as the grade has, at the positions chosen at test (R8). -/
def Fuses.fused (f : Fuses) : BitVec 64 :=
  BitVec.ofNat 64 ((List.range 4).foldl (fun a r =>
    let l := (List.range 16).map (fun q => 16 * r + q)
    ((l.filter (fun b => f.fusedAt.getLsbD b) ++ l.filter (fun b => !f.fusedAt.getLsbD b)).take (fusedPer f.grade)).foldl
      (fun a b => a + 2 ^ b) a) 0)

/-- CAP_MAX_W of the grade. -/
def Fuses.capMax (f : Fuses) : Nat := if f.grade = 2 then 2800 else if f.grade = 3 then 2400 else 3000

/-! ### Location codes (Table 19.1) -/

def locCell (c : Nat) : Nat := 0x1000 + c
def locBlock (b : Nat) : Nat := 0x2000 + b
def locRegion (r : Nat) : Nat := 0x3000 + r
def locPort (i : Nat) : Nat := 0x4000 + i
def locHub : Nat := 0x5000

/-! ### Counters (R490) -/

/-- Counter `i` of location `loc`. -/
def ctrKey (loc i : Nat) : Nat := 32 * loc + i

/-- Count `n` more; passing 2^48 − 1 wraps and sets STICKY (R490). -/
def Counter.bump (c : Counter) (n : Nat) : Counter :=
  { c with value := BitVec.ofNat 48 (c.value.toNat + n), sticky := c.sticky || decide (2 ^ 48 ≤ c.value.toNat + n) }

/-- The class of corrected errors (Table 19.11) that an event belongs to. -/
def cePool (ev : Nat) : Option Nat :=
  if ev = 0x00B ∨ ev = 0x105 then some 0
  else if ev = 0x204 then some 1
  else if ev = 0x405 then some 2
  else if ev = 0x306 then some 3
  else none

/-- The hub's own history of corrected errors (R504): class, millisecond of hall time, number. -/
def State.noteCe (s : State) (ev n : Nat) : Health :=
  match cePool ev with
  | none => s.health
  | some c => { s.health with ces := s.health.ces ++ [(c, 1024 * s.tu.mark / 10 ^ 6, n)] }

/-- Count `n` occurrences of event `ev` at `loc` in every counter of that location that selects it in MODE 0x0; corrected
errors also enter the hub's history. -/
def State.count (s : State) (loc ev n : Nat) : State :=
  { s with health := s.noteCe ev n, counters := mapv Counter.zero s.counters (fun k c =>
      if k / 32 = loc ∧ c.mode = 0 ∧ c.event = ev then c.bump n else c) }

/-- The key of row `row` of Table 18.5 and a partition, or nobody. -/
def actKey (row : Nat) (p : Option Nat) : Nat :=
  32 * (match p with
    | none => 0
    | some q => q + 1) + row

/-- `n` events of a row of Table 18.5, attributed to `p`, for Windbreak's next estimate (R476, R484). -/
def State.spend (s : State) (row : Nat) (p : Option Nat) (n : Nat) : State := { s with act := upd 0 s.act (actKey row p) (· + n) }

/-! ### Raising faults and events -/

/-- Append a raise. -/
def State.raise (s : State) (r : Raise) : State := { s with raised := s.raised ++ [r] }

/-- A partition fault against `parts`. -/
def State.partFault (s : State) (code : Nat) (parts : List Nat) (unit d0 d1 : Nat) : State :=
  s.raise { cls := .partition, code, parts, unit, d0, d1, cycle := s.cycle, ending := false }

/-- A job fault against `parts`. -/
def State.jobFault (s : State) (code : Nat) (parts : List Nat) (unit d0 d1 : Nat) : State :=
  s.raise { cls := .job, code, parts, unit, d0, d1, cycle := s.cycle, ending := false }

/-- A module event (Table 19.8). -/
def State.modEvent (s : State) (code unit d0 d1 : Nat) : State :=
  s.raise { cls := .event, code, parts := [], unit, d0, d1, cycle := s.cycle, ending := false }

/-- The words of one access that the code corrected, of `n` words read (R59). -/
def eccFixed (l : EccW) (n : Nat) : Nat :=
  (((l.filter (fun e => decide (e.1 < n ∧ e.2 = .corrected))).map (fun e => e.1)).eraseDups).length

/-- The first word of an access of `n` words that is uncorrectable. -/
def eccBad (l : EccW) (n : Nat) : Option Nat :=
  (l.filter (fun e => decide (e.1 < n ∧ e.2 = .uncorrectable))).foldl (fun a e => some (match a with
    | none => e.1
    | some k => min k e.1)) none

/-- Retire cell `c` with cause `cause`: the repair record takes it and CELL_RETIRED is recorded (R177, Table 19.8). -/
def State.retireCell (s : State) (c cause : Nat) : State :=
  let r := look 0#18 s.retired (blockOf c)
  if r.getLsbD (physOf c) then s
  else { s with retired := put 0#18 s.retired (blockOf c) (r ||| BitVec.ofNat 18 (2 ^ physOf c)) }.modEvent
    0xC0 (locCell c) c cause

/-- A cell fault (R93): the cell stops and a partition fault is raised against the owner of its block. A second cause met
in the same cycle replaces the first only when its code is lower (R546). The cell that raised ECC_UNCORRECTABLE is retired when
the frame's raises are recorded (R177). -/
def State.cellFault (s : State) (c code d0 d1 : Nat) (ending : Bool := false) : State :=
  let x := s.cell c
  let r : Raise := { cls := .partition, code, parts := (s.cellOwner c).toList, unit := locCell c, d0, d1,
                     cycle := s.cycle, ending }
  let stopped := s.setCell c { x with fault := some ⟨code, s.cycle⟩ }
  match x.fault with
  | none => stopped.raise r
  | some f =>
    if f.cycle = s.cycle ∧ code < f.code then
      { stopped with raised := stopped.raised.map (fun o =>
          if o.unit = locCell c ∧ o.cycle = s.cycle ∧ o.code = f.code then r else o) }
    else s

/-! ### Hall time (R356, R358, R359) -/

/-- Hall time of the most recent frame boundary in ns: its grid time, rounded down (R358). -/
def State.hallNs (s : State) : Nat := 1024 * s.tu.mark + 10240 * s.tu.j / (10 - s.tu.gust)

/-- Hall time of the present cycle in ns, rounded down. -/
def State.hallNow (s : State) : Nat := s.hallNs + s.cycle % 1024 * 10 / (10 - s.tu.gust)

/-- Wall time now, in 1/2,520 ns: the start of the frame and the cycles since. -/
def State.wallNow (s : State) : Nat := s.wallAt + s.cycle % 1024 * (25200 / (10 - s.tu.gust))

/-- Wall time since reset in ns, by which timeouts run. -/
def State.wallNs (s : State) : Nat := s.wallNow / 2520

/-- The frame count TF (R359). -/
def State.tf (s : State) : Nat := 16 * (s.tu.mark / 10) + s.tu.j

/-! ### Rings, events, completions, audit (17_host_and_commands.md, R443) -/

def ringKey (fn k q : Nat) : Nat := 8 * fn + 4 * k + q

/-- A ring at reset (Tables 17.3 to 17.6). -/
def ringReset (q : Nat) : Ring := { vector := q, entry := ([8, 7, 6, 20] : List Nat).getD q 0 }

def State.ring (s : State) (fn k q : Nat) : Ring := look (ringReset q) s.rings (ringKey fn k q)
def State.setRing (s : State) (fn k q : Nat) (r : Ring) : State :=
  { s with rings := put (ringReset q) s.rings (ringKey fn k q) r }

/-- Entries held (R454). -/
def Ring.held (tail head size : Nat) : Nat := (tail + 2 ^ size - head) % 2 ^ size

/-- A ring the module writes has a free entry (R454). -/
def Ring.free (r : Ring) : Bool := decide (Ring.held r.ptr r.db r.size < 2 ^ r.size - 1)

/-- The ring after the module has written an entry (R454). -/
def Ring.wrote (r : Ring) : Ring :=
  { r with ptr := (r.ptr + 1) % 2 ^ r.size, phase := if (r.ptr + 1) % 2 ^ r.size = 0 then !r.phase else r.phase, lost := 0 }

def State.send (s : State) (m : Sent) : State := { s with out := s.out ++ [m] }

/-- Word `i` of a function's MSI-X table, two to a vector; bit 32 of the second is the vector's mask, set at reset as PCI Express has it
(PRESUMED, log entry 77). -/
def State.msixWord (s : State) (fn i : Nat) : Word := look (if i % 2 = 1 then BitVec.ofNat 64 (2 ^ 32) else 0) s.msix (16 * fn + i)

/-- Key of the pending bit of a vector of a function, signalled on link `k`. -/
def msixKey (fn k v : Nat) : Nat := 16 * fn + 8 * k + v

/-- Signal a vector of a function on link `k`; a masked vector's signal waits in the pending-bit array (log entry 77). -/
def State.signal (s : State) (fn k v : Nat) : State :=
  if (s.msixWord fn (2 * v + 1)).getLsbD 32 then { s with msixWait := put false s.msixWait (msixKey fn k v) true }
  else s.send (.msix fn k v)

/-- Write an event to one ring, or count it in LOST (R464, R457). -/
def State.eventTo (s : State) (fn k : Nat) (e : Event) : State :=
  let r := s.ring fn k 2
  if !r.enable then s
  else if r.free then
    ((s.setRing fn k 2 r.wrote).send (.event fn k { e with phase := r.phase, lost := r.lost })).signal fn k r.vector
  else s.setRing fn k 2 { r with lost := min 65535 (r.lost + 1) }

/-- Post an event about partition `part` (0xFF: a module event) with its arguments (R464). -/
def State.event (s : State) (kind part : Nat) (args : List Nat) : State :=
  let e : Event := { kind, part, lost := 0, hallNs := s.hallNow, args }
  if s.mgmtDown then s
  else
    let s := if part < 16 then (s.eventTo (part + 1) 0 e).eventTo (part + 1) 1 e else s
    (s.eventTo 0 0 e).eventTo 0 1 e

/-- The number of a role in an audit entry (Table 16.8). -/
def roleNo : Role → Nat
  | .none => 0
  | .operator => 1
  | .installer => 2
  | .maker => 3
  | .module => 4

/-- The 96 bytes of an audit entry (Table 16.8). -/
def auditBytes (e : Audit) : List Nat :=
  leBytes 8 e.index ++ leBytes 8 e.hallNs ++ [roleNo e.role, e.event] ++ leBytes 2 e.opcode ++ [e.status, e.part] ++ leBytes 2 e.sid ++
    leBytes 8 e.keyId.toNat ++ leBytes 32 e.param.toNat ++ leBytes 32 e.prev.toNat

/-- One entry at the next index; `AUDIT_HEAD` is its chain hash (R443). -/
def State.auditOne (s : State) (e : Audit) : State :=
  let e := { e with index := s.auditIdx, hallNs := s.hallNow, prev := s.auditHead }
  let head := Config.sha3 (auditBytes e)
  { (s.count locHub 0x40E 1) with audit := (s.audit ++ [e]).drop (s.audit.length + 1 - 65536), auditIdx := s.auditIdx + 1, auditHead := head }

/-- A checkpoint record's fields before its signature. -/
def checkBytes (serial : Nat) (r : CheckRec) : List Nat := leBytes 8 serial ++ leBytes 8 r.index ++ leBytes 32 r.chain.toNat ++ leBytes 8 r.hallNs

/-- Sign a checkpoint record at the newest index, with its audit entry (R444). -/
def State.checkpoint (s : State) : State :=
  let r : CheckRec := { index := s.auditIdx - 1, chain := s.auditHead, hallNs := s.hallNow }
  ({ s with checks := (s.checks ++ [r]).drop (s.checks.length + 1 - 1024) }).auditOne
    { index := 0, hallNs := 0, role := .module, event := 0x09, opcode := 0, status := 0, part := 0xFF, sid := 0, keyId := 0
      param := Config.sha3 (checkBytes s.fuses.serial r), prev := 0 }

/-- Append an audit entry; at every index that is a multiple of 1,024 a checkpoint entry follows (R443, R444). -/
def State.auditAdd (s : State) (role : Role) (event opcode status part sid : Nat) (kh param : Hash) : State :=
  let s1 := s.auditOne { index := 0, hallNs := 0, role, event, opcode, status, part, sid, keyId := kh >>> 192, param, prev := 0 }
  if s.auditIdx % 1024 = 0 then s1.checkpoint else s1

def State.session (s : State) (sid : Nat) : Option Session := look none s.sessions sid

/-- Session opening and IDENTITY_READ need no session. -/
def sessionless (op : Nat) : Bool := ([0x0101, 0x0102, 0x0103, 0x0104, 0x0106] : List Nat).contains op

/-- The next place at or after `n` that a value of `w` bytes is aligned to (R459). -/
def alignTo (n w : Nat) : Nat := let a := max 1 (min w 8); (n + a - 1) / a * a

/-- Bytes of a result list: each value aligned to the smaller of its width and 8 bytes (R459). -/
def resLen (l : List (Nat × Nat)) : Nat := l.foldl (fun n e => alignTo n e.1 + e.1) 0

/-- The bytes of a result list. -/
def resBytes (l : List (Nat × Nat)) : List Nat :=
  l.foldl (fun b e => b ++ List.replicate (alignTo b.length e.1 - b.length) 0 ++ leBytes e.1 e.2) []

/-- The first `n` of a list of bytes, zeros after them. -/
def padTo (n : Nat) (l : List Nat) : List Nat := l.take n ++ List.replicate (n - l.length) 0

/-- The 128 bytes of a completion entry with TAG zero (Table 17.10). -/
def Compl.bytes (c : Compl) : List Nat :=
  let n := resLen c.results
  let far := decide (32 < n)
  leBytes 2 c.hdr.cid ++ leBytes 2 c.opcode ++ [c.status, b2n c.phase + 2 * b2n far + 4 * b2n c.trunc] ++ leBytes 2 c.hdr.sid ++
    leBytes 8 c.hdr.counter ++ leBytes 4 n ++ List.replicate 4 0 ++ padTo 32 (if far then [] else resBytes c.results) ++ List.replicate 72 0

/-- The TAG of a completion under a session key: over the entry and the bytes written at RADDR. -/
def Compl.tagOf (c : Compl) (key : Hash) : Hash :=
  Config.kmac (leBytes 32 key.toNat) (c.bytes ++ if 32 < resLen c.results then (resBytes c.results).take c.hdr.rmax else []) "ITMIR-CPL"

/-- The 64 bytes of a command header with TAG zero (Table 17.7). -/
def cmdHead (h : Hdr) (op : Nat) : List Nat :=
  leBytes 2 op ++ leBytes 2 h.cid ++ leBytes 2 h.sid ++ [h.part, b2n h.indir + 2 * b2n h.fence] ++ leBytes 8 h.counter ++ leBytes 4 h.plen ++
    leBytes 4 h.rmax ++ List.replicate 40 0

/-- The TAG of a command under a session key (R433, R458). -/
def cmdTag (key : Hash) (h : Hdr) (op : Nat) : Hash :=
  Config.kmac (leBytes 32 key.toNat) (cmdHead h op ++ h.body ++ if h.indir then h.data else []) "ITMIR-CMD"

/-- The SHA3-256 of a command's parameters (Table 16.8). -/
def paramHash (h : Hdr) : Hash := Config.sha3 (if h.indir then h.data.take h.plen else (h.body.drop 16).take h.plen)

/-- The key that tags a command's completion: its session's, none for a command without a session. -/
def State.complKey (s : State) (h : Hdr) (opcode : Nat) : Option Hash := if sessionless opcode then none else (s.session h.sid).map (·.key)

/-- Write the completion entry: in the set's completion ring while it is enabled, on the management connector a datagram; a
completion that was discarded is not written (R452, R456, R457, R460). -/
def State.replyTo (s : State) (key : Option Hash) (h : Hdr) (opcode status : Nat) (results : List (Nat × Nat)) : State :=
  let len := resLen results
  let c : Compl := { opcode, status, hdr := h, phase := decide (h.fn ≠ 17) && (s.ring h.fn h.set 1).phase
                     trunc := decide (32 < len ∧ h.rmax < len), results }
  let c := { c with tag := (key.map c.tagOf).getD 0 }
  let muted := s.mute.contains (h, opcode)
  let s := { s with inProg := s.inProg.erase (h, opcode), taken := s.taken.erase (h, opcode), mute := s.mute.erase (h, opcode) }
  if muted then s
  else if h.fn = 17 then s.send (.compl c)
  else
    let q := s.ring h.fn h.set 0
    let s := s.setRing h.fn h.set 0 { q with flight := q.flight - 1 }
    let r := s.ring h.fn h.set 1
    if !r.enable then s
    else ((s.setRing h.fn h.set 1 r.wrote).send (.compl c)).signal h.fn h.set r.vector

/-- Write the completion entry of a command under the key of its session. -/
def State.reply (s : State) (h : Hdr) (opcode status : Nat) (results : List (Nat × Nat)) : State :=
  s.replyTo (s.complKey h opcode) h opcode status results

/-- Post a completion under a key: its audit entry first (R443). -/
def State.postTo (s : State) (key : Option Hash) (h : Hdr) (opcode status : Nat) (results : List (Nat × Nat)) : State :=
  let ss := (s.session h.sid).getD {}
  (s.auditAdd ss.role (if status = 0 then 0x01 else if status = 2 then 0x03 else 0x02) opcode status h.part h.sid ss.kh (paramHash h)).replyTo
    key h opcode status results

/-- Post a completion: its audit entry first (R443). -/
def State.post (s : State) (h : Hdr) (opcode status : Nat) (results : List (Nat × Nat)) : State :=
  s.postTo (s.complKey h opcode) h opcode status results

/-- Post a completion for a command that may have none waiting. -/
def State.post? (s : State) (h : Option Hdr) (opcode status : Nat) (results : List (Nat × Nat)) : State :=
  match h with
  | none => s
  | some h => s.post h opcode status results

/-- An outcome that goes on. -/
def ok (s : State) : Out := .next s

end Sys2Proof.Machine
end

