-- ==== Sys2Proof/Machine/Operands.lean ====
section
/-! DEFINITION. How a cell instruction reads its operands, when it is enabled and legal, what issues, and how results
land (R62 to R71, R81 to R83, R95, R96, R110, R111, R116 to R118). -/

namespace Sys2Proof.Machine

/-! ### Register files (Table 3.2) -/

/-- g0 reads 0. -/
def Cell.readG (x : Cell) (r : Nat) : Word := if r = 0 then 0 else look 0#64 x.g r
/-- p0 reads 1. -/
def Cell.readP (x : Cell) (r : Nat) : Bool := if r = 0 then true else look false x.p r
/-- Lane `l` of vector register `r` (R95). -/
def Cell.lane (x : Cell) (r l : Nat) : Lane := look 0#32 x.v (64 * r + l)
/-- Address generator `k`. -/
def Cell.agen (x : Cell) (k : Nat) : Ag := look {} x.ag k

/-- Writes to g0 are discarded. -/
def Cell.writeG (x : Cell) (r : Nat) (v : Word) : Cell := if r = 0 then x else { x with g := put 0#64 x.g r v }
/-- Writes to p0 are discarded. -/
def Cell.writeP (x : Cell) (r : Nat) (v : Bool) : Cell := if r = 0 then x else { x with p := put false x.p r v }

/-- The wrap rule of R111. -/
def Ag.move (a : Ag) (d : Int) : Ag :=
  let b : Int := 256 * a.winBase.toNat
  let sz : Int := 256 * a.winSize.toNat
  let cur : Int := a.addr.toNat
  if sz ≠ 0 ∧ b ≤ cur ∧ cur < b + sz then { a with addr := BitVec.ofInt 24 (b + (cur - b + d) % sz) }
  else { a with addr := BitVec.ofInt 24 (cur + d) }

/-- AGSET.A24 of field `fld` (Table 4.11). -/
def Ag.setField (a : Ag) (fld : Nat) (x : Word) : Ag :=
  match fld with
  | 0 => { a with addr := x.setWidth 24 }
  | 1 => { a with inc0 := x.setWidth 24 }
  | 2 => { a with inc1 := x.setWidth 24 }
  | 3 => { a with inc2 := x.setWidth 24 }
  | 4 => { a with inc3 := x.setWidth 24 }
  | _ => { a with winBase := x.setWidth 13, winSize := (x >>> 16).setWidth 13 }

/-- The increment of level `k`, signed (Table 4.10). -/
def Ag.inc (a : Ag) (k : Nat) : Int :=
  match k with
  | 0 => a.inc0.toInt
  | 1 => a.inc1.toInt
  | 2 => a.inc2.toInt
  | _ => a.inc3.toInt

/-- Write one result to the register files. -/
def Cell.landOne (x : Cell) (w : RegWrite) : Cell :=
  match w with
  | .g r v => x.writeG r v
  | .p l => l.foldl (fun x e => x.writeP e.1 e.2) x
  | .v r lanes => { x with v := lanes.foldl (fun m e => put 0#32 m (64 * r + e.1) e.2) x.v }
  | .agSet a f v => { x with ag := upd {} x.ag a (fun g => g.setField f v) }
  | .agMove a d => { x with ag := upd {} x.ag a (fun g => g.move d) }

/-- Insert a result in landing order: by landing cycle, then by issue cycle (R67). -/
def insertRes (r : PendRes) : List PendRes → List PendRes
  | [] => [r]
  | q :: qs =>
    if r.due < q.due ∨ (r.due = q.due ∧ r.issued < q.issued) then r :: q :: qs else q :: insertRes r qs

/-- Results in landing order. -/
def sortRes (l : List PendRes) : List PendRes := l.foldl (fun acc r => insertRes r acc) []

/-- Land every result due at the end of cycle `t` or earlier (R66, R67). -/
def Cell.land (x : Cell) (t : Nat) : Cell :=
  let now := sortRes (x.pend.filter (fun r => decide (r.due ≤ t)))
  now.foldl (fun x r => x.landOne r.w) { x with pend := x.pend.filter (fun r => decide (t < r.due)) }

/-- Add a result of latency `lat` of the instruction issued in cycle `t` (R66). -/
def Cell.result (x : Cell) (t lat : Nat) (w : RegWrite) : Cell :=
  { x with pend := x.pend ++ [{ due := t + lat - 1, issued := t, w }] }

/-! ### Loop iterations (R113, R116 to R118) -/

/-- The body of the current iteration has issued whole. -/
def Cell.iterDone (x : Cell) : Bool :=
  match x.loop with
  | none => false
  | some l => decide (x.pc = l.h + 1 + l.n)

def LoopSt.trip (l : LoopSt) (k : Nat) : Nat :=
  match k with
  | 0 => l.trip0
  | 1 => l.trip1
  | 2 => l.trip2
  | _ => l.trip3

/-- The lowest level below `d` that advances, from level `k` on. -/
def advLevel (x : Cell) (l : LoopSt) (k : Nat) : Nat → Option Nat
  | 0 => none
  | fuel + 1 =>
    if k ≥ l.d then none
    else if look 0 x.lc k + 1 < l.trip k then some k
    else advLevel x l (k + 1) fuel

/-- The end of an iteration (pseudocode after R116): counters, then all sixteen generators by the increment of level L. -/
def Cell.iterEnd (x : Cell) (l : LoopSt) : Cell :=
  let adv := advLevel x l 0 4
  let lv := adv.getD (l.d - 1)
  let lc' : SMap Nat :=
    match adv with
    | none => []
    | some k => put 0 (x.lc.filter (fun e => decide (k ≤ e.1))) k (look 0 x.lc k + 1)
  let ag' := (List.range 16).foldl (fun m g => upd {} m g (fun a => a.move (a.inc lv))) x.ag
  { x with
    lc := lc', ag := ag'
    pc := if adv.isSome then l.h + 1 else l.h + l.n + 1
    loop := if adv.isSome then x.loop else none }

/-- Perform the end of the current iteration when its last cycle is `t` or earlier; results landing by then land first
(R118). -/
def Cell.endIter (x : Cell) (t : Nat) : Cell :=
  match x.loop with
  | none => x
  | some l => if x.iterDone && decide (x.issueFree ≤ t + 1) then (x.land (x.issueFree - 1)).iterEnd l else x

/-- Bring the registers to the start of cycle `t`: whatever lands before it has landed. -/
def Cell.settle (x : Cell) (t : Nat) : Cell :=
  if t = 0 then x else (x.endIter (t - 1)).land (t - 1)

/-! ### Cell store (R58, R60, R61) -/

/-- Same-cycle writes in the order of R61. -/
def applyCsw (m : Mem) (l : List CsWrite) : Mem :=
  let byPort (p : CsPort) (m : Mem) := (l.filter (fun w => decide (w.port = p))).foldl (fun m w => Mem.setCells m w.data) m
  byPort .scalar (byPort .vec (byPort .xbar m))

/-- The cell store as every read of cycle `t` sees it: writes of earlier cycles are in, those of cycle `t` are not. -/
def Cell.store (x : Cell) (t : Nat) : Mem := applyCsw x.cs (x.csw.filter (fun w => decide (w.cyc < t)))

/-- Record a write of cycle `t` through a port. -/
def Cell.csWrite (x : Cell) (t : Nat) (port : CsPort) (data : List Host.Cell) : Cell :=
  { x with cs := x.store t, csw := x.csw.filter (fun w => decide (t ≤ w.cyc)) ++ [{ cyc := t, port, data }] }

/-- The cells a run of bytes at `ea` writes. -/
def cellsAt (ea : Nat) : List (BitVec 8) → List Host.Cell
  | [] => []
  | b :: bs => (ea, b) :: cellsAt (ea + 1) bs

def csBytes : Nat := 1572864
def sdmBytes : Nat := 32768

/-! ### Enabling, legality and issue -/

/-- R81 and, inside a command, R114. -/
def Cell.enabled (x : Cell) (e : En) : Bool :=
  (x.readP e.pred.toNat ^^ e.sense) &&
    (match x.loop with
     | none => true
     | some l => l.en)

/-- What an instruction asks of the cell that issues it, given the cell at the start of the cycle. -/
structure Issue where
  /-- Causes raised whether or not it is enabled (R82). -/
  always : List Nat
  /-- Causes an enabled instruction raises. -/
  whenEn : List Nat
  /-- Cycles the issue slot is held. -/
  slots  : Nat
  /-- Time and units held, enabled or not. -/
  hold   : Cell → Cell
  /-- The effect when enabled. -/
  effect : Cell → Cell

/-- The lowest cause (R546). -/
def lowest : List Nat → Option Nat
  | [] => none
  | c :: cs =>
    match lowest cs with
    | none => some c
    | some d => some (min c d)

/-- A cause when a condition holds. -/
def cause (b : Bool) (code : Nat) : List Nat := if b then [code] else []

/-- DETAIL1 of a cell record (Table 19.8). -/
def cellD1 (pc : Nat) (bank : Bool) (mem word : Nat) : Nat := pc % 2 ^ 13 + b2n bank * 2 ^ 13 + mem * 2 ^ 16 + word * 2 ^ 32

/-- The active bank of cell `c` (all cells of a partition share the selection). -/
def State.bankOf (s : State) (c : Nat) : Bool :=
  match s.cellOwner c with
  | none => false
  | some p => (s.part p).bankAct

def Cell.bank (x : Cell) (b : Bool) : Bank := if b then x.bank1 else x.bank0

/-- The cell has not stopped on a fault of an earlier cycle: its units stop at the end of the fault's cycle (R93). -/
def State.unstopped (s : State) (c : Nat) : Bool :=
  match (s.cell c).fault with
  | none => true
  | some f => decide (f.cycle = s.cycle)

/-- The cell carries a code position of a RUNNING partition and has not stopped on a fault of an earlier cycle (R72, R93, R549). -/
def State.live (s : State) (c : Nat) : Bool :=
  match s.cellOwner c, s.posOf c with
  | some p, some k =>
    decide ((s.part p).st = .running) && (s.block (blockOf c)).codePos.getLsbD k && s.unstopped c
  | _, _ => false

/-- Cell `c` issues in this cycle: it is live, not past STEPEND.C, and its issue slot is free. -/
def State.canIssue (s : State) (c : Nat) : Bool :=
  s.live c && !(s.cell c).stepEnd && decide ((s.cell c).issueFree ≤ s.cycle)

/-- The last cycle whose results may have landed: this one once the cell's issue of the cycle is made, else the one before;
no later than the cycle of its fault (R66, R93). -/
def State.landBound (s : State) (c : Nat) : Nat :=
  if s.canIssue c then s.cycle - 1
  else
    match (s.cell c).fault with
    | some f => min s.cycle f.cycle
    | none => s.cycle

/-- Issue `word` on cell `c`. Outside `canIssue` nothing issues and nothing changes. The lowest cause met stops the cell and
the instruction has no effect (R93, R546); a fetch beyond 8,191 is FETCH_END alone (R71). Otherwise the program counter
advances, the slot and units are held, and an enabled instruction has its effect. -/
def issue (c : Nat) (e : En) (word : Word) (f : Cell → Issue) (s : State) : State :=
  if !s.canIssue c then s
  else
    let x := (s.cell c).settle s.cycle
    let bank := s.bankOf c
    let stop : Cell := { x with issueFree := s.cycle + 1 }
    if x.pc > 8191 then (s.setCell c stop).cellFault c 0x07 0 (cellD1 x.pc bank 0 0)
    else
      let i := f x
      let en := x.enabled e
      let s' := if e.fecc = .corrected then s.count (locCell c) 0x00B 1 else s
      match lowest (cause (decide (e.fecc = .uncorrectable)) 0x09 ++ i.always ++ (if en then i.whenEn else [])) with
      | some code =>
        (s'.setCell c stop).cellFault c code word.toNat
          (if code = 0x09 then cellD1 x.pc bank 3 x.pc else cellD1 x.pc bank 0 0)
      | none =>
        let y := i.hold { x with pc := x.pc + 1, issueFree := s.cycle + i.slots, slotEn := en }
        let s' := if en && decide (word.toNat / 2 ^ 58 < 0x28) then s'.spend 7 (s.cellOwner c) 1 else s'
        (s'.setCell c (if en then i.effect y else y)).count (locCell c) (if en then 0x002 else 0x003) 1

/-- An instruction that holds one slot and no unit. -/
def simpleIssue (legal : Bool) (effect : Cell → Cell) : Issue :=
  { always := cause (!legal) 0x01, whenEn := [], slots := 1, hold := id, effect }

/-! ### What the plan position gives an instruction (Table 3.3, R108, R152) -/

/-- Cycles since the step boundary (STEP_OFFSET). -/
def Part.offset (p : Part) : Nat := p.planTime - 1024 * p.stepStart

/-- VCELL_ID of cell `c`. -/
def State.vcell (s : State) (c : Nat) : Nat := 16 * (s.block (blockOf c)).vblock + (s.posOf c).getD 0

/-- The owning partition of cell `c` (the reset partition when the block is unowned). -/
def State.cellPart (s : State) (c : Nat) : Part :=
  match s.cellOwner c with
  | none => Part.zero
  | some p => s.part p

/-- sr_key of a rounding of cell `c` at step offset `off` (R131). -/
def State.srBits (s : State) (c off lane fld unit : Nat) : Nat :=
  let p := s.cellPart c
  srKey p.seed.toNat p.stepNo p.stepKind off (s.vcell c) lane fld unit

/-- The value of special code `sr` (Table 3.3, R63). -/
def State.special (s : State) (c sr : Nat) : Word :=
  let p := s.cellPart c
  BitVec.ofNat 64 (match sr with
    | 0x00 => p.planTime
    | 0x01 => (s.cellOwner c).getD 0
    | 0x02 => s.vcell c
    | 0x03 => c
    | 0x04 => p.stepNo
    | 0x05 => p.stepKind
    | 0x06 => p.offset
    | _ => p.epoch.toNat)

/-- The immediate of a word, sext(IMM32, 32). -/
def imm64 (i : BitVec 32) : Word := i.signExtend 64

end Sys2Proof.Machine
end

