-- ==== Sys2Proof/Machine/CellVector.lean ====
section
/-! DEFINITION. Vector instructions (04_vector_and_loops.md, Tables 4.2 to 4.9). -/

namespace Sys2Proof.Machine

/-- The lanes LM selects, read in the issue cycle (R96). -/
def Cell.mask (x : Cell) (lm : BitVec 5) : Word := if lm = 0 then BitVec.allOnes 64 else x.readG lm.toNat

/-- The selected lanes, each with the value `f` gives it. -/
def selLanes {α : Type} (m : Word) (f : Nat → α) : List (Nat × α) :=
  ((List.range 64).filter (fun l => m.getLsbD l)).map (fun l => (l, f l))

/-- Cycle `t` is one of the port cycles of an operation (R98). -/
def PortOp.has (o : PortOp) (t : Nat) : Bool :=
  if o.step = 0 then decide (t = o.start)
  else decide (o.start ≤ t) && decide ((t - o.start) % o.step = 0) && decide ((t - o.start) / o.step < o.count)

/-- Some port cycle of a new operation is taken by an earlier one (R98, R157). -/
def portClash (old : List PortOp) (start step count : Nat) : Bool :=
  (List.range count).any (fun i => old.any (fun o => o.has (start + step * i)))

/-- A vector instruction: UNIT_BUSY while the unit is occupied (R69), PORT_CLASH on its port cycles (R98), the unit and
port held whether or not it is enabled (R99). `ports` is the number of consecutive port cycles from t + 2. -/
def issueVec (opc func occ ports : Nat) (legal : Bool) (whenEn : Cell → List Nat) (act : Cell → PortAct)
    (effect : Cell → Cell → Cell) (c : Nat) (f : VecF) (s : State) : State :=
  let t := s.cycle
  let op (a : PortAct) : List PortOp :=
    if ports = 0 then [] else [{ start := t + 2, step := 1, count := ports, done := 0, issued := t, act := a }]
  issue c f.en (f.word opc func) (fun x =>
    { always := cause (!legal) 0x01 ++ cause (decide (t < x.vecFree)) 0x04
        ++ cause (portClash x.port (t + 2) 1 ports) 0x11
      whenEn := whenEn x
      slots := 1
      hold := fun y => { y with vecFree := t + occ, vecEn := x.enabled f.en, port := x.port ++ op .idle }
      effect := fun y => effect x { y with port := x.port ++ op (act x) } }) s

/-- A vector instruction that writes selected lanes of V[VD] at latency `lat`. -/
def issueLanes (opc func occ lat : Nat) (legal : Bool) (val : Cell → Nat → Lane) (c : Nat) (f : VecF) (s : State) : State :=
  issueVec opc func occ 0 legal (fun _ => []) (fun _ => .idle)
    (fun x y => y.result s.cycle lat (.v f.vd.toNat (selLanes (x.mask f.lm) (val x)))) c f s

/-- A vector instruction that writes G[VD] at latency `lat`. -/
def issueToG (opc func lat : Nat) (legal : Bool) (val : Cell → Word) (c : Nat) (f : VecF) (s : State) : State :=
  issueVec opc func 1 0 legal (fun _ => []) (fun _ => .idle)
    (fun x y => y.result s.cycle lat (.g f.vd.toNat (val x))) c f s

/-- The second operand of lane `l`: G[VB][31:0] when BC = 1 (Table 4.3). -/
def Cell.vopB (x : Cell) (f : VecF) (l : Nat) : Lane :=
  if f.bc then (x.readG f.vb.toNat).setWidth 32 else x.lane f.vb.toNat l

/-- OPC 0x28 and 0x29: lane result of a, b and c (Table 4.4). -/
def issueArith (opc func lat : Nat) (legal : Bool) (op : Lane → Lane → Lane → Lane) (c : Nat) (f : VecF) (s : State) : State :=
  issueLanes opc func 1 lat legal (fun x l => op (x.lane f.va.toNat l) (x.vopB f l) (x.lane f.vc.toNat l)) c f s

/-- A function of naturals as one of lanes. -/
def onNat2 (f : Nat → Nat → Nat) (a b : Lane) : Lane := BitVec.ofNat 32 (f a.toNat b.toNat)






/-- OPC 0x28 FUNC 0x00 (Table 4.4, R100). -/
def execVaddF32 (c : Nat) (f : VecF) (s : State) : Out :=
  ok (issueArith 0x28 0x00 4 f.noC (fun a b _ => onNat2 fp32Add a b) c f s)

/-- OPC 0x28 FUNC 0x01 (Table 4.4, R100). -/
def execVsubF32 (c : Nat) (f : VecF) (s : State) : Out :=
  ok (issueArith 0x28 0x01 4 f.noC (fun a b _ => onNat2 fp32Add a (b ^^^ 0x80000000#32)) c f s)

/-- OPC 0x28 FUNC 0x02 (Table 4.4, R100). -/
def execVmulF32 (c : Nat) (f : VecF) (s : State) : Out :=
  ok (issueArith 0x28 0x02 4 f.noC (fun a b _ => onNat2 fp32Mul a b) c f s)

/-- OPC 0x28 FUNC 0x03 (Table 4.4, R100). -/
def execVfmaF32 (c : Nat) (f : VecF) (s : State) : Out :=
  ok (issueArith 0x28 0x03 4 f.plain (fun a b c => BitVec.ofNat 32 (fp32Fma a.toNat b.toNat c.toNat)) c f s)

/-- OPC 0x28 FUNC 0x04 (Table 4.4, R100). -/
def execVminF32 (c : Nat) (f : VecF) (s : State) : Out :=
  ok (issueArith 0x28 0x04 4 f.noC (fun a b _ => onNat2 fp32Min a b) c f s)

/-- OPC 0x28 FUNC 0x05 (Table 4.4, R100). -/
def execVmaxF32 (c : Nat) (f : VecF) (s : State) : Out :=
  ok (issueArith 0x28 0x05 4 f.noC (fun a b _ => onNat2 fp32Max a b) c f s)

/-- OPC 0x28 FUNC 0x06 (Table 4.4, R100). -/
def execVabsF32 (c : Nat) (f : VecF) (s : State) : Out :=
  ok (issueArith 0x28 0x06 4 f.noBC (fun a _ _ => a &&& 0x7FFFFFFF#32) c f s)

/-- OPC 0x28 FUNC 0x07 (Table 4.4, R100). -/
def execVnegF32 (c : Nat) (f : VecF) (s : State) : Out :=
  ok (issueArith 0x28 0x07 4 f.noBC (fun a _ _ => a ^^^ 0x80000000#32) c f s)

/-- OPC 0x29 FUNC 0x00 (Table 4.4). -/
def execVaddI32 (c : Nat) (f : VecF) (s : State) : Out :=
  ok (issueArith 0x29 0x00 2 f.noC (fun a b _ => a + b) c f s)

/-- OPC 0x29 FUNC 0x01 (Table 4.4). -/
def execVsubI32 (c : Nat) (f : VecF) (s : State) : Out :=
  ok (issueArith 0x29 0x01 2 f.noC (fun a b _ => a - b) c f s)

/-- OPC 0x29 FUNC 0x02 (Table 4.4). -/
def execVmulI32 (c : Nat) (f : VecF) (s : State) : Out :=
  ok (issueArith 0x29 0x02 4 f.noC (fun a b _ => a * b) c f s)

/-- OPC 0x29 FUNC 0x03 (Table 4.4). -/
def execVandB32 (c : Nat) (f : VecF) (s : State) : Out :=
  ok (issueArith 0x29 0x03 2 f.noC (fun a b _ => a &&& b) c f s)

/-- OPC 0x29 FUNC 0x04 (Table 4.4). -/
def execVorB32 (c : Nat) (f : VecF) (s : State) : Out :=
  ok (issueArith 0x29 0x04 2 f.noC (fun a b _ => a ||| b) c f s)

/-- OPC 0x29 FUNC 0x05 (Table 4.4). -/
def execVxorB32 (c : Nat) (f : VecF) (s : State) : Out :=
  ok (issueArith 0x29 0x05 2 f.noC (fun a b _ => a ^^^ b) c f s)

/-- OPC 0x29 FUNC 0x06 (Table 4.4). -/
def execVshlB32 (c : Nat) (f : VecF) (s : State) : Out :=
  ok (issueArith 0x29 0x06 2 f.noC (fun a b _ => a <<< (b.toNat % 32)) c f s)

/-- OPC 0x29 FUNC 0x07 (Table 4.4). -/
def execVshrU32 (c : Nat) (f : VecF) (s : State) : Out :=
  ok (issueArith 0x29 0x07 2 f.noC (fun a b _ => a >>> (b.toNat % 32)) c f s)

/-- OPC 0x29 FUNC 0x08 (Table 4.4). -/
def execVsarS32 (c : Nat) (f : VecF) (s : State) : Out :=
  ok (issueArith 0x29 0x08 2 f.noC (fun a b _ => a.sshiftRight (b.toNat % 32)) c f s)

/-- OPC 0x29 FUNC 0x09 (Table 4.4). -/
def execVminS32 (c : Nat) (f : VecF) (s : State) : Out :=
  ok (issueArith 0x29 0x09 2 f.noC (fun a b _ => if a.sle b then a else b) c f s)

/-- OPC 0x29 FUNC 0x0A (Table 4.4). -/
def execVmaxS32 (c : Nat) (f : VecF) (s : State) : Out :=
  ok (issueArith 0x29 0x0A 2 f.noC (fun a b _ => if b.sle a then a else b) c f s)

/-- OPC 0x29 FUNC 0x0B (Table 4.4). -/
def execVminU32 (c : Nat) (f : VecF) (s : State) : Out :=
  ok (issueArith 0x29 0x0B 2 f.noC (fun a b _ => if a.ule b then a else b) c f s)

/-- OPC 0x29 FUNC 0x0C (Table 4.4). -/
def execVmaxU32 (c : Nat) (f : VecF) (s : State) : Out :=
  ok (issueArith 0x29 0x0C 2 f.noC (fun a b _ => if b.ule a then a else b) c f s)

/-- OPC 0x2A FUNC 0x00: correctly rounded (R101); the unit is occupied for 2 cycles (Table 4.2). -/
def execVrcpF32 (c : Nat) (f : VecF) (s : State) : Out :=
  ok (issueLanes 0x2A 0x00 2 8 f.noBC (fun x l => BitVec.ofNat 32 (fp32Rcp (x.lane f.va.toNat l).toNat)) c f s)

/-- OPC 0x2A FUNC 0x01: correctly rounded (R101); the unit is occupied for 2 cycles (Table 4.2). -/
def execVsqrtF32 (c : Nat) (f : VecF) (s : State) : Out :=
  ok (issueLanes 0x2A 0x01 2 8 f.noBC (fun x l => BitVec.ofNat 32 (fp32Sqrt (x.lane f.va.toNat l).toNat)) c f s)

/-- OPC 0x2A FUNC 0x02: correctly rounded (R101); the unit is occupied for 2 cycles (Table 4.2). -/
def execVrsqrtF32 (c : Nat) (f : VecF) (s : State) : Out :=
  ok (issueLanes 0x2A 0x02 2 8 f.noBC (fun x l => BitVec.ofNat 32 (fp32Rsqrt (x.lane f.va.toNat l).toNat)) c f s)

/-- OPC 0x2A FUNC 0x03: correctly rounded (R101); the unit is occupied for 2 cycles (Table 4.2). -/
def execVexp2F32 (c : Nat) (f : VecF) (s : State) : Out :=
  ok (issueLanes 0x2A 0x03 2 8 f.noBC (fun x l => BitVec.ofNat 32 (fp32Exp2 (x.lane f.va.toNat l).toNat)) c f s)

/-- OPC 0x2A FUNC 0x04: correctly rounded (R101); the unit is occupied for 2 cycles (Table 4.2). -/
def execVlog2F32 (c : Nat) (f : VecF) (s : State) : Out :=
  ok (issueLanes 0x2A 0x04 2 8 f.noBC (fun x l => BitVec.ofNat 32 (fp32Log2 (x.lane f.va.toNat l).toNat)) c f s)

/-- A compare: bit l of G[VD] is 1 when lane l is selected and the relation holds (Table 4.5). -/
def issueCmpV (func : Nat) (rel : Lane → Lane → Bool) (c : Nat) (f : VecF) (s : State) : State :=
  issueToG 0x2B func 2 f.noCBc (fun x => laneWord (fun l =>
    (x.mask f.lm).getLsbD l && rel (x.lane f.va.toNat l) (x.lane f.vb.toNat l))) c f s

/-- OPC 0x2B FUNC 0x00 (Table 4.5). -/
def execVceqF32 (c : Nat) (f : VecF) (s : State) : Out := ok (issueCmpV 0x00 (fun a b => fp32Eq a.toNat b.toNat) c f s)

/-- OPC 0x2B FUNC 0x01 (Table 4.5). -/
def execVcltF32 (c : Nat) (f : VecF) (s : State) : Out := ok (issueCmpV 0x01 (fun a b => fp32Lt a.toNat b.toNat) c f s)

/-- OPC 0x2B FUNC 0x02 (Table 4.5). -/
def execVcleF32 (c : Nat) (f : VecF) (s : State) : Out := ok (issueCmpV 0x02 (fun a b => fp32Le a.toNat b.toNat) c f s)

/-- OPC 0x2B FUNC 0x03 (Table 4.5). -/
def execVcunF32 (c : Nat) (f : VecF) (s : State) : Out := ok (issueCmpV 0x03 (fun a b => isNan32 a.toNat || isNan32 b.toNat) c f s)

/-- OPC 0x2B FUNC 0x08 (Table 4.5). -/
def execVceqI32 (c : Nat) (f : VecF) (s : State) : Out := ok (issueCmpV 0x08 (fun a b => a == b) c f s)

/-- OPC 0x2B FUNC 0x09 (Table 4.5). -/
def execVcltS32 (c : Nat) (f : VecF) (s : State) : Out := ok (issueCmpV 0x09 (fun a b => a.slt b) c f s)

/-- OPC 0x2B FUNC 0x0A (Table 4.5). -/
def execVcltU32 (c : Nat) (f : VecF) (s : State) : Out := ok (issueCmpV 0x0A (fun a b => a.ult b) c f s)

/-- OPC 0x2B FUNC 0x0B (Table 4.5). -/
def execVcleS32 (c : Nat) (f : VecF) (s : State) : Out := ok (issueCmpV 0x0B (fun a b => a.sle b) c f s)

/-- One level of the pairwise tree of R102. -/
def pairUp (op : Nat → Nat → Nat) : List Nat → List Nat
  | a :: b :: r => op a b :: pairUp op r
  | l => l

/-- The tree over 64 lanes, six levels (R102). -/
def tree64 (op : Nat → Nat → Nat) (l : List Nat) : Nat :=
  (pairUp op (pairUp op (pairUp op (pairUp op (pairUp op (pairUp op l)))))).headD 0

/-- A reduction with its identity for lanes not selected (Table 4.5). -/
def issueReduce (func : Nat) (op : Nat → Nat → Nat) (ident : Nat) (c : Nat) (f : VecF) (s : State) : State :=
  issueToG 0x2C func 6 f.noBC (fun x => BitVec.ofNat 64 (tree64 op ((List.range 64).map (fun l =>
    if (x.mask f.lm).getLsbD l then (x.lane f.va.toNat l).toNat else ident)))) c f s

/-- amax of the 32 lanes from `lo`: a NaN lane makes it a NaN, a lane not selected contributes 0 (R103). -/
def blockAmax (x : Cell) (f : VecF) (lo : Nat) : Num :=
  let vs := ((List.range 32).filter (fun l => (x.mask f.lm).getLsbD (lo + l))).map
    (fun l => (x.lane f.va.toNat (lo + l)).toNat % 2 ^ 31)
  if vs.any isNan32 then .nan else decodeNum F32 (vs.foldl max 0)

/-- Block scales of both halves (R103, R125). -/
def issueMxsc (func : Nat) (t : Fmt) (c : Nat) (f : VecF) (s : State) : State :=
  issueToG 0x2C func 6 f.noBC (fun x =>
    BitVec.ofNat 64 (mxScale (blockAmax x f 0) t + 256 * mxScale (blockAmax x f 32) t)) c f s

/-- OPC 0x2C FUNC 0x00 (Table 4.5, R102). -/
def execVrsumF32 (c : Nat) (f : VecF) (s : State) : Out := ok (issueReduce 0x00 fp32Add 0 c f s)

/-- OPC 0x2C FUNC 0x01 (Table 4.5, R102). -/
def execVrmaxF32 (c : Nat) (f : VecF) (s : State) : Out := ok (issueReduce 0x01 fp32Max 0xFF800000 c f s)

/-- OPC 0x2C FUNC 0x02 (Table 4.5, R102). -/
def execVrminF32 (c : Nat) (f : VecF) (s : State) : Out := ok (issueReduce 0x02 fp32Min 0x7F800000 c f s)

/-- OPC 0x2C FUNC 0x03 (Table 4.5, R102). -/
def execVrsumI32 (c : Nat) (f : VecF) (s : State) : Out := ok (issueReduce 0x03 (fun a b => (a + b) % 2 ^ 32) 0 c f s)

/-- OPC 0x2C FUNC 0x08 (Table 4.5, R103). -/
def execVmxscE2m1 (c : Nat) (f : VecF) (s : State) : Out := ok (issueMxsc 0x08 (.flt fE2M1) c f s)

/-- OPC 0x2C FUNC 0x09 (Table 4.5, R103). -/
def execVmxscE2m3 (c : Nat) (f : VecF) (s : State) : Out := ok (issueMxsc 0x09 (.flt fE2M3) c f s)

/-- OPC 0x2C FUNC 0x0A (Table 4.5, R103). -/
def execVmxscE3m2 (c : Nat) (f : VecF) (s : State) : Out := ok (issueMxsc 0x0A (.flt fE3M2) c f s)

/-- OPC 0x2C FUNC 0x0B (Table 4.5, R103). -/
def execVmxscE4m3 (c : Nat) (f : VecF) (s : State) : Out := ok (issueMxsc 0x0B (.flt fE4M3) c f s)

/-- OPC 0x2C FUNC 0x0C (Table 4.5, R103). -/
def execVmxscE5m2 (c : Nat) (f : VecF) (s : State) : Out := ok (issueMxsc 0x0C (.flt fE5M2) c f s)

/-- OPC 0x2C FUNC 0x0D (Table 4.5, R103). -/
def execVmxscI8 (c : Nat) (f : VecF) (s : State) : Out := ok (issueMxsc 0x0D (.int 8) c f s)




/-- A[ag].ADDR + 256 × OFS, in 64 bits (R104). -/
def lineEa (x : Cell) (f : VecF) : Nat :=
  (BitVec.ofInt 64 ((x.agen f.agOf).addr.toNat + 256 * signedN f.lo.toNat 16)).toNat

/-- Checks of a line address (Table 4.6, R104). -/
def lineChecks (x : Cell) (f : VecF) : List Nat :=
  cause (decide (csBytes ≤ lineEa x f)) 0x02 ++ cause (decide (lineEa x f % 256 ≠ 0)) 0x03

/-- VLD.L: the line is read at t + 2, the selected lanes land at the end of t + 4 (Tables 4.2, 4.6). -/
def execVldL (c : Nat) (f : VecF) (s : State) : Out :=
  ok (issueVec 0x2D 0x00 1 1 (f.memPlain && f.vb == 0) (fun x => lineChecks x f)
    (fun x => .vld f.vd.toNat (x.mask f.lm) (lineEa x f)) (fun _ y => y) c f s)

/-- VST.L: V[VD] is read at issue, the line written at t + 2 (Tables 4.2, 4.6). -/
def execVstL (c : Nat) (f : VecF) (s : State) : Out :=
  ok (issueVec 0x2D 0x01 1 1 (f.memPlain && f.vb == 0) (fun x => lineChecks x f)
    (fun x => .vst (x.mask f.lm) (lineEa x f) ((List.range 64).map (x.lane f.vd.toNat))) (fun _ y => y) c f s)

/-- addr(l) of Table 4.7, in 64 bits. -/
def laneAddr (x : Cell) (f : VecF) (n l : Nat) : Nat :=
  (BitVec.ofInt 64 ((x.agen f.agOf).addr.toNat + 256 * signedN f.lo.toNat 16 + n * (x.lane f.vb.toNat l).toNat)).toNat

/-- R105: every selected lane is checked in the issue cycle. -/
def laneChecks (x : Cell) (f : VecF) (n : Nat) : List Nat :=
  cause ((selLanes (x.mask f.lm) (laneAddr x f n)).any (fun e =>
    decide (csBytes ≤ e.2) || decide (e.2 % n ≠ 0))) 0x12

/-- A gather of `n` bytes per lane (R105, R106). -/
def issueGather (func n : Nat) (c : Nat) (f : VecF) (s : State) : State :=
  issueVec 0x2E func 4 4 f.memPlain (fun x => laneChecks x f n)
    (fun x => .gather n f.vd.toNat (selLanes (x.mask f.lm) (laneAddr x f n)) []) (fun _ y => y) c f s

/-- A scatter of `n` bytes per lane (R105 to R107). -/
def issueScatter (func n : Nat) (c : Nat) (f : VecF) (s : State) : State :=
  issueVec 0x2E func 4 4 f.memPlain (fun x => laneChecks x f n)
    (fun x => .scatter n (selLanes (x.mask f.lm) (fun l => (laneAddr x f n l, x.lane f.vd.toNat l)))) (fun _ y => y) c f s

/-- OPC 0x2E FUNC 0x00 (Table 4.7). -/
def execVgatherU8 (c : Nat) (f : VecF) (s : State) : Out := ok (issueGather 0x00 1 c f s)

/-- OPC 0x2E FUNC 0x01 (Table 4.7). -/
def execVgatherU16 (c : Nat) (f : VecF) (s : State) : Out := ok (issueGather 0x01 2 c f s)

/-- OPC 0x2E FUNC 0x02 (Table 4.7). -/
def execVgatherB32 (c : Nat) (f : VecF) (s : State) : Out := ok (issueGather 0x02 4 c f s)

/-- OPC 0x2E FUNC 0x04 (Table 4.7). -/
def execVscatterB8 (c : Nat) (f : VecF) (s : State) : Out := ok (issueScatter 0x04 1 c f s)

/-- OPC 0x2E FUNC 0x05 (Table 4.7). -/
def execVscatterB16 (c : Nat) (f : VecF) (s : State) : Out := ok (issueScatter 0x05 2 c f s)

/-- OPC 0x2E FUNC 0x06 (Table 4.7). -/
def execVscatterB32 (c : Nat) (f : VecF) (s : State) : Out := ok (issueScatter 0x06 4 c f s)




/-- Register width of a lane field (Table 4.1): FP6 sits in a byte. -/
def laneField (t : Fmt) : Nat := if t.width = 6 then 8 else t.width

/-- The random bits of lane `l`, field `q` (R108). -/
def vecBits (s : State) (c l q : Nat) : Nat := s.srBits c (s.cellPart c).offset l q 0x00

/-- Count the stochastic roundings of the selected lanes when the instruction was enabled (event 0x00C). -/
def countStoch (c : Nat) (f : VecF) (before after : State) : State :=
  let x := (before.cell c).settle before.cycle
  if f.rm = 2 ∧ before.canIssue c ∧ (after.cell c).fault.isNone ∧ x.enabled f.en then
    after.count (locCell c) 0x00C (selLanes (x.mask f.lm) (fun l => l)).length
  else after

/-- VPK: field q of each selected lane takes the converted value, the other fields are kept (Table 4.8). -/
def issuePack (func : Nat) (t : Fmt) (c : Nat) (f : VecF) (s : State) : State :=
  let w := laneField t
  countStoch c f s (issueLanes 0x2F func 1 3 (f.cvtPlain (32 / w) && f.vb == 0) (fun x l =>
    let old := (x.lane f.vd.toNat l).toNat
    let v := cvt (x.lane f.va.toNat l).toNat F32 t f.rm.toNat f.sat (vecBits s c l f.q)
    BitVec.ofNat 32 (old - bits old (w * f.q) w * 2 ^ (w * f.q) + v * 2 ^ (w * f.q))) c f s)

/-- VUNPK of a float field: exact (R138). -/
def issueUnpack (func : Nat) (t : Fmt) (c : Nat) (f : VecF) (s : State) : State :=
  let w := laneField t
  issueLanes 0x2F func 1 3 (f.cvtPlain (32 / w) && f.vb == 0 && f.rm == 0 && !f.sat) (fun x l =>
    BitVec.ofNat 32 (cvt (bits (x.lane f.va.toNat l).toNat (w * f.q) t.width) t F32 0 false 0)) c f s

/-- VUNPK of an integer field: sign extension to 32 bits. -/
def issueUnpackInt (func w : Nat) (c : Nat) (f : VecF) (s : State) : State :=
  issueLanes 0x2F func 1 3 (f.cvtPlain (32 / w) && f.vb == 0 && f.rm == 0 && !f.sat) (fun x l =>
    BitVec.ofInt 32 (signedN (bits (x.lane f.va.toNat l).toNat (w * f.q) w) w)) c f s

/-- VCVT: one whole-lane conversion under RM. -/
def issueVcvt (func : Nat) (src dst : Fmt) (c : Nat) (f : VecF) (s : State) : State :=
  countStoch c f s (issueLanes 0x2F func 1 3 (f.cvtPlain 1 && f.vb == 0) (fun x l =>
    BitVec.ofNat 32 (cvt (x.lane f.va.toNat l).toNat src dst f.rm.toNat f.sat (vecBits s c l 0))) c f s)

/-- a × 2^e, exact. -/
def Num.scale (v : Num) (k : Int) : Num :=
  match v with
  | .fin s m e => .fin s m (e + k)
  | v => v

/-- OPC 0x2F FUNC 0x00 (Table 4.8). -/
def execVcvtI32F32 (c : Nat) (f : VecF) (s : State) : Out := ok (issueVcvt 0x00 F32 (.int 32) c f s)

/-- OPC 0x2F FUNC 0x01 (Table 4.8). -/
def execVcvtF32I32 (c : Nat) (f : VecF) (s : State) : Out := ok (issueVcvt 0x01 (.int 32) F32 c f s)

/-- OPC 0x2F FUNC 0x02 (Table 4.8). -/
def execVpkBf16 (c : Nat) (f : VecF) (s : State) : Out := ok (issuePack 0x02 (.flt fBF16) c f s)

/-- OPC 0x2F FUNC 0x03 (Table 4.8). -/
def execVpkF16 (c : Nat) (f : VecF) (s : State) : Out := ok (issuePack 0x03 (.flt fF16) c f s)

/-- OPC 0x2F FUNC 0x04 (Table 4.8). -/
def execVpkE4m3 (c : Nat) (f : VecF) (s : State) : Out := ok (issuePack 0x04 (.flt fE4M3) c f s)

/-- OPC 0x2F FUNC 0x05 (Table 4.8). -/
def execVpkE5m2 (c : Nat) (f : VecF) (s : State) : Out := ok (issuePack 0x05 (.flt fE5M2) c f s)

/-- OPC 0x2F FUNC 0x06 (Table 4.8). -/
def execVpkE2m3 (c : Nat) (f : VecF) (s : State) : Out := ok (issuePack 0x06 (.flt fE2M3) c f s)

/-- OPC 0x2F FUNC 0x07 (Table 4.8). -/
def execVpkE3m2 (c : Nat) (f : VecF) (s : State) : Out := ok (issuePack 0x07 (.flt fE3M2) c f s)

/-- OPC 0x2F FUNC 0x08 (Table 4.8). -/
def execVpkE2m1 (c : Nat) (f : VecF) (s : State) : Out := ok (issuePack 0x08 (.flt fE2M1) c f s)

/-- OPC 0x2F FUNC 0x09 (Table 4.8). -/
def execVpkI8 (c : Nat) (f : VecF) (s : State) : Out := ok (issuePack 0x09 (.int 8) c f s)

/-- OPC 0x2F FUNC 0x0A (Table 4.8). -/
def execVpkI4 (c : Nat) (f : VecF) (s : State) : Out := ok (issuePack 0x0A (.int 4) c f s)

/-- OPC 0x2F FUNC 0x10 (Table 4.8). -/
def execVunpkBf16 (c : Nat) (f : VecF) (s : State) : Out := ok (issueUnpack 0x10 (.flt fBF16) c f s)

/-- OPC 0x2F FUNC 0x11 (Table 4.8). -/
def execVunpkF16 (c : Nat) (f : VecF) (s : State) : Out := ok (issueUnpack 0x11 (.flt fF16) c f s)

/-- OPC 0x2F FUNC 0x12 (Table 4.8). -/
def execVunpkE4m3 (c : Nat) (f : VecF) (s : State) : Out := ok (issueUnpack 0x12 (.flt fE4M3) c f s)

/-- OPC 0x2F FUNC 0x13 (Table 4.8). -/
def execVunpkE5m2 (c : Nat) (f : VecF) (s : State) : Out := ok (issueUnpack 0x13 (.flt fE5M2) c f s)

/-- OPC 0x2F FUNC 0x14 (Table 4.8). -/
def execVunpkE2m3 (c : Nat) (f : VecF) (s : State) : Out := ok (issueUnpack 0x14 (.flt fE2M3) c f s)

/-- OPC 0x2F FUNC 0x15 (Table 4.8). -/
def execVunpkE3m2 (c : Nat) (f : VecF) (s : State) : Out := ok (issueUnpack 0x15 (.flt fE3M2) c f s)

/-- OPC 0x2F FUNC 0x16 (Table 4.8). -/
def execVunpkE2m1 (c : Nat) (f : VecF) (s : State) : Out := ok (issueUnpack 0x16 (.flt fE2M1) c f s)

/-- OPC 0x2F FUNC 0x17 (Table 4.8). -/
def execVunpkI8 (c : Nat) (f : VecF) (s : State) : Out := ok (issueUnpackInt 0x17 8 c f s)

/-- OPC 0x2F FUNC 0x18 (Table 4.8). -/
def execVunpkI4 (c : Nat) (f : VecF) (s : State) : Out := ok (issueUnpackInt 0x18 4 c f s)

/-- VSCALE.E8M0 (Table 4.8, R545): the scale byte of lane l is G[VB] byte (l / 32). -/
def execVscaleE8m0 (c : Nat) (f : VecF) (s : State) : Out :=
  ok (countStoch c f s (issueLanes 0x2F 0x20 1 3 (f.cvtPlain 1) (fun x l =>
    let sc := bits (x.readG f.vb.toNat).toNat (8 * (l / 32)) 8
    let a := decodeNum F32 (x.lane f.va.toNat l).toNat
    BitVec.ofNat 32 (if sc = 0xFF then nan32
      else cvtValue (a.scale (sc - 127)) F32 f.rm.toNat f.sat (vecBits s c l 0))) c f s))

/-- VMOV.B32 (Table 4.9). -/
def execVmovB32 (c : Nat) (f : VecF) (s : State) : Out :=
  ok (issueLanes 0x30 0x00 1 2 f.noBC (fun x l => x.lane f.va.toNat l) c f s)

/-- VBCAST.B32: G[VA][31:0] in every selected lane (Table 4.9). -/
def execVbcastB32 (c : Nat) (f : VecF) (s : State) : Out :=
  ok (issueLanes 0x30 0x01 1 2 f.noBC (fun x _ => (x.readG f.va.toNat).setWidth 32) c f s)

/-- VIOTA.I32: the lane number (Table 4.9). -/
def execViotaI32 (c : Nat) (f : VecF) (s : State) : Out :=
  ok (issueLanes 0x30 0x02 1 2 (f.noBC && f.va == 0) (fun _ l => BitVec.ofNat 32 l) c f s)

/-- VPERM.B32: lane V[VB][l] mod 64 of V[VA] (Table 4.9). -/
def execVpermB32 (c : Nat) (f : VecF) (s : State) : Out :=
  ok (issueLanes 0x30 0x03 1 2 f.noCBc (fun x l => x.lane f.va.toNat ((x.lane f.vb.toNat l).toNat % 64)) c f s)

/-- VINS.B32: one lane, when it is selected (Table 4.9). -/
def execVinsB32 (c : Nat) (f : VecF) (s : State) : Out :=
  ok (issueVec 0x30 0x04 1 0 f.noCBc (fun _ => []) (fun _ => .idle) (fun x y =>
    let l := (x.readG f.vb.toNat).toNat % 64
    if (x.mask f.lm).getLsbD l then y.result s.cycle 2 (.v f.vd.toNat [(l, (x.readG f.va.toNat).setWidth 32)]) else y) c f s)

/-- VEXT.B32: one lane to G[VD]; LM is reserved (Table 4.9). -/
def execVextB32 (c : Nat) (f : VecF) (s : State) : Out :=
  ok (issueToG 0x30 0x05 2 (f.noCBc && f.lm == 0) (fun x =>
    (x.lane f.va.toNat ((x.readG f.vb.toNat).toNat % 64)).setWidth 64) c f s)

end Sys2Proof.Machine
end

