-- ==== Sys2Proof/Machine/CellMatrix.lean ====
section
/-! DEFINITION. Matrix instructions (06_matrix_engine.md): layouts, issue, and the arithmetic of a row. -/

namespace Sys2Proof.Machine

/-! ### Layouts (R143, R144, Table 6.4) -/

/-- Bits per element of a format code. -/
def fmtBits (fmt : Nat) : Nat := ((fmtOf fmt).map Fmt.width).getD 8

/-- Weight tile lines without scales (Table 6.4). -/
def tileOnly (fmt : Nat) : Nat := 128 * 128 * fmtBits fmt / 2048

/-- L: weight lines with the two scale lines of an MX tile. -/
def tileLines (fmt : Nat) (mx : Bool) : Nat := tileOnly fmt + (if mx then 2 else 0)

/-- Cycles per row c (Table 6.3). -/
def rowPeriod (a w : Nat) : Nat :=
  if a ≤ 1 ∧ w ≤ 1 then 1
  else if a ≤ 6 ∧ w ≤ 6 then 2
  else if a ≤ 8 ∧ w ≤ 8 then 4
  else 32

/-- FP32 accumulation (BF16 and FP32 pairs, Table 6.3). -/
def fpMode (a : Nat) : Bool := a == 8 || a == 9

/-- Lines of `rows` rows in the layout of R143. -/
def rowLines (fmt rows : Nat) : Nat :=
  if rowsPerLine fmt = 0 then 2 * rows else (rows + rowsPerLine fmt - 1) / rowsPerLine fmt

/-- Bytes per row (Table 6.4). -/
def rowBytes (fmt : Nat) : Nat := 128 * fmtBits fmt / 8

/-- The `w` bits at bit position `pos` of a run of 256 B lines. -/
def lineBits (ls : SMap Line) (pos w : Nat) : Nat :=
  let a := (look 0#2048 ls (pos / 2048)).toNat
  let b := (look 0#2048 ls (pos / 2048 + 1)).toNat
  (a + b * 2 ^ 2048) / 2 ^ (pos % 2048) % 2 ^ w

/-- Element k of activation row r (R143). -/
def actElem (fmt : Nat) (xs : SMap Line) (r k : Nat) : Nat :=
  let w := fmtBits fmt
  let rr := rowsPerLine fmt
  if rr = 0 then lineBits xs (2048 * (2 * r) + k * w) w
  else lineBits xs (2048 * (r / rr) + 8 * (rowBytes fmt) * (r % rr) + k * w) w

/-- W[k][n] (R144). -/
def weightElem (fmt : Nat) (ls : SMap Line) (k n : Nat) : Nat :=
  lineBits ls ((k * 128 + n) * fmtBits fmt) (fmtBits fmt)

/-- The scale of block kb of column n (R144). -/
def weightScale (fmt : Nat) (ls : SMap Line) (kb n : Nat) : Nat :=
  lineBits ls (2048 * tileOnly fmt + 8 * (kb * 128 + n)) 8

/-! ### Exact accumulation (R148) -/

/-- Contribution of one product: its value in units of 2^-48, and the flags NAN, PINF, NINF it sets. -/
def productTerm (amx wmx : Bool) (afmt wfmt x w : Nat) : Int × BitVec 4 :=
  let dec (mx : Bool) (fmt v : Nat) : Num :=
    match fmtOf fmt with
    | none => .nan
    | some t => if mx && fmt == 6 then (decodeNum t v).scale (-6) else decodeNum t v
  match dec amx afmt x, dec wmx wfmt w with
  | .nan, _ => (0, mkFlags true false false false)
  | _, .nan => (0, mkFlags true false false false)
  | a, b =>
    match mulNum a b with
    | .nan => (0, mkFlags true false false false)
    | .inf s => (0, mkFlags false (!s) s false)
    | .fin s m e => (scaled s m e (-48), 0#4)

/-- u of R148: the block sum scaled by 2^e, rounded to nearest even in units of 2^-48; out of range sets OVF. -/
def blockTerm (b e : Int) : Int × BitVec 4 :=
  let m : Int := roundAt b.natAbs e 0 0 0
  if m ≥ (2 ^ 127 : Int) then (0, 8#4) else (if b < 0 then -m else m, 0#4)

/-- Term and flags of column n of row r (R148). -/
def x128Term (f : MmaF) (sA : List Lane) (w : SMap Line) (xs : SMap Line) (r n : Nat) : Int × BitVec 4 :=
  let afmt := f.afmt.toNat
  let wfmt := f.wfmt.toNat
  (List.range 4).foldl (fun acc kb =>
    let ps := (List.range 32).map (fun i =>
      productTerm f.amx f.wmx afmt wfmt (actElem afmt xs r (32 * kb + i)) (weightElem wfmt w (32 * kb + i) n))
    let b := ps.foldl (fun t p => t + p.1) 0
    let fl := ps.foldl (fun t p => t ||| p.2) 0#4
    let sa := bits (sA.getD r 0).toNat (8 * kb) 8
    let sw := weightScale wfmt w kb n
    let bad := (f.amx && sa == 0xFF) || (f.wmx && sw == 0xFF)
    let e : Int := (if f.amx then (sa : Int) - 127 else 0) + (if f.wmx then (sw : Int) - 127 else 0)
    let u := blockTerm (if bad then 0 else b) e
    (acc.1 + u.1, acc.2 ||| fl ||| u.2 ||| (if bad then 1#4 else 0#4))) (0, 0#4)

/-- Block sum S[kb] of R150 along the fixed tree. -/
def fpBlock (f : MmaF) (w : SMap Line) (xs : SMap Line) (r n kb : Nat) : Nat :=
  let cv (fmt v : Nat) : Nat := if fmt = 8 then cvt v (.flt fBF16) F32 0 false 0 else v
  let x := (List.range 32).map (fun i =>
    fp32Mul (cv f.afmt.toNat (actElem f.afmt.toNat xs r (32 * kb + i)))
      (cv f.wfmt.toNat (weightElem f.wfmt.toNat w (32 * kb + i) n)))
  (pairUp fp32Add (pairUp fp32Add (pairUp fp32Add (pairUp fp32Add (pairUp fp32Add x))))).headD 0

/-- The landing of R150 in an entry; flags are unchanged. -/
def landFp32 (e : AccEntry) (z : Bool) (sums : Nat → Nat) : AccEntry :=
  let a := if z then sums 0 else fp32Add (e.code.toNat % 2 ^ 32) (sums 0)
  let a := fp32Add (fp32Add (fp32Add a (sums 1)) (sums 2)) (sums 3)
  { e with code := BitVec.ofNat 128 a }

/-- Row r of an MMA landed in its accumulator row. -/
def landRow (acc : SMap AccEntry) (o : MmaOp) (r : Nat) : SMap AccEntry :=
  (List.range 128).foldl (fun m n =>
    upd {} m (128 * (o.f.acc.toNat + r) + n) (fun e =>
      if fpMode o.f.afmt.toNat then landFp32 e o.f.z (fpBlock o.f o.w.lines o.xs r n)
      else
        let t := x128Term o.f o.sA o.w.lines o.xs r n
        landX128 e o.f.z t.1 t.2)) acc

/-- Zero `rows` accumulator rows from `row`, with their flags. -/
def zeroRows (acc : SMap AccEntry) (row rows : Nat) : SMap AccEntry :=
  acc.filter (fun e => decide (e.1 < 128 * row ∨ 128 * (row + rows) ≤ e.1))

/-! ### Conversion out and partials (R151 to R153) -/

/-- The line(s) that a row read of MCVT forms: rows `r0 ..` of the output line `j`, with the key's lane and field (R152). -/
def cvtLine (acc : SMap AccEntry) (row r0 cnt ofmt rm : Nat) (sat accf : Bool) (sh : Int)
    (h : Nat → Nat → Nat) : Nat :=
  match fmtOf ofmt with
  | none => 0
  | some t =>
    let w := t.width
    (List.range cnt).foldl (fun a i =>
      (List.range 128).foldl (fun a n =>
        let e := look {} acc (128 * (row + r0 + i) + n)
        let v := cvtValue ((entryNum accf e).scale sh) t rm sat (h n i)
        a + v * 2 ^ (128 * w * i + w * n)) a) 0

/-- The 8 value lines of accumulator row `row` as a partial, as one number (R153). -/
def rawRow (acc : SMap AccEntry) (row : Nat) : Nat :=
  (List.range 128).foldl (fun a n => a + (look {} acc (128 * row + n)).code.toNat * 2 ^ (128 * n)) 0

/-- The flag bits of row 4g + i in line 32 of its group (R153). -/
def rawFlags (acc : SMap AccEntry) (row i : Nat) : Nat :=
  (List.range 128).foldl (fun a n =>
    a + (look {} acc (128 * row + n)).flags.toNat * 2 ^ (512 * i + 4 * n)) 0

/-- Put the `cnt` lines of a number from line `j` on. -/
def putLines (ls : SMap Line) (j cnt x : Nat) : SMap Line :=
  (List.range cnt).foldl (fun m i => put 0#2048 m (j + i) (BitVec.ofNat 2048 (x / 2 ^ (2048 * i)))) ls

/-- Group g of a MADDX landed (R154). -/
def landGroup (acc : SMap AccEntry) (o : Maddx) (g : Nat) : SMap AccEntry :=
  (List.range 4).foldl (fun m i =>
    (List.range 128).foldl (fun m n =>
      let t := signedN (lineBits o.lines (2048 * (33 * g + 8 * i) + 128 * n) 128) 128
      let fl := BitVec.ofNat 4 (lineBits o.lines (2048 * (33 * g + 32) + 512 * i + 4 * n) 4)
      upd {} m (128 * (o.acc + 4 * g + i) + n) (fun e => landX128 e o.z t fl)) m) acc

/-! ### Issue -/

/-- Port operation of `count` accesses from `start` every `step` cycles. -/
def mkPort (start step count issued : Nat) (a : PortAct) : PortOp := { start, step, count, done := 0, issued, act := a }

/-- R147: the first address and every line of an enabled matrix instruction. -/
def mtxChecks (a : Ag) (lines : Nat) : List Nat :=
  cause (decide (a.addr.toNat % 256 ≠ 0) || decide (csBytes < a.addr.toNat + 256 * lines)) 0x20

def Cell.wbuf (x : Cell) (b : Bool) : WBuf := if b then x.wb1 else x.wb0
def Cell.setWbuf (x : Cell) (b : Bool) (w : WBuf) : Cell := if b then { x with wb1 := w } else { x with wb0 := w }

/-- MLW (Table 6.10): the engine is held 2L cycles; line j is read at t + 2 + 2j; an enabled MLW clears its buffer's tag at
once and sets the new one at the end of t + 2L + 1 (R159). -/
def execMlw (c : Nat) (f : MlwF) (s : State) : Out :=
  let t := s.cycle
  let n := tileLines f.wfmt.toNat f.wmx
  ok (issue c f.en f.word (fun x =>
    let a := x.agen f.ag.toNat
    { always := cause (!f.legal) 0x01 ++ cause (decide (t < x.wleFree)) 0x04 ++ cause (portClash x.port (t + 2) 2 n) 0x11
      whenEn := mtxChecks a n ++ cause (decide (t < x.arrFree) && x.arrBuf == f.wb) 0x21
      slots := 1
      hold := fun y => { y with
        wleFree := t + 2 * n, wleEn := x.enabled f.en, wleBuf := f.wb, port := x.port ++ [mkPort (t + 2) 2 n t .idle] }
      effect := fun y => { y.setWbuf f.wb { y.wbuf f.wb with tag := none } with
        port := x.port ++ [mkPort (t + 2) 2 n t (.mlw f.wb a.addr.toNat)]
        tagSets := y.tagSets.filter (fun w => w.wb != f.wb) ++ [{ due := t + 2 * n + 1, wb := f.wb, tag := ⟨f.wfmt.toNat, f.wmx⟩ }] } }) s)

/-- MMA (R145 to R148, R150, R158, R159, Table 6.10). `wecc` is what the single read of the buffer's words in cycle t + 3
finds (R547). -/
def execMma (c : Nat) (f : MmaF) (wecc : EccW) (s : State) : Out :=
  let t := s.cycle
  let rows := f.rows.toNat + 1
  let per := rowPeriod f.afmt.toNat f.wfmt.toNat
  let n := rowLines f.afmt.toNat rows
  let step := if rowsPerLine f.afmt.toNat = 0 then per / 2 else per * rowsPerLine f.afmt.toNat
  ok (issue c f.en f.word (fun x =>
    let a := x.agen f.ag.toNat
    { always := cause (!f.legal) 0x01 ++ cause (decide (t < x.arrFree)) 0x04
        ++ cause (portClash x.port (t + 2) step n) 0x11
      whenEn := mtxChecks a n ++ cause (decide (t < x.wleFree) && x.wleBuf == f.wb) 0x21
        ++ cause (decide ((x.wbuf f.wb).tag ≠ some ⟨f.wfmt.toNat, f.wmx⟩)) 0x22
      slots := 1
      hold := fun y => { y with
        arrFree := t + per * rows, arrEn := x.enabled f.en, arrBuf := f.wb
        port := x.port ++ [mkPort (t + 2) step n t .idle] }
      effect := fun y => { y with
        port := x.port ++ [mkPort (t + 2) step n t (.mma a.addr.toNat)]
        mma := y.mma ++ [{ issued := t, f, sA := (List.range 64).map (x.lane f.vs.toNat), w := x.wbuf f.wb, xs := [],
                           landed := 0, wecc }] } }) s)

/-- An accumulator-engine instruction that moves `n` lines (Table 6.10). -/
def issueAcc (c : Nat) (e : En) (word : Word) (legal : Bool) (ag n first : Nat) (act : Nat → PortAct)
    (add : Cell → Cell → Cell) (s : State) : State :=
  let t := s.cycle
  issue c e word (fun x =>
    let a := x.agen ag
    { always := cause (!legal) 0x01 ++ cause (decide (t < x.accFree)) 0x04 ++ cause (portClash x.port (t + first) 2 n) 0x11
      whenEn := mtxChecks a n
      slots := 1
      hold := fun y => { y with
        accFree := t + 2 * n, accEn := x.enabled e, port := x.port ++ [mkPort (t + first) 2 n t .idle] }
      effect := fun y => add x { y with port := x.port ++ [mkPort (t + first) 2 n t (act a.addr.toNat)] } }) s

/-- MCVT (R151, R152, Table 6.10). -/
def execMcvt (c : Nat) (f : McvtF) (s : State) : Out :=
  let rows := f.rows.toNat + 1
  ok (issueAcc c f.en f.word f.legal f.ag.toNat (rowLines f.ofmt.toNat rows) 6 .accOut (fun x y =>
    { y with accOut := y.accOut ++ [{
        issued := s.cycle
        kind := .cvt f.ofmt.toNat f.rm.toNat f.sat f.accf (signedN (x.readG f.rs.toNat).toNat 8)
        clr := f.clr, acc := f.acc.toNat, rows, reads := 0, lines := [] }] }) s)

/-- MSTX.X128 (R153, Table 6.10). -/
def execMstxX128 (c : Nat) (f : MaccF) (s : State) : Out :=
  let rows := f.rows.toNat + 1
  ok (issueAcc c f.en (f.word 0x37) f.legal f.ag.toNat (33 * rows / 4) 6 .accOut (fun _ y =>
    { y with accOut := y.accOut ++ [{
        issued := s.cycle, kind := .raw, clr := f.opt, acc := f.acc.toNat, rows, reads := 0, lines := [] }] }) s)

/-- MADDX.X128 (R154, Table 6.10). -/
def execMaddxX128 (c : Nat) (f : MaccF) (s : State) : Out :=
  let rows := f.rows.toNat + 1
  ok (issueAcc c f.en (f.word 0x38) f.legal f.ag.toNat (33 * rows / 4) 2 .maddx (fun _ y =>
    { y with maddx := y.maddx ++ [{
        issued := s.cycle, z := f.opt, acc := f.acc.toNat, rows, lines := [], landed := 0 }] }) s)

/-- MCLR.X128: the rows are zeroed at the end of t + 2 (Table 6.10). -/
def execMclrX128 (c : Nat) (f : MaccF) (s : State) : Out :=
  let t := s.cycle
  ok (issue c f.en (f.word 0x39) (fun x =>
    { always := cause (!f.legalClr) 0x01 ++ cause (decide (t < x.accFree)) 0x04
      whenEn := []
      slots := 1
      hold := fun y => { y with accFree := t + 1, accEn := x.enabled f.en }
      effect := fun y => { y with mclr := y.mclr ++ [{ due := t + 2, acc := f.acc.toNat, rows := f.rows.toNat + 1 }] } }) s)

end Sys2Proof.Machine
end

