-- ==== Sys2Proof/Machine/CellEvents.lean ====
section
/-! DEFINITION. What comes about in a cell after issue: results landing, memory and port accesses, weight lines and tags,
accumulator reads and landings, iteration ends. An event acts on what is due in the module's present plan cycle or before;
it never acts past the cycle in which the cell stopped on a fault (R93). -/

namespace Sys2Proof.Machine

/-- The last cycle whose work is due on cell `c`. -/
def State.dueBound (s : State) (c : Nat) : Nat :=
  match (s.cell c).fault with
  | some f => min s.cycle f.cycle
  | none => s.cycle

/-- What the code finds in the words that one access reads in a cell memory (R59): each corrected word is counted, and the first
uncorrectable one is a cell fault that names the memory and the word. -/
def State.eccCell (s : State) (c : Nat) (e : EccW) (mem : Nat) (words : List Nat) : State :=
  let n := eccFixed e words.length
  let s1 := if n = 0 then s else s.count (locCell c) 0x00B n
  match eccBad e words.length with
  | none => s1
  | some j => s1.cellFault c 0x09 0 (cellD1 (s.cell c).pc (s.bankOf c) mem (words.getD j 0))

/-- RESULT_LANDING: results due at the end of this cycle land, once the cell's issue of the cycle is made (R66, R67). -/
def execResultLanding (c : Nat) (s : State) : Out := ok (s.onCell c (fun x => x.land (s.landBound c)))

/-- LOOP_ITERATION_END: the iteration whose last cycle has come ends (R116 to R118). -/
def execLoopIterationEnd (c : Nat) (s : State) : Out := ok (s.onCell c (fun x => x.endIter (s.landBound c)))

/-- The first scalar access due, and the rest. -/
def takeDue {α : Type} (p : α → Bool) : List α → Option (α × List α)
  | [] => none
  | a :: as => if p a then some (a, as) else (takeDue p as).map (fun r => (r.1, a :: r.2))

/-- The cell after a scalar access that meets no uncorrectable word (R68, R87). -/
def Cell.access (x : Cell) (t : Nat) (a : MemAcc) : Cell :=
  if !a.en then x
  else if a.store then
    let bs := natLe a.data.toNat a.n
    if a.cs then x.csWrite t .scalar (cellsAt a.ea bs) else { x with sdm := Mem.setBytes x.sdm a.ea bs }
  else
    let v := Mem.le (if a.cs then x.store t else x.sdm) a.ea a.n
    let r := if a.sx then sext v (8 * a.n) else BitVec.ofNat 64 v
    { x with pend := x.pend ++ [{ due := a.due + 1, issued := a.issued, w := .g a.rd r }] }

/-- SCALAR_MEMORY_ACCESS: the first access due is made; an uncorrectable word that a load reads is a cell fault and the
load has no effect (R59, R68). -/
def execScalarMemoryAccess (c : Nat) (ecc : Ecc) (s : State) : Out :=
  match takeDue (fun a : MemAcc => decide (a.due ≤ s.dueBound c)) (s.cell c).macc with
  | none => ok s
  | some (a, rest) =>
    let s' := s.onCell c (fun x => { x with macc := rest })
    let s' := if a.en && !a.store then s'.eccCell c [(0, ecc)] (b2n a.cs) [a.ea / 8] else s'
    let s' := if a.en && a.cs then s'.spend 8 (s.cellOwner c) 1 else s'
    ok (if a.en && !a.store && decide (ecc = .uncorrectable) then s' else s'.onCell c (fun x => x.access s.cycle a))

/-- The next port cycle of an operation. -/
def PortOp.next (o : PortOp) : Nat := o.start + o.step * o.done

/-- The port operation with the earliest next cycle. -/
def firstPort : List PortOp → Option PortOp
  | [] => none
  | o :: os =>
    match firstPort os with
    | none => some o
    | some q => if o.next ≤ q.next then some o else some q

/-- The cells a store of lanes writes. -/
def laneCells (n : Nat) (l : List (Nat × Lane)) : List Host.Cell :=
  l.foldl (fun acc e => acc ++ cellsAt e.1 (natLe e.2.toNat n)) []

/-- Lanes of group `j` (R106). -/
def groupOf {α : Type} (l : List (Nat × α)) (j : Nat) : List (Nat × α) := l.filter (fun e => decide (e.1 / 16 = j))

/-- The accumulator output whose lines a port operation writes. -/
def outLine (x : Cell) (issued j : Nat) : Line :=
  match x.accOut.find? (fun o => decide (o.issued = issued)) with
  | none => 0
  | some o => look 0#2048 o.lines j

/-- The words of the line at `ea`. -/
def lineWords (ea : Nat) : List Nat := (List.range 32).map (fun k => ea / 8 + k)

/-- The cell-store words that access `j` of an operation reads. -/
def PortAct.words (a : PortAct) (j : Nat) : List Nat :=
  match a with
  | .vld _ _ ea => lineWords ea
  | .gather _ _ ls _ => (groupOf ls j).map (fun e => e.2 / 8)
  | .mlw _ ea => lineWords (ea + 256 * j)
  | .mma ea => lineWords (ea + 256 * j)
  | .maddx ea => lineWords (ea + 256 * j)
  | _ => []

/-- Access number `o.done` of a port operation in cycle `t` (R60, R61, R97, R106, R107, Table 6.10); `u` is the cycle it was
due in. -/
def Cell.portAccess (x : Cell) (t : Nat) (o : PortOp) : Cell :=
  let j := o.done
  let u := o.next
  let m := x.store t
  match o.act with
  | .idle => x
  | .vld vd mask ea =>
    let ln := Mem.line m ea
    { x with pend := x.pend ++ [{ due := u + 2, issued := o.issued
                                  w := .v vd (selLanes mask (fun l => BitVec.extractLsb' (32 * l) 32 ln)) }] }
  | .vst mask ea data =>
    x.csWrite t .vec (laneCells 4 ((selLanes mask (fun l => data.getD l 0)).map (fun e => (ea + 4 * e.1, e.2))))
  | .gather n vd ls got =>
    let got' := got ++ (groupOf ls j).map (fun e => (e.1, BitVec.ofNat 32 (Mem.le m e.2 n)))
    if j = 3 then { x with pend := x.pend ++ [{ due := u + 3, issued := o.issued, w := .v vd got' }] }
    else { x with port := x.port.map (fun q => if q.issued = o.issued then { q with act := .gather n vd ls got' } else q) }
  | .scatter n ls => x.csWrite t .vec (laneCells n ((groupOf ls j).map (fun e => e.2)))
  | .mlw wb ea => { x with wlines := x.wlines ++ [{ due := u + 1, wb, j, line := Mem.line m (ea + 256 * j) }] }
  | .mma ea =>
    { x with mma := x.mma.map (fun q =>
        if q.issued = o.issued then { q with xs := put 0#2048 q.xs j (Mem.line m (ea + 256 * j)) } else q) }
  | .maddx ea =>
    { x with maddx := x.maddx.map (fun q =>
        if q.issued = o.issued then { q with lines := put 0#2048 q.lines j (Mem.line m (ea + 256 * j)) } else q) }
  | .accOut ea => x.csWrite t .vec (cellsAt (ea + 256 * j) (lineBytes (outLine x o.issued j)))

/-- The port operation `o` with one access more made; dropped when it was the last. -/
def Cell.stepPort (x : Cell) (o : PortOp) : Cell :=
  let l := x.port.map (fun q => if q.issued = o.issued then { q with done := q.done + 1 } else q)
  { x with port := l.filter (fun q => decide (q.done < q.count))
           accOut := if o.done + 1 < o.count then x.accOut else x.accOut.filter (fun q => decide (q.issued ≠ o.issued)) }

/-- VECTOR_PORT_ACCESS: the first port access due is made (R97, R98, R106). -/
def execVectorPortAccess (c : Nat) (ecc : EccW) (s : State) : Out :=
  match firstPort (s.cell c).port with
  | none => ok s
  | some o =>
    if s.dueBound c < o.next then ok s
    else if o.act = .idle then ok (s.onCell c (fun x => x.stepPort o))
    else
      let ws := o.act.words o.done
      let s' := s.eccCell c ecc 1 ws
      let s' := (s'.count (locCell c) 0x009 1).spend 8 (s.cellOwner c) 1
      ok (s'.onCell c (fun x =>
        if (eccBad ecc ws.length).isSome then x.stepPort o
        else { (x.portAccess s.cycle o).stepPort o with lastPort := s.cycle + 1 }))

/-- WEIGHT_LINE_WRITE: lines due are written to their buffers (Table 6.10). -/
def execWeightLineWrite (c : Nat) (s : State) : Out :=
  let b := s.dueBound c
  ok (s.onCell c (fun x =>
    let due := x.wlines.filter (fun w => decide (w.due ≤ b))
    due.foldl (fun x w => x.setWbuf w.wb { x.wbuf w.wb with lines := put 0#2048 (x.wbuf w.wb).lines w.j w.line })
      { x with wlines := x.wlines.filter (fun w => decide (b < w.due)) }))

/-- WEIGHT_TAG_SET: tags due are set (R159, Table 6.10). -/
def execWeightTagSet (c : Nat) (s : State) : Out :=
  let b := s.dueBound c
  ok (s.onCell c (fun x =>
    (x.tagSets.filter (fun w => decide (w.due ≤ b))).foldl
      (fun x w => x.setWbuf w.wb { x.wbuf w.wb with tag := some w.tag })
      { x with tagSets := x.tagSets.filter (fun w => decide (b < w.due)) }))

/-- The cycle at whose end row `r` of an MMA lands (Table 6.10). -/
def MmaOp.due (o : MmaOp) : Nat :=
  o.issued + rowPeriod o.f.afmt.toNat o.f.wfmt.toNat * (o.landed + 1) + (if fpMode o.f.afmt.toNat then 13 else 9)

/-- The cycle of the next row read of an accumulator output (Table 6.10). -/
def AccOut.due (o : AccOut) : Nat :=
  match o.kind with
  | .cvt ofmt _ _ _ _ => o.issued + 2 + (if rowsPerLine ofmt = 0 then 4 else 2) * o.reads
  | .raw => o.issued + 2 + 2 * (33 * (o.reads / 4) + 8 * (o.reads % 4))

/-- Row reads an accumulator output makes in all. -/
def AccOut.total (o : AccOut) : Nat :=
  match o.kind with
  | .cvt ofmt _ _ _ _ => if rowsPerLine ofmt = 0 then o.rows else o.rows / rowsPerLine ofmt
  | .raw => o.rows

def AccOut.readDue (o : AccOut) (b : Nat) : Bool := decide (o.reads < o.total) && decide (o.due ≤ b)
def Maddx.due (o : Maddx) : Nat := o.issued + 69 + 66 * o.landed

/-- The accumulator engine still has a read, a landing or a clear due by `b` (R156). -/
def Cell.engineDue (x : Cell) (b : Nat) : Bool :=
  x.accOut.any (fun o => o.readDue b) || x.maddx.any (fun o => decide (o.due ≤ b)) || x.mclr.any (fun o => decide (o.due ≤ b))

/-- The words of `n` accumulator rows from `row`, two to an entry. -/
def accWords (row n : Nat) : List Nat := (List.range (256 * n)).map (fun k => 256 * row + k)

/-- The first MMA in issue order with a row due by `b`. -/
def Cell.mmaDue (x : Cell) (b : Nat) : Option MmaOp := (takeDue (fun o : MmaOp => decide (o.due ≤ b)) x.mma).map (·.1)

/-- MMA_ROW_LANDING: the next row due lands, after the accumulator engine's work of the cycle (R148, R150, R156). Where rows of
two MMAs land at the end of one cycle, that of the MMA issued first is applied first (DESIGN CHOICE, log entry 66). -/
def execMmaRowLanding (c : Nat) (ecc : EccW) (s : State) : Out :=
  let b := s.dueBound c
  let x := s.cell c
  match x.mmaDue b with
  | none => ok s
  | some o =>
    if x.engineDue b then ok s
    else
      let row := o.f.acc.toNat + o.landed
      let s' := if o.f.z then s else s.eccCell c ecc 2 (accWords row 1)
      ok (s'.onCell c (fun y =>
        let y := if !o.f.z && (eccBad ecc 256).isSome then y else { y with acc := landRow y.acc o o.landed }
        let l := y.mma.map (fun q => if q.issued = o.issued then { q with landed := q.landed + 1 } else q)
        { y with mma := l.filter (fun q => decide (q.landed ≤ q.f.rows.toNat)) }))

/-- Accumulator rows that one read of an output takes (R151, R153). -/
def AccOut.rowsRead (o : AccOut) : Nat :=
  match o.kind with
  | .cvt ofmt _ _ _ _ => max 1 (rowsPerLine ofmt)
  | .raw => 1

/-- The lines and rows that one row read forms, in the cell (R151 to R153); `h` gives the random bits of lane and field. -/
def Cell.readRows (x : Cell) (o : AccOut) (h : Nat → Nat → Nat) : Cell :=
  let j := o.reads
  let cnt := o.rowsRead
  let ls := match o.kind with
    | .cvt ofmt rm sat accf sh =>
      if rowsPerLine ofmt = 0 then putLines o.lines (2 * j) 2 (cvtLine x.acc o.acc j 1 ofmt rm sat accf sh h)
      else putLines o.lines j 1 (cvtLine x.acc o.acc (cnt * j) cnt ofmt rm sat accf sh h)
    | .raw =>
      let g := j / 4
      let ls := putLines o.lines (33 * g + 8 * (j % 4)) 8 (rawRow x.acc (o.acc + j))
      let old := (look 0#2048 ls (33 * g + 32)).toNat
      putLines ls (33 * g + 32) 1 (old + rawFlags x.acc (o.acc + j) (j % 4))
  { x with
    acc := if o.clr then zeroRows x.acc (o.acc + cnt * j) cnt else x.acc
    accOut := x.accOut.map (fun q => if q.issued = o.issued then { q with reads := j + 1, lines := ls } else q) }

/-- ACC_ROW_READ: the next row read due is made; with CLR the rows are zeroed at its end (R151 to R153, R156). -/
def execAccRowRead (c : Nat) (ecc : EccW) (s : State) : Out :=
  let b := s.dueBound c
  match (s.cell c).accOut.find? (fun o => o.readDue b) with
  | none => ok s
  | some o =>
    let n := o.rowsRead
    let s' := s.eccCell c ecc 2 (accWords (o.acc + n * o.reads) n)
    if (eccBad ecc (256 * n)).isSome then ok s'
    else
      let off := (s.cellPart c).offset - (s.cycle - o.due)
      let fld (i : Nat) : Nat := match o.kind with
        | .cvt ofmt _ _ _ _ => if rowsPerLine ofmt = 0 then 0 else i
        | .raw => 0
      let s' := s'.onCell c (fun x => x.readRows o (fun n i => s.srBits c off n (fld i) 0x01))
      ok (match o.kind with
        | .cvt ofmt 2 _ _ _ => s'.count (locCell c) 0x00C (128 * max 1 (rowsPerLine ofmt))
        | _ => s')

/-- MADDX_GROUP_LANDING: the next group due lands, after the row reads of the cycle, which see the accumulator store as it stood
at its start (R154, R156, Table 6.10). -/
def execMaddxGroupLanding (c : Nat) (ecc : EccW) (s : State) : Out :=
  let b := s.dueBound c
  match takeDue (fun o : Maddx => decide (o.due ≤ b)) (s.cell c).maddx with
  | none => ok s
  | some (o, _) =>
    if (s.cell c).accOut.any (fun q => q.readDue b) then ok s
    else
      let s' := if o.z then s else s.eccCell c ecc 2 (accWords (o.acc + 4 * o.landed) 4)
      ok (s'.onCell c (fun y =>
        let y := if !o.z && (eccBad ecc 1024).isSome then y else { y with acc := landGroup y.acc o o.landed }
        let l := y.maddx.map (fun q => if q.issued = o.issued then { q with landed := q.landed + 1 } else q)
        { y with maddx := l.filter (fun q => decide (4 * q.landed < q.rows)) }))

/-- MCLR_ZEROING: rows due are zeroed with their flags (Table 6.10). -/
def execMclrZeroing (c : Nat) (s : State) : Out :=
  let b := s.dueBound c
  ok (s.onCell c (fun x =>
    (x.mclr.filter (fun o => decide (o.due ≤ b))).foldl (fun x o => { x with acc := zeroRows x.acc o.acc o.rows })
      { x with mclr := x.mclr.filter (fun o => decide (b < o.due)) }))

end Sys2Proof.Machine
end

