-- ==== Sys2Proof/Machine/CellScalar.lean ====
section
/-! DEFINITION. Scalar arithmetic, loads and stores, predicates and plan-time instructions (03_cell_scalar.md), loop headers
and address-generator instructions (04_vector_and_loops.md). -/

namespace Sys2Proof.Machine

/-- Register–register arithmetic (Table 3.9) on the ALU or the multiplier. -/
def issueRR (func lat : Nat) (op : Word → Word → Word) (c : Nat) (f : RR) (s : State) : State :=
  issue c f.en (f.word func) (fun x => simpleIssue f.legal (fun y =>
    y.result s.cycle lat (.g f.rd.toNat (op (x.readG f.ra.toNat) (x.readG f.rb.toNat))))) s

/-- DIV.U64 and REM.U64: the divider is occupied for 34 cycles from issue (Table 3.4); issue to it while occupied is
UNIT_BUSY (R69). -/
def issueDiv (func : Nat) (op : Word → Word → Word) (c : Nat) (f : RR) (s : State) : State :=
  issue c f.en (f.word func) (fun x =>
    { always := cause (!f.legal) 0x01 ++ cause (decide (s.cycle < x.divFree)) 0x04
      whenEn := []
      slots := 1
      hold := fun y => { y with divFree := s.cycle + 34 }
      effect := fun y =>
        y.result s.cycle 34 (.g f.rd.toNat (op (x.readG f.ra.toNat) (x.readG f.rb.toNat))) }) s

/-- Register–immediate arithmetic (Table 3.10). -/
def issueRI (opc lat : Nat) (legal : Bool) (op : Word → BitVec 32 → Word) (c : Nat) (f : RI) (s : State) : State :=
  issue c f.en (f.word opc) (fun x => simpleIssue legal (fun y =>
    y.result s.cycle lat (.g f.rd.toNat (op (x.readG f.ra.toNat) f.imm)))) s

/-- Unsigned quotient; division by zero gives all ones (R84). -/
def divU (a b : Word) : Word := if b = 0 then BitVec.allOnes 64 else a / b
/-- Unsigned remainder; division by zero gives the dividend (R84). -/
def remU (a b : Word) : Word := if b = 0 then a else a % b
/-- High half of the unsigned 128-bit product. -/
def mulhU (a b : Word) : Word := BitVec.ofNat 64 (a.toNat * b.toNat / 2 ^ 64)
/-- The shift amount b[5:0]. -/
def shamt (b : Word) : Nat := b.toNat % 64
/-- LIH.B64: IMM32 in the high half, a[31:0] in the low. -/
def lih (a : Word) (i : BitVec 32) : Word := i ++ a.setWidth 32


/-- FUNC 0x00 of Table 3.9. -/
def execAddI64 (c : Nat) (f : RR) (s : State) : Out := ok (issueRR 0x00 1 (fun a b => a + b) c f s)

/-- FUNC 0x01 of Table 3.9. -/
def execSubI64 (c : Nat) (f : RR) (s : State) : Out := ok (issueRR 0x01 1 (fun a b => a - b) c f s)

/-- FUNC 0x02 of Table 3.9. -/
def execAndB64 (c : Nat) (f : RR) (s : State) : Out := ok (issueRR 0x02 1 (fun a b => a &&& b) c f s)

/-- FUNC 0x03 of Table 3.9. -/
def execOrB64 (c : Nat) (f : RR) (s : State) : Out := ok (issueRR 0x03 1 (fun a b => a ||| b) c f s)

/-- FUNC 0x04 of Table 3.9. -/
def execXorB64 (c : Nat) (f : RR) (s : State) : Out := ok (issueRR 0x04 1 (fun a b => a ^^^ b) c f s)

/-- FUNC 0x05 of Table 3.9. -/
def execShlB64 (c : Nat) (f : RR) (s : State) : Out := ok (issueRR 0x05 1 (fun a b => a <<< shamt b) c f s)

/-- FUNC 0x06 of Table 3.9. -/
def execShrU64 (c : Nat) (f : RR) (s : State) : Out := ok (issueRR 0x06 1 (fun a b => a >>> shamt b) c f s)

/-- FUNC 0x07 of Table 3.9. -/
def execSarS64 (c : Nat) (f : RR) (s : State) : Out := ok (issueRR 0x07 1 (fun a b => a.sshiftRight (shamt b)) c f s)

/-- FUNC 0x08 of Table 3.9. -/
def execMinS64 (c : Nat) (f : RR) (s : State) : Out := ok (issueRR 0x08 1 (fun a b => if a.sle b then a else b) c f s)

/-- FUNC 0x09 of Table 3.9. -/
def execMaxS64 (c : Nat) (f : RR) (s : State) : Out := ok (issueRR 0x09 1 (fun a b => if b.sle a then a else b) c f s)

/-- FUNC 0x0A of Table 3.9. -/
def execMinU64 (c : Nat) (f : RR) (s : State) : Out := ok (issueRR 0x0A 1 (fun a b => if a.ule b then a else b) c f s)

/-- FUNC 0x0B of Table 3.9. -/
def execMaxU64 (c : Nat) (f : RR) (s : State) : Out := ok (issueRR 0x0B 1 (fun a b => if b.ule a then a else b) c f s)

/-- FUNC 0x0C of Table 3.9. -/
def execMulI64 (c : Nat) (f : RR) (s : State) : Out := ok (issueRR 0x0C 3 (fun a b => a * b) c f s)

/-- FUNC 0x0D of Table 3.9. -/
def execMulhU64 (c : Nat) (f : RR) (s : State) : Out := ok (issueRR 0x0D 3 (mulhU) c f s)

/-- FUNC 0x0E of Table 3.9 (R84). -/
def execDivU64 (c : Nat) (f : RR) (s : State) : Out := ok (issueDiv 0x0E divU c f s)

/-- FUNC 0x0F of Table 3.9 (R84). -/
def execRemU64 (c : Nat) (f : RR) (s : State) : Out := ok (issueDiv 0x0F remU c f s)

/-- OPC 0x02 of Table 3.10. -/
def execAddiI64 (c : Nat) (f : RI) (s : State) : Out :=
  ok (issueRI 0x02 1 f.legal (fun a i => a + imm64 i) c f s)

/-- OPC 0x03 of Table 3.10. -/
def execAndiB64 (c : Nat) (f : RI) (s : State) : Out :=
  ok (issueRI 0x03 1 f.legal (fun a i => a &&& imm64 i) c f s)

/-- OPC 0x04 of Table 3.10. -/
def execOriB64 (c : Nat) (f : RI) (s : State) : Out :=
  ok (issueRI 0x04 1 f.legal (fun a i => a ||| imm64 i) c f s)

/-- OPC 0x05 of Table 3.10. -/
def execXoriB64 (c : Nat) (f : RI) (s : State) : Out :=
  ok (issueRI 0x05 1 f.legal (fun a i => a ^^^ imm64 i) c f s)

/-- OPC 0x06 of Table 3.10 (R85). -/
def execShliB64 (c : Nat) (f : RI) (s : State) : Out :=
  ok (issueRI 0x06 1 f.legalShift (fun a i => a <<< (i.toNat % 64)) c f s)

/-- OPC 0x07 of Table 3.10 (R85). -/
def execShriU64 (c : Nat) (f : RI) (s : State) : Out :=
  ok (issueRI 0x07 1 f.legalShift (fun a i => a >>> (i.toNat % 64)) c f s)

/-- OPC 0x08 of Table 3.10 (R85). -/
def execSariS64 (c : Nat) (f : RI) (s : State) : Out :=
  ok (issueRI 0x08 1 f.legalShift (fun a i => a.sshiftRight (i.toNat % 64)) c f s)

/-- OPC 0x09 of Table 3.10. -/
def execLihB64 (c : Nat) (f : RI) (s : State) : Out :=
  ok (issueRI 0x09 1 f.legal (lih) c f s)

/-- OPC 0x0A of Table 3.10. -/
def execMuliI64 (c : Nat) (f : RI) (s : State) : Out :=
  ok (issueRI 0x0A 3 f.legal (fun a i => a * imm64 i) c f s)

/-- Bytes of a SIZE code (Table 3.11). -/
def sizeBytes (sz : Nat) : Nat := 2 ^ (sz / 2)

/-- The address of a load or store. -/
def memEa (x : Cell) (f : MemF) : Nat := (x.readG f.ra.toNat + imm64 f.imm).toNat

/-- A load or store (R86, Table 3.12): ADDRESS and ALIGN in the issue cycle, the access in cycle t + 1 or t + 2 (R68). -/
def issueMem (opc : Nat) (sizes : List Nat) (cs store : Bool) (c : Nat) (f : MemF) (s : State) : State :=
  issue c f.en (f.word opc) (fun x =>
    let n := sizeBytes f.size.toNat
    let ea := memEa x f
    let acc (en : Bool) : MemAcc :=
      { due := s.cycle + (if cs then 2 else 1), issued := s.cycle, cs, en, store, rd := f.rd.toNat, ea, n
        sx := f.size.getLsbD 0, data := x.readG f.rd.toNat }
    { always := cause (!f.legal sizes) 0x01
      whenEn := cause (decide ((if cs then csBytes else sdmBytes) ≤ ea)) 0x02 ++ cause (decide (ea % n ≠ 0)) 0x03
      slots := 1
      hold := fun y => { y with macc := y.macc ++ [acc false] }
      effect := fun y => { y with macc := y.macc.dropLast ++ [acc true] } }) s

/-- LD (Tables 3.11, 3.12). -/
def execLd (c : Nat) (f : MemF) (s : State) : Out := ok (issueMem 0x10 [0, 1, 2, 3, 4, 5, 6] false false c f s)
/-- ST (Tables 3.11, 3.12). -/
def execSt (c : Nat) (f : MemF) (s : State) : Out := ok (issueMem 0x11 [0, 2, 4, 6] false true c f s)
/-- LDX (Tables 3.11, 3.12). -/
def execLdx (c : Nat) (f : MemF) (s : State) : Out := ok (issueMem 0x12 [4, 5, 6] true false c f s)
/-- STX (Tables 3.11, 3.12). -/
def execStx (c : Nat) (f : MemF) (s : State) : Out := ok (issueMem 0x13 [4, 6] true true c f s)

/-- A compare (Table 3.13), latency 1. -/
def issueCmpR (cond : Nat) (c : Nat) (f : CmpR) (s : State) : State :=
  issue c f.en (f.word cond) (fun x => simpleIssue f.legal (fun y =>
    y.result s.cycle 1 (.p [(f.pd.toNat, condHolds cond (x.readG f.ra.toNat) (x.readG f.rb.toNat))]))) s

/-- A compare with an immediate (Table 3.13), latency 1. -/
def issueCmpI (cond : Nat) (c : Nat) (f : CmpI) (s : State) : State :=
  issue c f.en (f.word cond) (fun x => simpleIssue f.legal (fun y =>
    y.result s.cycle 1 (.p [(f.pd.toNat, condHolds cond (x.readG f.ra.toNat) (imm64 f.imm))]))) s

/-- COND 0 of Table 3.13. -/
def execCeqI64 (c : Nat) (f : CmpR) (s : State) : Out := ok (issueCmpR 0 c f s)
/-- COND 1 of Table 3.13. -/
def execCneI64 (c : Nat) (f : CmpR) (s : State) : Out := ok (issueCmpR 1 c f s)
/-- COND 2 of Table 3.13. -/
def execCltS64 (c : Nat) (f : CmpR) (s : State) : Out := ok (issueCmpR 2 c f s)
/-- COND 3 of Table 3.13. -/
def execCgeS64 (c : Nat) (f : CmpR) (s : State) : Out := ok (issueCmpR 3 c f s)
/-- COND 4 of Table 3.13. -/
def execCltU64 (c : Nat) (f : CmpR) (s : State) : Out := ok (issueCmpR 4 c f s)
/-- COND 5 of Table 3.13. -/
def execCgeU64 (c : Nat) (f : CmpR) (s : State) : Out := ok (issueCmpR 5 c f s)
/-- COND 0 of Table 3.13, RI form. -/
def execCeqiI64 (c : Nat) (f : CmpI) (s : State) : Out := ok (issueCmpI 0 c f s)
/-- COND 1 of Table 3.13, RI form. -/
def execCneiI64 (c : Nat) (f : CmpI) (s : State) : Out := ok (issueCmpI 1 c f s)
/-- COND 2 of Table 3.13, RI form. -/
def execCltiS64 (c : Nat) (f : CmpI) (s : State) : Out := ok (issueCmpI 2 c f s)
/-- COND 3 of Table 3.13, RI form. -/
def execCgeiS64 (c : Nat) (f : CmpI) (s : State) : Out := ok (issueCmpI 3 c f s)
/-- COND 4 of Table 3.13, RI form. -/
def execCltiU64 (c : Nat) (f : CmpI) (s : State) : Out := ok (issueCmpI 4 c f s)
/-- COND 5 of Table 3.13, RI form. -/
def execCgeiU64 (c : Nat) (f : CmpI) (s : State) : Out := ok (issueCmpI 5 c f s)

/-- Predicate logic (Table 3.14), latency 1. -/
def issuePl (func : Nat) (legal : Bool) (op : Bool → Bool → Bool) (c : Nat) (f : PlF) (s : State) : State :=
  issue c f.en (f.word func) (fun x => simpleIssue legal (fun y =>
    y.result s.cycle 1 (.p [(f.pd.toNat, op (x.readP f.pa.toNat) (x.readP f.pb.toNat))]))) s

/-- FUNC 0 of OPC 0x1A (Table 3.14). -/
def execPandP (c : Nat) (f : PlF) (s : State) : Out := ok (issuePl 0 f.legal (fun a b => a && b) c f s)
/-- FUNC 1 of OPC 0x1A (Table 3.14). -/
def execPorP (c : Nat) (f : PlF) (s : State) : Out := ok (issuePl 1 f.legal (fun a b => a || b) c f s)
/-- FUNC 2 of OPC 0x1A (Table 3.14). -/
def execPxorP (c : Nat) (f : PlF) (s : State) : Out := ok (issuePl 2 f.legal (fun a b => a ^^ b) c f s)
/-- FUNC 3 of OPC 0x1A (Table 3.14). -/
def execPandnP (c : Nat) (f : PlF) (s : State) : Out := ok (issuePl 3 f.legal (fun a b => a && !b) c f s)
/-- FUNC 4 of OPC 0x1A (Table 3.14). -/
def execPsetP (c : Nat) (f : PlF) (s : State) : Out := ok (issuePl 4 f.legalConst (fun _ _ => true) c f s)
/-- FUNC 5 of OPC 0x1A (Table 3.14). -/
def execPclrP (c : Nat) (f : PlF) (s : State) : Out := ok (issuePl 5 f.legalConst (fun _ _ => false) c f s)

/-- PRD.P16: the predicate word, bit 0 reading 1 (Table 3.14). -/
def execPrdP16 (c : Nat) (f : PmF) (s : State) : Out :=
  ok (issue c f.en (f.word 0) (fun x => simpleIssue f.legalRead (fun y =>
    y.result s.cycle 1 (.g f.rd.toNat (predWord x.readP)))) s)

/-- PWR.P16: predicates 1 to 15 under MASK; MASK[0] is ignored (Table 3.14). -/
def execPwrP16 (c : Nat) (f : PmF) (s : State) : Out :=
  ok (issue c f.en (f.word 1) (fun x => simpleIssue f.legalWrite (fun y =>
    y.result s.cycle 1 (.p (((List.range 16).filter (fun i => decide (1 ≤ i) && f.mask.getLsbD i)).map
      (fun i => (i, (x.readG f.ra.toNat).getLsbD i)))))) s)

/-- RDSR.I64 (R63, Table 3.3), latency 1. -/
def execRdsrI64 (c : Nat) (f : SrF) (s : State) : Out :=
  ok (issue c f.en f.word (fun _ => simpleIssue f.legal (fun y =>
    y.result s.cycle 1 (.g f.rd.toNat (s.special c f.sr.toNat)))) s)

/-- NOP.C, or the issue of a word that no instruction has, which is ILLEGAL (R83). -/
def execNopC (c : Nat) (w : Word) (fecc : Ecc) (s : State) : Out :=
  ok (issue c (enOf w fecc) w (fun _ => simpleIssue (nopLegal w) id) s)

/-- A word that may not issue as a body instruction (R112). -/
def inBody (x : Cell) : List Nat := cause x.loop.isSome 0x10

/-- WAIT.C holds the slot for COUNT + 1 cycles (Table 3.15, R91). -/
def execWaitC (c : Nat) (f : Ctl) (s : State) : Out :=
  ok (issue c f.en (f.word 0x21) (fun _ =>
    { simpleIssue f.legalWait id with slots := f.lo.toNat + 1 }) s)

/-- WAITO.C holds the slot to step offset G[ra]; WAIT_PAST when that offset has passed, enabled or not (R90, R91). -/
def execWaitoC (c : Nat) (f : Ctl) (s : State) : Out :=
  ok (issue c f.en (f.word 0x22) (fun x =>
    let o := (s.cellPart c).offset
    let t := (x.readG f.ra.toNat).toNat
    { always := cause (!f.legalWaito) 0x01 ++ cause (decide (t ≤ o)) 0x05 ++ inBody x
      whenEn := []
      slots := t - o
      hold := id
      effect := id }) s)

/-- STEPEND.C: the cell issues nothing further in the step (R72, R92). -/
def execStependC (c : Nat) (f : Ctl) (s : State) : Out :=
  ok (issue c f.en (f.word 0x23) (fun x =>
    { always := cause (!f.legalStepend) 0x01 ++ inBody x
      whenEn := []
      slots := 1
      hold := fun y => { y with stepEnd := true }
      effect := id }) s)

/-- The opcode of a word. -/
def opcOf (w : Word) : Nat := w.toNat / 2 ^ 58

/-- A body of `n` words after address `h` holds LOOP.C, WAITO.C or STEPEND.C (R112). -/
def bodyBad (b : Bank) (h n : Nat) : Bool :=
  (List.range n).any (fun j => [0x24, 0x22, 0x23].contains (opcOf (look 0#64 b.words (h + 1 + j))))

/-- LOOP.C (R112 to R118): counters go to 0, the body starts, skipped or not; FETCH_END and BODY_ILLEGAL whether or not it
is enabled. A skipped command is counted. -/
def execLoopC (c : Nat) (f : LoopF) (s : State) : Out :=
  let run := issue c f.en f.word (fun x =>
    let h := x.pc
    let n := f.body.toNat + 1
    let st (en : Bool) : LoopSt :=
      { h, n, d := f.depth.toNat + 1, trip0 := f.trip0.toNat + 1, trip1 := f.trip1.toNat + 1,
        trip2 := f.trip2.toNat + 1, trip3 := f.trip3.toNat + 1, en }
    { always := cause (!f.legal) 0x01 ++ cause (decide (8191 < h + n)) 0x07 ++ inBody x
        ++ cause (bodyBad (x.bank (s.bankOf c)) h n) 0x10
      whenEn := []
      slots := 1
      hold := fun y => { y with lc := [], loop := some (st false) }
      effect := fun y => { y with loop := some (st true) } }) s
  let started := match (run.cell c).loop with
    | some l => s.canIssue c && !l.en && (run.cell c).fault.isNone
    | none => false
  ok (if started then run.count (locCell c) 0x004 1 else run)

/-- The sum an address-generator instruction forms: G[ra] + sext(IMM32, 32). -/
def agSum (x : Cell) (f : AgF) : Word := x.readG f.ra.toNat + imm64 f.imm

/-- AGSET.A24 (Table 4.11); an enabled FIELD 5 whose window passes 6,144 lines is AG_WINDOW (R110). In a skipped body it writes no
register, as R115 says, although R116 has a0 to a15 end as after the enabled command (DESIGN CHOICE, log entry 66). -/
def execAgsetA24 (c : Nat) (f : AgF) (s : State) : Out :=
  ok (issue c f.en (f.word 0x25) (fun x =>
    let v := agSum x f
    { always := cause (!f.legalSet) 0x01
      whenEn := cause (decide (f.field = 5) && decide (v.toNat % 2 ^ 13 + v.toNat / 2 ^ 16 % 2 ^ 13 > 6144)) 0x13
      slots := 1
      hold := id
      effect := fun y => y.result s.cycle 1 (.agSet f.ag.toNat f.field.toNat v) }) s)

/-- AGADD.A24: ADDR moves under the wrap rule (Table 4.11, R111). -/
def execAgaddA24 (c : Nat) (f : AgF) (s : State) : Out :=
  ok (issue c f.en (f.word 0x27) (fun x => simpleIssue f.legalAdd (fun y =>
    y.result s.cycle 1 (.agMove f.ag.toNat (agSum x f).toInt))) s)

/-- AGRD.U24 (Table 4.11). -/
def execAgrdU24 (c : Nat) (f : AgRdF) (s : State) : Out :=
  ok (issue c f.en (f.word 0) (fun x => simpleIssue f.legal (fun y =>
    y.result s.cycle 1 (.g f.rd.toNat ((x.agen f.idx.toNat).addr.setWidth 64)))) s)

/-- LCRD.U11 reads the counter of the current iteration (Table 4.11, R118). -/
def execLcrdU11 (c : Nat) (f : AgRdF) (s : State) : Out :=
  ok (issue c f.en (f.word 1) (fun x => simpleIssue f.legalLc (fun y =>
    y.result s.cycle 1 (.g f.rd.toNat (BitVec.ofNat 64 (look 0 x.lc f.idx.toNat))))) s)

end Sys2Proof.Machine
end

