-- ==== Sys2Proof/Machine/DryCell.lean ====
section
/-! DEFINITION. A cell in the Sieve's dry run (R411): what is derivable in it, and one instruction with every value that is not
derivable taken as the one that lets it go on. -/

namespace Sys2Proof.Machine

/-! ### What is not derivable -/

/-- The registers of a cell whose values are not derivable: g and p by number, v as 64 × register + lane, generators as 8 × number + field
(0 ADDR, 1 to 4 the increments, 5 the window); the results in flight, each with 1 in place of a value that is not derivable and 0 of one
that is; and the issue cycles of the accesses whose address is not derivable. -/
structure Marks where
  g    : List Nat := []
  p    : List Nat := []
  v    : List Nat := []
  ag   : List Nat := []
  pend : List PendRes := []
  wild : List Nat := []
  deriving DecidableEq, Repr

def setMark (l : List Nat) (k : Nat) (b : Bool) : List Nat := if b then (if l.contains k then l else k :: l) else l.filter (fun x => decide (x ≠ k))

/-- A result lands: its register is derivable or not as the result is; g0 and p0 always are. -/
def Marks.landOne (k : Marks) (w : RegWrite) : Marks :=
  match w with
  | .g r v => if r = 0 then k else { k with g := setMark k.g r (decide (v ≠ 0)) }
  | .p l => { k with p := l.foldl (fun m e => if e.1 = 0 then m else setMark m e.1 e.2) k.p }
  | .v r l => { k with v := l.foldl (fun m e => setMark m (64 * r + e.1) (decide (e.2 ≠ 0))) k.v }
  | .agSet a f v => { k with ag := setMark k.ag (8 * a + f) (decide (v ≠ 0)) }
  | .agMove a d => if d ≠ 0 ∨ k.ag.contains (8 * a + 5) then { k with ag := setMark k.ag (8 * a) true } else k

def Marks.land (k : Marks) (t : Nat) : Marks :=
  (sortRes (k.pend.filter (fun r => decide (r.due ≤ t)))).foldl (fun k r => k.landOne r.w)
    { k with pend := k.pend.filter (fun r => decide (t < r.due)) }

/-- The generators after an iteration end at level `lv`. -/
def Marks.iterEnd (k : Marks) (lv : Nat) : Marks :=
  { k with ag := (List.range 16).foldl (fun m a =>
      if m.contains (8 * a + 1 + lv) || m.contains (8 * a + 5) then setMark m (8 * a) true else m) k.ag }

/-- What `Cell.settle` does to a cell, done to its marks. -/
def Marks.settle (k : Marks) (x : Cell) (t : Nat) : Marks :=
  if t = 0 then k
  else
    match x.loop with
    | none => k.land (t - 1)
    | some l =>
      if x.iterDone && decide (x.issueFree ≤ t) then
        ((k.land (x.issueFree - 1)).iterEnd ((advLevel (x.land (x.issueFree - 1)) l 0 4).getD (l.d - 1))).land (t - 1)
      else k.land (t - 1)

/-! ### What an instruction reads -/

/-- Lane `l` of register `r`, and any lane of it that `m` selects. -/
def Marks.lane (k : Marks) (r l : Nat) : Bool := k.v.contains (64 * r + l)
def Marks.lanes (k : Marks) (m : Word) (r : Nat) : Bool := (List.range 64).any (fun l => m.getLsbD l && k.lane r l)
def Marks.reg (k : Marks) (r : Nat) : Bool := decide (r ≠ 0) && k.g.contains r

/-- The result of a vector instruction in lane `l` is not derivable, apart from its mask (R95 to R108); one that draws random bits never
is. -/
def Marks.vecBad (k : Marks) (opc fn : Nat) (f : VecF) (m : Word) (l : Nat) : Bool :=
  let a := k.lane f.va.toNat l
  let b := if f.bc then k.reg f.vb.toNat else k.lane f.vb.toNat l
  let rm := decide (f.rm = 2)
  match opc with
  | 0x28 => if fn = 3 then a || b || k.lane f.vc.toNat l else if fn = 6 ∨ fn = 7 then a else a || b
  | 0x29 => a || b
  | 0x2A => a
  | 0x2B => k.lanes m f.va.toNat || k.lanes m f.vb.toNat
  | 0x2C => k.lanes m f.va.toNat
  | 0x2F =>
    if fn = 0x20 then a || k.reg f.vb.toNat || rm
    else if 2 ≤ fn ∧ fn ≤ 0xA then a || k.lane f.vd.toNat l || rm
    else a || rm
  | 0x30 =>
    match fn with
    | 0 => a
    | 1 => k.reg f.va.toNat
    | 2 => false
    | 3 => k.lanes (BitVec.allOnes 64) f.va.toNat || k.lane f.vb.toNat l
    | 4 => k.reg f.va.toNat || k.reg f.vb.toNat
    | _ => k.lanes (BitVec.allOnes 64) f.va.toNat || k.reg f.vb.toNat
  | _ => false

/-- The result of word `w` is not derivable (in lane `l`), apart from its predicate (R411): PLAN_TIME, PART_ID, PCELL_ID and STEP_NO are
not, LCRD is. -/
def Marks.valueBad (k : Marks) (x : Cell) (w : Word) (l : Nat) : Bool :=
  let f := rrOf w .ok
  let opc := opcOf w
  match opc with
  | 0x01 => k.reg f.ra.toNat || k.reg f.rb.toNat
  | 0x18 => k.reg (cmpROf w .ok).ra.toNat || k.reg (cmpROf w .ok).rb.toNat
  | 0x19 => k.reg (cmpIOf w .ok).ra.toNat
  | 0x1A => let q := plOf w .ok; k.p.contains q.pa.toNat || k.p.contains q.pb.toNat
  | 0x1B => if fieldOf w 40 3 = 0 then !k.p.isEmpty else k.reg (pmOf w .ok).ra.toNat
  | 0x20 => [0, 1, 3, 4].contains (srOf w .ok).sr.toNat
  | 0x25 => k.reg (agOf w .ok).ra.toNat
  | 0x26 => decide (fieldOf w 46 2 = 0) && k.ag.contains (8 * (agRdOf w .ok).idx.toNat)
  | 0x27 => k.reg (agOf w .ok).ra.toNat
  | _ => if opc ≤ 0x0A then k.reg (riOf w .ok).ra.toNat
         else k.vecBad opc (fieldOf w 22 6).toNat (vecOf w .ok) (x.mask (vecOf w .ok).lm) l || k.reg (vecOf w .ok).lm.toNat

/-- The address of word `w` is not derivable. -/
def Marks.addrBad (k : Marks) (x : Cell) (w : Word) : Bool :=
  let f := vecOf w .ok
  match opcOf w with
  | 0x10 => k.reg (memOf w .ok).ra.toNat
  | 0x11 => k.reg (memOf w .ok).ra.toNat
  | 0x12 => k.reg (memOf w .ok).ra.toNat
  | 0x13 => k.reg (memOf w .ok).ra.toNat
  | 0x2D => k.ag.contains (8 * f.agOf)
  | 0x2E => k.ag.contains (8 * f.agOf) || k.reg f.lm.toNat || k.lanes (x.mask f.lm) f.vb.toNat
  | 0x34 => k.ag.contains (8 * (mlwOf w .ok).ag.toNat)
  | 0x35 => k.ag.contains (8 * (mmaOf w .ok).ag.toNat)
  | 0x36 => k.ag.contains (8 * (mcvtOf w .ok).ag.toNat)
  | 0x37 => k.ag.contains (8 * (maccOf w .ok).ag.toNat)
  | 0x38 => k.ag.contains (8 * (maccOf w .ok).ag.toNat)
  | _ => false

/-- The address that word `w` forms. -/
def addrOf (x : Cell) (w : Word) : Nat :=
  match opcOf w with
  | 0x2D => lineEa x (vecOf w .ok)
  | 0x2E => lineEa x (vecOf w .ok)
  | 0x34 => (x.agen (mlwOf w .ok).ag.toNat).addr.toNat
  | 0x35 => (x.agen (mmaOf w .ok).ag.toNat).addr.toNat
  | 0x36 => (x.agen (mcvtOf w .ok).ag.toNat).addr.toNat
  | 0x37 => (x.agen (maccOf w .ok).ag.toNat).addr.toNat
  | 0x38 => (x.agen (maccOf w .ok).ag.toNat).addr.toNat
  | _ => memEa x (memOf w .ok)

/-! ### One instruction -/

/-- `w` enabled whatever the predicates are. -/
def forceWord (w : Word) : Word := w &&& ~~~(BitVec.ofNat 64 (0x1F * 2 ^ 53))

/-- `w` with the part of its address that its immediate gives taken as 0. -/
def tameWord (w : Word) : Word :=
  let n := if (0x10 ≤ opcOf w ∧ opcOf w ≤ 0x13) ∨ opcOf w = 0x25 then 32 else if opcOf w = 0x2D ∨ opcOf w = 0x2E then 16 else 0
  w &&& ~~~(BitVec.ofNat 64 (2 ^ n - 1))

/-- The cell with the registers that form the address of `w` at 0, where no range check fails. -/
def Cell.tame (x : Cell) (w : Word) : Cell :=
  let f := vecOf w .ok
  let opc := opcOf w
  let ag (a : Nat) : Cell := { x with ag := upd {} x.ag a (fun g => { g with addr := 0 }) }
  if (0x10 ≤ opc ∧ opc ≤ 0x13) ∨ opc = 0x25 then { x with g := put 0#64 x.g (riOf w .ok).ra.toNat 0 }
  else if opc = 0x2D then ag f.agOf
  else if opc = 0x2E then
    let y := ag f.agOf
    { y with v := (List.range 64).foldl (fun m l => put 0#32 m (64 * f.vb.toNat + l) 0) y.v }
  else if opc = 0x34 then ag (mlwOf w .ok).ag.toNat
  else if opc = 0x35 then ag (mmaOf w .ok).ag.toNat
  else if opc = 0x36 then ag (mcvtOf w .ok).ag.toNat
  else ag (maccOf w .ok).ag.toNat

/-- The result `r` with what is not derivable in it marked. -/
def markRes (bad : Nat → Bool) (r : PendRes) : PendRes :=
  { r with w := match r.w with
      | .g d _ => .g d (if bad 0 then 1 else 0)
      | .p l => .p (l.map (fun e => (e.1, bad 0)))
      | .v d l => .v d (l.map (fun e => (e.1, if bad e.1 then 1 else 0)))
      | .agSet a f _ => .agSet a f (if bad 0 then 1 else 0)
      | .agMove a _ => .agMove a (if bad 0 then 1 else 0) }

/-- The meaning of a cell instruction. -/
def cellStep (i : Instr) (s : State) : Out :=
  match i with
  | .nopC c w fecc => execNopC c w fecc s
  | .addI64 c f => execAddI64 c f s
  | .subI64 c f => execSubI64 c f s
  | .andB64 c f => execAndB64 c f s
  | .orB64 c f => execOrB64 c f s
  | .xorB64 c f => execXorB64 c f s
  | .shlB64 c f => execShlB64 c f s
  | .shrU64 c f => execShrU64 c f s
  | .sarS64 c f => execSarS64 c f s
  | .minS64 c f => execMinS64 c f s
  | .maxS64 c f => execMaxS64 c f s
  | .minU64 c f => execMinU64 c f s
  | .maxU64 c f => execMaxU64 c f s
  | .mulI64 c f => execMulI64 c f s
  | .mulhU64 c f => execMulhU64 c f s
  | .divU64 c f => execDivU64 c f s
  | .remU64 c f => execRemU64 c f s
  | .addiI64 c f => execAddiI64 c f s
  | .andiB64 c f => execAndiB64 c f s
  | .oriB64 c f => execOriB64 c f s
  | .xoriB64 c f => execXoriB64 c f s
  | .shliB64 c f => execShliB64 c f s
  | .shriU64 c f => execShriU64 c f s
  | .sariS64 c f => execSariS64 c f s
  | .lihB64 c f => execLihB64 c f s
  | .muliI64 c f => execMuliI64 c f s
  | .ld c f => execLd c f s
  | .st c f => execSt c f s
  | .ldx c f => execLdx c f s
  | .stx c f => execStx c f s
  | .ceqI64 c f => execCeqI64 c f s
  | .cneI64 c f => execCneI64 c f s
  | .cltS64 c f => execCltS64 c f s
  | .cgeS64 c f => execCgeS64 c f s
  | .cltU64 c f => execCltU64 c f s
  | .cgeU64 c f => execCgeU64 c f s
  | .ceqiI64 c f => execCeqiI64 c f s
  | .cneiI64 c f => execCneiI64 c f s
  | .cltiS64 c f => execCltiS64 c f s
  | .cgeiS64 c f => execCgeiS64 c f s
  | .cltiU64 c f => execCltiU64 c f s
  | .cgeiU64 c f => execCgeiU64 c f s
  | .pandP c f => execPandP c f s
  | .porP c f => execPorP c f s
  | .pxorP c f => execPxorP c f s
  | .pandnP c f => execPandnP c f s
  | .psetP c f => execPsetP c f s
  | .pclrP c f => execPclrP c f s
  | .prdP16 c f => execPrdP16 c f s
  | .pwrP16 c f => execPwrP16 c f s
  | .rdsrI64 c f => execRdsrI64 c f s
  | .waitC c f => execWaitC c f s
  | .waitoC c f => execWaitoC c f s
  | .stependC c f => execStependC c f s
  | .loopC c f => execLoopC c f s
  | .agsetA24 c f => execAgsetA24 c f s
  | .agrdU24 c f => execAgrdU24 c f s
  | .lcrdU11 c f => execLcrdU11 c f s
  | .agaddA24 c f => execAgaddA24 c f s
  | .vaddF32 c f => execVaddF32 c f s
  | .vsubF32 c f => execVsubF32 c f s
  | .vmulF32 c f => execVmulF32 c f s
  | .vfmaF32 c f => execVfmaF32 c f s
  | .vminF32 c f => execVminF32 c f s
  | .vmaxF32 c f => execVmaxF32 c f s
  | .vabsF32 c f => execVabsF32 c f s
  | .vnegF32 c f => execVnegF32 c f s
  | .vaddI32 c f => execVaddI32 c f s
  | .vsubI32 c f => execVsubI32 c f s
  | .vmulI32 c f => execVmulI32 c f s
  | .vandB32 c f => execVandB32 c f s
  | .vorB32 c f => execVorB32 c f s
  | .vxorB32 c f => execVxorB32 c f s
  | .vshlB32 c f => execVshlB32 c f s
  | .vshrU32 c f => execVshrU32 c f s
  | .vsarS32 c f => execVsarS32 c f s
  | .vminS32 c f => execVminS32 c f s
  | .vmaxS32 c f => execVmaxS32 c f s
  | .vminU32 c f => execVminU32 c f s
  | .vmaxU32 c f => execVmaxU32 c f s
  | .vrcpF32 c f => execVrcpF32 c f s
  | .vsqrtF32 c f => execVsqrtF32 c f s
  | .vrsqrtF32 c f => execVrsqrtF32 c f s
  | .vexp2F32 c f => execVexp2F32 c f s
  | .vlog2F32 c f => execVlog2F32 c f s
  | .vceqF32 c f => execVceqF32 c f s
  | .vcltF32 c f => execVcltF32 c f s
  | .vcleF32 c f => execVcleF32 c f s
  | .vcunF32 c f => execVcunF32 c f s
  | .vceqI32 c f => execVceqI32 c f s
  | .vcltS32 c f => execVcltS32 c f s
  | .vcltU32 c f => execVcltU32 c f s
  | .vcleS32 c f => execVcleS32 c f s
  | .vrsumF32 c f => execVrsumF32 c f s
  | .vrmaxF32 c f => execVrmaxF32 c f s
  | .vrminF32 c f => execVrminF32 c f s
  | .vrsumI32 c f => execVrsumI32 c f s
  | .vmxscE2m1 c f => execVmxscE2m1 c f s
  | .vmxscE2m3 c f => execVmxscE2m3 c f s
  | .vmxscE3m2 c f => execVmxscE3m2 c f s
  | .vmxscE4m3 c f => execVmxscE4m3 c f s
  | .vmxscE5m2 c f => execVmxscE5m2 c f s
  | .vmxscI8 c f => execVmxscI8 c f s
  | .vldL c f => execVldL c f s
  | .vstL c f => execVstL c f s
  | .vgatherU8 c f => execVgatherU8 c f s
  | .vgatherU16 c f => execVgatherU16 c f s
  | .vgatherB32 c f => execVgatherB32 c f s
  | .vscatterB8 c f => execVscatterB8 c f s
  | .vscatterB16 c f => execVscatterB16 c f s
  | .vscatterB32 c f => execVscatterB32 c f s
  | .vcvtI32F32 c f => execVcvtI32F32 c f s
  | .vcvtF32I32 c f => execVcvtF32I32 c f s
  | .vpkBf16 c f => execVpkBf16 c f s
  | .vpkF16 c f => execVpkF16 c f s
  | .vpkE4m3 c f => execVpkE4m3 c f s
  | .vpkE5m2 c f => execVpkE5m2 c f s
  | .vpkE2m3 c f => execVpkE2m3 c f s
  | .vpkE3m2 c f => execVpkE3m2 c f s
  | .vpkE2m1 c f => execVpkE2m1 c f s
  | .vpkI8 c f => execVpkI8 c f s
  | .vpkI4 c f => execVpkI4 c f s
  | .vunpkBf16 c f => execVunpkBf16 c f s
  | .vunpkF16 c f => execVunpkF16 c f s
  | .vunpkE4m3 c f => execVunpkE4m3 c f s
  | .vunpkE5m2 c f => execVunpkE5m2 c f s
  | .vunpkE2m3 c f => execVunpkE2m3 c f s
  | .vunpkE3m2 c f => execVunpkE3m2 c f s
  | .vunpkE2m1 c f => execVunpkE2m1 c f s
  | .vunpkI8 c f => execVunpkI8 c f s
  | .vunpkI4 c f => execVunpkI4 c f s
  | .vscaleE8m0 c f => execVscaleE8m0 c f s
  | .vmovB32 c f => execVmovB32 c f s
  | .vbcastB32 c f => execVbcastB32 c f s
  | .viotaI32 c f => execViotaI32 c f s
  | .vpermB32 c f => execVpermB32 c f s
  | .vinsB32 c f => execVinsB32 c f s
  | .vextB32 c f => execVextB32 c f s
  | .mlw c f => execMlw c f s
  | .mma c f wecc => execMma c f wecc s
  | .mcvt c f => execMcvt c f s
  | .mstxX128 c f => execMstxX128 c f s
  | .maddxX128 c f => execMaddxX128 c f s
  | .mclrX128 c f => execMclrX128 c f s
  | _ => ok s

def cellNext (i : Instr) (s : State) : State :=
  match cellStep i s with
  | .next t => t
  | _ => s

/-- What a dry issue finds: the code of a cause (Table 3.16) with the address that it concerns. -/
abbrev DryCause := Nat × Nat

/-- The instruction of cell `c` in this cycle, where it issues: the cell is as at the start of the cycle. One whose predicate is not
derivable, or every one when `on`, is enabled; an address that is not derivable is in range; a cause of an address or of WAITO.C is noted
and the instruction goes on. The answer gives the marks and the causes met. -/
def State.dryIssue (s : State) (c : Nat) (k : Marks) (on : Bool) : State × Marks × List DryCause :=
  if !s.canIssue c then (s, k, [])
  else
    let t := s.cycle
    let x := s.cell c
    let w0 := look 0#64 (x.bank (s.bankOf c)).words x.pc
    let pb := k.p.contains (enOf w0 .ok).pred.toNat
    let w := if on || pb then forceWord w0 else w0
    let ab := k.addrBad x w
    let wait := decide (opcOf w = 0x22)
    let wb := wait && k.reg (ctlOf w .ok).ra.toNat
    let win := decide (opcOf w = 0x25) && k.reg (agOf w .ok).ra.toNat
    let mb := decide (0x28 ≤ opcOf w ∧ opcOf w ≤ 0x30) && k.reg (vecOf w .ok).lm.toNat
    let run (y : Cell) (w : Word) : State := cellNext ((cellInstr c w .ok).getD (.nopC c w .ok)) (s.setCell c y)
    let all (y : Cell) : Cell := if mb then { y with g := put 0#64 y.g (vecOf w .ok).lm.toNat (BitVec.allOnes 64) } else y
    let late (y : Cell) : Cell := { y with g := put 0#64 y.g (ctlOf w .ok).ra.toNat (BitVec.ofNat 64 ((s.cellPart c).offset + 1)) }
    let tamed : State := run (all (x.tame w)) (tameWord w)
    let first : State := if ab || win then tamed else if wb then run (late x) w else run (all x) w
    let code := ((first.cell c).fault.map (·.code)).getD 0
    let (s1, notes) : State × List DryCause :=
      if code = 0 then (first, if wb then [(0x05, 0)] else [])
      else if code = 0x02 ∨ code = 0x03 ∨ code = 0x12 ∨ code = 0x20 then (tamed, [(code, addrOf x w)])
      else if code = 0x13 then (tamed, [])
      else if code = 0x05 then (run (late x) w, [(code, 0)])
      else (first, [(code, 0)])
    let y := s1.cell c
    let s2 := { s1 with raised := s.raised }.setCell c { y with g := x.g, p := x.p, v := x.v, ag := x.ag }
    let news := (y.pend.drop x.pend.length).map (markRes (fun l => pb || mb || k.valueBad x w l))
    (s2, { k with pend := k.pend ++ news, wild := if ab then t :: k.wild else k.wild }, notes)

/-- One event of the cell; the results that come of memory are not derivable. -/
def dryEvent (f : State → Out) (c : Nat) (e : State × Marks) : State × Marks :=
  let n := (e.1.cell c).pend.length
  match f e.1 with
  | .next s => (s, { e.2 with pend := e.2.pend ++ ((s.cell c).pend.drop n).map (markRes (fun _ => true)) })
  | _ => e

def dryTimes (f : State → Out) (c : Nat) : Nat → State × Marks → State × Marks
  | 0, e => e
  | n + 1, e => dryTimes f c n (dryEvent f c e)

/-- The events of cell `c` in this cycle. -/
def dryEvents (c : Nat) (e : State × Marks) : State × Marks :=
  [execScalarMemoryAccess c .ok, execVectorPortAccess c [], execWeightLineWrite c, execWeightTagSet c, execAccRowRead c [],
   execMaddxGroupLanding c [], execMclrZeroing c, execMmaRowLanding c []].foldl (fun e f => dryTimes f c 4 e) e

end Sys2Proof.Machine
end

