-- ==== Sys2Proof/Machine/Codes.lean ====
section
/-! DEFINITION. The codes the memories and the links use: Reed-Solomon over GF(2^m) (R208, R285), PRBS31 (R285), AES-256-XTS
with a data unit of 256 B (R216, R253). Symbols, bytes and polynomials are numbers. -/

namespace Sys2Proof.Machine

/-! ### Reed-Solomon codes -/

/-- `a` times x modulo a field polynomial of degree `m`. -/
def gfDouble (m poly a : Nat) : Nat := if 2 ^ m ≤ 2 * a then Nat.xor (2 * a) poly else 2 * a

/-- The product of two symbols of GF(2^m), by the `n` low bits of `b`. -/
def gfMulBits (m poly : Nat) : Nat → Nat → Nat → Nat
  | 0, _, _ => 0
  | n + 1, a, b => Nat.xor (if b % 2 = 1 then a else 0) (gfMulBits m poly n (gfDouble m poly a) (b / 2))

def gfMul (m poly a b : Nat) : Nat := gfMulBits m poly m a b

/-- A polynomial times x + r; coefficients from the highest power down. -/
def polyStep (m poly r : Nat) (l : List Nat) : List Nat :=
  List.zipWith Nat.xor (l ++ [0]) (0 :: l.map (gfMul m poly r))

/-- The product of x - α^i for i = 0 to n - 1, α = x; coefficients from the highest power down. -/
def rsGen (m poly n : Nat) : List Nat :=
  ((List.range n).foldl (fun (e : List Nat × Nat) _ => (polyStep m poly e.2 e.1, gfDouble m poly e.2)) ([1], 1)).1

/-- The check symbols of data symbols: the remainder of the data polynomial, times x to the number of check symbols, by the
generator `g`, whose leading coefficient is 1. -/
def rsCheck (m poly : Nat) (g data : List Nat) : List Nat :=
  data.foldl (fun r d =>
    let q := Nat.xor d (r.headD 0)
    List.zipWith Nat.xor (r.drop 1 ++ [0]) ((g.drop 1).map (gfMul m poly q))) ((g.drop 1).map (fun _ => 0))

/-- The value of a polynomial at `x`, coefficients from the highest power down. -/
def polyAt (m poly x : Nat) (l : List Nat) : Nat := l.foldl (fun a c => Nat.xor (gfMul m poly x a) c) 0

/-! ### PRBS31 (R285, R289) -/

/-- One bit of the sequence x^31 + x^28 + 1 and the register after it. -/
def prbsStep (r : Nat) : Nat × Nat :=
  let b := (bits r 30 1 + bits r 27 1) % 2
  (b, 2 * r % 2 ^ 31 + b)

/-- The next `n` bits of the sequence as a number, first bit lowest, and the register after them. -/
def prbsBits : Nat → Nat → Nat × Nat
  | 0, r => (0, r)
  | n + 1, r =>
    let (b, r1) := prbsStep r
    let (w, r2) := prbsBits n r1
    (b + 2 * w, r2)

/-! ### AES-256 (FIPS 197) -/

/-- The S-box, 32 bytes to a number, and its inverse. -/
def aesBox : List Nat :=
  [0xc072a49cafa2d4adf04759fa7dc982ca76abd7fe2b670130c56f6bf27b777c63,
   0x75b227ebe28012079a059618c323c7041531d871f1e5a534ccf73f362693fdb7,
   0xcf584c4a39becb6a5bb1fc20ed00d153842fe329b3d63b52a05a6e1b1a2c8309,
   0xd2f3ff1021dab6bcf5389d928f40a351a89f3c507f02f94585334d43fbaaefd0,
   0xdb0b5ede14b8ee4688902a22dc4f816073195d643d7ea7c41744975fec130ccd,
   0x08ae7a65eaf4566ca94ed58d6d37c8e779e4959162acd3c25c2406490a3a32e0,
   0x9e1dc186b95735610ef6034866b53e708a8bbd4b1f74dde8c6b4a61c2e2578ba,
   0x16bb54b00f2d99416842e6bf0d89a18cdf2855cee9871e9b948ed9691198f8e1]

def aesInv : List Nat :=
  [0xcbe9dec444438e3487ff2f9b8239e37cfbd7f3819ea340bf38a53630d56a0952,
   0x25d18b6d49a25b76b224d92866a12e084ec3fa420b954cee3d23c2a632947b54,
   0x849d8da75746155edab9edfd5048706c92b6655dcc5ca4d41698688664f6f872,
   0x6b8a130103bdafc1020f3fca8f1e2cd00645b3b80558e4f70ad3bc8c00abd890,
   0x6edf751ce837f9e28535ade72274ac9673e6b4f0cecff297eadc674f4111913a,
   0xf45acd78fec0db9a2079d2c64b3e56fc1bbe18aa0e62b76f89c5291d711af147,
   0xef9cc9939f7ae52d0d4ab519a97f51605fec8027591012b131c7078833a8dd1f,
   0x7d0c2155631469e126d677ba7e042b17619953833cbbebc8b0f52aae4d3be0a0]

def boxAt (t : List Nat) (x : Nat) : Nat := bits (t.getD (x / 32) 0) (8 * (x % 32)) 8

/-- The product of bytes modulo x^8 + x^4 + x^3 + x + 1. -/
def aesMul (a b : Nat) : Nat := gfMul 8 0x11B a b

def xorBytes (a b : List Nat) : List Nat := List.zipWith Nat.xor a b

/-- The `n` bytes of a number, lowest first, and back. -/
def bytesOf (n x : Nat) : List Nat := (List.range n).map (fun i => bits x (8 * i) 8)
def bytesNum (l : List Nat) : Nat := l.foldr (fun b a => b + 256 * a) 0

/-- One more word of the key schedule; words are four bytes. -/
def keyWord (ws : List (List Nat)) (i : Nat) : List Nat :=
  let t := ws.getD (i - 1) []
  let sub (l : List Nat) : List Nat := l.map (boxAt aesBox)
  let t1 := if i % 8 = 0 then xorBytes (sub (t.drop 1 ++ t.take 1)) [2 ^ (i / 8 - 1), 0, 0, 0]
            else if i % 8 = 4 then sub t else t
  xorBytes (ws.getD (i - 8) []) t1

/-- The fifteen round keys of a 32-byte key. -/
def roundKeys (key : List Nat) : List (List Nat) :=
  let ws0 := (List.range 8).map (fun i => (key.drop (4 * i)).take 4)
  let ws := (List.range 52).foldl (fun ws i => ws ++ [keyWord ws (i + 8)]) ws0
  (List.range 15).map (fun r => ((ws.drop (4 * r)).take 4).flatten)

/-- Row r of the state moved left by r, or back. -/
def shiftRows (s : List Nat) (back : Bool) : List Nat :=
  (List.range 16).map (fun i => s.getD ((if back then i + 12 * (i % 4) else i + 4 * (i % 4)) % 16) 0)

/-- Every column times a circulant matrix. -/
def mixColumns (m s : List Nat) : List Nat :=
  (List.range 16).map (fun i => (List.range 4).foldl (fun a k =>
    Nat.xor a (aesMul (m.getD ((k + 4 - i % 4) % 4) 0) (s.getD (i / 4 * 4 + k) 0))) 0)

def encBlock (rk : List (List Nat)) (x : List Nat) : List Nat :=
  let s := (List.range 13).foldl (fun s r =>
    xorBytes (mixColumns [2, 3, 1, 1] (shiftRows (s.map (boxAt aesBox)) false)) (rk.getD (r + 1) [])) (xorBytes x (rk.getD 0 []))
  xorBytes (shiftRows (s.map (boxAt aesBox)) false) (rk.getD 14 [])

def decBlock (rk : List (List Nat)) (x : List Nat) : List Nat :=
  let s := (List.range 13).foldl (fun s r =>
    mixColumns [14, 11, 13, 9] (xorBytes ((shiftRows s true).map (boxAt aesInv)) (rk.getD (13 - r) [])))
    (xorBytes x (rk.getD 14 []))
  xorBytes ((shiftRows s true).map (boxAt aesInv)) (rk.getD 0 [])

/-! ### XTS (IEEE Std 1619) -/

/-- The tweak of the next block: times α in GF(2^128). -/
def xtsNext (t : Nat) : Nat := if 2 ^ 128 ≤ 2 * t then Nat.xor (2 * t - 2 ^ 128) 0x87 else 2 * t

/-- Blocks from number `i` on, each through `f` between two additions of its tweak. -/
def xtsBlocks (f : List Nat → List Nat) (x : Nat) : Nat → Nat → Nat → Nat
  | 0, _, _ => 0
  | n + 1, i, t =>
    let tb := bytesOf 16 t
    bytesNum (xorBytes (f (xorBytes (bytesOf 16 (x / 2 ^ (128 * i))) tb)) tb) * 2 ^ (128 * i) +
      xtsBlocks f x n (i + 1) (xtsNext t)

/-- A line of 16 blocks under a key pair (Key1 in the low 256 bits) and a data-unit number. -/
def xts (f : List (List Nat) → List Nat → List Nat) (pair unit : Nat) (x : Line) : Line :=
  let k2 := roundKeys (bytesOf 32 (pair / 2 ^ 256))
  let t := bytesNum (encBlock k2 (bytesOf 16 unit))
  BitVec.ofNat 2048 (xtsBlocks (f (roundKeys (bytesOf 32 pair))) x.toNat 16 0 t)

def xtsEnc (pair unit : Nat) (x : Line) : Line := xts encBlock pair unit x
def xtsDec (pair unit : Nat) (x : Line) : Line := xts decBlock pair unit x

end Sys2Proof.Machine
end

