-- ==== Sys2Proof/Machine/Image.lean ====
section
/-! DEFINITION. The bytes of a plan image and their digests (R397, R398, Tables 15.1 to 15.7). The layout of the table sections,
which the spec gives by their parts, is version 0 then version 1, each its rows, its runs and its segment entries (DESIGN CHOICE,
log entry 20). -/

namespace Sys2Proof.Machine

/-- The header (Table 15.1). -/
def headerBytes (h : ImgHeader) : List Nat :=
  leBytes 4 h.format ++ [h.kind, h.mode, h.grade, h.stepKinds, h.cycleLen, h.drain, h.settle, h.diameter] ++
    leBytes 8 ((List.range 16).foldl (fun a i => a + h.stepCycle.getD i 0 * 16 ^ i) 0) ++ leBytes 2 h.positions ++
    leBytes 2 h.gustGroup ++ [h.gustH, h.vregions] ++ leBytes 2 h.envelopeW ++ leBytes 4 h.sections ++ leBytes 8 h.seedBase.toNat ++
    leBytes 32 h.parent.toNat ++ leBytes 32 h.signer.toNat ++ leBytes 16 h.planId.toNat ++ leBytes 8 h.imageBytes ++ leBytes 384 0

/-- A directory entry (Table 15.3). -/
def entryBytes (x : Section) : List Nat :=
  leBytes 2 x.type ++ leBytes 2 0 ++ leBytes 2 x.position ++ leBytes 2 x.variant ++ leBytes 2 x.unit ++ leBytes 2 x.sub ++ leBytes 4 0 ++
    leBytes 8 x.off ++ leBytes 8 x.bytes ++ leBytes 32 x.digest.toNat

/-- The image digest: the SHA3-256 of the header and the directory (R398). -/
def imgDigest (img : PlanImage) : Hash := Config.sha3 (headerBytes img.hdr ++ img.secs.foldl (fun a x => a ++ entryBytes x) [])

/-- Rows that a table supplies: up to the last one listed. -/
def suppliedRows {α : Type} (t : Tbl α) : Nat := t.rows.foldl (fun m e => max m (e.1 + 1)) 0

/-- A run word (R186). -/
def runWord (r : Run) : Nat := r.first * 2 ^ 50 + r.count * 2 ^ 38 + r.rep * 2 ^ 14 + r.rsv

/-- One version of a table whose rows are `n` bytes. -/
def tblBytes {α : Type} (n : Nat) (d : α) (w : α → Nat) (t : Tbl α) : List Nat :=
  (List.range (suppliedRows t)).foldl (fun a k => a ++ leBytes n (w (look d t.rows k))) [] ++
    t.runs.foldl (fun a r => a ++ leBytes 8 (runWord r)) [] ++
    (List.range 128).foldl (fun a k => a ++ leBytes 2 (look {} t.segs k).first ++ leBytes 2 (look {} t.segs k).n) []

/-- Word 0 of a descriptor (Table 7.3). -/
def descWord0 (d : Desc) : Nat :=
  d.srcKind.toNat * 2 ^ 60 + d.dstKind.toNat * 2 ^ 56 + b2n d.pen * 2 ^ 55 + b2n d.psense * 2 ^ 54 +
    d.paddr.toNat * 2 ^ 31 + d.pbit.toNat * 2 ^ 28 + d.dblock.toNat * 2 ^ 22 + d.dmask.toNat * 2 ^ 6 + d.spos.toNat * 4 + d.rsv0.toNat

/-- The four words of a descriptor (Table 7.3), word 0 in bits [63:0]. -/
def descNat (d : Desc) : Nat :=
  descWord0 d + d.src.toNat * 2 ^ 64 + d.rsv1.toNat * 2 ^ 104 + d.dst.toNat * 2 ^ 128 + d.rsv2.toNat * 2 ^ 168 + d.dstInc.toNat * 2 ^ 192 +
    d.srcInc.toNat * 2 ^ 212 + d.rep.toNat * 2 ^ 232 + d.lines.toNat * 2 ^ 244

def zeroDesc : Desc :=
  { srcKind := 0, dstKind := 0, pen := false, psense := false, paddr := 0, pbit := 0, dblock := 0, dmask := 0, spos := 0, rsv0 := 0
    rsv1 := 0, src := 0, rsv2 := 0, dst := 0, lines := 0, rep := 0, srcInc := 0, dstInc := 0 }

/-- The lines of a CELL_CODE section: the instructions, then the entry table's line (Table 15.4). -/
def codeBytes (words : SMap Word) (entry : Nat → Nat) : List Nat :=
  (List.range 8192).foldl (fun a k => a ++ leBytes 8 (look 0#64 words k).toNat) [] ++
    (List.range 8).foldl (fun a k => a ++ leBytes 2 (entry k)) [] ++ leBytes 240 0

/-- A step kind entry (Table 15.2). -/
def stepBytes (k : StepKindE) : List Nat :=
  leBytes 4 k.length ++ [k.window, k.epochAt.length, 0, 0] ++ (List.range 14).foldl (fun a i => a ++ leBytes 4 (k.epochAt.getD i 0)) []

/-- A lease entry (Table 15.5). -/
def leaseBytes (l : LeaseE) : List Nat :=
  leBytes 8 (l.res * 2 ^ 60 + l.use * 2 ^ 56 + l.unit * 2 ^ 46 + l.chan * 2 ^ 41 + l.first * 2 ^ 30 + l.count * 2 ^ 19)

/-- An address-map entry (Table 15.6). -/
def mapBytes (e : MapE) : List Nat :=
  leBytes 2 e.kind ++ leBytes 2 0 ++ leBytes 4 e.aux ++ leBytes 8 e.first ++ leBytes 8 e.last ++ leBytes 8 e.second

/-- The SERVING section (Table 15.7). -/
def servingBytes (e : ServingE) : List Nat :=
  leBytes 2 e.slots ++ [e.specMax, e.tokLines] ++ leBytes 2 e.pagesMax ++ leBytes 2 e.outLines ++ leBytes 2 e.kvGroups ++ leBytes 2 e.tokCap ++
    leBytes 2 e.editCap ++ leBytes 2 0 ++ leBytes 4 e.kvPages ++ leBytes 4 e.winReady ++ leBytes 8 e.kvBase ++ leBytes 8 e.winBase ++
    [e.groups] ++ leBytes 7 0 ++ (List.range 16).foldl (fun a i => a ++ leBytes 2 (e.groupFirst.getD i 0)) [] ++ leBytes 48 0

/-- The TREE section (Table 15.4). -/
def treeBytes (t : TreeE) : List Nat :=
  [t.depth, t.voteParent] ++ leBytes 2 t.voteChildren.toNat ++ [t.seedParent] ++ leBytes 2 t.seedChildren.toNat ++ leBytes 2 0

/-- The data of a section (Tables 15.2 to 15.7). -/
def dataBytes (d : SecData) : List Nat :=
  let rows (a b : Tbl (BitVec 128)) : List Nat := tblBytes 16 0 (·.toNat) a ++ tblBytes 16 0 (·.toNat) b
  let rows4 (a b : Tbl (BitVec 32)) : List Nat := tblBytes 4 0 (·.toNat) a ++ tblBytes 4 0 (·.toNat) b
  let unused : StepKindE := { length := 0, window := 0, epochAt := [], zero := true }
  match d with
  | .steps l => (List.range 8).foldl (fun a i => a ++ stepBytes (l.getD i unused)) []
  | .cellCode words entry => codeBytes words (fun k => entry.getD k 0)
  | .blockTrellis a b => rows a b
  | .barrows a b => tblBytes 32 zeroDesc descNat a ++ tblBytes 32 zeroDesc descNat b
  | .router a b => rows a b
  | .merge a b => rows4 a b
  | .port n a b => leBytes 2 n ++ rows4 a b
  | .routes r => (List.range 65536).foldl (fun a k => a ++ leBytes 2 (look 0#16 r k).toNat) []
  | .leases l => l.foldl (fun a e => a ++ leaseBytes e) []
  | .addressMap l => l.foldl (fun a e => a ++ mapBytes e) []
  | .serving e => servingBytes e
  | .peers l => l.foldl (fun a e => a ++ match e with
      | none => leBytes 4 0xFFFFFFFF
      | some q => leBytes 2 q.rank ++ [q.part, 0]) []
  | .tree t => treeBytes t

/-- The data of a section has the digest that its directory entry gives (R398). -/
def sectionOk (x : Section) : Bool := decide (Config.sha3 (dataBytes x.data) = x.digest)

end Sys2Proof.Machine
end

