-- ==== Sys2Proof/Machine/Tables.lean ====
section
/-! DEFINITION. What an installed plan image says: the sections a partition holds, the variants in force, segments and runs
(R186, R336, R397 to R402), leases and the address map, and the binding of virtual to physical blocks. -/

namespace Sys2Proof.Machine

/-! ### Free values -/

/-- Take a fresh free-value index. -/
def State.fresh (s : State) : State := { s with freeCtr := s.freeCtr + 1 }

/-! ### The role of AX (R282)

An image names ports by the identities of Table 11.1. While AX substitutes for torus port `r` in a partition's plan, the image's port
`r` is AX and its port 11 is the substituted port (log entry 39). -/

def swapPort (r i : Nat) : Nat := if i = r then 11 else if i = 11 then r else i

/-- A port mask with bits `r` and 11 exchanged. -/
def swapMask (r m : Nat) : Nat :=
  let a := bits m r 1
  let b := bits m 11 1
  m - a * 2 ^ r - b * 2 ^ 11 + b * 2 ^ r + a * 2 ^ 11

/-- A transmit (`dir` 0) or receive row with its ports exchanged (Tables 12.1, 12.2). -/
def swapRow (r dir : Nat) (w : BitVec 32) : BitVec 32 :=
  let n := w.toNat
  if dir = 0 then
    if bits n 29 3 = 4 then BitVec.ofNat 32 (n - bits n 25 4 * 2 ^ 25 + swapPort r (bits n 25 4) * 2 ^ 25) else w
  else BitVec.ofNat 32 (n - bits n 16 12 * 2 ^ 16 + swapMask r (bits n 16 12) * 2 ^ 16)

def swapTbl {α : Type} (f : α → α) (t : Tbl α) : Tbl α := { t with rows := t.rows.map (fun e => (e.1, f e.2)) }

def swapDesc (r : Nat) (d : Desc) : Desc :=
  if d.dstKind = 5 then { d with dst := d.dst - BitVec.ofNat 40 (d.dst.toNat % 16) + BitVec.ofNat 40 (swapPort r (d.dst.toNat % 16)) } else d

/-- A section as a partition sees it in which AX substitutes for port `r`. -/
def swapSec (r : Nat) (x : Section) : Section :=
  let tree (t : TreeE) : TreeE :=
    { t with voteParent := swapPort r t.voteParent, voteChildren := BitVec.ofNat 16 (swapMask r t.voteChildren.toNat)
             seedParent := swapPort r t.seedParent, seedChildren := BitVec.ofNat 16 (swapMask r t.seedChildren.toNat) }
  let data : SecData := match x.data with
    | .barrows a b => .barrows (swapTbl (swapDesc r) a) (swapTbl (swapDesc r) b)
    | .port n a b => .port n (swapTbl (swapRow r x.sub) a) (swapTbl (swapRow r x.sub) b)
    | .routes m => .routes (m.map (fun e => (e.1, BitVec.ofNat 16 (swapMask r e.2.toNat))))
    | .leases l => .leases (l.map (fun e => if e.res = 5 ∨ e.res = 6 then { e with unit := swapPort r e.unit } else e))
    | .peers l => .peers ((List.range 12).map (fun i => l.getD (swapPort r i) none))
    | .tree t => .tree (tree t)
    | d => d
  { x with unit := if x.type = 7 then swapPort r x.unit else x.unit, data }

/-- The sections of an image in a partition with role `ax` of AX. -/
def asRole (ax : Option Nat) (l : List Section) : List Section :=
  match ax with
  | none => l
  | some r => l.map (swapSec r)

/-- The torus port for which AX substitutes, by PORT_CONFIG. -/
def State.axRole (s : State) : Option Nat := (look Port.zero s.ports 11).roleSet.bind (fun r => if r < 6 then some r else none)

/-! ### Sections -/

/-- The base sections that the partition installs (R401). -/
def Part.base (p : Part) : List Section :=
  match p.image with
  | none => []
  | some i => asRole p.axRole (i.secs.filter (fun x => decide ((x.position = 0xFFFF ∨ x.position = p.rank) ∧ x.variant = 0xFFFF)))

/-- The variant sections that the partition installs. -/
def Part.variants (p : Part) : List Section :=
  match p.image with
  | none => []
  | some i => asRole p.axRole (i.secs.filter (fun x => decide ((x.position = 0xFFFF ∨ x.position = p.rank) ∧ x.variant ≠ 0xFFFF)))

/-- The first base section of type `ty`, unit and sub as given. -/
def Part.sec (p : Part) (ty unit sub : Nat) : Option SecData :=
  (p.base.find? (fun x => decide (x.type = ty ∧ x.unit = unit ∧ x.sub = sub))).map (·.data)

def Part.stepKinds (p : Part) : List StepKindE :=
  match p.sec 0x01 0xFFFF 0 with
  | some (.steps l) => l
  | _ => []

def Part.leases (p : Part) : List LeaseE :=
  match p.sec 0x09 0xFFFF 0 with
  | some (.leases l) => l
  | _ => []

def Part.addrMap (p : Part) : List MapE :=
  match p.sec 0x0A 0xFFFF 0 with
  | some (.addressMap l) => l
  | _ => []

def Part.serving (p : Part) : Option ServingE :=
  match p.sec 0x0B 0xFFFF 0 with
  | some (.serving e) => some e
  | _ => none

def Part.peers (p : Part) : List (Option PeerE) :=
  match p.sec 0x0C 0xFFFF 0 with
  | some (.peers l) => l
  | _ => []

def Part.tree (p : Part) : TreeE :=
  match p.sec 0x0D 0xFFFF 0 with
  | some (.tree t) => t
  | _ => {}

/-- The step kind entry of kind `k`. -/
def Part.kind (p : Part) (k : Nat) : StepKindE := p.stepKinds.getD k { length := 0, window := 0, epochAt := [], zero := true }

/-- The step kind at position `n` of the step cycle. -/
def Part.kindAt (p : Part) (n : Nat) : Nat :=
  match p.image with
  | none => 0
  | some i => i.hdr.stepCycle.getD n 0

def Part.cycleLen (p : Part) : Nat :=
  match p.image with
  | none => 1
  | some i => max 1 i.hdr.cycleLen

/-- The ranks that the graft selection faces: the peers of the ports whose bit is set (R336, R401). -/
def Part.faced (p : Part) : List Nat :=
  (List.range 12).filterMap (fun i => if p.graftSel.getLsbD i then (p.peers.getD i none).map (·.rank) else none)

/-- Data of type `ty`, unit and sub: the variants in force, then the base section. -/
def Part.layers (p : Part) (ty unit sub : Nat) : List SecData :=
  let is (x : Section) : Bool := decide (x.type = ty ∧ x.unit = unit ∧ x.sub = sub)
  ((p.variants.filter (fun x => is x && p.faced.contains x.variant)) ++ (p.base.filter is)).map (·.data)

/-! ### Rows, runs and segments (R186) -/

/-- The entry listed at `k`. -/
def find {α : Type} (m : SMap α) (k : Nat) : Option α := (m.find? (fun e => decide (e.1 = k))).map (·.2)

/-- Row `k`: the first table that supplies it. -/
def tblRow {α : Type} : List (Tbl α) → Nat → Option α
  | [], _ => none
  | t :: ts, k =>
    match find t.rows k with
    | some r => some r
    | none => tblRow ts k

/-- The row that runs play at offset `x`. -/
def playRuns : List Run → Nat → Option Nat
  | [], _ => none
  | r :: rs, x =>
    let tot := (r.count + 1) * (r.rep + 1)
    if x < tot then some (r.first + x % (r.count + 1)) else playRuns rs (x - tot)

/-- The segment entry of step kind and epoch index. -/
def segKey (kind idx : Nat) : Nat := 16 * kind + idx

/-- The row number played at offset `x` of a segment. -/
def segRow {α : Type} (ts : List (Tbl α)) (key x : Nat) : Option Nat :=
  match ts.getLast? with
  | none => none
  | some b =>
    let e := look {} b.segs key
    playRuns ((b.runs.drop e.first).take e.n) x

/-- The row in force at offset `x` of a segment. -/
def segAt {α : Type} (ts : List (Tbl α)) (key x : Nat) : Option α :=
  match segRow ts key x with
  | none => none
  | some k => tblRow ts k

/-- Cycles since the epoch boundary. -/
def Part.epochOff (p : Part) : Nat := p.planTime - 1024 * p.epochStart

/-- The version in force: the low bit of the epoch number (R318). -/
def Part.ver (p : Part) : Bool := p.epoch.getLsbD 0

/-- The key of the segment in force. -/
def Part.seg (p : Part) : Nat := segKey p.stepKind p.epochIdx

def pick {α : Type} (v : Bool) (a b : α) : α := if v then b else a

def Part.blockTbl (p : Part) (vb : Nat) (v : Bool) : List (Tbl (BitVec 128)) :=
  (p.layers 0x03 vb 0).filterMap (fun d => match d with
    | .blockTrellis a b => some (pick v a b)
    | _ => none)

def Part.barrowTbl (p : Part) (vb w : Nat) (v : Bool) : List (Tbl Desc) :=
  (p.layers 0x04 vb w).filterMap (fun d => match d with
    | .barrows a b => some (pick v a b)
    | _ => none)

def Part.routerTbl (p : Part) (vb : Nat) (v : Bool) : List (Tbl (BitVec 128)) :=
  (p.layers 0x05 vb 0).filterMap (fun d => match d with
    | .router a b => some (pick v a b)
    | _ => none)

def Part.mergeTbl (p : Part) (vs ch : Nat) (v : Bool) : List (Tbl (BitVec 32)) :=
  (p.layers 0x06 vs ch).filterMap (fun d => match d with
    | .merge a b => some (pick v a b)
    | _ => none)

def Part.portTbl (p : Part) (i dir : Nat) (v : Bool) : List (Tbl (BitVec 32)) :=
  (p.layers 0x07 i dir).filterMap (fun d => match d with
    | .port _ a b => some (pick v a b)
    | _ => none)

/-- The budget B of a direction of a port (R315). -/
def Part.budget (p : Part) (i dir : Nat) : Option Nat :=
  (p.layers 0x07 i dir).findSome? (fun d => match d with
    | .port b _ _ => some b
    | _ => none)

/-! ### Binding (R402) -/

/-- The physical block of virtual block `v`, and back (the map is its own inverse). -/
def Part.bindBlock (p : Part) (v : Nat) : Nat := 16 * (Nat.xor (v / 16) p.binding) + v % 16

/-- The physical stack of virtual stack `v`, and back. -/
def Part.bindStack (p : Part) (v : Nat) : Nat := 3 * (Nat.xor (v / 3) p.binding) + v % 3

/-! ### Leases (R188, R556) -/

def leaseCovers (l : LeaseE) (res use unit chan k : Nat) : Bool :=
  decide (l.res = res ∧ l.use = use ∧ l.unit = unit ∧ l.chan = chan ∧ l.first ≤ k ∧ k ≤ l.first + l.count)

/-- The partition holds its leases (STATE 0x1 to 0x5, R188). -/
def Part.holds (p : Part) : Bool := decide (p.st ≠ .empty)

/-- The partition leases unit `k` of a resource for a use. -/
def Part.leases? (p : Part) (res use unit chan k : Nat) : Bool :=
  p.holds && p.leases.any (fun l => leaseCovers l res use unit chan k)

/-- The stack at a block, where its attachment is a stack interface (Table 1.2). -/
def stackAt (b : Nat) : Option Nat :=
  match b % 16 with
  | 1 => some (3 * (b / 16))
  | 2 => some (3 * (b / 16) + 1)
  | 4 => some (3 * (b / 16) + 2)
  | _ => none

/-- Channel and slot index 3m + j of the burst slot of a cycle of the frame on attachment channel `a` (R194). -/
def burstAt (cyc a : Nat) : Nat × Nat :=
  let p := 6 * (cyc % 8) + a
  (p / 3, 3 * (cyc / 8) + p % 3)

/-- The partition leases output `o` of router `b` in a cycle of the frame for a use (R188); the lease on a burst slot of a stack
is the lease on its attachment channel in the slot's attachment cycle (R195). -/
def Part.leasesOut (p : Part) (use b o cyc : Nat) : Bool :=
  p.leases? 1 use (p.bindBlock b) o cyc ||
    (match stackAt b with
     | some k => decide (12 ≤ o ∧ o < 18) && p.leases? 2 use (p.bindStack k) (burstAt cyc (o - 12)).1 (burstAt cyc (o - 12)).2
     | none => false)

/-- The partition that holds output `o` of router `b` for plan traffic in a cycle of the frame (R188): the block's owner
for the crossbar mesh port outputs. -/
def State.outHolder (s : State) (b o cyc : Nat) : Option Nat :=
  if 8 ≤ o ∧ o ≤ 11 then (s.block b).owner else allParts.find? (fun p => (s.part p).leasesOut 0 b o cyc)

/-- The cycle of the frame. -/
def State.fcyc (s : State) : Nat := s.cycle % 1024

/-- Frames since reset, the frame number of slot numbers. -/
def State.frm (s : State) : Nat := s.cycle / 1024

/-! ### Lease tables (Tables 8.3, 10.2, R227) -/

/-- Lease index `i` lies in a rotated range of the image (KIND 0x03 stack, 0x04 cold frame). -/
def Part.rotated (p : Part) (tier : Tier) (i : Nat) : Bool :=
  let k := if tier = .stack then 3 else 4
  p.addrMap.any (fun e => decide (e.kind = k ∧ e.first ≤ i ∧ i < e.last))

/-- The lease-table entry of index `i` for set A (false) or B (true). -/
def Part.entry (p : Part) (tier : Tier) (i : Nat) (setB : Bool) : Option LeaseLoc :=
  match tier with
  | .stack => look none (if setB then p.stackTabB else p.stackTabA) i
  | .cold => look none (if setB then p.coldTabB else p.coldTabA) i

/-- Lease index `i` lies in a range of kind FLIP (Tables 14.6, 15.6). -/
def Part.flips (p : Part) (tier : Tier) (i : Nat) : Bool :=
  let k := if tier = .stack then 1 else 2
  p.addrMap.any (fun e => decide (e.kind = 8 ∧ e.aux = k ∧ e.first ≤ i ∧ i < e.last))

/-- Which of the two entries of index `i` a plan access is translated through, false the first: of a FLIP range a write takes the
entry of parity STEP_NO mod 2 and a read the other (R383, log entry 68); of a rotated range both take the active set's (R227). -/
def Part.entrySel (p : Part) (tier : Tier) (i : Nat) (write : Bool) : Bool :=
  if p.flips tier i then decide (p.stepNo % 2 = if write then 1 else 0) else p.rotated tier i && p.active

/-- What a plan read of lease index `i` is translated through (R227, R383). -/
def Part.planEntry (p : Part) (tier : Tier) (i : Nat) : Option LeaseLoc := p.entry tier i (p.entrySel tier i false)

/-- What a plan write of lease index `i` is translated through (R227, R383). -/
def Part.writeEntry (p : Part) (tier : Tier) (i : Nat) : Option LeaseLoc := p.entry tier i (p.entrySel tier i true)

/-- The pool lease indices p0 to p(N−1) (R230). -/
def Part.pool (p : Part) : List Nat :=
  p.addrMap.foldl (fun acc e => if e.kind = 5 then acc ++ (List.range (e.last - e.first)).map (fun i => e.first + i) else acc) []

/-- The set in force. -/
def Part.actSet (p : Part) : WSet := if p.active then p.setB else p.setA

/-- The lead slot of variant group `g`. -/
def groupLead (e : ServingE) (g : Nat) : Nat := e.groupFirst.getD g 0

/-- The variant of group `g`: VARIANT of its lead slot (R231). -/
def Part.variantOf (p : Part) (g : Nat) : Nat :=
  match p.serving with
  | none => 0
  | some e => if g < e.groups then (look Slot.zero p.slots (groupLead e g)).variant else 0

/-- Where a plan READ of a stack address goes: a lease and an offset, the absence of a scion, or nothing (R202, R233). -/
inductive Target where
  | at (loc : LeaseLoc) (lease off : Nat)
  | absent (loc : LeaseLoc)
  | bad
  deriving DecidableEq, Repr

/-- Translation of a stack address for a READ (R227, R230, R233). -/
def Part.target (p : Part) (addr : Nat) : Target :=
  let i := addr / 2 ^ 30
  let o := addr % 2 ^ 30
  if 0x3F0 ≤ i then
    let v := p.variantOf (i - 0x3F0)
    match p.pool[o / 2 ^ 24]? with
    | none => .bad
    | some l =>
      match p.planEntry .stack l with
      | none => .bad
      | some loc =>
        if v = 0 ∨ p.win.absent.getLsbD (i - 0x3F0) then .absent loc
        else
          match look none p.actSet.scions v with
          | none => .absent loc
          | some b => .at loc l (b * p.actSet.span + o % 2 ^ 24)
  else
    match p.planEntry .stack i with
    | none => .bad
    | some loc => .at loc i o

/-- Translation of a stack address for a write: none of a group window (R227, R233, R383). -/
def Part.targetW (p : Part) (addr : Nat) : Option LeaseLoc :=
  if 0x3F0 ≤ addr / 2 ^ 30 then none else p.writeEntry .stack (addr / 2 ^ 30)

/-! ### Window area (Table 10.6) -/

def roundUp (n k : Nat) : Nat := (n + k - 1) / k * k

def ptStride (e : ServingE) : Nat := 4096 * ((e.pagesMax + 1023) / 1024)
def mbStride (e : ServingE) : Nat := 4096 * ((e.tokLines + 15) / 16)
def obStride (e : ServingE) : Nat := 4096 * ((e.outLines + 15) / 16)
def ptBase (e : ServingE) : Nat := e.winBase + roundUp (16 * e.slots) 4096
def mbBase (e : ServingE) : Nat := ptBase e + ptStride e * e.slots
def obBase (e : ServingE) (buf : Nat) : Nat := mbBase e + mbStride e * e.slots + buf * (obStride e * e.slots)

/-! ### Leases that an image uses -/

def mapsOf (l : List Section) : List MapE := l.foldl (fun a x => match x.data with
  | .addressMap e => a ++ e
  | _ => a) []

def servingOf (l : List Section) : Option ServingE := l.findSome? (fun x => match x.data with
  | .serving e => some e
  | _ => none)

/-- Lease indices of the address range from `a` up to `b`, exclusive. -/
def idxRange (a b : Nat) : List Nat := if b ≤ a then [] else (List.range ((b - 1) / 2 ^ 30 - a / 2 ^ 30 + 1)).map (fun j => a / 2 ^ 30 + j)

def mapTouches (e : MapE) : List (Tier × Nat) :=
  let tier := if e.aux = 1 then Tier.stack else Tier.cold
  let seq := (List.range (e.last - e.first)).map (fun j => e.first + j)
  match e.kind with
  | 1 => seq.map (fun i => (.stack, i))
  | 2 => (idxRange e.first e.last).map (fun i => (.cold, i))
  | 3 => seq.map (fun i => (.stack, i))
  | 4 => seq.map (fun i => (.cold, i))
  | 5 => seq.map (fun i => (.stack, i))
  | 6 => (idxRange e.first e.last).map (fun i => (tier, i))
  | 7 => (idxRange e.first e.last).map (fun i => (tier, i))
  | 8 => seq.map (fun i => (tier, i))
  | _ => []

/-- The stack and cold-frame leases that the address map and the serving section of an image name. -/
def imageLeases (l : List Section) : List (Tier × Nat) :=
  (mapsOf l).foldl (fun a e => a ++ mapTouches e) [] ++
    (match servingOf l with
     | none => []
     | some e => (idxRange e.kvBase (e.kvBase + e.kvPages * e.kvGroups * 16384)).map (fun i => (Tier.stack, i)) ++
       (idxRange e.winBase (obBase e 1 + obStride e * e.slots)).map (fun i => (Tier.cold, i)))

end Sys2Proof.Machine
end

