-- ==== Sys2Proof/Machine/Mesh.lean ====
section
/-! DEFINITION. The block crossbar, the barrows, the block store and the region mesh (07_blocks_and_regions.md). A row acts
on the beats that are at its switch in the module's present cycle; each row command stands for its switch in that cycle. -/

namespace Sys2Proof.Machine

/-! ### Geometry (Tables 1.2, 7.7, 11.1) -/

/-- What is attached at a router. -/
inductive Attach where
  | none | hub | d2d (r : Nat) | stack (k : Nat) | port (i : Nat)
  deriving DecidableEq, Repr

/-- The attachment of block `b` (Table 1.2). -/
def attachOf (b : Nat) : Attach :=
  let r := b / 16
  match b % 16 with
  | 0 => .hub
  | 1 => .stack (3 * r)
  | 2 => .stack (3 * r + 1)
  | 3 => .d2d (Nat.xor r 1)
  | 4 => .stack (3 * r + 2)
  | 8 => .port (([0, 1, 3, 10] : List Nat).getD r 0)
  | 12 => .d2d (Nat.xor r 2)
  | 13 => .port (([2, 4, 5, 11] : List Nat).getD r 0)
  | 14 => .port (6 + r)
  | 15 => .d2d (Nat.xor r 3)
  | _ => .none

/-- The block a stack attaches to. -/
def stackBlock (k : Nat) : Nat := 16 * (k / 3) + ([1, 2, 4] : List Nat).getD (k % 3) 1

/-- The block a fabric port attaches to (Table 11.1). -/
def portBlock (i : Nat) : Nat :=
  ([8, 24, 13, 40, 29, 45, 14, 30, 46, 62, 56, 61] : List Nat).getD i 0

/-- Attachment channels that exist (Table 7.7). -/
def attachChans : Attach → Nat
  | .none => 0
  | .stack _ => 6
  | .port _ => 2
  | _ => 8

/-- The neighbour of block `b` on a link channel 0–7: N, E, S, W in pairs. -/
def neighbour (b ch : Nat) : Option Nat :=
  let q := b % 16
  match ch / 2 with
  | 0 => if 4 ≤ q then some (b - 4) else none
  | 1 => if q % 4 < 3 then some (b + 1) else none
  | 2 => if q < 12 then some (b + 4) else none
  | _ => if q % 4 = 0 then none else some (b - 1)

/-- The far end of a link channel. -/
def farChan (ch : Nat) : Nat := (ch + 4) % 8

/-! ### Beats (Table 7.1) -/

/-- The sideband word as a number, without its check bits. -/
def Sb.toNat (x : Sb) : Nat :=
  x.part.toNat * 2 ^ 60 + x.kind.toNat * 2 ^ 58 + x.dkind.toNat * 2 ^ 56 + x.dblock.toNat * 2 ^ 50 +
    x.dmask.toNat * 2 ^ 34 + x.line.toNat * 2 ^ 16

/-- The sideband a 64-bit word spells (RETURN of Table 8.2). -/
def sbOf (w : Nat) : Sb :=
  { part := BitVec.ofNat 4 (w / 2 ^ 60), kind := BitVec.ofNat 2 (w / 2 ^ 58), dkind := BitVec.ofNat 2 (w / 2 ^ 56)
    dblock := BitVec.ofNat 6 (w / 2 ^ 50), dmask := BitVec.ofNat 16 (w / 2 ^ 34), line := BitVec.ofNat 15 (w / 2 ^ 16) }

/-- A write or request beat. -/
def Beat.live (x : Beat) : Bool := decide (x.sb.kind = 1 ∨ x.sb.kind = 2)

/-- Not a lull: the switches carry it, whatever its KIND. -/
def Beat.carried (x : Beat) : Bool := decide (x.sb.kind ≠ 0)

/-- The line with the words that the code finds uncorrectable replaced by those of `free`. -/
def freeWords (e : EccW) (free data : Line) : Line :=
  BitVec.ofNat 2048 ((List.range 32).foldl (fun a k =>
    a + (if e.contains (k, .uncorrectable) then bits free.toNat (64 * k) 64 else bits data.toNat (64 * k) 64) * 2 ^ (64 * k)) 0)

/-- DETAIL1 of a path record (Table 19.8). -/
def State.pathD1 (s : State) (out : Nat) : Nat := out + s.fcyc * 2 ^ 16

/-- The hops due now, and those to come. -/
def Hop.split (l : List Hop) (t : Nat) : List Hop × List Hop :=
  (l.filter (fun h => decide (h.cyc ≤ t)), l.filter (fun h => decide (t < h.cyc)))

/-! ### Block store (R166) -/

/-- Writes of one barrow port. -/
def applyBsw (m : Mem) (l : List BsWrite) (port : Nat) : Mem :=
  (l.filter (fun w => decide (w.port = port))).foldl (fun m w => Mem.setLine m w.ea w.line) m

/-- The block store as every read of cycle `t` sees it. -/
def Block.storeAt (x : Block) (t : Nat) : Mem :=
  let l := x.bsw.filter (fun w => decide (w.cyc < t))
  applyBsw (applyBsw x.store l 0) l 1

/-- Record a block store write of cycle `t` through barrow port `port`. -/
def Block.bsWrite (x : Block) (t port ea : Nat) (line : Line) : Block :=
  { x with store := x.storeAt t
           bsw := x.bsw.filter (fun w => decide (t ≤ w.cyc)) ++ [{ cyc := t, port, ea, line }] }

def bsSize : Nat := 8388608

/-! ### Trellis rows -/

/-- The row of the block trellis in force at block `b` (R162), as the plan image gives it; none where the block plays none. -/
def State.blockRow (s : State) (b : Nat) : Option (BitVec 128) :=
  match (s.block b).owner with
  | none => none
  | some p =>
    if s.running p then
      let q := s.part p
      segAt (q.blockTbl (s.block b).vblock q.ver) q.seg q.epochOff
    else none

/-- SRC[o] of a row. -/
def srcOf (row : BitVec 128) (o : Nat) : Nat := bits row.toNat (5 * o) 5

/-- The physical input that feeds physical output `o`; none where it names none. A row names plan positions 0 to 15 and
ports 18 to 23; the loader places each at the physical cell of R176 (R548). -/
def Block.feeds (x : Block) (row : BitVec 128) (o : Nat) : Option Nat :=
  let src (n : Nat) : Option Nat :=
    let c := srcOf row n
    if c < 16 then x.map[c]? else if 0x12 ≤ c ∧ c ≤ 0x17 then some c else none
  if o < 18 then
    match indexOf x.map o with
    | none => none
    | some k => if k < 16 then src k else none
  else src o

/-! ### CROSSBAR_ROW (R162, R163, R165, R550) -/

/-- The beats other than lulls that are offered to input `i`. -/
def offered (due : List Hop) (i : Nat) : List Hop := due.filter (fun h => decide (h.port = i) && h.beat.carried)

/-- Two beats offered to input `i` in one cycle raise ROUTE_CHECK once; neither is delivered (R550). -/
def State.inputClash (s : State) (b owner : Nat) (due : List Hop) (i : Nat) : State :=
  match offered due i with
  | h :: _ :: _ => s.partFault 0x32 [owner] (locBlock b) h.beat.sb.toNat (s.pathD1 i)
  | _ => s

/-- Offer one beat to the outputs that its input feeds. -/
def State.enter (s : State) (b owner : Nat) (feeds : Nat → Option Nat) (due : List Hop) (h : Hop) : State :=
  if !h.beat.carried || decide (1 < (offered due h.port).length) then s
  else
    match (List.range 24).filter (fun o => decide (feeds o = some h.port)) with
    | [] => if !h.beat.live then s else s.partFault 0x32 [owner] (locBlock b) h.beat.sb.toNat (s.pathD1 h.port)
    | outs => s.onBlock b (fun x => { x with xout := x.xout ++ outs.map (fun o => { cyc := s.cycle + 4, port := o, beat := h.beat }) })

/-- Raise TRELLIS_ECC and take a free row when the word read is uncorrectable; count a correction. -/
def State.readRow (s : State) (b : Nat) (tecc : Ecc) (ps : List Nat) (row : Option (BitVec 128)) :
    State × Option (BitVec 128) :=
  match row with
  | none => (s, none)
  | some r =>
    match tecc with
    | .ok => (s, some r)
    | .corrected => (s.count (locBlock b) 0x106 1, some r)
    | .uncorrectable =>
      ((s.partFault 0x36 ps (locBlock b) 0 (s.pathD1 0)).fresh, some (Config.freeRow s.freeCtr))

def execCrossbarRow (b : Nat) (tecc : Ecc) (s : State) : Out :=
  let (due, rest) := Hop.split (s.block b).xin s.cycle
  let s0 := s.onBlock b (fun x => { x with xin := rest })
  match (s.block b).owner with
  | none => ok s0
  | some p =>
    if !s.running p then ok s0
    else
      let (s1, row) := s0.readRow b tecc [p] (s.blockRow b)
      let feeds (o : Nat) : Option Nat :=
        match row with
        | none => none
        | some r => (s.block b).feeds r o
      let s2 := (List.range 24).foldl (fun s i => s.inputClash b p due i) s1
      ok (due.foldl (fun s h => s.enter b p feeds due h) s2)

/-! ### CROSSBAR_BEAT_DELIVERY (R164, R166, R74 to R76, R42) -/

/-- Write one line into the inactive bank of cell `c`: words, or the entry table for line 256. -/
def Bank.writeLine (k : Bank) (line : Nat) (data : Line) : Bank :=
  let k := { k with valid := false }
  if line < 256 then
    let l := (List.range 32).map (fun j => (32 * line + j, BitVec.extractLsb' (64 * j) 64 data))
    { k with words := putAll 0#64 k.words l }
  else
    { k with entry := putAll 0 [] ((List.range 8).map (fun j => (j, bits data.toNat (16 * j) 13))) }

/-- The window of the step in progress has consumed a bank switch that is still to take effect (R42). -/
def Part.switchDue (p : Part) : Bool := decide (p.st = .running ∧ p.epochIdx = 0) && p.win.bankRec.isSome

/-- A write beat that leaves on the port of cell `c`. An instruction-bank line goes to the inactive bank of a code position,
and nowhere once the window has consumed a bank switch (R42, R76). A beat that the checks of R164 pass and whose LINE lies past
the cell store, or past line 256 of a bank, writes nothing and raises nothing (DESIGN CHOICE, log entry 66). -/
def State.deliverCell (s : State) (b c p : Nat) (x : Beat) : State :=
  let id := 32 * b + c
  let pos := s.posOf id
  let accept : Bool := x.sb.kind = 1 && decide (x.sb.part.toNat = p) && decide (x.sb.dkind = 0 ∨ x.sb.dkind = 2) &&
    decide (x.sb.dblock.toNat = b) && (match pos with
      | some k => x.sb.dmask.getLsbD k
      | none => false)
  if !accept then s.partFault 0x32 [p] (locBlock b) x.sb.toNat (s.pathD1 c)
  else if x.sb.dkind = 0 then
    if x.sb.line.toNat < 6144 then
      (s.onCell id (fun y => y.csWrite s.cycle .xbar (cellsAt (256 * x.sb.line.toNat) (lineBytes x.data)))).count
        (locCell id) 0x00A 1 |>.spend 8 (some p) 1
    else s
  else
    let q := s.part p
    if q.switchDue || !(s.block b).codePos.getLsbD (pos.getD 16) || decide (256 < x.sb.line.toNat) then s
    else s.onCell id (fun y =>
      if q.bankAct then { y with bank0 := y.bank0.writeLine x.sb.line.toNat x.data }
      else { y with bank1 := y.bank1.writeLine x.sb.line.toNat x.data })

/-- A beat as it is read at port `out` of a switch of region `r` (R161, R192): corrections are counted, uncorrectable payload
words are free values and a fault against PART, an uncorrectable sideband word is a free value and a fault against the partitions
`ps` that lease the channel. -/
def State.readBeat (s : State) (r unit out : Nat) (ps : List Nat) (e : EccW) (x : Beat) : State × Beat :=
  if e = [] then (s, x)
  else
    let n := eccFixed e 33
    let s1 := if n = 0 then s else s.count (locRegion r) 0x209 n
    let l := Config.freeLine s.freeCtr
    let data := freeWords e l x.data
    if e.contains (32, .uncorrectable) then
      ((s1.partFault 0x34 ps unit x.sb.toNat (s.pathD1 out)).fresh, { sb := sbOf (Config.freeBits s.freeCtr), data })
    else
      match eccBad e 32 with
      | none => (s1, x)
      | some _ => ((s1.partFault 0x34 [x.sb.part.toNat] unit x.sb.toNat (s.pathD1 out)).fresh, { x with data })

/-- What is found on the beat at port `o`. -/
def BeatEcc.at' (e : BeatEcc) (o : Nat) : EccW := ((e.find? (fun x => decide (x.1 = o))).map (·.2)).getD []

/-- A beat that leaves output `o` of block `b`'s crossbar. -/
def State.deliver (s : State) (b p o : Nat) (x : Beat) : State :=
  let s := (s.count (locBlock b) 0x101 1).spend 9 (some p) 1
  if o < 18 then s.deliverCell b o p x
  else if o < 22 then s.onBlock b (fun y => { y with rin := y.rin ++ [{ cyc := s.cycle, port := o - 10, beat := x }] })
  else if x.sb.kind = 1 ∧ x.sb.part.toNat = p ∧ x.sb.dkind = 1 ∧ x.sb.dblock.toNat = b then
    (s.onBlock b (fun y => y.bsWrite s.cycle (o - 22) (256 * x.sb.line.toNat) x.data)).count (locBlock b) 0x104 1 |>.spend 10 (some p) 1
  else s.partFault 0x32 [p] (locBlock b) x.sb.toNat (s.pathD1 o)

/-- Deliver beats in turn. -/
def State.deliverAll (s : State) (b p : Nat) (e : BeatEcc) (l : List Hop) : State :=
  l.foldl (fun s h =>
    let (s1, x) := s.readBeat (b / 16) (locBlock b) h.port [p] (BeatEcc.at' e h.port) h.beat
    s1.deliver b p h.port x) s

def execCrossbarBeatDelivery (b : Nat) (pecc : BeatEcc) (s : State) : Out :=
  let (due, rest) := Hop.split (s.block b).xout s.cycle
  let s0 := s.onBlock b (fun x => { x with xout := rest })
  match (s.block b).owner with
  | none => ok s0
  | some p => if s.running p then ok (s0.deliverAll b p pecc due) else ok s0

/-! ### ROUTER_ROW (R165, R182 to R184, R188, R189) -/

/-- An output that exists at a router: links with a neighbour, mesh ports, attachment channels (R182, R183). -/
def outExists (b o : Nat) : Bool :=
  if o < 8 then (neighbour b o).isSome else if o < 12 then true else decide (o - 12 < attachChans (attachOf b))

/-- A beat leaves output `o` of router `b` in this cycle. -/
def State.leave (s : State) (b o : Nat) (x : Beat) : State :=
  let at' (blk cyc port : Nat) (s : State) : State :=
    s.onBlock blk (fun y => { y with rin := y.rin ++ [{ cyc, port, beat := x }] })
  if o < 8 then
    match neighbour b o with
    | none => s
    | some n => at' n (s.cycle + 3) (farChan o) ((s.count (locRegion (b / 16)) 0x201 1).spend 13 (some x.sb.part.toNat) 1)
  else if o < 12 then s.onBlock b (fun y => { y with xin := y.xin ++ [{ cyc := s.cycle, port := o + 10, beat := x }] })
  else
    match attachOf b with
    | .none => s
    | .stack k => { s with stks := upd Stack.zero s.stks k (fun y =>
        { y with arrive := y.arrive ++ [{ cyc := s.cycle, port := o - 12, beat := x }] }) }
    | .d2d r => at' (16 * r + b % 16) (s.cycle + 12) o ((s.count (locRegion (b / 16)) 0x202 1).spend 14 (some x.sb.part.toNat) 1)
    | .port i => { s with ports := upd Port.zero s.ports i (fun y =>
        { y with outBeats := y.outBeats ++ [{ cyc := s.cycle, port := o - 12, beat := x }] }) }
    | .hub =>
      let s := (s.count (locRegion (b / 16)) 0x202 1).spend 14 (some x.sb.part.toNat) 1
      { s with cold := { s.cold with arrive := s.cold.arrive ++
          [{ cyc := s.cycle + 12, port := 8 * (b / 16) + (o - 12), beat := x }] } }

/-- A router's layers in a cycle: the row of each running partition that has one. -/
def State.layerRows (s : State) (b : Nat) : List (Nat × BitVec 128) :=
  allParts.filterMap (fun p =>
    let q := s.part p
    if s.running p then
      (segAt (q.routerTbl (q.bindBlock b) q.ver) q.seg q.epochOff).map (fun r => (p, r))
    else none)

/-- One output: the holder's entry drives it; ignored entries that name a beat raise LEASE_VIOLATION (R189). -/
def State.routeOut (s : State) (b : Nat) (rows : List (Nat × BitVec 128)) (due : List Hop) (o : Nat) : State :=
  if !outExists b o then s
  else
    let holder := s.outHolder b o s.fcyc
    let beatAt (src : Nat) : Option Beat := (due.find? (fun h => decide (h.port = src) && h.beat.carried)).map (·.beat)
    rows.foldl (fun s e =>
      match beatAt (srcOf e.2 o) with
      | none => s
      | some x =>
        if holder = some e.1 then
          if x.sb.part.toNat = e.1 then s.leave b o x
          else if !x.live then s
          else s.partFault 0x33 [x.sb.part.toNat] (locBlock b) x.sb.toNat (s.pathD1 o)
        else if !x.live then s
        else s.partFault 0x33 [e.1] (locBlock b) x.sb.toNat (s.pathD1 o)) s

/-- Cycles between a stack's or the cold frame's request on an attachment channel and its data beat there (R198, R252). -/
def returnCycles : Attach → Nat
  | .stack _ => 72
  | .hub => 156 + 12
  | _ => 0

/-- The partitions that lease the channel on which a beat came to router `b` (R192): the output that sent it, and for data from a
stack or the cold frame the output by which its request left. A port's beats are charged to the layers that lease its inbound
slots. -/
def State.inHolders (s : State) (b port : Nat) : List Nat :=
  let cyc (d : Nat) : Nat := (s.cycle + 1024 - d) % 1024
  if port < 8 then
    match neighbour b port with
    | none => []
    | some n => (s.outHolder n (farChan port) (cyc 3)).toList
  else if port < 12 then (s.block b).owner.toList
  else
    match attachOf b with
    | .d2d r => (s.outHolder (16 * r + b % 16) port (cyc 12)).toList
    | .port i => s.activeParts.filter (fun p => (s.part p).leases.any (fun l => decide (l.res = 6 ∧ l.use = 0 ∧ l.unit = i)))
    | .none => []
    | a => (s.outHolder b port (cyc (returnCycles a))).toList

/-- Read the beats at a router. -/
def State.readBeats (s : State) (b : Nat) (e : BeatEcc) (l : List Hop) : State × List Hop :=
  l.foldl (fun a h =>
    let (s1, x) := a.1.readBeat (b / 16) (locBlock b) h.port (s.inHolders b h.port) (BeatEcc.at' e h.port) h.beat
    (s1, a.2 ++ [{ h with beat := x }])) (s, [])

/-- The layers' rows as read; `tecc` names a partition's layer with what is found on its word. A correction is counted at the
block; an uncorrectable word is a fault against the partition whose layer it is, and the row is a free value. -/
def State.readLayers (s : State) (b : Nat) (tecc : List (Nat × Ecc)) (rows : List (Nat × BitVec 128)) :
    State × List (Nat × BitVec 128) :=
  rows.foldl (fun a e =>
    if tecc.contains (e.1, .uncorrectable) then
      ((a.1.partFault 0x36 [e.1] (locBlock b) 0 (s.pathD1 0)).fresh, a.2 ++ [(e.1, Config.freeRow a.1.freeCtr)])
    else if tecc.contains (e.1, .corrected) then (a.1.count (locBlock b) 0x106 1, a.2 ++ [e])
    else (a.1, a.2 ++ [e])) (s, [])

/-- Some entry of an existing output names input `src`. -/
def namedBy (b : Nat) (rows : List (Nat × BitVec 128)) (src : Nat) : Bool :=
  (List.range 20).any (fun o => outExists b o && rows.any (fun e => decide (srcOf e.2 o = src)))

def execRouterRow (b : Nat) (tecc : List (Nat × Ecc)) (pecc : BeatEcc) (s : State) : Out :=
  let (due, rest) := Hop.split (s.block b).rin s.cycle
  let due := due.filter (fun h => s.running h.beat.sb.part.toNat)
  let s0 := s.onBlock b (fun x => { x with rin := rest })
  let (s1, due) := s0.readBeats b pecc due
  let (s2, rows) := s1.readLayers b tecc (s.layerRows b)
  let s3 := (List.range 20).foldl (fun s o => s.routeOut b rows due o) s2
  ok (due.foldl (fun (s : State) (h : Hop) =>
    if h.beat.live && !namedBy b rows h.port then
      s.partFault 0x32 [h.beat.sb.part.toNat] (locBlock b) h.beat.sb.toNat (s.pathD1 h.port)
    else s) s3)

/-! ### Barrows (R168 to R174) -/

def Block.barrow (x : Block) (w : Nat) : Barrow := if w = 0 then x.barrow0 else x.barrow1
def Block.setBarrow (x : Block) (w : Nat) (y : Barrow) : Block := if w = 0 then { x with barrow0 := y } else { x with barrow1 := y }

/-- Byte address of line `j` of iteration `i` at the source, and at the destination (R169). -/
def srcAddr (d : Desc) (i j : Nat) : Int := d.src.toNat + 256 * (i * d.srcInc.toInt + j)
def dstAddr (d : Desc) (i j : Nat) : Int :=
  if d.dstKind = 4 then d.dst.toNat + (i * d.dstInc.toInt + j) else d.dst.toNat + 256 * (i * d.dstInc.toInt + j)

/-- Whether a run of `n` lines at `a` lies in a store of `size` bytes. -/
def inStore (a : Int) (n size : Nat) : Bool := decide (a % 256 = 0 ∧ 0 ≤ a ∧ a + 256 * n ≤ size)

/-- Whether a run of `n` lines at partition address `a` lies in one mapped lease (R171, R203). -/
def Part.inLease (p : Part) (tier : Tier) (write : Bool) (a : Int) (n : Nat) : Bool :=
  let a0 := a.toNat
  let a1 := a0 + 256 * n - 1
  decide (a % 256 = 0 ∧ 0 ≤ a ∧ a1 < 2 ^ 40) &&
    (if tier = .stack ∧ 0x3F0 ≤ a0 / 2 ^ 30 then
       decide (a0 / 2 ^ 24 = a1 / 2 ^ 24) && (p.pool[a0 % 2 ^ 30 / 2 ^ 24]?).isSome
     else decide (a0 / 2 ^ 30 = a1 / 2 ^ 30) && (if write then p.writeEntry tier (a0 / 2 ^ 30) else p.planEntry tier (a0 / 2 ^ 30)).isSome)

/-- The range checks of iteration `i` of a descriptor (R171). -/
def Part.moveOk (p : Part) (d : Desc) (i : Nat) : Bool :=
  let n := d.lines.toNat + 1
  let src := srcAddr d i 0
  let dst := dstAddr d i 0
  (match d.srcKind.toNat with
   | 0 => inStore src n csBytes
   | 1 => inStore src n bsSize
   | 2 => p.inLease .stack false src n
   | _ => p.inLease .cold false src n) &&
  (match d.dstKind.toNat with
   | 0 => inStore dst n csBytes
   | 1 => inStore dst n bsSize
   | 2 => p.inLease .stack true dst n
   | 3 => p.inLease .cold true dst n
   | 4 => decide (0 ≤ dst ∧ dst + n ≤ 257)
   | _ => true)

/-- The interface block of the stack that a stack address lies on, for a read or a write. -/
def Part.ifaceBlock (p : Part) (write : Bool) (a : Nat) : Nat :=
  match (if write then p.targetW a else none), p.target a with
  | some loc, _ => stackBlock loc.unit
  | none, .at loc _ _ => stackBlock loc.unit
  | none, .absent loc => stackBlock loc.unit
  | none, .bad => 0

/-- The sideband of the data beats of line `j` of iteration `i` (Tables 7.1, 7.3); `b` is the barrow's block. -/
def Part.dataSb (p : Part) (part b : Nat) (d : Desc) (i j : Nat) : Sb :=
  let a := (dstAddr d i j).toNat
  let mk (dkind dblock mask line : Nat) : Sb :=
    { part := BitVec.ofNat 4 part, kind := 1, dkind := BitVec.ofNat 2 dkind, dblock := BitVec.ofNat 6 dblock
      dmask := BitVec.ofNat 16 mask, line := BitVec.ofNat 15 line }
  match d.dstKind.toNat with
  | 0 => mk 0 (p.bindBlock d.dblock.toNat) d.dmask.toNat (a / 256)
  | 1 => mk 1 (p.bindBlock d.dblock.toNat) 0 (a / 256)
  | 2 => mk 3 (p.ifaceBlock true a) 0 (a / 256)
  | 3 => mk 3 (16 * (b / 16)) 0 (a / 256)
  | 4 => mk 2 (p.bindBlock d.dblock.toNat) d.dmask.toNat a
  | _ => mk 3 (portBlock (a % 16)) 0 0

/-- The sideband of a request to the tier `k` (2 stack, 3 cold frame) for address `a`, to read or to write. -/
def Part.reqSb (p : Part) (part b k a : Nat) (write : Bool) : Sb :=
  { part := BitVec.ofNat 4 part, kind := 2, dkind := 3
    dblock := BitVec.ofNat 6 (if k = 2 then p.ifaceBlock write a else 16 * (b / 16)), dmask := 0, line := 0 }

/-- A request payload (Table 8.2). -/
def reqLine (op count paddr ret : Nat) : Line :=
  BitVec.ofNat 2048 (op * 2 ^ 60 + count + paddr * 2 ^ 64 + ret * 2 ^ 128)

/-- A stack-to-stack move whose destination is the source's own stack: its reads are merge fetches (R236). -/
def Part.mergeMove (p : Part) (d : Desc) (i : Nat) : Bool :=
  decide (d.srcKind = 2 ∧ d.dstKind = 2) &&
    decide (p.ifaceBlock false (srcAddr d i 0).toNat = p.ifaceBlock true (dstAddr d i 0).toNat)

/-- The barrow after a GO: occupied to g + LINES, cursor and iteration count advanced (R169, R170). -/
def Barrow.advance (y : Barrow) (t : Nat) (d : Desc) : Barrow :=
  let last : Bool := decide (y.iter = d.rep.toNat)
  let next : Option Nat :=
    match y.cursor with
    | none => none
    | some k => if k + 1 < y.stop then some (k + 1) else none
  { y with busy := t + d.lines.toNat + 1, iter := if last then 0 else y.iter + 1, cursor := if last then next else y.cursor }

/-- The descriptor that 256 bits spell (Table 7.3), word 0 in bits [63:0]. -/
def descOf (w : Nat) : Desc :=
  let f (lo n : Nat) : BitVec n := BitVec.ofNat n (w / 2 ^ lo)
  { srcKind := f 60 4, dstKind := f 56 4, pen := bit w 55, psense := bit w 54, paddr := f 31 23, pbit := f 28 3, dblock := f 22 6
    dmask := f 6 16, spos := f 2 4, rsv0 := f 0 2, rsv1 := f 104 24, src := f 64 40, rsv2 := f 168 24, dst := f 128 40
    lines := f 244 12, rep := f 232 12, srcInc := f 212 20, dstInc := f 192 20 }

/-- The GO bit of barrow `w` in the row in force, a free value where the row's word is uncorrectable (its fault is the crossbar
row's). -/
def State.goBit (s : State) (row : BitVec 128) (w : Nat) (recc : Ecc) : State × Bool :=
  if recc = .uncorrectable then (s.fresh, Config.freeBool s.freeCtr) else (s, row.getLsbD (122 + w))

/-- The descriptor as read: an uncorrectable word is a fault against the owner, and what the barrow runs is a free value. -/
def State.readDesc (s : State) (b w p : Nat) (tecc : Ecc) (d : Desc) : State × Desc :=
  match tecc with
  | .ok => (s, d)
  | .corrected => (s.count (locBlock b) 0x106 1, d)
  | .uncorrectable =>
    ((s.partFault 0x36 [p] (locBlock b) (descWord0 d) (s.pathD1 (22 + w))).fresh, descOf (Config.freeBits s.freeCtr))

/-- The predicate bit of a descriptor, from the word of the block store that holds it. -/
def State.readPred (s : State) (b w p : Nat) (pecc : Ecc) (d : Desc) : State × Bool :=
  if !d.pen then (s, true)
  else
    let v := (Mem.byte ((s.block b).storeAt s.cycle) d.paddr.toNat).getLsbD d.pbit.toNat
    match pecc with
    | .ok => (s, v)
    | .corrected => (s.count (locBlock b) 0x105 1, v)
    | .uncorrectable =>
      ((s.partFault 0x35 [p] (locBlock b) (descWord0 d) (s.pathD1 (22 + w))).fresh, Config.freeBool s.freeCtr)

/-- Iteration `i` of a descriptor starts: its move is entered, and one that writes to a tier sends its WRITE_OPEN. -/
def State.startMove (s : State) (b w p : Nat) (d : Desc) (i : Nat) : State :=
  let q := s.part p
  let t := s.cycle
  let s1 := (s.count (locBlock b) 0x102 1).onBlock b (fun z =>
    let y := z.barrow w
    z.setBarrow w { y with moves := y.moves ++ [{ g := t, desc := d, iter := i, done := 0 }] })
  let k := d.dstKind.toNat
  if (k = 2 ∨ k = 3) ∧ !q.mergeMove d i then
    let a := (dstAddr d i 0).toNat
    let beat : Beat := { sb := q.reqSb p b k a true, data := reqLine 2 d.lines.toNat a 0 }
    s1.onBlock b (fun z => { z with xin := z.xin ++ [{ cyc := t + 1, port := 22 + w, beat }] })
  else s1

/-- BARROW_GO: when the row in force sets the barrow's GO bit, the descriptor under the cursor starts. `recc` is found on the row's
word, `tecc` on the descriptor, `pecc` on the word that holds the predicate byte. -/
def execBarrowGo (b w : Nat) (recc tecc pecc : Ecc) (s : State) : Out :=
  match s.blockRow b, (s.block b).owner with
  | some row, some p =>
    let (s0, go) := s.goBit row w recc
    let q := s.part p
    let y := (s.block b).barrow w
    match y.cursor.bind (tblRow (q.barrowTbl (s.block b).vblock w q.ver)) with
    | none => ok s0
    | some d0 =>
      if !go then ok s0
      else if s.cycle < y.busy then ok (s0.partFault 0x30 [p] (locBlock b) (descWord0 d0) (s.pathD1 (22 + w)))
      else
        let (s1, d) := s0.readDesc b w p tecc d0
        let s2 := s1.onBlock b (fun z => z.setBarrow w (y.advance s.cycle d))
        let (s3, pb) := s2.readPred b w p pecc d
        if d.pen && !(d.psense ^^ pb) then ok (s3.count (locBlock b) 0x103 1)
        else if !q.moveOk d y.iter then ok (s3.partFault 0x31 [p] (locBlock b) (descWord0 d) (s.pathD1 (22 + w)))
        else ok (s3.startMove b w p d y.iter)
  | _, _ => ok s

/-- The line read of a move that is due: line `done` in cycle g + 1 + done. -/
def Move.due (m : Move) : Nat := m.g + 1 + m.done

/-- The beat that line `j` of a move sends, the crossbar input it enters, and the state after the read. -/
def State.moveBeat (s : State) (b w p : Nat) (m : Move) (ecc : EccW) : State × Hop :=
  let q := s.part p
  let x := s.block b
  let t := s.cycle
  let d := m.desc
  let j := m.done
  let a := (srcAddr d m.iter j).toNat
  let sb := q.dataSb p b d m.iter j
  match d.srcKind.toNat with
  | 0 =>
    let c := x.map.getD d.spos.toNat 0
    let id := 32 * b + c
    let s1 := (s.eccCell id ecc 1 (lineWords a)).spend 8 (some p) 1
    let data := freeWords ecc (Config.freeLine s.freeCtr) (Mem.line ((s.cell id).store t) a)
    (if (eccBad ecc 32).isSome then s1.fresh else s1, { cyc := t + 1, port := c, beat := { sb, data } })
  | 1 =>
    let n := eccFixed ecc 32
    let s1 := ((if n = 0 then s else s.count (locBlock b) 0x105 n).count (locBlock b) 0x104 1).spend 10 (some p) 1
    let data := freeWords ecc (Config.freeLine s.freeCtr) (Mem.line (x.storeAt t) a)
    (if (eccBad ecc 32).isSome then (s1.partFault 0x35 [p] (locBlock b) sb.toNat (s.pathD1 (22 + w))).fresh else s1
    , { cyc := t + 1, port := 22 + w, beat := { sb, data } })
  | k => (s, { cyc := t + 1, port := 22 + w, beat := { sb := q.reqSb p b k a false, data := reqLine 1 0 a sb.toNat } })

/-- BARROW_LINE: the line due in this cycle is read and enters the crossbar in the next (R172). -/
def execBarrowLine (b w : Nat) (ecc : EccW) (s : State) : Out :=
  match (s.block b).owner with
  | none => ok s
  | some p =>
    if !s.running p then ok s
    else
      match ((s.block b).barrow w).moves.find? (fun m => decide (m.due ≤ s.cycle)) with
      | none => ok s
      | some m =>
        let (s1, h) := s.moveBeat b w p m ecc
        ok (s1.onBlock b (fun z =>
          let y := z.barrow w
          let l := y.moves.map (fun n => if n.g = m.g then { n with done := n.done + 1 } else n)
          { z.setBarrow w { y with moves := l.filter (fun n => decide (n.done ≤ n.desc.lines.toNat)) } with
            xin := z.xin ++ [h] }))

/-! ### INSTRUCTION_LOAD_COMPLETE (R75, R80) -/

/-- The words and entry table of a CELL_CODE section as a valid bank. -/
def codeBank (words : SMap Word) (entry : List Nat) (valid : Bool) : Bank :=
  { words := putAll 0#64 [] words, entry := putAll 0 [] ((List.range 8).map (fun j => (j, entry.getD j 0))), valid }

/-- The physical cell of a position of a virtual block in partition `p`. -/
def State.cellAt (s : State) (p vb pos : Nat) : Option Nat :=
  let b := (s.part p).bindBlock vb
  ((s.block b).map[pos]?).map (fun c => 32 * b + c)

def Cell.setBank (x : Cell) (k : Bool) (y : Bank) : Cell := if k then { x with bank1 := y } else { x with bank0 := y }

/-- The reject record of an accepted image bound with `x` (Table 15.10). -/
def acceptRecord (x : Nat) : List (Nat × Nat) := [(1, 0), (1, x), (2, 0), (4, 0xFFFFFFFF), (8, 0), (8, 0), (8, 0)]

/-- Lines of a load: 257 to a section, line 256 the entry table (R79). -/
def BankLoad.lines (l : BankLoad) : Nat := 257 * l.secs.length

/-- The `i`-th line of a CELL_CODE section written into a bank. -/
def Bank.loadLine (k : Bank) (words : SMap Word) (entry : List Nat) (i : Nat) : Bank :=
  if i < 256 then { k with words := putAll 0#64 k.words ((List.range 32).map (fun j => (32 * i + j, look 0#64 words (32 * i + j)))) }
  else { k with entry := putAll 0 k.entry ((List.range 8).map (fun j => (j, entry.getD j 0))) }

/-- Cells that a load writes. -/
def State.loadCells (s : State) (p : Nat) (l : BankLoad) : List Nat := l.secs.filterMap (fun x => s.cellAt p x.unit (x.sub % 16))

/-- The load in progress may write in this cycle: a partition that is not RUNNING at once, a RUNNING one in the cycles its image
leases for instruction loading (R79, log entry 67). -/
def State.loadSlot (s : State) (p : Nat) : Bool :=
  let q := s.part p
  decide (q.st ≠ .running) || q.leases.any (fun l => decide (l.res = 1 ∧ l.use = 4 ∧ l.first ≤ s.fcyc ∧ s.fcyc ≤ l.first + l.count))

/-- One line of a load is written; the first write clears the target bank's VALID in every cell of the load (R75). -/
def State.loadStep (s : State) (p : Nat) : State :=
  match (s.part p).bankLoad with
  | none => s
  | some l =>
    if l.lines ≤ l.done ∨ !s.loadSlot p then s
    else
      let s1 := if l.done ≠ 0 then s else (s.loadCells p l).foldl (fun s c =>
        s.onCell c (fun y => y.setBank l.bank { (if l.bank then y.bank1 else y.bank0) with valid := false })) s
      let s2 := match l.secs[l.done / 257]? with
        | some { data := .cellCode words entry, unit := u, sub := sb, .. } =>
          match s1.cellAt p u (sb % 16) with
          | none => s1
          | some c => s1.onCell c (fun y =>
              y.setBank l.bank ((if l.bank then y.bank1 else y.bank0).loadLine words entry (l.done % 257)))
        | _ => s1
      s2.onPart p (fun q => { q with bankLoad := some { l with done := l.done + 1 } })

/-- The code of a bank after a load: the sections loaded, and of those before them the ones they do not replace. -/
def newCode (new old : List Section) : List Section :=
  new ++ old.filter (fun x => !new.any (fun y => decide (y.unit = x.unit ∧ y.sub = x.sub)))

/-- The digest of a bank's contents. -/
def Bank.digest (k : Bank) : Hash := Config.sha3 (codeBytes k.words (look 0 k.entry))

/-- Every bank that a load has written has the digest that the plan section gives (R75, R407). -/
def State.loadGood (s : State) (p : Nat) (l : BankLoad) : Bool :=
  l.secs.all (fun x => match s.cellAt p x.unit (x.sub % 16) with
    | none => false
    | some c => decide (Bank.digest ((s.cell c).bank l.bank) = x.digest))

/-- INSTRUCTION_LOAD_COMPLETE: the last line of a plan section's load is written. With the digest the plan section gives, its banks
are VALID; otherwise VALID stays clear and the load has failed (R75). -/
def execInstructionLoadComplete (p : Nat) (s : State) : Out :=
  match (s.part p).bankLoad with
  | none => ok s
  | some l =>
    if l.done < l.lines then ok s
    else
      let good := s.loadGood p l
      let s1 := (s.loadCells p l).foldl (fun s c =>
        s.onCell c (fun y => y.setBank l.bank { (if l.bank then y.bank1 else y.bank0) with valid := good })) s
      let s2 := s1.post? l.hdr 0x0302 (if good then 0x00 else 0x09) (acceptRecord (s1.part p).binding)
      ok (s2.onPart p (fun q =>
        { q with bankLoad := none, bankStatus := if good then .done else .failed
                 bankCode0 := if good && !l.bank then newCode l.secs q.bankCode0 else q.bankCode0
                 bankCode1 := if good && l.bank then newCode l.secs q.bankCode1 else q.bankCode1 }))

end Sys2Proof.Machine
end

