-- ==== Sys2Proof/Machine/Stacks.lean ====
section
/-! DEFINITION. The Obliner stacks, their merge units, repair and zeroisation (08_obliner_stacks.md, R233 to R239). A command
serves the beat of the module's present cycle at the stack's lowest attachment channel that it applies to. -/

namespace Sys2Proof.Machine

def stackFault (name : Nat) : Nat := 0x40 + name

/-- Quarters of a channel's die in this grade (Table 8.1): 32 Gb dies hold four leases, 24 Gb dies three. -/
def State.quarters (s : State) : Nat := if s.fuses.grade = 3 then 3 else 4

/-- Slices of the cold frame per channel in this grade (Table 0.2). -/
def State.slices (s : State) : Nat := if s.fuses.grade = 3 then 32 else 64

/-! ### Burst slots (R194, R195) -/

/-- A burst slot: channel, index 3m + j in the frame, slot number. -/
structure Slt where
  ch  : Nat
  idx : Nat
  n   : Nat
  deriving DecidableEq, Repr

/-- The burst slot of attachment cycle `y` on attachment channel `a`. -/
def slotOf (y a : Nat) : Slt :=
  let fc := y % 1024
  let p := 6 * (fc % 8) + a
  let i := 3 * (fc / 8) + p % 3
  { ch := p / 3, idx := i, n := 384 * (y / 1024) + i }

/-- The position of a stack in its region's window of channel `ch`, if the cycle lies in it (R195). -/
def windowPos (ch cyc : Nat) : Option Nat :=
  let fc := cyc % 1024
  if 64 * ch ≤ fc ∧ fc < 64 * ch + 32 then some (fc - 64 * ch) else none

/-! ### Lines (R202, R216, R218) -/

/-- Line number within a stack: channel, quarter, line L. -/
def lineKey (ch q l : Nat) : Nat := (4 * ch + q) * 2 ^ 22 + l

def dramBank (q l : Nat) : Nat := 8 * q + l % 8
def rowOf (l : Nat) : Nat := l / 128

/-- The ciphertext of a stored line (R216). -/
def SLine.cipher (x : SLine) : Line := if x.key = 0 then x.data else xtsEnc (Config.secret x.key) x.tweak x.data

/-- A stored line as decrypted under a key and a tweak: what it was written with under the same, else the plaintext that XTS gives
for its ciphertext. -/
def SLine.readAs (x : SLine) (key tweak : Nat) : Line :=
  if x.key = key ∧ x.tweak = tweak then x.data else xtsDec (Config.secret key) tweak x.cipher

/-- Line `l` of a lease's place as unlisted: its blank, or the new one where zeroisation has passed it (R218). -/
def blankLine (b : Blank) (w : Option Wipe) (l : Nat) : SLine :=
  let z := match w with
    | some w => if l < w.done then w.to' else b
    | none => b
  { key := z.key, tweak := if z.key = 0 then 0 else z.lease * 2 ^ 22 + l, data := 0 }

/-- What is stored at line `l` of place `zk`, whose listing key is `lk`. -/
def storedLine (lines : SMap SLine) (blank : SMap Blank) (wipes : SMap (Option Wipe)) (lk zk l : Nat) : SLine :=
  (find lines lk).getD (blankLine (look {} blank zk) (look none wipes zk) l)

/-- What a stack stores at line `l` of a lease's place. -/
def Stack.stored (x : Stack) (loc : LeaseLoc) (l : Nat) : SLine :=
  storedLine x.lines x.blank x.wipes (lineKey loc.ch loc.sub l) (4 * loc.ch + loc.sub) l

/-! ### The symbol code (R208 to R210) -/

/-- The field polynomial x^16 + x^12 + x^3 + x + 1. -/
def stkPoly : Nat := 0x1100B

/-- Check symbols of 64 data symbols. -/
def stkCheck (data : List Nat) : List Nat := rsCheck 16 stkPoly (rsGen 16 stkPoly 8) data

/-- The 64 data symbols of half `h` of a ciphertext line, and its codeword (R208). -/
def halfSyms (x : Line) (h : Nat) : List Nat := (List.range 64).map (fun k => bits x.toNat (1024 * h + 16 * k) 16)
def halfCode (x : Line) (h : Nat) : List Nat := halfSyms x h ++ stkCheck (halfSyms x h)

/-- The error on symbol `k` of half `h`, and the symbols that err; `errs` lists half, symbol and the bits that differ. -/
def errAt (errs : List (Nat × Nat × Nat)) (h k : Nat) : Nat :=
  (errs.filter (fun e => decide (e.1 = h ∧ e.2.1 = k))).foldl (fun a e => Nat.xor a (e.2.2 % 65536)) 0
def errSyms (errs : List (Nat × Nat × Nat)) (h : Nat) : List Nat := (List.range 72).filter (fun k => decide (errAt errs h k ≠ 0))

/-- Half `h` as the base die receives it. -/
def halfRecv (x : Line) (errs : List (Nat × Nat × Nat)) (h : Nat) : List Nat :=
  List.zipWith Nat.xor (halfCode x h) ((List.range 72).map (errAt errs h))

/-- What the code makes of a half: an error is `missed` where the word received is itself a codeword, and `open'` for any other
pattern of more than four symbols, which need not be detected (R210). -/
inductive HalfEcc where
  | clean | corrected | uncorrectable | missed | open'
  deriving DecidableEq, Repr

def halfEcc (x : Line) (errs : List (Nat × Nat × Nat)) (h : Nat) : HalfEcc :=
  let l := errSyms errs h
  if l.isEmpty then .clean
  else if l.length ≤ 1 then .corrected
  else if l.all (fun k => decide (k / 4 = l.headD 0 / 4)) then .corrected
  else if l.length ≤ 4 then .uncorrectable
  else if stkCheck ((halfRecv x errs h).take 64) = (halfRecv x errs h).drop 64 then .missed
  else .open'

/-- Corrected halves, whether some half is reported uncorrectable, whether some half's outcome is open. -/
def lineEcc (x : Line) (errs : List (Nat × Nat × Nat)) : Nat × Bool × Bool :=
  let a := halfEcc x errs 0
  let b := halfEcc x errs 1
  (b2n (decide (a = .corrected)) + b2n (decide (b = .corrected)), decide (a = .uncorrectable ∨ b = .uncorrectable),
    decide (a = .open' ∨ b = .open'))

/-- The ciphertext that leaves the code: a missed half as received. -/
def lineRecv (x : Line) (errs : List (Nat × Nat × Nat)) : Line :=
  let half (h : Nat) : List Nat := if halfEcc x errs h = .missed then halfRecv x errs h else halfSyms x h
  BitVec.ofNat 2048 ((List.range 128).foldl (fun a i => a + ((half (i / 64)).getD (i % 64) 0) * 2 ^ (16 * i)) 0)

/-- A line as read through the code and decrypted. -/
def SLine.readEcc (x : SLine) (errs : List (Nat × Nat × Nat)) (key tweak : Nat) : Line :=
  if halfEcc x.cipher errs 0 = .missed ∨ halfEcc x.cipher errs 1 = .missed then
    xtsDec (Config.secret key) tweak (lineRecv x.cipher errs)
  else x.readAs key tweak

/-! ### Requests (Table 8.2) -/

structure Req where
  op    : Nat
  count : Nat
  paddr : Nat
  ret   : Sb
  deriving DecidableEq, Repr

def Beat.req (x : Beat) : Req :=
  { op := bits x.data.toNat 60 4, count := bits x.data.toNat 0 12, paddr := bits x.data.toNat 64 40
    ret := sbOf (bits x.data.toNat 128 64) }

def Beat.isReq (x : Beat) (op : Nat) : Bool := decide (x.sb.kind = 2 ∧ x.req.op = op)

/-- The returned beat goes to a merge buffer (R236). -/
def mergeRet (k : Nat) (r : Sb) : Bool := decide (r.kind = 1 ∧ r.dkind = 3 ∧ r.dblock.toNat = stackBlock k)

/-- DETAIL1 of a memory record (Table 19.8). -/
def memD1 (ch idx bank : Nat) : Nat := ch + idx % 256 * 2 ^ 8 + bank * 2 ^ 16

/-- The merge trellis row of a burst slot, with the partition that leases the slot (R237). -/
def State.mergeRow (s : State) (k : Nat) (y a : Nat) : Option (Nat × BitVec 32) :=
  let z := slotOf y a
  match s.outHolder (stackBlock k) (12 + a) (y % 1024) with
  | none => none
  | some p =>
    let q := s.part p
    let off := q.epochOff - (s.cycle - y)
    (segAt (q.mergeTbl (q.bindStack k) z.ch q.ver) q.seg (384 * (off / 1024) + z.idx)).map (fun r => (p, r))

def State.merges (s : State) (k y a : Nat) : Bool :=
  match s.mergeRow k y a with
  | none => false
  | some (_, r) => r.getLsbD 31

/-! ### Serving -/

/-- The first beat due at a stack that `f` selects, lowest attachment channel first, and the stack's other beats. -/
def takeHop (l : List Hop) (t : Nat) (f : Hop → Bool) : Option (Hop × List Hop) :=
  let c := l.filter (fun h => decide (h.cyc ≤ t) && f h)
  match c with
  | [] => none
  | h0 :: hs =>
    let h := hs.foldl (fun a b => if b.cyc < a.cyc ∨ (b.cyc = a.cyc ∧ b.port < a.port) then b else a) h0
    some (h, l.filter (fun x => decide (x ≠ h)))

/-- A stack fault against the sender of a request. -/
def State.stkFault (s : State) (k code p paddr : Nat) (z : Slt) (bank : Nat) : State :=
  s.partFault code [p] (locRegion (k / 3)) paddr (memD1 z.ch z.idx bank)

/-- Spacing on a bank (R199): last slot number used, plus 1. -/
def Stack.spaced (x : Stack) (z : Slt) (bank : Nat) : Bool :=
  let last := look 0 x.lastSlot (32 * z.ch + bank)
  decide (last = 0 ∨ last + 7 ≤ z.n)

def Stack.use (x : Stack) (z : Slt) (bank : Nat) : Stack :=
  { x with lastSlot := put 0 x.lastSlot (32 * z.ch + bank) (z.n + 1) }

/-- Spare rows of a bank that are in use or to be used. -/
def StkChan.rowsTaken (c : StkChan) (bank : Nat) : Nat :=
  look 0 c.rowsUsed bank + (c.copies.filter (fun r => decide (r.bank = bank))).length

/-- The channel with a row hit recorded; the row is repaired when corrected errors were found in it in two scrub passes, or
one uncorrectable error (R212), while a spare row is left. Otherwise the die is FAILING (R214). Rows that need repair while another
row is being copied wait their turn (log entry 69). -/
def StkChan.hit (c : StkChan) (bank row : Nat) (uncorr : Bool) : StkChan :=
  let key := 32768 * bank + row
  let last := look 0 c.hits key
  if c.copies.any (fun r => decide (r.bank = bank ∧ r.row = row)) then c
  else if uncorr || (decide (last ≠ 0) && decide (last ≠ c.pass + 1)) then
    if c.rowsTaken bank < 16 then { c with copies := c.copies ++ [{ bank, row, done := 0 }] }
    else { c with failing := true }
  else { c with hits := put 0 c.hits key (c.pass + 1) }

def Stack.chan (x : Stack) (ch : Nat) : StkChan := look StkChan.zero x.chans ch
def Stack.onChan (x : Stack) (ch : Nat) (f : StkChan → StkChan) : Stack := { x with chans := upd StkChan.zero x.chans ch f }

/-- After a die has become FAILING (R214, R215): evacuation starts when the spare die is free; with the spare assigned the
stack is FAILED. -/
def State.settleFailing (s : State) (k ch : Nat) : State :=
  let x := s.stack k
  if !(x.chan ch).failing then s
  else if x.spareFor.isSome then
    if x.spareFor = some ch ∨ x.state = .failed then s else s.onStack k (fun y => { y with state := .failed })
  else if x.evac.isSome then s
  else (s.onStack k (fun y => { y with evac := some (ch, 0) })).modEvent 0xC2 (locRegion (k / 3)) k 0

/-- The key in a partition's key slot of a base die, 0 where the slot is empty (R217). -/
def Stack.key (x : Stack) (p : Nat) : Nat := look 0 x.keys p

/-- What a READ gives: its data, after checks in the order FAILED, KEY_ABSENT, ADDRESS, absence of a scion, BANK, errors
(R199, R203, R210, R211, R215, R217, R233). The Bool says that DRAM was read whole. -/
def State.serveRead (s : State) (k : Nat) (h : Hop) (errs : List (Nat × Nat × Nat)) : State × Line × Bool :=
  let z := slotOf h.cyc h.port
  let p := h.beat.sb.part.toNat
  let q := s.part p
  let a := h.beat.req.paddr
  let x := s.stack k
  if x.state = .failed then (s.stkFault k 0x45 p a z 0, 0, false)
  else if x.key p = 0 then (s.stkFault k 0x44 p a z 0, 0, false)
  else
    match q.target a with
    | .bad => (s.stkFault k 0x41 p a z 0, 0, false)
    | .absent loc => if loc.unit = k ∧ loc.ch = z.ch then (s, 0, false) else (s.stkFault k 0x41 p a z 0, 0, false)
    | .at loc lease off =>
      if ¬(loc.unit = k ∧ loc.ch = z.ch) then (s.stkFault k 0x41 p a z 0, 0, false)
      else
        let l := off / 256
        let bank := dramBank loc.sub l
        if !x.spaced z bank then (s.stkFault k 0x42 p a z bank, 0, false)
        else
          let s := ((s.onStack k (fun y => y.use z bank)).count (locRegion (k / 3)) 0x203 1).spend 11 (some p) 1
          let ln := x.stored loc l
          let (ce, unc, opn) := lineEcc ln.cipher errs
          let s := (s.onStack k (fun y => { y with ce := y.ce + BitVec.ofNat 16 ce })).count (locRegion (k / 3)) 0x204 ce
          let unc' := unc || (opn && Config.freeBool s.freeCtr)
          let s := if ce = 0 ∧ !unc' then s
            else (s.onStack k (fun y => y.onChan z.ch (fun c => c.hit bank (rowOf l) unc'))).settleFailing k z.ch
          if unc' then ((s.stkFault k 0x40 p a z bank).fresh, 0, false)
          else if opn then (s.fresh, Config.freeLine s.freeCtr, true)
          else (s, ln.readEcc errs (x.key p) ((lease * 2 ^ 30 + off) / 256), true)

/-- Take the beat `f` selects out of the stack's arrivals, as it is read there (R161, R192), and go on with it. The channel's
lease is the partition's whose beat left on it in that cycle. -/
def State.withHop (s : State) (k : Nat) (pecc : BeatEcc) (f : Hop → Bool) (g : State → Hop → State) : Out :=
  match takeHop (s.stack k).arrive s.cycle f with
  | none => ok s
  | some (h, rest) =>
    let s1 := s.onStack k (fun y => { y with arrive := rest })
    if s.running h.beat.sb.part.toNat then
      let ps := (s.outHolder (stackBlock k) (12 + h.port) (h.cyc % 1024)).toList
      let (s2, x) := s1.readBeat (k / 3) (locRegion (k / 3)) (12 + h.port) ps (BeatEcc.at' pecc h.port) h.beat
      ok (g s2 { h with beat := x })
    else ok s1

/-- Queue the data beat of a READ for cycle y + 72 (R196). -/
def State.returns (s : State) (k : Nat) (h : Hop) (d : Line) (merge : Bool) : State :=
  s.onStack k (fun y => { y with rets := y.rets ++
    [{ due := h.cyc + 72, port := h.port, beat := { sb := h.beat.req.ret, data := d }, merge, ch := (slotOf h.cyc h.port).ch }] })

/-- STACK_READ: a READ that is neither a merge fetch nor in a merge slot. -/
def execStackRead (k : Nat) (errs : List (Nat × Nat × Nat)) (pecc : BeatEcc) (s : State) : Out :=
  s.withHop k pecc (fun h => h.beat.isReq 1 && !mergeRet k h.beat.req.ret && !s.merges k h.cyc h.port) (fun s h =>
    let (s1, d, _) := s.serveRead k h errs
    s1.returns k h d false)

/-- MERGE_FETCH (R236): the line goes to a buffer line of its channel, which the partition must lease. -/
def execMergeFetch (k : Nat) (errs : List (Nat × Nat × Nat)) (pecc : BeatEcc) (s : State) : Out :=
  s.withHop k pecc (fun h => h.beat.isReq 1 && mergeRet k h.beat.req.ret) (fun s h =>
    let z := slotOf h.cyc h.port
    let p := h.beat.sb.part.toNat
    let q := s.part p
    let (s1, d, _) := s.serveRead k h errs
    if q.leases? 4 0 (16 * q.bindStack k + z.ch) 0 (h.beat.req.ret.line.toNat % 128) then s1.returns k h d true
    else s1.stkFault k 0x50 p h.beat.req.paddr z 0)

/-- Merge buffer writes made before cycle `t`. -/
def Stack.landMerge (x : Stack) (t : Nat) : Stack :=
  (x.rets.filter (fun r => r.merge && decide (r.due < t))).foldl
    (fun x r => x.onChan r.ch (fun c => { c with mbuf := put 0#2048 c.mbuf (r.beat.sb.line.toNat % 128) r.beat.data }))
    { x with rets := x.rets.filter (fun r => !(r.merge && decide (r.due < t))) }

/-- Record r of a tile: byte `i` (Table 9.4). -/
def recByte (ls : List Line) (r i : Nat) : Nat := bits ((ls.getD (r / 4) 0).toNat) (8 * (64 * (r % 4) + i)) 8

/-- The valid record for sub-tile `t` among the 4K records of lines `ls`: POS[7] set and POS[5:0] = t. -/
def recFor (ls : List Line) (t : Nat) : Option Nat :=
  (List.range (4 * ls.length)).find? (fun r => decide (recByte ls r 32 / 128 = 1 ∧ recByte ls r 32 % 64 = t))

/-- Bit `b` of MASK, and the set bits below it. -/
def maskBit (ls : List Line) (r b : Nat) : Bool := bit (recByte ls r (b / 8)) (b % 8)
def maskBelow (ls : List Line) (r b : Nat) : Nat := ((List.range b).filter (fun i => maskBit ls r i)).length

/-- One element of a merged line (pseudocode after R239). -/
def mergeElem (f : Fmt) (i8mx : Bool) (r li : Nat) (ls : List Line) (i e : Nat) : Nat :=
  let k := r * li + i / 128
  let n := i % 128
  let t := 8 * (k / 16) + n / 16
  let b := 16 * (k % 16) + n % 16
  match recFor ls t with
  | none => e
  | some rc =>
    if !maskBit ls rc b then e
    else
      match decodeNum f e with
      | .fin sx mx ex =>
        let d := match decodeNum (.flt fE4M3) (recByte ls rc (34 + maskBelow ls rc b)) with
          | .fin sd md ed => Num.fin sd md (ed + ((recByte ls rc 33 : Nat) : Int) - 127 + (if i8mx then 6 else 0))
          | y => y
        match addNum (.fin sx mx ex) d with
        | .fin sv mv ev => cvtValue (.fin (sv && decide (mv ≠ 0)) mv ev) f 0 true 0
        | y => cvtValue y f 0 true 0
      | _ => e

/-- A merged line (R239). -/
def mergeLine (row : BitVec 32) (ls : List Line) (x : Line) : Line :=
  let ef := bits row.toNat 27 4
  match fmtOf ef with
  | none => x
  | some f =>
    let w := f.width
    let r := 16 / w
    let li := bits row.toNat 17 7
    let i8 := decide (ef = 0x6 ∧ row.getLsbD 26)
    BitVec.ofNat 2048 ((List.range (128 * r)).foldl
      (fun acc i => acc + mergeElem f i8 r li ls i (bits x.toNat (w * i) w) * 2 ^ (w * i)) 0)

/-- The merge row as read (R187): an uncorrectable word is a fault against the partition that leases the slot, and a free value. -/
def State.readMergeRow (s : State) (k : Nat) (tecc : Ecc) (p : Nat) (row : BitVec 32) : State × BitVec 32 :=
  match tecc with
  | .ok => (s, row)
  | .corrected => (s.count (locBlock (stackBlock k)) 0x106 1, row)
  | .uncorrectable =>
    ((s.partFault 0x36 [p] (locRegion (k / 3)) 0 (s.pathD1 0)).fresh, BitVec.ofNat 32 (Config.freeBits s.freeCtr))

/-- MERGED_READ (R238, R239, R247): the READ of a slot whose merge row has MERGE = 1; `mecc` is found on the buffer lines, `tecc` on
the row. -/
def execMergedRead (k : Nat) (errs : List (Nat × Nat × Nat)) (mecc tecc : Ecc) (pecc : BeatEcc) (s : State) : Out :=
  s.withHop k pecc (fun h => h.beat.isReq 1 && !mergeRet k h.beat.req.ret && s.merges k h.cyc h.port) (fun s h =>
    let z := slotOf h.cyc h.port
    let s := s.onStack k (fun y => y.landMerge h.cyc)
    match s.mergeRow k h.cyc h.port with
    | none =>
      let (s1, d, _) := s.serveRead k h errs
      s1.returns k h d false
    | some (p, row0) =>
      let (s0, row) := s.readMergeRow k tecc p row0
      let (s1, d, good) := s0.serveRead k h errs
      let c := (s.stack k).chan z.ch
      let buf := bits row.toNat 10 7
      let ls := (List.range (bits row.toNat 24 2 + 1)).map (fun i => look 0#2048 c.mbuf (buf + i))
      if !good || !row.getLsbD 31 then s1.returns k h d false
      else if mecc = .uncorrectable then
        ((s1.stkFault k 0x51 p h.beat.req.paddr z 0).fresh).returns k h (Config.freeLine s1.freeCtr) false
      else (s1.count (locRegion (k / 3)) 0x208 1).returns k h (mergeLine row ls d) false)

/-- STACK_DATA_RETURN: data beats due are at the router on their attachment channel; merge lines written before this cycle
are in their buffers (R196, R236). -/
def execStackDataReturn (k : Nat) (s : State) : Out :=
  let due := (s.stack k).rets.filter (fun r => !r.merge && decide (r.due ≤ s.cycle))
  let s1 := s.onStack k (fun y =>
    { y with rets := y.rets.filter (fun r => r.merge || decide (s.cycle < r.due)) }.landMerge s.cycle)
  ok (s1.onBlock (stackBlock k) (fun b =>
    { b with rin := b.rin ++ due.map (fun r => { cyc := s.cycle, port := 12 + r.port, beat := r.beat }) }))

/-- The key of a partition's open count on a channel. -/
def openKey (p ch : Nat) : Nat := 16 * p + ch

/-- The DRAM line of a write to partition address `a` on channel `ch` of stack `k`: its place, where the address lies there
(R203). -/
def Part.writeLoc (p : Part) (k ch a : Nat) : Option LeaseLoc := (p.targetW a).filter (fun loc => decide (loc.unit = k ∧ loc.ch = ch))

/-- STACK_WRITE_OPEN (R197): opens a count, or raises a fault and opens none. It performs no DRAM access; its address must keep the
spacing of R199 to the accesses before it, and its slot counts as unused for later ones (log entry 70). -/
def execStackWriteOpen (k : Nat) (pecc : BeatEcc) (s : State) : Out :=
  s.withHop k pecc (fun h => h.beat.isReq 2) (fun s h =>
    let z := slotOf h.cyc h.port
    let p := h.beat.sb.part.toNat
    let r := h.beat.req
    let x := s.stack k
    if x.state = .failed then s.stkFault k 0x45 p r.paddr z 0
    else if x.key p = 0 then s.stkFault k 0x44 p r.paddr z 0
    else if (look none x.opens (openKey p z.ch)).isSome then s.stkFault k 0x43 p r.paddr z 0
    else
      match (s.part p).writeLoc k z.ch r.paddr with
      | none => s.stkFault k 0x41 p r.paddr z 0
      | some loc =>
        let bank := dramBank loc.sub (r.paddr % 2 ^ 30 / 256)
        if !x.spaced z bank then s.stkFault k 0x42 p r.paddr z bank
        else s.onStack k (fun y =>
          { y with opens := put none y.opens (openKey p z.ch) (some { paddr := r.paddr, lines := r.count + 1, next := 0 }) }))

/-- STACK_WRITE_BEAT (R197 to R199): write beat j of the open count takes its place whether it writes or a fault stops it. -/
def execStackWriteBeat (k : Nat) (pecc : BeatEcc) (s : State) : Out :=
  s.withHop k pecc (fun h => decide (h.beat.sb.kind = 1)) (fun s h =>
    let z := slotOf h.cyc h.port
    let p := h.beat.sb.part.toNat
    let x := s.stack k
    match look none x.opens (openKey p z.ch) with
    | none => if x.state = .failed then s.stkFault k 0x45 p 0 z 0
              else if x.key p = 0 then s.stkFault k 0x44 p 0 z 0 else s.stkFault k 0x43 p 0 z 0
    | some o =>
      let a := o.paddr + 256 * o.next
      let o' : Option OpenCount := if o.next + 1 < o.lines then some { o with next := o.next + 1 } else none
      let s := s.onStack k (fun y => { y with opens := put none y.opens (openKey p z.ch) o' })
      if x.state = .failed then s.stkFault k 0x45 p a z 0
      else if x.key p = 0 then s.stkFault k 0x44 p a z 0
      else
        match (s.part p).writeLoc k z.ch a with
        | none => s.stkFault k 0x41 p a z 0
        | some loc =>
          let l := a % 2 ^ 30 / 256
          let bank := dramBank loc.sub l
          if !x.spaced z bank then s.stkFault k 0x42 p a z bank
          else
            let ln : SLine := { key := x.key p, tweak := a / 256, data := h.beat.data }
            (s.onStack k (fun y => { y.use z bank with lines := put {} y.lines (lineKey loc.ch loc.sub l) ln })).count
              (locRegion (k / 3)) 0x203 1 |>.spend 11 (some p) 1)

/-! ### The reserved window (R204 to R207) -/

/-- STACK_REFRESH: the window's refresh operation; a second one while HOT (Table 8.4); one in each half. -/
def execStackRefresh (k ch : Nat) (s : State) : Out :=
  match windowPos ch s.cycle with
  | none => ok s
  | some w =>
    let now := 2 * s.frm + w / 8 + 1
    if (w < 8 ∨ (w < 16 ∧ (s.stack k).hot)) ∧ ((s.stack k).chan ch).refAt ≠ now then
      ok ((s.onStack k (fun y => y.onChan ch (fun c => { c with refresh := (c.refresh + 1) % 8192, refAt := now }))).count
        (locRegion (k / 3)) 0x205 1)
    else ok s

/-- The running partitions whose plan uses the lease at a place (R211, R254). -/
def State.leaseUsers (s : State) (tier : Tier) (loc : LeaseLoc) : List Nat :=
  allParts.filter (fun p =>
    let q := s.part p
    let l := match tier with
      | .stack => q.stackTabA ++ q.stackTabB
      | .cold => q.coldTabA ++ q.coldTabB
    s.running p && (imageLeases q.base).any (fun x => decide (x.1 = tier) && l.any (fun e => decide (e.1 = x.2 ∧ e.2 = some loc))))

/-- The scrub cycles of a channel: w = 8 to 15, unless HOT; one line in each window (Table 8.4). -/
def State.scrubNow (s : State) (k ch : Nat) : Bool :=
  !(s.stack k).hot && decide (((s.stack k).chan ch).window ≠ s.frm + 1) && (match windowPos ch s.cycle with
    | some w => decide (8 ≤ w ∧ w < 16)
    | none => false)

/-- STACK_SCRUB: one line is read, checked and written back if corrected (R206, R211, R212, R214). While a row copy is in progress on
the channel the window serves the copy and scrub pauses (DESIGN CHOICE, log entry 69). -/
def execStackScrub (k ch : Nat) (errs : List (Nat × Nat × Nat)) (s : State) : Out :=
  let x := s.stack k
  let evac : Bool := match x.evac with
    | some (c, _) => decide (c = ch)
    | none => false
  if !s.scrubNow k ch || evac || !(x.chan ch).copies.isEmpty then ok s
  else
    let c := x.chan ch
    let n := c.scrub
    let q := n / 2 ^ 22
    let l := n % 2 ^ 22
    let (ce, unc, opn) := lineEcc (x.stored { unit := k, ch, sub := q } l).cipher errs
    let unc' := unc || (opn && Config.freeBool s.freeCtr)
    let total := s.quarters * 2 ^ 22
    let wrap := decide (n + 1 = total)
    let corr := c.passCorr + (if ce = 0 then 0 else 1)
    let s := s.fresh.onStack k (fun y => { y with ce := y.ce + BitVec.ofNat 16 ce })
    let s := (s.count (locRegion (k / 3)) 0x204 ce).count (locRegion (k / 3)) 0x206 1
    let s := s.onStack k (fun y => y.onChan ch (fun c =>
      let c := if ce = 0 ∧ !unc' then c else c.hit (dramBank q l) (rowOf l) unc'
      { c with scrub := (n + 1) % total, pass := if wrap then c.pass + 1 else c.pass, window := s.frm + 1
               passCorr := if wrap then 0 else corr, failing := c.failing || decide (4096 < corr) }))
    let s := if unc' then
      s.partFault 0x40 (s.leaseUsers .stack { unit := k, ch, sub := q }) (locRegion (k / 3)) 0 (memD1 ch 0 (dramBank q l)) else s
    ok (s.settleFailing k ch)

/-- RETRAIN_SWEEP_DUE: every 100 ms by the local timer a sweep falls due on every channel (R207, R249). -/
def execRetrainSweepDue (s : State) : Out :=
  let sweep (x : Stack) : Stack := (List.range 16).foldl (fun y ch =>
    y.onChan ch (fun c => { c with sweep := some (c.sweep.getD 0) })) x
  let s1 := (List.range 12).foldl (fun s k => s.onStack k sweep) s
  let cs := (List.range 16).foldl (fun m ch => upd CfChan.zero m ch (fun c => { c with sweep := true })) s1.cold.chans
  ok { s1 with cold := { s1.cold with chans := cs } }

/-! ### The repair record (Table 8.5, R219) -/

/-- A repair entry. -/
def repairEntry (ty die bank row spare : Nat) : BitVec 64 :=
  BitVec.ofNat 64 (ty * 2 ^ 60 + die * 2 ^ 55 + bank * 2 ^ 50 + row * 2 ^ 35 + spare * 2 ^ 30)

/-- The fields of the identity memory that DIGEST covers; `gbit` is DIE_GBIT. -/
def Stack.identity (y : Stack) (gbit : Nat) : List Nat :=
  [0x4F420001, gbit, 0x1011, y.serial, y.build, y.spareFor.getD 0xFF, y.pinFail, y.repairs.length] ++ y.repairs.map (·.toNat)

/-- Append entries as far as the record has room, rewrite DIGEST, and mirror the record in hub flash. -/
def Stack.record (y : Stack) (gbit : Nat) (es : List (BitVec 64)) : Stack :=
  let y1 := { y with repairs := (y.repairs ++ es).take 448 }
  { y1 with digest := some (Config.sha3 (y1.identity gbit)), mirror := y1.repairs }

def State.gbit (s : State) : Nat := if s.fuses.grade = 3 then 24 else 32

/-- Pin pairs of a channel that could not be trained, and whether the channel fails as a whole: those not known before are recorded, two
pairs or the whole make the stack FAILED, one makes it DEGRADED (R215, R219). -/
def Stack.losePins (y : Stack) (gbit ch : Nat) (failed : List Nat) (whole : Bool) : Stack :=
  let new := (failed.filter (fun f => !(y.chan ch).pins.contains f)).eraseDups
  let pins := (y.chan ch).pins ++ new
  let y1 := y.onChan ch (fun c => { c with pins })
  let y2 := { y1 with
    pinFail := y.pinFail + new.length
    state := if whole ∨ 2 ≤ pins.length then .failed else if new.isEmpty ∨ y.state = .failed then y.state else .degraded }
  if new.isEmpty then y2 else y2.record gbit (new.map (fun f => repairEntry 4 ch 0 f 0))

/-- STACK_RETRAIN_STEP: one group of the sweep is trained in w = 16 to 31, one in each window; pin pairs of the group in `failed` are
lost; `whole`: the channel fails retraining as a whole (R207, R215, R219). -/
def execStackRetrainStep (k ch : Nat) (failed : List Nat) (whole : Bool) (s : State) : Out :=
  let c := (s.stack k).chan ch
  match windowPos ch s.cycle, c.sweep with
  | some w, some g =>
    if w < 16 ∨ c.trained = s.frm + 1 then ok s
    else
      ok (s.onStack k (fun y =>
        (y.onChan ch (fun c => { c with sweep := if g + 1 = 18 then none else some (g + 1), trained := s.frm + 1 })).losePins s.gbit ch
          (failed.filter (fun f => decide (f / 4 = g))) whole))
  | _, _ => ok s

/-- ROW_REPAIR: the copy advances by one line in a scrub window; at the sixteenth the spare row serves and a repair entry is
appended (R212, R219). -/
def execRowRepair (k ch : Nat) (s : State) : Out :=
  let c := (s.stack k).chan ch
  match c.copies with
  | [] => ok s
  | r :: rs =>
    if !s.scrubNow k ch then ok s
    else if r.done + 1 < 16 then
      ok (s.onStack k (fun y => y.onChan ch (fun c =>
        { c with copies := { r with done := r.done + 1 } :: rs, window := s.frm + 1 })))
    else
      let e := repairEntry 1 ch r.bank r.row (look 0 c.rowsUsed r.bank)
      let s1 := s.onStack k (fun y => (y.onChan ch (fun c =>
        { c with copies := rs, window := s.frm + 1, hits := put 0 c.hits (32768 * r.bank + r.row) 0
                 rowsUsed := upd 0 c.rowsUsed r.bank (fun n => n + 1) })).record s.gbit [e])
      ok ((s1.modEvent 0xC1 (locRegion (k / 3)) k e.toNat).count (locRegion (k / 3)) 0x207 1)

/-- DIE_EVACUATION: one line of the failing die is copied in its scrub window (R214). -/
def execDieEvacuation (k : Nat) (s : State) : Out :=
  match (s.stack k).evac with
  | none => ok s
  | some (ch, done) =>
    if (s.stack k).evacDone || !s.scrubNow k ch then ok s
    else ok (s.onStack k (fun y =>
      { y.onChan ch (fun c => { c with window := s.frm + 1 }) with
        evac := some (ch, done + 1), evacDone := decide (done + 1 = s.quarters * 2 ^ 22) }))

/-- What the spare die brings to the slot it is assigned to: spares of its own, no rows hit, not FAILING. -/
def StkChan.renewed (c : StkChan) : StkChan :=
  { c with hits := [], copies := [], rowsUsed := [], colsUsed := 0, passCorr := 0, failing := false }

/-- SPARE_DIE_ASSIGN: at the frame boundary after the copy the repair map assigns the spare die (R193, R214, R215, R219). A second
die that became FAILING during the copy makes the stack FAILED now (DESIGN CHOICE, log entry 69). -/
def execSpareDieAssign (k : Nat) (s : State) : Out :=
  let x := s.stack k
  match x.evac with
  | none => ok s
  | some (ch, _) =>
    if !x.evacDone ∨ s.fcyc ≠ 0 then ok s
    else
      let e := repairEntry 3 ch 0 0 0
      let other := (List.range 16).any (fun c => decide (c ≠ ch) && (x.chan c).failing)
      let assigned (y : Stack) : Stack :=
        { y.onChan ch StkChan.renewed with
          evac := none, evacDone := false, spareFor := some ch
          state := if other ∨ y.state = .failed then .failed else .degraded }
      ok ((s.onStack k (fun y => (assigned y).record s.gbit [e])).modEvent 0xC3 (locRegion (k / 3)) k e.toNat)

/-! ### Zeroisation (R218) -/

/-- Lines of a lease. -/
def leaseLines : Nat := 2 ^ 22

/-- A stack at whose place the next `n` lines are zeroised; once all are, the place's unlisted lines are the new blank. -/
def wipeLines (lines : SMap SLine) (base : Nat) (w : Wipe) (n : Nat) : SMap SLine :=
  lines.filter (fun e => decide (e.1 < base + w.done ∨ base + w.done + n ≤ e.1))

/-- First listing key of a place, and the key of its blank. -/
def placeBase (tier : Tier) (loc : LeaseLoc) : Nat × Nat :=
  match tier with
  | .stack => (lineKey loc.ch loc.sub 0, 4 * loc.ch + loc.sub)
  | .cold => ((64 * loc.ch + loc.sub) * 2 ^ 22, 64 * loc.ch + loc.sub)

/-- The zeroisation of a place in progress. -/
def State.wipeOf (s : State) (tier : Tier) (loc : LeaseLoc) : Option Wipe :=
  match tier with
  | .stack => look none (s.stack loc.unit).wipes (placeBase tier loc).2
  | .cold => look none s.cold.wipes (placeBase tier loc).2

def State.setWipe (s : State) (tier : Tier) (loc : LeaseLoc) (w : Option Wipe) : State :=
  let zk := (placeBase tier loc).2
  match tier with
  | .stack => s.onStack loc.unit (fun y => { y with wipes := put none y.wipes zk w })
  | .cold => { s with cold := { s.cold with wipes := put none s.cold.wipes zk w } }

/-- Zeroisation of a place is to begin. -/
def State.startWipe (s : State) (tier : Tier) (loc : LeaseLoc) (b : Blank) : State := s.setWipe tier loc (some { to' := b })

/-- `n` more lines of a place are zeroised. -/
def State.wipe (s : State) (tier : Tier) (loc : LeaseLoc) (n : Nat) : State :=
  let (base, zk) := placeBase tier loc
  match s.wipeOf tier loc with
  | none => s
  | some w =>
    let n := min n (leaseLines - w.done)
    let full : Bool := decide (leaseLines ≤ w.done + n)
    let w' : Option Wipe := if full then none else some { w with done := w.done + n, frame := s.frm + 1 }
    match tier with
    | .stack => s.onStack loc.unit (fun y =>
        { y with lines := wipeLines y.lines base w n, wipes := put none y.wipes zk w'
                 blank := if full then put {} y.blank zk w.to' else y.blank })
    | .cold =>
      let c : Cold := s.cold
      { s with cold := { c with
          lines := wipeLines c.lines base w n, wipes := put none c.wipes zk w'
          blank := if full then put {} c.blank zk w.to' else c.blank } }

/-- A running plan leases the burst slot `i` of a channel for any use. -/
def State.burstLeased (s : State) (tier : Tier) (loc : LeaseLoc) (i : Nat) : Bool :=
  s.activeParts.any (fun p => match tier with
    | .stack =>
      let pos := 3 * loc.ch + i % 3
      (List.range 7).any (fun u => (s.part p).leases? 2 u ((s.part p).bindStack loc.unit) loc.ch i ||
        (s.part p).leasesOut u (stackBlock loc.unit) (12 + pos % 6) (8 * (i / 3) + pos / 6))
    | .cold => (List.range 7).any (fun u => (s.part p).leases? 3 u loc.ch 0 i))

/-- Burst slots per frame of a place's channel that zeroisation may use: outside the reserved window, leased by no running plan. -/
def State.freeBursts (s : State) (tier : Tier) (loc : LeaseLoc) : Nat :=
  let l := match tier with
    | .stack => (List.range 384).filter (fun i => decide (i < 24 * loc.ch ∨ 24 * loc.ch + 12 ≤ i))
    | .cold => (List.range 153).filter (fun i => decide (i < 9 * loc.ch ∨ 9 * loc.ch + 6 ≤ i))
  if s.activeParts.isEmpty then l.length else (l.filter (fun i => !s.burstLeased tier loc i)).length

/-- The places of a lease index: its two entries. -/
def Part.places (q : Part) (tier : Tier) (idx : Nat) : List LeaseLoc :=
  ((q.entry tier idx false).toList ++ (q.entry tier idx true).toList).eraseDups

/-- LEASE_ZEROISE: the lines of a pending lease that the free slots of the present frame hold are written, once a frame, at the
places of both of the lease's entries. -/
def execLeaseZeroise (p : Nat) (tier : Tier) (idx : Nat) (s : State) : Out :=
  let q := s.part p
  if q.sx.zeroPend.contains (tier, idx) then
    ok ((q.places tier idx).foldl (fun s loc =>
      match s.wipeOf tier loc with
      | some w => if w.frame = s.frm + 1 then s else s.wipe tier loc (s.freeBursts tier loc)
      | none => s) s)
  else ok s

/-- ZERO_DONE: every line of the lease is zeroised and it is usable; when none is left pending the host receives ZERO_DONE. -/
def execZeroDone (p : Nat) (tier : Tier) (idx : Nat) (s : State) : Out :=
  let q := s.part p
  if !q.sx.zeroPend.contains (tier, idx) || (q.places tier idx).any (fun loc => (s.wipeOf tier loc).isSome) then ok s
  else
    let l := q.sx.zeroPend.filter (fun e => decide (e ≠ (tier, idx)))
    let s1 := s.onPart p (fun q => { q with sx := { q.sx with zeroPend := l } })
    ok (if l.isEmpty then s1.event 0x06 p [] else s1)

/-- Every line of a place is zeroised at once (a lease that leaves a partition: nobody reads it until it joins another, log entry
24). -/
def State.zeroPlace (s : State) (tier : Tier) (loc : LeaseLoc) (b : Blank) : State :=
  (s.startWipe tier loc b).wipe tier loc leaseLines

/-- A lease index of a partition is to be zeroised at those of its places that satisfy `f`: zeros under the key (`join`), or all-zero
ciphertext (R218). -/
def State.pendLease (s : State) (p : Nat) (join : Bool) (f : LeaseLoc → Bool) (e : Tier × Nat) : State :=
  let q := s.part p
  let key := if e.1 = .stack then q.stackKey else q.coldKey
  let b : Blank := if join then { key, lease := e.2 } else {}
  let s1 := ((q.places e.1 e.2).filter f).foldl (fun s loc => s.startWipe e.1 loc b) s
  if q.sx.zeroPend.contains e then s1
  else s1.onPart p (fun q => { q with sx := { q.sx with zeroPend := q.sx.zeroPend ++ [e] } })

/-- The key in the slot through which a line of a unit is encrypted. -/
def State.slotKey (s : State) (p : Nat) (tier : Tier) (unit : Nat) : Nat :=
  match tier with
  | .stack => (s.stack unit).key p
  | .cold => look 0 s.cold.keys p

end Sys2Proof.Machine
end

