-- ==== Sys2Proof/Machine/Cold.lean ====
section
/-! DEFINITION. The cold frame (10_serving_state.md, R248 to R255, R553). -/

namespace Sys2Proof.Machine

/-- The slots of channel `ch` whose request cycle is `y`: slot indices (R248). -/
def coldSlots (ch y : Nat) : List Nat :=
  let fc := y % 1024
  if 1020 ≤ fc then []
  else
    let m := fc / 20
    ((List.range 3).filter (fun j => decide (20 * m + 5 * (3 * ch + j) / 12 = fc))).map (fun j => 3 * m + j)

/-- The groups of channel `ch` reserved for refresh and scrub: group 3ch or 3ch + 1 (R249). -/
def coldGroup (cyc : Nat) : Nat := cyc % 1024 / 20

/-- What a beat asks for: the address, whether it reads, writes or opens a count. -/
inductive ColdAsk where
  | read (a : Nat) | openW (a n : Nat) | write
  deriving DecidableEq, Repr

def Beat.coldAsk (x : Beat) : Option ColdAsk :=
  if x.isReq 1 then some (.read x.req.paddr)
  else if x.isReq 2 then some (.openW x.req.paddr (x.req.count + 1))
  else if x.sb.kind = 1 then some .write
  else none

/-- The lease, offset and burst slot for address `a` in request cycle `y`: the channel of its lease, and a slot of that
channel for its bank (R553). -/
inductive ColdSel where
  | slot (loc : LeaseLoc) (idx : Nat)
  | bank (loc : LeaseLoc)
  | none
  deriving DecidableEq, Repr

def Part.coldSel (p : Part) (write : Bool) (a y : Nat) : ColdSel :=
  match (if write then p.writeEntry .cold (a / 2 ^ 30) else p.planEntry .cold (a / 2 ^ 30)) with
  | Option.none => .none
  | some loc =>
    match coldSlots loc.ch y with
    | [] => .none
    | l =>
      match l.find? (fun i => decide (i % 16 = a / 256 % 16)) with
      | some i => .slot loc i
      | Option.none => .bank loc

def coldKeyOf (loc : LeaseLoc) (a : Nat) : Nat := (64 * loc.ch + loc.sub) * 2 ^ 22 + a % 2 ^ 30 / 256

/-- What the cold frame stores at line `l` of a lease's place. -/
def Cold.stored (c : Cold) (loc : LeaseLoc) (l : Nat) : SLine :=
  storedLine c.lines c.blank c.wipes ((64 * loc.ch + loc.sub) * 2 ^ 22 + l) (64 * loc.ch + loc.sub) l

/-- The partition's open count that a write beat of cycle `y` falls to: one whose next line has a slot in the cycle, else the
first open. -/
def State.coldOpen (s : State) (p y : Nat) : Option (Nat × OpenCount) :=
  let q := s.part p
  let l := (List.range 16).filterMap (fun ch => (look none s.cold.opens (openKey p ch)).map (fun o => (ch, o)))
  match l.find? (fun e => match q.coldSel true (e.2.paddr + 256 * e.2.next) y with
      | .slot .. => true
      | _ => false) with
  | some e => some e
  | none => l.head?

/-- The address a beat acts on. -/
def State.coldAddr (s : State) (h : Hop) : Option Nat :=
  match h.beat.coldAsk with
  | some (.read a) => some a
  | some (.openW a _) => some a
  | some .write => (s.coldOpen h.beat.sb.part.toNat h.cyc).map (fun e => e.2.paddr + 256 * e.2.next)
  | none => none

def State.coldSelOf (s : State) (h : Hop) : ColdSel :=
  match s.coldAddr h with
  | none => .none
  | some a => (s.part h.beat.sb.part.toNat).coldSel (!h.beat.isReq 1) a h.cyc

def State.coldFault (s : State) (code p a ch idx bank : Nat) : State :=
  s.partFault code [p] locHub a (memD1 ch idx bank)

/-- The data beat of a READ leaves after 144 cycles and is at the router after 156 (R252). -/
def State.coldReturn (s : State) (h : Hop) (d : Line) : State :=
  let r : Ret := { due := h.cyc + 156, port := h.port, beat := { sb := h.beat.req.ret, data := d }, merge := false, ch := 0 }
  { s with cold := { s.cold with rets := s.cold.rets ++ [r] } }

/-- Errors per 64 B quarter (R254): one symbol is corrected, two are uncorrectable, more is open. -/
def coldEcc (errs : List (Nat × Nat)) : Nat × Bool × Bool :=
  let n (q : Nat) : Nat := ((errs.filter (fun e => decide (e.1 = q))).map (fun e => e.2)).eraseDups.length
  let qs := List.range 4
  ((qs.filter (fun q => decide (n q = 1))).length, qs.any (fun q => decide (n q = 2)), qs.any (fun q => decide (2 < n q)))

/-- The open count of partition `p` on channel `ch` takes its next place. -/
def State.coldPlace (s : State) (p ch : Nat) (o : OpenCount) : State :=
  let o' : Option OpenCount := if o.next + 1 < o.lines then some { o with next := o.next + 1 } else none
  { s with cold := { s.cold with opens := put none s.cold.opens (openKey p ch) o' } }

/-- Serve one beat; `clash`: another beat of the cycle selects the same slot. -/
def State.coldServe (s : State) (h : Hop) (clash : Bool) (errs : List (Nat × Nat)) : State :=
  let p := h.beat.sb.part.toNat
  let q := s.part p
  let a := (s.coldAddr h).getD 0
  let sel := s.coldSelOf h
  let own := s.coldOpen p h.cyc
  let ask := h.beat.coldAsk
  let key := look 0 s.cold.keys p
  let zeros (s : State) : State := if h.beat.isReq 1 then s.coldReturn h 0 else s
  let s0 := match ask, own with
    | some .write, some (ch, o) => s.coldPlace p ch o
    | _, _ => s
  if ask.isNone then s
  else if s.cold.state = .failed then zeros (s0.coldFault 0x65 p a 0 0 0)
  else if ask = some .write ∧ own.isNone then s0.coldFault 0x63 p a 0 0 0
  else
    match sel with
    | .none => zeros (s0.coldFault 0x61 p a 0 0 0)
    | .bank loc => zeros (s0.coldFault 0x62 p a loc.ch 0 (a / 256 % 16))
    | .slot loc idx =>
      let bank := a / 256 % 16
      if clash then zeros (s0.coldFault 0x61 p a loc.ch idx bank)
      else if !q.leases? 3 0 loc.ch 0 idx then s0.partFault 0x33 [p] locHub h.beat.sb.toNat (s.pathD1 0)
      else if key = 0 then zeros (s0.coldFault 0x64 p a loc.ch idx bank)
      else
        match ask with
        | some (.read _) =>
          let (ce, unc, opn) := coldEcc errs
          let s1 := ((s0.count locHub 0x404 1).count locHub 0x405 ce).spend 12 (some p) 1
          let s1 := if opn then s1.fresh else s1
          let s1 := { s1 with cold := { s1.cold with ce := s1.cold.ce + BitVec.ofNat 16 ce } }
          if unc || (opn && Config.freeBool s0.freeCtr) then zeros (s1.coldFault 0x60 p a loc.ch idx bank)
          else s1.coldReturn h (if opn then Config.freeLine s0.freeCtr else (s.cold.stored loc (a % 2 ^ 30 / 256)).readAs key (a / 256))
        | some (.openW _ n) =>
          if (look none s.cold.opens (openKey p loc.ch)).isSome then s0.coldFault 0x63 p a loc.ch idx bank
          else
            let o : OpenCount := { paddr := a, lines := n, next := 0 }
            { s0 with cold := { s0.cold with opens := put none s0.cold.opens (openKey p loc.ch) (some o) } }
        | _ =>
          let ln : SLine := { key, tweak := a / 256, data := h.beat.data }
          ({ s0 with cold := { s0.cold with lines := put {} s0.cold.lines (coldKeyOf loc a) ln } }).count locHub 0x404 1 |>.spend 12 (some p) 1

/-- The beats of one cycle with what each selects; a write beat's place in its count is the next after those before it (R197). -/
def State.coldPicks (s : State) : List Hop → List (Hop × ColdSel)
  | [] => []
  | h :: hs =>
    let p := h.beat.sb.part.toNat
    let s1 := match h.beat.coldAsk, s.coldOpen p h.cyc with
      | some .write, some (ch, o) => s.coldPlace p ch o
      | _, _ => s
    (h, s.coldSelOf h) :: State.coldPicks s1 hs

/-- Two beats of one request cycle select the same slot (R553). -/
def coldClash (l : List (Hop × ColdSel)) (e : Hop × ColdSel) : Bool :=
  match e.2 with
  | .slot loc i => decide (1 < (l.filter (fun g => decide (g.1.cyc = e.1.cyc) && (match g.2 with
      | .slot loc' i' => decide (loc'.ch = loc.ch ∧ i' = i)
      | _ => false))).length)
  | _ => false

/-- A write or request beat for the cold-frame controller (R184). -/
def Beat.forCold (x : Beat) : Bool := x.live && decide (x.sb.dkind = 3)

/-- The beats at the hub end of the hub links in this cycle, as they are read there; `port` is 8 times the region plus the link's
channel, and its lease is that of the output by which the beat left twelve cycles before (R161, R192). -/
def State.hubBeats (s : State) (e : BeatEcc) (l : List Hop) : State × List Hop :=
  l.foldl (fun a h =>
    let r := h.port / 8
    let ps := (s.outHolder (16 * r) (12 + h.port % 8) ((h.cyc + 1024 - 12) % 1024)).toList
    let (s1, x) := a.1.readBeat r (locRegion r) (12 + h.port % 8) ps (BeatEcc.at' e h.port) h.beat
    (s1, a.2 ++ [{ h with beat := x }])) (s, [])

/-- COLD_REQUEST: of the beats at the hub end, those for the controller are served, each by the one slot of R553; any other is dropped
and raises ROUTE_CHECK against its PART (R184). `errs` are the errors on the lines read, by the port of the READ. -/
def execColdRequest (errs : List (Nat × List (Nat × Nat))) (pecc : BeatEcc) (s : State) : Out :=
  let (due, rest) := Hop.split s.cold.arrive s.cycle
  let s1 : State := { s with cold := { s.cold with arrive := rest } }
  let (s2, beats) := s1.hubBeats pecc (due.filter (fun h => s.running h.beat.sb.part.toNat))
  let s3 := (beats.filter (fun h => !h.beat.forCold)).foldl (fun s h =>
    s.partFault 0x32 [h.beat.sb.part.toNat] locHub h.beat.sb.toNat (s.pathD1 (12 + h.port % 8))) s2
  let l := s3.coldPicks (beats.filter (fun h => h.beat.forCold))
  ok (l.foldl (fun s e => s.coldServe e.1 (coldClash l e)
    (((errs.find? (fun x => decide (x.1 = e.1.port))).map (·.2)).getD [])) s3)

/-- COLD_DATA_RETURN: data beats due are at the router of the region they were asked from. -/
def execColdDataReturn (s : State) : Out :=
  let due := s.cold.rets.filter (fun r => decide (r.due ≤ s.cycle))
  let s1 : State := { s with cold := { s.cold with rets := s.cold.rets.filter (fun r => decide (s.cycle < r.due)) } }
  ok (due.foldl (fun s r => s.onBlock (16 * (r.port / 8)) (fun b =>
    { b with rin := b.rin ++ [{ cyc := s.cycle, port := 12 + r.port % 8, beat := r.beat }] })) s1)

/-- A channel of the cold frame has become FAILING: its copy to the spare channel starts, or the cold frame is FAILED when
another channel was FAILING before (R255). -/
def Cold.fail (c : Cold) (ch : Nat) : Cold :=
  if (look CfChan.zero c.chans ch).failing then c
  else
    let other := (List.range 16).any (fun i => (look CfChan.zero c.chans i).failing) || c.spareFor.isSome
    let c := { c with chans := upd CfChan.zero c.chans ch (fun x => { x with failing := true }) }
    if other then { c with state := .failed } else { c with copy := some (ch, 0) }

/-- COLD_REFRESH: in group 3ch a refresh operation; in group 3ch + 1 a second one while HOT, else a retraining step when a sweep
is due, else a scrub of one line; one operation in each group. The scrub of a channel that is being copied pauses, its scrub group
serves the copy (R249, R254, R255). -/
def execColdRefresh (ch : Nat) (errs : List (Nat × Nat)) (retrain : RetrainOut) (s : State) : Out :=
  let g := coldGroup s.cycle
  let c := s.cold
  let x := look CfChan.zero c.chans ch
  let now := 51 * s.frm + g + 1
  let onChan (f : CfChan → CfChan) : Cold := { c with chans := upd CfChan.zero c.chans ch (fun x => { f x with refAt := now }) }
  let copying : Bool := match c.copy with
    | some (k, _) => decide (k = ch)
    | none => false
  if 1020 ≤ s.fcyc ∨ x.refAt = now then ok s
  else if g = 3 * ch ∨ (g = 3 * ch + 1 ∧ c.hot) then
    ok { s with cold := onChan (fun x => { x with refresh := (x.refresh + 1) % 8192 }) }
  else if g = 3 * ch + 1 then
    if x.sweep then
      let c1 := onChan (fun x => { x with sweep := false })
      ok { s with cold := match retrain with
        | .pin => c1.fail ch
        | .whole => { c1 with state := .failed }
        | _ => c1 }
    else if copying then ok s
    else
      let (ce, unc, opn) := coldEcc errs
      let unc' := unc || (opn && Config.freeBool s.freeCtr)
      let n := x.scrub
      let corr := x.passCorr + (if ce = 0 then 0 else 1)
      let wrap := decide (n + 1 = s.slices * 2 ^ 22)
      let c1 := onChan (fun x => { x with scrub := if wrap then 0 else n + 1, passCorr := if wrap then 0 else corr })
      let c1 := { c1 with ce := c1.ce + BitVec.ofNat 16 ce }
      let s1 := ({ s with cold := if 65536 < corr then c1.fail ch else c1 }.count locHub 0x405 ce).fresh
      ok (if unc' then
        s1.partFault 0x60 (s.leaseUsers .cold { unit := 0, ch, sub := n / 2 ^ 22 }) locHub 0 (memD1 ch 0 (n % 16)) else s1)
  else ok s

/-- COLD_CHANNEL_COPY: one line of the FAILING channel is copied to the spare in its scrub group, unless HOT (R255). -/
def execColdChannelCopy (s : State) : Out :=
  match s.cold.copy with
  | none => ok s
  | some (ch, done) =>
    if s.cold.hot ∨ s.cold.copyDone ∨ 1020 ≤ s.fcyc ∨ coldGroup s.cycle ≠ 3 * ch + 1 ∨
        (look CfChan.zero s.cold.chans ch).window = s.frm + 1 then ok s
    else ok { s with cold := { s.cold with
      copy := some (ch, done + 1), copyDone := decide (done + 1 = s.slices * 2 ^ 22)
      chans := upd CfChan.zero s.cold.chans ch (fun x => { x with window := s.frm + 1 }) } }

/-- COLD_SPARED: at the frame boundary after the copy the logical channel moves to the spare (R255). -/
def execColdSpared (s : State) : Out :=
  match s.cold.copy with
  | none => ok s
  | some (ch, _) =>
    if !s.cold.copyDone ∨ s.fcyc ≠ 0 then ok s
    else
      let st := if s.cold.state = .failed then .failed else .degraded
      ok ({ s with cold := { s.cold with copy := none, copyDone := false, spareFor := some ch, state := st } }.modEvent
        0xC5 locHub ch 0)

end Sys2Proof.Machine
end

