-- ==== Sys2Proof/Machine/Clock.lean ====
section
/-! DEFINITION. The plan-cycle tick, islands and their lag, hall time, the hall grid, gust votes (13_clocks_and_sync.md), and
the checks at the end of a step that the tick makes for jobs of more than one module (R73, R197). -/

namespace Sys2Proof.Machine

/-! ### Jobs and fault scope -/

/-- Two partitions of the module belong to one job; a partition started alone is a job of its own. -/
def State.sameJob (s : State) (p q : Nat) : Bool :=
  decide (p = q) || (decide ((s.part p).jb.job ≠ 0) && decide ((s.part p).jb.job = (s.part q).jb.job))

/-- The ARMED and RUNNING partitions of every job with an ARMED or RUNNING partition that `f` holds of. -/
def State.scope (s : State) (f : Nat → Bool) : List Nat :=
  s.activeParts.filter (fun p => s.activeParts.any (fun q => f q && s.sameJob p q))

/-- A partition holds flit slots on port `i`, in either direction and for any use (Table 13.3). -/
def Part.slotsOn (p : Part) (i : Nat) : Bool := p.holds && p.leases.any (fun l => decide ((l.res = 5 ∨ l.res = 6) ∧ l.unit = i))

/-- A partition holds a lease on a router channel of region `r`: a router output, or the attachment channel of a stack slot (R195). -/
def Part.channelIn (p : Part) (r : Nat) : Bool :=
  p.holds && p.leases.any (fun l => decide (l.res = 1 ∧ p.bindBlock l.unit / 16 = r) || decide (l.res = 2 ∧ p.bindStack l.unit / 3 = r))

/-- A partition holds plan slots on port `i`, in either direction (R311). -/
def Part.onPort (p : Part) (i : Nat) : Bool :=
  p.holds && p.leases.any (fun l => decide ((l.res = 5 ∨ l.res = 6) ∧ l.use = 0 ∧ l.unit = i))

/-- Blocks a partition owns. -/
def State.ownBlocks (s : State) (p : Nat) : List Nat := (List.range 64).filter (fun b => decide ((s.block b).owner = some p))

/-- Stacks on which a partition has a lease index or merge-buffer lease. -/
def State.onStackK (s : State) (p k : Nat) : Bool :=
  let q := s.part p
  (q.stackTabA ++ q.stackTabB).any (fun e => match e.2 with
    | some l => decide (l.unit = k)
    | none => false) ||
  (q.holds && q.leases.any (fun l => decide (l.res = 4) && decide (q.bindStack (l.unit / 16) = k)))

/-- The partition is in the scope of a slip of island `i` (Table 13.3). -/
def State.onIsland? (s : State) (i p : Nat) : Bool :=
  if i < 64 then decide ((s.block i).owner = some p)
  else if i < 68 then
    (s.ownBlocks p).any (fun b => decide (b / 16 = i - 64)) || (s.part p).channelIn (i - 64)
  else if i < 80 then s.onStackK p (i - 68)
  else if i < 92 then (s.part p).slotsOn (i - 80)
  else (s.part p).active?

/-! ### The hall grid (R356 to R359, R364) -/

/-- The step decided for mark `m`, when its vote completed (R364, R365). -/
def TimeU.decidedAt (t : TimeU) (m : Nat) : Option Nat :=
  (t.votes.find? (fun v => decide (v.mark = m))).bind (fun v => if v.lost then none else v.dec)

def TimeU.grid (t : TimeU) : Grid := { mark := t.mark, j := t.j, gust := t.gust }

/-- The frame after `g`, a frame of the mark period before the present one or later, at the steps already decided. -/
def TimeU.next (t : TimeU) (g : Grid) : Grid :=
  if g.j + 1 < 10 - g.gust then { g with j := g.j + 1 }
  else if g.mark + 10 = t.mark then { mark := t.mark, j := 0, gust := t.gust }
  else { mark := g.mark + 10, j := 0, gust := (t.decidedAt (g.mark + 10)).getD g.gust }

/-- The frame `n` frames after `g`. -/
def TimeU.ahead (t : TimeU) : Nat → Grid → Grid
  | 0, g => g
  | n + 1, g => TimeU.ahead t n (t.next g)

/-- The frame `k` frames before the present one; within the present or the previous mark period. -/
def TimeU.back (t : TimeU) (k : Nat) : Grid :=
  if k ≤ t.j then { t.grid with j := t.j - k }
  else { mark := t.mark - 10, j := (10 - t.prevGust) - (k - t.j), gust := t.prevGust }

/-- TF of a frame (R359). -/
def Grid.tf (g : Grid) : Nat := 16 * (g.mark / 10) + g.j

/-- Wall time of `n` cycles from cycle `pos` of frame `g`, in 1/2,520 ns. -/
def TimeU.wall (t : TimeU) : Nat → Grid → Nat → Nat → Nat
  | 0, _, _, _ => 0
  | fuel + 1, g, pos, n =>
    let len := 25200 / (10 - g.gust)
    if n ≤ 1024 - pos then n * len else (1024 - pos) * len + TimeU.wall t fuel (t.next g) 0 (n - (1024 - pos))

/-- The hold H of a flit of budget `b` launched at cycle `pos` of the present frame (R305), in 1/2,520 ns. -/
def State.holdOf (s : State) (pos b : Nat) : Nat := s.tu.wall 8 s.tu.grid pos b - 2520 * b

/-- Wall time from cycle `pos` of the frame `back` frames ago to the start of the present cycle, in 1/2,520 ns. -/
def State.since (s : State) (back pos : Nat) : Nat :=
  s.tu.wall 16 (s.tu.back back) pos (1024 * back + s.fcyc - pos)

/-- The set voltage of VDD_CORE at a gust step, in mV (Table 18.4). -/
def coreMv (k : Nat) : Nat := 800 - 40 * k

/-- VDD_CORE is set for the fastest of the step in force and the steps decided for marks to come (R470): it rises when the decision is
held and falls after the switch. -/
def State.setCore (s : State) : State :=
  let steps := (s.tu.votes.filter (fun v => decide (s.tu.mark < v.mark) && !v.lost)).filterMap (fun v => v.dec)
  { s with pwr := { s.pwr with core := coreMv (steps.foldl min s.tu.gust) } }

/-! ### The gust group (R363, Table 13.9) -/

/-- The module's place in its group's vote tree: height, depth, parent, children. -/
def State.voteTree (s : State) : Nat × TreeE :=
  match s.activeParts.findSome? (fun p => (s.part p).image.map (fun i => (i.hdr.gustH, (s.part p).tree))) with
  | some x => x
  | none => (0, {})

/-- The ramp request (R361). -/
def State.rampReq (s : State) : Nat :=
  allParts.foldl (fun m p =>
    if s.running p then
      let f := (s.part p).planTime / 1024 - (s.part p).jb.rampFrom
      max m (if f < 256 then 4 - f / 64 else 0)
    else m) 0

/-- The floor request: the floor set by command and the floors of teardowns (R393). -/
def State.floorReq (s : State) : Nat :=
  allParts.foldl (fun m p =>
    match (s.part p).jb.teardown with
    | none => m
    | some f =>
      let now := (s.part p).planTime / 1024
      if s.running p ∧ f ≤ now then max m (min 5 ((now - f) / 64 + 1)) else m) s.tu.floor

/-- The voltage scale u of a gust step, in hundredths (Table 18.4). -/
def baseScale (k : Nat) : Nat := ([100, 86, 74, 63, 54, 46] : List Nat).getD k 46

/-- ENVELOPE_W summed over the ARMED and RUNNING partitions. -/
def State.envSum (s : State) : Nat := s.activeParts.foldl (fun a p => a + (s.part p).pw.envelope) 0

/-- The thermal request; 5 from the first second of a low flow or a hot inlet (R486, R487). -/
def State.thermalReq (s : State) : Nat := if s.pwr.lowFlow.isSome || s.pwr.hotInlet.isSome then 5 else s.pwr.thermReq

/-- Windbreak's request (R480, R481). -/
def State.windReq (s : State) : Nat :=
  let a := if s.pwr.gustAct then s.pwr.actReq
    else ((List.range 6).find? (fun k => decide (baseScale k * s.envSum ≤ 100 * s.pwr.capW))).getD 5
  max a s.thermalReq

/-- The module's request (R360). -/
def State.gustReq (s : State) : Nat :=
  max (max s.windReq s.floorReq)
    (max s.rampReq (if allParts.any (fun p => decide ((s.part p).st = .armed)) then 5 else 0))

/-- Frames from the present frame to the first mark, then the marks after it with their distance, at the steps decided. -/
def TimeU.marks (t : TimeU) : Nat → Nat → Nat → Nat → List (Nat × Nat)
  | 0, _, _, _ => []
  | n + 1, m, g, d =>
    let g' := (t.decidedAt m).getD g
    (m, d) :: TimeU.marks t n (m + 10) g' (d + (10 - g'))

/-- The mark whose vote frame is the present one: the one 64 frames ahead. -/
def TimeU.voteMark (t : TimeU) : Option Nat :=
  ((t.marks 16 (t.mark + 10) t.gust (10 - t.gust - t.j)).find? (fun e => decide (e.2 = 64))).map (fun e => e.1)

/-! ### Watermarks (R504) -/

/-- The round in which unit `key` last passed a watermark: islands 0 to 94, port i as 100 + i, ALIGN_WARN as 112. -/
def State.watermark (s : State) (key : Nat) : State :=
  { s with health := { s.health with wms := put 0 s.health.wms key (s.round + 1) } }

/-! ### End-of-step checks (R73, R197) -/

/-- A unit of the cell is occupied in cycle `t`: an effect is due then or later. -/
def Cell.busy (x : Cell) (t : Nat) : Bool :=
  x.pend.any (fun r => decide (t ≤ r.due)) || x.macc.any (fun a => decide (t ≤ a.due)) || !x.port.isEmpty ||
    x.wlines.any (fun w => decide (t ≤ w.due)) || x.tagSets.any (fun w => decide (t ≤ w.due)) || !x.mma.isEmpty ||
    !x.accOut.isEmpty || !x.maddx.isEmpty || x.mclr.any (fun w => decide (t ≤ w.due)) || x.loop.isSome ||
    decide (t < x.divFree ∨ t < x.vecFree ∨ t < x.wleFree ∨ t < x.arrFree ∨ t < x.accFree)

/-- Cells of code positions of partition `p`. -/
def State.codeCells (s : State) (p : Nat) : List Nat :=
  (s.ownBlocks p).foldl (fun acc b =>
    let x := s.block b
    acc ++ (List.range 16).filterMap (fun k => if x.codePos.getLsbD k then (x.map[k]?).map (fun c => 32 * b + c) else none)) []

/-- OVERRUN for every code cell that is not idle past STEPEND.C, and STACK_WRITE_SEQ and COLD_WRITE_SEQ for every open count,
which closes (R73, R197, R252). `ending`: the check lies in a step-boundary cycle. -/
def State.endChecks (s : State) (p : Nat) (ending : Bool) : State :=
  let s1 := (s.codeCells p).foldl (fun s c =>
    let x := s.cell c
    if !s.unstopped c then s
    else if x.stepEnd && !x.busy s.cycle then s
    else s.cellFault c 0x06 0 (cellD1 x.pc (s.part p).bankAct 0 0) ending) s
  let seq (code unit d0 d1 : Nat) : Raise :=
    { cls := .partition, code, parts := [p], unit, d0, d1, cycle := s.cycle, ending }
  let s2 := (List.range 12).foldl (fun s k =>
    let mine := (s.stack k).opens.filter (fun e => decide (e.1 / 16 = p) && e.2.isSome)
    (mine.foldl (fun s e => s.raise (seq 0x43 (locRegion (k / 3)) ((e.2.map (fun o => o.paddr)).getD 0) (e.1 % 16))) s).onStack k
      (fun y => { y with opens := y.opens.filter (fun e => decide (e.1 / 16 ≠ p)) })) s1
  let mine := s2.cold.opens.filter (fun e => decide (e.1 / 16 = p) && e.2.isSome)
  let s3 := mine.foldl (fun s e => s.raise (seq 0x63 locHub ((e.2.map (fun o => o.paddr)).getD 0) (e.1 % 16))) s2
  { s3 with cold := { s3.cold with opens := s3.cold.opens.filter (fun e => decide (e.1 / 16 ≠ p)) } }

/-- Frames of the step in progress. -/
def Part.stepLen (p : Part) : Nat := (p.kind p.stepKind).length + 1

/-- Plan frame at which the step in progress ends. -/
def Part.stepStop (p : Part) : Nat := p.stepStart + p.stepLen

/-- SETTLE of the installed image. -/
def Part.settle (p : Part) : Nat :=
  match p.image with
  | none => 0
  | some i => i.hdr.settle

/-- The partition's job has more than one module. -/
def Part.multi (p : Part) : Bool := decide (1 < p.jobSize)

/-- Plan frame `f` lies in the settle tail of the step in progress (R380, R382). -/
def Part.inTail (p : Part) (f : Nat) : Bool := p.multi && decide (p.stepStop - p.settle ≤ f ∧ f < p.stepStop)

/-! ### SEQUENCER_ENTRY (R21, R23, R349, R490 to R493, R547) -/

/-- The read of a weight buffer's words in cycle issued + 3 (R547); word k of the buffer is word k mod 32 of its line k / 32. -/
def State.weightReads (s : State) : State :=
  s.cells.foldl (fun s e =>
    e.2.mma.foldl (fun s o =>
      if o.issued + 3 = s.cycle ∧ s.live e.1 then
        s.eccCell e.1 o.wecc 4 (List.range (32 * tileLines o.f.wfmt.toNat o.f.wmx))
      else s) s) s

/-- Row of Table 18.5 of an array cycle of the latest MMA. -/
def Cell.arrayRow (x : Cell) : Nat :=
  match x.mma.getLast? with
  | none => 0
  | some o =>
    if fpMode o.f.afmt.toNat then 3
    else
      match rowPeriod o.f.afmt.toNat o.f.wfmt.toNat with
      | 1 => 0
      | 2 => 1
      | _ => 2

/-- The occupied engine cycles of this cycle, for Windbreak (Table 18.5, R484). -/
def State.unitSpend (s : State) : State :=
  let t := s.cycle
  s.cells.foldl (fun s e =>
    let x := e.2
    let one (b : Bool) (row : Nat) (s : State) : State := if b then s.spend row (s.cellOwner e.1) 1 else s
    if s.live e.1 then
      one (x.vecEn && decide (t < x.vecFree)) 6 (one (x.accEn && decide (t < x.accFree)) 5
        (one (x.wleEn && decide (t < x.wleFree)) 4 (one (x.arrEn && decide (t < x.arrFree)) x.arrayRow s)))
    else s) s

/-- The lag of island `i` in this cycle. -/
def lagOf (lags : List (Nat × Nat)) (i : Nat) : Nat := look 0 lags i

/-- R349 for one island. -/
def State.lagCheck (s : State) (e : Nat × Nat) : State :=
  let (i, l) := e
  let s := s.onIsland i (fun y =>
    { y with lagMax := min 255 (max y.lagMax l), warn := y.warn || decide (6 ≤ l)
             warns := if 6 ≤ l then y.warns + 1 else y.warns })
  let s := if 6 ≤ l then ((({ s with tu := { s.tu with lagWarn := true } }).modEvent 0xC8 (if i < 64 then locBlock i
      else if i < 68 then locRegion (i - 64) else if i < 80 then locRegion ((i - 68) / 3)
      else if i < 92 then locPort (i - 80) else locHub) i l).watermark i) else s
  if 8 < l then s.jobFault 0x90 (s.scope (s.onIsland? i)) (if i < 64 then locBlock i
      else if i < 68 then locRegion (i - 64) else if i < 80 then locRegion ((i - 68) / 3)
      else if i < 92 then locPort (i - 80) else locHub) i l else s

/-- A tap of Table 19.3 in this cycle; taps of signals the state does not hold are a free value. -/
def State.tap (s : State) (lags : List (Nat × Nat)) (loc n : Nat) : Bool :=
  let t := s.cycle
  let i := loc % 4096
  let free := Config.freeBool s.freeCtr
  match loc / 4096, n with
  | 1, 0 => decide (t < (s.cell i).issueFree) && (s.cell i).slotEn
  | 1, 1 => decide (t < (s.cell i).vecFree)
  | 1, 2 => decide (t < (s.cell i).arrFree)
  | 1, 3 => decide ((s.cell i).lastPort = t + 1)
  | 2, 0 => decide (t < (s.block i).barrow0.busy)
  | 2, 1 => decide (t < (s.block i).barrow1.busy)
  | 2, 2 => decide (lagOf lags i ≠ 0)
  | 3, 0 => (List.range 3).any (fun k => (s.stack (3 * i + k)).hot)
  | 3, 1 => (List.range 3).any (fun k => (s.stack (3 * i + k)).chans.any (fun e => e.2.sweep.isSome))
  | 3, 2 => (List.range 3).any (fun k =>
      (s.stack (3 * i + k)).evac.isSome || (s.stack (3 * i + k)).chans.any (fun e => !e.2.copies.isEmpty))
  | 3, 3 => ([3, 12, 15] : List Nat).any (fun q => (s.block (16 * i + q)).rin.any (fun h => decide (h.cyc = t ∧ 12 ≤ h.port)))
  | 4, 2 => (s.port i).dual || decide ((s.port i).spareTx ≠ 0xF)
  | 5, 2 => s.tu.synthB
  | _, _ => free

/-- What a counter of location `loc` takes in this cycle: events counted by the cycle, and taps (R491, R493). -/
def State.tickCounter (s : State) (lags : List (Nat × Nat)) (loc : Nat) (c : Counter) : Counter :=
  let t := s.cycle
  let i := loc % 4096
  let x := s.cell i
  let hit (b : Bool) : Counter := if b then c.bump 1 else c
  match c.mode with
  | 0 =>
    if loc / 4096 = 1 ∧ s.live i then
      match c.event with
      | 0x001 => c.bump 1
      | 0x005 => hit (x.vecEn && decide (t < x.vecFree))
      | 0x006 => hit (x.arrEn && decide (t < x.arrFree))
      | 0x007 => hit (x.wleEn && decide (t < x.wleFree))
      | 0x008 => hit (x.accEn && decide (t < x.accFree))
      | _ => c
    else if loc / 4096 = 2 ∧ c.event = 0x107 then hit (decide (6 ≤ lagOf lags i))
    else c
  | 1 =>
    let v := s.tap lags loc c.event
    { hit (v && !c.last) with last := v }
  | _ => 
    let v := s.tap lags loc c.event
    { hit v with last := v }

/-! ### Hall time (R352 to R358) -/

/-- One step of the CRC-16 of polynomial 0x1021. -/
def crcBit (crc : Nat) (b : Bool) : Nat :=
  let x := crc * 2 % 65536
  if bit crc 15 != b then Nat.xor x 0x1021 else x

/-- CRC-16 over bits [127:16] of a hall-time word (Table 13.4). -/
def htwCrc (w : Nat) : Nat := (List.range 112).foldl (fun c k => crcBit c (bit w (127 - k))) 0xFFFF

/-- A word is good: SYNC, CRC and VALID hold and its NEXT_MARK is 10 more than the mark it follows, where that is known. -/
def htwGood (w : Nat) (follows : Option Nat) : Bool :=
  decide (bits w 112 16 = 0x1EA7) && bit w 55 && decide (bits w 0 16 = htwCrc w) &&
    (match follows with
     | none => decide (bits w 56 56 % 10 = 0 ∧ 10 ≤ bits w 56 56)
     | some m => decide (bits w 56 56 = m + 10))

/-- Partitions that the timing faults of Table 13.11 reach: every job with an ARMED or RUNNING partition. -/
def State.timeScope (s : State) : List Nat := s.scope (fun _ => true)

/-- A mark of the hall that is not good, or a pulse that did not come (R353). -/
def TimeU.badMark (t : TimeU) : TimeU :=
  { t with hall := if t.hall = .locked then .hold else t.hall
           holdMarks := if t.hall = .unlocked then t.holdMarks else t.holdMarks + 1
           holdRun := if t.hall = .unlocked then 0 else t.holdRun + 1, goodRun := 0 }

/-- FRAME_MARK: the pulse of the mark that began the present mark period, `refCycles` reference cycles after the last one,
with the word that follows it and the alignment error in 1/8 ns (R352 to R357). -/
def execFrameMark (refCycles : Nat) (word : BitVec 128) (err8 : Int) (s : State) : Out :=
  let w := word.toNat
  let good := htwGood w s.tu.named
  let next := bits w 56 56
  let s1 := s.count locHub 0x402 1
  let s2 : State := if good then s1
    else { s1 with tu := { s1.tu with wordErr := s1.tu.wordErr + 1 } }.count locHub 0x403 1
  let live := decide (s.tu.hall ≠ .unlocked)
  let jump := live && (decide (refCycles ≠ 1600) || (good && decide (next ≠ s.tu.mark + 10)))
  let s3 := if jump then
      ({ s2 with tu := { s2.tu with hall := .unlocked, goodRun := 0, holdRun := 0 } }).jobFault 0x93 s2.timeScope locHub
        err8.natAbs (s.tu.mark + 10)
    else if good ∧ refCycles = 1600 then
      let n := s2.tu.goodRun + 1
      if s2.tu.hall = .locked then { s2 with tu := { s2.tu with goodRun := n } }
      else if 4 ≤ n then
        { s2 with tu := { s2.tu with hall := .locked, goodRun := n, holdRun := 0, mark := next - 10, j := 0 } }
      else { s2 with tu := { s2.tu with goodRun := n
                                        holdMarks := if live then s2.tu.holdMarks + 1 else s2.tu.holdMarks
                                        holdRun := if live then s2.tu.holdRun + 1 else 0 } }
    else { s2 with tu := s2.tu.badMark }
  let s4 : State := { s3 with tu := { s3.tu with
    named := if good then some next else s3.tu.named.map (· + 10), alignErr := err8, seen := s3.tu.mark } }
  let e := err8.natAbs
  let s5 := if live ∧ 240 < e then
      (({ s4 with tu := { s4.tu with alignWarn := true } }).modEvent 0xCA locHub 0 e).watermark 112 else s4
  ok (if live ∧ 320 < e then s5.jobFault 0x91 s5.timeScope locHub e (s.tu.mark + 10) else s5)

/-- MISSING_PULSE: a mark passed with no pulse, once for each mark (R353). -/
def execMissingPulse (s : State) : Out :=
  if s.tu.seen = s.tu.mark then ok s else ok { s with tu := { s.tu.badMark with named := s.tu.named.map (· + 10), seen := s.tu.mark } }

/-- HALL_LOST: after 64 consecutive marks in HOLD, hall time is UNLOCKED (R353). -/
def execHallLost (s : State) : Out :=
  if s.tu.hall = .hold ∧ 64 ≤ s.tu.holdRun then
    ok (({ s with tu := { s.tu with hall := .unlocked, goodRun := 0, holdRun := 0 } }).jobFault 0x92 s.timeScope locHub 0
      (s.tu.mark + 10))
  else ok s

/-- TIME_REF_LOST: no edge for 32 ns; the synthesisers hold their last frequency (R355). -/
def execTimeRefLost (s : State) : Out :=
  if s.tu.refOk then
    ok (({ s with tu := { s.tu with refOk := false } }).jobFault 0x94 s.timeScope locHub 0 (s.tu.mark + 10))
  else ok s

/-- REF_CHANGEOVER: TIME_REF is present; at a frame boundary the clocks leave the on-board oscillator (R534). -/
def execRefChangeover (s : State) : Out :=
  if s.tu.refLocal ∧ s.fcyc = 0 then ok { s with tu := { s.tu with refOk := true, refLocal := false } }
  else if s.tu.refLocal then ok s
  else ok { s with tu := { s.tu with refOk := true } }

/-- GUST_SWITCH: at a mark whose decision names another step, the idle synthesiser becomes active at that step (R366). -/
def execGustSwitch (s : State) : Out :=
  match s.tu.decidedAt s.tu.mark with
  | none => ok s
  | some g =>
    if s.tu.j ≠ 0 ∨ s.fcyc ≠ 0 ∨ g = s.tu.gust then ok s
    else ok ((({ s with tu := { s.tu with gust := g, synthB := !s.tu.synthB } }).count locHub 0x40C 1).setCore)

/-- ROT_READY_LATCH: in frame B(S) − 64 a member of a job of more than one module latches whether it holds a consumed
rotation record for step S (R392). -/
def execRotReadyLatch (p : Nat) (s : State) : Out :=
  let q := s.part p
  if s.running p && q.multi && decide (q.planTime / 1024 + 64 = q.stepStop ∧ q.jb.rotV ≠ some s.frm) then
    let own := match q.pendRot with
      | some (_, n) => decide (n = q.stepNo + 1)
      | none => false
    let one := decide (s.voteTree.1 = 0)
    ok (s.onPart p (fun q => { q with jb := { q.jb with rotV := some s.frm, rotVal := own, rotAgreed := if one then some own else none } }))
  else ok s

end Sys2Proof.Machine
end

