-- ==== Sys2Proof/Machine/Lanes.lean ====
section
/-! DEFINITION. The lanes of a fabric port (11_links.md): segments and their parity, alignment and fill, the segment times and
superframes of the transmitter, the codewords of a lane, the receiver's lane map, and the layout of control flits. -/

namespace Sys2Proof.Machine

/-! ### Segments (Tables 11.2, 11.3, R287 to R289) -/

/-- PAR of a segment (R287): PAY in words of 16 bits and TAG, added bitwise. -/
def parOf (tag : BitVec 16) (pay : BitVec 512) : BitVec 16 :=
  (List.range 32).foldl (fun a j => a ^^^ pay.extractLsb' (16 * j) 16) tag

/-- The 544 bits of a segment, bit 0 sent first. -/
def segBits (tag : BitVec 16) (pay : BitVec 512) : BitVec 544 := tag ++ (parOf tag pay ++ pay)

/-- The TAG of a flit. -/
def flitTag (f : Flit) : BitVec 16 := BitVec.ofNat 16 (f.typ * 2 ^ 13 + b2n f.epoch * 2 ^ 12 + f.check)

/-- PAY of logical lane `d` of a flit: 64 of its bytes, or on lane 8 the sum of the others (R288). -/
def lanePay (f : Flit) (d : Nat) : BitVec 512 :=
  let data (k : Nat) : BitVec 512 := if k < 4 then f.lo.extractLsb' (512 * k) 512 else f.hi.extractLsb' (512 * (k - 4)) 512
  if d < 8 then data d else (List.range 8).foldl (fun a k => a ^^^ data k) 0

/-- The flit whose data lanes carry the eight payloads. -/
def flitOf (typ : Nat) (epoch : Bool) (check : Nat) (pays : List (BitVec 512)) : Flit :=
  let half (k : Nat) : Line := BitVec.ofNat 2048 ((List.range 4).foldl (fun a j => a + (pays.getD (k + j) 0).toNat * 2 ^ (512 * j)) 0)
  { typ, epoch, check, lo := half 0, hi := half 4 }

/-- An alignment segment (R289). -/
def alignSeg (lane : Nat) (carry : Bool) (port super : Nat) : BitVec 544 :=
  segBits 0xCFFF#16 (BitVec.ofNat 512 (lane + 16 * b2n carry + 2 ^ 8 * port + 2 ^ 16 * (super % 2 ^ 48)))

/-- The register of the PRBS31 sequence after `n` steps. -/
def prbsSkip : Nat → Nat → Nat
  | 0, r => r
  | n + 1, r => prbsSkip n (prbsStep r).2

/-- A fill segment of physical lane `j` of port `i` in segment time `k`: the lane's sequence goes on from fill to fill by segment times
(DESIGN CHOICE, log entry 74). -/
def fillSeg (i j k : Nat) : BitVec 544 :=
  segBits 0xAFFF#16 (BitVec.ofNat 512 (prbsBits 512 (prbsSkip (512 * k) (Config.fillSeed (16 * i + j)))).1)

/-! ### The transmitter (R285, R286, R292, R300) -/

/-- Segment times of a superframe. -/
def superLen : Nat := 1285

/-- A segment time lasts 4,624/1,799 ns: the first that begins at or after a wall time, in 1/2,520 ns. -/
def segTime (t : Nat) : Nat := (1799 * t + 11652479) / 11652480

/-- What each physical lane carries of a flit: its logical lane, and on the spare the lane that is sent twice, or fill (none). -/
def Port.laneSegs (x : Port) (f : Flit) : List (Option (BitVec 544)) :=
  let seg (d : Nat) : BitVec 544 := segBits (flitTag f) (lanePay f d)
  x.lanesTx.map (fun d => if d < 9 then some (seg d) else if x.dual then some (seg x.spareTx) else none)

/-- The alignment segments with which superframe `n` begins. -/
def Port.alignSegs (x : Port) (i n : Nat) : List (BitVec 544) :=
  x.lanesTx.map (fun d => if d < 9 then alignSeg d false i n else if x.dual then alignSeg x.spareTx true i n else alignSeg 9 false i n)

/-- The segment that physical lane `j` carries in segment time `k` of the superframe in progress. -/
def Port.segAt (x : Port) (i j k : Nat) : BitVec 544 :=
  match (look [] x.txSegs (k % superLen))[j]? with
  | some y => y
  | none => fillSeg i j k

/-- The generator of RS(544,514) over GF(2^10) with x^10 + x^3 + 1 (IEEE Std 802.3). -/
def laneGen : List Nat := rsGen 10 0x409 30

/-- Codeword `n` of a superframe from its 699,040 message bits: 514 symbols of 10 bits and 30 check symbols, each bit 0 first, under the
scrambler's sequence, which restarts with the superframe (R285). -/
def laneCode (msg n : Nat) : BitVec 5440 :=
  let data := (List.range 514).map (fun k => bits msg (5140 * n + 10 * k) 10)
  let syms := data ++ rsCheck 10 0x409 laneGen data
  let word := ((List.range 544).zip syms).foldl (fun a e => a + e.2 * 2 ^ (10 * e.1)) 0
  BitVec.ofNat 5440 (Nat.xor word (prbsBits 5440 (prbsSkip (5440 * n) Config.scrambleSeed)).1)

/-- The 136 codewords of physical lane `j` of the superframe in progress, number `n`. -/
def Port.laneWords (x : Port) (i j n : Nat) : List (BitVec 5440) :=
  let msg := (List.range superLen).foldl (fun a k => a + (x.segAt i j (superLen * n + k)).toNat * 2 ^ (544 * k)) 0
  (List.range 136).map (laneCode msg)

/-- Superframes complete until segment time `k` lies in the one in progress; each is sent when it is complete. -/
def Port.complete (i k : Nat) : Nat → Port × List Sent → Port × List Sent
  | 0, r => r
  | fuel + 1, (x, l) =>
    if k / superLen ≤ x.superTx then (x, l)
    else
      let y := { x with superTx := x.superTx + 1, txSegs := [(0, x.alignSegs i (x.superTx + 1))] }
      Port.complete i k fuel (y, l ++ [.superframe i x.superTx ((List.range 10).map (fun j => x.laneWords i j x.superTx))])

/-- Place one flit into the first segment time free from its launch on; segment time 0 of a superframe is alignment's. -/
def Port.placeFlit (i : Nat) (r : Port × List Sent) (e : TxFlit) : Port × List Sent :=
  let k0 := max r.1.segNext (segTime (e.at' - r.1.superAt))
  let k := if k0 % superLen = 0 then k0 + 1 else k0
  let (x, l) := Port.complete i k (k / superLen - r.1.superTx) r
  let segs := ((List.range 10).zip e.segs).map (fun y => y.2.getD (fillSeg i y.1 k))
  ({ x with segNext := k + 1, txSegs := put [] x.txSegs (k % superLen) segs }, l)

/-- Flits whose launch time has come go into segment times, in the order of their launch times (R292). -/
def State.drainTx (s : State) (i : Nat) : State :=
  let x := s.port i
  let (now, rest) := (x.txq.filter (fun e => decide (e.at' ≤ s.wallNow)), x.txq.filter (fun e => decide (s.wallNow < e.at')))
  let (y, l) := now.foldl (Port.placeFlit i) ({ x with txq := rest }, [])
  { s.onPort i (fun _ => y) with out := s.out ++ l }

/-- Insert by launch time, behind flits of the same time. -/
def txInsert (e : TxFlit) : List TxFlit → List TxFlit
  | [] => [e]
  | x :: l => if e.at' < x.at' then e :: x :: l else x :: txInsert e l

/-- A flit is handed to the transmitter, to be launched after a hold of `hold` (R305). -/
def State.handTx (s : State) (i hold : Nat) (f : Flit) : State :=
  let s := s.drainTx i
  s.onPort i (fun x => { x with txq := txInsert { at' := s.wallNow + hold, segs := x.laneSegs f } x.txq })

/-! ### The receiver's lanes (R283, R286, R289, R300) -/

/-- The lanes present logical lanes 0 to 8 exactly once, and one spare. -/
def lanesOk (l : List Nat) : Bool := decide (l.length = 10) && (List.range 10).all (fun d => l.contains d)

/-- The physical lane that carries logical lane `d`, 9 the spare. -/
def Port.physRx (x : Port) (d : Nat) : Nat := (indexOf x.lanesRx d).getD d

/-- The lane map after logical lane `k` has moved to the spare: its old physical lane is the spare. -/
def swapSpare (l : List Nat) (k : Nat) : List Nat := l.map (fun d => if d = k then 9 else if d = 9 then k else d)

/-- The lane map that the alignment segments of a superframe show: LANE of each physical lane but of a spare that carries a lane. A set
of lanes that is not complete changes nothing. -/
def mapOf (old : List Nat) (segs : List Seg) : List Nat :=
  let new := ((List.range 10).zip old).map (fun e =>
    match segs[e.1]? with
    | some g => if g.pay.getLsbD 4 then e.2 else bits g.pay.toNat 0 4
    | none => e.2)
  if lanesOk new then new else old

/-- A received codeword with more than 15 symbols in error is uncorrectable (R285; DEDUCED: it is reported so, log entry 74). -/
def cwBad (c : LaneCw) : Bool := decide (15 < c.errs.length)

/-- A segment passes R287. -/
def segPasses (x : Seg) : Bool := !x.cws.any cwBad && decide (x.par = parOf x.tag x.pay)

/-- Symbols corrected in the codewords that end in a segment. -/
def segFixed (x : Seg) : Nat := x.cws.foldl (fun n c => if c.ends && !cwBad c then n + c.errs.length else n) 0

/-! ### Control flits (Table 11.5) -/

/-- The low line of a control flit; its high line is zero. -/
def ctlLine (c : CtlFlit) : Line :=
  let commit := (List.range 16).foldl (fun a p =>
    let e := c.commit.getD p (false, 0)
    a + (b2n e.1 * 2 ^ 63 + e.2 % 2 ^ 48) * 2 ^ (64 * p)) 0
  BitVec.ofNat 2048 (c.frame % 2 ^ 64 + c.serial % 2 ^ 64 * 2 ^ 64 + c.port % 16 * 2 ^ 128 + c.role % 256 * 2 ^ 136 + c.gustReq % 8 * 2 ^ 144 +
    (c.gustRed % 8 + b2n c.gustValid * 2 ^ 7) * 2 ^ 152 + c.laneBad.toNat * 2 ^ 160 + c.spareLane % 256 * 2 ^ 176 +
    c.spareAt % 2 ^ 64 * 2 ^ 192 + c.latRx % 2 ^ 16 * 2 ^ 256 + c.heartbeat % 2 ^ 64 * 2 ^ 320 + commit * 2 ^ 384 +
    c.rotReady.toNat * 2 ^ 1408 + c.rotRed.toNat * 2 ^ 1424)

/-- The fields that a control flit's low line spells. -/
def ctlOf (l : Line) : CtlFlit :=
  let w := l.toNat
  { frame := bits w 0 64, serial := bits w 64 64, port := bits w 128 4, role := bits w 136 8, gustReq := bits w 144 3
    gustRed := bits w 152 3, gustValid := bit w 159, laneBad := BitVec.ofNat 9 (bits w 160 9), spareLane := bits w 176 8
    spareAt := bits w 192 64, latRx := bits w 256 16, heartbeat := bits w 320 64
    commit := (List.range 16).map (fun p => (bit w (384 + 64 * p + 63), bits w (384 + 64 * p) 48))
    rotReady := BitVec.ofNat 16 (bits w 1408 16), rotRed := BitVec.ofNat 16 (bits w 1424 16) }

end Sys2Proof.Machine
end

