-- ==== Sys2Proof/Machine/Links.lean ====
section
/-! DEFINITION. Fabric links and port layers (11_links.md, 12_trellis_and_routing.md): slots, transmitting and receiving flits,
the spare lane, training, control flits and what they carry. -/

namespace Sys2Proof.Machine

/-! ### Slots (R290, R313) -/

/-- Attachment cycle of slot `n` within the frame. -/
def attach (n : Nat) : Nat := 8 * (n / 3) + ([0, 2, 5] : List Nat).getD (n % 3) 0

/-- The slot whose attachment cycle is cycle `c` of the frame. -/
def slotAt (c : Nat) : Option Nat :=
  match c % 8 with
  | 0 => some (3 * (c / 8))
  | 2 => some (3 * (c / 8) + 1)
  | 5 => some (3 * (c / 8) + 2)
  | _ => none

/-- The lease covers slot `n` of a direction of port `i` (`res` 5 outbound, 6 inbound), for whatever use. -/
def slotLease (i res n : Nat) (l : LeaseE) : Bool := leaseCovers l res l.use i 0 n

/-- The partition that leases slot `n` of a direction of port `i`, among those that were ARMED or RUNNING when the frame began
(R313, R335). -/
def State.slotHolder (s : State) (i res n : Nat) : Option Nat :=
  (s.port i).act.find? (fun p => (s.part p).leases.any (slotLease i res n))

/-- EPOCH of a lull in outbound slot `n`: the low bit of the epoch of the partition that holds the slot's lease, 0 when none does
(Table 11.3, R293). -/
def State.lullEpoch (s : State) (i n : Nat) : Bool :=
  ((allParts.find? (fun p => (s.part p).holds && (s.part p).leases.any (slotLease i 5 n))).map (fun p => (s.part p).ver)).getD false

/-- USE of the lease that traffic of a class needs (R188, Table 15.5): request 5, response 6, else plan. -/
def classUse (c : Nat) : Nat := if c = 2 then 5 else if c = 3 then 6 else 0

/-- Layer `p` is open on port `i` (R333). -/
def Port.opened (x : Port) (p : Nat) : Bool := (look none x.boot p).isSome

/-- Layers that run the bootstrap trellis on port `i` (R335). -/
def State.bootLayers (s : State) (i : Nat) : List Nat :=
  allParts.filter (fun p => (s.port i).opened p && !(s.part p).active?)

/-- The layer and the class (2 request, 3 response) of an unleased slot, by the layers of the present frame (R335). -/
def State.bootSlot (s : State) (i n : Nat) : Option (Nat × Nat) :=
  let l := (s.port i).lay
  match l[n % l.length]? with
  | none => none
  | some p => some (p, if n / 3 % 2 = 0 then 2 else 3)

/-- The partition whose slot `n` of a direction of port `i` is: its lessee, or the layer of the bootstrap trellis (R335, R484). -/
def State.layerOf (s : State) (i res n : Nat) : Option Nat := (s.slotHolder i res n).orElse (fun _ => (s.bootSlot i n).map (·.1))

/-- The drain interval in frames. -/
def Part.drain (p : Part) : Nat :=
  match p.image with
  | none => 0
  | some i => i.hdr.drain

/-- A version of a partition's tables: its epoch bit, segment key and first plan frame. -/
abbrev Ver := Bool × Nat × Nat

/-- The version in force at plan frame `f` and the one before it, from the epoch with index `idx` of the step at position `pos` that
began at `st`; `fuel` epochs on (R318). -/
def Part.verFrom (p : Part) (f : Nat) : Nat → Nat → Nat → Nat → Ver → Option Ver → Ver × Option Ver
  | 0, _, _, _, v, o => (v, o)
  | fuel + 1, pos, st, idx, v, o =>
    let k := p.kind (p.kindAt pos)
    let inStep := if idx = 0 then some (st + k.window) else (k.epochAt[idx - 1]?).map (st + ·)
    let (pos', st', idx', at') := match inStep with
      | some b => (pos, st, idx + 1, b)
      | none => ((pos + 1) % p.cycleLen, st + k.length + 1, 0, st + k.length + 1)
    if f < at' then (v, o)
    else Part.verFrom p f fuel pos' st' idx' (!v.1, segKey (p.kindAt pos') idx', at') (some v)

/-- The version that epoch bit `e` selects at plan frame `f`, the present one or a later one: the epoch in force, or within the drain
interval the one before it (R318, R319). -/
def Part.verAt (p : Part) (e : Bool) (f : Nat) : Option Ver :=
  let (v, o) := p.verFrom f 64 p.cyclePos p.stepStart p.epochIdx (p.ver, p.seg, p.epochStart)
    (p.prevSeg.map (fun x => (!p.ver, x.1, x.2)))
  if e = v.1 then some v
  else o.bind (fun w => if f < v.2.2 + p.drain then some w else none)

/-- The row of slot `n` that a version plays in plan frame `f`, in direction `dir` of port `i`. -/
def Part.rowOf (p : Part) (i dir n f : Nat) (v : Ver) : BitVec 32 :=
  let ts := p.portTbl i dir v.1
  match segRow ts v.2.1 (f - v.2.2) with
  | none => 0
  | some k => (tblRow ts (384 * k + n)).getD 0

/-- The row of slot `n` of plan frame `f` for epoch bit `e`, looked up at plan frame `now`; none where the version is retired. -/
def Part.portRow (p : Part) (i dir n f now : Nat) (e : Bool) : Option (BitVec 32) := (p.verAt e now).map (p.rowOf i dir n f)

/-- CLASS of a row (Tables 12.1, 12.2). -/
def rowClass (r : BitVec 32) : Nat := bits r.toNat 29 3

/-- Plan frame of cycle `c` of the module in partition `p`. -/
def State.frameAt (s : State) (p c : Nat) : Nat := ((s.part p).planTime + c - s.cycle) / 1024

/-- Layer and class of outbound slot `n` of port `i` at attachment cycle `c`, for flits of epoch bit `e` (none: flits that this module
launches first, under the version then in force); a class whose use the lease is not for is none (R188, R318, R324, R335). -/
def State.txClass (s : State) (i n c : Nat) (e : Option Bool) : Option (Nat × Nat) :=
  match s.slotHolder i 5 n with
  | some p =>
    if !s.running p then none
    else
      let q := s.part p
      let f := s.frameAt p c
      let v := (q.verFrom f 64 q.cyclePos q.stepStart q.epochIdx (q.ver, q.seg, q.epochStart) none).1.1
      match q.portRow i 0 n f f (e.getD v) with
      | none => none
      | some r => if q.leases? 5 (classUse (rowClass r)) i 0 n then some (p, rowClass r) else none
  | none => s.bootSlot i n

/-! ### Dynamic flits on their way out (R322 to R325) -/

/-- Header bytes of a dynamic flit (Table 12.3) as the flit's low line. -/
def hdrLine (h : DynHdr) : Line :=
  BitVec.ofNat 2048 (h.dst + h.src * 2 ^ 16 + (h.dpart + 16 * h.rpart) * 2 ^ 32 + (h.op + 16 * h.ch + 64 * b2n h.last) * 2 ^ 40 +
    h.tag * 2 ^ 48 + h.seq * 2 ^ 64 + h.gen * 2 ^ 96 + h.status * 2 ^ 104 + h.piece * 2 ^ 112 + h.total * 2 ^ 128 +
    h.job * 2 ^ 160 + h.addr * 2 ^ 192 + h.hops * 2 ^ 256)

/-- The header that a flit's low line spells. -/
def hdrOf (l : Line) : DynHdr :=
  let w := l.toNat
  { dst := bits w 0 16, src := bits w 16 16, dpart := bits w 32 4, rpart := bits w 36 4, op := bits w 40 4, ch := bits w 44 2
    last := bit w 46, tag := bits w 48 16, seq := bits w 64 32, gen := bits w 96 8, status := bits w 104 8, piece := bits w 112 16
    total := bits w 128 32, job := bits w 160 32, addr := bits w 192 64, hops := bits w 256 8 }

/-- The queue of a layer and class (2 request, 3 response) at a port. -/
def dynKey (p cls : Nat) : Nat := 4 * p + cls

/-- The `n`-th slot (from 0) of the layer's class at or after cycle `c`, among slots `k` of at most `fuel` slots. -/
def State.freeSlot (s : State) (i p cls : Nat) (e : Option Bool) : Nat → Nat → Nat → Nat → Option Nat
  | 0, _, _, _ => none
  | fuel + 1, n, k, c =>
    let x := 1024 * (k / 384) + attach (k % 384)
    if x < c ∨ s.txClass i (k % 384) x e ≠ some (p, cls) then State.freeSlot s i p cls e fuel n (k + 1) c
    else if n = 0 then some x
    else State.freeSlot s i p cls e fuel (n - 1) (k + 1) c

/-- The ports toward rank `r` for layer `p`: of the plan's route table of epoch bit `e`, or of the bootstrap tables, where each open
port is taken from the table it was opened with (R323, log entry 75). -/
def State.routeMask (s : State) (p r : Nat) (e : Option Bool) : BitVec 16 :=
  let q := s.part p
  if q.active? then
    ((q.layers 0x08 0xFFFF (b2n (e.getD q.ver))).findSome? (fun d => match d with
      | .routes m => find m r
      | _ => none)).getD 0
  else BitVec.ofNat 16 ((List.range 12).foldl (fun a i => match look none (s.port i).boot p with
    | none => a
    | some b => if (look 0 b.routes r).getLsbD i then a + 2 ^ i else a) 0)

/-- A flit dropped and counted in STRAY of port `i`. -/
def State.strayFlit (s : State) (i : Nat) : State := (s.onPort i (fun x => { x with stray := x.stray + 1 })).count (locPort i) 0x30A 1

/-- Frames that the search for a free slot covers. A qualifying port with no free slot among them comes after those that have one. -/
def slotSearch : Nat := 66

/-- The port a dynamic flit of layer `p` takes at cycle `c` (R324): the earliest free slot of its class, ties to the lowest
port. -/
def State.dynPort (s : State) (p cls r c : Nat) (e : Option Bool) : Option Nat :=
  let m := s.routeMask p r e
  let last := c + 1024 * (slotSearch + 1)
  ((List.range 12).foldl (fun (best : Option (Nat × Nat)) i =>
    if m.getLsbD i && decide ((s.port i).st = .up) && (s.port i).opened p then
      let q := look [] (s.port i).dynQ (dynKey p cls)
      let x := (s.freeSlot i p cls e (384 * slotSearch) q.length (384 * (c / 1024)) c).getD last
      match best with
      | none => some (x, i)
      | some b => if x < b.1 then some (x, i) else best
    else best) none).map (fun b => b.2)

/-- The version that a forwarded flit's EPOCH selects is retired (R319). -/
def State.retired? (s : State) (p : Nat) (e : Option Bool) : Bool :=
  match e with
  | none => false
  | some b => s.running p && ((s.part p).verAt b ((s.part p).planTime / 1024)).isNone

/-- Queue a dynamic flit for launch from cycle `c`; `at'` is the port that counts a flit with no way out (R319, R324, R325). `e` is the
EPOCH of a flit that is forwarded. The answer names the port taken. -/
def State.dynSend (s : State) (p cls : Nat) (e : Option Bool) (h : DynHdr) (line : Line) (c at' : Nat) : State × Option Nat :=
  if 64 ≤ h.hops ∨ s.retired? p e then (s.strayFlit at', none)
  else
    match s.dynPort p cls h.dst c e with
    | none => (s.strayFlit at', none)
    | some i =>
      let q := look [] (s.port i).dynQ (dynKey p cls)
      if 64 ≤ q.length then ((s.strayFlit i).onPort i (fun x => { x with fwdDrop := x.fwdDrop + 1 }), none)
      else (s.onPort i (fun x => { x with dynQ := put [] x.dynQ (dynKey p cls) (q ++ [{ due := c, lay := p, cls, epoch := e, hdr := h, line }]) }), some i)

/-! ### SLOT_TRANSMIT, FORWARD_LAUNCH (R292 to R294, R317, R320, R321) -/

/-- SLOT_CHECK of slot `n` of a frame (Table 11.3). -/
def slotCheck (tf n : Nat) : Nat := 384 * (tf % 8) + n

/-- Send a flit in slot `n` of the present frame: it is handed to the transmitter with the hold of its budget (R305). -/
def State.transmit (s : State) (i n b : Nat) (f : Flit) : State :=
  let h := s.holdOf s.fcyc b
  let s := s.onPort i (fun x => { x with lastTx := s.cycle + 1 })
  let s := match f.typ with
    | 1 => s.count (locPort i) 0x301 1
    | 2 => s.count (locPort i) 0x304 1
    | 3 => s.count (locPort i) 0x304 1
    | _ => s
  let s := if f.typ = 0 then s else s.spend 15 (s.layerOf i 5 n) 1
  (s.handTx i h f).send (.flit i n s.cycle h f)

/-- Send a lull in slot `n` (R293). -/
def State.sendLull (s : State) (i n b : Nat) : State :=
  s.transmit i n b { typ := 0, epoch := s.lullEpoch i n, check := slotCheck s.tf n, lo := 0, hi := 0 }

/-- The beats at the port in this cycle as they are read: uncorrectable words are free values and faults (R161, R192). -/
def State.portBeats (s : State) (i p : Nat) (pecc : BeatEcc) : State × List Hop :=
  ((s.port i).outBeats.filter (fun h => decide (h.cyc = s.cycle) && h.beat.carried)).foldl (fun a h =>
    let (s1, x) := a.1.readBeat (portBlock i / 16) (locPort i) h.port [p] (BeatEcc.at' pecc h.port) h.beat
    (s1, a.2 ++ [{ h with beat := x }])) (s, [])

/-- The outbound plan flit of this cycle from the beats on A0 and A1. A beat of another partition, or one in a slot that the layer
does not lease for plan traffic, is a lull and LEASE_VIOLATION against its sender (R189, R313). -/
def State.sendPlan (s : State) (i n p : Nat) (pecc : BeatEcc) : State :=
  let (s1, now) := s.portBeats i p pecc
  let mine (h : Hop) : Bool := decide (h.beat.sb.part.toNat = p) && (s.part p).leases? 5 0 i 0 n
  let s2 := now.foldl (fun s h =>
    if mine h then s else s.partFault 0x33 [h.beat.sb.part.toNat] (locPort i) h.beat.sb.toNat (s.pathD1 h.port)) s1
  let a (k : Nat) : Option Line := ((now.filter mine).find? (fun h => decide (h.port = k))).map (fun h => h.beat.data)
  if (now.filter mine).isEmpty then s2.sendLull i n (((s.part p).budget i 0).getD 0)
  else s2.transmit i n (((s.part p).budget i 0).getD 0)
    { typ := 1, epoch := (s.part p).ver, check := slotCheck s.tf n, lo := (a 0).getD 0, hi := (a 1).getD 0 }

/-- Budget B of a direction, LAT for a bootstrap layer (R315). -/
def State.budgetOf (s : State) (p i dir : Nat) : Nat :=
  if (s.part p).active? then ((s.part p).budget i dir).getD 0
  else if dir = 0 then (s.port i).latTx else (s.port i).latRx

/-- A queued flit may leave in a slot of version `v` (none: the bootstrap trellis): a forwarded one under its own version, one of this
module under the epoch in force (R318). -/
def DynFlit.fits (d : DynFlit) (now : Nat) (ver : Bool) (v : Option Bool) : Bool :=
  decide (d.due ≤ now) && (match v with
    | none => true
    | some b => d.epoch.getD ver == b)

/-- The requester's key of a transfer: its channel and tag. -/
def xferKey (ch tag : Nat) : Nat := 65536 * ch + tag

/-- A piece of an attempt of this module's own transfer leaves, or is dropped on its way out: the timer runs from the last (R328). -/
def State.noteSent (s : State) (cls : Nat) (e : Option Bool) (h : DynHdr) : State :=
  if cls = 2 ∧ e = none then
    match look none s.fab.xfers (xferKey h.ch h.tag) with
    | none => s
    | some x => { s with fab := { s.fab with xfers := put none s.fab.xfers (xferKey h.ch h.tag) (some { x with sentAt := s.wallNs }) } }
  else s

/-- Launch the first flit of a dynamic queue that may leave in the slot, or a lull (R317). -/
def State.launchDyn (s : State) (i n p cls : Nat) (v : Option Bool) : State :=
  let b := s.budgetOf p i 0
  let l := look [] (s.port i).dynQ (dynKey p cls)
  let ver := (s.part p).ver
  match l.find? (fun d => d.fits s.cycle ver v) with
  | none => s.sendLull i n b
  | some d =>
    ((s.onPort i (fun x => { x with dynQ := put [] x.dynQ (dynKey p cls) (l.eraseP (fun d => d.fits s.cycle ver v)) })).noteSent cls d.epoch d.hdr).transmit i n b
      { typ := cls, epoch := d.epoch.getD ver, check := slotCheck s.tf n, lo := hdrLine d.hdr, hi := d.line }

/-- The forwarded flit whose forward row is that of slot `n` in this cycle, d + 60 of the flit: the row of the version that its EPOCH
selects names its port and slot (R318, R320). -/
def State.fwdIn (s : State) (i n p : Nat) : Option FwdFlit :=
  let q := s.part p
  let f := q.planTime / 1024
  (s.port i).fwd.find? (fun x => decide (x.due = s.cycle) && (match q.portRow i 0 n f f x.flit.epoch with
    | none => false
    | some r => decide (rowClass r = 4 ∧ bits r.toNat 25 4 = x.port ∧ bits r.toNat 16 9 = x.slot)))

/-- Launch a forwarded flit with its new SLOT_CHECK; an inbound lull leaves as a lull. -/
def State.sendFwd (s : State) (i n p : Nat) (x : FwdFlit) : State :=
  let s1 := if x.flit.typ = 0 then s else (s.count (locPort i) 0x309 1).spend 16 (some p) 1
  s1.transmit i n (s.budgetOf p i 0) { x.flit with check := slotCheck s.tf n }

/-- A port row as read: an uncorrectable word is a fault against the layer's partition and a free value (R187). -/
def State.readPortRow (s : State) (i p : Nat) (tecc : Ecc) (r : BitVec 32) : State × BitVec 32 :=
  if tecc = .uncorrectable then
    ((s.partFault 0x36 [p] (locPort i) 0 (s.pathD1 0)).fresh, BitVec.ofNat 32 (Config.freeBits s.freeCtr))
  else (s, r)

/-- A slot of a running plan: the forward row that is due, the row of the version in force, or within the drain interval the dynamic
class of the version before it. -/
def State.planSlot (s : State) (i n p : Nat) (tecc : Ecc) (pecc : BeatEcc) : State :=
  let q := s.part p
  let f := q.planTime / 1024
  let b := s.budgetOf p i 0
  match s.fwdIn i n p with
  | some x => s.sendFwd i n p x
  | none =>
    let (s1, row) := s.readPortRow i p tecc ((q.portRow i 0 n f f q.ver).getD 0)
    let c := rowClass row
    let old := rowClass ((q.portRow i 0 n f f (!q.ver)).getD 0)
    if c = 1 then s1.sendPlan i n p pecc
    else if c = 2 ∨ c = 3 then (if q.leases? 5 (classUse c) i 0 n then s1.launchDyn i n p c (some q.ver) else s1.sendLull i n b)
    else if c = 0 ∧ (old = 2 ∨ old = 3) ∧ q.leases? 5 (classUse old) i 0 n then s1.launchDyn i n p old (some (!q.ver))
    else s1.sendLull i n b

/-- What the port sends in slot `n`: lulls while FENCED or out of step with the peer (R294), in a slot of a plan that does not run or
whose budget the link exceeds (R309), and in one that no layer uses. -/
def State.sendSlot (s : State) (i n : Nat) (tecc : Ecc) (pecc : BeatEcc) : State :=
  let x := s.port i
  if x.st = .fenced ∨ !x.inSync then s.sendLull i n x.latTx
  else
    match s.slotHolder i 5 n with
    | none =>
      match s.bootSlot i n with
      | none => s.sendLull i n x.latTx
      | some (p, cls) => s.launchDyn i n p cls none
    | some p => if !s.running p ∨ x.budgetBad.getLsbD p then s.sendLull i n x.latTx else s.planSlot i n p tecc pecc

/-- What a port holds for launch after this cycle: a beat or a forwarded flit that has not left in its cycle never leaves. -/
def Port.past (x : Port) (now : Nat) : Port :=
  { x with outBeats := x.outBeats.filter (fun h => decide (now < h.cyc)), fwd := x.fwd.filter (fun f => decide (now < f.due)) }

/-- SLOT_TRANSMIT: in the attachment cycle of a slot, the port sends what the slot's row names; once per slot. `tecc` is found on the
transmit row, `pecc` on the beats. -/
def execSlotTransmit (i : Nat) (tecc : Ecc) (pecc : BeatEcc) (s : State) : Out :=
  match slotAt s.fcyc with
  | none => ok s
  | some n =>
    let x := s.port i
    if (x.st ≠ .up ∧ x.st ≠ .fenced) ∨ x.lastTx = s.cycle + 1 then ok (s.onPort i (fun y => y.past s.cycle))
    else ok ((s.sendSlot i n tecc pecc).onPort i (fun y => y.past s.cycle))

/-- FORWARD_LAUNCH: a plan flit delivered 60 cycles ago leaves in the forward slot of this cycle; on a port that is not UP it is
not launched (R320, R321). -/
def execForwardLaunch (i : Nat) (s : State) : Out :=
  let x := s.port i
  if x.st ≠ .up then ok (s.onPort i (fun y => y.past s.cycle))
  else if x.lastTx = s.cycle + 1 ∨ !x.inSync then ok s
  else
    match slotAt s.fcyc with
    | none => ok (s.onPort i (fun y => y.past s.cycle))
    | some n =>
      match s.slotHolder i 5 n with
      | none => ok s
      | some p =>
        if !s.running p ∨ x.budgetBad.getLsbD p then ok s
        else
          match s.fwdIn i n p with
          | some f => ok ((s.sendFwd i n p f).onPort i (fun y => y.past s.cycle))
          | none => ok s

/-! ### Link faults (R311) -/

/-- Transfers whose latest attempt left by port `i` are quarantined; what is left of the attempt is not launched (R331). -/
def State.quarantine (s : State) (i : Nat) : State :=
  let hit (t : Xfer) : Bool := t.left.contains i && t.done.isNone
  let mine (o : Outgo) : Bool := decide (o.cls = 2) && (match look none s.fab.xfers (65536 * o.hdr.ch + o.hdr.tag) with
    | some t => hit t
    | none => false)
  { s with fab := { s.fab with
    xfers := mapv none s.fab.xfers (fun _ x => x.map (fun t => if hit t then { t with quar := some i } else t))
    outq := s.fab.outq.filter (fun o => !mine o) } }

/-- Take port `i` DOWN in both directions; forwarded dynamic flits queued for it are dropped (R311, R331). -/
def State.portDown (s : State) (i last : Nat) : State :=
  let n := (s.port i).dynQ.foldl (fun a e => a + (e.2.filter (fun d => d.epoch.isSome)).length) 0
  (((s.onPort i (fun x =>
    { x with st := .down, lastFatal := last, dynQ := mapv [] x.dynQ (fun _ l => l.filter (fun d => d.epoch.isNone))
             fwdDrop := x.fwdDrop + BitVec.ofNat 8 n, spareLane := 0xF, spareAt := 0, dual := false }))).count (locPort i) 0x30A n).quarantine i

/-- A fatal link cause: the port goes DOWN and every job with plan slots on it is faulted. -/
def State.linkFatal (s : State) (i code tag n lanes : Nat) : State :=
  (s.jobFault code (s.scope (fun p => (s.part p).onPort i)) (locPort i) tag (i + n * 2 ^ 4 + lanes * 2 ^ 32)).portDown i (code % 16)

/-! ### FLIT_RECEIVE (R287, R296 to R299, R306) -/

/-- Plan frames from now to the next epoch boundary at least `n` frames ahead, looking `fuel` steps on. -/
def Part.nextEpoch (p : Part) (n : Nat) : Nat → Nat → Nat → Nat → Option Nat
  | 0, _, _, _ => none
  | fuel + 1, pos, start, now =>
    let k := p.kind (p.kindAt (pos % p.cycleLen))
    match ([start, start + k.window] ++ k.epochAt.map (fun a => start + a)).filter (fun f => decide (now + n ≤ f)) with
    | [] => Part.nextEpoch p n fuel (pos + 1) (start + k.length + 1) now
    | f :: fs => some (fs.foldl min f - now)

/-- SPARE_AT (R299): TF of the first epoch boundary at least 8 frames ahead of any partition with plan slots on the port, or of
the frame 8 ahead. -/
def State.spareAtOf (s : State) (i : Nat) : Nat :=
  let l := allParts.filterMap (fun p =>
    let q := s.part p
    if s.running p && q.onPort i then q.nextEpoch 8 64 q.cyclePos q.stepStart (q.planTime / 1024) else none)
  let n := match l with
    | [] => 8
    | d :: ds => ds.foldl min d
  (s.tu.ahead n s.tu.grid).tf

/-- Mark logical lane `k` failing (R298, R299, R301). -/
def State.markLane (s : State) (i k : Nat) : State :=
  let x := s.port i
  if x.badRx.getLsbD k then s
  else if x.spareOk ∧ x.spareLane = 0xF then
    s.onPort i (fun y => { y with badRx := y.badRx ||| BitVec.ofNat 9 (2 ^ k), spareLane := k, spareAt := s.spareAtOf i })
  else s.onPort i (fun y => { y with badRx := y.badRx ||| BitVec.ofNat 9 (2 ^ k), degraded := true })

/-- A failed segment on lane `k`: counted, and the lane marked past 16 in 1,024 frames. -/
def State.badSegment (s : State) (i k : Nat) : State :=
  let l := ((look [] (s.port i).failAt k).filter (fun f => decide (s.frm < f + 1024))) ++ [s.frm]
  let s := (s.onPort i (fun y => { y with badSeg := y.badSeg + 1, failAt := put [] y.failAt k l })).count (locPort i) 0x306 1
  if 16 < l.length then s.markLane i k else s

/-- LINK_DOWN: physical lanes whose receiver has lost lock, and `whole`: no alignment segment for 2 superframes, or the peer's port is
powered off. One lane without lock is marked failing; two or more take the port DOWN (R298, Table 11.6). -/
def execLinkDown (i : Nat) (lost : List Nat) (whole : Bool) (s : State) : Out :=
  let x := s.port i
  if x.st ≠ .up ∧ x.st ≠ .fenced ∧ x.st ≠ .calibrating then ok s
  else
    let m := x.lostLock ||| BitVec.ofNat 10 (lost.eraseDups.foldl (fun a j => a + 2 ^ j) 0)
    let s1 := s.onPort i (fun y => { y with lostLock := m })
    if whole ∨ 2 ≤ ((List.range 10).filter (fun j => m.getLsbD j)).length then ok (s1.linkFatal i 0x76 0 0 m.toNat)
    else ok (lost.foldl (fun s j =>
      let d := x.lanesRx.getD j 9
      if d < 9 then s.markLane i d else s.onPort i (fun y => { y with spareOk := false, spareSeen := s.frm })) s1)

/-- A segment that did not arrive. -/
def noSeg : Seg := { tag := 0, par := 0, pay := 0, cws := [{ ends := false, errs := (List.range 16).map (fun k => (k, 1)) }] }

/-- The segment of logical lane `k` among those of the physical lanes, after deskew and spare mapping (R283, R300). -/
def Port.lane (x : Port) (segs : List Seg) (k : Nat) : Seg := segs.getD (x.physRx k) noSeg

/-- The sum of the payloads of all lanes but `b` (R288, R296). -/
def Port.rebuildPay (x : Port) (segs : List Seg) (b : Nat) : BitVec 512 :=
  (List.range 9).foldl (fun a k => if k = b then a else a ^^^ (x.lane segs k).pay) 0

/-- Watermarks and LINK_LATE, LINK_EARLY of a flit of flight `fl` and budget `b` (R306). -/
def State.waterMarks (s : State) (i fl b tag n : Nat) : State :=
  let x := s.port i
  let guard := fl - 8 * (x.latRx - 8)
  let hold := 8 * b - fl
  let s1 := s.onPort i (fun y =>
    { y with warnGuard := y.warnGuard || decide (48 ≤ guard), warnHold := y.warnHold || decide (768 ≤ hold)
             holdMax := min 255 (max y.holdMax (hold / 8)), holdMin := min y.holdMin (hold / 8)
             guardMax := max y.guardMax ((guard + 7) / 8) })
  let s2 := if 48 ≤ guard then s1.count (locPort i) 0x30B 1 else s1
  let s3 := if 768 ≤ hold then s2.count (locPort i) 0x30C 1 else s2
  let s4 := if 48 ≤ guard ∨ 768 ≤ hold then (s3.modEvent 0xC9 (locPort i) i (guard / 8)).watermark (100 + i) else s3
  if 8 * x.latRx < fl then s4.linkFatal i 0x74 tag n 0
  else if 1024 < hold then s4.linkFatal i 0x75 tag n 0
  else s4

/-- The cycle of the frame at which slot `n` attaches; `n` = 384 is the control slot. -/
def slotPos (n : Nat) : Nat := if n = 384 then 1023 else attach n

/-- Frames back to the frame whose slot `n` a flit of flight `fl`/8 cycles and budget `b` that arrives in this cycle fills: its hold and
its flight end in this cycle (R305). The segment time of an arrival thus names one slot. -/
def State.slotBack (s : State) (n b fl : Nat) : Option Nat :=
  (List.range 6).find? (fun k =>
    let past := s.since k (slotPos n)
    let need := s.tu.wall 16 (s.tu.back k) (slotPos n) b - 2520 * b + 315 * fl
    decide (slotPos n ≤ 1024 * k + s.fcyc ∧ past ≤ need ∧ need < past + 25200 / (10 - s.tu.gust)))

/-- Frames back to the launch frame by the cycle count alone, for a peer whose frames are not aligned. -/
def State.launchBack (s : State) (n fl : Nat) : Nat := s.frm - (8 * s.cycle + 4096 - fl - 8 * slotPos n) / 8192

/-- Where SLOT_CHECK of frame `f` mod 8 and slot `n` is the one expected for the flit's segment time, the frames back to its launch
frame: in the receiver's own numbering, or in the peer's while the two are not aligned (R296, R359). -/
def State.expected (s : State) (i n b fl f : Nat) : Option Nat :=
  if (s.port i).inSync then (s.slotBack n b fl).filter (fun k => decide (f = (s.tu.back k).tf % 8))
  else
    match (s.port i).peer with
    | none => some (s.launchBack n fl)
    | some c => if f = (c.frame + 1) % 8 ∨ f = 0 ∨ (n = 384 ∧ f = c.frame % 8) then some (s.launchBack n fl) else none

/-- What the port does with a flit that has passed R296: a control flit goes to the time unit (R304, R310), others wait for their
delivery. -/
def State.hold (s : State) (i n b back : Nat) (fl : Flit) : State :=
  let fr := s.frm - back
  if n = 384 then
    if fl.typ = 4 then s.onPort i (fun y => { y with ctlIn := y.ctlIn ++ [{ due := 1024 * fr + 1023 + y.latRx, frm := fr, ctl := ctlOf fl.lo }] })
    else s
  else if (s.port i).st = .fenced ∧ fl.typ ≠ 0 then s.strayFlit i
  else s.onPort i (fun y => { y with inbox := y.inbox ++ [{ due := 1024 * fr + attach n + b, frm := fr, slot := n, flit := fl }] })

/-- Event of a received flit of a type. -/
def rxEvent (typ : Nat) : Option Nat :=
  match typ with
  | 0 => some 0x303
  | 1 => some 0x302
  | 2 => some 0x305
  | 3 => some 0x305
  | _ => none

/-- FLIT_RECEIVE: the segments of one segment time arrive on the ten physical lanes; `flight8` is the flight in 1/8 cycles. -/
def execFlitReceive (i : Nat) (segs : List Seg) (flight8 : Nat) (s : State) : Out :=
  let x := s.port i
  if x.st ≠ .up ∧ x.st ≠ .fenced ∧ x.st ≠ .calibrating then ok s
  else
    let seg := x.lane segs
    let bad := (List.range 9).filter (fun k => !segPasses (seg k))
    let s0 := s.count (locPort i) 0x308 ((List.range 9).foldl (fun n k => n + segFixed (seg k)) 0)
    let s1 := bad.foldl (fun s k => s.badSegment i k) s0
    let mask := bad.foldl (fun m k => m + 2 ^ k) 0
    match (List.range 9).filter (fun k => !bad.contains k) with
    | [] => ok (s1.linkFatal i 0x71 0 0 mask)
    | g :: _ =>
      let tag := (seg g).tag.toNat
      let chk := tag % 4096
      let n := if 3072 ≤ chk then 384 else chk % 384
      let typ := tag / 2 ^ 13
      if 2 ≤ bad.length then ok (s1.linkFatal i 0x71 tag n mask)
      else if (List.range 9).any (fun k => !bad.contains k && decide ((seg k).tag.toNat ≠ tag)) then
        ok (s1.linkFatal i 0x72 tag n mask)
      else if typ = 5 then ok s1
      else if typ = 6 then
        ok (s1.onPort i (fun y => { y with lanesRx := mapOf y.lanesRx segs, superRx := bits (seg g).pay.toNat 16 48 }))
      else
        let b := if n = 384 then x.latRx else match s.slotHolder i 6 n with
          | none => x.latRx
          | some p => s.budgetOf p i 1
        match (if 3080 ≤ chk then none else s.expected i n b flight8 (if n = 384 then chk - 3072 else chk / 384)) with
        | none => ok (s1.linkFatal i 0x73 tag n mask)
        | some back =>
          let pays := (List.range 8).map (fun k => if bad = [k] then x.rebuildPay segs k else (seg k).pay)
          let s2 := if bad.any (fun k => decide (k < 8)) then
              (s1.onPort i (fun y => { y with rebuilt := y.rebuilt + 1 })).count (locPort i) 0x307 1 else s1
          let s3 := s2.waterMarks i flight8 b tag n
          if (s3.port i).st = .down then ok s3
          else
            let s4 := match rxEvent typ with
              | none => s3
              | some e => if typ = 0 then s3.count (locPort i) e 1 else (s3.count (locPort i) e 1).spend 15 (s3.layerOf i 6 n) 1
            ok (s4.hold i n b back (flitOf typ (bit tag 12) chk pays))

/-! ### FLIT_DELIVER (R315 to R321, R334) -/

/-- Present a plan flit on A0 and A1 of the port's block; the sideband of the beats is not part of the flit and is a free value
but for the partition and the write kind. -/
def State.present (s : State) (i p : Nat) (f : Flit) : State :=
  let sb : Sb := { sbOf (Config.freeBits s.freeCtr % 2 ^ 64) with part := BitVec.ofNat 4 p, kind := 1 }
  (s.onBlock (portBlock i) (fun b => { b with rin := b.rin ++
    [{ cyc := s.cycle, port := 12, beat := { sb, data := f.lo } }, { cyc := s.cycle, port := 13, beat := { sb, data := f.hi } }] })).fresh

/-- A routing fault against the job of layer `p` (R343). -/
def State.routeFault (s : State) (i p code : Nat) (f : RxFlit) : State :=
  s.jobFault code (s.scope (fun q => decide (q = p))) (locPort i)
    (f.flit.typ * 2 ^ 13 + b2n f.flit.epoch * 2 ^ 12 + f.flit.check) (i + f.slot * 2 ^ 4)

/-- A request or response flit: toward this module it enters the fabric engine, else the forwarding switch with its EPOCH (R315, R317,
R323, R324). -/
def State.dynArrive (s : State) (i p : Nat) (f : Flit) : State :=
  let h := hdrOf f.lo
  let own := if (s.part p).active? then (s.part p).rank else ((look none (s.port i).boot p).map (fun b => b.rank)).getD 0
  let d (due hops : Nat) : DynFlit := { due, lay := p, cls := f.typ, epoch := some f.epoch, hdr := { h with hops }, line := f.hi }
  if h.dst = own then { s with fab := { s.fab with inq := s.fab.inq ++ [(i, d s.cycle h.hops)] } }
  else s.onPort i (fun x => { x with fwdDyn := x.fwdDyn ++ [d (s.cycle + 60) (h.hops + 1)] })

/-- Launch copies of a delivered plan flit, or of its lull, on the ports of FWD_MASK at d + 60 (R320). -/
def State.forward (s : State) (i mask : Nat) (f : RxFlit) : State :=
  (List.range 12).foldl (fun s k =>
    if bit mask k then s.onPort k (fun x => { x with fwd := x.fwd ++ [{ due := s.cycle + 60, port := i, slot := f.slot, flit := f.flit }] })
    else s) s

/-- A flit delivered in a slot of a running plan (R316, R318 to R321). -/
def State.deliverIn (s : State) (i p : Nat) (tecc : Ecc) (f : RxFlit) : State :=
  let q := s.part p
  let ty := f.flit.typ
  let now := q.planTime / 1024
  match q.portRow i 1 f.slot (now + f.frm - s.frm) now f.flit.epoch with
  | none => if ty = 0 then s else if ty = 1 then s.routeFault i p 0x81 f else s.strayFlit i
  | some r =>
    let (s1, row) := s.readPortRow i p tecc r
    match rowClass row with
    | 1 =>
      if ty = 0 then s1.forward i (bits row.toNat 16 12) f
      else if ty ≠ 1 then s1.routeFault i p 0x80 f
      else (if row.getLsbD 28 then s1.present i p f.flit else s1).forward i (bits row.toNat 16 12) f
    | c =>
      if ty = 0 then s1
      else if (c = 2 ∨ c = 3) ∧ ty = c then s1.dynArrive i p f.flit
      else s1.strayFlit i

/-- FLIT_DELIVER: the first flit that is due is delivered at x + B; `tecc` is found on its receive row. On TW, plan flits go to the
shadow engine. -/
def execFlitDeliver (i : Nat) (tecc : Ecc) (s : State) : Out :=
  match (s.port i).inbox.find? (fun f => decide (f.due ≤ s.cycle)) with
  | none => ok s
  | some f =>
    let s1 := s.onPort i (fun x => { x with inbox := x.inbox.filter (fun g => decide (g ≠ f)) })
    let ty := f.flit.typ
    if (s.port i).st ≠ .up then ok (if ty = 0 then s1 else s1.strayFlit i)
    else if i = 10 ∧ ty = 1 then ok { s1 with fab := { s1.fab with shadowIn := s1.fab.shadowIn ++ [f.flit] } }
    else
      match s.slotHolder i 6 f.slot with
      | none =>
        match s.bootSlot i f.slot with
        | none => ok (if ty = 0 then s1 else s1.strayFlit i)
        | some (p, cls) => ok (if ty = 0 then s1 else if ty = cls then s1.dynArrive i p f.flit else s1.strayFlit i)
      | some p =>
        if s.running p then ok (s1.deliverIn i p tecc f)
        else ok (if ty = 0 then s1 else s1.strayFlit i)

/-! ### The spare lane (R298 to R301) -/

/-- SPARE_DUAL_SEND: from frame SPARE_AT − 2 of the peer's announcement the lane is sent on the spare as well. -/
def execSpareDualSend (i : Nat) (s : State) : Out :=
  let x := s.port i
  match x.peer with
  | none => ok s
  | some c =>
    if c.spareLane = 0xF ∨ c.spareAt = 0 ∨ x.dual ∨ (s.tu.ahead 2 s.tu.grid).tf < c.spareAt then ok s
    else ok ((s.drainTx i).onPort i (fun y => { y with dual := true, spareTx := c.spareLane }))

/-- LANE_SPARED: at SPARE_AT the receiver takes the lane from the spare; the old lane is the spare under watch. -/
def execLaneSpared (i : Nat) (s : State) : Out :=
  let x := s.port i
  if x.spareLane = 0xF ∨ s.tf < x.spareAt then ok s
  else
    let k := x.spareLane
    ok ((s.onPort i (fun y =>
      { y with lanesRx := swapSpare y.lanesRx k, spareRx := k, spareLane := 0xF, spareAt := 0, spareOk := false, spareSeen := s.frm
               badRx := y.badRx &&& ~~~(BitVec.ofNat 9 (2 ^ k)), failAt := put [] y.failAt k [] })).modEvent 0xC4 (locPort i) i
      (k + x.spareAt * 2 ^ 4))

/-- SPARE_OK_RESTORE: the spare under watch has passed every segment for 1,024,000 frames. -/
def execSpareOkRestore (i : Nat) (s : State) : Out :=
  let x := s.port i
  if (x.st = .up ∨ x.st = .fenced ∨ x.st = .calibrating) ∧ !x.spareOk ∧ x.spareSeen + 1024000 ≤ s.frm then ok (s.onPort i (fun y => { y with spareOk := true })) else ok s

/-- SPARE_LANE_SEGMENT: an alignment or fill segment on the spare lane; one that fails R287 clears SPARE_OK_RX. -/
def execSpareLaneSegment (i : Nat) (sg : Seg) (s : State) : Out :=
  let s := s.count (locPort i) 0x308 (segFixed sg)
  if segPasses sg then ok s
  else ok ((s.onPort i (fun y => { y with badSeg := y.badSeg + 1, spareOk := false, spareSeen := s.frm })).count (locPort i) 0x306 1)

/-! ### Training (R302, R303, R307 to R309) -/

def ceil8 (n : Nat) : Nat := (n + 7) / 8

/-- A training brings a direction out of TRAINING: every lane in lock, a complete set of logical lanes and a spare, at most 40 ns apart
(R283, R286). -/
def trainOk (r : TrainOut) : Bool := r.trained && lanesOk r.lanes && decide (r.skewNs ≤ 40)

/-- The lanes of a port that has just trained; the transmitter's first superframe begins at wall time `start`. -/
def Port.freshLanes (x : Port) (r : TrainOut) (start : Nat) : Port :=
  { x with lanesRx := r.lanes, lanesTx := List.range 10, superAt := start, segNext := 0, superTx := 0, txSegs := [], txq := [], lostLock := 0
           spareRx := 0xF, spareTx := 0xF, spareOk := true, degraded := false, badRx := 0, failAt := [], spareLane := 0xF, spareAt := 0
           dual := false, inSync := false, peer := none, latTx := 0, ctlIn := [], inbox := [] }

/-- LAT of a maximum flight in 1/8 cycles (R302, R303): the guard of 8 cycles, at least 16. -/
def latOf (flight8 : Nat) : Nat := max 16 (ceil8 flight8 + 8)

/-- A port after reset training and calibration (Table 11.4). -/
def Port.trained (x : Port) (r : TrainOut) (start : Nat) : Port :=
  if !trainOk r then { x with st := .training }
  else if 4095 < latOf r.storm8 then { x with st := .failed }
  else { x.freshLanes r start with
         st := .fenced, latRx := latOf r.storm8, stormCorr := ceil8 (r.storm8 - r.quiet8), flightMax := r.storm8, fast := false }

/-- Where the transmitter's first superframe begins is not stated: a free time from now on. -/
def State.superStart (s : State) : Nat := s.wallNow + Config.freeBits s.freeCtr

/-- The calibration set keeps LAT, storm correction and maximum flight of a port (R302, Table 20.4). -/
def State.calPort (s : State) (i : Nat) : State :=
  let x := s.port i
  let set (c : CalSet) : CalSet := calSealed (calPut { c with writer := 3 } 1 i [x.latRx, x.stormCorr, x.flightMax])
  { s with calLoad := set s.calLoad, calFlash := set s.calFlash }

/-- PORT_TRAINING: in the reset calibration, at gust step 0, the phases of Table 11.4 end for a port that is on (R307). -/
def execPortTraining (i : Nat) (r : TrainOut) (s : State) : Out :=
  let x := s.port i
  if s.boot.phase ≠ .calibration ∨ s.tu.gust ≠ 0 ∨ x.st = .off ∨ x.st = .failed ∨ x.st = .up then ok s
  else
    let s1 := (s.onPort i (fun x => x.trained r s.superStart)).fresh
    ok (if (s1.port i).st = .fenced then s1.calPort i else s1)

/-- LINK_BUDGET for every plan whose inbound budget the new LAT exceeds (R309). -/
def State.budgetCheck (s : State) (i : Nat) : State :=
  allParts.foldl (fun s p =>
    let q := s.part p
    match q.budget i 1 with
    | none => s
    | some b =>
      if q.onPort i ∧ b < (s.port i).latRx then
        (s.jobFault 0x77 (s.scope (fun x => decide (x = p))) (locPort i) 0 i).onPort i (fun y =>
          { y with budgetBad := y.budgetBad ||| BitVec.ofNat 16 (2 ^ p), lastFatal := 7 })
      else s) s

/-- FAST_RETRAIN: after a loss of link, LAT from the quiet flight and the stored storm correction (R308, R510). -/
def execFastRetrain (i : Nat) (r : TrainOut) (s : State) : Out :=
  let x := s.port i
  if x.st ≠ .down ∧ x.st ≠ .training then ok s
  else if !trainOk r then ok (s.onPort i (fun x => { x with st := .training }))
  else
    let lat := latOf (r.quiet8 + 8 * x.stormCorr)
    if 4095 < lat then ok (s.onPort i (fun x => { x with st := .failed }))
    else ok (((s.onPort i (fun x => { x.freshLanes r s.superStart with
      st := .fenced, latRx := lat, flightMax := r.quiet8, fast := true })).fresh).budgetCheck i)

/-! ### Control flits (R291, R310, Table 11.5) -/

/-- Port `i` is used by the vote schedule in the frame `f` of `State.frm` (R364, R365). -/
def State.voteUses (s : State) (i f : Nat) (v : Vote) : Bool :=
  let (h, t) := s.voteTree
  let d := t.depth
  let child := t.voteChildren.getLsbD i
  let parent := decide (t.voteParent = i)
  (child && decide (f + 5 * (d + 1) = v.frm + 5 * h ∨ f = v.frm + 5 * h + 5 * d)) ||
  (parent && decide (d ≠ 0) && decide (f + 5 * d = v.frm + 5 * h ∨ f + 5 = v.frm + 5 * h + 5 * d))

/-- GUST_REQ of the control flit of the present frame: the scheduled value, else the module's own request. -/
def State.gustReqOut (s : State) : Nat :=
  let (h, t) := s.voteTree
  match s.tu.votes.find? (fun v => decide (s.frm + 5 * t.depth = v.frm + 5 * h) && decide (t.depth ≠ 0)) with
  | some v => v.req
  | none => s.gustReq

/-- GUST_RED and VALID of the control flit of the present frame. -/
def State.gustRedOut (s : State) : Option Nat :=
  let (h, t) := s.voteTree
  (s.tu.votes.find? (fun v => decide (s.frm = v.frm + 5 * h + 5 * t.depth))).bind (fun v => v.dec)

/-- ROT_READY of partition `p` in the present frame: the scheduled reduction, else its own readiness (R245, R392). -/
def State.rotOut (s : State) (p : Nat) : Bool :=
  let q := s.part p
  let (h, t) := s.voteTree
  match q.jb.rotV with
  | some v => if s.frm + 5 * t.depth = v + 5 * h then q.jb.rotVal else q.pendRot.isSome
  | none => q.pendRot.isSome

/-- ROT_RED of partition `p` in the present frame. -/
def State.rotRedOut (s : State) (p : Nat) : Bool :=
  let q := s.part p
  let (h, t) := s.voteTree
  match q.jb.rotV with
  | some v => decide (s.frm = v + 5 * h + 5 * t.depth) && q.jb.rotAgreed.getD false
  | none => false

def mask16 (f : Nat → Bool) : BitVec 16 := BitVec.ofNat 16 (allParts.foldl (fun a p => if f p then a + 2 ^ p else a) 0)

/-- The step number that COMMIT carries before a step has been committed: one that no step has (DESIGN CHOICE, log entry 75). -/
def noStep : Nat := 2 ^ 48 - 1

/-- The control flit that port `i` sends in the present frame. -/
def State.ctlOut (s : State) (i : Nat) : CtlFlit :=
  let x := s.port i
  let red := s.gustRedOut
  { frame := s.tf, serial := s.fuses.serial, port := i, role := x.roleSet.getD i, gustReq := s.gustReqOut, gustRed := red.getD 0
    gustValid := red.isSome, laneBad := x.badRx, spareLane := x.spareLane, spareAt := x.spareAt, latRx := x.latRx, heartbeat := s.frm
    commit := allParts.map (fun p => (s.running p, (s.part p).committed.getD noStep))
    rotReady := mask16 s.rotOut, rotRed := mask16 s.rotRedOut }

/-- CONTROL_FLIT_TX: at cycle 1,023 of the frame the control flit is sent; a vote port that is not UP when the schedule uses it
raises VOTE_LOST, and the vote changes nothing here (R365). At the root, the decision of a vote is the largest request. -/
def execControlFlitTx (i : Nat) (s : State) : Out :=
  let x := s.port i
  if s.fcyc ≠ 1023 ∨ x.lastTx = s.cycle + 1 then ok s
  else
    let lost := x.st ≠ .up && s.tu.votes.any (fun v => s.voteUses i s.frm v && !v.lost)
    let s1 : State := if lost then
        ({ s with tu := { s.tu with votes := s.tu.votes.map (fun v => if s.voteUses i s.frm v then { v with lost := true } else v) } }).jobFault
          0x95 s.timeScope (locPort i) 0 0
      else s
    if x.st ≠ .up ∧ x.st ≠ .fenced ∧ x.st ≠ .calibrating then ok s1
    else
      let c := s1.ctlOut i
      let h := s1.holdOf 1023 x.latTx
      let f : Flit := { typ := 4, epoch := false, check := 3072 + s.tf % 8, lo := ctlLine c, hi := 0 }
      ok (((s1.onPort i (fun y => { y with lastTx := s.cycle + 1 })).handTx i h f).send (.ctl i h c))

/-- The vote fields of a control flit of frame `f` received on port `i` (R364). -/
def State.takeVote (s : State) (i f : Nat) (c : CtlFlit) : State :=
  let (h, t) := s.voteTree
  let d := t.depth
  { s with tu := { s.tu with votes := s.tu.votes.map (fun v =>
      let v := if t.voteChildren.getLsbD i ∧ f + 5 * (d + 1) = v.frm + 5 * h then { v with req := max v.req c.gustReq } else v
      if d ≠ 0 ∧ t.voteParent = i ∧ f + 5 = v.frm + 5 * h + 5 * d ∧ c.gustValid then { v with dec := some c.gustRed } else v) } }

/-- The rotation fields, translated by the peer partition of the port (R392). -/
def State.takeRot (s : State) (i f : Nat) (c : CtlFlit) : State :=
  let (h, t) := s.voteTree
  let d := t.depth
  allParts.foldl (fun s p =>
    let q := s.part p
    match q.jb.rotV, q.peers.getD i none with
    | some v, some e =>
      if t.voteChildren.getLsbD i ∧ f + 5 * (d + 1) = v + 5 * h then
        s.onPart p (fun q => { q with jb := { q.jb with rotVal := q.jb.rotVal && c.rotReady.getLsbD e.part } })
      else if d ≠ 0 ∧ t.voteParent = i ∧ f + 5 = v + 5 * h + 5 * d then
        s.onPart p (fun q => { q with jb := { q.jb with rotAgreed := some (c.rotRed.getLsbD e.part) } })
      else s
    | _, _ => s) s

/-- COMMIT of a peer member with VALID 0, in a frame the partition has run since its start: PEER_FAULT (R381). -/
def State.takeCommit (s : State) (i back : Nat) (c : CtlFlit) : State :=
  allParts.foldl (fun s p =>
    let q := s.part p
    match q.peers.getD i none with
    | some e =>
      let (v, n) := c.commit.getD e.part (false, 0)
      if s.running p && q.multi && q.onPort i && !v && decide (q.jb.rampFrom + back ≤ q.planTime / 1024) then
        s.jobFault 0xA0 (s.scope (fun x => decide (x = p))) (locPort i) e.rank n
      else s
    | none => s) s

/-- Commit marks on TW promote or discard what the shadow engine holds (R340). -/
def State.takeMarks (s : State) (c : CtlFlit) : State :=
  { s with shadows := mapv Shadow.zero s.shadows (fun p x =>
      let (v, n) := c.commit.getD p (false, 0)
      if !v then { x with prov := none, building := [], left := 0, lost := false }
      else
        match x.prov with
        | some (k, l) => if k = n then { x with promoted := some (k, l), prov := none } else x
        | none => x) }

/-- CONTROL_FLIT_RX: a control flit that has passed R296 is delivered at 1,023 + LAT of its frame (R304, R310). -/
def execControlFlitRx (i : Nat) (s : State) : Out :=
  let x := s.port i
  match x.ctlIn.find? (fun r => decide (r.due ≤ s.cycle)) with
  | none => ok s
  | some r =>
    let s0 := s.onPort i (fun y => { y with ctlIn := y.ctlIn.filter (fun z => decide (z ≠ r)) })
    if x.st ≠ .up ∧ x.st ≠ .fenced ∧ x.st ≠ .calibrating then ok s0
    else
      let cf := r.ctl
      let back := s.frm - r.frm
      let same := decide ((x.peer.map (fun c => c.heartbeat)) = some cf.heartbeat)
      let s1 := s0.onPort i (fun y =>
        { y with peer := some cf, latTx := cf.latRx, inSync := decide (cf.frame = (s.tu.back back).tf)
                 hbAt := if same then y.hbAt else s.frm, hbLost := y.hbLost && same })
      let s2 := (((s1.takeVote i r.frm cf).takeRot i r.frm cf).takeCommit i back cf).setCore
      ok (if i = 10 then s2.takeMarks cf else s2)

/-- TWIN_HEARTBEAT_LOST: the twin's HEARTBEAT has not advanced for 64 frames; TW counts as DOWN in HEALTH (R384). -/
def execTwinHeartbeatLost (s : State) : Out :=
  if (s.port 10).hbAt + 64 ≤ s.frm then ok (s.onPort 10 (fun y => { y with hbLost := true })) else ok s

/-- A port meets the conditions of UP (R333). -/
def Port.upOk (x : Port) : Bool :=
  let l := x.boot.filterMap (fun e => e.2)
  !l.isEmpty && decide (x.latRx ≠ 0 ∧ x.latTx ≠ 0) &&
    (match x.peer with
     | none => false
     | some c => l.all (fun b => decide (b.serial = c.serial)))

/-- At a frame boundary: UP or FENCED by R333, and the end of dual sending (R300: the old lane is the new spare). -/
def Port.atFrame (x : Port) (tf : Nat) : Port :=
  let st := match x.st with
    | .up => if x.upOk then .up else .fenced
    | .fenced => if x.upOk then .up else .fenced
    | st => st
  let done := match x.peer with
    | some c => x.dual && decide (c.spareAt ≤ tf)
    | none => false
  { x with st, dual := x.dual && !done, lanesTx := if done then swapSpare x.lanesTx x.spareTx else x.lanesTx }

end Sys2Proof.Machine
end

