-- ==== Sys2Proof/Machine/Serving.lean ====
section
/-! DEFINITION. Serving state (02_plan_and_time.md, 10_serving_state.md): the landing snapshot, the effects of a window at the
body boundary, commit and discard, the window area, landing records, step results, parking. -/

namespace Sys2Proof.Machine

/-! ### Access to a partition's memory by the hub -/

/-- The line of the partition at a cold-frame or stack address, read by the hub. -/
def State.partLine (s : State) (p : Nat) (tier : Tier) (a : Nat) : Line :=
  match (s.part p).planEntry tier (a / 2 ^ 30) with
  | none => Config.freeLine s.freeCtr
  | some loc =>
    let key := s.slotKey p tier loc.unit
    let x := match tier with
      | .cold => s.cold.stored loc (a % 2 ^ 30 / 256)
      | .stack => (s.stack loc.unit).stored loc (a % 2 ^ 30 / 256)
    if key = 0 then 0 else x.readAs key (a / 256)

/-- Write a line at a place of a tier under a key and tweak; a FAILED stack or cold frame writes nothing (R215, R255). -/
def State.putLine (s : State) (tier : Tier) (loc : LeaseLoc) (l : Nat) (x : SLine) : State :=
  match tier with
  | .cold =>
    if s.cold.state = .failed then s
    else { s with cold := { s.cold with lines := put {} s.cold.lines ((64 * loc.ch + loc.sub) * 2 ^ 22 + l) x } }
  | .stack =>
    s.onStack loc.unit (fun y => if y.state = .failed then y else { y with lines := put {} y.lines (lineKey loc.ch loc.sub l) x })

/-- Write a line of the partition through one of its index's two entries; under an empty key slot nothing is written (R216, R217,
R227, R253). -/
def State.putPart (s : State) (p : Nat) (tier : Tier) (setB : Bool) (a : Nat) (d : Line) : State :=
  match (s.part p).entry tier (a / 2 ^ 30) setB with
  | none => s
  | some loc =>
    let key := s.slotKey p tier loc.unit
    if key = 0 then s else s.putLine tier loc (a % 2 ^ 30 / 256) { key, tweak := a / 256, data := d }

def State.putOwn (s : State) (p : Nat) (tier : Tier) (a : Nat) (d : Line) : State :=
  s.putPart p tier ((s.part p).entrySel tier (a / 2 ^ 30) true) a d

/-- Write lines from address `a` on. -/
def State.putLines (s : State) (p : Nat) (tier : Tier) : Nat → List Line → State
  | _, [] => s
  | a, d :: ds => State.putLines (s.putOwn p tier a d) p tier (a + 256) ds

/-! ### Slots (R264, R265, Table 10.8) -/

def Part.slot (p : Part) (i : Nat) : Slot := look Slot.zero p.slots i

/-- Page-table entry `i` as a page, when VALID. -/
def Slot.page (x : Slot) (i : Nat) : Option Nat :=
  match look 0 x.pages i with
  | 0 => none
  | n + 1 => some n

/-- The coverage rule (R265). -/
def Slot.covered (x : Slot) (e : ServingE) : Bool :=
  (List.range ((x.length + e.specMax + 63) / 64)).all (fun i => (x.page i).isSome) &&
    x.pages.all (fun g => decide (g.2 ≤ e.kvPages))

/-- Valid leading page-table entries. -/
def leadPages (x : Slot) : Nat → Nat → Nat
  | i, 0 => i
  | i, fuel + 1 => if (x.page i).isSome then leadPages x (i + 1) fuel else i

/-- Little-endian field of a record line. -/
def lineFld (l : Line) (off n : Nat) : Nat := bits l.toNat (8 * off) (8 * n)

/-- The page entries a slot edit supplies: bit 31 VALID, [23:0] page, as page + 1 or 0. -/
def editPages (ls : List Line) (n : Nat) : List Nat :=
  (List.range n).map (fun i =>
    let w := lineFld (ls.getD (1 + i / 64) 0) (4 * (i % 64)) 4
    if bit w 31 then w % 2 ^ 24 + 1 else 0)

/-- Replace entries from `first` on. -/
def putPages (m : SMap Nat) (first : Nat) (l : List Nat) : SMap Nat :=
  putAll 0 m ((List.range l.length).map (fun i => (first + i, l.getD i 0)))

/-- The slot after RELEASE: FREE, with its stamp record as it was (Table 10.8). -/
def Slot.released (x : Slot) : Slot := { stamp := x.stamp }

/-- A slot-edit record applied to a partition: none when it is discarded as STALE (Table 10.8). -/
def Part.edit (p : Part) (e : ServingE) (r : Rec) (i : Nat) : Option Part :=
  let l := r.lines.headD 0
  let x := p.slot i
  let first := lineFld l 8 2
  let n := lineFld l 10 2
  let ps := editPages r.lines n
  let setSlot (y : Slot) : Part := { p with slots := put Slot.zero p.slots i y }
  let checked (y : Slot) : Option Part := if y.covered e then some (setSlot y) else none
  match lineFld l 0 1 with
  | 1 =>
    if x.assigned ∨ e.pagesMax < first + n then none
    else checked { assigned := true, length := lineFld l 4 4, variant := lineFld l 2 2 % 4096, pages := putPages [] first ps }
  | 2 => if x.assigned then some (setSlot x.released) else none
  | 3 =>
    if !x.assigned ∨ e.pagesMax < first + n then none else checked { x with pages := putPages x.pages first ps }
  | 4 => if x.assigned then some (setSlot { x with variant := lineFld l 2 2 % 4096 }) else none
  | 5 =>
    let k := lineFld l 16 2
    let ttl := lineFld l 12 4
    if !x.assigned ∨ (look Park.zero p.park k).st ≠ .free ∨ ttl = 0 ∨ 86400 < ttl ∨ !p.leases.any (fun q => decide (q.use = 1))
    then none
    else
      let pk : Park := { st := .parking, length := x.length, variant := x.variant, ttlS := ttl, addr := lineFld l 24 8, slot := i
                         kvBase := e.kvBase, groups := e.kvGroups
                         expired := (look Park.zero p.park k).expired, pages := (List.range ((x.length + 63) / 64)).map (fun j => (x.page j).getD 0) }
      some { setSlot x.released with park := put Park.zero p.park k pk }
  | _ => none

/-- A slot-scoped record applied (R43, Table 10.8): none when discarded. -/
def Part.applySlot (p : Part) (e : ServingE) (r : Rec) (i : Nat) : Option Part :=
  let x := p.slot i
  let setSlot (y : Slot) : Part := { p with slots := put Slot.zero p.slots i y }
  match r.kind with
  | 4 => p.edit e r i
  | 3 => if x.assigned then some (setSlot { x with deadline := r.arg, offLate := false }) else none
  | 2 =>
    if !x.assigned ∨ x.appended < r.arg then none
    else
      let y : Slot := { x with length := x.length + r.arg, appended := 0 }
      if y.covered e then some (setSlot y) else none
  | _ => if x.assigned then some (setSlot { x with tokensIn := r.arg, takes := true }) else none

/-! ### The landing snapshot (R36 to R43, R55, R243, R276) -/

/-- A load into the standby set is in progress. -/
def Part.loadsStandby (p : Part) : Bool :=
  match p.bundle with
  | none => false
  | some b => b.setB != p.active

def Part.standby (p : Part) : WSet := if p.active then p.setA else p.setB

/-- Pages into which a SLOT_RESUME copy is in progress. -/
def Part.resumePages (p : Part) : List Nat :=
  p.park.foldl (fun acc e => if e.2.st = .resuming then acc ++ e.2.dest else acc) []

/-- The record is eligible apart from the caps (R41, R243, R276). While a rotation record is held a second one is treated as not
arrived: it waits for a window after the held one's flip (DESIGN CHOICE, log entry 72). -/
def Part.arrived (p : Part) (r : Rec) : Bool :=
  match r.kind with
  | 5 => p.standby.valid && !p.loadsStandby && p.pendRot.isNone
  | 6 => p.bankLoad.isNone
  | 4 =>
    !(decide (lineFld (r.lines.headD 0) 0 1 = 1) &&
      (editPages r.lines (lineFld (r.lines.headD 0) 10 2)).any (fun g => decide (g ≠ 0) && p.resumePages.contains (g - 1)))
  | _ => true

def slotsOf (e : Option ServingE) : Nat :=
  match e with
  | none => 0
  | some e => e.slots

/-- What one window consumes: the records in sequence order under the rules of R39. -/
def Part.consume (p : Part) : List (Nat × Rec) :=
  let e := p.serving
  let cap (k : Nat) : Nat := match k, e with
    | 1, some e => e.tokCap
    | 4, some e => e.editCap
    | 2, some e => e.slots
    | 3, some e => e.slots
    | _, _ => 1
  let cands := p.recs.filterMap (fun x => x.2.map (fun r => (x.1, r)))
  cands.foldl (fun acc x =>
    let r := x.2
    if !r.visible ∨ r.held then acc
    else
      match r.slot with
      | some i =>
        if slotsOf e ≤ i then acc ++ [x]
        else if acc.any (fun y => decide (y.2.kind = r.kind ∧ y.2.slot = r.slot)) ∨
            cap r.kind ≤ (acc.filter (fun y => decide (y.2.kind = r.kind) && decide (y.2.slot.getD 0 < slotsOf e))).length ∨
            !p.arrived r then acc
        else acc ++ [x]
      | none => if acc.any (fun y => decide (y.2.kind = r.kind)) ∨ !p.arrived r then acc else acc ++ [x]) []

/-- The entry of a consumed record before its outcome is known. -/
def entryOf (x : Nat × Rec) (o : RecOutcome) : RecEntry := { seq := x.1, slot := x.2.slot, kind := x.2.kind, out := o }

/-- The rotation record among those consumed that is not late, with its step. -/
def Part.rotOf (p : Part) (l : List (Nat × Rec)) : Option (Nat × Nat) :=
  (l.find? (fun x => decide (x.2.kind = 5 ∧ p.stepNo ≤ x.2.arg))).map (fun x => (x.1, x.2.arg))

/-- Take the landing snapshot of step `p.stepNo`: a replay consumes exactly its attempt's record (R55), otherwise the records
of `consume`; those records are held (R51). A rotation record for a later step is held, for an earlier one STALE (R40); a stop
record pends until the next step boundary (order 3 of Table 2.7). -/
def Part.snapshot (p : Part) : Part :=
  match p.replay with
  | some w =>
    let rot := p.rotOf (w.consumed.filterMap (fun k => (look none p.recs k).map (fun r => (k, r))))
    { p with win := w, replay := none, pendRot := if rot.isSome then rot else p.pendRot
             stopReq := if w.entries.any (fun e => decide (e.kind = 7)) then some p.stepNo else p.stopReq }
  | none =>
    let l := p.consume
    let out (x : Nat × Rec) : RecOutcome :=
      match x.2.kind, x.2.slot with
      | 5, _ => if p.stepNo < x.2.arg then .held else if x.2.arg < p.stepNo then .stale else .applied
      | _, some i => if slotsOf p.serving ≤ i then .stale else .applied
      | _, none => .applied
    let w : Window :=
      { consumed := l.map (fun x => x.1), entries := l.map (fun x => entryOf x (out x))
        bankRec := (l.find? (fun x => decide (x.2.kind = 6))).map (fun x => x.1) }
    let rot := p.rotOf l
    { p with
      win := w
      recs := mapv none p.recs (fun k x => if w.consumed.contains k then x.map (fun r => { r with held := true }) else x)
      pendRot := if rot.isSome then rot else p.pendRot
      stopReq := if l.any (fun x => decide (x.2.kind = 7)) then some p.stepNo else p.stopReq }

/-! ### The body boundary (R43, R231, R232, R264) -/

/-- The consumed slot-scoped records of a kind, in sequence order. -/
def Part.winRecs (p : Part) (k : Nat) : List (Nat × Rec) :=
  p.win.entries.filterMap (fun e =>
    if e.kind = k ∧ e.out = .applied then (look none p.recs e.seq).map (fun r => (e.seq, r)) else none)

/-- Apply the consumed records of kind `k`; those discarded become STALE in the window's list. -/
def Part.applyKind (p : Part) (k : Nat) : Part :=
  match p.serving with
  | none => p
  | some e =>
    (p.winRecs k).foldl (fun p x =>
      match x.2.slot with
      | none => p
      | some i =>
        match p.applySlot e x.2 i with
        | some p' => p'
        | none =>
          { p with win := { p.win with entries := p.win.entries.map (fun g =>
              if g.seq = x.1 then { g with out := .stale } else g) } }) p

/-- Variant groups that are off: their variant is not 0 and its scion is not VALID in the active set (R232). -/
def Part.absentGroups (p : Part) : BitVec 16 :=
  match p.serving with
  | none => 0
  | some e => BitVec.ofNat 16 ((List.range e.groups).foldl (fun acc g =>
      let v := p.variantOf g
      if v ≠ 0 ∧ (look none p.actSet.scions v).isNone then acc + 2 ^ g else acc) 0)

/-- The group of a slot. -/
def groupOfSlot (e : ServingE) (i : Nat) : Nat :=
  ((e.groupFirst.take e.groups).filter (fun f => decide (f ≤ i))).length - 1

/-- Slot effects of a window in the order of R43, 1 to 4, on a partition whose slots take part in nothing yet. -/
def Part.slotEffects (p : Part) : Part :=
  let p0 := { p with slots := mapv Slot.zero p.slots (fun _ x => { x with takes := false, tokensIn := 0, groupOff := false }) }
  (((p0.applyKind 4).applyKind 3).applyKind 2).applyKind 1

/-- Which slots take part (R264), once variants are known. -/
def Part.takeParts (p : Part) : Part :=
  match p.serving with
  | none => p
  | some e =>
    let ab := p.absentGroups
    let f (i : Nat) (x : Slot) : Slot :=
      let off := ab.getLsbD (groupOfSlot e i) && decide (0 < e.groups)
      { x with groupOff := off, takes := x.assigned && x.takes && !x.offLate && !off }
    { p with slots := mapv Slot.zero p.slots f, win := { p.win with absent := ab } }

/-! ### Commit and discard (R50, R51, R268 to R270) -/

/-- APPENDED and OUT_TOKENS of a slot's out word in output buffer `buf`. -/
def State.outWord (s : State) (p i buf : Nat) (e : ServingE) : Nat × Nat :=
  let l := s.partLine p .cold (obBase e buf + obStride e * i)
  (lineFld l 0 1, lineFld l 1 1)

/-- The stamp record after a step that ends at hall time `t` with `n` output tokens (R269). -/
def Stamp.update (x : Stamp) (t n : Nat) : Stamp :=
  let x := if x.admitAt = 0 then { x with admitAt := t } else x
  if n = 0 then x
  else
    let x := if x.tokens = 0 then { x with first := t } else { x with gapMax := max x.gapMax (t - x.last) }
    { x with last := t, tokens := x.tokens + n }

/-- The slot at the commit of its step: LATE, stamps, APPENDED. -/
def State.commitSlot (s : State) (p i t buf : Nat) (e : ServingE) (x : Slot) : Slot :=
  if !x.takes then x
  else
    let (ap, n) := s.outWord p i buf e
    let late := decide (x.deadline ≠ 0 ∧ x.deadline < t)
    { x with appended := ap, stamp := x.stamp.update t n, offLate := x.offLate || late }

/-- A per-slot entry of the step result (Tables 2.9, 10.11); `x` is the slot in the step, `y` after its commit. -/
def State.slotResult (s : State) (p i t buf : Nat) (e : ServingE) (w : Window) (x y : Slot) : SlotResult :=
  let mine := w.entries.filter (fun g => decide (g.slot = some i))
  let o := if x.takes then s.outWord p i buf e else (0, 0)
  { consumed := !mine.isEmpty
    inputAbsent := x.assigned && !mine.any (fun g => decide (g.kind = 1 ∧ g.out = .applied))
    offLate := x.offLate
    late := x.takes && decide (x.deadline ≠ 0 ∧ x.deadline < t)
    stale := mine.any (fun g => decide (g.out = .stale))
    assigned := y.assigned, takes := x.takes, outTokens := o.2, appended := o.1, length := y.length, stamp := y.stamp
    deadline := y.deadline }

/-- Hub-kept state a discarded step returns to. -/
def Part.save (p : Part) : Part :=
  { p with saved := { slots := p.slots, active := p.active, held := p.held, pendRot := p.pendRot, bankAct := p.bankAct } }

/-- Commit the step that ends: its records are retired, stamps and APPENDED updated, the result made (R50 to R52, R268 to
R271). -/
def State.commit (s : State) (p : Nat) : State :=
  let q := s.part p
  let t := s.hallNs
  let buf := q.stepNo % 2
  let res : StepResult :=
    { kind := q.stepKind, variantAbsent := q.win.absent, stepNo := q.stepNo, endHall := t, startFrame := q.stepStart
      postLost := q.postLost, slots := [], recs := q.win.entries, outputs := [] }
  let (q1, res) := match q.serving with
    | none => (q, res)
    | some e =>
      let ids := List.range e.slots
      let ys := ids.map (fun i => (i, s.commitSlot p i t buf e (q.slot i)))
      let rs := ids.map (fun i => (i, s.slotResult p i t buf e q.win (q.slot i) (s.commitSlot p i t buf e (q.slot i))))
      ({ q with slots := putAll Slot.zero [] ys }, { res with slots := putAll {} [] rs })
  let q2 : Part :=
    { q1 with
      recs := q1.recs.filter (fun x => !q.win.consumed.contains x.1)
      held := false, win := {}, lastResult := some res, outNext := some res
      committed := some q.stepNo, commKind := q.stepKind, commEpoch := q.stepEpoch
      park := mapv Park.zero q1.park (fun _ x => if x.st = .parking then { x with ready := true } else x) }
  (s.setPart p q2.save).count locHub 0x407 q.win.consumed.length

/-- Discard the step in progress: the partition's state is that of the last committed boundary, a PAUSE of the step is undone,
and its consumed records are held for the replay (R50, R51, R55, R244, R272). -/
def Part.discard (p : Part) : Part :=
  let v := p.saved
  let park := mapv Park.zero p.park (fun _ x => if x.st = .parking ∧ !x.ready then { expired := x.expired } else x)
  { p with slots := v.slots, park, active := v.active, held := v.held, pendRot := v.pendRot, bankAct := v.bankAct
           replay := some { p.win with absent := 0 }, win := {}, stopReq := none }

/-! ### COMPLETION_FLAG_SET, COMPLETION_FLAG_VISIBLE (R36, R37, R257, R462) -/

/-- The landing side has burst slots to use: landing slots of the image in a partition that is ARMED or RUNNING, else any that no
running plan leases (R257). -/
def State.landSlots (s : State) (p : Nat) : Bool :=
  let q := s.part p
  !q.active? || q.leases.any (fun l => decide (l.res = 3 ∧ l.use = 2))

/-- COMPLETION_FLAG_SET: record `seq` is written whole in landing slots, its header line and its payload, and its last byte is checked;
the command that made it completes with the sequence number. The spec gives the header line no contents: a free value. -/
def execCompletionFlagSet (p seq : Nat) (s : State) : Out :=
  match look none (s.part p).recs seq with
  | none => ok s
  | some r =>
    if r.flagAt.isSome ∨ !s.landSlots p then ok s
    else
      let op := match r.kind with
        | 1 => 0x0501
        | 2 => 0x0502
        | 3 => 0x0503
        | 4 => 0x0504
        | 5 => 0x0404
        | 6 => 0x0307
        | _ => 0x0306
      let s0 := s.fresh.putLines p .cold r.paddr (Config.freeLine s.freeCtr :: r.lines)
      let s1 := s0.onPart p (fun q => { q with recs := put none q.recs seq (some { r with flagAt := some s.hallNow, hdr := none }) })
      ok ((s1.post? r.hdr op 0x00 [(8, seq)]).count locHub 0x406 1)

/-- COMPLETION_FLAG_VISIBLE: a flag set at least 8 ns ago becomes visible in the plan domain. -/
def execCompletionFlagVisible (p seq : Nat) (s : State) : Out :=
  match look none (s.part p).recs seq with
  | none => ok s
  | some r =>
    match r.flagAt with
    | none => ok s
    | some t =>
      if s.hallNow < t + 8 then ok s
      else ok (s.onPart p (fun q => { q with recs := put none q.recs seq (some { r with visible := true }) }))

/-- Flags set more than 24 ns before hall time `m` are visible (R37). -/
def Part.showFlags (p : Part) (m : Nat) : Part :=
  { p with recs := mapv none p.recs (fun _ x => x.map (fun r => match r.flagAt with
      | some t => if t + 24 < m then { r with visible := true } else r
      | none => r)) }

/-! ### WINDOW_ENGINE_SCHEDULE (R261, R262, Table 10.9) -/

/-- A slot word as a 128-bit number. -/
def slotWord (x : Slot) : Nat :=
  x.length + x.variant * 2 ^ 32 +
    (b2n x.assigned + 2 * b2n x.takes + 4 * b2n (decide (x.tokensIn ≠ 0)) + 8 * b2n x.offLate + 16 * b2n x.groupOff) * 2 ^ 48 +
    x.tokensIn * 2 ^ 64 + leadPages x 0 x.pages.length * 2 ^ 80

/-- Whether the rotation record of sequence number `k` flips ACTIVE: in a job of more than one module as the vote came out, or as
it came out for the record before a replay (R245). -/
def Part.rotReady (p : Part) (k : Nat) : Bool :=
  decide (p.jobSize ≤ 1) || (match p.jb.rotKept with
    | some (j, b) => if j = k then b else decide (p.jb.rotAgreed = some true)
    | none => decide (p.jb.rotAgreed = some true))

/-- The partition as it will stand from the body boundary of the window in progress. -/
def Part.atBody (p : Part) : Part :=
  let p1 := p.slotEffects
  let flip : Bool := match p.pendRot with
    | some (k, n) => decide (n = p.stepNo) && p.rotReady k
    | none => false
  ({ p1 with active := p1.active ^^ flip }).takeParts

/-- WINDOW_ENGINE_SCHEDULE: in the window, and in the engine slots that the image leases, the slot words, the page tables of edited slots and the token payloads are written
to the window area; a record that is STALE changes nothing (R265). -/
def execWindowEngineSchedule (p : Nat) (s : State) : Out :=
  let q := s.part p
  match q.serving with
  | none => ok s
  | some e =>
    if !s.running p ∨ q.epochIdx ≠ 0 ∨ !q.leases.any (fun l => decide (l.res = 3 ∧ l.use = 3)) then ok s
    else
      let b := q.atBody
      let edited := (b.winRecs 4).filterMap (fun x => x.2.slot)
      let s1 := edited.foldl (fun s i =>
        s.putLines p .cold (ptBase e + ptStride e * i) ((List.range ((e.pagesMax + 63) / 64)).map (fun j =>
          BitVec.ofNat 2048 ((List.range 64).foldl (fun acc k =>
            acc + (match (b.slot i).page (64 * j + k) with
              | some g => (2 ^ 31 + g) * 2 ^ (32 * k)
              | none => 0)) 0)))) s
      let s2 := s1.putLines p .cold e.winBase ((List.range ((e.slots + 15) / 16)).map (fun j =>
        BitVec.ofNat 2048 ((List.range 16).foldl (fun acc k =>
          acc + (if 16 * j + k < e.slots then slotWord (b.slot (16 * j + k)) * 2 ^ (128 * k) else 0)) 0)))
      ok ((b.winRecs 1).foldl (fun s x =>
        match x.2.slot with
        | none => s
        | some i => s.putLines p .cold (mbBase e + mbStride e * i) x.2.lines) s2)

/-! ### STEP_RESULT_POST (R270, R271, R465) -/

/-- Fields of a little-endian layout: byte offset, bytes, value. -/
def leFields (l : List (Nat × Nat × Nat)) : Nat := l.foldl (fun a f => a + f.2.2 % 2 ^ (8 * f.2.1) * 2 ^ (8 * f.1)) 0

/-- The step result header (Table 10.10). -/
def StepResult.header (r : StepResult) (p : Nat) : Nat :=
  leFields [(0, 4, 0x49545231), (4, 1, p), (5, 1, r.kind), (6, 2, r.variantAbsent.toNat), (8, 8, r.stepNo), (16, 8, r.endHall)
           , (24, 8, r.startFrame), (32, 4, r.recs.length), (36, 4, r.postLost)]

/-- A per-slot entry (Table 10.11), 64 B. -/
def SlotResult.word (x : SlotResult) : Nat :=
  let flags := b2n x.consumed + 2 * b2n x.inputAbsent + 4 * b2n x.offLate + 8 * b2n x.late + 16 * b2n x.stale + 32 * b2n x.assigned +
    64 * b2n x.takes
  leFields [(0, 2, flags), (2, 1, x.outTokens), (3, 1, x.appended), (4, 4, x.length), (8, 8, x.stamp.admitAt), (16, 8, x.stamp.first)
           , (24, 8, x.stamp.last), (32, 8, x.stamp.gapMax), (40, 8, x.stamp.tokens), (48, 8, x.deadline)]

/-- A record list entry (Table 10.12), 16 B. -/
def RecEntry.word (x : RecEntry) : Nat :=
  let o := match x.out with
    | .applied => 0
    | .held => 1
    | .stale => 2
  leFields [(0, 6, x.seq), (6, 2, x.slot.getD 0xFFFF), (8, 1, x.kind), (9, 1, o)]

/-- Words of `n` bytes packed into lines. -/
def packLines (n : Nat) (l : List Nat) : List Line :=
  let per := 256 / n
  (List.range ((l.length + per - 1) / per)).map (fun j =>
    BitVec.ofNat 2048 (((l.drop (per * j)).take per).foldr (fun w a => w + 2 ^ (8 * n) * a) 0))

/-- The step result of R270 of a bucket of `n` slots as lines: header, slots, records; then the output lines of the slots that took
part, `outs` each. -/
def StepResult.lines (r : StepResult) (p n outs : Nat) : List Line :=
  packLines 64 ((List.range 4).map (fun j => bits (r.header p) (512 * j) 512) ++
    (List.range n).map (fun i => (look {} r.slots i).word) ++
    packLines16 (r.recs.map RecEntry.word)) ++
  ((r.slots.filter (fun x => x.2.takes)).map (fun x => (List.range outs).map (fun j => look 0#2048 r.outputs (256 * x.1 + j)))).flatten
where
  /-- 16-byte entries gathered into 64-byte words. -/
  packLines16 (l : List Nat) : List Nat :=
    (List.range ((l.length + 3) / 4)).map (fun j => ((l.drop (4 * j)).take 4).foldr (fun w a => w + 2 ^ 128 * a) 0)

/-- An entry of a result ring (R465): STEP_NO, the bytes used, PHASE, zeros to byte 63, the step result and the output lines. -/
def StepResult.entry (r : StepResult) (p n outs : Nat) (phase : Bool) : List Nat :=
  let res := leBytes 256 (r.header p) ++ (List.range n).foldl (fun b i => b ++ leBytes 64 (look {} r.slots i).word) [] ++
    r.recs.foldl (fun b x => b ++ leBytes 16 x.word) []
  let out := (r.slots.filter (fun x => x.2.takes)).foldl (fun b x =>
    (List.range outs).foldl (fun b j => b ++ leBytes 256 (look 0#2048 r.outputs (256 * x.1 + j)).toNat) b) []
  leBytes 8 r.stepNo ++ leBytes 4 (64 + res.length + out.length) ++ [b2n phase] ++ List.replicate 51 0 ++ res ++ out

/-- OUT_LINES. -/
def outLinesOf (e : Option ServingE) : Nat := e.elim 0 (fun e => e.outLines)

/-- Bytes of a result in a result ring (R465): 64, the step result, the outputs. -/
def resultBytes (r : StepResult) (e : Option ServingE) : Nat :=
  64 + 256 + 64 * slotsOf e + 16 * r.recs.length + 256 * outLinesOf e * (r.slots.filter (fun x => x.2.takes)).length

/-- Bytes that the outbound ring keeps for one result of the installed image, and for 64 (R552). The number of record-list entries it
makes room for is open. -/
def Part.resultSlot (p : Part) : Nat :=
  roundUp (256 + 64 * slotsOf p.serving + 16 * Config.ringRecords + 256 * outLinesOf p.serving * slotsOf p.serving) 256
def Part.ringBytes (p : Part) : Nat := if p.image.isNone then 0 else roundUp (64 * p.resultSlot) 4096

/-- Where the outbound ring keeps the result of step `n`: at the end of the last landing lease named, one place to each of 64 steps. -/
def Part.ringAddr (p : Part) (n : Nat) : Nat := (p.landLeases.getLastD 0 + 1) * 2 ^ 30 - p.ringBytes + n % 64 * p.resultSlot

/-- Write the result to one result ring when it is enabled, has a free entry and the entry is large enough. -/
def State.resultTo (s : State) (fn k p bytes : Nat) (res : StepResult) : State × Bool :=
  let r := s.ring fn k 3
  if r.enable && r.free && decide (bytes ≤ 2 ^ r.entry) then
    (((s.setRing fn k 3 r.wrote).send (.result fn k p r.phase res)).signal fn k r.vector, true)
  else (s, false)

/-- Post a result to both sets' rings; taken when one has received it. -/
def State.postResult (s : State) (p : Nat) (x : Bool × StepResult) : State × (Bool × StepResult) :=
  if x.1 then (s, x)
  else
    let q := s.part p
    let r := { x.2 with postLost := q.postLost }
    let n := resultBytes r q.serving
    let (s1, a) := s.resultTo (p + 1) 0 p n r
    let (s2, b) := s1.resultTo (p + 1) 1 p n r
    if a || b then (s2.onPart p (fun q => { q with postLost := 0 }), (true, r)) else (s, x)

/-- Place a result in the outbound ring of the landing area; the 65th latest is dropped, and counted when the host had not taken it. -/
def State.placeResult (s : State) (p : Nat) (r : StepResult) : State :=
  let q := s.part p
  let s1 := s.putLines p .cold (q.ringAddr r.stepNo) ((r.lines p (slotsOf q.serving) (outLinesOf q.serving)).take (q.resultSlot / 256))
  s1.onPart p (fun q =>
    let l := q.outRing ++ [(false, r)]
    { q with outNext := none, outRing := l.drop (l.length - 64)
             postLost := q.postLost + ((l.take (l.length - 64)).filter (fun x => !x.1)).length })

/-- The committed step's result with the outputs of the slots that took part, read from its output buffer. -/
def State.withOutputs (s : State) (p : Nat) (r : StepResult) : StepResult :=
  match (s.part p).serving with
  | none => r
  | some e =>
    { r with outputs := (r.slots.filter (fun x => x.2.takes)).foldl (fun m x =>
        (List.range e.outLines).foldl (fun m j =>
          put 0 m (256 * x.1 + j) (s.partLine p .cold (obBase e (r.stepNo % 2) + obStride e * x.1 + 256 * j))) m) [] }

/-- STEP_RESULT_POST: in landing slots the committed step's result is placed in the outbound ring; every result that the host has not
taken is posted, oldest first, as far as its rings have room (R271, log entry 73). -/
def execStepResultPost (p : Nat) (s : State) : Out :=
  if !s.landSlots p then ok s
  else
    let s1 := match (s.part p).outNext with
      | none => s
      | some r => s.placeResult p (s.withOutputs p r)
    let (s2, l) := (s1.part p).outRing.foldl (fun a x =>
      let (t, y) := a.1.postResult p x
      (t, a.2 ++ [y])) (s1, [])
    ok (s2.onPart p (fun q => { q with outRing := l }))

/-! ### Parking (R272 to R276) -/

/-- Lines t of group g of page i that a conversation of `len` positions holds: (page index, group, line). -/
def parkLines (len groups : Nat) : List (Nat × Nat × Nat) :=
  (List.range ((len + 63) / 64)).foldl (fun acc i =>
    (List.range groups).foldl (fun acc g =>
      acc ++ (List.range (min 64 (len - 64 * i))).map (fun t => (i, g, t))) acc) []

/-- Stack address of line t of group g of page number k in a pool at `base` with `groups` groups to a page (R266). -/
def kvAddr (base groups k g t : Nat) : Nat := base + k * groups * 16384 + g * 16384 + t * 256

/-- Address of the same line in a parked copy. -/
def parkAddr (groups base i g t : Nat) : Nat := base + i * groups * 16384 + g * 16384 + t * 256

/-- The load barrow may move a partition's lines: one that is ARMED or RUNNING only in the load slots its image reserves (R225). -/
def State.loadSlots (s : State) (p : Nat) : Bool :=
  let q := s.part p
  !q.active? || q.leases.any (fun l => decide (l.use = 1))

/-- PARK_COPY: once the step of the PAUSE has committed, the committed lines are copied to the park address, in the layout of the
PAUSE's image (R272). -/
def execParkCopy (p entry : Nat) (s : State) : Out :=
  let x := look Park.zero (s.part p).park entry
  if x.st ≠ .parking ∨ !x.ready ∨ !s.loadSlots p then ok s
  else
    let s1 := (parkLines x.length x.groups).foldl (fun s c =>
      s.putOwn p .cold (parkAddr x.groups x.addr c.1 c.2.1 c.2.2)
        (s.partLine p .stack (kvAddr x.kvBase x.groups (x.pages.getD c.1 0) c.2.1 c.2.2))) s
    ok (s1.onPart p (fun q => { q with park := put Park.zero q.park entry { x with copied := 1 } }))

/-- PARKED: the copy is complete; EXPIRY is set and the host told (R272). -/
def execParked (p entry : Nat) (s : State) : Out :=
  let x := look Park.zero (s.part p).park entry
  if x.st ≠ .parking ∨ x.copied = 0 then ok s
  else
    let ex := s.hallNow + x.ttlS * 10 ^ 9
    let s1 := s.onPart p (fun q => { q with park := put Park.zero q.park entry { x with st := .parked, expiry := ex, expired := false } })
    ok (s1.event 0x01 p [entry, x.length, ex])

/-- The entry leaves PARKED: the twin's held copy is released (R279, R341). -/
def State.releaseTwin (s : State) (p entry : Nat) : State := s.send (.twinRelease p entry)

/-- PARK_EXPIRY_CHECK: at each whole millisecond of hall time, every PARKED entry that has expired becomes ZEROISING (R274) and
leaves PARKED (R279). -/
def execParkExpiryCheck (s : State) : Out :=
  let t := s.hallNow / 10 ^ 6 * 10 ^ 6
  let due (x : Park) : Bool := decide (x.st = .parked ∧ x.expiry ≤ t)
  ok (allParts.foldl (fun s p =>
    let gone := ((s.part p).park.filter (fun e => due e.2)).map (·.1)
    gone.foldl (fun s k => s.releaseTwin p k) (s.onPart p (fun q =>
      { q with park := mapv Park.zero q.park (fun _ x => if due x then { x with st := .zeroising, expired := true } else x) }))) s)

/-- Zero the lines of a parked copy. -/
def State.zeroPark (s : State) (p : Nat) (x : Park) : State :=
  (parkLines x.length x.groups).foldl (fun s c => s.putOwn p .cold (parkAddr x.groups x.addr c.1 c.2.1 c.2.2) 0) s

/-- EXPIRED: the lines of a ZEROISING entry are zero; it is FREE and the host told (R274). -/
def execExpired (p entry : Nat) (s : State) : Out :=
  let x := look Park.zero (s.part p).park entry
  if x.st ≠ .zeroising ∨ !s.loadSlots p then ok s
  else
    let s1 := (s.zeroPark p x).onPart p (fun q => { q with park := put Park.zero q.park entry { expired := x.expired } })
    ok (s1.event 0x02 p [entry])

/-- RESUME_COPY_DONE: the entry's lines are in the pages SLOT_RESUME named; the entry is zeroised and FREE; the command
completes with LENGTH and VARIANT (R275). -/
def execResumeCopyDone (p entry : Nat) (s : State) : Out :=
  let x := look Park.zero (s.part p).park entry
  if x.st ≠ .resuming ∨ !s.loadSlots p then ok s
  else
    let s1 := (parkLines x.length x.groups).foldl (fun s c =>
      s.putOwn p .stack (kvAddr x.toBase x.toGroups (x.dest.getD c.1 0) c.2.1 c.2.2)
        (s.partLine p .cold (parkAddr x.groups x.addr c.1 c.2.1 c.2.2))) s
    let s2 := (s1.zeroPark p x).onPart p (fun q => { q with park := put Park.zero q.park entry Park.zero })
    ok (s2.post? x.hdr 0x0505 0x00 [(4, x.length), (2, x.variant)])

end Sys2Proof.Machine
end

