-- ==== Sys2Proof/Machine/Fabric.lean ====
section
/-! DEFINITION. Dynamic transfers and the twin's shadow engine (12_trellis_and_routing.md, 14_jobs_at_scale.md, R424). -/

namespace Sys2Proof.Machine

/-! ### The fabric engine as requester (R324, R326 to R331) -/

def State.xfer (s : State) (k : Nat) : Option Xfer := look none s.fab.xfers k
def State.setXfer (s : State) (k : Nat) (x : Option Xfer) : State :=
  { s with fab := { s.fab with xfers := put none s.fab.xfers k x } }

/-- Write a line that a command or a dynamic transfer brings: in a rotated range into the standby set (R227, R332). -/
def State.putStandby (s : State) (p : Nat) (tier : Tier) (a : Nat) (d : Line) : State :=
  s.putPart p tier ((s.part p).rotated tier (a / 2 ^ 30) && !(s.part p).active) a d

/-- The flit of piece `k` of an outgoing train: LAST and TOTAL on its last piece (R327). -/
def outHdr (o : Outgo) (k : Nat) : DynHdr :=
  if o.data then { o.hdr with piece := k, last := decide (k + 1 = o.n), total := if k + 1 = o.n then o.n else 0 } else o.hdr

/-- Launch pieces of one train while its queue has room; a piece with no qualifying port is dropped. The answer is the train
with what is left. -/
def State.pump (s : State) (o : Outgo) : Nat → State × Outgo
  | 0 => (s, o)
  | fuel + 1 =>
    if o.n ≤ o.next then (s, o)
    else
      let h := outHdr o o.next
      let full := match s.dynPort o.part o.cls h.dst s.cycle none with
        | none => false
        | some i => decide (64 ≤ (look [] (s.port i).dynQ (dynKey o.part o.cls)).length)
      if full then (s, o)
      else
        let line := if o.data then s.partLine o.part .cold (o.laddr + 256 * o.next) else 0
        let (s0, i) := s.dynSend o.part o.cls none h line s.cycle 0
        let s1 := if i.isNone then s0.noteSent o.cls none h else s0
        let k := xferKey h.ch h.tag
        let s2 := match o.cls, i, s1.xfer k with
          | 2, some i, some x => s1.setXfer k (some { x with left := if x.left.contains i then x.left else x.left ++ [i] })
          | _, _, _ => s1
        State.pump s2 { o with next := o.next + 1 } fuel

/-- The engine launches new flits at the end of a cycle (R329). -/
def State.pumpAll (s : State) : State :=
  let r := s.fab.outq.foldl (fun (a : State × List Outgo) o =>
    let (s1, o1) := a.1.pump o 64
    (s1, if o1.n ≤ o1.next then a.2 else a.2 ++ [o1])) ({ s with fab := { s.fab with outq := [] } }, [])
  { r.1 with fab := { r.1.fab with outq := r.1.fab.outq ++ r.2 } }

/-- Start an attempt of a transfer under generation `g`. -/
def State.attempt (s : State) (k : Nat) (x : Xfer) (g : Nat) : State :=
  let h := { x.hdr with gen := g }
  let w := decide (x.hdr.op = 2)
  let o : Outgo := { part := x.part, cls := 2, hdr := if w then h else { h with last := true }, data := w, laddr := x.laddr
                     next := 0, n := if w then x.hdr.total else 1 }
  let keep := s.fab.outq.filter (fun o => !(decide (o.cls = 2 ∧ xferKey o.hdr.ch o.hdr.tag = k)))
  (({ s with fab := { s.fab with outq := keep ++ [o] } }).setXfer k (some { x with gen := g, quar := none, left := [] }))

/-- A later attempt: GEN rises by 1 modulo 256, and RETRIES counts (R328, R331). -/
def State.again (s : State) (k : Nat) (x : Xfer) : State :=
  (({ s with fab := { s.fab with retries := s.fab.retries + 1 } }).count locHub 0x40A 1).attempt k x ((x.gen + 1) % 256)

/-- Sequence numbers that `a` is ahead of `b`; SEQ is a field of 4 bytes (Table 12.3). -/
def seqAhead (a b : Nat) : Nat := (a + 2 ^ 32 - b) % 2 ^ 32

/-- The sequence of a transfer: its job, requester, destination and channel (R326). -/
def seqKey (h : DynHdr) : Nat := ((h.job * 65536 + h.src) * 65536 + h.dst) * 4 + h.ch

/-- Complete to the host, in SEQ order, the transfers of one sequence that are done (R326). -/
def State.settleXfers (s : State) (sk : Nat) : Nat → State
  | 0 => s
  | fuel + 1 =>
    let mine := s.fab.xfers.filterMap (fun e => e.2.bind (fun x => if seqKey x.hdr = sk then some (e.1, x) else none))
    match mine with
    | [] => s
    | e :: es =>
      let f := es.foldl (fun a b => if seqAhead a.2.hdr.seq b.2.hdr.seq < 2 ^ 31 then b else a) e
      match f.2.done with
      | none => s
      | some st => State.settleXfers ((s.setXfer f.1 none).post? f.2.hdrCmd 0x0622 st []) sk fuel

/-- Mark a transfer done with a status and complete what can be completed. -/
def State.finish (s : State) (k : Nat) (x : Xfer) (st : Nat) : State :=
  let keep := s.fab.outq.filter (fun o => !(decide (o.cls = 2 ∧ xferKey o.hdr.ch o.hdr.tag = k)))
  (({ s with fab := { s.fab with outq := keep } }).setXfer k (some { x with done := some st })).settleXfers (seqKey x.hdr) 256

/-- Pieces of a request that wait in a port's queue. -/
def State.queued (s : State) (k : Nat) : Bool :=
  (List.range 12).any (fun i => (s.port i).dynQ.any (fun e => e.2.any (fun d =>
    decide (d.epoch = none ∧ d.cls = 2 ∧ xferKey d.hdr.ch d.hdr.tag = k))))

/-- A response to a transfer has been delivered to the engine and not processed; it goes before the timer (R329). -/
def State.answered (s : State) (k : Nat) : Bool := s.fab.inq.any (fun e => decide (e.2.cls = 3 ∧ xferKey e.2.hdr.ch e.2.hdr.tag = k))

/-- The timer of a transfer runs, its last piece launched, and has reached TIMEOUT µs (R328, R331). -/
def State.timedOut (s : State) (k : Nat) (x : Xfer) : Bool :=
  x.quar.isNone && !s.queued k && !s.fab.outq.any (fun o => decide (o.cls = 2 ∧ xferKey o.hdr.ch o.hdr.tag = k)) &&
    decide (x.sentAt + 1000 * x.timeout ≤ s.wallNs)

/-- DYN_TIMEOUT: the timer of a transfer fires; it runs from the launch of the last piece of an attempt and not while the
transfer is quarantined (R328, R331). -/
def execDynTimeout (ch tag : Nat) (s : State) : Out :=
  let k := xferKey ch tag
  match s.xfer k with
  | none => ok s
  | some x =>
    if x.done.isSome ∨ s.answered k ∨ !s.timedOut k x then ok s
    else if x.tries < x.retries then ok (s.again k { x with tries := x.tries + 1 })
    else ok (s.finish k x 0x09)

/-- QUARANTINE_RESEND: its port is UP again, or an epoch boundary of the requesting partition has come (R331). -/
def execQuarantineResend (ch tag : Nat) (s : State) : Out :=
  let k := xferKey ch tag
  match s.xfer k with
  | none => ok s
  | some x =>
    let q := s.part x.part
    match x.quar with
    | none => ok s
    | some i =>
      if x.done.isNone && (decide ((s.port i).st = .up) || (s.running x.part && decide (q.planTime = 1024 * q.epochStart))) then
        ok (s.again k x)
      else ok s

/-- A response that no transfer waits for. -/
def State.lateDrop (s : State) : State :=
  ({ s with fab := { s.fab with lateDrop := s.fab.lateDrop + 1 } }).count locHub 0x40B 1

/-- The first dynamic flit of a class that has been delivered to the engine, with the port it came by; it is taken. -/
def State.takeDyn (s : State) (cls : Nat) : State × Option (Nat × DynFlit) :=
  ({ s with fab := { s.fab with inq := s.fab.inq.eraseP (fun e => decide (e.2.cls = cls)) } }, s.fab.inq.find? (fun e => decide (e.2.cls = cls)))

/-- A response: a piece of a READ is kept and written, and a transfer completes by count; a WRITE completes with the response's
STATUS (R327, R329). -/
def State.response (s : State) (h : DynHdr) (line : Line) : State :=
  let k := xferKey h.ch h.tag
  match s.xfer k with
  | none => s.lateDrop
  | some x =>
    if x.gen ≠ h.gen ∨ x.done.isSome then s.lateDrop
    else if x.hdr.op = 1 ∧ h.status = 0 then
      if x.got.contains h.piece ∨ x.hdr.total ≤ h.piece then s
      else
        let s1 := s.putStandby x.part .cold (x.laddr + 256 * h.piece) line
        let x1 := { x with got := x.got ++ [h.piece] }
        if x1.got.length = x.hdr.total then s1.finish k x1 0x00 else s1.setXfer k (some x1)
    else s.finish k x h.status

/-- DYN_RESPONSE_RX: the engine processes a response flit that was delivered to it (R329). -/
def execDynResponseRx (s : State) : Out :=
  match s.takeDyn 3 with
  | (s1, some (_, d)) => ok (s1.response d.hdr d.line)
  | (_, none) => ok s

/-- DYN_FORWARD: the first dynamic flit that port `i` holds for forwarding leaves at d + 60 (R324, R325). -/
def execDynForward (i : Nat) (s : State) : Out :=
  match (s.port i).fwdDyn.find? (fun d => decide (d.due ≤ s.cycle)) with
  | none => ok s
  | some d =>
    let s1 := s.onPort i (fun x => { x with fwdDyn := x.fwdDyn.filter (fun e => decide (e ≠ d)) })
    ok (s1.dynSend d.lay d.cls d.epoch d.hdr d.line s.cycle i).1

/-! ### The fabric engine as responder (R326, R330, R332) -/

def dupKey (job src dst ch : Nat) : Nat := ((job * 65536 + src) * 65536 + dst) * 4 + ch

/-- STATUS of a READ or WRITE of `n` lines at `addr` (R332). -/
def Part.dynStatus (p : Part) (h : DynHdr) (n : Nat) : Nat :=
  let last := h.addr + 256 * n
  if p.jb.job ≠ h.job ∨ h.job = 0 then 0x01
  else if h.addr % 256 ≠ 0 ∨ n = 0 ∨
      (List.range ((last - 1) / 2 ^ 30 - h.addr / 2 ^ 30 + 1)).any (fun j => (p.planEntry .cold (h.addr / 2 ^ 30 + j)).isNone) ∨
      p.addrMap.any (fun e => decide (e.kind = 2 ∧ h.addr < e.last ∧ e.first < last)) then 0x03
  else if p.active? ∧ !p.leases.any (fun l => decide (l.res = 3 ∧ l.use = 1)) then 0x05
  else 0x00

/-- Answer a request: one flit, or the lines of a READ (R327); its LAST flit carries TOTAL, and it has made no hop (Table 12.3). -/
def State.answer (s : State) (h : DynHdr) (st n : Nat) : State :=
  let r := { h with dst := h.src, status := st, hops := 0 }
  let read := decide (h.op = 1 ∧ st = 0)
  let o : Outgo := { part := h.dpart, cls := 3, hdr := { r with last := true, total := n, piece := 0 }, data := read
                     laddr := h.addr, next := 0, n := if read then n else 1 }
  { s with fab := { s.fab with outq := s.fab.outq ++ [o] } }

/-- Execute one complete transfer: a WRITE puts its pieces; TWIN and MANAGE transfers have their effect by their own rows. -/
def State.execute (s : State) (h : DynHdr) (n : Nat) (pieces : SMap Line) : State × Nat :=
  if h.op = 1 ∨ h.op = 2 then
    let st := (s.part h.dpart).dynStatus h n
    if st = 0 ∧ h.op = 2 then
      (pieces.foldl (fun s e => s.putStandby h.dpart .cold (h.addr + 256 * e.1) e.2) s, 0)
    else (s, st)
  else (s, 0)

/-- Execute in SEQ order the complete transfers at the head of an entry (R326). -/
def State.drainDup (s : State) (k : Nat) (hs : List (Nat × DynHdr)) : Nat → State
  | 0 => s
  | fuel + 1 =>
    match look none s.fab.dups k with
    | none => s
    | some e =>
      match e.recs.find? (fun r => decide (r.seq = e.next) && r.status.isNone) with
      | none => s
      | some r =>
        match r.total, hs.find? (fun x => decide (x.1 = r.seq)) with
        | some n, some (_, h) =>
          if r.pieces.length < n ∧ h.op ≠ 1 then s
          else
            let (s1, st) := s.execute h n r.pieces
            let recs := (e.recs.map (fun q => if q.seq = r.seq then { q with status := some st, pieces := [] } else q)).filter
              (fun q => decide (seqAhead e.next q.seq < 64 ∨ seqAhead q.seq e.next < 64))
            let heads := e.heads.filter (fun x => decide (x.1 ≠ r.seq))
            let e1 : DupEntry := { next := (e.next + 1) % 2 ^ 32, recs, heads, at' := s.hallNow }
            let dups := put none s1.fab.dups k (some e1)
            State.drainDup (({ s1 with fab := { s1.fab with dups } }).answer h st n) k hs fuel
        | _, _ => s

/-- The entry of a requester and channel; in a full table it replaces the entry whose newest record is oldest and more than
100 ms old. -/
def State.dupEntry (s : State) (k seq : Nat) : Option (State × DupEntry) :=
  match look none s.fab.dups k with
  | some e => some (s, e)
  | none =>
    if s.fab.dups.length < 4096 then some (s, { next := seq })
    else
      let old := s.fab.dups.foldl (fun (b : Option (Nat × Nat)) e =>
        match e.2, b with
        | none, _ => b
        | some x, none => some (e.1, x.at')
        | some x, some y => if x.at' < y.2 then some (e.1, x.at') else b) none
      match old with
      | some (j, t) =>
        if t + 10 ^ 8 < s.hallNow then
          some ({ s with fab := { s.fab with dups := put none s.fab.dups j none } }, { next := seq })
        else none
      | none => none

/-- Put a piece into the record of its sequence number, opened where there is none. -/
def takePiece (recs : List DupRec) (h : DynHdr) (line : Line) : List DupRec :=
  let upd (r : DupRec) : DupRec :=
    { r with pieces := if (r.pieces.any (fun e => decide (e.1 = h.piece))) then r.pieces else r.pieces ++ [(h.piece, line)]
             total := if h.last then some h.total else r.total }
  if recs.any (fun r => decide (r.seq = h.seq)) then recs.map (fun r => if r.seq = h.seq then upd r else r)
  else recs ++ [upd { seq := h.seq, pieces := [], total := none, status := none }]

/-- A request flit that came by port `i` enters the fabric engine. A recorded outcome is answered from the record; a request more than
64 ahead, or one that no entry can hold, is dropped and counted in STRAY (R326, R330). -/
def State.request (s : State) (i : Nat) (h : DynHdr) (line : Line) : State :=
  let k := dupKey h.job h.src h.dst h.ch
  match s.dupEntry k h.seq with
  | none => s.strayFlit i
  | some (s1, e) =>
    match e.recs.find? (fun r => decide (r.seq = h.seq)) with
    | some { status := some st, total := n, .. } =>
      let n := n.getD h.total
      if h.op = 1 then s1.answer h ((s1.part h.dpart).dynStatus h n) n
      else if h.last then s1.answer h st n else s1
    | _ =>
      if 64 ≤ seqAhead h.seq e.next then s1.strayFlit i
      else
        let heads := if e.heads.any (fun x => decide (x.1 = h.seq)) then
            e.heads.map (fun x => if x.1 = h.seq then (x.1, { x.2 with gen := h.gen }) else x) else e.heads ++ [(h.seq, h)]
        let e1 : DupEntry := { e with recs := takePiece e.recs h line, heads, at' := s.hallNow }
        let s2 : State := { s1 with fab := { s1.fab with dups := put none s1.fab.dups k (some e1) } }
        s2.drainDup k heads 64

/-- DYN_REQUEST_RX: the engine processes a request flit that was delivered to it (R329). -/
def execDynRequestRx (s : State) : Out :=
  match s.takeDyn 2 with
  | (s1, some (i, d)) => ok (s1.request i d.hdr d.line)
  | (_, none) => ok s

/-! ### The twin (R338 to R341, R389, R424) -/

/-- Lines of a sender partition's shadow region. -/
def State.regionSize (s : State) (q : Nat) : Nat := look 0 (calShadow s.calLoad).regions q

/-- A header that is not acted on: the stream is INCOMPLETE and the event counted; flits are then discarded up to the next valid
header (R339). -/
def Shadow.lose (x : Shadow) : Shadow :=
  if x.lost then x else { x with incompl := true, missed := x.missed + 1, left := 0, lost := true }

/-- A header flit (Table 12.4). -/
def Shadow.header (x : Shadow) (size : Nat) (fl : Flit) : Shadow :=
  let w := fl.lo.toNat
  let kind := bits w 32 8
  let step := bits w 64 64
  let line := bits w 128 64
  let n := bits w 192 32
  let park := bits w 224 16
  let zero := decide (bits w 40 24 = 0 ∧ bits w 240 1808 = 0) && decide (fl.hi = 0)
  let span := if kind = 3 then n else 2 * n
  if bits w 0 32 ≠ 0x49545331 ∨ kind = 0 ∨ 3 < kind ∨ !zero ∨ line % 2 = 1 ∨ n = 0 ∨ 2 ^ 24 < n ∨ size < line + span then x.lose
  else if kind = 3 then { x with parkReq := put none x.parkReq park (some (line, n)), lost := false }
  else { x with left := n, line, kind, stepNo := step, building := [], lost := false }

/-- A data flit of the header in force. -/
def Shadow.data (x : Shadow) (fl : Flit) : Shadow :=
  let y := { x with lines := put 0 (put 0 x.lines x.line fl.lo) (x.line + 1) fl.hi, line := x.line + 2, left := x.left - 1
                    building := if x.kind = 2 then x.building ++ [fl.lo, fl.hi] else [] }
  if x.kind = 2 ∧ x.left = 1 then { y with prov := some (x.stepNo, y.building), building := [] } else y

/-- SHADOW_FLIT_RX: the first plan flit delivered on TW goes to the partition that holds its slot in the latest map (R338 to R340). -/
def execShadowFlitRx (s : State) : Out :=
  match s.fab.shadowIn with
  | [] => ok s
  | fl :: rest =>
    let s : State := { s with fab := { s.fab with shadowIn := rest } }
    match allParts.find? (fun q => match (s.shadow q).map with
        | some m => m.slots.contains (fl.check % 384)
        | none => false) with
    | none => ok (s.strayFlit 10)
    | some q =>
      let size := s.regionSize q
      ok (s.onShadow q (fun x => if x.left = 0 then x.header size fl else x.data fl))

/-- TWIN_MAP_TRANSFER: the twin's map for its partition `q`; a fresh start of the carried state clears INCOMPLETE (R338, R339).
Without a pair key TW carries no TWIN transfer (R424). -/
def execTwinMapTransfer (q : Nat) (m : TwinMap) (s : State) : Out :=
  if !s.keys.pairKey then ok s
  else ok (s.onShadow q (fun x => { x with map := some m, incompl := x.incompl && !m.fresh, twinSize := m.region }))

/-- TWIN_PARK_COPY: the named range is copied into the park area and completion reported (R341). -/
def execTwinParkCopy (q entry : Nat) (s : State) : Out :=
  match look none (s.shadow q).parkReq entry with
  | none => ok s
  | some (line, n) =>
    let s1 := s.onShadow q (fun x =>
      { x with parks := put [] x.parks entry ((List.range n).map (fun j => look 0 x.lines (line + j)))
               parkReq := put none x.parkReq entry none })
    ok (if s.keys.pairKey then s1.send (.twinParked q entry) else s1)

/-- TWIN_RELEASE: the held copy is zeroised (R279, R341). -/
def execTwinRelease (q entry : Nat) (s : State) : Out :=
  if !s.keys.pairKey then ok s else ok (s.onShadow q (fun x => { x with parks := put [] x.parks entry [] }))

/-- Bytes 0 to 127 of a manager message (Table 14.3). -/
def msgBytes (m : MgrMsg) : List Nat :=
  leBytes 4 m.format ++ [m.kind, m.cause] ++ leBytes 2 m.sender ++ leBytes 4 m.job ++ leBytes 4 m.seq ++ leBytes 2 m.subject ++ leBytes 2 m.aux ++
    leBytes 4 m.dseq ++ leBytes 8 m.arg0 ++ leBytes 8 m.arg1 ++ leBytes 8 m.arg2 ++ leBytes 32 m.digest0.toNat ++ leBytes 32 m.digest1.toNat ++ leBytes 16 m.tail

/-- The tag of a manager message under a job key (R372). -/
def msgTag (key : Hash) (m : MgrMsg) : Hash := Config.kmac (leBytes 32 key.toNat) (msgBytes m) "ITMIR-MANAGE"

/-- FORMAT of manager messages. -/
def mgrFormat : Nat := 0x49544D31

/-- The message has the format, and its tag verifies under a key held. -/
def msgOk (key : Option Hash) (m : MgrMsg) : Bool :=
  match key with
  | none => false
  | some k => decide (m.format = mgrFormat ∧ msgTag k m = m.tag)

/-- Manager messages agree in bytes 4 to 111 but SENDER and SEQ (R373). -/
def msgAgrees (a b : MgrMsg) : Bool :=
  decide ({ a with format := 0, sender := 0, seq := 0, tail := 0, tag := 0 } = { b with format := 0, sender := 0, seq := 0, tail := 0, tag := 0 })

/-- Copies of `m` held from distinct senders. -/
def copiesOf (l : List MgrMsg) (m : MgrMsg) : Nat := ((l.filter (fun x => msgAgrees x m)).map (fun x => x.sender)).eraseDups.length

/-- The twin holds with a quorum a GRAFT that names this spare and rank (R389). -/
def Shadow.grafted (x : Shadow) (rq : ShadowReq) : Bool :=
  x.grafts.any (fun m => decide (m.job = rq.job ∧ m.subject = rq.rank ∧ m.arg0 = rq.serial) && decide (3 ≤ copiesOf x.grafts m))

/-- TWIN_SHADOW_SERVE: a grafted spare asks for the shadow of partition `q`; with STATUS OK go the promoted record and the shadow's
lines (R389). The GRAFT copies that the twin holds are those whose tags verified under the job key of its map. -/
def execTwinShadowServe (q : Nat) (rq : ShadowReq) (s : State) : Out :=
  let x := s.shadow q
  let mine := match x.map with
    | some m => decide (m.job = rq.job ∧ m.rank = rq.rank) && m.key.isSome
    | none => false
  let st := if !mine ∨ !x.grafted rq then 0x01
    else if x.promoted.isNone ∨ x.incompl then 0x06 else 0x00
  ok (s.send (if st = 0x00 then .twinStatus rq.serial st x.promoted x.lines else .twinStatus rq.serial st none []))

/-- PAIR_KEY_EXCHANGE: when TW is UP with the paired serial, the twins form the pair key, or none if a chain fails (R424). -/
def execPairKeyExchange (chainOk : Bool) (s : State) : Out :=
  let x := s.port 10
  if x.st = .up ∧ s.keys.twinSerial.isSome ∧ x.peer.map (fun c => c.serial) = s.keys.twinSerial then
    ok { s with keys := { s.keys with pairKey := chainOk } }
  else ok s

end Sys2Proof.Machine
end

