-- ==== Sys2Proof/Machine/Power.lean ====
section
/-! DEFINITION. Power, domains, Windbreak, thermal stages and coolant (18_power_and_thermal.md). -/

namespace Sys2Proof.Machine

/-! ### Domains (Table 18.3, R471 to R474, R557) -/

def allDoms : List Nat := List.range 96

def domMask (l : List Nat) : BitVec 96 := BitVec.ofNat 96 (l.foldl (fun a d => a + 2 ^ d) 0)

/-- Region of a fabric port (Table 11.1). -/
def portRegion (i : Nat) : Nat := portBlock i / 16

/-- The domains of a region: blocks, stacks, ports. -/
def inRegion (r d : Nat) : Bool :=
  if d < 64 then decide (d / 16 = r)
  else if d < 76 then decide ((d - 64) / 3 = r)
  else if d < 88 then decide (portRegion (d - 76) = r)
  else false

/-- A block that is not fused off (R7, R8). -/
def State.blockActive (s : State) (b : Nat) : Bool := !s.fuses.fused.getLsbD b

/-- Partition `p` uses domain `d` (R557). -/
def State.usesDom (s : State) (p d : Nat) : Bool :=
  let q := s.part p
  let lease (f : LeaseE → Bool) : Bool := q.holds && q.leases.any f
  if d < 64 then decide ((s.block d).owner = some p)
  else if d < 76 then s.onStackK p (d - 64)
  else if d < 88 then lease (fun l => decide ((l.res = 5 ∨ l.res = 6) ∧ l.unit = d - 76))
  else if d < 92 then lease (fun l => decide (l.res = 1) && decide (q.bindBlock l.unit / 16 = d - 88)) ||
    (s.ownBlocks p).any (fun b => decide (b / 16 = d - 88))
  else q.active?

/-- The state R471 gives a domain, a tripped domain apart. -/
def State.wantsDom (s : State) (d : Nat) : Bool :=
  if s.pwr.tripped.getLsbD d then false
  else if s.boot.phase = .memory ∨ s.boot.phase = .calibration ∨ s.boot.phase = .search then
    if d < 64 then s.blockActive d else decide (d < 92) || s.seqr.hubDom.getLsbD (d - 92)
  else
    let base (d : Nat) : Bool :=
      if d < 64 then s.blockActive d && (s.block d).owner.isSome
      else if d < 76 then allParts.any (fun p => s.onStackK p (d - 64))
      else if d < 88 then decide ((s.port (d - 76)).st ≠ .off)
      else false
    if d < 88 then base d
    else if d < 92 then (List.range 88).any (fun e => inRegion (d - 88) e && base e)
    else s.seqr.hubDom.getLsbD (d - 92)

/-- A partition in STATE 0x2 or 0x3 uses the domain (R474). -/
def State.domBusy (s : State) (d : Nat) : Bool := s.activeParts.any (fun p => s.usesDom p d)

/-- Remove the entries of the listed keys' ranges that satisfy `f`. -/
def dropKeys {α : Type} (m : SMap α) (f : Nat → Bool) : SMap α := m.filter (fun e => !f e.1)

/-- A zeroisation that starts again. -/
def Wipe.afresh (_ : Nat) (w : Option Wipe) : Option Wipe := w.map (fun x => { to' := x.to' })

/-- The domain of a counter's location: a block's, a region mesh's, a port's, and PD_HTIME for the hub (R492, log entry 81). -/
def ctrDom (loc : Nat) : Nat :=
  match loc / 4096 with
  | 1 => loc % 4096 / 32
  | 2 => loc % 4096
  | 3 => 88 + loc % 4096
  | 4 => 76 + loc % 4096
  | _ => 95

/-- A counter with VALUE 0 and STICKY clear; its selection is kept. -/
def Counter.cleared (c : Counter) : Counter := { c with value := 0, sticky := false, last := false }

/-- The counters of a domain stand at VALUE 0 with STICKY clear (R492). -/
def State.clearCtrs (s : State) (d : Nat) : State :=
  { s with counters := mapv Counter.zero s.counters (fun k c => if ctrDom (k / 32) = d then c.cleared else c) }

/-- What a domain held is gone, key slots with it; a port goes DOWN as R311 and R331 say (R472, R492). -/
def State.loseDom (s : State) (d : Nat) : State :=
  let s := ({ s with pwr := { s.pwr with dom := s.pwr.dom &&& ~~~(domMask [d]) } }).clearCtrs d
  if d < 64 then
    let b := s.block d
    { s with cells := dropKeys s.cells (fun c => decide (blockOf c = d))
             blocks := put Block.zero s.blocks d { Block.zero with owner := b.owner, vblock := b.vblock, map := b.map,
                                                                   codePos := b.codePos, usedPos := b.usedPos, rin := b.rin } }
  else if d < 76 then
    s.onStack (d - 64) (fun y => { y with lines := [], blank := [], wipes := mapv none y.wipes Wipe.afresh, keys := [], arrive := [], rets := []
                                          opens := [], lastSlot := []
                                          chans := mapv StkChan.zero y.chans (fun _ c => { c with mbuf := [], sweep := none }) })
  else if d < 88 then
    let s1 := s.portDown (d - 76) (s.port (d - 76)).lastFatal
    s1.onPort (d - 76) (fun y => { y with st := if (s.port (d - 76)).st = .off then .off else .down, inbox := [], fwd := [], outBeats := []
                                          dynQ := [], fwdDyn := [], ctlIn := [], txq := [], txSegs := [], inSync := false, peer := none })
  else if d < 92 then
    { s with blocks := mapv Block.zero s.blocks (fun b x => if b / 16 = d - 88 then { x with rin := [] } else x) }
  else if d = 92 then { s with rings := [], msix := [], msixWait := [] }
  else if d = 93 then
    { s with cold := { s.cold with lines := [], blank := [], wipes := mapv none s.cold.wipes Wipe.afresh, keys := [], arrive := [], rets := []
                                   opens := [], copy := none } }
  else if d = 95 then { s with tu := { gust := s.tu.gust, floor := s.tu.floor } }
  else s

/-- Switch a domain off. -/
def State.domDown (s : State) (d : Nat) : State := if s.pwr.dom.getLsbD d then s.loseDom d else s

/-- Lease indices of a partition on a stack, which are to be zeroised before use (R472). -/
def Part.stackIdx (p : Part) (k : Nat) : List (Tier × Nat) :=
  ((p.stackTabA ++ p.stackTabB).filterMap (fun e => match e.2 with
    | some l => if l.unit = k then some (Tier.stack, e.1) else none
    | none => none)).eraseDups

/-- Lease indices of a partition in the cold frame. -/
def Part.coldIdx (p : Part) : List (Tier × Nat) := ((p.coldTabA ++ p.coldTabB).map (fun e => (Tier.cold, e.1))).eraseDups

/-- The security processor writes the key slots of partition `p`: its keys on the base dies of the stacks it holds leases on and in the
cold controller, empty elsewhere. A domain that is off holds no slot (R217, R253, log entry 71). -/
def State.fillSlots (s : State) (p : Nat) : State :=
  let q := s.part p
  let s1 := (List.range 12).foldl (fun s k =>
    if s.pwr.dom.getLsbD (64 + k) then
      s.onStack k (fun y => { y with keys := put 0 y.keys p (if s.onStackK p k then q.stackKey else 0) })
    else s) s
  if s1.pwr.dom.getLsbD 93 then { s1 with cold := { s1.cold with keys := put 0 s1.cold.keys p q.coldKey } } else s1

/-- Switch a domain on: the leases of a stack, or of the cold frame, are to be zeroised before use, and their key slots are filled again
(R217, R472, log entry 71). -/
def State.domUp (s : State) (d : Nat) : State :=
  if s.pwr.dom.getLsbD d then s
  else
    let s := ({ s with pwr := { s.pwr with dom := s.pwr.dom ||| domMask [d] } }).clearCtrs d
    if 64 ≤ d ∧ d < 76 then
      allParts.foldl (fun s p => (((s.part p).stackIdx (d - 64)).foldl (fun s e =>
        s.pendLease p true (fun l => decide (l.unit = d - 64)) e) s).fillSlots p) s
    else if d = 93 then
      allParts.foldl (fun s p => (((s.part p).coldIdx).foldl (fun s e => s.pendLease p true (fun _ => true) e) s).fillSlots p) s
    else s

/-- The order in which domains go off: ports, stacks, blocks, meshes (R473). -/
def offOrder : List Nat :=
  (List.range 12).map (· + 76) ++ (List.range 12).map (· + 64) ++ List.range 64 ++ (List.range 4).map (· + 88)

/-- Every hub domain is on; otherwise no partition is ARMED or RUNNING (R471). -/
def State.hubOn (s : State) : Bool := decide ((s.pwr.dom >>> 92).setWidth 4 = 0xF#4)

/-- Every domain of a list off, in the order of R473; hub domains last. -/
def State.domsDown (s : State) (l : List Nat) : State :=
  ((offOrder.filter (fun d => l.contains d)) ++ l.filter (fun d => decide (92 ≤ d))).foldl State.domDown s

/-- The sequencer's view of the hub domains follows. -/
def State.hubAct (s : State) : State :=
  { s with seqr := { s.seqr with hubAct := (s.pwr.dom >>> 92).setWidth 4 } }

/-- The domain is to be switched off, or on. -/
def State.offDue (s : State) (d : Nat) : Bool := s.pwr.dom.getLsbD d && !s.wantsDom d && !s.domBusy d
def State.onDue (s : State) (d : Nat) : Bool := !s.pwr.dom.getLsbD d && s.wantsDom d

/-- Mesh, block, stack and port domains come on in this order (R473). -/
def onOrder : List Nat := offOrder.reverse

/-- Every domain that R473 puts before `d` is done. -/
def State.firstDue (s : State) (on : Bool) (d : Nat) : Bool :=
  if on then (onOrder.takeWhile (fun e => decide (e ≠ d))).all (fun e => !s.onDue e)
  else (offOrder.takeWhile (fun e => decide (e ≠ d))).all (fun e => !s.offDue e)

/-- DOMAIN_SWITCH: Windbreak brings one domain to the state of R471, in the order of R473 and at most one per 10 µs. -/
def execDomainSwitch (d : Nat) (on : Bool) (s : State) : Out :=
  if 96 ≤ d ∨ s.wallNs < s.pwr.swNext ∨ !s.firstDue on d ∨ !(if on then s.onDue d else s.offDue d) then ok s
  else
    let s1 : State := { s with pwr := { s.pwr with swNext := s.wallNs + 10000 } }
    ok (if on then s1.domUp d else s1.domDown d).hubAct

/-- Domains switched off by THERMAL_TRIP at the frame boundary. -/
def State.tripDoms (s : State) : State :=
  if s.pwr.domOff = 0 then s
  else
    let l := allDoms.filter (fun d => s.pwr.domOff.getLsbD d)
    let s := (s.domsDown l).hubAct
    { s with pwr := { s.pwr with tripped := s.pwr.tripped ||| s.pwr.domOff, domOff := 0 } }

/-! ### Estimates (R475, R476, R478, R480 to R485) -/

/-- Dynamic scale v of a gust step, in ten-thousandths (Table 18.4). -/
def dynScale (k : Nat) : Nat := ([10000, 9025, 8100, 7225, 6400, 5625] : List Nat).getD k 5625

/-- Energy of an event of row `e` of Table 18.5, in pJ. -/
def eventPj (e : Nat) : Nat :=
  ([950, 900, 870, 620, 60, 90, 170, 18, 35, 28, 45, 4200, 18000, 55, 110, 4800, 1500] : List Nat).getD e 0

/-- Class of an event row: 0 compute, 1 memory, 2 links. -/
def eventClass (e : Nat) : Nat := if e < 10 then 0 else if e < 13 then 1 else 2

/-- Base draw of a domain in tenths of a W (Table 18.6). -/
def domBase (d : Nat) : Nat :=
  if d < 64 then 36 else if d < 76 then 120 else if d < 88 then 75 else if d < 92 then 60
  else ([120, 300, 80, 40] : List Nat).getD (d - 92) 0

def domClass (d : Nat) : Nat := if d < 64 then 0 else if d < 76 then 1 else 2

/-- Sensor keys. -/
def groupNo : SensorGroup → Nat
  | .region => 0
  | .hub => 1
  | .stack => 2
  | .cold => 3
  | .converter => 4
  | .regulator => 5
def sensorKey (g : SensorGroup) (i : Nat) : Nat := 64 * groupNo g + i

/-- The hottest sensor of a domain. -/
def State.domTemp (s : State) (d : Nat) : Int :=
  let t (g : SensorGroup) (i : Nat) : Int := look 0 s.pwr.sensors (sensorKey g i)
  if d < 64 then t .region (d / 16)
  else if d < 76 then t .stack (d - 64)
  else if d < 88 then t .region (portRegion (d - 76))
  else if d < 92 then t .region (d - 88)
  else if d = 93 then max (t .hub 0) (t .cold 0)
  else t .hub 0

/-- Temperature factor λ in 1/300. -/
def lambda300 (t : Int) : Nat :=
  if t ≤ 55 then 210
  else if t ≤ 85 then 210 + 3 * (t - 55).toNat
  else if t ≤ 100 then 300 + 4 * (t - 85).toNat
  else 360

/-- Denominator of estimates. -/
def estDen : Nat := 204800000000 * 270000

/-- Estimate at step `k` of `pj` picojoules of events and `base` of base draw (0.1 W × λ in 1/300), over `estDen`. -/
def estNum (k pj base : Nat) : Nat := pj * (10 - k) * dynScale k * 300000 + base * baseScale k * 204800000000

/-- Base draw of the domains that are on and satisfy `f`. -/
def State.baseOf (s : State) (f : Nat → Bool) : Nat :=
  allDoms.foldl (fun a d => if s.pwr.dom.getLsbD d && f d then a + domBase d * lambda300 (s.domTemp d) else a) 0

/-- Energy in pJ of the events counted since the last estimate whose key satisfies `f`. -/
def State.pjOf (s : State) (f : Nat → Bool) : Nat := s.act.foldl (fun a e => if f e.1 then a + e.2 * eventPj (e.1 % 32) else a) 0

/-- Lease indices of a partition on stack `k`. -/
def Part.leasesOn (p : Part) (k : Nat) : Nat := (p.stackIdx k).length

/-- Partitions that exist, and the sum of their allocations. -/
def State.allocSum (s : State) : Nat := allParts.foldl (fun a p => if (s.part p).sx.created then a + (s.part p).pw.alloc else a) 0

/-- A partition's share of the base of the domains that are on, in class `c`, over `w` parts: blocks it owns, stacks by its
leases, ports, meshes and hub by its allocation (R484). -/
def State.baseShare (s : State) (p c : Nat) : Nat :=
  let q := s.part p
  let one (d : Nat) : Nat := domBase d * lambda300 (s.domTemp d)
  allDoms.foldl (fun a d =>
    if !s.pwr.dom.getLsbD d || domClass d != c then a
    else if d < 64 then (if (s.block d).owner = some p then a + one d else a)
    else if d < 76 then
      let all := allParts.foldl (fun n x => n + (s.part x).leasesOn (d - 64)) 0
      if all = 0 then a else a + one d * q.leasesOn (d - 64) / all
    else if s.allocSum = 0 then a else a + one d * q.pw.alloc / s.allocSum) 0

/-- A partition's estimate in class `c` over `estDen`. -/
def State.estPart (s : State) (k p c : Nat) : Nat :=
  estNum k (s.pjOf (fun e => decide (e / 32 = p + 1 ∧ eventClass (e % 32) = c))) (s.baseShare p c)

/-- Charge a partition with energy and set OVER_CLASS (R478, R484, R485). -/
def State.charge (s : State) (k p : Nat) : State :=
  let q := s.part p
  if !q.sx.created then s
  else
    let e (c : Nat) : Nat := s.estPart k p c
    let all := e 0 + e 1 + e 2
    let nj := q.pw.energyRem + all * 20480 / (estDen * (10 - k))
    let overW := decide (q.pw.envelope * estDen < all) && q.active? &&
      (decide (q.pw.computeW * estDen < e 0) || decide (q.pw.memoryW * estDen < e 1) || decide (q.pw.linkW * estDen < e 2))
    s.onPart p (fun q => { q with pw := { q.pw with energyMj := (q.pw.energyMj + nj / 10 ^ 6) % 2 ^ 64, energyRem := nj % 10 ^ 6
                                                    overClass := q.pw.overClass || overW } })

/-- The activity request after an estimate (R481); `lows` counts the estimates in a row with est(k − 1) ≤ 0.92 × cap. -/
def actNext (a k cap lows : Nat) (est : Nat → Nat) : Nat :=
  let above (j : Nat) : Bool := decide (97 * cap * estDen < 100 * est j)
  if above k then ((List.range 6).find? (fun j => decide (k < j) && !above j)).getD 5
  else if k ≠ 0 ∧ 16 ≤ lows then k - 1
  else a

/-- WINDBREAK_ESTIMATE at the end of 2,048 plan cycles: the estimate of the events since the last one (R476, R484). -/
def execWindbreakEstimate (s : State) : Out :=
  if s.cycle / 2048 ≤ s.pwr.estAt then ok s
  else
  let k := s.tu.gust
  let pj := s.pjOf (fun _ => true)
  let base := s.baseOf (fun _ => true)
  let est (j : Nat) : Nat := estNum j pj base
  let w := (2 * est k + estDen) / (2 * estDen)
  let cap := s.pwr.capW
  let low := decide (k ≠ 0 ∧ 100 * est (k - 1) ≤ 92 * cap * estDen)
  let lows := if low then s.pwr.low16 + 1 else 0
  let overW := decide (cap * estDen < est k)
  let s1 : State := { s with pwr := { s.pwr with
    estAt := s.cycle / 2048, estW := min 4095 w, peakW := max s.pwr.peakW (min 4095 w), overW := s.pwr.overW || overW
    overRun := if 110 * cap * estDen < 100 * est k then s.pwr.overRun + 1 else 0
    low16 := lows, actReq := if s.pwr.gustAct then actNext s.pwr.actReq k cap lows est else 0 } }
  let s2 := if overW then s1.count locHub 0x40D 1 else s1
  ok { allParts.foldl (fun s p => s.charge k p) s2 with act := [] }

/-- OVERPOWER: 1,024 consecutive estimates above 1.10 × cap (R482). -/
def execOverpower (s : State) : Out :=
  if 1024 ≤ s.pwr.overRun then
    ok (({ s with pwr := { s.pwr with overRun := 0 } }).jobFault 0xB4 s.timeScope locHub s.pwr.estW 0)
  else ok s

/-! ### Thermal (R486, R487, Tables 18.7, 18.16) -/

/-- Stage 1, stage 2, trip and clearing temperatures of a group. -/
def thresholds : SensorGroup → Int × Int × Int × Int
  | .region => (95, 100, 110, 90)
  | .hub => (95, 100, 110, 90)
  | .stack => (90, 95, 105, 85)
  | .cold => (90, 95, 105, 85)
  | .converter => (110, 120, 130, 105)
  | .regulator => (110, 120, 130, 105)

/-- Domains of region `r` that carry fabric ports. -/
def portDoms (r : Nat) : List Nat := ((List.range 12).filter (fun i => decide (portRegion i = r))).map (· + 76)
def blockDoms (r : Nat) : List Nat := (List.range 16).map (fun q => 16 * r + q)

/-- The domains a rail serves (Table 18.2). -/
def railDoms (j : Nat) : List Nat :=
  if j < 8 then blockDoms (j % 4) ++ [88 + j % 4]
  else if j < 12 then [64 + 3 * (j - 8), 65 + 3 * (j - 8), 66 + 3 * (j - 8)]
  else if j < 16 then portDoms (j - 12) ++ [88 + (j - 12)]
  else if j = 16 then [92, 93, 94, 95]
  else [93]

/-- The domains a sensor measures (Table 18.16). -/
def measured (g : SensorGroup) (i : Nat) : List Nat :=
  match g with
  | .region => blockDoms i ++ [88 + i] ++ portDoms i
  | .hub => [92, 93, 94, 95]
  | .stack => [64 + i]
  | .cold => [93]
  | .converter => allDoms
  | .regulator => railDoms i

def allGroups : List SensorGroup := [.region, .hub, .stack, .cold, .converter, .regulator]

/-- Converter and regulator sensors share a group of Table 18.7. -/
def stageGroup : SensorGroup → Nat
  | .regulator => 4
  | g => groupNo g

/-- Every sensor of a stage group reads at or below its clearing temperature. -/
def State.groupClear (s : State) (n : Nat) : Bool :=
  allGroups.all (fun g => stageGroup g != n || s.pwr.sensors.all (fun e =>
    e.1 / 64 != groupNo g || decide (e.2 ≤ (thresholds g).2.2.2)))

/-- The module's thermal stage. -/
def State.stage (s : State) : Nat := s.pwr.stages.foldl (fun m e => max m e.2) 0

/-- The thermal request when the stage goes from `a` to `b` at gust step `k`. -/
def thermNext (req a b k : Nat) : Nat :=
  if b = 0 then 0 else if b = 2 then 5 else if a = 1 then req else min 5 (k + 1)

/-- Sensors of a group: the spec counts those of a region, a stack, a converter and a rail. -/
def sensorOf (g : SensorGroup) (idx : Nat) : Bool :=
  match g with
  | .region => decide (idx < 4)
  | .stack => decide (idx < 12)
  | .converter => decide (idx < 5)
  | .regulator => decide (idx < 18)
  | _ => decide (idx < 64)

/-- THERMAL_SENSOR_READ: a sensor reads `tempC`. -/
def execThermalSensorRead (g : SensorGroup) (idx : Nat) (tempC : Int) (s : State) : Out :=
  if !sensorOf g idx then ok s
  else
  let (t1, t2, trip, _) := thresholds g
  let n := stageGroup g
  let old := s.stage
  let s1 : State := { s with pwr := { s.pwr with sensors := put 0 s.pwr.sensors (sensorKey g idx) tempC } }
  let s2 := match g with
    | .stack => s1.onStack idx (fun y => { y with tempC })
    | .cold => { s1 with cold := { s1.cold with tempC } }
    | _ => s1
  let reach := if t2 ≤ tempC then 2 else if t1 ≤ tempC then 1 else 0
  let st := if s2.groupClear n then 0 else max (look 0 s2.pwr.stages n) reach
  let s3 : State := { s2 with pwr := { s2.pwr with stages := put 0 s2.pwr.stages n st } }
  let s4 : State := { s3 with pwr := { s3.pwr with 
    thermReq := thermNext s3.pwr.thermReq old s3.stage s3.tu.gust, stageAt := if s3.stage = old then s3.pwr.stageAt else s.wallNs } }
  if trip ≤ tempC then
    let l := measured g idx
    let grp := l.foldl (fun m d => put 0 m d n) s4.pwr.tripGrp
    let s5 : State := { s4 with pwr := { s4.pwr with domOff := s4.pwr.domOff ||| domMask l, tripGrp := grp }
                                seqr := { s4.seqr with trip := true } }
    ok (s5.jobFault 0xB5 (s5.scope (fun p => l.any (fun d => s5.usesDom p d))) locHub tempC.toNat (sensorKey g idx))
  else ok s4

/-- THERMAL_STAGE_STEP: every 100 ms at stage 1 the request rises by 1. -/
def execThermalStageStep (s : State) : Out :=
  if s.stage = 1 ∧ s.pwr.stageAt + 10 ^ 8 ≤ s.wallNs then
    ok { s with pwr := { s.pwr with thermReq := min 5 (s.pwr.thermReq + 1), stageAt := s.pwr.stageAt + 10 ^ 8 } }
  else ok s

/-- A flow, in 0.05 L/min, below 60 % of the rated minimum: cap / 1,200 L/min, and not less than 1.2 L/min (Table 18.8). -/
def flowLow (cap v : Nat) : Bool := decide (100 * v < max cap 1440)

/-- Since when a reading is out of its limit, after one that is so (`bad`) or not at `now`. -/
def badSince (old : Option Nat) (bad : Bool) (now : Nat) : Option Nat := if bad then some (old.getD now) else none

/-- COOLANT_LOST: a reading of the flow or of the inlet. From the first one that is too low or too hot the thermal request is 5; one that
is so 2 s later raises the fault (R487; the reading that ends the request is log entry 80). -/
def execCoolantLost (r : CoolantOut) (s : State) : Out :=
  let pwr := match r with
    | .flow v => { s.pwr with flow := v, lowFlow := badSince s.pwr.lowFlow (flowLow s.pwr.capW v) s.wallNs }
    | .inlet c => { s.pwr with inletC := c, hotInlet := badSince s.pwr.hotInlet (decide (45 < c)) s.wallNs }
  let (since, v) := match r with
    | .flow v => (pwr.lowFlow, v)
    | .inlet c => (pwr.hotInlet, c)
  if since.any (fun t => decide (t + 2 * 10 ^ 9 ≤ s.wallNs)) then
    ok (({ s with pwr, seqr := { s.seqr with coolant := true } }).jobFault 0xB6 s.timeScope locHub v 0)
  else ok { s with pwr }

/-! ### Supply (R467 to R469, R489, R526, R527) -/

/-- With fewer than four converters the deliverable power is held against the allocations (R468). -/
def State.convCheck (s : State) (i : Nat) : State :=
  let n := ((List.range 5).filter (fun j => s.pwr.convOk.getLsbD j)).length
  if n < 4 ∧ 820 * n < s.allocSum then s.jobFault 0xB2 s.timeScope locHub (820 * n) i else s

/-- CONVERTER_FAILURE: converter `i` stops. -/
def execConverterFailure (i : Nat) (s : State) : Out :=
  if !s.pwr.convOk.getLsbD i then ok s
  else
    ok ((({ s with pwr := { s.pwr with convOk := s.pwr.convOk &&& ~~~(BitVec.ofNat 5 (2 ^ i)) } }).modEvent 0xC6 locHub i 0).convCheck i)

/-- Phases of a rail (Table 18.2). -/
def railPhases (j : Nat) : Nat := if j < 4 then 24 else if j < 12 then 8 else if j < 16 then 5 else if j = 16 then 6 else 5

/-- PHASE_FAILURE: a phase of a rail fails. -/
def execPhaseFailure (rail : Nat) (s : State) : Out :=
  let n := min 7 (look 0 s.pwr.phLost rail + 1)
  ok (({ s with pwr := { s.pwr with phLost := put 0 s.pwr.phLost rail n } }).modEvent 0xC7 locHub rail (railPhases rail - n))

/-- Set voltage of a rail in mV (Table 18.2); VDD_CORE follows the gust step (R470). -/
def State.railMv (s : State) (j : Nat) : Nat :=
  if j < 4 then s.pwr.core else if j < 8 then 850 else if j < 12 then 1100 else if j < 16 then 900 else if j = 16 then 750 else 1050

/-- A reading lies outside ±5 % of a set voltage. -/
def offFive (set mV : Nat) : Bool := decide (100 * mV < 95 * set ∨ 105 * set < 100 * mV)

/-- RAIL_FAULT: the rail has lost a third phase, or stayed at `mV` outside ±5 % of its set voltage for 10 µs (R469). -/
def execRailFault (rail mV : Nat) (s : State) : Out :=
  let l := railDoms rail
  if look 0 s.pwr.phLost rail < 3 ∧ !offFive (s.railMv rail) mV then ok s
  else ok (s.jobFault 0xB3 (s.scope (fun p => l.any (fun d => s.usesDom p d))) locHub mV rail)

def State.setBus (s : State) (mV : Nat) : State := { s with pwr := { s.pwr with busV := min 255 (mV / 250) } }

/-- SUPPLY_UV: the input stays below 40.0 V beyond the ride-through. -/
def execSupplyUv (mV : Nat) (s : State) : Out :=
  if mV < 40000 then ok ((s.setBus mV).jobFault 0xB0 s.timeScope locHub mV 0) else ok s

/-- SUPPLY_OV: the input stays above 60.0 V beyond the ride-through. -/
def execSupplyOv (mV : Nat) (s : State) : Out :=
  if 60000 < mV then ok ((s.setBus mV).jobFault 0xB1 s.timeScope locHub mV 0) else ok s

/-- Every domain off. A partition that was ARMED or RUNNING stops with its step discarded: no partition is either while a hub
domain is off (R471). -/
def State.allOff (s : State) : State :=
  let s := (s.domsDown allDoms).hubAct
  { s with parts := mapv Part.zero s.parts (fun _ q => if q.active? then { q.discard with st := .faulted } else q) }

/-- INPUT_LOCKOUT: input below 38.0 V for 1 ms, or above 63.0 V (Table 18.1). -/
def execInputLockout (mV : Nat) (s : State) : Out :=
  if mV < 38000 ∨ 63000 < mV then
    let s := s.setBus mV
    ok ({ s with pwr := { s.pwr with lockout := true }, seqr := { s.seqr with lockout := true } }).allOff
  else ok s

/-- CLIP_DET_OPEN: with any domain on, SUPPLY_UV is raised and every domain goes off (R527). -/
def execClipDetOpen (s : State) : Out :=
  let s := { s with io := { s.io with clip := false } }
  if s.pwr.dom = 0 then ok s
  else
    let s := s.jobFault 0xB0 s.timeScope locHub (250 * s.pwr.busV) 0
    ok ({ s with pwr := { s.pwr with lockout := true }, seqr := { s.seqr with clip := true, lockout := true } }).allOff

end Sys2Proof.Machine
end

