-- ==== Sys2Proof/Machine/Plan.lean ====
section
/-! DEFINITION. The plan cycle and the boundaries of plan time: frames, steps, bodies, epochs, a job's zero; error records and
the fence (02_plan_and_time.md, 19_counters_and_faults.md). Each boundary command acts when its boundary is due and else does
nothing. -/

namespace Sys2Proof.Machine

/-! ### Error records (R497, R498, R503, R544) -/

/-- LEVEL of a record (R544). -/
def levelOf (cause unit : Nat) : Nat :=
  if cause ≤ 0x2F then 1
  else if cause ≤ 0x36 then 2
  else if cause ≤ 0x65 then 3
  else if cause ≤ 0xB6 then 4
  else if unit / 4096 = 1 then 1
  else if unit / 4096 = 2 then 2
  else if unit / 4096 = 5 then (if cause = 0xC5 ∨ cause = 0xC1 then 3 else 4)
  else 3

/-- The record of a raise, without its INDEX. -/
def State.recOf (s : State) (r : Raise) : ErrRec :=
  let act := r.parts.filter (fun p => (s.part p).active?)
  let cls := match r.cls with
    | .event => 3
    | .partition => if act.isEmpty then 3 else 1
    | .job => if act.isEmpty then 3 else 2
  let p := match r.parts with
    | [p] => p
    | _ => 0xFF
  let q := s.part p
  let t := q.planTime + r.cycle - s.cycle
  { index := 0, hallNs := s.hallNs, cause := r.code, cls, part := p, level := levelOf r.code r.unit, unit := r.unit, rep := 0
    stepNo := if p = 0xFF then 0 else q.stepNo
    frame := if p = 0xFF then s.tf else t / 1024
    offset := if p = 0xFF then 0 else (t - 1024 * q.stepStart) % 2 ^ 32
    job := if p = 0xFF then 0 else q.jb.job, d0 := r.d0, d1 := r.d1 }

/-- Write one record; records from index `since` on are of the same frame, and one of the same cause, unit and partition takes
the raise in its REPEAT. -/
def State.record (s : State) (since : Nat) (r : Raise) : State :=
  let e := s.recOf r
  let same (x : ErrRec) : Bool := decide (since ≤ x.index ∧ x.cause = e.cause ∧ x.unit = e.unit ∧ x.part = e.part)
  let bump (x : ErrRec) : ErrRec := if same x then { x with rep := min 65535 (x.rep + 1) } else x
  if s.errs.any same then { s with errs := s.errs.map bump, flashErr := s.flashErr.map bump }
  else
    let e := { e with index := s.errNext }
    let keep := if e.cls = 3 then s.flashErr else (s.flashErr ++ [e]).drop (s.flashErr.length + 1 - 1024)
    { s with errs := (s.errs ++ [e]).drop (s.errs.length + 1 - 16384), flashErr := keep, errNext := s.errNext + 1
             pFaults := if e.cls = 1 then s.pFaults + 1 else s.pFaults
             jFaults := if e.cls = 2 then s.jFaults + 1 else s.jFaults }

def State.recordAll (s : State) (l : List Raise) : State := l.foldl (fun s' r => s'.record s.errNext r) s

/-! ### The fence (R382, R501, R502) -/

/-- What raises against partition `p` amount to: whether one is a job fault, and the first cause. -/
def faultOf (l : List Raise) (p : Nat) : Option (Bool × Nat) :=
  let mine := l.filter (fun r => decide (r.cls ≠ .event) && r.parts.contains p)
  match mine with
  | [] => none
  | r :: _ => some (mine.any (fun r => decide (r.cls = .job)), r.code)

/-- Nothing is in flight in a cell. -/
def Cell.quiet (x : Cell) : Cell :=
  { x with pend := [], macc := [], port := [], wlines := [], tagSets := [], mma := [], accOut := [], maddx := [], mclr := []
           loop := none, divFree := 0, vecFree := 0, wleFree := 0, arrFree := 0, accFree := 0 }

/-- The partition's units issue nothing further and its traffic ends. -/
def State.quietPart (s : State) (p : Nat) : State :=
  let mine (h : Hop) : Bool := decide (h.beat.sb.part.toNat = p)
  { s with
    cells := mapv Cell.zero s.cells (fun c x => if s.cellOwner c = some p then x.quiet else x)
    blocks := mapv Block.zero s.blocks (fun _ b =>
      let b := { b with rin := b.rin.filter (fun h => !mine h) }
      if b.owner = some p then
        { b with xin := [], xout := [], barrow0 := { b.barrow0 with moves := [], busy := 0 }, barrow1 := { b.barrow1 with moves := [], busy := 0 } }
      else b)
    stks := mapv Stack.zero s.stks (fun _ y =>
      { y with arrive := y.arrive.filter (fun h => !mine h), rets := y.rets.filter (fun r => decide (r.beat.sb.part.toNat ≠ p))
               opens := y.opens.filter (fun e => decide (e.1 / 16 ≠ p)) })
    cold := { s.cold with arrive := s.cold.arrive.filter (fun h => !mine h)
                          rets := s.cold.rets.filter (fun r => decide (r.beat.sb.part.toNat ≠ p))
                          opens := s.cold.opens.filter (fun e => decide (e.1 / 16 ≠ p)) } }

/-- Fence partition `p` for the faults `f` of the frame that ends. `tail`: they were raised in the settle tail, so the step
commits (R382). -/
def State.fencePart (s : State) (p : Nat) (f : Bool × Nat) (tail : Bool) : State :=
  let q := s.part p
  if !q.active? then s
  else
    let s1 := if q.st = .armed then s else if tail then s.commit p else s.onPart p Part.discard
    let s2 := (s1.onPart p (fun q => { q with st := .faulted, fenceAt := none })).quietPart p
    s2.event (if f.1 then 0x04 else 0x03) p [f.2, q.stepNo]

/-- The fence of the faults `l` of the frame that ends; a partition whose step ends at this boundary is fenced by its step
boundary, at order 1 and 2 of Table 2.7. -/
def State.fence (s : State) (l : List Raise) : State :=
  allParts.foldl (fun s p =>
    match faultOf l p with
    | none => s
    | some f =>
      let q := s.part p
      if s.running p && decide (q.planTime = 1024 * q.stepStop) then s.onPart p (fun q => { q with fenceAt := some f })
      else s.fencePart p f (q.inTail (q.planTime / 1024 - 1))) s

/-! ### FRAME_BOUNDARY (R34, R205, R249, R333, R364, R500 to R502) -/

def hotNext (hot : Bool) (t : Int) : Bool := if 85 < t then true else if t ≤ 80 then false else hot

/-- The time unit passes a frame boundary of the hall grid (R356). -/
def TimeU.advance (t : TimeU) : TimeU :=
  if t.j + 1 < 10 - t.gust then { t with j := t.j + 1 }
  else { t with mark := t.mark + 10, j := 0, prevGust := t.gust, votes := t.votes.filter (fun v => decide (t.mark + 10 ≤ v.mark)) }

/-- The vote latch of frame V, and the root's decisions (R364, R392). -/
def State.voteFrame (s : State) : State :=
  let (h, t) := s.voteTree
  let s := match s.tu.voteMark with
    | none => s
    | some m =>
      if s.tu.votes.any (fun v => decide (v.mark = m)) then s
      else { s with tu := { s.tu with votes := s.tu.votes ++ [{ mark := m, frm := s.frm, req := s.gustReq, dec := none, lost := false }] } }
  if t.depth ≠ 0 then s
  else
    let s := { s with tu := { s.tu with votes := s.tu.votes.map (fun (v : Vote) => if v.frm + 5 * h = s.frm then { v with dec := some v.req } else v) } }
    { s with parts := mapv Part.zero s.parts (fun _ (q : Part) =>
        if q.jb.rotV = some (s.frm - 5 * h) ∧ 5 * h ≤ s.frm then { q with jb := { q.jb with rotAgreed := some q.jb.rotVal } } else q) }

/-- The slots of the frame that begins are divided among the partitions as they stand now (R335). -/
def State.divide (s : State) : State :=
  { s with ports := mapv Port.zero s.ports (fun i x => { x with act := s.activeParts, lay := s.bootLayers i }) }

/-- Ports, with an event for each change of STATE. -/
def State.portsFrame (s : State) : State :=
  (List.range 12).foldl (fun s i =>
    let x := s.port i
    let y := x.atFrame s.tf
    let s := s.onPort i (fun _ => y)
    if y.st = x.st then s else s.event 0x07 0xFF [i, if y.st = .up then 4 else 5]) s

/-- FRAME_BOUNDARY: once per frame, in its first cycle. -/
def execFrameBoundary (s : State) : Out :=
  if s.fcyc ≠ 0 ∨ s.frm < s.frameNo then ok s
  else
    let now := s.raised.filter (fun r => !r.ending && decide (r.cycle < s.cycle))
    let s1 := { s with raised := s.raised.filter (fun r => r.ending || decide (s.cycle ≤ r.cycle)) }.recordAll now
    let s2 := { s1 with
      tu := if s1.cycle = 0 then s1.tu else s1.tu.advance
      wallAt := if s1.cycle = 0 then s1.wallAt else s1.wallAt + 1024 * (25200 / (10 - s1.tu.gust))
      frameNo := s1.frm + 1 }.count locHub 0x401 1
    let s3 := { s2 with
      pwr := { s2.pwr with capW := s2.pwr.capNext.getD s2.pwr.capW, capNext := none }
      stks := mapv Stack.zero s2.stks (fun _ y => { y with hot := hotNext y.hot y.tempC })
      cold := { s2.cold with hot := hotNext s2.cold.hot s2.cold.tempC }
      parts := mapv Part.zero s2.parts (fun _ (q : Part) => if q.st = PState.running then { q with planFrame := q.planTime / 1024 } else q) }
    let s4 := ((s3.portsFrame.voteFrame.setCore).fence now).divide
    let s5 := if now.any (fun r => decide (0xB0 ≤ r.code ∧ r.code ≤ 0xB6)) then s4.event 0x08 0xFF [] else s4
    ok s5.tripDoms

/-! ### Epochs (R26 to R29, R169) -/

/-- The barrows of the partition's blocks stand at the first descriptor of their segment (R169). -/
def State.resetBarrows (s : State) (p : Nat) : State :=
  let q := s.part p
  (s.ownBlocks p).foldl (fun s b =>
    let seg (w : Nat) : SegE := match (q.barrowTbl (s.block b).vblock w q.ver).getLast? with
      | none => {}
      | some t => look {} t.segs q.seg
    let at' (y : Barrow) (e : SegE) : Barrow :=
      { y with cursor := if e.n = 0 then none else some e.first, stop := e.first + e.n, iter := 0 }
    s.onBlock b (fun x => { x with barrow0 := at' x.barrow0 (seg 0), barrow1 := at' x.barrow1 (seg 1) })) s

/-- Epoch index `i` of the step begins at the present frame; the epoch number rises by 1 (R27). -/
def Part.newEpoch (p : Part) (i : Nat) : Part :=
  { p with prevSeg := some (p.seg, p.epochStart), epoch := p.epoch + 1, epochIdx := i, epochStart := p.planTime / 1024 }

/-! ### Banks (R76 to R78) -/

/-- The bank switch of a partition: the load that still writes the bank is refused (R76); when the bank is not VALID in every code
cell, BANK_INVALID is raised in every code cell and none issues from it (R78, Table 3.16). -/
def State.switchBank (s : State) (p : Nat) : State :=
  let k := !(s.part p).bankAct
  let s1 := s.onPart p (fun q => { q with bankAct := k, switches := q.switches + 1 })
  let s2 := match (s1.part p).bankLoad with
    | none => s1
    | some l =>
      if l.bank = k then (s1.post? l.hdr 0x0302 0x0B (acceptRecord (s1.part p).binding)).onPart p (fun q => { q with bankLoad := none, bankStatus := .failed }) else s1
  let cs := s2.codeCells p
  if cs.all (fun c => ((s2.cell c).bank k).valid) then s2
  else cs.foldl (fun s c => s.cellFault c 0x08 0 (cellD1 (s.cell c).pc k 0 0)) s2

/-- The plan names a bank switch at epoch boundary `i` of the step (R76 to R78; the image's encoding of it is log entry 65). -/
def Part.switchNamed (p : Part) (i : Nat) : Bool := (p.kind p.stepKind).switchAt.contains i

/-- The bank switch of epoch boundary `i`: one that the plan names, or at the body boundary one that the window consumed. -/
def State.switchAt (s : State) (p i : Nat) (record : Bool) : State :=
  if (s.part p).switchNamed i || record then s.switchBank p else s

/-! ### Steps (R30 to R35, R62, R70, R141, R235) -/

/-- A cell in the boundary cycle of a step: registers and matrix state cleared, at the entry for the step's kind (R62, R70,
R141, R549). -/
def Cell.begin (x : Cell) (t kind : Nat) (bank code : Bool) : Cell :=
  let x := x.quiet
  { x with g := [], p := [], v := [], ag := [], lc := [], acc := [], wb0 := {}, wb1 := {}, fault := none
           pc := look 0 (x.bank bank).entry kind, stepEnd := !code, issueFree := t }

/-- The merge-buffer lines that a partition leases read zero (R235). -/
def State.clearMerge (s : State) (p : Nat) : State :=
  let q := s.part p
  { s with stks := mapv Stack.zero s.stks (fun k y =>
      { y with
        rets := y.rets.filter (fun r => !(r.merge && decide (r.due < s.cycle) && decide (r.beat.sb.part.toNat = p)))
        chans := mapv StkChan.zero y.chans (fun ch c =>
          { c with mbuf := c.mbuf.filter (fun e => !q.leases.any (fun l =>
              decide (l.res = 4) && decide (q.bindStack (l.unit / 16) = k ∧ l.unit % 16 = ch ∧ l.first ≤ e.1 ∧ e.1 ≤ l.first + l.count))) }) }) }

/-- Orders 4 to 6 of Table 2.7 and what the cells do in the boundary cycle, for a partition whose position is set. -/
def State.beginStep (s : State) (p : Nat) : State :=
  let t := s.hallNs
  let s1 := s.onPart p (fun q => ({ q with stepEpoch := q.epoch, fenceAt := none }.showFlags t).snapshot)
  let q := s1.part p
  let one (b : Nat) (m : SMap Cell) (i : Nat) : SMap Cell :=
    let x := s1.block b
    let code := match indexOf x.map i with
      | some k => x.codePos.getLsbD k
      | none => false
    upd Cell.zero m (32 * b + i) (fun y =>
      if code || decide (y ≠ Cell.zero) then y.begin s1.cycle q.stepKind q.bankAct code else y)
  let cs := (s1.ownBlocks p).foldl (fun m b => (List.range 18).foldl (one b) m) s1.cells
  let s2 : State := { s1 with cells := cs }
  (s2.clearMerge p).resetBarrows p

/-- The stop requests that apply at this boundary: a record of the step that ends, a soft prune, a teardown (R387, R393). -/
def Part.stopsNow (p : Part) : Bool :=
  p.stopReq.isSome || (match p.jb.stopAt with
    | some n => decide (n ≤ p.stepNo + 1)
    | none => false) || (match p.jb.teardown with
    | some f => decide (f + 320 ≤ p.planTime / 1024)
    | none => false)

/-- STEP_BOUNDARY: the actions of Table 2.7 for partition `p`. -/
def execStepBoundary (p : Nat) (s : State) : Out :=
  let q := s.part p
  if !s.running p ∨ q.planTime ≠ 1024 * q.stepStop then ok s
  else
    let s1 := if q.multi then s else s.endChecks p true
    let mine (r : Raise) : Bool := r.ending && r.parts.contains p
    let l := s1.raised.filter mine
    let s2 := { s1 with raised := s1.raised.filter (fun r => !mine r) }.recordAll l
    match faultOf l p, q.fenceAt with
    | some f, none => ok (s2.fencePart p f false).divide
    | some _, some g => ok (s2.fencePart p g false).divide
    | none, some g => ok (s2.fencePart p g (q.inTail (q.planTime / 1024 - 1))).divide
    | none, none =>
      let s3 := s2.commit p
      if (s3.part p).stopsNow then
        ok ((s3.onPart p (fun q => { q with st := .stopped, stopReq := none })).quietPart p).divide
      else
        let s4 := s3.onPart p (fun q =>
          let pos := (q.cyclePos + 1) % q.cycleLen
          { q.newEpoch 0 with stepNo := q.stepNo + 1, cyclePos := pos, stepKind := q.kindAt pos, stepStart := q.planTime / 1024 })
        ok ((s4.switchAt p 0 false).beginStep p)

/-! ### BODY_BOUNDARY, EPOCH_BOUNDARY (R29, R40, R43, R77, R244, R245) -/

/-- Order 5 of R43: the held rotation record of this step flips ACTIVE, or in a job of more than one module that was not ready
is discarded as STALE. The outcome is kept with the record, for a replay (R245). -/
def Part.rotate (p : Part) : Part :=
  match p.pendRot with
  | none => p
  | some (k, n) =>
    if n ≠ p.stepNo then p
    else
      let flip := p.rotReady k
      let e : RecEntry := { seq := k, slot := none, kind := 5, out := if flip then .applied else .stale }
      let es := p.win.entries.filter (fun x => decide (x.seq < k)) ++ e :: p.win.entries.filter (fun x => decide (k < x.seq))
      { p with pendRot := none, win := { p.win with entries := es }, jb := { p.jb with rotKept := some (k, flip) }
               active := if flip then !p.active else p.active, held := p.held || flip }

/-- BODY_BOUNDARY: frame H of the step. -/
def execBodyBoundary (p : Nat) (s : State) : Out :=
  let q := s.part p
  if !s.running p ∨ q.epochIdx ≠ 0 ∨ q.planTime ≠ 1024 * (q.stepStart + (q.kind q.stepKind).window) then ok s
  else
    let s1 := s.onPart p (fun q => ((q.newEpoch 1).slotEffects.rotate).takeParts)
    ok ((s1.switchAt p 1 q.win.bankRec.isSome).resetBarrows p)

/-- EPOCH_BOUNDARY: a boundary that the step kind names within the body (R26, R32). -/
def execEpochBoundary (p : Nat) (s : State) : Out :=
  let q := s.part p
  match q.epochIdx, (q.kind q.stepKind).epochAt[q.epochIdx - 1]? with
  | i + 1, some f =>
    if !s.running p ∨ q.planTime ≠ 1024 * (q.stepStart + f) then ok s
    else ok (((s.onPart p (fun q => q.newEpoch (i + 2))).switchAt p (i + 2) false).resetBarrows p)
  | _, _ => ok s

/-! ### JOB_ZERO (R25, R27, R362, R391) -/

/-- A partition takes up plan time: at 0, or at the frame, step and epoch of its resumption. -/
def Part.start (p : Part) : Part :=
  let (f, n, e) := p.jb.resume.getD (0, 0, 0)
  let pos := n % p.cycleLen
  { p.save with st := .running, planTime := 1024 * f, planFrame := f, stepNo := n, cyclePos := pos, stepKind := p.kindAt pos
                stepStart := f, epoch := BitVec.ofNat 16 e, epochIdx := 0, epochStart := f, prevSeg := none, stopReq := none
                jb := { p.jb with startMark := none, resume := none, rampFrom := f, stopAt := none, teardown := none } }

/-- JOB_ZERO: at a mark, every ARMED partition that starts or resumes there. One that is not at gust step 5 with hall time
LOCKED raises ZERO_MISS and does not start; the fence of the next frame boundary makes its STATE 0x4 (R362, R369). -/
def execJobZero (s : State) : Out :=
  if s.fcyc ≠ 0 ∨ s.tu.j ≠ 0 then ok s
  else
    ok (allParts.foldl (fun s p =>
      let q := s.part p
      match q.jb.startMark with
      | none => s
      | some m =>
        if q.st ≠ .armed ∨ s.tu.mark < m then s
        else if m = s.tu.mark ∧ s.tu.gust = 5 ∧ s.tu.hall = .locked then ((s.onPart p Part.start).switchAt p 0 false).beginStep p
        else
          (s.jobFault 0x96 [p] locHub s.tu.alignErr.natAbs m).onPart p (fun q => { q with jb := { q.jb with startMark := none } })) s)

/-! ### SEQUENCER_ENTRY (R21, R23, R329, R349, R490 to R493, R547) -/

/-- A cell whose fault of this cycle is ECC_UNCORRECTABLE is retired (R177). -/
def State.retireCells (s : State) : State :=
  (s.raised.filter (fun r => decide (r.code = 0x09 ∧ r.cycle = s.cycle ∧ r.unit / 4096 = 1))).foldl (fun s r =>
    s.retireCell (r.unit % 4096) 0x09) s

/-- In a job of more than one module the end-of-step checks fall in the last cycle before the settle tail (R73, R197); they are made
as that cycle begins, when its effects are still due. -/
def State.tailChecks (s : State) (p : Nat) : State :=
  let q := s.part p
  if s.running p && q.multi && decide (q.planTime + 1 = 1024 * (q.stepStop - q.settle)) then s.endChecks p false else s

/-- SEQUENCER_ENTRY: the plan cycle ends and the next begins; an instruction load in progress takes its next line. `lags` lists the islands whose lag is not 0. -/
def execSequencerEntry (lags : List (Nat × Nat)) (s : State) : Out :=
  let s2 := s.weightReads.unitSpend.pumpAll
  let s3 := lags.foldl State.lagCheck s2
  let s4 : State := { s3 with counters := mapv Counter.zero s3.counters (fun k c => s3.tickCounter lags (k / 32) c) }
  let s5 := if s4.fcyc = 0 then (List.range 95).foldl (fun s i => s.onIsland i (fun y => { y with lag := min 255 (lagOf lags i) })) s4
    else s4
  let s6 : State := { s5.retireCells with
    cycle := s5.cycle + 1, freeCtr := s5.freeCtr + 1
    parts := mapv Part.zero s5.parts (fun _ (q : Part) => if q.st = PState.running then { q with planTime := q.planTime + 1 } else q) }
  ok (allParts.foldl (fun s p => (s.loadStep p).tailChecks p) s6)

end Sys2Proof.Machine
end

