-- ==== Sys2Proof/Machine/Sieve.lean ====
section
/-! DEFINITION. The Sieve (15_plan_image_and_sieve.md): the checks of Table 15.9. What a
check needs of the schedule of a whole step is found by the dry run (Machine/DryRun.lean); what the image, the binding and the
snapshot show directly is here. -/

namespace Sys2Proof.Machine

/-- A failure of a check: SECTION (noSec: header, directory or none), ITEM, DETAIL1, DETAIL2. -/
structure Fail where
  sec  : Nat
  item : Nat
  d1   : Nat := 0
  d2   : Nat := 0
  deriving DecidableEq, Repr

/-- A reject record (Table 15.10); check 0 accepts. -/
structure Verdict where
  check : Nat
  x     : Nat
  at'   : Fail
  deriving DecidableEq, Repr

def noSec : Nat := 0xFFFFFFFF

/-- The failure `f` unless `c` holds. -/
def need (c : Bool) (f : Fail) : Option Fail := if c then none else some f

/-- The first failure of a list of checks. -/
def firstOf (l : List (Option Fail)) : Option Fail := l.findSome? id

/-- `a` is reported before `b` (R409). -/
def Fail.before (a b : Fail) : Bool :=
  let k (f : Fail) : Nat := if f.sec = noSec then 0 else f.sec + 1
  decide (k a < k b ∨ (k a = k b ∧ a.item ≤ b.item))

/-- The failure of a list that is reported. -/
def worst (l : List Fail) : Option Fail :=
  l.foldl (fun b f => match b with
    | none => some f
    | some g => some (if g.before f then g else f)) none

/-- Sections with their directory index. -/
def idxOf (img : PlanImage) : List (Nat × Section) := (List.range img.secs.length).zip img.secs

/-! ### 0x01 SIGNATURE (R398, R407) -/

def State.signed (s : State) (p : Nat) (img : PlanImage) : Bool :=
  img.sigOk && (s.part p).sx.tenants.any (fun e => decide (e.2 = img.hdr.signer)) && img.secs.all sectionOk

/-! ### 0x02 FORMAT (Tables 15.1 to 15.7, R399, R401, R556) -/

def need0 (c : Bool) (item : Nat) : Option Fail := need c { sec := noSec, item }

/-- The header (Table 15.1). -/
def headerFail (h : ImgHeader) (kind n : Nat) : Option Fail :=
  firstOf [
    need0 (decide (h.format = 0x49545031)) 0x000, need0 (decide (h.kind = kind)) 0x004,
    need0 (decide (h.mode = 1 ∨ h.mode = 2)) 0x005,
    need0 (decide (if h.mode = 1 then 1 ≤ h.grade ∧ h.grade ≤ 3 else h.grade = 0)) 0x006,
    need0 (decide (1 ≤ h.stepKinds ∧ h.stepKinds ≤ 8)) 0x007, need0 (decide (1 ≤ h.cycleLen ∧ h.cycleLen ≤ 16)) 0x008,
    need0 (decide (1 ≤ h.drain ∧ h.drain ≤ 64)) 0x009, need0 (decide (h.settle ≤ 255)) 0x00A, need0 (decide (h.diameter ≤ 42)) 0x00B,
    need0 ((List.range 16).all (fun i => decide (if i < h.cycleLen then h.stepCycle.getD i 0 < h.stepKinds else h.stepCycle.getD i 0 = 0)) &&
      (List.range h.stepKinds).all (fun k => (h.stepCycle.take h.cycleLen).contains k)) 0x00C,
    need0 (decide (h.gustH ≤ 6)) 0x018, need0 (decide (if h.mode = 1 then h.vregions = 0 else h.vregions < 16)) 0x019,
    need0 (decide (1 ≤ h.envelopeW ∧ h.envelopeW ≤ 3000)) 0x01A,
    need0 (decide (1 ≤ h.sections ∧ h.sections ≤ 1048575 ∧ h.sections = n)) 0x01C,
    need0 (decide (kind = 2 ∨ h.parent = 0)) 0x028, need0 h.tailZero 0x080]

/-- UNIT and SUB of a section type (Table 15.4). -/
def unitOk (ty u : Nat) : Bool :=
  if ty = 2 ∨ ty = 3 ∨ ty = 4 ∨ ty = 5 then decide (u < 64)
  else if ty = 6 ∨ ty = 7 then decide (u < 12)
  else decide (u = 0xFFFF)

def subOk (ty x : Nat) : Bool :=
  if ty = 2 then decide (x % 256 < 16 ∧ x / 256 < 2)
  else if ty = 4 ∨ ty = 7 ∨ ty = 8 then decide (x < 2)
  else if ty = 6 then decide (x < 16)
  else decide (x = 0)

/-- First byte after header, directory and signature. -/
def dataStart (h : ImgHeader) : Nat := 512 + 64 * h.sections + 2420

/-- A directory entry (Table 15.3), at byte offset `o`; `prev` are the entries before it. -/
def entryFail (h : ImgHeader) (o : Nat) (x : Section) (prev : List Section) : Option Fail :=
  let clear (y : Section) : Bool := decide (x.off + x.bytes ≤ y.off ∨ y.off + y.bytes ≤ x.off)
  firstOf [
    need0 (if h.kind = 2 then decide (x.type = 2) else decide (1 ≤ x.type ∧ x.type ≤ 13)) o, need0 x.zero (o + 2),
    need0 (decide (x.position = 0xFFFF ∨ x.position ≤ h.positions)) (o + 4),
    need0 (decide (x.variant = 0xFFFF ∨ (3 ≤ x.type ∧ x.type ≤ 8 ∧ x.variant ≤ h.positions))) (o + 6),
    need0 (unitOk x.type x.unit) (o + 8), need0 (subOk x.type x.sub) (o + 10),
    need0 (decide (x.off % 256 = 0 ∧ dataStart h ≤ x.off ∧ x.off + x.bytes ≤ h.imageBytes) && prev.all clear) (o + 16)]

/-- The directory. -/
def dirFail (h : ImgHeader) : Nat → List Section → List Section → Option Fail
  | _, _, [] => none
  | o, prev, x :: xs =>
    match entryFail h o x prev with
    | some f => some f
    | none => dirFail h (o + 64) (prev ++ [x]) xs

/-- The first further boundary `i` that is out of order, outside the body, or less than DRAIN after the one before it; the
last boundary also breaks where fewer than DRAIN frames follow it. -/
def gapFail (drain last : Nat) : Nat → Nat → List Nat → Option Nat
  | i, a, [] => if a + drain ≤ last then none else some (i - 1)
  | i, a, b :: bs => if a < b ∧ a + drain ≤ b ∧ b < last then gapFail drain last (i + 1) b bs else some i

/-- A step kind (Table 15.2, R399): the byte within its entry that breaks. -/
def stepFail (h : ImgHeader) (k : StepKindE) : Option Nat :=
  let len := k.length + 1
  if k.length = 0 ∨ 2 ^ 32 ≤ k.length ∨ len < k.window + h.settle then some 0
  else if k.window = 0 ∨ 64 < k.window ∨ k.window < h.drain then some 4
  else if 14 < k.epochAt.length then some 5
  else if !k.zero then some 6
  else (gapFail h.drain len 0 k.window k.epochAt).map (fun i => 8 + 4 * i)

/-- Rows below a capacity, runs and segment entries within theirs (Table 7.8, R187, R313). -/
def tblFail {α : Type} (t : Tbl α) (rows runs unit : Nat) : Bool :=
  t.rows.any (fun e => decide (rows ≤ e.1)) || decide (runs < t.runs.length) ||
  t.segs.any (fun e => decide (128 ≤ e.1 ∨ t.runs.length < e.2.first + e.2.n)) ||
  t.runs.any (fun r => decide (rows < (r.first + r.count + 1) * unit))

/-- A lease entry (Table 15.5, R556). -/
def leaseOk (l : LeaseE) : Bool :=
  let last := l.first + l.count
  l.zero && decide (l.use ≤ 6) &&
  (match l.res with
   | 1 => decide (l.unit < 64 ∧ (l.chan < 8 ∨ (12 ≤ l.chan ∧ l.chan < 20)) ∧ last ≤ 1023)
   | 2 => decide (l.unit < 12 ∧ l.chan < 16 ∧ last ≤ 383)
   | 3 => decide (l.unit < 16 ∧ l.chan = 0 ∧ last ≤ 152)
   | 4 => decide (l.unit < 192 ∧ l.chan = 0 ∧ last ≤ 127)
   | 5 => decide (l.unit < 12 ∧ l.chan = 0 ∧ last ≤ 383)
   | 6 => decide (l.unit < 12 ∧ l.chan = 0 ∧ last ≤ 383)
   | _ => false)

/-- An address-map entry (Table 15.6). -/
def mapOk (e : MapE) : Bool :=
  decide (e.first ≤ e.last) &&
  (match e.kind with
   | 1 => decide (e.aux < 12 ∧ e.second = 0 ∧ e.last ≤ 0x3F0)
   | 2 => decide (e.aux = 0 ∧ e.second = 0)
   | 3 => decide (e.aux = 0 ∧ e.second = 0 ∧ e.last ≤ 0x3F0)
   | 4 => decide (e.aux = 0 ∧ e.second = 0 ∧ e.last ≤ 1024)
   | 5 => decide (e.aux < 65536 ∧ e.second < 4 ∧ e.last ≤ 0x3F0)
   | 6 => decide ((e.aux = 1 ∨ e.aux = 2) ∧ e.second = 0)
   | 7 => decide ((e.aux = 1 ∨ e.aux = 2) ∧ e.second = 0)
   | 8 => decide ((e.aux = 1 ∨ e.aux = 2) ∧ e.second = 0)
   | 9 => decide (e.aux < 2)
   | 10 => decide (e.aux = 0 ∧ e.second = 0 ∧ e.first = 0)
   | _ => false)

/-- The SERVING section (Tables 15.7, 10.5): the byte that breaks. -/
def servingFail (e : ServingE) : Option Nat :=
  let bad : List (Bool × Nat) := [
    (decide (1 ≤ e.slots ∧ e.slots ≤ 4096), 0), (decide (e.specMax ≤ 16), 2), (decide (1 ≤ e.tokLines ∧ e.tokLines ≤ 64), 3),
    (decide (1 ≤ e.pagesMax ∧ e.pagesMax ≤ 16384), 4), (decide (1 ≤ e.outLines ∧ e.outLines ≤ 256), 6),
    (decide (1 ≤ e.kvGroups ∧ e.kvGroups ≤ 65535), 8), (decide (e.tokCap ≤ e.slots), 10), (decide (e.editCap ≤ e.slots), 12),
    (decide (1 ≤ e.kvPages ∧ e.kvPages ≤ 2 ^ 24), 16), (decide (e.kvBase % 16384 = 0), 24), (decide (e.winBase % 2 ^ 30 = 0), 32),
    (decide (e.groups ≤ 16), 40)]
  let first (j : Nat) : Nat := e.groupFirst.getD j 0
  let groupBad (j : Nat) : Bool :=
    if j = 0 ∨ e.groups ≤ j then decide (first j ≠ 0) else decide (first j ≤ first (j - 1) ∨ e.slots ≤ first j)
  match bad.find? (fun b => !b.1) with
  | some b => some b.2
  | none => ((List.range 16).find? groupBad).map (fun j => 48 + 2 * j)

/-- The byte at which a section's data breaks its table. -/
def dataFail (h : ImgHeader) (x : Section) : Option Nat :=
  let bad (b : Bool) : Option Nat := if b then some 0 else none
  match x.type, x.data with
  | 1, .steps l =>
    if l.length ≠ h.stepKinds then some (64 * min l.length h.stepKinds)
    else ((List.range l.length).zip l).findSome? (fun e => (stepFail h e.2).map (fun o => 64 * e.1 + o))
  | 2, .cellCode words entry =>
    if x.bytes ≠ 65792 ∨ words.any (fun e => decide (8192 ≤ e.1)) then some 0
    else ((List.range entry.length).zip entry).findSome? (fun e => if e.2 < 8192 ∧ e.1 < 8 then none else some (65536 + 2 * e.1))
  | 3, .blockTrellis a b => bad (tblFail a 4096 1024 1 || tblFail b 4096 1024 1)
  | 4, .barrows a b =>
    let t (t : Tbl Desc) : Bool := t.rows.any (fun e => decide (2048 ≤ e.1)) ||
      t.segs.any (fun e => decide (128 ≤ e.1 ∨ 2048 < e.2.first + e.2.n))
    bad (t a || t b)
  | 5, .router a b => bad (tblFail a 16384 4096 1 || tblFail b 16384 4096 1)
  | 6, .merge a b => bad (tblFail a 16384 4096 1 || tblFail b 16384 4096 1)
  | 7, .port budget a b => if 4096 ≤ budget then some 0 else bad (tblFail a 16384 4096 384 || tblFail b 16384 4096 384)
  | 8, .routes r => (r.find? (fun e => decide (65536 ≤ e.1 ∨ 4096 ≤ e.2.toNat))).map (fun e => 2 * e.1)
  | 9, .leases l => ((List.range l.length).zip l).findSome? (fun e => if leaseOk e.2 then none else some (8 * e.1))
  | 10, .addressMap l => ((List.range l.length).zip l).findSome? (fun e => if mapOk e.2 then none else some (32 * e.1))
  | 11, .serving e => servingFail e
  | 12, .peers l =>
    if l.length ≠ 12 then some 0
    else ((List.range 12).zip l).findSome? (fun e => match e.2 with
      | none => none
      | some q => if q.rank ≤ h.positions ∧ q.part < 16 then none else some (4 * e.1))
  | 13, .tree t =>
    if 6 < t.depth ∨ h.gustH < t.depth then some 0
    else if ¬(t.voteParent = 0xF ∨ t.voteParent < 12) ∨ (t.voteParent = 0xF ∧ t.depth ≠ 0) ∨ (t.voteParent ≠ 0xF ∧ t.depth = 0) then some 1
    else if 4096 ≤ t.voteChildren.toNat then some 2
    else if ¬(t.seedParent = 0xF ∨ t.seedParent < 12) then some 4
    else if 4096 ≤ t.seedChildren.toNat then some 5
    else none
  | _, _ => some 0

def formatFail (img : PlanImage) (kind : Nat) : Option Fail :=
  firstOf [headerFail img.hdr kind img.secs.length, dirFail img.hdr 512 [] img.secs,
    need0 (decide (kind = 2) || img.secs.any (fun x => decide (x.type = 1))) 0x01C,
    (idxOf img).findSome? (fun e => (dataFail img.hdr e.2).map (fun o => { sec := e.1, item := o }))]

/-! ### What an image uses (R179, R402) -/

/-- The sections that rank `r` installs, with their directory index. -/
def mineOf (img : PlanImage) (r : Nat) : List (Nat × Section) :=
  (idxOf img).filter (fun e => decide (e.2.position = 0xFFFF ∨ e.2.position = r))

def descsOf (x : Section) : List Desc :=
  match x.data with
  | .barrows a b => (a.rows ++ b.rows).map (·.2)
  | _ => []

def blockRowsOf (x : Section) : List (BitVec 128) :=
  match x.data with
  | .blockTrellis a b => (a.rows ++ b.rows).map (·.2)
  | _ => []

/-- A descriptor whose destination is a block. -/
def toBlock (d : Desc) : Bool := decide (d.dstKind = 0 ∨ d.dstKind = 1 ∨ d.dstKind = 4)

/-- Virtual blocks used. -/
def usedBlocks (l : List Section) : List Nat :=
  let ds := l.foldl (fun a x => a ++ descsOf x) []
  (List.range 64).filter (fun v => l.any (fun x => decide ((x.type = 2 ∨ x.type = 3 ∨ x.type = 4) ∧ x.unit = v)) ||
    ds.any (fun d => toBlock d && decide (d.dblock.toNat = v)))

/-- A block trellis row names plan position `k` as an input or drives its output. -/
def rowNames (r : BitVec 128) (k : Nat) : Bool :=
  decide (bits r.toNat (5 * k) 5 ≠ 0x1F) || (List.range 24).any (fun o => decide (bits r.toNat (5 * o) 5 = k))

/-- Position `k` of virtual block `v` is used. -/
def usesPos (l : List Section) (v k : Nat) : Bool :=
  l.any (fun x =>
    (decide (x.unit = v) && (decide (x.type = 2 ∧ x.sub % 16 = k) || (blockRowsOf x).any (fun r => rowNames r k) ||
      (descsOf x).any (fun d => decide (d.srcKind = 0 ∧ d.spos.toNat = k)))) ||
    (descsOf x).any (fun d => decide ((d.dstKind = 0 ∨ d.dstKind = 4) ∧ d.dblock.toNat = v) && d.dmask.getLsbD k))

/-- Code positions of virtual block `v` (R549). -/
def codePos (l : List Section) (v : Nat) : BitVec 16 :=
  BitVec.ofNat 16 ((List.range 16).foldl (fun a k =>
    if l.any (fun x => decide (x.type = 2 ∧ x.unit = v ∧ x.sub = k)) then a + 2 ^ k else a) 0)

def usedPos (l : List Section) (v : Nat) : BitVec 16 :=
  BitVec.ofNat 16 ((List.range 16).foldl (fun a k => if usesPos l v k then a + 2 ^ k else a) 0)

def leasesOf (l : List Section) : List LeaseE := l.foldl (fun a x => match x.data with
  | .leases e => a ++ e
  | _ => a) []

def treeOf (l : List Section) : TreeE := (l.findSome? (fun x => match x.data with
  | .tree t => some t
  | _ => none)).getD {}

/-! ### 0x03 ENGINES, 0x04 MAPPING (R5, R177, R179, R351, R402, R403) -/

/-- A block not fused off. -/
def State.enginePresent (s : State) (b : Nat) : Bool := !s.fuses.fused.getLsbD b

/-- The blocks that a section of a fixed image names: its own, and the destinations of its descriptors. -/
def blocksNamed (x : Section) : List Nat :=
  (if x.type = 2 ∨ x.type = 3 ∨ x.type = 4 then [x.unit] else []) ++ ((descsOf x).filter toBlock).map (fun d => d.dblock.toNat)

/-- The stacks whose merge units a section needs: a MERGE section, or leases of merge buffer lines. -/
def mergersNamed (x : Section) : List Nat :=
  (if x.type = 6 then [x.unit] else []) ++ ((leasesOf [x]).filter (fun l => decide (l.res = 4))).map (fun l => l.unit / 16)

/-- Absent engines: fused blocks of a fixed image, whose virtual blocks are the physical ones, and merge units of a grade that
has none. -/
def State.enginesFail (s : State) (img : PlanImage) (r : Nat) : Option Fail :=
  worst ((mineOf img r).foldl (fun a e => a ++
    (((if img.hdr.mode = 1 then (blocksNamed e.2).filter (fun v => !s.enginePresent v) else []) ++
      (if s.fuses.grade = 3 then mergersNamed e.2 else [])).map (fun u => { sec := e.1, item := u }))) [])

/-- Cells of a block that are not retired. -/
def State.goodCells (s : State) (b : Nat) : List Nat :=
  (List.range 18).filter (fun c => !(look 0#18 s.retired b).getLsbD c)

/-- The block is in a region under self-calibration, whose units count as FAILED (R516). -/
def State.selfcalRegion (s : State) (r : Nat) : Bool := decide (s.boot.selfcal = some (true, r))

def State.islandFailed (s : State) (i : Nat) : Bool :=
  (s.island i).failed ||
    (if i < 64 then s.selfcalRegion (i / 16) else if i < 68 then s.selfcalRegion (i - 64)
     else if i < 80 then s.selfcalRegion ((i - 68) / 3) else if i < 92 then decide (s.boot.selfcal = some (false, i - 80)) else false)

/-- Islands that the image uses under binding `x`: its blocks, their regions' meshes and those of its router leases, the stacks
of its address map, its ports, and the hub. -/
def islandsOf (l : List Section) (x : Nat) : List Nat :=
  let bs := (usedBlocks l).map (fun v => 16 * (Nat.xor (v / 16) x) + v % 16)
  let rs := (List.range 4).filter (fun r => bs.any (fun b => decide (b / 16 = r)) ||
    (leasesOf l).any (fun e => decide (e.res = 1 ∧ Nat.xor (e.unit / 16) x = r)))
  let ks := (List.range 12).filter (fun k => (mapsOf l).any (fun e => decide (e.kind = 1 ∧ 3 * Nat.xor (e.aux / 3) x + e.aux % 3 = k)))
  let ps := (List.range 12).filter (fun i => l.any (fun y => decide (y.type = 7 ∧ y.unit = i)))
  bs ++ rs.map (· + 64) ++ ks.map (· + 68) ++ ps.map (· + 80) ++ [92, 93, 94]

/-- The virtual block at which binding `x` is not admissible: of a stack lease that lies elsewhere the block of the stack's
interface, and 0 where no block is at fault (log entry 44). -/
def State.bindFail (s : State) (p : Nat) (img : PlanImage) (x : Nat) : Option Nat :=
  let q := s.part p
  let l := (mineOf img q.rank).map (·.2)
  let phys (v : Nat) : Nat := 16 * (Nat.xor (v / 16) x) + v % 16
  let bad (v : Nat) : Bool :=
    !s.enginePresent (phys v) || decide ((s.block (phys v)).owner ≠ some p) ||
      (List.range 16).any (fun k => decide ((s.goodCells (phys v)).length ≤ k) && usesPos l v k)
  if img.hdr.mode = 1 ∧ x ≠ 0 then some 0
  else
    match (usedBlocks l).find? bad with
    | some v => some v
    | none =>
      let ports := l.any (fun y => decide (y.type = 7)) || (leasesOf l).any (fun e => decide (e.res = 5 ∨ e.res = 6))
      let stackBad := (mapsOf l).find? (fun e => decide (e.kind = 1) && (List.range (e.last - e.first)).any (fun j =>
        match q.entry .stack (e.first + j) false with
        | none => true
        | some loc => decide (loc.unit ≠ 3 * Nat.xor (e.aux / 3) x + e.aux % 3)))
      if ports && decide (x ≠ 0) then some 0
      else
        match stackBad with
        | some e => some (stackBlock e.aux)
        | none =>
          match (islandsOf l x).find? s.islandFailed with
          | none => none
          | some i => some (if i < 64 then phys i else 0)

/-- The bindings tried for the parameter `x` of the command (R403); a fixed image admits only 0. -/
def bindings (img : PlanImage) (x : Nat) : List Nat :=
  if x ≠ 0xFF then [x] else if img.hdr.mode = 1 then [0] else [0, 1, 2, 3]

/-- The binding, or the failure with the binding tried last. -/
def State.bind (s : State) (p : Nat) (img : PlanImage) (x : Nat) : Nat × Option Fail :=
  let l := bindings img x
  let mask := l.foldl (fun a y => a + 2 ^ y) 0
  if img.hdr.mode = 1 ∧ img.hdr.grade ≠ s.fuses.grade then (0, some { sec := noSec, item := 0, d1 := mask })
  else
    match l.find? (fun y => (s.bindFail p img y).isNone) with
    | some y => (y, none)
    | none =>
      let y := l.getLast?.getD x
      (y % 4, some { sec := noSec, item := (s.bindFail p img y).getD 0, d1 := mask })

/-! ### 0x05 ENCODING (R83, R112, R168, R182, R314, R548) -/

/-- The first illegal instruction of a bank: a word, or a LOOP.C whose body breaks R112. -/
def codeFail (words : SMap Word) : Option (Nat × Nat) :=
  let k : Bank := { words := words }
  (words.find? (fun e => !wordLegal e.2 ||
    (decide (opcOf e.2 = 0x24) &&
      (match cellInstr 0 e.2 .ok with
       | some (.loopC _ f) => decide (8190 < e.1 + f.body.toNat) || bodyBad k e.1 (f.body.toNat + 1)
       | _ => false)))).map (fun e => (e.1, e.2.toNat))

/-- A descriptor holds assigned codes and no other value where Table 7.3 wants zero (R168, R169). -/
def descOk (d : Desc) : Bool :=
  decide (d.srcKind.toNat ≤ 3 ∧ d.dstKind.toNat ≤ 5 ∧ d.rsv0 = 0 ∧ d.rsv1 = 0 ∧ d.rsv2 = 0) &&
  decide (d.dstKind = 0 ∨ d.dstKind = 4 ∨ d.dmask = 0) &&
  decide (d.dstKind ≠ 5 ∨ (d.dstInc = 0 ∧ d.dst.toNat % 16 < 12))

/-- A block trellis row of an image (Table 7.2, R548). -/
def blockRowOk (r : BitVec 128) : Bool :=
  let w := r.toNat
  decide (bits w 124 4 = 0 ∧ bits w 120 2 = 0 ∧ bits w 80 5 = 0x1F ∧ bits w 85 5 = 0x1F) &&
  (List.range 24).all (fun o =>
    let c := bits w (5 * o) 5
    decide (c < 0x10 ∨ (0x12 ≤ c ∧ c ≤ 0x17) ∨ c = 0x1F))

/-- An input or output of a router exists at its position: a link where there is a neighbour, an attachment channel. -/
def chanExists (b o : Nat) : Bool :=
  if o < 8 then (neighbour b o).isSome else if o < 12 then true else decide (o - 12 < attachChans (attachOf b))

/-- A router row (Table 7.6, R182) at virtual block `v`, whose position has the channels of its physical block. -/
def routerRowOk (v : Nat) (r : BitVec 128) : Bool :=
  let w := r.toNat
  decide (bits w 100 28 = 0) &&
  (List.range 20).all (fun o =>
    let c := bits w (5 * o) 5
    decide (c = 0x1F) || (decide (c < 0x14) && chanExists v o && chanExists v c))

/-- A merge trellis row (Table 9.5). -/
def mergeRowOk (r : BitVec 32) : Bool :=
  let w := r.toNat
  let f := bits w 27 4
  let li := bits w 17 7
  decide (bits w 0 10 = 0) &&
  (decide (bits w 31 1 = 0) ||
    (decide (f = 1 ∨ (4 ≤ f ∧ f ≤ 8)) && decide (f ≠ 7 ∧ f ≠ 8 ∨ bits w 26 1 = 0) && decide (bits w 10 7 + bits w 24 2 + 1 ≤ 128) &&
      decide (li < 32 ∨ (f ≠ 1 ∧ li < 64) ∨ f = 7 ∨ f = 8)))

/-- A transmit or receive row (Tables 12.1, 12.2, R314). -/
def portRowOk (dir : Nat) (r : BitVec 32) : Bool :=
  let w := r.toNat
  let c := bits w 29 3
  decide (bits w 0 16 = 0) &&
  (if dir = 0 then decide (c ≤ 4) && (if c = 4 then decide (bits w 25 4 < 12 ∧ bits w 16 9 < 384) else decide (bits w 16 13 = 0))
   else decide (c ≤ 3) && decide (c = 1 ∨ bits w 16 13 = 0))

/-- The first row of a table that breaks `f`, the low 64 bits of its word as DETAIL1. -/
def rowFail {α : Type} (t : Tbl α) (f : α → Bool) (w : α → Nat) : Option (Nat × Nat) :=
  match t.rows.find? (fun e => !f e.2) with
  | some e => some (e.1, w e.2 % 2 ^ 64)
  | none => (((List.range t.runs.length).zip t.runs).find? (fun e => decide (e.2.rsv ≠ 0))).map (fun e => (e.1, e.2.rsv))

def secEncoding (x : Section) : Option (Nat × Nat) :=
  let two {α : Type} (a b : Tbl α) (f : α → Bool) (w : α → Nat) : Option (Nat × Nat) :=
    match rowFail a f w with
    | some e => some e
    | none => rowFail b f w
  match x.data with
  | .cellCode words _ => codeFail words
  | .barrows a b => two a b descOk descWord0
  | .blockTrellis a b => two a b blockRowOk (·.toNat)
  | .router a b => two a b (routerRowOk x.unit) (·.toNat)
  | .merge a b => two a b mergeRowOk (·.toNat)
  | .port _ a b => two a b (portRowOk x.sub) (·.toNat)
  | _ => none

def encodingFail (img : PlanImage) : Option Fail :=
  (idxOf img).findSome? (fun e => (secEncoding e.2).map (fun r => { sec := e.1, item := r.1, d1 := r.2 }))

/-! ### 0x09 BANKS, 0x0A ADDRESS (R402, R549) -/

/-- CELL_CODE in bank 1 but not in bank 0, for any position of the job. -/
def banksFail (img : PlanImage) : Option Fail :=
  ((idxOf img).find? (fun e => decide (e.2.type = 2 ∧ e.2.sub / 256 = 1) && !img.secs.any (fun y =>
    decide (y.type = 2 ∧ y.unit = e.2.unit ∧ y.sub = e.2.sub % 256 ∧ (y.position = 0xFFFF ∨ y.position = e.2.position))))).map
    (fun e => { sec := e.1, item := 0, d1 := 0, d2 := 1 })

/-- A pool index that no STACK_USED entry names, or a window area or pool outside the partition's leases. -/
def State.addressFail (s : State) (p : Nat) (img : PlanImage) : Option Fail :=
  let q := s.part p
  let l := (mineOf img q.rank).map (·.2)
  let maps := mapsOf l
  let used (i : Nat) : Bool := maps.any (fun e => decide (e.kind = 1 ∧ e.first ≤ i ∧ i < e.last))
  let pool := maps.findSome? (fun e => if e.kind = 5 then
    ((List.range (e.last - e.first)).find? (fun j => !used (e.first + j))).map (fun j => e.first + j) else none)
  let sec := ((mineOf img q.rank).find? (fun e => decide (e.2.type = 10))).map (·.1)
  match pool with
  | some i => some { sec := sec.getD noSec, item := 0, d1 := i * 2 ^ 30 }
  | none =>
    match servingOf l with
    | none => none
    | some e =>
      let size := obBase e 1 + obStride e * e.slots - e.winBase
      let is := (List.range ((e.winBase + size - 1) / 2 ^ 30 - e.winBase / 2 ^ 30 + 1)).map (fun j => e.winBase / 2 ^ 30 + j)
      (is.find? (fun i => (q.entry .cold i false).isNone || q.landLeases.contains i)).map (fun i =>
        { sec := ((mineOf img q.rank).find? (fun y => decide (y.2.type = 11))).elim noSec (·.1), item := 0, d1 := i * 2 ^ 30 })

/-! ### 0x0B LEASES (R188, R195, R249) -/

/-- A lease entry with its unit made physical under binding `x`. -/
def physLease (x : Nat) (l : LeaseE) : LeaseE :=
  let st (k : Nat) : Nat := 3 * Nat.xor (k / 3) x + k % 3
  match l.res with
  | 1 => { l with unit := 16 * (Nat.xor (l.unit / 16) x) + l.unit % 16 }
  | 2 => { l with unit := st l.unit }
  | 4 => { l with unit := 16 * st (l.unit / 16) + l.unit % 16 }
  | _ => l

/-- Two ranges meet. -/
def rangesMeet (a b : LeaseE) : Bool := decide (a.first ≤ b.first + b.count ∧ b.first ≤ a.first + a.count)

/-- A router lease on an attachment channel toward a stack meets a lease of its burst slots. -/
def burstMeet (r k : LeaseE) : Bool :=
  decide (r.res = 1 ∧ k.res = 2 ∧ 12 ≤ r.chan ∧ r.chan < 18 ∧ stackAt r.unit = some k.unit) &&
  (List.range (r.count + 1)).any (fun j =>
    let (c, i) := burstAt (r.first + j) (r.chan - 12)
    decide (c = k.chan ∧ k.first ≤ i ∧ i ≤ k.first + k.count))

def leasesMeet (a b : LeaseE) : Bool :=
  (decide (a.res = b.res ∧ a.unit = b.unit ∧ a.chan = b.chan) && rangesMeet a b) || burstMeet a b || burstMeet b a

/-- A lease that reaches a reserved window (R195, R249). -/
def inWindow (l : LeaseE) : Bool :=
  match l.res with
  | 1 => decide (12 ≤ l.chan ∧ l.chan < 18) && (stackAt l.unit).isSome && (List.range (l.count + 1)).any (fun j =>
      let (c, i) := burstAt (l.first + j) (l.chan - 12)
      decide (24 * c ≤ i ∧ i < 24 * c + 12))
  | 2 => decide (l.first < 24 * l.chan + 12 ∧ 24 * l.chan ≤ l.first + l.count)
  | 3 => decide (l.first < 9 * l.unit + 6 ∧ 9 * l.unit ≤ l.first + l.count)
  | _ => false

/-- The leases that a partition holds, physical. -/
def Part.physLeases (p : Part) : List LeaseE := if p.holds then p.leases.map (physLease p.binding) else []

def State.leasesFail (s : State) (p : Nat) (img : PlanImage) (x : Nat) : Option Fail :=
  (mineOf img (s.part p).rank).findSome? (fun e =>
    match e.2.data with
    | .leases l => ((List.range l.length).zip l).findSome? (fun y =>
        let m := physLease x y.2
        if inWindow m then some { sec := e.1, item := y.1, d1 := 0xFF }
        else (allParts.find? (fun o => o != p && (s.part o).physLeases.any (leasesMeet m))).map (fun o =>
          { sec := e.1, item := y.1, d1 := o }))
    | _ => none)

/-! ### 0x0E LINK_BUDGET, 0x11 JOB, 0x12 GRAFT, 0x13 POWER, 0x14 FAILED -/

def State.budgetFail (s : State) (img : PlanImage) (r : Nat) : Option Fail :=
  (mineOf img r).findSome? (fun e =>
    match e.2.data with
    | .port b _ _ =>
      let x := s.port e.2.unit
      let lat := if e.2.sub = 0 then x.latTx else x.latRx
      let failed := decide (x.st = .failed ∨ s.boot.selfcal = some (false, e.2.unit))
      if failed || !decide (lat ≤ b ∧ b ≤ lat + 64 ∧ b ≤ 4095) then some { sec := e.1, item := e.2.unit, d1 := b, d2 := lat } else none
    | _ => none)

/-- CHECKPOINT ranges of the two parities, and SHADOW. -/
def shadowFail (l : List MapE) (size : Nat) : Bool :=
  let cp := l.filter (fun e => decide (e.kind = 9))
  let sh := l.filter (fun e => decide (e.kind = 10))
  let ext := sh.foldl (fun m e => max m e.last) 0
  decide (size < ext) || cp.any (fun a => decide (ext < a.last) ||
    cp.any (fun b => decide (a.aux ≠ b.aux ∧ a.first < b.last ∧ b.first < a.last)))

def State.jobFail (s : State) (p : Nat) (img : PlanImage) : Option Fail :=
  let l := (mineOf img (s.part p).rank).map (·.2)
  let h := img.hdr
  let t := treeOf l
  let opens (i : Nat) : Bool := l.any (fun y => decide (y.type = 7 ∧ y.unit = i))
  let other := (s.activeParts.filter (fun o => o != p)).any (fun o =>
    match (s.part o).image with
    | none => false
    | some i =>
      let u := (s.part o).tree
      decide (i.hdr.gustGroup ≠ h.gustGroup ∨ i.hdr.gustH ≠ h.gustH ∨ u.depth ≠ t.depth ∨ u.voteParent ≠ t.voteParent ∨
        u.voteChildren ≠ t.voteChildren))
  let ports := (decide (t.voteParent ≠ 0xF) && !opens t.voteParent) ||
    (List.range 12).any (fun i => t.voteChildren.getLsbD i && !opens i)
  let settle := decide (1 ≤ h.positions ∧ h.settle < 6 * h.diameter + 2)
  need (!other && !ports && !settle && !shadowFail (mapsOf l) (s.shadow p).twinSize) { sec := noSec, item := 0 }

/-- Rows that a table section replaces, tagged by version. -/
def replaced (d : SecData) : List (Nat × Nat) :=
  let two {α : Type} (a b : Tbl α) : List (Nat × Nat) := a.rows.map (fun e => (0, e.1)) ++ b.rows.map (fun e => (1, e.1))
  match d with
  | .blockTrellis a b => two a b
  | .barrows a b => two a b
  | .router a b => two a b
  | .merge a b => two a b
  | .port _ a b => two a b
  | .routes r => r.map (fun e => (0, e.1))
  | _ => []

/-- Two variants of one position that replace the same row of one table (R401). -/
def graftFail (img : PlanImage) : Option Fail :=
  (idxOf img).findSome? (fun e =>
    if e.2.variant = 0xFFFF then none
    else
      let others := (img.secs.take e.1).filter (fun y =>
        decide (y.variant ≠ 0xFFFF ∧ y.variant ≠ e.2.variant ∧ y.type = e.2.type ∧ y.unit = e.2.unit ∧ y.sub = e.2.sub ∧
          (y.position = e.2.position ∨ y.position = 0xFFFF ∨ e.2.position = 0xFFFF)))
      ((replaced e.2.data).find? (fun r => others.any (fun y => (replaced y.data).contains r))).map (fun r =>
        { sec := e.1, item := e.2.variant, d1 := r.2 }))

/-- The energy in pJ of the events that a schedule places in one frame, every skippable entry counted as enabled: the largest of the
compute class, of the memory class and of all classes, with the frame of the last (R410). -/
structure PeakE where
  compute : Nat := 0
  memory  : Nat := 0
  total   : Nat := 0
  frame   : Nat := 0
  deriving DecidableEq, Repr

/-- Base draw that R477 charges the partition, by class, in tenths of a W × 1/300. -/
def State.planBase (s : State) (p c : Nat) : Nat :=
  let q := s.part p
  match c with
  | 0 => 36 * 300 * (s.ownBlocks p).length
  | 1 => (List.range 12).foldl (fun a k => a + 120 * 300 * q.leasesOn k / 64) 0
  | _ => (12 * 75 + 4 * 60 + 540) * 300 * q.pw.alloc / s.pwr.capW

/-- The Sieve's estimate over `estDen` of a frame's events with the base of the classes listed (R477). -/
def State.planEst (s : State) (p pj : Nat) (classes : List Nat) : Nat :=
  estNum 0 (2 * pj) (classes.foldl (fun a c => a + s.planBase p c) 0)

/-- Over `estDen` to whole watts, rounded to the nearest. -/
def toWatts (x : Nat) : Nat := (2 * x + estDen) / (2 * estDen)

def State.powerFail (s : State) (p : Nat) (img : PlanImage) (pk : PeakE) : Option Fail :=
  let e := s.planEst p pk.total [0, 1, 2]
  let v := img.hdr.envelopeW
  firstOf [need (decide (e ≤ v * estDen)) { sec := noSec, item := pk.frame, d1 := toWatts e, d2 := v },
    need (decide (v ≤ (s.part p).pw.alloc)) { sec := noSec, item := pk.frame, d1 := toWatts e, d2 := (s.part p).pw.alloc }]

/-- COMPUTE_W, MEMORY_W and LINK_W (R478). -/
def State.split (s : State) (p : Nat) (img : PlanImage) (pk : PeakE) : Nat × Nat × Nat :=
  let v := img.hdr.envelopeW
  let c := min v (toWatts (s.planEst p pk.compute [0]))
  let m := min (toWatts (s.planEst p pk.memory [1])) (v - c)
  (c, m, v - c - m)

/-- Physical stacks that the image uses: those of the leases it names, and of its burst slots and merge lines. -/
def State.stacksUsed (s : State) (p : Nat) (img : PlanImage) (x : Nat) : List Nat :=
  let q := s.part p
  let l := (mineOf img q.rank).map (·.2)
  let named := ((imageLeases l).filter (fun e => decide (e.1 = Tier.stack))).foldl (fun a e =>
    a ++ (q.entry .stack e.2 false).toList ++ (q.entry .stack e.2 true).toList) []
  (List.range 12).filter (fun k => named.any (fun loc => decide (loc.unit = k)) ||
    ((leasesOf l).map (physLease x)).any (fun e => decide ((e.res = 2 ∧ e.unit = k) ∨ (e.res = 4 ∧ e.unit / 16 = k))))

def State.failedFail (s : State) (p : Nat) (img : PlanImage) (x : Nat) : Option Fail :=
  let l := (mineOf img (s.part p).rank).map (·.2)
  match (s.stacksUsed p img x).find? (fun k => decide ((s.stack k).state = .failed) || s.selfcalRegion (k / 3)) with
  | some k => some { sec := noSec, item := k }
  | none =>
    if s.cold.state = .failed ∧ ((leasesOf l).any (fun e => decide (e.res = 3)) ∨ (imageLeases l).any (fun e => decide (e.1 = Tier.cold)))
    then some { sec := noSec, item := 0xFF }
    else none

end Sys2Proof.Machine
end

