-- ==== Sys2Proof/Machine/Place.lean ====
section
/-! DEFINITION. Code and mapping: which cell carries each position of a plan image and what its banks hold (R176, R405, R548, R549,
R555). -/

namespace Sys2Proof.Machine

/-- The code of a position in a bank: the plan section last loaded into the bank, else the image. -/
def Part.codeOf (p : Part) (bank : Bool) (v pos : Nat) : Option (SMap Word × List Nat) :=
  let is (x : Section) : Bool := decide (x.type = 2 ∧ x.unit = v ∧ x.sub = 256 * b2n bank + pos)
  let own := (if bank then p.bankCode1 else p.bankCode0).find? is
  match own with
  | some { data := .cellCode w e, .. } => some (w, e)
  | _ =>
    match p.base.find? is with
    | some { data := .cellCode w e, .. } => some (w, e)
    | _ => none

/-- VALID of the bank of the cell that carries a position. -/
def State.validAt (s : State) (p : Nat) (bank : Bool) (v pos : Nat) : Bool :=
  match s.cellAt p v pos with
  | none => false
  | some c => ((s.cell c).bank bank).valid

/-- Map the blocks of the partition for the image in it, and give every cell its banks. -/
def State.place (s : State) (p : Nat) (valid : Bool → Nat → Nat → Bool) : State :=
  let q := s.part p
  let l := q.base ++ q.variants
  (s.ownBlocks p).foldl (fun s b =>
    let v := q.bindBlock b
    let map := (s.goodCells b).take 16
    let bankOf (k : Bool) (pos : Nat) : Bank :=
      match q.codeOf k v pos with
      | none => {}
      | some (w, e) => codeBank w e (valid k v pos)
    let s1 := s.onBlock b (fun x =>
      { x with vblock := v, map, codePos := codePos q.base v, usedPos := usedPos l v
               barrow0 := {}, barrow1 := {} })
    (List.range 18).foldl (fun s c => s.onCell (32 * b + c) (fun y =>
      match indexOf map c with
      | none => { y with bank0 := {}, bank1 := {} }
      | some pos => { y with bank0 := bankOf false pos, bank1 := bankOf true pos })) s1) s

/-- Blocks of a partition without an image. -/
def State.unplace (s : State) (p : Nat) : State :=
  (s.ownBlocks p).foldl (fun s b =>
    (List.range 18).foldl (fun s c => s.onCell (32 * b + c) (fun y => { y with bank0 := {}, bank1 := {} }))
      (s.onBlock b (fun x => { x with map := [], codePos := 0, usedPos := 0, barrow0 := {}, barrow1 := {} }))) s

end Sys2Proof.Machine
end

