-- ==== Sys2Proof/Machine/DryRun.lean ====
section
/-! DEFINITION. The Sieve's dry run (R408 to R411): one step of a plan image on a module that holds nothing but the image, the binding
and the snapshot, cycle by cycle through the same operations as a running plan, with what the checks of Table 15.9 find on the way (log
entry 30). -/

namespace Sys2Proof.Machine

/-- One run: the cycle position whose kind runs and the epoch number at its start, the entry of a FLIP range and set of a rotated range in
force, the bank in force and whether the window switches banks, the graft selection, and whether every skippable entry is enabled. -/
structure DryCase where
  pos    : Nat
  epoch  : Nat
  sel    : Bool
  bank   : Bool
  swap   : Bool
  graft  : BitVec 16
  on     : Bool
  deriving DecidableEq, Repr

/-- A run in progress: the module, what is not derivable in its cells, the failures found with their checks, the merge buffer lines
fetched (stack, channel, line, attachment cycle), the lines written, the cells and block-store ports written in this cycle at a line that
another module gives, the writes made (step offset, store, address; for R337), and the energy of the frame. -/
structure Dry where
  s       : State
  p       : Nat
  secs    : List (Nat × Section)
  marks   : SMap Marks := []
  fails   : List (Nat × Fail) := []
  fetched : List (Nat × Nat × Nat × Nat) := []
  wrote   : List (Tier × Nat) := []
  cwild   : List Nat := []
  bwild   : List (Nat × Nat) := []
  trace   : List (Nat × Nat × Nat) := []
  peaks   : PeakE := {}
  deriving DecidableEq, Repr

def Dry.q (d : Dry) : Part := d.s.part d.p
def Dry.off (d : Dry) : Nat := d.q.offset
def Dry.kind (d : Dry) : Nat := d.q.stepKind
def Dry.fail (d : Dry) (check : Nat) (f : Fail) : Dry := { d with fails := d.fails ++ [(check, f)] }

/-- Directory index of the base section of a type, unit and sub. -/
def Dry.sec (d : Dry) (ty unit sub : Nat) : Nat :=
  ((d.secs.find? (fun e => decide (e.2.type = ty ∧ e.2.unit = unit ∧ e.2.sub = sub ∧ e.2.variant = 0xFFFF))).map (·.1)).getD noSec

/-- The sideband that stands for a beat whose sideband another module gives. -/
def markerSb (p : Nat) : Sb := { part := BitVec.ofNat 4 p, kind := 1, dkind := 3, dblock := 63, dmask := 0xFFFF, line := 0 }

/-- The lease entry of the image that covers a unit for whatever use, and its holder for a failure: another partition that holds it, the
partition itself for another use, or nobody (Table 15.9, check 0x0B). -/
def Dry.leaseFail (d : Dry) (own : LeaseE → Bool) (holder : Option Nat) : Fail :=
  let i := (((List.range d.q.leases.length).zip d.q.leases).find? (fun e => own e.2)).map (·.1)
  { sec := d.sec 9 0xFFFF 0, item := i.getD 0
    d1 := match holder with
      | some h => h
      | none => if i.isSome then d.p else 0xFF }

/-- The row number that a block's trellis plays now, and that its router layer plays. -/
def Dry.blockRowNo (d : Dry) (b : Nat) : Nat := (segRow (d.q.blockTbl (d.q.bindBlock b) d.q.ver) d.q.seg d.q.epochOff).getD 0
def Dry.routerRowNo (d : Dry) (b : Nat) : Nat := (segRow (d.q.routerTbl (d.q.bindBlock b) d.q.ver) d.q.seg d.q.epochOff).getD 0

/-- What a fault that a switch, a barrow or a memory raises shows (Table 15.9); `ty` is the section type of the rows at work. -/
def Dry.found (d : Dry) (ty : Nat) (r : Raise) : List (Nat × Fail) :=
  let b := r.unit % 4096
  let v := d.q.bindBlock b
  let out := r.d1 % 65536
  let unitTy := r.unit / 4096
  match r.code with
  | 0x30 => [(0x06, { sec := d.sec 4 v (out - 22), item := d.off, d1 := d.kind })]
  | 0x32 =>
    if ty = 3 then
      if r.d0 = (markerSb d.p).toNat then [] else [(0x0C, { sec := d.sec 3 v 0, item := d.blockRowNo b, d1 := v, d2 := b2n d.q.ver })]
    else if unitTy = 2 then [(0x0C, { sec := d.sec 5 v 0, item := d.routerRowNo b, d1 := v, d2 := b2n d.q.ver })]
    else [(0x0C, { sec := noSec, item := 0, d1 := 0, d2 := b2n d.q.ver })]
  | 0x33 =>
    if unitTy = 2 then
      [(0x0B, d.leaseFail (fun l => leaseCovers l 1 l.use v out d.s.fcyc) (if 8 ≤ out ∧ out ≤ 11 then none else d.s.outHolder b out d.s.fcyc))]
    else if unitTy = 4 then [(0x0B, d.leaseFail (fun l => slotLease b 5 ((slotAt d.s.fcyc).getD 0) l) none)]
    else [(0x0B, d.leaseFail (fun l => decide (l.res = 3)) none)]
  | 0x41 => [(0x0A, { sec := d.sec 10 0xFFFF 0, item := d.off, d1 := r.d0 })]
  | 0x61 => [(0x0A, { sec := d.sec 10 0xFFFF 0, item := d.off, d1 := r.d0 })]
  | 0x42 => [(0x0D, { sec := d.sec 9 0xFFFF 0, item := bits r.d1 8 8, d1 := r.d1 % 256, d2 := r.d1 / 2 ^ 16 })]
  | 0x62 => [(0x0D, { sec := d.sec 9 0xFFFF 0, item := bits r.d1 8 8, d1 := r.d1 % 256, d2 := r.d1 / 2 ^ 16 })]
  | _ => []

/-- Run one operation and note what it raises. -/
def Dry.run (d : Dry) (ty : Nat) (o : Out) : Dry :=
  match o with
  | .next s => { d with s := { s with raised := [] }, fails := d.fails ++ s.raised.foldl (fun a r => a ++ d.found ty r) [] }
  | _ => d

/-! ### Beats from other modules (R316 to R320) -/

/-- The slot of port `i` whose flits are delivered in this cycle, with its launch frame and the epoch bit of flits launched then. -/
def Dry.inbound (d : Dry) (i : Nat) : Option (Nat × Nat × Bool) :=
  match d.q.budget i 1 with
  | none => none
  | some b =>
    let x := d.q.planTime - b
    match slotAt (x % 1024) with
    | none => none
    | some n => if d.q.leases? 6 0 i 0 n then some (n, x / 1024, if d.q.epochStart ≤ x / 1024 then d.q.ver else !d.q.ver) else none

/-- The receive row of a flit forwards it to port `k`: the forward row at d + 60 must be its own (R320). -/
def Dry.forwardOk (d : Dry) (i n k : Nat) (e : Bool) : Bool :=
  let c := d.q.planTime + 60
  match slotAt (c % 1024) with
  | none => false
  | some m =>
    match d.q.portRow k 0 m (c / 1024) (c / 1024) e with
    | none => false
    | some r => d.q.leases? 5 0 k 0 m && decide (rowClass r = 4 ∧ bits r.toNat 25 4 = i ∧ bits r.toNat 16 9 = n)

/-- Port `i` presents what other modules launched for this cycle, and forwards it. -/
def Dry.portIn (d : Dry) (i : Nat) : Dry :=
  match d.inbound i with
  | none => d
  | some (n, f, e) =>
    match d.q.portRow i 1 n f (d.q.planTime / 1024) e with
    | none => d
    | some r =>
      if rowClass r ≠ 1 then d
      else
        let s1 := d.s.spend 15 (some d.p) 1
        let beat : Beat := { sb := markerSb d.p, data := 0 }
        let s2 := if r.getLsbD 28 then s1.onBlock (portBlock i) (fun y => { y with rin := y.rin ++
          [{ cyc := s1.cycle, port := 12, beat }, { cyc := s1.cycle, port := 13, beat }] }) else s1
        let fl : Flit := { typ := 1, epoch := e, check := 0, lo := 0, hi := 0 }
        let mask := bits r.toNat 16 12
        let bad := (List.range 12).any (fun k => bit mask k && !d.forwardOk i n k e)
        let d1 := { d with s := s2.forward i mask { due := s2.cycle, frm := f, slot := n, flit := fl } }
        if bad then d1.fail 0x0C { sec := d.sec 7 i 1, item := n, d1 := i, d2 := b2n e } else d1

/-! ### Ports out (R313, R380) -/

/-- The step is in its settle tail. -/
def Dry.tail (d : Dry) : Bool := d.q.inTail (d.q.planTime / 1024)
def Dry.tailFail (d : Dry) : Dry := d.fail 0x11 { sec := noSec, item := d.kind }

def Dry.portOut (d : Dry) (i : Nat) : Dry :=
  let x := d.s.port i
  let flits := x.outBeats.any (fun h => decide (h.cyc = d.s.cycle)) || x.fwd.any (fun f => decide (f.due = d.s.cycle))
  let d1 := if d.tail && flits then d.tailFail else d
  d1.run 7 (execSlotTransmit i .ok [] d.s)

/-! ### The mesh of one block -/

/-- The cells and block-store ports that beats of other modules write. -/
def Dry.markBeats (d : Dry) (b : Nat) : Dry :=
  let due := (d.s.block b).xout.filter (fun h => decide (h.cyc ≤ d.s.cycle ∧ h.beat.sb = markerSb d.p))
  let cs := (due.filter (fun h => decide (h.port < 18))).map (fun h => 32 * b + h.port)
  let bs := (due.filter (fun h => decide (22 ≤ h.port))).map (fun h => (b, h.port - 22))
  let s1 := (cs.foldl (fun s _ => s.spend 8 (some d.p) 1) d.s)
  { d with s := bs.foldl (fun s _ => s.spend 10 (some d.p) 1) s1, cwild := d.cwild ++ cs, bwild := d.bwild ++ bs }

/-- The GO of barrow `w` of block `b`: one that finds no descriptor (R169), and one whose addresses lie outside a store or a lease (R171). -/
def Dry.go (d : Dry) (b w : Nat) : Dry :=
  match d.s.blockRow b with
  | none => d
  | some row =>
    let v := d.q.bindBlock b
    let y := (d.s.block b).barrow w
    if !row.getLsbD (122 + w) then d
    else
      match y.cursor.bind (tblRow (d.q.barrowTbl v w d.q.ver)) with
      | none => d.fail 0x0C { sec := d.sec 3 v 0, item := d.blockRowNo b, d1 := v, d2 := b2n d.q.ver }
      | some e =>
        let n := e.lines.toNat + 1
        let a := srcAddr e y.iter 0
        let srcOk := match e.srcKind.toNat with
          | 0 => inStore a n csBytes
          | 1 => inStore a n bsSize
          | 2 => d.q.inLease .stack false a n
          | _ => d.q.inLease .cold false a n
        let d1 := if d.s.cycle < y.busy ∨ d.q.moveOk e y.iter then d
          else d.fail 0x0A { sec := d.sec 4 v w, item := d.off, d1 := (if srcOk then dstAddr e y.iter 0 else a).toNat }
        d1.run 4 (execBarrowGo b w .ok .ok .ok d.s)

/-! ### Stacks and the cold frame -/

/-- Lines of a carried-state range (R383). -/
def mapHas (e : MapE) (tier : Tier) (a : Nat) : Bool :=
  let t := if tier = .stack then 1 else 2
  decide (e.aux = t) && (if e.kind = 8 then decide (e.first ≤ a / 2 ^ 30 ∧ a / 2 ^ 30 < e.last) else decide (e.first ≤ a ∧ a < e.last))

/-- A write of the line at partition address `a`: carried state of kind FIXED, the window area but for its output buffers (R262), and in
the settle tail any carried state or output buffer (R380). -/
def Dry.write (d : Dry) (tier : Tier) (a : Nat) : Dry :=
  let f : Fail := { sec := d.sec 10 0xFFFF 0, item := d.off, d1 := a }
  let fixed := d.q.addrMap.any (fun e => decide (e.kind = 6) && mapHas e tier a)
  let win := match d.q.serving with
    | none => false
    | some e => decide (tier = .cold ∧ e.winBase ≤ a ∧ a < obBase e 0)
  let out := match d.q.serving with
    | none => false
    | some e => decide (tier = .cold ∧ obBase e 0 ≤ a ∧ a < obBase e 1 + obStride e * e.slots)
  let carried := d.q.addrMap.any (fun e => decide (6 ≤ e.kind ∧ e.kind ≤ 8) && mapHas e tier a)
  let d1 := { d with wrote := (tier, a / 256) :: d.wrote, trace := (d.off, if tier = .stack then 0x3000 else 0x3001, a) :: d.trace }
  let d2 := if fixed || win then d1.fail 0x0A f else d1
  if d.tail && (carried || out) then d2.tailFail else d2

/-- The records of a merged READ are in their buffer lines (R238). -/
def Dry.mergeOk (d : Dry) (k : Nat) (h : Hop) : Bool :=
  match d.s.mergeRow k h.cyc h.port with
  | none => true
  | some (_, r) =>
    let ch := (slotOf h.cyc h.port).ch
    (List.range (bits r.toNat 24 2 + 1)).all (fun i =>
      d.fetched.any (fun e => decide (e.1 = k ∧ e.2.1 = ch ∧ e.2.2.1 = (bits r.toNat 10 7 + i) % 128 ∧ e.2.2.2 + 72 < h.cyc)))

/-- The beats at stack `k` in this cycle, in turn. -/
def Dry.stackBeats (k : Nat) : Nat → Dry → Dry
  | 0, d => d
  | fuel + 1, d =>
    match takeHop (d.s.stack k).arrive d.s.cycle (fun _ => true) with
    | none => d
    | some (h, rest) =>
      let z := slotOf h.cyc h.port
      let d1 : Dry :=
        if h.beat.isReq 1 then
          if mergeRet k h.beat.req.ret then
            { d.run 6 (execMergeFetch k [] [] d.s) with fetched := (k, z.ch, h.beat.req.ret.line.toNat % 128, h.cyc) :: d.fetched }
          else if d.s.merges k h.cyc h.port then
            let d0 := if d.mergeOk k h then d else d.fail 0x0F { sec := d.sec 6 (d.q.bindStack k) z.ch, item := z.idx, d1 := z.ch }
            d0.run 6 (execMergedRead k [] .ok .ok [] d.s)
          else d.run 6 (execStackRead k [] [] d.s)
        else if h.beat.isReq 2 then d.run 6 (execStackWriteOpen k [] d.s)
        else if h.beat.sb.kind = 1 then
          let d0 := match look none (d.s.stack k).opens (openKey d.p z.ch) with
            | none => d
            | some o => d.write .stack (o.paddr + 256 * o.next)
          d0.run 6 (execStackWriteBeat k [] d.s)
        else { d with s := d.s.onStack k (fun y => { y with arrive := rest }) }
      Dry.stackBeats k fuel d1

/-- The beats of one cycle at the cold frame with their addresses. -/
def State.coldAddrs (s : State) : List Hop → List (Hop × Option Nat)
  | [] => []
  | h :: hs =>
    let s1 := match h.beat.coldAsk, s.coldOpen h.beat.sb.part.toNat h.cyc with
      | some .write, some (ch, o) => s.coldPlace h.beat.sb.part.toNat ch o
      | _, _ => s
    (h, s.coldAddr h) :: State.coldAddrs s1 hs

/-- The window area is read no earlier than WIN_READY (R262). -/
def Dry.coldRead (d : Dry) (a : Nat) : Dry :=
  match d.q.serving with
  | none => d
  | some e =>
    if e.winBase ≤ a ∧ a < obBase e 0 ∧ d.off < e.winReady then d.fail 0x0A { sec := d.sec 11 0xFFFF 0, item := d.off, d1 := a } else d

def Dry.coldBeats (d : Dry) : Dry :=
  let l := d.s.coldAddrs ((d.s.cold.arrive.filter (fun h => decide (h.cyc ≤ d.s.cycle))).filter (fun h => h.beat.forCold))
  let d1 := l.foldl (fun d e =>
    match e.1.beat.coldAsk, e.2 with
    | some (.read _), some a => d.coldRead a
    | some .write, some a => d.write .cold a
    | _, _ => d) d
  d1.run 12 (execColdRequest [] [] d.s)

/-! ### Cells -/

/-- The check that a cause of a cell belongs to (Tables 3.16, 15.9). -/
def causeCheck (code : Nat) : Nat :=
  if [0x04, 0x11, 0x21, 0x22].contains code then 0x06
  else if [0x05, 0x06, 0x07].contains code then 0x08
  else if [0x02, 0x03, 0x12, 0x20].contains code then 0x0A
  else if [0x08, 0x10].contains code then 0x09
  else 0

/-- A cause in cell `c`. After a bank switch in the step every cause but an address shows that the banks are not consistent at the switch
point. -/
def Dry.cause (d : Dry) (swapped : Bool) (c : Nat) (e : DryCause) : Dry :=
  let k := (d.s.posOf c).getD 0
  let v := d.q.bindBlock (blockOf c)
  let chk := causeCheck e.1
  if chk = 0 ∧ !swapped then d
  else if chk = 0x0A then d.fail 0x0A { sec := d.sec 2 v (256 * b2n d.q.bankAct + k), item := d.off, d1 := e.2 }
  else if swapped ∨ chk = 0x09 then d.fail 0x09 { sec := d.sec 2 v (256 * b2n d.q.bankAct + k), item := d.q.epochIdx, d1 := d.kind, d2 := b2n d.q.bankAct }
  else d.fail chk { sec := d.sec 2 v (256 * b2n d.q.bankAct + k), item := d.off, d1 := d.kind, d2 := k }

/-- The registers that a result writes: g by number, p from 32, v from 64 by lane, generators from 4,096 by field. -/
def resRegs (w : RegWrite) : List Nat :=
  match w with
  | .g r _ => if r = 0 then [] else [r]
  | .p l => (l.filter (fun e => decide (e.1 ≠ 0))).map (fun e => 32 + e.1)
  | .v r l => l.map (fun e => 64 + 64 * r + e.1)
  | .agSet a f _ => [4096 + 8 * a + f]
  | .agMove a _ => [4096 + 8 * a]

/-- A register on which results of two instructions land at the end of cycle `t` (R67). -/
def Cell.landClash (x : Cell) (t : Nat) : Option Nat :=
  let now := x.pend.filter (fun r => decide (r.due = t))
  now.findSome? (fun r => (resRegs r.w).find? (fun g =>
    now.any (fun q => decide (q.issued ≠ r.issued) && (resRegs q.w).contains g)))

/-- An address that two ports of the cell store write in cycle `t` (R61); a port that writes at an address that is not derivable meets
every other. -/
def Cell.writeClash (x : Cell) (t : Nat) (wild : List CsPort) : Option Nat :=
  let now := x.csw.filter (fun w => decide (w.cyc = t))
  let ports := (now.map (·.port) ++ wild).eraseDups
  if wild.any (fun a => ports.any (fun b => decide (b ≠ a))) then some 0
  else now.findSome? (fun w => (w.data.find? (fun e =>
    now.any (fun u => decide (u.port ≠ w.port) && u.data.any (fun g => decide (g.1 = e.1))))).map (·.1))

/-- The ports of cell `c` that write in this cycle at addresses that are not derivable. -/
def Dry.wildPorts (d : Dry) (c : Nat) (x : Cell) (k : Marks) : List CsPort :=
  let t := d.s.cycle
  let wr (o : PortOp) : Bool := match o.act with
    | .vst .. => true
    | .scatter .. => true
    | .accOut .. => true
    | _ => false
  (if d.cwild.contains c then [.xbar] else []) ++
    (if x.port.any (fun o => decide (o.next = t) && wr o && k.wild.contains o.issued) then [.vec] else []) ++
    (if x.macc.any (fun a => decide (a.due ≤ t) && a.en && a.store && a.cs && k.wild.contains a.issued) then [.scalar] else [])

/-- Cell `c` in this cycle: what landed before, its issue, its events, and the conflicts of the cycle. -/
def Dry.cell (d : Dry) (on swapped : Bool) (c : Nat) : Dry :=
  let t := d.s.cycle
  let k0 := look {} d.marks c
  let s0 := d.s.onCell c (fun x => x.settle t)
  let (s1, k1, notes) := s0.dryIssue c (k0.settle (d.s.cell c) t) on
  let wild := d.wildPorts c (s1.cell c) k1
  let (s2, k2) := dryEvents c (s1, k1)
  let d1 : Dry := { d with s := { s2 with raised := [] }, marks := put {} d.marks c k2 }
  let d2 := notes.foldl (fun d e => d.cause swapped c e) d1
  let kv := (d.s.posOf c).getD 0
  let sec := d.sec 2 (d.q.bindBlock (blockOf c)) (256 * b2n d.q.bankAct + kv)
  let d3 := match (s2.cell c).landClash t with
    | none => d2
    | some r => d2.fail 0x07 { sec, item := d.off, d1 := d.kind, d2 := r }
  let d4 := match (s2.cell c).writeClash t wild with
    | none => d3
    | some a => d3.fail 0x07 { sec, item := d.off, d1 := d.kind, d2 := a }
  let beats := (s2.cell c).csw.filter (fun w => decide (w.cyc = t) && decide (w.port = .xbar))
  let tr := if wild.contains .xbar then (d.off, c, 2 ^ 24) :: d4.trace else d4.trace
  { d4 with trace := beats.foldl (fun l w => (d.off, c, (w.data.head?.map (·.1)).getD 0) :: l) tr }

/-- A line of the block store that both barrow ports write in this cycle (R166). -/
def Dry.blockClash (d : Dry) (b : Nat) : Dry :=
  let now := (d.s.block b).bsw.filter (fun w => decide (w.cyc = d.s.cycle))
  let two := now.find? (fun w => now.any (fun u => decide (u.port ≠ w.port ∧ u.ea = w.ea)))
  let wild := (d.bwild.filter (fun e => decide (e.1 = b))).map (·.2)
  let hit := match two with
    | some w => some w.ea
    | none => if wild.any (fun a => now.any (fun u => decide (u.port ≠ a)) || wild.any (fun c => decide (c ≠ a))) then some 0 else none
  let d1 := { d with trace := now.foldl (fun l w => (d.off, 0x2000 + b, w.ea) :: l) (wild.foldl (fun l _ => (d.off, 0x2000 + b, 2 ^ 24) :: l) d.trace) }
  match hit with
  | none => d1
  | some a => d1.fail 0x07 { sec := d.sec 4 (d.q.bindBlock b) 1, item := d.off, d1 := d.kind, d2 := a }

/-! ### A cycle and a step -/

/-- Blocks whose routers a layer of the image may use: every block. -/
def dryBlocks : List Nat := List.range 64

/-- End of the step: every cell idle past STEPEND.C (R71, R73). -/
def Dry.stepChecks (d : Dry) (ending : Bool) : Dry :=
  let s1 := d.s.endChecks d.p ending
  let l := s1.raised.filter (fun r => decide (r.code = 0x06))
  l.foldl (fun d r => d.cause false (r.unit % 4096) (0x06, 0)) { d with s := { s1 with raised := [] } }

/-- Energy of the frame that ends. -/
def Dry.frameEnd (d : Dry) (frame : Nat) : Dry :=
  let e (c : Nat) : Nat := d.s.pjOf (fun k => decide (eventClass (k % 32) = c))
  let all := d.s.pjOf (fun _ => true)
  let y := d.peaks
  { d with s := { d.s with act := [] }
           peaks := { compute := max y.compute (e 0), memory := max y.memory (e 1), total := max y.total all
                      frame := if y.total < all then frame else y.frame } }

/-- What arrives in this cycle, and the switches. -/
def Dry.mesh (d : Dry) : Dry :=
  let d1 := (List.range 12).foldl (fun d k => d.run 6 (execStackDataReturn k d.s)) { d with cwild := [], bwild := [] }
  let d2 := (List.range 12).foldl (fun d i => d.portIn i) (d1.run 12 (execColdDataReturn d1.s))
  let d3 := dryBlocks.foldl (fun d b => let e := d.markBeats b; e.run 3 (execCrossbarBeatDelivery b [] e.s)) d2
  let d4 := dryBlocks.foldl (fun d b => d.run 5 (execRouterRow b [] [] d.s)) d3
  dryBlocks.foldl (fun d b => d.run 3 (execCrossbarRow b .ok d.s)) d4

/-- The barrows, the memories, the ports and the cells. -/
def Dry.units (d : Dry) (on swapped : Bool) : Dry :=
  let d1 := dryBlocks.foldl (fun d b => [0, 1].foldl (fun d w => let e := d.go b w; e.run 4 (execBarrowLine b w [] e.s)) d) d
  let d2 := (List.range 12).foldl (fun d k => Dry.stackBeats k (d.s.stack k).arrive.length d) d1
  let d3 := (List.range 12).foldl (fun d i => d.portOut i) d2.coldBeats
  let d4 := (d3.s.codeCells d.p).foldl (fun d c => d.cell on swapped c) d3
  dryBlocks.foldl (fun d b => d.blockClash b) d4

/-- The cycle ends. -/
def State.dryTick (s : State) (p : Nat) : State :=
  let s1 := s.unitSpend.onPart p (fun q => { q with planTime := q.planTime + 1 })
  { s1 with cycle := s1.cycle + 1, freeCtr := s1.freeCtr + 1, raised := [] }

/-- The epoch boundaries of the step; banks switch at a boundary that the plan names, and at the body boundary where the window consumed
a bank-switch record. -/
def Dry.boundaries (d : Dry) : Dry :=
  let n := d.q.switches
  let e := d.run 0 (execBodyBoundary d.p d.s)
  let e := e.run 0 (execEpochBoundary d.p e.s)
  if e.q.switches ≠ n then
    (e.s.codeCells d.p).foldl (fun d c => if (e.s.cell c).fault.isSome then d.cause true c (0x08, 0) else d) e
  else e

/-- In a job of more than one module the step's checks fall before its settle tail (R73). -/
def Dry.tailStart (d : Dry) : Dry :=
  if d.q.multi && decide (d.q.planTime + 1 = 1024 * (d.q.stepStop - d.q.settle)) then d.stepChecks false else d

/-- The next cycle begins. -/
def Dry.tick (d : Dry) : Dry :=
  let e := { d with s := d.s.dryTick d.p }
  if e.s.fcyc = 0 then e.frameEnd (d.q.planTime / 1024 - d.q.stepStart) else e

/-- One cycle of the run. -/
def Dry.cycle (d : Dry) (on : Bool) : Dry := ((d.tailStart.mesh.units on (decide (d.q.switches ≠ 0))).tick).boundaries

def Dry.cycles (on : Bool) : Nat → Dry → Dry
  | 0, d => d
  | n + 1, d => Dry.cycles on n (d.cycle on)

/-- The lines of a FLIP range that a step did not write (R383). -/
def Dry.flipChecks (d : Dry) : Dry :=
  d.q.addrMap.foldl (fun d e =>
    let tier := if e.aux = 1 then Tier.stack else Tier.cold
    let n := ((d.wrote.filter (fun w => decide (w.1 = tier) && mapHas e tier (256 * w.2))).map (·.2)).eraseDups.length
    if e.kind = 8 ∧ n < (e.last - e.first) * 2 ^ 22 then d.fail 0x0A { sec := d.sec 10 0xFFFF 0, item := d.off, d1 := e.first * 2 ^ 30 } else d) d

/-! ### The module of a run -/

/-- The image with every skippable move enabled. -/
def dryImage (img : PlanImage) : PlanImage :=
  let on (t : Tbl Desc) : Tbl Desc := { t with rows := t.rows.map (fun e => (e.1, { e.2 with pen := false })) }
  { img with secs := img.secs.map (fun x => { x with data := match x.data with
      | .barrows a b => .barrows (on a) (on b)
      | y => y }) }

/-- The image's partition as the run begins: position, epochs before, sets, banks and graft selection as the case says. -/
def Part.dry (q : Part) (img : PlanImage) (ax : Option Nat) (x : Nat) (keep : Bool) (c : DryCase) : Part :=
  let q := { q with
    image := some (dryImage img), axRole := ax, binding := x, graftSel := c.graft, jobSize := img.hdr.positions + 1, bankAct := c.bank
    bankCode0 := if keep then q.bankCode0 else [], bankCode1 := if keep then q.bankCode1 else [], bankLoad := none, slots := [], recs := []
    pendRot := none, replay := none, active := c.sel, fenceAt := none, stopReq := none, bundle := none }
  let kind := q.kindAt c.pos
  let pk := q.kindAt ((c.pos + q.cycleLen - 1) % q.cycleLen)
  let prev := q.kind pk
  let lastAt := (prev.epochAt.getLast?).getD prev.window
  let f := prev.length + 65
  { q with st := .running, cyclePos := c.pos, stepKind := kind, stepNo := if c.sel then 1 else 0, planTime := 1024 * f, planFrame := f
           stepStart := f, epoch := BitVec.ofNat 16 c.epoch, stepEpoch := BitVec.ofNat 16 c.epoch, epochIdx := 0, epochStart := f
           prevSeg := some (segKey pk (prev.epochAt.length + 1), f - (prev.length + 1 - lastAt))
           win := if c.swap then { bankRec := some 0 } else {} }

/-- The module of a run: the snapshot of R408 and nothing else. -/
def State.dryModule (s : State) (p : Nat) (img : PlanImage) (x : Nat) (keep : Bool) (c : DryCase) : State :=
  let me := (s.part p).dry img (s.part p).axRole x keep c
  let s0 : State := { State.reset with
    cycle := me.planTime, fuses := s.fuses, retired := s.retired, pwr := s.pwr
    blocks := mapv Block.zero s.blocks (fun _ b => { Block.zero with owner := b.owner })
    parts := mapv Part.zero s.parts (fun _ (q : Part) => if q.holds then { q with st := .staged } else q)
    ports := (List.range 12).foldl (fun m i => put Port.zero m i { Port.zero with st := .up, inSync := true, act := [p] }) []
    stks := (List.range 12).foldl (fun m k => put Stack.zero m k { Stack.zero with keys := put 0 [] p 1 }) [] }
  let s1 := { s0 with cold := { s0.cold with keys := put 0 [] p 1 } }.onPart p (fun _ => me)
  let s2 := s1.place p (fun _ _ _ => true)
  { ((s2.switchAt p 0 false).beginStep p).onPart p (fun q => { q with switches := 0 }) with raised := [] }

/-- A whole step. -/
def State.dryRun (s : State) (p : Nat) (img : PlanImage) (x : Nat) (keep : Bool) (c : DryCase) : Dry :=
  let m := s.dryModule p img x keep c
  let d : Dry := { s := m, p, secs := mineOf { img with secs := asRole (s.part p).axRole img.secs } (s.part p).rank }
  let e := Dry.cycles c.on (1024 * d.q.stepLen) d
  let e := if e.q.multi then e else e.stepChecks true
  e.flipChecks

/-! ### The runs of an image -/

/-- Epoch numbers at which the step cycle's positions begin, over two turns of the cycle. -/
def epochWalk (kinds : List StepKindE) (cyc : List Nat) : Nat → Nat → List Nat → List (Nat × Nat)
  | _, _, [] => []
  | pos, e, k :: ks => (pos, e) :: epochWalk kinds cyc (pos + 1) (e + 2 + ((kinds.getD k { length := 0, window := 0, epochAt := [], zero := true }).epochAt.length)) ks

/-- Every step kind at every parity of its first epoch that occurs, as the first position and epoch number at which it does. -/
def reachOf (img : PlanImage) (kinds : List StepKindE) : List (Nat × Nat) :=
  let n := max 1 img.hdr.cycleLen
  let cyc := (List.range n).map (fun i => img.hdr.stepCycle.getD i 0)
  ((epochWalk kinds cyc 0 0 (cyc ++ cyc)).foldl (fun (l : List (Nat × Nat)) e =>
    let key (x : Nat × Nat) : Nat × Nat := (cyc.getD (x.1 % n) 0, x.2 % 2)
    if l.any (fun x => decide (key x = key e)) then l else l ++ [e]) []).map (fun e => (e.1 % n, e.2))

/-- The image plays a trellis, moves lines or runs code. -/
def schedules (l : List Section) : Bool := l.any (fun x => decide (2 ≤ x.type ∧ x.type ≤ 7))

def stepsOf (l : List Section) : List StepKindE := (l.findSome? (fun x => match x.data with
  | .steps k => some k
  | _ => none)).getD []

/-- Banks that the image has code for, with the banks of plan sections kept. -/
def Part.bankSet (q : Part) (l : List Section) (keep : Bool) : List Bool :=
  let has (k : Bool) : Bool := l.any (fun x => decide (x.type = 2 ∧ x.sub / 256 = b2n k)) || (keep && !(if k then q.bankCode1 else q.bankCode0).isEmpty)
  [false] ++ (if has true then [true] else [])

/-- The graft selections of one grafted position each, with the position (R336, R401). -/
def graftsOf (l : List Section) : List (Nat × BitVec 16) :=
  let peers := (l.findSome? (fun x => match x.data with
    | .peers e => some e
    | _ => none)).getD []
  let vs := ((l.filter (fun x => decide (x.variant ≠ 0xFFFF))).map (·.variant)).eraseDups
  vs.map (fun v => (v, BitVec.ofNat 16 ((List.range 12).foldl (fun a i =>
    if (peers.getD i none).map (·.rank) = some v then a + 2 ^ i else a) 0)))

/-- The cases of an image under no graft. -/
def State.dryCases (s : State) (p : Nat) (img : PlanImage) (keep : Bool) : List DryCase :=
  let q := s.part p
  let l := (mineOf img q.rank).map (·.2)
  let sels := if (mapsOf l).any (fun e => decide (e.kind = 3 ∨ e.kind = 4 ∨ e.kind = 8)) then [false, true] else [false]
  let banks := q.bankSet l keep
  let swaps := if banks.length = 2 then [false, true] else [false]
  (reachOf img (stepsOf l)).foldl (fun a r => a ++ sels.foldl (fun a sel => a ++ banks.foldl (fun a bank => a ++
    swaps.map (fun swap => { pos := r.1, epoch := r.2, sel, bank, swap, graft := 0, on := false })) []) []) []

/-- A variant writes the destination stores in the same cycles as the base rows (R337). -/
def sameTrace (a b : Dry) : Bool := a.trace.all (fun e => b.trace.contains e) && b.trace.all (fun e => a.trace.contains e)

/-- The failures of every run of an image under binding `x`. -/
def State.dryFails (s : State) (p : Nat) (img : PlanImage) (x : Nat) (keep : Bool) : List (Nat × Fail) :=
  let l := (mineOf img (s.part p).rank).map (·.2)
  if !schedules l then []
  else
    (s.dryCases p img keep).foldl (fun a c =>
      let base := s.dryRun p img x keep c
      (graftsOf l).foldl (fun a g =>
        let d := s.dryRun p img x keep { c with graft := g.2 }
        a ++ d.fails ++ (if sameTrace base d then [] else [(0x12, { sec := noSec, item := g.1 })])) (a ++ base.fails)) []

/-- The energy of the busiest frame of any step kind (R410, R477). -/
def State.dryPeaks (s : State) (p : Nat) (img : PlanImage) (x : Nat) (keep : Bool) : PeakE :=
  let l := (mineOf img (s.part p).rank).map (·.2)
  if !schedules l then {}
  else
    (reachOf img (stepsOf l)).foldl (fun y r =>
      let z := (s.dryRun p img x keep { pos := r.1, epoch := r.2, sel := false, bank := false, swap := false, graft := 0, on := true }).peaks
      { compute := max y.compute z.compute, memory := max y.memory z.memory, total := max y.total z.total
        frame := if y.total < z.total then z.frame else y.frame }) {}

end Sys2Proof.Machine
end

