-- ==== Sys2Proof/Machine/Schedule.lean ====
section
/-! DEFINITION. What the Sieve reads off the trellises, leases and serving section without running a step: runs against epochs and the
rows supplied (R187, R319), uses of flit slots (R188), and the capacity of engine and landing slots (R261, R271). -/

namespace Sys2Proof.Machine

/-! ### Epochs -/

/-- An epoch that a plan of the image meets: step kind, index within the step, version of the tables. -/
structure EpochOf where
  kind : Nat
  idx  : Nat
  ver  : Bool
  deriving DecidableEq, Repr

/-- Frames of epoch `idx` of a step kind (R399). -/
def epochLen (k : StepKindE) (idx : Nat) : Nat :=
  let at' := [0, k.window] ++ k.epochAt ++ [k.length + 1]
  at'.getD (idx + 1) 0 - at'.getD idx 0

/-- The epochs of two turns of the step cycle, in order; the sequence then repeats with the same versions. -/
def epochsOf (img : PlanImage) (kinds : List StepKindE) : List EpochOf :=
  let n := max 1 img.hdr.cycleLen
  let cyc := (List.range n).map (fun i => img.hdr.stepCycle.getD i 0)
  (epochWalk kinds cyc 0 0 (cyc ++ cyc)).foldl (fun a e =>
    let kind := cyc.getD (e.1 % n) 0
    a ++ (List.range (((kinds.getD kind { length := 0, window := 0, epochAt := [], zero := true }).epochAt.length) + 2)).map (fun i =>
      { kind, idx := i, ver := decide ((e.2 + i) % 2 = 1) })) []

/-! ### Runs (R187, R319) -/

/-- Rows or patterns that a list of runs plays. -/
def runsLen (l : List Run) : Nat := l.foldl (fun a r => a + (r.count + 1) * (r.rep + 1)) 0

/-- The runs of a segment entry. -/
def segRuns {α : Type} (t : Tbl α) (key : Nat) : List Run := (t.runs.drop (look {} t.segs key).first).take (look {} t.segs key).n

/-- A table breaks R187 in version `v`: a segment does not last its epoch (`per` rows of a frame, `extra` frames of drain after it), or
a run of `unit` rows a pattern reaches a row that the section does not supply. -/
def tblSchedBad {α : Type} (t : Tbl α) (kinds : List StepKindE) (es : List EpochOf) (v : Bool) (per extra unit : Nat) : Bool :=
  let meets (k i : Nat) : Bool := es.any (fun e => decide (e.kind = k ∧ e.idx = i ∧ e.ver = v))
  (List.range 128).any (fun key =>
    let l := segRuns t key
    match kinds[key / 16]? with
    | none => !l.isEmpty
    | some k =>
      let n := epochLen k (key % 16)
      if k.epochAt.length + 2 ≤ key % 16 then !l.isEmpty
      else (meets (key / 16) (key % 16) || !l.isEmpty) && decide (runsLen l ≠ (n + extra) * per)) ||
    t.runs.any (fun r => decide (suppliedRows t < (r.first + r.count + 1) * unit))

/-- Both versions of a section's table, the version at fault. -/
def secSchedBad (x : Section) (kinds : List StepKindE) (es : List EpochOf) (drain : Nat) : Option Bool :=
  let two {α : Type} (a b : Tbl α) (per extra unit : Nat) : Option Bool :=
    if tblSchedBad a kinds es false per extra unit then some false
    else if tblSchedBad b kinds es true per extra unit then some true else none
  match x.data with
  | .blockTrellis a b => two a b 1024 0 1
  | .router a b => two a b 1024 0 1
  | .merge a b => two a b 384 0 1
  | .port _ a b => two a b 1 drain 384
  | _ => none

/-- Class of slot `n` in frame `f` of a segment of a port table. -/
def patClass (t : Tbl (BitVec 32)) (key f n : Nat) : Nat :=
  match playRuns (segRuns t key) f with
  | none => 0
  | some k => rowClass (look 0 t.rows (384 * k + n))

/-- A slot of the drain interval after epoch `a`, which `b` follows, has a row that is not idle in both versions (R319). -/
def drainClash (ta tb : Tbl (BitVec 32)) (kinds : List StepKindE) (drain : Nat) (a b : EpochOf) : Option Nat :=
  let n := epochLen (kinds.getD a.kind { length := 0, window := 0, epochAt := [], zero := true }) a.idx
  (List.range 384).find? (fun s => (List.range drain).any (fun f =>
    decide (patClass (pick a.ver ta tb) (segKey a.kind a.idx) (n + f) s ≠ 0 ∧ patClass (pick b.ver ta tb) (segKey b.kind b.idx) f s ≠ 0)))

/-- Failures of check 0x0C that the tables show. -/
def scheduleFails (img : PlanImage) (r : Nat) : List Fail :=
  let mine := mineOf img r
  let l := mine.map (·.2)
  let kinds := stepsOf l
  let es := epochsOf img kinds
  mine.foldl (fun a e =>
    let runs : List Fail := if e.2.variant ≠ 0xFFFF then [] else
      match secSchedBad e.2 kinds es img.hdr.drain with
      | none => []
      | some v => [{ sec := e.1, item := 0, d1 := e.2.unit, d2 := b2n v }]
    let drains : List Fail := match e.2.data with
      | .port _ ta tb => (es.zip (es.drop 1 ++ es.take 1)).filterMap (fun x => (drainClash ta tb kinds img.hdr.drain x.1 x.2).map (fun n =>
          { sec := e.1, item := n, d1 := e.2.unit, d2 := b2n x.2.ver }))
      | _ => []
    a ++ runs ++ drains) []

/-! ### Flit slots (R188) -/

/-- The rows of a port section that its runs play and that are not idle lie in slots that partition `p` leases for the use of their class. -/
def flitSlotFails (img : PlanImage) (p r : Nat) : List Fail :=
  let mine := mineOf img r
  let ls := leasesOf (mine.map (·.2))
  let sec := ((mine.find? (fun e => decide (e.2.type = 9))).map (·.1)).getD noSec
  let slots (t : Tbl (BitVec 32)) : List (Nat × Nat) :=
    (t.rows.filter (fun e => t.runs.any (fun q => decide (q.first ≤ e.1 / 384 ∧ e.1 / 384 ≤ q.first + q.count)))).map (fun e => (e.1 % 384, rowClass e.2))
  mine.foldl (fun a e => match e.2.data with
    | .port _ ta tb =>
      let res := 5 + e.2.sub
      a ++ (slots ta ++ slots tb).filterMap (fun x =>
        if x.2 = 0 ∨ ls.any (fun l => leaseCovers l res (classUse x.2) e.2.unit 0 x.1) then none
        else
          let i := ((List.range ls.length).zip ls).find? (fun y => slotLease e.2.unit res x.1 y.2)
          some { sec, item := (i.map (·.1)).getD 0, d1 := if i.isSome then p else 0xFF })
    | _ => a) []

/-! ### 0x10 SERVING (R261, R271) -/

/-- Cycle of the frame at which cold-frame slot `n` of a channel takes its request (R248). -/
def coldSlotCycle (ch n : Nat) : Nat := 20 * (n / 3) + 5 * (3 * ch + n % 3) / 12

/-- The cold-frame slots of a frame leased for a use, as cycles of the frame in order. -/
def coldUse (ls : List LeaseE) (use : Nat) : List Nat :=
  let l := ls.foldl (fun a e => if e.res = 3 ∧ e.use = use then a ++ (List.range (e.count + 1)).map (fun j => coldSlotCycle e.unit (e.first + j)) else a) []
  l.mergeSort (· ≤ ·)

/-- Cycles until `n` accesses have been made in slots at the given cycles of every frame; none when there is no slot. -/
def cyclesFor (slots : List Nat) (n : Nat) : Option Nat :=
  if n = 0 then some 0
  else
    match slots[(n - 1) % slots.length]? with
    | none => none
    | some c => some (1024 * ((n - 1) / slots.length) + c + 1)

/-- Accesses of the window engine's schedule (R261): out words, page tables, slot words, and token payloads read and written. -/
def engineAccesses (e : ServingE) : Nat :=
  e.slots + e.editCap * ((4 * e.pagesMax + 255) / 256) + (16 * e.slots + 255) / 256 + 2 * e.tokCap * e.tokLines

/-- Accesses that one step's outputs and result take: output lines read, and written to the outbound ring with the result (R271). -/
def landingAccesses (e : ServingE) : Nat :=
  2 * e.slots * e.outLines + (256 + 64 * e.slots + 16 * Config.ringRecords + 255) / 256

/-- The engine's schedule ends by WIN_READY, and the landing slots of the shortest step carry one step's results. -/
def servingFailOf (img : PlanImage) (r : Nat) : List Fail :=
  let mine := mineOf img r
  let l := mine.map (·.2)
  let ls := leasesOf l
  let kinds := stepsOf l
  let sec := ((mine.find? (fun e => decide (e.2.type = 11))).map (·.1)).getD noSec
  let check (kind use n avail : Nat) : Option Fail :=
    match cyclesFor (coldUse ls use) n with
    | none => some { sec, item := kind, d1 := 2 ^ 64 - 1, d2 := avail }
    | some c => if c ≤ avail then none else some { sec, item := kind, d1 := c, d2 := avail }
  match servingOf l with
  | none => []
  | some e =>
    let short := ((List.range kinds.length).zip kinds).foldl (fun (m : Nat × Nat) k => if k.2.length + 1 < m.2 then (k.1, k.2.length + 1) else m)
      (0, (kinds.head?.map (fun k => k.length + 1)).getD 0)
    (check 0 3 (engineAccesses e) e.winReady).toList ++ (check short.1 2 (landingAccesses e) (1024 * short.2)).toList

/-! ### 0x12 GRAFT (R337) -/

/-- A device position of a multi-module job for which the image has no variant. -/
def variantMissing (img : PlanImage) : List Fail :=
  if img.hdr.positions = 0 then []
  else ((List.range (img.hdr.positions + 1)).filter (fun v => !img.secs.any (fun x => decide (x.variant = v)))).map (fun v =>
    { sec := noSec, item := v })

end Sys2Proof.Machine
end

