-- ==== Sys2Proof/Machine/Verdict.lean ====
section
/-! DEFINITION. The Sieve's verdict (R408, R409): the checks of Table 15.9 in ascending order, each from what the image shows directly,
from its trellises and leases, and from the dry runs of its steps. -/

namespace Sys2Proof.Machine

/-- The first check that fails, in ascending order. -/
def verdictOf (x : Nat) : List (Nat × Option Fail) → Verdict
  | [] => { check := 0, x, at' := { sec := noSec, item := 0 } }
  | (c, some f) :: _ => { check := c, x, at' := f }
  | (_, none) :: l => verdictOf x l

/-- What check `c` reports, of the failures listed by check. -/
def reported (l : List (Nat × Fail)) (c : Nat) : Nat × Option Fail := (c, worst ((l.filter (fun e => decide (e.1 = c))).map (·.2)))

/-- The failures of checks 0x05 to 0x14 that need no run, under binding `b`. -/
def State.stillFails (s : State) (p : Nat) (img : PlanImage) (b : Nat) : List (Nat × Fail) :=
  let r := (s.part p).rank
  let tag (c : Nat) (l : List Fail) : List (Nat × Fail) := l.map (fun f => (c, f))
  tag 0x05 (encodingFail img).toList ++ tag 0x09 (banksFail img).toList ++ tag 0x0A (s.addressFail p img).toList ++
    tag 0x0B ((s.leasesFail p img b).toList ++ flitSlotFails img p r) ++ tag 0x0C (scheduleFails img r) ++
    tag 0x0E (s.budgetFail img r).toList ++ tag 0x10 (servingFailOf img r) ++ tag 0x11 (s.jobFail p img).toList ++
    tag 0x12 ((graftFail img).toList ++ variantMissing img) ++ tag 0x14 (s.failedFail p img b).toList

/-- The Sieve on a plan image for partition `p` with binding parameter `x`; `keep`: with the code of the partition's banks, at a
restage. An image that breaks an earlier check is not run. -/
def State.sieve (s : State) (p : Nat) (img : PlanImage) (x : Nat) (keep : Bool) : Verdict :=
  let r := (s.part p).rank
  if !s.signed p img then { check := 0x01, x := 0, at' := { sec := noSec, item := 0 } }
  else
    match formatFail img 1 with
    | some f => { check := 0x02, x := 0, at' := f }
    | none =>
      let seen := { img with secs := asRole (s.part p).axRole img.secs }
      match s.enginesFail seen r with
      | some f => { check := 0x03, x := 0, at' := f }
      | none =>
        match s.bind p seen x with
        | (b, some f) => { check := 0x04, x := b, at' := f }
        | (b, none) =>
          match encodingFail seen with
          | some f => { check := 0x05, x := b, at' := f }
          | none =>
            let l := s.stillFails p seen b ++ s.dryFails p img b keep
            let power := (s.powerFail p seen (s.dryPeaks p img b keep)).map (fun f => ((0x13 : Nat), f))
            verdictOf b (((List.range 15).map (· + 6)).map (reported (l ++ power.toList)))

/-- The partition with the code of a plan section in the bank that is not active. -/
def Part.withSection (q : Part) (img : PlanImage) : Part :=
  let l := (mineOf img q.rank).map (·.2)
  if q.bankAct then { q with bankCode0 := newCode l q.bankCode0 } else { q with bankCode1 := newCode l q.bankCode1 }

/-- The Sieve on a plan section: signature and parent, format, encoding, and the BANKS check of the installed image with this code in
the bank that is not active (R407). -/
def State.sieveSection (s : State) (p : Nat) (img : PlanImage) : Verdict :=
  let q := s.part p
  let code := (idxOf img).find? (fun e => !(codePos q.base e.2.unit).getLsbD (e.2.sub % 16))
  let own : List (Nat × Fail) := code.toList.map (fun e => (0x09, { sec := e.1, item := 0, d1 := 0, d2 := e.2.sub / 256 }))
  match q.image with
  | none => { check := 0x01, x := q.binding, at' := { sec := noSec, item := 0 } }
  | some i =>
    if !s.signed p img || decide (imgDigest i ≠ img.hdr.parent) then { check := 0x01, x := q.binding, at' := { sec := noSec, item := 0 } }
    else
      match formatFail img 2, encodingFail img with
      | some f, _ => { check := 0x02, x := q.binding, at' := f }
      | none, some f => { check := 0x05, x := q.binding, at' := f }
      | none, none =>
        let t := s.onPart p (fun y => y.withSection img)
        verdictOf q.binding [reported (own ++ t.dryFails p i q.binding true) 0x09]

/-- The reject record of a completion (Table 15.10). -/
def Verdict.results (v : Verdict) : List (Nat × Nat) :=
  [(1, v.check), (1, v.x), (2, 0), (4, v.at'.sec), (8, v.at'.item), (8, v.at'.d1), (8, v.at'.d2)]

/-- hub.part.sieve after a verdict (Table 15.11). -/
def Verdict.reg (v : Verdict) : SieveReg :=
  { check := v.check, verdict := if v.check = 0 then 1 else 2, binding := v.x, sec := v.at'.sec % 2 ^ 20, item := v.at'.item % 2 ^ 32 }

end Sys2Proof.Machine
end

