-- ==== Sys2Proof/Machine/Load.lean ====
section
/-! DEFINITION. Installing and restaging a plan image (R404 to R407, R412, R418, R551, R555). -/

namespace Sys2Proof.Machine

/-! ### Leases that a load touches (R418) -/

/-- The leases that a load or restage of an image with sections `l` touches. -/
def Part.touches (p : Part) (l : List Section) : List (Tier × Nat) := imageLeases l ++ p.landLeases.map (fun i => (Tier.cold, i))

/-- One of a list of leases awaits zeroisation. -/
def Part.zeroising (p : Part) (l : List (Tier × Nat)) : Bool := l.any (fun x => p.sx.zeroPend.contains x)

/-- A load into the partition or a change of its plan is refused with BUSY (R404). -/
def Part.loadBusy (p : Part) : Bool :=
  p.active? || decide (p.jb.jstate = .seeding ∨ p.jb.jstate = .seeded ∨ p.jb.jstate = .member) || p.bundle.isSome || p.bankLoad.isSome

/-! ### The twin's map (R338) -/

/-- The partition's outbound TW slot map. -/
def State.outMap (s : State) (p : Nat) (fresh : Bool) : TwinMap :=
  let q := s.part p
  let ls := q.leases.filter (fun l => decide (l.res = 5 ∧ l.use = 0 ∧ l.unit = 10))
  { slots := ls.foldl (fun a l => a ++ (List.range (l.count + 1)).map (fun j => l.first + j)) []
    job := q.jb.job, rank := q.rank, key := q.sx.jobKey, fresh, region := s.regionSize p }

/-- At an installation the twin receives the map; without a pair key TW carries no TWIN transfer (R424). -/
def State.sendMap (s : State) (p : Nat) (fresh : Bool) : State :=
  if s.keys.pairKey then s.send (.twinMap p (s.outMap p fresh)) else s

/-! ### Installation (R405, R551) -/

/-- The serving state starts afresh; records that a discarded step consumed are released, a held rotation record discarded. -/
def Part.afresh (p : Part) : Part :=
  let drop (e : Nat × Option Rec) : Bool := match e.2 with
    | some r => r.held && decide (r.kind = 5)
    | none => false
  { p with slots := [], win := {}, replay := none, outNext := none, lastResult := none, held := false, pendRot := none
           recs := mapv none (p.recs.filter (fun e => !drop e)) (fun _ r => r.map (fun x => { x with held := false })) }

/-- The partition seed (R400). -/
def seedOf (base : Word) (rank : Nat) : Word := mix64 (base ^^^ BitVec.ofNat 64 (2 ^ 48 * rank))

/-- The registers of a partition that an image installs; those of Tables 2.3 to 2.6 hold their last values (R34). -/
def Part.loaded (p : Part) (ax : Option Nat) (img : PlanImage) (x : Nat) (split : Nat × Nat × Nat) : Part :=
  { p.afresh with
    st := .staged, image := some img, axRole := ax, binding := x, graftSel := 0, bankAct := false, switches := 0, bankStatus := .none
    bankTarget := false, bankCode0 := [], bankCode1 := [], seed := seedOf img.hdr.seedBase p.rank, jobSize := img.hdr.positions + 1
    prevSeg := none, fenceAt := none, stopReq := none, committed := none, commKind := 0, rotLoad := .none
    pw := { p.pw with envelope := img.hdr.envelopeW, computeW := split.1, memoryW := split.2.1, linkW := split.2.2, overClass := false
                      energyMj := 0, energyRem := 0 } }

/-- Lulls for LINK_BUDGET end: the plan is reloaded, restaged or replaced (R309). -/
def State.clearBudget (s : State) (p : Nat) : State :=
  { s with ports := mapv Port.zero s.ports (fun _ x => { x with budgetBad := x.budgetBad &&& ~~~(BitVec.ofNat 16 (2 ^ p)) }) }

/-- The partition as a load under the present role of AX sees it. -/
def State.withRole (s : State) (p : Nat) : State := s.onPart p (fun q => { q with axRole := s.axRole })

/-- Step 4 of R405: in one step toward every other partition. `fresh`: the carried state starts afresh (R339). -/
def State.install (s : State) (p : Nat) (img : PlanImage) (x : Nat) (fresh : Bool) : State :=
  let sp := s.split p img ((s.withRole p).dryPeaks p img x false)
  let s1 := ((s.clearBudget p).unplace p).onPart p (fun q => (q.loaded s.axRole img x sp).save)
  (s1.place p (fun _ _ _ => true)).sendMap p fresh

/-- Domain `d` measures cool: every sensor group that measures it is at or below its clearing value. -/
def State.domCool (s : State) (d : Nat) : Bool := s.groupClear (look 0 s.pwr.tripGrp d)

/-- At a restage the tripped domains of the partition come on again once their sensor group has cleared (R486). -/
def State.untrip (s : State) (p : Nat) : State :=
  let l := allDoms.filter (fun d => s.pwr.tripped.getLsbD d && s.usesDom p d && s.domCool d)
  let s1 : State := { s with pwr := { s.pwr with tripped := s.pwr.tripped &&& ~~~(domMask l) } }
  l.foldl (fun s d => if s.wantsDom d then s.domUp d else s) s1

/-- A restage of the staged image under binding `x`, with the graft selection given (R555). -/
def State.reinstall (s : State) (p : Nat) (x : Nat) (graft : BitVec 16) : State :=
  let valid := s.validAt p
  let old := (s.part p).bankAct
  let s1 := (((s.untrip p).clearBudget p).unplace p).onPart p (fun q => { q with st := .staged, binding := x, graftSel := graft, bankAct := old })
  (s1.place p valid).sendMap p false

/-- The Sieve on the staged image under its binding against a new snapshot, and on acceptance the restage. hub.part.sieve takes the verdict. -/
def State.restage (s : State) (p : Nat) (graft : BitVec 16) : State × Verdict :=
  match (s.part p).image with
  | none => (s, { check := 0x01, x := 0, at' := { sec := noSec, item := 0 } })
  | some img =>
    let q := s.part p
    let v := s.sieve p img q.binding true
    let s1 := s.onPart p (fun q => { q with sieve := v.reg })
    if v.check = 0 then (s1.reinstall p v.x graft, v)
    else (s1.onPart p (fun y => { y with st := q.st }), v)

/-- The image is taken out: leases and tables released (PLAN_UNLOAD, JOB_LEAVE, PART_DESTROY). -/
def State.unload (s : State) (p : Nat) : State :=
  ((s.clearBudget p).unplace p).onPart p (fun q =>
    { q with st := .empty, image := none, graftSel := 0, bankCode0 := [], bankCode1 := [], bankStatus := .none, bankAct := false
             switches := 0, stopReq := none, committed := none
             pw := { q.pw with envelope := 0, computeW := 0, memoryW := 0, linkW := 0 } })

end Sys2Proof.Machine
end

