-- ==== Sys2Proof/Machine/Host.lean ====
section
/-! DEFINITION. How the host reaches the module: acceptance and the five stages of R463, sessions, rings, doorbells, register
writes and the links (16_partitions_and_security.md, 17_host_and_commands.md). The row of a host command is its acceptance and
execution, whether it was fetched by SUBMISSION_FETCH, MGMT_DATAGRAM or stands alone (log entry 31). -/

namespace Sys2Proof.Machine

/-! ### Rights (R427, R428, R434, Table 16.4) -/

/-- The role holds the right to the command. -/
def hasRight (r : Role) (op : Nat) : Bool :=
  let operator := decide (r = .operator)
  let installer := decide (r = .installer)
  let maker := decide (r = .maker)
  match op / 256 with
  | 1 =>
    if op = 0x0105 ∨ op = 0x0108 then operator || installer || maker
    else if op = 0x0107 then operator || installer
    else if op = 0x0109 ∨ op = 0x010A ∨ op = 0x010E then installer
    else if op = 0x0110 ∨ op = 0x0111 then maker
    else operator
  | 2 => if op = 0x0204 then operator || installer else installer
  | 6 => if 0x0606 ≤ op ∧ op ≤ 0x0608 then installer else operator
  | 7 => if op = 0x0701 ∨ op = 0x0705 then operator || installer else installer
  | 8 => if 0x0802 ≤ op ∧ op ≤ 0x0804 then operator || installer else if op = 0x0820 then maker else installer
  | 9 => if op = 0x0930 then maker else installer
  | _ => operator

/-- Partition `p` exists. -/
def State.exists? (s : State) (p : Nat) : Bool := decide (p < 16) && (s.part p).sx.created

/-- The path accepts a session of the role. -/
def State.pathOk (s : State) (fn : Nat) (r : Role) (entry : Nat) : Bool :=
  match r with
  | .operator => decide (fn = 0) || (decide (1 ≤ fn ∧ fn ≤ 16) && s.exists? (fn - 1) && decide ((s.part (fn - 1)).sx.opEntry = entry))
  | .installer => decide (fn = 0 ∨ fn = 17)
  | .maker => decide (fn = 0 ∨ fn = 17)
  | _ => false

/-- The session may not give this command (stage 2 of R463). -/
def State.denied (s : State) (h : Hdr) (op : Nat) (x : Session) : Bool :=
  !s.pathOk h.fn x.role x.entry || !hasRight x.role op ||
    decide (1 ≤ h.fn ∧ h.fn ≤ 16 ∧ h.part ≠ 0xFF ∧ h.part ≠ h.fn - 1) ||
    (decide (x.role = .operator) && s.exists? h.part && decide ((s.part h.part).sx.opEntry ≠ x.entry))

/-! ### Acceptance (R419, R433, R434, R438, R460, R463, R471, R509, R518, R558) -/

/-- Commands are accepted on the path of the header: after READY, with the management processor running and the domains that
serve the path on. -/
def State.serves (s : State) (h : Hdr) : Bool :=
  decide (s.boot.phase = .ready) && !s.mgmtDown && s.pwr.dom.getLsbD 94 && (decide (h.fn = 17) || s.pwr.dom.getLsbD 92)

/-- Entries fetched and not yet accepted, in the order in which they are to be (R460). -/
def State.fetched (s : State) : List (Hdr × Nat) := s.taken.foldl (fun l e => l.erase e) s.inProg

/-- A command with FENCE waits for every earlier command of its set. -/
def State.fenced (s : State) (h : Hdr) (op : Nat) : Bool :=
  h.fence && (s.inProg.takeWhile (fun e => decide (e ≠ (h, op)))).any (fun e => decide (e.1.fn = h.fn ∧ e.1.set = h.set))

/-- The command may not start yet: an entry fetched before it has not been accepted, unless that one itself waits for its FENCE on another
set (R460). -/
def State.waits (s : State) (h : Hdr) (op : Nat) : Bool :=
  s.fenced h op || (s.fetched.takeWhile (fun e => decide (e ≠ (h, op)))).any (fun e =>
    decide (e.1.fn = h.fn ∧ e.1.set = h.set) || !s.fenced e.1 e.2)

/-- The command is accepted; one that was not fetched comes into progress with it (log entry 31). -/
def State.begin (s : State) (h : Hdr) (op : Nat) : State :=
  if s.fetched.contains (h, op) then { s with taken := s.taken ++ [(h, op)] }
  else
    let s1 : State := { s with inProg := s.inProg ++ [(h, op)], taken := s.taken ++ [(h, op)] }
    if h.fn = 17 then s1
    else
      let q := s1.ring h.fn h.set 0
      s1.setRing h.fn h.set 0 { q with flight := q.flight + 1 }

/-- End a session, with its audit entry. -/
def State.endSession (s : State) (sid : Nat) : State :=
  match s.session sid with
  | none => s
  | some x => ({ s with sessions := put none s.sessions sid none }).auditAdd x.role 0x06 0 0 0xFF sid x.kh 0

/-- A command that fails authentication: the session's 16th ends it. -/
def State.badTag (s : State) (sid : Nat) : State :=
  let s := s.count locHub 0x409 1
  match s.session sid with
  | none => s
  | some x =>
    if x.badTags + 1 < 16 then { s with sessions := put none s.sessions sid (some { x with badTags := x.badTags + 1 }) }
    else s.endSession sid

/-- Commands that read data by a host address: a failed DMA read of it ends them in their own order (R558). -/
def hostData (op : Nat) : Bool :=
  ([0x0301, 0x0302, 0x0303, 0x0401, 0x0405, 0x0501, 0x0504, 0x0605, 0x0620, 0x0901, 0x0911] : List Nat).contains op

/-- Stages 1 to 4 of R463: the state after them and the status the command ends with, if it ends. `absent`: it names an absent
engine; `enc`: its parameters lie in their encodings. -/
def State.accepts (s : State) (h : Hdr) (op : Nat) (absent enc : Bool) : State × Option Nat :=
  let late (s : State) : State × Option Nat :=
    if absent then (s, some 0x04) else if !h.encOk || !enc then (s, some 0x03)
    else if !h.dmaOk && !hostData op then (s, some 0x09) else (s, none)
  if sessionless op then late (s.count locHub 0x408 1)
  else
    match s.session h.sid with
    | none => (s.badTag h.sid, some 0x02)
    | some x =>
      if !x.proved || decide (h.tag ≠ cmdTag x.key h op) || decide (h.counter ≤ x.counter) then (s.badTag h.sid, some 0x02)
      else
        let s1 := { s with sessions := put none s.sessions h.sid (some { x with counter := h.counter, lastAt := s.wallNs }) }.count locHub 0x408 1
        if s1.denied h op x then (s1, some 0x01) else late s1

/-- What a command's own part answers: the state and the completion, or none when it completes later. -/
abbrev Did := State × Option (Nat × List (Nat × Nat))

def ended (s : State) (st : Nat) : Did := (s, some (st, []))
def okWith (s : State) (res : List (Nat × Nat)) : Did := (s, some (0, res))

/-- The status of a completion: a failed write of results at RADDR is FAULT, the effects standing (R558). -/
def finalStatus (h : Hdr) (st : Nat) (res : List (Nat × Nat)) : Nat :=
  if st = 0 ∧ 32 < resLen res ∧ !h.resOk ∧ h.fn ≠ 17 then 0x09 else st

/-- Accept and execute a command whose own part is `body`. -/
def State.command (s : State) (h : Hdr) (op : Nat) (absent enc : Bool) (body : State → Did) : Out :=
  if !s.serves h || s.waits h op then ok s
  else
    match (s.begin h op).accepts h op absent enc with
    | (s1, some st) => ok (s1.post h op st [])
    | (s1, none) =>
      match body s1 with
      | (s2, none) => ok s2
      | (s2, some (st, res)) => ok (s2.post h op (finalStatus h st res) res)

/-- A command that names a partition: BAD_PARAM where it does not exist (R428). -/
def State.onPartition (s : State) (h : Hdr) (op : Nat) (absent enc : Bool) (body : State → Did) : Out :=
  s.command h op absent (enc && decide (h.part < 16)) (fun s => if s.exists? h.part then body s else ended s 0x03)

/-- A source that is a host address is not accepted on the management connector. -/
def srcOk (h : Hdr) (src : Src) : Bool :=
  match src with
  | .host _ => decide (h.fn ≠ 17)
  | _ => true

/-- The data of a source was read without a DMA error. -/
def srcRead (h : Hdr) (src : Src) : Bool :=
  match src with
  | .host _ => h.dmaOk
  | _ => true

/-! ### Sessions ending (R432, R434, R436) -/

/-- SESSION_TIMEOUT: 900 s without an accepted command. -/
def execSessionTimeout (sid : Nat) (s : State) : Out :=
  match s.session sid with
  | none => ok s
  | some x => if x.proved ∧ x.lastAt + 900 * 10 ^ 9 ≤ s.wallNs then ok (s.endSession sid) else ok s

/-- PROVE_WINDOW_EXPIRY: 10 s after the opening of a session not proved, its SID is freed. -/
def execProveWindowExpiry (sid : Nat) (s : State) : Out :=
  match s.session sid with
  | none => ok s
  | some x => if x.proved ∨ s.wallNs ≤ x.openAt + 10 ^ 10 then ok s else ok { s with sessions := put none s.sessions sid none }

/-- PASS_LOCK_EXPIRY: the lock on passphrase opening ends. -/
def execPassLockExpiry (s : State) : Out :=
  if s.keys.passUntil ≤ s.wallNs then ok { s with keys := { s.keys with passLock := false } } else ok s

/-! ### Rings (R453 to R456) -/

/-- Set 1 exists only in x8 + x8 mode. -/
def State.setExists (s : State) (k : Nat) : Bool := decide (k = 0) || (decide (k = 1) && s.io.bifur)

def State.ringExists (s : State) (fn k q : Nat) : Bool := decide (fn ≤ 16 ∧ q ≤ 3) && s.setExists k

/-- DOORBELL_WRITE: a pointer at or beyond the ring's size is ignored and sets ERR. -/
def execDoorbellWrite (fn k q : Nat) (v : Word) (s : State) : Out :=
  if !s.ringExists fn k q then ok s
  else
    let r := s.ring fn k q
    let ptr := v.toNat % 65536
    ok (s.setRing fn k q (if 2 ^ r.size ≤ ptr then { r with err := true } else { r with db := ptr }))

/-- ENABLE goes from 0 to 1. -/
def Ring.enableNow (r : Ring) : Ring := if r.enable then r else { r with enable := true, db := 0, ptr := 0, phase := true }

def execRingEnable (fn k q : Nat) (s : State) : Out :=
  if s.ringExists fn k q then ok (s.setRing fn k q (s.ring fn k q).enableNow) else ok s

/-- ENABLE goes to 0; of a completion ring, the completions of commands in progress are discarded. -/
def State.ringOff (s : State) (fn k q : Nat) : State :=
  let r := s.ring fn k q
  if !r.enable then s
  else
    let s1 := s.setRing fn k q { r with enable := false }
    if q = 1 then
      let l := s1.inProg.filter (fun e => decide (e.1.fn = fn ∧ e.1.set = k) && !s1.mute.contains e)
      { s1 with mute := s1.mute ++ l }
    else s1

def execRingDisable (fn k q : Nat) (s : State) : Out := if s.ringExists fn k q then ok (s.ringOff fn k q) else ok s

/-- Opcodes of Tables 17.12 and 17.13. -/
def assigned (op : Nat) : Bool :=
  let lo := op % 256
  match op / 256 with
  | 1 => decide ((1 ≤ lo ∧ lo ≤ 0x0E) ∨ lo = 0x10 ∨ lo = 0x11)
  | 2 => decide (1 ≤ lo ∧ lo ≤ 5)
  | 3 => decide (1 ≤ lo ∧ lo ≤ 8)
  | 4 => decide (1 ≤ lo ∧ lo ≤ 5)
  | 5 => decide (1 ≤ lo ∧ lo ≤ 8)
  | 6 => decide ((1 ≤ lo ∧ lo ≤ 9) ∨ (0x20 ≤ lo ∧ lo ≤ 0x23))
  | 7 => decide (1 ≤ lo ∧ lo ≤ 5)
  | 8 => decide ((1 ≤ lo ∧ lo ≤ 4) ∨ lo = 0x10 ∨ lo = 0x11 ∨ lo = 0x20)
  | 9 => decide ((1 ≤ lo ∧ lo ≤ 4) ∨ (0x10 ≤ lo ∧ lo ≤ 0x12) ∨ lo = 0x20 ∨ lo = 0x21 ∨ lo = 0x30)
  | _ => false

/-- An unassigned opcode is checked in stages 1 and 4 only. -/
def State.unassigned (s : State) (h : Hdr) (op : Nat) : State :=
  match s.session h.sid with
  | none => (s.badTag h.sid).post h op 0x02 []
  | some x =>
    if !x.proved || decide (h.tag ≠ cmdTag x.key h op) || decide (h.counter ≤ x.counter) then (s.badTag h.sid).post h op 0x02 []
    else ({ s with sessions := put none s.sessions h.sid (some { x with counter := h.counter, lastAt := s.wallNs }) }.count locHub 0x408 1).post h op 0x03 []

/-- A submission ring has an entry that may be fetched: its set has room for the completion (R455). -/
def State.canFetch (s : State) (fn k : Nat) : Bool :=
  let sub := s.ring fn k 0
  let cpl := s.ring fn k 1
  let unread := Ring.held cpl.ptr cpl.db cpl.size
  s.ringExists fn k 0 && sub.enable && cpl.enable &&
    !decide (Ring.held sub.db sub.ptr sub.size = 0 ∨ 64 ≤ sub.flight ∨ 2 ^ cpl.size ≤ sub.flight + unread + 1)

/-- It is the turn of function `fn`, or of the management connector as 17: none whose turn comes before it has an entry to fetch (R419,
R460). -/
def State.turnOf (s : State) (fn : Nat) : Bool :=
  (((List.range 18).map (fun i => (s.rota + i) % 18)).takeWhile (fun f => decide (f ≠ fn))).all (fun f =>
    decide (f = 17) || !(s.canFetch f 0 || s.canFetch f 1))

/-- Within its turn the function's sets alternate. -/
def State.setTurn (s : State) (fn k : Nat) : Bool := decide (s.rotaSet.getLsbD fn = decide (k = 1)) || !s.canFetch fn (1 - k)

/-- SUBMISSION_FETCH: in its turn, the next entry of a submission ring. -/
def execSubmissionFetch (h : Hdr) (opcode : Nat) (s : State) : Out :=
  let sub := s.ring h.fn h.set 0
  if !s.serves h || decide (h.fn = 17) || !s.canFetch h.fn h.set || !s.turnOf h.fn || !s.setTurn h.fn h.set then ok s
  else
    let s1 := s.setRing h.fn h.set 0 { sub with ptr := (sub.ptr + 1) % 2 ^ sub.size, flight := sub.flight + 1 }
    let other := BitVec.ofNat 17 (2 ^ h.fn)
    let s2 : State := { s1 with inProg := s1.inProg ++ [(h, opcode)], rota := (h.fn + 1) % 18
                                rotaSet := if h.set = 0 then s.rotaSet ||| other else s.rotaSet &&& ~~~other }
    if assigned opcode then ok s2 else ok (s2.unassigned h opcode)

/-- MGMT_DATAGRAM: a command entry on the management connector, served after PF16; out of its turn the datagram waits outside the module
(R460). -/
def execMgmtDatagram (h : Hdr) (opcode : Nat) (s : State) : Out :=
  if !s.serves h || decide (h.fn ≠ 17) || !s.turnOf 17 then ok s
  else
    let s1 : State := { s with inProg := s.inProg ++ [(h, opcode)], rota := 0 }
    if assigned opcode then ok s1 else ok (s1.unassigned h opcode)

/-! ### Registers (R13, R451, R453, Tables 17.3 to 17.6) -/

/-- A field of a register value. -/
def fld (v : Word) (lo w : Nat) : Nat := bits v.toNat lo w

/-- A write to hub.ring.base or hub.ring.cfg. A SIZE_LOG2 or ENTRY_LOG2 outside its range of Table 17.4 is held as it was written, as R13
says of a RW field, and a ring with it holds 2^SIZE_LOG2 entries (DESIGN CHOICE: the spec does not say what such a ring does, log
entry 76). -/
def State.writeRing (s : State) (fn k q reg : Nat) (v : Word) : State :=
  let r := s.ring fn k q
  match reg with
  | 0 => if r.enable then s else s.setRing fn k q { r with base := fld v 12 52 * 4096 }
  | 1 =>
    let r1 := { r with err := r.err && !bit v.toNat 62, vector := fld v 48 3 }
    let r2 := if r.enable then r1
      else { r1 with size := fld v 0 8, entry := if q = 3 then fld v 40 8 else r1.entry }
    if bit v.toNat 63 then s.setRing fn k q r2.enableNow else (s.setRing fn k q r2).ringOff fn k q
  | 2 =>
    let ptr := v.toNat % 65536
    s.setRing fn k q (if 2 ^ r.size ≤ ptr then { r with err := true } else { r with db := ptr })
  | _ => s

/-- Clear `b` when the written bit is 1. -/
def w1c (b : Bool) (v : Word) (i : Nat) : Bool := b && !bit v.toNat i

/-- A write to a register of PF0 that has W1C fields or RESTART. -/
def State.writePf0 (s : State) (off : Nat) (v : Word) : State :=
  if off = 0x00200008 then
    { s with pwr := { s.pwr with overW := w1c s.pwr.overW v 38, peakW := if bit v.toNat 0 then s.pwr.estW else s.pwr.peakW } }
  else if off = 0x00300000 then
    { s with tu := { s.tu with alignWarn := w1c s.tu.alignWarn v 60, lagWarn := w1c s.tu.lagWarn v 59 } }
  else if 0x00301000 ≤ off ∧ off < 0x00301000 + 8 * 95 ∧ off % 8 = 0 then
    s.onIsland ((off - 0x00301000) / 8) (fun y =>
      { y with warn := w1c y.warn v 47, lagMax := if bit v.toNat 0 then y.lag else y.lagMax })
  else if 0x00500000 ≤ off ∧ off < 0x00500C00 ∧ off % 256 = 0x10 then
    s.onPort ((off - 0x00500000) / 256) (fun y =>
      let y := { y with warnHold := w1c y.warnHold v 57, warnGuard := w1c y.warnGuard v 56 }
      if bit v.toNat 0 then { y with holdMax := 0, holdMin := 0xFF, guardMax := 0 } else y)
  else if 0x00800000 ≤ off ∧ off < 0x01000000 ∧ off % 0x80000 = 0x48 then
    s.onPart ((off - 0x00800000) / 0x80000) (fun q => { q with pw := { q.pw with overClass := w1c q.pw.overClass v 3 } })
  else s

/-- A write to a function's MSI-X table (R451): a vector that is no longer masked sends what waits. -/
def State.writeMsix (s : State) (fn i : Nat) (v : Word) : State :=
  let s1 : State := { s with msix := put (if i % 2 = 1 then BitVec.ofNat 64 (2 ^ 32) else 0) s.msix (16 * fn + i) v }
  if i % 2 = 0 ∨ v.getLsbD 32 then s1
  else ([0, 1] : List Nat).foldl (fun s k =>
    if look false s.msixWait (msixKey fn k (i / 2)) then
      ({ s with msixWait := put false s.msixWait (msixKey fn k (i / 2)) false }).send (.msix fn k (i / 2))
    else s) s1

/-- A write to register 0x04 of the power sequencer: its fault bits are W1C (Table 21.7). -/
def Seqr.clear (q : Seqr) (v : Word) : Seqr :=
  { q with clip := w1c q.clip v 0, lockout := w1c q.lockout v 1, trip := w1c q.trip v 2, coolant := w1c q.coolant v 3
           refused := w1c q.refused v 4 }

/-- REGISTER_WRITE: a write to a register without a row of its own; in a partition function only ring registers are writable. `fn` 18 is
the tray controller's access to the power sequencer's registers (DESIGN CHOICE, log entry 65). -/
def execRegisterWrite (fn off : Nat) (v : Word) (s : State) : Out :=
  if fn = 18 ∧ off = 4 then ok { s with seqr := s.seqr.clear v }
  else if 16 < fn then ok s
  else if 0x00100000 ≤ off ∧ off < 0x00102000 then
    let k := (off - 0x00100000) / 0x1000
    let o := off % 0x1000
    if s.ringExists fn k (o / 0x40) && decide (o % 8 = 0) then ok (s.writeRing fn k (o / 0x40) (o % 0x40 / 8) v) else ok s
  else if 0x0010F000 ≤ off ∧ off < 0x0010F080 ∧ off % 8 = 0 then ok (s.writeMsix fn ((off - 0x0010F000) / 8) v)
  else if fn = 0 then ok (s.writePf0 off v) else ok s

/-- PORT_WM_RESTART: RESTART of hub.port.wm. -/
def execPortWmRestart (i : Nat) (s : State) : Out :=
  ok (s.onPort i (fun y => { y with holdMax := 0, holdMin := 0xFF, guardMax := 0 }))

/-- ISLAND_LAG_RESTART: RESTART of hub.time.island; the largest lag counts from now. -/
def execIslandLagRestart (i : Nat) (s : State) : Out := ok (s.onIsland i (fun y => { y with lagMax := y.lag }))

/-- PWR_PEAK_RESTART: RESTART of hub.pwr.status. -/
def execPwrPeakRestart (s : State) : Out := ok { s with pwr := { s.pwr with peakW := s.pwr.estW } }

/-! ### Counter reads through registers (R494 to R496) -/

/-- The location code names a unit of this grade, and it has a counter of that index (Tables 19.1, 19.2). -/
def State.hasCounter (s : State) (loc i : Nat) : Bool :=
  let u := loc % 4096
  match loc / 4096 with
  | 1 => decide (u < 2048 ∧ u % 32 < 18 ∧ i < 4) && s.enginePresent (u / 32)
  | 2 => decide (u < 64 ∧ i < 8) && s.enginePresent u
  | 3 => decide (u < 4 ∧ i < 16)
  | 4 => decide (u < 12 ∧ i < 8)
  | 5 => decide (u = 0 ∧ i < 32)
  | _ => false

/-- A counter as it reads: VALUE 0 while its domain is off (R492). -/
def State.counter (s : State) (loc i : Nat) : Counter :=
  let c := look Counter.zero s.counters (ctrKey loc i)
  if s.pwr.dom.getLsbD (ctrDom loc) then c else c.cleared

/-- COUNTER_SELECT: a write to hub.cnt.sel (R496). -/
def execCounterSelect (v : Word) (s : State) : Out :=
  let c := s.cnt
  let loc := fld v 16 16
  let i := fld v 0 8
  let c1 := { c with selErr := w1c c.selErr v 63, loc, idx := i, selAt := some s.wallNs }
  if c.selAt.any (fun t => decide (s.wallNs < t + 40)) ∨ !s.hasCounter loc i then ok { s with cnt := { c1 with selErr := true } }
  else ok { s with cnt := { c1 with valid := false, want := some (loc, i) } }

/-- COUNTER_SAMPLE: the sample of the last accepted write arrives. -/
def execCounterSample (s : State) : Out :=
  match s.cnt.want with
  | none => ok s
  | some (loc, i) =>
    let k := s.counter loc i
    ok { s with cnt := { s.cnt with valid := true, want := none, sticky := k.sticky, mode := k.mode, event := k.event, value := k.value } }

/-! ### The links (R448, R449, R452) -/

/-- A command in progress whose DMA on the link stops ends with FAULT: what it was writing is not completed. -/
def State.cutDma (s : State) (h : Hdr) (op : Nat) : State :=
  let p := h.part
  let gone := s.part p
  match op with
  | 0x0401 => if (gone.bundle.bind (fun b => b.hdr)) = some h then
      (s.onPart p (fun q => { q with bundle := none, rotLoad := .failed })).post h op 0x09 [] else s
  | 0x0405 => if gone.stageHdr = some h then (s.onPart p (fun q => { q with stageHdr := none })).post h op 0x09 [] else s
  | 0x0901 =>
    if (s.spFw.install.bind (·.1)) = some h then ({ s with spFw := { s.spFw with install := none } }).post h op 0x09 []
    else if (s.mgFw.install.bind (·.1)) = some h then ({ s with mgFw := { s.mgFw with install := none } }).post h op 0x09 []
    else s
  | _ =>
    if op = 0x0501 ∨ op = 0x0504 then
      match gone.recs.find? (fun e => match e.2 with
          | some r => decide (r.hdr = some h) && r.flagAt.isNone
          | none => false) with
      | none => s
      | some e => (s.onPart p (fun q => { q with recs := put none q.recs e.1 none })).post h op 0x09 []
    else s

/-- HOST_LINK_RESET: a function-level reset, a hot reset or a loss of link `link`, on the functions listed. -/
def execHostLinkReset (link : Nat) (fns : List Nat) (s : State) : Out :=
  let hit (e : Hdr × Nat) : Bool := decide (e.1.set = link) && fns.contains e.1.fn
  let l := s.inProg.filter hit
  let s1 : State := { s with mute := s.mute ++ l.filter (fun e => !s.mute.contains e) }
  let s2 := l.foldl (fun s e => s.cutDma e.1 e.2) s1
  ok { s2 with rings := s2.rings.filter (fun e => !(fns.contains (e.1 / 8) && decide (e.1 / 4 % 2 = link))) }

/-- IDE_KEY_CHANGE: the stream has new keys; no command, session or plan state changes. -/
def execIdeKeyChange (link stream : Nat) (s : State) : Out :=
  let k := 8 * link + stream
  ok { s with io := { s.io with ideKeys := put 0 s.io.ideKeys k (look 0 s.io.ideKeys k + 1) } }

/-- PERST_N_RELEASE: PERST# of link `n` is released. -/
def execPerstNRelease (n : Nat) (s : State) : Out := ok { s with boot := { s.boot with perst := s.boot.perst ||| BitVec.ofNat 2 (2 ^ n) } }

end Sys2Proof.Machine
end

