-- ==== Sys2Proof/Machine/Secure.lean ====
section
/-! DEFINITION. Sessions, identity, roles, keys and partitions: commands 0x01xx and 0x02xx (16_partitions_and_security.md). What
cryptography decides comes as operands; keys are identities, nonces, certificates and signatures are free values. -/

namespace Sys2Proof.Machine

/-! ### Session opening (R432, R434 to R436, R444) -/

/-- A session opening that fails: at most 64 a second are recorded, the rest counted in OPEN_FAIL. -/
def State.failOpen (s : State) (h : Hdr) (op st : Nat) : State :=
  let sec := s.hallNow / 10 ^ 9
  let n := if s.openSec.1 = sec then s.openSec.2 else 0
  let s1 := if n < 64 then ({ s with openSec := (sec, n + 1) }).auditAdd .none 0x05 op st h.part h.sid 0 (paramHash h)
    else { s with openFail := s.openFail + 1 }
  s1.reply h op st []

/-- A command of session opening: its failures are recorded as such; its completion is tagged under the key of session `sid`, once that is
proved (Table 16.5). -/
def State.openCommand (s : State) (h : Hdr) (op sid : Nat) (enc : Bool) (body : State → Did) : Out :=
  if !s.serves h || s.waits h op then ok s
  else
    match (s.begin h op).accepts h op false enc with
    | (s1, some st) => ok (s1.failOpen h op st)
    | (s1, none) =>
      match body s1 with
      | (s2, none) => ok s2
      | (s2, some (0, res)) =>
        ok (s2.postTo (((s2.session sid).filter (fun x => x.proved)).map (fun x => x.key)) h op (finalStatus h 0 res) res)
      | (s2, some (st, _)) => ok (s2.failOpen h op st)

def roleOf (r : Nat) : Role := if r = 1 then .operator else if r = 2 then .installer else if r = 3 then .maker else .none

/-- The smallest SID not in use. -/
def State.freeSid (s : State) : Nat := ((List.range 33).find? (fun i => (s.session (i + 1)).isNone)).getD 32 + 1

/-- The session certificate (Table 16.6), signed by the identity key. -/
def State.sessionCertNo (s : State) : Nat :=
  let n := s.fuses.serial
  leFields [(0, 4, 0x49544331), (4, 1, 3), (5, 1, 2), (8, 8, n), (16, 32, (Config.sha3 (leBytes 1312 (Config.deviceKey n 0))).toNat)
           , (64, 1184, Config.deviceKey n 1), (1248, 2420, Config.deviceKey n 2)]

/-- A certificate in a result: its length, then its bytes. -/
def State.sessionCert (s : State) : List (Nat × Nat) := [(4, 3668), (3668, s.sessionCertNo)]

/-- T of Table 16.5. -/
def proofT (sid role : Nat) (kh : Hash) (nonce c : Nat) : Hash :=
  Config.sha3 (leBytes 2 sid ++ [role] ++ leBytes 32 kh.toNat ++ leBytes 32 nonce ++ leBytes 32 (Config.sha3 (leBytes 1088 c)).toNat)

/-- SESSION_OPEN: SID, nonce, session certificate. -/
def execSessionOpen (h : Hdr) (role : Nat) (kh : Hash) (s : State) : Out :=
  s.openCommand h 0x0101 0 (decide (1 ≤ role ∧ role ≤ 3)) (fun s =>
    let r := roleOf role
    let opPath := decide (h.fn = 0) || (decide (1 ≤ h.fn ∧ h.fn ≤ 16) && s.exists? (h.fn - 1) &&
      decide (look 0 s.keys.operators (s.part (h.fn - 1)).sx.opEntry = kh))
    let path := if r = .operator then opPath else s.pathOk h.fn r 0
    if !path then ended s 0x01
    else if 32 ≤ s.sessions.length then ended s 0x05
    else
      let sid := s.freeSid
      okWith ({ s with sessions := put none s.sessions sid (some { role := r, kh, nonce := Config.secret s.freeCtr, openAt := s.wallNs })
                       freeCtr := s.freeCtr + 1 })
        ((2, sid) :: (32, Config.secret s.freeCtr) :: s.sessionCert))

/-- The entry of a key hash in a role's table. -/
def keyEntry (m : SMap Hash) (kh : Hash) : Option Nat := (m.find? (fun e => decide (e.2 = kh))).map (·.1)

/-- The entry under which the role's table holds KH; the maker's certificate stands for its table. -/
def State.roleEntry (s : State) (r : Role) (kh : Hash) (pf : ProveIn) : Option Nat :=
  match r with
  | .operator => keyEntry s.keys.operators kh
  | .installer => keyEntry s.keys.installers kh
  | .maker => if pf.certOk then some 0 else none
  | _ => none

/-- Free a SID that is not proved. -/
def State.freeUnproved (s : State) (sid : Nat) : State :=
  match s.session sid with
  | none => s
  | some x => if x.proved then s else { s with sessions := put none s.sessions sid none }

/-- A session is open: its audit entry (Table 16.8). -/
def State.opened (s : State) (sid : Nat) (x : Session) : State :=
  ({ s with sessions := put none s.sessions sid (some x) }).auditAdd x.role 0x04 0 0 0xFF sid x.kh 0

/-- The session key: of the secret of the ciphertext, with the passphrase value in a passphrase session, and T (R432, R435). -/
def State.sessionKey (s : State) (sid : Nat) (x : Session) (c : Nat) (v : List Nat) : Hash :=
  Config.kmac (leBytes 32 (Config.decapSession s.fuses.serial c).toNat ++ v) (leBytes 32 (proofT sid (roleNo x.role) x.kh x.nonce c).toNat)
    "ITMIR-SESSION"

/-- SESSION_PROVE. -/
def execSessionProve (h : Hdr) (sid : Nat) (pf : ProveIn) (s : State) : Out :=
  s.openCommand h 0x0102 sid (decide (sid < 65536)) (fun s =>
    match s.session sid with
    | none => ended s 0x01
    | some x =>
      match s.roleEntry x.role x.kh pf with
      | none => ended (s.freeUnproved sid) 0x01
      | some e =>
        if x.proved || x.pass || decide (x.openAt + 10 ^ 10 < s.wallNs) || decide (Config.sha3 (leBytes 1312 pf.pk) ≠ x.kh) || !pf.sigOk ||
            !pf.capsOk then ended (s.freeUnproved sid) 0x01
        else okWith (s.opened sid 
          { x with proved := true, entry := e, lastAt := s.wallNs, key := s.sessionKey sid x pf.c [] }) [])

/-- PASS_OPEN: SID, nonce, salt, session certificate. -/
def execPassOpen (h : Hdr) (s : State) : Out :=
  s.openCommand h 0x0103 0 true (fun s =>
    if h.fn ≠ 17 ∨ !s.keys.passSet then ended s 0x01
    else if s.keys.passLock ∨ 32 ≤ s.sessions.length then ended s 0x05
    else
      let sid := s.freeSid
      okWith ({ s with sessions := put none s.sessions sid (some { role := .installer, kh := 0, pass := true, nonce := Config.secret s.freeCtr
                                                                   openAt := s.wallNs })
                       freeCtr := s.freeCtr + 1 })
        ((2, sid) :: (32, Config.secret s.freeCtr) :: (16, s.keys.salt) :: s.sessionCert))

/-- The proof P of a passphrase session (R435). -/
def State.passProof (s : State) (sid : Nat) (x : Session) (c : Nat) : Hash :=
  Config.kmac (leBytes 32 s.keys.passV.toNat) (leBytes 32 (proofT sid 2 0 x.nonce c).toNat) "ITMIR-PASS"

/-- The lock that the `n`-th consecutive failure sets, in ns (R436). -/
def passLockNs (n : Nat) : Nat := min 3600 (60 * 2 ^ (n - 5)) * 10 ^ 9

/-- PASS_PROVE: from the fifth consecutive failure on, each locks passphrase opening. -/
def execPassProve (h : Hdr) (sid : Nat) (pf : ProveIn) (s : State) : Out :=
  s.openCommand h 0x0104 sid (decide (sid < 65536)) (fun s =>
    let fail (s : State) : Did :=
      let n := s.keys.passFails + 1
      ended { s with keys := { s.keys with
        passFails := n, passLock := s.keys.passLock || decide (5 ≤ n), passUntil := if 5 ≤ n then s.wallNs + passLockNs n else s.keys.passUntil } } 0x01
    if h.fn ≠ 17 then ended s 0x01
    else
      match s.session sid with
      | none => fail s
      | some x =>
        if x.proved || !x.pass || decide (x.openAt + 10 ^ 10 < s.wallNs) || decide (pf.proof ≠ s.passProof sid x pf.c) || !pf.capsOk then
          fail (s.freeUnproved sid)
        else okWith (({ s with keys := { s.keys with passFails := 0 } }).opened sid
          { x with proved := true, lastAt := s.wallNs, key := s.sessionKey sid x pf.c (leBytes 32 s.keys.passV.toNat) }) [])

/-- SESSION_CLOSE: the session ends once its completion is posted. -/
def execSessionClose (h : Hdr) (s : State) : Out :=
  if !s.serves h || s.waits h 0x0105 then ok s
  else
    match (s.begin h 0x0105).accepts h 0x0105 false true with
    | (s1, some st) => ok (s1.post h 0x0105 st [])
    | (s1, none) => ok ((s1.post h 0x0105 0 []).endSession h.sid)

/-! ### Identity and attestation (R440 to R442) -/

/-- IDENTITY_READ: intermediate, identity and session certificates. -/
def execIdentityRead (h : Hdr) (s : State) : Out :=
  s.command h 0x0106 false true (fun s =>
    okWith s ([(4, 3796), (3796, s.keys.certs.getD 0 0), (4, 3796), (3796, s.keys.certs.getD 1 0)] ++ s.sessionCert))

def pstateNo : PState → Nat
  | .empty => 0
  | .staged => 1
  | .armed => 2
  | .running => 3
  | .faulted => 4
  | .stopped => 5

def jstateNo : JState → Nat
  | .none => 0
  | .joined => 1
  | .seeding => 2
  | .seeded => 3
  | .member => 4
  | .pruned => 5
  | .spare => 6

/-- CLEAN_ZERO of a partition. -/
def Part.cleanZero (p : Part) : Bool := p.sx.zeroPend.isEmpty

/-- The attestation of a partition is clean (R377). -/
def Part.clean (p : Part) : Bool := p.cleanZero && p.sx.cleanKeys

/-- The scions of the active set that are VALID, ascending. -/
def Part.scionList (p : Part) : List Nat := p.actSet.scions.filterMap (fun e => if e.2.isSome then some e.1 else none)

/-- Scion number and bundle digest of each of them. -/
def Part.scionBytes (p : Part) : List Nat := p.scionList.foldl (fun a v => a ++ leBytes 2 v ++ leBytes 32 (look 0 p.actSet.digs v).toNat) []

/-- The fields of the report before its signature (Table 16.7). -/
def State.report (s : State) (p : Nat) (nonce : Hash) : List (Nat × Nat) :=
  let q := s.part p
  let flags := b2n q.cleanZero + 2 * b2n q.sx.cleanKeys + 4 * b2n s.keys.debugOn + 8 * b2n s.pwr.gustAct + 16 * b2n q.sx.jobKey.isSome
  let tenant (i : Nat) : Nat × Nat := (32, (look 0 q.sx.tenants i).toNat)
  [(4, 0x49544131), (1, s.fuses.grade), (1, p), (1, pstateNo q.st), (1, flags), (8, s.fuses.serial), (32, nonce.toNat), (8, s.hallNow),
    (2, s.keys.attestEp.toNat), (2, q.sx.keyGen.toNat), (2, s.fuses.debugCnt), (2, 0), (32, s.spRun.toNat), (32, s.mgRun.toNat),
    (32, (q.image.map (fun i => (imgDigest i).toNat)).getD 0), (32, if q.actSet.valid then q.actSet.digest.toNat else 0),
    (32, if q.scionList.isEmpty then 0 else (Config.sha3 q.scionBytes).toNat)] ++ (List.range 4).map tenant ++
    [(4, q.jb.job), (2, if q.jb.jstate = .none then 0xFFFF else q.rank), (2, 0), (32, s.auditHead.toNat), (8, s.auditIdx - 1),
     (32, (Config.sha3 (leBytes 3796 (s.keys.certs.getD 1 0))).toNat), (1184, Config.secret q.sx.wrapGen), (48, 0)]

/-- ATTEST. -/
def execAttest (h : Hdr) (nonce : Hash) (s : State) : Out :=
  s.onPartition h 0x0107 false true (fun s =>
    okWith { s with freeCtr := s.freeCtr + 1 } (s.report h.part nonce ++ [(2420, Config.secret s.freeCtr)]))

/-! ### The audit log (R443, R444) -/

/-- An audit entry in a result. -/
def auditFields (e : Audit) : List (Nat × Nat) :=
  [(8, e.index), (8, e.hallNs), (1, roleNo e.role), (1, e.event), (2, e.opcode), (1, e.status), (1, e.part), (2, e.sid), (8, e.keyId.toNat),
   (32, e.param.toNat), (32, e.prev.toNat)]

/-- AUDIT_READ: entries by index range (sel 0), or a checkpoint record (sel 1). -/
def execAuditRead (h : Hdr) (sel first count : Nat) (s : State) : Out :=
  s.command h 0x0108 false (decide (sel ≤ 1)) (fun s =>
    if sel = 0 then
      if count = 0 ∨ s.auditIdx < first + count then ended s 0x03
      else if s.auditIdx - s.audit.length > first then ended s 0x07
      else okWith s ((s.audit.filter (fun e => decide (first ≤ e.index ∧ e.index < first + count))).foldl (fun l e => l ++ auditFields e) [])
    else
      match s.checks.find? (fun r => decide (r.index = first)) with
      | some r => okWith s [(8, s.fuses.serial), (8, r.index), (32, r.chain.toNat), (8, r.hallNs), (2420, Config.deviceKey s.fuses.serial (3 + r.index))]
      | none =>
        if s.auditIdx ≤ first ∨ first % 1024 ≠ 0 then ended s 0x03
    else ended s 0x07)

/-! ### Role keys, passphrase, tenants (R428, R430, R431, R436) -/

/-- Every session opened with a key ends. -/
def State.dropKeySessions (s : State) (r : Role) (kh : Hash) : State :=
  s.sessions.foldl (fun t e => match e.2 with
    | some x => if x.role = r ∧ x.kh = kh ∧ !x.pass then t.endSession e.1 else t
    | none => t) s

/-- ROLE_KEY_SET: table 1 operator, 2 installer; hash 0 removes (log entry 32). -/
def execRoleKeySet (h : Hdr) (table entry : Nat) (kh : Hash) (parts : List Nat) (s : State) : Out :=
  s.command h 0x0109 false (decide ((table = 1 ∧ entry < 16) ∨ (table = 2 ∧ entry < 4)) && parts.all (fun p => decide (p < 16))) (fun s =>
    if table = 2 then
      let m := put 0 s.keys.installers entry kh
      if m.isEmpty then ended s 0x03
      else
        let old := look 0 s.keys.installers entry
        let s1 : State := { s with keys := { s.keys with installers := m } }
        okWith (if old ≠ 0 ∧ old ≠ kh then s1.dropKeySessions .installer old else s1) []
    else
      let old := look 0 s.keys.operators entry
      let set := BitVec.ofNat 16 ((List.range 16).foldl (fun a p => if parts.contains p then a + 2 ^ p else a) 0)
      let s1 : State := { s with keys := { s.keys with
        operators := put 0 s.keys.operators entry kh, opParts := put 0 s.keys.opParts entry (if kh = 0 then 0 else set) } }
      okWith (if old ≠ 0 ∧ old ≠ kh then s1.dropKeySessions .operator old else s1) [])

/-- PASSPHRASE_SET: none removes it; 12 to 128 bytes set it with a new salt. -/
def execPassphraseSet (h : Hdr) (pass : List Nat) (s : State) : Out :=
  s.command h 0x010A false (pass.all (fun b => decide (b < 256))) (fun s =>
    if pass.isEmpty then okWith { s with keys := { s.keys with passSet := false, salt := 0, passV := 0 } } []
    else if pass.length < 12 ∨ 128 < pass.length then ended s 0x03
    else
      let salt := Config.secret s.freeCtr
      okWith { s with keys := { s.keys with passSet := true, salt, passV := Config.sha3 (leBytes 16 salt ++ pass), passFails := 0 }
                      freeCtr := s.freeCtr + 1 } [])

/-- Binding is refused unless the partition has no plan running and no job. -/
def Part.bindBusy (p : Part) : Bool := !decide ((p.st = .empty ∨ p.st = .staged) ∧ p.jb.jstate = .none)

/-- TENANT_BIND. -/
def execTenantBind (h : Hdr) (entry : Nat) (kh : Hash) (s : State) : Out :=
  s.onPartition h 0x010B false (decide (entry < 4)) (fun s =>
    if kh = 0 then ended s 0x03
    else if (s.part h.part).bindBusy then ended s 0x05
    else okWith (s.onPart h.part (fun q => { q with sx := { q.sx with tenants := put 0 q.sx.tenants entry kh } })) [])

/-- TENANT_UNBIND. -/
def execTenantUnbind (h : Hdr) (entry : Nat) (kh : Hash) (s : State) : Out :=
  s.onPartition h 0x010C false (decide (entry < 4)) (fun s =>
    if kh = 0 ∨ look 0 (s.part h.part).sx.tenants entry ≠ kh then ended s 0x03
    else if (s.part h.part).bindBusy then ended s 0x05
    else okWith (s.onPart h.part (fun q => { q with sx := { q.sx with tenants := put 0 q.sx.tenants entry 0 } })) [])

/-! ### Keys and zeroisation (R417, R421, R422, R445, R446) -/

/-- Every lease index of a partition. -/
def Part.allLeases (p : Part) : List (Tier × Nat) :=
  ((p.stackTabA ++ p.stackTabB).map (fun e => (Tier.stack, e.1)) ++ (p.coldTabA ++ p.coldTabB).map (fun e => (Tier.cold, e.1))).eraseDups

def WSet.gone (_ : WSet) : WSet := {}

/-- Replace a partition's data keys and wrap key: KEY_GEN rises, the key slots take the new keys, every lease is to be zeroised to
all-zero ciphertext (R218), every bundle is invalid and the job key is discarded. -/
def State.newKeys (s : State) (p : Nat) : State :=
  let k := s.nextKey
  let s1 := ({ s with nextKey := k + 3 }).onPart p (fun q =>
    { q with stackKey := k, coldKey := k + 1, setA := q.setA.gone, setB := q.setB.gone
             sx := { q.sx with keyGen := q.sx.keyGen + 1, wrapGen := k + 2, cleanKeys := true, jobKey := none, jobKeyWait := none } })
  ((s1.part p).allLeases.foldl (fun s e => s.pendLease p false (fun _ => true) e) s1).fillSlots p

/-- Set everything a block holds to zero (R417); its cells' counters stay. -/
def State.zeroBlock (s : State) (b : Nat) : State :=
  { s with cells := dropKeys s.cells (fun c => decide (blockOf c = b)) }.onBlock b (fun x => { Block.zero with owner := x.owner, rin := x.rin })

/-- KEY_ROTATE. -/
def execKeyRotate (h : Hdr) (s : State) : Out :=
  s.onPartition h 0x010D false true (fun s =>
    let q := s.part h.part
    if s.keys.debugOn then ended s 0x01
    else if q.active? ∨ q.jb.jstate ≠ .none ∨ q.bundle.isSome ∨ q.bankLoad.isSome then ended s 0x05
    else okWith (s.newKeys h.part) [])

/-- ZEROISE_ALL's work: every partition gets new keys, its blocks, leases and landing area are zeroised, and every shadow region
held is. Its plan is gone with its tables and banks (log entry 33). -/
def State.zeroiseAll (s : State) : State :=
  let one (s : State) (p : Nat) : State :=
    if s.exists? p then
      let s1 := (s.unload p).newKeys p
      let s2 := (s1.ownBlocks p).foldl State.zeroBlock s1
      s2.onPart p (fun q => { q with recs := [], outRing := [], park := [], slots := [], saved := {}, win := {}, replay := none })
    else s
  let s1 := allParts.foldl one s
  { s1 with shadows := mapv Shadow.zero s1.shadows (fun _ x => { Shadow.zero with incompl := true, map := x.map, twinSize := x.twinSize }) }

/-- Some partition is ARMED or RUNNING. -/
def State.anyActive (s : State) : Bool := !s.activeParts.isEmpty

def execZeroiseAll (h : Hdr) (s : State) : Out :=
  s.command h 0x0205 false true (fun s => if s.anyActive then ended s 0x05 else okWith s.zeroiseAll [])

/-- Every key slot empty, job keys and the pair key discarded. -/
def State.dropKeys (s : State) : State :=
  { s with
    keys := { s.keys with pairKey := false }
    stks := mapv Stack.zero s.stks (fun _ y => { y with keys := [] }), cold := { s.cold with keys := [] }
    parts := mapv Part.zero s.parts (fun _ (q : Part) =>
      { q with stackKey := 0, coldKey := 0, sx := { q.sx with jobKey := none, jobKeyWait := none } }) }

/-- DEBUG_UNLOCK. -/
def execDebugUnlock (h : Hdr) (tokenOk : Bool) (s : State) : Out :=
  s.command h 0x0111 false true (fun s =>
    if !tokenOk then ended s 0x01
    else if s.anyActive then ended s 0x05
    else
      let s1 := s.zeroiseAll.dropKeys
      let s2 : State := { s1 with fuses := { s1.fuses with debugCnt := s1.fuses.debugCnt + 1 }, keys := { s1.keys with debugOn := true } }
      let x := (s2.session h.sid).getD {}
      okWith (s2.auditAdd x.role 0x08 0 0 0xFF h.sid x.kh 0) [])

/-- TWIN_PAIR: the expected serial of the twin, or none: the shadow regions held for it are zeroised. -/
def execTwinPair (h : Hdr) (serial : Option Nat) (s : State) : Out :=
  s.command h 0x010E false true (fun s =>
    if serial = some s.fuses.serial then ended s 0x03
    else
      let s1 : State := { s with keys := { s.keys with twinSerial := serial, pairKey := s.keys.pairKey && decide (serial = s.keys.twinSerial) } }
      okWith (if serial.isNone then { s1 with shadows := mapv Shadow.zero s1.shadows (fun _ _ => { Shadow.zero with incompl := true }) }
        else s1) [])

/-- PROVISION: certificates and the first installer key. -/
def execProvision (h : Hdr) (certs : List Nat) (kh : Hash) (s : State) : Out :=
  s.command h 0x0110 false true (fun s =>
    if kh = 0 ∨ certs.isEmpty then ended s 0x03
    else if s.anyActive then ended s 0x05
    else okWith { s with keys := { s.keys with certs, installers := put 0 s.keys.installers 0 kh } } [])

/-! ### Partitions (R414 to R418) -/

/-- Targets of a partition's lease table in a tier. -/
def Part.targets (p : Part) (tier : Tier) : List LeaseLoc :=
  let m := if tier = .stack then p.stackTabA ++ p.stackTabB else p.coldTabA ++ p.coldTabB
  m.filterMap (·.2)

def locOf (l : LeaseT) : LeaseLoc := { unit := l.unit, ch := l.ch, sub := l.sub }

/-- A block is DEGRADED: more than two retired cells (R179). -/
def State.degraded (s : State) (b : Nat) : Bool := decide ((s.goodCells b).length < 16)

/-- The encoding of a partition definition. -/
def State.defOk (s : State) (d : PartDef) : Bool :=
  d.stack.all (fun l => decide (l.idx < 0x3F0 ∧ l.unit < 12 ∧ l.ch < 16 ∧ l.sub < s.quarters)) &&
  d.cold.all (fun l => decide (l.idx < 1024 ∧ l.unit = 0 ∧ l.ch < 16 ∧ l.sub < s.slices)) &&
  decide (1 ≤ d.landing.length ∧ d.landing.length ≤ 16 ∧ d.entry < 16)

/-- A lease target that the definition may not name. -/
def State.targetBad (s : State) (p : Nat) (tier : Tier) (l : LeaseT) : Bool :=
  let loc := locOf l
  (allParts.filter (fun o => o != p)).any (fun o => ((s.part o).targets tier).contains loc) ||
    (match tier with
     | .stack => decide ((s.stack l.unit).state = .failed)
     | .cold => decide (s.cold.state = .failed) || (calShadow s.calLoad).slices.contains (64 * l.ch + l.sub))

/-- The conditions of R415. -/
def State.layoutBad (s : State) (p : Nat) (d : PartDef) : Bool :=
  (List.range 64).any (fun b => d.blocks.getLsbD b &&
    (!s.enginePresent b || s.degraded b || decide ((s.block b).owner.isSome ∧ (s.block b).owner ≠ some p))) ||
  d.stack.any (s.targetBad p .stack) || d.cold.any (s.targetBad p .cold) ||
  !decide (((d.stack.map locOf).eraseDups.length = d.stack.length) ∧ (d.cold.map locOf).eraseDups.length = d.cold.length) ||
  d.landing.any (fun i => !d.cold.any (fun l => decide (l.idx = i))) ||
  decide (s.pwr.capW < (allParts.foldl (fun a o => if o ≠ p ∧ s.exists? o then a + (s.part o).pw.alloc else a) 0) + d.alloc) ||
  decide (look 0 s.keys.operators d.entry = 0) || !(look 0 s.keys.opParts d.entry).getLsbD p

/-- Lease tables of a list of targets: of two entries with one index the first is set A's, the second set B's; an index named
once stands in both (log entry 34). -/
def tabOf (l : List LeaseT) (setB : Bool) : SMap (Option LeaseLoc) :=
  (l.map (·.idx)).eraseDups.foldl (fun m i =>
    let es := l.filter (fun x => decide (x.idx = i))
    put none m i (((if setB then es.getLast? else es.head?)).map locOf)) []

/-- Give the partition its layout: blocks and leases that join or leave are zeroised (R417, R218), and the key slots follow. -/
def State.layout (s : State) (p : Nat) (d : PartDef) : State :=
  let q := s.part p
  let move := (List.range 64).filter (fun b => d.blocks.getLsbD b != decide ((s.block b).owner = some p))
  let s1 := move.foldl (fun s b => (s.zeroBlock b).onBlock b (fun x => { x with owner := if d.blocks.getLsbD b then some p else none })) s
  let gone (t : Tier) (l : List LeaseT) : List LeaseLoc := (q.targets t).filter (fun o => !(l.map locOf).contains o)
  let s2 := (gone .stack d.stack).foldl (fun s o => s.zeroPlace .stack o {}) s1
  let s3 := (gone .cold d.cold).foldl (fun s o => s.zeroPlace .cold o {}) s2
  let s4 := s3.onPart p (fun q =>
    let tabs := { q with stackTabA := tabOf d.stack false, stackTabB := tabOf d.stack true, coldTabA := tabOf d.cold false
                         coldTabB := tabOf d.cold true, landLeases := d.landing, pw := { q.pw with alloc := d.alloc } }
    { tabs with sx := { q.sx with created := true, opEntry := d.entry, zeroPend := q.sx.zeroPend.filter (fun e => tabs.allLeases.contains e) } })
  let join (t : Tier) (l : List LeaseT) (s : State) : State :=
    let new := (l.map locOf).filter (fun o => !(q.targets t).contains o)
    ((l.filter (fun x => new.contains (locOf x))).map (·.idx)).eraseDups.foldl (fun s i => s.pendLease p true (fun o => new.contains o) (t, i)) s
  let s5 := (join .cold d.cold (join .stack d.stack s4)).fillSlots p
  let s6 := (List.range 64).foldl (fun s b => if d.blocks.getLsbD b then s.domUp b else s) s5
  if q.pw.alloc < d.alloc then s6.convCheck (((List.range 5).find? (fun i => !s6.pwr.convOk.getLsbD i)).getD 0) else s6

/-- A block mask names a fused block. -/
def State.masksAbsent (s : State) (d : PartDef) : Bool := (List.range 64).any (fun b => d.blocks.getLsbD b && !s.enginePresent b)

/-- PART_CREATE: KEY_GEN counts from 0 and the first keys make it 1; the leases that join are zeroised under them. -/
def execPartCreate (h : Hdr) (d : PartDef) (s : State) : Out :=
  s.command h 0x0201 (s.masksAbsent d) (decide (h.part < 16) && s.defOk d) (fun s =>
    if s.keys.debugOn then ended s 0x01
    else if s.exists? h.part then ended s 0x05
    else if s.layoutBad h.part d then ended s 0x03
    else okWith (((s.setPart h.part Part.zero).newKeys h.part).layout h.part d) [])

/-- The partition has a plan or a job (R416). -/
def Part.resizeBusy (p : Part) : Bool := !decide (p.st = .empty ∧ p.jb.jstate = .none)

/-- PART_RESIZE. -/
def execPartResize (h : Hdr) (d : PartDef) (s : State) : Out :=
  s.onPartition h 0x0202 (s.masksAbsent d) (s.defOk d) (fun s =>
    if (s.part h.part).resizeBusy then ended s 0x05
    else if s.layoutBad h.part d then ended s 0x03
    else okWith (s.layout h.part d) [])

/-- PART_DESTROY: leases and blocks leave, keys go. -/
def execPartDestroy (h : Hdr) (s : State) : Out :=
  s.onPartition h 0x0203 false true (fun s =>
    if (s.part h.part).resizeBusy then ended s 0x05
    else
      let s1 := s.layout h.part { blocks := 0, stack := [], cold := [], landing := [], alloc := 0, entry := 0 }
      okWith ((s1.setPart h.part Part.zero).fillSlots h.part) [])

def loadStatusNo : LoadStatus → Nat
  | .none => 0
  | .busy => 1
  | .done => 2
  | .failed => 3

/-- PART_STATUS: the partition's layout and state; the spec gives no layout of its results (log entry 35). -/
def execPartStatus (h : Hdr) (s : State) : Out :=
  s.onPartition h 0x0204 false true (fun s =>
    let q := s.part h.part
    let blocks := (s.ownBlocks h.part).foldl (fun a b => a + 2 ^ b) 0
    let leases (t : Tier) : List (Nat × Nat) := (2, (q.targets t).length) :: ((q.targets t).map (fun l => (4, l.unit * 65536 + l.ch * 256 + l.sub)))
    okWith s ([(1, pstateNo q.st), (1, jstateNo q.jb.jstate), (2, q.sx.opEntry), (4, q.pw.alloc), (8, blocks), (8, q.planFrame), (8, q.stepNo)] ++
      leases .stack ++ leases .cold ++ (2, q.landLeases.length) :: q.landLeases.map (fun i => (2, i))))

end Sys2Proof.Machine
end

