-- ==== Sys2Proof/Machine/Bundles.lean ====
section
/-! DEFINITION. Bundles (09_weights_and_scions.md): their bytes, digests and signature (R221, R222), the checks of their fields (R223)
and of their tile records (R234), and a bundle image read from the cold frame (R225). -/

namespace Sys2Proof.Machine

/-! ### Bytes and digests (R221, R222, Tables 9.1, 9.2) -/

/-- The 256 bytes of a header. -/
def headBytes (b : Bundle) : List Nat :=
  leBytes 4 b.format ++ leBytes 2 b.kind ++ leBytes 2 b.sections ++ leBytes 4 b.layouts ++ leBytes 4 b.zero0 ++ leBytes 16 b.modelId.toNat ++
    leBytes 32 b.rootDigest.toNat ++ leBytes 8 b.span ++ leBytes 1 b.recLines ++ leBytes 3 b.zero1 ++ leBytes 4 b.depth ++ leBytes 16 b.zero2 ++
    leBytes 32 b.signer.toNat ++ leBytes 128 b.zero3

/-- The 64 bytes of a section table entry. -/
def secBytes (x : BSec) : List Nat :=
  leBytes 1 x.tier ++ leBytes 1 x.content ++ leBytes 6 x.zero ++ leBytes 8 x.paddr ++ leBytes 8 x.lines ++ leBytes 8 x.off ++
    leBytes 32 x.digest.toNat

/-- The bundle digest: of the header and the section table. -/
def bundleDigest (b : Bundle) : Hash := Config.sha3 (headBytes b ++ b.secs.foldl (fun a x => a ++ secBytes x) [])

/-- The bytes of lines. -/
def linesBytes (l : List Line) : List Nat := l.foldl (fun a x => a ++ leBytes 256 x.toNat) []

/-- A section's DIGEST is that of its data (R224). -/
def secDigestOk (x : BSec) : Bool := decide (Config.sha3 (linesBytes x.data) = x.digest)

/-! ### Fields (R223) -/

def tierOf (n : Nat) : Tier := if n = 2 then .cold else .stack

/-- First byte after header, section table and signature. -/
def bundleData (b : Bundle) : Nat := 256 + 64 * b.sections + 2420

/-- A section table entry keeps Table 9.2. -/
def secFields (b : Bundle) (x : BSec) : Bool :=
  decide ((x.tier = 1 ∨ x.tier = 2) ∧ 1 ≤ x.content ∧ x.content ≤ 4 ∧ x.zero = 0 ∧ x.paddr % 256 = 0 ∧ 1 ≤ x.lines ∧ x.off % 256 = 0 ∧
    bundleData b ≤ x.off)

/-- The header keeps Table 9.1, and every section table entry Table 9.2. -/
def bundleFields (b : Bundle) : Bool :=
  decide (b.format = 0x49544231 ∧ (b.kind = 1 ∨ b.kind = 2) ∧ 1 ≤ b.sections ∧ b.sections ≤ 4096 ∧ b.secs.length = b.sections ∧
    b.zero0 = 0 ∧ b.zero1 = 0 ∧ b.zero2 = 0 ∧ b.zero3 = 0) &&
  (if b.kind = 1 then decide (b.layouts = 0 ∧ b.rootDigest = 0 ∧ b.span % 2048 = 0 ∧ 1 ≤ b.recLines ∧ b.recLines ≤ 4 ∧ b.depth = 0)
   else decide (b.layouts < 4 ∧ b.span = 0 ∧ b.recLines = 0 ∧ b.depth ≤ 65535)) &&
  b.secs.all (secFields b)

/-! ### Tile records (R234, Table 9.4) -/

/-- Record `r` of the lines of a tile breaks R234 by itself. -/
def recBad (ls : List Line) (r : Nat) : Bool :=
  let byte (i : Nat) : Nat := recByte ls r i
  if byte 32 / 128 = 1 then
    let n := maskBelow ls r 256
    decide (30 < n ∨ byte 33 = 0xFF) || (List.range 30).any (fun j => if j < n then decide (byte (34 + j) % 128 = 127) else decide (byte (34 + j) ≠ 0))
  else (List.range 64).any (fun i => decide (byte i ≠ 0))

/-- Two valid records of a tile name the same sub-tile. -/
def posShared (ls : List Line) : Bool :=
  let valid := (List.range (4 * ls.length)).filter (fun r => decide (recByte ls r 32 / 128 = 1))
  valid.any (fun r => valid.any (fun q => decide (r < q ∧ recByte ls r 32 % 64 = recByte ls q 32 % 64)))

/-- The tile records of a section keep R234, `k` lines to a tile from its first line on. -/
def recsOk (k : Nat) (x : BSec) : Bool :=
  x.content != 3 || (List.range ((x.data.length + k - 1) / k)).all (fun t =>
    let ls := (x.data.drop (k * t)).take k
    !posShared ls && (List.range (4 * ls.length)).all (fun r => !recBad ls r))

/-! ### A bundle image in the cold frame (R225) -/

/-- `n` bytes of a line from byte `o` on, little-endian. -/
def lineField (l : Line) (o n : Nat) : Nat := bits l.toNat (8 * o) (8 * n)

/-- A section table entry in the low 64 bytes of a line. -/
def secOf (l : Line) (data : Nat → Nat → List Line) : BSec :=
  let off := lineField l 0x18 8
  let lines := lineField l 0x10 8
  { tier := lineField l 0 1, content := lineField l 1 1, zero := lineField l 2 6, paddr := lineField l 8 8, lines, off
    digest := BitVec.ofNat 256 (lineField l 0x20 32), data := data off lines }

/-- The bundle image at cold-frame address `a` of partition `p`. -/
def State.bundleAt (s : State) (p a : Nat) (sigOk : Bool) : Bundle :=
  let line (o : Nat) : Line := s.partLine p .cold (a + o)
  let h := line 0
  let n := lineField h 6 2
  let data (off lines : Nat) : List Line := (List.range lines).map (fun j => line (off + 256 * j))
  { format := lineField h 0 4, kind := lineField h 4 2, sections := n, layouts := lineField h 8 4, zero0 := lineField h 0xC 4
    modelId := BitVec.ofNat 128 (lineField h 0x10 16), rootDigest := BitVec.ofNat 256 (lineField h 0x20 32), span := lineField h 0x40 8
    recLines := lineField h 0x48 1, zero1 := lineField h 0x49 3, depth := lineField h 0x4C 4, zero2 := lineField h 0x50 16
    signer := BitVec.ofNat 256 (lineField h 0x60 32), zero3 := lineField h 0x80 128
    secs := (List.range n).map (fun i => secOf (line (256 + 64 * i - 64 * i % 256) >>> (512 * (i % 4))) data), sigOk }

/-- The bundle that a load reads: of a host address or the seed tree as it is sent, of a cold-frame address as it stands there. -/
def State.bundleOf (s : State) (p : Nat) (src : Src) (bn : Bundle) : Bundle :=
  match src with
  | .cold a => s.bundleAt p a bn.sigOk
  | _ => bn

/-! ### Sets and targets (R223, R226, R227, R229, R230, R243) -/

def Part.set (p : Part) (b : Bool) : WSet := if b then p.setB else p.setA
def Part.onSet (p : Part) (b : Bool) (f : WSet → WSet) : Part := if b then { p with setB := f p.setB } else { p with setA := f p.setA }

/-- The partition's image needs more of a scion than the bundle gives (Table 15.6, SCION_POOL). -/
def Part.scionShort (p : Part) (bn : Bundle) : Bool :=
  p.addrMap.any (fun e => decide (e.kind = 5) &&
    (bit e.second 0 && !bit bn.layouts 0 || bit e.second 1 && !bit bn.layouts 1 || decide (e.aux % 65536 < bn.depth)))

/-- Lease indices that lines from an address reach. -/
def leasesAt (a n : Nat) : List Nat := idxRange a (a + 256 * n)

/-- Where a section of a load is written: partition addresses of its lines (R230). -/
def Part.secAddr (p : Part) (b : BLoad) (x : BSec) (j : Nat) : Nat :=
  let a := x.paddr + 256 * j
  if b.scion = 0 then a else (p.pool.getD (a / 2 ^ 30) 0) * 2 ^ 30 + b.slot * (p.set b.setB).span + a % 2 ^ 30

/-- The tier a section is written to: scions lie in stack leases (R230). -/
def BLoad.tier (b : BLoad) (x : BSec) : Tier := if b.scion = 0 then tierOf x.tier else .stack

def Part.secLeases (p : Part) (b : BLoad) : List (Tier × Nat) :=
  b.bn.secs.foldl (fun l x => l ++ (leasesAt x.paddr x.lines).map (fun i => (b.tier x, if b.scion = 0 then i else p.pool.getD i 0))) []

/-- Two sections overlap. -/
def secsMeet : List BSec → Bool
  | [] => false
  | x :: l => l.any (fun y => decide (x.tier = y.tier ∧ x.paddr < y.paddr + 256 * y.lines ∧ y.paddr < x.paddr + 256 * x.lines)) || secsMeet l

/-- A section lies where its bundle may not write (R223). -/
def Part.secBad (p : Part) (b : BLoad) (x : BSec) : Bool :=
  let l := leasesAt x.paddr x.lines
  if b.scion = 0 then !l.all (p.rotated (tierOf x.tier))
  else
    let span := (p.set b.setB).span
    !l.all (fun i => decide (i < p.pool.length)) ||
      (if l.length ≤ 1 then decide (span < x.paddr % 2 ^ 30 + 256 * x.lines) else decide (span < 2 ^ 30))

/-- The conditions of R223. A set whose rootstock is not VALID has no digest that a scion's ROOT_DIGEST could equal: BAD_PARAM (DESIGN
CHOICE, log entry 79). -/
def Part.bundleBad (p : Part) (b : BLoad) : Bool :=
  let bn := b.bn
  !bundleFields bn || !decide (bn.kind = (if b.scion = 0 then 1 else 2)) || secsMeet bn.secs || bn.secs.any (p.secBad b) ||
    (decide (b.scion ≠ 0) && (!(p.set b.setB).valid || decide (bn.rootDigest ≠ (p.set b.setB).digest) || p.scionShort bn))

/-- The pool slot is out of the leases, or held by another scion of the set (R229). -/
def Part.slotBad (p : Part) (b : BLoad) : Bool :=
  let w := p.set b.setB
  decide (b.scion ≠ 0) &&
    (decide (2 ^ 30 < b.slot * w.span + w.span) || w.scions.any (fun e => decide (e.1 ≠ b.scion ∧ e.2 = some b.slot)) ||
      w.pool.any (fun e => decide (e.1 ≠ b.scion ∧ e.2 = b.slot + 1)))

/-- An assigned request slot names the scion. -/
def Part.namesScion (p : Part) (v : Nat) : Bool := p.slots.any (fun e => e.2.assigned && decide (e.2.variant = v))

/-- A load aimed at the target is refused with BANK_ACTIVE (R226, R243). -/
def Part.targetActive (p : Part) (b : BLoad) : Bool :=
  if b.setB = p.active then
    decide (b.scion = 0) || (look none (p.set b.setB).scions b.scion).isSome || p.namesScion b.scion
  else p.pendRot.isSome

/-- The partition's plan is ARMED or RUNNING and its image reserves no load slots (R225). -/
def Part.noLoadSlots (p : Part) : Bool := p.active? && !p.leases.any (fun l => decide (l.use = 1))

/-- The tenant keys of the partition hold the bundle's signer, and the signature verifies (R222). -/
def Part.bundleSigned (p : Part) (bn : Bundle) : Bool := bn.sigOk && p.sx.tenants.any (fun e => decide (e.2 = bn.signer))

/-- The checks of a bundle load after its data is read: the status that refuses it, if any. A load into the standby set while HELD is 1
would write the set to which a discard returns; the spec names no status for it, BUSY as for BUNDLE_FREE (DESIGN CHOICE, log
entry 79). -/
def Part.bundleRefused (p : Part) (b : BLoad) : Option Nat :=
  if !p.bundleSigned b.bn then some 0x01
  else if p.bundleBad b then some 0x03
  else if p.noLoadSlots || p.held && decide (b.setB ≠ p.active) || p.zeroising (p.secLeases b) then some 0x05
  else if p.targetActive b then some 0x0B
  else if p.slotBad b then some 0x03
  else none

/-! ### Writing (R224) -/

/-- Begin writing a bundle: the target's VALID clears and its lines are written. -/
def State.startBundle (s : State) (p : Nat) (b : BLoad) : State :=
  let s1 := s.onPart p (fun q =>
    let q1 := q.onSet b.setB (fun w =>
      if b.scion = 0 then { w with valid := false, digest := bundleDigest b.bn, span := b.bn.span, recL := b.bn.recLines }
      else { w with scions := put none w.scions b.scion none, digs := put 0 w.digs b.scion (bundleDigest b.bn), pool := put 0 w.pool b.scion (b.slot + 1) })
    { q1 with bundle := some b, rotLoad := .busy })
  b.bn.secs.foldl (fun s x =>
    (List.range x.lines).foldl (fun s j =>
      s.putPart p (b.tier x) b.setB ((s.part p).secAddr b x j) (x.data.getD j 0)) s) s1

/-- Every section's digest matches, and the tile records of a scion keep R234 with K of its set's rootstock. -/
def Part.bundleGood (p : Part) (b : BLoad) : Bool :=
  b.bn.secs.all secDigestOk && (decide (b.scion = 0) || b.bn.secs.all (recsOk (p.set b.setB).recL))

/-- The load ends: VALID is set, or it ended with FAULT and VALID stays clear (R224, R234). -/
def Part.endBundle (p : Part) (b : BLoad) : Part :=
  let good := p.bundleGood b
  let q := p.onSet b.setB (fun w =>
    if b.scion = 0 then { w with valid := good } else { w with scions := put none w.scions b.scion (if good then some b.slot else none) })
  { q with bundle := none, rotLoad := if good then .done else .failed }

end Sys2Proof.Machine
end

