-- ==== Sys2Proof/Machine/HostPlan.lean ====
section
/-! DEFINITION. Commands 0x03xx, 0x04xx and 0x05xx: plan images, bundles, rotation and serving (09_weights_and_scions.md,
10_serving_state.md, 15_plan_image_and_sieve.md, 17_host_and_commands.md). -/

namespace Sys2Proof.Machine

/-! ### Landing records (R257 to R259, R462, R552) -/

/-- The first of the places `a`, `a + 4096`, … that overlaps no record; each record in the way moves the search past itself. -/
def placeFrom (recs : List (Nat × Nat)) (n hi : Nat) : Nat → Nat → Option Nat
  | _, 0 => none
  | a, fuel + 1 =>
    if hi < a + n then none
    else
      match recs.find? (fun r => decide (r.1 < a + n ∧ a < r.1 + r.2)) with
      | none => some a
      | some r => placeFrom recs n hi (r.1 + r.2) fuel

/-- First fit over the landing leases in the order named; the outbound ring holds the end of the last. -/
def Part.placeRec (p : Part) (n : Nat) : Option Nat :=
  let recs := p.recs.filterMap (fun e => e.2.map (fun r => (r.paddr, r.bytes)))
  let m := p.landLeases.length
  (List.range m).findSome? (fun j =>
    let i := p.landLeases.getD j 0
    let lo := i * 2 ^ 30
    placeFrom recs n (lo + 2 ^ 30 - (if j + 1 = m then p.ringBytes else 0)) lo (recs.length + 1))

/-- Land a record: none when the directory or the landing leases are full. Its lines are written in landing slots, by
COMPLETION_FLAG_SET (R257). -/
def State.land (s : State) (p kind : Nat) (slot : Option Nat) (arg : Nat) (lines : List Line) (h : Hdr) : Option State :=
  let q := s.part p
  let n := roundUp (256 * (lines.length + 1)) 4096
  match q.placeRec n with
  | none => none
  | some a =>
    if 65536 ≤ q.recs.length then none
    else
      let r : Rec := { kind, slot, arg, lines, paddr := a, bytes := n, flagAt := none, visible := false, held := false, hdr := some h }
      some (s.onPart p (fun q => { q with recs := put none q.recs q.nextSeq (some r), nextSeq := (q.nextSeq + 1) % 2 ^ 48 }))

/-- A command that lands a record completes when its completion flag is set. -/
def landed (s : State) (h : Hdr) (kind : Nat) (slot : Option Nat) (arg : Nat) (lines : List Line) : Did :=
  match s.land h.part kind slot arg lines h with
  | none => ended s 0x05
  | some t => (t, none)

/-! ### Plan images (R403 to R408, R418) -/

/-- The command's length fits the image. -/
def lengthOk (img : PlanImage) (len : Nat) : Bool := decide (len = img.hdr.imageBytes ∧ dataStart img.hdr ≤ len)

def bindingOk (x : Nat) : Bool := decide (x ≤ 3 ∨ x = 0xFF)

/-- The byte at cold-frame address `a` of partition `p`. -/
def State.coldByte (s : State) (p a : Nat) : Nat := bits (s.partLine p .cold (a - a % 256)).toNat (8 * (a % 256)) 8

/-- The bytes from cold-frame address `a` on are those of `l`. -/
def State.coldHolds (s : State) (p a : Nat) (l : List Nat) : Bool :=
  ((List.range l.length).zip l).all (fun e => decide (s.coldByte p (a + e.1) = e.2))

/-- The image that a command reads (Table 15.8): of a host address as it is sent; of a cold-frame address the image whose header,
directory and section data stand there, and where other bytes stand an image that no signature covers (log entry 20). -/
def State.imageOf (s : State) (p : Nat) (src : Src) (img : PlanImage) : PlanImage :=
  match src with
  | .cold a =>
    if s.coldHolds p a (headerBytes img.hdr ++ img.secs.foldl (fun l x => l ++ entryBytes x) []) &&
        img.secs.all (fun x => s.coldHolds p (a + x.off) (dataBytes x.data)) then img
    else { img with sigOk := false }
  | _ => img

/-- PLAN_LOAD. -/
def execPlanLoad (h : Hdr) (src : Src) (len x : Nat) (given : PlanImage) (s : State) : Out :=
  let img := s.imageOf h.part src given
  s.onPartition h 0x0301 false (srcOk h src && bindingOk x) (fun s =>
    let q := s.part h.part
    if q.loadBusy then ended s 0x05
    else if !srcRead h src then ended s 0x09
    else if !lengthOk img len then ended s 0x03
    else if q.zeroising (q.touches ((mineOf img q.rank).map (·.2))) then ended s 0x05
    else
      let v := (s.withRole h.part).sieve h.part img x false
      let s1 := s.onPart h.part (fun q => { q with sieve := v.reg })
      if v.check = 0 then okWith (s1.install h.part img v.x true) v.results else (s1, some (0x08, v.results)))

/-- PLAN_CHECK: the verdict, and nothing changed. -/
def execPlanCheck (h : Hdr) (src : Src) (len x : Nat) (given : PlanImage) (s : State) : Out :=
  let img := s.imageOf h.part src given
  s.onPartition h 0x0303 false (srcOk h src && bindingOk x) (fun s =>
    if !srcRead h src then ended s 0x09
    else if !lengthOk img len then ended s 0x03
    else
      let v := (s.withRole h.part).sieve h.part img x false
      (s, some (if v.check = 0 then 0 else 0x08, v.results)))

/-- PLAN_SECTION_LOAD: accepted, it writes a line in each slot it may use, VALID clearing with the first (R75, R79), and
INSTRUCTION_LOAD_COMPLETE ends it. A load refused leaves LOAD_STATUS "last load refused" (Table 3.5) unless one is in progress; one into
the bank that a consumed bank-switch record makes active at the body boundary is refused (R76). -/
def execPlanSectionLoad (h : Hdr) (src : Src) (len : Nat) (given : PlanImage) (s : State) : Out :=
  let img := s.imageOf h.part src given
  s.onPartition h 0x0302 false (srcOk h src) (fun s =>
    let q := s.part h.part
    let bank := !q.bankAct
    let refuse (s : State) (st : Nat) (res : List (Nat × Nat)) : Did := (s.onPart h.part (fun q => { q with bankStatus := .failed }), some (st, res))
    if q.bankLoad.isSome then ended s 0x05
    else if decide (q.st = .running) && !q.leases.any (fun l => decide (l.use = 4)) then refuse s 0x05 []
    else if !srcRead h src then refuse s 0x09 []
    else if !lengthOk img len then refuse s 0x03 []
    else if q.switchDue || img.secs.any (fun x => decide (x.sub / 256 % 2 ≠ b2n bank)) then refuse s 0x0B []
    else
      let v := s.sieveSection h.part img
      let s1 := s.onPart h.part (fun q => { q with sieve := v.reg })
      if v.check ≠ 0 then refuse s1 0x08 v.results
      else
        (s1.onPart h.part (fun q =>
          { q with bankLoad := some { bank, secs := (mineOf img q.rank).map (·.2), hdr := some h, done := 0 }, bankStatus := .busy, bankTarget := bank }), none))

/-- PLAN_UNLOAD. -/
def execPlanUnload (h : Hdr) (s : State) : Out :=
  s.onPartition h 0x0304 false true (fun s =>
    if (s.part h.part).loadBusy then ended s 0x05 else okWith (s.unload h.part) [])

/-- The hall frame is that of a mark at least 100 ms from now. -/
def State.markOk (s : State) (m : Nat) : Bool := decide (m % 10 = 0 ∧ s.hallNow + 10 ^ 8 ≤ 1024 * m)

/-- PLAN_START: rank 0, alone. -/
def execPlanStart (h : Hdr) (mark : Nat) (s : State) : Out :=
  s.onPartition h 0x0305 false true (fun s =>
    let q := s.part h.part
    if q.st ≠ .staged ∨ q.jb.jstate ≠ .none ∨ !s.hubOn then ended s 0x05
    else if !s.markOk mark then ended s 0x03
    else okWith (s.onPart h.part (fun q =>
      { q with st := .armed, rank := 0, jobSize := 1, jb := { q.jb with startMark := some mark, resume := none } })) [])

/-- PLAN_STOP. -/
def execPlanStop (h : Hdr) (s : State) : Out :=
  s.onPartition h 0x0306 false true (fun s =>
    let q := s.part h.part
    if q.jb.jstate ≠ .none then ended s 0x05
    else if q.st = .armed then
      okWith (s.onPart h.part (fun q => { q with st := .staged, jb := { q.jb with startMark := none, resume := none } })) []
    else if q.st = .running then landed s h 7 none 0 []
    else ended s 0x05)

/-- VALID of a bank: a complete load in every cell that carries code (Table 3.5). -/
def State.bankValid (s : State) (p : Nat) (bank : Bool) : Bool := (s.codeCells p).all (fun c => ((s.cell c).bank bank).valid)

/-- PLAN_BANK_SWITCH. -/
def execPlanBankSwitch (h : Hdr) (s : State) : Out :=
  s.onPartition h 0x0307 false true (fun s =>
    let q := s.part h.part
    match q.st with
    | .staged =>
      if s.bankValid h.part (!q.bankAct) then
        okWith (s.onPart h.part (fun q => { q with bankAct := !q.bankAct, switches := q.switches + 1 }.save)) []
      else ended s 0x03
    | .armed => landed s h 6 none 0 []
    | .running => landed s h 6 none 0 []
    | _ => ended s 0x05)

/-- Frame, step and epoch of a resumption (Table 17.13). -/
def Part.resumePoint (p : Part) : Nat × Nat × Nat :=
  match p.committed with
  | none => (p.planFrame + 1, 0, 0)
  | some c => (p.planFrame + 1, c + 1, (p.commEpoch.toNat + (p.kind p.commKind).epochAt.length + 2) % 65536)

/-- PLAN_RESUME: restages, then arms. -/
def execPlanResume (h : Hdr) (mark : Nat) (s : State) : Out :=
  s.onPartition h 0x0308 false true (fun s =>
    let q := s.part h.part
    if !decide (q.st = .faulted ∨ q.st = .stopped) || decide (q.jb.jstate ≠ .none) || q.zeroising (q.touches (q.base ++ q.variants)) || !s.hubOn
    then ended s 0x05
    else if !s.markOk mark then ended s 0x03
    else
      let r := s.restage h.part q.graftSel
      if r.2.check = 0 then
        okWith (r.1.onPart h.part (fun y =>
          { y with st := .armed, jobSize := 1, jb := { y.jb with startMark := some mark, resume := some q.resumePoint } })) []
      else ended r.1 0x08)

/-! ### Bundles (R222 to R226, R229, R230, R234, R243, R246) -/

/-- The bundle needs the merge units that the grade has not (R5, Table 9.8). -/
def State.mergeAbsent (s : State) (bn : Bundle) : Bool := decide (s.fuses.grade = 3 ∧ bn.kind = 2) && bit bn.layouts 0

/-- BUNDLE_LOAD. A refused load leaves LOAD_STATUS "last load refused". -/
def execBundleLoad (h : Hdr) (src : Src) (set : Bool) (scion slot : Nat) (bn : Bundle) (s : State) : Out :=
  s.onPartition h 0x0401 (s.mergeAbsent (s.bundleOf h.part src bn)) (srcOk h src && decide (scion < 4096)) (fun s =>
    let q := s.part h.part
    let b : BLoad := { setB := set, scion, slot, bn := s.bundleOf h.part src bn, hdr := some h }
    let refuse (st : Nat) : Did := ended (s.onPart h.part (fun q => { q with rotLoad := .failed })) st
    if q.bundle.isSome then ended s 0x05
    else if !srcRead h src then refuse 0x09
    else
      match q.bundleRefused b with
      | some st => refuse st
      | none => (s.startBundle h.part b, none))

/-- BUNDLE_LOAD_DONE: every section is written; VALID is set when every digest matches and the tile records keep R234. -/
def execBundleLoadDone (p : Nat) (s : State) : Out :=
  match (s.part p).bundle with
  | none => ok s
  | some b =>
    let good := (s.part p).bundleGood b
    ok ((s.onPart p (fun q => q.endBundle b)).post? b.hdr 0x0401 (if good then 0x00 else 0x09) [])

/-- BUNDLE_STATUS: the spec gives no layout of its results (log entry 36). -/
def execBundleStatus (h : Hdr) (set : Bool) (scion : Nat) (s : State) : Out :=
  s.onPartition h 0x0402 false (decide (scion < 4096)) (fun s =>
    let q := s.part h.part
    let w := q.set set
    let valid := if scion = 0 then w.valid else (look none w.scions scion).isSome
    okWith s [(1, b2n valid), (1, loadStatusNo q.rotLoad), (2, if scion = 0 then 0 else look 0 w.pool scion - 1), (32, if w.valid then w.digest.toNat else 0),
      (8, w.span)])

/-- BUNDLE_FREE. While a load writes the target it ends with BUSY (DESIGN CHOICE: the spec is silent, log entry 79). -/
def execBundleFree (h : Hdr) (set : Bool) (scion : Nat) (s : State) : Out :=
  s.onPartition h 0x0403 false (decide (scion < 4096)) (fun s =>
    let q := s.part h.part
    let one (w : WSet) : WSet := { w with scions := put none w.scions scion none, pool := put 0 w.pool scion 0 }
    let all (w : WSet) : WSet := { w with valid := false, scions := [], pool := [] }
    let loading := q.bundle.any (fun b => decide (b.setB = set ∧ (scion = 0 ∨ b.scion = scion)))
    if set = q.active then
      if scion = 0 then ended s 0x0B
      else if q.namesScion scion || loading then ended s 0x05
      else okWith (s.onPart h.part (fun q => q.onSet set one)) []
    else if q.held || q.pendRot.isSome || loading then ended s 0x05
    else okWith (s.onPart h.part (fun q => q.onSet set (if scion = 0 then all else one))) [])

/-- ROTATE. -/
def execRotate (h : Hdr) (step : Nat) (s : State) : Out :=
  s.onPartition h 0x0404 false (decide (step < 2 ^ 48)) (fun s =>
    let q := s.part h.part
    if q.pendRot.isSome || q.held then ended s 0x05
    else if step ≤ q.stepNo then ended s 0x07
    else if !q.standby.valid then ended s 0x03
    else landed s h 5 none step [])

/-! ### COLD_STAGE (R225, Table 17.13) -/

/-- A line that COLD_STAGE may not write. -/
def Part.stageBad (p : Part) (a : Nat) : Bool :=
  let i := a / 2 ^ 30
  p.landLeases.contains i || p.rotated .cold i || p.addrMap.any (fun e => decide (e.kind = 2 ∧ e.first < a + 256 ∧ a < e.last)) ||
    (p.entry .cold i false).isNone

/-- COLD_STAGE. -/
def execColdStage (h : Hdr) (host paddr lines : Nat) (data : List Line) (s : State) : Out :=
  s.onPartition h 0x0405 false (decide (h.fn ≠ 17 ∧ host < 2 ^ 64 ∧ paddr % 256 = 0 ∧ 1 ≤ lines ∧ paddr + 256 * lines ≤ 2 ^ 40)) (fun s =>
    let q := s.part h.part
    if (List.range lines).any (fun j => q.stageBad (paddr + 256 * j)) then ended s 0x03
    else if q.noLoadSlots || q.stageHdr.isSome then ended s 0x05
    else if !h.dmaOk then ended s 0x09
    else ((s.putLines h.part .cold paddr (data.take lines)).onPart h.part (fun q => { q with stageHdr := some h }), none))

/-- COLD_STAGE_DONE: the writing is finished. -/
def execColdStageDone (p : Nat) (s : State) : Out :=
  match (s.part p).stageHdr with
  | none => ok s
  | some h => ok ((s.onPart p (fun q => { q with stageHdr := none })).post h 0x0405 0x00 [])

/-! ### Serving commands (Table 10.14, R554) -/

/-- SLOTS of the installed image, 0 without a SERVING section. -/
def Part.slotCount (p : Part) : Nat := slotsOf p.serving

/-- 32-bit values as lines, 64 a line. -/
def wordLines (l : List Nat) : List Line :=
  (List.range ((l.length + 63) / 64)).map (fun j =>
    BitVec.ofNat 2048 ((List.range 64).foldl (fun a k => a + l.getD (64 * j + k) 0 * 2 ^ (32 * k)) 0))

/-- SLOT_INPUT. -/
def execSlotInput (h : Hdr) (slot host count : Nat) (tokens : List Lane) (s : State) : Out :=
  s.onPartition h 0x0501 false (decide (h.fn ≠ 17 ∧ host % 8 = 0 ∧ host < 2 ^ 64)) (fun s =>
    let q := s.part h.part
    let cap := match q.serving with
      | none => 0
      | some e => 64 * e.tokLines
    if q.slotCount ≤ slot ∨ count = 0 ∨ cap < count then ended s 0x03
    else if !h.dmaOk then ended s 0x09
    else landed s h 1 (some slot) count (wordLines ((List.range count).map (fun i => (tokens.getD i 0).toNat))))

/-- SLOT_ACCEPT. -/
def execSlotAccept (h : Hdr) (slot count : Nat) (s : State) : Out :=
  s.onPartition h 0x0502 false (decide (count ≤ 16)) (fun s =>
    if (s.part h.part).slotCount ≤ slot then ended s 0x03 else landed s h 2 (some slot) count [])

/-- SLOT_DEADLINE. -/
def execSlotDeadline (h : Hdr) (slot hallNs : Nat) (s : State) : Out :=
  s.onPartition h 0x0503 false (decide (hallNs < 2 ^ 64)) (fun s =>
    if (s.part h.part).slotCount ≤ slot then ended s 0x03 else landed s h 3 (some slot) hallNs [])

/-- The payload of a slot edit (Table 10.7). -/
def editLines (e : EditIn) : List Line :=
  BitVec.ofNat 2048 (e.op + e.variant * 2 ^ 16 + e.length * 2 ^ 32 + e.pageFirst * 2 ^ 64 + e.pages.length * 2 ^ 80 + e.ttlS * 2 ^ 96 +
    e.park * 2 ^ 128 + e.parkAddr * 2 ^ 192) :: wordLines (e.pages.map (fun g => if g = 0 then 0 else 2 ^ 31 + (g - 1)))

/-- SLOT_EDIT. -/
def execSlotEdit (h : Hdr) (slot host : Nat) (e : EditIn) (s : State) : Out :=
  s.onPartition h 0x0504 false (decide (h.fn ≠ 17 ∧ host < 2 ^ 64)) (fun s =>
    if (s.part h.part).slotCount ≤ slot then ended s 0x03
    else if !h.dmaOk then ended s 0x09
    else landed s h 4 (some slot) 0 (editLines e))

/-- Why a park entry that is not PARKED refuses SLOT_RESUME and PARK_DROP (R275, Table 10.14). -/
def Park.refuses (x : Park) : Nat := if x.expired ∧ (x.st = .zeroising ∨ x.st = .free) then 0x0A else 0x05

/-- SLOT_RESUME: a PARKED entry becomes RESUMING at once. -/
def execSlotResume (h : Hdr) (entry : Nat) (pages : List Nat) (s : State) : Out :=
  s.onPartition h 0x0505 false (decide (entry < 65536)) (fun s =>
    let q := s.part h.part
    let x := look Park.zero q.park entry
    match q.serving with
    | none => ended s 0x03
    | some e =>
      if pages.any (fun g => decide (e.kvPages ≤ g)) then ended s 0x03
      else if x.st ≠ .parked then ended s x.refuses
      else if pages.length ≠ (x.length + 63) / 64 then ended s 0x03
      else if q.noLoadSlots then ended s 0x05
      else ((s.onPart h.part (fun q =>
        { q with park := put Park.zero q.park entry { x with st := .resuming, dest := pages, toBase := e.kvBase, toGroups := e.kvGroups, hdr := some h } })).releaseTwin h.part entry, none))

def parkNo : ParkState → Nat
  | .free => 0
  | .parking => 1
  | .parked => 2
  | .resuming => 3
  | .zeroising => 4

/-- PARK_STATUS: state, LENGTH, EXPIRY. -/
def execParkStatus (h : Hdr) (entry : Nat) (s : State) : Out :=
  s.onPartition h 0x0506 false (decide (entry < 65536)) (fun s =>
    let x := look Park.zero (s.part h.part).park entry
    okWith s [(1, parkNo x.st), (4, x.length), (8, x.expiry)])

/-- PARK_DROP. -/
def execParkDrop (h : Hdr) (entry : Nat) (s : State) : Out :=
  s.onPartition h 0x0507 false (decide (entry < 65536)) (fun s =>
    let x := look Park.zero (s.part h.part).park entry
    if x.st ≠ .parked then ended s x.refuses
    else okWith ((s.onPart h.part (fun q => { q with park := put Park.zero q.park entry { x with st := .zeroising } })).releaseTwin h.part entry) [])

/-- A per-slot entry (Table 10.11). -/
def slotFields (x : SlotResult) : List (Nat × Nat) :=
  [(2, b2n x.consumed + 2 * b2n x.inputAbsent + 4 * b2n x.offLate + 8 * b2n x.late + 16 * b2n x.stale + 32 * b2n x.assigned + 64 * b2n x.takes),
   (1, x.outTokens), (1, x.appended), (4, x.length), (8, x.stamp.admitAt), (8, x.stamp.first), (8, x.stamp.last), (8, x.stamp.gapMax),
   (8, x.stamp.tokens), (8, x.deadline), (8, 0)]

/-- SLOT_READ. -/
def execSlotRead (h : Hdr) (slot : Nat) (s : State) : Out :=
  s.onPartition h 0x0508 false true (fun s =>
    let q := s.part h.part
    if q.slotCount ≤ slot then ended s 0x03
    else okWith s (slotFields ((q.lastResult.map (fun r => look {} r.slots slot)).getD {})))

end Sys2Proof.Machine
end

