-- ==== Sys2Proof/Machine/HostFabric.lean ====
section
/-! DEFINITION. Commands 0x0620 to 0x0623: opening and fencing layers, and dynamic copies (12_trellis_and_routing.md,
R326 to R334). -/

namespace Sys2Proof.Machine

/-- A port whose optical engine does not answer (Table 20.2): U0 to U3 are engines 0 to 3, AX is engine 4 (log entry 37). -/
def State.portAbsent (s : State) (i : Nat) : Bool :=
  if 6 ≤ i ∧ i ≤ 9 then !s.io.opt.getLsbD (i - 6) else if i = 11 then !s.io.opt.getLsbD 4 else false

/-- PORT_OPEN. -/
def execPortOpen (h : Hdr) (i job rank serial : Nat) (routes : SMap (BitVec 16)) (s : State) : Out :=
  s.onPartition h 0x0620 (s.portAbsent i)
    (decide (h.fn ≠ 17 ∧ i < 12 ∧ job < 2 ^ 32 ∧ rank < 65536 ∧ serial < 2 ^ 64) && routes.all (fun e => decide (e.2.toNat < 4096))) (fun s =>
    let q := s.part h.part
    if q.jb.jstate ≠ .none ∧ (job ≠ q.jb.job ∨ (q.jb.jstate ≠ .spare ∧ rank ≠ q.rank)) then ended s 0x03
    else if q.active? ∨ (s.port i).opened h.part then ended s 0x05
    else if !h.dmaOk then ended s 0x09
    else okWith (s.onPort i (fun y => { y with boot := put none y.boot h.part (some { job, rank, serial, routes := putAll 0 [] routes }) })) [])

/-- PORT_FENCE. -/
def execPortFence (h : Hdr) (i : Nat) (s : State) : Out :=
  s.onPartition h 0x0621 false (decide (i < 12)) (fun s =>
    if (s.part h.part).active? then ended s 0x05
    else if !(s.port i).opened h.part then ended s 0x03
    else okWith (s.onPort i (fun y => { y with boot := put none y.boot h.part none })) [])

/-- The ranges of Table 12.9's parameters. -/
def copyOk (x : CopyIn) : Bool :=
  decide (x.rank < 65536 ∧ x.part < 16 ∧ x.ch < 4 ∧ x.laddr % 256 = 0 ∧ x.raddr % 256 = 0 ∧ 1 ≤ x.lines ∧ x.lines ≤ 65536 ∧
    x.laddr + 256 * x.lines ≤ 2 ^ 40 ∧ x.raddr + 256 * x.lines ≤ 2 ^ 40 ∧ 1 ≤ x.timeout ∧ x.timeout ≤ 65535 ∧ x.retries ≤ 7)

/-- The local lines lie outside the partition's leases, or a READ would write a reserved range. -/
def Part.copyBad (p : Part) (x : CopyIn) : Bool :=
  (leasesAt x.laddr x.lines).any (fun i => (p.planEntry .cold i).isNone) ||
    (!x.write && p.addrMap.any (fun e => decide (e.kind = 2 ∧ x.laddr < e.last ∧ e.first < x.laddr + 256 * x.lines)))

/-- Transfers outstanding on a channel. -/
def State.outstanding (s : State) (ch : Nat) : List Nat := (s.fab.xfers.filter (fun e => decide (e.1 / 65536 = ch))).map (fun e => e.1 % 65536)

/-- The smallest tag not in use on a channel that holds fewer than 64 transfers. -/
def State.freeTag (s : State) (ch : Nat) : Nat := ((List.range 64).find? (fun t => !(s.outstanding ch).contains t)).getD 64

/-- FABRIC_COPY: it completes when the transfer does (R326, R328). -/
def execFabricCopy (h : Hdr) (x : CopyIn) (s : State) : Out :=
  s.onPartition h 0x0622 false (copyOk x) (fun s =>
    let q := s.part h.part
    if q.jb.job = 0 ∨ q.copyBad x then ended s 0x03
    else if 64 ≤ (s.outstanding x.ch).length ∨ q.noLoadSlots ∨ q.zeroising ((leasesAt x.laddr x.lines).map (fun i => (Tier.cold, i))) then ended s 0x05
    else
      let tag := s.freeTag x.ch
      let hd0 : DynHdr := { dst := x.rank, src := q.rank, dpart := x.part, rpart := h.part, op := if x.write then 2 else 1, ch := x.ch, last := false, tag
                            seq := 0, gen := 0, status := 0, piece := 0, total := x.lines, job := q.jb.job, addr := x.raddr, hops := 0 }
      let seq := look 0 s.fab.seqs (seqKey hd0)
      let hd : DynHdr := { hd0 with seq }
      let t : Xfer := { part := h.part, hdr := hd, laddr := x.laddr, gen := 0, tries := 0, retries := x.retries, timeout := x.timeout, got := []
                        quar := none, left := [], done := none, hdrCmd := some h }
      let s1 : State := { s with fab := { s.fab with seqs := put 0 s.fab.seqs (seqKey hd) ((seq + 1) % 2 ^ 32) } }
      (s1.attempt (xferKey x.ch tag) t 0, none))

/-- FABRIC_STATUS: the fields of Tables 12.5 and 12.6 (log entry 36). -/
def execFabricStatus (h : Hdr) (i : Nat) (s : State) : Out :=
  s.onPartition h 0x0623 false (decide (i < 12)) (fun s =>
    let y := s.port i
    let mask (f : Nat → Bool) : Nat := allParts.foldl (fun a p => if f p then a + 2 ^ p else a) 0
    let live := s.fab.xfers.filterMap (fun e => e.2)
    okWith s [(2, mask y.opened), (2, mask (fun p => y.opened p && (s.part p).active?)), (2, mask (fun p => y.opened p && (s.part p).graftSel.getLsbD i)),
      (1, y.fwdDrop.toNat), (1, y.stray.toNat), (2, live.length), (2, s.fab.retries.toNat), (2, s.fab.lateDrop.toNat),
      (2, (live.filter (fun x => x.quar.isSome)).length)])

end Sys2Proof.Machine
end

