-- ==== Sys2Proof/Machine/Jobs.lean ====
section
/-! DEFINITION. Jobs: health, managers' messages and decisions, seeding, and commands 0x0601 to 0x0609
(14_jobs_at_scale.md, R504, R505). -/

namespace Sys2Proof.Machine

/-! ### The health score (R504, Table 19.11) -/

/-- Retired cells in active blocks, and DEGRADED blocks. -/
def State.retiredCells (s : State) : Nat × Nat :=
  let l := (List.range 64).filter s.enginePresent
  (l.foldl (fun a b => a + (18 - (s.goodCells b).length)) 0, (l.filter s.degraded).length)

/-- Corrected errors of a class in the last 3,600 s. -/
def State.ceCount (s : State) (cls : Nat) : Nat :=
  (s.health.ces.filter (fun e => decide (e.1 = cls ∧ s.hallNow / 10 ^ 6 ≤ e.2.1 + 3600000))).foldl (fun a e => a + e.2.2) 0

def State.cePenalty (s : State) : Nat :=
  min 100 (10 * (s.ceCount 0 / 1000)) + min 100 (10 * (s.ceCount 1 / 100000)) + min 50 (10 * (s.ceCount 2 / 100000)) +
    min 100 (10 * (s.ceCount 3 / 10000))

def stackNos : List Nat := List.range 12
def portNos : List Nat := List.range 12

/-- Converters not working, and regulator phases lost. -/
def State.supplyLost (s : State) : Nat × Nat :=
  (((List.range 5).filter (fun i => !s.pwr.convOk.getLsbD i)).length, s.pwr.phLost.foldl (fun a e => a + e.2) 0)

/-- Stacks with the spare die assigned, and stacks DEGRADED for another reason. -/
def State.stacksSpared (s : State) : Nat × Nat :=
  ((stackNos.filter (fun k => (s.stack k).spareFor.isSome)).length,
   (stackNos.filter (fun k => (s.stack k).spareFor.isNone && decide ((s.stack k).state = .degraded))).length)

/-- Ports that are on with SPARE_OK_RX 0, and DEGRADED ports. -/
def State.portsSpared (s : State) : Nat × Nat :=
  let l := portNos.filter (fun i => decide ((s.port i).st ≠ .off))
  ((l.filter (fun i => !(s.port i).degraded && !(s.port i).spareOk)).length, (l.filter (fun i => (s.port i).degraded)).length)

def coldSpared (s : State) : Nat := if s.cold.spareFor.isSome then 1 else 0

def State.sparePenalty (s : State) : Nat :=
  let (c, d) := s.retiredCells
  let (a, e) := s.stacksSpared
  let (x, y) := s.portsSpared
  let (v, w) := s.supplyLost
  min 200 (10 * c + 50 * d) + min 200 (60 * a + 40 * e) + 80 * coldSpared s + min 150 (30 * x + 60 * y) + min 100 (50 * v + 10 * w)

/-- The smallest margin below stage 1. -/
def State.thermMargin (s : State) : Int :=
  s.pwr.sensors.foldl (fun m e =>
    match allGroups.find? (fun g => decide (groupNo g = e.1 / 64)) with
    | none => m
    | some g => min m ((thresholds g).1 - e.2)) 1000

def State.thermPenalty (s : State) : Nat :=
  if 2 ≤ s.stage then 500 else if s.stage = 1 then 250
  else if 10 ≤ s.thermMargin then 0 else min 500 (20 * (10 - s.thermMargin).toNat)

/-- Units past a watermark in the last 100 rounds before round `r`. -/
def State.wmUnits (s : State) (r : Nat) : Nat := (s.health.wms.filter (fun e => decide (r + 1 ≤ e.2 + 100))).length

/-- Every input of Table 19.11 with its count and penalty, before caps; the thermal input counts the margin, 0 when there is none. -/
def State.healthInputs (s : State) (r : Nat) : List (Nat × Nat) :=
  let ce (cls unit : Nat) : Nat × Nat := (s.ceCount cls, 10 * (s.ceCount cls / unit))
  let n (k c : Nat) : Nat × Nat := (c, k * c)
  [ce 0 1000, ce 1 100000, ce 2 100000, ce 3 10000, n 10 s.retiredCells.1, n 50 s.retiredCells.2, n 60 s.stacksSpared.1,
   n 40 s.stacksSpared.2, n 80 (coldSpared s), n 30 s.portsSpared.1, n 60 s.portsSpared.2, n 50 s.supplyLost.1, n 10 s.supplyLost.2,
   (s.thermMargin.toNat, s.thermPenalty), n 25 (s.wmUnits r)]

/-- hub.health at the start of round `r`. -/
def State.healthNow (s : State) (r : Nat) : Health :=
  let ce := s.cePenalty
  let sp := s.sparePenalty
  let th := s.thermPenalty
  let wm := min 200 (25 * s.wmUnits r)
  { s.health with
    score := 1000 - (ce + sp + th + wm), cePen := ce, sparePen := sp, thermPen := th, wmPen := wm, round := r % 65536, inputs := s.healthInputs r
    ces := s.health.ces.filter (fun e => decide (s.hallNow / 10 ^ 6 ≤ e.2.1 + 3600000)) }

/-! ### Messages (R372 to R374) -/

def blankMsg : MgrMsg :=
  { format := mgrFormat, kind := 0, cause := 0, sender := 0, job := 0, seq := 0, subject := 0, aux := 0, dseq := 0, arg0 := 0, arg1 := 0
    arg2 := 0, digest0 := 0, digest1 := 0, tail := 0, tag := 0 }

/-- The job key under which a partition's messages are tagged: the one in force, or the one of its wrap (R372, R423). -/
def Part.msgKey (p : Part) : Option Hash := p.sx.jobKey.orElse (fun _ => p.sx.jobKeyWait)

/-- A message of partition `p` under its next message number, with its tag. -/
def State.stamp (s : State) (p : Nat) (m : MgrMsg) : MgrMsg :=
  let q := s.part p
  let m1 := { m with sender := q.rank, job := q.jb.job, seq := q.jb.seq + 1 }
  { m1 with tag := (q.msgKey.map (fun k => msgTag k m1)).getD 0 }

/-- Send a message of partition `p`; none is sent while the management processor restarts (R518), nor without a job key to tag it. -/
def State.tell (s : State) (p : Nat) (m : MgrMsg) : State :=
  if s.mgmtDown ∨ (s.part p).msgKey.isNone then s
  else (s.send (.mgr (s.stamp p m))).onPart p (fun q => { q with jb := { q.jb with seq := q.jb.seq + 1 } })

/-- Issue a decision: it is sent, and the manager holds its own copy. -/
def State.issue (s : State) (p : Nat) (m : MgrMsg) : State :=
  let q := s.part p
  let n := max q.jb.mgr.nextDseq (q.jb.applied + 1)
  let m1 := s.stamp p { m with dseq := n }
  (s.tell p m1).onPart p (fun q =>
    { q with jb := { q.jb with decs := q.jb.decs ++ [m1], mgr := { q.jb.mgr with nextDseq := n + 1 } } })

def Part.onMgr (p : Part) (f : Mgr → Mgr) : Part := { p with jb := { p.jb with mgr := f p.jb.mgr } }

/-- Partitions of this module that hold a member, or a spare, of the job. -/
def State.inJob (s : State) (job : Nat) : List Nat :=
  allParts.filter (fun p => decide ((s.part p).jb.jstate ≠ .none ∧ (s.part p).jb.job = job ∧ job ≠ 0))

/-! ### What the plan image says of other ranks -/

/-- PEERS of rank `r`, as the image gives them. -/
def peersAt (img : PlanImage) (r : Nat) : List (Option PeerE) :=
  (img.secs.findSome? (fun x => match x.data with
    | .peers l => if x.position = r ∨ x.position = 0xFFFF then some l else none
    | _ => none)).getD []

/-- The seed parent's rank of rank `r`. -/
def parentAt (img : PlanImage) (r : Nat) : Option Nat :=
  match img.secs.findSome? (fun x => match x.data with
    | .tree t => if x.position = r ∨ x.position = 0xFFFF then some t else none
    | _ => none) with
  | none => none
  | some t => ((peersAt img r).getD t.seedParent none).map (·.rank)

/-- Rank `r` lies in the seed subtree of rank `root`. -/
def inSubtree (img : PlanImage) (root : Nat) : Nat → Nat → Bool
  | r, 0 => decide (r = root)
  | r, fuel + 1 =>
    if r = root then true
    else
      match parentAt img r with
      | none => false
      | some u => inSubtree img root u fuel

/-! ### Seeding (R375 to R378) -/

def insertUp (x : Nat) : List Nat → List Nat
  | [] => [x]
  | y :: l => if x ≤ y then x :: y :: l else y :: insertUp x l

/-- The seed digest (R376), once the image is staged and the job key held. -/
def Part.seedDigest (p : Part) : Option Hash :=
  match p.image, p.sx.jobKey with
  | some i, some k =>
    let digs := (p.jb.seedDigs.foldl (fun l d => insertUp d.toNat l) []).foldl (fun a d => a ++ leBytes 32 d) []
    some (Config.sha3 (leBytes 32 (imgDigest i).toNat ++ digs ++ leBytes 32 (Config.sha3 (leBytes 32 k.toNat)).toNat))
  | _, _ => none

/-- The rank of the peer that the image names for a port. -/
def Part.peerRank (p : Part) (i : Nat) : Nat := ((p.peers.getD i none).map (·.rank)).getD 0xFFFF

/-- Report NOT_SEEDED. -/
def State.notSeeded (s : State) (p cause subject aux : Nat) : State :=
  s.tell p { blankMsg with kind := 3, cause, subject, aux }

/-- The slot that a slot word and its page table spell (Tables 10.8, 10.9). -/
def slotFrom (w : BitVec 128) (tab : List Nat) : Slot :=
  let n := w.toNat
  { assigned := bit n 48, length := bits n 0 32, variant := bits n 32 12, offLate := bit n 51
    pages := putAll 0 [] (((List.range tab.length).zip tab).filterMap (fun e => if bit e.2 31 then some (e.1, bits e.2 0 24 + 1) else none)) }

/-- The digest of the page tables of a checkpoint (R278). -/
def tablesDigest (l : List (Nat × BitVec 128 × List Nat)) : Hash := Config.sha3 (l.foldl (fun a e => e.2.2.foldl (fun b x => b ++ leBytes 4 x) a) [])

/-- A grafted spare takes over the shadow: APPEND lines where they lie, FLIP lines in the half that step c + 1 reads, and the slots. -/
def State.restoreShadow (s : State) (p : Nat) (x : ShadowIn) : State :=
  let s1 := x.lines.foldl (fun s e => s.putPart p e.1 ((s.part p).flips e.1 (e.2.1 / 2 ^ 30) && decide (x.stepNo % 2 = 1)) e.2.1 e.2.2) s
  s1.onPart p (fun q => { q with slots := x.slots.foldl (fun m e => put Slot.zero m e.1 (slotFrom e.2.1 e.2.2)) [], jb := { q.jb with restored := true } })

/-- Check and stage a piece: the state, and whether the piece was accepted. -/
def State.stagePiece (s : State) (p : Nat) (piece : SeedPiece) : State × Bool :=
  let q := s.part p
  match piece with
  | .image img =>
    let v := (s.withRole p).sieve p img (if img.hdr.mode = 1 then 0 else 0xFF) false
    let s1 := s.onPart p (fun q => { q with sieve := v.reg })
    if v.check ≠ 0 ∨ q.zeroising (q.touches ((mineOf img q.rank).map (·.2))) then (s1, false)
    else (s1.install p img v.x (!q.jb.grafted), true)
  | .bundle sb =>
    let b : BLoad := { setB := !q.active, scion := sb.scion, slot := sb.slot, bn := sb.bn, hdr := none }
    if q.bundle.isSome || (q.bundleRefused b).isSome then (s, false)
    else
      ((s.startBundle p b).onPart p (fun q =>
        { q.endBundle b with jb := { q.jb with seedDigs := q.jb.seedDigs ++ [bundleDigest sb.bn] } }), (s.part p).bundleGood b)
  | .jobKey key good =>
    (s.onPart p (fun q => { q with sx := { q.sx with jobKey := if good then some key else q.sx.jobKey } }), good)
  | .shadow x =>
    if !q.jb.grafted ∨ q.st ≠ .staged ∨ (x.status ≠ 0x00 ∧ x.status ≠ 0x06) then (s, true)
    else if x.status = 0x06 ∨ tablesDigest x.slots ≠ x.digest then (s.notSeeded p 2 q.rank (q.peerRank q.jb.seedPar), false)
    else (s.restoreShadow p x, true)

/-- A piece that a member passes on: not what its twin gave it. -/
def SeedPiece.passes : SeedPiece → Bool
  | .shadow _ => false
  | _ => true

/-- Forward a checked piece to every child. -/
def State.forwardPiece (s : State) (p : Nat) (piece : SeedPiece) : State :=
  if !SeedPiece.passes piece then s else (List.range 12).foldl (fun s i => if (s.part p).jb.seedKids.getLsbD i then s.send (.seed p i piece) else s) s

/-- Everything of the seed is staged. -/
def Part.stagedAll (p : Part) : Bool :=
  decide (p.st = .staged) && p.seedDigest.isSome && !p.jb.seedBad && (!p.jb.grafted || p.jb.restored) &&
    (!p.addrMap.any (fun e => decide (e.kind = 3 ∨ e.kind = 4)) || p.standby.valid)

/-- Every child has acknowledged. -/
def Part.kidsAcked (p : Part) : Bool := (List.range 16).all (fun i => !p.jb.seedKids.getLsbD i || look false p.jb.acks i)

/-- A manager's own record of what it reports. -/
def State.ownSeeded (s : State) (p : Nat) (d : Hash) : State :=
  if (s.part p).jb.manager then
    s.onPart p (fun q => q.onMgr (fun g => { g with seeded := put none g.seeded q.rank (some d) }))
  else s

/-- Once everything is staged and every child has acknowledged: SEEDED, or NOT_SEEDED for an attestation that is not clean. -/
def State.seedCheck (s : State) (p : Nat) : State :=
  let q := s.part p
  match q.seedDigest with
  | none => s
  | some d =>
    if q.jb.jstate ≠ .seeding ∨ !q.stagedAll ∨ !q.kidsAcked then s
    else if !q.clean then s.notSeeded p 3 q.rank (q.peerRank q.jb.seedPar)
    else if q.msgKey.isNone then s
    else
      let s1 := if q.jb.seedPar = 0xF then s else s.send (.seedAck p d)
      let m := { blankMsg with kind := 2, subject := q.rank, digest0 := d, digest1 := Config.sha3 (leBytes 1 p ++ leBytes 2 q.sx.keyGen.toNat) }
      ((s1.tell p m).onPart p (fun q => { q with jb := { q.jb with jstate := .seeded } })).ownSeeded p d

/-- SEEDING begins: the job key of the member's wrap takes effect (R423). -/
def Part.beginSeeding (p : Part) : Part :=
  { p with
    jb := { p.jb with jstate := .seeding, acks := [], seedBad := false, seedDigs := [], restored := false }
    sx := { p.sx with jobKey := if p.sx.jobKeyWait.isSome then p.sx.jobKeyWait else p.sx.jobKey, jobKeyWait := none } }

/-- A piece in a SEEDING member. -/
def State.takePiece (s : State) (p : Nat) (piece : SeedPiece) : State :=
  let (s1, good) := (s.onPart p (fun q => { q with jb := { q.jb with seedAt := s.wallNs } })).stagePiece p piece
  if good then (s1.forwardPiece p piece).seedCheck p
  else s1.onPart p (fun q => { q with jb := { q.jb with seedBad := true } })

/-- SEED_TRANSFER: a JOINED member becomes SEEDING with the first. -/
def execSeedTransfer (p : Nat) (sp : SeedPiece) (s : State) : Out :=
  let q := s.part p
  match q.jb.jstate with
  | .joined => ok ((s.onPart p Part.beginSeeding).takePiece p sp)
  | .seeding => ok (s.takePiece p sp)
  | _ => ok s

/-- SEED_TIMEOUT: nothing from the parent for 2 s. -/
def execSeedTimeout (p : Nat) (s : State) : Out :=
  let q := s.part p
  if q.jb.jstate = .seeding ∧ q.jb.seedAt + 2 * 10 ^ 9 ≤ s.wallNs then ok (s.notSeeded p 1 q.rank (q.peerRank q.jb.seedPar)) else ok s

/-- Discard what is staged and return to JOINED (R378). -/
def State.reseed (s : State) (p : Nat) : State :=
  (s.unload p).onPart p (fun q =>
    { q with jb := { q.jb with jstate := .joined, acks := [], seedBad := false, seedDigs := [] }, setA := if q.active then { q.setA with valid := false } else q.setA
             setB := if q.active then q.setB else { q.setB with valid := false } })

/-! ### What managers decide (R378, R379, R385 to R388, R391, R393) -/

/-- The first mark at least 100 ms from now, or a later one. -/
def State.farMark (s : State) : Nat := 10 * ((s.hallNow + 10 ^ 8 + 10239) / 10240 + Config.freeBits s.freeCtr)

/-- START_AT once every rank has reported one seed digest. -/
def State.startCheck (s : State) (p : Nat) : State :=
  let q := s.part p
  let g := q.jb.mgr
  let first := look none g.seeded 0
  if q.jb.manager && decide (q.jb.jstate = .seeded) && first.isSome && (List.range q.jobSize).all (fun r => decide (look none g.seeded r = first)) &&
      !q.jb.decs.any (fun d => decide (d.kind = 5 ∧ d.sender = q.rank)) then
    s.fresh.issue p { blankMsg with kind := 5, arg0 := s.farMark }
  else s

/-- STATE in a HEALTH message (log entry 38). -/
def healthState (m : MgrMsg) : Nat := bits m.arg0 12 4

/-- RESUME_AT once the grafted ranks are SEEDED and every other rank is STAGED. -/
def State.resumeCheck (s : State) (p : Nat) : State :=
  let q := s.part p
  let g := q.jb.mgr
  let others := (List.range q.jobSize).filter (fun r => !g.grafts.contains r)
  if q.jb.manager && !g.grafts.isEmpty && g.gone.isEmpty && g.grafts.all (fun r => (look none g.seeded r).isSome) &&
      others.all (fun r => match look none g.health r with
        | some m => decide (healthState m = 1)
        | none => false) then
    let top := g.health.foldl (fun a e => match e.2 with
      | some m => max a m.arg2
      | none => a) q.planFrame
    let (_, n, e) := q.resumePoint
    let m := { blankMsg with kind := 8, arg0 := s.farMark, arg1 := top + 1, arg2 := n % 2 ^ 48 + e * 2 ^ 48 }
    (s.fresh.issue p m).onPart p (fun q => q.onMgr (fun g => { g with grafts := [] }))
  else s

/-- After a prune: GRAFT when a spare and a usable shadow exist, else the job is stalled (R388). -/
def State.graftOrStall (s : State) (p subject : Nat) : State :=
  let q := s.part p
  match q.jb.mgr.spares with
  | x :: rest =>
    if Config.freeBool s.freeCtr then
      let par := (q.image.bind (fun i => parentAt i subject)).getD (Config.freeBits s.freeCtr)
      let m := { blankMsg with kind := 7, subject, arg0 := x, arg1 := Config.freeBits (s.freeCtr + 1), aux := par }
      ((({ s with freeCtr := s.freeCtr + 2 }).issue p m)).onPart p (fun q => q.onMgr (fun g => { g with spares := rest }))
    else s.fresh.event 0x05 p []
  | [] => s.event 0x05 p []

/-- TEARDOWN once three managers hold JOB_END naming one plan frame. -/
def State.endCheck (s : State) (p frame : Nat) : State :=
  let q := s.part p
  let n := ((q.jb.mgr.ends.filter (fun e => decide (e.2 = frame))).map (·.1)).eraseDups.length
  if 3 ≤ n ∧ !q.jb.decs.any (fun d => decide (d.kind = 9 ∧ d.arg0 = frame ∧ d.sender = q.rank)) then
    s.issue p { blankMsg with kind := 9, arg0 := frame }
  else s

/-- PRUNE once three PRUNE votes of one round are held for a subject. -/
def State.pruneCheck (s : State) (p subject round : Nat) : State :=
  let q := s.part p
  let g := q.jb.mgr
  let n := ((g.votes.filter (fun v => decide (v.1 = subject ∧ v.2.2 = round))).map (fun v => v.2.1)).eraseDups.length
  match g.cands.find? (fun c => decide (c.1 = subject)) with
  | none => s
  | some c =>
    if 3 ≤ n ∧ !q.jb.decs.any (fun d => decide (d.kind = 6 ∧ d.subject = subject ∧ d.sender = q.rank)) then
      let soft := decide (0x10 ≤ c.2)
      let m := { blankMsg with kind := 6, cause := c.2, subject, arg0 := if soft then Config.freeBits s.freeCtr else 0
                               aux := if q.jb.mgrs.contains subject then Config.freeBits (s.freeCtr + 1) else 0 }
      ({ s with freeCtr := s.freeCtr + 2 }).issue p m
    else s

/-! ### Decisions (R373, R379, R387, R389 to R391, R393) -/

/-- Arm for a mark (R379): the mark is at least 1 ms ahead. -/
def State.armAt (s : State) (p mark : Nat) (resume : Option (Nat × Nat × Nat)) : Option State :=
  if s.hallNow + 10 ^ 6 ≤ 1024 * mark ∧ s.hubOn then
    some (s.onPart p (fun q => { q with st := .armed, jb := { q.jb with jstate := .member, startMark := some mark, resume } }))
  else none

/-- A manager rank leaves and another takes its place. -/
def swapMgr (l : List Nat) (old new : Nat) : List Nat := l.map (fun r => if r = old then new else r)

/-- PRUNE in partition `p`. -/
def State.applyPrune (s : State) (p : Nat) (m : MgrMsg) : State :=
  let q := s.part p
  let mine := decide (q.rank = m.subject)
  let soft := decide (0x10 ≤ m.cause)
  let s1 := s.onPart p (fun q =>
    { q with jb := { q.jb with mgrs := swapMgr q.jb.mgrs m.subject m.aux, stopAt := if soft then some m.arg0 else q.jb.stopAt
                               jstate := if mine then .pruned else q.jb.jstate, detach := q.jb.detach && !mine } })
  if q.jb.manager && !mine then
    let s2 := s1.onPart p (fun q => q.onMgr (fun g =>
      { g with prunes := g.prunes ++ [(m.subject, s.hallNow / 10 ^ 9)], gone := g.gone ++ [m.subject]
               cands := g.cands.filter (fun c => decide (c.1 ≠ m.subject)), seeded := put none g.seeded m.subject none
               health := put none g.health m.subject none, low := put 0 g.low m.subject 0 }))
    s2.graftOrStall p m.subject
  else s1

/-- The ports on which a partition faces a rank. -/
def Part.facing (p : Part) (rank : Nat) : BitVec 16 :=
  BitVec.ofNat 16 ((List.range 12).foldl (fun a i => if (p.peers.getD i none).map (·.rank) = some rank then a + 2 ^ i else a) 0)

/-- GRAFT in partition `p`: the spare named joins under the rank; every other member that holds an image restages with the graft
selection of the ports that face the rank, once its plan is neither ARMED nor RUNNING. -/
def State.applyGraft (s : State) (p : Nat) (m : MgrMsg) : Option State :=
  let q := s.part p
  if q.jb.jstate = .spare then
    if m.arg0 = s.fuses.serial then
      some (s.onPart p (fun q =>
        let y := q.beginSeeding
        { y with rank := m.subject, jb := { y.jb with grafted := true, seedAt := s.wallNs } }))
    else some s
  else if q.active? then none
  else
    let s1 := if q.image.isSome ∧ q.rank ≠ m.subject then (s.restage p (q.graftSel ||| q.facing m.subject)).1 else s
    if q.jb.manager then
      let kids := (q.jb.mgr.orphans.filter (fun o => decide (o.2 = m.subject))).map (·.1)
      let s2 := s1.onPart p (fun q => q.onMgr (fun g =>
        { g with gone := g.gone.filter (· != m.subject), grafts := g.grafts ++ [m.subject]
                 lastHeard := put 0 g.lastHeard m.subject (s.round + 1), orphans := g.orphans.filter (fun o => decide (o.2 ≠ m.subject)) }))
      some (kids.foldl (fun s c => s.issue p { blankMsg with kind := 0x0A, subject := c, aux := m.subject }) s2)
    else some s1

/-- RESUME_AT in partition `p`; one that is not STAGED restages first (R178). -/
def State.applyResume (s : State) (p : Nat) (m : MgrMsg) : Option State :=
  let q := s.part p
  let point := some (m.arg1, m.arg2 % 2 ^ 48, bits m.arg2 48 16)
  if q.jb.jstate ≠ .member ∧ q.jb.jstate ≠ .seeded then none
  else if q.st = .staged then s.armAt p m.arg0 point
  else if q.st = .faulted ∨ q.st = .stopped then
    let r := s.restage p q.graftSel
    if r.2.check = 0 then r.1.armAt p m.arg0 point else none
  else none

/-- A decision with its quorum in partition `p`: none while it does not apply. -/
def State.applyOne (s : State) (p : Nat) (m : MgrMsg) : Option State :=
  let q := s.part p
  match m.kind with
  | 5 => if q.jb.jstate = .seeded ∧ q.st = .staged then s.armAt p m.arg0 none else none
  | 6 => some (s.applyPrune p m)
  | 7 => s.applyGraft p m
  | 8 => s.applyResume p m
  | 9 => if q.active? then some (s.onPart p (fun q => { q with jb := { q.jb with teardown := some m.arg0 } })) else none
  | 0x0A =>
    let hit : Bool := match q.image with
      | none => decide (q.rank = m.subject)
      | some i => inSubtree i m.subject q.rank 4096
    some (if hit = true ∧ (q.jb.jstate = .seeding ∨ q.jb.jstate = .seeded) then s.reseed p else s)
  | 0x0B =>
    some (s.onPart p (fun q => { q with jb := { q.jb with mgrs := swapMgr q.jb.mgrs m.subject m.aux, manager := q.jb.manager && decide (q.rank ≠ m.subject) } }))
  | _ => none

/-- The decisions of a partition that three managers agree on, in DSEQ order. -/
def Part.quorums (p : Part) : List MgrMsg :=
  let l := p.jb.decs.filter (fun m => decide (p.jb.applied < m.dseq ∧ 3 ≤ copiesOf p.jb.decs m))
  l.foldl (fun acc m => acc.filter (fun x => decide (x.dseq ≤ m.dseq)) ++ [m] ++ acc.filter (fun x => decide (m.dseq < x.dseq))) []

/-- Apply what can be applied. -/
def State.settleDecs (s : State) (p : Nat) : Nat → State
  | 0 => s
  | fuel + 1 =>
    match (s.part p).quorums.findSome? (fun m => (s.applyOne p m).map (fun t => (m, t))) with
    | none => s
    | some (m, t) =>
      State.settleDecs (t.onPart p (fun q =>
        { q with jb := { q.jb with applied := m.dseq, decs := q.jb.decs.filter (fun d => decide (m.dseq < d.dseq)) } })) p fuel

def State.settle (s : State) (p : Nat) : State := s.settleDecs p 16

/-! ### Receiving (R372) -/

/-- A message of kind `k` is taken by every partition of its job on this module under whose job key its tag verifies and that has not
seen it; one that verifies in none is dropped and counted. -/
def State.receive (s : State) (k : Nat) (m : MgrMsg) (act : State → Nat → State) : Out :=
  if m.kind ≠ k ∨ s.mgmtDown then ok s
  else
    let l := (s.inJob m.job).filter (fun p => msgOk (s.part p).sx.jobKey m)
    if l.isEmpty then ok { s with mgrDrop := s.mgrDrop + 1 }
    else ok (l.foldl (fun s p =>
      let q := s.part p
      if q.jb.seen.contains (m.sender, m.seq) then s
      else act (s.onPart p (fun q => { q with jb := { q.jb with seen := q.jb.seen ++ [(m.sender, m.seq)] } })) p) s)

/-- A decision from one of the managers. -/
def takeDecision (m : MgrMsg) (s : State) (p : Nat) : State :=
  let q := s.part p
  if !q.jb.mgrs.contains m.sender ∨ m.dseq ≤ q.jb.applied then s
  else (s.onPart p (fun q => { q with jb := { q.jb with decs := q.jb.decs ++ [m] } })).settle p

/-- A report to a manager. -/
def asManager (f : State → Nat → State) (s : State) (p : Nat) : State := if (s.part p).jb.manager then (f s p).settle p else s

/-- A HEALTH message enters a manager's record. -/
def noteHealth (m : MgrMsg) (s : State) (p : Nat) : State :=
  s.onPart p (fun q => q.onMgr (fun g =>
    { g with health := put none g.health m.sender (some m), lastHeard := put 0 g.lastHeard m.sender (s.round + 1)
             low := put 0 g.low m.sender (if m.arg0 % 1024 < g.score then look 0 g.low m.sender + 1 else 0) }))

/-- HEALTH. -/
def execHealth (m : MgrMsg) (s : State) : Out := s.receive 1 m (asManager (fun s p => (noteHealth m s p).resumeCheck p))

/-- SEEDED. -/
def execSeeded (m : MgrMsg) (s : State) : Out :=
  s.receive 2 m (asManager (fun s p =>
    ((s.onPart p (fun q => q.onMgr (fun g => { g with seeded := put none g.seeded m.sender (some m.digest0) }))).startCheck p).resumeCheck p))

/-- NOT_SEEDED: a silent parent becomes a candidate; a spare without a usable shadow stalls the job. -/
def execNotSeeded (m : MgrMsg) (s : State) : Out :=
  s.receive 3 m (asManager (fun s p =>
    let g := (s.part p).jb.mgr
    let s1 := s.onPart p (fun q => q.onMgr (fun g =>
      { g with seeded := put none g.seeded m.sender none, orphans := if m.cause = 1 then g.orphans ++ [(m.sender, m.aux)] else g.orphans }))
    if m.cause = 2 ∧ g.grafts.contains m.sender then s1.event 0x05 p [] else s1))

/-- VOTE: from another manager; CAUSE 0 carries a JOB_END (log entry 38). -/
def execVote (m : MgrMsg) (s : State) : Out :=
  s.receive 4 m (asManager (fun s p =>
    if !(s.part p).jb.mgrs.contains m.sender then s
    else if m.cause = 1 then
      (s.onPart p (fun q => q.onMgr (fun g => { g with votes := g.votes ++ [(m.subject, m.sender, m.arg0)] }))).pruneCheck p m.subject m.arg0
    else if m.cause = 0 then
      (s.onPart p (fun q => q.onMgr (fun g => { g with ends := g.ends ++ [(m.sender, m.arg1)] }))).endCheck p m.arg1
    else s))

/-- START_AT. -/
def execStartAt (m : MgrMsg) (s : State) : Out := s.receive 5 m (takeDecision m)
/-- PRUNE. -/
def execPrune (m : MgrMsg) (s : State) : Out := s.receive 6 m (takeDecision m)
/-- GRAFT: a twin that shadows the job holds copies too (R389). -/
def execGraft (m : MgrMsg) (s : State) : Out :=
  let keep (x : Shadow) : Shadow :=
    match x.map with
    | some t => if t.job = m.job ∧ msgOk t.key m ∧ m.kind = 7 then { x with grafts := x.grafts ++ [m] } else x
    | none => x
  ({ s with shadows := mapv Shadow.zero s.shadows (fun _ x => keep x) }).receive 7 m (takeDecision m)
/-- RESUME_AT. -/
def execResumeAt (m : MgrMsg) (s : State) : Out := s.receive 8 m (takeDecision m)
/-- TEARDOWN. -/
def execTeardown (m : MgrMsg) (s : State) : Out := s.receive 9 m (takeDecision m)
/-- RESEED. -/
def execReseed (m : MgrMsg) (s : State) : Out := s.receive 0x0A m (takeDecision m)
/-- MANAGER_REPLACE. -/
def execManagerReplace (m : MgrMsg) (s : State) : Out := s.receive 0x0B m (takeDecision m)

/-- SEED_ACK: a child's seed digest. -/
def execSeedAck (p child : Nat) (digest : Hash) (s : State) : Out :=
  let q := s.part p
  if q.jb.jstate ≠ .seeding ∨ !q.jb.seedKids.getLsbD child then ok s
  else if q.seedDigest ≠ some digest then ok (s.notSeeded p 2 (q.peerRank child) q.rank)
  else ok (((s.onPart p (fun q => { q with jb := { q.jb with acks := put false q.jb.acks child true } })).seedCheck p).startCheck p)

/-! ### Rounds (R374, R384 to R386) -/

/-- The hard cause a member reports, or a pending detach (log entry 38). -/
def State.hardCause (s : State) (p : Nat) : Nat :=
  let q := s.part p
  if q.jb.jstate = .member ∧ (q.st = .faulted ∨ q.st = .stopped) ∧ q.sieve.verdict = 2 then 0x04
  else if q.st = .faulted ∧ s.errs.any (fun e => decide (e.cause = 0x90 ∧ (e.part = p ∨ e.part = 0xFF) ∧ (e.part ≠ p ∨ e.frame + 1 = q.planFrame ∨ e.frame = q.planFrame)))
    then 0x03
  else if (List.range 12).any (fun i => q.onPort i && decide ((s.port i).lastFatal ≠ 0 ∧ (s.port i).lastFatal ≠ 7)) then 0x02
  else if q.jb.detach then 0x11 else 0

/-- The HEALTH message of a member. -/
def State.healthMsg (s : State) (p : Nat) : MgrMsg :=
  let q := s.part p
  let down := portNos.foldl (fun a i => if (s.port i).st = .down ∨ (i = 10 ∧ (s.port i).hbLost) then a + 2 ^ i else a) 0
  s.stamp p { blankMsg with
    kind := 1, cause := s.hardCause p, arg0 := s.health.score + pstateNo q.st * 2 ^ 12 + down * 2 ^ 16 + q.commEpoch.toNat * 2 ^ 48
    arg1 := q.committed.getD (2 ^ 64 - 1), arg2 := q.planFrame }

/-- A manager heard a rank in the round before `r`. -/
def Mgr.heard (g : Mgr) (r rank : Nat) : Bool := decide (r ≤ look 0 g.lastHeard rank)

/-- A reachable member reports its port toward the subject DOWN. -/
def Mgr.downToward (g : Mgr) (img : Option PlanImage) (r subject : Nat) : Bool :=
  g.health.any (fun e => match e.2, img with
    | some m, some i => g.heard r e.1 && (List.range 12).any (fun k =>
        bit m.arg0 (16 + k) && decide (((peersAt i e.1).getD k none).map (·.rank) = some subject))
    | _, _ => false)

/-- The cause for which a rank is a candidate in round `r` (Table 14.5), judged on the HEALTH of the round before. -/
def Mgr.candidate (g : Mgr) (img : Option PlanImage) (r rank : Nat) : Option Nat :=
  let m := if g.heard r rank then look none g.health rank else none
  let cause := (m.map (·.cause)).getD 0
  let peerOk : Bool := match m, img with
    | some m, some i => (List.range 12).any (fun k => bit m.arg0 (16 + k) && (match (peersAt i rank).getD k none with
        | some x => g.heard r x.rank
        | none => false))
    | _, _ => false
  let silent := decide (max (look 0 g.lastHeard rank) (g.round + 1) + 2 < r)
  if g.gone.contains rank then none
  else if (!g.heard r rank && (g.downToward img r rank || silent)) || g.orphans.any (fun o => decide (o.2 = rank)) then some 0x01
  else if cause = 2 ∧ peerOk = true then some 0x02
  else if cause = 3 then some 0x03
  else if cause = 4 then some 0x04
  else if 3 ≤ look 0 g.low rank then some 0x10
  else if cause = 0x11 then some 0x11
  else none

/-- The prune budget of the candidate's block of cubes is spent; which block a rank lies in is not told to managers, so it is a
free value. -/
def Mgr.spent (g : Mgr) (now rank : Nat) : Bool :=
  let boc (r : Nat) : Nat := Config.freeBits r
  decide (g.budget ≤ (g.prunes.filter (fun e => decide (now < e.2 + 3600) && decide (boc e.1 = boc rank))).length)

/-- The spares of the pool that are reachable and clean; which are is what managers hear of them, a free value. -/
def Mgr.usable (g : Mgr) (r : Nat) : List Nat := g.spares.filter (fun x => Config.freeBool (r * 2 ^ 64 + x))

/-- The vote on a candidate in round `r`: 1 PRUNE, 2 DEFER (R385). -/
def Mgr.vote (g : Mgr) (r now rank cause : Nat) : Nat :=
  if cause < 0x10 then 1 else if (g.usable r).length < g.floor ∨ g.spent now rank then 2 else 1

/-- Send a vote; the manager's own PRUNE vote counts. -/
def State.castVote (s : State) (p r subject v : Nat) : State :=
  let s1 := s.tell p { blankMsg with kind := 4, cause := v, subject, arg0 := r }
  if v = 1 then
    (s1.onPart p (fun q => q.onMgr (fun g => { g with votes := g.votes ++ [(subject, q.rank, r)] }))).pruneCheck p subject r
  else s1

/-- A manager's round: its candidates, a vote on each, KEEP on the subjects that are no longer candidates. -/
def State.managerRound (s : State) (p r : Nat) : State :=
  let q := s.part p
  let g := q.jb.mgr
  let cs := (List.range q.jobSize).filterMap (fun k => if k = q.rank then none else (g.candidate q.image r k).map (fun c => (k, c)))
  let keep := g.cands.filter (fun c => !cs.any (fun d => decide (d.1 = c.1)))
  let s1 := s.onPart p (fun q => q.onMgr (fun g => { g with cands := cs, votes := g.votes.filter (fun v => decide (r ≤ v.2.2)) }))
  let s2 := cs.foldl (fun s c => s.castVote p r c.1 (g.vote r (s.hallNow / 10 ^ 9) c.1 c.2)) s1
  keep.foldl (fun s c => s.castVote p r c.1 3) s2

/-- Partitions whose members report HEALTH. -/
def JState.reports : JState → Bool
  | .joined => true
  | .seeding => true
  | .seeded => true
  | .member => true
  | .spare => true
  | _ => false

/-! ### DETACH_PREPARE (R395) -/

/-- DETACH_PREPARE completes once every partition is PRUNED or in no job and every pruned one's shadow is complete; what the twin
holds is a free value. -/
def State.detachCheck (s : State) (h : Hdr) : State :=
  let l := allParts.filter (fun p => decide ((s.part p).jb.jstate ≠ .none))
  let pruned := l.filter (fun p => decide ((s.part p).jb.jstate = .pruned))
  let done (s : State) (st : Nat) : State := ({ s with detachCmd := none }).post h 0x0607 st []
  if l.length ≠ pruned.length then s
  else if pruned.isEmpty ∨ Config.freeBool s.freeCtr then done s.fresh 0x00
  else if Config.freeBool (s.freeCtr + 1) then done { s with freeCtr := s.freeCtr + 2 } 0x09
  else { s with freeCtr := s.freeCtr + 2 }

/-- A DETACH_PREPARE that waits. -/
def State.detachAll (s : State) : State :=
  match s.detachCmd with
  | none => s
  | some h => s.detachCheck h

/-- MANAGER_ROUND: at a multiple of 100 ms the score is computed, HEALTH sent and votes cast. -/
def execManagerRound (s : State) : Out :=
  let r := s.hallNow / 10 ^ 8
  let s1 : State := { s with round := r, health := s.healthNow r }
  if r = s.round then ok s
  else if s1.mgmtDown then ok s1
  else
    let s2 := allParts.foldl (fun s p =>
      let q := s.part p
      if !q.jb.jstate.reports then s
      else
        let m := s.healthMsg p
        let t := s.tell p m
        if q.jb.manager then noteHealth m t p else t) s1
    let s3 := allParts.foldl (fun s p => if (s.part p).jb.manager then ((s.managerRound p r).resumeCheck p).settle p else s) s2
    ok s3.detachAll

/-! ### Job commands (Table 14.7, R394, R395, R423) -/

/-- hub.part.job (Table 14.2). -/
def Part.jobReg (p : Part) : Nat :=
  p.jb.job + p.jb.applied % 256 * 2 ^ 32 + p.rank * 2 ^ 40 + b2n p.jb.grafted * 2 ^ 58 + b2n p.jb.manager * 2 ^ 59 + jstateNo p.jb.jstate * 2 ^ 60

def joinOk (j : JobIn) : Bool :=
  decide (0 < j.job ∧ j.job < 2 ^ 32 ∧ j.rank < 65536 ∧ j.mgrs.length = 5 ∧ j.mgrs.eraseDups.length = 5 ∧ (j.parent < 12 ∨ j.parent = 0xF) ∧ j.children.toNat < 4096) &&
    j.mgrs.all (fun r => decide (r < 65536))

/-- The seed ports name an absent optical engine. -/
def State.seedAbsent (s : State) (j : JobIn) : Bool :=
  (List.range 12).any (fun i => (decide (j.parent = i) || j.children.getLsbD i) && s.portAbsent i)

/-- The job key of a wrap, where its CHECK and JOB hold under the partition's wrap key (R423, Table 16.3). -/
def Part.unwrap (p : Part) (job : Nat) (w : JobWrap) : Option Hash :=
  let ss := leBytes 32 (Config.decap p.sx.wrapGen w.ct).toNat
  let head := leBytes 4 w.format ++ leBytes 4 w.job ++ leBytes 1088 w.ct ++ leBytes 32 w.masked.toNat
  if w.format = 0x49544B31 ∧ w.job = job ∧ w.check = Config.kmac ss head "ITMIR-JOBCHK" then
    some (w.masked ^^^ Config.kmac ss (leBytes 4 w.job) "ITMIR-JOBWRAP")
  else none

/-- JOB_JOIN: the member holds the key its wrap carries; a spare's takes effect at once. -/
def execJobJoin (h : Hdr) (j : JobIn) (wrap : JobWrap) (s : State) : Out :=
  s.onPartition h 0x0601 (s.seedAbsent j) (joinOk j) (fun s =>
    let q := s.part h.part
    let spare := decide (q.jb.jstate = .spare)
    if s.keys.debugOn then ended s 0x01
    else if q.active? ∨ (q.jb.jstate ≠ .none ∧ !spare) then ended s 0x05
    else if spare ∧ j.job ≠ q.jb.job then ended s 0x03
    else
      match q.unwrap j.job wrap with
      | none => ended s 0x01
      | some key =>
        okWith (s.onPart h.part (fun q =>
          if spare then { q with sx := { q.sx with jobKey := some key } }
          else
            { q with
              rank := j.rank, sx := { q.sx with jobKeyWait := some key }
              jb := { jstate := .joined, job := j.job, cube := j.cube, boc := j.boc, mgrs := j.mgrs, seedPar := j.parent, seedKids := j.children } })) [])

/-- JOB_STATUS. -/
def execJobStatus (h : Hdr) (s : State) : Out := s.onPartition h 0x0602 false true (fun s => okWith s [(8, (s.part h.part).jobReg)])

/-- JOB_LEAVE: fences the partition's layers, releases its leases, replaces its keys. -/
def execJobLeave (h : Hdr) (s : State) : Out :=
  s.onPartition h 0x0603 false true (fun s =>
    let q := s.part h.part
    if q.active? then ended s 0x05
    else if q.jb.jstate = .none then ended s 0x03
    else
      let s1 := portNos.foldl (fun s i => s.onPort i (fun y => { y with boot := put none y.boot h.part none })) s
      okWith (((s1.unload h.part).newKeys h.part).onPart h.part (fun q => { q with jb := {}, rank := 0, jobSize := 1 })) [])

/-- MANAGER_SET. -/
def execManagerSet (h : Hdr) (on : Bool) (floor budget score : Nat) (spares : List Nat) (s : State) : Out :=
  s.onPartition h 0x0604 false (decide (score ≤ 1000) && spares.all (fun x => decide (x < 2 ^ 64))) (fun s =>
    let q := s.part h.part
    if q.jb.jstate = .none ∨ (on ∧ !q.jb.mgrs.contains q.rank) then ended s 0x03
    else okWith (s.onPart h.part (fun q =>
      { q with jb := { q.jb with manager := on, mgr := if on then { q.jb.mgr with floor, budget, score, spares, round := s.round } else q.jb.mgr } })) [])

/-- SEED_SOURCE: the root of the seed tree takes the image and the bundles from its host and passes them on. -/
def execSeedSource (h : Hdr) (img : PlanImage) (bundles : List SeedBundle) (s : State) : Out :=
  s.onPartition h 0x0605 false (decide (h.fn ≠ 17) && bundles.all (fun b => decide (b.scion < 4096))) (fun s =>
    let q := s.part h.part
    if q.jb.jstate ≠ .joined ∨ q.jb.seedPar ≠ 0xF ∨ q.loadBusy then ended s 0x05
    else if !h.dmaOk then ended s 0x09
    else
      let v := (s.withRole h.part).sieve h.part img (if img.hdr.mode = 1 then 0 else 0xFF) false
      if v.check = 1 then ended s 0x01
      else if v.check ≠ 0 then ended s 0x03
      else
        let s1 := (s.onPart h.part Part.beginSeeding).takePiece h.part (.image img)
        okWith (bundles.foldl (fun s b => s.takePiece h.part (.bundle b)) s1) [])

/-- SPARE_OFFER. -/
def execSpareOffer (h : Hdr) (job : Nat) (mgrs : List Nat) (s : State) : Out :=
  s.onPartition h 0x0606 false (decide (0 < job ∧ job < 2 ^ 32 ∧ mgrs.length = 5) && mgrs.all (fun r => decide (r < 65536))) (fun s =>
    let q := s.part h.part
    if q.jb.jstate ≠ .none ∨ q.st ≠ .empty then ended s 0x05
    else okWith (s.onPart h.part (fun q => { q with jb := { jstate := .spare, job, mgrs } })) [])

/-- DETACH_PREPARE. -/
def execDetachPrepare (h : Hdr) (s : State) : Out :=
  s.command h 0x0607 false true (fun s =>
    if s.detachCmd.isSome then ended s 0x05
    else
      let s1 : State := { s with detachCmd := some h, parts := mapv Part.zero s.parts (fun _ (q : Part) =>
        if q.jb.jstate = JState.member ∨ q.jb.jstate = JState.seeded ∨ q.jb.jstate = JState.seeding ∨ q.jb.jstate = JState.joined then
          { q with jb := { q.jb with detach := true } }
        else q) }
      (s1.detachCheck h, none))

/-- DETACH_CANCEL: the candidacy is withdrawn, and the DETACH_PREPARE that waits ends with FAULT. -/
def execDetachCancel (h : Hdr) (s : State) : Out :=
  s.command h 0x0608 false true (fun s =>
    match s.detachCmd with
    | none => ended s 0x07
    | some w =>
      let s1 : State := { s with detachCmd := none, parts := mapv Part.zero s.parts (fun _ (q : Part) => { q with jb := { q.jb with detach := false } }) }
      okWith (s1.post w 0x0607 0x09 []) [])

/-- JOB_END: the manager votes for teardown at plan frame P. -/
def execJobEnd (h : Hdr) (frame : Nat) (s : State) : Out :=
  s.onPartition h 0x0609 false true (fun s =>
    let q := s.part h.part
    if !q.jb.manager then ended s 0x03
    else if q.jb.teardown.isSome then ended s 0x05
    else
      let s1 := s.tell h.part { blankMsg with kind := 4, cause := 0, subject := 0xFFFF, arg1 := frame }
      let s2 := s1.onPart h.part (fun q => q.onMgr (fun g => { g with ends := g.ends ++ [(q.rank, frame)] }))
      okWith ((s2.endCheck h.part frame).settle h.part) [])

end Sys2Proof.Machine
end

