-- ==== Sys2Proof/Machine/Boot.lean ====
section
/-! DEFINITION. Module reset and start-up, the power sequencer's commands, and what the tray does to the module
(20_startup_and_service.md, 21_electrical_and_mechanical.md). INPUT_TURN_ON, TRAY_RST_N and a RESET write begin a reset; MODULE_RESET
runs the start-up sequence up to READY with what it finds and measures (log entry 40). -/

namespace Sys2Proof.Machine

/-! ### What a reset keeps (R414, R421, R444, R497, R506) -/

/-- A partition after a reset: its layout, tenants and key generation, no keys; every lease is to be zeroised. -/
def Part.afterReset (p : Part) : Part :=
  { Part.zero with
    stackTabA := p.stackTabA, stackTabB := p.stackTabB, coldTabA := p.coldTabA, coldTabB := p.coldTabB, landLeases := p.landLeases
    sx := { created := p.sx.created, opEntry := p.sx.opEntry, tenants := p.sx.tenants, keyGen := p.sx.keyGen, zeroPend := p.allLeases }
    pw := { alloc := p.pw.alloc } }

/-- A stack after a reset: its identity memory and repairs; an evacuation starts afresh, and key slots are empty. -/
def Stack.afterReset (y : Stack) : Stack :=
  { state := y.state, spareFor := y.spareFor, evac := y.evac.map (fun e => (e.1, 0)), pinFail := y.pinFail, repairs := y.repairs
    digest := y.digest, badRec := y.badRec, mirror := y.mirror, serial := y.serial, build := y.build
    chans := mapv StkChan.zero y.chans (fun _ c => { pins := c.pins, rowsUsed := c.rowsUsed, colsUsed := c.colsUsed, failing := c.failing }) }

/-- The cold frame after a reset. -/
def Cold.afterReset (y : Cold) : Cold :=
  { state := y.state, spareFor := y.spareFor, copy := y.copy.map (fun e => (e.1, 0))
    chans := mapv CfChan.zero y.chans (fun _ c => { failing := c.failing }) }

/-- A port after a reset: as PORT_CONFIG left it. -/
def Port.afterReset (y : Port) : Port := { st := if y.st = .off then .off else .down, roleSet := y.roleSet }

/-- Firmware after a reset: no install or activation is in progress. -/
def FwT.afterReset (f : FwT) : FwT := { f with install := none, activ := none }

/-- Fuses blown by FUSE_WRITE take effect (R14): group 0 SERIAL (log entry 41). -/
def Fuses.afterReset (f : Fuses) : Fuses := { f with serial := (look (BitVec.ofNat 64 f.serial) f.blown 0).toNat }

/-- MAC: group 1 (log entry 41). -/
def Fuses.mac (f : Fuses) (old : BitVec 48) : BitVec 48 := (look (old.setWidth 64) f.blown 1).setWidth 48

/-- The highest INDEX of a list of records, plus 1. -/
def nextIndex (l : List ErrRec) : Nat := l.foldl (fun m e => max m (e.index + 1)) 0

/-- A module reset begins: PHASE POWER. What outlives it stays; everything else takes its reset value. -/
def State.beginReset (s : State) : State :=
  { pending := s.pending, freeCtr := s.freeCtr, nextKey := s.nextKey, out := s.out
    blocks := mapv Block.zero s.blocks (fun _ b => { owner := b.owner })
    stks := mapv Stack.zero s.stks (fun _ y => y.afterReset), cold := s.cold.afterReset
    parts := mapv Part.zero s.parts (fun _ q => q.afterReset), retired := s.retired
    ports := mapv Port.zero s.ports (fun _ y => y.afterReset)
    shadows := allParts.map (fun p => (p, { Shadow.zero with incompl := true }))
    pwr := { capW := s.pwr.capNext.getD s.pwr.capW, gustAct := s.pwr.gustAct, busV := s.pwr.busV, lockout := s.pwr.lockout
             dom := if s.pwr.lockout then 0 else ({} : Power).dom }
    keys := { s.keys with passFails := 0, passLock := false, pairKey := false, debugOn := false }
    audit := s.audit, auditIdx := s.auditIdx, auditHead := s.auditHead, checks := s.checks
    spFw := s.spFw.afterReset, mgFw := s.mgFw.afterReset, spRun := s.spRun, mgRun := s.mgRun
    boot := { resets := s.boot.resets + 1, rstLow := s.boot.rstLow, perst := s.boot.perst }
    io := { clip := s.io.clip, dynAddr := s.io.dynAddr, mac := s.fuses.mac s.io.mac, bifur := s.io.bifurNxt, bifurNxt := s.io.bifurNxt }
    fuses := s.fuses.afterReset, errs := s.flashErr, errNext := nextIndex s.flashErr, flashErr := s.flashErr, calFlash := s.calFlash }

/-! ### Firmware selection (R437 to R439) -/

/-- The image verifies under ROOT_HASH and the fused minimum. -/
def FwT.verifies (f : FwT) (i : FwImage) : Bool := i.signed && decide (f.min ≤ i.version)

/-- The image of a bank, when it verifies. -/
def FwT.good (f : FwT) (bankB : Bool) : Option FwImage := (if bankB then f.b else f.a).filter f.verifies

/-- The bank with the higher VERSION of those that verify; of equals, A. -/
def FwT.select (f : FwT) : Option (Bool × FwImage) :=
  match f.good false, f.good true with
  | none, none => none
  | some i, none => some (false, i)
  | none, some j => some (true, j)
  | some i, some j => if i.version < j.version then some (true, j) else some (false, i)

/-- Both processors boot, or neither bank of one verifies. At a reset, other firmware than before raises ATTEST_EPOCH. -/
def State.bootFw (s : State) (atReset : Bool) : Option State :=
  match s.spFw.select, s.mgFw.select with
  | some (x, i), some (y, j) =>
    some { s with
      spFw := { s.spFw with bankB := x }, mgFw := { s.mgFw with bankB := y }, spRun := i.digest, mgRun := j.digest, mgmtDown := false, rota := 0
      rotaSet := 0
      keys := { s.keys with attestEp := if atReset ∧ i.digest ≠ s.spRun then s.keys.attestEp + 1 else s.keys.attestEp } }
  | _, _ => none

/-! ### Start-up (Tables 20.1, 20.2, 20.5, R213, R219, R255, R350, R351, R508, R510, R513 to R515, R534) -/

/-- The optical engine of a port: U0 to U3, AX. -/
def engineOf (i : Nat) : Option Nat := if 6 ≤ i ∧ i ≤ 9 then some (i - 6) else if i = 11 then some 4 else none

/-- A column spare is applied to a data die and recorded; with none left the die is FAILING (R213 to R215, R219). -/
def State.fixColumn (s : State) (e : Nat × Nat × Nat × Nat) : State :=
  let (k, ch, bank, col) := e
  let c := (s.stack k).chan ch
  if 32 ≤ c.colsUsed then (s.onStack k (fun y => y.onChan ch (fun c => { c with failing := true }))).settleFailing k ch
  else
    let last := decide (c.colsUsed = 31 ∧ (s.stack k).state = .ok)
    s.onStack k (fun y =>
      let y1 := y.onChan ch (fun c => { c with colsUsed := c.colsUsed + 1 })
      { y1 with state := if last then .degraded else y1.state }.record s.gbit [repairEntry 2 ch bank col c.colsUsed])

/-- A stack whose repair record has no matching DIGEST holds no live repairs, and is DEGRADED until diagnostics (R219). -/
def Stack.unread (y : Stack) : Stack :=
  { y with repairs := [], spareFor := none, evac := none, pinFail := 0, chans := [], badRec := true
           state := if y.state = .failed then .failed else .degraded }

/-- Identity memories and column spares. -/
def State.identify (s : State) (b : BootOut) : State :=
  let known := !b.idFail.getLsbD 0
  let s1 : State := { s with
    boot := { s.boot with idFail := b.idFail }
    io := { s.io with slot := if known then b.slot else 0xFF, twinSlot := if known then b.twinSlot else 0xFF, opt := b.optPresent } }
  let s2 := b.recordsBad.foldl (fun s k => s.onStack k Stack.unread) s1
  let s2 := b.columns.foldl State.fixColumn s2
  let s3 : State := { s2 with cold := b.chansBad.foldl Cold.fail s2.cold }
  if b.idFail.getLsbD 3 then
    { s3 with ports := mapv Port.zero s3.ports (fun i y => match engineOf i with
        | some e => if b.optPresent.getLsbD e then y else { y with st := .off }
        | none => y) }
  else s3

/-- The set in hub flash is valid (R511). -/
def State.calOk (s : State) : Bool := calValid s.fuses.serial s.fuses.fused s.calFlash

/-- The rows of Table 20.5 that are searched. -/
def State.searches (s : State) (b : BootOut) : List Nat := if s.calOk then b.searchRows else [1, 2, 3, 4]

/-- The values of the ports that trained: LAT, storm correction, maximum flight (R302, R513). -/
def calPorts (c : CalSet) (l : List (Nat × TrainOut)) : CalSet :=
  l.foldl (fun c e => if trainOk e.2 then calPut c 1 e.1 [latOf e.2.storm8, ceil8 (e.2.storm8 - e.2.quiet8), e.2.storm8] else c) c

/-- The crossings' values: read offset, skew and 8 cycles (R350), and FAILED marks (R351). -/
def calCrossings (c : CalSet) (islands : List Nat) (skews : List (Nat × Nat)) (bad : List Nat) : CalSet :=
  islands.foldl (fun c i =>
    let read := ((skews.find? (fun e => decide (e.1 = i))).map (fun e => e.2 + 8)).getD (calMeas c 3 i 0)
    calPut c 3 i [read, b2n (bad.contains i)]) c

/-- The set that start-up loads, measures and writes with WRITER 0x3: the old one, or a complete new one (R513, R514). -/
def State.measuredSet (s : State) (b : BootOut) : CalSet :=
  let old := if s.calOk then s.calFlash else blankSet s.fuses.serial s.fuses.fused
  let c1 := b.offsets.foldl (fun c e => calPut c 2 e.1 [e.2]) (calPorts old b.ports)
  calSealed (calCrossings { c1 with writer := 3, hallNs := s.hallNow } (calUnits s.fuses.fused 3) b.skews b.crossBad)

/-- Islands take their beacon offsets and FAILED marks, ports their storm corrections (Table 20.4, R312, R510). -/
def State.loadCal (s : State) (c : CalSet) : State :=
  let s1 := (calUnits s.fuses.fused 2).foldl (fun s i =>
    s.onIsland i (fun y => { y with offset := calMeas c 2 i 0, failed := decide (calMeas c 3 i 1 = 1) })) s
  (List.range 12).foldl (fun s i => s.onPort i (fun y => { y with stormCorr := calMeas c 1 i 1 })) s1

/-- A port that is on after the phases of Table 11.4: without TIME_REF none leaves TRAINING; one whose peer does not train is left
DOWN (R510). -/
def Port.started (y : Port) (local' : Bool) (r : TrainOut) (start : Nat) : Port :=
  if y.st = .off then y
  else if local' then { y with st := .training }
  else if r.trained then y.trained r start else { y with st := .down }

/-- Calibration, with the units that still fail. -/
def State.calibrate (s : State) (b : BootOut) : State :=
  let c := s.measuredSet b
  let src := if (s.searches b).isEmpty then s.calFlash.writer else 3
  let s1 := ({ s with calFlash := c, calLoad := c, boot := { s.boot with calSource := src } }).loadCal c
  let s2 := b.ports.foldl (fun s e => (s.onPort e.1 (fun y => y.started s.tu.refLocal e.2 s.superStart)).fresh) s1
  let s3 := b.portsBad.foldl (fun s i => s.onPort i (fun y => if y.st = .off then y else { y with st := .failed })) s2
  let s4 := b.stacksBad.foldl (fun s k => s.onStack k (fun y => { y with state := .failed })) s3
  let s5 := b.pairsBad.foldl (fun s e => s.onStack e.1 (fun y => y.losePins s.gbit e.2.1 [e.2.2] false)) s4
  if b.coldBad then { s5 with cold := { s5.cold with state := .failed } } else s5

/-- Every domain in the state of R471. -/
def State.setDoms (s : State) : State :=
  let s1 := s.domsDown (allDoms.filter (fun d => decide (d < 92) && !s.wantsDom d))
  (onOrder.foldl (fun s d => if s.wantsDom d then s.domUp d else s) s1).hubAct

/-- The start-up set of domains (R508). -/
def State.startDoms (s : State) : State :=
  let s1 : State := { s with boot := { s.boot with phase := .memory } }
  (onOrder.foldl (fun s d => if s.wantsDom d then s.domUp d else s) s1).hubAct

/-- The reset's audit entry and checkpoint (R444, Table 16.8). -/
def State.auditReset (s : State) : State := (s.auditOne
  { index := 0, hallNs := 0, role := .module, event := 0x0A, opcode := 0, status := 0, part := 0xFF, sid := 0, keyId := 0, param := 0
    prev := 0 }).checkpoint

/-- The start-up sequence up to READY. -/
def State.startUp (s : State) (b : BootOut) : State :=
  let s1 : State := { s with tu := { s.tu with refOk := b.refOk, refLocal := !b.refOk } }
  match s1.bootFw true with
  | none => { s1 with boot := { s1.boot with phase := .bootFail } }.hubAct
  | some t =>
    let u := ((t.auditReset.identify b).startDoms).calibrate b
    { u with boot := { u.boot with phase := .calibration } }

/-- PHASE POWER or BOOT: start-up has not run. -/
def State.starting (s : State) : Bool := decide (s.boot.phase = .power ∨ s.boot.phase = .boot)

/-- MODULE_RESET: a reset that no other command has begun begins; unless TRAY_RST_N is low or the input is locked out, start-up
runs. -/
def execModuleReset (b : BootOut) (s : State) : Out :=
  let s1 := if s.starting then s else s.beginReset
  if s1.boot.rstLow || s1.pwr.lockout then ok s1 else ok (s1.startUp b)

/-- READY: domains take the states of R471, every partition receives new keys, and commands are accepted. -/
def execReady (startDs : Nat) (s : State) : Out :=
  if s.boot.phase ≠ .calibration then ok s
  else
    let s1 := ({ s with boot := { s.boot with phase := .ready, startDs := min 65535 startDs } }).setDoms
    ok (allParts.foldl (fun s p => if s.exists? p then s.newKeys p else s) s1)

/-! ### What begins a reset (R506, R526, R536, R539) -/

/-- INPUT_TURN_ON: the charged bus passes 42.0 V; the input has recovered and the clip is closed. -/
def execInputTurnOn (mV : Nat) (s : State) : Out :=
  if mV ≤ 42000 then ok s
  else ok ({ s.setBus mV with pwr := { (s.setBus mV).pwr with lockout := false }, io := { s.io with clip := true } }).beginReset

/-- TRAY_RST_N: low for 10 µs. -/
def execTrayRstN (s : State) : Out := ok ({ s with boot := { s.boot with rstLow := true } }).beginReset

/-- TRAY_RST_N_HIGH: the module may leave POWER. -/
def execTrayRstNHigh (s : State) : Out :=
  let phase := if s.boot.phase = .power ∧ s.boot.rstLow ∧ !s.pwr.lockout then Phase.boot else s.boot.phase
  ok { s with boot := { s.boot with rstLow := false, phase } }

/-- SEQ_RESET_WRITE: 0x5A begins a reset; other values are ignored. -/
def execSeqResetWrite (v : BitVec 8) (s : State) : Out := if v = 0x5A#8 then ok s.beginReset else ok s

/-- SETDASA: the sequencer's dynamic address. -/
def execSetdasa (addr : BitVec 7) (s : State) : Out := ok { s with io := { s.io with dynAddr := addr } }

/-! ### The hub domains (R471, R537, R538) -/

/-- PD_HMGMT goes off after every non-hub domain: sessions end, keys go, plans and memberships end. -/
def State.mgmtOff (s : State) : State :=
  let s1 := s.sessions.foldl (fun t e => t.endSession e.1) s
  let s2 := (allParts.foldl State.unplace s1).dropKeys
  let s3 := s2.domsDown (allDoms.filter (fun d => decide (d < 92)))
  { s3.domDown 94 with
    sessions := [], inProg := [], taken := [], mgmtDown := true, spFw := s3.spFw.afterReset, mgFw := s3.mgFw.afterReset, detachCmd := none
    boot := { s3.boot with selfcal := none, selfHdr := none }
    parts := mapv Part.zero s3.parts (fun _ q => q.afterReset) }

/-- A hub domain follows its HUB_DOM bit. -/
def State.hubFollow (s : State) (i : Nat) : State :=
  if s.seqr.hubDom.getLsbD i then s.domUp (92 + i)
  else if !s.pwr.dom.getLsbD (92 + i) then s
  else if i = 2 then s.mgmtOff else s.domDown (92 + i)

/-- HUB_DOM_WRITE: a write that would clear a bit is refused while a partition is ARMED or RUNNING, or before READY. -/
def execHubDomWrite (v : BitVec 8) (s : State) : Out :=
  let new := v.setWidth 4
  let old := s.seqr.hubDom
  let refuse := decide (old &&& ~~~new ≠ 0) && (s.anyActive || decide (s.boot.phase ≠ .ready))
  let s1 : State := { s with seqr := { s.seqr with hubDom := if refuse then old ||| new else new, refused := s.seqr.refused || refuse } }
  if s1.pwr.lockout then ok s1 else ok (([2, 0, 1, 3] : List Nat).foldl State.hubFollow s1).hubAct

/-- HUB_DOM_BOOT_DONE: after HUB_DOM bit 2 is set again the firmware boots; every partition receives new keys. -/
def execHubDomBootDone (b : BootOut) (s : State) : Out :=
  if s.boot.phase ≠ .ready ∨ !s.mgmtDown ∨ s.mgFw.activ.isSome ∨ !s.pwr.dom.getLsbD 94 then ok s
  else
    match s.bootFw false with
    | none => ok { s with boot := { s.boot with phase := .bootFail } }
    | some t =>
      let t1 := b.stacksBad.foldl (fun s k => s.onStack k (fun y => { y with state := .failed })) t.setDoms
      ok (allParts.foldl (fun s p => if s.exists? p then s.newKeys p else s) t1)

end Sys2Proof.Machine
end

