-- ==== Sys2Proof/Machine/Service.lean ====
section
/-! DEFINITION. Power, counter, log, diagnostics, firmware, calibration, port, link and fuse commands: 0x07xx to 0x09xx
(17_host_and_commands.md Table 17.13, 18, 19, 20). Result layouts that the spec does not give are those of log entry 36. -/

namespace Sys2Proof.Machine

/-! ### Power (R6, R360, R476, R479, R480, R485) -/

/-- POWER_STATUS: cap, estimate, the four gust requests, allocations. -/
def execPowerStatus (h : Hdr) (s : State) : Out :=
  s.command h 0x0701 false true (fun s =>
    okWith s ([(2, s.pwr.capW), (2, s.pwr.estW), (1, s.windReq), (1, s.floorReq), (1, s.rampReq), (1, s.gustReq)] ++
      allParts.map (fun p => (2, if s.exists? p then (s.part p).pw.alloc else 0))))

/-- POWER_CAP_SET: from the next frame boundary. -/
def execPowerCapSet (h : Hdr) (watts : Nat) (s : State) : Out :=
  s.command h 0x0702 false true (fun s =>
    if s.fuses.capMax < watts ∨ watts < 1200 then ended s 0x03
    else if watts < s.allocSum then ended s 0x05
    else okWith { s with pwr := { s.pwr with capNext := some watts } } [])

/-- POWER_FLOOR_SET: the floor that the next vote latch takes. -/
def execPowerFloorSet (h : Hdr) (gust : Nat) (s : State) : Out :=
  s.command h 0x0703 false (decide (gust ≤ 5)) (fun s => okWith { s with tu := { s.tu with floor := gust } } [])

/-- WINDBREAK_MODE: whether Windbreak's request may follow activity. -/
def execWindbreakMode (h : Hdr) (on : Bool) (s : State) : Out :=
  s.command h 0x0704 false true (fun s =>
    if s.anyActive then ended s 0x05
    else okWith { s with pwr := { s.pwr with gustAct := on, actReq := if on then s.pwr.actReq else 0, low16 := 0 } } [])

/-- ENERGY_READ: millijoules since the partition's last PLAN_LOAD. -/
def execEnergyRead (h : Hdr) (s : State) : Out :=
  s.onPartition h 0x0705 false true (fun s => okWith s [(8, (s.part h.part).pw.energyMj)])

/-! ### Counters (R490 to R495) -/

/-- The event numbers of a location kind (Table 19.2). -/
def eventOk (kind event : Nat) : Bool :=
  let n := event % 256
  decide (event = 0) || (decide (event / 256 = kind - 1 ∧ 1 ≤ kind ∧ 1 ≤ n) &&
    (match kind with
     | 1 => decide (n ≤ 0x0C)
     | 2 => decide (n ≤ 0x08)
     | 3 => decide (n ≤ 0x09)
     | 4 => decide (n ≤ 0x0C)
     | 5 => decide (n ≤ 0x0E)
     | _ => false))

/-- The location is a cell or block of a fused block: an absent engine (R3, R8). -/
def State.locAbsent (s : State) (loc : Nat) : Bool :=
  match loc / 4096 with
  | 1 => decide (loc % 4096 < 2048 ∧ loc % 32 < 18) && !s.enginePresent (loc % 4096 / 32)
  | 2 => decide (loc % 4096 < 64) && !s.enginePresent (loc % 4096)
  | _ => false

/-- COUNTER_SET: selects an event or a tap, and clears the counter and its sticky bit. -/
def execCounterSet (h : Hdr) (loc idx event mode : Nat) (s : State) : Out :=
  s.command h 0x0801 (s.locAbsent loc) true (fun s =>
    if !s.hasCounter loc idx || !(if mode = 0 then eventOk (loc / 4096) event else decide (mode ≤ 2 ∧ event ≤ 3)) then ended s 0x03
    else okWith { s with counters := put Counter.zero s.counters (ctrKey loc idx) { event, mode } } [])

/-- The session of a command. -/
def State.who (s : State) (h : Hdr) : Session := (s.session h.sid).getD {}

/-- The operator of a session acts on partition `p` (R428). -/
def State.mine (s : State) (x : Session) (p : Nat) : Bool := s.exists? p && decide ((s.part p).sx.opEntry = x.entry)

/-- The session may read the counters of a location: an operator, those of cells and blocks that its partitions own (R495). -/
def State.mayRead (s : State) (x : Session) (loc : Nat) : Bool :=
  let own (b : Nat) : Bool := match (s.block b).owner with
    | none => false
    | some p => s.mine x p
  decide (x.role ≠ .operator) ||
    (match loc / 4096 with
     | 1 => own (loc % 4096 / 32)
     | 2 => own (loc % 4096)
     | _ => false)

/-- COUNTER_READ: each value with its sticky bit as in Table 19.6, in list order. -/
def execCounterRead (h : Hdr) (loc : Nat) (idxs : List Nat) (s : State) : Out :=
  s.command h 0x0802 (s.locAbsent loc) true (fun s =>
    if !s.mayRead (s.who h) loc then ended s 0x01
    else if idxs.isEmpty || decide (16 < idxs.length) || !idxs.all (s.hasCounter loc) then ended s 0x03
    else okWith s (idxs.map (fun i => (8, 2 ^ 63 * b2n (s.counter loc i).sticky + (s.counter loc i).value.toNat))))

/-! ### Error log and health (R499, R505) -/

/-- An error record in a result (Table 19.7). -/
def errFields (e : ErrRec) : List (Nat × Nat) :=
  [(8, e.index), (8, e.hallNs), (1, e.cause), (1, e.cls), (1, e.part), (1, e.level), (2, e.unit), (2, e.rep), (8, e.stepNo),
   (8, e.frame), (4, e.offset), (4, e.job), (8, e.d0), (8, e.d1)]

/-- ERROR_LOG_READ: records `first` up to `first + count − 1`; an operator receives those of its partitions. -/
def execErrorLogRead (h : Hdr) (first count : Nat) (s : State) : Out :=
  s.command h 0x0803 false true (fun s =>
    if first + 16384 < s.errNext then ended s 0x07
    else
      let x := s.who h
      let l := s.errs.filter (fun e => decide (first ≤ e.index ∧ e.index < first + count) && (decide (x.role ≠ .operator) || s.mine x e.part))
      okWith s (l.foldl (fun a e => a ++ errFields e) []))

/-- HEALTH_READ: the score and every input of Table 19.11 with its count and penalty, as of the round of hub.health. -/
def execHealthRead (h : Hdr) (s : State) : Out :=
  s.command h 0x0804 false true (fun s =>
    okWith s ((2, s.health.score) :: (2, s.health.round) ::
      (List.range 15).foldl (fun a i => a ++ [(8, (s.health.inputs.getD i (0, 0)).1), (2, (s.health.inputs.getD i (0, 0)).2)]) []))

/-! ### Cells and diagnostics (R177, R219, R471) -/

/-- CELL_RETIRE: the repair record takes the cell; its cause of retirement is 0. -/
def execCellRetire (h : Hdr) (b cell : Nat) (s : State) : Out :=
  s.command h 0x0810 (decide (b < 64) && !s.enginePresent b) (decide (b < 64 ∧ cell < 18)) (fun s => okWith (s.retireCell (32 * b + cell) 0) [])

/-- Units under diagnosis, by the kind codes of Table 19.1, and 6 for stacks, 7 for the cold frame (log entry 42). -/
def unitExists (kind unit : Nat) : Bool :=
  match kind with
  | 1 => decide (unit < 2048 ∧ unit % 32 < 18)
  | 2 => decide (unit < 64)
  | 3 => decide (unit < 4)
  | 4 => decide (unit < 12)
  | 5 => decide (unit = 0)
  | 6 => decide (unit < 12)
  | 7 => decide (unit = 0)
  | _ => false

/-- The unit lies in a fused block. -/
def State.unitAbsent (s : State) (kind unit : Nat) : Bool :=
  unitExists kind unit && (match kind with
    | 1 => !s.enginePresent (unit / 32)
    | 2 => !s.enginePresent unit
    | _ => false)

/-- A partition holds the unit. -/
def State.holdsUnit (s : State) (kind unit p : Nat) : Bool :=
  match kind with
  | 1 => decide ((s.block (unit / 32)).owner = some p)
  | 2 => decide ((s.block unit).owner = some p)
  | 3 => allDoms.any (fun d => inRegion unit d && s.usesDom p d)
  | 4 => (s.part p).onPort unit || (look none (s.port unit).boot p).isSome
  | 5 => s.exists? p
  | 6 => s.onStackK p unit
  | _ => !((s.part p).targets .cold).isEmpty

/-- The unit is assigned to a partition whose STATE is neither 0x0 nor 0x1. -/
def State.unitBusy (s : State) (kind unit : Nat) : Bool :=
  allParts.any (fun p => s.holdsUnit kind unit p && !decide ((s.part p).st = .empty ∨ (s.part p).st = .staged))

/-- Diagnostics of a stack end the mark that an unreadable repair record left (R219). -/
def State.diagnosed (s : State) (kind unit : Nat) : State :=
  if kind = 6 then s.onStack unit (fun y =>
    let sound := y.spareFor.isNone && y.chans.all (fun e => e.2.pins.isEmpty && !e.2.failing && decide (e.2.colsUsed < 32))
    { y with badRec := false, state := if y.badRec ∧ y.state = .degraded ∧ sound then .ok else y.state })
  else s

/-- DIAG_RUN: the unit's self-test and its pass mask. -/
def execDiagRun (h : Hdr) (kind unit : Nat) (r : DiagOut) (s : State) : Out :=
  s.command h 0x0811 (s.unitAbsent kind unit) (unitExists kind unit) (fun s =>
    if s.unitBusy kind unit then ended s 0x05
    else if r.fault then ended s 0x09
    else okWith (s.diagnosed kind unit) [(8, r.mask)])

/-- RMA_DIAG: as DIAG_RUN, with the maker's tests; it may reverse the retirement of a cell. -/
def execRmaDiag (h : Hdr) (kind unit _test : Nat) (r : DiagOut) (unretire : Option Nat) (s : State) : Out :=
  s.command h 0x0820 (s.unitAbsent kind unit || unretire.any (s.unitAbsent 1)) (unitExists kind unit && unretire.all (fun c => unitExists 1 c)) (fun s =>
    if s.unitBusy kind unit then ended s 0x05
    else if r.fault then ended s 0x09
    else
      let s1 := s.diagnosed kind unit
      let s2 : State := match unretire with
        | none => s1
        | some c =>
          let m := look 0#18 s1.retired (blockOf c)
          { s1 with retired := put 0#18 s1.retired (blockOf c) (m &&& ~~~(BitVec.ofNat 18 (2 ^ physOf c))) }
      okWith s2 [(8, r.mask)])

/-! ### Firmware (R437 to R439, R518 to R520) -/

def State.fw (s : State) (t : FwTarget) : FwT :=
  match t with
  | .security => s.spFw
  | .management => s.mgFw

def State.setFw (s : State) (t : FwTarget) (f : FwT) : State :=
  match t with
  | .security => { s with spFw := f }
  | .management => { s with mgFw := f }

/-- The image of the bank in use (`other` false) or of the other bank. -/
def FwT.image (f : FwT) (other : Bool) : Option FwImage := if f.bankB != other then f.b else f.a

/-- Replace the contents of the inactive bank. -/
def FwT.fill (f : FwT) (x : Option FwImage) : FwT := if f.bankB then { f with a := x } else { f with b := x }

/-- An install is in progress. -/
def State.installing (s : State) : Bool := s.spFw.install.isSome || s.mgFw.install.isSome

/-- The install begins: the inactive bank holds no image until it is done. -/
def State.beginInstall (s : State) (h : Hdr) (t : FwTarget) (img : FwImage) : Did :=
  if s.installing then ended s 0x05
  else if !h.dmaOk then ended s 0x09
  else if !(s.fw t).verifies img then ended s 0x03
  else (s.setFw t { (s.fw t).fill none with install := some (some h, img) }, none)

/-- FW_INSTALL; in BOOT_FAIL the management connector accepts it without a session (R438). -/
def execFwInstall (h : Hdr) (t : FwTarget) (img : FwImage) (s : State) : Out :=
  if s.boot.phase = .bootFail ∧ h.fn = 17 then
    match (s.begin h 0x0901).beginInstall h t img with
    | (s1, none) => ok s1
    | (s1, some (st, res)) => ok (s1.post h 0x0901 st res)
  else s.command h 0x0901 false (decide (h.fn ≠ 17)) (fun s => s.beginInstall h t img)

/-- FW_INSTALL_DONE: the inactive bank is written and verified, or the write failed and the bank is empty. -/
def execFwInstallDone (t : FwTarget) (good : Bool) (s : State) : Out :=
  let f := s.fw t
  match f.install with
  | none => ok s
  | some (h, img) =>
    let s1 := s.setFw t { f.fill (if good then some img else none) with install := none }
    ok (s1.post? h 0x0901 (if good then 0 else 0x09) [])

/-- New firmware runs: the digest is its image's; security firmware raises ATTEST_EPOCH. -/
def State.activated (s : State) (t : FwTarget) : State :=
  let digest := ((s.fw t).image false).elim 0 (·.digest)
  let s1 : State := match t with
    | .security => { s with spRun := digest, keys := { s.keys with attestEp := s.keys.attestEp + 1 } }
    | .management => { s with mgRun := digest, mgmtDown := false, rota := 0, rotaSet := 0 }
  (s1.auditAdd .module 0x07 0 0 0xFF 0 0 0).event 0x09 0xFF []

/-- Every session ends. -/
def State.endSessions (s : State) : State := s.sessions.foldl (fun t e => t.endSession e.1) s

/-- FW_ACTIVATE: security firmware ends every session, and `runs` says whether it reports running; management firmware restarts its
processor, until MANAGEMENT_RESTART_DONE. -/
def execFwActivate (h : Hdr) (t : FwTarget) (runs : Bool) (s : State) : Out :=
  s.command h 0x0902 false true (fun s =>
    let f := s.fw t
    if s.installing || s.spFw.activ.isSome || s.mgFw.activ.isSome then ended s 0x05
    else if (f.good !f.bankB).isNone then ended s 0x03
    else
      let s1 := s.setFw t { f with bankB := !f.bankB, activ := some h, activAt := s.wallNs }
      match t with
      | .management => ({ s1 with mgmtDown := true }, none)
      | .security =>
        if runs then
          let s2 := (s1.setFw t { s1.fw t with activ := none }).activated t
          ((s2.post h 0x0902 0 []).endSessions, none)
        else (s1.endSessions, none))

/-- MANAGEMENT_RESTART_DONE: the new management firmware runs and completes FW_ACTIVATE. -/
def execManagementRestartDone (s : State) : Out :=
  match s.mgFw.activ with
  | none => ok s
  | some h => ok ((({ s with mgFw := { s.mgFw with activ := none } }).activated .management).post h 0x0902 0 [])

/-- FW_ACTIVATE_TIMEOUT: after 10 s the previous bank runs again and the bank left is erased. -/
def execFwActivateTimeout (t : FwTarget) (s : State) : Out :=
  let f := s.fw t
  match f.activ with
  | none => ok s
  | some h =>
    let s1 := s.setFw t (({ f with bankB := !f.bankB, activ := none } : FwT).fill none)
    let s2 : State := if t = FwTarget.management then { s1 with mgmtDown := false, rota := 0, rotaSet := 0 } else s1
    if s.wallNs < f.activAt + 10 ^ 10 then ok s else ok (s2.post h 0x0902 0x09 [])

/-- A bank in a result: VERSION and digest, zero when empty. -/
def bankFields (x : Option FwImage) : List (Nat × Nat) := [(4, x.elim 0 (·.version)), (32, x.elim 0 (·.digest.toNat))]

/-- FW_STATUS: bank A, bank B, the fused minimum. -/
def execFwStatus (h : Hdr) (t : FwTarget) (s : State) : Out :=
  s.command h 0x0903 false true (fun s => okWith s (bankFields (s.fw t).a ++ bankFields (s.fw t).b ++ [(4, (s.fw t).min)]))

/-- FW_MIN_ADVANCE. -/
def execFwMinAdvance (h : Hdr) (t : FwTarget) (s : State) : Out :=
  s.command h 0x0904 false true (fun s =>
    let f := s.fw t
    let v := (f.image false).elim 0 (·.version)
    if !(f.image true).all (fun i => decide (v ≤ i.version)) then ended s 0x05
    else okWith (s.setFw t { f with min := max f.min v }) [])

/-! ### Calibration (R511, R512, R516, R517) -/

/-- CAL_READ: the set in hub flash, written to the host address. -/
def execCalRead (h : Hdr) (host : Nat) (s : State) : Out :=
  s.command h 0x0910 false (decide (h.fn ≠ 17)) (fun s => if h.resOk then okWith (s.send (.calSet host s.calFlash)) [] else ended s 0x09)

/-- The SHADOW record names a slice that a partition leases. -/
def State.slicesLeased (s : State) (l : List Nat) : Bool :=
  allParts.any (fun p => ((s.part p).targets .cold).any (fun o => l.contains (64 * o.ch + o.sub)))

/-- CAL_WRITE: the running module keeps the set it has loaded. -/
def execCalWrite (h : Hdr) (_host : Nat) (set : CalSet) (flashOk : Bool) (s : State) : Out :=
  s.command h 0x0911 false (decide (h.fn ≠ 17)) (fun s =>
    if !h.dmaOk then ended s 0x09
    else if !calValid s.fuses.serial s.fuses.fused set || s.slicesLeased (calShadow set).slices then ended s 0x03
    else if flashOk then okWith { s with calFlash := set } []
    else ended { s with calFlash := {} } 0x09)

/-- A layer of partition `p` is open on port `i`. -/
def State.layerOn (s : State) (i p : Nat) : Bool := (s.part p).onPort i || (look none (s.port i).boot p).isSome

/-- A lease or layer in the scope of a self-calibration is held by a partition in STATE 0x2 or 0x3. -/
def State.calBusy (s : State) (region : Bool) (idx : Nat) : Bool :=
  s.activeParts.any (fun p =>
    if region then allDoms.any (fun d => inRegion idx d && decide (d < 76 ∨ 88 ≤ d) && s.usesDom p d) else s.layerOn idx p)

/-- SELF_CALIBRATE: units in scope count as FAILED; a port in scope is CALIBRATING. -/
def execSelfCalibrate (h : Hdr) (region : Bool) (idx : Nat) (s : State) : Out :=
  s.command h 0x0912 false (decide (idx < if region then 4 else 12)) (fun s =>
    if s.boot.selfcal.isSome || s.calBusy region idx then ended s 0x05
    else
      let s1 : State := { s with boot := { s.boot with selfcal := some (region, idx), selfHdr := some h } }
      (if region then s1 else s1.onPort idx (fun y => if y.st = .off then y else { y with st := .calibrating }), none))

/-- Islands of a region: its block islands and its mesh island (Table 20.6). -/
def regionIslands (r : Nat) : List Nat := (List.range 16).map (fun q => 16 * r + q) ++ [64 + r]

/-- A set with the records of the scope replaced: of a port its measured values, of a region its crossings, whose read offset is the
larger of the measured one and the one before (R517). -/
def calReplaced (c : CalSet) (fused : BitVec 64) (region : Bool) (i : Nat) (r : CalOut) (port : List Nat) (now : Nat) : CalSet :=
  let old (k : Nat) : Nat := calMeas c 3 k 0
  let c1 :=
    if region then
      (((regionIslands i).filter (fun k => (calUnits fused 3).contains k))).foldl (fun c k =>
        let new := ((r.skews.find? (fun e => decide (e.1 = k))).map (fun e => e.2 + 8)).getD 0
        calPut c 3 k [max new (old k), if r.bad.contains k then 1 else calMeas c 3 k 1]) c
    else calPut c 1 i port
  calSealed { c1 with writer := 3, hallNs := now }

/-- A port after a live self-calibration: LAT by R308 with the stored storm correction. -/
def Port.calibrated (y : Port) (r : TrainOut) (start : Nat) : Port :=
  if y.st ≠ .calibrating then y
  else if !trainOk r then { y with st := .failed }
  else
    let lat := latOf (r.quiet8 + 8 * y.stormCorr)
    if 4095 < lat then { y with st := .failed }
    else { y.freshLanes r start with st := .fenced, latRx := lat, flightMax := r.quiet8 }

/-- SELF_CALIBRATE_DONE: the unit's records in the loaded set and in hub flash are replaced. -/
def execSelfCalibrateDone (r : CalOut) (s : State) : Out :=
  match s.boot.selfcal with
  | none => ok s
  | some (region, i) =>
    let s2 := if region then r.bad.foldl (fun s k => s.onIsland k (fun y => { y with failed := true })) s
      else (s.onPort i (fun y => y.calibrated r.port s.superStart)).fresh
    let y := s2.port i
    let new (c : CalSet) : CalSet := calReplaced c s.fuses.fused region i r [y.latRx, y.stormCorr, y.flightMax] s.hallNow
    let s3 : State := { s2 with
      calLoad := new s.calLoad, calFlash := if r.flashOk then new s.calFlash else {}
      boot := { s2.boot with selfcal := none, selfHdr := none, calSource := 3 } }
    ok (s3.post? s.boot.selfHdr 0x0912 (if r.flashOk then 0 else 0x09) [])

/-! ### Ports, links, fuses (R14, R282, R448) -/

/-- A partition that is ARMED or RUNNING has a layer open on the port, or on the port that AX gives up or takes. -/
def State.portHeld (s : State) (i role : Nat) : Bool :=
  let l := if i = 11 then [11, role, (s.port 11).roleSet.getD 11] else [i]
  s.activeParts.any (fun p => l.any (fun k => s.layerOn k p))

/-- Power a port on or off; a port for which AX substitutes stays OFF. -/
def State.portPower (s : State) (i : Nat) (on : Bool) : State :=
  if on && decide (s.axRole ≠ some i) then
    (s.onPort i (fun y => { y with st := if y.st = .off then .down else y.st })).domUp (76 + i)
  else (s.onPort i (fun y => { y with st := .off, boot := [] })).domDown (76 + i)

/-- PORT_CONFIG. -/
def execPortConfig (h : Hdr) (i : Nat) (on : Bool) (role : Nat) (s : State) : Out :=
  s.command h 0x0920 false (decide (i < 12 ∧ (role = i ∨ (i = 11 ∧ role < 6)))) (fun s =>
    if s.portHeld i role then ended s 0x05
    else if i ≠ 11 then okWith (s.portPower i on) []
    else
      let s1 := s.onPort 11 (fun y => { y with roleSet := if role = 11 then none else some role })
      okWith ((if on && decide (role < 6) then s1.portPower role false else s1).portPower 11 on) [])

/-- HOST_LINK_CONFIG: the mode in force from the next reset. -/
def execHostLinkConfig (h : Hdr) (bifurcated : Bool) (s : State) : Out :=
  s.command h 0x0921 false true (fun s => okWith { s with io := { s.io with bifurNxt := bifurcated } } [])

/-- FUSE_WRITE: a group still unblown; its field changes at the next reset (log entry 41). -/
def execFuseWrite (h : Hdr) (group : Nat) (value : Word) (s : State) : Out :=
  s.command h 0x0930 false (decide (group < 256)) (fun s =>
    if s.fuses.blown.any (fun e => decide (e.1 = group)) then ended s 0x03
    else if s.anyActive then ended s 0x05
    else okWith { s with fuses := { s.fuses with blown := put 0 s.fuses.blown group value } } [])

end Sys2Proof.Machine
end

