-- ==== Sys2Proof/Machine/Dispatch.lean ====
section
/-! DEFINITION. One arm per command: a direct call of its meaning. -/

namespace Sys2Proof.Machine

def exec (i : Instr) (s : State) : Host.Outcome State Fault Refusal :=
  match i with
  | .nopC c w fecc => Sys2Proof.Machine.execNopC c w fecc s
  | .addI64 c f => Sys2Proof.Machine.execAddI64 c f s
  | .subI64 c f => Sys2Proof.Machine.execSubI64 c f s
  | .andB64 c f => Sys2Proof.Machine.execAndB64 c f s
  | .orB64 c f => Sys2Proof.Machine.execOrB64 c f s
  | .xorB64 c f => Sys2Proof.Machine.execXorB64 c f s
  | .shlB64 c f => Sys2Proof.Machine.execShlB64 c f s
  | .shrU64 c f => Sys2Proof.Machine.execShrU64 c f s
  | .sarS64 c f => Sys2Proof.Machine.execSarS64 c f s
  | .minS64 c f => Sys2Proof.Machine.execMinS64 c f s
  | .maxS64 c f => Sys2Proof.Machine.execMaxS64 c f s
  | .minU64 c f => Sys2Proof.Machine.execMinU64 c f s
  | .maxU64 c f => Sys2Proof.Machine.execMaxU64 c f s
  | .mulI64 c f => Sys2Proof.Machine.execMulI64 c f s
  | .mulhU64 c f => Sys2Proof.Machine.execMulhU64 c f s
  | .divU64 c f => Sys2Proof.Machine.execDivU64 c f s
  | .remU64 c f => Sys2Proof.Machine.execRemU64 c f s
  | .addiI64 c f => Sys2Proof.Machine.execAddiI64 c f s
  | .andiB64 c f => Sys2Proof.Machine.execAndiB64 c f s
  | .oriB64 c f => Sys2Proof.Machine.execOriB64 c f s
  | .xoriB64 c f => Sys2Proof.Machine.execXoriB64 c f s
  | .shliB64 c f => Sys2Proof.Machine.execShliB64 c f s
  | .shriU64 c f => Sys2Proof.Machine.execShriU64 c f s
  | .sariS64 c f => Sys2Proof.Machine.execSariS64 c f s
  | .lihB64 c f => Sys2Proof.Machine.execLihB64 c f s
  | .muliI64 c f => Sys2Proof.Machine.execMuliI64 c f s
  | .ld c f => Sys2Proof.Machine.execLd c f s
  | .st c f => Sys2Proof.Machine.execSt c f s
  | .ldx c f => Sys2Proof.Machine.execLdx c f s
  | .stx c f => Sys2Proof.Machine.execStx c f s
  | .ceqI64 c f => Sys2Proof.Machine.execCeqI64 c f s
  | .cneI64 c f => Sys2Proof.Machine.execCneI64 c f s
  | .cltS64 c f => Sys2Proof.Machine.execCltS64 c f s
  | .cgeS64 c f => Sys2Proof.Machine.execCgeS64 c f s
  | .cltU64 c f => Sys2Proof.Machine.execCltU64 c f s
  | .cgeU64 c f => Sys2Proof.Machine.execCgeU64 c f s
  | .ceqiI64 c f => Sys2Proof.Machine.execCeqiI64 c f s
  | .cneiI64 c f => Sys2Proof.Machine.execCneiI64 c f s
  | .cltiS64 c f => Sys2Proof.Machine.execCltiS64 c f s
  | .cgeiS64 c f => Sys2Proof.Machine.execCgeiS64 c f s
  | .cltiU64 c f => Sys2Proof.Machine.execCltiU64 c f s
  | .cgeiU64 c f => Sys2Proof.Machine.execCgeiU64 c f s
  | .pandP c f => Sys2Proof.Machine.execPandP c f s
  | .porP c f => Sys2Proof.Machine.execPorP c f s
  | .pxorP c f => Sys2Proof.Machine.execPxorP c f s
  | .pandnP c f => Sys2Proof.Machine.execPandnP c f s
  | .psetP c f => Sys2Proof.Machine.execPsetP c f s
  | .pclrP c f => Sys2Proof.Machine.execPclrP c f s
  | .prdP16 c f => Sys2Proof.Machine.execPrdP16 c f s
  | .pwrP16 c f => Sys2Proof.Machine.execPwrP16 c f s
  | .rdsrI64 c f => Sys2Proof.Machine.execRdsrI64 c f s
  | .waitC c f => Sys2Proof.Machine.execWaitC c f s
  | .waitoC c f => Sys2Proof.Machine.execWaitoC c f s
  | .stependC c f => Sys2Proof.Machine.execStependC c f s
  | .loopC c f => Sys2Proof.Machine.execLoopC c f s
  | .agsetA24 c f => Sys2Proof.Machine.execAgsetA24 c f s
  | .agrdU24 c f => Sys2Proof.Machine.execAgrdU24 c f s
  | .lcrdU11 c f => Sys2Proof.Machine.execLcrdU11 c f s
  | .agaddA24 c f => Sys2Proof.Machine.execAgaddA24 c f s
  | .vaddF32 c f => Sys2Proof.Machine.execVaddF32 c f s
  | .vsubF32 c f => Sys2Proof.Machine.execVsubF32 c f s
  | .vmulF32 c f => Sys2Proof.Machine.execVmulF32 c f s
  | .vfmaF32 c f => Sys2Proof.Machine.execVfmaF32 c f s
  | .vminF32 c f => Sys2Proof.Machine.execVminF32 c f s
  | .vmaxF32 c f => Sys2Proof.Machine.execVmaxF32 c f s
  | .vabsF32 c f => Sys2Proof.Machine.execVabsF32 c f s
  | .vnegF32 c f => Sys2Proof.Machine.execVnegF32 c f s
  | .vaddI32 c f => Sys2Proof.Machine.execVaddI32 c f s
  | .vsubI32 c f => Sys2Proof.Machine.execVsubI32 c f s
  | .vmulI32 c f => Sys2Proof.Machine.execVmulI32 c f s
  | .vandB32 c f => Sys2Proof.Machine.execVandB32 c f s
  | .vorB32 c f => Sys2Proof.Machine.execVorB32 c f s
  | .vxorB32 c f => Sys2Proof.Machine.execVxorB32 c f s
  | .vshlB32 c f => Sys2Proof.Machine.execVshlB32 c f s
  | .vshrU32 c f => Sys2Proof.Machine.execVshrU32 c f s
  | .vsarS32 c f => Sys2Proof.Machine.execVsarS32 c f s
  | .vminS32 c f => Sys2Proof.Machine.execVminS32 c f s
  | .vmaxS32 c f => Sys2Proof.Machine.execVmaxS32 c f s
  | .vminU32 c f => Sys2Proof.Machine.execVminU32 c f s
  | .vmaxU32 c f => Sys2Proof.Machine.execVmaxU32 c f s
  | .vrcpF32 c f => Sys2Proof.Machine.execVrcpF32 c f s
  | .vsqrtF32 c f => Sys2Proof.Machine.execVsqrtF32 c f s
  | .vrsqrtF32 c f => Sys2Proof.Machine.execVrsqrtF32 c f s
  | .vexp2F32 c f => Sys2Proof.Machine.execVexp2F32 c f s
  | .vlog2F32 c f => Sys2Proof.Machine.execVlog2F32 c f s
  | .vceqF32 c f => Sys2Proof.Machine.execVceqF32 c f s
  | .vcltF32 c f => Sys2Proof.Machine.execVcltF32 c f s
  | .vcleF32 c f => Sys2Proof.Machine.execVcleF32 c f s
  | .vcunF32 c f => Sys2Proof.Machine.execVcunF32 c f s
  | .vceqI32 c f => Sys2Proof.Machine.execVceqI32 c f s
  | .vcltS32 c f => Sys2Proof.Machine.execVcltS32 c f s
  | .vcltU32 c f => Sys2Proof.Machine.execVcltU32 c f s
  | .vcleS32 c f => Sys2Proof.Machine.execVcleS32 c f s
  | .vrsumF32 c f => Sys2Proof.Machine.execVrsumF32 c f s
  | .vrmaxF32 c f => Sys2Proof.Machine.execVrmaxF32 c f s
  | .vrminF32 c f => Sys2Proof.Machine.execVrminF32 c f s
  | .vrsumI32 c f => Sys2Proof.Machine.execVrsumI32 c f s
  | .vmxscE2m1 c f => Sys2Proof.Machine.execVmxscE2m1 c f s
  | .vmxscE2m3 c f => Sys2Proof.Machine.execVmxscE2m3 c f s
  | .vmxscE3m2 c f => Sys2Proof.Machine.execVmxscE3m2 c f s
  | .vmxscE4m3 c f => Sys2Proof.Machine.execVmxscE4m3 c f s
  | .vmxscE5m2 c f => Sys2Proof.Machine.execVmxscE5m2 c f s
  | .vmxscI8 c f => Sys2Proof.Machine.execVmxscI8 c f s
  | .vldL c f => Sys2Proof.Machine.execVldL c f s
  | .vstL c f => Sys2Proof.Machine.execVstL c f s
  | .vgatherU8 c f => Sys2Proof.Machine.execVgatherU8 c f s
  | .vgatherU16 c f => Sys2Proof.Machine.execVgatherU16 c f s
  | .vgatherB32 c f => Sys2Proof.Machine.execVgatherB32 c f s
  | .vscatterB8 c f => Sys2Proof.Machine.execVscatterB8 c f s
  | .vscatterB16 c f => Sys2Proof.Machine.execVscatterB16 c f s
  | .vscatterB32 c f => Sys2Proof.Machine.execVscatterB32 c f s
  | .vcvtI32F32 c f => Sys2Proof.Machine.execVcvtI32F32 c f s
  | .vcvtF32I32 c f => Sys2Proof.Machine.execVcvtF32I32 c f s
  | .vpkBf16 c f => Sys2Proof.Machine.execVpkBf16 c f s
  | .vpkF16 c f => Sys2Proof.Machine.execVpkF16 c f s
  | .vpkE4m3 c f => Sys2Proof.Machine.execVpkE4m3 c f s
  | .vpkE5m2 c f => Sys2Proof.Machine.execVpkE5m2 c f s
  | .vpkE2m3 c f => Sys2Proof.Machine.execVpkE2m3 c f s
  | .vpkE3m2 c f => Sys2Proof.Machine.execVpkE3m2 c f s
  | .vpkE2m1 c f => Sys2Proof.Machine.execVpkE2m1 c f s
  | .vpkI8 c f => Sys2Proof.Machine.execVpkI8 c f s
  | .vpkI4 c f => Sys2Proof.Machine.execVpkI4 c f s
  | .vunpkBf16 c f => Sys2Proof.Machine.execVunpkBf16 c f s
  | .vunpkF16 c f => Sys2Proof.Machine.execVunpkF16 c f s
  | .vunpkE4m3 c f => Sys2Proof.Machine.execVunpkE4m3 c f s
  | .vunpkE5m2 c f => Sys2Proof.Machine.execVunpkE5m2 c f s
  | .vunpkE2m3 c f => Sys2Proof.Machine.execVunpkE2m3 c f s
  | .vunpkE3m2 c f => Sys2Proof.Machine.execVunpkE3m2 c f s
  | .vunpkE2m1 c f => Sys2Proof.Machine.execVunpkE2m1 c f s
  | .vunpkI8 c f => Sys2Proof.Machine.execVunpkI8 c f s
  | .vunpkI4 c f => Sys2Proof.Machine.execVunpkI4 c f s
  | .vscaleE8m0 c f => Sys2Proof.Machine.execVscaleE8m0 c f s
  | .vmovB32 c f => Sys2Proof.Machine.execVmovB32 c f s
  | .vbcastB32 c f => Sys2Proof.Machine.execVbcastB32 c f s
  | .viotaI32 c f => Sys2Proof.Machine.execViotaI32 c f s
  | .vpermB32 c f => Sys2Proof.Machine.execVpermB32 c f s
  | .vinsB32 c f => Sys2Proof.Machine.execVinsB32 c f s
  | .vextB32 c f => Sys2Proof.Machine.execVextB32 c f s
  | .mlw c f => Sys2Proof.Machine.execMlw c f s
  | .mma c f wecc => Sys2Proof.Machine.execMma c f wecc s
  | .mcvt c f => Sys2Proof.Machine.execMcvt c f s
  | .mstxX128 c f => Sys2Proof.Machine.execMstxX128 c f s
  | .maddxX128 c f => Sys2Proof.Machine.execMaddxX128 c f s
  | .mclrX128 c f => Sys2Proof.Machine.execMclrX128 c f s
  | .resultLanding c => Sys2Proof.Machine.execResultLanding c s
  | .scalarMemoryAccess c ecc => Sys2Proof.Machine.execScalarMemoryAccess c ecc s
  | .vectorPortAccess c ecc => Sys2Proof.Machine.execVectorPortAccess c ecc s
  | .loopIterationEnd c => Sys2Proof.Machine.execLoopIterationEnd c s
  | .weightLineWrite c => Sys2Proof.Machine.execWeightLineWrite c s
  | .weightTagSet c => Sys2Proof.Machine.execWeightTagSet c s
  | .mmaRowLanding c ecc => Sys2Proof.Machine.execMmaRowLanding c ecc s
  | .accRowRead c ecc => Sys2Proof.Machine.execAccRowRead c ecc s
  | .maddxGroupLanding c ecc => Sys2Proof.Machine.execMaddxGroupLanding c ecc s
  | .mclrZeroing c => Sys2Proof.Machine.execMclrZeroing c s
  | .sequencerEntry lags => Sys2Proof.Machine.execSequencerEntry lags s
  | .crossbarRow b tecc => Sys2Proof.Machine.execCrossbarRow b tecc s
  | .crossbarBeatDelivery b pecc => Sys2Proof.Machine.execCrossbarBeatDelivery b pecc s
  | .routerRow b tecc pecc => Sys2Proof.Machine.execRouterRow b tecc pecc s
  | .barrowGo b w recc tecc pecc => Sys2Proof.Machine.execBarrowGo b w recc tecc pecc s
  | .barrowLine b w ecc => Sys2Proof.Machine.execBarrowLine b w ecc s
  | .instructionLoadComplete p => Sys2Proof.Machine.execInstructionLoadComplete p s
  | .frameBoundary => Sys2Proof.Machine.execFrameBoundary s
  | .stepBoundary p => Sys2Proof.Machine.execStepBoundary p s
  | .bodyBoundary p => Sys2Proof.Machine.execBodyBoundary p s
  | .epochBoundary p => Sys2Proof.Machine.execEpochBoundary p s
  | .windowEngineSchedule p => Sys2Proof.Machine.execWindowEngineSchedule p s
  | .jobZero => Sys2Proof.Machine.execJobZero s
  | .stackRead k errs pecc => Sys2Proof.Machine.execStackRead k errs pecc s
  | .stackDataReturn k => Sys2Proof.Machine.execStackDataReturn k s
  | .stackWriteOpen k pecc => Sys2Proof.Machine.execStackWriteOpen k pecc s
  | .stackWriteBeat k pecc => Sys2Proof.Machine.execStackWriteBeat k pecc s
  | .stackRefresh k ch => Sys2Proof.Machine.execStackRefresh k ch s
  | .stackScrub k ch errs => Sys2Proof.Machine.execStackScrub k ch errs s
  | .retrainSweepDue => Sys2Proof.Machine.execRetrainSweepDue s
  | .stackRetrainStep k ch failed whole => Sys2Proof.Machine.execStackRetrainStep k ch failed whole s
  | .rowRepair k ch => Sys2Proof.Machine.execRowRepair k ch s
  | .dieEvacuation k => Sys2Proof.Machine.execDieEvacuation k s
  | .spareDieAssign k => Sys2Proof.Machine.execSpareDieAssign k s
  | .mergeFetch k errs pecc => Sys2Proof.Machine.execMergeFetch k errs pecc s
  | .mergedRead k errs mecc tecc pecc => Sys2Proof.Machine.execMergedRead k errs mecc tecc pecc s
  | .leaseZeroise p tier idx => Sys2Proof.Machine.execLeaseZeroise p tier idx s
  | .zeroDone p tier idx => Sys2Proof.Machine.execZeroDone p tier idx s
  | .coldRequest errs pecc => Sys2Proof.Machine.execColdRequest errs pecc s
  | .coldDataReturn => Sys2Proof.Machine.execColdDataReturn s
  | .coldRefresh ch errs retrain => Sys2Proof.Machine.execColdRefresh ch errs retrain s
  | .coldChannelCopy => Sys2Proof.Machine.execColdChannelCopy s
  | .coldSpared => Sys2Proof.Machine.execColdSpared s
  | .completionFlagSet p seq => Sys2Proof.Machine.execCompletionFlagSet p seq s
  | .completionFlagVisible p seq => Sys2Proof.Machine.execCompletionFlagVisible p seq s
  | .stepResultPost p => Sys2Proof.Machine.execStepResultPost p s
  | .parkCopy p entry => Sys2Proof.Machine.execParkCopy p entry s
  | .parked p entry => Sys2Proof.Machine.execParked p entry s
  | .parkExpiryCheck => Sys2Proof.Machine.execParkExpiryCheck s
  | .expired p entry => Sys2Proof.Machine.execExpired p entry s
  | .resumeCopyDone p entry => Sys2Proof.Machine.execResumeCopyDone p entry s
  | .slotTransmit k tecc pecc => Sys2Proof.Machine.execSlotTransmit k tecc pecc s
  | .controlFlitTx ix => Sys2Proof.Machine.execControlFlitTx ix s
  | .flitReceive ix segs flight8 => Sys2Proof.Machine.execFlitReceive ix segs flight8 s
  | .controlFlitRx k => Sys2Proof.Machine.execControlFlitRx k s
  | .flitDeliver k tecc => Sys2Proof.Machine.execFlitDeliver k tecc s
  | .forwardLaunch ix => Sys2Proof.Machine.execForwardLaunch ix s
  | .spareDualSend ix => Sys2Proof.Machine.execSpareDualSend ix s
  | .laneSpared ix => Sys2Proof.Machine.execLaneSpared ix s
  | .spareOkRestore ix => Sys2Proof.Machine.execSpareOkRestore ix s
  | .portTraining ix r => Sys2Proof.Machine.execPortTraining ix r s
  | .fastRetrain ix r => Sys2Proof.Machine.execFastRetrain ix r s
  | .linkDown k lost whole => Sys2Proof.Machine.execLinkDown k lost whole s
  | .dynRequestRx => Sys2Proof.Machine.execDynRequestRx s
  | .dynResponseRx => Sys2Proof.Machine.execDynResponseRx s
  | .dynForward ix => Sys2Proof.Machine.execDynForward ix s
  | .dynTimeout ch tag => Sys2Proof.Machine.execDynTimeout ch tag s
  | .quarantineResend ch tag => Sys2Proof.Machine.execQuarantineResend ch tag s
  | .shadowFlitRx => Sys2Proof.Machine.execShadowFlitRx s
  | .twinMapTransfer q m => Sys2Proof.Machine.execTwinMapTransfer q m s
  | .twinParkCopy q entry => Sys2Proof.Machine.execTwinParkCopy q entry s
  | .twinRelease q entry => Sys2Proof.Machine.execTwinRelease q entry s
  | .twinShadowServe q rq => Sys2Proof.Machine.execTwinShadowServe q rq s
  | .pairKeyExchange chainOk => Sys2Proof.Machine.execPairKeyExchange chainOk s
  | .twinHeartbeatLost => Sys2Proof.Machine.execTwinHeartbeatLost s
  | .frameMark refCycles word err8 => Sys2Proof.Machine.execFrameMark refCycles word err8 s
  | .hallLost => Sys2Proof.Machine.execHallLost s
  | .timeRefLost => Sys2Proof.Machine.execTimeRefLost s
  | .refChangeover => Sys2Proof.Machine.execRefChangeover s
  | .gustSwitch => Sys2Proof.Machine.execGustSwitch s
  | .rotReadyLatch p => Sys2Proof.Machine.execRotReadyLatch p s
  | .managerRound => Sys2Proof.Machine.execManagerRound s
  | .health m => Sys2Proof.Machine.execHealth m s
  | .seeded m => Sys2Proof.Machine.execSeeded m s
  | .notSeeded m => Sys2Proof.Machine.execNotSeeded m s
  | .vote m => Sys2Proof.Machine.execVote m s
  | .startAt m => Sys2Proof.Machine.execStartAt m s
  | .prune m => Sys2Proof.Machine.execPrune m s
  | .graft m => Sys2Proof.Machine.execGraft m s
  | .resumeAt m => Sys2Proof.Machine.execResumeAt m s
  | .teardown m => Sys2Proof.Machine.execTeardown m s
  | .reseed m => Sys2Proof.Machine.execReseed m s
  | .managerReplace m => Sys2Proof.Machine.execManagerReplace m s
  | .seedTransfer p sp => Sys2Proof.Machine.execSeedTransfer p sp s
  | .seedAck p child digest => Sys2Proof.Machine.execSeedAck p child digest s
  | .seedTimeout p => Sys2Proof.Machine.execSeedTimeout p s
  | .windbreakEstimate => Sys2Proof.Machine.execWindbreakEstimate s
  | .overpower => Sys2Proof.Machine.execOverpower s
  | .thermalSensorRead g idx tempC => Sys2Proof.Machine.execThermalSensorRead g idx tempC s
  | .thermalStageStep => Sys2Proof.Machine.execThermalStageStep s
  | .coolantLost r => Sys2Proof.Machine.execCoolantLost r s
  | .converterFailure ix => Sys2Proof.Machine.execConverterFailure ix s
  | .phaseFailure rail => Sys2Proof.Machine.execPhaseFailure rail s
  | .railFault rail mV => Sys2Proof.Machine.execRailFault rail mV s
  | .supplyUv mV => Sys2Proof.Machine.execSupplyUv mV s
  | .supplyOv mV => Sys2Proof.Machine.execSupplyOv mV s
  | .inputLockout mV => Sys2Proof.Machine.execInputLockout mV s
  | .inputTurnOn mV => Sys2Proof.Machine.execInputTurnOn mV s
  | .clipDetOpen => Sys2Proof.Machine.execClipDetOpen s
  | .trayRstN => Sys2Proof.Machine.execTrayRstN s
  | .moduleReset b => Sys2Proof.Machine.execModuleReset b s
  | .ready startDs => Sys2Proof.Machine.execReady startDs s
  | .domainSwitch d on => Sys2Proof.Machine.execDomainSwitch d on s
  | .sessionTimeout sid => Sys2Proof.Machine.execSessionTimeout sid s
  | .proveWindowExpiry sid => Sys2Proof.Machine.execProveWindowExpiry sid s
  | .passLockExpiry => Sys2Proof.Machine.execPassLockExpiry s
  | .managementRestartDone => Sys2Proof.Machine.execManagementRestartDone s
  | .fwActivateTimeout t => Sys2Proof.Machine.execFwActivateTimeout t s
  | .selfCalibrateDone r => Sys2Proof.Machine.execSelfCalibrateDone r s
  | .hostLinkReset link fns => Sys2Proof.Machine.execHostLinkReset link fns s
  | .ideKeyChange link stream => Sys2Proof.Machine.execIdeKeyChange link stream s
  | .doorbellWrite fn k q v => Sys2Proof.Machine.execDoorbellWrite fn k q v s
  | .ringEnable fn k q => Sys2Proof.Machine.execRingEnable fn k q s
  | .ringDisable fn k q => Sys2Proof.Machine.execRingDisable fn k q s
  | .submissionFetch h opcode => Sys2Proof.Machine.execSubmissionFetch h opcode s
  | .mgmtDatagram h opcode => Sys2Proof.Machine.execMgmtDatagram h opcode s
  | .counterSelect v => Sys2Proof.Machine.execCounterSelect v s
  | .counterSample => Sys2Proof.Machine.execCounterSample s
  | .portWmRestart ix => Sys2Proof.Machine.execPortWmRestart ix s
  | .islandLagRestart ix => Sys2Proof.Machine.execIslandLagRestart ix s
  | .pwrPeakRestart => Sys2Proof.Machine.execPwrPeakRestart s
  | .registerWrite fn off v => Sys2Proof.Machine.execRegisterWrite fn off v s
  | .hubDomWrite v => Sys2Proof.Machine.execHubDomWrite v s
  | .seqResetWrite v => Sys2Proof.Machine.execSeqResetWrite v s
  | .sessionOpen h role kh => Sys2Proof.Machine.execSessionOpen h role kh s
  | .sessionProve h sid pf => Sys2Proof.Machine.execSessionProve h sid pf s
  | .passOpen h => Sys2Proof.Machine.execPassOpen h s
  | .passProve h sid pf => Sys2Proof.Machine.execPassProve h sid pf s
  | .sessionClose h => Sys2Proof.Machine.execSessionClose h s
  | .identityRead h => Sys2Proof.Machine.execIdentityRead h s
  | .attest h nonce => Sys2Proof.Machine.execAttest h nonce s
  | .auditRead h sel first count => Sys2Proof.Machine.execAuditRead h sel first count s
  | .roleKeySet h table entry kh parts => Sys2Proof.Machine.execRoleKeySet h table entry kh parts s
  | .passphraseSet h pass => Sys2Proof.Machine.execPassphraseSet h pass s
  | .tenantBind h entry kh => Sys2Proof.Machine.execTenantBind h entry kh s
  | .tenantUnbind h entry kh => Sys2Proof.Machine.execTenantUnbind h entry kh s
  | .keyRotate h => Sys2Proof.Machine.execKeyRotate h s
  | .twinPair h serial => Sys2Proof.Machine.execTwinPair h serial s
  | .provision h certs kh => Sys2Proof.Machine.execProvision h certs kh s
  | .debugUnlock h tokenOk => Sys2Proof.Machine.execDebugUnlock h tokenOk s
  | .partCreate h d => Sys2Proof.Machine.execPartCreate h d s
  | .partResize h d => Sys2Proof.Machine.execPartResize h d s
  | .partDestroy h => Sys2Proof.Machine.execPartDestroy h s
  | .partStatus h => Sys2Proof.Machine.execPartStatus h s
  | .zeroiseAll h => Sys2Proof.Machine.execZeroiseAll h s
  | .planLoad h src len x img => Sys2Proof.Machine.execPlanLoad h src len x img s
  | .planSectionLoad h src len img => Sys2Proof.Machine.execPlanSectionLoad h src len img s
  | .planCheck h src len x img => Sys2Proof.Machine.execPlanCheck h src len x img s
  | .planUnload h => Sys2Proof.Machine.execPlanUnload h s
  | .planStart h mark => Sys2Proof.Machine.execPlanStart h mark s
  | .planStop h => Sys2Proof.Machine.execPlanStop h s
  | .planBankSwitch h => Sys2Proof.Machine.execPlanBankSwitch h s
  | .planResume h mark => Sys2Proof.Machine.execPlanResume h mark s
  | .bundleLoad h src set scion slot bn => Sys2Proof.Machine.execBundleLoad h src set scion slot bn s
  | .bundleLoadDone p => Sys2Proof.Machine.execBundleLoadDone p s
  | .bundleStatus h set scion => Sys2Proof.Machine.execBundleStatus h set scion s
  | .bundleFree h set scion => Sys2Proof.Machine.execBundleFree h set scion s
  | .rotate h step => Sys2Proof.Machine.execRotate h step s
  | .coldStage h host paddr lines data => Sys2Proof.Machine.execColdStage h host paddr lines data s
  | .slotInput h slot host count tokens => Sys2Proof.Machine.execSlotInput h slot host count tokens s
  | .slotAccept h slot count => Sys2Proof.Machine.execSlotAccept h slot count s
  | .slotDeadline h slot hallNs => Sys2Proof.Machine.execSlotDeadline h slot hallNs s
  | .slotEdit h slot host e => Sys2Proof.Machine.execSlotEdit h slot host e s
  | .slotResume h entry pages => Sys2Proof.Machine.execSlotResume h entry pages s
  | .parkStatus h entry => Sys2Proof.Machine.execParkStatus h entry s
  | .parkDrop h entry => Sys2Proof.Machine.execParkDrop h entry s
  | .slotRead h slot => Sys2Proof.Machine.execSlotRead h slot s
  | .jobJoin h j wrap => Sys2Proof.Machine.execJobJoin h j wrap s
  | .jobStatus h => Sys2Proof.Machine.execJobStatus h s
  | .jobLeave h => Sys2Proof.Machine.execJobLeave h s
  | .managerSet h on floor budget score spares => Sys2Proof.Machine.execManagerSet h on floor budget score spares s
  | .seedSource h img bundles => Sys2Proof.Machine.execSeedSource h img bundles s
  | .spareOffer h job mgrs => Sys2Proof.Machine.execSpareOffer h job mgrs s
  | .detachPrepare h => Sys2Proof.Machine.execDetachPrepare h s
  | .detachCancel h => Sys2Proof.Machine.execDetachCancel h s
  | .jobEnd h frame => Sys2Proof.Machine.execJobEnd h frame s
  | .portOpen h ix job rank serial routes => Sys2Proof.Machine.execPortOpen h ix job rank serial routes s
  | .portFence h ix => Sys2Proof.Machine.execPortFence h ix s
  | .fabricCopy h x => Sys2Proof.Machine.execFabricCopy h x s
  | .fabricStatus h ix => Sys2Proof.Machine.execFabricStatus h ix s
  | .powerStatus h => Sys2Proof.Machine.execPowerStatus h s
  | .powerCapSet h watts => Sys2Proof.Machine.execPowerCapSet h watts s
  | .powerFloorSet h gust => Sys2Proof.Machine.execPowerFloorSet h gust s
  | .windbreakMode h on => Sys2Proof.Machine.execWindbreakMode h on s
  | .energyRead h => Sys2Proof.Machine.execEnergyRead h s
  | .counterSet h loc idx event mode => Sys2Proof.Machine.execCounterSet h loc idx event mode s
  | .counterRead h loc idxs => Sys2Proof.Machine.execCounterRead h loc idxs s
  | .errorLogRead h first count => Sys2Proof.Machine.execErrorLogRead h first count s
  | .healthRead h => Sys2Proof.Machine.execHealthRead h s
  | .cellRetire h b cell => Sys2Proof.Machine.execCellRetire h b cell s
  | .diagRun h kind unit r => Sys2Proof.Machine.execDiagRun h kind unit r s
  | .rmaDiag h kind unit test r unretire => Sys2Proof.Machine.execRmaDiag h kind unit test r unretire s
  | .fwInstall h t img => Sys2Proof.Machine.execFwInstall h t img s
  | .fwActivate h t runs => Sys2Proof.Machine.execFwActivate h t runs s
  | .fwStatus h t => Sys2Proof.Machine.execFwStatus h t s
  | .fwMinAdvance h t => Sys2Proof.Machine.execFwMinAdvance h t s
  | .calRead h host => Sys2Proof.Machine.execCalRead h host s
  | .calWrite h host set flashOk => Sys2Proof.Machine.execCalWrite h host set flashOk s
  | .selfCalibrate h region idx => Sys2Proof.Machine.execSelfCalibrate h region idx s
  | .portConfig h ix on role => Sys2Proof.Machine.execPortConfig h ix on role s
  | .hostLinkConfig h bifurcated => Sys2Proof.Machine.execHostLinkConfig h bifurcated s
  | .fuseWrite h group value => Sys2Proof.Machine.execFuseWrite h group value s
  | .missingPulse => Sys2Proof.Machine.execMissingPulse s
  | .spareLaneSegment ix sg => Sys2Proof.Machine.execSpareLaneSegment ix sg s
  | .trayRstNHigh => Sys2Proof.Machine.execTrayRstNHigh s
  | .perstNRelease n => Sys2Proof.Machine.execPerstNRelease n s
  | .setdasa addr => Sys2Proof.Machine.execSetdasa addr s
  | .hubDomBootDone b => Sys2Proof.Machine.execHubDomBootDone b s
  | .fwInstallDone t ok => Sys2Proof.Machine.execFwInstallDone t ok s
  | .coldStageDone p => Sys2Proof.Machine.execColdStageDone p s

end Sys2Proof.Machine
end

