-- ==== Sys2Proof/Machine/Pins.lean ====
section
/-! DEFINITION. Where the signals of the host and fabric connectors lie (R528, R530). -/

namespace Sys2Proof.Machine

/-- Position of a PCI Express lane's P or N signal: row A transmits, row B receives (R528). -/
def pciePin (k : Nat) (rx neg : Bool) : Bool × Nat := (rx, 4 * k + if neg then 2 else 1)

/-- The pair of a fabric lane within its wafer: pairs 0 to 9 transmit. -/
def fabPair (lane : Nat) (rx : Bool) : Nat := if rx then lane + 10 else lane

/-- Connector (3 or 4), wafer and position of a fabric lane's P or N signal of a port (R530). -/
def fabPin (port lane : Nat) (rx neg : Bool) : Nat × Nat × Nat :=
  (if port < 6 then 3 else 4, port % 6, 3 * fabPair lane rx + if neg then 2 else 1)

end Sys2Proof.Machine
end

