-- ==== Sys2Proof/Machine/Registers.lean ====
section
/-! DEFINITION. The status registers as a read returns them: each register's fields from the state, by offset in BAR0 (R13, R450, R451
and the register tables of every chapter). Reads are no commands of the table; statements about registers use `State.readReg`. -/

namespace Sys2Proof.Machine

/-- A register value from its fields (low bit, width, value). -/
def fields (l : List (Nat × Nat × Nat)) : Nat := l.foldl (fun a f => a + f.2.2 % 2 ^ f.2.1 * 2 ^ f.1) 0

/-- A temperature field. -/
def tempField (t : Int) : Nat := t.toNat % 256

/-! ### Identity and status area -/

/-- hub.id.grade (Table 0.4). -/
def State.gradeReg (s : State) : Nat :=
  let g := s.fuses.grade
  fields [(0, 4, g), (4, 4, if g = 3 then 0 else 12), (8, 8, ((List.range 64).filter s.enginePresent).length), (16, 8, if g = 3 then 48 else 64),
    (24, 12, if g = 3 then 512 else 1024), (36, 12, s.fuses.capMax)]

/-- hub.id.block_map (Table 0.5). -/
def State.blockMapReg (s : State) : Nat := (~~~s.fuses.fused).toNat

/-- hub.health (Table 19.12). -/
def State.healthReg (s : State) : Nat :=
  let x := s.health
  fields [(0, 16, x.round), (18, 8, x.wmPen), (26, 9, x.thermPen), (35, 10, x.sparePen), (45, 9, x.cePen), (54, 10, x.score)]

def phaseNo : Phase → Nat
  | .power => 0
  | .boot => 1
  | .identity => 2
  | .memory => 3
  | .calibration => 4
  | .search => 5
  | .ready => 6
  | .bootFail => 7

/-- hub.boot.status (Table 20.8). -/
def State.bootReg (s : State) : Nat :=
  let b := s.boot
  let (region, idx) := b.selfcal.getD (false, 0)
  fields [(8, 4, b.idFail.toNat), (16, 16, b.resets.toNat), (32, 16, b.startDs), (48, 4, idx), (52, 4, b2n region), (56, 1, b2n b.selfcal.isSome),
    (57, 1, b2n (s.calOk && decide (2 ≤ phaseNo b.phase ∧ phaseNo b.phase ≤ 6))), (58, 2, b.calSource), (60, 4, phaseNo b.phase)]

/-- hub.io.status (Table 21.9). -/
def State.ioReg (s : State) : Nat :=
  fields [(24, 7, s.io.dynAddr.toNat), (31, 4, s.seqr.hubDom.toNat), (35, 5, s.io.opt.toNat), (40, 8, s.io.twinSlot), (48, 8, s.io.slot),
    (62, 1, b2n s.tu.refLocal), (63, 1, b2n s.io.clip)]

/-- hub.io.mac (Table 21.10). -/
def State.macReg (s : State) : Nat := s.io.mac.toNat

/-- hub.blk.cells[b] (Table 7.5). -/
def State.blockReg (s : State) (b : Nat) : Nat :=
  let x := s.block b
  let used := x.map.zipIdx.foldl (fun a e => if x.usedPos.getLsbD e.2 then a + 2 ^ e.1 else a) 0
  fields [(0, 18, used), (18, 18, (look 0#18 s.retired b).toNat), (37, 4, x.owner.getD 0), (41, 1, b2n x.owner.isSome),
    (42, 2, if !s.enginePresent b then 2 else if s.degraded b then 1 else 0)]

def memStateNo : MemState → Nat
  | .ok => 0
  | .degraded => 1
  | .failed => 2

/-- hub.stk.status[k] (Table 8.6): 16 row spares in each bank of 16 data dies (Table 8.1: 8 banks a quarter), 32 column spares on each. -/
def State.stackReg (s : State) (k : Nat) : Nat :=
  let y := s.stack k
  let rows := y.chans.foldl (fun a e => a + e.2.rowsUsed.foldl (fun n r => n + r.2) 0) 0
  let cols := y.chans.foldl (fun a e => a + e.2.colsUsed) 0
  fields [(0, 16, y.ce.toNat), (16, 8, y.pinFail), (24, 8, min 255 (512 - cols)), (32, 12, min 4095 (2048 * s.quarters - rows)), (46, 2, memStateNo y.state),
    (48, 5, y.spareFor.getD 0x1F), (53, 1, b2n y.evac.isSome), (54, 1, b2n (y.chans.any (fun e => e.2.sweep.isSome))), (55, 1, b2n y.hot),
    (56, 8, tempField y.tempC)]

/-- hub.cf.status (Table 10.3). -/
def State.coldReg (s : State) : Nat :=
  let y := s.cold
  fields [(0, 16, y.ce.toNat), (46, 2, memStateNo y.state), (48, 5, y.spareFor.getD 0x1F), (53, 1, b2n y.copy.isSome),
    (54, 1, b2n (y.chans.any (fun e => e.2.sweep))), (55, 1, b2n y.hot), (56, 8, tempField y.tempC)]

/-! ### Rings (Tables 17.3 to 17.6) -/

def State.ringReg (s : State) (fn k q reg : Nat) : Nat :=
  let r := s.ring fn k q
  match reg with
  | 0 => r.base
  | 1 => fields [(0, 8, r.size), (40, 8, r.entry), (48, 3, r.vector), (62, 1, b2n r.err), (63, 1, b2n r.enable)]
  | 2 => fields [(0, 16, r.db)]
  | 3 => fields [(0, 16, r.ptr), (16, 16, r.flight), (32, 16, r.lost), (63, 1, b2n r.phase)]
  | _ => 0

/-! ### Power (Tables 18.9 to 18.13) -/

/-- The hottest sensor of a group. -/
def State.hottest (s : State) (g : SensorGroup) : Int := s.pwr.sensors.foldl (fun m e => if e.1 / 64 = groupNo g then max m e.2 else m) 0

def State.powerReg (s : State) (i : Nat) : Nat :=
  let w := s.pwr
  match i with
  | 0 => fields [(0, 12, w.capW)]
  | 1 => fields [(1, 7, w.flow), (8, 8, w.outletC), (16, 8, w.inletC), (24, 8, w.busV), (38, 1, b2n w.overW), (39, 1, b2n w.gustAct), (40, 12, w.peakW),
      (52, 12, w.estW)]
  | 2 => w.dom.toNat % 2 ^ 64
  | 3 => w.dom.toNat / 2 ^ 64
  | 4 => fields ((59, 5, w.convOk.toNat) :: (List.range 18).map (fun j => (3 * j, 3, look 0 w.phLost j)))
  | 5 => fields [(19, 2, s.stage), (21, 3, s.thermalReq), (24, 8, tempField (max (s.hottest .converter) (s.hottest .regulator))),
      (32, 8, tempField (s.hottest .cold)), (40, 8, tempField (s.hottest .stack)), (48, 8, tempField (s.hottest .hub)),
      (56, 8, tempField (s.hottest .region))]
  | _ => 0

/-! ### Time (Tables 13.6 to 13.10) -/

def hallNo : HallSt → Nat
  | .unlocked => 0
  | .locked => 1
  | .hold => 2

/-- The decision held for the nearest mark to come. -/
def TimeU.nextDec (t : TimeU) : Option Nat := t.votes.findSome? (fun v => if t.mark < v.mark && !v.lost then v.dec else none)

def State.timeReg (s : State) (i : Nat) : Nat :=
  let t := s.tu
  match i with
  | 0 => fields [(0, 16, t.wordErr.toNat), (16, 16, t.holdMarks.toNat), (32, 16, (BitVec.ofInt 16 t.alignErr).toNat), (58, 1, b2n t.synthB),
      (59, 1, b2n t.lagWarn), (60, 1, b2n t.alignWarn), (61, 1, b2n t.refOk), (62, 2, hallNo t.hall)]
  | 1 => s.hallNs % 2 ^ 64
  | 2 => s.tf % 2 ^ 64
  | 3 =>
    let (h, e) := s.voteTree
    let grp := (s.activeParts.findSome? (fun p => (s.part p).image.map (fun i => i.hdr.gustGroup))).getD 0
    fields [(0, 3, t.gust), (10, 1, b2n t.nextDec.isSome), (11, 3, t.nextDec.getD 0), (14, 3, s.gustReq), (17, 3, s.windReq), (20, 3, s.floorReq),
      (23, 3, s.rampReq), (26, 3, e.depth), (29, 3, h), (32, 16, grp), (48, 12, e.voteChildren.toNat), (60, 4, e.voteParent)]
  | _ => 0

/-- hub.time.island[i] (Table 13.10). -/
def State.islandReg (s : State) (i : Nat) : Nat :=
  let y := s.island i
  fields [(16, 16, y.warns.toNat), (32, 8, y.offset), (46, 1, b2n y.failed), (47, 1, b2n y.warn), (48, 8, y.lag), (56, 8, y.lagMax)]

/-! ### Counters and logs (Tables 19.5, 19.6, 19.9) -/

def State.selReg (s : State) : Nat := fields [(0, 8, s.cnt.idx), (16, 16, s.cnt.loc), (63, 1, b2n s.cnt.selErr)]

def State.dataReg (s : State) : Nat :=
  fields [(0, 48, s.cnt.value.toNat), (48, 12, s.cnt.event), (60, 2, s.cnt.mode), (62, 1, b2n s.cnt.valid), (63, 1, b2n s.cnt.sticky)]

def State.errReg (s : State) : Nat := fields [(0, 16, s.jFaults.toNat), (16, 16, s.pFaults.toNat), (32, 32, s.errNext - 1)]

/-! ### Ports, fabric, twin (Tables 11.7 to 11.9, 12.5 to 12.7) -/

def portStNo : PortSt → Nat
  | .off => 0
  | .down => 1
  | .training => 2
  | .calibrating => 3
  | .up => 4
  | .fenced => 5
  | .failed => 6

def State.portReg (s : State) (i reg : Nat) : Nat :=
  let y := s.port i
  let layer (f : Nat → Bool) : Nat := (mask16 f).toNat
  match reg with
  | 0 => fields [(0, 16, y.badSeg.toNat), (16, 16, y.rebuilt.toNat), (33, 4, y.lastFatal), (37, 9, y.badRx.toNat), (46, 1, b2n y.degraded),
      (47, 1, b2n y.spareOk), (48, 4, y.spareTx), (52, 4, y.spareRx), (56, 4, y.roleSet.getD i), (60, 4, portStNo y.st)]
  | 1 => fields [(0, 15, y.flightMax), (24, 12, y.latRx), (36, 12, y.latTx), (52, 8, y.stormCorr), (60, 1, b2n y.fast)]
  | 2 => fields [(32, 8, y.guardMax), (40, 8, y.holdMin), (48, 8, y.holdMax), (56, 1, b2n y.warnGuard), (57, 1, b2n y.warnHold)]
  | 3 => fields [(0, 8, y.stray.toNat), (8, 8, y.fwdDrop.toNat), (16, 16, layer (fun p => s.layerOn i p && (s.part p).graftSel.getLsbD i)),
      (32, 16, layer (fun p => (s.part p).active? && (s.part p).onPort i)), (48, 16, layer (fun p => s.layerOn i p))]
  | _ => 0

/-- hub.fab.dyn (Table 12.6). -/
def State.fabReg (s : State) : Nat :=
  let n (f : Xfer → Bool) : Nat := (s.fab.xfers.filter (fun e => e.2.any f)).length
  fields [(0, 16, n (fun x => x.quar.isSome)), (16, 16, s.fab.lateDrop.toNat), (32, 16, s.fab.retries.toNat), (48, 16, n (fun x => x.done.isNone))]

/-- hub.twin.shadow[p] (Table 12.7). -/
def State.twinReg (s : State) (p : Nat) : Nat :=
  let x := s.shadow p
  fields [(0, 14, x.parks.length), (14, 1, b2n x.incompl), (15, 1, b2n x.prov.isSome), (16, 48, (x.promoted.map (·.1)).getD 0)]

/-! ### Security (Table 16.10) -/

def State.secReg (s : State) : Nat :=
  let boot := match s.boot.phase with
    | .bootFail => 2
    | .ready => 1
    | .memory => 1
    | .calibration => 1
    | .search => 1
    | _ => 0
  fields [(0, 32, s.auditIdx - 1), (32, 12, s.openFail.toNat), (44, 8, s.fuses.debugCnt), (52, 6, s.sessions.length), (58, 1, b2n s.keys.passLock),
    (59, 1, b2n s.keys.debugOn), (60, 1, b2n s.mgFw.bankB), (61, 1, b2n s.spFw.bankB), (62, 2, boot)]

/-! ### Partition windows -/

/-- STACK_KEYS: the key slots of partition `p` in the base dies of the stacks it leases are filled (Table 16.9, R217). -/
def State.stackKeyed (s : State) (p : Nat) : Bool :=
  (s.part p).stackKey ≠ 0 && (List.range 12).all (fun k => !s.onStackK p k || decide (look 0 (s.stack k).keys p ≠ 0))

/-- COLD_KEYS: the cold frame's key slot of partition `p` is filled (Table 16.9, R253). -/
def State.coldKeyed (s : State) (p : Nat) : Bool := decide (look 0 s.cold.keys p ≠ 0)

/-- VOTE of hub.part.rot: derived from the latched vote for the record held or discarded in this step (R245, R392). -/
def Part.rotVoteNo (p : Part) : Nat :=
  let rec' := p.pendRot.isSome || p.win.entries.any (fun e => decide (e.kind = 5))
  match p.jb.rotV, p.jb.rotAgreed with
  | none, _ => 0
  | some _, none => if rec' then 1 else 0
  | some _, some true => 2
  | some _, some false => if rec' then 3 else 0

def State.partReg (s : State) (p i : Nat) : Nat :=
  let q := s.part p
  match i with
  | 0 => fields [(0, 54, q.planFrame)]
  | 1 => fields [(0, 48, q.stepNo), (48, 4, q.stepKind), (52, 4, q.cyclePos), (60, 4, pstateNo q.st)]
  | 2 => fields [(0, 54, q.stepStart)]
  | 3 => fields [(0, 16, q.epoch.toNat), (16, 16, q.commEpoch.toNat)]
  | 4 => fields [(0, 1, b2n q.bankAct), (1, 1, b2n (q.image.isSome && s.bankValid p false)), (2, 1, b2n (q.image.isSome && s.bankValid p true)),
      (5, 1, b2n q.bankTarget), (6, 2, loadStatusNo q.bankStatus), (16, 16, q.switches.toNat)]
  | 5 => fields [(0, 1, b2n q.active), (1, 1, b2n q.setA.valid), (2, 1, b2n q.setB.valid), (3, 1, b2n q.pendRot.isSome), (4, 1, b2n q.held),
      (8, 2, loadStatusNo q.rotLoad), (10, 2, q.rotVoteNo), (16, 48, (q.pendRot.map (·.2)).getD 0)]
  | 6 => q.jobReg
  | 7 => fields [(0, 32, q.sieve.item), (32, 20, q.sieve.sec), (52, 2, q.sieve.binding), (54, 2, q.sieve.verdict), (56, 8, q.sieve.check)]
  | 8 =>
    let tenants := (q.sx.tenants.filter (fun e => decide (e.2 ≠ 0))).length
    fields [(12, 1, b2n (s.stackKeyed p)), (13, 1, b2n (s.coldKeyed p)), (14, 1, b2n (q.sx.created && q.cleanZero)), (15, 1, b2n q.sx.cleanKeys),
      (16, 1, b2n q.sx.jobKey.isSome), (17, 3, tenants), (20, 12, q.sx.zeroPend.length), (32, 16, q.sx.keyGen.toNat), (48, 16, s.keys.attestEp.toNat)]
  | 9 => fields [(3, 1, b2n q.pw.overClass), (4, 12, q.pw.linkW), (16, 12, q.pw.memoryW), (28, 12, q.pw.computeW), (40, 12, q.pw.envelope),
      (52, 12, q.pw.alloc)]
  | 10 => q.pw.energyMj % 2 ^ 64
  | _ => 0

/-! ### BAR0 (Table 17.2, R450, R451) -/

/-- A register of an array at `base`, `n` entries of 8 bytes. -/
def inArray (off base n : Nat) : Bool := decide (base ≤ off ∧ off < base + 8 * n ∧ off % 8 = 0)

def State.identArea (s : State) (off : Nat) : Nat :=
  if off = 0x08 then s.gradeReg else if off = 0x10 then s.blockMapReg else if off = 0x18 then s.healthReg else if off = 0x20 then s.bootReg
  else if off = 0x28 then s.ioReg else if off = 0x30 then s.macReg
  else if inArray off 0x1000 64 then s.blockReg ((off - 0x1000) / 8)
  else if inArray off 0x2000 12 then s.stackReg ((off - 0x2000) / 8)
  else if off = 0x2100 then s.coldReg else 0

def State.ringArea (s : State) (fn off : Nat) : Nat :=
  let k := (off - 0x100000) / 0x1000
  let o := off % 0x1000
  if s.ringExists fn k (o / 0x40) && decide (o % 8 = 0) then s.ringReg fn k (o / 0x40) (o % 0x40 / 8) else 0

def State.timeArea (s : State) (off : Nat) : Nat :=
  if inArray off 0x300000 4 then s.timeReg ((off - 0x300000) / 8)
  else if inArray off 0x301000 95 then s.islandReg ((off - 0x301000) / 8) else 0

def State.portArea (s : State) (off : Nat) : Nat :=
  if off < 0x500C00 then (if off % 0x100 < 32 ∧ off % 8 = 0 then s.portReg ((off - 0x500000) / 0x100) (off % 0x100 / 8) else 0)
  else if off = 0x501000 then s.fabReg
  else if inArray off 0x501100 16 then s.twinReg ((off - 0x501100) / 8) else 0

/-- What a read of an offset of BAR0 of a function returns. In BOOT_FAIL only PF0's identity and status area answers (R438). -/
def State.readReg (s : State) (fn off : Nat) : Word :=
  let pf0 := decide (fn = 0)
  BitVec.ofNat 64 (
    if 16 < fn ∨ (s.boot.phase = .bootFail ∧ (fn ≠ 0 ∨ 0x100000 ≤ off)) then 0
    else if off < 0x100000 then s.identArea off
    else if off < 0x102000 then s.ringArea fn off
    else if 0x10F000 ≤ off ∧ off < 0x10F080 ∧ off % 8 = 0 then (s.msixWord fn ((off - 0x10F000) / 8)).toNat
    else if off = 0x10F800 then fields ((List.range 8).map (fun v => (v, 1, b2n (s.msixWait.any (fun e => decide (e.1 / 16 = fn ∧ e.1 % 8 = v))))))
    else if 0x200000 ≤ off ∧ off < 0x300000 then (if pf0 && inArray off 0x200000 6 then s.powerReg ((off - 0x200000) / 8) else 0)
    else if 0x300000 ≤ off ∧ off < 0x400000 then s.timeArea off
    else if off = 0x400000 then (if pf0 then s.selReg else 0)
    else if off = 0x400008 then (if pf0 then s.dataReg else 0)
    else if 0x500000 ≤ off ∧ off < 0x600000 then (if pf0 then s.portArea off else 0)
    else if off = 0x600000 then (if pf0 then s.errReg else 0)
    else if off = 0x700000 then (if pf0 then s.secReg else 0)
    else if 0x800000 ≤ off ∧ off < 0x1000000 then
      let p := (off - 0x800000) / 0x80000
      if (pf0 || decide (fn = p + 1)) && inArray (off % 0x80000) 0 11 then s.partReg p (off % 0x80000 / 8) else 0
    else 0)

/-- A register of the power sequencer (Table 21.7). -/
def State.seqReg (s : State) (i : Nat) : BitVec 8 :=
  let q := s.seqr
  BitVec.ofNat 8 (match i with
    | 0 => 0x53
    | 1 => q.hubDom.toNat
    | 2 => q.hubAct.toNat + 128 * b2n (decide (s.pwr.dom = 0))
    | 3 => 8 * s.pwr.convOk.toNat
    | 4 => b2n q.clip + 2 * b2n q.lockout + 4 * b2n q.trip + 8 * b2n q.coolant + 16 * b2n q.refused
    | 6 => s.pwr.busV
    | _ => 0)

/-- ALERT of the sequencer: an in-band interrupt, and MOD_ALERT_N low, while a bit of register 0x04 is set (R536). -/
def State.alert (s : State) : Bool := decide (s.seqReg 4 ≠ 0)

end Sys2Proof.Machine
end

