-- ==== Sys2Proof/Safety.lean ====
section
/-! DEFINITION. The terms in which claims about the module are stated: a cell as its instruction of the present cycle finds
it, what a command may leave changed, the canonical form of the state's tables, the commands accepted and answered. -/

namespace Sys2Proof.Machine

/-- The cell as an instruction that issues in the present cycle finds it: everything that lands before the cycle has landed. -/
def State.atIssue (s : State) (c : Nat) : Cell := (s.cell c).settle s.cycle

/-- Cell `c` issues, and enables, an instruction with the fields `e` in the present cycle. -/
def CellReady (s : State) (c : Nat) (e : En) : Prop :=
  s.canIssue c = true ∧ (s.atIssue c).pc ≤ 8191 ∧ (s.atIssue c).enabled e = true ∧ e.fecc ≠ .uncorrectable

/-- Between `s` and `t` nothing changed but cell `c`, the counters and the history of corrected errors. -/
def OnlyCell (s t : State) (c : Nat) : Prop :=
  t = { s with cells := t.cells, counters := t.counters, health := t.health, act := t.act } ∧ ∀ k, k ≠ c → t.cell k = s.cell k

/-- The cell after an enabled instruction that holds its issue slot for `slots` cycles and does nothing else. -/
def Cell.issued (x : Cell) (now slots : Nat) : Cell := { x with pc := x.pc + 1, issueFree := now + slots, slotEn := true }

/-- The cell after a cause met in cycle `now`: it stops, and of the causes of one cycle the lowest stands (R93, R546). -/
def Cell.stopped (x : Cell) (code now : Nat) : Cell :=
  { x with
    issueFree := now + 1
    fault := match x.fault with
      | none => some ⟨code, now⟩
      | some f => if f.cycle = now ∧ code < f.code then some ⟨code, now⟩ else some f }

/-- Two cells agree on every register file, every memory, every accumulator and weight buffer, and every result in flight. -/
def SameContents (x y : Cell) : Prop :=
  x.g = y.g ∧ x.p = y.p ∧ x.v = y.v ∧ x.ag = y.ag ∧ x.pend = y.pend ∧ x.sdm = y.sdm ∧ x.cs = y.cs ∧ x.csw = y.csw ∧
    x.acc = y.acc ∧ x.wb0 = y.wb0 ∧ x.wb1 = y.wb1

/-- Between `s` and `t` nothing changed but what `f` lists of partition `p`. -/
def OnlyPart (s t : State) (p : Nat) (f : Part → Part) : Prop :=
  t.part p = f (s.part p) ∧ ∀ q, q ≠ p → t.part q = s.part q

/-- Every table that the state indexes its units by is in canonical form. -/
def State.canonical (s : State) : Bool :=
  SMap.wf Cell.zero s.cells && SMap.wf Block.zero s.blocks && SMap.wf Part.zero s.parts && SMap.wf Port.zero s.ports
    && SMap.wf Stack.zero s.stks && SMap.wf Island.zero s.islands && SMap.wf Shadow.zero s.shadows

/-- A completion entry for command `h` of opcode `op` with a status and results has been written. -/
def Answered (t : State) (h : Hdr) (op status : Nat) (results : List (Nat × Nat)) : Prop :=
  ∃ phase trunc tag, Sent.compl { opcode := op, status, hdr := h, phase, trunc, results, tag } ∈ t.out

end Sys2Proof.Machine
end

