-- ==== Sys2Proof/Certificates/Slice0/Obligations.lean ====
section
/-! DEFINITION. The statements for the provers, each a proposition about the model; OBLIGATIONS.json says which rules of the
spec each formalises. The tables and helpers in `Sys2Proof.Stmt` restate the spec's tables. -/

/-! ### Tables of the cell's instructions, written from the spec's tables -/

namespace Sys2Proof.Stmt

open Sys2Proof.Machine

/-- Table 3.9 without the divider: instruction, latency, result of a and b. -/
def rrRows : List ((CellId → RR → Instr) × Nat × (Word → Word → Word)) := [
  (.addI64, 1, fun a b => BitVec.ofNat 64 (a.toNat + b.toNat)),
  (.subI64, 1, fun a b => BitVec.ofInt 64 (a.toNat - b.toNat : Int)),
  (.andB64, 1, fun a b => a &&& b),
  (.orB64, 1, fun a b => a ||| b),
  (.xorB64, 1, fun a b => a ^^^ b),
  (.shlB64, 1, fun a b => BitVec.ofNat 64 (a.toNat * 2 ^ (b.toNat % 64))),
  (.shrU64, 1, fun a b => BitVec.ofNat 64 (a.toNat / 2 ^ (b.toNat % 64))),
  (.sarS64, 1, fun a b => BitVec.ofInt 64 (a.toInt / 2 ^ (b.toNat % 64))),
  (.minS64, 1, fun a b => BitVec.ofInt 64 (min a.toInt b.toInt)),
  (.maxS64, 1, fun a b => BitVec.ofInt 64 (max a.toInt b.toInt)),
  (.minU64, 1, fun a b => BitVec.ofNat 64 (min a.toNat b.toNat)),
  (.maxU64, 1, fun a b => BitVec.ofNat 64 (max a.toNat b.toNat)),
  (.mulI64, 3, fun a b => BitVec.ofNat 64 (a.toNat * b.toNat)),
  (.mulhU64, 3, fun a b => BitVec.ofNat 64 (a.toNat * b.toNat / 2 ^ 64))]

/-- Table 3.10: instruction, latency, whether IMM32[31:6] is reserved, result of a and IMM32. -/
def riRows : List ((CellId → RI → Instr) × Nat × Bool × (Word → BitVec 32 → Word)) := [
  (.addiI64, 1, false, fun a i => BitVec.ofInt 64 (a.toNat + i.toInt)),
  (.andiB64, 1, false, fun a i => a &&& i.signExtend 64),
  (.oriB64, 1, false, fun a i => a ||| i.signExtend 64),
  (.xoriB64, 1, false, fun a i => a ^^^ i.signExtend 64),
  (.shliB64, 1, true, fun a i => BitVec.ofNat 64 (a.toNat * 2 ^ i.toNat)),
  (.shriU64, 1, true, fun a i => BitVec.ofNat 64 (a.toNat / 2 ^ i.toNat)),
  (.sariS64, 1, true, fun a i => BitVec.ofInt 64 (a.toInt / 2 ^ i.toNat)),
  (.lihB64, 1, false, fun a i => BitVec.ofNat 64 (i.toNat * 2 ^ 32 + a.toNat % 2 ^ 32)),
  (.muliI64, 3, false, fun a i => BitVec.ofInt 64 (a.toNat * i.toInt))]

/-- The divider's instructions (Table 3.9, R84). -/
def divRows : List ((CellId → RR → Instr) × (Nat → Nat → Nat)) := [
  (.divU64, fun a b => if b = 0 then 2 ^ 64 - 1 else a / b),
  (.remU64, fun a b => if b = 0 then a else a % b)]

/-- Relations of Table 3.13. -/
def relRows : List (Word → Word → Bool) := [
  fun a b => decide (a = b), fun a b => decide (a ≠ b), fun a b => decide (a.toInt < b.toInt),
  fun a b => decide (b.toInt ≤ a.toInt), fun a b => decide (a.toNat < b.toNat), fun a b => decide (b.toNat ≤ a.toNat)]

/-- Compares of two registers, each with its relation's place in `relRows`. -/
def cmpRRows : List ((CellId → CmpR → Instr) × Nat) := [
  (.ceqI64, 0), (.cneI64, 1), (.cltS64, 2), (.cgeS64, 3), (.cltU64, 4), (.cgeU64, 5)]

/-- Compares with an immediate. -/
def cmpIRows : List ((CellId → CmpI → Instr) × Nat) := [
  (.ceqiI64, 0), (.cneiI64, 1), (.cltiS64, 2), (.cgeiS64, 3), (.cltiU64, 4), (.cgeiU64, 5)]

/-- Predicate logic (Table 3.14): instruction, whether PA and PB are reserved, result. -/
def plRows : List ((CellId → PlF → Instr) × Bool × (Bool → Bool → Bool)) := [
  (.pandP, false, fun a b => a && b), (.porP, false, fun a b => a || b), (.pxorP, false, fun a b => a != b),
  (.pandnP, false, fun a b => a && !b), (.psetP, true, fun _ _ => true), (.pclrP, true, fun _ _ => false)]

/-- The cell with one more result in flight: latency `lat` from cycle `now`. -/
def withResult (x : Cell) (now lat : Nat) (w : RegWrite) : Cell :=
  { x with pend := x.pend ++ [{ due := now + lat - 1, issued := now, w }] }

/-- Loads and stores (Table 3.12): instruction, cell store or scalar data memory, store or load, size codes it takes. -/
def memRows : List ((CellId → MemF → Instr) × Bool × Bool × List Nat) := [
  (.ld, false, false, [0, 1, 2, 3, 4, 5, 6]), (.st, false, true, [0, 2, 4, 6]),
  (.ldx, true, false, [4, 5, 6]), (.stx, true, true, [4, 6])]

/-- Lanes of LM (R96). -/
def sel (x : Cell) (lm : BitVec 5) (l : Nat) : Bool := decide (lm = 0) || (x.readG lm.toNat).getLsbD l

/-- One value for each selected lane. -/
def lanesOf (x : Cell) (lm : BitVec 5) (f : Nat → Lane) : List (Nat × Lane) :=
  ((List.range 64).filter (fun l => sel x lm l)).map (fun l => (l, f l))

/-- The second operand of an arithmetic lane: G[VB][31:0] under BC (Table 4.3). -/
def laneB (x : Cell) (f : VecF) (l : Nat) : Lane :=
  if f.bc then BitVec.ofNat 32 (x.readG f.vb.toNat).toNat else x.lane f.vb.toNat l

/-- A row of the vector tables: instruction, cycles the unit is occupied, latency, reserved fields clear, lane result. -/
structure LaneRow where
  ctor  : CellId → VecF → Instr
  occ   : Nat
  lat   : Nat
  legal : VecF → Bool
  val   : State → CellId → Cell → VecF → Nat → Lane

/-- A lane of an arithmetic instruction as naturals. -/
def nat2 (op : Nat → Nat → Nat) : State → CellId → Cell → VecF → Nat → Lane :=
  fun _ _ x f l => BitVec.ofNat 32 (op (x.lane f.va.toNat l).toNat (laneB x f l).toNat)

/-- A lane of an arithmetic instruction as signed integers. -/
def int2 (op : Int → Int → Int) : State → CellId → Cell → VecF → Nat → Lane :=
  fun _ _ x f l => BitVec.ofInt 32 (op (x.lane f.va.toNat l).toInt (laneB x f l).toInt)

/-- A lane of a one-operand function. -/
def nat1 (op : Nat → Nat) : State → CellId → Cell → VecF → Nat → Lane :=
  fun _ _ x f l => BitVec.ofNat 32 (op (x.lane f.va.toNat l).toNat)

/-- Tables 4.4 and 4.9: FP32, INT32, special functions, moves. -/
def laneRows : List LaneRow := [
  ⟨.vaddF32, 1, 4, VecF.noC, nat2 fp32Add⟩,
  ⟨.vsubF32, 1, 4, VecF.noC, nat2 (fun a b => fp32Add a (b ^^^ 0x80000000))⟩,
  ⟨.vmulF32, 1, 4, VecF.noC, nat2 fp32Mul⟩,
  ⟨.vfmaF32, 1, 4, VecF.plain, fun _ _ x f l =>
    BitVec.ofNat 32 (fp32Fma (x.lane f.va.toNat l).toNat (laneB x f l).toNat (x.lane f.vc.toNat l).toNat)⟩,
  ⟨.vminF32, 1, 4, VecF.noC, nat2 fp32Min⟩,
  ⟨.vmaxF32, 1, 4, VecF.noC, nat2 fp32Max⟩,
  ⟨.vabsF32, 1, 4, VecF.noBC, nat1 (fun a => a % 2 ^ 31)⟩,
  ⟨.vnegF32, 1, 4, VecF.noBC, nat1 (fun a => a + 2 ^ 31)⟩,
  ⟨.vaddI32, 1, 2, VecF.noC, nat2 (· + ·)⟩,
  ⟨.vsubI32, 1, 2, VecF.noC, int2 (· - ·)⟩,
  ⟨.vmulI32, 1, 4, VecF.noC, nat2 (· * ·)⟩,
  ⟨.vandB32, 1, 2, VecF.noC, nat2 (· &&& ·)⟩,
  ⟨.vorB32, 1, 2, VecF.noC, nat2 (· ||| ·)⟩,
  ⟨.vxorB32, 1, 2, VecF.noC, nat2 (· ^^^ ·)⟩,
  ⟨.vshlB32, 1, 2, VecF.noC, nat2 (fun a b => a * 2 ^ (b % 32))⟩,
  ⟨.vshrU32, 1, 2, VecF.noC, nat2 (fun a b => a / 2 ^ (b % 32))⟩,
  ⟨.vsarS32, 1, 2, VecF.noC, int2 (fun a b => a / 2 ^ (b % 32).toNat)⟩,
  ⟨.vminS32, 1, 2, VecF.noC, int2 min⟩,
  ⟨.vmaxS32, 1, 2, VecF.noC, int2 max⟩,
  ⟨.vminU32, 1, 2, VecF.noC, nat2 min⟩,
  ⟨.vmaxU32, 1, 2, VecF.noC, nat2 max⟩,
  ⟨.vrcpF32, 2, 8, VecF.noBC, nat1 fp32Rcp⟩,
  ⟨.vsqrtF32, 2, 8, VecF.noBC, nat1 fp32Sqrt⟩,
  ⟨.vrsqrtF32, 2, 8, VecF.noBC, nat1 fp32Rsqrt⟩,
  ⟨.vexp2F32, 2, 8, VecF.noBC, nat1 fp32Exp2⟩,
  ⟨.vlog2F32, 2, 8, VecF.noBC, nat1 fp32Log2⟩,
  ⟨.vmovB32, 1, 2, VecF.noBC, fun _ _ x f l => x.lane f.va.toNat l⟩,
  ⟨.vbcastB32, 1, 2, VecF.noBC, fun _ _ x f _ => BitVec.ofNat 32 (x.readG f.va.toNat).toNat⟩,
  ⟨.viotaI32, 1, 2, fun f => f.noBC && f.va == 0, fun _ _ _ _ l => BitVec.ofNat 32 l⟩,
  ⟨.vpermB32, 1, 2, VecF.noCBc, fun _ _ x f l => x.lane f.va.toNat ((x.lane f.vb.toNat l).toNat % 64)⟩]

/-- Conversion formats of Table 4.8: pack, unpack, format, width of the lane field. -/
def packRows : List ((CellId → VecF → Instr) × (CellId → VecF → Instr) × Fmt × Nat) := [
  (.vpkBf16, .vunpkBf16, .flt fBF16, 16), (.vpkF16, .vunpkF16, .flt fF16, 16),
  (.vpkE4m3, .vunpkE4m3, .flt fE4M3, 8), (.vpkE5m2, .vunpkE5m2, .flt fE5M2, 8),
  (.vpkE2m3, .vunpkE2m3, .flt fE2M3, 8), (.vpkE3m2, .vunpkE3m2, .flt fE3M2, 8),
  (.vpkE2m1, .vunpkE2m1, .flt fE2M1, 4), (.vpkI8, .vunpkI8, .int 8, 8), (.vpkI4, .vunpkI4, .int 4, 4)]

/-- The random bits of a lane and field in the present cycle (R108, R131). -/
def rnd (s : State) (c l q : Nat) : Nat :=
  let p := s.cellPart c
  srKey p.seed.toNat p.stepNo p.stepKind p.offset (s.vcell c) l q 0

/-- Table 4.8: packs, unpacks, whole-lane conversions, the scale. -/
def cvtRows : List LaneRow :=
  packRows.map (fun e => ⟨e.1, 1, 3, fun f => f.cvtPlain (32 / e.2.2.2) && f.vb == 0, fun s c x f l =>
    let w := e.2.2.2
    let old := (x.lane f.vd.toNat l).toNat
    let v := cvt (x.lane f.va.toNat l).toNat F32 e.2.2.1 f.rm.toNat f.sat (rnd s c l f.q)
    BitVec.ofNat 32 (old % 2 ^ (w * f.q) + v * 2 ^ (w * f.q) + old / 2 ^ (w * f.q + w) * 2 ^ (w * f.q + w))⟩)
  ++ packRows.map (fun e => ⟨e.2.1, 1, 3, fun f => f.cvtPlain (32 / e.2.2.2) && f.vb == 0 && f.rm == 0 && !f.sat,
    fun _ _ x f l =>
      let q := (x.lane f.va.toNat l).toNat / 2 ^ (e.2.2.2 * f.q)
      match e.2.2.1 with
      | .int w => BitVec.ofInt 32 (if q % 2 ^ w < 2 ^ (w - 1) then (q % 2 ^ w : Int) else (q % 2 ^ w : Int) - 2 ^ w)
      | t => BitVec.ofNat 32 (cvt (q % 2 ^ t.width) t F32 0 false 0)⟩)
  ++ [⟨.vcvtI32F32, 1, 3, fun f => f.cvtPlain 1 && f.vb == 0, fun s c x f l =>
        BitVec.ofNat 32 (cvt (x.lane f.va.toNat l).toNat F32 (.int 32) f.rm.toNat f.sat (rnd s c l 0))⟩,
      ⟨.vcvtF32I32, 1, 3, fun f => f.cvtPlain 1 && f.vb == 0, fun s c x f l =>
        BitVec.ofNat 32 (cvt (x.lane f.va.toNat l).toNat (.int 32) F32 f.rm.toNat f.sat (rnd s c l 0))⟩,
      ⟨.vscaleE8m0, 1, 3, fun f => f.cvtPlain 1, fun s c x f l =>
        let sc : Nat := (x.readG f.vb.toNat).toNat / 2 ^ (if l < 32 then 0 else 8) % 256
        BitVec.ofNat 32 (if sc = 255 then nan32
          else cvtValue ((decodeNum F32 (x.lane f.va.toNat l).toNat).scale (sc - 127)) F32 f.rm.toNat f.sat (rnd s c l 0))⟩]

/-- A word whose bit l is 1 where `p l`. -/
def bitWord (p : Nat → Bool) : Nat := ((List.range 64).map (fun l => if p l then 2 ^ l else 0)).sum

/-- Compares and reductions (Table 4.5), and VEXT: instruction, latency, reserved fields clear, value of G[VD]. -/
def toGRows : List ((CellId → VecF → Instr) × Nat × (VecF → Bool) × (Cell → VecF → Nat)) :=
  let cmp (rel : Lane → Lane → Bool) : Cell → VecF → Nat := fun x f =>
    bitWord (fun l => sel x f.lm l && rel (x.lane f.va.toNat l) (x.lane f.vb.toNat l))
  let red (op : Nat → Nat → Nat) (z : Nat) : Cell → VecF → Nat := fun x f =>
    tree64 op ((List.range 64).map (fun l => if sel x f.lm l then (x.lane f.va.toNat l).toNat else z))
  let mx (t : Fmt) : Cell → VecF → Nat := fun x f => mxScale (blockAmax x f 0) t + 256 * mxScale (blockAmax x f 32) t
  [(.vceqF32, 2, VecF.noCBc, cmp (fun a b => fp32Eq a.toNat b.toNat)),
   (.vcltF32, 2, VecF.noCBc, cmp (fun a b => fp32Lt a.toNat b.toNat)),
   (.vcleF32, 2, VecF.noCBc, cmp (fun a b => fp32Le a.toNat b.toNat)),
   (.vcunF32, 2, VecF.noCBc, cmp (fun a b => isNan32 a.toNat || isNan32 b.toNat)),
   (.vceqI32, 2, VecF.noCBc, cmp (fun a b => decide (a = b))),
   (.vcltS32, 2, VecF.noCBc, cmp (fun a b => decide (a.toInt < b.toInt))),
   (.vcltU32, 2, VecF.noCBc, cmp (fun a b => decide (a.toNat < b.toNat))),
   (.vcleS32, 2, VecF.noCBc, cmp (fun a b => decide (a.toInt ≤ b.toInt))),
   (.vrsumF32, 6, VecF.noBC, red fp32Add 0),
   (.vrmaxF32, 6, VecF.noBC, red fp32Max 0xFF800000),
   (.vrminF32, 6, VecF.noBC, red fp32Min 0x7F800000),
   (.vrsumI32, 6, VecF.noBC, red (fun a b => (a + b) % 2 ^ 32) 0),
   (.vmxscE2m1, 6, VecF.noBC, mx (.flt fE2M1)), (.vmxscE2m3, 6, VecF.noBC, mx (.flt fE2M3)),
   (.vmxscE3m2, 6, VecF.noBC, mx (.flt fE3M2)), (.vmxscE4m3, 6, VecF.noBC, mx (.flt fE4M3)),
   (.vmxscE5m2, 6, VecF.noBC, mx (.flt fE5M2)), (.vmxscI8, 6, VecF.noBC, mx (.int 8)),
   (.vextB32, 2, fun f => f.noCBc && f.lm == 0, fun x f =>
     (x.lane f.va.toNat ((x.readG f.vb.toNat).toNat % 64)).toNat)]

/-- A[ag].ADDR + 256 × OFS of a vector memory instruction (R104). -/
def ofsAddr (x : Cell) (f : VecF) : Int :=
  let o : Int := ((f.lo.toNat % 2 ^ 16 : Nat) : Int)
  (x.agen f.agOf).addr.toNat + 256 * (if o < 2 ^ 15 then o else o - 2 ^ 16)

/-- Gathers and scatters (Table 4.7): instruction, bytes per lane, scatter. -/
def laneMemRows : List ((CellId → VecF → Instr) × Nat × Bool) := [
  (.vgatherU8, 1, false), (.vgatherU16, 2, false), (.vgatherB32, 4, false),
  (.vscatterB8, 1, true), (.vscatterB16, 2, true), (.vscatterB32, 4, true)]

/-- The port is free in `count` cycles from `start`, `step` apart (R98, R157). -/
def portFree (x : Cell) (start step count : Nat) : Prop :=
  ∀ o ∈ x.port, ∀ i, i < count → PortOp.has o (start + step * i) = false

/-- One port operation more. -/
def withPort (x : Cell) (start step count now : Nat) (a : PortAct) : Cell :=
  { x with port := x.port ++ [{ start, step, count, done := 0, issued := now, act := a }] }

/-- The lines of a matrix instruction lie in the cell store from a line address (R147). -/
def linesFit (x : Cell) (ag : BitVec 4) (n : Nat) : Prop :=
  256 ∣ (x.agen ag.toNat).addr.toNat ∧ (x.agen ag.toNat).addr.toNat + 256 * n ≤ 1572864

/-- What a result in flight writes to a scalar register. -/
def gWrite (w : RegWrite) (r : Nat) : Option Word :=
  match w with
  | .g r' v => if r' = r then some v else none
  | _ => none

/-- What a result in flight writes to a predicate register (the last of its writes there). -/
def pWrite (w : RegWrite) (r : Nat) : Option Bool :=
  match w with
  | .p l => (l.reverse.find? (fun e => decide (e.1 = r))).map (·.2)
  | _ => none

/-- What a result in flight writes to a lane. -/
def vWrite (w : RegWrite) (r l : Nat) : Option Lane :=
  match w with
  | .v r' ls => if r' = r then (ls.reverse.find? (fun e => decide (e.1 = l))).map (·.2) else none
  | _ => none

/-- `q` lands last of the results of `l` due by `b` for which `hit` holds. -/
def LandsLast (l : List PendRes) (b : Nat) (hit : RegWrite → Bool) (q : PendRes) : Prop :=
  ∃ l1 l2, l = l1 ++ q :: l2 ∧ q.due ≤ b ∧
    ∀ o ∈ l1 ++ l2, o.due ≤ b → hit o.w = true → o.due < q.due ∨ (o.due = q.due ∧ o.issued < q.issued)

end Sys2Proof.Stmt

open Sys2Proof Sys2Proof.Machine Sys2Proof.Stmt

/-- Scalar arithmetic issues its result at the table's latency and changes nothing else of the cell. Rests on Table 3.9,
Table 3.10, R66, R85. -/
def Obligations.ScalarArithmetic : Prop :=
  (∀ e ∈ rrRows, ∀ (c : CellId) (f : RR) (s : State), CellReady s c f.en → f.rsv = 0 →
    ∃ t, exec (e.1 c f) s = .next t ∧ OnlyCell s t c ∧
      t.cell c = withResult ((s.atIssue c).issued s.cycle 1) s.cycle e.2.1
        (.g f.rd.toNat (e.2.2 ((s.atIssue c).readG f.ra.toNat) ((s.atIssue c).readG f.rb.toNat)))) ∧
  (∀ e ∈ riRows, ∀ (c : CellId) (f : RI) (s : State), CellReady s c f.en → f.rsv = 0 →
    (e.2.2.1 = true → f.imm.toNat < 64) →
    ∃ t, exec (e.1 c f) s = .next t ∧ OnlyCell s t c ∧
      t.cell c = withResult ((s.atIssue c).issued s.cycle 1) s.cycle e.2.1
        (.g f.rd.toNat (e.2.2.2 ((s.atIssue c).readG f.ra.toNat) f.imm)))

/-- The divider: quotient and remainder, division by zero, 34 cycles of occupancy, UNIT_BUSY. Formalises R84. -/
def Obligations.DividerResults : Prop :=
  ∀ e ∈ divRows, ∀ (c : CellId) (f : RR) (s : State), CellReady s c f.en → f.rsv = 0 →
    ((s.atIssue c).divFree ≤ s.cycle →
      ∃ t, exec (e.1 c f) s = .next t ∧ OnlyCell s t c ∧
        t.cell c = withResult { (s.atIssue c).issued s.cycle 1 with divFree := s.cycle + 34 } s.cycle 34
          (.g f.rd.toNat (BitVec.ofNat 64
            (e.2 ((s.atIssue c).readG f.ra.toNat).toNat ((s.atIssue c).readG f.rb.toNat).toNat)))) ∧
    (s.cycle < (s.atIssue c).divFree →
      ∃ t, exec (e.1 c f) s = .next t ∧ t.cell c = (s.atIssue c).stopped 0x04 s.cycle ∧
        ((s.cell c).fault = none → ∃ r, t.raised = s.raised ++ [r] ∧ r.cls = .partition ∧ r.code = 0x04 ∧ r.parts = (s.cellOwner c).toList))

/-- Compares, predicate logic and predicate moves at latency 1. Rests on Table 3.13, Table 3.14, R66, R89. -/
def Obligations.ComparesAndPredicates : Prop :=
  (∀ e ∈ cmpRRows, ∀ (c : CellId) (f : CmpR) (s : State), CellReady s c f.en → f.rsvHi = 0 → f.rsv = 0 →
    ∃ t rel, exec (e.1 c f) s = .next t ∧ OnlyCell s t c ∧ relRows[e.2]? = some rel ∧
      t.cell c = withResult ((s.atIssue c).issued s.cycle 1) s.cycle 1
        (.p [(f.pd.toNat, rel ((s.atIssue c).readG f.ra.toNat) ((s.atIssue c).readG f.rb.toNat))])) ∧
  (∀ e ∈ cmpIRows, ∀ (c : CellId) (f : CmpI) (s : State), CellReady s c f.en → f.rsvHi = 0 → f.rsv = 0 →
    ∃ t rel, exec (e.1 c f) s = .next t ∧ OnlyCell s t c ∧ relRows[e.2]? = some rel ∧
      t.cell c = withResult ((s.atIssue c).issued s.cycle 1) s.cycle 1
        (.p [(f.pd.toNat, rel ((s.atIssue c).readG f.ra.toNat) (BitVec.ofInt 64 f.imm.toInt))])) ∧
  (∀ e ∈ plRows, ∀ (c : CellId) (f : PlF) (s : State), CellReady s c f.en → f.rsv = 0 →
    (e.2.1 = true → f.pa = 0 ∧ f.pb = 0) →
    ∃ t, exec (e.1 c f) s = .next t ∧ OnlyCell s t c ∧
      t.cell c = withResult ((s.atIssue c).issued s.cycle 1) s.cycle 1
        (.p [(f.pd.toNat, e.2.2 ((s.atIssue c).readP f.pa.toNat) ((s.atIssue c).readP f.pb.toNat))])) ∧
  (∀ (c : CellId) (f : PmF) (s : State), CellReady s c f.en → f.rsv = 0 → f.ra = 0 → f.mask = 0 →
    ∃ t w, exec (.prdP16 c f) s = .next t ∧ OnlyCell s t c ∧
      t.cell c = withResult ((s.atIssue c).issued s.cycle 1) s.cycle 1 (.g f.rd.toNat w) ∧
      ∀ i, w.getLsbD i = (decide (i < 16) && (s.atIssue c).readP i)) ∧
  (∀ (c : CellId) (f : PmF) (s : State), CellReady s c f.en → f.rsv = 0 → f.rd = 0 →
    ∃ t l, exec (.pwrP16 c f) s = .next t ∧ OnlyCell s t c ∧
      t.cell c = withResult ((s.atIssue c).issued s.cycle 1) s.cycle 1 (.p l) ∧
      ∀ i b, (i, b) ∈ l ↔ 1 ≤ i ∧ i < 16 ∧ f.mask.getLsbD i = true ∧ b = ((s.atIssue c).readG f.ra.toNat).getLsbD i)

/-- Special reads, address generators and loop counters. Rests on Table 3.3, Table 4.11, R63, R110, R111, R118. -/
def Obligations.SpecialReadsAndGenerators : Prop :=
  (∀ (c : CellId) (f : SrF) (s : State), CellReady s c f.en → f.rsv = 0 → f.sr.toNat ≤ 7 →
    ∃ t, exec (.rdsrI64 c f) s = .next t ∧ OnlyCell s t c ∧
      t.cell c = withResult ((s.atIssue c).issued s.cycle 1) s.cycle 1 (.g f.rd.toNat (BitVec.ofNat 64
        (([(s.cellPart c).planTime, (s.cellOwner c).getD 0, s.vcell c, c, (s.cellPart c).stepNo, (s.cellPart c).stepKind,
           (s.cellPart c).planTime - 1024 * (s.cellPart c).stepStart, (s.cellPart c).epoch.toNat] : List Nat).getD f.sr.toNat 0)))) ∧
  (∀ (c : CellId) (f : AgRdF) (s : State), CellReady s c f.en → f.rsv = 0 →
    ∃ t, exec (.agrdU24 c f) s = .next t ∧ OnlyCell s t c ∧
      t.cell c = withResult ((s.atIssue c).issued s.cycle 1) s.cycle 1
        (.g f.rd.toNat (BitVec.ofNat 64 ((s.atIssue c).agen f.idx.toNat).addr.toNat))) ∧
  (∀ (c : CellId) (f : AgRdF) (s : State), CellReady s c f.en → f.rsv = 0 → f.idx.toNat < 4 →
    ∃ t, exec (.lcrdU11 c f) s = .next t ∧ OnlyCell s t c ∧
      t.cell c = withResult ((s.atIssue c).issued s.cycle 1) s.cycle 1
        (.g f.rd.toNat (BitVec.ofNat 64 (look 0 (s.atIssue c).lc f.idx.toNat)))) ∧
  (∀ (c : CellId) (f : AgF) (s : State), CellReady s c f.en → f.rsv = 0 → f.field.toNat ≤ 5 →
    let v : Word := BitVec.ofInt 64 (((s.atIssue c).readG f.ra.toNat).toNat + f.imm.toInt)
    (f.field.toNat = 5 → v.toNat % 8192 + v.toNat / 65536 % 8192 ≤ 6144) →
    ∃ t, exec (.agsetA24 c f) s = .next t ∧ OnlyCell s t c ∧
      t.cell c = withResult ((s.atIssue c).issued s.cycle 1) s.cycle 1 (.agSet f.ag.toNat f.field.toNat v)) ∧
  (∀ (c : CellId) (f : AgF) (s : State), CellReady s c f.en → f.rsv = 0 → f.field.toNat = 5 →
    let v : Word := BitVec.ofInt 64 (((s.atIssue c).readG f.ra.toNat).toNat + f.imm.toInt)
    6144 < v.toNat % 8192 + v.toNat / 65536 % 8192 →
    ∃ t, exec (.agsetA24 c f) s = .next t ∧ t.cell c = (s.atIssue c).stopped 0x13 s.cycle) ∧
  (∀ (c : CellId) (f : AgF) (s : State), CellReady s c f.en → f.rsv = 0 → f.field = 0 →
    let v : Word := BitVec.ofInt 64 (((s.atIssue c).readG f.ra.toNat).toNat + f.imm.toInt)
    ∃ t, exec (.agaddA24 c f) s = .next t ∧ OnlyCell s t c ∧
      t.cell c = withResult ((s.atIssue c).issued s.cycle 1) s.cycle 1 (.agMove f.ag.toNat v.toInt))

/-- Loads and stores: the access is made in cycle t + 1 or t + 2, or the address faults at issue. Rests on R68, R86, Table
3.11, Table 3.12. -/
def Obligations.LoadsAndStoresIssue : Prop :=
  ∀ e ∈ memRows, ∀ (c : CellId) (f : MemF) (s : State), CellReady s c f.en → f.rsv = 0 → f.size.toNat ∈ e.2.2.2 →
    let x := s.atIssue c
    let ea := (((x.readG f.ra.toNat).toNat + f.imm.toInt) % 2 ^ 64).toNat
    let n := 2 ^ (f.size.toNat / 2)
    let top := if e.2.1 then 1572864 else 32768
    (ea < top → n ∣ ea →
      ∃ t, exec (e.1 c f) s = .next t ∧ OnlyCell s t c ∧
        t.cell c = { x.issued s.cycle 1 with macc := x.macc ++ [{
          due := s.cycle + (if e.2.1 then 2 else 1), issued := s.cycle, cs := e.2.1, en := true, store := e.2.2.1
          rd := f.rd.toNat, ea, n, sx := decide (f.size.toNat % 2 = 1), data := x.readG f.rd.toNat }] }) ∧
    (top ≤ ea → ∃ t, exec (e.1 c f) s = .next t ∧ t.cell c = x.stopped 0x02 s.cycle) ∧
    (ea < top → ¬ n ∣ ea → ∃ t, exec (e.1 c f) s = .next t ∧ t.cell c = x.stopped 0x03 s.cycle)

/-- A scalar access: a load takes its bytes, a store writes exactly its bytes. Rests on R58, R60, R68, R82, R87. -/
def Obligations.ScalarAccessesReadAndWriteMemory : Prop :=
  ∀ (c : CellId) (ecc : Ecc) (s : State) (a : MemAcc) (rest : List MemAcc),
    (s.cell c).macc = a :: rest → a.due ≤ s.dueBound c → ecc ≠ .uncorrectable → a.n ∈ [1, 2, 4, 8] →
    (∀ w ∈ (s.cell c).csw, w.cyc < s.cycle) →
    ∃ t, exec (.scalarMemoryAccess c ecc) s = .next t ∧ OnlyCell s t c ∧ (t.cell c).macc = rest ∧
      (t.cell c).g = (s.cell c).g ∧ (t.cell c).v = (s.cell c).v ∧ (t.cell c).p = (s.cell c).p ∧
      (t.cell c).acc = (s.cell c).acc ∧ (t.cell c).wb0 = (s.cell c).wb0 ∧ (t.cell c).wb1 = (s.cell c).wb1 ∧
      (let old := if a.cs then (s.cell c).store (s.cycle + 1) else (s.cell c).sdm
       let new := if a.cs then (t.cell c).store (s.cycle + 1) else (t.cell c).sdm
       let other := if a.cs then (t.cell c).sdm = (s.cell c).sdm else (t.cell c).store (s.cycle + 1) = (s.cell c).store (s.cycle + 1)
       other ∧
       (a.en = true → a.store = true →
         (t.cell c).pend = (s.cell c).pend ∧
         (∀ i, i < a.n → Mem.byte new (a.ea + i) = BitVec.ofNat 8 (a.data.toNat / 256 ^ i)) ∧
         (∀ j, j < a.ea ∨ a.ea + a.n ≤ j → Mem.byte new j = Mem.byte old j)) ∧
       (a.en = true → a.store = false →
         (∀ j, Mem.byte new j = Mem.byte old j) ∧
         ∃ v : Nat, (v = ((List.range a.n).map (fun i => (Mem.byte old (a.ea + i)).toNat * 256 ^ i)).sum) ∧
           (t.cell c).pend = (s.cell c).pend ++ [{ due := a.due + 1, issued := a.issued, w := (.g a.rd
             (if a.sx then (BitVec.ofNat (8 * a.n) v).signExtend 64 else BitVec.ofNat 64 v)) }]) ∧
       (a.en = false → (t.cell c).pend = (s.cell c).pend ∧ ∀ j, Mem.byte new j = Mem.byte old j))

/-- NOP, WAIT, WAITO and STEPEND hold the issue slot and change no register or memory. Rests on R72, R90, R91, Table 3.15. -/
def Obligations.IssueSlotHolds : Prop :=
  (∀ (c : CellId) (ecc : Ecc) (s : State), CellReady s c ⟨0, false, ecc⟩ →
    ∃ t, exec (.nopC c 0 ecc) s = .next t ∧ OnlyCell s t c ∧ t.cell c = (s.atIssue c).issued s.cycle 1) ∧
  (∀ (c : CellId) (f : Ctl) (s : State), CellReady s c f.en → f.rsvHi = 0 → f.ra = 0 → f.rsvMid = 0 → f.lo.toNat < 2 ^ 24 →
    ∃ t, exec (.waitC c f) s = .next t ∧ OnlyCell s t c ∧ t.cell c = (s.atIssue c).issued s.cycle (f.lo.toNat + 1)) ∧
  (∀ (c : CellId) (f : Ctl) (s : State), CellReady s c f.en → f.rsvHi = 0 → f.rsvMid = 0 → f.lo = 0 →
    (s.atIssue c).loop = none →
    let o := (s.cellPart c).planTime - 1024 * (s.cellPart c).stepStart
    let g := ((s.atIssue c).readG f.ra.toNat).toNat
    (o < g → ∃ t, exec (.waitoC c f) s = .next t ∧ OnlyCell s t c ∧ t.cell c = (s.atIssue c).issued s.cycle (g - o)) ∧
    (g ≤ o → ∃ t, exec (.waitoC c f) s = .next t ∧ t.cell c = (s.atIssue c).stopped 0x05 s.cycle)) ∧
  (∀ (c : CellId) (f : Ctl) (s : State), CellReady s c f.en → f.en.pred = 0 → f.en.sense = false →
    f.rsvHi = 0 → f.ra = 0 → f.rsvMid = 0 → f.lo = 0 → (s.atIssue c).loop = none →
    ∃ t, exec (.stependC c f) s = .next t ∧ OnlyCell s t c ∧
      t.cell c = { (s.atIssue c).issued s.cycle 1 with stepEnd := true } ∧ t.canIssue c = false)

/-- A LOOP header starts a command with its counters at zero; a body with control words is illegal. Formalises R112. -/
def Obligations.LoopHeadersStartCommands : Prop :=
  ∀ (c : CellId) (f : LoopF) (s : State), CellReady s c f.en → f.legal = true → (s.atIssue c).loop = none →
    let x := s.atIssue c
    let b := x.bank (s.bankOf c)
    let n := f.body.toNat + 1
    let bad := ∃ j, j < n ∧ (look 0#64 b.words (x.pc + 1 + j)).toNat / 2 ^ 58 ∈ [0x22, 0x23, 0x24]
    (x.pc + n ≤ 8191 → ¬ bad →
      ∃ t, exec (.loopC c f) s = .next t ∧ OnlyCell s t c ∧
        t.cell c = { x.issued s.cycle 1 with lc := [], loop := some {
          h := x.pc, n, d := f.depth.toNat + 1, trip0 := f.trip0.toNat + 1, trip1 := f.trip1.toNat + 1
          trip2 := f.trip2.toNat + 1, trip3 := f.trip3.toNat + 1, en := true } }) ∧
    (8191 < x.pc + n → ∃ t, exec (.loopC c f) s = .next t ∧ t.cell c = x.stopped 0x07 s.cycle) ∧
    (x.pc + n ≤ 8191 → bad → ∃ t, exec (.loopC c f) s = .next t ∧ t.cell c = x.stopped 0x10 s.cycle)

/-- Vector instructions deliver their lane results and their results to scalar registers. Rests on Table 4.2, Table 4.4,
Table 4.8, Table 4.9, R96, R108, Table 4.5, R102, R103. -/
def Obligations.VectorResults : Prop :=
  ((∀ e ∈ laneRows ++ cvtRows, ∀ (c : CellId) (f : VecF) (s : State), CellReady s c f.en → e.legal f = true →
    (s.atIssue c).vecFree ≤ s.cycle →
    ∃ t, exec (e.ctor c f) s = .next t ∧ OnlyCell s t c ∧
      t.cell c = withResult { (s.atIssue c).issued s.cycle 1 with vecFree := s.cycle + e.occ, vecEn := true } s.cycle e.lat
        (.v f.vd.toNat (lanesOf (s.atIssue c) f.lm (e.val s c (s.atIssue c) f)))) ∧
  (∀ (c : CellId) (f : VecF) (s : State), CellReady s c f.en → f.noCBc = true → (s.atIssue c).vecFree ≤ s.cycle →
    let x := s.atIssue c
    let l := (x.readG f.vb.toNat).toNat % 64
    let y := { x.issued s.cycle 1 with vecFree := s.cycle + 1, vecEn := true }
    ∃ t, exec (.vinsB32 c f) s = .next t ∧ OnlyCell s t c ∧
      t.cell c = if sel x f.lm l then
          withResult y s.cycle 2 (.v f.vd.toNat [(l, BitVec.ofNat 32 (x.readG f.va.toNat).toNat)])
        else y)) ∧
  (∀ e ∈ toGRows, ∀ (c : CellId) (f : VecF) (s : State), CellReady s c f.en → e.2.2.1 f = true →
    (s.atIssue c).vecFree ≤ s.cycle →
    ∃ t, exec (e.1 c f) s = .next t ∧ OnlyCell s t c ∧
      t.cell c = withResult { (s.atIssue c).issued s.cycle 1 with vecFree := s.cycle + 1, vecEn := true } s.cycle e.2.1
        (.g f.vd.toNat (BitVec.ofNat 64 (e.2.2.2 (s.atIssue c) f))))

/-- Vector loads, stores, gathers and scatters take their port cycles or fault at issue. Formalises R105. -/
def Obligations.VectorMemoryIssue : Prop :=
  (∀ (c : CellId) (f : VecF) (s : State), CellReady s c f.en → f.memPlain = true → f.vb = 0 →
    let x := s.atIssue c
    x.vecFree ≤ s.cycle → portFree x (s.cycle + 2) 1 1 →
    let y := { x.issued s.cycle 1 with vecFree := s.cycle + 1, vecEn := true }
    (∀ ea : Nat, ofsAddr x f = ea → ea < 1572864 → 256 ∣ ea →
      (∃ t m, exec (.vldL c f) s = .next t ∧ OnlyCell s t c ∧ (∀ l, l < 64 → BitVec.getLsbD m l = sel x f.lm l) ∧
        t.cell c = withPort y (s.cycle + 2) 1 1 s.cycle (.vld f.vd.toNat m ea)) ∧
      (∃ t m, exec (.vstL c f) s = .next t ∧ OnlyCell s t c ∧ (∀ l, l < 64 → BitVec.getLsbD m l = sel x f.lm l) ∧
        t.cell c = withPort y (s.cycle + 2) 1 1 s.cycle (.vst m ea ((List.range 64).map (fun l => x.lane f.vd.toNat l))))) ∧
    (∀ ctor ∈ ([.vldL, .vstL] : List (CellId → VecF → Instr)),
      (ofsAddr x f < 0 ∨ 1572864 ≤ ofsAddr x f →
        ∃ t, exec (ctor c f) s = .next t ∧ t.cell c = x.stopped 0x02 s.cycle) ∧
      (0 ≤ ofsAddr x f → ofsAddr x f < 1572864 → ¬ (256 : Int) ∣ ofsAddr x f →
        ∃ t, exec (ctor c f) s = .next t ∧ t.cell c = x.stopped 0x03 s.cycle))) ∧
  (∀ ctor ∈ ([.vldL, .vstL] : List (CellId → VecF → Instr)), ∀ (c : CellId) (f : VecF) (s : State), CellReady s c f.en →
    f.memPlain = true → f.vb = 0 → (s.atIssue c).vecFree ≤ s.cycle → ¬ portFree (s.atIssue c) (s.cycle + 2) 1 1 →
    0 ≤ ofsAddr (s.atIssue c) f → ofsAddr (s.atIssue c) f < 1572864 → (256 : Int) ∣ ofsAddr (s.atIssue c) f →
    ∃ t, exec (ctor c f) s = .next t ∧ t.cell c = (s.atIssue c).stopped 0x11 s.cycle) ∧
  (∀ e ∈ laneMemRows, ∀ (c : CellId) (f : VecF) (s : State), CellReady s c f.en → f.memPlain = true →
    let x := s.atIssue c
    let a (l : Nat) : Int := ofsAddr x f + e.2.1 * (x.lane f.vb.toNat l).toNat
    let good := ∀ l, l < 64 → sel x f.lm l = true → 0 ≤ a l ∧ a l < 1572864 ∧ (e.2.1 : Int) ∣ a l
    let lanes := (List.range 64).filter (fun l => sel x f.lm l)
    x.vecFree ≤ s.cycle → portFree x (s.cycle + 2) 1 4 →
    (good → ∃ t, exec (e.1 c f) s = .next t ∧ OnlyCell s t c ∧
      t.cell c = withPort { x.issued s.cycle 1 with vecFree := s.cycle + 4, vecEn := true } (s.cycle + 2) 1 4 s.cycle
        (if e.2.2 then .scatter e.2.1 (lanes.map (fun l => (l, (a l).toNat, x.lane f.vd.toNat l)))
         else .gather e.2.1 f.vd.toNat (lanes.map (fun l => (l, (a l).toNat))) [])) ∧
    (¬ good → ∃ t, exec (e.1 c f) s = .next t ∧ t.cell c = x.stopped 0x12 s.cycle))

/-- A port access: a vector load takes its lanes, a store, scatter or output line writes exactly its bytes. Rests on R60,
R96, R97, R106, R107, Table 6.10. -/
def Obligations.PortAccessesMoveData : Prop :=
  ∀ (c : CellId) (ecc : EccW) (s : State) (o : PortOp),
    let x := s.cell c
    let m := x.store s.cycle
    let j := o.done
    x.port = [o] → o.start + o.step * j ≤ s.dueBound c → o.act ≠ .idle → eccBad ecc (o.act.words j).length = none → j < o.count →
    (∀ w ∈ x.csw, w.cyc < s.cycle) →
    ∃ t, exec (.vectorPortAccess c ecc) s = .next t ∧ OnlyCell s t c ∧
      (let y := t.cell c
       let new := y.store (s.cycle + 1)
       (o.count ≤ j + 1 → y.port = []) ∧ y.sdm = x.sdm ∧ y.g = x.g ∧ y.v = x.v ∧ y.acc = x.acc ∧
       (∀ vd mask ea, o.act = .vld vd mask ea →
         y.pend = x.pend ++ [{ due := o.start + o.step * j + 2, issued := o.issued, w := (.v vd
           (((List.range 64).filter (fun l => mask.getLsbD l)).map (fun l => (l, BitVec.ofNat 32 (Mem.le m (ea + 4 * l) 4))))) }]
         ∧ ∀ b, Mem.byte new b = Mem.byte m b) ∧
       (∀ mask ea data, o.act = .vst mask ea data → y.pend = x.pend ∧
         (∀ l i, l < 64 → i < 4 → mask.getLsbD l = true →
           Mem.byte new (ea + 4 * l + i) = BitVec.ofNat 8 ((data.getD l 0).toNat / 256 ^ i)) ∧
         (∀ b, (∀ l, l < 64 → mask.getLsbD l = true → b < ea + 4 * l ∨ ea + 4 * l + 4 ≤ b) → Mem.byte new b = Mem.byte m b)) ∧
       (∀ n ls, o.act = .scatter n ls → y.pend = x.pend ∧
         (∀ b, (∀ e ∈ ls, e.1 / 16 = j → b < e.2.1 ∨ e.2.1 + n ≤ b) → Mem.byte new b = Mem.byte m b) ∧
         (∀ l1 e l2 i, ls = l1 ++ e :: l2 → e.1 / 16 = j → i < n →
           (∀ e' ∈ l2, e'.1 / 16 = j → e.2.1 + i < e'.2.1 ∨ e'.2.1 + n ≤ e.2.1 + i) →
           Mem.byte new (e.2.1 + i) = BitVec.ofNat 8 (e.2.2.toNat / 256 ^ i))) ∧
       (∀ n vd ls got, o.act = .gather n vd ls got →
         (let got' := got ++ (ls.filter (fun e => decide (e.1 / 16 = j))).map (fun e => (e.1, BitVec.ofNat 32 (Mem.le m e.2 n)))
          (∀ b, Mem.byte new b = Mem.byte m b) ∧
          (j = 3 → y.pend = x.pend ++ [{ due := o.start + o.step * j + 3, issued := o.issued, w := .v vd got' }]) ∧
          (j ≠ 3 → j + 1 < o.count → y.pend = x.pend ∧ y.port = [{ o with done := j + 1, act := .gather n vd ls got' }]))) ∧
       (∀ wb ea, o.act = .mlw wb ea →
         y.wlines = x.wlines ++ [{ due := o.start + o.step * j + 1, wb, j, line := Mem.line m (ea + 256 * j) }] ∧
         ∀ b, Mem.byte new b = Mem.byte m b) ∧
       (∀ ea, o.act = .mma ea → (∀ b, Mem.byte new b = Mem.byte m b) ∧
         y.mma = x.mma.map (fun q =>
           if q.issued = o.issued then { q with xs := put 0#2048 q.xs j (Mem.line m (ea + 256 * j)) } else q)) ∧
       (∀ ea, o.act = .maddx ea → (∀ b, Mem.byte new b = Mem.byte m b) ∧
         y.maddx = x.maddx.map (fun q =>
           if q.issued = o.issued then { q with lines := put 0#2048 q.lines j (Mem.line m (ea + 256 * j)) } else q)) ∧
       (∀ ea q, o.act = .accOut ea → q ∈ x.accOut → (∀ q' ∈ x.accOut, q'.issued = o.issued → q' = q) → q.issued = o.issued →
         (∀ i, i < 256 → Mem.byte new (ea + 256 * j + i) = BitVec.ofNat 8 ((look 0#2048 q.lines j).toNat / 256 ^ i)) ∧
         (∀ b, b < ea + 256 * j ∨ ea + 256 * j + 256 ≤ b → Mem.byte new b = Mem.byte m b)))

/-- Matrix instructions hold their engine and port cycles and read their operands at issue. Rests on R147, R156, R158,
R159, Table 6.10. -/
def Obligations.MatrixIssue : Prop :=
  (∀ (c : CellId) (f : MlwF) (s : State), CellReady s c f.en → f.legal = true →
    let x := s.atIssue c
    let n := tileLines f.wfmt.toNat f.wmx
    let a := (x.agen f.ag.toNat).addr.toNat
    x.wleFree ≤ s.cycle → portFree x (s.cycle + 2) 2 n → linesFit x f.ag n → (x.arrFree ≤ s.cycle ∨ x.arrBuf ≠ f.wb) →
    ∃ t, exec (.mlw c f) s = .next t ∧ OnlyCell s t c ∧
      t.cell c = withPort { (x.issued s.cycle 1) with
          wleFree := s.cycle + 2 * n, wleEn := true, wleBuf := f.wb
          tagSets := x.tagSets.filter (fun w => w.wb != f.wb) ++ [{ due := s.cycle + 2 * n + 1, wb := f.wb, tag := ⟨f.wfmt.toNat, f.wmx⟩ }]
          wb0 := if f.wb then x.wb0 else { x.wb0 with tag := none }
          wb1 := if f.wb then { x.wb1 with tag := none } else x.wb1 } (s.cycle + 2) 2 n s.cycle (.mlw f.wb a)) ∧
  (∀ (c : CellId) (f : MmaF) (ecc : EccW) (s : State), CellReady s c f.en → f.legal = true →
    let x := s.atIssue c
    let rows := f.rows.toNat + 1
    let n := rowLines f.afmt.toNat rows
    let per := rowPeriod f.afmt.toNat f.wfmt.toNat
    let step := if rowsPerLine f.afmt.toNat = 0 then per / 2 else per * rowsPerLine f.afmt.toNat
    let w := if f.wb then x.wb1 else x.wb0
    x.arrFree ≤ s.cycle → portFree x (s.cycle + 2) step n → linesFit x f.ag n →
    (x.wleFree ≤ s.cycle ∨ x.wleBuf ≠ f.wb) → w.tag = some ⟨f.wfmt.toNat, f.wmx⟩ →
    ∃ t, exec (.mma c f ecc) s = .next t ∧ OnlyCell s t c ∧
      t.cell c = withPort { (x.issued s.cycle 1) with
          arrFree := s.cycle + per * rows, arrEn := true, arrBuf := f.wb
          mma := x.mma ++ [{ issued := s.cycle, f, sA := (List.range 64).map (fun l => x.lane f.vs.toNat l), w, xs := []
                             landed := 0, wecc := ecc }] }
        (s.cycle + 2) step n s.cycle (.mma (x.agen f.ag.toNat).addr.toNat)) ∧
  (∀ (c : CellId) (f : McvtF) (s : State), CellReady s c f.en → f.legal = true →
    let x := s.atIssue c
    let n := rowLines f.ofmt.toNat (f.rows.toNat + 1)
    x.accFree ≤ s.cycle → portFree x (s.cycle + 6) 2 n → linesFit x f.ag n →
    ∃ t, exec (.mcvt c f) s = .next t ∧ OnlyCell s t c ∧
      t.cell c = withPort { (x.issued s.cycle 1) with
          accFree := s.cycle + 2 * n, accEn := true
          accOut := x.accOut ++ [{ issued := s.cycle
                                   kind := (.cvt f.ofmt.toNat f.rm.toNat f.sat f.accf (BitVec.setWidth 8 (x.readG f.rs.toNat)).toInt)
                                   clr := f.clr, acc := f.acc.toNat, rows := f.rows.toNat + 1, reads := 0, lines := [] }] }
        (s.cycle + 6) 2 n s.cycle (.accOut (x.agen f.ag.toNat).addr.toNat)) ∧
  (∀ (c : CellId) (f : MaccF) (s : State), CellReady s c f.en → f.legal = true →
    let x := s.atIssue c
    let n := 33 * ((f.rows.toNat + 1) / 4)
    x.accFree ≤ s.cycle → linesFit x f.ag n →
    (portFree x (s.cycle + 6) 2 n → ∃ t, exec (.mstxX128 c f) s = .next t ∧ OnlyCell s t c ∧
      t.cell c = withPort { (x.issued s.cycle 1) with
          accFree := s.cycle + 2 * n, accEn := true
          accOut := x.accOut ++ [{ issued := s.cycle, kind := .raw, clr := f.opt, acc := f.acc.toNat
                                   rows := f.rows.toNat + 1, reads := 0, lines := [] }] }
        (s.cycle + 6) 2 n s.cycle (.accOut (x.agen f.ag.toNat).addr.toNat)) ∧
    (portFree x (s.cycle + 2) 2 n → ∃ t, exec (.maddxX128 c f) s = .next t ∧ OnlyCell s t c ∧
      t.cell c = withPort { (x.issued s.cycle 1) with
          accFree := s.cycle + 2 * n, accEn := true
          maddx := x.maddx ++ [{ issued := s.cycle, z := f.opt, acc := f.acc.toNat, rows := f.rows.toNat + 1, lines := []
                                 landed := 0 }] }
        (s.cycle + 2) 2 n s.cycle (.maddx (x.agen f.ag.toNat).addr.toNat))) ∧
  (∀ (c : CellId) (f : MaccF) (s : State), CellReady s c f.en → f.legalClr = true → (s.atIssue c).accFree ≤ s.cycle →
    ∃ t, exec (.mclrX128 c f) s = .next t ∧ OnlyCell s t c ∧
      t.cell c = { (s.atIssue c).issued s.cycle 1 with
        accFree := s.cycle + 1, accEn := true
        mclr := (s.atIssue c).mclr ++ [{ due := s.cycle + 2, acc := f.acc.toNat, rows := f.rows.toNat + 1 }] })

/-- Weight lines, tags, cleared rows, MADDX groups, MMA rows and accumulator row reads reach their stores: all that is due of
lines, tags and cleared rows at once, of groups, rows and reads the first due, the accumulator engine's before an MMA's (R156).
Rests on R148, R150, R151, R153, R154, R156, Table 6.10. -/
def Obligations.MatrixUnitsLand : Prop :=
  (∀ (c : CellId) (s : State), ∃ t, exec (.weightLineWrite c) s = .next t ∧ OnlyCell s t c ∧
    (let x := s.cell c
     let y := t.cell c
     let due (w : WLine) : Prop := w ∈ x.wlines ∧ w.due ≤ s.dueBound c
     y = { x with wb0 := y.wb0, wb1 := y.wb1, wlines := x.wlines.filter (fun w => decide (s.dueBound c < w.due)) } ∧
     (∀ b, (y.wbuf b).tag = (x.wbuf b).tag) ∧
     (∀ w, due w → (∀ w', due w' → w'.wb = w.wb → w'.j = w.j → w'.line = w.line) →
       look 0#2048 (y.wbuf w.wb).lines w.j = w.line) ∧
     (∀ b j, (∀ w, due w → w.wb = b → w.j ≠ j) → look 0#2048 (y.wbuf b).lines j = look 0#2048 (x.wbuf b).lines j))) ∧
  (∀ (c : CellId) (s : State), ∃ t, exec (.weightTagSet c) s = .next t ∧ OnlyCell s t c ∧
    (let x := s.cell c
     let y := t.cell c
     let due (g : TagSet) : Prop := g ∈ x.tagSets ∧ g.due ≤ s.dueBound c
     y = { x with wb0 := y.wb0, wb1 := y.wb1, tagSets := x.tagSets.filter (fun g => decide (s.dueBound c < g.due)) } ∧
     (∀ b, (y.wbuf b).lines = (x.wbuf b).lines) ∧
     (∀ g, due g → (∀ g', due g' → g'.wb = g.wb → g'.tag = g.tag) → (y.wbuf g.wb).tag = some g.tag) ∧
     (∀ b, (∀ g, due g → g.wb ≠ b) → (y.wbuf b).tag = (x.wbuf b).tag))) ∧
  (∀ (c : CellId) (s : State), ∃ t, exec (.mclrZeroing c) s = .next t ∧ OnlyCell s t c ∧
    (let x := s.cell c
     let y := t.cell c
     y = { x with acc := y.acc, mclr := x.mclr.filter (fun o => decide (s.dueBound c < o.due)) } ∧
     ∀ r n, n < 128 →
       ((∃ o ∈ x.mclr, o.due ≤ s.dueBound c ∧ o.acc ≤ r ∧ r < o.acc + o.rows) → look ({} : AccEntry) y.acc (128 * r + n) = {}) ∧
       ((∀ o ∈ x.mclr, o.due ≤ s.dueBound c → r < o.acc ∨ o.acc + o.rows ≤ r) →
         look ({} : AccEntry) y.acc (128 * r + n) = look {} x.acc (128 * r + n)))) ∧
  (∀ (c : CellId) (ecc : EccW) (s : State) (l1 l2 : List Maddx) (o : Maddx), (s.cell c).maddx = l1 ++ o :: l2 →
    (∀ q ∈ l1, s.dueBound c < Maddx.due q) → Maddx.due o ≤ s.dueBound c → (∀ q ∈ l1 ++ l2, q.issued ≠ o.issued) →
    (∀ q ∈ (s.cell c).accOut, AccOut.readDue q (s.dueBound c) = false) → o.z = true ∨ eccBad ecc 1024 = none →
    ∃ t, exec (.maddxGroupLanding c ecc) s = .next t ∧ OnlyCell s t c ∧
      (let x := s.cell c
       let y := t.cell c
       y = { x with acc := y.acc, maddx := y.maddx } ∧
       (4 * o.landed + 4 < o.rows → (∀ q ∈ l1 ++ l2, 4 * q.landed < q.rows) →
         y.maddx = l1 ++ { o with landed := o.landed + 1 } :: l2) ∧
       (o.rows ≤ 4 * o.landed + 4 → (∀ q ∈ l1 ++ l2, 4 * q.landed < q.rows) → y.maddx = l1 ++ l2) ∧
       (∀ i n, i < 4 → n < 128 → look ({} : AccEntry) y.acc (128 * (o.acc + 4 * o.landed + i) + n) =
         landX128 (look {} x.acc (128 * (o.acc + 4 * o.landed + i) + n)) o.z
           (signedN (lineBits o.lines (2048 * (33 * o.landed + 8 * i) + 128 * n) 128) 128)
           (BitVec.ofNat 4 (lineBits o.lines (2048 * (33 * o.landed + 32) + 512 * i + 4 * n) 4))) ∧
       (∀ r n, n < 128 → r < o.acc + 4 * o.landed ∨ o.acc + 4 * o.landed + 4 ≤ r →
         look ({} : AccEntry) y.acc (128 * r + n) = look {} x.acc (128 * r + n)))) ∧
  (∀ (c : CellId) (ecc : EccW) (s : State) (l1 l2 : List MmaOp) (o : MmaOp), (s.cell c).mma = l1 ++ o :: l2 →
    (∀ q ∈ l1, s.dueBound c < MmaOp.due q) → MmaOp.due o ≤ s.dueBound c → (∀ q ∈ l1 ++ l2, q.issued ≠ o.issued) →
    (s.cell c).engineDue (s.dueBound c) = false → o.f.z = true ∨ eccBad ecc 256 = none →
    ∃ t, exec (.mmaRowLanding c ecc) s = .next t ∧ OnlyCell s t c ∧
      (let x := s.cell c
       let y := t.cell c
       y = { x with acc := y.acc, mma := y.mma } ∧
       (o.landed < o.f.rows.toNat → (∀ q ∈ l1 ++ l2, q.landed ≤ q.f.rows.toNat) →
         y.mma = l1 ++ { o with landed := o.landed + 1 } :: l2) ∧
       (o.f.rows.toNat ≤ o.landed → (∀ q ∈ l1 ++ l2, q.landed ≤ q.f.rows.toNat) → y.mma = l1 ++ l2) ∧
       (∀ n, n < 128 → look ({} : AccEntry) y.acc (128 * (o.f.acc.toNat + o.landed) + n) =
         (let e := look ({} : AccEntry) x.acc (128 * (o.f.acc.toNat + o.landed) + n)
          if o.f.afmt = 8 ∨ o.f.afmt = 9 then landFp32 e o.f.z (fpBlock o.f o.w.lines o.xs o.landed n)
          else landX128 e o.f.z (x128Term o.f o.sA o.w.lines o.xs o.landed n).1
            (x128Term o.f o.sA o.w.lines o.xs o.landed n).2)) ∧
       (∀ r n, n < 128 → r ≠ o.f.acc.toNat + o.landed →
         look ({} : AccEntry) y.acc (128 * r + n) = look {} x.acc (128 * r + n)))) ∧
  (∀ (c : CellId) (ecc : EccW) (s : State) (l1 l2 : List AccOut) (o : AccOut), (s.cell c).accOut = l1 ++ o :: l2 →
    (∀ q ∈ l1, AccOut.readDue q (s.dueBound c) = false) → AccOut.readDue o (s.dueBound c) = true →
    (∀ q ∈ l1 ++ l2, q.issued ≠ o.issued) →
    let k := match o.kind with
      | .cvt ofmt _ _ _ _ => max 1 (rowsPerLine ofmt)
      | .raw => 1
    eccBad ecc (256 * k) = none →
    ∃ t o', exec (.accRowRead c ecc) s = .next t ∧ OnlyCell s t c ∧
      (let x := s.cell c
       let y := t.cell c
       y = { x with acc := y.acc, accOut := l1 ++ o' :: l2 } ∧ o' = { o with reads := o.reads + 1, lines := o'.lines } ∧
       (o.kind = .raw → ∀ i, i < 8 → look 0#2048 o'.lines (33 * (o.reads / 4) + 8 * (o.reads % 4) + i) =
         BitVec.ofNat 2048 (rawRow x.acc (o.acc + o.reads) / 2 ^ (2048 * i))) ∧
       (∀ r n, n < 128 → look ({} : AccEntry) y.acc (128 * r + n) =
         if o.clr = true ∧ o.acc + k * o.reads ≤ r ∧ r < o.acc + k * o.reads + k then {} else look {} x.acc (128 * r + n))))

/-- Results land in landing order; zero registers keep their constants. Formalises R67. -/
def Obligations.ResultsLandInOrder : Prop :=
  ∀ (c : CellId) (s : State),
    (∀ q ∈ (s.cell c).pend, ∀ r ls, q.w = .v r ls → ∀ e ∈ ls, e.1 < 64) →
    ∃ t, exec (.resultLanding c) s = .next t ∧ OnlyCell s t c ∧
      (let x := s.cell c
       let y := t.cell c
       let b := s.landBound c
       y = { x with g := y.g, p := y.p, v := y.v, ag := y.ag, pend := x.pend.filter (fun q => decide (b < q.due)) } ∧
       y.readG 0 = 0 ∧ y.readP 0 = true ∧
       (∀ r q v, r ≠ 0 → LandsLast x.pend b (fun w => (gWrite w r).isSome) q → gWrite q.w r = some v → y.readG r = v) ∧
       (∀ r, (∀ q ∈ x.pend, q.due ≤ b → gWrite q.w r = none) → y.readG r = x.readG r) ∧
       (∀ r q v, r ≠ 0 → LandsLast x.pend b (fun w => (pWrite w r).isSome) q → pWrite q.w r = some v → y.readP r = v) ∧
       (∀ r, (∀ q ∈ x.pend, q.due ≤ b → pWrite q.w r = none) → y.readP r = x.readP r) ∧
       (∀ r l q v, l < 64 → LandsLast x.pend b (fun w => (vWrite w r l).isSome) q → vWrite q.w r l = some v → y.lane r l = v) ∧
       (∀ r l, l < 64 → (∀ q ∈ x.pend, q.due ≤ b → vWrite q.w r l = none) → y.lane r l = x.lane r l))

/-- The end of an iteration advances the lowest level that has trips left and steps all generators. Formalises R117. -/
def Obligations.LoopIterationsStep : Prop :=
  ∀ (c : CellId) (s : State) (l : LoopSt),
    let x := s.cell c
    x.loop = some l → x.pc = l.h + 1 + l.n → 0 < x.issueFree → x.issueFree ≤ s.landBound c + 1 →
    (∀ q ∈ x.pend, x.issueFree ≤ q.due) → 1 ≤ l.d → l.d ≤ 4 →
    ∃ t, exec (.loopIterationEnd c) s = .next t ∧ OnlyCell s t c ∧
      (let y := t.cell c
       let left (k : Nat) : Prop := k < l.d ∧ look 0 x.lc k + 1 < l.trip k
       y.g = x.g ∧ y.p = x.p ∧ y.v = x.v ∧ y.sdm = x.sdm ∧ y.cs = x.cs ∧ y.csw = x.csw ∧ y.acc = x.acc ∧ y.pend = x.pend ∧
       (∀ L, left L → (∀ k, k < L → ¬ left k) →
         y.pc = l.h + 1 ∧ y.loop = some l ∧
         (∀ k, look 0 y.lc k = if k < L then 0 else if k = L then look 0 x.lc k + 1 else look 0 x.lc k) ∧
         (∀ g, g < 16 → y.agen g = (x.agen g).move ((x.agen g).inc L))) ∧
       ((∀ k, ¬ left k) →
         y.pc = l.h + l.n + 1 ∧ y.loop = none ∧ y.lc = [] ∧
         (∀ g, g < 16 → y.agen g = (x.agen g).move ((x.agen g).inc (l.d - 1)))))

/-- An instruction that is not enabled writes no register and no memory. Formalises R82. -/
def Obligations.DisabledInstructionsOnlyTakeTime : Prop :=
  ∀ (i : Instr) (c : CellId) (w : Word) (s : State), i.cellWord = some (c, w, .ok) →
    s.canIssue c = true → (s.atIssue c).pc ≤ 8191 → (s.atIssue c).enabled (enOf w .ok) = false →
    ∃ t, exec i s = .next t ∧ SameContents (s.atIssue c) (t.cell c) ∧ (∀ k, k ≠ c → t.cell k = s.cell k) ∧
      ((t.cell c).fault = (s.cell c).fault ∨ ∃ code, (t.cell c).fault = some ⟨code, s.cycle⟩ ∧
        code ∈ [0x01, 0x04, 0x05, 0x07, 0x10, 0x11])

/-- An illegal word, or a fetch past the bank, is a cell fault and has no effect. Formalises R83. -/
def Obligations.IllegalWordsStopTheCell : Prop :=
  ∀ (i : Instr) (c : CellId) (w : Word) (s : State), i.cellWord = some (c, w, .ok) → s.canIssue c = true →
    ∀ code, ((s.atIssue c).pc ≤ 8191 ∧ wordLegal w = false ∧ code = 0x01) ∨ (8191 < (s.atIssue c).pc ∧ code = 0x07) →
    ∃ t, exec i s = .next t ∧ t.cell c = (s.atIssue c).stopped code s.cycle ∧ t.canIssue c = false ∧
      (∀ k, k ≠ c → t.cell k = s.cell k) ∧
      ((s.cell c).fault = none → ∃ r, t.raised = s.raised ++ [r] ∧ r.cls = .partition ∧ r.code = code ∧
        r.parts = (s.cellOwner c).toList ∧ r.unit = locCell c ∧ r.cycle = s.cycle)

/-- Decode and encode of cell instruction words agree for every cell instruction. Rests on Table 3.6, Table 3.8, Table
4.3, Table 4.11, Table 4.12, Table 6.6, Table 6.7, Table 6.8, Table 6.9. -/
def Obligations.CellWordsRoundTrip : Prop :=
  ∀ (i : Instr) (c : CellId) (w : Word) (e : Ecc), i.cellWord = some (c, w, e) → cellInstr c w e = some i

/-- The words that the spec writes out. Rests on 03_cell_scalar.md, 04_vector_and_loops.md, 06_matrix_engine.md. -/
def Obligations.ExampleWords : Prop :=
  (∀ c, cellInstr c 0x6008392000000000#64 .ok = some (.cltU64 c ⟨⟨0, false, .ok⟩, 4, 0, 7, 4, 0⟩)) ∧
  (∀ c, cellInstr c 0x914A400000000805#64 .ok = some (.loopC c ⟨⟨5, false, .ok⟩, 10, 1, 0, 0, 0, 1, 5⟩)) ∧
  (∀ c, cellInstr c 0xD402844D01F80000#64 .ok =
    some (.mma c ⟨⟨0, false, .ok⟩, 1, 8, 4, 4, true, true, false, true, 0, 63, 0⟩ [])) ∧
  (∀ c, cellInstr c 0#64 .ok = some (.nopC c 0 .ok)) ∧ wordLegal 0 = true

/-! ### Terms for the plan, the mesh and the serving state -/

namespace Sys2Proof.Stmt

open Sys2Proof.Machine

/-- The 256 bytes from `ea` spell the line, byte 0 in bits [7:0], and every other byte of `new` is that of `old`. -/
def LineWritten (old new : Mem) (ea : Nat) (l : Line) : Prop :=
  (∀ i, i < 256 → Mem.byte new (ea + i) = BitVec.ofNat 8 (l.toNat / 256 ^ i)) ∧
  (∀ j, j < ea ∨ ea + 256 ≤ j → Mem.byte new j = Mem.byte old j)

/-- One fault more is raised: of class `cls`, cause `code`, against `parts`. -/
def RaisedOne (s t : State) (cls : RClass) (code : Nat) (parts : List Nat) : Prop :=
  ∃ r, t.raised = s.raised ++ [r] ∧ r.cls = cls ∧ r.code = code ∧ r.parts = parts ∧ r.cycle = s.cycle

/-- Every cell of partition `p`'s blocks that carries a code position, other partitions' cells aside, is past STEPEND.C with
nothing in flight (R73). -/
def StepsEnded (s : State) (p : Nat) : Prop :=
  ∀ c ∈ s.codeCells p, s.unstopped c = false ∨ ((s.cell c).stepEnd = true ∧ (s.cell c).busy s.cycle = false)

/-- No open write count of partition `p` at a stack or the cold frame (R197). -/
def NoOpenCounts (s : State) (p : Nat) : Prop :=
  (∀ k, k < 12 → ∀ e ∈ (s.stack k).opens, e.1 / 16 ≠ p) ∧ ∀ e ∈ s.cold.opens, e.1 / 16 ≠ p

/-- An event of kind `kind` about partition `p` reaches the partition's function when its event ring takes one (R464). -/
def Notified (s t : State) (kind p : Nat) (args : List Nat) : Prop :=
  s.mgmtDown = false → (s.ring (p + 1) 0 2).enable = true → (s.ring (p + 1) 0 2).free = true →
    ∃ e, Sent.event (p + 1) 0 e ∈ t.out ∧ e.kind = kind ∧ e.part = p ∧ e.args = args

/-- The completion for command `h` of opcode `op` is not discarded and its ring takes it (R452, R456, R460). -/
def Listening (s : State) (h : Hdr) (op : Nat) : Prop :=
  (h, op) ∉ s.mute ∧ (h.fn = 17 ∨ (s.ring h.fn h.set 1).enable = true)

end Sys2Proof.Stmt

/-- A live beat at a crossbar input leaves four cycles later on every output its row pairs with it. Rests on R162, R163,
R165. -/
def Obligations.CrossbarPairsBeats : Prop :=
  ∀ (b p : Nat) (s : State) (h : Hop) (row : BitVec 128),
    (s.block b).owner = some p → (s.part p).st = .running → (s.block b).xin = [h] → h.cyc ≤ s.cycle →
    (h.beat.sb.kind = 1 ∨ h.beat.sb.kind = 2) → s.blockRow b = some row →
    let outs := (List.range 24).filter (fun o => decide ((s.block b).feeds row o = some h.port))
    ∃ t, exec (.crossbarRow b .ok) s = .next t ∧
      t = { s with blocks := t.blocks, raised := t.raised } ∧ (∀ k, k ≠ b → t.block k = s.block k) ∧
      (outs ≠ [] → t.raised = s.raised ∧ t.block b = { s.block b with
        xin := [], xout := (s.block b).xout ++ outs.map (fun o => { cyc := s.cycle + 4, port := o, beat := h.beat }) }) ∧
      (outs = [] → RaisedOne s t .partition 0x32 [p] ∧ t.block b = { s.block b with xin := [] })

/-- A delivered beat writes one line of a cell store or block store, enters the router, or is refused. Formalises R164. -/
def Obligations.CrossbarDelivers : Prop :=
  ∀ (b p : Nat) (s : State) (h : Hop),
    (s.block b).owner = some p → (s.part p).st = .running → (s.block b).xout = [h] → h.cyc ≤ s.cycle → p < 16 → b < 64 →
    let sb := h.beat.sb
    let c := 32 * b + h.port
    let taken : Prop := sb.kind = 1 ∧ sb.part.toNat = p ∧ (sb.dkind = 0 ∨ sb.dkind = 2) ∧ sb.dblock.toNat = b ∧
      ∃ k, s.posOf c = some k ∧ sb.dmask.getLsbD k = true
    let taken' : Prop := sb.kind = 1 ∧ sb.part.toNat = p ∧ sb.dkind = 1 ∧ sb.dblock.toNat = b
    ∃ t, exec (.crossbarBeatDelivery b []) s = .next t ∧ (t.block b).xout = [] ∧
      (∀ k, k ≠ b → t.block k = s.block k) ∧ (∀ k, k ≠ c → t.cell k = s.cell k) ∧ t.stks = s.stks ∧ t.parts = s.parts ∧
      (h.port < 18 → taken → sb.dkind = 0 → sb.line.toNat < 6144 → (∀ w ∈ (s.cell c).csw, w.cyc < s.cycle) →
        t.raised = s.raised ∧
        LineWritten ((s.cell c).store s.cycle) ((t.cell c).store (s.cycle + 1)) (256 * sb.line.toNat) h.beat.data ∧
        (t.cell c).g = (s.cell c).g ∧ (t.cell c).sdm = (s.cell c).sdm) ∧
      (h.port < 18 → ¬ taken → RaisedOne s t .partition 0x32 [p] ∧ t.cell c = s.cell c) ∧
      (18 ≤ h.port → h.port < 22 → t.raised = s.raised ∧ (t.block b).rin = (s.block b).rin ++
        [{ cyc := s.cycle, port := h.port - 10, beat := h.beat }]) ∧
      (22 ≤ h.port → h.port < 24 → taken' → (∀ w ∈ (s.block b).bsw, w.cyc < s.cycle) →
        t.raised = s.raised ∧
        LineWritten ((s.block b).storeAt s.cycle) ((t.block b).storeAt (s.cycle + 1)) (256 * sb.line.toNat) h.beat.data) ∧
      (22 ≤ h.port → ¬ taken' → RaisedOne s t .partition 0x32 [p] ∧ (t.block b).store = (s.block b).store)

/-- A router sends a beat where its holder's row names it; another partition's beat is a lease violation. Formalises R189. -/
def Obligations.RouterForwardsBeats : Prop :=
  ∀ (b p o : Nat) (s : State) (h : Hop) (row : BitVec 128),
    (s.block b).rin = [h] → h.cyc ≤ s.cycle → (h.beat.sb.kind = 1 ∨ h.beat.sb.kind = 2) →
    (s.part h.beat.sb.part.toNat).st = .running → s.layerRows b = [(p, row)] → o < 20 → outExists b o = true →
    srcOf row o = h.port → (∀ o', o' < 20 → outExists b o' = true → srcOf row o' = h.port → o' = o) →
    s.outHolder b o s.fcyc = some p →
    ∃ t, exec (.routerRow b [] []) s = .next t ∧ t.cells = s.cells ∧ t.parts = s.parts ∧
      (h.beat.sb.part.toNat = p → t.raised = s.raised ∧
        (∀ n, o < 8 → neighbour b o = some n →
          (t.block n).rin = (if n = b then [] else (s.block n).rin) ++ [{ cyc := s.cycle + 3, port := farChan o, beat := h.beat }] ∧
          ∀ k, k ≠ b → k ≠ n → t.block k = s.block k) ∧
        (8 ≤ o → o < 12 → (t.block b).xin = (s.block b).xin ++ [{ cyc := s.cycle, port := o + 10, beat := h.beat }] ∧
          ∀ k, k ≠ b → t.block k = s.block k)) ∧
      (h.beat.sb.part.toNat ≠ p → RaisedOne s t .partition 0x33 [h.beat.sb.part.toNat] ∧
        (∀ k, k ≠ b → t.block k = s.block k) ∧ (t.block b).rin = [] ∧ (t.block b).xin = (s.block b).xin)

/-- A GO starts the descriptor under the cursor; each line is read and enters the crossbar a cycle later. Formalises R170. -/
def Obligations.BarrowsStartAndRead : Prop :=
  (∀ (b w p k : Nat) (s : State) (row : BitVec 128) (d : Desc),
    s.blockRow b = some row → row.getLsbD (122 + w) = true → (s.block b).owner = some p → w < 2 →
    ((s.block b).barrow w).cursor = some k →
    tblRow ((s.part p).barrowTbl (s.block b).vblock w (s.part p).ver) k = some d → d.pen = false → d.dstKind ≠ 2 → d.dstKind ≠ 3 →
    let y := (s.block b).barrow w
    ∃ t, exec (.barrowGo b w .ok .ok .ok) s = .next t ∧ t.cells = s.cells ∧ (∀ n, n ≠ b → t.block n = s.block n) ∧
      (t.block b).store = (s.block b).store ∧
      (s.cycle < y.busy → RaisedOne s t .partition 0x30 [p] ∧ t.block b = s.block b) ∧
      (y.busy ≤ s.cycle → (s.part p).moveOk d y.iter = false → RaisedOne s t .partition 0x31 [p] ∧
        ((t.block b).barrow w).moves = y.moves) ∧
      (y.busy ≤ s.cycle → (s.part p).moveOk d y.iter = true → t.raised = s.raised ∧
        ((t.block b).barrow w).busy = s.cycle + d.lines.toNat + 1 ∧
        ((t.block b).barrow w).moves = y.moves ++ [{ g := s.cycle, desc := d, iter := y.iter, done := 0 }] ∧
        ((t.block b).barrow w).iter = (if y.iter = d.rep.toNat then 0 else y.iter + 1))) ∧
  (∀ (b w p : Nat) (s : State) (m : Move),
    (s.block b).owner = some p → (s.part p).st = .running → w < 2 → ((s.block b).barrow w).moves = [m] →
    m.g + 1 + m.done ≤ s.cycle → m.desc.srcKind = 1 →
    ∃ t, exec (.barrowLine b w []) s = .next t ∧ t.cells = s.cells ∧ t.raised = s.raised ∧
      (t.block b).store = (s.block b).store ∧ (t.block b).bsw = (s.block b).bsw ∧ (∀ n, n ≠ b → t.block n = s.block n) ∧
      (t.block b).xin = (s.block b).xin ++ [{ cyc := s.cycle + 1, port := 22 + w, beat := {
        sb := (s.part p).dataSb p b m.desc m.iter m.done
        data := Mem.line ((s.block b).storeAt s.cycle) (srcAddr m.desc m.iter m.done).toNat } }] ∧
      ((t.block b).barrow w).moves = (if m.done < m.desc.lines.toNat then [{ m with done := m.done + 1 }] else []))

/-- A load writes its lines one a cycle in the cycles its image leases for it; when all are written its banks are VALID exactly
when each has the digest that its section gives. Rests on R75, R79, R80, R407. -/
def Obligations.PlanSectionLoadsEnd : Prop :=
  (∀ (p : Nat) (s : State) (l : BankLoad), (s.part p).bankLoad = some l → 257 * l.secs.length ≤ l.done →
    let good : Bool := l.secs.all (fun x => (s.cellAt p x.unit (x.sub % 16)).elim false (fun c =>
      decide (Bank.digest ((s.cell c).bank l.bank) = x.digest)))
    ∃ t, exec (.instructionLoadComplete p) s = .next t ∧
      (t.part p).bankLoad = none ∧ (t.part p).bankStatus = (if good then .done else .failed) ∧
      (t.part p).bankAct = (s.part p).bankAct ∧
      (l.bank = true → (t.part p).bankCode0 = (s.part p).bankCode0) ∧ (l.bank = false → (t.part p).bankCode1 = (s.part p).bankCode1) ∧
      (good = false → (t.part p).bankCode0 = (s.part p).bankCode0 ∧ (t.part p).bankCode1 = (s.part p).bankCode1) ∧
      (∀ q, q ≠ p → t.part q = s.part q) ∧
      (∀ c, (t.cell c).bank (!l.bank) = (s.cell c).bank (!l.bank) ∧ SameContents (s.cell c) (t.cell c) ∧
        ((t.cell c).bank l.bank).words = ((s.cell c).bank l.bank).words ∧
        ((t.cell c).bank l.bank).entry = ((s.cell c).bank l.bank).entry ∧
        ((t.cell c).bank l.bank).valid = if c ∈ s.loadCells p l then good else ((s.cell c).bank l.bank).valid)) ∧
  (∀ (p : Nat) (s : State), (∀ l, (s.part p).bankLoad = some l → l.done < 257 * l.secs.length) →
    exec (.instructionLoadComplete p) s = .next s) ∧
  (∀ (p : Nat) (s : State) (l : BankLoad) (x : Section) (words : SMap Word) (entry : List Nat) (c : Nat),
    (s.part p).bankLoad = some l → l.done < 257 * l.secs.length → s.loadSlot p = true → l.secs[l.done / 257]? = some x →
    x.data = .cellCode words entry → s.cellAt p x.unit (x.sub % 16) = some c →
    let t := s.loadStep p
    (t.part p).bankLoad = some { l with done := l.done + 1 } ∧ (∀ q, q ≠ p → t.part q = s.part q) ∧
      (∀ k, SameContents (s.cell k) (t.cell k) ∧ (t.cell k).bank (!l.bank) = (s.cell k).bank (!l.bank)) ∧
      (l.done = 0 → ((t.cell c).bank l.bank).valid = false) ∧
      (l.done % 257 < 256 → ∀ j, look 0#64 ((t.cell c).bank l.bank).words j =
        if 32 * (l.done % 257) ≤ j ∧ j < 32 * (l.done % 257) + 32 then look 0#64 words j
        else look 0#64 ((s.cell c).bank l.bank).words j) ∧
      (l.done % 257 = 256 → ∀ k, k < 8 → look 0 ((t.cell c).bank l.bank).entry k = entry.getD k 0))

/-- A plan cycle ends: the module's cycle and every running partition's plan time advance by one. Formalises R21. -/
def Obligations.PlanCycleAdvances : Prop :=
  ∀ (lags : List (Nat × Nat)) (s : State), SMap.wf Part.zero s.parts = true →
    ∃ t, exec (.sequencerEntry lags) s = .next t ∧ t.cycle = s.cycle + 1 ∧
      ∀ p, t.part p = { s.part p with
          planTime := if (s.part p).st = .running then (s.part p).planTime + 1 else (s.part p).planTime
          bankLoad := (t.part p).bankLoad } ∧
        ((s.part p).bankLoad = none → (t.part p).bankLoad = none) ∧
        (∀ l, (s.part p).bankLoad = some l → ∃ n, (t.part p).bankLoad = some { l with done := n } ∧ l.done ≤ n ∧ n ≤ l.done + 1)

/-- A frame boundary shows PLAN_FRAME, applies the new cap and fences what the frame raised. Rests on R34, R500, R502. -/
def Obligations.FrameBoundaryUpdates : Prop :=
  (∀ s : State, s.cycle % 1024 ≠ 0 ∨ s.cycle / 1024 < s.frameNo → exec .frameBoundary s = .next s) ∧
  (∀ s : State, s.cycle % 1024 = 0 → s.frameNo ≤ s.cycle / 1024 → s.pwr.domOff = 0 → SMap.wf Part.zero s.parts = true →
    ∃ t, exec .frameBoundary s = .next t ∧ t.frameNo = s.cycle / 1024 + 1 ∧
      t.pwr.capW = s.pwr.capNext.getD s.pwr.capW ∧ t.pwr.capNext = none ∧
      (∀ p, p < 16 → (s.part p).st = .running →
        ((∀ r ∈ s.raised, r.ending = false → r.cycle < s.cycle → r.cls = .event ∨ p ∉ r.parts) →
          (t.part p).st = .running ∧ (t.part p).planFrame = (s.part p).planTime / 1024) ∧
        ((∃ r ∈ s.raised, r.ending = false ∧ r.cycle < s.cycle ∧ r.cls ≠ .event ∧ p ∈ r.parts) →
          (s.part p).planTime ≠ 1024 * (s.part p).stepStop → (t.part p).st = .faulted)))

/-- A clean step boundary commits the step and begins the next, or stops a partition that is asked to. Formalises R50. -/
def Obligations.StepBoundaryCommits : Prop :=
  ∀ (p : Nat) (s : State), p < 16 → (s.part p).st = .running → (s.part p).planTime = 1024 * (s.part p).stepStop →
    (s.part p).jobSize ≤ 1 → (s.part p).fenceAt = none → StepsEnded s p → NoOpenCounts s p →
    (∀ r ∈ s.raised, r.ending = true → p ∉ r.parts) →
    let q := s.part p
    let pos := (q.cyclePos + 1) % q.cycleLen
    ∃ t, exec (.stepBoundary p) s = .next t ∧ (t.part p).committed = some q.stepNo ∧ (∀ k, k ≠ p → t.part k = s.part k) ∧
      (q.stopReq = none → q.jb.stopAt = none → q.jb.teardown = none → q.replay = none →
        (t.part p).st = .running ∧ (t.part p).stepNo = q.stepNo + 1 ∧ (t.part p).epoch = q.epoch + 1 ∧
        (t.part p).epochIdx = 0 ∧ (t.part p).cyclePos = pos ∧ (t.part p).stepKind = q.kindAt pos ∧
        (t.part p).stepStart = q.planTime / 1024 ∧ (t.part p).lastResult.map (·.stepNo) = some q.stepNo) ∧
      (q.stopReq ≠ none → (t.part p).st = .stopped ∧ (t.part p).stepNo = q.stepNo)

/-- The body boundary and each epoch boundary start the next epoch; a bank switch that the window consumed or the plan names takes
effect there. Formalises R27. -/
def Obligations.BodyAndEpochBoundaries : Prop :=
  (∀ (p : Nat) (s : State), (s.part p).st = .running → (s.part p).epochIdx = 0 →
    (s.part p).planTime = 1024 * ((s.part p).stepStart + ((s.part p).kind (s.part p).stepKind).window) →
    ∃ t, exec (.bodyBoundary p) s = .next t ∧ (t.part p).epoch = (s.part p).epoch + 1 ∧ (t.part p).epochIdx = 1 ∧
      (t.part p).stepNo = (s.part p).stepNo ∧ (t.part p).stepKind = (s.part p).stepKind ∧ (t.part p).st = .running ∧
      (t.part p).bankAct = ((s.part p).bankAct !=
        ((s.part p).win.bankRec.isSome || ((s.part p).kind (s.part p).stepKind).switchAt.contains 1)) ∧
      (∀ k, k ≠ p → t.part k = s.part k)) ∧
  (∀ (p i f : Nat) (s : State), (s.part p).st = .running → (s.part p).epochIdx = i + 1 →
    ((s.part p).kind (s.part p).stepKind).epochAt[i]? = some f → (s.part p).planTime = 1024 * ((s.part p).stepStart + f) →
    ∃ t, exec (.epochBoundary p) s = .next t ∧ (t.part p).epoch = (s.part p).epoch + 1 ∧ (t.part p).epochIdx = i + 2 ∧
      (t.part p).stepNo = (s.part p).stepNo ∧ (t.part p).st = .running ∧ (∀ k, k ≠ p → t.part k = s.part k) ∧
      (let named := ((s.part p).kind (s.part p).stepKind).switchAt.contains (i + 2)
       (t.part p).bankAct = ((s.part p).bankAct != named) ∧ (named = false → t.cells = s.cells))) ∧
  (∀ (p : Nat) (s : State), (s.part p).st ≠ .running →
    exec (.bodyBoundary p) s = .next s ∧ exec (.epochBoundary p) s = .next s ∧ exec (.stepBoundary p) s = .next s)

/-- At its mark an ARMED partition starts at plan time 0, or misses its zero. Rests on R25, R27, R362. -/
def Obligations.JobZeroStartsPartitions : Prop :=
  (∀ s : State, s.cycle % 1024 ≠ 0 ∨ s.tu.j ≠ 0 → exec .jobZero s = .next s) ∧
  (∀ (s : State) (p : Nat), s.cycle % 1024 = 0 → s.tu.j = 0 → p < 16 → (s.part p).st = .armed →
    (s.part p).jb.startMark = some s.tu.mark → (s.part p).jb.resume = none → (s.part p).replay = none →
    (∀ k, k < 16 → k ≠ p → (s.part k).jb.startMark = none) →
    ∃ t, exec .jobZero s = .next t ∧ (∀ k, k ≠ p → t.part k = s.part k) ∧
      (s.tu.gust = 5 → s.tu.hall = .locked →
        (t.part p).st = .running ∧ (t.part p).planTime = 0 ∧ (t.part p).stepNo = 0 ∧ (t.part p).epoch = 0 ∧
        (t.part p).stepKind = (s.part p).kindAt 0 ∧ (t.part p).jb.startMark = none ∧
        (((s.part p).kind ((s.part p).kindAt 0)).switchAt.contains 0 = false → t.raised = s.raised)) ∧
      (s.tu.gust ≠ 5 ∨ s.tu.hall ≠ .locked →
        (t.part p).st = .armed ∧ (t.part p).jb.startMark = none ∧ RaisedOne s t .job 0x96 [p] ∧ t.cells = s.cells))

/-- Hall time locks, holds and unlocks; references, beacons, clock switch-over and gust votes. Rests on R352, R353, R354,
R357, R355, R366, R392, R534. -/
def Obligations.HallTimeReferenceAndGust : Prop :=
  ((∀ (s : State) (w : BitVec 128) (e : Int), htwGood w.toNat s.tu.named = true → bits w.toNat 56 56 = s.tu.mark + 10 →
    e.natAbs ≤ 240 →
    ∃ t, exec (.frameMark 1600 w e) s = .next t ∧ t.raised = s.raised ∧ t.tu.goodRun = s.tu.goodRun + 1 ∧
      t.tu.named = some (s.tu.mark + 10) ∧ t.tu.alignErr = e ∧ t.parts = s.parts ∧
      t.tu.hall = (if s.tu.hall = .locked ∨ 3 ≤ s.tu.goodRun then .locked else s.tu.hall)) ∧
  (∀ (s : State) (w : BitVec 128) (e : Int), htwGood w.toNat s.tu.named = false → s.tu.hall ≠ .unlocked → e.natAbs ≤ 240 →
    ∃ t, exec (.frameMark 1600 w e) s = .next t ∧ t.raised = s.raised ∧ t.tu.hall = .hold ∧ t.tu.goodRun = 0 ∧
      t.tu.holdRun = s.tu.holdRun + 1 ∧ t.tu.wordErr = s.tu.wordErr + 1) ∧
  (∀ (s : State) (n : Nat) (w : BitVec 128) (e : Int), n ≠ 1600 → s.tu.hall ≠ .unlocked → e.natAbs ≤ 240 →
    ∃ t, exec (.frameMark n w e) s = .next t ∧ t.tu.hall = .unlocked ∧ RaisedOne s t .job 0x93 s.timeScope) ∧
  (∀ (s : State) (w : BitVec 128) (e : Int), htwGood w.toNat s.tu.named = true → bits w.toNat 56 56 = s.tu.mark + 10 →
    320 < e.natAbs → s.tu.hall ≠ .unlocked →
    ∃ t, exec (.frameMark 1600 w e) s = .next t ∧ t.tu.alignWarn = true ∧
      ∃ r r', t.raised = s.raised ++ [r, r'] ∧ r.cls = .event ∧ r.code = 0xCA ∧ r'.cls = .job ∧ r'.code = 0x91 ∧
        r'.parts = s.timeScope) ∧
  (∀ s : State, s.tu.hall ≠ .unlocked → s.tu.seen ≠ s.tu.mark → ∃ t, exec .missingPulse s = .next t ∧ t.tu.hall = .hold ∧
    t.tu.holdMarks = s.tu.holdMarks + 1 ∧ t = { s with tu := t.tu }) ∧
  (∀ s : State, s.tu.seen = s.tu.mark → exec .missingPulse s = .next s) ∧
  (∀ s : State, s.tu.hall = .hold → 64 ≤ s.tu.holdRun → ∃ t, exec .hallLost s = .next t ∧ t.tu.hall = .unlocked ∧
    RaisedOne s t .job 0x92 s.timeScope ∧ t.parts = s.parts)) ∧
  ((∀ s : State, s.tu.refOk = true → ∃ t, exec .timeRefLost s = .next t ∧ t.tu = { s.tu with refOk := false } ∧
    RaisedOne s t .job 0x94 s.timeScope ∧ t.parts = s.parts) ∧
  (∀ s : State, s.tu.refLocal = true → s.cycle % 1024 = 0 → ∃ t, exec .refChangeover s = .next t ∧
    t = { s with tu := { s.tu with refOk := true, refLocal := false } }) ∧
  (∀ (s : State) (g : Nat), s.tu.decidedAt s.tu.mark = some g → s.tu.j = 0 → s.cycle % 1024 = 0 → g ≠ s.tu.gust →
    ∃ t, exec .gustSwitch s = .next t ∧ t.tu = { s.tu with gust := g, synthB := !s.tu.synthB } ∧ t.parts = s.parts ∧
      t.cycle = s.cycle ∧ t.cells = s.cells) ∧
  (∀ s : State, s.tu.decidedAt s.tu.mark = none ∨ s.tu.j ≠ 0 ∨ s.cycle % 1024 ≠ 0 → exec .gustSwitch s = .next s) ∧
  (∀ (p : Nat) (s : State), (s.part p).st = .running → 1 < (s.part p).jobSize →
    (s.part p).planTime / 1024 + 64 = (s.part p).stepStop → (s.part p).jb.rotV ≠ some (s.cycle / 1024) →
    ∃ t, exec (.rotReadyLatch p) s = .next t ∧ (t.part p).jb.rotV = some (s.cycle / 1024) ∧
      ((t.part p).jb.rotVal = true ↔ ∃ k, (s.part p).pendRot = some (k, (s.part p).stepNo + 1)) ∧
      (t.part p).pendRot = (s.part p).pendRot ∧ (t.part p).st = .running ∧ ∀ k, k ≠ p → t.part k = s.part k))

/-- A record's completion flag is set once, in landing slots, and answers its command; it is seen 8 ns later. Rests on R36, R37,
R257, R462. -/
def Obligations.CompletionFlags : Prop :=
  (∀ (p n : Nat) (s : State) (r : Rec), look none (s.part p).recs n = some r → r.flagAt = none →
    (s.landSlots p = true → ∃ t, exec (.completionFlagSet p n) s = .next t ∧
      look none (t.part p).recs n = some { r with flagAt := some s.hallNow, hdr := none } ∧
      (∀ k, k ≠ n → look none (t.part p).recs k = look none (s.part p).recs k) ∧ (∀ q, q ≠ p → t.part q = s.part q) ∧
      t.cells = s.cells ∧ t.stks = s.stks ∧ t.cold = { s.cold with lines := t.cold.lines } ∧
      (∀ h, r.hdr = some h → r.kind = 1 → Listening s h 0x0501 → Answered t h 0x0501 0 [(8, n)]) ∧
      (∀ h, r.hdr = some h → r.kind = 5 → Listening s h 0x0404 → Answered t h 0x0404 0 [(8, n)])) ∧
    (s.landSlots p = false → exec (.completionFlagSet p n) s = .next s)) ∧
  (∀ (p n f : Nat) (s : State) (r : Rec), look none (s.part p).recs n = some r → r.flagAt = some f →
    (f + 8 ≤ s.hallNow → ∃ t, exec (.completionFlagVisible p n) s = .next t ∧
      look none (t.part p).recs n = some { r with visible := true } ∧ (∀ q, q ≠ p → t.part q = s.part q) ∧
      t = { s with parts := t.parts }) ∧
    (s.hallNow < f + 8 → exec (.completionFlagVisible p n) s = .next s))

/-- The window engine writes the slot words in its slots; the result of a committed step is placed in the outbound ring, of whose 64
places the oldest goes, and posted when a result ring takes it. Rests on R261, R270, R271, R465, Table 10.9. -/
def Obligations.WindowAndResults : Prop :=
  (∀ (p : Nat) (s : State) (e : ServingE) (loc : LeaseLoc),
    (s.part p).serving = some e → (s.part p).st = .running → (s.part p).epochIdx = 0 → 0 < e.slots → e.slots ≤ 16 →
    (∃ l ∈ (s.part p).leases, l.res = 3 ∧ l.use = 3) →
    (s.part p).winRecs 4 = [] → (s.part p).winRecs 1 = [] → (s.part p).planEntry .cold (e.winBase / 2 ^ 30) = some loc →
    (s.part p).flips .cold (e.winBase / 2 ^ 30) = false → s.cold.state ≠ .failed → look 0 s.cold.keys p ≠ 0 →
    ∃ t, exec (.windowEngineSchedule p) s = .next t ∧ t.parts = s.parts ∧ t.cells = s.cells ∧ t.stks = s.stks ∧
      t.partLine p .cold e.winBase = BitVec.ofNat 2048 (((List.range e.slots).map (fun k =>
        slotWord ((s.part p).atBody.slot k) * 2 ^ (128 * k))).sum)) ∧
  (∀ (p : Nat) (s : State) (r : StepResult), (s.part p).outNext = some r → s.landSlots p = true →
    ((s.ring (p + 1) 0 3).enable = false → (s.ring (p + 1) 1 3).enable = false →
      ∃ t r', exec (.stepResultPost p) s = .next t ∧ (t.part p).outNext = none ∧ r' = { r with outputs := r'.outputs } ∧
        (let l := (s.part p).outRing ++ [(false, r')]
         (t.part p).outRing = l.drop (l.length - 64) ∧ (t.part p).outRing.length ≤ 64 ∧
         (t.part p).postLost = (s.part p).postLost + ((l.take (l.length - 64)).filter (fun x => !x.1)).length) ∧
        (∀ k, k ≠ p → t.part k = s.part k) ∧ t.cells = s.cells ∧ t.out = s.out) ∧
    ((s.part p).outRing = [] → (s.ring (p + 1) 0 3).enable = true → (s.ring (p + 1) 0 3).free = true →
      resultBytes r (s.part p).serving ≤ 2 ^ (s.ring (p + 1) 0 3).entry → (s.ring (p + 1) 1 3).enable = false →
      ∃ t r', exec (.stepResultPost p) s = .next t ∧ (t.part p).outNext = none ∧ (t.part p).outRing = [(true, r')] ∧
        r' = { r with outputs := r'.outputs, postLost := (s.part p).postLost } ∧ (t.part p).postLost = 0 ∧
        Sent.result (p + 1) 0 p (s.ring (p + 1) 0 3).phase r' ∈ t.out ∧ (∀ k, k ≠ p → t.part k = s.part k) ∧ t.cells = s.cells)) ∧
  (∀ (p : Nat) (s : State), s.landSlots p = false → exec (.stepResultPost p) s = .next s) ∧
  (∀ (p : Nat) (s : State), (s.part p).outNext = none → (∀ x ∈ (s.part p).outRing, x.1 = true) →
    ∃ t, exec (.stepResultPost p) s = .next t ∧ t.out = s.out ∧ ∀ k, t.part k = s.part k)

/-- A park entry goes from PARKING to PARKED, ZEROISING at its expiry and FREE; a resume frees it; the twin's copy is released as
the entry leaves PARKED. Rests on R272, R274, R275, R341. -/
def Obligations.ParkEntriesMove : Prop :=
  (∀ (p k : Nat) (s : State),
    let x := look Park.zero (s.part p).park k
    (x.st = .parking → x.ready = true → s.loadSlots p = true → ∃ t, exec (.parkCopy p k) s = .next t ∧
      look Park.zero (t.part p).park k = { x with copied := 1 } ∧
      (∀ j, j ≠ k → look Park.zero (t.part p).park j = look Park.zero (s.part p).park j) ∧ t.stks = s.stks ∧ t.cells = s.cells) ∧
    (x.st = .parking → x.copied ≠ 0 → ∃ t, exec (.parked p k) s = .next t ∧
      look Park.zero (t.part p).park k =
        { x with st := .parked, expiry := s.hallNow + x.ttlS * 10 ^ 9, expired := false } ∧
      t.cold = s.cold ∧ (∀ q, q ≠ p → t.part q = s.part q)) ∧
    (x.st = .zeroising → s.loadSlots p = true → ∃ t, exec (.expired p k) s = .next t ∧
      look Park.zero (t.part p).park k = { expired := x.expired } ∧ t.stks = s.stks ∧ (∀ q, q ≠ p → t.part q = s.part q) ∧
      (p < 16 → Notified s t 0x02 p [k])) ∧
    (x.st = .resuming → s.loadSlots p = true → ∃ t, exec (.resumeCopyDone p k) s = .next t ∧
      look Park.zero (t.part p).park k = Park.zero ∧
      ∀ h, x.hdr = some h → Listening s h 0x0505 → Answered t h 0x0505 0 [(4, x.length), (2, x.variant)])) ∧
  (∀ s : State, (∀ p, SMap.wf Park.zero (s.part p).park = true) → ∃ t, exec .parkExpiryCheck s = .next t ∧
    t = { s with parts := t.parts, out := t.out } ∧
    ∀ p k, p < 16 →
      let x := look Park.zero (s.part p).park k
      (x.st = .parked ∧ x.expiry ≤ s.hallNow / 10 ^ 6 * 10 ^ 6 →
        look Park.zero (t.part p).park k = { x with st := .zeroising, expired := true } ∧ Sent.twinRelease p k ∈ t.out) ∧
      (¬ (x.st = .parked ∧ x.expiry ≤ s.hallNow / 10 ^ 6 * 10 ^ 6) → look Park.zero (t.part p).park k = x))

/-! ### Terms for the stacks and the cold frame -/

namespace Sys2Proof.Stmt

open Sys2Proof.Machine

/-- Beat `h` is the one beat at stack `k`, due, of a running partition. -/
def AtStack (s : State) (k : Nat) (h : Hop) : Prop :=
  (s.stack k).arrive = [h] ∧ h.cyc ≤ s.cycle ∧ (s.part h.beat.sb.part.toNat).st = .running

/-- Stack `k` serves a READ of beat `h` from address `a`: it works, the partition's key slot is filled, the address translates to
the beat's channel of the stack, and the bank's spacing is kept (R199, R203, R215, R217). -/
def StackPerforms (s : State) (k : Nat) (h : Hop) (a : Nat) (loc : LeaseLoc) (lease off : Nat) : Prop :=
  (s.stack k).state ≠ .failed ∧ (s.stack k).key h.beat.sb.part.toNat ≠ 0 ∧
  (s.part h.beat.sb.part.toNat).target a = .at loc lease off ∧ loc.unit = k ∧ loc.ch = (slotOf h.cyc h.port).ch ∧
  (s.stack k).spaced (slotOf h.cyc h.port) (dramBank loc.sub (off / 256)) = true

/-- Stack `k` has a place for a write of beat `h` to address `a`: it works, the key slot is filled, and the write entry of the
address's lease names the beat's channel of the stack (R203, R215, R217, R227, R383). -/
def StackTakes (s : State) (k : Nat) (h : Hop) (a : Nat) (loc : LeaseLoc) : Prop :=
  (s.stack k).state ≠ .failed ∧ (s.stack k).key h.beat.sb.part.toNat ≠ 0 ∧ a / 2 ^ 30 < 0x3F0 ∧
  (s.part h.beat.sb.part.toNat).writeEntry .stack (a / 2 ^ 30) = some loc ∧ loc.unit = k ∧ loc.ch = (slotOf h.cyc h.port).ch

/-- `d` is what line `l` of place `zk`, listed under `lk`, reads as under a filled key slot and a tweak: the data written under the
same, zeros where the place holds zeros under them, and the plaintext that XTS gives for all-zero ciphertext (R216, R218). -/
def ReadsAs (lines : SMap SLine) (blank : SMap Blank) (wipes : SMap (Option Wipe)) (lk zk l key tweak : Nat) (d : Line) : Prop :=
  (∀ x, find lines lk = some x → x.key = key → x.tweak = tweak → d = x.data) ∧
  (find lines lk = none → look none wipes zk = none →
    let b := look ({} : Blank) blank zk
    (b.key = key → b.lease * 2 ^ 22 + l = tweak → d = 0) ∧ (b.key = 0 → d = xtsDec (Config.secret key) tweak 0))

/-- The stack's line at `loc`, offset `off` of lease `lease`, reads as `d` for partition `p`. -/
def StackReadsAs (s : State) (k p : Nat) (loc : LeaseLoc) (lease off : Nat) (d : Line) : Prop :=
  ReadsAs (s.stack k).lines (s.stack k).blank (s.stack k).wipes (lineKey loc.ch loc.sub (off / 256)) (4 * loc.ch + loc.sub)
    (off / 256) ((s.stack k).key p) ((lease * 2 ^ 30 + off) / 256) d

/-- The data beat of a READ of beat `h`, due 72 cycles after it with its RETURN sideband (R196). -/
def dataBeat (h : Hop) (d : Line) (merge : Bool) : Ret :=
  { due := h.cyc + 72, port := h.port, beat := { sb := h.beat.req.ret, data := d }, merge, ch := (slotOf h.cyc h.port).ch }

/-- Between `s` and `t` no line of stack `k` changed, and no other stack, cell, block or partition. -/
def OnlyStackFlow (s t : State) (k : Nat) : Prop :=
  (t.stack k).lines = (s.stack k).lines ∧ (t.stack k).arrive = [] ∧ (∀ j, j ≠ k → t.stack j = s.stack j) ∧
  t.cells = s.cells ∧ t.blocks = s.blocks ∧ t.parts = s.parts ∧ t.cold = s.cold

/-- The channel record of a stack after `f`, all its other channels as before. -/
def ChanIs (s t : State) (k ch : Nat) (f : StkChan → StkChan) : Prop :=
  (t.stack k).chan ch = f ((s.stack k).chan ch) ∧ (∀ c, c ≠ ch → (t.stack k).chan c = (s.stack k).chan c) ∧
  (t.stack k).lines = (s.stack k).lines ∧ (∀ j, j ≠ k → t.stack j = s.stack j) ∧ t.cells = s.cells ∧ t.parts = s.parts

end Sys2Proof.Stmt

/-- A performed READ returns its line 72 cycles later; without a key it returns zeros and KEY_ABSENT. Rests on R196, R217,
R236, R238, R239. -/
def Obligations.StackReadsReturnLines : Prop :=
  ∀ (k lease off : Nat) (s : State) (h : Hop) (loc : LeaseLoc), AtStack s k h → h.beat.isReq 1 = true →
    let p := h.beat.sb.part.toNat
    let a := h.beat.req.paddr
    (mergeRet k h.beat.req.ret = false → s.merges k h.cyc h.port = false →
      (StackPerforms s k h a loc lease off → ∃ t d, exec (.stackRead k [] []) s = .next t ∧ OnlyStackFlow s t k ∧
        StackReadsAs s k p loc lease off d ∧ (t.stack k).rets = (s.stack k).rets ++ [dataBeat h d false] ∧ t.raised = s.raised) ∧
      ((s.stack k).state ≠ .failed → (s.stack k).key p = 0 → ∃ t, exec (.stackRead k [] []) s = .next t ∧ OnlyStackFlow s t k ∧
        (t.stack k).rets = (s.stack k).rets ++ [dataBeat h 0 false] ∧ RaisedOne s t .partition 0x44 [p])) ∧
    (mergeRet k h.beat.req.ret = true → StackPerforms s k h a loc lease off →
      ∃ t d, exec (.mergeFetch k [] []) s = .next t ∧ OnlyStackFlow s t k ∧ StackReadsAs s k p loc lease off d ∧
        (if (s.part p).leases? 4 0 (16 * (s.part p).bindStack k + (slotOf h.cyc h.port).ch) 0 (h.beat.req.ret.line.toNat % 128) then
          (t.stack k).rets = (s.stack k).rets ++ [dataBeat h d true] ∧ t.raised = s.raised
        else (t.stack k).rets = (s.stack k).rets ∧ RaisedOne s t .partition 0x50 [p])) ∧
    (∀ q row, mergeRet k h.beat.req.ret = false → s.merges k h.cyc h.port = true → s.mergeRow k h.cyc h.port = some (q, row) →
      (∀ r ∈ (s.stack k).rets, r.merge = false) → StackPerforms s k h a loc lease off →
      ∃ t d, exec (.mergedRead k [] .ok .ok []) s = .next t ∧ OnlyStackFlow s t k ∧ StackReadsAs s k p loc lease off d ∧
        (t.stack k).rets = (s.stack k).rets ++ [dataBeat h (mergeLine row ((List.range (bits row.toNat 24 2 + 1)).map (fun i =>
          look 0#2048 ((s.stack k).chan (slotOf h.cyc h.port).ch).mbuf (bits row.toNat 10 7 + i))) d) false] ∧
        t.raised = s.raised)

/-- A WRITE_OPEN that keeps the bank spacing opens a count; write beat j of it is written at PADDR + 256 j and takes its place.
Rests on R197, R198, R199, R203. -/
def Obligations.StackWritesTakePlaces : Prop :=
  (∀ (k : Nat) (s : State) (h : Hop) (loc : LeaseLoc), AtStack s k h → h.beat.isReq 2 = true →
    let p := h.beat.sb.part.toNat
    let a := h.beat.req.paddr
    let key := openKey p (slotOf h.cyc h.port).ch
    (StackTakes s k h a loc → look none (s.stack k).opens key = none →
      let sp := (s.stack k).spaced (slotOf h.cyc h.port) (dramBank loc.sub (a % 2 ^ 30 / 256))
      ∃ t, exec (.stackWriteOpen k []) s = .next t ∧ OnlyStackFlow s t k ∧
        (sp = true → look none (t.stack k).opens key = some { paddr := a, lines := h.beat.req.count + 1, next := 0 } ∧
          t.raised = s.raised ∧ ∀ j, j ≠ key → look none (t.stack k).opens j = look none (s.stack k).opens j) ∧
        (sp = false → (t.stack k).opens = (s.stack k).opens ∧ RaisedOne s t .partition 0x42 [p])) ∧
    (look none (s.stack k).opens key ≠ none → (s.stack k).state ≠ .failed → (s.stack k).key p ≠ 0 →
      ∃ t, exec (.stackWriteOpen k []) s = .next t ∧ OnlyStackFlow s t k ∧
        (t.stack k).opens = (s.stack k).opens ∧ RaisedOne s t .partition 0x43 [p])) ∧
  (∀ (k : Nat) (s : State) (h : Hop) (loc : LeaseLoc), AtStack s k h → h.beat.sb.kind = 1 →
    let p := h.beat.sb.part.toNat
    let key := openKey p (slotOf h.cyc h.port).ch
    (∀ o, look none (s.stack k).opens key = some o →
      let a := o.paddr + 256 * o.next
      let lk := lineKey loc.ch loc.sub (a % 2 ^ 30 / 256)
      StackTakes s k h a loc → (s.stack k).spaced (slotOf h.cyc h.port) (dramBank loc.sub (a % 2 ^ 30 / 256)) = true →
      ∃ t, exec (.stackWriteBeat k []) s = .next t ∧ t.raised = s.raised ∧ t.cells = s.cells ∧ t.parts = s.parts ∧
        find (t.stack k).lines lk = some { key := (s.stack k).key p, tweak := a / 256, data := h.beat.data } ∧
        (∀ j, j ≠ lk → find (t.stack k).lines j = find (s.stack k).lines j) ∧
        (∀ j, j ≠ k → t.stack j = s.stack j) ∧
        look none (t.stack k).opens key = if o.next + 1 < o.lines then some { o with next := o.next + 1 } else none) ∧
    (look none (s.stack k).opens key = none → (s.stack k).state ≠ .failed → (s.stack k).key p ≠ 0 →
      ∃ t, exec (.stackWriteBeat k []) s = .next t ∧ OnlyStackFlow s t k ∧ RaisedOne s t .partition 0x43 [p]))

/-- The cold frame serves the beats of its slots; a beat for another unit is dropped; data beats reach the routers when they are
due. Rests on R184, R196, R250, R252, R253, R553. -/
def Obligations.ColdFrameServes : Prop :=
  (∀ (s : State) (h : Hop) (a idx : Nat) (loc : LeaseLoc), s.cold.arrive = [h] → h.cyc ≤ s.cycle → s.coldAddr h = some a →
    let p := h.beat.sb.part.toNat
    let key := look 0 s.cold.keys p
    (s.part p).st = .running → h.beat.sb.dkind = 3 → s.cold.state ≠ .failed →
    (s.part p).coldSel (!h.beat.isReq 1) a h.cyc = .slot loc idx → (s.part p).leases? 3 0 loc.ch 0 idx = true →
    ∃ t, exec (.coldRequest [] []) s = .next t ∧ t.cold.arrive = [] ∧ t.cells = s.cells ∧ t.stks = s.stks ∧ t.parts = s.parts ∧
      (key ≠ 0 → h.beat.isReq 1 = true → t.cold.lines = s.cold.lines ∧ t.raised = s.raised ∧ ∃ d,
        ReadsAs s.cold.lines s.cold.blank s.cold.wipes (coldKeyOf loc a) (64 * loc.ch + loc.sub) (a % 2 ^ 30 / 256) key (a / 256) d ∧
        t.cold.rets = s.cold.rets ++ [{ dataBeat h d false with due := h.cyc + 156, ch := 0 }]) ∧
      (key = 0 → h.beat.isReq 1 = true → t.cold.lines = s.cold.lines ∧ RaisedOne s t .partition 0x64 [p] ∧
        t.cold.rets = s.cold.rets ++ [{ dataBeat h 0 false with due := h.cyc + 156, ch := 0 }]) ∧
      (key ≠ 0 → h.beat.isReq 2 = true → look none s.cold.opens (openKey p loc.ch) = none →
        t.cold.lines = s.cold.lines ∧ t.raised = s.raised ∧
        look none t.cold.opens (openKey p loc.ch) = some { paddr := a, lines := h.beat.req.count + 1, next := 0 }) ∧
      (∀ c o, key ≠ 0 → h.beat.sb.kind = 1 → s.coldOpen p h.cyc = some (c, o) →
        t.raised = s.raised ∧ t.cold.rets = s.cold.rets ∧
        find t.cold.lines (coldKeyOf loc a) = some { key, tweak := a / 256, data := h.beat.data } ∧
        (∀ j, j ≠ coldKeyOf loc a → find t.cold.lines j = find s.cold.lines j) ∧
        look none t.cold.opens (openKey p c) = if o.next + 1 < o.lines then some { o with next := o.next + 1 } else none)) ∧
  (∀ (s : State) (h : Hop), s.cold.arrive = [h] → h.cyc ≤ s.cycle → (s.part h.beat.sb.part.toNat).st = .running →
    h.beat.sb.dkind ≠ 3 ∨ h.beat.sb.kind = 0 ∨ h.beat.sb.kind = 3 →
    ∃ t, exec (.coldRequest [] []) s = .next t ∧ t = { s with cold := { s.cold with arrive := [] }, raised := t.raised } ∧
      RaisedOne s t .partition 0x32 [h.beat.sb.part.toNat]) ∧
  (∀ (s : State) (r : Ret), s.cold.rets = [r] → r.due ≤ s.cycle →
    ∃ t, exec .coldDataReturn s = .next t ∧ t.cold.rets = [] ∧ t.cold.lines = s.cold.lines ∧
      (t.block (16 * (r.port / 8))).rin = (s.block (16 * (r.port / 8))).rin ++
        [{ cyc := s.cycle, port := 12 + r.port % 8, beat := r.beat }] ∧
      ∀ b, b ≠ 16 * (r.port / 8) → t.block b = s.block b) ∧
  (∀ (k : Nat) (s : State) (r : Ret), (s.stack k).rets = [r] → r.merge = false → r.due ≤ s.cycle →
    ∃ t, exec (.stackDataReturn k) s = .next t ∧ (t.stack k).rets = [] ∧ (t.stack k).lines = (s.stack k).lines ∧
      (t.block (stackBlock k)).rin = (s.block (stackBlock k)).rin ++
        [{ cyc := s.cycle, port := 12 + r.port, beat := r.beat }] ∧
      ∀ b, b ≠ stackBlock k → t.block b = s.block b)

/-- Memory upkeep advances its sequences, one operation to a window or group, and changes no line; row, die and channel copies
finish and their spares take over. Rests on R205, R206, R207, R215, R249, R212, R214, R219, R255. -/
def Obligations.MemoryUpkeepAndRepairs : Prop :=
  ((∀ (k ch w : Nat) (s : State), windowPos ch s.cycle = some w → (w < 8 ∨ w < 16 ∧ (s.stack k).hot = true) →
    let now := 2 * (s.cycle / 1024) + w / 8 + 1
    (((s.stack k).chan ch).refAt ≠ now → ∃ t, exec (.stackRefresh k ch) s = .next t ∧ t.raised = s.raised ∧
      ChanIs s t k ch (fun c => { c with refresh := (c.refresh + 1) % 8192, refAt := now })) ∧
    (((s.stack k).chan ch).refAt = now → exec (.stackRefresh k ch) s = .next s)) ∧
  (∀ (k ch : Nat) (s : State), s.scrubNow k ch = true → (∀ c n, (s.stack k).evac = some (c, n) → c ≠ ch) →
    ((s.stack k).chan ch).copies = [] → ((s.stack k).chan ch).passCorr ≤ 4096 → ((s.stack k).chan ch).failing = false →
    let total := (if s.fuses.grade = 3 then 3 else 4) * 4194304
    ∃ t, exec (.stackScrub k ch []) s = .next t ∧ t.raised = s.raised ∧ (t.stack k).repairs = (s.stack k).repairs ∧
      ChanIs s t k ch (fun c =>
        if c.scrub + 1 = total then { c with scrub := 0, pass := c.pass + 1, passCorr := 0, window := s.cycle / 1024 + 1 }
        else { c with scrub := (c.scrub + 1) % total, window := s.cycle / 1024 + 1 })) ∧
  (∀ s : State, ∃ t, exec .retrainSweepDue s = .next t ∧
    (∀ k ch, k < 12 → ch < 16 → (t.stack k).chan ch =
      { (s.stack k).chan ch with sweep := some (((s.stack k).chan ch).sweep.getD 0) }) ∧
    (∀ k, (t.stack k).lines = (s.stack k).lines ∧ (t.stack k).state = (s.stack k).state) ∧
    (∀ ch, ch < 16 → look CfChan.zero t.cold.chans ch = { look CfChan.zero s.cold.chans ch with sweep := true }) ∧
    t = { s with stks := t.stks, cold := { s.cold with chans := t.cold.chans } }) ∧
  (∀ (k ch w g : Nat) (s : State), windowPos ch s.cycle = some w → 16 ≤ w → ((s.stack k).chan ch).sweep = some g →
    ((s.stack k).chan ch).trained ≠ s.cycle / 1024 + 1 →
    (∃ t, exec (.stackRetrainStep k ch [] false) s = .next t ∧ t.raised = s.raised ∧
      ChanIs s t k ch (fun c => { c with sweep := if g + 1 = 18 then none else some (g + 1), trained := s.cycle / 1024 + 1 }) ∧
      (((s.stack k).chan ch).pins.length < 2 → (t.stack k).state = (s.stack k).state)) ∧
    (∀ f, f / 4 = g → ((s.stack k).chan ch).pins = [] → (s.stack k).state ≠ .failed →
      ∃ t, exec (.stackRetrainStep k ch [f] false) s = .next t ∧ (t.stack k).state = .degraded ∧
        (t.stack k).repairs = ((s.stack k).repairs ++ [repairEntry 4 ch 0 f 0]).take 448 ∧
        (t.stack k).mirror = (t.stack k).repairs ∧ (t.stack k).pinFail = (s.stack k).pinFail + 1 ∧
        ChanIs s t k ch (fun c =>
          { c with sweep := if g + 1 = 18 then none else some (g + 1), trained := s.cycle / 1024 + 1, pins := [f] }))) ∧
  (∀ (ch : Nat) (s : State), s.fcyc < 1020 →
    let x := look CfChan.zero s.cold.chans ch
    let now := 51 * (s.cycle / 1024) + coldGroup s.cycle + 1
    x.refAt ≠ now →
    (coldGroup s.cycle = 3 * ch → ∃ t, exec (.coldRefresh ch [] .none) s = .next t ∧
      look CfChan.zero t.cold.chans ch = { x with refresh := (x.refresh + 1) % 8192, refAt := now } ∧
      t = { s with cold := { s.cold with chans := t.cold.chans } }) ∧
    (coldGroup s.cycle = 3 * ch + 1 → s.cold.hot = false → x.sweep = true →
      ∃ t, exec (.coldRefresh ch [] .good) s = .next t ∧
        look CfChan.zero t.cold.chans ch = { x with sweep := false, refAt := now } ∧
        t = { s with cold := { s.cold with chans := t.cold.chans } }) ∧
    (coldGroup s.cycle = 3 * ch + 1 → s.cold.hot = false → x.sweep = false → (∀ n, s.cold.copy ≠ some (ch, n)) →
      x.passCorr ≤ 65536 →
      ∃ t, exec (.coldRefresh ch [] .none) s = .next t ∧ t.raised = s.raised ∧ t.cold.lines = s.cold.lines ∧
        t.cold.state = s.cold.state ∧ (look CfChan.zero t.cold.chans ch).scrub =
          if x.scrub + 1 = (if s.fuses.grade = 3 then 32 else 64) * 4194304 then 0 else x.scrub + 1))) ∧
  ((∀ (k ch : Nat) (s : State) (r : RowCopy) (rs : List RowCopy), ((s.stack k).chan ch).copies = r :: rs →
    s.scrubNow k ch = true →
    ∃ t, exec (.rowRepair k ch) s = .next t ∧
      (r.done + 1 < 16 → t.raised = s.raised ∧
        ChanIs s t k ch (fun c => { c with copies := { r with done := r.done + 1 } :: rs, window := s.cycle / 1024 + 1 })) ∧
      (16 ≤ r.done + 1 → RaisedOne s t .event 0xC1 [] ∧ ((t.stack k).chan ch).copies = rs ∧
        (t.stack k).lines = (s.stack k).lines ∧
        look 0 ((t.stack k).chan ch).rowsUsed r.bank = look 0 ((s.stack k).chan ch).rowsUsed r.bank + 1 ∧
        (t.stack k).repairs = ((s.stack k).repairs ++
          [repairEntry 1 ch r.bank r.row (look 0 ((s.stack k).chan ch).rowsUsed r.bank)]).take 448 ∧
        (t.stack k).mirror = (t.stack k).repairs)) ∧
  (∀ (k ch n : Nat) (s : State), (s.stack k).evac = some (ch, n) →
    ((s.stack k).evacDone = false → s.scrubNow k ch = true → ∃ t, exec (.dieEvacuation k) s = .next t ∧
      t.stack k = { s.stack k with
        evac := some (ch, n + 1), evacDone := decide (n + 1 = (if s.fuses.grade = 3 then 3 else 4) * 4194304)
        chans := (t.stack k).chans } ∧
      (∀ c, (t.stack k).chan c = if c = ch then { (s.stack k).chan c with window := s.cycle / 1024 + 1 } else (s.stack k).chan c) ∧
      (∀ j, j ≠ k → t.stack j = s.stack j) ∧ t = { s with stks := t.stks }) ∧
    ((s.stack k).evacDone = true → s.fcyc = 0 → ∃ t, exec (.spareDieAssign k) s = .next t ∧
      (t.stack k).evac = none ∧ (t.stack k).evacDone = false ∧ (t.stack k).spareFor = some ch ∧
      (t.stack k).repairs = ((s.stack k).repairs ++ [repairEntry 3 ch 0 0 0]).take 448 ∧
      (t.stack k).mirror = (t.stack k).repairs ∧ (t.stack k).lines = (s.stack k).lines ∧
      (∀ c, c ≠ ch → (t.stack k).chan c = (s.stack k).chan c) ∧ ((t.stack k).chan ch).failing = false ∧
      ((t.stack k).chan ch).rowsUsed = [] ∧ ((t.stack k).chan ch).mbuf = ((s.stack k).chan ch).mbuf ∧
      ((t.stack k).state = .failed ↔
        (s.stack k).state = .failed ∨ ∃ c, c < 16 ∧ c ≠ ch ∧ ((s.stack k).chan c).failing = true) ∧
      ((t.stack k).state = .failed ∨ (t.stack k).state = .degraded) ∧
      (∀ j, j ≠ k → t.stack j = s.stack j) ∧ RaisedOne s t .event 0xC3 [])) ∧
  (∀ (ch n : Nat) (s : State), s.cold.copy = some (ch, n) →
    (s.cold.hot = false → s.cold.copyDone = false → s.fcyc < 1020 → coldGroup s.cycle = 3 * ch + 1 →
      (look CfChan.zero s.cold.chans ch).window ≠ s.cycle / 1024 + 1 →
      ∃ t, exec .coldChannelCopy s = .next t ∧ t = { s with cold := { s.cold with
          copy := some (ch, n + 1), copyDone := decide (n + 1 = (if s.fuses.grade = 3 then 32 else 64) * 4194304)
          chans := t.cold.chans } } ∧
        ∀ c, look CfChan.zero t.cold.chans c = if c = ch then { look CfChan.zero s.cold.chans c with window := s.cycle / 1024 + 1 }
          else look CfChan.zero s.cold.chans c) ∧
    (s.cold.copyDone = true → s.fcyc = 0 → ∃ t, exec .coldSpared s = .next t ∧
      t.cold = { s.cold with copy := none, copyDone := false, spareFor := some ch, state := t.cold.state } ∧
      t.cold.state = (if s.cold.state = .failed then .failed else .degraded) ∧ RaisedOne s t .event 0xC5 [])))

/-- LEASE_ZEROISE writes the lines of a pending lease that the free slots of a frame hold, once a frame, and no other line; when all
are written ZERO_DONE makes the lease usable. Rests on R218, R519. -/
def Obligations.ZeroisedLeasesReadZero : Prop :=
  (∀ (p idx : Nat) (s : State) (loc : LeaseLoc) (w : Wipe), (s.part p).sx.zeroPend.contains (.stack, idx) = true →
    (s.part p).places .stack idx = [loc] → look none (s.stack loc.unit).wipes (4 * loc.ch + loc.sub) = some w →
    let n := min (s.freeBursts .stack loc) (4194304 - w.done)
    (w.frame ≠ s.cycle / 1024 + 1 → ∃ t, exec (.leaseZeroise p .stack idx) s = .next t ∧ t = { s with stks := t.stks } ∧
      (∀ l, l < 4194304 → (t.stack loc.unit).stored loc l =
        if w.done ≤ l ∧ l < w.done + n then
          { key := w.to'.key, tweak := if w.to'.key = 0 then 0 else w.to'.lease * 4194304 + l, data := 0 }
        else (s.stack loc.unit).stored loc l) ∧
      (∀ loc' l, l < 4194304 → loc'.unit = loc.unit → 4 * loc'.ch + loc'.sub ≠ 4 * loc.ch + loc.sub →
        (t.stack loc.unit).stored loc' l = (s.stack loc.unit).stored loc' l) ∧
      (∀ k, k ≠ loc.unit → t.stack k = s.stack k) ∧
      (w.done + n = 4194304 → look none (t.stack loc.unit).wipes (4 * loc.ch + loc.sub) = none)) ∧
    (w.frame = s.cycle / 1024 + 1 → exec (.leaseZeroise p .stack idx) s = .next s)) ∧
  (∀ (p idx : Nat) (s : State) (loc : LeaseLoc) (w : Wipe), (s.part p).sx.zeroPend.contains (.cold, idx) = true →
    (s.part p).places .cold idx = [loc] → look none s.cold.wipes (64 * loc.ch + loc.sub) = some w →
    let n := min (s.freeBursts .cold loc) (4194304 - w.done)
    w.frame ≠ s.cycle / 1024 + 1 → ∃ t, exec (.leaseZeroise p .cold idx) s = .next t ∧ t = { s with cold := t.cold } ∧
      (∀ l, l < 4194304 → t.cold.stored loc l =
        if w.done ≤ l ∧ l < w.done + n then
          { key := w.to'.key, tweak := if w.to'.key = 0 then 0 else w.to'.lease * 4194304 + l, data := 0 }
        else s.cold.stored loc l) ∧
      (∀ loc' l, l < 4194304 → 64 * loc'.ch + loc'.sub ≠ 64 * loc.ch + loc.sub → t.cold.stored loc' l = s.cold.stored loc' l) ∧
      (w.done + n = 4194304 → look none t.cold.wipes (64 * loc.ch + loc.sub) = none)) ∧
  (∀ (x : SLine) (key tweak : Nat), key ≠ 0 →
    (x.key = key → x.tweak = tweak → x.readAs key tweak = x.data) ∧
    (x.key = 0 → x.data = 0 → x.readAs key tweak = xtsDec (Config.secret key) tweak 0)) ∧
  (∀ (p idx : Nat) (tier : Tier) (s : State), p < 16 → (s.part p).sx.zeroPend.contains (tier, idx) = true →
    ((∀ loc ∈ (s.part p).places tier idx, s.wipeOf tier loc = none) → ∃ t, exec (.zeroDone p tier idx) s = .next t ∧
      t.part p = { s.part p with sx := { (s.part p).sx with zeroPend := (s.part p).sx.zeroPend.filter (· ≠ (tier, idx)) } } ∧
      (∀ q, q ≠ p → t.part q = s.part q) ∧ t.stks = s.stks ∧ t.cold = s.cold ∧
      ((t.part p).sx.zeroPend = [] → Notified s t 0x06 p [])) ∧
    ((∃ loc ∈ (s.part p).places tier idx, s.wipeOf tier loc ≠ none) → exec (.zeroDone p tier idx) s = .next s))

/-! ### Terms for the links and the fabric -/

namespace Sys2Proof.Stmt

open Sys2Proof.Machine

/-- Port `i` is between its phases and sends and receives control flits: UP, FENCED or CALIBRATING. -/
def PortLive (x : Port) : Prop := x.st = .up ∨ x.st = .fenced ∨ x.st = .calibrating

/-- Exactly one flit more is sent: `f` in slot `n` of port `i`, held for budget `b`, and handed to the lanes as the segments of
logical lanes 0 to 8, to be launched when the hold is over (R288, R292, R305); the superframes complete by now go out before it. -/
def SentFlit (s t : State) (i n b : Nat) (f : Flit) : Prop :=
  (∃ l, t.out = s.out ++ l ++ [Sent.flit i n s.cycle (s.holdOf s.fcyc b) f] ∧ ∀ m ∈ l, ∃ k w, m = Sent.superframe i k w) ∧
  { at' := s.wallNow + s.holdOf s.fcyc b, segs := (s.port i).laneSegs f } ∈ (t.port i).txq ∧ t.cells = s.cells ∧ t.blocks = s.blocks ∧
  t.parts = s.parts ∧ t.raised = s.raised ∧ ∀ k, k ≠ i → t.port k = s.port k

/-- Only port `i` changed, and it is `f` of what it was. -/
def OnlyPort (s t : State) (i : Nat) (f : Port → Port) : Prop :=
  t.port i = f (s.port i) ∧ (∀ k, k ≠ i → t.port k = s.port k) ∧ t.parts = s.parts ∧ t.blocks = s.blocks ∧ t.cells = s.cells

/-- Exactly one job fault `code` more is raised, against the jobs with plan slots on port `i`, which is DOWN; the flits that others sent
through it are dropped (R311, R331). -/
def LinkFailed (s t : State) (i code : Nat) : Prop :=
  RaisedOne s t .job code (s.scope (fun p => (s.part p).onPort i)) ∧ (t.port i).st = .down ∧
  (∀ k, ∀ d ∈ look [] (t.port i).dynQ k, d.epoch = none) ∧
  ∀ k, k ≠ i → t.port k = s.port k

/-- A slot may be sent on port `i` in this cycle: it is the attachment cycle of slot `n` and nothing was sent in it. -/
def SlotDue (s : State) (i n : Nat) : Prop := slotAt s.fcyc = some n ∧ (s.port i).lastTx ≠ s.cycle + 1

/-- The payload of logical lane `k` of the segments that arrive on the physical lanes of a port, lane `b` (if any) rebuilt as the XOR
of the other eight (R283, R296). -/
def paysOf (x : Port) (segs : List Seg) (b : Option Nat) (k : Nat) : BitVec 512 :=
  if b = some k then ((List.range 9).filter (fun j => decide (j ≠ k))).foldl (fun a j => a ^^^ (x.lane segs j).pay) 0
  else (x.lane segs k).pay

/-- The line of partition `p` at cold address `a` holds `d` through the entry of set `setB`. -/
def ColdHolds (t : State) (p : Nat) (setB : Bool) (a : Nat) (d : Line) : Prop :=
  ∀ loc, (t.part p).entry .cold (a / 2 ^ 30) setB = some loc →
    find t.cold.lines (coldKeyOf loc a) = some { key := look 0 t.cold.keys p, tweak := a / 256, data := d }

/-- Transfer `k` is first in SEQ order of its sequence; SEQ wraps (R326). -/
def FirstOf (s : State) (k : Nat) (x : Xfer) : Prop :=
  ∀ e ∈ s.fab.xfers, ∀ y, e.2 = some y → seqKey y.hdr = seqKey x.hdr → e.1 ≠ k →
    seqAhead y.hdr.seq x.hdr.seq < 2 ^ 31 ∧ 2 ^ 31 ≤ seqAhead x.hdr.seq y.hdr.seq

/-- The response to request `h` of `n` lines: one flit with STATUS `st` (R327). -/
def oneFlit (h : DynHdr) (st n : Nat) : Outgo :=
  { part := h.dpart, cls := 3, hdr := { h with dst := h.src, status := st, hops := 0, last := true, total := n, piece := 0 }, data := false
    laddr := h.addr, next := 0, n := 1 }

/-- The response to a READ of `n` lines (R327). -/
def lineFlits (h : DynHdr) (n : Nat) : Outgo :=
  { part := h.dpart, cls := 3, hdr := { h with dst := h.src, status := 0, hops := 0, last := true, total := n, piece := 0 }, data := true
    laddr := h.addr, next := 0, n := n }

end Sys2Proof.Stmt

/-- In its attachment cycle a slot sends what its row names: a plan flit, a dynamic flit, a forwarded flit or a lull.
Rests on R288, R290, R292, R293, R294, R305, R313, R317, R318, R320, R321, R334. -/
def Obligations.SlotsAreSent : Prop :=
  (∀ (i : Nat) (s : State), slotAt s.fcyc = none → exec (.slotTransmit i .ok []) s = .next s) ∧
  (∀ (i n : Nat) (s : State), SlotDue s i n →
    let lull : Flit := { typ := 0, epoch := s.lullEpoch i n, check := slotCheck s.tf n, lo := 0, hi := 0 }
    ((s.port i).st = .fenced ∨ (s.port i).st = .up ∧ (s.port i).inSync = false ∨
        (s.port i).st = .up ∧ s.slotHolder i 5 n = none ∧ s.bootSlot i n = none →
      ∃ t, exec (.slotTransmit i .ok []) s = .next t ∧ SentFlit s t i n (s.port i).latTx lull) ∧
    (∀ p row, (s.port i).st = .up → (s.port i).inSync = true → s.slotHolder i 5 n = some p → (s.part p).st = .running →
      (s.port i).budgetBad.getLsbD p = false → s.fwdIn i n p = none →
      (s.part p).portRow i 0 n ((s.part p).planTime / 1024) ((s.part p).planTime / 1024) (s.part p).ver = some row →
      (∀ h0 h1 : Hop, bits row.toNat 29 3 = 1 → (s.part p).leases? 5 0 i 0 n = true → (s.port i).outBeats = [h0, h1] →
        h0.cyc = s.cycle → h1.cyc = s.cycle → h0.port = 0 → h1.port = 1 → h0.beat.live = true → h1.beat.live = true →
        h0.beat.sb.part.toNat = p → h1.beat.sb.part.toNat = p →
        ∃ t, exec (.slotTransmit i .ok []) s = .next t ∧ (t.port i).outBeats = [] ∧ SentFlit s t i n (s.budgetOf p i 0)
          { typ := 1, epoch := (s.part p).ver, check := slotCheck s.tf n, lo := h0.beat.data, hi := h1.beat.data }) ∧
      (∀ cls d rest, cls = 2 ∨ cls = 3 → bits row.toNat 29 3 = cls → (s.part p).leases? 5 (if cls = 2 then 5 else 6) i 0 n = true →
        look [] (s.port i).dynQ (dynKey p cls) = d :: rest → d.due ≤ s.cycle → d.epoch.getD (s.part p).ver = (s.part p).ver →
        ∃ t, exec (.slotTransmit i .ok []) s = .next t ∧ look [] (t.port i).dynQ (dynKey p cls) = rest ∧
          SentFlit s t i n (s.budgetOf p i 0)
            { typ := cls, epoch := (s.part p).ver, check := slotCheck s.tf n, lo := hdrLine d.hdr, hi := d.line })) ∧
    (∀ p cls d rest, (s.port i).st = .up → (s.port i).inSync = true → s.slotHolder i 5 n = none →
      s.bootSlot i n = some (p, cls) → look [] (s.port i).dynQ (dynKey p cls) = d :: rest → d.due ≤ s.cycle →
      ∃ t, exec (.slotTransmit i .ok []) s = .next t ∧ look [] (t.port i).dynQ (dynKey p cls) = rest ∧
        SentFlit s t i n (s.budgetOf p i 0)
          { typ := cls, epoch := d.epoch.getD (s.part p).ver, check := slotCheck s.tf n, lo := hdrLine d.hdr, hi := d.line })) ∧
  (∀ (i n p : Nat) (s : State) (row : BitVec 32) (f : FwdFlit), SlotDue s i n → (s.port i).st = .up → (s.port i).inSync = true →
    s.slotHolder i 5 n = some p → (s.part p).st = .running → (s.port i).budgetBad.getLsbD p = false →
    (s.part p).portRow i 0 n ((s.part p).planTime / 1024) ((s.part p).planTime / 1024) f.flit.epoch = some row →
    bits row.toNat 29 3 = 4 → (s.port i).fwd = [f] → f.due = s.cycle → f.port = bits row.toNat 25 4 → f.slot = bits row.toNat 16 9 →
    ∃ t, exec (.forwardLaunch i) s = .next t ∧ (t.port i).fwd = [] ∧
      SentFlit s t i n (s.budgetOf p i 0) { f.flit with check := slotCheck s.tf n }) ∧
  (∀ (i : Nat) (s : State), (s.port i).st ≠ .up → ∃ t, exec (.forwardLaunch i) s = .next t ∧ t.out = s.out ∧
    OnlyPort s t i (fun x => { x with
      outBeats := x.outBeats.filter (fun h => decide (s.cycle < h.cyc)), fwd := x.fwd.filter (fun f => decide (s.cycle < f.due)) }))

/-- The segments of ten lanes give a flit, one failed lane rebuilt; a plan flit is presented, forwarded, or refused; a dynamic flit
enters the engine or the switch. Rests on R283, R287, R296, R297, R304, R315, R316, R317, R318, R320, R323, R334. -/
def Obligations.FlitsAreReceived : Prop :=
  (∀ (i n fl b back : Nat) (s : State) (segs : List Seg) (bad : Option Nat) (tag : BitVec 16),
    let chk := tag.toNat % 4096
    let seg := (s.port i).lane segs
    (s.port i).st = .up →
    (∀ k, k < 9 → segPasses (seg k) = decide (bad ≠ some k)) → (∀ k, bad = some k → k < 9) →
    (∀ k, k < 9 → bad ≠ some k → (seg k).tag = tag) → tag.toNat / 2 ^ 13 ≤ 3 → chk < 3072 → n = chk % 384 →
    s.expected i n b fl (chk / 384) = some back → (∀ k, bad = some k → (look [] (s.port i).failAt k).length < 16) →
    b = (match s.slotHolder i 6 n with | none => (s.port i).latRx | some p => s.budgetOf p i 1) →
    fl < 8 * ((s.port i).latRx - 8) + 48 → 8 * b < fl + 768 → fl ≤ 8 * (s.port i).latRx →
    ∃ t x, exec (.flitReceive i segs fl) s = .next t ∧ t.raised = s.raised ∧ (t.port i).st = .up ∧
      (∀ k, k ≠ i → t.port k = s.port k) ∧ t.parts = s.parts ∧ t.blocks = s.blocks ∧
      (t.port i).inbox = (s.port i).inbox ++ [x] ∧ x.due = 1024 * (s.frm - back) + attach n + b ∧ x.slot = n ∧
      x.frm = s.frm - back ∧ x.flit.typ = tag.toNat / 2 ^ 13 ∧ x.flit.epoch = tag.getLsbD 12 ∧ x.flit.check = chk ∧
      (∀ k, k < 4 → x.flit.lo.extractLsb' (512 * k) 512 = paysOf (s.port i) segs bad k) ∧
      (∀ k, k < 4 → x.flit.hi.extractLsb' (512 * k) 512 = paysOf (s.port i) segs bad (4 + k))) ∧
  (∀ (i fl : Nat) (s : State) (segs : List Seg), PortLive (s.port i) →
    (∃ j k, j < k ∧ k < 9 ∧ segPasses ((s.port i).lane segs j) = false ∧ segPasses ((s.port i).lane segs k) = false) →
    ∃ t, exec (.flitReceive i segs fl) s = .next t ∧ LinkFailed s t i 0x71) ∧
  (∀ (i : Nat) (s : State) (f : RxFlit), (s.port i).inbox = [f] → f.due ≤ s.cycle → (s.port i).st = .up → i ≠ 10 →
    (∀ p, s.slotHolder i 6 f.slot = some p → (s.part p).st = .running →
      let now := (s.part p).planTime / 1024
      let version := (s.part p).portRow i 1 f.slot (now + f.frm - s.frm) now f.flit.epoch
      (∀ row, version = some row → bits row.toNat 29 3 = 1 →
        (f.flit.typ ≤ 1 → ∃ t sb, exec (.flitDeliver i .ok) s = .next t ∧ t.raised = s.raised ∧ (t.port i).inbox = [] ∧
          sb.part = BitVec.ofNat 4 p ∧ sb.kind = 1 ∧ (∀ k, k ≠ portBlock i → t.block k = s.block k) ∧
          (t.block (portBlock i)).rin = (s.block (portBlock i)).rin ++ (if row.getLsbD 28 ∧ f.flit.typ = 1 then
            [{ cyc := s.cycle, port := 12, beat := { sb, data := f.flit.lo } },
             { cyc := s.cycle, port := 13, beat := { sb, data := f.flit.hi } }] else []) ∧
          ∀ k, k < 12 → (t.port k).fwd = (s.port k).fwd ++
            (if row.getLsbD (16 + k) then [{ due := s.cycle + 60, port := i, slot := f.slot, flit := f.flit }] else [])) ∧
        (1 < f.flit.typ → ∃ t, exec (.flitDeliver i .ok) s = .next t ∧ t.blocks = s.blocks ∧
          RaisedOne s t .job 0x80 (s.scope (fun q => decide (q = p))))) ∧
      (version = none → f.flit.typ = 1 → ∃ t, exec (.flitDeliver i .ok) s = .next t ∧ t.blocks = s.blocks ∧
        RaisedOne s t .job 0x81 (s.scope (fun q => decide (q = p)))) ∧
      (∀ row c, version = some row → bits row.toNat 29 3 = c → c = 2 ∨ c = 3 → f.flit.typ = c →
        ∃ t d, exec (.flitDeliver i .ok) s = .next t ∧ t.raised = s.raised ∧ t.blocks = s.blocks ∧ (t.port i).inbox = [] ∧
          d.lay = p ∧ d.cls = c ∧ d.epoch = some f.flit.epoch ∧ d.line = f.flit.hi ∧
          ((hdrOf f.flit.lo).dst = (s.part p).rank → d.hdr = hdrOf f.flit.lo ∧ t.fab.inq = s.fab.inq ++ [(i, d)] ∧
            (t.port i).fwdDyn = (s.port i).fwdDyn) ∧
          ((hdrOf f.flit.lo).dst ≠ (s.part p).rank → d.due = s.cycle + 60 ∧ d.hdr.hops = (hdrOf f.flit.lo).hops + 1 ∧
            t.fab = s.fab ∧ (t.port i).fwdDyn = (s.port i).fwdDyn ++ [d]))) ∧
    (s.slotHolder i 6 f.slot = none → s.bootSlot i f.slot = none → f.flit.typ ≠ 0 →
      ∃ t, exec (.flitDeliver i .ok) s = .next t ∧ t.raised = s.raised ∧
        OnlyPort s t i (fun x => { x with inbox := [], stray := x.stray + 1 })))

/-- The spare takes over a failing lane at SPARE_AT; training sets LAT; a lost link is DOWN and faults its jobs. Rests on
R283, R298, R299, R300, R301, R302, R303, R307, R308, R309, R311. -/
def Obligations.LanesAndTraining : Prop :=
  (∀ (i : Nat) (s : State) (c : CtlFlit), (s.port i).peer = some c → c.spareLane ≠ 0xF → c.spareAt ≠ 0 → (s.port i).dual = false →
    c.spareAt ≤ (s.tu.ahead 2 s.tu.grid).tf → ∃ t, exec (.spareDualSend i) s = .next t ∧ (t.port i).dual = true ∧
      (t.port i).spareTx = c.spareLane ∧ (t.port i).lanesTx = (s.port i).lanesTx ∧
      (∀ k, k ≠ i → t.port k = s.port k) ∧ t.parts = s.parts ∧ t.blocks = s.blocks ∧ t.cells = s.cells) ∧
  (∀ (x : Port) (f : Flit) (j d : Nat), x.lanesTx[j]? = some d →
    (x.laneSegs f)[j]? = some (if d < 9 then some (segBits (flitTag f) (lanePay f d))
      else if x.dual then some (segBits (flitTag f) (lanePay f x.spareTx)) else none)) ∧
  (∀ (i k : Nat) (s : State), (s.port i).spareLane = k → k ≠ 0xF → k < 9 → (s.port i).spareAt ≤ s.tf →
    ∃ t, exec (.laneSpared i) s = .next t ∧ RaisedOne s t .event 0xC4 [] ∧ (t.port i).spareRx = k ∧ (t.port i).spareLane = 0xF ∧
      (t.port i).spareOk = false ∧ (∀ j, (t.port i).badRx.getLsbD j = ((s.port i).badRx.getLsbD j && decide (j ≠ k))) ∧
      (t.port i).lanesRx = (s.port i).lanesRx.map (fun d => if d = k then 9 else if d = 9 then k else d) ∧
      (∀ j, j ≠ i → t.port j = s.port j)) ∧
  (∀ (i : Nat) (s : State),
    (PortLive (s.port i) → (s.port i).spareOk = false → (s.port i).spareSeen + 1024000 ≤ s.frm →
      exec (.spareOkRestore i) s = .next (s.onPort i (fun x => { x with spareOk := true }))) ∧
    (¬ PortLive (s.port i) ∨ (s.port i).spareOk = true ∨ s.frm < (s.port i).spareSeen + 1024000 →
      exec (.spareOkRestore i) s = .next s)) ∧
  (∀ (i : Nat) (sg : Seg) (s : State), ∃ t, exec (.spareLaneSegment i sg) s = .next t ∧ t.raised = s.raised ∧
    (segPasses sg = true → t = { s with counters := t.counters, health := t.health }) ∧ (segPasses sg = false →
      OnlyPort s t i (fun x => { x with badSeg := x.badSeg + 1, spareOk := false, spareSeen := s.frm }))) ∧
  (∀ (i : Nat) (r : TrainOut) (s : State),
    let lat := max 16 ((r.storm8 + 7) / 8 + 8)
    (s.boot.phase = .calibration → s.tu.gust = 0 → (s.port i).st ≠ .off → (s.port i).st ≠ .failed → (s.port i).st ≠ .up →
      ∃ t, exec (.portTraining i r) s = .next t ∧ t.raised = s.raised ∧ (∀ k, k ≠ i → t.port k = s.port k) ∧
        (trainOk r = false → t.port i = { s.port i with st := .training }) ∧
        (trainOk r = true → lat ≤ 4095 → (t.port i).st = .fenced ∧ (t.port i).latRx = lat ∧
          (t.port i).stormCorr = (r.storm8 - r.quiet8 + 7) / 8 ∧ (t.port i).flightMax = r.storm8 ∧ (t.port i).spareOk = true ∧
          (t.port i).lanesRx = r.lanes) ∧
        (trainOk r = true → 4095 < lat → t.port i = { s.port i with st := .failed })) ∧
    (s.boot.phase ≠ .calibration ∨ s.tu.gust ≠ 0 → exec (.portTraining i r) s = .next s) ∧
    (∀ l, (s.port i).st = .down ∨ (s.port i).st = .training → trainOk r = true →
      l = max 16 ((r.quiet8 + 8 * (s.port i).stormCorr + 7) / 8 + 8) → l ≤ 4095 →
      ∃ t, exec (.fastRetrain i r) s = .next t ∧ (t.port i).st = .fenced ∧ (t.port i).latRx = l ∧ (t.port i).latTx = 0 ∧
        (t.port i).fast = true ∧ (∀ k, k ≠ i → t.port k = s.port k) ∧
        ((∀ p b, p < 16 → (s.part p).budget i 1 = some b → (s.part p).onPort i = true → l ≤ b) → t.raised = s.raised ∧
          (t.port i).budgetBad = (s.port i).budgetBad) ∧
        (∀ p b, p < 16 → (s.part p).budget i 1 = some b → (s.part p).onPort i = true → b < l →
          (t.port i).budgetBad.getLsbD p = true ∧ (t.port i).lastFatal = 7 ∧ ∃ r ∈ t.raised, r.cls = .job ∧ r.code = 0x77 ∧
            r.parts = s.scope (fun x => decide (x = p)))) ∧
    ((s.port i).st ≠ .down → (s.port i).st ≠ .training → exec (.fastRetrain i r) s = .next s)) ∧
  (∀ (i : Nat) (lost : List Nat) (whole : Bool) (s : State), PortLive (s.port i) →
    (whole = true ∨ (∃ j k, j < k ∧ k < 10 ∧ j ∈ lost ∧ k ∈ lost) → ∃ t, exec (.linkDown i lost whole) s = .next t ∧
      LinkFailed s t i 0x76) ∧
    (∀ j d, whole = false → lost = [j] → j < 10 → (s.port i).lostLock = 0 → (s.port i).lanesRx[j]? = some d → d < 9 →
      ∃ t, exec (.linkDown i lost whole) s = .next t ∧ t.raised = s.raised ∧ (t.port i).st = (s.port i).st ∧
        (t.port i).badRx.getLsbD d = true ∧ (∀ k, k ≠ i → t.port k = s.port k)))

/-- At cycle 1,023 a live port sends its control flit; one that has been received gives the peer's fields when it falls due. Rests on
R291, R294, R304, R310, R340, R364, R365, R381, R384. -/
def Obligations.ControlFlitsTravel : Prop :=
  (∀ (i : Nat) (s : State), s.fcyc ≠ 1023 → exec (.controlFlitTx i) s = .next s) ∧
  (∀ (i : Nat) (s : State), s.fcyc = 1023 → (s.port i).lastTx ≠ s.cycle + 1 →
    (PortLive (s.port i) → ((s.port i).st = .up ∨ ∀ v ∈ s.tu.votes, s.voteUses i s.frm v = false) →
      ∃ t l hold c, exec (.controlFlitTx i) s = .next t ∧ t = { s with out := t.out, ports := t.ports } ∧
        t.out = s.out ++ l ++ [.ctl i hold c] ∧ (∀ m ∈ l, ∃ k w, m = Sent.superframe i k w) ∧
        (∀ k, k ≠ i → t.port k = s.port k) ∧ c.frame = s.tf ∧
        c.serial = s.fuses.serial ∧ c.port = i ∧ c.laneBad = (s.port i).badRx ∧ c.spareLane = (s.port i).spareLane ∧
        c.spareAt = (s.port i).spareAt ∧ c.latRx = (s.port i).latRx ∧ c.heartbeat = s.frm ∧
        ∀ p, p < 16 → c.commit.getD p (false, 0) = (s.running p, (s.part p).committed.getD noStep)) ∧
    ((s.port i).st ≠ .up → (∃ v ∈ s.tu.votes, s.voteUses i s.frm v = true ∧ v.lost = false) →
      ∃ t, exec (.controlFlitTx i) s = .next t ∧ RaisedOne s t .job 0x95 s.timeScope ∧ t.parts = s.parts ∧
        ∀ k, k ≠ i → t.port k = s.port k)) ∧
  (∀ (i : Nat) (r : RxCtl) (s : State), (s.port i).ctlIn = [r] →
    (r.due ≤ s.cycle → PortLive (s.port i) →
      ∃ t, exec (.controlFlitRx i) s = .next t ∧ (t.port i).peer = some r.ctl ∧ (t.port i).latTx = r.ctl.latRx ∧
        (t.port i).ctlIn = [] ∧ (t.port i).st = (s.port i).st ∧
        (t.port i).inSync = decide (r.ctl.frame = (s.tu.back (s.frm - r.frm)).tf) ∧
        (∀ k, k ≠ i → t.port k = s.port k) ∧ t.cells = s.cells ∧ t.blocks = s.blocks ∧
        ((∀ p, p < 16 → (s.part p).jb.rotV = none ∧ ((s.part p).multi = false ∨ (s.part p).onPort i = false)) →
          t.parts = s.parts ∧ t.raised = s.raised) ∧
        (i ≠ 10 → t.shadows = s.shadows) ∧
        (∀ p k l, i = 10 → SMap.wf Shadow.zero s.shadows = true → (s.shadow p).prov = some (k, l) →
          (r.ctl.commit.getD p (false, 0) = (true, k) → t.shadow p = { s.shadow p with promoted := some (k, l), prov := none }) ∧
          ((r.ctl.commit.getD p (false, 0)).1 = false → (t.shadow p).prov = none ∧ (t.shadow p).promoted = (s.shadow p).promoted))) ∧
    (s.cycle < r.due → exec (.controlFlitRx i) s = .next s)) ∧
  (∀ s : State, exec .twinHeartbeatLost s = .next (if (s.port 10).hbAt + 64 ≤ s.frm
    then s.onPort 10 (fun x => { x with hbLost := true }) else s))

/-- A request is executed once and answered; a response completes its transfer in SEQ order or is dropped late. Rests on
R324, R325, R326, R327, R328, R329, R330, R331, R332. -/
def Obligations.DynamicTransfersComplete : Prop :=
  (∀ (i : Nat) (d : DynFlit) (s : State), s.fab.inq = [(i, d)] → d.cls = 2 →
    look none s.fab.dups (dupKey d.hdr.job d.hdr.src d.hdr.dst d.hdr.ch) = none → s.fab.dups.length < 4096 →
    d.hdr.last = true → d.hdr.piece = 0 →
    let h := d.hdr
    (h.op = 2 → h.total = 1 → ∃ t st e, exec .dynRequestRx s = .next t ∧ st = (s.part h.dpart).dynStatus h 1 ∧ t.fab.inq = [] ∧
      t.fab.outq = s.fab.outq ++ [oneFlit h st 1] ∧ look none t.fab.dups (dupKey h.job h.src h.dst h.ch) = some e ∧
      e.next = (h.seq + 1) % 2 ^ 32 ∧ t.parts = s.parts ∧ t.cells = s.cells ∧ t.stks = s.stks ∧
      (st ≠ 0 → t.cold = s.cold) ∧
      (st = 0 → s.cold.state ≠ .failed → look 0 s.cold.keys h.dpart ≠ 0 → ColdHolds t h.dpart
        ((s.part h.dpart).rotated .cold (h.addr / 2 ^ 30) && !(s.part h.dpart).active) h.addr d.line)) ∧
    (h.op = 1 → (s.part h.dpart).dynStatus h h.total = 0 → ∃ t, exec .dynRequestRx s = .next t ∧ t.fab.inq = [] ∧
      t.fab.outq = s.fab.outq ++ [lineFlits h h.total] ∧ t.cold = s.cold ∧ t.parts = s.parts)) ∧
  (∀ (i : Nat) (d : DynFlit) (s : State) (e : DupEntry) (r : DupRec) (st : Nat), s.fab.inq = [(i, d)] → d.cls = 2 →
    look none s.fab.dups (dupKey d.hdr.job d.hdr.src d.hdr.dst d.hdr.ch) = some e →
    e.recs.find? (fun r => decide (r.seq = d.hdr.seq)) = some r → r.status = some st → d.hdr.op = 2 → d.hdr.last = true →
    exec .dynRequestRx s = .next { s with fab := { s.fab with inq := [], outq := s.fab.outq ++ [oneFlit d.hdr st (r.total.getD d.hdr.total)] } }) ∧
  (∀ s : State, (∀ e ∈ s.fab.inq, e.2.cls ≠ 2) → exec .dynRequestRx s = .next s) ∧
  (∀ s : State, (∀ e ∈ s.fab.inq, e.2.cls ≠ 3) → exec .dynResponseRx s = .next s) ∧
  (∀ (i : Nat) (d : DynFlit) (s : State), s.fab.inq = [(i, d)] → d.cls = 3 → s.xfer (xferKey d.hdr.ch d.hdr.tag) = none →
    ∃ t, exec .dynResponseRx s = .next t ∧ t.fab = { s.fab with inq := [], lateDrop := s.fab.lateDrop + 1 } ∧ t.cold = s.cold ∧
      t.out = s.out) ∧
  (∀ (i : Nat) (d : DynFlit) (s : State) (x : Xfer), s.fab.inq = [(i, d)] → d.cls = 3 →
    s.xfer (xferKey d.hdr.ch d.hdr.tag) = some x → x.gen = d.hdr.gen → x.done = none →
    FirstOf s (xferKey d.hdr.ch d.hdr.tag) x → x.hdr.op = 2 →
    ∃ t, exec .dynResponseRx s = .next t ∧ t.xfer (xferKey d.hdr.ch d.hdr.tag) = none ∧ t.cold = s.cold ∧
      ∀ c, x.hdrCmd = some c → Listening s c 0x0622 → Answered t c 0x0622 d.hdr.status []) ∧
  (∀ (ch tag : Nat) (s : State) (x : Xfer), s.xfer (xferKey ch tag) = some x → x.done = none →
    (x.quar = none → (∀ o ∈ s.fab.outq, o.cls = 2 → xferKey o.hdr.ch o.hdr.tag ≠ xferKey ch tag) →
      s.queued (xferKey ch tag) = false → s.answered (xferKey ch tag) = false →
      (s.wallNs < x.sentAt + 1000 * x.timeout → exec (.dynTimeout ch tag) s = .next s) ∧
      (x.sentAt + 1000 * x.timeout ≤ s.wallNs → x.tries < x.retries → ∃ t o, exec (.dynTimeout ch tag) s = .next t ∧
        t.xfer (xferKey ch tag) = some { x with tries := x.tries + 1, gen := (x.gen + 1) % 256, quar := none, left := [] } ∧
        t.fab.outq = s.fab.outq ++ [o] ∧ o.hdr.gen = (x.gen + 1) % 256 ∧ o.next = 0 ∧ o.cls = 2 ∧
        t.fab.retries = s.fab.retries + 1 ∧ t.out = s.out) ∧
      (x.sentAt + 1000 * x.timeout ≤ s.wallNs → x.retries ≤ x.tries → FirstOf s (xferKey ch tag) x →
        ∃ t, exec (.dynTimeout ch tag) s = .next t ∧
          t.xfer (xferKey ch tag) = none ∧ ∀ c, x.hdrCmd = some c → Listening s c 0x0622 → Answered t c 0x0622 0x09 [])) ∧
    (∀ j, x.quar = some j → (s.port j).st = .up → ∃ t, exec (.quarantineResend ch tag) s = .next t ∧
      t.xfer (xferKey ch tag) = some { x with gen := (x.gen + 1) % 256, quar := none, left := [] } ∧
      t.fab.retries = s.fab.retries + 1 ∧ t.out = s.out)) ∧
  (∀ (i : Nat) (s : State) (d : DynFlit), (s.port i).fwdDyn = [d] → d.due ≤ s.cycle →
    ∃ t, exec (.dynForward i) s = .next t ∧ (t.port i).fwdDyn = [] ∧
      (64 ≤ d.hdr.hops → (t.port i).stray = (s.port i).stray + 1 ∧ (t.port i).dynQ = (s.port i).dynQ) ∧
      (∀ j, d.hdr.hops < 64 → s.retired? d.lay d.epoch = false →
        (s.onPort i (fun x => { x with fwdDyn := [] })).dynPort d.lay d.cls d.hdr.dst s.cycle d.epoch = some j →
        (look [] (s.port j).dynQ (dynKey d.lay d.cls)).length < 64 →
        look [] (t.port j).dynQ (dynKey d.lay d.cls) = look [] (s.port j).dynQ (dynKey d.lay d.cls) ++
          [{ d with due := s.cycle }]))

/-- The twin's stream fills the shadow region; a map, a park copy, a release and the pair key take effect. Rests on R338,
R339, R340, R341, R389, R424. -/
def Obligations.TwinKeepsShadow : Prop :=
  (∀ s : State, s.fab.shadowIn = [] → exec .shadowFlitRx s = .next s) ∧
  (∀ (fl : Flit) (rest : List Flit) (s : State), s.fab.shadowIn = fl :: rest →
    (∀ k m, k < 16 → (s.shadow k).map = some m → fl.check % 384 ∉ m.slots) →
    ∃ t, exec .shadowFlitRx s = .next t ∧ t.fab.shadowIn = rest ∧ t.shadows = s.shadows ∧ (t.port 10).stray = (s.port 10).stray + 1) ∧
  (∀ (q : Nat) (fl : Flit) (rest : List Flit) (s : State), s.fab.shadowIn = fl :: rest → q < 16 →
    (∃ m, (s.shadow q).map = some m ∧ fl.check % 384 ∈ m.slots) →
    (∀ k m, k < q → (s.shadow k).map = some m → fl.check % 384 ∉ m.slots) →
    let x := s.shadow q
    let w := fl.lo.toNat
    ∃ t, exec .shadowFlitRx s = .next t ∧ t.fab.shadowIn = rest ∧ (∀ k, k ≠ q → t.shadow k = s.shadow k) ∧ t.parts = s.parts ∧
      (x.left = 0 → bits w 0 32 = 0x49545331 → (bits w 32 8 = 1 ∨ bits w 32 8 = 2) → bits w 40 24 = 0 → bits w 240 1808 = 0 →
        fl.hi = 0 → bits w 128 64 % 2 = 0 → bits w 192 32 ≠ 0 → bits w 192 32 ≤ 2 ^ 24 →
        bits w 128 64 + 2 * bits w 192 32 ≤ s.regionSize q → t.shadow q =
          { x with left := bits w 192 32, line := bits w 128 64, kind := bits w 32 8, stepNo := bits w 64 64, building := [], lost := false }) ∧
      (x.left = 0 → bits w 0 32 ≠ 0x49545331 → t.shadow q =
        if x.lost then x else { x with incompl := true, missed := x.missed + 1, left := 0, lost := true }) ∧
      (0 < x.left → look 0 (t.shadow q).lines x.line = fl.lo ∧ look 0 (t.shadow q).lines (x.line + 1) = fl.hi ∧
        (∀ j, j ≠ x.line → j ≠ x.line + 1 → look 0 (t.shadow q).lines j = look 0 x.lines j) ∧
        (t.shadow q).left = x.left - 1 ∧ (t.shadow q).line = x.line + 2 ∧ (t.shadow q).promoted = x.promoted)) ∧
  (∀ (q : Nat) (m : TwinMap) (s : State), ∃ t, exec (.twinMapTransfer q m) s = .next t ∧ (s.keys.pairKey = false → t = s) ∧
    (s.keys.pairKey = true → (t.shadow q).map = some m ∧ (t.shadow q).incompl = ((s.shadow q).incompl && !m.fresh) ∧
      (t.shadow q).twinSize = m.region ∧ (t.shadow q).lines = (s.shadow q).lines ∧ ∀ k, k ≠ q → t.shadow k = s.shadow k)) ∧
  (∀ (q entry line n : Nat) (s : State), look none (s.shadow q).parkReq entry = some (line, n) →
    ∃ t, exec (.twinParkCopy q entry) s = .next t ∧ t.out = s.out ++ (if s.keys.pairKey then [.twinParked q entry] else []) ∧
      look [] (t.shadow q).parks entry = (List.range n).map (fun j => look 0 (s.shadow q).lines (line + j)) ∧
      look none (t.shadow q).parkReq entry = none ∧ ∀ e, e ≠ entry → look [] (t.shadow q).parks e = look [] (s.shadow q).parks e) ∧
  (∀ (q entry : Nat) (s : State), ∃ t, exec (.twinRelease q entry) s = .next t ∧ (s.keys.pairKey = false → t = s) ∧
    (s.keys.pairKey = true → look [] (t.shadow q).parks entry = [] ∧
      ∀ e, e ≠ entry → look [] (t.shadow q).parks e = look [] (s.shadow q).parks e)) ∧
  (∀ (q : Nat) (rq : ShadowReq) (s : State), ∃ st c l, exec (.twinShadowServe q rq) s =
      .next { s with out := s.out ++ [.twinStatus rq.serial st c l] } ∧
    (st = 0 ↔ (∃ m, (s.shadow q).map = some m ∧ m.job = rq.job ∧ m.rank = rq.rank ∧ m.key.isSome = true) ∧
      (s.shadow q).grafted rq = true ∧ (s.shadow q).promoted.isSome = true ∧ (s.shadow q).incompl = false) ∧
    (st = 0 → c = (s.shadow q).promoted ∧ l = (s.shadow q).lines) ∧ (st ≠ 0 → c = none ∧ l = [])) ∧
  (∀ (b : Bool) (s : State) (c : CtlFlit) (n : Nat), (s.port 10).st = .up → s.keys.twinSerial = some n → (s.port 10).peer = some c →
    c.serial = n → exec (.pairKeyExchange b) s = .next { s with keys := { s.keys with pairKey := b } })

/-! ### Terms for jobs and for the host's commands -/

namespace Sys2Proof.Stmt

open Sys2Proof.Machine

/-- Command `h` of opcode `op` passes stages 1 to 4 of R463 but for what it names: the module serves its path, no fence holds
it back, its session is proved, its tag verifies, its counter is new, its role has the right on this path, it is well encoded
and its data is read. Its completion will be written. -/
def Accepted (s : State) (h : Hdr) (op : Nat) : Prop :=
  s.serves h = true ∧ s.waits h op = false ∧ h.encOk = true ∧ h.dmaOk = true ∧ h.resOk = true ∧ Listening s h op ∧
  (sessionless op = true ∨ ∃ x, s.session h.sid = some x ∧ x.proved = true ∧ h.tag = cmdTag x.key h op ∧
    x.counter < h.counter ∧ s.denied h op x = false)

/-- `Accepted`, for a command about a partition that exists. -/
def AcceptedFor (s : State) (h : Hdr) (op : Nat) : Prop := Accepted s h op ∧ s.exists? h.part = true

/-- The state in which an accepted command's own part runs: the session's counter is taken and the command is counted. -/
def ready (s : State) (h : Hdr) (op : Nat) : State := ((s.begin h op).accepts h op false true).1

/-- The units a host command does not reach unless it says so are as they were. -/
def UnitsKept (s t : State) : Prop :=
  t.cells = s.cells ∧ t.blocks = s.blocks ∧ t.stks = s.stks ∧ t.cold = s.cold ∧ t.raised = s.raised

/-- The command has ended with status OK and results `res`, and of the partitions only `p` changed, to `f` of what it was. -/
def PartDone (s t : State) (h : Hdr) (op : Nat) (res : List (Nat × Nat)) (p : Nat) (f : Part → Part) : Prop :=
  Answered t h op 0 res ∧ OnlyPart s t p f

/-- Partition `p` takes message `m` of kind `k`: alone in the message's job on this module, for the first time, its tag verifying under
the job key (R372). -/
def Takes (s : State) (p k : Nat) (m : MgrMsg) : Prop :=
  m.kind = k ∧ msgOk (s.part p).sx.jobKey m = true ∧ s.mgmtDown = false ∧ s.inJob m.job = [p] ∧ p < 16 ∧
  (m.sender, m.seq) ∉ (s.part p).jb.seen

/-- A message the module sent: its kind, its sender's rank and job, its tag under the job key, and what `f` says of it. -/
def Told (s t : State) (p kind : Nat) (f : MgrMsg → Prop) : Prop :=
  ∃ m, Sent.mgr m ∈ t.out ∧ m.kind = kind ∧ m.sender = (s.part p).rank ∧ m.job = (s.part p).jb.job ∧
    (∀ k, (s.part p).msgKey = some k → m.tag = msgTag k m) ∧ f m

/-- The third copy of decision `m` from a third manager; nothing else is held (R373). -/
def Quorum (s : State) (p k : Nat) (m : MgrMsg) : Prop :=
  Takes s p k m ∧ m.sender ∈ (s.part p).jb.mgrs ∧ (s.part p).jb.applied < m.dseq ∧
  ∃ a b, (s.part p).jb.decs = [a, b] ∧ msgAgrees a m = true ∧ msgAgrees b m = true ∧
    a.sender ≠ m.sender ∧ b.sender ≠ m.sender ∧ a.sender ≠ b.sender

/-- The partition's job record once decision `m` has been applied, `f` being its own effect. -/
def Decided (s : State) (p : Nat) (m : MgrMsg) (f : JobSt → JobSt) : JobSt :=
  f { (s.part p).jb with applied := m.dseq, decs := [], seen := (s.part p).jb.seen ++ [(m.sender, m.seq)] }

end Sys2Proof.Stmt

/-- A round scores the module and reports HEALTH; managers record reports and decide by three votes. Rests on R372, R374,
R378, R379, R384, R504, R505. -/
def Obligations.MembersReportAndManagersVote : Prop :=
  (∀ s : State, s.hallNow / 10 ^ 8 = s.round → exec .managerRound s = .next s) ∧
  (∀ s : State, s.hallNow / 10 ^ 8 ≠ s.round → ∃ t, exec .managerRound s = .next t ∧ t.round = s.hallNow / 10 ^ 8 ∧
    (s.mgmtDown = true → t = { s with round := t.round, health := s.healthNow t.round }) ∧
    ((∀ p, p < 16 → (s.part p).jb.manager = false) → s.detachCmd = none →
      t.health.score = 1000 - (s.cePenalty + s.sparePenalty + s.thermPenalty + min 200 (25 * s.wmUnits t.round))) ∧
    ∀ p, p < 16 → s.mgmtDown = false → (s.part p).jb.jstate.reports = true → (s.part p).msgKey.isSome = true → Told s t p 1 (fun m =>
      m.seq = (s.part p).jb.seq + 1 ∧ m.arg0 % 1024 = 1000 - (s.cePenalty + s.sparePenalty + s.thermPenalty +
        min 200 (25 * s.wmUnits t.round)) ∧ m.arg2 = (s.part p).planFrame ∧
      ∀ n, (s.part p).committed = some n → m.arg1 = n)) ∧
  (∀ (p k : Nat) (m : MgrMsg) (s : State), Takes s p k m → (s.part p).jb.manager = true → (s.part p).jb.decs = [] →
    (s.part p).jb.mgr.grafts = [] →
    let g := (s.part p).jb.mgr
    (k = 1 → ∃ t, exec (.health m) s = .next t ∧ look none (t.part p).jb.mgr.health m.sender = some m ∧
      look 0 (t.part p).jb.mgr.lastHeard m.sender = s.round + 1 ∧
      look 0 (t.part p).jb.mgr.low m.sender = (if m.arg0 % 1024 < g.score then look 0 g.low m.sender + 1 else 0) ∧
      (∀ q, q ≠ p → t.part q = s.part q) ∧ t.out = s.out) ∧
    (k = 2 → ∃ t, exec (.seeded m) s = .next t ∧ look none (t.part p).jb.mgr.seeded m.sender = some m.digest0 ∧
      (∀ r, r ≠ m.sender → look none (t.part p).jb.mgr.seeded r = look none g.seeded r) ∧ (∀ q, q ≠ p → t.part q = s.part q) ∧
      ((s.part p).jb.jstate = .seeded → (s.part p).jobSize ≠ 0 →
        (∀ r, r < (s.part p).jobSize → r ≠ m.sender → look none g.seeded r = some m.digest0) →
        m.sender < (s.part p).jobSize →
        Told s t p 5 (fun d => s.hallNow + 10 ^ 8 ≤ 1024 * d.arg0 ∧ d.arg0 % 10 = 0 ∧ (s.part p).jb.applied < d.dseq))) ∧
    (k = 3 → ∃ t, exec (.notSeeded m) s = .next t ∧ look none (t.part p).jb.mgr.seeded m.sender = none ∧
      (t.part p).jb.mgr.orphans = (if m.cause = 1 then g.orphans ++ [(m.sender, m.aux)] else g.orphans) ∧
      (∀ q, q ≠ p → t.part q = s.part q)) ∧
    (k = 4 → m.cause = 1 → m.sender ∈ (s.part p).jb.mgrs → ∃ t, exec (.vote m) s = .next t ∧
      (t.part p).jb.mgr.votes = g.votes ++ [(m.subject, m.sender, m.arg0)] ∧ (∀ q, q ≠ p → t.part q = s.part q) ∧
      ∀ c a b, g.cands = [(m.subject, c)] → (m.subject, a, m.arg0) ∈ g.votes → (m.subject, b, m.arg0) ∈ g.votes → a ≠ b →
        a ≠ m.sender → b ≠ m.sender → Told s t p 6 (fun d => d.subject = m.subject ∧ d.cause = c))) ∧
  (∀ (m : MgrMsg) (s : State), (∀ p, p < 16 → msgOk (s.part p).sx.jobKey m = false) → s.mgmtDown = false →
    (m.kind = 1 → exec (.health m) s = .next { s with mgrDrop := s.mgrDrop + 1 }) ∧
    (m.kind = 4 → exec (.vote m) s = .next { s with mgrDrop := s.mgrDrop + 1 }))

/-- A decision applies with the third agreeing copy from a distinct manager, and then has its effect. Rests on R373, R378,
R379, R387, R389, R391, R393. -/
def Obligations.DecisionsNeedThreeManagers : Prop :=
  (∀ (p : Nat) (m : MgrMsg) (s : State), Takes s p 5 m → m.sender ∈ (s.part p).jb.mgrs → (s.part p).jb.applied < m.dseq →
    (s.part p).jb.decs = [] → exec (.startAt m) s = .next (s.onPart p (fun q =>
      { q with jb := { q.jb with decs := [m], seen := q.jb.seen ++ [(m.sender, m.seq)] } }))) ∧
  (∀ (p : Nat) (m : MgrMsg) (s : State), Quorum s p m.kind m →
    (m.kind = 5 → (s.part p).jb.jstate = .seeded → (s.part p).st = .staged → s.hallNow + 10 ^ 6 ≤ 1024 * m.arg0 → s.hubOn = true →
      ∃ t, exec (.startAt m) s = .next t ∧ OnlyPart s t p (fun q => { q with
        st := .armed, jb := Decided s p m (fun j => { j with jstate := .member, startMark := some m.arg0, resume := none }) })) ∧
    (m.kind = 6 → (s.part p).rank = m.subject → ∃ t, exec (.prune m) s = .next t ∧ OnlyPart s t p (fun q => { q with
        jb := Decided s p m (fun j => { j with
          jstate := .pruned, detach := false, mgrs := j.mgrs.map (fun r => if r = m.subject then m.aux else r)
          stopAt := if 0x10 ≤ m.cause then some m.arg0 else j.stopAt }) })) ∧
    (m.kind = 7 → (s.part p).jb.jstate = .spare → m.arg0 = s.fuses.serial → ∃ t, exec (.graft m) s = .next t ∧
      OnlyPart s t p (fun q => { q with
        rank := m.subject
        sx := { q.sx with jobKey := if q.sx.jobKeyWait.isSome then q.sx.jobKeyWait else q.sx.jobKey, jobKeyWait := none }
        jb := Decided s p m (fun j =>
          { j with jstate := .seeding, grafted := true, acks := [], seedBad := false, seedDigs := [], restored := false
                   seedAt := s.wallNs }) })) ∧
    (m.kind = 8 → (s.part p).jb.jstate = .member → (s.part p).st = .staged → s.hallNow + 10 ^ 6 ≤ 1024 * m.arg0 → s.hubOn = true →
      ∃ t, exec (.resumeAt m) s = .next t ∧ OnlyPart s t p (fun q => { q with
        st := .armed, jb := Decided s p m (fun j => { j with
          jstate := .member, startMark := some m.arg0
          resume := some (m.arg1, m.arg2 % 2 ^ 48, m.arg2 / 2 ^ 48 % 2 ^ 16) }) })) ∧
    (m.kind = 9 → ((s.part p).st = .armed ∨ (s.part p).st = .running) → ∃ t, exec (.teardown m) s = .next t ∧
      OnlyPart s t p (fun q => { q with jb := Decided s p m (fun j => { j with teardown := some m.arg0 }) })) ∧
    (m.kind = 0x0A → (s.part p).image = none → (s.part p).rank = m.subject →
      ((s.part p).jb.jstate = .seeding ∨ (s.part p).jb.jstate = .seeded) →
      ∃ t, exec (.reseed m) s = .next t ∧ (t.part p).jb.jstate = .joined ∧ (t.part p).st = .empty ∧ (t.part p).image = none ∧
        (t.part p).jb.applied = m.dseq ∧ (t.part p).jb.seedDigs = [] ∧ (∀ q, q ≠ p → t.part q = s.part q)) ∧
    (m.kind = 0x0B → ∃ t, exec (.managerReplace m) s = .next t ∧ OnlyPart s t p (fun q => { q with
        jb := Decided s p m (fun j => { j with
          mgrs := j.mgrs.map (fun r => if r = m.subject then m.aux else r)
          manager := j.manager && decide (q.rank ≠ m.subject) }) })))

/-- A seed piece is staged and passed to every child; acknowledgements lead to SEEDED; silence to NOT_SEEDED. Rests on
R375, R376, R377, R378. -/
def Obligations.SeedingSpreads : Prop :=
  (∀ (p : Nat) (sp : SeedPiece) (s : State), (s.part p).jb.jstate ≠ .joined → (s.part p).jb.jstate ≠ .seeding →
    exec (.seedTransfer p sp) s = .next s) ∧
  (∀ (p : Nat) (key : Hash) (good : Bool) (s : State), (s.part p).jb.jstate = .joined → (s.part p).image = none →
    ∃ t, exec (.seedTransfer p (.jobKey key good)) s = .next t ∧ (t.part p).jb.jstate = .seeding ∧
      (∀ q, q ≠ p → t.part q = s.part q) ∧ t.cells = s.cells ∧ t.cold = s.cold ∧
      (good = true → (t.part p).sx.jobKey = some key ∧ (t.part p).jb.seedBad = false ∧
        t.out = s.out ++ ((List.range 12).filter (fun i => (s.part p).jb.seedKids.getLsbD i)).map
          (fun i => .seed p i (.jobKey key true))) ∧
      (good = false → (t.part p).jb.seedBad = true ∧ t.out = s.out)) ∧
  (∀ (p child : Nat) (d : Hash) (s : State), (s.part p).jb.jstate = .seeding → (s.part p).jb.seedKids.getLsbD child = true →
    (s.part p).jb.manager = false → s.mgmtDown = false →
    ((s.part p).seedDigest = some d → (s.part p).stagedAll = false → exec (.seedAck p child d) s =
      .next (s.onPart p (fun q => { q with jb := { q.jb with acks := put false q.jb.acks child true } }))) ∧
    ((s.part p).seedDigest = some d → (s.part p).stagedAll = true → (s.part p).clean = true →
      (∀ i, i < 16 → i ≠ child → (s.part p).jb.seedKids.getLsbD i = true → look false (s.part p).jb.acks i = true) →
      ∃ t, exec (.seedAck p child d) s = .next t ∧ (t.part p).jb.jstate = .seeded ∧ (∀ q, q ≠ p → t.part q = s.part q) ∧
        Told s t p 2 (fun m => m.subject = (s.part p).rank ∧ m.digest0 = d) ∧
        ((s.part p).jb.seedPar ≠ 0xF → Sent.seedAck p d ∈ t.out)) ∧
    ((s.part p).seedDigest ≠ some d → (s.part p).msgKey.isSome = true → ∃ t, exec (.seedAck p child d) s = .next t ∧ (t.part p).jb.jstate = .seeding ∧
      Told s t p 3 (fun m => m.cause = 2))) ∧
  (∀ (p : Nat) (s : State), s.wallNs < (s.part p).jb.seedAt + 2 * 10 ^ 9 → exec (.seedTimeout p) s = .next s) ∧
  (∀ (p : Nat) (s : State), (s.part p).jb.jstate = .seeding → s.mgmtDown = false → (s.part p).msgKey.isSome = true →
    (s.part p).jb.seedAt + 2 * 10 ^ 9 ≤ s.wallNs →
    ∃ t, exec (.seedTimeout p) s = .next t ∧ Told s t p 3 (fun m => m.cause = 1 ∧ m.subject = (s.part p).rank) ∧
      OnlyPart s t p (fun q => { q with jb := { q.jb with seq := q.jb.seq + 1 } }) ∧ t.cells = s.cells) ∧
  (∀ (h : Hdr) (img : PlanImage) (s : State), AcceptedFor s h 0x0605 → h.fn ≠ 17 → (s.part h.part).jb.jstate = .joined →
    (s.part h.part).jb.seedPar = 0xF → (s.part h.part).loadBusy = false →
    (((ready s h 0x0605).withRole h.part).sieve h.part img (if img.hdr.mode = 1 then 0 else 0xFF) false).check = 0 →
    ∃ t, exec (.seedSource h img []) s = .next t ∧ Answered t h 0x0605 0 [] ∧
      ((t.part h.part).jb.jstate = .seeding ∨ (t.part h.part).jb.jstate = .seeded))

/-- The job commands put a partition into a job, take it out, name managers, offer spares and detach the module. Rests on
R393, R394, R395, R423, Table 14.7. -/
def Obligations.JobCommandsSetMembership : Prop :=
  (∀ (h : Hdr) (j : JobIn) (w : JobWrap) (key : Hash) (s : State), AcceptedFor s h 0x0601 → s.seedAbsent j = false → joinOk j = true → s.keys.debugOn = false →
    (s.part h.part).active? = false → (s.part h.part).jb.jstate = .none → (s.part h.part).unwrap j.job w = some key →
    ∃ t, exec (.jobJoin h j w) s = .next t ∧ PartDone s t h 0x0601 [] h.part (fun q => { q with
      rank := j.rank, sx := { q.sx with jobKeyWait := some key }
      jb := { jstate := .joined, job := j.job, cube := j.cube, boc := j.boc, mgrs := j.mgrs, seedPar := j.parent, seedKids := j.children } })) ∧
  (∀ (h : Hdr) (s : State), AcceptedFor s h 0x0602 → ∃ t, exec (.jobStatus h) s = .next t ∧ t.parts = s.parts ∧ UnitsKept s t ∧
    ∃ v, Answered t h 0x0602 0 [(8, v)] ∧
      ((s.part h.part).rank < 65536 → (s.part h.part).jb.job < 2 ^ 32 → bits v 0 32 = (s.part h.part).jb.job ∧
        bits v 32 8 = (s.part h.part).jb.applied % 256 ∧ bits v 40 16 = (s.part h.part).rank ∧
        bit v 58 = (s.part h.part).jb.grafted ∧ bit v 59 = (s.part h.part).jb.manager ∧
        bits v 60 4 = jstateNo (s.part h.part).jb.jstate)) ∧
  (∀ (h : Hdr) (s : State), AcceptedFor s h 0x0603 → (s.part h.part).active? = false → (s.part h.part).jb.jstate ≠ .none →
    ∃ t, exec (.jobLeave h) s = .next t ∧ Answered t h 0x0603 0 [] ∧ (t.part h.part).jb = {} ∧ (t.part h.part).st = .empty ∧
      (t.part h.part).image = none ∧ (t.part h.part).sx.keyGen = (s.part h.part).sx.keyGen + 1 ∧
      (t.part h.part).sx.jobKey = none ∧ (∀ i, i < 12 → look none (t.port i).boot h.part = none) ∧
      (∀ q, q ≠ h.part → t.part q = s.part q)) ∧
  (∀ (h : Hdr) (floor budget score : Nat) (spares : List Nat) (s : State), AcceptedFor s h 0x0604 → score ≤ 1000 →
    (∀ x ∈ spares, x < 2 ^ 64) → (s.part h.part).jb.jstate ≠ .none → (s.part h.part).rank ∈ (s.part h.part).jb.mgrs →
    ∃ t, exec (.managerSet h true floor budget score spares) s = .next t ∧ PartDone s t h 0x0604 [] h.part (fun q => { q with
      jb := { q.jb with manager := true, mgr := { q.jb.mgr with floor, budget, score, spares, round := s.round } } })) ∧
  (∀ (h : Hdr) (job : Nat) (mgrs : List Nat) (s : State), AcceptedFor s h 0x0606 → 0 < job → job < 2 ^ 32 → mgrs.length = 5 →
    (∀ r ∈ mgrs, r < 65536) → (s.part h.part).jb.jstate = .none → (s.part h.part).st = .empty →
    ∃ t, exec (.spareOffer h job mgrs) s = .next t ∧
      PartDone s t h 0x0606 [] h.part (fun q => { q with jb := { jstate := .spare, job, mgrs } })) ∧
  (∀ (h : Hdr) (frame : Nat) (s : State), AcceptedFor s h 0x0609 → (s.part h.part).jb.manager = true →
    (s.part h.part).jb.teardown = none → (s.part h.part).jb.decs = [] → (s.part h.part).msgKey.isSome = true →
    ∃ t, exec (.jobEnd h frame) s = .next t ∧ Answered t h 0x0609 0 [] ∧ Told s t h.part 4 (fun m => m.cause = 0 ∧ m.arg1 = frame) ∧
      (t.part h.part).jb.mgr.ends = (s.part h.part).jb.mgr.ends ++ [((s.part h.part).rank, frame)]) ∧
  (∀ (h : Hdr) (s : State), Accepted s h 0x0607 → s.detachCmd = none →
    ∃ t, exec (.detachPrepare h) s = .next t ∧
      ((∀ p, p < 16 → (s.part p).jb.jstate = .none) → Answered t h 0x0607 0 [] ∧ t.detachCmd = none) ∧
      (∀ p, p < 16 → (s.part p).jb.jstate = .member → t.detachCmd = some h ∧
        t.part p = { s.part p with jb := { (s.part p).jb with detach := true } })) ∧
  (∀ (h w : Hdr) (s : State), Accepted s h 0x0608 → s.detachCmd = some w → Listening s w 0x0607 →
    ∃ t, exec (.detachCancel h) s = .next t ∧ Answered t h 0x0608 0 [] ∧ Answered t w 0x0607 0x09 [] ∧ t.detachCmd = none ∧
      ∀ p, (t.part p).jb.detach = false)

/-! ### Terms for power, reset and start-up -/

namespace Sys2Proof.Stmt

open Sys2Proof.Machine

/-- Nothing draws: every domain is off, the input is locked out and no partition is ARMED or RUNNING (R471, R526). -/
def AllOff (t : State) : Prop :=
  t.pwr.dom = 0 ∧ t.pwr.lockout = true ∧ t.seqr.lockout = true ∧ ∀ p, (t.part p).st ≠ .armed ∧ (t.part p).st ≠ .running

/-- A module reset has begun (R506): PHASE POWER, plan state, sessions, rings and contents gone; layout, tenants, key
generations, repair records, roles' keys, audit log and firmware kept. -/
def ResetBegun (s t : State) : Prop :=
  t.boot.phase = .power ∧ t.boot.resets = s.boot.resets + 1 ∧ t.cycle = 0 ∧ t.cells = [] ∧ t.raised = [] ∧ t.sessions = [] ∧
  t.rings = [] ∧ t.inProg = [] ∧ t.cold.lines = [] ∧ t.retired = s.retired ∧ t.audit = s.audit ∧ t.auditIdx = s.auditIdx ∧
  t.errs = s.flashErr ∧ t.calFlash = s.calFlash ∧ t.keys.installers = s.keys.installers ∧ t.keys.operators = s.keys.operators ∧
  t.keys.pairKey = false ∧ t.spFw.a = s.spFw.a ∧ t.spFw.b = s.spFw.b ∧ t.pending = s.pending ∧
  (∀ k, (t.stack k).lines = [] ∧ (SMap.wf Stack.zero s.stks = true → (t.stack k).repairs = (s.stack k).repairs)) ∧
  (∀ p, (t.part p).st = .empty ∧ (t.part p).image = none ∧ (t.part p).stackKey = 0 ∧ (t.part p).jb = {} ∧
    (SMap.wf Part.zero s.parts = true → (t.part p).sx.created = (s.part p).sx.created ∧
      (t.part p).sx.tenants = (s.part p).sx.tenants ∧ (t.part p).sx.keyGen = (s.part p).sx.keyGen ∧
      (t.part p).stackTabA = (s.part p).stackTabA ∧ (t.part p).pw.alloc = (s.part p).pw.alloc))

end Sys2Proof.Stmt

/-- Windbreak estimates, raises OVERPOWER after 1,024 estimates, and switches one domain at a time. Rests on R471, R474,
R475, R476, R478, R480, R482. -/
def Obligations.WindbreakAndDomains : Prop :=
  (∀ s : State, s.cycle / 2048 ≤ s.pwr.estAt → exec .windbreakEstimate s = .next s) ∧
  (∀ s : State, s.pwr.estAt < s.cycle / 2048 →
    let e := estNum s.tu.gust (s.pjOf (fun _ => true)) (s.baseOf (fun _ => true))
    ∃ t, exec .windbreakEstimate s = .next t ∧ t.pwr.estAt = s.cycle / 2048 ∧ t.act = [] ∧
      t.pwr.estW = min 4095 ((2 * e + estDen) / (2 * estDen)) ∧
      t.pwr.peakW = max s.pwr.peakW t.pwr.estW ∧ t.pwr.overW = (s.pwr.overW || decide (s.pwr.capW * estDen < e)) ∧
      t.pwr.overRun = (if 110 * s.pwr.capW * estDen < 100 * e then s.pwr.overRun + 1 else 0) ∧
      (s.pwr.gustAct = false → t.pwr.actReq = 0) ∧ t.raised = s.raised ∧ t.pwr.dom = s.pwr.dom ∧ t.cells = s.cells ∧
      ∀ p, t.part p = { s.part p with pw := { (s.part p).pw with
        energyMj := (t.part p).pw.energyMj, energyRem := (t.part p).pw.energyRem, overClass := (t.part p).pw.overClass } } ∧
        ((s.part p).pw.overClass = true → (t.part p).pw.overClass = true)) ∧
  (∀ s : State, (s.pwr.overRun < 1024 → exec .overpower s = .next s) ∧
    (1024 ≤ s.pwr.overRun → ∃ t, exec .overpower s = .next t ∧ RaisedOne s t .job 0xB4 s.timeScope ∧ t.pwr.overRun = 0 ∧
      t.parts = s.parts)) ∧
  (∀ (d : Nat) (on : Bool) (s : State), d < 96 →
    ((s.wallNs < s.pwr.swNext ∨ s.firstDue on d = false ∨ (on = true ∧ s.onDue d = false) ∨ (on = false ∧ s.offDue d = false)) →
      exec (.domainSwitch d on) s = .next s) ∧
    (s.pwr.swNext ≤ s.wallNs → s.firstDue on d = true → (on = true → s.onDue d = true) → (on = false → s.offDue d = true) →
      ∃ t, exec (.domainSwitch d on) s = .next t ∧ t.raised = s.raised ∧ t.pwr.swNext = s.wallNs + 10000 ∧
        (∀ e, t.pwr.dom.getLsbD e = if e = d then on else s.pwr.dom.getLsbD e) ∧
        (SMap.wf Part.zero s.parts = true → ∀ p, (t.part p).st = (s.part p).st) ∧
        (∀ k, on = false → d < 64 → k / 32 = d → t.cell k = Cell.zero) ∧ (∀ k, 64 ≤ d → t.cell k = s.cell k)))

/-- Temperatures, coolant and supply conditions set their stages and raise their faults; a lockout turns all off. Rests on
R467, R468, R469, R471, R486, R487, R489, R526, R527. -/
def Obligations.ThermalAndSupplyFaults : Prop :=
  (∀ (g : SensorGroup) (idx : Nat) (c : Int) (s : State), sensorOf g idx = false → exec (.thermalSensorRead g idx c) s = .next s) ∧
  (∀ (g : SensorGroup) (idx : Nat) (c : Int) (s : State), sensorOf g idx = true →
    ∃ t, exec (.thermalSensorRead g idx c) s = .next t ∧ t.parts = s.parts ∧ t.cells = s.cells ∧ t.pwr.dom = s.pwr.dom ∧
      look 0 t.pwr.sensors (sensorKey g idx) = c ∧
      (∀ k, k ≠ sensorKey g idx → look 0 t.pwr.sensors k = look 0 s.pwr.sensors k) ∧
      ((thresholds g).1 ≤ c → look 0 t.pwr.stages (stageGroup g) =
        max (look 0 s.pwr.stages (stageGroup g)) (if (thresholds g).2.1 ≤ c then 2 else 1)) ∧
      (t.stage = 2 → t.pwr.thermReq = 5) ∧ (t.stage = 0 → t.pwr.thermReq = 0) ∧
      (c < (thresholds g).2.2.1 → t.raised = s.raised ∧ t.pwr.domOff = s.pwr.domOff) ∧
      ((thresholds g).2.2.1 ≤ c → t.pwr.domOff = s.pwr.domOff ||| domMask (measured g idx) ∧ t.seqr.trip = true ∧
        RaisedOne s t .job 0xB5 (s.scope (fun p => (measured g idx).any (fun d => s.usesDom p d))))) ∧
  (∀ s : State, exec .thermalStageStep s = .next (if s.stage = 1 ∧ s.pwr.stageAt + 10 ^ 8 ≤ s.wallNs then
    { s with pwr := { s.pwr with thermReq := min 5 (s.pwr.thermReq + 1), stageAt := s.pwr.stageAt + 10 ^ 8 } } else s)) ∧
  (∀ (v : Nat) (s : State), ∃ t, exec (.coolantLost (.flow v)) s = .next t ∧ t.parts = s.parts ∧
    t.pwr = { s.pwr with flow := v, lowFlow := t.pwr.lowFlow } ∧
    (max s.pwr.capW 1440 ≤ 100 * v → t.pwr.lowFlow = none ∧ t.raised = s.raised) ∧
    (100 * v < max s.pwr.capW 1440 → s.pwr.lowFlow = none → t.pwr.lowFlow = some s.wallNs ∧ t.raised = s.raised ∧ t.thermalReq = 5) ∧
    (∀ a, 100 * v < max s.pwr.capW 1440 → s.pwr.lowFlow = some a → t.pwr.lowFlow = some a ∧
      (s.wallNs < a + 2 * 10 ^ 9 → t.raised = s.raised) ∧
      (a + 2 * 10 ^ 9 ≤ s.wallNs → RaisedOne s t .job 0xB6 s.timeScope ∧ t.seqr.coolant = true))) ∧
  (∀ (c : Nat) (s : State), ∃ t, exec (.coolantLost (.inlet c)) s = .next t ∧ t.parts = s.parts ∧
    t.pwr = { s.pwr with inletC := c, hotInlet := t.pwr.hotInlet } ∧
    (c ≤ 45 → t.pwr.hotInlet = none ∧ t.raised = s.raised) ∧
    (45 < c → s.pwr.hotInlet = none → t.pwr.hotInlet = some s.wallNs ∧ t.raised = s.raised ∧ t.thermalReq = 5) ∧
    (∀ a, 45 < c → s.pwr.hotInlet = some a → t.pwr.hotInlet = some a ∧
      (s.wallNs < a + 2 * 10 ^ 9 → t.raised = s.raised) ∧
      (a + 2 * 10 ^ 9 ≤ s.wallNs → RaisedOne s t .job 0xB6 s.timeScope ∧ t.seqr.coolant = true))) ∧
  (∀ (i : Nat) (s : State), (s.pwr.convOk.getLsbD i = false → exec (.converterFailure i) s = .next s) ∧
    (s.pwr.convOk.getLsbD i = true → ∃ t, exec (.converterFailure i) s = .next t ∧
      (∀ j, t.pwr.convOk.getLsbD j = (s.pwr.convOk.getLsbD j && decide (j ≠ i))) ∧
      let n := ((List.range 5).filter (fun j => t.pwr.convOk.getLsbD j)).length
      ((4 ≤ n ∨ s.allocSum ≤ 820 * n) → RaisedOne s t .event 0xC6 []) ∧
      (n < 4 → 820 * n < s.allocSum → ∃ e f, t.raised = s.raised ++ [e, f] ∧ e.code = 0xC6 ∧ f.cls = .job ∧ f.code = 0xB2 ∧
        f.parts = s.timeScope))) ∧
  (∀ (rail : Nat) (s : State), ∃ t, exec (.phaseFailure rail) s = .next t ∧ RaisedOne s t .event 0xC7 [] ∧
    look 0 t.pwr.phLost rail = min 7 (look 0 s.pwr.phLost rail + 1) ∧
    ∀ j, j ≠ rail → look 0 t.pwr.phLost j = look 0 s.pwr.phLost j) ∧
  (∀ (rail mV : Nat) (s : State), look 0 s.pwr.phLost rail < 3 → 95 * s.railMv rail ≤ 100 * mV → 100 * mV ≤ 105 * s.railMv rail →
    exec (.railFault rail mV) s = .next s) ∧
  (∀ (rail mV : Nat) (s : State), (3 ≤ look 0 s.pwr.phLost rail ∨ 100 * mV < 95 * s.railMv rail ∨ 105 * s.railMv rail < 100 * mV) →
    ∃ t, exec (.railFault rail mV) s = .next t ∧ t = { s with raised := t.raised } ∧
      RaisedOne s t .job 0xB3 (s.scope (fun p => (railDoms rail).any (fun d => s.usesDom p d)))) ∧
  (∀ (mV : Nat) (s : State), (40000 ≤ mV → exec (.supplyUv mV) s = .next s) ∧ (mV < 40000 → ∃ t, exec (.supplyUv mV) s = .next t ∧
    RaisedOne s t .job 0xB0 s.timeScope ∧ t.pwr.busV = min 255 (mV / 250) ∧ t.parts = s.parts)) ∧
  (∀ (mV : Nat) (s : State), (mV ≤ 60000 → exec (.supplyOv mV) s = .next s) ∧ (60000 < mV → ∃ t, exec (.supplyOv mV) s = .next t ∧
    RaisedOne s t .job 0xB1 s.timeScope ∧ t.pwr.busV = min 255 (mV / 250) ∧ t.parts = s.parts)) ∧
  (∀ (mV : Nat) (s : State), (38000 ≤ mV → mV ≤ 63000 → exec (.inputLockout mV) s = .next s) ∧
    (mV < 38000 ∨ 63000 < mV → ∃ t, exec (.inputLockout mV) s = .next t ∧ AllOff t ∧ t.raised = s.raised)) ∧
  (∀ s : State, (s.pwr.dom = 0 → exec .clipDetOpen s = .next { s with io := { s.io with clip := false } }) ∧
    (s.pwr.dom ≠ 0 → ∃ t, exec .clipDetOpen s = .next t ∧ AllOff t ∧ t.io.clip = false ∧ t.seqr.clip = true ∧
      RaisedOne s t .job 0xB0 s.timeScope))

/-- A reset begins at power-on, TRAY_RST_N or 0x5A; start-up boots both processors; READY gives new keys. Rests on R437,
R506, R508, R510, R513, R526, R536, R537, R538, R539. -/
def Obligations.ResetAndStartUp : Prop :=
  (∀ (mV : Nat) (s : State), (mV ≤ 42000 → exec (.inputTurnOn mV) s = .next s) ∧ (42000 < mV → ∃ t, exec (.inputTurnOn mV) s = .next t ∧
    ResetBegun s t ∧ t.pwr.lockout = false ∧ t.io.clip = true)) ∧
  (∀ s : State, ∃ t, exec .trayRstN s = .next t ∧ ResetBegun s t ∧ t.boot.rstLow = true) ∧
  (∀ s : State, ∃ t, exec .trayRstNHigh s = .next t ∧ t = { s with boot := t.boot } ∧ t.boot.rstLow = false ∧
    (s.boot.phase = .power → s.boot.rstLow = true → s.pwr.lockout = false → t.boot.phase = .boot) ∧
    (s.boot.phase ≠ .power → t.boot.phase = s.boot.phase)) ∧
  (∀ (v : BitVec 8) (s : State), (v ≠ 0x5A#8 → exec (.seqResetWrite v) s = .next s) ∧
    (v = 0x5A#8 → ∃ t, exec (.seqResetWrite v) s = .next t ∧ ResetBegun s t)) ∧
  (∀ (a : BitVec 7) (s : State), exec (.setdasa a) s = .next { s with io := { s.io with dynAddr := a } }) ∧
  (∀ (n : Nat) (s : State), n < 2 → ∃ t, exec (.perstNRelease n) s = .next t ∧ t = { s with boot := { s.boot with perst := t.boot.perst } } ∧
    ∀ j, j < 2 → t.boot.perst.getLsbD j = (s.boot.perst.getLsbD j || decide (j = n))) ∧
  (∀ (b : BootOut) (s : State), (s.boot.phase = .power ∨ s.boot.phase = .boot) →
    ((s.boot.rstLow = true ∨ s.pwr.lockout = true) → exec (.moduleReset b) s = .next s) ∧
    (s.boot.rstLow = false → s.pwr.lockout = false → ∃ t, exec (.moduleReset b) s = .next t ∧ t.boot.resets = s.boot.resets ∧
      ((s.spFw.select = none ∨ s.mgFw.select = none) → t.boot.phase = .bootFail ∧ t.parts = s.parts) ∧
      (∀ x i y j, s.spFw.select = some (x, i) → s.mgFw.select = some (y, j) → t.boot.phase = .calibration ∧ t.mgmtDown = false ∧
        t.spRun = i.digest ∧ t.mgRun = j.digest ∧ t.spFw.bankB = x ∧ t.mgFw.bankB = y ∧
        calValid s.fuses.serial s.fuses.fused t.calFlash = true))) ∧
  (∀ (b : BootOut) (s : State), s.boot.phase = .ready → s.boot.rstLow = true →
    ∃ t, exec (.moduleReset b) s = .next t ∧ ResetBegun s t) ∧
  (∀ (ds : Nat) (s : State), (s.boot.phase ≠ .calibration → exec (.ready ds) s = .next s) ∧
    (s.boot.phase = .calibration → ∃ t, exec (.ready ds) s = .next t ∧ t.boot.phase = .ready ∧ t.boot.startDs = min 65535 ds ∧
      ∀ p, p < 16 → (s.part p).sx.created = true → (t.part p).sx.keyGen = (s.part p).sx.keyGen + 1 ∧
        (∀ e ∈ (t.part p).allLeases, e ∈ (t.part p).sx.zeroPend) ∧ s.nextKey ≤ (t.part p).stackKey)) ∧
  (∀ (v : BitVec 8) (s : State), ∃ t, exec (.hubDomWrite v) s = .next t ∧ t.boot.phase = s.boot.phase ∧
    ((s.seqr.hubDom &&& ~~~(v.setWidth 4)) ≠ 0 → (s.anyActive = true ∨ s.boot.phase ≠ .ready) →
      t.seqr.hubDom = s.seqr.hubDom ||| v.setWidth 4 ∧ t.seqr.refused = true) ∧
    (((s.seqr.hubDom &&& ~~~(v.setWidth 4)) = 0 ∨ s.anyActive = false ∧ s.boot.phase = .ready) →
      t.seqr.hubDom = v.setWidth 4 ∧ t.seqr.refused = s.seqr.refused) ∧
    (s.pwr.lockout = false → ∀ i, i < 4 → t.pwr.dom.getLsbD (92 + i) = t.seqr.hubDom.getLsbD i)) ∧
  (∀ (b : BootOut) (s : State) (x y : Bool) (i j : FwImage), s.boot.phase = .ready → s.mgmtDown = true → s.mgFw.activ = none →
    s.pwr.dom.getLsbD 94 = true → s.spFw.select = some (x, i) → s.mgFw.select = some (y, j) →
    ∃ t, exec (.hubDomBootDone b) s = .next t ∧ t.mgmtDown = false ∧ t.spRun = i.digest ∧ t.mgRun = j.digest ∧
      t.keys.attestEp = s.keys.attestEp ∧
      ∀ p, p < 16 → (s.part p).sx.created = true → (t.part p).sx.keyGen = (s.part p).sx.keyGen + 1)

/-! ### Terms for plan and serving commands -/

namespace Sys2Proof.Stmt

open Sys2Proof.Machine

/-- The command has landed a record of `kind` for `slot` with `arg` and `lines`, at the first fit of R552, and completes with its
completion flag; where no place is left it has ended with BUSY (R257, R462, R552). -/
def NewRecord (s t : State) (h : Hdr) (op kind : Nat) (slot : Option Nat) (arg : Nat) (lines : List Line) : Prop :=
  let q := s.part h.part
  let n := roundUp (256 * (lines.length + 1)) 4096
  (∀ a, q.placeRec n = some a → q.recs.length < 65536 →
    look none (t.part h.part).recs q.nextSeq = some { kind, slot, arg, lines, paddr := a, bytes := n, flagAt := none, visible := false
                                                      held := false, hdr := some h } ∧
    (∀ k, k ≠ q.nextSeq → look none (t.part h.part).recs k = look none q.recs k) ∧
    (t.part h.part).nextSeq = (q.nextSeq + 1) % 2 ^ 48 ∧ (t.part h.part).st = q.st ∧
    (∀ p, p ≠ h.part → t.part p = s.part p) ∧ t.cells = s.cells) ∧
  (q.placeRec n = none → Answered t h op 0x05 [] ∧ t.parts = s.parts)

end Sys2Proof.Stmt

/-- The plan commands load, check, unload, start, stop, switch and resume a plan image as Table 17.13 says. Rests on R403,
R404, R405, R408, R418, Table 17.13. -/
def Obligations.PlanCommands : Prop :=
  (∀ (h : Hdr) (src : Src) (len x : Nat) (given : PlanImage) (s : State), AcceptedFor s h 0x0301 → srcOk h src = true →
    let img := s.imageOf h.part src given
    bindingOk x = true → (s.part h.part).loadBusy = false → lengthOk img len = true →
    (s.part h.part).zeroising ((s.part h.part).touches ((mineOf img (s.part h.part).rank).map (·.2))) = false →
    let v := ((ready s h 0x0301).withRole h.part).sieve h.part img x false
    ∃ t, exec (.planLoad h src len x given) s = .next t ∧ Answered t h 0x0301 (if v.check = 0 then 0 else 0x08) v.results ∧
      (∀ p, p ≠ h.part → t.part p = s.part p) ∧
      (v.check = 0 → (t.part h.part).st = .staged ∧ (t.part h.part).image = some img ∧ (t.part h.part).binding = v.x ∧
        (t.part h.part).stepNo = (s.part h.part).stepNo ∧ (t.part h.part).committed = none ∧ (t.part h.part).rotLoad = .none ∧
        (t.part h.part).pw.energyMj = 0) ∧
      (v.check ≠ 0 → t.part h.part = { s.part h.part with sieve := v.reg } ∧ UnitsKept s t)) ∧
  (∀ (h : Hdr) (src : Src) (len x : Nat) (given : PlanImage) (s : State), AcceptedFor s h 0x0303 → srcOk h src = true →
    let img := s.imageOf h.part src given
    bindingOk x = true → lengthOk img len = true →
    let v := ((ready s h 0x0303).withRole h.part).sieve h.part img x false
    ∃ t, exec (.planCheck h src len x given) s = .next t ∧ Answered t h 0x0303 (if v.check = 0 then 0 else 0x08) v.results ∧
      t.parts = s.parts ∧ UnitsKept s t) ∧
  (∀ (h : Hdr) (src : Src) (len : Nat) (given : PlanImage) (s : State), AcceptedFor s h 0x0302 → srcOk h src = true →
    let img := s.imageOf h.part src given
    let bank := !(s.part h.part).bankAct
    (s.part h.part).bankLoad = none → (s.part h.part).st = .staged → lengthOk img len = true →
    let v := (ready s h 0x0302).sieveSection h.part img
    ∃ t, exec (.planSectionLoad h src len given) s = .next t ∧ UnitsKept s t ∧
      ((∃ x ∈ img.secs, x.sub / 256 % 2 ≠ b2n bank) → Answered t h 0x0302 0x0B [] ∧
        OnlyPart s t h.part (fun q => { q with bankStatus := .failed })) ∧
      ((∀ x ∈ img.secs, x.sub / 256 % 2 = b2n bank) →
        (v.check ≠ 0 → Answered t h 0x0302 0x08 v.results ∧
          OnlyPart s t h.part (fun q => { q with sieve := v.reg, bankStatus := .failed })) ∧
        (v.check = 0 → OnlyPart s t h.part (fun q => { q with
          sieve := v.reg, bankLoad := some { bank, secs := (mineOf img q.rank).map (·.2), hdr := some h, done := 0 }
          bankStatus := .busy, bankTarget := bank })))) ∧
  (∀ (h : Hdr) (s : State), AcceptedFor s h 0x0304 → (s.part h.part).loadBusy = false →
    ∃ t, exec (.planUnload h) s = .next t ∧ Answered t h 0x0304 0 [] ∧ (t.part h.part).st = .empty ∧ (t.part h.part).image = none ∧
      ∀ p, p ≠ h.part → t.part p = s.part p) ∧
  (∀ (h : Hdr) (mark : Nat) (s : State), AcceptedFor s h 0x0305 → (s.part h.part).st = .staged → (s.part h.part).jb.jstate = .none →
    s.hubOn = true → mark % 10 = 0 → s.hallNow + 10 ^ 8 ≤ 1024 * mark →
    ∃ t, exec (.planStart h mark) s = .next t ∧ UnitsKept s t ∧ PartDone s t h 0x0305 [] h.part (fun q => { q with
      st := .armed, rank := 0, jobSize := 1, jb := { q.jb with startMark := some mark, resume := none } })) ∧
  (∀ (h : Hdr) (s : State), AcceptedFor s h 0x0306 → (s.part h.part).jb.jstate = .none →
    ((s.part h.part).st = .armed → ∃ t, exec (.planStop h) s = .next t ∧ UnitsKept s t ∧
      PartDone s t h 0x0306 [] h.part (fun q => { q with st := .staged, jb := { q.jb with startMark := none, resume := none } })) ∧
    ((s.part h.part).st = .running → ∃ t, exec (.planStop h) s = .next t ∧ NewRecord s t h 0x0306 7 none 0 [])) ∧
  (∀ (h : Hdr) (s : State), AcceptedFor s h 0x0307 →
    ((s.part h.part).st = .staged → s.bankValid h.part (!(s.part h.part).bankAct) = true →
      ∃ t, exec (.planBankSwitch h) s = .next t ∧ Answered t h 0x0307 0 [] ∧ (t.part h.part).bankAct = !(s.part h.part).bankAct ∧
        (t.part h.part).switches = (s.part h.part).switches + 1 ∧ (t.part h.part).st = .staged ∧ UnitsKept s t ∧
        ∀ p, p ≠ h.part → t.part p = s.part p) ∧
    ((s.part h.part).st = .armed ∨ (s.part h.part).st = .running →
      ∃ t, exec (.planBankSwitch h) s = .next t ∧ NewRecord s t h 0x0307 6 none 0 [])) ∧
  (∀ (h : Hdr) (mark : Nat) (s : State), AcceptedFor s h 0x0308 → ((s.part h.part).st = .faulted ∨ (s.part h.part).st = .stopped) →
    (s.part h.part).jb.jstate = .none →
    (s.part h.part).zeroising ((s.part h.part).touches ((s.part h.part).base ++ (s.part h.part).variants)) = false →
    s.hubOn = true → mark % 10 = 0 → s.hallNow + 10 ^ 8 ≤ 1024 * mark →
    let v := ((ready s h 0x0308).restage h.part (s.part h.part).graftSel).2
    ∃ t, exec (.planResume h mark) s = .next t ∧
      (v.check = 0 → Answered t h 0x0308 0 [] ∧ (t.part h.part).st = .armed ∧ (t.part h.part).jobSize = 1 ∧
        (t.part h.part).jb.startMark = some mark ∧ (t.part h.part).jb.resume = some (s.part h.part).resumePoint) ∧
      (v.check ≠ 0 → Answered t h 0x0308 0x08 []))

/-- Bundle, rotation, staging, slot and park commands act on the sets, the records and the park table. Rests on R222,
R224, R226, R234, R243, R257, R275, R462, R552, Table 10.14, Table 17.13. -/
def Obligations.BundlesAndServingCommands : Prop :=
  (∀ (h : Hdr) (src : Src) (set : Bool) (scion slot : Nat) (bn : Bundle) (s : State), AcceptedFor s h 0x0401 →
    s.mergeAbsent (s.bundleOf h.part src bn) = false → srcOk h src = true → scion < 4096 → (s.part h.part).bundle = none →
    let b : BLoad := { setB := set, scion, slot, bn := (ready s h 0x0401).bundleOf h.part src bn, hdr := some h }
    ∃ t, exec (.bundleLoad h src set scion slot bn) s = .next t ∧ (∀ p, p ≠ h.part → t.part p = s.part p) ∧ t.cells = s.cells ∧
      (t.part h.part).set (!set) = (s.part h.part).set (!set) ∧
      ((s.part h.part).bundleRefused b = none → (t.part h.part).bundle = some b ∧ (t.part h.part).rotLoad = .busy ∧
        (scion = 0 → ((t.part h.part).set set).valid = false ∧ ((t.part h.part).set set).digest = bundleDigest b.bn) ∧
        (scion ≠ 0 → look none ((t.part h.part).set set).scions scion = none ∧
          look 0 ((t.part h.part).set set).digs scion = bundleDigest b.bn)) ∧
      (∀ st, (s.part h.part).bundleRefused b = some st → Answered t h 0x0401 st [] ∧ t.stks = s.stks ∧ t.cold = s.cold ∧
        t.part h.part = { s.part h.part with rotLoad := .failed })) ∧
  (∀ (p : Nat) (s : State) (b : BLoad), (s.part p).bundle = some b →
    let all := (s.part p).bundleGood b
    ∃ t, exec (.bundleLoadDone p) s = .next t ∧ (t.part p).bundle = none ∧
      (t.part p).rotLoad = (if all then .done else .failed) ∧ (∀ q, q ≠ p → t.part q = s.part q) ∧
      (b.scion = 0 → ((t.part p).set b.setB).valid = all) ∧
      (b.scion ≠ 0 → look none ((t.part p).set b.setB).scions b.scion = if all then some b.slot else none) ∧
      ∀ h, b.hdr = some h → Listening s h 0x0401 → Answered t h 0x0401 (if all then 0 else 0x09) []) ∧
  (∀ (h : Hdr) (set : Bool) (scion : Nat) (s : State), AcceptedFor s h 0x0402 → scion < 4096 →
    ∃ t rest, exec (.bundleStatus h set scion) s = .next t ∧ t.parts = s.parts ∧ UnitsKept s t ∧ Answered t h 0x0402 0
      ((1, b2n (if scion = 0 then ((s.part h.part).set set).valid else (look none ((s.part h.part).set set).scions scion).isSome)) ::
       (1, loadStatusNo (s.part h.part).rotLoad) :: rest)) ∧
  (∀ (h : Hdr) (set : Bool) (scion : Nat) (s : State), AcceptedFor s h 0x0403 → scion < 4096 → (s.part h.part).bundle = none →
    (set = (s.part h.part).active → scion ≠ 0 → (s.part h.part).namesScion scion = false →
      ∃ t, exec (.bundleFree h set scion) s = .next t ∧ Answered t h 0x0403 0 [] ∧
        look none ((t.part h.part).set set).scions scion = none ∧ ((t.part h.part).set set).valid = ((s.part h.part).set set).valid ∧
        (t.part h.part).set (!set) = (s.part h.part).set (!set)) ∧
    (set ≠ (s.part h.part).active → scion = 0 → (s.part h.part).held = false → (s.part h.part).pendRot = none →
      ∃ t, exec (.bundleFree h set scion) s = .next t ∧ Answered t h 0x0403 0 [] ∧ ((t.part h.part).set set).valid = false ∧
        ((t.part h.part).set set).scions = [] ∧ (t.part h.part).set (!set) = (s.part h.part).set (!set))) ∧
  (∀ (h : Hdr) (step : Nat) (s : State), AcceptedFor s h 0x0404 → step < 2 ^ 48 → (s.part h.part).pendRot = none →
    (s.part h.part).held = false → ∃ t, exec (.rotate h step) s = .next t ∧
      (step ≤ (s.part h.part).stepNo → Answered t h 0x0404 0x07 [] ∧ t.parts = s.parts) ∧
      ((s.part h.part).stepNo < step → (s.part h.part).standby.valid = true → NewRecord s t h 0x0404 5 none step [])) ∧
  (∀ (h : Hdr) (host paddr lines : Nat) (data : List Line) (s : State), AcceptedFor s h 0x0405 → h.fn ≠ 17 → host < 2 ^ 64 →
    paddr % 256 = 0 → 1 ≤ lines → paddr + 256 * lines ≤ 2 ^ 40 → (paddr + 256 * lines - 1) / 2 ^ 30 = paddr / 2 ^ 30 →
    (∀ j, j < lines → (s.part h.part).stageBad (paddr + 256 * j) = false) → (s.part h.part).noLoadSlots = false →
    (s.part h.part).stageHdr = none → s.cold.state ≠ .failed → look 0 s.cold.keys h.part ≠ 0 → data.length = lines →
    ∃ t, exec (.coldStage h host paddr lines data) s = .next t ∧ OnlyPart s t h.part (fun q => { q with stageHdr := some h }) ∧
      t.cells = s.cells ∧ t.stks = s.stks ∧
      ∀ j, j < lines → ColdHolds t h.part ((s.part h.part).entrySel .cold (paddr / 2 ^ 30) true) (paddr + 256 * j) (data.getD j 0)) ∧
  (∀ (p : Nat) (h : Hdr) (s : State), (s.part p).stageHdr = some h → ∃ t, exec (.coldStageDone p) s = .next t ∧
    OnlyPart s t p (fun q => { q with stageHdr := none }) ∧ (Listening s h 0x0405 → Answered t h 0x0405 0 [])) ∧
  (∀ (h : Hdr) (slot host count : Nat) (tokens : List Lane) (s : State) (e : ServingE), AcceptedFor s h 0x0501 → h.fn ≠ 17 →
    host % 8 = 0 → host < 2 ^ 64 → (s.part h.part).serving = some e → slot < (s.part h.part).slotCount → 0 < count →
    count ≤ 64 * e.tokLines → ∃ t, exec (.slotInput h slot host count tokens) s = .next t ∧
      NewRecord s t h 0x0501 1 (some slot) count (wordLines ((List.range count).map (fun i => (tokens.getD i 0).toNat)))) ∧
  (∀ (h : Hdr) (slot n : Nat) (s : State), slot < (s.part h.part).slotCount →
    (AcceptedFor s h 0x0502 → n ≤ 16 → ∃ t, exec (.slotAccept h slot n) s = .next t ∧ NewRecord s t h 0x0502 2 (some slot) n []) ∧
    (AcceptedFor s h 0x0503 → n < 2 ^ 64 →
      ∃ t, exec (.slotDeadline h slot n) s = .next t ∧ NewRecord s t h 0x0503 3 (some slot) n [])) ∧
  (∀ (h : Hdr) (slot host : Nat) (e : EditIn) (s : State), AcceptedFor s h 0x0504 → h.fn ≠ 17 → host < 2 ^ 64 →
    slot < (s.part h.part).slotCount →
    ∃ t, exec (.slotEdit h slot host e) s = .next t ∧ NewRecord s t h 0x0504 4 (some slot) 0 (editLines e)) ∧
  (∀ (h : Hdr) (entry : Nat) (pages : List Nat) (s : State) (e : ServingE), entry < 65536 →
    let x := look Park.zero (s.part h.part).park entry
    (AcceptedFor s h 0x0505 → (s.part h.part).serving = some e → (∀ g ∈ pages, g < e.kvPages) → x.st = .parked →
      pages.length = (x.length + 63) / 64 → (s.part h.part).noLoadSlots = false →
      ∃ t, exec (.slotResume h entry pages) s = .next t ∧ OnlyPart s t h.part (fun q =>
        { q with park := put Park.zero q.park entry { x with
          st := .resuming, dest := pages, toBase := e.kvBase, toGroups := e.kvGroups, hdr := some h } }) ∧ .twinRelease h.part entry ∈ t.out) ∧
    (AcceptedFor s h 0x0506 → ∃ t, exec (.parkStatus h entry) s = .next t ∧ t.parts = s.parts ∧ UnitsKept s t ∧
      Answered t h 0x0506 0 [(1, parkNo x.st), (4, x.length), (8, x.expiry)]) ∧
    (AcceptedFor s h 0x0507 → x.st = .parked → ∃ t, exec (.parkDrop h entry) s = .next t ∧ PartDone s t h 0x0507 [] h.part (fun q =>
        { q with park := put Park.zero q.park entry { x with st := .zeroising } })) ∧
    (AcceptedFor s h 0x0507 → x.st ≠ .parked → ∃ t, exec (.parkDrop h entry) s = .next t ∧ t.parts = s.parts ∧
      Answered t h 0x0507 (if x.expired = true ∧ (x.st = .zeroising ∨ x.st = .free) then 0x0A else 0x05) [])) ∧
  (∀ (h : Hdr) (slot : Nat) (s : State), AcceptedFor s h 0x0508 → slot < (s.part h.part).slotCount →
    ∃ t, exec (.slotRead h slot) s = .next t ∧ t.parts = s.parts ∧ UnitsKept s t ∧ Answered t h 0x0508 0
      (slotFields (((s.part h.part).lastResult.map (fun r => look {} r.slots slot)).getD {})))

/-! ### Terms for sessions, keys and partitions -/

namespace Sys2Proof.Stmt

open Sys2Proof.Machine

/-- Nothing of the module but sessions, the audit log, counters and what was sent is changed. -/
def PlanKept (s t : State) : Prop := t.parts = s.parts ∧ UnitsKept s t

/-- Every other session is as it was, but for the counter that the command's own session takes (R433). -/
def OtherSessions (s t : State) (h : Hdr) (sid : Nat) : Prop :=
  ∀ k, k ≠ sid → k ≠ h.sid → t.session k = s.session k

/-- The definition's layout stands: blocks, lease tables, landing leases, allocation and operator entry (Table 16.11). -/
def LaidOut (t : State) (p : Nat) (d : PartDef) : Prop :=
  (t.part p).sx.created = true ∧ (t.part p).sx.opEntry = d.entry ∧ (t.part p).pw.alloc = d.alloc ∧
  (t.part p).landLeases = d.landing ∧ (t.part p).stackTabA = tabOf d.stack false ∧ (t.part p).stackTabB = tabOf d.stack true ∧
  (t.part p).coldTabA = tabOf d.cold false ∧ (t.part p).coldTabB = tabOf d.cold true ∧
  ∀ b, b < 64 → ((t.block b).owner = some p ↔ d.blocks.getLsbD b = true)

end Sys2Proof.Stmt

/-- Sessions open, are proved and close; without one nothing happens; identity and the audit log are read. Rests on R427,
R432, R433, R434, R436, R440, R441, R443, R463. -/
def Obligations.SessionsAndIdentity : Prop :=
  (∀ (h : Hdr) (role : Nat) (kh : Hash) (s : State), Accepted s h 0x0101 → 1 ≤ role → role ≤ 3 → (h.fn = 0 ∨ role ≠ 1 ∧ h.fn = 17) →
    ∃ t, exec (.sessionOpen h role kh) s = .next t ∧ PlanKept s t ∧
      (32 ≤ s.sessions.length → Answered t h 0x0101 0x05 [] ∧ t.sessions = s.sessions) ∧
      (s.sessions.length < 32 → OtherSessions s t h s.freeSid ∧ t.session s.freeSid = some { role := roleOf role, kh, nonce := Config.secret s.freeCtr, openAt := s.wallNs } ∧
        Answered t h 0x0101 0 ((2, s.freeSid) :: (32, Config.secret s.freeCtr) :: s.sessionCert))) ∧
  (∀ (h : Hdr) (sid : Nat) (pf : ProveIn) (x : Session) (s : State), Accepted s h 0x0102 → sid < 65536 → s.session sid = some x →
    x.proved = false → x.pass = false → ∃ t, exec (.sessionProve h sid pf) s = .next t ∧ PlanKept s t ∧ OtherSessions s t h sid ∧
      (∀ e, s.roleEntry x.role x.kh pf = some e → s.wallNs ≤ x.openAt + 10 ^ 10 → Config.sha3 (leBytes 1312 pf.pk) = x.kh →
        pf.sigOk = true → pf.capsOk = true →
        t.session sid = some { x with proved := true, entry := e, lastAt := s.wallNs, key := s.sessionKey sid x pf.c [] } ∧
        Answered t h 0x0102 0 []) ∧
      (s.roleEntry x.role x.kh pf = none ∨ x.openAt + 10 ^ 10 < s.wallNs ∨ Config.sha3 (leBytes 1312 pf.pk) ≠ x.kh ∨ pf.sigOk = false →
        t.session sid = none ∧ Answered t h 0x0102 0x01 [])) ∧
  (∀ (h : Hdr) (s : State), Accepted s h 0x0103 → h.fn = 17 → s.keys.passSet = true → s.keys.passLock = false →
    s.sessions.length < 32 → ∃ t rest, exec (.passOpen h) s = .next t ∧ PlanKept s t ∧
      t.session s.freeSid = some { role := .installer, kh := 0, pass := true, nonce := Config.secret s.freeCtr, openAt := s.wallNs } ∧
      Answered t h 0x0103 0 ((2, s.freeSid) :: rest)) ∧
  (∀ (h : Hdr) (sid : Nat) (pf : ProveIn) (x : Session) (s : State), Accepted s h 0x0104 → sid < 65536 → h.fn = 17 →
    s.session sid = some x → x.proved = false → x.pass = true → ∃ t, exec (.passProve h sid pf) s = .next t ∧ PlanKept s t ∧
      (s.wallNs ≤ x.openAt + 10 ^ 10 → pf.proof = s.passProof sid x pf.c → pf.capsOk = true →
        t.session sid = some { x with proved := true, lastAt := s.wallNs, key := s.sessionKey sid x pf.c (leBytes 32 s.keys.passV.toNat) } ∧
        t.keys.passFails = 0 ∧ Answered t h 0x0104 0 []) ∧
      (pf.proof ≠ s.passProof sid x pf.c → t.session sid = none ∧ t.keys.passFails = s.keys.passFails + 1 ∧
        t.keys.passLock = (s.keys.passLock || decide (5 ≤ s.keys.passFails + 1)) ∧
        (5 ≤ s.keys.passFails + 1 → t.keys.passUntil = s.wallNs + passLockNs (s.keys.passFails + 1)) ∧ Answered t h 0x0104 0x01 [])) ∧
  (∀ (h : Hdr) (s : State), Accepted s h 0x0105 → ∃ t, exec (.sessionClose h) s = .next t ∧ PlanKept s t ∧
    OtherSessions s t h h.sid ∧ t.session h.sid = none ∧ Answered t h 0x0105 0 []) ∧
  (∀ (sid : Nat) (x : Session) (s : State), s.session sid = some x →
    (x.proved = false ∨ s.wallNs < x.lastAt + 900 * 10 ^ 9 → exec (.sessionTimeout sid) s = .next s) ∧
    (x.proved = true → x.lastAt + 900 * 10 ^ 9 ≤ s.wallNs → ∃ t, exec (.sessionTimeout sid) s = .next t ∧ PlanKept s t ∧
      t.session sid = none ∧ ∀ k, k ≠ sid → t.session k = s.session k) ∧
    (x.proved = true ∨ s.wallNs ≤ x.openAt + 10 ^ 10 → exec (.proveWindowExpiry sid) s = .next s) ∧
    (x.proved = false → x.openAt + 10 ^ 10 < s.wallNs → ∃ t, exec (.proveWindowExpiry sid) s = .next t ∧
      t = { s with sessions := t.sessions } ∧ t.session sid = none ∧ ∀ k, k ≠ sid → t.session k = s.session k)) ∧
  (∀ s : State, exec .passLockExpiry s =
    .next (if s.keys.passUntil ≤ s.wallNs then { s with keys := { s.keys with passLock := false } } else s)) ∧
  (∀ (h : Hdr) (op : Nat) (c : Hdr → Instr) (s : State),
    (op, c) ∈ ([(0x0203, .partDestroy), (0x0205, .zeroiseAll), (0x010D, .keyRotate), (0x0304, .planUnload), (0x0306, .planStop),
      (0x0307, .planBankSwitch), (0x0603, .jobLeave), (0x0607, .detachPrepare)] : List (Nat × (Hdr → Instr))) →
    s.serves h = true → s.waits h op = false → Listening s h op →
    ((∀ x, s.session h.sid = some x → x.proved = false ∨ h.tag ≠ cmdTag x.key h op ∨ h.counter ≤ x.counter) →
      ∃ t, exec (c h) s = .next t ∧ PlanKept s t ∧ Answered t h op 0x02 []) ∧
    (∀ x, s.session h.sid = some x → x.proved = true → h.tag = cmdTag x.key h op → x.counter < h.counter → s.denied h op x = true →
      ∃ t, exec (c h) s = .next t ∧ PlanKept s t ∧ Answered t h op 0x01 [])) ∧
  (∀ (h : Hdr) (s : State), Accepted s h 0x0106 → ∃ t, exec (.identityRead h) s = .next t ∧ PlanKept s t ∧ Answered t h 0x0106 0
    ([(4, 3796), (3796, s.keys.certs.getD 0 0), (4, 3796), (3796, s.keys.certs.getD 1 0)] ++ s.sessionCert)) ∧
  (∀ (h : Hdr) (nonce : Hash) (s : State), AcceptedFor s h 0x0107 → ∃ t, exec (.attest h nonce) s = .next t ∧ PlanKept s t ∧
    Answered t h 0x0107 0 (s.report h.part nonce ++ [(2420, Config.secret s.freeCtr)])) ∧
  (∀ (h : Hdr) (first count : Nat) (s : State), Accepted s h 0x0108 → 0 < count → first + count ≤ s.auditIdx →
    s.auditIdx ≤ first + s.audit.length → ∃ t, exec (.auditRead h 0 first count) s = .next t ∧ PlanKept s t ∧
      Answered t h 0x0108 0 (((s.audit.filter (fun e => decide (first ≤ e.index ∧ e.index < first + count))).map auditFields).flatten))

/-- Role keys, tenants, data keys and partitions change as commanded; new keys leave every lease to zeroise. Rests on
R414, R415, R416, R417, R421, R428, R430, R431, R436, R445, R446. -/
def Obligations.KeysAndPartitions : Prop :=
  (∀ (h : Hdr) (entry : Nat) (kh : Hash) (s : State), Accepted s h 0x0109 → entry < 4 → kh ≠ 0 →
    ∃ t, exec (.roleKeySet h 2 entry kh []) s = .next t ∧ PlanKept s t ∧ Answered t h 0x0109 0 [] ∧
      look 0 t.keys.installers entry = kh ∧ (∀ e, e ≠ entry → look 0 t.keys.installers e = look 0 s.keys.installers e) ∧
      t.keys.operators = s.keys.operators ∧
      ∀ sid x, s.session sid = some x → x.role = .installer → x.kh = look 0 s.keys.installers entry → x.kh ≠ 0 → x.kh ≠ kh →
        x.pass = false → t.session sid = none) ∧
  (∀ (h : Hdr) (entry : Nat) (s : State), Accepted s h 0x0109 → entry < 4 → put 0 s.keys.installers entry 0 = [] →
    ∃ t, exec (.roleKeySet h 2 entry 0 []) s = .next t ∧ Answered t h 0x0109 0x03 [] ∧ t.keys = s.keys) ∧
  (∀ (h : Hdr) (entry : Nat) (kh : Hash) (l : List Nat) (s : State), Accepted s h 0x0109 → entry < 16 → kh ≠ 0 → (∀ p ∈ l, p < 16) →
    ∃ t, exec (.roleKeySet h 1 entry kh l) s = .next t ∧ PlanKept s t ∧ Answered t h 0x0109 0 [] ∧
      look 0 t.keys.operators entry = kh ∧ (∀ e, e ≠ entry → look 0 t.keys.operators e = look 0 s.keys.operators e) ∧
      ∀ p, (look 0 t.keys.opParts entry).getLsbD p = decide (p ∈ l)) ∧
  (∀ (h : Hdr) (pass : List Nat) (s : State), Accepted s h 0x010A → (∀ b ∈ pass, b < 256) →
    (pass.length = 0 ∨ 12 ≤ pass.length ∧ pass.length ≤ 128) → ∃ t, exec (.passphraseSet h pass) s = .next t ∧ PlanKept s t ∧
      Answered t h 0x010A 0 [] ∧ t.keys.passSet = decide (pass.length ≠ 0)) ∧
  (∀ (h : Hdr) (entry : Nat) (kh : Hash) (s : State), entry < 4 → kh ≠ 0 →
    ((s.part h.part).st = .empty ∨ (s.part h.part).st = .staged) → (s.part h.part).jb.jstate = .none →
    (AcceptedFor s h 0x010B → ∃ t, exec (.tenantBind h entry kh) s = .next t ∧ UnitsKept s t ∧ PartDone s t h 0x010B [] h.part (fun q =>
      { q with sx := { q.sx with tenants := put 0 q.sx.tenants entry kh } })) ∧
    (AcceptedFor s h 0x010C → look 0 (s.part h.part).sx.tenants entry = kh → ∃ t, exec (.tenantUnbind h entry kh) s = .next t ∧
      UnitsKept s t ∧ PartDone s t h 0x010C [] h.part (fun q => { q with sx := { q.sx with tenants := put 0 q.sx.tenants entry 0 } }))) ∧
  (∀ (h : Hdr) (s : State), AcceptedFor s h 0x010D → s.keys.debugOn = false → (s.part h.part).active? = false →
    (s.part h.part).jb.jstate = .none → (s.part h.part).bundle = none → (s.part h.part).bankLoad = none →
    ∃ t, exec (.keyRotate h) s = .next t ∧ t.cells = s.cells ∧ t.blocks = s.blocks ∧ t.raised = s.raised ∧
      (∀ e ∈ (s.part h.part).allLeases, e ∈ (t.part h.part).sx.zeroPend) ∧
      (∀ k, k < 12 → s.pwr.dom.getLsbD (64 + k) = true →
        look 0 (t.stack k).keys h.part = if s.onStackK h.part k then s.nextKey else 0) ∧
      (s.pwr.dom.getLsbD 93 = true → look 0 t.cold.keys h.part = s.nextKey + 1) ∧
      PartDone s t h 0x010D [] h.part (fun q => { q with
        stackKey := s.nextKey, coldKey := s.nextKey + 1, setA := {}, setB := {}
        sx := { q.sx with keyGen := q.sx.keyGen + 1, wrapGen := s.nextKey + 2, zeroPend := (t.part h.part).sx.zeroPend, cleanKeys := true
                          jobKey := none, jobKeyWait := none } })) ∧
  (∀ (h : Hdr) (s : State), Accepted s h 0x0205 → s.activeParts = [] → ∃ t, exec (.zeroiseAll h) s = .next t ∧
    Answered t h 0x0205 0 [] ∧ (∀ p, p < 16 → (s.part p).sx.created = true → (t.part p).sx.keyGen = (s.part p).sx.keyGen + 1 ∧
      (∀ e ∈ (t.part p).allLeases, e ∈ (t.part p).sx.zeroPend) ∧ (t.part p).st = .empty ∧ (t.part p).recs = [] ∧
      ∀ c, c / 32 < 64 → (s.block (c / 32)).owner = some p → t.cell c = Cell.zero)) ∧
  (∀ (h : Hdr) (s : State), Accepted s h 0x0111 → s.activeParts = [] → ∃ t, exec (.debugUnlock h true) s = .next t ∧
    Answered t h 0x0111 0 [] ∧ t.keys.debugOn = true ∧ t.fuses.debugCnt = s.fuses.debugCnt + 1 ∧ t.keys.pairKey = false ∧
    ∀ p, (t.part p).stackKey = 0 ∧ (t.part p).coldKey = 0 ∧ (t.part p).sx.jobKey = none) ∧
  (∀ (h : Hdr) (serial : Option Nat) (s : State), Accepted s h 0x010E → serial ≠ some s.fuses.serial →
    ∃ t, exec (.twinPair h serial) s = .next t ∧ PlanKept s t ∧ Answered t h 0x010E 0 [] ∧ t.keys.twinSerial = serial ∧
      (serial ≠ s.keys.twinSerial → t.keys.pairKey = false) ∧ (serial ≠ none → t.shadows = s.shadows) ∧
      (serial = none → ∀ p, (t.shadow p).lines = [] ∧ (t.shadow p).promoted = none ∧ (t.shadow p).parks = [])) ∧
  (∀ (h : Hdr) (certs : List Nat) (kh : Hash) (s : State), Accepted s h 0x0110 → kh ≠ 0 → certs ≠ [] → s.activeParts = [] →
    ∃ t, exec (.provision h certs kh) s = .next t ∧ PlanKept s t ∧ Answered t h 0x0110 0 [] ∧ t.keys.certs = certs ∧
      look 0 t.keys.installers 0 = kh) ∧
  (∀ (h : Hdr) (d : PartDef) (s : State), h.part < 16 → s.masksAbsent d = false → s.defOk d = true → s.layoutBad h.part d = false →
    (Accepted s h 0x0201 → s.keys.debugOn = false → s.exists? h.part = false → ∃ t, exec (.partCreate h d) s = .next t ∧
      Answered t h 0x0201 0 [] ∧ LaidOut t h.part d ∧ (t.part h.part).sx.keyGen = 1 ∧ (t.part h.part).st = .empty ∧
      (∀ e ∈ (t.part h.part).allLeases, e ∈ (t.part h.part).sx.zeroPend) ∧ ∀ p, p ≠ h.part → t.part p = s.part p) ∧
    (AcceptedFor s h 0x0202 → (s.part h.part).st = .empty → (s.part h.part).jb.jstate = .none →
      ∃ t, exec (.partResize h d) s = .next t ∧ Answered t h 0x0202 0 [] ∧ LaidOut t h.part d ∧
        (t.part h.part).sx.keyGen = (s.part h.part).sx.keyGen ∧ (t.part h.part).sx.tenants = (s.part h.part).sx.tenants ∧
        ∀ p, p ≠ h.part → t.part p = s.part p)) ∧
  (∀ (h : Hdr) (s : State), AcceptedFor s h 0x0203 → (s.part h.part).st = .empty → (s.part h.part).jb.jstate = .none →
    ∃ t, exec (.partDestroy h) s = .next t ∧ Answered t h 0x0203 0 [] ∧ t.part h.part = Part.zero ∧
      (∀ b, b < 64 → (t.block b).owner ≠ some h.part) ∧ ∀ p, p ≠ h.part → t.part p = s.part p) ∧
  (∀ (h : Hdr) (s : State), AcceptedFor s h 0x0204 → ∃ t rest, exec (.partStatus h) s = .next t ∧ PlanKept s t ∧
    Answered t h 0x0204 0 ((1, pstateNo (s.part h.part).st) :: (1, jstateNo (s.part h.part).jb.jstate) ::
      (2, (s.part h.part).sx.opEntry) :: (4, (s.part h.part).pw.alloc) :: rest))



/-- Power, counter, log, diagnostic, firmware, calibration, port and fuse commands do what Table 17.13 says. Rests on
R437, R438, R439, R476, R479, R490, R494, R499, R511, R516, R517, Table 17.13. -/
def Obligations.ServiceCommands : Prop :=
  (∀ (h : Hdr) (s : State), Accepted s h 0x0701 → ∃ t rest, exec (.powerStatus h) s = .next t ∧ PlanKept s t ∧
    Answered t h 0x0701 0 ([(2, s.pwr.capW), (2, s.pwr.estW), (1, s.windReq), (1, s.floorReq), (1, s.rampReq), (1, s.gustReq)] ++ rest)) ∧
  (∀ (h : Hdr) (w : Nat) (s : State), Accepted s h 0x0702 → 1200 ≤ w → w ≤ s.fuses.capMax →
    ∃ t, exec (.powerCapSet h w) s = .next t ∧ PlanKept s t ∧
      (s.allocSum ≤ w → Answered t h 0x0702 0 [] ∧ t.pwr = { s.pwr with capNext := some w }) ∧
      (w < s.allocSum → Answered t h 0x0702 0x05 [] ∧ t.pwr = s.pwr)) ∧
  (∀ (h : Hdr) (g : Nat) (s : State), Accepted s h 0x0703 → g ≤ 5 → ∃ t, exec (.powerFloorSet h g) s = .next t ∧ PlanKept s t ∧
    Answered t h 0x0703 0 [] ∧ t.tu = { s.tu with floor := g }) ∧
  (∀ (h : Hdr) (on : Bool) (s : State), Accepted s h 0x0704 → s.activeParts = [] → ∃ t, exec (.windbreakMode h on) s = .next t ∧
    PlanKept s t ∧ Answered t h 0x0704 0 [] ∧ t.pwr.gustAct = on ∧ (on = false → t.pwr.actReq = 0) ∧ t.pwr.capW = s.pwr.capW) ∧
  (∀ (h : Hdr) (s : State), AcceptedFor s h 0x0705 → ∃ t, exec (.energyRead h) s = .next t ∧ PlanKept s t ∧
    Answered t h 0x0705 0 [(8, (s.part h.part).pw.energyMj)]) ∧
  (∀ (h : Hdr) (loc i ev : Nat) (s : State), Accepted s h 0x0801 → s.hasCounter loc i = true → eventOk (loc / 4096) ev = true →
    ∃ t, exec (.counterSet h loc i ev 0) s = .next t ∧ PlanKept s t ∧ Answered t h 0x0801 0 [] ∧ (t.counter loc i).event = ev ∧
      (t.counter loc i).mode = 0 ∧ (ev ≠ 0x40E → (t.counter loc i).value = 0 ∧ (t.counter loc i).sticky = false)) ∧
  (∀ (h : Hdr) (loc : Nat) (l : List Nat) (s : State), Accepted s h 0x0802 → l ≠ [] → l.length ≤ 16 →
    (∀ i ∈ l, s.hasCounter loc i = true) → (∀ x, s.session h.sid = some x → x.role ≠ .operator) →
    ∃ t, exec (.counterRead h loc l) s = .next t ∧ PlanKept s t ∧ Answered t h 0x0802 0 (l.map (fun i =>
      (8, (if ((ready s h 0x0802).counter loc i).sticky then 2 ^ 63 else 0) + ((ready s h 0x0802).counter loc i).value.toNat)))) ∧
  (∀ (h : Hdr) (first n : Nat) (s : State), Accepted s h 0x0803 → (∀ x, s.session h.sid = some x → x.role ≠ .operator) →
    ∃ t, exec (.errorLogRead h first n) s = .next t ∧ PlanKept s t ∧
      (first + 16384 < s.errNext → Answered t h 0x0803 0x07 []) ∧
      (s.errNext ≤ first + 16384 → Answered t h 0x0803 0
        (((s.errs.filter (fun e => decide (first ≤ e.index ∧ e.index < first + n))).map errFields).flatten))) ∧
  (∀ (h : Hdr) (s : State), Accepted s h 0x0804 → ∃ t rest, exec (.healthRead h) s = .next t ∧ PlanKept s t ∧
    Answered t h 0x0804 0 ((2, s.health.score) :: (2, s.health.round) :: rest) ∧ rest.length = 30) ∧
  (∀ (h : Hdr) (b c : Nat) (s : State), Accepted s h 0x0810 → b < 64 → s.enginePresent b = true → c < 18 →
    ∃ t, exec (.cellRetire h b c) s = .next t ∧ Answered t h 0x0810 0 [] ∧ t.parts = s.parts ∧ t.cells = s.cells ∧
      (∀ k, k < 18 → (look 0#18 t.retired b).getLsbD k = ((look 0#18 s.retired b).getLsbD k || decide (k = c))) ∧
      (∀ k, k ≠ b → look 0#18 t.retired k = look 0#18 s.retired k) ∧
      ((look 0#18 s.retired b).getLsbD c = false → RaisedOne s t .event 0xC0 [])) ∧
  (∀ (h : Hdr) (kind unit test c : Nat) (r : DiagOut) (s : State), s.unitAbsent kind unit = false → unitExists kind unit = true →
    s.unitBusy kind unit = false → r.fault = false →
    (Accepted s h 0x0811 → ∃ t, exec (.diagRun h kind unit r) s = .next t ∧ t.parts = s.parts ∧ t.cells = s.cells ∧
      Answered t h 0x0811 0 [(8, r.mask)]) ∧
    (Accepted s h 0x0820 → unitExists 1 c = true → s.unitAbsent 1 c = false → ∃ t, exec (.rmaDiag h kind unit test r (some c)) s = .next t ∧ t.parts = s.parts ∧
      Answered t h 0x0820 0 [(8, r.mask)] ∧ (look 0#18 t.retired (c / 32)).getLsbD (c % 32) = false ∧
      ∀ k, k ≠ c / 32 → look 0#18 t.retired k = look 0#18 s.retired k)) ∧
  (∀ (h : Hdr) (tg : FwTarget) (img : FwImage) (s : State), Accepted s h 0x0901 → h.fn ≠ 17 → s.boot.phase = .ready →
    s.installing = false → (s.fw tg).verifies img = true → ∃ t, exec (.fwInstall h tg img) s = .next t ∧ PlanKept s t ∧
      (t.fw tg).install = some (some h, img) ∧ (t.fw tg).image true = none ∧ (t.fw tg).image false = (s.fw tg).image false) ∧
  (∀ (tg : FwTarget) (good : Bool) (hd : Option Hdr) (img : FwImage) (s : State), (s.fw tg).install = some (hd, img) →
    ∃ t, exec (.fwInstallDone tg good) s = .next t ∧ PlanKept s t ∧ (t.fw tg).install = none ∧
      (t.fw tg).image true = (if good then some img else none) ∧ (t.fw tg).image false = (s.fw tg).image false ∧
      ∀ h, hd = some h → Listening s h 0x0901 → Answered t h 0x0901 (if good then 0 else 0x09) []) ∧
  (∀ (h : Hdr) (tg : FwTarget) (img : FwImage) (s : State), Accepted s h 0x0902 → s.installing = false → s.spFw.activ = none →
    s.mgFw.activ = none → (s.fw tg).good (!(s.fw tg).bankB) = some img → ∃ t, exec (.fwActivate h tg true) s = .next t ∧
      PlanKept s t ∧ (t.fw tg).bankB = !(s.fw tg).bankB ∧
      (tg = .management → t.mgmtDown = true ∧ t.mgFw.activ = some h ∧ t.mgFw.activAt = s.wallNs) ∧
      (tg = .security → t.spRun = img.digest ∧ t.keys.attestEp = s.keys.attestEp + 1 ∧ (∀ sid, t.session sid = none) ∧
        Answered t h 0x0902 0 [])) ∧
  (∀ (h : Hdr) (s : State), s.mgFw.activ = some h → ∃ t, exec .managementRestartDone s = .next t ∧ PlanKept s t ∧
    t.mgmtDown = false ∧ t.mgFw.activ = none ∧ (∀ img, s.mgFw.image false = some img → t.mgRun = img.digest) ∧
    (Listening s h 0x0902 → Answered t h 0x0902 0 [])) ∧
  (∀ (tg : FwTarget) (s : State), s.wallNs < (s.fw tg).activAt + 10 ^ 10 → exec (.fwActivateTimeout tg) s = .next s) ∧
  (∀ (tg : FwTarget) (h : Hdr) (s : State), (s.fw tg).activ = some h → (s.fw tg).activAt + 10 ^ 10 ≤ s.wallNs →
    ∃ t, exec (.fwActivateTimeout tg) s = .next t ∧ PlanKept s t ∧
    (t.fw tg).bankB = !(s.fw tg).bankB ∧ (t.fw tg).activ = none ∧ (t.fw tg).image true = none ∧
    (Listening s h 0x0902 → Answered t h 0x0902 0x09 [])) ∧
  (∀ (h : Hdr) (tg : FwTarget) (s : State), Accepted s h 0x0903 → ∃ t, exec (.fwStatus h tg) s = .next t ∧ PlanKept s t ∧
    Answered t h 0x0903 0 (bankFields (s.fw tg).a ++ bankFields (s.fw tg).b ++ [(4, (s.fw tg).min)])) ∧
  (∀ (h : Hdr) (tg : FwTarget) (a : FwImage) (s : State), Accepted s h 0x0904 → (s.fw tg).image false = some a →
    (∀ b, (s.fw tg).image true = some b → a.version ≤ b.version) → ∃ t, exec (.fwMinAdvance h tg) s = .next t ∧ PlanKept s t ∧
      Answered t h 0x0904 0 [] ∧ (t.fw tg).min = max (s.fw tg).min a.version) ∧
  (∀ (h : Hdr) (host : Nat) (s : State), Accepted s h 0x0910 → h.fn ≠ 17 → ∃ t, exec (.calRead h host) s = .next t ∧ PlanKept s t ∧
    Answered t h 0x0910 0 [] ∧ Sent.calSet host s.calFlash ∈ t.out) ∧
  (∀ (h : Hdr) (host : Nat) (set : CalSet) (s : State), Accepted s h 0x0911 → h.fn ≠ 17 →
    calValid s.fuses.serial s.fuses.fused set = true → s.slicesLeased (calShadow set).slices = false → ∃ t, exec (.calWrite h host set true) s = .next t ∧ PlanKept s t ∧
      Answered t h 0x0911 0 [] ∧ t.calFlash = set ∧ t.calLoad = s.calLoad) ∧
  (∀ (h : Hdr) (i : Nat) (s : State), Accepted s h 0x0912 → i < 12 → s.boot.selfcal = none → s.calBusy false i = false →
    ∃ t, exec (.selfCalibrate h false i) s = .next t ∧ t.parts = s.parts ∧ t.boot.selfcal = some (false, i) ∧
      t.boot.selfHdr = some h ∧ (t.port i).st = (if (s.port i).st = .off then .off else .calibrating) ∧
      ∀ k, k ≠ i → t.port k = s.port k) ∧
  (∀ (h : Hdr) (i : Nat) (r : CalOut) (s : State), s.boot.selfcal = some (false, i) → s.boot.selfHdr = some h →
    (s.port i).st = .calibrating → r.flashOk = true → trainOk r.port = true →
    max 16 ((r.port.quiet8 + 8 * (s.port i).stormCorr + 7) / 8 + 8) ≤ 4095 →
    ∃ t, exec (.selfCalibrateDone r) s = .next t ∧ t.parts = s.parts ∧ t.boot.selfcal = none ∧ t.calFlash.writer = 3 ∧
      (t.port i).st = .fenced ∧ (t.port i).latRx = max 16 ((r.port.quiet8 + 8 * (s.port i).stormCorr + 7) / 8 + 8) ∧
      (Listening s h 0x0912 → Answered t h 0x0912 0 [])) ∧
  (∀ (h : Hdr) (i : Nat) (on : Bool) (s : State), Accepted s h 0x0920 → i < 11 → s.portHeld i i = false → s.axRole ≠ some i →
    ∃ t, exec (.portConfig h i on i) s = .next t ∧ Answered t h 0x0920 0 [] ∧ (∀ k, k ≠ i → t.port k = s.port k) ∧
      (on = true → (t.port i).st = (if (s.port i).st = .off then .down else (s.port i).st)) ∧
      (on = false → (t.port i).st = .off ∧ (t.port i).boot = [])) ∧
  (∀ (h : Hdr) (b : Bool) (s : State), Accepted s h 0x0921 → ∃ t, exec (.hostLinkConfig h b) s = .next t ∧ PlanKept s t ∧
    Answered t h 0x0921 0 [] ∧ t.io = { s.io with bifurNxt := b }) ∧
  (∀ (h : Hdr) (g : Nat) (v : Word) (s : State), Accepted s h 0x0930 → g < 256 → s.activeParts = [] →
    (∀ e ∈ s.fuses.blown, e.1 ≠ g) → ∃ t, exec (.fuseWrite h g v) s = .next t ∧ PlanKept s t ∧ Answered t h 0x0930 0 [] ∧
      t.fuses = { s.fuses with blown := t.fuses.blown } ∧ look 0 t.fuses.blown g = v)

/-- Rings, doorbells, fetches, registers and links; layers open and close; copies start as transfers. Rests on R13, R326,
R333, R448, R451, R453, R454, R455, R456, R458, R496, Table 12.9. -/
def Obligations.HostPathAndLayers : Prop :=
  (∀ (fn k q : Nat) (v : Word) (s : State), s.ringExists fn k q = true →
    exec (.doorbellWrite fn k q v) s = .next (s.setRing fn k q (if 2 ^ (s.ring fn k q).size ≤ v.toNat % 65536
      then { s.ring fn k q with err := true } else { s.ring fn k q with db := v.toNat % 65536 })) ∧
    (∃ t, exec (.ringEnable fn k q) s = .next t ∧ (t.ring fn k q).enable = true ∧ t = { s with rings := t.rings } ∧
      ((s.ring fn k q).enable = false → (t.ring fn k q).db = 0 ∧ (t.ring fn k q).ptr = 0 ∧ (t.ring fn k q).phase = true) ∧
      ((s.ring fn k q).enable = true → t.ring fn k q = s.ring fn k q)) ∧
    (∃ t, exec (.ringDisable fn k q) s = .next t ∧ (t.ring fn k q).enable = false ∧ t.parts = s.parts ∧
      t.inProg = s.inProg ∧ ((s.ring fn k q).enable = true → q = 1 →
        ∀ e ∈ s.inProg, e.1.fn = fn → e.1.set = k → e ∈ t.mute) ∧ (q ≠ 1 → t.mute = s.mute))) ∧
  (∀ (h : Hdr) (op : Nat) (s : State), s.serves h = true →
    (h.fn ≤ 16 → s.setExists h.set = true → (s.ring h.fn h.set 0).enable = true → (s.ring h.fn h.set 1).enable = true →
      Ring.held (s.ring h.fn h.set 0).db (s.ring h.fn h.set 0).ptr (s.ring h.fn h.set 0).size ≠ 0 →
      s.turnOf h.fn = true → s.setTurn h.fn h.set = true → (s.ring h.fn h.set 0).flight < 64 → (s.ring h.fn h.set 0).flight +
        Ring.held (s.ring h.fn h.set 1).ptr (s.ring h.fn h.set 1).db (s.ring h.fn h.set 1).size + 1 < 2 ^ (s.ring h.fn h.set 1).size →
      ∃ t, exec (.submissionFetch h op) s = .next t ∧ t.parts = s.parts ∧ t.rota = (h.fn + 1) % 18 ∧
        (t.ring h.fn h.set 0).ptr = ((s.ring h.fn h.set 0).ptr + 1) % 2 ^ (s.ring h.fn h.set 0).size ∧
        (assigned op = true → t.inProg = s.inProg ++ [(h, op)] ∧
          (t.ring h.fn h.set 0).flight = (s.ring h.fn h.set 0).flight + 1)) ∧
    ((h.fn ≠ 17 ∨ s.turnOf 17 = false) → exec (.mgmtDatagram h op) s = .next s) ∧
    (h.fn = 17 → s.turnOf 17 = true → ∃ t, exec (.mgmtDatagram h op) s = .next t ∧ t.parts = s.parts ∧
      (assigned op = true → t = { s with inProg := s.inProg ++ [(h, op)], rota := 0 }) ∧
      (∀ x, assigned op = false → (h, op) ∉ s.mute → s.session h.sid = some x → x.proved = true →
        h.tag = cmdTag x.key h op → x.counter < h.counter → Answered t h op 0x03 []))) ∧
  (∀ (v : Word) (s : State), ∃ t, exec (.registerWrite 0 0x00200008 v) s = .next t ∧ t = { s with pwr := t.pwr } ∧
    t.pwr.overW = (s.pwr.overW && !v.getLsbD 38) ∧ (v.getLsbD 0 = true → t.pwr.peakW = s.pwr.estW) ∧
    (v.getLsbD 0 = false → t.pwr.peakW = s.pwr.peakW)) ∧
  (∀ (i : Nat) (s : State),
    exec (.portWmRestart i) s = .next (s.onPort i (fun y => { y with holdMax := 0, holdMin := 0xFF, guardMax := 0 })) ∧
    exec (.islandLagRestart i) s = .next (s.onIsland i (fun y => { y with lagMax := y.lag })) ∧
    exec .pwrPeakRestart s = .next { s with pwr := { s.pwr with peakW := s.pwr.estW } }) ∧
  (∀ (v : Word) (s : State), ∃ t, exec (.registerWrite 18 4 v) s = .next t ∧ t = { s with seqr := t.seqr } ∧
    t.seqr = { s.seqr with clip := t.seqr.clip, lockout := t.seqr.lockout, trip := t.seqr.trip, coolant := t.seqr.coolant
                           refused := t.seqr.refused } ∧
    t.seqr.clip = (s.seqr.clip && !v.getLsbD 0) ∧ t.seqr.lockout = (s.seqr.lockout && !v.getLsbD 1) ∧
    t.seqr.trip = (s.seqr.trip && !v.getLsbD 2) ∧ t.seqr.coolant = (s.seqr.coolant && !v.getLsbD 3) ∧
    t.seqr.refused = (s.seqr.refused && !v.getLsbD 4)) ∧
  (∀ (v : Word) (s : State), ∃ t, exec (.counterSelect v) s = .next t ∧ t = { s with cnt := t.cnt } ∧
    t.cnt.loc = v.toNat / 65536 % 65536 ∧ t.cnt.idx = v.toNat % 256 ∧ t.cnt.selAt = some s.wallNs ∧
    (∀ a, s.cnt.selAt = some a → s.wallNs < a + 40 → t.cnt.selErr = true ∧ t.cnt.valid = s.cnt.valid ∧ t.cnt.want = s.cnt.want) ∧
    ((∀ a, s.cnt.selAt = some a → a + 40 ≤ s.wallNs) → s.hasCounter (v.toNat / 65536 % 65536) (v.toNat % 256) = true →
      t.cnt.valid = false ∧ t.cnt.want = some (v.toNat / 65536 % 65536, v.toNat % 256) ∧ t.cnt.selErr = (s.cnt.selErr && !v.getLsbD 63))) ∧
  (∀ s : State, s.cnt.want = none → exec .counterSample s = .next s) ∧
  (∀ (loc i : Nat) (s : State), s.cnt.want = some (loc, i) → ∃ t, exec .counterSample s = .next t ∧
    t = { s with cnt := t.cnt } ∧ t.cnt.valid = true ∧ t.cnt.want = none ∧ t.cnt.value = (s.counter loc i).value ∧
    t.cnt.sticky = (s.counter loc i).sticky) ∧
  (∀ (link : Nat) (fns : List Nat) (s : State), link < 2 → ∃ t, exec (.hostLinkReset link fns) s = .next t ∧
    t.sessions = s.sessions ∧ t.cells = s.cells ∧ (∀ p, (t.part p).st = (s.part p).st) ∧
    (∀ fn q, q < 4 → fn ∈ fns → t.ring fn link q = ringReset q) ∧ ∀ fn k q, q < 4 → k < 2 → fn ∉ fns → t.ring fn k q = s.ring fn k q) ∧
  (∀ (link stream : Nat) (s : State), ∃ t, exec (.ideKeyChange link stream) s = .next t ∧ t = { s with io := t.io } ∧
    look 0 t.io.ideKeys (8 * link + stream) = look 0 s.io.ideKeys (8 * link + stream) + 1) ∧
  (∀ (h : Hdr) (i job rank serial : Nat) (routes : SMap (BitVec 16)) (s : State), AcceptedFor s h 0x0620 → s.portAbsent i = false →
    h.fn ≠ 17 → i < 12 → job < 2 ^ 32 → rank < 65536 → serial < 2 ^ 64 → (∀ e ∈ routes, e.2.toNat < 4096) →
    ((s.part h.part).jb.jstate = .none ∨ job = (s.part h.part).jb.job ∧ rank = (s.part h.part).rank) →
    (s.part h.part).active? = false → (s.port i).opened h.part = false →
    ∃ t, exec (.portOpen h i job rank serial routes) s = .next t ∧ PlanKept s t ∧ Answered t h 0x0620 0 [] ∧
      look none (t.port i).boot h.part = some { job, rank, serial, routes := putAll 0 [] routes } ∧ ∀ k, k ≠ i → t.port k = s.port k) ∧
  (∀ (h : Hdr) (i : Nat) (s : State), AcceptedFor s h 0x0621 → i < 12 → (s.part h.part).active? = false →
    (s.port i).opened h.part = true → ∃ t, exec (.portFence h i) s = .next t ∧ PlanKept s t ∧ Answered t h 0x0621 0 [] ∧
      (t.port i).opened h.part = false ∧ ∀ k, k ≠ i → t.port k = s.port k) ∧
  (∀ (h : Hdr) (x : CopyIn) (s : State), AcceptedFor s h 0x0622 → copyOk x = true → (s.part h.part).jb.job ≠ 0 →
    (s.part h.part).copyBad x = false → (s.outstanding x.ch).length < 64 → (s.part h.part).noLoadSlots = false →
    (s.part h.part).zeroising ((leasesAt x.laddr x.lines).map (fun i => (Tier.cold, i))) = false →
    ∃ t y, exec (.fabricCopy h x) s = .next t ∧ PlanKept s t ∧ t.xfer (xferKey x.ch (s.freeTag x.ch)) = some y ∧
      y.hdrCmd = some h ∧ y.hdr.dst = x.rank ∧ y.hdr.op = (if x.write then 2 else 1) ∧ y.hdr.total = x.lines ∧ y.hdr.addr = x.raddr ∧
      y.hdr.job = (s.part h.part).jb.job ∧ y.hdr.seq = look 0 s.fab.seqs (seqKey y.hdr) ∧ y.done = none ∧ (∃ o ∈ t.fab.outq, o.hdr.tag = s.freeTag x.ch ∧ o.cls = 2) ∧
      look 0 t.fab.seqs (seqKey y.hdr) = (look 0 s.fab.seqs (seqKey y.hdr) + 1) % 2 ^ 32) ∧
  (∀ (h : Hdr) (i : Nat) (s : State), AcceptedFor s h 0x0623 → i < 12 → ∃ t a b c d, exec (.fabricStatus h i) s = .next t ∧
    PlanKept s t ∧ Answered t h 0x0623 0 [(2, a), (2, b), (2, c), (1, (s.port i).fwdDrop.toNat), (1, (s.port i).stray.toNat), (2, d),
      (2, s.fab.retries.toNat), (2, s.fab.lateDrop.toNat), (2, ((s.fab.xfers.filterMap (·.2)).filter (·.quar.isSome)).length)])

namespace Sys2Proof.Stmt
open Sys2Proof Sys2Proof.Machine

/-- Registers of function 0 at reset: offset, the bits whose reset value the register tables give, their value. -/
def resetRegs : List (Nat × Word × Word) :=
  [(0x18, 0xFFFFFFFFFFFFFFFF, 0xFA00000000000000), (0x20, 0xFFFFFFFF0000FFFF, 0), (0x28, 0xC00000FFFFFFFFFF, 0x8000000780000000),
   (0x2100, 0xFFE03FFFFFFFFFFF, 0), (0x200008, 0xFFFFFF7FFFFFFFFF, 0), (0x200010, 0xFFFFFFFFFFFFFFFF, 0),
   (0x200018, 0xFFFFFFFFFFFFFFFF, 0xF0000000), (0x200020, 0xFFFFFFFFFFFFFFFF, 0xF800000000000000), (0x200028, 0xFFFFFFFFFFFFFFFF, 0),
   (0x300000, 0xFFFFFFFFFFFFFFFF, 0), (0x300008, 0xFFFFFFFFFFFFFFFF, 0), (0x300010, 0xFFFFFFFFFFFFFFFF, 0),
   (0x300018, 0xFFFFFFFFFFFFFFFF, 0xF000000000000000), (0x400000, 0xFFFFFFFFFFFFFFFF, 0), (0x400008, 0xFFFFFFFFFFFFFFFF, 0),
   (0x501000, 0xFFFFFFFFFFFFFFFF, 0), (0x600000, 0x00000000FFFFFFFF, 0), (0x700000, 0xFFF00FFF00000000, 0)]

/-- The bits of register `off` of function 0 that `mask` names read `v`. -/
def ReadsBits (s : State) (off : Nat) (mask v : Word) : Prop := s.readReg 0 off &&& mask = v

end Sys2Proof.Stmt

/-- A step runs the command at the front of the queue; an empty queue idles (the model's choice, log entry 1). Rests on
95_what_each_step_holds.md. -/
def Obligations.StepRunsFrontCommand : Prop :=
  (∀ (c : Instr) (rest : List Instr) (s : State), s.pending = c :: rest → step s = exec c { s with pending := rest }) ∧
  ∀ s : State, s.pending = [] → step s = .next s

/-- Every register field whose reset value the register tables give reads that value at reset. Rests on R13, Table 2.4,
Table 11.7, Table 11.9, Table 12.5, Table 13.9, Table 16.9, Table 17.4, Table 17.6, Table 18.11, Table 19.12, Table
21.7. -/
def Obligations.RegistersReadTheirResetValues : Prop :=
  State.reset.pending = [] ∧ State.reset.canonical = true ∧
  (∀ e ∈ resetRegs, ReadsBits State.reset e.1 e.2.1 e.2.2) ∧
  (∀ p, p < 16 → ∀ i, i < 11 → ReadsBits State.reset (0x800000 + 0x80000 * p + 8 * i) (if i = 8 then 0x0000FFFFFFFFFFFF else 0xFFFFFFFFFFFFFFFF) 0) ∧
  (∀ b, b < 64 → ReadsBits State.reset (0x1000 + 8 * b) 0xFFFFF3F00003FFFF 0) ∧
  (∀ k, k < 12 → ReadsBits State.reset (0x2000 + 8 * k) 0xFFE030000000FFFF 0) ∧
  (∀ i, i < 12 → let a := 0x500000 + 0x100 * i
    ReadsBits State.reset a 0xFFFFFFFFFFFFFFFF (BitVec.ofNat 64 (i * 2 ^ 56 + 0xFF * 2 ^ 48)) ∧
    ReadsBits State.reset (a + 8) 0xF00FFFFFFFFFFFFF 0 ∧ ReadsBits State.reset (a + 16) 0xFFFFFFFFFFFFFFFF 0x0000FF0000000000 ∧
    ReadsBits State.reset (a + 24) 0xFFFFFFFFFFFFFFFF 0) ∧
  (∀ p, p < 16 → ReadsBits State.reset (0x501100 + 8 * p) 0xFFFFFFFFFFFFFFFF 0) ∧
  (∀ i, i < 95 → ReadsBits State.reset (0x301000 + 8 * i) 0xFFFFBF00FFFFFFFF 0) ∧
  (∀ q, q < 4 → let a := 0x100000 + 0x40 * q
    ReadsBits State.reset a 0xFFFFFFFFFFFFFFFF 0 ∧ ReadsBits State.reset (a + 16) 0xFFFFFFFFFFFFFFFF 0 ∧
    ReadsBits State.reset (a + 8) 0xFFFFFFFFFFFFFFFF (BitVec.ofNat 64 (q * 2 ^ 48 + (([8, 7, 6, 20] : List Nat).getD q 0) * 2 ^ 40 + 4)) ∧
    ReadsBits State.reset (a + 24) 0xFFFFFFFFFFFFFFFF 0x8000000000000000) ∧
  State.reset.seqReg 0 = 0x53 ∧ State.reset.seqReg 1 = 0x0F ∧ State.reset.seqReg 2 = 0 ∧ State.reset.seqReg 3 = 0xF8 ∧
  State.reset.seqReg 4 = 0 ∧ State.reset.seqReg 6 = 0

/-- Every step answers a next state, takes just the front command from the queue, and leaves grade and fused blocks as
made. Rests on R8, R14, 95_what_each_step_holds.md. -/
def Obligations.EveryCommandCompletes : Prop :=
  ∀ s : State, ∃ t, step s = .next t ∧ t.pending = s.pending.tail ∧ t.fuses.grade = s.fuses.grade ∧ t.fuses.fused = s.fuses.fused
end

