-- ==== Sys2Proof/Laws/Map.lean ====
section
/-! SUPPORT. Sparse tables: what a read sees after a write, and that every write keeps the canonical form. -/

namespace Sys2Proof.Machine

theorem look_without_same {α : Type} (d : α) (m : SMap α) (k : Nat) : look d (SMap.without m k) k = d := by
  induction m with
  | nil => rfl
  | cons e m ih =>
    obtain ⟨k', v⟩ := e
    by_cases h : k = k'
    · simp [SMap.without, h]; rw [← h]; exact ih
    · simp [SMap.without, look, h, ih]

theorem look_without_ne {α : Type} (d : α) (m : SMap α) {k j : Nat} (hne : j ≠ k) :
    look d (SMap.without m k) j = look d m j := by
  induction m with
  | nil => rfl
  | cons e m ih =>
    obtain ⟨k', v⟩ := e
    by_cases h : k = k'
    · have : j ≠ k' := by omega
      simp [SMap.without, look, h, this]; rw [← h]; exact ih
    · simp [SMap.without, look, h, ih]

theorem look_place {α : Type} (d : α) (m : SMap α) (k : Nat) (v : α) (j : Nat)
    (hk : ∀ e ∈ m, e.1 ≠ k) :
    look d (SMap.place m k v) j = if j = k then v else look d m j := by
  induction m with
  | nil => rfl
  | cons e m ih =>
    obtain ⟨k', v'⟩ := e
    have hk' : k' ≠ k := hk (k', v') (by simp)
    have hr : ∀ e ∈ m, e.1 ≠ k := fun e he => hk e (by simp [he])
    unfold SMap.place
    split
    · simp [look]
    · simp only [look, ih hr]
      by_cases h1 : j = k'
      · simp [h1, hk']
      · simp [h1]

theorem without_keys {α : Type} (m : SMap α) (k : Nat) : ∀ e ∈ SMap.without m k, e.1 ≠ k := by
  induction m with
  | nil => simp [SMap.without]
  | cons e m ih =>
    obtain ⟨k', v⟩ := e
    unfold SMap.without
    split
    · exact ih
    · intro e he
      rcases List.mem_cons.1 he with rfl | he
      · simpa using Ne.symm ‹_›
      · exact ih e he

/-- A read after a write. -/
theorem look_put {α : Type} [DecidableEq α] (d : α) (m : SMap α) (k : Nat) (v : α) (j : Nat) :
    look d (put d m k v) j = if j = k then v else look d m j := by
  unfold put
  split
  · rename_i hv
    by_cases h : j = k
    · simp [h, hv, look_without_same]
    · simp [h, look_without_ne d m h]
  · rw [look_place d _ k v j (without_keys m k)]
    by_cases h : j = k
    · simp [h]
    · simp [h, look_without_ne d m h]

@[simp] theorem look_put_same {α : Type} [DecidableEq α] (d : α) (m : SMap α) (k : Nat) (v : α) :
    look d (put d m k v) k = v := by simp [look_put]

theorem look_put_ne {α : Type} [DecidableEq α] (d : α) (m : SMap α) {k j : Nat} (v : α) (h : j ≠ k) :
    look d (put d m k v) j = look d m j := by simp [look_put, h]

@[simp] theorem look_upd_same {α : Type} [DecidableEq α] (d : α) (m : SMap α) (k : Nat) (f : α → α) :
    look d (upd d m k f) k = f (look d m k) := by simp [upd]

theorem look_upd_ne {α : Type} [DecidableEq α] (d : α) (m : SMap α) {k j : Nat} (f : α → α) (h : j ≠ k) :
    look d (upd d m k f) j = look d m j := by simp [upd, look_put_ne, h]

/-! ### The canonical form -/

theorem rising_mono {α : Type} (m : SMap α) {lo hi : Nat} (h : lo ≤ hi) (hm : SMap.rising hi m = true) :
    SMap.rising lo m = true := by
  cases m with
  | nil => rfl
  | cons e m =>
    simp only [SMap.rising, Bool.and_eq_true, decide_eq_true_eq] at hm ⊢
    exact ⟨by omega, hm.2⟩

theorem rising_without {α : Type} (m : SMap α) (k : Nat) : ∀ {lo : Nat}, SMap.rising lo m = true →
    SMap.rising lo (SMap.without m k) = true := by
  induction m with
  | nil => intro lo h; exact h
  | cons e m ih =>
    obtain ⟨k', v⟩ := e
    intro lo h
    simp [SMap.rising] at h
    unfold SMap.without
    split
    · exact rising_mono _ (by omega) (ih h.2)
    · simp [SMap.rising, h.1, ih h.2]

theorem rising_place {α : Type} (m : SMap α) (k : Nat) (v : α) : ∀ {lo : Nat}, lo ≤ k → SMap.rising lo m = true →
    (∀ e ∈ m, e.1 ≠ k) → SMap.rising lo (SMap.place m k v) = true := by
  induction m with
  | nil => intro lo h _ _; simp [SMap.place, SMap.rising, h]
  | cons e m ih =>
    obtain ⟨k', v'⟩ := e
    intro lo h hm hk
    have hk' : k' ≠ k := hk (k', v') (by simp)
    simp [SMap.rising] at hm
    unfold SMap.place
    split
    · rename_i hlt
      have hlt' : k + 1 ≤ k' := hlt
      simp [SMap.rising, h, hlt', hm.2]
    · simp [SMap.rising, hm.1]
      exact ih (by omega) hm.2 (fun e he => hk e (by simp [he]))

theorem mem_without {α : Type} (m : SMap α) (k : Nat) {e : Nat × α} (h : e ∈ SMap.without m k) : e ∈ m := by
  induction m with
  | nil => simp [SMap.without] at h
  | cons a m ih =>
    obtain ⟨k', v⟩ := a
    unfold SMap.without at h
    split at h
    · exact List.mem_cons_of_mem _ (ih h)
    · rcases List.mem_cons.1 h with rfl | h
      · simp
      · exact List.mem_cons_of_mem _ (ih h)

theorem mem_place {α : Type} (m : SMap α) (k : Nat) (v : α) {e : Nat × α} (h : e ∈ SMap.place m k v) : e = (k, v) ∨ e ∈ m := by
  induction m with
  | nil => simpa [SMap.place] using h
  | cons a m ih =>
    obtain ⟨k', v'⟩ := a
    unfold SMap.place at h
    split at h
    · simpa using h
    · rcases List.mem_cons.1 h with rfl | h
      · simp
      · rcases ih h with h | h
        · exact .inl h
        · exact .inr (List.mem_cons_of_mem _ h)

/-- A write keeps the canonical form. -/
theorem put_wf {α : Type} [DecidableEq α] (d : α) (m : SMap α) (k : Nat) (v : α) (h : SMap.wf d m = true) :
    SMap.wf d (put d m k v) = true := by
  simp only [SMap.wf, Bool.and_eq_true, List.all_eq_true, decide_eq_true_eq] at h ⊢
  unfold put
  split
  · exact ⟨rising_without m k h.1, fun e he => h.2 e (mem_without m k he)⟩
  · rename_i hv
    refine ⟨rising_place _ k v (Nat.zero_le _) (rising_without m k h.1) (without_keys m k), fun e he => ?_⟩
    rcases mem_place _ k v he with rfl | he
    · exact hv
    · exact h.2 e (mem_without m k he)

theorem upd_wf {α : Type} [DecidableEq α] (d : α) (m : SMap α) (k : Nat) (f : α → α) (h : SMap.wf d m = true) :
    SMap.wf d (upd d m k f) = true := put_wf d m k _ h

theorem filter_rising {α : Type} (m : SMap α) (q : Nat × α → Bool) : ∀ {lo : Nat}, SMap.rising lo m = true →
    SMap.rising lo (m.filter q) = true := by
  induction m with
  | nil => intro lo h; exact h
  | cons e m ih =>
    obtain ⟨k', v⟩ := e
    intro lo h
    simp [SMap.rising] at h
    by_cases hq : q (k', v)
    · simp [hq, SMap.rising, h.1, ih h.2]
    · simp [hq]; exact rising_mono _ (by omega) (ih h.2)

/-- Dropping entries keeps the canonical form. -/
theorem filter_wf {α : Type} [DecidableEq α] (d : α) (m : SMap α) (q : Nat × α → Bool) (h : SMap.wf d m = true) :
    SMap.wf d (m.filter q) = true := by
  simp only [SMap.wf, Bool.and_eq_true, List.all_eq_true, decide_eq_true_eq] at h ⊢
  exact ⟨filter_rising m q h.1, fun e he => h.2 e (List.mem_filter.1 he).1⟩

theorem map_rising {α : Type} (m : SMap α) (f : Nat → α → α) : ∀ {lo : Nat}, SMap.rising lo m = true →
    SMap.rising lo (m.map (fun e => (e.1, f e.1 e.2))) = true := by
  induction m with
  | nil => intro lo h; exact h
  | cons e m ih =>
    obtain ⟨k', v⟩ := e
    intro lo h
    simp [SMap.rising] at h ⊢
    exact ⟨h.1, ih h.2⟩

/-- Applying a function to every entry keeps the canonical form. -/
theorem mapv_wf {α : Type} [DecidableEq α] (d : α) (m : SMap α) (f : Nat → α → α) (h : SMap.wf d m = true) :
    SMap.wf d (mapv d m f) = true := by
  simp only [SMap.wf, Bool.and_eq_true] at h ⊢
  refine ⟨filter_rising _ _ (map_rising m f h.1), ?_⟩
  simp only [mapv, List.all_eq_true]
  intro e he
  exact (List.mem_filter.1 he).2

/-- What `mapv` leaves at a key, when `f` keeps the default. -/
theorem look_mapv {α : Type} [DecidableEq α] (d : α) (m : SMap α) (f : Nat → α → α) (hd : ∀ k, f k d = d)
    {lo : Nat} (hm : SMap.rising lo m = true) (k : Nat) : look d (mapv d m f) k = f k (look d m k) := by
  induction m generalizing lo with
  | nil => simp [mapv, look, hd]
  | cons e m ih =>
    obtain ⟨k', v⟩ := e
    simp [SMap.rising] at hm
    have hrest := ih hm.2
    have hout : ∀ (m : SMap α) (lo : Nat), SMap.rising lo m = true → k < lo → look d m k = d := by
      intro m
      induction m with
      | nil => intro _ _ _; rfl
      | cons e m ih2 =>
        obtain ⟨a, b⟩ := e
        intro lo h hlt
        simp [SMap.rising] at h
        have : k ≠ a := by omega
        simp only [look, if_neg this]
        exact ih2 (a + 1) h.2 (by omega)
    unfold mapv at hrest ⊢
    by_cases hv : f k' v = d
    · simp only [List.map_cons, List.filter_cons, hv, ne_eq, not_true_eq_false, decide_false]
      by_cases hk : k = k'
      · subst hk
        simp only [look, if_true, hv]
        have h1 := hrest
        rw [hout m (k + 1) hm.2 (by omega), hd] at h1
        simpa using h1
      · simp only [look, if_neg hk]
        simpa using hrest
    · have hdec : decide (f k' v ≠ d) = true := by simp [hv]
      simp only [List.map_cons, List.filter_cons, hdec, if_true]
      by_cases hk : k = k'
      · subst hk; simp [look]
      · simp only [look, if_neg hk]
        simpa using hrest

/-! ### Byte memories -/

theorem setByte_wf (m : Mem) (a : Nat) (b : BitVec 8) (h : Mem.wf m = true) : Mem.wf (Mem.setByte m a b) = true :=
  put_wf _ m a b h

theorem setBytes_wf (bs : List (BitVec 8)) : ∀ (m : Mem) (a : Nat), Mem.wf m = true → Mem.wf (Mem.setBytes m a bs) = true := by
  induction bs with
  | nil => intro m a h; exact h
  | cons b bs ih => intro m a h; exact ih _ _ (setByte_wf m a b h)

theorem setCells_wf (l : List Host.Cell) : ∀ (m : Mem), Mem.wf m = true → Mem.wf (Mem.setCells m l) = true := by
  induction l with
  | nil => intro m h; exact h
  | cons e l ih => intro m h; exact ih _ (setByte_wf m e.1 e.2 h)

theorem clear_wf (m : Mem) (a n : Nat) (h : Mem.wf m = true) : Mem.wf (Mem.clear m a n) = true := filter_wf _ m _ h

theorem setLine_wf (m : Mem) (ea : Nat) (l : Line) (h : Mem.wf m = true) : Mem.wf (Mem.setLine m ea l) = true :=
  setBytes_wf _ m ea h

@[simp] theorem byte_setByte_same (m : Mem) (a : Nat) (b : BitVec 8) : Mem.byte (Mem.setByte m a b) a = b := look_put_same _ m a b

theorem byte_setByte_ne (m : Mem) {a j : Nat} (b : BitVec 8) (h : j ≠ a) : Mem.byte (Mem.setByte m a b) j = Mem.byte m j :=
  look_put_ne _ m b h

/-- Bytes outside a run that is written read as before. -/
theorem byte_setBytes_out (bs : List (BitVec 8)) : ∀ (m : Mem) (a j : Nat), (j < a ∨ a + bs.length ≤ j) →
    Mem.byte (Mem.setBytes m a bs) j = Mem.byte m j := by
  induction bs with
  | nil => intro m a j _; rfl
  | cons b bs ih =>
    intro m a j h
    simp only [List.length_cons] at h
    rw [Mem.setBytes, ih _ _ _ (by omega), byte_setByte_ne _ _ (by omega)]

/-- Bytes inside a run that is written read the run. -/
theorem byte_setBytes_in (bs : List (BitVec 8)) : ∀ (m : Mem) (a i : Nat), i < bs.length →
    Mem.byte (Mem.setBytes m a bs) (a + i) = bs.getD i 0#8 := by
  induction bs with
  | nil => intro m a i h; simp at h
  | cons b bs ih =>
    intro m a i h
    cases i with
    | zero => rw [Mem.setBytes, byte_setBytes_out _ _ _ _ (by omega)]; simp
    | succ i =>
      have := ih (Mem.setByte m a b) (a + 1) i (by simpa using h)
      rw [show a + 1 + i = a + (i + 1) from by omega] at this
      simpa [Mem.setBytes] using this

end Sys2Proof.Machine
end

