-- ==== Sys2Proof/Laws/State.lean ====
section
/-! SUPPORT. What each update of the state leaves in each field, so that no proof unfolds a record update; what a unit reads
as after an update of the same or another unit; what posting events, audit entries and completions leaves alone. -/

namespace Sys2Proof.Machine

/-! ### One lemma per field per update -/

@[simp] theorem State.setCell_pending (s : State) (c : Nat) (x : Cell) : (s.setCell c x).pending = s.pending := rfl
@[simp] theorem State.setCell_cycle (s : State) (c : Nat) (x : Cell) : (s.setCell c x).cycle = s.cycle := rfl
@[simp] theorem State.setCell_frameNo (s : State) (c : Nat) (x : Cell) : (s.setCell c x).frameNo = s.frameNo := rfl
@[simp] theorem State.setCell_wallAt (s : State) (c : Nat) (x : Cell) : (s.setCell c x).wallAt = s.wallAt := rfl
@[simp] theorem State.setCell_freeCtr (s : State) (c : Nat) (x : Cell) : (s.setCell c x).freeCtr = s.freeCtr := rfl
@[simp] theorem State.setCell_nextKey (s : State) (c : Nat) (x : Cell) : (s.setCell c x).nextKey = s.nextKey := rfl
@[simp] theorem State.setCell_out (s : State) (c : Nat) (x : Cell) : (s.setCell c x).out = s.out := rfl
@[simp] theorem State.setCell_blocks (s : State) (c : Nat) (x : Cell) : (s.setCell c x).blocks = s.blocks := rfl
@[simp] theorem State.setCell_stks (s : State) (c : Nat) (x : Cell) : (s.setCell c x).stks = s.stks := rfl
@[simp] theorem State.setCell_cold (s : State) (c : Nat) (x : Cell) : (s.setCell c x).cold = s.cold := rfl
@[simp] theorem State.setCell_parts (s : State) (c : Nat) (x : Cell) : (s.setCell c x).parts = s.parts := rfl
@[simp] theorem State.setCell_raised (s : State) (c : Nat) (x : Cell) : (s.setCell c x).raised = s.raised := rfl
@[simp] theorem State.setCell_counters (s : State) (c : Nat) (x : Cell) : (s.setCell c x).counters = s.counters := rfl
@[simp] theorem State.setCell_retired (s : State) (c : Nat) (x : Cell) : (s.setCell c x).retired = s.retired := rfl
@[simp] theorem State.setCell_ports (s : State) (c : Nat) (x : Cell) : (s.setCell c x).ports = s.ports := rfl
@[simp] theorem State.setCell_fab (s : State) (c : Nat) (x : Cell) : (s.setCell c x).fab = s.fab := rfl
@[simp] theorem State.setCell_shadows (s : State) (c : Nat) (x : Cell) : (s.setCell c x).shadows = s.shadows := rfl
@[simp] theorem State.setCell_tu (s : State) (c : Nat) (x : Cell) : (s.setCell c x).tu = s.tu := rfl
@[simp] theorem State.setCell_islands (s : State) (c : Nat) (x : Cell) : (s.setCell c x).islands = s.islands := rfl
@[simp] theorem State.setCell_pwr (s : State) (c : Nat) (x : Cell) : (s.setCell c x).pwr = s.pwr := rfl
@[simp] theorem State.setCell_seqr (s : State) (c : Nat) (x : Cell) : (s.setCell c x).seqr = s.seqr := rfl
@[simp] theorem State.setCell_keys (s : State) (c : Nat) (x : Cell) : (s.setCell c x).keys = s.keys := rfl
@[simp] theorem State.setCell_sessions (s : State) (c : Nat) (x : Cell) : (s.setCell c x).sessions = s.sessions := rfl
@[simp] theorem State.setCell_openFail (s : State) (c : Nat) (x : Cell) : (s.setCell c x).openFail = s.openFail := rfl
@[simp] theorem State.setCell_audit (s : State) (c : Nat) (x : Cell) : (s.setCell c x).audit = s.audit := rfl
@[simp] theorem State.setCell_auditIdx (s : State) (c : Nat) (x : Cell) : (s.setCell c x).auditIdx = s.auditIdx := rfl
@[simp] theorem State.setCell_auditHead (s : State) (c : Nat) (x : Cell) : (s.setCell c x).auditHead = s.auditHead := rfl
@[simp] theorem State.setCell_checks (s : State) (c : Nat) (x : Cell) : (s.setCell c x).checks = s.checks := rfl
@[simp] theorem State.setCell_openSec (s : State) (c : Nat) (x : Cell) : (s.setCell c x).openSec = s.openSec := rfl
@[simp] theorem State.setCell_mute (s : State) (c : Nat) (x : Cell) : (s.setCell c x).mute = s.mute := rfl
@[simp] theorem State.setCell_spFw (s : State) (c : Nat) (x : Cell) : (s.setCell c x).spFw = s.spFw := rfl
@[simp] theorem State.setCell_mgFw (s : State) (c : Nat) (x : Cell) : (s.setCell c x).mgFw = s.mgFw := rfl
@[simp] theorem State.setCell_spRun (s : State) (c : Nat) (x : Cell) : (s.setCell c x).spRun = s.spRun := rfl
@[simp] theorem State.setCell_mgRun (s : State) (c : Nat) (x : Cell) : (s.setCell c x).mgRun = s.mgRun := rfl
@[simp] theorem State.setCell_mgmtDown (s : State) (c : Nat) (x : Cell) : (s.setCell c x).mgmtDown = s.mgmtDown := rfl
@[simp] theorem State.setCell_boot (s : State) (c : Nat) (x : Cell) : (s.setCell c x).boot = s.boot := rfl
@[simp] theorem State.setCell_io (s : State) (c : Nat) (x : Cell) : (s.setCell c x).io = s.io := rfl
@[simp] theorem State.setCell_fuses (s : State) (c : Nat) (x : Cell) : (s.setCell c x).fuses = s.fuses := rfl
@[simp] theorem State.setCell_msix (s : State) (c : Nat) (x : Cell) : (s.setCell c x).msix = s.msix := rfl
@[simp] theorem State.setCell_msixWait (s : State) (c : Nat) (x : Cell) : (s.setCell c x).msixWait = s.msixWait := rfl
@[simp] theorem State.setCell_act (s : State) (c : Nat) (x : Cell) : (s.setCell c x).act = s.act := rfl
@[simp] theorem State.setCell_rings (s : State) (c : Nat) (x : Cell) : (s.setCell c x).rings = s.rings := rfl
@[simp] theorem State.setCell_inProg (s : State) (c : Nat) (x : Cell) : (s.setCell c x).inProg = s.inProg := rfl
@[simp] theorem State.setCell_errs (s : State) (c : Nat) (x : Cell) : (s.setCell c x).errs = s.errs := rfl
@[simp] theorem State.setCell_errNext (s : State) (c : Nat) (x : Cell) : (s.setCell c x).errNext = s.errNext := rfl
@[simp] theorem State.setCell_flashErr (s : State) (c : Nat) (x : Cell) : (s.setCell c x).flashErr = s.flashErr := rfl
@[simp] theorem State.setCell_pFaults (s : State) (c : Nat) (x : Cell) : (s.setCell c x).pFaults = s.pFaults := rfl
@[simp] theorem State.setCell_jFaults (s : State) (c : Nat) (x : Cell) : (s.setCell c x).jFaults = s.jFaults := rfl
@[simp] theorem State.setCell_health (s : State) (c : Nat) (x : Cell) : (s.setCell c x).health = s.health := rfl
@[simp] theorem State.setCell_cnt (s : State) (c : Nat) (x : Cell) : (s.setCell c x).cnt = s.cnt := rfl
@[simp] theorem State.setCell_round (s : State) (c : Nat) (x : Cell) : (s.setCell c x).round = s.round := rfl
@[simp] theorem State.setCell_calFlash (s : State) (c : Nat) (x : Cell) : (s.setCell c x).calFlash = s.calFlash := rfl
@[simp] theorem State.setCell_calLoad (s : State) (c : Nat) (x : Cell) : (s.setCell c x).calLoad = s.calLoad := rfl
@[simp] theorem State.setCell_mgrDrop (s : State) (c : Nat) (x : Cell) : (s.setCell c x).mgrDrop = s.mgrDrop := rfl
@[simp] theorem State.setCell_detachCmd (s : State) (c : Nat) (x : Cell) : (s.setCell c x).detachCmd = s.detachCmd := rfl
@[simp] theorem State.setCell_taken (s : State) (c : Nat) (x : Cell) : (s.setCell c x).taken = s.taken := rfl
@[simp] theorem State.setCell_rota (s : State) (c : Nat) (x : Cell) : (s.setCell c x).rota = s.rota := rfl
@[simp] theorem State.setCell_rotaSet (s : State) (c : Nat) (x : Cell) : (s.setCell c x).rotaSet = s.rotaSet := rfl

@[simp] theorem State.setBlock_pending (s : State) (c : Nat) (x : Block) : (s.setBlock c x).pending = s.pending := rfl
@[simp] theorem State.setBlock_cycle (s : State) (c : Nat) (x : Block) : (s.setBlock c x).cycle = s.cycle := rfl
@[simp] theorem State.setBlock_frameNo (s : State) (c : Nat) (x : Block) : (s.setBlock c x).frameNo = s.frameNo := rfl
@[simp] theorem State.setBlock_wallAt (s : State) (c : Nat) (x : Block) : (s.setBlock c x).wallAt = s.wallAt := rfl
@[simp] theorem State.setBlock_freeCtr (s : State) (c : Nat) (x : Block) : (s.setBlock c x).freeCtr = s.freeCtr := rfl
@[simp] theorem State.setBlock_nextKey (s : State) (c : Nat) (x : Block) : (s.setBlock c x).nextKey = s.nextKey := rfl
@[simp] theorem State.setBlock_out (s : State) (c : Nat) (x : Block) : (s.setBlock c x).out = s.out := rfl
@[simp] theorem State.setBlock_cells (s : State) (c : Nat) (x : Block) : (s.setBlock c x).cells = s.cells := rfl
@[simp] theorem State.setBlock_stks (s : State) (c : Nat) (x : Block) : (s.setBlock c x).stks = s.stks := rfl
@[simp] theorem State.setBlock_cold (s : State) (c : Nat) (x : Block) : (s.setBlock c x).cold = s.cold := rfl
@[simp] theorem State.setBlock_parts (s : State) (c : Nat) (x : Block) : (s.setBlock c x).parts = s.parts := rfl
@[simp] theorem State.setBlock_raised (s : State) (c : Nat) (x : Block) : (s.setBlock c x).raised = s.raised := rfl
@[simp] theorem State.setBlock_counters (s : State) (c : Nat) (x : Block) : (s.setBlock c x).counters = s.counters := rfl
@[simp] theorem State.setBlock_retired (s : State) (c : Nat) (x : Block) : (s.setBlock c x).retired = s.retired := rfl
@[simp] theorem State.setBlock_ports (s : State) (c : Nat) (x : Block) : (s.setBlock c x).ports = s.ports := rfl
@[simp] theorem State.setBlock_fab (s : State) (c : Nat) (x : Block) : (s.setBlock c x).fab = s.fab := rfl
@[simp] theorem State.setBlock_shadows (s : State) (c : Nat) (x : Block) : (s.setBlock c x).shadows = s.shadows := rfl
@[simp] theorem State.setBlock_tu (s : State) (c : Nat) (x : Block) : (s.setBlock c x).tu = s.tu := rfl
@[simp] theorem State.setBlock_islands (s : State) (c : Nat) (x : Block) : (s.setBlock c x).islands = s.islands := rfl
@[simp] theorem State.setBlock_pwr (s : State) (c : Nat) (x : Block) : (s.setBlock c x).pwr = s.pwr := rfl
@[simp] theorem State.setBlock_seqr (s : State) (c : Nat) (x : Block) : (s.setBlock c x).seqr = s.seqr := rfl
@[simp] theorem State.setBlock_keys (s : State) (c : Nat) (x : Block) : (s.setBlock c x).keys = s.keys := rfl
@[simp] theorem State.setBlock_sessions (s : State) (c : Nat) (x : Block) : (s.setBlock c x).sessions = s.sessions := rfl
@[simp] theorem State.setBlock_openFail (s : State) (c : Nat) (x : Block) : (s.setBlock c x).openFail = s.openFail := rfl
@[simp] theorem State.setBlock_audit (s : State) (c : Nat) (x : Block) : (s.setBlock c x).audit = s.audit := rfl
@[simp] theorem State.setBlock_auditIdx (s : State) (c : Nat) (x : Block) : (s.setBlock c x).auditIdx = s.auditIdx := rfl
@[simp] theorem State.setBlock_auditHead (s : State) (c : Nat) (x : Block) : (s.setBlock c x).auditHead = s.auditHead := rfl
@[simp] theorem State.setBlock_checks (s : State) (c : Nat) (x : Block) : (s.setBlock c x).checks = s.checks := rfl
@[simp] theorem State.setBlock_openSec (s : State) (c : Nat) (x : Block) : (s.setBlock c x).openSec = s.openSec := rfl
@[simp] theorem State.setBlock_mute (s : State) (c : Nat) (x : Block) : (s.setBlock c x).mute = s.mute := rfl
@[simp] theorem State.setBlock_spFw (s : State) (c : Nat) (x : Block) : (s.setBlock c x).spFw = s.spFw := rfl
@[simp] theorem State.setBlock_mgFw (s : State) (c : Nat) (x : Block) : (s.setBlock c x).mgFw = s.mgFw := rfl
@[simp] theorem State.setBlock_spRun (s : State) (c : Nat) (x : Block) : (s.setBlock c x).spRun = s.spRun := rfl
@[simp] theorem State.setBlock_mgRun (s : State) (c : Nat) (x : Block) : (s.setBlock c x).mgRun = s.mgRun := rfl
@[simp] theorem State.setBlock_mgmtDown (s : State) (c : Nat) (x : Block) : (s.setBlock c x).mgmtDown = s.mgmtDown := rfl
@[simp] theorem State.setBlock_boot (s : State) (c : Nat) (x : Block) : (s.setBlock c x).boot = s.boot := rfl
@[simp] theorem State.setBlock_io (s : State) (c : Nat) (x : Block) : (s.setBlock c x).io = s.io := rfl
@[simp] theorem State.setBlock_fuses (s : State) (c : Nat) (x : Block) : (s.setBlock c x).fuses = s.fuses := rfl
@[simp] theorem State.setBlock_msix (s : State) (c : Nat) (x : Block) : (s.setBlock c x).msix = s.msix := rfl
@[simp] theorem State.setBlock_msixWait (s : State) (c : Nat) (x : Block) : (s.setBlock c x).msixWait = s.msixWait := rfl
@[simp] theorem State.setBlock_act (s : State) (c : Nat) (x : Block) : (s.setBlock c x).act = s.act := rfl
@[simp] theorem State.setBlock_rings (s : State) (c : Nat) (x : Block) : (s.setBlock c x).rings = s.rings := rfl
@[simp] theorem State.setBlock_inProg (s : State) (c : Nat) (x : Block) : (s.setBlock c x).inProg = s.inProg := rfl
@[simp] theorem State.setBlock_errs (s : State) (c : Nat) (x : Block) : (s.setBlock c x).errs = s.errs := rfl
@[simp] theorem State.setBlock_errNext (s : State) (c : Nat) (x : Block) : (s.setBlock c x).errNext = s.errNext := rfl
@[simp] theorem State.setBlock_flashErr (s : State) (c : Nat) (x : Block) : (s.setBlock c x).flashErr = s.flashErr := rfl
@[simp] theorem State.setBlock_pFaults (s : State) (c : Nat) (x : Block) : (s.setBlock c x).pFaults = s.pFaults := rfl
@[simp] theorem State.setBlock_jFaults (s : State) (c : Nat) (x : Block) : (s.setBlock c x).jFaults = s.jFaults := rfl
@[simp] theorem State.setBlock_health (s : State) (c : Nat) (x : Block) : (s.setBlock c x).health = s.health := rfl
@[simp] theorem State.setBlock_cnt (s : State) (c : Nat) (x : Block) : (s.setBlock c x).cnt = s.cnt := rfl
@[simp] theorem State.setBlock_round (s : State) (c : Nat) (x : Block) : (s.setBlock c x).round = s.round := rfl
@[simp] theorem State.setBlock_calFlash (s : State) (c : Nat) (x : Block) : (s.setBlock c x).calFlash = s.calFlash := rfl
@[simp] theorem State.setBlock_calLoad (s : State) (c : Nat) (x : Block) : (s.setBlock c x).calLoad = s.calLoad := rfl
@[simp] theorem State.setBlock_mgrDrop (s : State) (c : Nat) (x : Block) : (s.setBlock c x).mgrDrop = s.mgrDrop := rfl
@[simp] theorem State.setBlock_detachCmd (s : State) (c : Nat) (x : Block) : (s.setBlock c x).detachCmd = s.detachCmd := rfl
@[simp] theorem State.setBlock_taken (s : State) (c : Nat) (x : Block) : (s.setBlock c x).taken = s.taken := rfl
@[simp] theorem State.setBlock_rota (s : State) (c : Nat) (x : Block) : (s.setBlock c x).rota = s.rota := rfl
@[simp] theorem State.setBlock_rotaSet (s : State) (c : Nat) (x : Block) : (s.setBlock c x).rotaSet = s.rotaSet := rfl

@[simp] theorem State.setPart_pending (s : State) (c : Nat) (x : Part) : (s.setPart c x).pending = s.pending := rfl
@[simp] theorem State.setPart_cycle (s : State) (c : Nat) (x : Part) : (s.setPart c x).cycle = s.cycle := rfl
@[simp] theorem State.setPart_frameNo (s : State) (c : Nat) (x : Part) : (s.setPart c x).frameNo = s.frameNo := rfl
@[simp] theorem State.setPart_wallAt (s : State) (c : Nat) (x : Part) : (s.setPart c x).wallAt = s.wallAt := rfl
@[simp] theorem State.setPart_freeCtr (s : State) (c : Nat) (x : Part) : (s.setPart c x).freeCtr = s.freeCtr := rfl
@[simp] theorem State.setPart_nextKey (s : State) (c : Nat) (x : Part) : (s.setPart c x).nextKey = s.nextKey := rfl
@[simp] theorem State.setPart_out (s : State) (c : Nat) (x : Part) : (s.setPart c x).out = s.out := rfl
@[simp] theorem State.setPart_cells (s : State) (c : Nat) (x : Part) : (s.setPart c x).cells = s.cells := rfl
@[simp] theorem State.setPart_blocks (s : State) (c : Nat) (x : Part) : (s.setPart c x).blocks = s.blocks := rfl
@[simp] theorem State.setPart_stks (s : State) (c : Nat) (x : Part) : (s.setPart c x).stks = s.stks := rfl
@[simp] theorem State.setPart_cold (s : State) (c : Nat) (x : Part) : (s.setPart c x).cold = s.cold := rfl
@[simp] theorem State.setPart_raised (s : State) (c : Nat) (x : Part) : (s.setPart c x).raised = s.raised := rfl
@[simp] theorem State.setPart_counters (s : State) (c : Nat) (x : Part) : (s.setPart c x).counters = s.counters := rfl
@[simp] theorem State.setPart_retired (s : State) (c : Nat) (x : Part) : (s.setPart c x).retired = s.retired := rfl
@[simp] theorem State.setPart_ports (s : State) (c : Nat) (x : Part) : (s.setPart c x).ports = s.ports := rfl
@[simp] theorem State.setPart_fab (s : State) (c : Nat) (x : Part) : (s.setPart c x).fab = s.fab := rfl
@[simp] theorem State.setPart_shadows (s : State) (c : Nat) (x : Part) : (s.setPart c x).shadows = s.shadows := rfl
@[simp] theorem State.setPart_tu (s : State) (c : Nat) (x : Part) : (s.setPart c x).tu = s.tu := rfl
@[simp] theorem State.setPart_islands (s : State) (c : Nat) (x : Part) : (s.setPart c x).islands = s.islands := rfl
@[simp] theorem State.setPart_pwr (s : State) (c : Nat) (x : Part) : (s.setPart c x).pwr = s.pwr := rfl
@[simp] theorem State.setPart_seqr (s : State) (c : Nat) (x : Part) : (s.setPart c x).seqr = s.seqr := rfl
@[simp] theorem State.setPart_keys (s : State) (c : Nat) (x : Part) : (s.setPart c x).keys = s.keys := rfl
@[simp] theorem State.setPart_sessions (s : State) (c : Nat) (x : Part) : (s.setPart c x).sessions = s.sessions := rfl
@[simp] theorem State.setPart_openFail (s : State) (c : Nat) (x : Part) : (s.setPart c x).openFail = s.openFail := rfl
@[simp] theorem State.setPart_audit (s : State) (c : Nat) (x : Part) : (s.setPart c x).audit = s.audit := rfl
@[simp] theorem State.setPart_auditIdx (s : State) (c : Nat) (x : Part) : (s.setPart c x).auditIdx = s.auditIdx := rfl
@[simp] theorem State.setPart_auditHead (s : State) (c : Nat) (x : Part) : (s.setPart c x).auditHead = s.auditHead := rfl
@[simp] theorem State.setPart_checks (s : State) (c : Nat) (x : Part) : (s.setPart c x).checks = s.checks := rfl
@[simp] theorem State.setPart_openSec (s : State) (c : Nat) (x : Part) : (s.setPart c x).openSec = s.openSec := rfl
@[simp] theorem State.setPart_mute (s : State) (c : Nat) (x : Part) : (s.setPart c x).mute = s.mute := rfl
@[simp] theorem State.setPart_spFw (s : State) (c : Nat) (x : Part) : (s.setPart c x).spFw = s.spFw := rfl
@[simp] theorem State.setPart_mgFw (s : State) (c : Nat) (x : Part) : (s.setPart c x).mgFw = s.mgFw := rfl
@[simp] theorem State.setPart_spRun (s : State) (c : Nat) (x : Part) : (s.setPart c x).spRun = s.spRun := rfl
@[simp] theorem State.setPart_mgRun (s : State) (c : Nat) (x : Part) : (s.setPart c x).mgRun = s.mgRun := rfl
@[simp] theorem State.setPart_mgmtDown (s : State) (c : Nat) (x : Part) : (s.setPart c x).mgmtDown = s.mgmtDown := rfl
@[simp] theorem State.setPart_boot (s : State) (c : Nat) (x : Part) : (s.setPart c x).boot = s.boot := rfl
@[simp] theorem State.setPart_io (s : State) (c : Nat) (x : Part) : (s.setPart c x).io = s.io := rfl
@[simp] theorem State.setPart_fuses (s : State) (c : Nat) (x : Part) : (s.setPart c x).fuses = s.fuses := rfl
@[simp] theorem State.setPart_msix (s : State) (c : Nat) (x : Part) : (s.setPart c x).msix = s.msix := rfl
@[simp] theorem State.setPart_msixWait (s : State) (c : Nat) (x : Part) : (s.setPart c x).msixWait = s.msixWait := rfl
@[simp] theorem State.setPart_act (s : State) (c : Nat) (x : Part) : (s.setPart c x).act = s.act := rfl
@[simp] theorem State.setPart_rings (s : State) (c : Nat) (x : Part) : (s.setPart c x).rings = s.rings := rfl
@[simp] theorem State.setPart_inProg (s : State) (c : Nat) (x : Part) : (s.setPart c x).inProg = s.inProg := rfl
@[simp] theorem State.setPart_errs (s : State) (c : Nat) (x : Part) : (s.setPart c x).errs = s.errs := rfl
@[simp] theorem State.setPart_errNext (s : State) (c : Nat) (x : Part) : (s.setPart c x).errNext = s.errNext := rfl
@[simp] theorem State.setPart_flashErr (s : State) (c : Nat) (x : Part) : (s.setPart c x).flashErr = s.flashErr := rfl
@[simp] theorem State.setPart_pFaults (s : State) (c : Nat) (x : Part) : (s.setPart c x).pFaults = s.pFaults := rfl
@[simp] theorem State.setPart_jFaults (s : State) (c : Nat) (x : Part) : (s.setPart c x).jFaults = s.jFaults := rfl
@[simp] theorem State.setPart_health (s : State) (c : Nat) (x : Part) : (s.setPart c x).health = s.health := rfl
@[simp] theorem State.setPart_cnt (s : State) (c : Nat) (x : Part) : (s.setPart c x).cnt = s.cnt := rfl
@[simp] theorem State.setPart_round (s : State) (c : Nat) (x : Part) : (s.setPart c x).round = s.round := rfl
@[simp] theorem State.setPart_calFlash (s : State) (c : Nat) (x : Part) : (s.setPart c x).calFlash = s.calFlash := rfl
@[simp] theorem State.setPart_calLoad (s : State) (c : Nat) (x : Part) : (s.setPart c x).calLoad = s.calLoad := rfl
@[simp] theorem State.setPart_mgrDrop (s : State) (c : Nat) (x : Part) : (s.setPart c x).mgrDrop = s.mgrDrop := rfl
@[simp] theorem State.setPart_detachCmd (s : State) (c : Nat) (x : Part) : (s.setPart c x).detachCmd = s.detachCmd := rfl
@[simp] theorem State.setPart_taken (s : State) (c : Nat) (x : Part) : (s.setPart c x).taken = s.taken := rfl
@[simp] theorem State.setPart_rota (s : State) (c : Nat) (x : Part) : (s.setPart c x).rota = s.rota := rfl
@[simp] theorem State.setPart_rotaSet (s : State) (c : Nat) (x : Part) : (s.setPart c x).rotaSet = s.rotaSet := rfl

@[simp] theorem State.onCell_pending (s : State) (c : Nat) (f : Cell → Cell) : (s.onCell c f).pending = s.pending := rfl
@[simp] theorem State.onCell_cycle (s : State) (c : Nat) (f : Cell → Cell) : (s.onCell c f).cycle = s.cycle := rfl
@[simp] theorem State.onCell_frameNo (s : State) (c : Nat) (f : Cell → Cell) : (s.onCell c f).frameNo = s.frameNo := rfl
@[simp] theorem State.onCell_wallAt (s : State) (c : Nat) (f : Cell → Cell) : (s.onCell c f).wallAt = s.wallAt := rfl
@[simp] theorem State.onCell_freeCtr (s : State) (c : Nat) (f : Cell → Cell) : (s.onCell c f).freeCtr = s.freeCtr := rfl
@[simp] theorem State.onCell_nextKey (s : State) (c : Nat) (f : Cell → Cell) : (s.onCell c f).nextKey = s.nextKey := rfl
@[simp] theorem State.onCell_out (s : State) (c : Nat) (f : Cell → Cell) : (s.onCell c f).out = s.out := rfl
@[simp] theorem State.onCell_blocks (s : State) (c : Nat) (f : Cell → Cell) : (s.onCell c f).blocks = s.blocks := rfl
@[simp] theorem State.onCell_stks (s : State) (c : Nat) (f : Cell → Cell) : (s.onCell c f).stks = s.stks := rfl
@[simp] theorem State.onCell_cold (s : State) (c : Nat) (f : Cell → Cell) : (s.onCell c f).cold = s.cold := rfl
@[simp] theorem State.onCell_parts (s : State) (c : Nat) (f : Cell → Cell) : (s.onCell c f).parts = s.parts := rfl
@[simp] theorem State.onCell_raised (s : State) (c : Nat) (f : Cell → Cell) : (s.onCell c f).raised = s.raised := rfl
@[simp] theorem State.onCell_counters (s : State) (c : Nat) (f : Cell → Cell) : (s.onCell c f).counters = s.counters := rfl
@[simp] theorem State.onCell_retired (s : State) (c : Nat) (f : Cell → Cell) : (s.onCell c f).retired = s.retired := rfl
@[simp] theorem State.onCell_ports (s : State) (c : Nat) (f : Cell → Cell) : (s.onCell c f).ports = s.ports := rfl
@[simp] theorem State.onCell_fab (s : State) (c : Nat) (f : Cell → Cell) : (s.onCell c f).fab = s.fab := rfl
@[simp] theorem State.onCell_shadows (s : State) (c : Nat) (f : Cell → Cell) : (s.onCell c f).shadows = s.shadows := rfl
@[simp] theorem State.onCell_tu (s : State) (c : Nat) (f : Cell → Cell) : (s.onCell c f).tu = s.tu := rfl
@[simp] theorem State.onCell_islands (s : State) (c : Nat) (f : Cell → Cell) : (s.onCell c f).islands = s.islands := rfl
@[simp] theorem State.onCell_pwr (s : State) (c : Nat) (f : Cell → Cell) : (s.onCell c f).pwr = s.pwr := rfl
@[simp] theorem State.onCell_seqr (s : State) (c : Nat) (f : Cell → Cell) : (s.onCell c f).seqr = s.seqr := rfl
@[simp] theorem State.onCell_keys (s : State) (c : Nat) (f : Cell → Cell) : (s.onCell c f).keys = s.keys := rfl
@[simp] theorem State.onCell_sessions (s : State) (c : Nat) (f : Cell → Cell) : (s.onCell c f).sessions = s.sessions := rfl
@[simp] theorem State.onCell_openFail (s : State) (c : Nat) (f : Cell → Cell) : (s.onCell c f).openFail = s.openFail := rfl
@[simp] theorem State.onCell_audit (s : State) (c : Nat) (f : Cell → Cell) : (s.onCell c f).audit = s.audit := rfl
@[simp] theorem State.onCell_auditIdx (s : State) (c : Nat) (f : Cell → Cell) : (s.onCell c f).auditIdx = s.auditIdx := rfl
@[simp] theorem State.onCell_auditHead (s : State) (c : Nat) (f : Cell → Cell) : (s.onCell c f).auditHead = s.auditHead := rfl
@[simp] theorem State.onCell_checks (s : State) (c : Nat) (f : Cell → Cell) : (s.onCell c f).checks = s.checks := rfl
@[simp] theorem State.onCell_openSec (s : State) (c : Nat) (f : Cell → Cell) : (s.onCell c f).openSec = s.openSec := rfl
@[simp] theorem State.onCell_mute (s : State) (c : Nat) (f : Cell → Cell) : (s.onCell c f).mute = s.mute := rfl
@[simp] theorem State.onCell_spFw (s : State) (c : Nat) (f : Cell → Cell) : (s.onCell c f).spFw = s.spFw := rfl
@[simp] theorem State.onCell_mgFw (s : State) (c : Nat) (f : Cell → Cell) : (s.onCell c f).mgFw = s.mgFw := rfl
@[simp] theorem State.onCell_spRun (s : State) (c : Nat) (f : Cell → Cell) : (s.onCell c f).spRun = s.spRun := rfl
@[simp] theorem State.onCell_mgRun (s : State) (c : Nat) (f : Cell → Cell) : (s.onCell c f).mgRun = s.mgRun := rfl
@[simp] theorem State.onCell_mgmtDown (s : State) (c : Nat) (f : Cell → Cell) : (s.onCell c f).mgmtDown = s.mgmtDown := rfl
@[simp] theorem State.onCell_boot (s : State) (c : Nat) (f : Cell → Cell) : (s.onCell c f).boot = s.boot := rfl
@[simp] theorem State.onCell_io (s : State) (c : Nat) (f : Cell → Cell) : (s.onCell c f).io = s.io := rfl
@[simp] theorem State.onCell_fuses (s : State) (c : Nat) (f : Cell → Cell) : (s.onCell c f).fuses = s.fuses := rfl
@[simp] theorem State.onCell_msix (s : State) (c : Nat) (f : Cell → Cell) : (s.onCell c f).msix = s.msix := rfl
@[simp] theorem State.onCell_msixWait (s : State) (c : Nat) (f : Cell → Cell) : (s.onCell c f).msixWait = s.msixWait := rfl
@[simp] theorem State.onCell_act (s : State) (c : Nat) (f : Cell → Cell) : (s.onCell c f).act = s.act := rfl
@[simp] theorem State.onCell_rings (s : State) (c : Nat) (f : Cell → Cell) : (s.onCell c f).rings = s.rings := rfl
@[simp] theorem State.onCell_inProg (s : State) (c : Nat) (f : Cell → Cell) : (s.onCell c f).inProg = s.inProg := rfl
@[simp] theorem State.onCell_errs (s : State) (c : Nat) (f : Cell → Cell) : (s.onCell c f).errs = s.errs := rfl
@[simp] theorem State.onCell_errNext (s : State) (c : Nat) (f : Cell → Cell) : (s.onCell c f).errNext = s.errNext := rfl
@[simp] theorem State.onCell_flashErr (s : State) (c : Nat) (f : Cell → Cell) : (s.onCell c f).flashErr = s.flashErr := rfl
@[simp] theorem State.onCell_pFaults (s : State) (c : Nat) (f : Cell → Cell) : (s.onCell c f).pFaults = s.pFaults := rfl
@[simp] theorem State.onCell_jFaults (s : State) (c : Nat) (f : Cell → Cell) : (s.onCell c f).jFaults = s.jFaults := rfl
@[simp] theorem State.onCell_health (s : State) (c : Nat) (f : Cell → Cell) : (s.onCell c f).health = s.health := rfl
@[simp] theorem State.onCell_cnt (s : State) (c : Nat) (f : Cell → Cell) : (s.onCell c f).cnt = s.cnt := rfl
@[simp] theorem State.onCell_round (s : State) (c : Nat) (f : Cell → Cell) : (s.onCell c f).round = s.round := rfl
@[simp] theorem State.onCell_calFlash (s : State) (c : Nat) (f : Cell → Cell) : (s.onCell c f).calFlash = s.calFlash := rfl
@[simp] theorem State.onCell_calLoad (s : State) (c : Nat) (f : Cell → Cell) : (s.onCell c f).calLoad = s.calLoad := rfl
@[simp] theorem State.onCell_mgrDrop (s : State) (c : Nat) (f : Cell → Cell) : (s.onCell c f).mgrDrop = s.mgrDrop := rfl
@[simp] theorem State.onCell_detachCmd (s : State) (c : Nat) (f : Cell → Cell) : (s.onCell c f).detachCmd = s.detachCmd := rfl
@[simp] theorem State.onCell_taken (s : State) (c : Nat) (f : Cell → Cell) : (s.onCell c f).taken = s.taken := rfl
@[simp] theorem State.onCell_rota (s : State) (c : Nat) (f : Cell → Cell) : (s.onCell c f).rota = s.rota := rfl
@[simp] theorem State.onCell_rotaSet (s : State) (c : Nat) (f : Cell → Cell) : (s.onCell c f).rotaSet = s.rotaSet := rfl

@[simp] theorem State.onBlock_pending (s : State) (c : Nat) (f : Block → Block) : (s.onBlock c f).pending = s.pending := rfl
@[simp] theorem State.onBlock_cycle (s : State) (c : Nat) (f : Block → Block) : (s.onBlock c f).cycle = s.cycle := rfl
@[simp] theorem State.onBlock_frameNo (s : State) (c : Nat) (f : Block → Block) : (s.onBlock c f).frameNo = s.frameNo := rfl
@[simp] theorem State.onBlock_wallAt (s : State) (c : Nat) (f : Block → Block) : (s.onBlock c f).wallAt = s.wallAt := rfl
@[simp] theorem State.onBlock_freeCtr (s : State) (c : Nat) (f : Block → Block) : (s.onBlock c f).freeCtr = s.freeCtr := rfl
@[simp] theorem State.onBlock_nextKey (s : State) (c : Nat) (f : Block → Block) : (s.onBlock c f).nextKey = s.nextKey := rfl
@[simp] theorem State.onBlock_out (s : State) (c : Nat) (f : Block → Block) : (s.onBlock c f).out = s.out := rfl
@[simp] theorem State.onBlock_cells (s : State) (c : Nat) (f : Block → Block) : (s.onBlock c f).cells = s.cells := rfl
@[simp] theorem State.onBlock_stks (s : State) (c : Nat) (f : Block → Block) : (s.onBlock c f).stks = s.stks := rfl
@[simp] theorem State.onBlock_cold (s : State) (c : Nat) (f : Block → Block) : (s.onBlock c f).cold = s.cold := rfl
@[simp] theorem State.onBlock_parts (s : State) (c : Nat) (f : Block → Block) : (s.onBlock c f).parts = s.parts := rfl
@[simp] theorem State.onBlock_raised (s : State) (c : Nat) (f : Block → Block) : (s.onBlock c f).raised = s.raised := rfl
@[simp] theorem State.onBlock_counters (s : State) (c : Nat) (f : Block → Block) : (s.onBlock c f).counters = s.counters := rfl
@[simp] theorem State.onBlock_retired (s : State) (c : Nat) (f : Block → Block) : (s.onBlock c f).retired = s.retired := rfl
@[simp] theorem State.onBlock_ports (s : State) (c : Nat) (f : Block → Block) : (s.onBlock c f).ports = s.ports := rfl
@[simp] theorem State.onBlock_fab (s : State) (c : Nat) (f : Block → Block) : (s.onBlock c f).fab = s.fab := rfl
@[simp] theorem State.onBlock_shadows (s : State) (c : Nat) (f : Block → Block) : (s.onBlock c f).shadows = s.shadows := rfl
@[simp] theorem State.onBlock_tu (s : State) (c : Nat) (f : Block → Block) : (s.onBlock c f).tu = s.tu := rfl
@[simp] theorem State.onBlock_islands (s : State) (c : Nat) (f : Block → Block) : (s.onBlock c f).islands = s.islands := rfl
@[simp] theorem State.onBlock_pwr (s : State) (c : Nat) (f : Block → Block) : (s.onBlock c f).pwr = s.pwr := rfl
@[simp] theorem State.onBlock_seqr (s : State) (c : Nat) (f : Block → Block) : (s.onBlock c f).seqr = s.seqr := rfl
@[simp] theorem State.onBlock_keys (s : State) (c : Nat) (f : Block → Block) : (s.onBlock c f).keys = s.keys := rfl
@[simp] theorem State.onBlock_sessions (s : State) (c : Nat) (f : Block → Block) : (s.onBlock c f).sessions = s.sessions := rfl
@[simp] theorem State.onBlock_openFail (s : State) (c : Nat) (f : Block → Block) : (s.onBlock c f).openFail = s.openFail := rfl
@[simp] theorem State.onBlock_audit (s : State) (c : Nat) (f : Block → Block) : (s.onBlock c f).audit = s.audit := rfl
@[simp] theorem State.onBlock_auditIdx (s : State) (c : Nat) (f : Block → Block) : (s.onBlock c f).auditIdx = s.auditIdx := rfl
@[simp] theorem State.onBlock_auditHead (s : State) (c : Nat) (f : Block → Block) : (s.onBlock c f).auditHead = s.auditHead := rfl
@[simp] theorem State.onBlock_checks (s : State) (c : Nat) (f : Block → Block) : (s.onBlock c f).checks = s.checks := rfl
@[simp] theorem State.onBlock_openSec (s : State) (c : Nat) (f : Block → Block) : (s.onBlock c f).openSec = s.openSec := rfl
@[simp] theorem State.onBlock_mute (s : State) (c : Nat) (f : Block → Block) : (s.onBlock c f).mute = s.mute := rfl
@[simp] theorem State.onBlock_spFw (s : State) (c : Nat) (f : Block → Block) : (s.onBlock c f).spFw = s.spFw := rfl
@[simp] theorem State.onBlock_mgFw (s : State) (c : Nat) (f : Block → Block) : (s.onBlock c f).mgFw = s.mgFw := rfl
@[simp] theorem State.onBlock_spRun (s : State) (c : Nat) (f : Block → Block) : (s.onBlock c f).spRun = s.spRun := rfl
@[simp] theorem State.onBlock_mgRun (s : State) (c : Nat) (f : Block → Block) : (s.onBlock c f).mgRun = s.mgRun := rfl
@[simp] theorem State.onBlock_mgmtDown (s : State) (c : Nat) (f : Block → Block) : (s.onBlock c f).mgmtDown = s.mgmtDown := rfl
@[simp] theorem State.onBlock_boot (s : State) (c : Nat) (f : Block → Block) : (s.onBlock c f).boot = s.boot := rfl
@[simp] theorem State.onBlock_io (s : State) (c : Nat) (f : Block → Block) : (s.onBlock c f).io = s.io := rfl
@[simp] theorem State.onBlock_fuses (s : State) (c : Nat) (f : Block → Block) : (s.onBlock c f).fuses = s.fuses := rfl
@[simp] theorem State.onBlock_msix (s : State) (c : Nat) (f : Block → Block) : (s.onBlock c f).msix = s.msix := rfl
@[simp] theorem State.onBlock_msixWait (s : State) (c : Nat) (f : Block → Block) : (s.onBlock c f).msixWait = s.msixWait := rfl
@[simp] theorem State.onBlock_act (s : State) (c : Nat) (f : Block → Block) : (s.onBlock c f).act = s.act := rfl
@[simp] theorem State.onBlock_rings (s : State) (c : Nat) (f : Block → Block) : (s.onBlock c f).rings = s.rings := rfl
@[simp] theorem State.onBlock_inProg (s : State) (c : Nat) (f : Block → Block) : (s.onBlock c f).inProg = s.inProg := rfl
@[simp] theorem State.onBlock_errs (s : State) (c : Nat) (f : Block → Block) : (s.onBlock c f).errs = s.errs := rfl
@[simp] theorem State.onBlock_errNext (s : State) (c : Nat) (f : Block → Block) : (s.onBlock c f).errNext = s.errNext := rfl
@[simp] theorem State.onBlock_flashErr (s : State) (c : Nat) (f : Block → Block) : (s.onBlock c f).flashErr = s.flashErr := rfl
@[simp] theorem State.onBlock_pFaults (s : State) (c : Nat) (f : Block → Block) : (s.onBlock c f).pFaults = s.pFaults := rfl
@[simp] theorem State.onBlock_jFaults (s : State) (c : Nat) (f : Block → Block) : (s.onBlock c f).jFaults = s.jFaults := rfl
@[simp] theorem State.onBlock_health (s : State) (c : Nat) (f : Block → Block) : (s.onBlock c f).health = s.health := rfl
@[simp] theorem State.onBlock_cnt (s : State) (c : Nat) (f : Block → Block) : (s.onBlock c f).cnt = s.cnt := rfl
@[simp] theorem State.onBlock_round (s : State) (c : Nat) (f : Block → Block) : (s.onBlock c f).round = s.round := rfl
@[simp] theorem State.onBlock_calFlash (s : State) (c : Nat) (f : Block → Block) : (s.onBlock c f).calFlash = s.calFlash := rfl
@[simp] theorem State.onBlock_calLoad (s : State) (c : Nat) (f : Block → Block) : (s.onBlock c f).calLoad = s.calLoad := rfl
@[simp] theorem State.onBlock_mgrDrop (s : State) (c : Nat) (f : Block → Block) : (s.onBlock c f).mgrDrop = s.mgrDrop := rfl
@[simp] theorem State.onBlock_detachCmd (s : State) (c : Nat) (f : Block → Block) : (s.onBlock c f).detachCmd = s.detachCmd := rfl
@[simp] theorem State.onBlock_taken (s : State) (c : Nat) (f : Block → Block) : (s.onBlock c f).taken = s.taken := rfl
@[simp] theorem State.onBlock_rota (s : State) (c : Nat) (f : Block → Block) : (s.onBlock c f).rota = s.rota := rfl
@[simp] theorem State.onBlock_rotaSet (s : State) (c : Nat) (f : Block → Block) : (s.onBlock c f).rotaSet = s.rotaSet := rfl

@[simp] theorem State.onPart_pending (s : State) (c : Nat) (f : Part → Part) : (s.onPart c f).pending = s.pending := rfl
@[simp] theorem State.onPart_cycle (s : State) (c : Nat) (f : Part → Part) : (s.onPart c f).cycle = s.cycle := rfl
@[simp] theorem State.onPart_frameNo (s : State) (c : Nat) (f : Part → Part) : (s.onPart c f).frameNo = s.frameNo := rfl
@[simp] theorem State.onPart_wallAt (s : State) (c : Nat) (f : Part → Part) : (s.onPart c f).wallAt = s.wallAt := rfl
@[simp] theorem State.onPart_freeCtr (s : State) (c : Nat) (f : Part → Part) : (s.onPart c f).freeCtr = s.freeCtr := rfl
@[simp] theorem State.onPart_nextKey (s : State) (c : Nat) (f : Part → Part) : (s.onPart c f).nextKey = s.nextKey := rfl
@[simp] theorem State.onPart_out (s : State) (c : Nat) (f : Part → Part) : (s.onPart c f).out = s.out := rfl
@[simp] theorem State.onPart_cells (s : State) (c : Nat) (f : Part → Part) : (s.onPart c f).cells = s.cells := rfl
@[simp] theorem State.onPart_blocks (s : State) (c : Nat) (f : Part → Part) : (s.onPart c f).blocks = s.blocks := rfl
@[simp] theorem State.onPart_stks (s : State) (c : Nat) (f : Part → Part) : (s.onPart c f).stks = s.stks := rfl
@[simp] theorem State.onPart_cold (s : State) (c : Nat) (f : Part → Part) : (s.onPart c f).cold = s.cold := rfl
@[simp] theorem State.onPart_raised (s : State) (c : Nat) (f : Part → Part) : (s.onPart c f).raised = s.raised := rfl
@[simp] theorem State.onPart_counters (s : State) (c : Nat) (f : Part → Part) : (s.onPart c f).counters = s.counters := rfl
@[simp] theorem State.onPart_retired (s : State) (c : Nat) (f : Part → Part) : (s.onPart c f).retired = s.retired := rfl
@[simp] theorem State.onPart_ports (s : State) (c : Nat) (f : Part → Part) : (s.onPart c f).ports = s.ports := rfl
@[simp] theorem State.onPart_fab (s : State) (c : Nat) (f : Part → Part) : (s.onPart c f).fab = s.fab := rfl
@[simp] theorem State.onPart_shadows (s : State) (c : Nat) (f : Part → Part) : (s.onPart c f).shadows = s.shadows := rfl
@[simp] theorem State.onPart_tu (s : State) (c : Nat) (f : Part → Part) : (s.onPart c f).tu = s.tu := rfl
@[simp] theorem State.onPart_islands (s : State) (c : Nat) (f : Part → Part) : (s.onPart c f).islands = s.islands := rfl
@[simp] theorem State.onPart_pwr (s : State) (c : Nat) (f : Part → Part) : (s.onPart c f).pwr = s.pwr := rfl
@[simp] theorem State.onPart_seqr (s : State) (c : Nat) (f : Part → Part) : (s.onPart c f).seqr = s.seqr := rfl
@[simp] theorem State.onPart_keys (s : State) (c : Nat) (f : Part → Part) : (s.onPart c f).keys = s.keys := rfl
@[simp] theorem State.onPart_sessions (s : State) (c : Nat) (f : Part → Part) : (s.onPart c f).sessions = s.sessions := rfl
@[simp] theorem State.onPart_openFail (s : State) (c : Nat) (f : Part → Part) : (s.onPart c f).openFail = s.openFail := rfl
@[simp] theorem State.onPart_audit (s : State) (c : Nat) (f : Part → Part) : (s.onPart c f).audit = s.audit := rfl
@[simp] theorem State.onPart_auditIdx (s : State) (c : Nat) (f : Part → Part) : (s.onPart c f).auditIdx = s.auditIdx := rfl
@[simp] theorem State.onPart_auditHead (s : State) (c : Nat) (f : Part → Part) : (s.onPart c f).auditHead = s.auditHead := rfl
@[simp] theorem State.onPart_checks (s : State) (c : Nat) (f : Part → Part) : (s.onPart c f).checks = s.checks := rfl
@[simp] theorem State.onPart_openSec (s : State) (c : Nat) (f : Part → Part) : (s.onPart c f).openSec = s.openSec := rfl
@[simp] theorem State.onPart_mute (s : State) (c : Nat) (f : Part → Part) : (s.onPart c f).mute = s.mute := rfl
@[simp] theorem State.onPart_spFw (s : State) (c : Nat) (f : Part → Part) : (s.onPart c f).spFw = s.spFw := rfl
@[simp] theorem State.onPart_mgFw (s : State) (c : Nat) (f : Part → Part) : (s.onPart c f).mgFw = s.mgFw := rfl
@[simp] theorem State.onPart_spRun (s : State) (c : Nat) (f : Part → Part) : (s.onPart c f).spRun = s.spRun := rfl
@[simp] theorem State.onPart_mgRun (s : State) (c : Nat) (f : Part → Part) : (s.onPart c f).mgRun = s.mgRun := rfl
@[simp] theorem State.onPart_mgmtDown (s : State) (c : Nat) (f : Part → Part) : (s.onPart c f).mgmtDown = s.mgmtDown := rfl
@[simp] theorem State.onPart_boot (s : State) (c : Nat) (f : Part → Part) : (s.onPart c f).boot = s.boot := rfl
@[simp] theorem State.onPart_io (s : State) (c : Nat) (f : Part → Part) : (s.onPart c f).io = s.io := rfl
@[simp] theorem State.onPart_fuses (s : State) (c : Nat) (f : Part → Part) : (s.onPart c f).fuses = s.fuses := rfl
@[simp] theorem State.onPart_msix (s : State) (c : Nat) (f : Part → Part) : (s.onPart c f).msix = s.msix := rfl
@[simp] theorem State.onPart_msixWait (s : State) (c : Nat) (f : Part → Part) : (s.onPart c f).msixWait = s.msixWait := rfl
@[simp] theorem State.onPart_act (s : State) (c : Nat) (f : Part → Part) : (s.onPart c f).act = s.act := rfl
@[simp] theorem State.onPart_rings (s : State) (c : Nat) (f : Part → Part) : (s.onPart c f).rings = s.rings := rfl
@[simp] theorem State.onPart_inProg (s : State) (c : Nat) (f : Part → Part) : (s.onPart c f).inProg = s.inProg := rfl
@[simp] theorem State.onPart_errs (s : State) (c : Nat) (f : Part → Part) : (s.onPart c f).errs = s.errs := rfl
@[simp] theorem State.onPart_errNext (s : State) (c : Nat) (f : Part → Part) : (s.onPart c f).errNext = s.errNext := rfl
@[simp] theorem State.onPart_flashErr (s : State) (c : Nat) (f : Part → Part) : (s.onPart c f).flashErr = s.flashErr := rfl
@[simp] theorem State.onPart_pFaults (s : State) (c : Nat) (f : Part → Part) : (s.onPart c f).pFaults = s.pFaults := rfl
@[simp] theorem State.onPart_jFaults (s : State) (c : Nat) (f : Part → Part) : (s.onPart c f).jFaults = s.jFaults := rfl
@[simp] theorem State.onPart_health (s : State) (c : Nat) (f : Part → Part) : (s.onPart c f).health = s.health := rfl
@[simp] theorem State.onPart_cnt (s : State) (c : Nat) (f : Part → Part) : (s.onPart c f).cnt = s.cnt := rfl
@[simp] theorem State.onPart_round (s : State) (c : Nat) (f : Part → Part) : (s.onPart c f).round = s.round := rfl
@[simp] theorem State.onPart_calFlash (s : State) (c : Nat) (f : Part → Part) : (s.onPart c f).calFlash = s.calFlash := rfl
@[simp] theorem State.onPart_calLoad (s : State) (c : Nat) (f : Part → Part) : (s.onPart c f).calLoad = s.calLoad := rfl
@[simp] theorem State.onPart_mgrDrop (s : State) (c : Nat) (f : Part → Part) : (s.onPart c f).mgrDrop = s.mgrDrop := rfl
@[simp] theorem State.onPart_detachCmd (s : State) (c : Nat) (f : Part → Part) : (s.onPart c f).detachCmd = s.detachCmd := rfl
@[simp] theorem State.onPart_taken (s : State) (c : Nat) (f : Part → Part) : (s.onPart c f).taken = s.taken := rfl
@[simp] theorem State.onPart_rota (s : State) (c : Nat) (f : Part → Part) : (s.onPart c f).rota = s.rota := rfl
@[simp] theorem State.onPart_rotaSet (s : State) (c : Nat) (f : Part → Part) : (s.onPart c f).rotaSet = s.rotaSet := rfl

@[simp] theorem State.onStack_pending (s : State) (c : Nat) (f : Stack → Stack) : (s.onStack c f).pending = s.pending := rfl
@[simp] theorem State.onStack_cycle (s : State) (c : Nat) (f : Stack → Stack) : (s.onStack c f).cycle = s.cycle := rfl
@[simp] theorem State.onStack_frameNo (s : State) (c : Nat) (f : Stack → Stack) : (s.onStack c f).frameNo = s.frameNo := rfl
@[simp] theorem State.onStack_wallAt (s : State) (c : Nat) (f : Stack → Stack) : (s.onStack c f).wallAt = s.wallAt := rfl
@[simp] theorem State.onStack_freeCtr (s : State) (c : Nat) (f : Stack → Stack) : (s.onStack c f).freeCtr = s.freeCtr := rfl
@[simp] theorem State.onStack_nextKey (s : State) (c : Nat) (f : Stack → Stack) : (s.onStack c f).nextKey = s.nextKey := rfl
@[simp] theorem State.onStack_out (s : State) (c : Nat) (f : Stack → Stack) : (s.onStack c f).out = s.out := rfl
@[simp] theorem State.onStack_cells (s : State) (c : Nat) (f : Stack → Stack) : (s.onStack c f).cells = s.cells := rfl
@[simp] theorem State.onStack_blocks (s : State) (c : Nat) (f : Stack → Stack) : (s.onStack c f).blocks = s.blocks := rfl
@[simp] theorem State.onStack_cold (s : State) (c : Nat) (f : Stack → Stack) : (s.onStack c f).cold = s.cold := rfl
@[simp] theorem State.onStack_parts (s : State) (c : Nat) (f : Stack → Stack) : (s.onStack c f).parts = s.parts := rfl
@[simp] theorem State.onStack_raised (s : State) (c : Nat) (f : Stack → Stack) : (s.onStack c f).raised = s.raised := rfl
@[simp] theorem State.onStack_counters (s : State) (c : Nat) (f : Stack → Stack) : (s.onStack c f).counters = s.counters := rfl
@[simp] theorem State.onStack_retired (s : State) (c : Nat) (f : Stack → Stack) : (s.onStack c f).retired = s.retired := rfl
@[simp] theorem State.onStack_ports (s : State) (c : Nat) (f : Stack → Stack) : (s.onStack c f).ports = s.ports := rfl
@[simp] theorem State.onStack_fab (s : State) (c : Nat) (f : Stack → Stack) : (s.onStack c f).fab = s.fab := rfl
@[simp] theorem State.onStack_shadows (s : State) (c : Nat) (f : Stack → Stack) : (s.onStack c f).shadows = s.shadows := rfl
@[simp] theorem State.onStack_tu (s : State) (c : Nat) (f : Stack → Stack) : (s.onStack c f).tu = s.tu := rfl
@[simp] theorem State.onStack_islands (s : State) (c : Nat) (f : Stack → Stack) : (s.onStack c f).islands = s.islands := rfl
@[simp] theorem State.onStack_pwr (s : State) (c : Nat) (f : Stack → Stack) : (s.onStack c f).pwr = s.pwr := rfl
@[simp] theorem State.onStack_seqr (s : State) (c : Nat) (f : Stack → Stack) : (s.onStack c f).seqr = s.seqr := rfl
@[simp] theorem State.onStack_keys (s : State) (c : Nat) (f : Stack → Stack) : (s.onStack c f).keys = s.keys := rfl
@[simp] theorem State.onStack_sessions (s : State) (c : Nat) (f : Stack → Stack) : (s.onStack c f).sessions = s.sessions := rfl
@[simp] theorem State.onStack_openFail (s : State) (c : Nat) (f : Stack → Stack) : (s.onStack c f).openFail = s.openFail := rfl
@[simp] theorem State.onStack_audit (s : State) (c : Nat) (f : Stack → Stack) : (s.onStack c f).audit = s.audit := rfl
@[simp] theorem State.onStack_auditIdx (s : State) (c : Nat) (f : Stack → Stack) : (s.onStack c f).auditIdx = s.auditIdx := rfl
@[simp] theorem State.onStack_auditHead (s : State) (c : Nat) (f : Stack → Stack) : (s.onStack c f).auditHead = s.auditHead := rfl
@[simp] theorem State.onStack_checks (s : State) (c : Nat) (f : Stack → Stack) : (s.onStack c f).checks = s.checks := rfl
@[simp] theorem State.onStack_openSec (s : State) (c : Nat) (f : Stack → Stack) : (s.onStack c f).openSec = s.openSec := rfl
@[simp] theorem State.onStack_mute (s : State) (c : Nat) (f : Stack → Stack) : (s.onStack c f).mute = s.mute := rfl
@[simp] theorem State.onStack_spFw (s : State) (c : Nat) (f : Stack → Stack) : (s.onStack c f).spFw = s.spFw := rfl
@[simp] theorem State.onStack_mgFw (s : State) (c : Nat) (f : Stack → Stack) : (s.onStack c f).mgFw = s.mgFw := rfl
@[simp] theorem State.onStack_spRun (s : State) (c : Nat) (f : Stack → Stack) : (s.onStack c f).spRun = s.spRun := rfl
@[simp] theorem State.onStack_mgRun (s : State) (c : Nat) (f : Stack → Stack) : (s.onStack c f).mgRun = s.mgRun := rfl
@[simp] theorem State.onStack_mgmtDown (s : State) (c : Nat) (f : Stack → Stack) : (s.onStack c f).mgmtDown = s.mgmtDown := rfl
@[simp] theorem State.onStack_boot (s : State) (c : Nat) (f : Stack → Stack) : (s.onStack c f).boot = s.boot := rfl
@[simp] theorem State.onStack_io (s : State) (c : Nat) (f : Stack → Stack) : (s.onStack c f).io = s.io := rfl
@[simp] theorem State.onStack_fuses (s : State) (c : Nat) (f : Stack → Stack) : (s.onStack c f).fuses = s.fuses := rfl
@[simp] theorem State.onStack_msix (s : State) (c : Nat) (f : Stack → Stack) : (s.onStack c f).msix = s.msix := rfl
@[simp] theorem State.onStack_msixWait (s : State) (c : Nat) (f : Stack → Stack) : (s.onStack c f).msixWait = s.msixWait := rfl
@[simp] theorem State.onStack_act (s : State) (c : Nat) (f : Stack → Stack) : (s.onStack c f).act = s.act := rfl
@[simp] theorem State.onStack_rings (s : State) (c : Nat) (f : Stack → Stack) : (s.onStack c f).rings = s.rings := rfl
@[simp] theorem State.onStack_inProg (s : State) (c : Nat) (f : Stack → Stack) : (s.onStack c f).inProg = s.inProg := rfl
@[simp] theorem State.onStack_errs (s : State) (c : Nat) (f : Stack → Stack) : (s.onStack c f).errs = s.errs := rfl
@[simp] theorem State.onStack_errNext (s : State) (c : Nat) (f : Stack → Stack) : (s.onStack c f).errNext = s.errNext := rfl
@[simp] theorem State.onStack_flashErr (s : State) (c : Nat) (f : Stack → Stack) : (s.onStack c f).flashErr = s.flashErr := rfl
@[simp] theorem State.onStack_pFaults (s : State) (c : Nat) (f : Stack → Stack) : (s.onStack c f).pFaults = s.pFaults := rfl
@[simp] theorem State.onStack_jFaults (s : State) (c : Nat) (f : Stack → Stack) : (s.onStack c f).jFaults = s.jFaults := rfl
@[simp] theorem State.onStack_health (s : State) (c : Nat) (f : Stack → Stack) : (s.onStack c f).health = s.health := rfl
@[simp] theorem State.onStack_cnt (s : State) (c : Nat) (f : Stack → Stack) : (s.onStack c f).cnt = s.cnt := rfl
@[simp] theorem State.onStack_round (s : State) (c : Nat) (f : Stack → Stack) : (s.onStack c f).round = s.round := rfl
@[simp] theorem State.onStack_calFlash (s : State) (c : Nat) (f : Stack → Stack) : (s.onStack c f).calFlash = s.calFlash := rfl
@[simp] theorem State.onStack_calLoad (s : State) (c : Nat) (f : Stack → Stack) : (s.onStack c f).calLoad = s.calLoad := rfl
@[simp] theorem State.onStack_mgrDrop (s : State) (c : Nat) (f : Stack → Stack) : (s.onStack c f).mgrDrop = s.mgrDrop := rfl
@[simp] theorem State.onStack_detachCmd (s : State) (c : Nat) (f : Stack → Stack) : (s.onStack c f).detachCmd = s.detachCmd := rfl
@[simp] theorem State.onStack_taken (s : State) (c : Nat) (f : Stack → Stack) : (s.onStack c f).taken = s.taken := rfl
@[simp] theorem State.onStack_rota (s : State) (c : Nat) (f : Stack → Stack) : (s.onStack c f).rota = s.rota := rfl
@[simp] theorem State.onStack_rotaSet (s : State) (c : Nat) (f : Stack → Stack) : (s.onStack c f).rotaSet = s.rotaSet := rfl

@[simp] theorem State.onPort_pending (s : State) (c : Nat) (f : Port → Port) : (s.onPort c f).pending = s.pending := rfl
@[simp] theorem State.onPort_cycle (s : State) (c : Nat) (f : Port → Port) : (s.onPort c f).cycle = s.cycle := rfl
@[simp] theorem State.onPort_frameNo (s : State) (c : Nat) (f : Port → Port) : (s.onPort c f).frameNo = s.frameNo := rfl
@[simp] theorem State.onPort_wallAt (s : State) (c : Nat) (f : Port → Port) : (s.onPort c f).wallAt = s.wallAt := rfl
@[simp] theorem State.onPort_freeCtr (s : State) (c : Nat) (f : Port → Port) : (s.onPort c f).freeCtr = s.freeCtr := rfl
@[simp] theorem State.onPort_nextKey (s : State) (c : Nat) (f : Port → Port) : (s.onPort c f).nextKey = s.nextKey := rfl
@[simp] theorem State.onPort_out (s : State) (c : Nat) (f : Port → Port) : (s.onPort c f).out = s.out := rfl
@[simp] theorem State.onPort_cells (s : State) (c : Nat) (f : Port → Port) : (s.onPort c f).cells = s.cells := rfl
@[simp] theorem State.onPort_blocks (s : State) (c : Nat) (f : Port → Port) : (s.onPort c f).blocks = s.blocks := rfl
@[simp] theorem State.onPort_stks (s : State) (c : Nat) (f : Port → Port) : (s.onPort c f).stks = s.stks := rfl
@[simp] theorem State.onPort_cold (s : State) (c : Nat) (f : Port → Port) : (s.onPort c f).cold = s.cold := rfl
@[simp] theorem State.onPort_parts (s : State) (c : Nat) (f : Port → Port) : (s.onPort c f).parts = s.parts := rfl
@[simp] theorem State.onPort_raised (s : State) (c : Nat) (f : Port → Port) : (s.onPort c f).raised = s.raised := rfl
@[simp] theorem State.onPort_counters (s : State) (c : Nat) (f : Port → Port) : (s.onPort c f).counters = s.counters := rfl
@[simp] theorem State.onPort_retired (s : State) (c : Nat) (f : Port → Port) : (s.onPort c f).retired = s.retired := rfl
@[simp] theorem State.onPort_fab (s : State) (c : Nat) (f : Port → Port) : (s.onPort c f).fab = s.fab := rfl
@[simp] theorem State.onPort_shadows (s : State) (c : Nat) (f : Port → Port) : (s.onPort c f).shadows = s.shadows := rfl
@[simp] theorem State.onPort_tu (s : State) (c : Nat) (f : Port → Port) : (s.onPort c f).tu = s.tu := rfl
@[simp] theorem State.onPort_islands (s : State) (c : Nat) (f : Port → Port) : (s.onPort c f).islands = s.islands := rfl
@[simp] theorem State.onPort_pwr (s : State) (c : Nat) (f : Port → Port) : (s.onPort c f).pwr = s.pwr := rfl
@[simp] theorem State.onPort_seqr (s : State) (c : Nat) (f : Port → Port) : (s.onPort c f).seqr = s.seqr := rfl
@[simp] theorem State.onPort_keys (s : State) (c : Nat) (f : Port → Port) : (s.onPort c f).keys = s.keys := rfl
@[simp] theorem State.onPort_sessions (s : State) (c : Nat) (f : Port → Port) : (s.onPort c f).sessions = s.sessions := rfl
@[simp] theorem State.onPort_openFail (s : State) (c : Nat) (f : Port → Port) : (s.onPort c f).openFail = s.openFail := rfl
@[simp] theorem State.onPort_audit (s : State) (c : Nat) (f : Port → Port) : (s.onPort c f).audit = s.audit := rfl
@[simp] theorem State.onPort_auditIdx (s : State) (c : Nat) (f : Port → Port) : (s.onPort c f).auditIdx = s.auditIdx := rfl
@[simp] theorem State.onPort_auditHead (s : State) (c : Nat) (f : Port → Port) : (s.onPort c f).auditHead = s.auditHead := rfl
@[simp] theorem State.onPort_checks (s : State) (c : Nat) (f : Port → Port) : (s.onPort c f).checks = s.checks := rfl
@[simp] theorem State.onPort_openSec (s : State) (c : Nat) (f : Port → Port) : (s.onPort c f).openSec = s.openSec := rfl
@[simp] theorem State.onPort_mute (s : State) (c : Nat) (f : Port → Port) : (s.onPort c f).mute = s.mute := rfl
@[simp] theorem State.onPort_spFw (s : State) (c : Nat) (f : Port → Port) : (s.onPort c f).spFw = s.spFw := rfl
@[simp] theorem State.onPort_mgFw (s : State) (c : Nat) (f : Port → Port) : (s.onPort c f).mgFw = s.mgFw := rfl
@[simp] theorem State.onPort_spRun (s : State) (c : Nat) (f : Port → Port) : (s.onPort c f).spRun = s.spRun := rfl
@[simp] theorem State.onPort_mgRun (s : State) (c : Nat) (f : Port → Port) : (s.onPort c f).mgRun = s.mgRun := rfl
@[simp] theorem State.onPort_mgmtDown (s : State) (c : Nat) (f : Port → Port) : (s.onPort c f).mgmtDown = s.mgmtDown := rfl
@[simp] theorem State.onPort_boot (s : State) (c : Nat) (f : Port → Port) : (s.onPort c f).boot = s.boot := rfl
@[simp] theorem State.onPort_io (s : State) (c : Nat) (f : Port → Port) : (s.onPort c f).io = s.io := rfl
@[simp] theorem State.onPort_fuses (s : State) (c : Nat) (f : Port → Port) : (s.onPort c f).fuses = s.fuses := rfl
@[simp] theorem State.onPort_msix (s : State) (c : Nat) (f : Port → Port) : (s.onPort c f).msix = s.msix := rfl
@[simp] theorem State.onPort_msixWait (s : State) (c : Nat) (f : Port → Port) : (s.onPort c f).msixWait = s.msixWait := rfl
@[simp] theorem State.onPort_act (s : State) (c : Nat) (f : Port → Port) : (s.onPort c f).act = s.act := rfl
@[simp] theorem State.onPort_rings (s : State) (c : Nat) (f : Port → Port) : (s.onPort c f).rings = s.rings := rfl
@[simp] theorem State.onPort_inProg (s : State) (c : Nat) (f : Port → Port) : (s.onPort c f).inProg = s.inProg := rfl
@[simp] theorem State.onPort_errs (s : State) (c : Nat) (f : Port → Port) : (s.onPort c f).errs = s.errs := rfl
@[simp] theorem State.onPort_errNext (s : State) (c : Nat) (f : Port → Port) : (s.onPort c f).errNext = s.errNext := rfl
@[simp] theorem State.onPort_flashErr (s : State) (c : Nat) (f : Port → Port) : (s.onPort c f).flashErr = s.flashErr := rfl
@[simp] theorem State.onPort_pFaults (s : State) (c : Nat) (f : Port → Port) : (s.onPort c f).pFaults = s.pFaults := rfl
@[simp] theorem State.onPort_jFaults (s : State) (c : Nat) (f : Port → Port) : (s.onPort c f).jFaults = s.jFaults := rfl
@[simp] theorem State.onPort_health (s : State) (c : Nat) (f : Port → Port) : (s.onPort c f).health = s.health := rfl
@[simp] theorem State.onPort_cnt (s : State) (c : Nat) (f : Port → Port) : (s.onPort c f).cnt = s.cnt := rfl
@[simp] theorem State.onPort_round (s : State) (c : Nat) (f : Port → Port) : (s.onPort c f).round = s.round := rfl
@[simp] theorem State.onPort_calFlash (s : State) (c : Nat) (f : Port → Port) : (s.onPort c f).calFlash = s.calFlash := rfl
@[simp] theorem State.onPort_calLoad (s : State) (c : Nat) (f : Port → Port) : (s.onPort c f).calLoad = s.calLoad := rfl
@[simp] theorem State.onPort_mgrDrop (s : State) (c : Nat) (f : Port → Port) : (s.onPort c f).mgrDrop = s.mgrDrop := rfl
@[simp] theorem State.onPort_detachCmd (s : State) (c : Nat) (f : Port → Port) : (s.onPort c f).detachCmd = s.detachCmd := rfl
@[simp] theorem State.onPort_taken (s : State) (c : Nat) (f : Port → Port) : (s.onPort c f).taken = s.taken := rfl
@[simp] theorem State.onPort_rota (s : State) (c : Nat) (f : Port → Port) : (s.onPort c f).rota = s.rota := rfl
@[simp] theorem State.onPort_rotaSet (s : State) (c : Nat) (f : Port → Port) : (s.onPort c f).rotaSet = s.rotaSet := rfl

@[simp] theorem State.onShadow_pending (s : State) (c : Nat) (f : Shadow → Shadow) : (s.onShadow c f).pending = s.pending := rfl
@[simp] theorem State.onShadow_cycle (s : State) (c : Nat) (f : Shadow → Shadow) : (s.onShadow c f).cycle = s.cycle := rfl
@[simp] theorem State.onShadow_frameNo (s : State) (c : Nat) (f : Shadow → Shadow) : (s.onShadow c f).frameNo = s.frameNo := rfl
@[simp] theorem State.onShadow_wallAt (s : State) (c : Nat) (f : Shadow → Shadow) : (s.onShadow c f).wallAt = s.wallAt := rfl
@[simp] theorem State.onShadow_freeCtr (s : State) (c : Nat) (f : Shadow → Shadow) : (s.onShadow c f).freeCtr = s.freeCtr := rfl
@[simp] theorem State.onShadow_nextKey (s : State) (c : Nat) (f : Shadow → Shadow) : (s.onShadow c f).nextKey = s.nextKey := rfl
@[simp] theorem State.onShadow_out (s : State) (c : Nat) (f : Shadow → Shadow) : (s.onShadow c f).out = s.out := rfl
@[simp] theorem State.onShadow_cells (s : State) (c : Nat) (f : Shadow → Shadow) : (s.onShadow c f).cells = s.cells := rfl
@[simp] theorem State.onShadow_blocks (s : State) (c : Nat) (f : Shadow → Shadow) : (s.onShadow c f).blocks = s.blocks := rfl
@[simp] theorem State.onShadow_stks (s : State) (c : Nat) (f : Shadow → Shadow) : (s.onShadow c f).stks = s.stks := rfl
@[simp] theorem State.onShadow_cold (s : State) (c : Nat) (f : Shadow → Shadow) : (s.onShadow c f).cold = s.cold := rfl
@[simp] theorem State.onShadow_parts (s : State) (c : Nat) (f : Shadow → Shadow) : (s.onShadow c f).parts = s.parts := rfl
@[simp] theorem State.onShadow_raised (s : State) (c : Nat) (f : Shadow → Shadow) : (s.onShadow c f).raised = s.raised := rfl
@[simp] theorem State.onShadow_counters (s : State) (c : Nat) (f : Shadow → Shadow) : (s.onShadow c f).counters = s.counters := rfl
@[simp] theorem State.onShadow_retired (s : State) (c : Nat) (f : Shadow → Shadow) : (s.onShadow c f).retired = s.retired := rfl
@[simp] theorem State.onShadow_ports (s : State) (c : Nat) (f : Shadow → Shadow) : (s.onShadow c f).ports = s.ports := rfl
@[simp] theorem State.onShadow_fab (s : State) (c : Nat) (f : Shadow → Shadow) : (s.onShadow c f).fab = s.fab := rfl
@[simp] theorem State.onShadow_tu (s : State) (c : Nat) (f : Shadow → Shadow) : (s.onShadow c f).tu = s.tu := rfl
@[simp] theorem State.onShadow_islands (s : State) (c : Nat) (f : Shadow → Shadow) : (s.onShadow c f).islands = s.islands := rfl
@[simp] theorem State.onShadow_pwr (s : State) (c : Nat) (f : Shadow → Shadow) : (s.onShadow c f).pwr = s.pwr := rfl
@[simp] theorem State.onShadow_seqr (s : State) (c : Nat) (f : Shadow → Shadow) : (s.onShadow c f).seqr = s.seqr := rfl
@[simp] theorem State.onShadow_keys (s : State) (c : Nat) (f : Shadow → Shadow) : (s.onShadow c f).keys = s.keys := rfl
@[simp] theorem State.onShadow_sessions (s : State) (c : Nat) (f : Shadow → Shadow) : (s.onShadow c f).sessions = s.sessions := rfl
@[simp] theorem State.onShadow_openFail (s : State) (c : Nat) (f : Shadow → Shadow) : (s.onShadow c f).openFail = s.openFail := rfl
@[simp] theorem State.onShadow_audit (s : State) (c : Nat) (f : Shadow → Shadow) : (s.onShadow c f).audit = s.audit := rfl
@[simp] theorem State.onShadow_auditIdx (s : State) (c : Nat) (f : Shadow → Shadow) : (s.onShadow c f).auditIdx = s.auditIdx := rfl
@[simp] theorem State.onShadow_auditHead (s : State) (c : Nat) (f : Shadow → Shadow) : (s.onShadow c f).auditHead = s.auditHead := rfl
@[simp] theorem State.onShadow_checks (s : State) (c : Nat) (f : Shadow → Shadow) : (s.onShadow c f).checks = s.checks := rfl
@[simp] theorem State.onShadow_openSec (s : State) (c : Nat) (f : Shadow → Shadow) : (s.onShadow c f).openSec = s.openSec := rfl
@[simp] theorem State.onShadow_mute (s : State) (c : Nat) (f : Shadow → Shadow) : (s.onShadow c f).mute = s.mute := rfl
@[simp] theorem State.onShadow_spFw (s : State) (c : Nat) (f : Shadow → Shadow) : (s.onShadow c f).spFw = s.spFw := rfl
@[simp] theorem State.onShadow_mgFw (s : State) (c : Nat) (f : Shadow → Shadow) : (s.onShadow c f).mgFw = s.mgFw := rfl
@[simp] theorem State.onShadow_spRun (s : State) (c : Nat) (f : Shadow → Shadow) : (s.onShadow c f).spRun = s.spRun := rfl
@[simp] theorem State.onShadow_mgRun (s : State) (c : Nat) (f : Shadow → Shadow) : (s.onShadow c f).mgRun = s.mgRun := rfl
@[simp] theorem State.onShadow_mgmtDown (s : State) (c : Nat) (f : Shadow → Shadow) : (s.onShadow c f).mgmtDown = s.mgmtDown := rfl
@[simp] theorem State.onShadow_boot (s : State) (c : Nat) (f : Shadow → Shadow) : (s.onShadow c f).boot = s.boot := rfl
@[simp] theorem State.onShadow_io (s : State) (c : Nat) (f : Shadow → Shadow) : (s.onShadow c f).io = s.io := rfl
@[simp] theorem State.onShadow_fuses (s : State) (c : Nat) (f : Shadow → Shadow) : (s.onShadow c f).fuses = s.fuses := rfl
@[simp] theorem State.onShadow_msix (s : State) (c : Nat) (f : Shadow → Shadow) : (s.onShadow c f).msix = s.msix := rfl
@[simp] theorem State.onShadow_msixWait (s : State) (c : Nat) (f : Shadow → Shadow) : (s.onShadow c f).msixWait = s.msixWait := rfl
@[simp] theorem State.onShadow_act (s : State) (c : Nat) (f : Shadow → Shadow) : (s.onShadow c f).act = s.act := rfl
@[simp] theorem State.onShadow_rings (s : State) (c : Nat) (f : Shadow → Shadow) : (s.onShadow c f).rings = s.rings := rfl
@[simp] theorem State.onShadow_inProg (s : State) (c : Nat) (f : Shadow → Shadow) : (s.onShadow c f).inProg = s.inProg := rfl
@[simp] theorem State.onShadow_errs (s : State) (c : Nat) (f : Shadow → Shadow) : (s.onShadow c f).errs = s.errs := rfl
@[simp] theorem State.onShadow_errNext (s : State) (c : Nat) (f : Shadow → Shadow) : (s.onShadow c f).errNext = s.errNext := rfl
@[simp] theorem State.onShadow_flashErr (s : State) (c : Nat) (f : Shadow → Shadow) : (s.onShadow c f).flashErr = s.flashErr := rfl
@[simp] theorem State.onShadow_pFaults (s : State) (c : Nat) (f : Shadow → Shadow) : (s.onShadow c f).pFaults = s.pFaults := rfl
@[simp] theorem State.onShadow_jFaults (s : State) (c : Nat) (f : Shadow → Shadow) : (s.onShadow c f).jFaults = s.jFaults := rfl
@[simp] theorem State.onShadow_health (s : State) (c : Nat) (f : Shadow → Shadow) : (s.onShadow c f).health = s.health := rfl
@[simp] theorem State.onShadow_cnt (s : State) (c : Nat) (f : Shadow → Shadow) : (s.onShadow c f).cnt = s.cnt := rfl
@[simp] theorem State.onShadow_round (s : State) (c : Nat) (f : Shadow → Shadow) : (s.onShadow c f).round = s.round := rfl
@[simp] theorem State.onShadow_calFlash (s : State) (c : Nat) (f : Shadow → Shadow) : (s.onShadow c f).calFlash = s.calFlash := rfl
@[simp] theorem State.onShadow_calLoad (s : State) (c : Nat) (f : Shadow → Shadow) : (s.onShadow c f).calLoad = s.calLoad := rfl
@[simp] theorem State.onShadow_mgrDrop (s : State) (c : Nat) (f : Shadow → Shadow) : (s.onShadow c f).mgrDrop = s.mgrDrop := rfl
@[simp] theorem State.onShadow_detachCmd (s : State) (c : Nat) (f : Shadow → Shadow) : (s.onShadow c f).detachCmd = s.detachCmd := rfl
@[simp] theorem State.onShadow_taken (s : State) (c : Nat) (f : Shadow → Shadow) : (s.onShadow c f).taken = s.taken := rfl
@[simp] theorem State.onShadow_rota (s : State) (c : Nat) (f : Shadow → Shadow) : (s.onShadow c f).rota = s.rota := rfl
@[simp] theorem State.onShadow_rotaSet (s : State) (c : Nat) (f : Shadow → Shadow) : (s.onShadow c f).rotaSet = s.rotaSet := rfl

@[simp] theorem State.onIsland_pending (s : State) (c : Nat) (f : Island → Island) : (s.onIsland c f).pending = s.pending := rfl
@[simp] theorem State.onIsland_cycle (s : State) (c : Nat) (f : Island → Island) : (s.onIsland c f).cycle = s.cycle := rfl
@[simp] theorem State.onIsland_frameNo (s : State) (c : Nat) (f : Island → Island) : (s.onIsland c f).frameNo = s.frameNo := rfl
@[simp] theorem State.onIsland_wallAt (s : State) (c : Nat) (f : Island → Island) : (s.onIsland c f).wallAt = s.wallAt := rfl
@[simp] theorem State.onIsland_freeCtr (s : State) (c : Nat) (f : Island → Island) : (s.onIsland c f).freeCtr = s.freeCtr := rfl
@[simp] theorem State.onIsland_nextKey (s : State) (c : Nat) (f : Island → Island) : (s.onIsland c f).nextKey = s.nextKey := rfl
@[simp] theorem State.onIsland_out (s : State) (c : Nat) (f : Island → Island) : (s.onIsland c f).out = s.out := rfl
@[simp] theorem State.onIsland_cells (s : State) (c : Nat) (f : Island → Island) : (s.onIsland c f).cells = s.cells := rfl
@[simp] theorem State.onIsland_blocks (s : State) (c : Nat) (f : Island → Island) : (s.onIsland c f).blocks = s.blocks := rfl
@[simp] theorem State.onIsland_stks (s : State) (c : Nat) (f : Island → Island) : (s.onIsland c f).stks = s.stks := rfl
@[simp] theorem State.onIsland_cold (s : State) (c : Nat) (f : Island → Island) : (s.onIsland c f).cold = s.cold := rfl
@[simp] theorem State.onIsland_parts (s : State) (c : Nat) (f : Island → Island) : (s.onIsland c f).parts = s.parts := rfl
@[simp] theorem State.onIsland_raised (s : State) (c : Nat) (f : Island → Island) : (s.onIsland c f).raised = s.raised := rfl
@[simp] theorem State.onIsland_counters (s : State) (c : Nat) (f : Island → Island) : (s.onIsland c f).counters = s.counters := rfl
@[simp] theorem State.onIsland_retired (s : State) (c : Nat) (f : Island → Island) : (s.onIsland c f).retired = s.retired := rfl
@[simp] theorem State.onIsland_ports (s : State) (c : Nat) (f : Island → Island) : (s.onIsland c f).ports = s.ports := rfl
@[simp] theorem State.onIsland_fab (s : State) (c : Nat) (f : Island → Island) : (s.onIsland c f).fab = s.fab := rfl
@[simp] theorem State.onIsland_shadows (s : State) (c : Nat) (f : Island → Island) : (s.onIsland c f).shadows = s.shadows := rfl
@[simp] theorem State.onIsland_tu (s : State) (c : Nat) (f : Island → Island) : (s.onIsland c f).tu = s.tu := rfl
@[simp] theorem State.onIsland_pwr (s : State) (c : Nat) (f : Island → Island) : (s.onIsland c f).pwr = s.pwr := rfl
@[simp] theorem State.onIsland_seqr (s : State) (c : Nat) (f : Island → Island) : (s.onIsland c f).seqr = s.seqr := rfl
@[simp] theorem State.onIsland_keys (s : State) (c : Nat) (f : Island → Island) : (s.onIsland c f).keys = s.keys := rfl
@[simp] theorem State.onIsland_sessions (s : State) (c : Nat) (f : Island → Island) : (s.onIsland c f).sessions = s.sessions := rfl
@[simp] theorem State.onIsland_openFail (s : State) (c : Nat) (f : Island → Island) : (s.onIsland c f).openFail = s.openFail := rfl
@[simp] theorem State.onIsland_audit (s : State) (c : Nat) (f : Island → Island) : (s.onIsland c f).audit = s.audit := rfl
@[simp] theorem State.onIsland_auditIdx (s : State) (c : Nat) (f : Island → Island) : (s.onIsland c f).auditIdx = s.auditIdx := rfl
@[simp] theorem State.onIsland_auditHead (s : State) (c : Nat) (f : Island → Island) : (s.onIsland c f).auditHead = s.auditHead := rfl
@[simp] theorem State.onIsland_checks (s : State) (c : Nat) (f : Island → Island) : (s.onIsland c f).checks = s.checks := rfl
@[simp] theorem State.onIsland_openSec (s : State) (c : Nat) (f : Island → Island) : (s.onIsland c f).openSec = s.openSec := rfl
@[simp] theorem State.onIsland_mute (s : State) (c : Nat) (f : Island → Island) : (s.onIsland c f).mute = s.mute := rfl
@[simp] theorem State.onIsland_spFw (s : State) (c : Nat) (f : Island → Island) : (s.onIsland c f).spFw = s.spFw := rfl
@[simp] theorem State.onIsland_mgFw (s : State) (c : Nat) (f : Island → Island) : (s.onIsland c f).mgFw = s.mgFw := rfl
@[simp] theorem State.onIsland_spRun (s : State) (c : Nat) (f : Island → Island) : (s.onIsland c f).spRun = s.spRun := rfl
@[simp] theorem State.onIsland_mgRun (s : State) (c : Nat) (f : Island → Island) : (s.onIsland c f).mgRun = s.mgRun := rfl
@[simp] theorem State.onIsland_mgmtDown (s : State) (c : Nat) (f : Island → Island) : (s.onIsland c f).mgmtDown = s.mgmtDown := rfl
@[simp] theorem State.onIsland_boot (s : State) (c : Nat) (f : Island → Island) : (s.onIsland c f).boot = s.boot := rfl
@[simp] theorem State.onIsland_io (s : State) (c : Nat) (f : Island → Island) : (s.onIsland c f).io = s.io := rfl
@[simp] theorem State.onIsland_fuses (s : State) (c : Nat) (f : Island → Island) : (s.onIsland c f).fuses = s.fuses := rfl
@[simp] theorem State.onIsland_msix (s : State) (c : Nat) (f : Island → Island) : (s.onIsland c f).msix = s.msix := rfl
@[simp] theorem State.onIsland_msixWait (s : State) (c : Nat) (f : Island → Island) : (s.onIsland c f).msixWait = s.msixWait := rfl
@[simp] theorem State.onIsland_act (s : State) (c : Nat) (f : Island → Island) : (s.onIsland c f).act = s.act := rfl
@[simp] theorem State.onIsland_rings (s : State) (c : Nat) (f : Island → Island) : (s.onIsland c f).rings = s.rings := rfl
@[simp] theorem State.onIsland_inProg (s : State) (c : Nat) (f : Island → Island) : (s.onIsland c f).inProg = s.inProg := rfl
@[simp] theorem State.onIsland_errs (s : State) (c : Nat) (f : Island → Island) : (s.onIsland c f).errs = s.errs := rfl
@[simp] theorem State.onIsland_errNext (s : State) (c : Nat) (f : Island → Island) : (s.onIsland c f).errNext = s.errNext := rfl
@[simp] theorem State.onIsland_flashErr (s : State) (c : Nat) (f : Island → Island) : (s.onIsland c f).flashErr = s.flashErr := rfl
@[simp] theorem State.onIsland_pFaults (s : State) (c : Nat) (f : Island → Island) : (s.onIsland c f).pFaults = s.pFaults := rfl
@[simp] theorem State.onIsland_jFaults (s : State) (c : Nat) (f : Island → Island) : (s.onIsland c f).jFaults = s.jFaults := rfl
@[simp] theorem State.onIsland_health (s : State) (c : Nat) (f : Island → Island) : (s.onIsland c f).health = s.health := rfl
@[simp] theorem State.onIsland_cnt (s : State) (c : Nat) (f : Island → Island) : (s.onIsland c f).cnt = s.cnt := rfl
@[simp] theorem State.onIsland_round (s : State) (c : Nat) (f : Island → Island) : (s.onIsland c f).round = s.round := rfl
@[simp] theorem State.onIsland_calFlash (s : State) (c : Nat) (f : Island → Island) : (s.onIsland c f).calFlash = s.calFlash := rfl
@[simp] theorem State.onIsland_calLoad (s : State) (c : Nat) (f : Island → Island) : (s.onIsland c f).calLoad = s.calLoad := rfl
@[simp] theorem State.onIsland_mgrDrop (s : State) (c : Nat) (f : Island → Island) : (s.onIsland c f).mgrDrop = s.mgrDrop := rfl
@[simp] theorem State.onIsland_detachCmd (s : State) (c : Nat) (f : Island → Island) : (s.onIsland c f).detachCmd = s.detachCmd := rfl
@[simp] theorem State.onIsland_taken (s : State) (c : Nat) (f : Island → Island) : (s.onIsland c f).taken = s.taken := rfl
@[simp] theorem State.onIsland_rota (s : State) (c : Nat) (f : Island → Island) : (s.onIsland c f).rota = s.rota := rfl
@[simp] theorem State.onIsland_rotaSet (s : State) (c : Nat) (f : Island → Island) : (s.onIsland c f).rotaSet = s.rotaSet := rfl

@[simp] theorem State.raise_pending (s : State) (r : Raise) : (s.raise r).pending = s.pending := rfl
@[simp] theorem State.raise_cycle (s : State) (r : Raise) : (s.raise r).cycle = s.cycle := rfl
@[simp] theorem State.raise_frameNo (s : State) (r : Raise) : (s.raise r).frameNo = s.frameNo := rfl
@[simp] theorem State.raise_wallAt (s : State) (r : Raise) : (s.raise r).wallAt = s.wallAt := rfl
@[simp] theorem State.raise_freeCtr (s : State) (r : Raise) : (s.raise r).freeCtr = s.freeCtr := rfl
@[simp] theorem State.raise_nextKey (s : State) (r : Raise) : (s.raise r).nextKey = s.nextKey := rfl
@[simp] theorem State.raise_out (s : State) (r : Raise) : (s.raise r).out = s.out := rfl
@[simp] theorem State.raise_cells (s : State) (r : Raise) : (s.raise r).cells = s.cells := rfl
@[simp] theorem State.raise_blocks (s : State) (r : Raise) : (s.raise r).blocks = s.blocks := rfl
@[simp] theorem State.raise_stks (s : State) (r : Raise) : (s.raise r).stks = s.stks := rfl
@[simp] theorem State.raise_cold (s : State) (r : Raise) : (s.raise r).cold = s.cold := rfl
@[simp] theorem State.raise_parts (s : State) (r : Raise) : (s.raise r).parts = s.parts := rfl
@[simp] theorem State.raise_counters (s : State) (r : Raise) : (s.raise r).counters = s.counters := rfl
@[simp] theorem State.raise_retired (s : State) (r : Raise) : (s.raise r).retired = s.retired := rfl
@[simp] theorem State.raise_ports (s : State) (r : Raise) : (s.raise r).ports = s.ports := rfl
@[simp] theorem State.raise_fab (s : State) (r : Raise) : (s.raise r).fab = s.fab := rfl
@[simp] theorem State.raise_shadows (s : State) (r : Raise) : (s.raise r).shadows = s.shadows := rfl
@[simp] theorem State.raise_tu (s : State) (r : Raise) : (s.raise r).tu = s.tu := rfl
@[simp] theorem State.raise_islands (s : State) (r : Raise) : (s.raise r).islands = s.islands := rfl
@[simp] theorem State.raise_pwr (s : State) (r : Raise) : (s.raise r).pwr = s.pwr := rfl
@[simp] theorem State.raise_seqr (s : State) (r : Raise) : (s.raise r).seqr = s.seqr := rfl
@[simp] theorem State.raise_keys (s : State) (r : Raise) : (s.raise r).keys = s.keys := rfl
@[simp] theorem State.raise_sessions (s : State) (r : Raise) : (s.raise r).sessions = s.sessions := rfl
@[simp] theorem State.raise_openFail (s : State) (r : Raise) : (s.raise r).openFail = s.openFail := rfl
@[simp] theorem State.raise_audit (s : State) (r : Raise) : (s.raise r).audit = s.audit := rfl
@[simp] theorem State.raise_auditIdx (s : State) (r : Raise) : (s.raise r).auditIdx = s.auditIdx := rfl
@[simp] theorem State.raise_auditHead (s : State) (r : Raise) : (s.raise r).auditHead = s.auditHead := rfl
@[simp] theorem State.raise_checks (s : State) (r : Raise) : (s.raise r).checks = s.checks := rfl
@[simp] theorem State.raise_openSec (s : State) (r : Raise) : (s.raise r).openSec = s.openSec := rfl
@[simp] theorem State.raise_mute (s : State) (r : Raise) : (s.raise r).mute = s.mute := rfl
@[simp] theorem State.raise_spFw (s : State) (r : Raise) : (s.raise r).spFw = s.spFw := rfl
@[simp] theorem State.raise_mgFw (s : State) (r : Raise) : (s.raise r).mgFw = s.mgFw := rfl
@[simp] theorem State.raise_spRun (s : State) (r : Raise) : (s.raise r).spRun = s.spRun := rfl
@[simp] theorem State.raise_mgRun (s : State) (r : Raise) : (s.raise r).mgRun = s.mgRun := rfl
@[simp] theorem State.raise_mgmtDown (s : State) (r : Raise) : (s.raise r).mgmtDown = s.mgmtDown := rfl
@[simp] theorem State.raise_boot (s : State) (r : Raise) : (s.raise r).boot = s.boot := rfl
@[simp] theorem State.raise_io (s : State) (r : Raise) : (s.raise r).io = s.io := rfl
@[simp] theorem State.raise_fuses (s : State) (r : Raise) : (s.raise r).fuses = s.fuses := rfl
@[simp] theorem State.raise_msix (s : State) (r : Raise) : (s.raise r).msix = s.msix := rfl
@[simp] theorem State.raise_msixWait (s : State) (r : Raise) : (s.raise r).msixWait = s.msixWait := rfl
@[simp] theorem State.raise_act (s : State) (r : Raise) : (s.raise r).act = s.act := rfl
@[simp] theorem State.raise_rings (s : State) (r : Raise) : (s.raise r).rings = s.rings := rfl
@[simp] theorem State.raise_inProg (s : State) (r : Raise) : (s.raise r).inProg = s.inProg := rfl
@[simp] theorem State.raise_errs (s : State) (r : Raise) : (s.raise r).errs = s.errs := rfl
@[simp] theorem State.raise_errNext (s : State) (r : Raise) : (s.raise r).errNext = s.errNext := rfl
@[simp] theorem State.raise_flashErr (s : State) (r : Raise) : (s.raise r).flashErr = s.flashErr := rfl
@[simp] theorem State.raise_pFaults (s : State) (r : Raise) : (s.raise r).pFaults = s.pFaults := rfl
@[simp] theorem State.raise_jFaults (s : State) (r : Raise) : (s.raise r).jFaults = s.jFaults := rfl
@[simp] theorem State.raise_health (s : State) (r : Raise) : (s.raise r).health = s.health := rfl
@[simp] theorem State.raise_cnt (s : State) (r : Raise) : (s.raise r).cnt = s.cnt := rfl
@[simp] theorem State.raise_round (s : State) (r : Raise) : (s.raise r).round = s.round := rfl
@[simp] theorem State.raise_calFlash (s : State) (r : Raise) : (s.raise r).calFlash = s.calFlash := rfl
@[simp] theorem State.raise_calLoad (s : State) (r : Raise) : (s.raise r).calLoad = s.calLoad := rfl
@[simp] theorem State.raise_mgrDrop (s : State) (r : Raise) : (s.raise r).mgrDrop = s.mgrDrop := rfl
@[simp] theorem State.raise_detachCmd (s : State) (r : Raise) : (s.raise r).detachCmd = s.detachCmd := rfl
@[simp] theorem State.raise_taken (s : State) (r : Raise) : (s.raise r).taken = s.taken := rfl
@[simp] theorem State.raise_rota (s : State) (r : Raise) : (s.raise r).rota = s.rota := rfl
@[simp] theorem State.raise_rotaSet (s : State) (r : Raise) : (s.raise r).rotaSet = s.rotaSet := rfl

@[simp] theorem State.send_pending (s : State) (m : Sent) : (s.send m).pending = s.pending := rfl
@[simp] theorem State.send_cycle (s : State) (m : Sent) : (s.send m).cycle = s.cycle := rfl
@[simp] theorem State.send_frameNo (s : State) (m : Sent) : (s.send m).frameNo = s.frameNo := rfl
@[simp] theorem State.send_wallAt (s : State) (m : Sent) : (s.send m).wallAt = s.wallAt := rfl
@[simp] theorem State.send_freeCtr (s : State) (m : Sent) : (s.send m).freeCtr = s.freeCtr := rfl
@[simp] theorem State.send_nextKey (s : State) (m : Sent) : (s.send m).nextKey = s.nextKey := rfl
@[simp] theorem State.send_cells (s : State) (m : Sent) : (s.send m).cells = s.cells := rfl
@[simp] theorem State.send_blocks (s : State) (m : Sent) : (s.send m).blocks = s.blocks := rfl
@[simp] theorem State.send_stks (s : State) (m : Sent) : (s.send m).stks = s.stks := rfl
@[simp] theorem State.send_cold (s : State) (m : Sent) : (s.send m).cold = s.cold := rfl
@[simp] theorem State.send_parts (s : State) (m : Sent) : (s.send m).parts = s.parts := rfl
@[simp] theorem State.send_raised (s : State) (m : Sent) : (s.send m).raised = s.raised := rfl
@[simp] theorem State.send_counters (s : State) (m : Sent) : (s.send m).counters = s.counters := rfl
@[simp] theorem State.send_retired (s : State) (m : Sent) : (s.send m).retired = s.retired := rfl
@[simp] theorem State.send_ports (s : State) (m : Sent) : (s.send m).ports = s.ports := rfl
@[simp] theorem State.send_fab (s : State) (m : Sent) : (s.send m).fab = s.fab := rfl
@[simp] theorem State.send_shadows (s : State) (m : Sent) : (s.send m).shadows = s.shadows := rfl
@[simp] theorem State.send_tu (s : State) (m : Sent) : (s.send m).tu = s.tu := rfl
@[simp] theorem State.send_islands (s : State) (m : Sent) : (s.send m).islands = s.islands := rfl
@[simp] theorem State.send_pwr (s : State) (m : Sent) : (s.send m).pwr = s.pwr := rfl
@[simp] theorem State.send_seqr (s : State) (m : Sent) : (s.send m).seqr = s.seqr := rfl
@[simp] theorem State.send_keys (s : State) (m : Sent) : (s.send m).keys = s.keys := rfl
@[simp] theorem State.send_sessions (s : State) (m : Sent) : (s.send m).sessions = s.sessions := rfl
@[simp] theorem State.send_openFail (s : State) (m : Sent) : (s.send m).openFail = s.openFail := rfl
@[simp] theorem State.send_audit (s : State) (m : Sent) : (s.send m).audit = s.audit := rfl
@[simp] theorem State.send_auditIdx (s : State) (m : Sent) : (s.send m).auditIdx = s.auditIdx := rfl
@[simp] theorem State.send_auditHead (s : State) (m : Sent) : (s.send m).auditHead = s.auditHead := rfl
@[simp] theorem State.send_checks (s : State) (m : Sent) : (s.send m).checks = s.checks := rfl
@[simp] theorem State.send_openSec (s : State) (m : Sent) : (s.send m).openSec = s.openSec := rfl
@[simp] theorem State.send_mute (s : State) (m : Sent) : (s.send m).mute = s.mute := rfl
@[simp] theorem State.send_spFw (s : State) (m : Sent) : (s.send m).spFw = s.spFw := rfl
@[simp] theorem State.send_mgFw (s : State) (m : Sent) : (s.send m).mgFw = s.mgFw := rfl
@[simp] theorem State.send_spRun (s : State) (m : Sent) : (s.send m).spRun = s.spRun := rfl
@[simp] theorem State.send_mgRun (s : State) (m : Sent) : (s.send m).mgRun = s.mgRun := rfl
@[simp] theorem State.send_mgmtDown (s : State) (m : Sent) : (s.send m).mgmtDown = s.mgmtDown := rfl
@[simp] theorem State.send_boot (s : State) (m : Sent) : (s.send m).boot = s.boot := rfl
@[simp] theorem State.send_io (s : State) (m : Sent) : (s.send m).io = s.io := rfl
@[simp] theorem State.send_fuses (s : State) (m : Sent) : (s.send m).fuses = s.fuses := rfl
@[simp] theorem State.send_msix (s : State) (m : Sent) : (s.send m).msix = s.msix := rfl
@[simp] theorem State.send_msixWait (s : State) (m : Sent) : (s.send m).msixWait = s.msixWait := rfl
@[simp] theorem State.send_act (s : State) (m : Sent) : (s.send m).act = s.act := rfl
@[simp] theorem State.send_rings (s : State) (m : Sent) : (s.send m).rings = s.rings := rfl
@[simp] theorem State.send_inProg (s : State) (m : Sent) : (s.send m).inProg = s.inProg := rfl
@[simp] theorem State.send_errs (s : State) (m : Sent) : (s.send m).errs = s.errs := rfl
@[simp] theorem State.send_errNext (s : State) (m : Sent) : (s.send m).errNext = s.errNext := rfl
@[simp] theorem State.send_flashErr (s : State) (m : Sent) : (s.send m).flashErr = s.flashErr := rfl
@[simp] theorem State.send_pFaults (s : State) (m : Sent) : (s.send m).pFaults = s.pFaults := rfl
@[simp] theorem State.send_jFaults (s : State) (m : Sent) : (s.send m).jFaults = s.jFaults := rfl
@[simp] theorem State.send_health (s : State) (m : Sent) : (s.send m).health = s.health := rfl
@[simp] theorem State.send_cnt (s : State) (m : Sent) : (s.send m).cnt = s.cnt := rfl
@[simp] theorem State.send_round (s : State) (m : Sent) : (s.send m).round = s.round := rfl
@[simp] theorem State.send_calFlash (s : State) (m : Sent) : (s.send m).calFlash = s.calFlash := rfl
@[simp] theorem State.send_calLoad (s : State) (m : Sent) : (s.send m).calLoad = s.calLoad := rfl
@[simp] theorem State.send_mgrDrop (s : State) (m : Sent) : (s.send m).mgrDrop = s.mgrDrop := rfl
@[simp] theorem State.send_detachCmd (s : State) (m : Sent) : (s.send m).detachCmd = s.detachCmd := rfl
@[simp] theorem State.send_taken (s : State) (m : Sent) : (s.send m).taken = s.taken := rfl
@[simp] theorem State.send_rota (s : State) (m : Sent) : (s.send m).rota = s.rota := rfl
@[simp] theorem State.send_rotaSet (s : State) (m : Sent) : (s.send m).rotaSet = s.rotaSet := rfl

@[simp] theorem State.count_pending (s : State) (l e n : Nat) : (s.count l e n).pending = s.pending := rfl
@[simp] theorem State.count_cycle (s : State) (l e n : Nat) : (s.count l e n).cycle = s.cycle := rfl
@[simp] theorem State.count_frameNo (s : State) (l e n : Nat) : (s.count l e n).frameNo = s.frameNo := rfl
@[simp] theorem State.count_wallAt (s : State) (l e n : Nat) : (s.count l e n).wallAt = s.wallAt := rfl
@[simp] theorem State.count_freeCtr (s : State) (l e n : Nat) : (s.count l e n).freeCtr = s.freeCtr := rfl
@[simp] theorem State.count_nextKey (s : State) (l e n : Nat) : (s.count l e n).nextKey = s.nextKey := rfl
@[simp] theorem State.count_out (s : State) (l e n : Nat) : (s.count l e n).out = s.out := rfl
@[simp] theorem State.count_cells (s : State) (l e n : Nat) : (s.count l e n).cells = s.cells := rfl
@[simp] theorem State.count_blocks (s : State) (l e n : Nat) : (s.count l e n).blocks = s.blocks := rfl
@[simp] theorem State.count_stks (s : State) (l e n : Nat) : (s.count l e n).stks = s.stks := rfl
@[simp] theorem State.count_cold (s : State) (l e n : Nat) : (s.count l e n).cold = s.cold := rfl
@[simp] theorem State.count_parts (s : State) (l e n : Nat) : (s.count l e n).parts = s.parts := rfl
@[simp] theorem State.count_raised (s : State) (l e n : Nat) : (s.count l e n).raised = s.raised := rfl
@[simp] theorem State.count_retired (s : State) (l e n : Nat) : (s.count l e n).retired = s.retired := rfl
@[simp] theorem State.count_ports (s : State) (l e n : Nat) : (s.count l e n).ports = s.ports := rfl
@[simp] theorem State.count_fab (s : State) (l e n : Nat) : (s.count l e n).fab = s.fab := rfl
@[simp] theorem State.count_shadows (s : State) (l e n : Nat) : (s.count l e n).shadows = s.shadows := rfl
@[simp] theorem State.count_tu (s : State) (l e n : Nat) : (s.count l e n).tu = s.tu := rfl
@[simp] theorem State.count_islands (s : State) (l e n : Nat) : (s.count l e n).islands = s.islands := rfl
@[simp] theorem State.count_pwr (s : State) (l e n : Nat) : (s.count l e n).pwr = s.pwr := rfl
@[simp] theorem State.count_seqr (s : State) (l e n : Nat) : (s.count l e n).seqr = s.seqr := rfl
@[simp] theorem State.count_keys (s : State) (l e n : Nat) : (s.count l e n).keys = s.keys := rfl
@[simp] theorem State.count_sessions (s : State) (l e n : Nat) : (s.count l e n).sessions = s.sessions := rfl
@[simp] theorem State.count_openFail (s : State) (l e n : Nat) : (s.count l e n).openFail = s.openFail := rfl
@[simp] theorem State.count_audit (s : State) (l e n : Nat) : (s.count l e n).audit = s.audit := rfl
@[simp] theorem State.count_auditIdx (s : State) (l e n : Nat) : (s.count l e n).auditIdx = s.auditIdx := rfl
@[simp] theorem State.count_auditHead (s : State) (l e n : Nat) : (s.count l e n).auditHead = s.auditHead := rfl
@[simp] theorem State.count_checks (s : State) (l e n : Nat) : (s.count l e n).checks = s.checks := rfl
@[simp] theorem State.count_openSec (s : State) (l e n : Nat) : (s.count l e n).openSec = s.openSec := rfl
@[simp] theorem State.count_mute (s : State) (l e n : Nat) : (s.count l e n).mute = s.mute := rfl
@[simp] theorem State.count_spFw (s : State) (l e n : Nat) : (s.count l e n).spFw = s.spFw := rfl
@[simp] theorem State.count_mgFw (s : State) (l e n : Nat) : (s.count l e n).mgFw = s.mgFw := rfl
@[simp] theorem State.count_spRun (s : State) (l e n : Nat) : (s.count l e n).spRun = s.spRun := rfl
@[simp] theorem State.count_mgRun (s : State) (l e n : Nat) : (s.count l e n).mgRun = s.mgRun := rfl
@[simp] theorem State.count_mgmtDown (s : State) (l e n : Nat) : (s.count l e n).mgmtDown = s.mgmtDown := rfl
@[simp] theorem State.count_boot (s : State) (l e n : Nat) : (s.count l e n).boot = s.boot := rfl
@[simp] theorem State.count_io (s : State) (l e n : Nat) : (s.count l e n).io = s.io := rfl
@[simp] theorem State.count_fuses (s : State) (l e n : Nat) : (s.count l e n).fuses = s.fuses := rfl
@[simp] theorem State.count_msix (s : State) (l e n : Nat) : (s.count l e n).msix = s.msix := rfl
@[simp] theorem State.count_msixWait (s : State) (l e n : Nat) : (s.count l e n).msixWait = s.msixWait := rfl
@[simp] theorem State.count_act (s : State) (l e n : Nat) : (s.count l e n).act = s.act := rfl
@[simp] theorem State.count_rings (s : State) (l e n : Nat) : (s.count l e n).rings = s.rings := rfl
@[simp] theorem State.count_inProg (s : State) (l e n : Nat) : (s.count l e n).inProg = s.inProg := rfl
@[simp] theorem State.count_errs (s : State) (l e n : Nat) : (s.count l e n).errs = s.errs := rfl
@[simp] theorem State.count_errNext (s : State) (l e n : Nat) : (s.count l e n).errNext = s.errNext := rfl
@[simp] theorem State.count_flashErr (s : State) (l e n : Nat) : (s.count l e n).flashErr = s.flashErr := rfl
@[simp] theorem State.count_pFaults (s : State) (l e n : Nat) : (s.count l e n).pFaults = s.pFaults := rfl
@[simp] theorem State.count_jFaults (s : State) (l e n : Nat) : (s.count l e n).jFaults = s.jFaults := rfl
@[simp] theorem State.count_cnt (s : State) (l e n : Nat) : (s.count l e n).cnt = s.cnt := rfl
@[simp] theorem State.count_round (s : State) (l e n : Nat) : (s.count l e n).round = s.round := rfl
@[simp] theorem State.count_calFlash (s : State) (l e n : Nat) : (s.count l e n).calFlash = s.calFlash := rfl
@[simp] theorem State.count_calLoad (s : State) (l e n : Nat) : (s.count l e n).calLoad = s.calLoad := rfl
@[simp] theorem State.count_mgrDrop (s : State) (l e n : Nat) : (s.count l e n).mgrDrop = s.mgrDrop := rfl
@[simp] theorem State.count_detachCmd (s : State) (l e n : Nat) : (s.count l e n).detachCmd = s.detachCmd := rfl
@[simp] theorem State.count_taken (s : State) (l e n : Nat) : (s.count l e n).taken = s.taken := rfl
@[simp] theorem State.count_rota (s : State) (l e n : Nat) : (s.count l e n).rota = s.rota := rfl
@[simp] theorem State.count_rotaSet (s : State) (l e n : Nat) : (s.count l e n).rotaSet = s.rotaSet := rfl

@[simp] theorem State.spend_pending (s : State) (r : Nat) (p : Option Nat) (n : Nat) : (s.spend r p n).pending = s.pending := rfl
@[simp] theorem State.spend_cycle (s : State) (r : Nat) (p : Option Nat) (n : Nat) : (s.spend r p n).cycle = s.cycle := rfl
@[simp] theorem State.spend_frameNo (s : State) (r : Nat) (p : Option Nat) (n : Nat) : (s.spend r p n).frameNo = s.frameNo := rfl
@[simp] theorem State.spend_wallAt (s : State) (r : Nat) (p : Option Nat) (n : Nat) : (s.spend r p n).wallAt = s.wallAt := rfl
@[simp] theorem State.spend_freeCtr (s : State) (r : Nat) (p : Option Nat) (n : Nat) : (s.spend r p n).freeCtr = s.freeCtr := rfl
@[simp] theorem State.spend_nextKey (s : State) (r : Nat) (p : Option Nat) (n : Nat) : (s.spend r p n).nextKey = s.nextKey := rfl
@[simp] theorem State.spend_out (s : State) (r : Nat) (p : Option Nat) (n : Nat) : (s.spend r p n).out = s.out := rfl
@[simp] theorem State.spend_cells (s : State) (r : Nat) (p : Option Nat) (n : Nat) : (s.spend r p n).cells = s.cells := rfl
@[simp] theorem State.spend_blocks (s : State) (r : Nat) (p : Option Nat) (n : Nat) : (s.spend r p n).blocks = s.blocks := rfl
@[simp] theorem State.spend_stks (s : State) (r : Nat) (p : Option Nat) (n : Nat) : (s.spend r p n).stks = s.stks := rfl
@[simp] theorem State.spend_cold (s : State) (r : Nat) (p : Option Nat) (n : Nat) : (s.spend r p n).cold = s.cold := rfl
@[simp] theorem State.spend_parts (s : State) (r : Nat) (p : Option Nat) (n : Nat) : (s.spend r p n).parts = s.parts := rfl
@[simp] theorem State.spend_raised (s : State) (r : Nat) (p : Option Nat) (n : Nat) : (s.spend r p n).raised = s.raised := rfl
@[simp] theorem State.spend_counters (s : State) (r : Nat) (p : Option Nat) (n : Nat) : (s.spend r p n).counters = s.counters := rfl
@[simp] theorem State.spend_retired (s : State) (r : Nat) (p : Option Nat) (n : Nat) : (s.spend r p n).retired = s.retired := rfl
@[simp] theorem State.spend_ports (s : State) (r : Nat) (p : Option Nat) (n : Nat) : (s.spend r p n).ports = s.ports := rfl
@[simp] theorem State.spend_fab (s : State) (r : Nat) (p : Option Nat) (n : Nat) : (s.spend r p n).fab = s.fab := rfl
@[simp] theorem State.spend_shadows (s : State) (r : Nat) (p : Option Nat) (n : Nat) : (s.spend r p n).shadows = s.shadows := rfl
@[simp] theorem State.spend_tu (s : State) (r : Nat) (p : Option Nat) (n : Nat) : (s.spend r p n).tu = s.tu := rfl
@[simp] theorem State.spend_islands (s : State) (r : Nat) (p : Option Nat) (n : Nat) : (s.spend r p n).islands = s.islands := rfl
@[simp] theorem State.spend_pwr (s : State) (r : Nat) (p : Option Nat) (n : Nat) : (s.spend r p n).pwr = s.pwr := rfl
@[simp] theorem State.spend_seqr (s : State) (r : Nat) (p : Option Nat) (n : Nat) : (s.spend r p n).seqr = s.seqr := rfl
@[simp] theorem State.spend_keys (s : State) (r : Nat) (p : Option Nat) (n : Nat) : (s.spend r p n).keys = s.keys := rfl
@[simp] theorem State.spend_sessions (s : State) (r : Nat) (p : Option Nat) (n : Nat) : (s.spend r p n).sessions = s.sessions := rfl
@[simp] theorem State.spend_openFail (s : State) (r : Nat) (p : Option Nat) (n : Nat) : (s.spend r p n).openFail = s.openFail := rfl
@[simp] theorem State.spend_audit (s : State) (r : Nat) (p : Option Nat) (n : Nat) : (s.spend r p n).audit = s.audit := rfl
@[simp] theorem State.spend_auditIdx (s : State) (r : Nat) (p : Option Nat) (n : Nat) : (s.spend r p n).auditIdx = s.auditIdx := rfl
@[simp] theorem State.spend_auditHead (s : State) (r : Nat) (p : Option Nat) (n : Nat) : (s.spend r p n).auditHead = s.auditHead := rfl
@[simp] theorem State.spend_checks (s : State) (r : Nat) (p : Option Nat) (n : Nat) : (s.spend r p n).checks = s.checks := rfl
@[simp] theorem State.spend_openSec (s : State) (r : Nat) (p : Option Nat) (n : Nat) : (s.spend r p n).openSec = s.openSec := rfl
@[simp] theorem State.spend_mute (s : State) (r : Nat) (p : Option Nat) (n : Nat) : (s.spend r p n).mute = s.mute := rfl
@[simp] theorem State.spend_spFw (s : State) (r : Nat) (p : Option Nat) (n : Nat) : (s.spend r p n).spFw = s.spFw := rfl
@[simp] theorem State.spend_mgFw (s : State) (r : Nat) (p : Option Nat) (n : Nat) : (s.spend r p n).mgFw = s.mgFw := rfl
@[simp] theorem State.spend_spRun (s : State) (r : Nat) (p : Option Nat) (n : Nat) : (s.spend r p n).spRun = s.spRun := rfl
@[simp] theorem State.spend_mgRun (s : State) (r : Nat) (p : Option Nat) (n : Nat) : (s.spend r p n).mgRun = s.mgRun := rfl
@[simp] theorem State.spend_mgmtDown (s : State) (r : Nat) (p : Option Nat) (n : Nat) : (s.spend r p n).mgmtDown = s.mgmtDown := rfl
@[simp] theorem State.spend_boot (s : State) (r : Nat) (p : Option Nat) (n : Nat) : (s.spend r p n).boot = s.boot := rfl
@[simp] theorem State.spend_io (s : State) (r : Nat) (p : Option Nat) (n : Nat) : (s.spend r p n).io = s.io := rfl
@[simp] theorem State.spend_fuses (s : State) (r : Nat) (p : Option Nat) (n : Nat) : (s.spend r p n).fuses = s.fuses := rfl
@[simp] theorem State.spend_rings (s : State) (r : Nat) (p : Option Nat) (n : Nat) : (s.spend r p n).rings = s.rings := rfl
@[simp] theorem State.spend_msix (s : State) (r : Nat) (p : Option Nat) (n : Nat) : (s.spend r p n).msix = s.msix := rfl
@[simp] theorem State.spend_msixWait (s : State) (r : Nat) (p : Option Nat) (n : Nat) : (s.spend r p n).msixWait = s.msixWait := rfl
@[simp] theorem State.spend_inProg (s : State) (r : Nat) (p : Option Nat) (n : Nat) : (s.spend r p n).inProg = s.inProg := rfl
@[simp] theorem State.spend_errs (s : State) (r : Nat) (p : Option Nat) (n : Nat) : (s.spend r p n).errs = s.errs := rfl
@[simp] theorem State.spend_errNext (s : State) (r : Nat) (p : Option Nat) (n : Nat) : (s.spend r p n).errNext = s.errNext := rfl
@[simp] theorem State.spend_flashErr (s : State) (r : Nat) (p : Option Nat) (n : Nat) : (s.spend r p n).flashErr = s.flashErr := rfl
@[simp] theorem State.spend_pFaults (s : State) (r : Nat) (p : Option Nat) (n : Nat) : (s.spend r p n).pFaults = s.pFaults := rfl
@[simp] theorem State.spend_jFaults (s : State) (r : Nat) (p : Option Nat) (n : Nat) : (s.spend r p n).jFaults = s.jFaults := rfl
@[simp] theorem State.spend_health (s : State) (r : Nat) (p : Option Nat) (n : Nat) : (s.spend r p n).health = s.health := rfl
@[simp] theorem State.spend_cnt (s : State) (r : Nat) (p : Option Nat) (n : Nat) : (s.spend r p n).cnt = s.cnt := rfl
@[simp] theorem State.spend_round (s : State) (r : Nat) (p : Option Nat) (n : Nat) : (s.spend r p n).round = s.round := rfl
@[simp] theorem State.spend_calFlash (s : State) (r : Nat) (p : Option Nat) (n : Nat) : (s.spend r p n).calFlash = s.calFlash := rfl
@[simp] theorem State.spend_calLoad (s : State) (r : Nat) (p : Option Nat) (n : Nat) : (s.spend r p n).calLoad = s.calLoad := rfl
@[simp] theorem State.spend_mgrDrop (s : State) (r : Nat) (p : Option Nat) (n : Nat) : (s.spend r p n).mgrDrop = s.mgrDrop := rfl
@[simp] theorem State.spend_detachCmd (s : State) (r : Nat) (p : Option Nat) (n : Nat) : (s.spend r p n).detachCmd = s.detachCmd := rfl
@[simp] theorem State.spend_taken (s : State) (r : Nat) (p : Option Nat) (n : Nat) : (s.spend r p n).taken = s.taken := rfl
@[simp] theorem State.spend_rota (s : State) (r : Nat) (p : Option Nat) (n : Nat) : (s.spend r p n).rota = s.rota := rfl
@[simp] theorem State.spend_rotaSet (s : State) (r : Nat) (p : Option Nat) (n : Nat) : (s.spend r p n).rotaSet = s.rotaSet := rfl
@[simp] theorem State.spend_cell (s : State) (r : Nat) (p : Option Nat) (n : Nat) (j : Nat) : (s.spend r p n).cell j = s.cell j := rfl
@[simp] theorem State.spend_block (s : State) (r : Nat) (p : Option Nat) (n : Nat) (j : Nat) : (s.spend r p n).block j = s.block j := rfl
@[simp] theorem State.spend_part (s : State) (r : Nat) (p : Option Nat) (n : Nat) (j : Nat) : (s.spend r p n).part j = s.part j := rfl
@[simp] theorem State.spend_stack (s : State) (r : Nat) (p : Option Nat) (n : Nat) (j : Nat) : (s.spend r p n).stack j = s.stack j := rfl
@[simp] theorem State.spend_port (s : State) (r : Nat) (p : Option Nat) (n : Nat) (j : Nat) : (s.spend r p n).port j = s.port j := rfl
@[simp] theorem State.spend_shadow (s : State) (r : Nat) (p : Option Nat) (n : Nat) (j : Nat) : (s.spend r p n).shadow j = s.shadow j := rfl
@[simp] theorem State.spend_island (s : State) (r : Nat) (p : Option Nat) (n : Nat) (j : Nat) : (s.spend r p n).island j = s.island j := rfl

@[simp] theorem State.setRing_pending (s : State) (fn k q : Nat) (r : Ring) : (s.setRing fn k q r).pending = s.pending := rfl
@[simp] theorem State.setRing_cycle (s : State) (fn k q : Nat) (r : Ring) : (s.setRing fn k q r).cycle = s.cycle := rfl
@[simp] theorem State.setRing_frameNo (s : State) (fn k q : Nat) (r : Ring) : (s.setRing fn k q r).frameNo = s.frameNo := rfl
@[simp] theorem State.setRing_wallAt (s : State) (fn k q : Nat) (r : Ring) : (s.setRing fn k q r).wallAt = s.wallAt := rfl
@[simp] theorem State.setRing_freeCtr (s : State) (fn k q : Nat) (r : Ring) : (s.setRing fn k q r).freeCtr = s.freeCtr := rfl
@[simp] theorem State.setRing_nextKey (s : State) (fn k q : Nat) (r : Ring) : (s.setRing fn k q r).nextKey = s.nextKey := rfl
@[simp] theorem State.setRing_out (s : State) (fn k q : Nat) (r : Ring) : (s.setRing fn k q r).out = s.out := rfl
@[simp] theorem State.setRing_cells (s : State) (fn k q : Nat) (r : Ring) : (s.setRing fn k q r).cells = s.cells := rfl
@[simp] theorem State.setRing_blocks (s : State) (fn k q : Nat) (r : Ring) : (s.setRing fn k q r).blocks = s.blocks := rfl
@[simp] theorem State.setRing_stks (s : State) (fn k q : Nat) (r : Ring) : (s.setRing fn k q r).stks = s.stks := rfl
@[simp] theorem State.setRing_cold (s : State) (fn k q : Nat) (r : Ring) : (s.setRing fn k q r).cold = s.cold := rfl
@[simp] theorem State.setRing_parts (s : State) (fn k q : Nat) (r : Ring) : (s.setRing fn k q r).parts = s.parts := rfl
@[simp] theorem State.setRing_raised (s : State) (fn k q : Nat) (r : Ring) : (s.setRing fn k q r).raised = s.raised := rfl
@[simp] theorem State.setRing_counters (s : State) (fn k q : Nat) (r : Ring) : (s.setRing fn k q r).counters = s.counters := rfl
@[simp] theorem State.setRing_retired (s : State) (fn k q : Nat) (r : Ring) : (s.setRing fn k q r).retired = s.retired := rfl
@[simp] theorem State.setRing_ports (s : State) (fn k q : Nat) (r : Ring) : (s.setRing fn k q r).ports = s.ports := rfl
@[simp] theorem State.setRing_fab (s : State) (fn k q : Nat) (r : Ring) : (s.setRing fn k q r).fab = s.fab := rfl
@[simp] theorem State.setRing_shadows (s : State) (fn k q : Nat) (r : Ring) : (s.setRing fn k q r).shadows = s.shadows := rfl
@[simp] theorem State.setRing_tu (s : State) (fn k q : Nat) (r : Ring) : (s.setRing fn k q r).tu = s.tu := rfl
@[simp] theorem State.setRing_islands (s : State) (fn k q : Nat) (r : Ring) : (s.setRing fn k q r).islands = s.islands := rfl
@[simp] theorem State.setRing_pwr (s : State) (fn k q : Nat) (r : Ring) : (s.setRing fn k q r).pwr = s.pwr := rfl
@[simp] theorem State.setRing_seqr (s : State) (fn k q : Nat) (r : Ring) : (s.setRing fn k q r).seqr = s.seqr := rfl
@[simp] theorem State.setRing_keys (s : State) (fn k q : Nat) (r : Ring) : (s.setRing fn k q r).keys = s.keys := rfl
@[simp] theorem State.setRing_sessions (s : State) (fn k q : Nat) (r : Ring) : (s.setRing fn k q r).sessions = s.sessions := rfl
@[simp] theorem State.setRing_openFail (s : State) (fn k q : Nat) (r : Ring) : (s.setRing fn k q r).openFail = s.openFail := rfl
@[simp] theorem State.setRing_audit (s : State) (fn k q : Nat) (r : Ring) : (s.setRing fn k q r).audit = s.audit := rfl
@[simp] theorem State.setRing_auditIdx (s : State) (fn k q : Nat) (r : Ring) : (s.setRing fn k q r).auditIdx = s.auditIdx := rfl
@[simp] theorem State.setRing_auditHead (s : State) (fn k q : Nat) (r : Ring) : (s.setRing fn k q r).auditHead = s.auditHead := rfl
@[simp] theorem State.setRing_checks (s : State) (fn k q : Nat) (r : Ring) : (s.setRing fn k q r).checks = s.checks := rfl
@[simp] theorem State.setRing_openSec (s : State) (fn k q : Nat) (r : Ring) : (s.setRing fn k q r).openSec = s.openSec := rfl
@[simp] theorem State.setRing_mute (s : State) (fn k q : Nat) (r : Ring) : (s.setRing fn k q r).mute = s.mute := rfl
@[simp] theorem State.setRing_spFw (s : State) (fn k q : Nat) (r : Ring) : (s.setRing fn k q r).spFw = s.spFw := rfl
@[simp] theorem State.setRing_mgFw (s : State) (fn k q : Nat) (r : Ring) : (s.setRing fn k q r).mgFw = s.mgFw := rfl
@[simp] theorem State.setRing_spRun (s : State) (fn k q : Nat) (r : Ring) : (s.setRing fn k q r).spRun = s.spRun := rfl
@[simp] theorem State.setRing_mgRun (s : State) (fn k q : Nat) (r : Ring) : (s.setRing fn k q r).mgRun = s.mgRun := rfl
@[simp] theorem State.setRing_mgmtDown (s : State) (fn k q : Nat) (r : Ring) : (s.setRing fn k q r).mgmtDown = s.mgmtDown := rfl
@[simp] theorem State.setRing_boot (s : State) (fn k q : Nat) (r : Ring) : (s.setRing fn k q r).boot = s.boot := rfl
@[simp] theorem State.setRing_io (s : State) (fn k q : Nat) (r : Ring) : (s.setRing fn k q r).io = s.io := rfl
@[simp] theorem State.setRing_fuses (s : State) (fn k q : Nat) (r : Ring) : (s.setRing fn k q r).fuses = s.fuses := rfl
@[simp] theorem State.setRing_msix (s : State) (fn k q : Nat) (r : Ring) : (s.setRing fn k q r).msix = s.msix := rfl
@[simp] theorem State.setRing_msixWait (s : State) (fn k q : Nat) (r : Ring) : (s.setRing fn k q r).msixWait = s.msixWait := rfl
@[simp] theorem State.setRing_act (s : State) (fn k q : Nat) (r : Ring) : (s.setRing fn k q r).act = s.act := rfl
@[simp] theorem State.setRing_inProg (s : State) (fn k q : Nat) (r : Ring) : (s.setRing fn k q r).inProg = s.inProg := rfl
@[simp] theorem State.setRing_errs (s : State) (fn k q : Nat) (r : Ring) : (s.setRing fn k q r).errs = s.errs := rfl
@[simp] theorem State.setRing_errNext (s : State) (fn k q : Nat) (r : Ring) : (s.setRing fn k q r).errNext = s.errNext := rfl
@[simp] theorem State.setRing_flashErr (s : State) (fn k q : Nat) (r : Ring) : (s.setRing fn k q r).flashErr = s.flashErr := rfl
@[simp] theorem State.setRing_pFaults (s : State) (fn k q : Nat) (r : Ring) : (s.setRing fn k q r).pFaults = s.pFaults := rfl
@[simp] theorem State.setRing_jFaults (s : State) (fn k q : Nat) (r : Ring) : (s.setRing fn k q r).jFaults = s.jFaults := rfl
@[simp] theorem State.setRing_health (s : State) (fn k q : Nat) (r : Ring) : (s.setRing fn k q r).health = s.health := rfl
@[simp] theorem State.setRing_cnt (s : State) (fn k q : Nat) (r : Ring) : (s.setRing fn k q r).cnt = s.cnt := rfl
@[simp] theorem State.setRing_round (s : State) (fn k q : Nat) (r : Ring) : (s.setRing fn k q r).round = s.round := rfl
@[simp] theorem State.setRing_calFlash (s : State) (fn k q : Nat) (r : Ring) : (s.setRing fn k q r).calFlash = s.calFlash := rfl
@[simp] theorem State.setRing_calLoad (s : State) (fn k q : Nat) (r : Ring) : (s.setRing fn k q r).calLoad = s.calLoad := rfl
@[simp] theorem State.setRing_mgrDrop (s : State) (fn k q : Nat) (r : Ring) : (s.setRing fn k q r).mgrDrop = s.mgrDrop := rfl
@[simp] theorem State.setRing_detachCmd (s : State) (fn k q : Nat) (r : Ring) : (s.setRing fn k q r).detachCmd = s.detachCmd := rfl
@[simp] theorem State.setRing_taken (s : State) (fn k q : Nat) (r : Ring) : (s.setRing fn k q r).taken = s.taken := rfl
@[simp] theorem State.setRing_rota (s : State) (fn k q : Nat) (r : Ring) : (s.setRing fn k q r).rota = s.rota := rfl
@[simp] theorem State.setRing_rotaSet (s : State) (fn k q : Nat) (r : Ring) : (s.setRing fn k q r).rotaSet = s.rotaSet := rfl

/-! ### Units after an update -/

@[simp] theorem State.setCell_cell_same (s : State) (c : Nat) (x : Cell) : (s.setCell c x).cell c = x := look_put_same _ _ _ _
theorem State.setCell_cell_ne (s : State) {c k : Nat} (x : Cell) (h : k ≠ c) : (s.setCell c x).cell k = s.cell k :=
  look_put_ne _ _ _ h
@[simp] theorem State.setBlock_block_same (s : State) (b : Nat) (x : Block) : (s.setBlock b x).block b = x := look_put_same _ _ _ _
theorem State.setBlock_block_ne (s : State) {b k : Nat} (x : Block) (h : k ≠ b) : (s.setBlock b x).block k = s.block k :=
  look_put_ne _ _ _ h
@[simp] theorem State.setPart_part_same (s : State) (p : Nat) (x : Part) : (s.setPart p x).part p = x := look_put_same _ _ _ _
theorem State.setPart_part_ne (s : State) {p k : Nat} (x : Part) (h : k ≠ p) : (s.setPart p x).part k = s.part k :=
  look_put_ne _ _ _ h
@[simp] theorem State.onCell_cell_same (s : State) (c : Nat) (f : Cell → Cell) : (s.onCell c f).cell c = f (s.cell c) :=
  look_put_same _ _ _ _
theorem State.onCell_cell_ne (s : State) {c k : Nat} (f : Cell → Cell) (h : k ≠ c) : (s.onCell c f).cell k = s.cell k :=
  look_put_ne _ _ _ h
@[simp] theorem State.onBlock_block_same (s : State) (b : Nat) (f : Block → Block) : (s.onBlock b f).block b = f (s.block b) :=
  look_put_same _ _ _ _
theorem State.onBlock_block_ne (s : State) {b k : Nat} (f : Block → Block) (h : k ≠ b) : (s.onBlock b f).block k = s.block k :=
  look_put_ne _ _ _ h
@[simp] theorem State.onPart_part_same (s : State) (p : Nat) (f : Part → Part) : (s.onPart p f).part p = f (s.part p) :=
  look_put_same _ _ _ _
theorem State.onPart_part_ne (s : State) {p k : Nat} (f : Part → Part) (h : k ≠ p) : (s.onPart p f).part k = s.part k :=
  look_put_ne _ _ _ h
@[simp] theorem State.onStack_stack_same (s : State) (k : Nat) (f : Stack → Stack) : (s.onStack k f).stack k = f (s.stack k) :=
  look_upd_same _ _ _ _
theorem State.onStack_stack_ne (s : State) {k j : Nat} (f : Stack → Stack) (h : j ≠ k) : (s.onStack k f).stack j = s.stack j :=
  look_upd_ne _ _ _ h
@[simp] theorem State.onPort_port_same (s : State) (i : Nat) (f : Port → Port) : (s.onPort i f).port i = f (s.port i) :=
  look_upd_same _ _ _ _
theorem State.onPort_port_ne (s : State) {i k : Nat} (f : Port → Port) (h : k ≠ i) : (s.onPort i f).port k = s.port k :=
  look_upd_ne _ _ _ h
@[simp] theorem State.onShadow_shadow_same (s : State) (p : Nat) (f : Shadow → Shadow) :
    (s.onShadow p f).shadow p = f (s.shadow p) := look_upd_same _ _ _ _
@[simp] theorem State.onIsland_island_same (s : State) (i : Nat) (f : Island → Island) :
    (s.onIsland i f).island i = f (s.island i) := look_upd_same _ _ _ _
theorem State.onIsland_island_ne (s : State) {i k : Nat} (f : Island → Island) (h : k ≠ i) :
    (s.onIsland i f).island k = s.island k := look_upd_ne _ _ _ h

@[simp] theorem State.setRing_ring_same (s : State) (fn k q : Nat) (r : Ring) : (s.setRing fn k q r).ring fn k q = r :=
  look_put_same _ _ _ _
@[simp] theorem State.setCell_block (s : State) (c : Nat) (x : Cell) (j : Nat) : (s.setCell c x).block j = s.block j := rfl
@[simp] theorem State.setCell_part (s : State) (c : Nat) (x : Cell) (j : Nat) : (s.setCell c x).part j = s.part j := rfl
@[simp] theorem State.setCell_stack (s : State) (c : Nat) (x : Cell) (j : Nat) : (s.setCell c x).stack j = s.stack j := rfl
@[simp] theorem State.setCell_port (s : State) (c : Nat) (x : Cell) (j : Nat) : (s.setCell c x).port j = s.port j := rfl
@[simp] theorem State.setCell_shadow (s : State) (c : Nat) (x : Cell) (j : Nat) : (s.setCell c x).shadow j = s.shadow j := rfl
@[simp] theorem State.setCell_island (s : State) (c : Nat) (x : Cell) (j : Nat) : (s.setCell c x).island j = s.island j := rfl
@[simp] theorem State.setBlock_cell (s : State) (c : Nat) (x : Block) (j : Nat) : (s.setBlock c x).cell j = s.cell j := rfl
@[simp] theorem State.setBlock_part (s : State) (c : Nat) (x : Block) (j : Nat) : (s.setBlock c x).part j = s.part j := rfl
@[simp] theorem State.setBlock_stack (s : State) (c : Nat) (x : Block) (j : Nat) : (s.setBlock c x).stack j = s.stack j := rfl
@[simp] theorem State.setBlock_port (s : State) (c : Nat) (x : Block) (j : Nat) : (s.setBlock c x).port j = s.port j := rfl
@[simp] theorem State.setBlock_shadow (s : State) (c : Nat) (x : Block) (j : Nat) : (s.setBlock c x).shadow j = s.shadow j := rfl
@[simp] theorem State.setBlock_island (s : State) (c : Nat) (x : Block) (j : Nat) : (s.setBlock c x).island j = s.island j := rfl
@[simp] theorem State.setPart_cell (s : State) (c : Nat) (x : Part) (j : Nat) : (s.setPart c x).cell j = s.cell j := rfl
@[simp] theorem State.setPart_block (s : State) (c : Nat) (x : Part) (j : Nat) : (s.setPart c x).block j = s.block j := rfl
@[simp] theorem State.setPart_stack (s : State) (c : Nat) (x : Part) (j : Nat) : (s.setPart c x).stack j = s.stack j := rfl
@[simp] theorem State.setPart_port (s : State) (c : Nat) (x : Part) (j : Nat) : (s.setPart c x).port j = s.port j := rfl
@[simp] theorem State.setPart_shadow (s : State) (c : Nat) (x : Part) (j : Nat) : (s.setPart c x).shadow j = s.shadow j := rfl
@[simp] theorem State.setPart_island (s : State) (c : Nat) (x : Part) (j : Nat) : (s.setPart c x).island j = s.island j := rfl
@[simp] theorem State.onCell_block (s : State) (c : Nat) (f : Cell → Cell) (j : Nat) : (s.onCell c f).block j = s.block j := rfl
@[simp] theorem State.onCell_part (s : State) (c : Nat) (f : Cell → Cell) (j : Nat) : (s.onCell c f).part j = s.part j := rfl
@[simp] theorem State.onCell_stack (s : State) (c : Nat) (f : Cell → Cell) (j : Nat) : (s.onCell c f).stack j = s.stack j := rfl
@[simp] theorem State.onCell_port (s : State) (c : Nat) (f : Cell → Cell) (j : Nat) : (s.onCell c f).port j = s.port j := rfl
@[simp] theorem State.onCell_shadow (s : State) (c : Nat) (f : Cell → Cell) (j : Nat) : (s.onCell c f).shadow j = s.shadow j := rfl
@[simp] theorem State.onCell_island (s : State) (c : Nat) (f : Cell → Cell) (j : Nat) : (s.onCell c f).island j = s.island j := rfl
@[simp] theorem State.onBlock_cell (s : State) (c : Nat) (f : Block → Block) (j : Nat) : (s.onBlock c f).cell j = s.cell j := rfl
@[simp] theorem State.onBlock_part (s : State) (c : Nat) (f : Block → Block) (j : Nat) : (s.onBlock c f).part j = s.part j := rfl
@[simp] theorem State.onBlock_stack (s : State) (c : Nat) (f : Block → Block) (j : Nat) : (s.onBlock c f).stack j = s.stack j := rfl
@[simp] theorem State.onBlock_port (s : State) (c : Nat) (f : Block → Block) (j : Nat) : (s.onBlock c f).port j = s.port j := rfl
@[simp] theorem State.onBlock_shadow (s : State) (c : Nat) (f : Block → Block) (j : Nat) : (s.onBlock c f).shadow j = s.shadow j := rfl
@[simp] theorem State.onBlock_island (s : State) (c : Nat) (f : Block → Block) (j : Nat) : (s.onBlock c f).island j = s.island j := rfl
@[simp] theorem State.onPart_cell (s : State) (c : Nat) (f : Part → Part) (j : Nat) : (s.onPart c f).cell j = s.cell j := rfl
@[simp] theorem State.onPart_block (s : State) (c : Nat) (f : Part → Part) (j : Nat) : (s.onPart c f).block j = s.block j := rfl
@[simp] theorem State.onPart_stack (s : State) (c : Nat) (f : Part → Part) (j : Nat) : (s.onPart c f).stack j = s.stack j := rfl
@[simp] theorem State.onPart_port (s : State) (c : Nat) (f : Part → Part) (j : Nat) : (s.onPart c f).port j = s.port j := rfl
@[simp] theorem State.onPart_shadow (s : State) (c : Nat) (f : Part → Part) (j : Nat) : (s.onPart c f).shadow j = s.shadow j := rfl
@[simp] theorem State.onPart_island (s : State) (c : Nat) (f : Part → Part) (j : Nat) : (s.onPart c f).island j = s.island j := rfl
@[simp] theorem State.onStack_cell (s : State) (c : Nat) (f : Stack → Stack) (j : Nat) : (s.onStack c f).cell j = s.cell j := rfl
@[simp] theorem State.onStack_block (s : State) (c : Nat) (f : Stack → Stack) (j : Nat) : (s.onStack c f).block j = s.block j := rfl
@[simp] theorem State.onStack_part (s : State) (c : Nat) (f : Stack → Stack) (j : Nat) : (s.onStack c f).part j = s.part j := rfl
@[simp] theorem State.onStack_port (s : State) (c : Nat) (f : Stack → Stack) (j : Nat) : (s.onStack c f).port j = s.port j := rfl
@[simp] theorem State.onStack_shadow (s : State) (c : Nat) (f : Stack → Stack) (j : Nat) : (s.onStack c f).shadow j = s.shadow j := rfl
@[simp] theorem State.onStack_island (s : State) (c : Nat) (f : Stack → Stack) (j : Nat) : (s.onStack c f).island j = s.island j := rfl
@[simp] theorem State.onPort_cell (s : State) (c : Nat) (f : Port → Port) (j : Nat) : (s.onPort c f).cell j = s.cell j := rfl
@[simp] theorem State.onPort_block (s : State) (c : Nat) (f : Port → Port) (j : Nat) : (s.onPort c f).block j = s.block j := rfl
@[simp] theorem State.onPort_part (s : State) (c : Nat) (f : Port → Port) (j : Nat) : (s.onPort c f).part j = s.part j := rfl
@[simp] theorem State.onPort_stack (s : State) (c : Nat) (f : Port → Port) (j : Nat) : (s.onPort c f).stack j = s.stack j := rfl
@[simp] theorem State.onPort_shadow (s : State) (c : Nat) (f : Port → Port) (j : Nat) : (s.onPort c f).shadow j = s.shadow j := rfl
@[simp] theorem State.onPort_island (s : State) (c : Nat) (f : Port → Port) (j : Nat) : (s.onPort c f).island j = s.island j := rfl
@[simp] theorem State.onShadow_cell (s : State) (c : Nat) (f : Shadow → Shadow) (j : Nat) : (s.onShadow c f).cell j = s.cell j := rfl
@[simp] theorem State.onShadow_block (s : State) (c : Nat) (f : Shadow → Shadow) (j : Nat) : (s.onShadow c f).block j = s.block j := rfl
@[simp] theorem State.onShadow_part (s : State) (c : Nat) (f : Shadow → Shadow) (j : Nat) : (s.onShadow c f).part j = s.part j := rfl
@[simp] theorem State.onShadow_stack (s : State) (c : Nat) (f : Shadow → Shadow) (j : Nat) : (s.onShadow c f).stack j = s.stack j := rfl
@[simp] theorem State.onShadow_port (s : State) (c : Nat) (f : Shadow → Shadow) (j : Nat) : (s.onShadow c f).port j = s.port j := rfl
@[simp] theorem State.onShadow_island (s : State) (c : Nat) (f : Shadow → Shadow) (j : Nat) : (s.onShadow c f).island j = s.island j := rfl
@[simp] theorem State.onIsland_cell (s : State) (c : Nat) (f : Island → Island) (j : Nat) : (s.onIsland c f).cell j = s.cell j := rfl
@[simp] theorem State.onIsland_block (s : State) (c : Nat) (f : Island → Island) (j : Nat) : (s.onIsland c f).block j = s.block j := rfl
@[simp] theorem State.onIsland_part (s : State) (c : Nat) (f : Island → Island) (j : Nat) : (s.onIsland c f).part j = s.part j := rfl
@[simp] theorem State.onIsland_stack (s : State) (c : Nat) (f : Island → Island) (j : Nat) : (s.onIsland c f).stack j = s.stack j := rfl
@[simp] theorem State.onIsland_port (s : State) (c : Nat) (f : Island → Island) (j : Nat) : (s.onIsland c f).port j = s.port j := rfl
@[simp] theorem State.onIsland_shadow (s : State) (c : Nat) (f : Island → Island) (j : Nat) : (s.onIsland c f).shadow j = s.shadow j := rfl
@[simp] theorem State.raise_cell (s : State) (r : Raise) (j : Nat) : (s.raise r).cell j = s.cell j := rfl
@[simp] theorem State.raise_block (s : State) (r : Raise) (j : Nat) : (s.raise r).block j = s.block j := rfl
@[simp] theorem State.raise_part (s : State) (r : Raise) (j : Nat) : (s.raise r).part j = s.part j := rfl
@[simp] theorem State.raise_stack (s : State) (r : Raise) (j : Nat) : (s.raise r).stack j = s.stack j := rfl
@[simp] theorem State.raise_port (s : State) (r : Raise) (j : Nat) : (s.raise r).port j = s.port j := rfl
@[simp] theorem State.raise_shadow (s : State) (r : Raise) (j : Nat) : (s.raise r).shadow j = s.shadow j := rfl
@[simp] theorem State.raise_island (s : State) (r : Raise) (j : Nat) : (s.raise r).island j = s.island j := rfl
@[simp] theorem State.send_cell (s : State) (m : Sent) (j : Nat) : (s.send m).cell j = s.cell j := rfl
@[simp] theorem State.send_block (s : State) (m : Sent) (j : Nat) : (s.send m).block j = s.block j := rfl
@[simp] theorem State.send_part (s : State) (m : Sent) (j : Nat) : (s.send m).part j = s.part j := rfl
@[simp] theorem State.send_stack (s : State) (m : Sent) (j : Nat) : (s.send m).stack j = s.stack j := rfl
@[simp] theorem State.send_port (s : State) (m : Sent) (j : Nat) : (s.send m).port j = s.port j := rfl
@[simp] theorem State.send_shadow (s : State) (m : Sent) (j : Nat) : (s.send m).shadow j = s.shadow j := rfl
@[simp] theorem State.send_island (s : State) (m : Sent) (j : Nat) : (s.send m).island j = s.island j := rfl
@[simp] theorem State.count_cell (s : State) (l e n : Nat) (j : Nat) : (s.count l e n).cell j = s.cell j := rfl
@[simp] theorem State.count_block (s : State) (l e n : Nat) (j : Nat) : (s.count l e n).block j = s.block j := rfl
@[simp] theorem State.count_part (s : State) (l e n : Nat) (j : Nat) : (s.count l e n).part j = s.part j := rfl
@[simp] theorem State.count_stack (s : State) (l e n : Nat) (j : Nat) : (s.count l e n).stack j = s.stack j := rfl
@[simp] theorem State.count_port (s : State) (l e n : Nat) (j : Nat) : (s.count l e n).port j = s.port j := rfl
@[simp] theorem State.count_shadow (s : State) (l e n : Nat) (j : Nat) : (s.count l e n).shadow j = s.shadow j := rfl
@[simp] theorem State.count_island (s : State) (l e n : Nat) (j : Nat) : (s.count l e n).island j = s.island j := rfl
@[simp] theorem State.setRing_cell (s : State) (fn k q : Nat) (r : Ring) (j : Nat) : (s.setRing fn k q r).cell j = s.cell j := rfl
@[simp] theorem State.setRing_block (s : State) (fn k q : Nat) (r : Ring) (j : Nat) : (s.setRing fn k q r).block j = s.block j := rfl
@[simp] theorem State.setRing_part (s : State) (fn k q : Nat) (r : Ring) (j : Nat) : (s.setRing fn k q r).part j = s.part j := rfl
@[simp] theorem State.setRing_stack (s : State) (fn k q : Nat) (r : Ring) (j : Nat) : (s.setRing fn k q r).stack j = s.stack j := rfl
@[simp] theorem State.setRing_port (s : State) (fn k q : Nat) (r : Ring) (j : Nat) : (s.setRing fn k q r).port j = s.port j := rfl
@[simp] theorem State.setRing_shadow (s : State) (fn k q : Nat) (r : Ring) (j : Nat) : (s.setRing fn k q r).shadow j = s.shadow j := rfl
@[simp] theorem State.setRing_island (s : State) (fn k q : Nat) (r : Ring) (j : Nat) : (s.setRing fn k q r).island j = s.island j := rfl

/-! ### Events, audit entries, completions -/

/-- All that `State.signal` changes. -/
theorem State.signal_frame (s : State) (fn k v : Nat) :
    s.signal fn k v = { s with msixWait := (s.signal fn k v).msixWait, out := (s.signal fn k v).out } := by
  unfold State.signal
  split <;> rfl

/-- A signal changes no ring. -/
theorem State.signal_rings (s : State) (fn k v : Nat) : (s.signal fn k v).rings = s.rings := by rw [s.signal_frame fn k v]

/-- All that `State.eventTo` changes. -/
theorem State.eventTo_frame (s : State) (fn k : Nat) (e : Event) :
    s.eventTo fn k e = { s with rings := (s.eventTo fn k e).rings, msixWait := (s.eventTo fn k e).msixWait, out := (s.eventTo fn k e).out } := by
  unfold State.eventTo
  simp only []
  split
  · rfl
  · split
    · rw [State.signal_frame]; rfl
    · rfl
@[simp] theorem State.eventTo_pending (s : State) (fn k : Nat) (e : Event) : (s.eventTo fn k e).pending = s.pending :=
  (congrArg State.pending (s.eventTo_frame fn k e) :)
@[simp] theorem State.eventTo_cycle (s : State) (fn k : Nat) (e : Event) : (s.eventTo fn k e).cycle = s.cycle :=
  (congrArg State.cycle (s.eventTo_frame fn k e) :)
@[simp] theorem State.eventTo_frameNo (s : State) (fn k : Nat) (e : Event) : (s.eventTo fn k e).frameNo = s.frameNo :=
  (congrArg State.frameNo (s.eventTo_frame fn k e) :)
@[simp] theorem State.eventTo_wallAt (s : State) (fn k : Nat) (e : Event) : (s.eventTo fn k e).wallAt = s.wallAt :=
  (congrArg State.wallAt (s.eventTo_frame fn k e) :)
@[simp] theorem State.eventTo_freeCtr (s : State) (fn k : Nat) (e : Event) : (s.eventTo fn k e).freeCtr = s.freeCtr :=
  (congrArg State.freeCtr (s.eventTo_frame fn k e) :)
@[simp] theorem State.eventTo_nextKey (s : State) (fn k : Nat) (e : Event) : (s.eventTo fn k e).nextKey = s.nextKey :=
  (congrArg State.nextKey (s.eventTo_frame fn k e) :)
@[simp] theorem State.eventTo_cells (s : State) (fn k : Nat) (e : Event) : (s.eventTo fn k e).cells = s.cells :=
  (congrArg State.cells (s.eventTo_frame fn k e) :)
@[simp] theorem State.eventTo_blocks (s : State) (fn k : Nat) (e : Event) : (s.eventTo fn k e).blocks = s.blocks :=
  (congrArg State.blocks (s.eventTo_frame fn k e) :)
@[simp] theorem State.eventTo_stks (s : State) (fn k : Nat) (e : Event) : (s.eventTo fn k e).stks = s.stks :=
  (congrArg State.stks (s.eventTo_frame fn k e) :)
@[simp] theorem State.eventTo_cold (s : State) (fn k : Nat) (e : Event) : (s.eventTo fn k e).cold = s.cold :=
  (congrArg State.cold (s.eventTo_frame fn k e) :)
@[simp] theorem State.eventTo_parts (s : State) (fn k : Nat) (e : Event) : (s.eventTo fn k e).parts = s.parts :=
  (congrArg State.parts (s.eventTo_frame fn k e) :)
@[simp] theorem State.eventTo_raised (s : State) (fn k : Nat) (e : Event) : (s.eventTo fn k e).raised = s.raised :=
  (congrArg State.raised (s.eventTo_frame fn k e) :)
@[simp] theorem State.eventTo_counters (s : State) (fn k : Nat) (e : Event) : (s.eventTo fn k e).counters = s.counters :=
  (congrArg State.counters (s.eventTo_frame fn k e) :)
@[simp] theorem State.eventTo_retired (s : State) (fn k : Nat) (e : Event) : (s.eventTo fn k e).retired = s.retired :=
  (congrArg State.retired (s.eventTo_frame fn k e) :)
@[simp] theorem State.eventTo_ports (s : State) (fn k : Nat) (e : Event) : (s.eventTo fn k e).ports = s.ports :=
  (congrArg State.ports (s.eventTo_frame fn k e) :)
@[simp] theorem State.eventTo_fab (s : State) (fn k : Nat) (e : Event) : (s.eventTo fn k e).fab = s.fab :=
  (congrArg State.fab (s.eventTo_frame fn k e) :)
@[simp] theorem State.eventTo_shadows (s : State) (fn k : Nat) (e : Event) : (s.eventTo fn k e).shadows = s.shadows :=
  (congrArg State.shadows (s.eventTo_frame fn k e) :)
@[simp] theorem State.eventTo_tu (s : State) (fn k : Nat) (e : Event) : (s.eventTo fn k e).tu = s.tu :=
  (congrArg State.tu (s.eventTo_frame fn k e) :)
@[simp] theorem State.eventTo_islands (s : State) (fn k : Nat) (e : Event) : (s.eventTo fn k e).islands = s.islands :=
  (congrArg State.islands (s.eventTo_frame fn k e) :)
@[simp] theorem State.eventTo_pwr (s : State) (fn k : Nat) (e : Event) : (s.eventTo fn k e).pwr = s.pwr :=
  (congrArg State.pwr (s.eventTo_frame fn k e) :)
@[simp] theorem State.eventTo_seqr (s : State) (fn k : Nat) (e : Event) : (s.eventTo fn k e).seqr = s.seqr :=
  (congrArg State.seqr (s.eventTo_frame fn k e) :)
@[simp] theorem State.eventTo_keys (s : State) (fn k : Nat) (e : Event) : (s.eventTo fn k e).keys = s.keys :=
  (congrArg State.keys (s.eventTo_frame fn k e) :)
@[simp] theorem State.eventTo_sessions (s : State) (fn k : Nat) (e : Event) : (s.eventTo fn k e).sessions = s.sessions :=
  (congrArg State.sessions (s.eventTo_frame fn k e) :)
@[simp] theorem State.eventTo_openFail (s : State) (fn k : Nat) (e : Event) : (s.eventTo fn k e).openFail = s.openFail :=
  (congrArg State.openFail (s.eventTo_frame fn k e) :)
@[simp] theorem State.eventTo_audit (s : State) (fn k : Nat) (e : Event) : (s.eventTo fn k e).audit = s.audit :=
  (congrArg State.audit (s.eventTo_frame fn k e) :)
@[simp] theorem State.eventTo_auditIdx (s : State) (fn k : Nat) (e : Event) : (s.eventTo fn k e).auditIdx = s.auditIdx :=
  (congrArg State.auditIdx (s.eventTo_frame fn k e) :)
@[simp] theorem State.eventTo_auditHead (s : State) (fn k : Nat) (e : Event) : (s.eventTo fn k e).auditHead = s.auditHead :=
  (congrArg State.auditHead (s.eventTo_frame fn k e) :)
@[simp] theorem State.eventTo_checks (s : State) (fn k : Nat) (e : Event) : (s.eventTo fn k e).checks = s.checks :=
  (congrArg State.checks (s.eventTo_frame fn k e) :)
@[simp] theorem State.eventTo_openSec (s : State) (fn k : Nat) (e : Event) : (s.eventTo fn k e).openSec = s.openSec :=
  (congrArg State.openSec (s.eventTo_frame fn k e) :)
@[simp] theorem State.eventTo_mute (s : State) (fn k : Nat) (e : Event) : (s.eventTo fn k e).mute = s.mute :=
  (congrArg State.mute (s.eventTo_frame fn k e) :)
@[simp] theorem State.eventTo_spFw (s : State) (fn k : Nat) (e : Event) : (s.eventTo fn k e).spFw = s.spFw :=
  (congrArg State.spFw (s.eventTo_frame fn k e) :)
@[simp] theorem State.eventTo_mgFw (s : State) (fn k : Nat) (e : Event) : (s.eventTo fn k e).mgFw = s.mgFw :=
  (congrArg State.mgFw (s.eventTo_frame fn k e) :)
@[simp] theorem State.eventTo_spRun (s : State) (fn k : Nat) (e : Event) : (s.eventTo fn k e).spRun = s.spRun :=
  (congrArg State.spRun (s.eventTo_frame fn k e) :)
@[simp] theorem State.eventTo_mgRun (s : State) (fn k : Nat) (e : Event) : (s.eventTo fn k e).mgRun = s.mgRun :=
  (congrArg State.mgRun (s.eventTo_frame fn k e) :)
@[simp] theorem State.eventTo_mgmtDown (s : State) (fn k : Nat) (e : Event) : (s.eventTo fn k e).mgmtDown = s.mgmtDown :=
  (congrArg State.mgmtDown (s.eventTo_frame fn k e) :)
@[simp] theorem State.eventTo_boot (s : State) (fn k : Nat) (e : Event) : (s.eventTo fn k e).boot = s.boot :=
  (congrArg State.boot (s.eventTo_frame fn k e) :)
@[simp] theorem State.eventTo_io (s : State) (fn k : Nat) (e : Event) : (s.eventTo fn k e).io = s.io :=
  (congrArg State.io (s.eventTo_frame fn k e) :)
@[simp] theorem State.eventTo_fuses (s : State) (fn k : Nat) (e : Event) : (s.eventTo fn k e).fuses = s.fuses :=
  (congrArg State.fuses (s.eventTo_frame fn k e) :)
@[simp] theorem State.eventTo_msix (s : State) (fn k : Nat) (e : Event) : (s.eventTo fn k e).msix = s.msix :=
  (congrArg State.msix (s.eventTo_frame fn k e) :)
@[simp] theorem State.eventTo_inProg (s : State) (fn k : Nat) (e : Event) : (s.eventTo fn k e).inProg = s.inProg :=
  (congrArg State.inProg (s.eventTo_frame fn k e) :)
@[simp] theorem State.eventTo_errs (s : State) (fn k : Nat) (e : Event) : (s.eventTo fn k e).errs = s.errs :=
  (congrArg State.errs (s.eventTo_frame fn k e) :)
@[simp] theorem State.eventTo_errNext (s : State) (fn k : Nat) (e : Event) : (s.eventTo fn k e).errNext = s.errNext :=
  (congrArg State.errNext (s.eventTo_frame fn k e) :)
@[simp] theorem State.eventTo_flashErr (s : State) (fn k : Nat) (e : Event) : (s.eventTo fn k e).flashErr = s.flashErr :=
  (congrArg State.flashErr (s.eventTo_frame fn k e) :)
@[simp] theorem State.eventTo_pFaults (s : State) (fn k : Nat) (e : Event) : (s.eventTo fn k e).pFaults = s.pFaults :=
  (congrArg State.pFaults (s.eventTo_frame fn k e) :)
@[simp] theorem State.eventTo_jFaults (s : State) (fn k : Nat) (e : Event) : (s.eventTo fn k e).jFaults = s.jFaults :=
  (congrArg State.jFaults (s.eventTo_frame fn k e) :)
@[simp] theorem State.eventTo_health (s : State) (fn k : Nat) (e : Event) : (s.eventTo fn k e).health = s.health :=
  (congrArg State.health (s.eventTo_frame fn k e) :)
@[simp] theorem State.eventTo_cnt (s : State) (fn k : Nat) (e : Event) : (s.eventTo fn k e).cnt = s.cnt :=
  (congrArg State.cnt (s.eventTo_frame fn k e) :)
@[simp] theorem State.eventTo_round (s : State) (fn k : Nat) (e : Event) : (s.eventTo fn k e).round = s.round :=
  (congrArg State.round (s.eventTo_frame fn k e) :)
@[simp] theorem State.eventTo_calFlash (s : State) (fn k : Nat) (e : Event) : (s.eventTo fn k e).calFlash = s.calFlash :=
  (congrArg State.calFlash (s.eventTo_frame fn k e) :)
@[simp] theorem State.eventTo_calLoad (s : State) (fn k : Nat) (e : Event) : (s.eventTo fn k e).calLoad = s.calLoad :=
  (congrArg State.calLoad (s.eventTo_frame fn k e) :)
@[simp] theorem State.eventTo_mgrDrop (s : State) (fn k : Nat) (e : Event) : (s.eventTo fn k e).mgrDrop = s.mgrDrop :=
  (congrArg State.mgrDrop (s.eventTo_frame fn k e) :)
@[simp] theorem State.eventTo_detachCmd (s : State) (fn k : Nat) (e : Event) : (s.eventTo fn k e).detachCmd = s.detachCmd :=
  (congrArg State.detachCmd (s.eventTo_frame fn k e) :)
@[simp] theorem State.eventTo_taken (s : State) (fn k : Nat) (e : Event) : (s.eventTo fn k e).taken = s.taken :=
  (congrArg State.taken (s.eventTo_frame fn k e) :)
@[simp] theorem State.eventTo_rota (s : State) (fn k : Nat) (e : Event) : (s.eventTo fn k e).rota = s.rota :=
  (congrArg State.rota (s.eventTo_frame fn k e) :)
@[simp] theorem State.eventTo_rotaSet (s : State) (fn k : Nat) (e : Event) : (s.eventTo fn k e).rotaSet = s.rotaSet :=
  (congrArg State.rotaSet (s.eventTo_frame fn k e) :)

/-- All that `State.event` changes. -/
theorem State.event_frame (s : State) (kind part : Nat) (args : List Nat) :
    s.event kind part args = { s with rings := (s.event kind part args).rings, msixWait := (s.event kind part args).msixWait, out := (s.event kind part args).out } := by
  have h : ∀ (s : State) (fn k : Nat) (e : Event), ∃ r w o, s.eventTo fn k e = { s with rings := r, msixWait := w, out := o } :=
    fun s fn k e => ⟨_, _, _, s.eventTo_frame fn k e⟩
  unfold State.event
  simp only []
  split
  · rfl
  · split
    · obtain ⟨_, _, _, h1⟩ := h s (part + 1) 0 { kind, part, lost := 0, hallNs := s.hallNow, args }
      rw [h1]
      obtain ⟨_, _, _, h2⟩ := h _ (part + 1) 1 { kind, part, lost := 0, hallNs := s.hallNow, args }
      rw [h2]
      obtain ⟨_, _, _, h3⟩ := h _ 0 0 { kind, part, lost := 0, hallNs := s.hallNow, args }
      rw [h3]
      obtain ⟨_, _, _, h4⟩ := h _ 0 1 { kind, part, lost := 0, hallNs := s.hallNow, args }
      rw [h4]
    · obtain ⟨_, _, _, h3⟩ := h s 0 0 { kind, part, lost := 0, hallNs := s.hallNow, args }
      rw [h3]
      obtain ⟨_, _, _, h4⟩ := h _ 0 1 { kind, part, lost := 0, hallNs := s.hallNow, args }
      rw [h4]
@[simp] theorem State.event_pending (s : State) (kind part : Nat) (args : List Nat) : (s.event kind part args).pending = s.pending :=
  (congrArg State.pending (s.event_frame kind part args) :)
@[simp] theorem State.event_cycle (s : State) (kind part : Nat) (args : List Nat) : (s.event kind part args).cycle = s.cycle :=
  (congrArg State.cycle (s.event_frame kind part args) :)
@[simp] theorem State.event_frameNo (s : State) (kind part : Nat) (args : List Nat) : (s.event kind part args).frameNo = s.frameNo :=
  (congrArg State.frameNo (s.event_frame kind part args) :)
@[simp] theorem State.event_wallAt (s : State) (kind part : Nat) (args : List Nat) : (s.event kind part args).wallAt = s.wallAt :=
  (congrArg State.wallAt (s.event_frame kind part args) :)
@[simp] theorem State.event_freeCtr (s : State) (kind part : Nat) (args : List Nat) : (s.event kind part args).freeCtr = s.freeCtr :=
  (congrArg State.freeCtr (s.event_frame kind part args) :)
@[simp] theorem State.event_nextKey (s : State) (kind part : Nat) (args : List Nat) : (s.event kind part args).nextKey = s.nextKey :=
  (congrArg State.nextKey (s.event_frame kind part args) :)
@[simp] theorem State.event_cells (s : State) (kind part : Nat) (args : List Nat) : (s.event kind part args).cells = s.cells :=
  (congrArg State.cells (s.event_frame kind part args) :)
@[simp] theorem State.event_blocks (s : State) (kind part : Nat) (args : List Nat) : (s.event kind part args).blocks = s.blocks :=
  (congrArg State.blocks (s.event_frame kind part args) :)
@[simp] theorem State.event_stks (s : State) (kind part : Nat) (args : List Nat) : (s.event kind part args).stks = s.stks :=
  (congrArg State.stks (s.event_frame kind part args) :)
@[simp] theorem State.event_cold (s : State) (kind part : Nat) (args : List Nat) : (s.event kind part args).cold = s.cold :=
  (congrArg State.cold (s.event_frame kind part args) :)
@[simp] theorem State.event_parts (s : State) (kind part : Nat) (args : List Nat) : (s.event kind part args).parts = s.parts :=
  (congrArg State.parts (s.event_frame kind part args) :)
@[simp] theorem State.event_raised (s : State) (kind part : Nat) (args : List Nat) : (s.event kind part args).raised = s.raised :=
  (congrArg State.raised (s.event_frame kind part args) :)
@[simp] theorem State.event_counters (s : State) (kind part : Nat) (args : List Nat) : (s.event kind part args).counters = s.counters :=
  (congrArg State.counters (s.event_frame kind part args) :)
@[simp] theorem State.event_retired (s : State) (kind part : Nat) (args : List Nat) : (s.event kind part args).retired = s.retired :=
  (congrArg State.retired (s.event_frame kind part args) :)
@[simp] theorem State.event_ports (s : State) (kind part : Nat) (args : List Nat) : (s.event kind part args).ports = s.ports :=
  (congrArg State.ports (s.event_frame kind part args) :)
@[simp] theorem State.event_fab (s : State) (kind part : Nat) (args : List Nat) : (s.event kind part args).fab = s.fab :=
  (congrArg State.fab (s.event_frame kind part args) :)
@[simp] theorem State.event_shadows (s : State) (kind part : Nat) (args : List Nat) : (s.event kind part args).shadows = s.shadows :=
  (congrArg State.shadows (s.event_frame kind part args) :)
@[simp] theorem State.event_tu (s : State) (kind part : Nat) (args : List Nat) : (s.event kind part args).tu = s.tu :=
  (congrArg State.tu (s.event_frame kind part args) :)
@[simp] theorem State.event_islands (s : State) (kind part : Nat) (args : List Nat) : (s.event kind part args).islands = s.islands :=
  (congrArg State.islands (s.event_frame kind part args) :)
@[simp] theorem State.event_pwr (s : State) (kind part : Nat) (args : List Nat) : (s.event kind part args).pwr = s.pwr :=
  (congrArg State.pwr (s.event_frame kind part args) :)
@[simp] theorem State.event_seqr (s : State) (kind part : Nat) (args : List Nat) : (s.event kind part args).seqr = s.seqr :=
  (congrArg State.seqr (s.event_frame kind part args) :)
@[simp] theorem State.event_keys (s : State) (kind part : Nat) (args : List Nat) : (s.event kind part args).keys = s.keys :=
  (congrArg State.keys (s.event_frame kind part args) :)
@[simp] theorem State.event_sessions (s : State) (kind part : Nat) (args : List Nat) : (s.event kind part args).sessions = s.sessions :=
  (congrArg State.sessions (s.event_frame kind part args) :)
@[simp] theorem State.event_openFail (s : State) (kind part : Nat) (args : List Nat) : (s.event kind part args).openFail = s.openFail :=
  (congrArg State.openFail (s.event_frame kind part args) :)
@[simp] theorem State.event_audit (s : State) (kind part : Nat) (args : List Nat) : (s.event kind part args).audit = s.audit :=
  (congrArg State.audit (s.event_frame kind part args) :)
@[simp] theorem State.event_auditIdx (s : State) (kind part : Nat) (args : List Nat) : (s.event kind part args).auditIdx = s.auditIdx :=
  (congrArg State.auditIdx (s.event_frame kind part args) :)
@[simp] theorem State.event_auditHead (s : State) (kind part : Nat) (args : List Nat) : (s.event kind part args).auditHead = s.auditHead :=
  (congrArg State.auditHead (s.event_frame kind part args) :)
@[simp] theorem State.event_checks (s : State) (kind part : Nat) (args : List Nat) : (s.event kind part args).checks = s.checks :=
  (congrArg State.checks (s.event_frame kind part args) :)
@[simp] theorem State.event_openSec (s : State) (kind part : Nat) (args : List Nat) : (s.event kind part args).openSec = s.openSec :=
  (congrArg State.openSec (s.event_frame kind part args) :)
@[simp] theorem State.event_mute (s : State) (kind part : Nat) (args : List Nat) : (s.event kind part args).mute = s.mute :=
  (congrArg State.mute (s.event_frame kind part args) :)
@[simp] theorem State.event_spFw (s : State) (kind part : Nat) (args : List Nat) : (s.event kind part args).spFw = s.spFw :=
  (congrArg State.spFw (s.event_frame kind part args) :)
@[simp] theorem State.event_mgFw (s : State) (kind part : Nat) (args : List Nat) : (s.event kind part args).mgFw = s.mgFw :=
  (congrArg State.mgFw (s.event_frame kind part args) :)
@[simp] theorem State.event_spRun (s : State) (kind part : Nat) (args : List Nat) : (s.event kind part args).spRun = s.spRun :=
  (congrArg State.spRun (s.event_frame kind part args) :)
@[simp] theorem State.event_mgRun (s : State) (kind part : Nat) (args : List Nat) : (s.event kind part args).mgRun = s.mgRun :=
  (congrArg State.mgRun (s.event_frame kind part args) :)
@[simp] theorem State.event_mgmtDown (s : State) (kind part : Nat) (args : List Nat) : (s.event kind part args).mgmtDown = s.mgmtDown :=
  (congrArg State.mgmtDown (s.event_frame kind part args) :)
@[simp] theorem State.event_boot (s : State) (kind part : Nat) (args : List Nat) : (s.event kind part args).boot = s.boot :=
  (congrArg State.boot (s.event_frame kind part args) :)
@[simp] theorem State.event_io (s : State) (kind part : Nat) (args : List Nat) : (s.event kind part args).io = s.io :=
  (congrArg State.io (s.event_frame kind part args) :)
@[simp] theorem State.event_fuses (s : State) (kind part : Nat) (args : List Nat) : (s.event kind part args).fuses = s.fuses :=
  (congrArg State.fuses (s.event_frame kind part args) :)
@[simp] theorem State.event_msix (s : State) (kind part : Nat) (args : List Nat) : (s.event kind part args).msix = s.msix :=
  (congrArg State.msix (s.event_frame kind part args) :)
@[simp] theorem State.event_inProg (s : State) (kind part : Nat) (args : List Nat) : (s.event kind part args).inProg = s.inProg :=
  (congrArg State.inProg (s.event_frame kind part args) :)
@[simp] theorem State.event_errs (s : State) (kind part : Nat) (args : List Nat) : (s.event kind part args).errs = s.errs :=
  (congrArg State.errs (s.event_frame kind part args) :)
@[simp] theorem State.event_errNext (s : State) (kind part : Nat) (args : List Nat) : (s.event kind part args).errNext = s.errNext :=
  (congrArg State.errNext (s.event_frame kind part args) :)
@[simp] theorem State.event_flashErr (s : State) (kind part : Nat) (args : List Nat) : (s.event kind part args).flashErr = s.flashErr :=
  (congrArg State.flashErr (s.event_frame kind part args) :)
@[simp] theorem State.event_pFaults (s : State) (kind part : Nat) (args : List Nat) : (s.event kind part args).pFaults = s.pFaults :=
  (congrArg State.pFaults (s.event_frame kind part args) :)
@[simp] theorem State.event_jFaults (s : State) (kind part : Nat) (args : List Nat) : (s.event kind part args).jFaults = s.jFaults :=
  (congrArg State.jFaults (s.event_frame kind part args) :)
@[simp] theorem State.event_health (s : State) (kind part : Nat) (args : List Nat) : (s.event kind part args).health = s.health :=
  (congrArg State.health (s.event_frame kind part args) :)
@[simp] theorem State.event_cnt (s : State) (kind part : Nat) (args : List Nat) : (s.event kind part args).cnt = s.cnt :=
  (congrArg State.cnt (s.event_frame kind part args) :)
@[simp] theorem State.event_round (s : State) (kind part : Nat) (args : List Nat) : (s.event kind part args).round = s.round :=
  (congrArg State.round (s.event_frame kind part args) :)
@[simp] theorem State.event_calFlash (s : State) (kind part : Nat) (args : List Nat) : (s.event kind part args).calFlash = s.calFlash :=
  (congrArg State.calFlash (s.event_frame kind part args) :)
@[simp] theorem State.event_calLoad (s : State) (kind part : Nat) (args : List Nat) : (s.event kind part args).calLoad = s.calLoad :=
  (congrArg State.calLoad (s.event_frame kind part args) :)
@[simp] theorem State.event_mgrDrop (s : State) (kind part : Nat) (args : List Nat) : (s.event kind part args).mgrDrop = s.mgrDrop :=
  (congrArg State.mgrDrop (s.event_frame kind part args) :)
@[simp] theorem State.event_detachCmd (s : State) (kind part : Nat) (args : List Nat) : (s.event kind part args).detachCmd = s.detachCmd :=
  (congrArg State.detachCmd (s.event_frame kind part args) :)
@[simp] theorem State.event_taken (s : State) (kind part : Nat) (args : List Nat) : (s.event kind part args).taken = s.taken :=
  (congrArg State.taken (s.event_frame kind part args) :)
@[simp] theorem State.event_rota (s : State) (kind part : Nat) (args : List Nat) : (s.event kind part args).rota = s.rota :=
  (congrArg State.rota (s.event_frame kind part args) :)
@[simp] theorem State.event_rotaSet (s : State) (kind part : Nat) (args : List Nat) : (s.event kind part args).rotaSet = s.rotaSet :=
  (congrArg State.rotaSet (s.event_frame kind part args) :)

theorem State.auditOne_ex (s : State) (e : Audit) : ∃ c h a i d,
    s.auditOne e = { s with counters := c, health := h, audit := a, auditIdx := i, auditHead := d } :=
  ⟨_, _, _, _, _, rfl⟩

/-- All that `State.auditOne` changes. -/
theorem State.auditOne_frame (s : State) (e : Audit) :
    s.auditOne e = { s with counters := (s.auditOne e).counters, health := (s.auditOne e).health, audit := (s.auditOne e).audit, auditIdx := (s.auditOne e).auditIdx, auditHead := (s.auditOne e).auditHead } := by
  obtain ⟨_, _, _, _, _, h⟩ := s.auditOne_ex e
  rw [h]
@[simp] theorem State.auditOne_pending (s : State) (e : Audit) : (s.auditOne e).pending = s.pending :=
  (congrArg State.pending (s.auditOne_frame e) :)
@[simp] theorem State.auditOne_cycle (s : State) (e : Audit) : (s.auditOne e).cycle = s.cycle :=
  (congrArg State.cycle (s.auditOne_frame e) :)
@[simp] theorem State.auditOne_frameNo (s : State) (e : Audit) : (s.auditOne e).frameNo = s.frameNo :=
  (congrArg State.frameNo (s.auditOne_frame e) :)
@[simp] theorem State.auditOne_wallAt (s : State) (e : Audit) : (s.auditOne e).wallAt = s.wallAt :=
  (congrArg State.wallAt (s.auditOne_frame e) :)
@[simp] theorem State.auditOne_freeCtr (s : State) (e : Audit) : (s.auditOne e).freeCtr = s.freeCtr :=
  (congrArg State.freeCtr (s.auditOne_frame e) :)
@[simp] theorem State.auditOne_nextKey (s : State) (e : Audit) : (s.auditOne e).nextKey = s.nextKey :=
  (congrArg State.nextKey (s.auditOne_frame e) :)
@[simp] theorem State.auditOne_out (s : State) (e : Audit) : (s.auditOne e).out = s.out :=
  (congrArg State.out (s.auditOne_frame e) :)
@[simp] theorem State.auditOne_cells (s : State) (e : Audit) : (s.auditOne e).cells = s.cells :=
  (congrArg State.cells (s.auditOne_frame e) :)
@[simp] theorem State.auditOne_blocks (s : State) (e : Audit) : (s.auditOne e).blocks = s.blocks :=
  (congrArg State.blocks (s.auditOne_frame e) :)
@[simp] theorem State.auditOne_stks (s : State) (e : Audit) : (s.auditOne e).stks = s.stks :=
  (congrArg State.stks (s.auditOne_frame e) :)
@[simp] theorem State.auditOne_cold (s : State) (e : Audit) : (s.auditOne e).cold = s.cold :=
  (congrArg State.cold (s.auditOne_frame e) :)
@[simp] theorem State.auditOne_parts (s : State) (e : Audit) : (s.auditOne e).parts = s.parts :=
  (congrArg State.parts (s.auditOne_frame e) :)
@[simp] theorem State.auditOne_raised (s : State) (e : Audit) : (s.auditOne e).raised = s.raised :=
  (congrArg State.raised (s.auditOne_frame e) :)
@[simp] theorem State.auditOne_retired (s : State) (e : Audit) : (s.auditOne e).retired = s.retired :=
  (congrArg State.retired (s.auditOne_frame e) :)
@[simp] theorem State.auditOne_ports (s : State) (e : Audit) : (s.auditOne e).ports = s.ports :=
  (congrArg State.ports (s.auditOne_frame e) :)
@[simp] theorem State.auditOne_fab (s : State) (e : Audit) : (s.auditOne e).fab = s.fab :=
  (congrArg State.fab (s.auditOne_frame e) :)
@[simp] theorem State.auditOne_shadows (s : State) (e : Audit) : (s.auditOne e).shadows = s.shadows :=
  (congrArg State.shadows (s.auditOne_frame e) :)
@[simp] theorem State.auditOne_tu (s : State) (e : Audit) : (s.auditOne e).tu = s.tu :=
  (congrArg State.tu (s.auditOne_frame e) :)
@[simp] theorem State.auditOne_islands (s : State) (e : Audit) : (s.auditOne e).islands = s.islands :=
  (congrArg State.islands (s.auditOne_frame e) :)
@[simp] theorem State.auditOne_pwr (s : State) (e : Audit) : (s.auditOne e).pwr = s.pwr :=
  (congrArg State.pwr (s.auditOne_frame e) :)
@[simp] theorem State.auditOne_seqr (s : State) (e : Audit) : (s.auditOne e).seqr = s.seqr :=
  (congrArg State.seqr (s.auditOne_frame e) :)
@[simp] theorem State.auditOne_keys (s : State) (e : Audit) : (s.auditOne e).keys = s.keys :=
  (congrArg State.keys (s.auditOne_frame e) :)
@[simp] theorem State.auditOne_sessions (s : State) (e : Audit) : (s.auditOne e).sessions = s.sessions :=
  (congrArg State.sessions (s.auditOne_frame e) :)
@[simp] theorem State.auditOne_openFail (s : State) (e : Audit) : (s.auditOne e).openFail = s.openFail :=
  (congrArg State.openFail (s.auditOne_frame e) :)
@[simp] theorem State.auditOne_checks (s : State) (e : Audit) : (s.auditOne e).checks = s.checks :=
  (congrArg State.checks (s.auditOne_frame e) :)
@[simp] theorem State.auditOne_openSec (s : State) (e : Audit) : (s.auditOne e).openSec = s.openSec :=
  (congrArg State.openSec (s.auditOne_frame e) :)
@[simp] theorem State.auditOne_mute (s : State) (e : Audit) : (s.auditOne e).mute = s.mute :=
  (congrArg State.mute (s.auditOne_frame e) :)
@[simp] theorem State.auditOne_spFw (s : State) (e : Audit) : (s.auditOne e).spFw = s.spFw :=
  (congrArg State.spFw (s.auditOne_frame e) :)
@[simp] theorem State.auditOne_mgFw (s : State) (e : Audit) : (s.auditOne e).mgFw = s.mgFw :=
  (congrArg State.mgFw (s.auditOne_frame e) :)
@[simp] theorem State.auditOne_spRun (s : State) (e : Audit) : (s.auditOne e).spRun = s.spRun :=
  (congrArg State.spRun (s.auditOne_frame e) :)
@[simp] theorem State.auditOne_mgRun (s : State) (e : Audit) : (s.auditOne e).mgRun = s.mgRun :=
  (congrArg State.mgRun (s.auditOne_frame e) :)
@[simp] theorem State.auditOne_mgmtDown (s : State) (e : Audit) : (s.auditOne e).mgmtDown = s.mgmtDown :=
  (congrArg State.mgmtDown (s.auditOne_frame e) :)
@[simp] theorem State.auditOne_boot (s : State) (e : Audit) : (s.auditOne e).boot = s.boot :=
  (congrArg State.boot (s.auditOne_frame e) :)
@[simp] theorem State.auditOne_io (s : State) (e : Audit) : (s.auditOne e).io = s.io :=
  (congrArg State.io (s.auditOne_frame e) :)
@[simp] theorem State.auditOne_fuses (s : State) (e : Audit) : (s.auditOne e).fuses = s.fuses :=
  (congrArg State.fuses (s.auditOne_frame e) :)
@[simp] theorem State.auditOne_msix (s : State) (e : Audit) : (s.auditOne e).msix = s.msix :=
  (congrArg State.msix (s.auditOne_frame e) :)
@[simp] theorem State.auditOne_msixWait (s : State) (e : Audit) : (s.auditOne e).msixWait = s.msixWait :=
  (congrArg State.msixWait (s.auditOne_frame e) :)
@[simp] theorem State.auditOne_rings (s : State) (e : Audit) : (s.auditOne e).rings = s.rings :=
  (congrArg State.rings (s.auditOne_frame e) :)
@[simp] theorem State.auditOne_inProg (s : State) (e : Audit) : (s.auditOne e).inProg = s.inProg :=
  (congrArg State.inProg (s.auditOne_frame e) :)
@[simp] theorem State.auditOne_errs (s : State) (e : Audit) : (s.auditOne e).errs = s.errs :=
  (congrArg State.errs (s.auditOne_frame e) :)
@[simp] theorem State.auditOne_errNext (s : State) (e : Audit) : (s.auditOne e).errNext = s.errNext :=
  (congrArg State.errNext (s.auditOne_frame e) :)
@[simp] theorem State.auditOne_flashErr (s : State) (e : Audit) : (s.auditOne e).flashErr = s.flashErr :=
  (congrArg State.flashErr (s.auditOne_frame e) :)
@[simp] theorem State.auditOne_pFaults (s : State) (e : Audit) : (s.auditOne e).pFaults = s.pFaults :=
  (congrArg State.pFaults (s.auditOne_frame e) :)
@[simp] theorem State.auditOne_jFaults (s : State) (e : Audit) : (s.auditOne e).jFaults = s.jFaults :=
  (congrArg State.jFaults (s.auditOne_frame e) :)
@[simp] theorem State.auditOne_cnt (s : State) (e : Audit) : (s.auditOne e).cnt = s.cnt :=
  (congrArg State.cnt (s.auditOne_frame e) :)
@[simp] theorem State.auditOne_round (s : State) (e : Audit) : (s.auditOne e).round = s.round :=
  (congrArg State.round (s.auditOne_frame e) :)
@[simp] theorem State.auditOne_calFlash (s : State) (e : Audit) : (s.auditOne e).calFlash = s.calFlash :=
  (congrArg State.calFlash (s.auditOne_frame e) :)
@[simp] theorem State.auditOne_calLoad (s : State) (e : Audit) : (s.auditOne e).calLoad = s.calLoad :=
  (congrArg State.calLoad (s.auditOne_frame e) :)
@[simp] theorem State.auditOne_mgrDrop (s : State) (e : Audit) : (s.auditOne e).mgrDrop = s.mgrDrop :=
  (congrArg State.mgrDrop (s.auditOne_frame e) :)
@[simp] theorem State.auditOne_detachCmd (s : State) (e : Audit) : (s.auditOne e).detachCmd = s.detachCmd :=
  (congrArg State.detachCmd (s.auditOne_frame e) :)
@[simp] theorem State.auditOne_taken (s : State) (e : Audit) : (s.auditOne e).taken = s.taken :=
  (congrArg State.taken (s.auditOne_frame e) :)
@[simp] theorem State.auditOne_rota (s : State) (e : Audit) : (s.auditOne e).rota = s.rota :=
  (congrArg State.rota (s.auditOne_frame e) :)
@[simp] theorem State.auditOne_rotaSet (s : State) (e : Audit) : (s.auditOne e).rotaSet = s.rotaSet :=
  (congrArg State.rotaSet (s.auditOne_frame e) :)

theorem State.checkpoint_ex (s : State) : ∃ c h a i d k,
    s.checkpoint = { s with counters := c, health := h, audit := a, auditIdx := i, auditHead := d, checks := k } := by
  unfold State.checkpoint
  simp only []
  obtain ⟨_, _, _, _, _, h⟩ := State.auditOne_ex { s with checks := _ } _
  exact ⟨_, _, _, _, _, _, h⟩

/-- All that `State.checkpoint` changes. -/
theorem State.checkpoint_frame (s : State)  :
    s.checkpoint = { s with counters := (s.checkpoint).counters, health := (s.checkpoint).health, audit := (s.checkpoint).audit, auditIdx := (s.checkpoint).auditIdx, auditHead := (s.checkpoint).auditHead, checks := (s.checkpoint).checks } := by
  obtain ⟨_, _, _, _, _, _, h⟩ := s.checkpoint_ex
  rw [h]
@[simp] theorem State.checkpoint_pending (s : State)  : (s.checkpoint).pending = s.pending :=
  (congrArg State.pending (s.checkpoint_frame ) :)
@[simp] theorem State.checkpoint_cycle (s : State)  : (s.checkpoint).cycle = s.cycle :=
  (congrArg State.cycle (s.checkpoint_frame ) :)
@[simp] theorem State.checkpoint_frameNo (s : State)  : (s.checkpoint).frameNo = s.frameNo :=
  (congrArg State.frameNo (s.checkpoint_frame ) :)
@[simp] theorem State.checkpoint_wallAt (s : State)  : (s.checkpoint).wallAt = s.wallAt :=
  (congrArg State.wallAt (s.checkpoint_frame ) :)
@[simp] theorem State.checkpoint_freeCtr (s : State)  : (s.checkpoint).freeCtr = s.freeCtr :=
  (congrArg State.freeCtr (s.checkpoint_frame ) :)
@[simp] theorem State.checkpoint_nextKey (s : State)  : (s.checkpoint).nextKey = s.nextKey :=
  (congrArg State.nextKey (s.checkpoint_frame ) :)
@[simp] theorem State.checkpoint_out (s : State)  : (s.checkpoint).out = s.out :=
  (congrArg State.out (s.checkpoint_frame ) :)
@[simp] theorem State.checkpoint_cells (s : State)  : (s.checkpoint).cells = s.cells :=
  (congrArg State.cells (s.checkpoint_frame ) :)
@[simp] theorem State.checkpoint_blocks (s : State)  : (s.checkpoint).blocks = s.blocks :=
  (congrArg State.blocks (s.checkpoint_frame ) :)
@[simp] theorem State.checkpoint_stks (s : State)  : (s.checkpoint).stks = s.stks :=
  (congrArg State.stks (s.checkpoint_frame ) :)
@[simp] theorem State.checkpoint_cold (s : State)  : (s.checkpoint).cold = s.cold :=
  (congrArg State.cold (s.checkpoint_frame ) :)
@[simp] theorem State.checkpoint_parts (s : State)  : (s.checkpoint).parts = s.parts :=
  (congrArg State.parts (s.checkpoint_frame ) :)
@[simp] theorem State.checkpoint_raised (s : State)  : (s.checkpoint).raised = s.raised :=
  (congrArg State.raised (s.checkpoint_frame ) :)
@[simp] theorem State.checkpoint_retired (s : State)  : (s.checkpoint).retired = s.retired :=
  (congrArg State.retired (s.checkpoint_frame ) :)
@[simp] theorem State.checkpoint_ports (s : State)  : (s.checkpoint).ports = s.ports :=
  (congrArg State.ports (s.checkpoint_frame ) :)
@[simp] theorem State.checkpoint_fab (s : State)  : (s.checkpoint).fab = s.fab :=
  (congrArg State.fab (s.checkpoint_frame ) :)
@[simp] theorem State.checkpoint_shadows (s : State)  : (s.checkpoint).shadows = s.shadows :=
  (congrArg State.shadows (s.checkpoint_frame ) :)
@[simp] theorem State.checkpoint_tu (s : State)  : (s.checkpoint).tu = s.tu :=
  (congrArg State.tu (s.checkpoint_frame ) :)
@[simp] theorem State.checkpoint_islands (s : State)  : (s.checkpoint).islands = s.islands :=
  (congrArg State.islands (s.checkpoint_frame ) :)
@[simp] theorem State.checkpoint_pwr (s : State)  : (s.checkpoint).pwr = s.pwr :=
  (congrArg State.pwr (s.checkpoint_frame ) :)
@[simp] theorem State.checkpoint_seqr (s : State)  : (s.checkpoint).seqr = s.seqr :=
  (congrArg State.seqr (s.checkpoint_frame ) :)
@[simp] theorem State.checkpoint_keys (s : State)  : (s.checkpoint).keys = s.keys :=
  (congrArg State.keys (s.checkpoint_frame ) :)
@[simp] theorem State.checkpoint_sessions (s : State)  : (s.checkpoint).sessions = s.sessions :=
  (congrArg State.sessions (s.checkpoint_frame ) :)
@[simp] theorem State.checkpoint_openFail (s : State)  : (s.checkpoint).openFail = s.openFail :=
  (congrArg State.openFail (s.checkpoint_frame ) :)
@[simp] theorem State.checkpoint_openSec (s : State)  : (s.checkpoint).openSec = s.openSec :=
  (congrArg State.openSec (s.checkpoint_frame ) :)
@[simp] theorem State.checkpoint_mute (s : State)  : (s.checkpoint).mute = s.mute :=
  (congrArg State.mute (s.checkpoint_frame ) :)
@[simp] theorem State.checkpoint_spFw (s : State)  : (s.checkpoint).spFw = s.spFw :=
  (congrArg State.spFw (s.checkpoint_frame ) :)
@[simp] theorem State.checkpoint_mgFw (s : State)  : (s.checkpoint).mgFw = s.mgFw :=
  (congrArg State.mgFw (s.checkpoint_frame ) :)
@[simp] theorem State.checkpoint_spRun (s : State)  : (s.checkpoint).spRun = s.spRun :=
  (congrArg State.spRun (s.checkpoint_frame ) :)
@[simp] theorem State.checkpoint_mgRun (s : State)  : (s.checkpoint).mgRun = s.mgRun :=
  (congrArg State.mgRun (s.checkpoint_frame ) :)
@[simp] theorem State.checkpoint_mgmtDown (s : State)  : (s.checkpoint).mgmtDown = s.mgmtDown :=
  (congrArg State.mgmtDown (s.checkpoint_frame ) :)
@[simp] theorem State.checkpoint_boot (s : State)  : (s.checkpoint).boot = s.boot :=
  (congrArg State.boot (s.checkpoint_frame ) :)
@[simp] theorem State.checkpoint_io (s : State)  : (s.checkpoint).io = s.io :=
  (congrArg State.io (s.checkpoint_frame ) :)
@[simp] theorem State.checkpoint_fuses (s : State)  : (s.checkpoint).fuses = s.fuses :=
  (congrArg State.fuses (s.checkpoint_frame ) :)
@[simp] theorem State.checkpoint_msix (s : State)  : (s.checkpoint).msix = s.msix :=
  (congrArg State.msix (s.checkpoint_frame ) :)
@[simp] theorem State.checkpoint_msixWait (s : State)  : (s.checkpoint).msixWait = s.msixWait :=
  (congrArg State.msixWait (s.checkpoint_frame ) :)
@[simp] theorem State.checkpoint_rings (s : State)  : (s.checkpoint).rings = s.rings :=
  (congrArg State.rings (s.checkpoint_frame ) :)
@[simp] theorem State.checkpoint_inProg (s : State)  : (s.checkpoint).inProg = s.inProg :=
  (congrArg State.inProg (s.checkpoint_frame ) :)
@[simp] theorem State.checkpoint_errs (s : State)  : (s.checkpoint).errs = s.errs :=
  (congrArg State.errs (s.checkpoint_frame ) :)
@[simp] theorem State.checkpoint_errNext (s : State)  : (s.checkpoint).errNext = s.errNext :=
  (congrArg State.errNext (s.checkpoint_frame ) :)
@[simp] theorem State.checkpoint_flashErr (s : State)  : (s.checkpoint).flashErr = s.flashErr :=
  (congrArg State.flashErr (s.checkpoint_frame ) :)
@[simp] theorem State.checkpoint_pFaults (s : State)  : (s.checkpoint).pFaults = s.pFaults :=
  (congrArg State.pFaults (s.checkpoint_frame ) :)
@[simp] theorem State.checkpoint_jFaults (s : State)  : (s.checkpoint).jFaults = s.jFaults :=
  (congrArg State.jFaults (s.checkpoint_frame ) :)
@[simp] theorem State.checkpoint_cnt (s : State)  : (s.checkpoint).cnt = s.cnt :=
  (congrArg State.cnt (s.checkpoint_frame ) :)
@[simp] theorem State.checkpoint_round (s : State)  : (s.checkpoint).round = s.round :=
  (congrArg State.round (s.checkpoint_frame ) :)
@[simp] theorem State.checkpoint_calFlash (s : State)  : (s.checkpoint).calFlash = s.calFlash :=
  (congrArg State.calFlash (s.checkpoint_frame ) :)
@[simp] theorem State.checkpoint_calLoad (s : State)  : (s.checkpoint).calLoad = s.calLoad :=
  (congrArg State.calLoad (s.checkpoint_frame ) :)
@[simp] theorem State.checkpoint_mgrDrop (s : State)  : (s.checkpoint).mgrDrop = s.mgrDrop :=
  (congrArg State.mgrDrop (s.checkpoint_frame ) :)
@[simp] theorem State.checkpoint_detachCmd (s : State)  : (s.checkpoint).detachCmd = s.detachCmd :=
  (congrArg State.detachCmd (s.checkpoint_frame ) :)
@[simp] theorem State.checkpoint_taken (s : State)  : (s.checkpoint).taken = s.taken :=
  (congrArg State.taken (s.checkpoint_frame ) :)
@[simp] theorem State.checkpoint_rota (s : State)  : (s.checkpoint).rota = s.rota :=
  (congrArg State.rota (s.checkpoint_frame ) :)
@[simp] theorem State.checkpoint_rotaSet (s : State)  : (s.checkpoint).rotaSet = s.rotaSet :=
  (congrArg State.rotaSet (s.checkpoint_frame ) :)

theorem State.auditAdd_ex (s : State) (r : Role) (e o st p sid : Nat) (kh param : Hash) : ∃ c h a i d k,
    s.auditAdd r e o st p sid kh param =
      { s with counters := c, health := h, audit := a, auditIdx := i, auditHead := d, checks := k } := by
  unfold State.auditAdd
  simp only []
  obtain ⟨_, _, _, _, _, h⟩ := State.auditOne_ex s _
  rw [h]
  split
  · obtain ⟨_, _, _, _, _, _, g⟩ := State.checkpoint_ex { s with counters := _, health := _, audit := _, auditIdx := _, auditHead := _ }
    exact ⟨_, _, _, _, _, _, g⟩
  · exact ⟨_, _, _, _, _, _, rfl⟩

/-- All that `State.auditAdd` changes. -/
theorem State.auditAdd_frame (s : State) (r : Role) (e o st p sid : Nat) (kh param : Hash) :
    s.auditAdd r e o st p sid kh param = { s with counters := (s.auditAdd r e o st p sid kh param).counters, health := (s.auditAdd r e o st p sid kh param).health, audit := (s.auditAdd r e o st p sid kh param).audit, auditIdx := (s.auditAdd r e o st p sid kh param).auditIdx, auditHead := (s.auditAdd r e o st p sid kh param).auditHead, checks := (s.auditAdd r e o st p sid kh param).checks } := by
  obtain ⟨_, _, _, _, _, _, h⟩ := s.auditAdd_ex r e o st p sid kh param
  rw [h]
@[simp] theorem State.auditAdd_pending (s : State) (r : Role) (e o st p sid : Nat) (kh param : Hash) : (s.auditAdd r e o st p sid kh param).pending = s.pending :=
  (congrArg State.pending (s.auditAdd_frame r e o st p sid kh param) :)
@[simp] theorem State.auditAdd_cycle (s : State) (r : Role) (e o st p sid : Nat) (kh param : Hash) : (s.auditAdd r e o st p sid kh param).cycle = s.cycle :=
  (congrArg State.cycle (s.auditAdd_frame r e o st p sid kh param) :)
@[simp] theorem State.auditAdd_frameNo (s : State) (r : Role) (e o st p sid : Nat) (kh param : Hash) : (s.auditAdd r e o st p sid kh param).frameNo = s.frameNo :=
  (congrArg State.frameNo (s.auditAdd_frame r e o st p sid kh param) :)
@[simp] theorem State.auditAdd_wallAt (s : State) (r : Role) (e o st p sid : Nat) (kh param : Hash) : (s.auditAdd r e o st p sid kh param).wallAt = s.wallAt :=
  (congrArg State.wallAt (s.auditAdd_frame r e o st p sid kh param) :)
@[simp] theorem State.auditAdd_freeCtr (s : State) (r : Role) (e o st p sid : Nat) (kh param : Hash) : (s.auditAdd r e o st p sid kh param).freeCtr = s.freeCtr :=
  (congrArg State.freeCtr (s.auditAdd_frame r e o st p sid kh param) :)
@[simp] theorem State.auditAdd_nextKey (s : State) (r : Role) (e o st p sid : Nat) (kh param : Hash) : (s.auditAdd r e o st p sid kh param).nextKey = s.nextKey :=
  (congrArg State.nextKey (s.auditAdd_frame r e o st p sid kh param) :)
@[simp] theorem State.auditAdd_out (s : State) (r : Role) (e o st p sid : Nat) (kh param : Hash) : (s.auditAdd r e o st p sid kh param).out = s.out :=
  (congrArg State.out (s.auditAdd_frame r e o st p sid kh param) :)
@[simp] theorem State.auditAdd_cells (s : State) (r : Role) (e o st p sid : Nat) (kh param : Hash) : (s.auditAdd r e o st p sid kh param).cells = s.cells :=
  (congrArg State.cells (s.auditAdd_frame r e o st p sid kh param) :)
@[simp] theorem State.auditAdd_blocks (s : State) (r : Role) (e o st p sid : Nat) (kh param : Hash) : (s.auditAdd r e o st p sid kh param).blocks = s.blocks :=
  (congrArg State.blocks (s.auditAdd_frame r e o st p sid kh param) :)
@[simp] theorem State.auditAdd_stks (s : State) (r : Role) (e o st p sid : Nat) (kh param : Hash) : (s.auditAdd r e o st p sid kh param).stks = s.stks :=
  (congrArg State.stks (s.auditAdd_frame r e o st p sid kh param) :)
@[simp] theorem State.auditAdd_cold (s : State) (r : Role) (e o st p sid : Nat) (kh param : Hash) : (s.auditAdd r e o st p sid kh param).cold = s.cold :=
  (congrArg State.cold (s.auditAdd_frame r e o st p sid kh param) :)
@[simp] theorem State.auditAdd_parts (s : State) (r : Role) (e o st p sid : Nat) (kh param : Hash) : (s.auditAdd r e o st p sid kh param).parts = s.parts :=
  (congrArg State.parts (s.auditAdd_frame r e o st p sid kh param) :)
@[simp] theorem State.auditAdd_raised (s : State) (r : Role) (e o st p sid : Nat) (kh param : Hash) : (s.auditAdd r e o st p sid kh param).raised = s.raised :=
  (congrArg State.raised (s.auditAdd_frame r e o st p sid kh param) :)
@[simp] theorem State.auditAdd_retired (s : State) (r : Role) (e o st p sid : Nat) (kh param : Hash) : (s.auditAdd r e o st p sid kh param).retired = s.retired :=
  (congrArg State.retired (s.auditAdd_frame r e o st p sid kh param) :)
@[simp] theorem State.auditAdd_ports (s : State) (r : Role) (e o st p sid : Nat) (kh param : Hash) : (s.auditAdd r e o st p sid kh param).ports = s.ports :=
  (congrArg State.ports (s.auditAdd_frame r e o st p sid kh param) :)
@[simp] theorem State.auditAdd_fab (s : State) (r : Role) (e o st p sid : Nat) (kh param : Hash) : (s.auditAdd r e o st p sid kh param).fab = s.fab :=
  (congrArg State.fab (s.auditAdd_frame r e o st p sid kh param) :)
@[simp] theorem State.auditAdd_shadows (s : State) (r : Role) (e o st p sid : Nat) (kh param : Hash) : (s.auditAdd r e o st p sid kh param).shadows = s.shadows :=
  (congrArg State.shadows (s.auditAdd_frame r e o st p sid kh param) :)
@[simp] theorem State.auditAdd_tu (s : State) (r : Role) (e o st p sid : Nat) (kh param : Hash) : (s.auditAdd r e o st p sid kh param).tu = s.tu :=
  (congrArg State.tu (s.auditAdd_frame r e o st p sid kh param) :)
@[simp] theorem State.auditAdd_islands (s : State) (r : Role) (e o st p sid : Nat) (kh param : Hash) : (s.auditAdd r e o st p sid kh param).islands = s.islands :=
  (congrArg State.islands (s.auditAdd_frame r e o st p sid kh param) :)
@[simp] theorem State.auditAdd_pwr (s : State) (r : Role) (e o st p sid : Nat) (kh param : Hash) : (s.auditAdd r e o st p sid kh param).pwr = s.pwr :=
  (congrArg State.pwr (s.auditAdd_frame r e o st p sid kh param) :)
@[simp] theorem State.auditAdd_seqr (s : State) (r : Role) (e o st p sid : Nat) (kh param : Hash) : (s.auditAdd r e o st p sid kh param).seqr = s.seqr :=
  (congrArg State.seqr (s.auditAdd_frame r e o st p sid kh param) :)
@[simp] theorem State.auditAdd_keys (s : State) (r : Role) (e o st p sid : Nat) (kh param : Hash) : (s.auditAdd r e o st p sid kh param).keys = s.keys :=
  (congrArg State.keys (s.auditAdd_frame r e o st p sid kh param) :)
@[simp] theorem State.auditAdd_sessions (s : State) (r : Role) (e o st p sid : Nat) (kh param : Hash) : (s.auditAdd r e o st p sid kh param).sessions = s.sessions :=
  (congrArg State.sessions (s.auditAdd_frame r e o st p sid kh param) :)
@[simp] theorem State.auditAdd_openFail (s : State) (r : Role) (e o st p sid : Nat) (kh param : Hash) : (s.auditAdd r e o st p sid kh param).openFail = s.openFail :=
  (congrArg State.openFail (s.auditAdd_frame r e o st p sid kh param) :)
@[simp] theorem State.auditAdd_openSec (s : State) (r : Role) (e o st p sid : Nat) (kh param : Hash) : (s.auditAdd r e o st p sid kh param).openSec = s.openSec :=
  (congrArg State.openSec (s.auditAdd_frame r e o st p sid kh param) :)
@[simp] theorem State.auditAdd_mute (s : State) (r : Role) (e o st p sid : Nat) (kh param : Hash) : (s.auditAdd r e o st p sid kh param).mute = s.mute :=
  (congrArg State.mute (s.auditAdd_frame r e o st p sid kh param) :)
@[simp] theorem State.auditAdd_spFw (s : State) (r : Role) (e o st p sid : Nat) (kh param : Hash) : (s.auditAdd r e o st p sid kh param).spFw = s.spFw :=
  (congrArg State.spFw (s.auditAdd_frame r e o st p sid kh param) :)
@[simp] theorem State.auditAdd_mgFw (s : State) (r : Role) (e o st p sid : Nat) (kh param : Hash) : (s.auditAdd r e o st p sid kh param).mgFw = s.mgFw :=
  (congrArg State.mgFw (s.auditAdd_frame r e o st p sid kh param) :)
@[simp] theorem State.auditAdd_spRun (s : State) (r : Role) (e o st p sid : Nat) (kh param : Hash) : (s.auditAdd r e o st p sid kh param).spRun = s.spRun :=
  (congrArg State.spRun (s.auditAdd_frame r e o st p sid kh param) :)
@[simp] theorem State.auditAdd_mgRun (s : State) (r : Role) (e o st p sid : Nat) (kh param : Hash) : (s.auditAdd r e o st p sid kh param).mgRun = s.mgRun :=
  (congrArg State.mgRun (s.auditAdd_frame r e o st p sid kh param) :)
@[simp] theorem State.auditAdd_mgmtDown (s : State) (r : Role) (e o st p sid : Nat) (kh param : Hash) : (s.auditAdd r e o st p sid kh param).mgmtDown = s.mgmtDown :=
  (congrArg State.mgmtDown (s.auditAdd_frame r e o st p sid kh param) :)
@[simp] theorem State.auditAdd_boot (s : State) (r : Role) (e o st p sid : Nat) (kh param : Hash) : (s.auditAdd r e o st p sid kh param).boot = s.boot :=
  (congrArg State.boot (s.auditAdd_frame r e o st p sid kh param) :)
@[simp] theorem State.auditAdd_io (s : State) (r : Role) (e o st p sid : Nat) (kh param : Hash) : (s.auditAdd r e o st p sid kh param).io = s.io :=
  (congrArg State.io (s.auditAdd_frame r e o st p sid kh param) :)
@[simp] theorem State.auditAdd_fuses (s : State) (r : Role) (e o st p sid : Nat) (kh param : Hash) : (s.auditAdd r e o st p sid kh param).fuses = s.fuses :=
  (congrArg State.fuses (s.auditAdd_frame r e o st p sid kh param) :)
@[simp] theorem State.auditAdd_msix (s : State) (r : Role) (e o st p sid : Nat) (kh param : Hash) : (s.auditAdd r e o st p sid kh param).msix = s.msix :=
  (congrArg State.msix (s.auditAdd_frame r e o st p sid kh param) :)
@[simp] theorem State.auditAdd_msixWait (s : State) (r : Role) (e o st p sid : Nat) (kh param : Hash) : (s.auditAdd r e o st p sid kh param).msixWait = s.msixWait :=
  (congrArg State.msixWait (s.auditAdd_frame r e o st p sid kh param) :)
@[simp] theorem State.auditAdd_rings (s : State) (r : Role) (e o st p sid : Nat) (kh param : Hash) : (s.auditAdd r e o st p sid kh param).rings = s.rings :=
  (congrArg State.rings (s.auditAdd_frame r e o st p sid kh param) :)
@[simp] theorem State.auditAdd_inProg (s : State) (r : Role) (e o st p sid : Nat) (kh param : Hash) : (s.auditAdd r e o st p sid kh param).inProg = s.inProg :=
  (congrArg State.inProg (s.auditAdd_frame r e o st p sid kh param) :)
@[simp] theorem State.auditAdd_errs (s : State) (r : Role) (e o st p sid : Nat) (kh param : Hash) : (s.auditAdd r e o st p sid kh param).errs = s.errs :=
  (congrArg State.errs (s.auditAdd_frame r e o st p sid kh param) :)
@[simp] theorem State.auditAdd_errNext (s : State) (r : Role) (e o st p sid : Nat) (kh param : Hash) : (s.auditAdd r e o st p sid kh param).errNext = s.errNext :=
  (congrArg State.errNext (s.auditAdd_frame r e o st p sid kh param) :)
@[simp] theorem State.auditAdd_flashErr (s : State) (r : Role) (e o st p sid : Nat) (kh param : Hash) : (s.auditAdd r e o st p sid kh param).flashErr = s.flashErr :=
  (congrArg State.flashErr (s.auditAdd_frame r e o st p sid kh param) :)
@[simp] theorem State.auditAdd_pFaults (s : State) (r : Role) (e o st p sid : Nat) (kh param : Hash) : (s.auditAdd r e o st p sid kh param).pFaults = s.pFaults :=
  (congrArg State.pFaults (s.auditAdd_frame r e o st p sid kh param) :)
@[simp] theorem State.auditAdd_jFaults (s : State) (r : Role) (e o st p sid : Nat) (kh param : Hash) : (s.auditAdd r e o st p sid kh param).jFaults = s.jFaults :=
  (congrArg State.jFaults (s.auditAdd_frame r e o st p sid kh param) :)
@[simp] theorem State.auditAdd_cnt (s : State) (r : Role) (e o st p sid : Nat) (kh param : Hash) : (s.auditAdd r e o st p sid kh param).cnt = s.cnt :=
  (congrArg State.cnt (s.auditAdd_frame r e o st p sid kh param) :)
@[simp] theorem State.auditAdd_round (s : State) (r : Role) (e o st p sid : Nat) (kh param : Hash) : (s.auditAdd r e o st p sid kh param).round = s.round :=
  (congrArg State.round (s.auditAdd_frame r e o st p sid kh param) :)
@[simp] theorem State.auditAdd_calFlash (s : State) (r : Role) (e o st p sid : Nat) (kh param : Hash) : (s.auditAdd r e o st p sid kh param).calFlash = s.calFlash :=
  (congrArg State.calFlash (s.auditAdd_frame r e o st p sid kh param) :)
@[simp] theorem State.auditAdd_calLoad (s : State) (r : Role) (e o st p sid : Nat) (kh param : Hash) : (s.auditAdd r e o st p sid kh param).calLoad = s.calLoad :=
  (congrArg State.calLoad (s.auditAdd_frame r e o st p sid kh param) :)
@[simp] theorem State.auditAdd_mgrDrop (s : State) (r : Role) (e o st p sid : Nat) (kh param : Hash) : (s.auditAdd r e o st p sid kh param).mgrDrop = s.mgrDrop :=
  (congrArg State.mgrDrop (s.auditAdd_frame r e o st p sid kh param) :)
@[simp] theorem State.auditAdd_detachCmd (s : State) (r : Role) (e o st p sid : Nat) (kh param : Hash) : (s.auditAdd r e o st p sid kh param).detachCmd = s.detachCmd :=
  (congrArg State.detachCmd (s.auditAdd_frame r e o st p sid kh param) :)
@[simp] theorem State.auditAdd_taken (s : State) (r : Role) (e o st p sid : Nat) (kh param : Hash) : (s.auditAdd r e o st p sid kh param).taken = s.taken :=
  (congrArg State.taken (s.auditAdd_frame r e o st p sid kh param) :)
@[simp] theorem State.auditAdd_rota (s : State) (r : Role) (e o st p sid : Nat) (kh param : Hash) : (s.auditAdd r e o st p sid kh param).rota = s.rota :=
  (congrArg State.rota (s.auditAdd_frame r e o st p sid kh param) :)
@[simp] theorem State.auditAdd_rotaSet (s : State) (r : Role) (e o st p sid : Nat) (kh param : Hash) : (s.auditAdd r e o st p sid kh param).rotaSet = s.rotaSet :=
  (congrArg State.rotaSet (s.auditAdd_frame r e o st p sid kh param) :)

/-- All that `State.replyTo` changes. -/
theorem State.replyTo_frame (s : State) (k : Option Hash) (h : Hdr) (op st : Nat) (rs : List (Nat × Nat)) :
    s.replyTo k h op st rs = { s with inProg := (s.replyTo k h op st rs).inProg, taken := (s.replyTo k h op st rs).taken, mute := (s.replyTo k h op st rs).mute, rings := (s.replyTo k h op st rs).rings, msixWait := (s.replyTo k h op st rs).msixWait, out := (s.replyTo k h op st rs).out } := by
  unfold State.replyTo
  simp only []
  repeat' split
  all_goals first | rfl | (rw [State.signal_frame]; rfl)

/-- All that `State.reply` changes. -/
theorem State.reply_frame (s : State) (h : Hdr) (op st : Nat) (rs : List (Nat × Nat)) :
    s.reply h op st rs = { s with inProg := (s.reply h op st rs).inProg, taken := (s.reply h op st rs).taken, mute := (s.reply h op st rs).mute, rings := (s.reply h op st rs).rings, msixWait := (s.reply h op st rs).msixWait, out := (s.reply h op st rs).out } :=
  s.replyTo_frame _ h op st rs
@[simp] theorem State.reply_pending (s : State) (h : Hdr) (op st : Nat) (rs : List (Nat × Nat)) : (s.reply h op st rs).pending = s.pending :=
  (congrArg State.pending (s.reply_frame h op st rs) :)
@[simp] theorem State.reply_cycle (s : State) (h : Hdr) (op st : Nat) (rs : List (Nat × Nat)) : (s.reply h op st rs).cycle = s.cycle :=
  (congrArg State.cycle (s.reply_frame h op st rs) :)
@[simp] theorem State.reply_frameNo (s : State) (h : Hdr) (op st : Nat) (rs : List (Nat × Nat)) : (s.reply h op st rs).frameNo = s.frameNo :=
  (congrArg State.frameNo (s.reply_frame h op st rs) :)
@[simp] theorem State.reply_wallAt (s : State) (h : Hdr) (op st : Nat) (rs : List (Nat × Nat)) : (s.reply h op st rs).wallAt = s.wallAt :=
  (congrArg State.wallAt (s.reply_frame h op st rs) :)
@[simp] theorem State.reply_freeCtr (s : State) (h : Hdr) (op st : Nat) (rs : List (Nat × Nat)) : (s.reply h op st rs).freeCtr = s.freeCtr :=
  (congrArg State.freeCtr (s.reply_frame h op st rs) :)
@[simp] theorem State.reply_nextKey (s : State) (h : Hdr) (op st : Nat) (rs : List (Nat × Nat)) : (s.reply h op st rs).nextKey = s.nextKey :=
  (congrArg State.nextKey (s.reply_frame h op st rs) :)
@[simp] theorem State.reply_cells (s : State) (h : Hdr) (op st : Nat) (rs : List (Nat × Nat)) : (s.reply h op st rs).cells = s.cells :=
  (congrArg State.cells (s.reply_frame h op st rs) :)
@[simp] theorem State.reply_blocks (s : State) (h : Hdr) (op st : Nat) (rs : List (Nat × Nat)) : (s.reply h op st rs).blocks = s.blocks :=
  (congrArg State.blocks (s.reply_frame h op st rs) :)
@[simp] theorem State.reply_stks (s : State) (h : Hdr) (op st : Nat) (rs : List (Nat × Nat)) : (s.reply h op st rs).stks = s.stks :=
  (congrArg State.stks (s.reply_frame h op st rs) :)
@[simp] theorem State.reply_cold (s : State) (h : Hdr) (op st : Nat) (rs : List (Nat × Nat)) : (s.reply h op st rs).cold = s.cold :=
  (congrArg State.cold (s.reply_frame h op st rs) :)
@[simp] theorem State.reply_parts (s : State) (h : Hdr) (op st : Nat) (rs : List (Nat × Nat)) : (s.reply h op st rs).parts = s.parts :=
  (congrArg State.parts (s.reply_frame h op st rs) :)
@[simp] theorem State.reply_raised (s : State) (h : Hdr) (op st : Nat) (rs : List (Nat × Nat)) : (s.reply h op st rs).raised = s.raised :=
  (congrArg State.raised (s.reply_frame h op st rs) :)
@[simp] theorem State.reply_counters (s : State) (h : Hdr) (op st : Nat) (rs : List (Nat × Nat)) : (s.reply h op st rs).counters = s.counters :=
  (congrArg State.counters (s.reply_frame h op st rs) :)
@[simp] theorem State.reply_retired (s : State) (h : Hdr) (op st : Nat) (rs : List (Nat × Nat)) : (s.reply h op st rs).retired = s.retired :=
  (congrArg State.retired (s.reply_frame h op st rs) :)
@[simp] theorem State.reply_ports (s : State) (h : Hdr) (op st : Nat) (rs : List (Nat × Nat)) : (s.reply h op st rs).ports = s.ports :=
  (congrArg State.ports (s.reply_frame h op st rs) :)
@[simp] theorem State.reply_fab (s : State) (h : Hdr) (op st : Nat) (rs : List (Nat × Nat)) : (s.reply h op st rs).fab = s.fab :=
  (congrArg State.fab (s.reply_frame h op st rs) :)
@[simp] theorem State.reply_shadows (s : State) (h : Hdr) (op st : Nat) (rs : List (Nat × Nat)) : (s.reply h op st rs).shadows = s.shadows :=
  (congrArg State.shadows (s.reply_frame h op st rs) :)
@[simp] theorem State.reply_tu (s : State) (h : Hdr) (op st : Nat) (rs : List (Nat × Nat)) : (s.reply h op st rs).tu = s.tu :=
  (congrArg State.tu (s.reply_frame h op st rs) :)
@[simp] theorem State.reply_islands (s : State) (h : Hdr) (op st : Nat) (rs : List (Nat × Nat)) : (s.reply h op st rs).islands = s.islands :=
  (congrArg State.islands (s.reply_frame h op st rs) :)
@[simp] theorem State.reply_pwr (s : State) (h : Hdr) (op st : Nat) (rs : List (Nat × Nat)) : (s.reply h op st rs).pwr = s.pwr :=
  (congrArg State.pwr (s.reply_frame h op st rs) :)
@[simp] theorem State.reply_seqr (s : State) (h : Hdr) (op st : Nat) (rs : List (Nat × Nat)) : (s.reply h op st rs).seqr = s.seqr :=
  (congrArg State.seqr (s.reply_frame h op st rs) :)
@[simp] theorem State.reply_keys (s : State) (h : Hdr) (op st : Nat) (rs : List (Nat × Nat)) : (s.reply h op st rs).keys = s.keys :=
  (congrArg State.keys (s.reply_frame h op st rs) :)
@[simp] theorem State.reply_sessions (s : State) (h : Hdr) (op st : Nat) (rs : List (Nat × Nat)) : (s.reply h op st rs).sessions = s.sessions :=
  (congrArg State.sessions (s.reply_frame h op st rs) :)
@[simp] theorem State.reply_openFail (s : State) (h : Hdr) (op st : Nat) (rs : List (Nat × Nat)) : (s.reply h op st rs).openFail = s.openFail :=
  (congrArg State.openFail (s.reply_frame h op st rs) :)
@[simp] theorem State.reply_audit (s : State) (h : Hdr) (op st : Nat) (rs : List (Nat × Nat)) : (s.reply h op st rs).audit = s.audit :=
  (congrArg State.audit (s.reply_frame h op st rs) :)
@[simp] theorem State.reply_auditIdx (s : State) (h : Hdr) (op st : Nat) (rs : List (Nat × Nat)) : (s.reply h op st rs).auditIdx = s.auditIdx :=
  (congrArg State.auditIdx (s.reply_frame h op st rs) :)
@[simp] theorem State.reply_auditHead (s : State) (h : Hdr) (op st : Nat) (rs : List (Nat × Nat)) : (s.reply h op st rs).auditHead = s.auditHead :=
  (congrArg State.auditHead (s.reply_frame h op st rs) :)
@[simp] theorem State.reply_checks (s : State) (h : Hdr) (op st : Nat) (rs : List (Nat × Nat)) : (s.reply h op st rs).checks = s.checks :=
  (congrArg State.checks (s.reply_frame h op st rs) :)
@[simp] theorem State.reply_openSec (s : State) (h : Hdr) (op st : Nat) (rs : List (Nat × Nat)) : (s.reply h op st rs).openSec = s.openSec :=
  (congrArg State.openSec (s.reply_frame h op st rs) :)
@[simp] theorem State.reply_spFw (s : State) (h : Hdr) (op st : Nat) (rs : List (Nat × Nat)) : (s.reply h op st rs).spFw = s.spFw :=
  (congrArg State.spFw (s.reply_frame h op st rs) :)
@[simp] theorem State.reply_mgFw (s : State) (h : Hdr) (op st : Nat) (rs : List (Nat × Nat)) : (s.reply h op st rs).mgFw = s.mgFw :=
  (congrArg State.mgFw (s.reply_frame h op st rs) :)
@[simp] theorem State.reply_spRun (s : State) (h : Hdr) (op st : Nat) (rs : List (Nat × Nat)) : (s.reply h op st rs).spRun = s.spRun :=
  (congrArg State.spRun (s.reply_frame h op st rs) :)
@[simp] theorem State.reply_mgRun (s : State) (h : Hdr) (op st : Nat) (rs : List (Nat × Nat)) : (s.reply h op st rs).mgRun = s.mgRun :=
  (congrArg State.mgRun (s.reply_frame h op st rs) :)
@[simp] theorem State.reply_mgmtDown (s : State) (h : Hdr) (op st : Nat) (rs : List (Nat × Nat)) : (s.reply h op st rs).mgmtDown = s.mgmtDown :=
  (congrArg State.mgmtDown (s.reply_frame h op st rs) :)
@[simp] theorem State.reply_boot (s : State) (h : Hdr) (op st : Nat) (rs : List (Nat × Nat)) : (s.reply h op st rs).boot = s.boot :=
  (congrArg State.boot (s.reply_frame h op st rs) :)
@[simp] theorem State.reply_io (s : State) (h : Hdr) (op st : Nat) (rs : List (Nat × Nat)) : (s.reply h op st rs).io = s.io :=
  (congrArg State.io (s.reply_frame h op st rs) :)
@[simp] theorem State.reply_fuses (s : State) (h : Hdr) (op st : Nat) (rs : List (Nat × Nat)) : (s.reply h op st rs).fuses = s.fuses :=
  (congrArg State.fuses (s.reply_frame h op st rs) :)
@[simp] theorem State.reply_msix (s : State) (h : Hdr) (op st : Nat) (rs : List (Nat × Nat)) : (s.reply h op st rs).msix = s.msix :=
  (congrArg State.msix (s.reply_frame h op st rs) :)
@[simp] theorem State.reply_errs (s : State) (h : Hdr) (op st : Nat) (rs : List (Nat × Nat)) : (s.reply h op st rs).errs = s.errs :=
  (congrArg State.errs (s.reply_frame h op st rs) :)
@[simp] theorem State.reply_errNext (s : State) (h : Hdr) (op st : Nat) (rs : List (Nat × Nat)) : (s.reply h op st rs).errNext = s.errNext :=
  (congrArg State.errNext (s.reply_frame h op st rs) :)
@[simp] theorem State.reply_flashErr (s : State) (h : Hdr) (op st : Nat) (rs : List (Nat × Nat)) : (s.reply h op st rs).flashErr = s.flashErr :=
  (congrArg State.flashErr (s.reply_frame h op st rs) :)
@[simp] theorem State.reply_pFaults (s : State) (h : Hdr) (op st : Nat) (rs : List (Nat × Nat)) : (s.reply h op st rs).pFaults = s.pFaults :=
  (congrArg State.pFaults (s.reply_frame h op st rs) :)
@[simp] theorem State.reply_jFaults (s : State) (h : Hdr) (op st : Nat) (rs : List (Nat × Nat)) : (s.reply h op st rs).jFaults = s.jFaults :=
  (congrArg State.jFaults (s.reply_frame h op st rs) :)
@[simp] theorem State.reply_health (s : State) (h : Hdr) (op st : Nat) (rs : List (Nat × Nat)) : (s.reply h op st rs).health = s.health :=
  (congrArg State.health (s.reply_frame h op st rs) :)
@[simp] theorem State.reply_cnt (s : State) (h : Hdr) (op st : Nat) (rs : List (Nat × Nat)) : (s.reply h op st rs).cnt = s.cnt :=
  (congrArg State.cnt (s.reply_frame h op st rs) :)
@[simp] theorem State.reply_round (s : State) (h : Hdr) (op st : Nat) (rs : List (Nat × Nat)) : (s.reply h op st rs).round = s.round :=
  (congrArg State.round (s.reply_frame h op st rs) :)
@[simp] theorem State.reply_calFlash (s : State) (h : Hdr) (op st : Nat) (rs : List (Nat × Nat)) : (s.reply h op st rs).calFlash = s.calFlash :=
  (congrArg State.calFlash (s.reply_frame h op st rs) :)
@[simp] theorem State.reply_calLoad (s : State) (h : Hdr) (op st : Nat) (rs : List (Nat × Nat)) : (s.reply h op st rs).calLoad = s.calLoad :=
  (congrArg State.calLoad (s.reply_frame h op st rs) :)
@[simp] theorem State.reply_mgrDrop (s : State) (h : Hdr) (op st : Nat) (rs : List (Nat × Nat)) : (s.reply h op st rs).mgrDrop = s.mgrDrop :=
  (congrArg State.mgrDrop (s.reply_frame h op st rs) :)
@[simp] theorem State.reply_detachCmd (s : State) (h : Hdr) (op st : Nat) (rs : List (Nat × Nat)) : (s.reply h op st rs).detachCmd = s.detachCmd :=
  (congrArg State.detachCmd (s.reply_frame h op st rs) :)
@[simp] theorem State.reply_rota (s : State) (h : Hdr) (op st : Nat) (rs : List (Nat × Nat)) : (s.reply h op st rs).rota = s.rota :=
  (congrArg State.rota (s.reply_frame h op st rs) :)
@[simp] theorem State.reply_rotaSet (s : State) (h : Hdr) (op st : Nat) (rs : List (Nat × Nat)) : (s.reply h op st rs).rotaSet = s.rotaSet :=
  (congrArg State.rotaSet (s.reply_frame h op st rs) :)

/-- All that `State.postTo` changes. -/
theorem State.postTo_frame (s : State) (k : Option Hash) (h : Hdr) (op st : Nat) (rs : List (Nat × Nat)) :
    s.postTo k h op st rs = { s with taken := (s.postTo k h op st rs).taken, counters := (s.postTo k h op st rs).counters, health := (s.postTo k h op st rs).health, audit := (s.postTo k h op st rs).audit, auditIdx := (s.postTo k h op st rs).auditIdx, auditHead := (s.postTo k h op st rs).auditHead, checks := (s.postTo k h op st rs).checks, inProg := (s.postTo k h op st rs).inProg, mute := (s.postTo k h op st rs).mute, rings := (s.postTo k h op st rs).rings, msixWait := (s.postTo k h op st rs).msixWait, out := (s.postTo k h op st rs).out } := by
  unfold State.postTo
  simp only []
  rw [State.replyTo_frame, State.auditAdd_frame]

/-- All that `State.post` changes. -/
theorem State.post_frame (s : State) (h : Hdr) (op st : Nat) (rs : List (Nat × Nat)) :
    s.post h op st rs = { s with taken := (s.post h op st rs).taken, counters := (s.post h op st rs).counters, health := (s.post h op st rs).health, audit := (s.post h op st rs).audit, auditIdx := (s.post h op st rs).auditIdx, auditHead := (s.post h op st rs).auditHead, checks := (s.post h op st rs).checks, inProg := (s.post h op st rs).inProg, mute := (s.post h op st rs).mute, rings := (s.post h op st rs).rings, msixWait := (s.post h op st rs).msixWait, out := (s.post h op st rs).out } :=
  s.postTo_frame _ h op st rs
@[simp] theorem State.post_pending (s : State) (h : Hdr) (op st : Nat) (rs : List (Nat × Nat)) : (s.post h op st rs).pending = s.pending :=
  (congrArg State.pending (s.post_frame h op st rs) :)
@[simp] theorem State.post_cycle (s : State) (h : Hdr) (op st : Nat) (rs : List (Nat × Nat)) : (s.post h op st rs).cycle = s.cycle :=
  (congrArg State.cycle (s.post_frame h op st rs) :)
@[simp] theorem State.post_frameNo (s : State) (h : Hdr) (op st : Nat) (rs : List (Nat × Nat)) : (s.post h op st rs).frameNo = s.frameNo :=
  (congrArg State.frameNo (s.post_frame h op st rs) :)
@[simp] theorem State.post_wallAt (s : State) (h : Hdr) (op st : Nat) (rs : List (Nat × Nat)) : (s.post h op st rs).wallAt = s.wallAt :=
  (congrArg State.wallAt (s.post_frame h op st rs) :)
@[simp] theorem State.post_freeCtr (s : State) (h : Hdr) (op st : Nat) (rs : List (Nat × Nat)) : (s.post h op st rs).freeCtr = s.freeCtr :=
  (congrArg State.freeCtr (s.post_frame h op st rs) :)
@[simp] theorem State.post_nextKey (s : State) (h : Hdr) (op st : Nat) (rs : List (Nat × Nat)) : (s.post h op st rs).nextKey = s.nextKey :=
  (congrArg State.nextKey (s.post_frame h op st rs) :)
@[simp] theorem State.post_cells (s : State) (h : Hdr) (op st : Nat) (rs : List (Nat × Nat)) : (s.post h op st rs).cells = s.cells :=
  (congrArg State.cells (s.post_frame h op st rs) :)
@[simp] theorem State.post_blocks (s : State) (h : Hdr) (op st : Nat) (rs : List (Nat × Nat)) : (s.post h op st rs).blocks = s.blocks :=
  (congrArg State.blocks (s.post_frame h op st rs) :)
@[simp] theorem State.post_stks (s : State) (h : Hdr) (op st : Nat) (rs : List (Nat × Nat)) : (s.post h op st rs).stks = s.stks :=
  (congrArg State.stks (s.post_frame h op st rs) :)
@[simp] theorem State.post_cold (s : State) (h : Hdr) (op st : Nat) (rs : List (Nat × Nat)) : (s.post h op st rs).cold = s.cold :=
  (congrArg State.cold (s.post_frame h op st rs) :)
@[simp] theorem State.post_parts (s : State) (h : Hdr) (op st : Nat) (rs : List (Nat × Nat)) : (s.post h op st rs).parts = s.parts :=
  (congrArg State.parts (s.post_frame h op st rs) :)
@[simp] theorem State.post_raised (s : State) (h : Hdr) (op st : Nat) (rs : List (Nat × Nat)) : (s.post h op st rs).raised = s.raised :=
  (congrArg State.raised (s.post_frame h op st rs) :)
@[simp] theorem State.post_retired (s : State) (h : Hdr) (op st : Nat) (rs : List (Nat × Nat)) : (s.post h op st rs).retired = s.retired :=
  (congrArg State.retired (s.post_frame h op st rs) :)
@[simp] theorem State.post_ports (s : State) (h : Hdr) (op st : Nat) (rs : List (Nat × Nat)) : (s.post h op st rs).ports = s.ports :=
  (congrArg State.ports (s.post_frame h op st rs) :)
@[simp] theorem State.post_fab (s : State) (h : Hdr) (op st : Nat) (rs : List (Nat × Nat)) : (s.post h op st rs).fab = s.fab :=
  (congrArg State.fab (s.post_frame h op st rs) :)
@[simp] theorem State.post_shadows (s : State) (h : Hdr) (op st : Nat) (rs : List (Nat × Nat)) : (s.post h op st rs).shadows = s.shadows :=
  (congrArg State.shadows (s.post_frame h op st rs) :)
@[simp] theorem State.post_tu (s : State) (h : Hdr) (op st : Nat) (rs : List (Nat × Nat)) : (s.post h op st rs).tu = s.tu :=
  (congrArg State.tu (s.post_frame h op st rs) :)
@[simp] theorem State.post_islands (s : State) (h : Hdr) (op st : Nat) (rs : List (Nat × Nat)) : (s.post h op st rs).islands = s.islands :=
  (congrArg State.islands (s.post_frame h op st rs) :)
@[simp] theorem State.post_pwr (s : State) (h : Hdr) (op st : Nat) (rs : List (Nat × Nat)) : (s.post h op st rs).pwr = s.pwr :=
  (congrArg State.pwr (s.post_frame h op st rs) :)
@[simp] theorem State.post_seqr (s : State) (h : Hdr) (op st : Nat) (rs : List (Nat × Nat)) : (s.post h op st rs).seqr = s.seqr :=
  (congrArg State.seqr (s.post_frame h op st rs) :)
@[simp] theorem State.post_keys (s : State) (h : Hdr) (op st : Nat) (rs : List (Nat × Nat)) : (s.post h op st rs).keys = s.keys :=
  (congrArg State.keys (s.post_frame h op st rs) :)
@[simp] theorem State.post_sessions (s : State) (h : Hdr) (op st : Nat) (rs : List (Nat × Nat)) : (s.post h op st rs).sessions = s.sessions :=
  (congrArg State.sessions (s.post_frame h op st rs) :)
@[simp] theorem State.post_openFail (s : State) (h : Hdr) (op st : Nat) (rs : List (Nat × Nat)) : (s.post h op st rs).openFail = s.openFail :=
  (congrArg State.openFail (s.post_frame h op st rs) :)
@[simp] theorem State.post_openSec (s : State) (h : Hdr) (op st : Nat) (rs : List (Nat × Nat)) : (s.post h op st rs).openSec = s.openSec :=
  (congrArg State.openSec (s.post_frame h op st rs) :)
@[simp] theorem State.post_spFw (s : State) (h : Hdr) (op st : Nat) (rs : List (Nat × Nat)) : (s.post h op st rs).spFw = s.spFw :=
  (congrArg State.spFw (s.post_frame h op st rs) :)
@[simp] theorem State.post_mgFw (s : State) (h : Hdr) (op st : Nat) (rs : List (Nat × Nat)) : (s.post h op st rs).mgFw = s.mgFw :=
  (congrArg State.mgFw (s.post_frame h op st rs) :)
@[simp] theorem State.post_spRun (s : State) (h : Hdr) (op st : Nat) (rs : List (Nat × Nat)) : (s.post h op st rs).spRun = s.spRun :=
  (congrArg State.spRun (s.post_frame h op st rs) :)
@[simp] theorem State.post_mgRun (s : State) (h : Hdr) (op st : Nat) (rs : List (Nat × Nat)) : (s.post h op st rs).mgRun = s.mgRun :=
  (congrArg State.mgRun (s.post_frame h op st rs) :)
@[simp] theorem State.post_mgmtDown (s : State) (h : Hdr) (op st : Nat) (rs : List (Nat × Nat)) : (s.post h op st rs).mgmtDown = s.mgmtDown :=
  (congrArg State.mgmtDown (s.post_frame h op st rs) :)
@[simp] theorem State.post_boot (s : State) (h : Hdr) (op st : Nat) (rs : List (Nat × Nat)) : (s.post h op st rs).boot = s.boot :=
  (congrArg State.boot (s.post_frame h op st rs) :)
@[simp] theorem State.post_io (s : State) (h : Hdr) (op st : Nat) (rs : List (Nat × Nat)) : (s.post h op st rs).io = s.io :=
  (congrArg State.io (s.post_frame h op st rs) :)
@[simp] theorem State.post_fuses (s : State) (h : Hdr) (op st : Nat) (rs : List (Nat × Nat)) : (s.post h op st rs).fuses = s.fuses :=
  (congrArg State.fuses (s.post_frame h op st rs) :)
@[simp] theorem State.post_msix (s : State) (h : Hdr) (op st : Nat) (rs : List (Nat × Nat)) : (s.post h op st rs).msix = s.msix :=
  (congrArg State.msix (s.post_frame h op st rs) :)
@[simp] theorem State.post_errs (s : State) (h : Hdr) (op st : Nat) (rs : List (Nat × Nat)) : (s.post h op st rs).errs = s.errs :=
  (congrArg State.errs (s.post_frame h op st rs) :)
@[simp] theorem State.post_errNext (s : State) (h : Hdr) (op st : Nat) (rs : List (Nat × Nat)) : (s.post h op st rs).errNext = s.errNext :=
  (congrArg State.errNext (s.post_frame h op st rs) :)
@[simp] theorem State.post_flashErr (s : State) (h : Hdr) (op st : Nat) (rs : List (Nat × Nat)) : (s.post h op st rs).flashErr = s.flashErr :=
  (congrArg State.flashErr (s.post_frame h op st rs) :)
@[simp] theorem State.post_pFaults (s : State) (h : Hdr) (op st : Nat) (rs : List (Nat × Nat)) : (s.post h op st rs).pFaults = s.pFaults :=
  (congrArg State.pFaults (s.post_frame h op st rs) :)
@[simp] theorem State.post_jFaults (s : State) (h : Hdr) (op st : Nat) (rs : List (Nat × Nat)) : (s.post h op st rs).jFaults = s.jFaults :=
  (congrArg State.jFaults (s.post_frame h op st rs) :)
@[simp] theorem State.post_cnt (s : State) (h : Hdr) (op st : Nat) (rs : List (Nat × Nat)) : (s.post h op st rs).cnt = s.cnt :=
  (congrArg State.cnt (s.post_frame h op st rs) :)
@[simp] theorem State.post_round (s : State) (h : Hdr) (op st : Nat) (rs : List (Nat × Nat)) : (s.post h op st rs).round = s.round :=
  (congrArg State.round (s.post_frame h op st rs) :)
@[simp] theorem State.post_calFlash (s : State) (h : Hdr) (op st : Nat) (rs : List (Nat × Nat)) : (s.post h op st rs).calFlash = s.calFlash :=
  (congrArg State.calFlash (s.post_frame h op st rs) :)
@[simp] theorem State.post_calLoad (s : State) (h : Hdr) (op st : Nat) (rs : List (Nat × Nat)) : (s.post h op st rs).calLoad = s.calLoad :=
  (congrArg State.calLoad (s.post_frame h op st rs) :)
@[simp] theorem State.post_mgrDrop (s : State) (h : Hdr) (op st : Nat) (rs : List (Nat × Nat)) : (s.post h op st rs).mgrDrop = s.mgrDrop :=
  (congrArg State.mgrDrop (s.post_frame h op st rs) :)
@[simp] theorem State.post_detachCmd (s : State) (h : Hdr) (op st : Nat) (rs : List (Nat × Nat)) : (s.post h op st rs).detachCmd = s.detachCmd :=
  (congrArg State.detachCmd (s.post_frame h op st rs) :)
@[simp] theorem State.post_rota (s : State) (h : Hdr) (op st : Nat) (rs : List (Nat × Nat)) : (s.post h op st rs).rota = s.rota :=
  (congrArg State.rota (s.post_frame h op st rs) :)
@[simp] theorem State.post_rotaSet (s : State) (h : Hdr) (op st : Nat) (rs : List (Nat × Nat)) : (s.post h op st rs).rotaSet = s.rotaSet :=
  (congrArg State.rotaSet (s.post_frame h op st rs) :)

end Sys2Proof.Machine
end

