-- ==== Sys2Proof/Laws/Command.lean ====
section
/-! SUPPORT. Everything that accepting and completing a host command can do: the state in which an accepted command's own part
runs, its completion entry, and the two outcomes of a command that meets no earlier status. -/

namespace Sys2Proof.Machine

theorem put_put {α : Type} [DecidableEq α] (d : α) (m : SMap α) (k : Nat) (v w : α) :
    put d (put d m k v) k w = put d m k w := by
  have h1 : ∀ (m : SMap α), SMap.without (SMap.without m k) k = SMap.without m k := by
    intro m
    induction m with
    | nil => rfl
    | cons e m ih =>
      obtain ⟨j, u⟩ := e
      by_cases hj : k = j
      · simp only [SMap.without, if_pos hj]; exact ih
      · simp only [SMap.without, if_neg hj, ih]
  have h2 : ∀ (m : SMap α), (∀ e ∈ m, e.1 ≠ k) → SMap.without (SMap.place m k v) k = m := by
    intro m
    induction m with
    | nil => intro _; simp [SMap.place, SMap.without]
    | cons e m ih =>
      intro hm
      obtain ⟨j, u⟩ := e
      have hj : k ≠ j := fun h => hm (j, u) (List.mem_cons_self ..) h.symm
      have hr : ∀ e ∈ m, e.1 ≠ k := fun e he => hm e (List.mem_cons_of_mem _ he)
      have hw : SMap.without m k = m := by
        clear ih hm
        induction m with
        | nil => rfl
        | cons e m ih =>
          obtain ⟨i, u⟩ := e
          have hi : k ≠ i := fun h => hr (i, u) (List.mem_cons_self ..) h.symm
          rw [SMap.without, if_neg hi, ih (fun e he => hr e (List.mem_cons_of_mem _ he))]
      unfold SMap.place
      split
      · simp [SMap.without, hj, hw]
      · rw [SMap.without, if_neg hj, ih hr]
  have h3 : SMap.without (put d m k v) k = SMap.without m k := by
    unfold put
    split
    · exact h1 m
    · exact h2 _ (without_keys m k)
  unfold put at h3 ⊢
  rw [h3]

/-- Only the commands in progress and the in-flight count change. -/
theorem State.begin_frame (s : State) (h : Hdr) (op : Nat) :
    s.begin h op = { s with inProg := (s.begin h op).inProg, taken := (s.begin h op).taken, rings := (s.begin h op).rings } := by
  unfold State.begin
  simp only []
  split
  · rfl
  · split <;> rfl

/-- Reading a table under a second default after a write under the first. -/
theorem look_put_other {α : Type} [DecidableEq α] (d e : α) (m : SMap α) (k : Nat) (v : α) (j : Nat) :
    look e (put d m k v) j = if j = k then (if v = d then e else v) else look e m j := by
  unfold put
  split
  · rename_i hv
    by_cases h : j = k
    · subst h; simp [look_without_same]
    · simp [h, look_without_ne e m h]
  · rename_i hv
    rw [look_place e _ k v j (without_keys m k)]
    by_cases h : j = k
    · simp [h]
    · simp [h, look_without_ne e m h]

theorem State.begin_ring (s : State) (h : Hdr) (op fn k q : Nat) :
    ((s.begin h op).ring fn k q).enable = (s.ring fn k q).enable := by
  have hdef : ∀ (i j : Nat) (m : SMap Ring) (a : Nat), (look (ringReset i) m a).enable = (look (ringReset j) m a).enable := by
    intro i j m a
    induction m with
    | nil => rfl
    | cons e m ih => simp only [look]; split <;> first | rfl | exact ih
  unfold State.begin
  simp only []
  split
  · rfl
  · split
    · rfl
    · simp only [State.ring, State.setRing]
      rw [look_put_other]
      split
      · rename_i he
        rw [hdef q 0 s.rings, he]
        split
        · rename_i hv
          have := congrArg Ring.enable hv
          simpa [ringReset] using this.symm
        · rfl
      · rfl

/-- A command that passes stages 1 to 4 takes the session's counter and is counted. -/
theorem State.accepts_passes (s : State) (h : Hdr) (op : Nat) (henc : h.encOk = true) (hdma : h.dmaOk = true)
    (hs : sessionless op = true ∨ ∃ x, s.session h.sid = some x ∧ x.proved = true ∧ h.tag = cmdTag x.key h op ∧ x.counter < h.counter ∧
      s.denied h op x = false) :
    ∃ t, s.accepts h op false true = (t, none) ∧
      t = { s with sessions := t.sessions, counters := t.counters, health := t.health } ∧
      ∀ k, k ≠ h.sid → t.session k = s.session k := by
  unfold State.accepts
  simp only [henc, hdma, Bool.not_true, Bool.false_and, Bool.or_false, Bool.false_eq_true, if_false]
  by_cases hl : sessionless op = true
  · simp only [hl, if_true]
    exact ⟨_, rfl, rfl, fun k _ => rfl⟩
  · obtain ⟨x, hx, hp, ht, hc, hd⟩ := hs.resolve_left hl
    have hc' : ¬ h.counter ≤ x.counter := Nat.not_le.2 hc
    have ht' : ¬ h.tag ≠ cmdTag x.key h op := fun hn => hn ht
    simp only [hl, hx, hp, ht', hc', decide_false, Bool.not_true, Bool.or_false, Bool.false_eq_true, if_false]
    have hd' : ∀ m : SMap (Option Session), State.denied (State.count { s with sessions := m } locHub 0x408 1) h op x = false :=
      fun m => hd
    rw [hd']
    simp only [Bool.false_eq_true, if_false]
    refine ⟨_, rfl, rfl, fun k hk => ?_⟩
    simp [State.session, look_put, hk]

/-- An accepted command: its own part runs, and a completion that it gives is posted. -/
theorem State.command_runs (s : State) (h : Hdr) (op : Nat) (body : State → Did) (hv : s.serves h = true) (hw : s.waits h op = false)
    (henc : h.encOk = true) (hdma : h.dmaOk = true) (hres : h.resOk = true)
    (hs : sessionless op = true ∨ ∃ x, s.session h.sid = some x ∧ x.proved = true ∧ h.tag = cmdTag x.key h op ∧ x.counter < h.counter ∧
      s.denied h op x = false) :
    s.command h op false true body =
      match body ((s.begin h op).accepts h op false true).1 with
      | (t, none) => ok t
      | (t, some (st, res)) => ok (t.post h op st res) := by
  have hs' : sessionless op = true ∨ ∃ x, (s.begin h op).session h.sid = some x ∧ x.proved = true ∧ h.tag = cmdTag x.key h op ∧
      x.counter < h.counter ∧ (s.begin h op).denied h op x = false := by
    rw [s.begin_frame h op]
    exact hs
  obtain ⟨t, ht, -, -⟩ := (s.begin h op).accepts_passes h op henc hdma hs'
  unfold State.command
  simp only [hv, hw, Bool.not_true, Bool.or_false, Bool.false_eq_true, if_false, ht]
  cases hb : body t with
  | mk u r =>
    cases r with
    | none => rfl
    | some v =>
      obtain ⟨st, res⟩ := v
      simp [finalStatus, hres]

/-- The state in which an accepted command's own part runs differs from the one before in the session's counter, the counters,
the commands in progress and the in-flight count only. -/
theorem State.ready_frame (s : State) (h : Hdr) (op : Nat) (henc : h.encOk = true) (hdma : h.dmaOk = true)
    (hs : sessionless op = true ∨ ∃ x, s.session h.sid = some x ∧ x.proved = true ∧ h.tag = cmdTag x.key h op ∧ x.counter < h.counter ∧
      s.denied h op x = false) :
    ∃ t, ((s.begin h op).accepts h op false true).1 = t ∧
      t = { s with inProg := t.inProg, taken := t.taken, rings := t.rings, sessions := t.sessions, counters := t.counters, health := t.health } ∧
      (∀ k, k ≠ h.sid → t.session k = s.session k) ∧ ∀ fn k q, (t.ring fn k q).enable = (s.ring fn k q).enable := by
  have hs' : sessionless op = true ∨ ∃ x, (s.begin h op).session h.sid = some x ∧ x.proved = true ∧ h.tag = cmdTag x.key h op ∧
      x.counter < h.counter ∧ (s.begin h op).denied h op x = false := by
    rw [s.begin_frame h op]
    exact hs
  obtain ⟨t, ht, hf, hk⟩ := (s.begin h op).accepts_passes h op henc hdma hs'
  refine ⟨t, by rw [ht], ?_, fun k hne => ?_, fun fn k q => ?_⟩
  · rw [hf, s.begin_frame h op]
  · rw [hk k hne, s.begin_frame h op]; rfl
  · rw [hf]
    exact s.begin_ring h op fn k q

/-- A completion entry is written for a command whose completion is not discarded and whose ring is enabled. -/
theorem State.post_answered (s : State) (h : Hdr) (op st : Nat) (res : List (Nat × Nat)) (hm : (h, op) ∉ s.mute)
    (hr : h.fn = 17 ∨ (s.ring h.fn h.set 1).enable = true) : Answered (s.post h op st res) h op st res := by
  have hf : ∀ (u : State), u.mute = s.mute → u.rings = s.rings → ∀ k, Answered (u.replyTo k h op st res) h op st res := by
    intro u hu hru k
    have hc : u.mute.contains (h, op) = false := by
      rw [hu]
      simpa using hm
    unfold State.replyTo
    simp only [hc, Bool.false_eq_true, if_false]
    by_cases h17 : h.fn = 17
    · simp only [h17, if_true]
      exact ⟨_, _, _, by simp only [State.send, List.mem_append, List.mem_singleton]; exact Or.inr rfl⟩
    · have hen : (s.ring h.fn h.set 1).enable = true := hr.resolve_left h17
      simp only [h17, if_false]
      have hne : ringKey h.fn h.set 1 ≠ ringKey h.fn h.set 0 := by unfold ringKey; omega
      have hen' : (u.ring h.fn h.set 1).enable = true := by
        unfold State.ring at hen ⊢
        rw [hru]; exact hen
      simp only [State.ring, State.setRing] at hen' ⊢
      simp only [look_put_other, if_neg hne, hen', Bool.not_true, Bool.false_eq_true, if_false]
      have hsig : ∀ (v : State) (fn k n : Nat) (m : Sent), m ∈ v.out → m ∈ (v.signal fn k n).out := by
        intro v fn k n m hm
        unfold State.signal
        split
        · exact hm
        · exact List.mem_append_left _ hm
      exact ⟨_, _, _, hsig _ _ _ _ _ (List.mem_append_right _ (List.mem_singleton.2 rfl))⟩
  exact hf _ (by simp) (by simp) _

end Sys2Proof.Machine
end

