-- ==== Sys2Proof/Laws/Issue.lean ====
section
/-! SUPPORT. Everything that issuing a cell instruction can do: it runs, it faults, or nothing issues. -/

namespace Sys2Proof.Machine

@[simp] theorem settle_fault (x : Cell) (t : Nat) : (x.settle t).fault = x.fault := by
  have hw : ∀ (l : List (Nat × Bool)) (x : Cell), (l.foldl (fun x e => x.writeP e.1 e.2) x).fault = x.fault := by
    intro l
    induction l with
    | nil => intro x; rfl
    | cons e l ih =>
      intro x
      rw [List.foldl_cons, ih]
      unfold Cell.writeP
      split <;> rfl
  have h1 : ∀ (x : Cell) (w : RegWrite), (x.landOne w).fault = x.fault := by
    intro x w
    cases w with
    | g r v => unfold Cell.landOne Cell.writeG; simp only []; split <;> rfl
    | p l => exact hw l x
    | v r l => rfl
    | agSet a f v => rfl
    | agMove a d => rfl
  have h2 : ∀ (l : List PendRes) (x : Cell), (l.foldl (fun x r => x.landOne r.w) x).fault = x.fault := by
    intro l
    induction l with
    | nil => intro x; rfl
    | cons e l ih => intro x; rw [List.foldl_cons, ih, h1]
  have h3 : ∀ (x : Cell) (t : Nat), (x.land t).fault = x.fault := by
    intro x t
    unfold Cell.land
    simp only []
    rw [h2]
  have h4 : ∀ (x : Cell) (t : Nat), (x.endIter t).fault = x.fault := by
    intro x t
    unfold Cell.endIter
    split
    · rfl
    · split
      · have h5 : ∀ (y : Cell) (l : LoopSt), (y.iterEnd l).fault = y.fault := fun y l => by simp only [Cell.iterEnd]
        rw [h5, h3]
      · rfl
  unfold Cell.settle
  split
  · rfl
  · rw [h3, h4]

/-- An instruction that meets no cause runs. -/
theorem issue_runs {c : Nat} {e : En} {word : Word} {f : Cell → Issue} {s : State} (hr : CellReady s c e)
    (ha : (f (s.atIssue c)).always = []) (hw : (f (s.atIssue c)).whenEn = []) :
    ∃ t, issue c e word f s = t ∧ OnlyCell s t c ∧
      t.cell c = (f (s.atIssue c)).effect ((f (s.atIssue c)).hold ((s.atIssue c).issued s.cycle (f (s.atIssue c)).slots)) := by
  obtain ⟨hc, hp, he, hf⟩ := hr
  refine ⟨_, rfl, ?_⟩
  have hp' : ¬ ((s.cell c).settle s.cycle).pc > 8191 := by
    have : (s.atIssue c).pc ≤ 8191 := hp
    unfold State.atIssue at this
    omega
  unfold State.atIssue at he ha hw
  unfold issue
  simp only [hc, Bool.not_true, Bool.false_eq_true, if_false, if_neg hp', ha, hw, he, if_true]
  have hf' : decide (e.fecc = Ecc.uncorrectable) = false := by simpa using hf
  simp only [hf', cause, Bool.false_eq_true, if_false, List.append_nil, lowest]
  split <;> split <;>
    exact ⟨⟨rfl, fun k hk => by simp [State.setCell_cell_ne _ _ hk]⟩, by simp [State.atIssue, Cell.issued]⟩

/-- A cell fault of a cell that has none yet. -/
theorem cellFault_first (s : State) (c code d0 d1 : Nat) (hf : (s.cell c).fault = none) :
    ∃ r, r.cls = .partition ∧ r.code = code ∧ r.parts = (s.cellOwner c).toList ∧ r.unit = locCell c ∧ r.cycle = s.cycle ∧
      s.cellFault c code d0 d1 = (s.setCell c { s.cell c with fault := some ⟨code, s.cycle⟩ }).raise r := by
  refine ⟨{ cls := .partition, code, parts := (s.cellOwner c).toList, unit := locCell c, d0, d1,
            cycle := s.cycle, ending := false }, rfl, rfl, rfl, rfl, rfl, ?_⟩
  unfold State.cellFault
  simp only [hf]

/-- A second cause of the cycle leaves a cell's first fault standing unless its code is lower (R546). -/
theorem cellFault_keeps (s : State) (c code d0 d1 : Nat) {f : CellFault} (hf : (s.cell c).fault = some f)
    (hc : ¬ (f.cycle = s.cycle ∧ code < f.code)) : s.cellFault c code d0 d1 = s := by
  unfold State.cellFault
  simp only [hf, if_neg hc]

/-- The lowest cause that an instruction meets in a cell without a fault stops the cell and nothing else happens to the cell. -/
theorem issue_faults {c : Nat} {e : En} {word : Word} {f : Cell → Issue} {s : State} {code : Nat} (hc : s.canIssue c = true)
    (hn : (s.cell c).fault = none) (hp : (s.atIssue c).pc ≤ 8191)
    (hl : lowest (cause (decide (e.fecc = .uncorrectable)) 0x09 ++ (f (s.atIssue c)).always
      ++ (if (s.atIssue c).enabled e then (f (s.atIssue c)).whenEn else [])) = some code) :
    ∃ t r, issue c e word f s = t ∧
      t.cell c = { s.atIssue c with fault := some ⟨code, s.cycle⟩, issueFree := s.cycle + 1 } ∧
      (∀ k, k ≠ c → t.cell k = s.cell k) ∧ t.raised = s.raised ++ [r] ∧
      r.cls = .partition ∧ r.code = code ∧ r.parts = (s.cellOwner c).toList ∧ r.unit = locCell c ∧ r.cycle = s.cycle := by
  have hp' : ¬ ((s.cell c).settle s.cycle).pc > 8191 := by
    unfold State.atIssue at hp
    omega
  unfold State.atIssue at hl
  have hcount : ∀ (u : State), (u = s ∨ u = s.count (locCell c) 0x00B 1) →
      ∀ (x : Cell) (d0 d1 : Nat), x.fault = none → ∃ r, (∀ k, ((u.setCell c x).cellFault c code d0 d1).cell k =
        if k = c then { x with fault := some ⟨code, s.cycle⟩ } else s.cell k) ∧
        ((u.setCell c x).cellFault c code d0 d1).raised = s.raised ++ [r] ∧
        r.cls = .partition ∧ r.code = code ∧ r.parts = (s.cellOwner c).toList ∧ r.unit = locCell c ∧ r.cycle = s.cycle := by
    intro u hu x d0 d1 hx
    obtain ⟨r, h1, h2, h3, h4, h5, h6⟩ := cellFault_first (u.setCell c x) c code d0 d1 (by simpa using hx)
    have hr : (u.setCell c x).raised = s.raised := by rcases hu with rfl | rfl <;> rfl
    have hy : (u.setCell c x).cycle = s.cycle := by rcases hu with rfl | rfl <;> rfl
    have ho : (u.setCell c x).cellOwner c = s.cellOwner c := by rcases hu with rfl | rfl <;> rfl
    refine ⟨r, fun k => ?_, ?_, h1, h2, by rw [h3, ho], h4, by rw [h5, hy]⟩
    · rw [h6]
      by_cases hk : k = c
      · subst hk
        have hy' : u.cycle = s.cycle := hy
        simp [hy']
      · rcases hu with rfl | rfl <;> simp [State.setCell_cell_ne _ _ hk, hk]
    · rw [h6, ← hr]; rfl
  have hx : ({ (s.cell c).settle s.cycle with issueFree := s.cycle + 1 } : Cell).fault = none := by simp [hn]
  obtain ⟨r, h1, h2, h3⟩ := hcount (if e.fecc = .corrected then s.count (locCell c) 0x00B 1 else s) (by split <;> simp)
    { (s.cell c).settle s.cycle with issueFree := s.cycle + 1 } word.toNat
    (if code = 0x09 then cellD1 ((s.cell c).settle s.cycle).pc (s.bankOf c) 3 ((s.cell c).settle s.cycle).pc
     else cellD1 ((s.cell c).settle s.cycle).pc (s.bankOf c) 0 0) hx
  refine ⟨_, r, rfl, ?_⟩
  unfold issue
  simp only [hc, Bool.not_true, Bool.false_eq_true, if_false, if_neg hp', hl]
  refine ⟨?_, fun k hk => ?_, h2, h3⟩
  · rw [h1]; simp [State.atIssue]
  · rw [h1]; simp [hk]

end Sys2Proof.Machine
end

