-- ==== Sys2Proof/WellFormed.lean ====
section
/-! DEFINITION. Well-formed commands: every operand that numbers a unit names one the hardware has, and every header field fits its
width. Values that a host command carries in its parameters are not checked here: the command's meaning answers BAD_PARAM. -/

namespace Sys2Proof

/-- A physical cell: block 0 to 63, cell 0 to 17 (Table 3.3). -/
def cellOk (c : CellId) : Bool := decide (c < 2048 ∧ c % 32 < 18)

/-- A command header: function 0 to 16 or the management connector, set 0 or 1, field widths of Table 17.7. -/
def hdrOk (h : Hdr) : Bool :=
  decide (h.fn ≤ 17 ∧ h.set < 2 ∧ h.cid < 2 ^ 16 ∧ h.sid < 2 ^ 16 ∧ h.part < 256 ∧ h.counter < 2 ^ 64 ∧ h.rmax ≤ 2 ^ 24)

/-- A manager message: field widths of Table 14.3. -/
def msgOk (m : MgrMsg) : Bool :=
  decide (m.kind < 256 ∧ m.cause < 256 ∧ m.sender < 2 ^ 16 ∧ m.job < 2 ^ 32 ∧ m.seq < 2 ^ 32 ∧ m.subject < 2 ^ 16 ∧ m.aux < 2 ^ 16 ∧
    m.dseq < 2 ^ 32 ∧ m.arg0 < 2 ^ 64 ∧ m.arg1 < 2 ^ 64 ∧ m.arg2 < 2 ^ 64)

/-- The sensor exists (Table 18.16). -/
def sensorOk (g : SensorGroup) (i : Nat) : Bool :=
  match g with
  | .region => decide (i < 4)
  | .hub => decide (i < 1)
  | .stack => decide (i < 12)
  | .cold => decide (i < 1)
  | .converter => decide (i < 5)
  | .regulator => decide (i < 18)

/-- Well-formedness, one arm per constructor. -/
def Instr.wf (i : Instr) : Bool :=
  match i with
  | .nopC c _ _ => cellOk c
  | .addI64 c _ => cellOk c
  | .subI64 c _ => cellOk c
  | .andB64 c _ => cellOk c
  | .orB64 c _ => cellOk c
  | .xorB64 c _ => cellOk c
  | .shlB64 c _ => cellOk c
  | .shrU64 c _ => cellOk c
  | .sarS64 c _ => cellOk c
  | .minS64 c _ => cellOk c
  | .maxS64 c _ => cellOk c
  | .minU64 c _ => cellOk c
  | .maxU64 c _ => cellOk c
  | .mulI64 c _ => cellOk c
  | .mulhU64 c _ => cellOk c
  | .divU64 c _ => cellOk c
  | .remU64 c _ => cellOk c
  | .addiI64 c _ => cellOk c
  | .andiB64 c _ => cellOk c
  | .oriB64 c _ => cellOk c
  | .xoriB64 c _ => cellOk c
  | .shliB64 c _ => cellOk c
  | .shriU64 c _ => cellOk c
  | .sariS64 c _ => cellOk c
  | .lihB64 c _ => cellOk c
  | .muliI64 c _ => cellOk c
  | .ld c _ => cellOk c
  | .st c _ => cellOk c
  | .ldx c _ => cellOk c
  | .stx c _ => cellOk c
  | .ceqI64 c _ => cellOk c
  | .cneI64 c _ => cellOk c
  | .cltS64 c _ => cellOk c
  | .cgeS64 c _ => cellOk c
  | .cltU64 c _ => cellOk c
  | .cgeU64 c _ => cellOk c
  | .ceqiI64 c _ => cellOk c
  | .cneiI64 c _ => cellOk c
  | .cltiS64 c _ => cellOk c
  | .cgeiS64 c _ => cellOk c
  | .cltiU64 c _ => cellOk c
  | .cgeiU64 c _ => cellOk c
  | .pandP c _ => cellOk c
  | .porP c _ => cellOk c
  | .pxorP c _ => cellOk c
  | .pandnP c _ => cellOk c
  | .psetP c _ => cellOk c
  | .pclrP c _ => cellOk c
  | .prdP16 c _ => cellOk c
  | .pwrP16 c _ => cellOk c
  | .rdsrI64 c _ => cellOk c
  | .waitC c _ => cellOk c
  | .waitoC c _ => cellOk c
  | .stependC c _ => cellOk c
  | .loopC c _ => cellOk c
  | .agsetA24 c _ => cellOk c
  | .agrdU24 c _ => cellOk c
  | .lcrdU11 c _ => cellOk c
  | .agaddA24 c _ => cellOk c
  | .vaddF32 c _ => cellOk c
  | .vsubF32 c _ => cellOk c
  | .vmulF32 c _ => cellOk c
  | .vfmaF32 c _ => cellOk c
  | .vminF32 c _ => cellOk c
  | .vmaxF32 c _ => cellOk c
  | .vabsF32 c _ => cellOk c
  | .vnegF32 c _ => cellOk c
  | .vaddI32 c _ => cellOk c
  | .vsubI32 c _ => cellOk c
  | .vmulI32 c _ => cellOk c
  | .vandB32 c _ => cellOk c
  | .vorB32 c _ => cellOk c
  | .vxorB32 c _ => cellOk c
  | .vshlB32 c _ => cellOk c
  | .vshrU32 c _ => cellOk c
  | .vsarS32 c _ => cellOk c
  | .vminS32 c _ => cellOk c
  | .vmaxS32 c _ => cellOk c
  | .vminU32 c _ => cellOk c
  | .vmaxU32 c _ => cellOk c
  | .vrcpF32 c _ => cellOk c
  | .vsqrtF32 c _ => cellOk c
  | .vrsqrtF32 c _ => cellOk c
  | .vexp2F32 c _ => cellOk c
  | .vlog2F32 c _ => cellOk c
  | .vceqF32 c _ => cellOk c
  | .vcltF32 c _ => cellOk c
  | .vcleF32 c _ => cellOk c
  | .vcunF32 c _ => cellOk c
  | .vceqI32 c _ => cellOk c
  | .vcltS32 c _ => cellOk c
  | .vcltU32 c _ => cellOk c
  | .vcleS32 c _ => cellOk c
  | .vrsumF32 c _ => cellOk c
  | .vrmaxF32 c _ => cellOk c
  | .vrminF32 c _ => cellOk c
  | .vrsumI32 c _ => cellOk c
  | .vmxscE2m1 c _ => cellOk c
  | .vmxscE2m3 c _ => cellOk c
  | .vmxscE3m2 c _ => cellOk c
  | .vmxscE4m3 c _ => cellOk c
  | .vmxscE5m2 c _ => cellOk c
  | .vmxscI8 c _ => cellOk c
  | .vldL c _ => cellOk c
  | .vstL c _ => cellOk c
  | .vgatherU8 c _ => cellOk c
  | .vgatherU16 c _ => cellOk c
  | .vgatherB32 c _ => cellOk c
  | .vscatterB8 c _ => cellOk c
  | .vscatterB16 c _ => cellOk c
  | .vscatterB32 c _ => cellOk c
  | .vcvtI32F32 c _ => cellOk c
  | .vcvtF32I32 c _ => cellOk c
  | .vpkBf16 c _ => cellOk c
  | .vpkF16 c _ => cellOk c
  | .vpkE4m3 c _ => cellOk c
  | .vpkE5m2 c _ => cellOk c
  | .vpkE2m3 c _ => cellOk c
  | .vpkE3m2 c _ => cellOk c
  | .vpkE2m1 c _ => cellOk c
  | .vpkI8 c _ => cellOk c
  | .vpkI4 c _ => cellOk c
  | .vunpkBf16 c _ => cellOk c
  | .vunpkF16 c _ => cellOk c
  | .vunpkE4m3 c _ => cellOk c
  | .vunpkE5m2 c _ => cellOk c
  | .vunpkE2m3 c _ => cellOk c
  | .vunpkE3m2 c _ => cellOk c
  | .vunpkE2m1 c _ => cellOk c
  | .vunpkI8 c _ => cellOk c
  | .vunpkI4 c _ => cellOk c
  | .vscaleE8m0 c _ => cellOk c
  | .vmovB32 c _ => cellOk c
  | .vbcastB32 c _ => cellOk c
  | .viotaI32 c _ => cellOk c
  | .vpermB32 c _ => cellOk c
  | .vinsB32 c _ => cellOk c
  | .vextB32 c _ => cellOk c
  | .mlw c _ => cellOk c
  | .mma c _ _ => cellOk c
  | .mcvt c _ => cellOk c
  | .mstxX128 c _ => cellOk c
  | .maddxX128 c _ => cellOk c
  | .mclrX128 c _ => cellOk c
  | .resultLanding c => cellOk c
  | .scalarMemoryAccess c _ => cellOk c
  | .vectorPortAccess c _ => cellOk c
  | .loopIterationEnd c => cellOk c
  | .weightLineWrite c => cellOk c
  | .weightTagSet c => cellOk c
  | .mmaRowLanding c _ => cellOk c
  | .accRowRead c _ => cellOk c
  | .maddxGroupLanding c _ => cellOk c
  | .mclrZeroing c => cellOk c
  | .sequencerEntry _ => true
  | .crossbarRow b _ => decide (b < 64)
  | .crossbarBeatDelivery b _ => decide (b < 64)
  | .routerRow b _ _ => decide (b < 64)
  | .barrowGo b w _ _ _ => decide (b < 64 ∧ w < 2)
  | .barrowLine b w _ => decide (b < 64 ∧ w < 2)
  | .instructionLoadComplete p => decide (p < 16)
  | .frameBoundary => true
  | .stepBoundary p => decide (p < 16)
  | .bodyBoundary p => decide (p < 16)
  | .epochBoundary p => decide (p < 16)
  | .windowEngineSchedule p => decide (p < 16)
  | .jobZero => true
  | .stackRead k _ _ => decide (k < 12)
  | .stackDataReturn k => decide (k < 12)
  | .stackWriteOpen k _ => decide (k < 12)
  | .stackWriteBeat k _ => decide (k < 12)
  | .stackRefresh k ch => decide (k < 12 ∧ ch < 16)
  | .stackScrub k ch _ => decide (k < 12 ∧ ch < 16)
  | .retrainSweepDue => true
  | .stackRetrainStep k ch _ _ => decide (k < 12 ∧ ch < 16)
  | .rowRepair k ch => decide (k < 12 ∧ ch < 16)
  | .dieEvacuation k => decide (k < 12)
  | .spareDieAssign k => decide (k < 12)
  | .mergeFetch k _ _ => decide (k < 12)
  | .mergedRead k _ _ _ _ => decide (k < 12)
  | .leaseZeroise p _ _ => decide (p < 16)
  | .zeroDone p _ _ => decide (p < 16)
  | .coldRequest _ _ => true
  | .coldDataReturn => true
  | .coldRefresh ch _ _ => decide (ch < 16)
  | .coldChannelCopy => true
  | .coldSpared => true
  | .completionFlagSet p _ => decide (p < 16)
  | .completionFlagVisible p _ => decide (p < 16)
  | .stepResultPost p => decide (p < 16)
  | .parkCopy p _ => decide (p < 16)
  | .parked p _ => decide (p < 16)
  | .parkExpiryCheck => true
  | .expired p _ => decide (p < 16)
  | .resumeCopyDone p _ => decide (p < 16)
  | .slotTransmit i _ _ => decide (i < 12)
  | .controlFlitTx i => decide (i < 12)
  | .flitReceive i _ _ => decide (i < 12)
  | .controlFlitRx i => decide (i < 12)
  | .flitDeliver i _ => decide (i < 12)
  | .forwardLaunch i => decide (i < 12)
  | .spareDualSend i => decide (i < 12)
  | .laneSpared i => decide (i < 12)
  | .spareOkRestore i => decide (i < 12)
  | .portTraining i _ => decide (i < 12)
  | .fastRetrain i _ => decide (i < 12)
  | .linkDown i _ _ => decide (i < 12)
  | .dynRequestRx => true
  | .dynResponseRx => true
  | .dynForward i => decide (i < 12)
  | .dynTimeout ch tag => decide (ch < 4 ∧ tag < 65536)
  | .quarantineResend ch tag => decide (ch < 4 ∧ tag < 65536)
  | .shadowFlitRx => true
  | .twinMapTransfer q _ => decide (q < 16)
  | .twinParkCopy q _ => decide (q < 16)
  | .twinRelease q _ => decide (q < 16)
  | .twinShadowServe q _ => decide (q < 16)
  | .pairKeyExchange _ => true
  | .twinHeartbeatLost => true
  | .frameMark _ _ _ => true
  | .hallLost => true
  | .timeRefLost => true
  | .refChangeover => true
  | .gustSwitch => true
  | .rotReadyLatch p => decide (p < 16)
  | .managerRound => true
  | .health m => msgOk m
  | .seeded m => msgOk m
  | .notSeeded m => msgOk m
  | .vote m => msgOk m
  | .startAt m => msgOk m
  | .prune m => msgOk m
  | .graft m => msgOk m
  | .resumeAt m => msgOk m
  | .teardown m => msgOk m
  | .reseed m => msgOk m
  | .managerReplace m => msgOk m
  | .seedTransfer p _ => decide (p < 16)
  | .seedAck p child _ => decide (p < 16 ∧ child < 12)
  | .seedTimeout p => decide (p < 16)
  | .windbreakEstimate => true
  | .overpower => true
  | .thermalSensorRead g idx _ => sensorOk g idx
  | .thermalStageStep => true
  | .coolantLost _ => true
  | .converterFailure i => decide (i < 5)
  | .phaseFailure rail => decide (rail < 18)
  | .railFault rail _ => decide (rail < 18)
  | .supplyUv _ => true
  | .supplyOv _ => true
  | .inputLockout _ => true
  | .inputTurnOn _ => true
  | .clipDetOpen => true
  | .trayRstN => true
  | .moduleReset _ => true
  | .ready _ => true
  | .domainSwitch d _ => decide (d < 96)
  | .sessionTimeout sid => decide (sid < 65536)
  | .proveWindowExpiry sid => decide (sid < 65536)
  | .passLockExpiry => true
  | .managementRestartDone => true
  | .fwActivateTimeout _ => true
  | .selfCalibrateDone _ => true
  | .hostLinkReset link _ => decide (link < 2)
  | .ideKeyChange link stream => decide (link < 2 ∧ stream < 8)
  | .doorbellWrite fn k q _ => decide (fn < 17 ∧ k < 2 ∧ q < 4)
  | .ringEnable fn k q => decide (fn < 17 ∧ k < 2 ∧ q < 4)
  | .ringDisable fn k q => decide (fn < 17 ∧ k < 2 ∧ q < 4)
  | .submissionFetch h _ => hdrOk h
  | .mgmtDatagram h _ => hdrOk h
  | .counterSelect _ => true
  | .counterSample => true
  | .portWmRestart i => decide (i < 12)
  | .islandLagRestart i => decide (i < 95)
  | .pwrPeakRestart => true
  | .registerWrite fn off _ => decide (fn < 19 ∧ off < 2 ^ 24)
  | .hubDomWrite _ => true
  | .seqResetWrite _ => true
  | .sessionOpen h _ _ => hdrOk h
  | .sessionProve h _ _ => hdrOk h
  | .passOpen h => hdrOk h
  | .passProve h _ _ => hdrOk h
  | .sessionClose h => hdrOk h
  | .identityRead h => hdrOk h
  | .attest h _ => hdrOk h
  | .auditRead h _ _ _ => hdrOk h
  | .roleKeySet h _ _ _ _ => hdrOk h
  | .passphraseSet h _ => hdrOk h
  | .tenantBind h _ _ => hdrOk h
  | .tenantUnbind h _ _ => hdrOk h
  | .keyRotate h => hdrOk h
  | .twinPair h _ => hdrOk h
  | .provision h _ _ => hdrOk h
  | .debugUnlock h _ => hdrOk h
  | .partCreate h _ => hdrOk h
  | .partResize h _ => hdrOk h
  | .partDestroy h => hdrOk h
  | .partStatus h => hdrOk h
  | .zeroiseAll h => hdrOk h
  | .planLoad h _ _ _ _ => hdrOk h
  | .planSectionLoad h _ _ _ => hdrOk h
  | .planCheck h _ _ _ _ => hdrOk h
  | .planUnload h => hdrOk h
  | .planStart h _ => hdrOk h
  | .planStop h => hdrOk h
  | .planBankSwitch h => hdrOk h
  | .planResume h _ => hdrOk h
  | .bundleLoad h _ _ _ _ _ => hdrOk h
  | .bundleLoadDone p => decide (p < 16)
  | .bundleStatus h _ _ => hdrOk h
  | .bundleFree h _ _ => hdrOk h
  | .rotate h _ => hdrOk h
  | .coldStage h _ _ _ _ => hdrOk h
  | .slotInput h _ _ _ _ => hdrOk h
  | .slotAccept h _ _ => hdrOk h
  | .slotDeadline h _ _ => hdrOk h
  | .slotEdit h _ _ _ => hdrOk h
  | .slotResume h _ _ => hdrOk h
  | .parkStatus h _ => hdrOk h
  | .parkDrop h _ => hdrOk h
  | .slotRead h _ => hdrOk h
  | .jobJoin h _ _ => hdrOk h
  | .jobStatus h => hdrOk h
  | .jobLeave h => hdrOk h
  | .managerSet h _ _ _ _ _ => hdrOk h
  | .seedSource h _ _ => hdrOk h
  | .spareOffer h _ _ => hdrOk h
  | .detachPrepare h => hdrOk h
  | .detachCancel h => hdrOk h
  | .jobEnd h _ => hdrOk h
  | .portOpen h _ _ _ _ _ => hdrOk h
  | .portFence h _ => hdrOk h
  | .fabricCopy h _ => hdrOk h
  | .fabricStatus h _ => hdrOk h
  | .powerStatus h => hdrOk h
  | .powerCapSet h _ => hdrOk h
  | .powerFloorSet h _ => hdrOk h
  | .windbreakMode h _ => hdrOk h
  | .energyRead h => hdrOk h
  | .counterSet h _ _ _ _ => hdrOk h
  | .counterRead h _ _ => hdrOk h
  | .errorLogRead h _ _ => hdrOk h
  | .healthRead h => hdrOk h
  | .cellRetire h _ _ => hdrOk h
  | .diagRun h _ _ _ => hdrOk h
  | .rmaDiag h _ _ _ _ _ => hdrOk h
  | .fwInstall h _ _ => hdrOk h
  | .fwActivate h _ _ => hdrOk h
  | .fwStatus h _ => hdrOk h
  | .fwMinAdvance h _ => hdrOk h
  | .calRead h _ => hdrOk h
  | .calWrite h _ _ _ => hdrOk h
  | .selfCalibrate h _ _ => hdrOk h
  | .portConfig h _ _ _ => hdrOk h
  | .hostLinkConfig h _ => hdrOk h
  | .fuseWrite h _ _ => hdrOk h
  | .missingPulse => true
  | .spareLaneSegment i _ => decide (i < 12)
  | .trayRstNHigh => true
  | .perstNRelease n => decide (n < 2)
  | .setdasa _ => true
  | .hubDomBootDone _ => true
  | .fwInstallDone _ _ => true
  | .coldStageDone p => decide (p < 16)

end Sys2Proof
end

