-- ==== Sys2Proof/Tests/Slice0.lean ====
section
/-! SUPPORT. The author's own tests: well-formedness, words of the cell's instructions, one step on small states, and for every
statement with hypotheses a state and operands that meet them. Expected values come from the spec's tables and worked
examples, named at each test. -/

namespace Sys2Proof.Tests

set_option Elab.async false

open Sys2Proof Sys2Proof.Machine Sys2Proof.Stmt

/-- The state after a command. -/
def after (i : Instr) (s : State) : State :=
  match exec i s with
  | .next t => t
  | _ => s

/-- An instruction's common fields: predicate p0, no error at fetch. -/
def e0 : En := ⟨0, false, .ok⟩

def part0 : Part := { st := .running, planTime := 50 }
def block0 : Block := { owner := some 0, map := List.range 16, codePos := 0xFFFF, usedPos := 0xFFFF }

/-- Cell 0 of block 0 of partition 0, which is RUNNING, in cycle 50 of the step. -/
def runs (x : Cell) : State := { cycle := 50, parts := [(0, part0)], blocks := [(0, block0)], cells := [(0, x)] }

def cell0 : Cell := { stepEnd := false, pc := 3, g := [(1, 5#64), (2, 7#64)] }
def s0 : State := runs cell0

/-- A command of session 1 through PF0, about partition 0. -/
def hdr0 : Hdr :=
  { fn := 0, set := 0, cid := 1, sid := 1, part := 0, indir := false, fence := false, counter := 1, plen := 0, rmax := 4096, tag := 0
    body := [], data := [], encOk := true, dmaOk := true, resOk := true }
/-- The same with the tag of opcode `op` under the key of session 1. -/
def hdrFor (op : Nat) : Hdr := { hdr0 with tag := cmdTag 0 hdr0 op }

/-! ### Well-formedness: one ill-formed term for each check -/

def dyn0 : DynHdr := { dst := 0, src := 0, dpart := 0, rpart := 0, op := 1, ch := 0, last := true, tag := 0, seq := 0, gen := 0, status := 0, piece := 0, total := 1, job := 1, addr := 0, hops := 0 }

theorem test_wf_cell_of_no_block : (Instr.nopC 2048 0 .ok).wf = false ∧ (Instr.nopC 2065 0 .ok).wf = false := by decide
theorem test_wf_cell_beyond_block : (Instr.nopC 18 0 .ok).wf = false ∧ (Instr.nopC 17 0 .ok).wf = true := by decide
theorem test_wf_block : (Instr.crossbarRow 64 .ok).wf = false ∧ (Instr.crossbarRow 63 .ok).wf = true := by decide
theorem test_wf_partition : (Instr.stepBoundary 16).wf = false ∧ (Instr.stepBoundary 15).wf = true := by decide
theorem test_wf_stack : (Instr.stackRefresh 12 0).wf = false ∧ (Instr.stackRefresh 11 16).wf = false ∧ (Instr.stackRefresh 11 15).wf = true := by decide
theorem test_wf_port : (Instr.slotTransmit 12 .ok []).wf = false ∧ (Instr.slotTransmit 11 .ok []).wf = true := by decide
theorem test_wf_tag : (Instr.dynTimeout 4 0).wf = false ∧ (Instr.dynTimeout 3 65536).wf = false ∧ (Instr.dynTimeout 3 65535).wf = true := by decide
theorem test_wf_domain : (Instr.domainSwitch 96 true).wf = false ∧ (Instr.domainSwitch 95 true).wf = true := by decide
theorem test_wf_sensor : (Instr.thermalSensorRead .stack 12 0).wf = false ∧ (Instr.thermalSensorRead .stack 11 0).wf = true := by decide
theorem test_wf_supply_parts : (Instr.converterFailure 5).wf = false ∧ (Instr.phaseFailure 18).wf = false ∧ (Instr.phaseFailure 17).wf = true := by decide
theorem test_wf_rings : (Instr.ringEnable 17 0 0).wf = false ∧ (Instr.ringEnable 16 2 0).wf = false ∧ (Instr.ringEnable 16 1 4).wf = false
  ∧ (Instr.ringEnable 16 1 3).wf = true := by decide
theorem test_wf_register : (Instr.registerWrite 0 0x1000000 0).wf = false ∧ (Instr.registerWrite 0 0xFFFFFF 0).wf = true := by decide
theorem test_wf_island_link : (Instr.islandLagRestart 95).wf = false ∧ (Instr.ideKeyChange 2 0).wf = false ∧ (Instr.ideKeyChange 1 8).wf = false
  ∧ (Instr.perstNRelease 2).wf = false := by decide
theorem test_wf_session : (Instr.sessionTimeout 65536).wf = false ∧ (Instr.sessionTimeout 65535).wf = true := by decide
theorem test_wf_header : (Instr.keyRotate { hdr0 with fn := 18 }).wf = false ∧ (Instr.keyRotate { hdr0 with set := 2 }).wf = false
  ∧ (Instr.keyRotate { hdr0 with part := 256 }).wf = false ∧ (Instr.keyRotate hdr0).wf = true := by decide
theorem test_wf_seed : (Instr.seedAck 0 12 0).wf = false ∧ (Instr.seedAck 16 0 0).wf = false := by decide
theorem test_wf_barrow : (Instr.barrowLine 63 2 []).wf = false ∧ (Instr.barrowLine 63 1 []).wf = true := by decide

/-! ### Words written out from the spec's encodings (Tables 3.6 to 3.9, 4.3, 4.11, 4.12, 6.6 to 6.9) -/

/-- (!p2) ADD.I64 g3, g4, g5: OPC 0x01 (Table 3.9), PRED 2, SENSE 1, RD 3 at bit 48, RA 4 at 43, RB 5 at 38, FUNC 0. -/
theorem test_word_add : cellInstr 0 0x04A3214000000000#64 .ok = some (.addI64 0 ⟨⟨2, true, .ok⟩, 3, 4, 5, 0⟩) := by decide
/-- REM.U64 g31, g1, g2: FUNC 0x0F at bit 32. -/
theorem test_word_rem : cellInstr 0 0x041F088F00000000#64 .ok = some (.remU64 0 ⟨e0, 31, 1, 2, 0⟩) := by decide
/-- ADDI.I64 g1, g2, −1: OPC 0x02 (Table 3.10), IMM32 in the low half. -/
theorem test_word_addi : cellInstr 0 0x08011000FFFFFFFF#64 .ok = some (.addiI64 0 ⟨e0, 1, 2, 0, 0xFFFFFFFF⟩) := by decide
/-- LDX.I64 g4, g0, 0x12060: OPC 0x12, SIZE 6 at bit 40 (Tables 3.11, 3.12). -/
theorem test_word_ldx : cellInstr 0 0x4804060000012060#64 .ok = some (.ldx 0 ⟨e0, 4, 0, 6, 0, 0x12060⟩) := by decide
/-- CEQI.I64 p6, g9, 0: OPC 0x19, PD 6 at bit 49, COND 0 at bit 40. -/
theorem test_word_cmpi : cellInstr 0 0x640C480000000000#64 .ok = some (.ceqiI64 0 ⟨e0, 6, 0, 9, 0, 0⟩) := by decide
/-- PANDN.P p1, p2, p3: OPC 0x1A, PA 2 at bit 45, PB 3 at bit 41, FUNC 3 at bit 38. -/
theorem test_word_pandn : cellInstr 0 0x680246C000000000#64 .ok = some (.pandnP 0 ⟨e0, 1, 2, 3, 0⟩) := by decide
/-- PWR.P16 g7 under MASK 0x00F0: OPC 0x1B, FUNC 1 at bit 40. -/
theorem test_word_pwr : cellInstr 0 0x6C003900000000F0#64 .ok = some (.pwrP16 0 ⟨e0, 0, 7, 0, 0x00F0⟩) := by decide
/-- RDSR.I64 g2 of special code 0x06: OPC 0x20, SR at bit 40. -/
theorem test_word_rdsr : cellInstr 0 0x8002060000000000#64 .ok = some (.rdsrI64 0 ⟨e0, 2, 6, 0⟩) := by decide
/-- WAIT.C 7: OPC 0x21, COUNT in bits [23:0]. -/
theorem test_word_wait : cellInstr 0 0x8400000000000007#64 .ok = some (.waitC 0 ⟨e0, 0, 0, 0, 7⟩) := by decide
/-- WAITO.C g3: OPC 0x22, RA at bit 43. -/
theorem test_word_waito : cellInstr 0 0x8800180000000000#64 .ok = some (.waitoC 0 ⟨e0, 0, 3, 0, 0⟩) := by decide
/-- STEPEND.C: OPC 0x23. -/
theorem test_word_stepend : cellInstr 0 0x8C00000000000000#64 .ok = some (.stependC 0 ⟨e0, 0, 0, 0, 0⟩) := by decide
/-- AGSET.A24 a15, FIELD 5, g1, 0x10: AG at bit 49, FIELD at 45, RA at 40 (Table 4.11). -/
theorem test_word_agset : cellInstr 0 0x941EA10000000010#64 .ok = some (.agsetA24 0 ⟨e0, 15, 5, 1, 0, 16⟩) := by decide
/-- LCRD.U11 g9, lc0: OPC 0x26, SEL 0b01 at bit 46. -/
theorem test_word_lcrd : cellInstr 0 0x9809400000000000#64 .ok = some (.lcrdU11 0 ⟨e0, 9, 0, 0⟩) := by decide
/-- VFMA.F32 v31, v3, v2, v31 under LM g4: OPC 0x28, FUNC 3 at bit 22 (Table 4.3). -/
theorem test_word_vfma : cellInstr 0 0xA01F18BE40C00000#64 .ok = some (.vfmaF32 0 ⟨e0, 31, 3, 2, 31, 4, false, 0, false, 0⟩) := by decide
/-- VGATHER.B32 v3, v1, a3, −1: OPC 0x2E, AG 3 at bit 43, FUNC 2, OFS 0xFFFF. -/
theorem test_word_vgather : cellInstr 0 0xB80318400080FFFF#64 .ok = some (.vgatherB32 0 ⟨e0, 3, 3, 1, 0, 0, false, 0, false, 0xFFFF⟩) := by decide
/-- VLD.L v1, a1, 0: OPC 0x2D, FUNC 0. -/
theorem test_word_vldl : cellInstr 0 0xB401080000000000#64 .ok = some (.vldL 0 ⟨e0, 1, 1, 0, 0, 0, false, 0, false, 0⟩) := by decide
/-- VCVT.I32.F32 v1, v2, toward zero, SAT 1: OPC 0x2F, RM 1 at bit 19, SAT at bit 18. -/
theorem test_word_vcvt : cellInstr 0 0xBC011000000C0000#64 .ok = some (.vcvtI32F32 0 ⟨e0, 1, 2, 0, 0, 0, false, 1, true, 0⟩) := by decide
/-- VEXT.B32 g1, v2, g3: OPC 0x30, FUNC 5. -/
theorem test_word_vext : cellInstr 0 0xC00110C001400000#64 .ok = some (.vextB32 0 ⟨e0, 1, 2, 3, 0, 0, false, 0, false, 0⟩) := by decide
/-- MLW.E4M3 a2 into W1, MX: OPC 0x34, WFMT 4 at bit 45, WMX 44, WB 43 (Table 6.6). -/
theorem test_word_mlw : cellInstr 0 0xD004980000000000#64 .ok = some (.mlw 0 ⟨e0, 2, 4, true, true, 0⟩) := by decide
/-- MCVT a4 with OFMT 8, RS g5, CLR, ACC 3, 8 rows: OPC 0x36 (Table 6.8). -/
theorem test_word_mcvt : cellInstr 0 0xD808581031C00000#64 .ok = some (.mcvt 0 ⟨e0, 4, 5, 8, 0, false, true, false, 3, 7, 0⟩) := by decide
/-- MADDX.X128 a1, ACC 4, 4 rows, Z: OPC 0x38 (Table 6.9). -/
theorem test_word_maddx : cellInstr 0 0xE002103800000000#64 .ok = some (.maddxX128 0 ⟨e0, 1, 4, 3, true, 0⟩) := by decide
/-- OPC 0x0B is unassigned (Table 3.7), and FUNC 0x10 of OPC 0x01 (Table 3.9). -/
theorem test_word_unassigned : cellInstr 0 0x2C00000000000000#64 .ok = none ∧ cellInstr 0 0x0400001000000000#64 .ok = none := by decide
/-- A reserved field that is not zero is illegal (R83). -/
theorem test_word_reserved : wordLegal 0x0400000000000001#64 = false ∧ wordLegal 0x0400000000000000#64 = true := by decide
theorem test_no_table_word : decodeTableWord 64 0 = none ∧ decodeTableWord 16 0xFFFF = none := by decide

/-! ### Cells: one step each -/

/-- Table 3.17, offset 104: CLT.U64 p4, g7, g4 with g7 = 2,880 and g4 = 2,900 puts 1 in flight to p4. -/
theorem test_example_compare : ((after (.cltU64 0 ⟨e0, 4, 0, 7, 4, 0⟩) (runs { cell0 with g := [(4, 2900#64), (7, 2880#64)] })).cell 0).pend =
    [{ due := 50, issued := 50, w := .p [(4, true)] }] := by decide
/-- Table 3.17, offset 101: ADDI.I64 g5, g0, 45. -/
theorem test_example_addi : ((after (.addiI64 0 ⟨e0, 5, 0, 0, 45⟩) s0).cell 0).pend = [{ due := 50, issued := 50, w := .g 5 45#64 }] := by decide
/-- Table 3.17, offset 102: SHLI.B64 g7, g5, 6. -/
theorem test_example_shli : ((after (.shliB64 0 ⟨e0, 7, 5, 0, 6⟩) (runs { cell0 with g := [(5, 45#64)] })).cell 0).pend =
    [{ due := 50, issued := 50, w := .g 7 2880#64 }] := by decide
/-- Table 3.17, offsets 100 to 103: LDX.I64 of 0x12060 reads in cycle t + 2 and its result lands at the end of t + 3. -/
theorem test_example_ldx_issue : ((after (.ldx 0 ⟨e0, 4, 0, 6, 0, 0x12060⟩) s0).cell 0).macc.map (fun a => (a.due, a.ea, a.n)) =
    [(52, 0x12060, 8)] := by decide
theorem test_example_ldx_access : ((after (.scalarMemoryAccess 0 .ok) { runs { cell0 with
      issueFree := 60, cs := [(0x12060, 0x54), (0x12061, 0x0B)]
      macc := [{ due := 52, issued := 50, cs := true, en := true, store := false, rd := 4, ea := 0x12060, n := 8, sx := false, data := 0 }] }
    with cycle := 52 }).cell 0).pend = [{ due := 53, issued := 50, w := .g 4 2900#64 }] := by decide
/-- Table 3.17, offset 106: a store that is not enabled writes nothing (R82). -/
theorem test_example_store_disabled : ((after (.scalarMemoryAccess 0 .ok) (runs { cell0 with
      issueFree := 60, macc := [{ due := 50, issued := 49, cs := false, en := false, store := true, rd := 7, ea := 0x40, n := 8, sx := false, data := 2880 }] })).cell
    0).sdm = [] := by decide
/-- A store writes its bytes least significant first (R58). -/
theorem test_example_store : ((after (.scalarMemoryAccess 0 .ok) (runs { cell0 with
      issueFree := 60, macc := [{ due := 50, issued := 49, cs := false, en := true, store := true, rd := 7, ea := 0x48, n := 8, sx := false, data := 2880 }] })).cell
    0).sdm = [(0x48, 0x40), (0x49, 0x0B)] := by decide
theorem test_sub_wraps : ((after (.subI64 0 ⟨e0, 3, 1, 2, 0⟩) s0).cell 0).pend = [{ due := 50, issued := 50, w := .g 3 0xFFFFFFFFFFFFFFFE#64 }] := by
  decide
/-- Table 3.9: MULH.U64 takes the high half, in flight for three cycles. -/
theorem test_mulh : ((after (.mulhU64 0 ⟨e0, 3, 1, 1, 0⟩) (runs { cell0 with g := [(1, 0x8000000000000000#64)] })).cell 0).pend =
    [{ due := 52, issued := 50, w := .g 3 0x4000000000000000#64 }] := by decide
/-- R84: division by zero gives all ones and the dividend. -/
theorem test_div_zero : ((after (.divU64 0 ⟨e0, 3, 1, 0, 0⟩) s0).cell 0).pend = [{ due := 83, issued := 50, w := .g 3 0xFFFFFFFFFFFFFFFF#64 }] ∧
    ((after (.remU64 0 ⟨e0, 3, 1, 0, 0⟩) s0).cell 0).pend = [{ due := 83, issued := 50, w := .g 3 5#64 }] := by decide
/-- R84: a second division while the divider is busy is UNIT_BUSY (0x04). -/
theorem test_div_busy : ((after (.divU64 0 ⟨e0, 3, 1, 2, 0⟩) (runs { cell0 with divFree := 51 })).cell 0).fault = some ⟨0x04, 50⟩ := by decide
/-- Table 3.11: LD.I16 extends the sign. -/
theorem test_load_sign : ((after (.scalarMemoryAccess 0 .ok) (runs { cell0 with
      issueFree := 60, sdm := [(8, 0xFF), (9, 0x80)]
      macc := [{ due := 50, issued := 49, cs := false, en := true, store := false, rd := 1, ea := 8, n := 2, sx := true, data := 0 }] })).cell 0).pend =
    [{ due := 51, issued := 49, w := .g 1 0xFFFFFFFFFFFF80FF#64 }] := by decide
/-- R86: an address at the limit is ADDRESS (0x02), a misaligned one ALIGN (0x03). -/
theorem test_load_faults : ((after (.ld 0 ⟨e0, 1, 0, 6, 0, 32768⟩) s0).cell 0).fault = some ⟨0x02, 50⟩ ∧
    ((after (.ld 0 ⟨e0, 1, 0, 6, 0, 4⟩) s0).cell 0).fault = some ⟨0x03, 50⟩ ∧
    ((after (.ld 0 ⟨e0, 1, 0, 6, 0, 32760⟩) s0).cell 0).fault = none := by decide
/-- Writes to g0 and p0 are discarded (R62). -/
theorem test_zero_registers : ((after (.resultLanding 0) (runs { cell0 with
      issueFree := 60, pend := [{ due := 50, issued := 50, w := .g 0 9#64 }, { due := 50, issued := 50, w := .p [(0, false)] }] })).cell 0).readG 0 = 0 ∧
    ((after (.resultLanding 0) (runs { cell0 with issueFree := 60, pend := [{ due := 50, issued := 50, w := .p [(0, false)] }] })).cell 0).readP 0 = true := by
  decide
/-- R67: of two results landing together, the later-issued instruction's stays. -/
theorem test_landing_order : ((after (.resultLanding 0) (runs { cell0 with
      issueFree := 60, pend := [{ due := 50, issued := 50, w := .g 3 9#64 }, { due := 50, issued := 48, w := .g 3 8#64 }] })).cell 0).readG 3 = 9 := by decide
/-- The header of the worked example of 04_vector_and_loops.md: body 11, two levels of 6 and 2 trips. -/
theorem test_example_loop : ((after (.loopC 0 ⟨⟨5, false, .ok⟩, 10, 1, 0, 0, 0, 1, 5⟩) (runs { cell0 with p := [(5, true)] })).cell 0).loop =
    some ⟨3, 11, 2, 6, 2, 1, 1, true⟩ := by decide
/-- Its table of iterations: after (0, 5) level 1 advances and a1 moves by −1,280. -/
theorem test_example_iteration : ((after (.loopIterationEnd 0) (runs { cell0 with
      pc := 15, issueFree := 50, loop := some ⟨3, 11, 2, 6, 2, 1, 1, true⟩, lc := [(0, 5)]
      ag := [(1, { addr := 0x40500, inc0 := 256, inc1 := BitVec.ofInt 24 (-1280) }), (3, { addr := 0x80000, inc1 := 0xD800 })] })).cell 0).ag =
      [(1, { addr := 0x40000, inc0 := 256, inc1 := BitVec.ofInt 24 (-1280) }), (3, { addr := 0x8D800, inc1 := 0xD800 })] ∧
    ((after (.loopIterationEnd 0) (runs { cell0 with
      pc := 15, issueFree := 50, loop := some ⟨3, 11, 2, 6, 2, 1, 1, true⟩, lc := [(0, 5)] })).cell 0).lc = [(1, 1)] := by decide +kernel
/-- After the last iteration the command ends and INC1 is applied once more (R117). -/
theorem test_example_last_iteration : ((after (.loopIterationEnd 0) (runs { cell0 with
      pc := 15, issueFree := 50, loop := some ⟨3, 11, 2, 6, 2, 1, 1, true⟩, lc := [(0, 5), (1, 1)], ag := [(4, { addr := 0x60100, inc1 := 256 })] })).cell 0).ag =
      [(4, { addr := 0x60200, inc1 := 256 })] := by decide +kernel
/-- R110: a window of 6,145 lines is AG_WINDOW (0x13), one of 6,144 is not. -/
theorem test_ag_window : ((after (.agsetA24 0 ⟨e0, 1, 5, 0, 0, 6144 * 65536 + 1⟩) s0).cell 0).fault = some ⟨0x13, 50⟩ ∧
    ((after (.agsetA24 0 ⟨e0, 1, 5, 0, 0, 6144 * 65536⟩) s0).cell 0).fault = none := by decide
/-- R91: WAITO.C past its offset is OFFSET_PASSED (0x05). -/
theorem test_waito : ((after (.waitoC 0 ⟨e0, 0, 1, 0, 0⟩) s0).cell 0).fault = some ⟨0x05, 50⟩ ∧
    ((after (.waitoC 0 ⟨e0, 0, 1, 0, 0⟩) (runs { cell0 with g := [(1, 60#64)] })).cell 0).issueFree = 60 := by decide
/-- Table 3.3: STEP_OFFSET of the fiftieth cycle. -/
theorem test_rdsr : ((after (.rdsrI64 0 ⟨e0, 2, 6, 0⟩) s0).cell 0).pend = [{ due := 50, issued := 50, w := .g 2 50#64 }] := by decide
/-- R72: nothing issues after STEPEND.C. -/
theorem test_stepend : (after (.stependC 0 ⟨e0, 0, 0, 0, 0⟩) s0).canIssue 0 = false ∧
    (after (.addI64 0 ⟨e0, 3, 1, 2, 0⟩) (after (.stependC 0 ⟨e0, 0, 0, 0, 0⟩) s0)).cells = (after (.stependC 0 ⟨e0, 0, 0, 0, 0⟩) s0).cells := by decide

/-! ### Number formats: the worked examples of 05_number_formats.md -/

/-- 500.0 to E4M3: NaN, 448 when saturating or toward zero; to E5M2 512. -/
theorem test_example_500 : cvt 0x43FA0000 F32 (.flt fE4M3) 0 false 0 = 0x7F ∧ cvt 0x43FA0000 F32 (.flt fE4M3) 0 true 0 = 0x7E ∧
    cvt 0x43FA0000 F32 (.flt fE4M3) 1 false 0 = 0x7E ∧ cvt 0x43FA0000 F32 (.flt fE5M2) 0 false 0 = 0x60 := by decide
/-- 400.0 to E4M3: 0x7C to nearest even and toward zero; stochastic 0x7D when h < 8,388,608. -/
theorem test_example_400 : cvt 0x43C80000 F32 (.flt fE4M3) 0 false 0 = 0x7C ∧ cvt 0x43C80000 F32 (.flt fE4M3) 1 false 0 = 0x7C ∧
    cvt 0x43C80000 F32 (.flt fE4M3) 2 false 8388607 = 0x7D ∧ cvt 0x43C80000 F32 (.flt fE4M3) 2 false 8388608 = 0x7C := by decide
/-- 2.5, 0.2 and −0.2 to E2M1; 9.2 to INT4. -/
theorem test_example_small : cvt 0x40200000 F32 (.flt fE2M1) 0 false 0 = 4 ∧ cvt 0x3E4CCCCD F32 (.flt fE2M1) 0 false 0 = 0 ∧
    cvt 0xBE4CCCCD F32 (.flt fE2M1) 0 false 0 = 8 ∧ cvt 0x41133333 F32 (.int 4) 0 false 0 = 7 := by decide
/-- A block whose amax is 100.0 has scale 0x7D in E4M3. -/
theorem test_example_scale : mxScale (decodeNum F32 0x42C80000) (.flt fE4M3) = 0x7D := by decide
/-- Ties to even, the sign of an exact zero sum, NaN (R130, R132). -/
theorem test_fp32 : fp32Add 0x3F800000 0x33800000 = 0x3F800000 ∧ fp32Add 0x3F800000 0xBF800000 = 0 ∧ fp32Mul 0x7F800000 0 = nan32 := by decide
/-- 1/3, √2, log₂ 8 and 2³, rounded once. -/
theorem test_special_functions : fp32Rcp 0x40400000 = 0x3EAAAAAB ∧ fp32Sqrt 0x40000000 = 0x3FB504F3 ∧ fp32Log2 0x41000000 = 0x40400000 ∧
    fp32Exp2 0x40400000 = 0x41000000 := by decide +kernel

/-! ### States and operands that meet the hypotheses of the cell's statements -/

theorem witness_cellReady : CellReady s0 0 e0 := by unfold CellReady; decide
theorem witness_scalarArithmetic : CellReady s0 0 (⟨e0, 31, 1, 2, 0⟩ : RR).en ∧ (⟨e0, 31, 1, 0, 63⟩ : RI).rsv = 0 ∧
    (⟨e0, 31, 1, 0, 63⟩ : RI).imm.toNat < 64 := ⟨witness_cellReady, by decide⟩
def sDiv (free : Nat) : State := runs { cell0 with divFree := free }
theorem witness_dividerResults : CellReady (sDiv 50) 0 e0 ∧ ((sDiv 50).atIssue 0).divFree ≤ (sDiv 50).cycle ∧
    CellReady (sDiv 51) 0 e0 ∧ (sDiv 51).cycle < ((sDiv 51).atIssue 0).divFree := by unfold CellReady; decide
theorem witness_comparesAndPredicates : CellReady s0 0 (⟨e0, 15, 0, 1, 2, 0⟩ : CmpR).en ∧ (⟨e0, 15, 0, 1, 2, 0⟩ : CmpR).rsvHi = 0 ∧
    (⟨e0, 15, 0, 0, 0⟩ : PlF).pa = 0 ∧ (⟨e0, 15, 15, 0, 0⟩ : PmF).mask = 0 := ⟨witness_cellReady, by decide⟩
/-- AGSET of a window of 6,144 lines, and of 6,145. -/
theorem witness_specialReadsAndGenerators : CellReady s0 0 e0 ∧ (7#8).toNat ≤ 7 ∧ (3#4).toNat < 4 ∧
    (let v : Word := BitVec.ofInt 64 (((s0.atIssue 0).readG 0).toNat + (BitVec.ofNat 32 (6144 * 65536)).toInt)
     v.toNat % 8192 + v.toNat / 65536 % 8192 = 6144) ∧
    (let v : Word := BitVec.ofInt 64 (((s0.atIssue 0).readG 0).toNat + (BitVec.ofNat 32 (6144 * 65536 + 1)).toInt)
     v.toNat % 8192 + v.toNat / 65536 % 8192 = 6145) := ⟨witness_cellReady, by decide⟩
/-- The last double word of scalar data memory and of the cell store, the address after it, a misaligned one. -/
theorem witness_loadsAndStoresIssue : CellReady s0 0 e0 ∧ (32760 < 32768 ∧ 8 ∣ 32760) ∧ (1572856 < 1572864 ∧ 8 ∣ 1572856) ∧ 32768 ≤ 32768 ∧
    ¬ 8 ∣ 32764 ∧ ((((s0.atIssue 0).readG 0).toNat + (32760#32).toInt) % 2 ^ 64).toNat = 32760 := ⟨witness_cellReady, by decide⟩
def acc0 : MemAcc := { due := 50, issued := 49, cs := true, en := true, store := true, rd := 1, ea := 1572856, n := 8, sx := false, data := 5 }
def sAcc (a : MemAcc) : State := runs { cell0 with issueFree := 60, macc := [a], csw := [{ cyc := 49, port := .vec, data := [] }] }
theorem witness_scalarAccesses : (∀ w ∈ ((sAcc acc0).cell 0).csw, w.cyc < (sAcc acc0).cycle) ∧ acc0.due ≤ (sAcc acc0).dueBound 0 ∧
    acc0.n ∈ [1, 2, 4, 8] ∧ ((sAcc { acc0 with store := false }).cell 0).macc = [{ acc0 with store := false }] ∧
    ((sAcc { acc0 with en := false }).cell 0).macc = [{ acc0 with en := false }] := by decide
theorem witness_issueSlotHolds : CellReady s0 0 ⟨0, false, .ok⟩ ∧ (0xFFFFFF#32).toNat < 2 ^ 24 ∧ (s0.atIssue 0).loop = none ∧
    (s0.cellPart 0).planTime - 1024 * (s0.cellPart 0).stepStart = 50 ∧ ((s0.atIssue 0).readG 1).toNat ≤ 50 ∧
    50 < (((runs { cell0 with g := [(1, 51#64)] }).atIssue 0).readG 1).toNat := ⟨witness_cellReady, by decide⟩
def loop0 : LoopF := ⟨e0, 31, 3, 0, 0, 0, 0, 0⟩
def sPc (pc : Nat) (b : SMap Word) : State := runs { cell0 with pc, bank0 := { words := b } }
theorem witness_loopHeaders : CellReady (sPc 8159 []) 0 e0 ∧ loop0.legal = true ∧ ((sPc 8159 []).atIssue 0).pc + (loop0.body.toNat + 1) ≤ 8191 ∧
    8191 < ((sPc 8160 []).atIssue 0).pc + (loop0.body.toNat + 1) ∧ CellReady (sPc 8160 []) 0 e0 := by unfold CellReady; decide
theorem witness_loopHeaders_control_word : CellReady (sPc 3 [(4, 0x8C00000000000000#64)]) 0 e0 ∧
    (look 0#64 (((sPc 3 [(4, 0x8C00000000000000#64)]).atIssue 0).bank false).words 4).toNat / 2 ^ 58 ∈ [0x22, 0x23, 0x24] := by
  unfold CellReady; decide
def vec0 : VecF := ⟨e0, 1, 2, 0, 0, 0, false, 0, false, 0⟩
theorem witness_vectorResults : CellReady s0 0 vec0.en ∧ (laneRows ++ cvtRows).all (fun e => e.legal vec0 || e.legal { vec0 with va := 0 }) = true ∧
    toGRows.all (fun e => e.2.2.1 vec0) = true ∧ vec0.noCBc = true ∧ (s0.atIssue 0).vecFree ≤ s0.cycle :=
  ⟨witness_cellReady, by decide⟩
/-- The last line of the cell store, the address after it, a misaligned one, a port that is taken. -/
def sAg (a : Nat) (port : List PortOp) : State := runs { cell0 with ag := [(2, { addr := BitVec.ofNat 24 a })], port }
theorem witness_vectorMemory : CellReady (sAg 1572608 []) 0 vec0.en ∧ vec0.memPlain = true ∧ portFree ((sAg 1572608 []).atIssue 0) 52 1 4 ∧
    ofsAddr ((sAg 1572608 []).atIssue 0) vec0 = 1572608 ∧ ofsAddr ((sAg 1572864 []).atIssue 0) vec0 = 1572864 ∧
    ofsAddr ((sAg 128 []).atIssue 0) vec0 = 128 := by unfold CellReady portFree; decide
def port0 (act : PortAct) : PortOp := { start := 50, step := 1, count := 4, done := 0, issued := 48, act }
theorem witness_vectorMemory_port_taken : CellReady (sAg 0 [{ port0 .idle with start := 52 }]) 0 vec0.en ∧
    ¬ portFree ((sAg 0 [{ port0 .idle with start := 52 }]).atIssue 0) 52 1 1 := by unfold CellReady portFree; decide
theorem witness_vectorMemory_lanes : CellReady (sAg 1572860 []) 0 { vec0 with lm := 1 }.en ∧
    (let x := (sAg 1572860 []).atIssue 0
     (∀ l, l < 64 → sel x 1 l = true → 0 ≤ ofsAddr x vec0 + 4 * (x.lane 0 l).toNat ∧ ofsAddr x vec0 + 4 * (x.lane 0 l).toNat < 1572864 ∧
       (4 : Int) ∣ ofsAddr x vec0 + 4 * (x.lane 0 l).toNat) ∧ ¬ ((4 : Int) ∣ ofsAddr ((sAg 2 []).atIssue 0) vec0)) := by
  unfold CellReady; decide +kernel
def sPort (act : PortAct) (done : Nat) : State := runs { cell0 with issueFree := 60, port := [{ port0 act with start := 50 - done, done }]
                                                                    accOut := [⟨48, .raw, false, 0, 4, 0, []⟩] }
/-- One access of each kind, a gather's first and last group. -/
theorem witness_portAccesses : ([.vld 1 1#64 0, .vst 1#64 0 [], .gather 4 1 [] [], .scatter 4 [], .mlw false 0, .mma 0, .accOut 0, .maddx 0] : List PortAct).all
    (fun a => decide (((sPort a 0).cell 0).port = [port0 a]) && decide (a ≠ .idle) && decide (50 ≤ (sPort a 0).dueBound 0)) = true ∧
    ((sPort (.gather 4 1 [] []) 3).cell 0).port = [{ port0 (.gather 4 1 [] []) with start := 47, done := 3 }] ∧ 3 < (port0 .idle).count := by decide
def mlw0 : MlwF := ⟨e0, 2, 4, true, true, 0⟩
def mma0 : MmaF := ⟨e0, 2, 8, 4, 4, true, true, false, true, 0, 63, 0⟩
def mcvt0 : McvtF := ⟨e0, 2, 5, 8, 0, false, true, false, 3, 7, 0⟩
def macc0 : MaccF := ⟨e0, 2, 124, 3, false, 0⟩
def sMx : State := runs { cell0 with ag := [(2, { addr := 1048576 })], wb0 := { tag := some ⟨4, true⟩ } }
theorem witness_matrixIssue : CellReady sMx 0 e0 ∧ mlw0.legal = true ∧ mma0.legal = true ∧ mcvt0.legal = true ∧ macc0.legal = true ∧
    (⟨e0, 0, 127, 0, false, 0⟩ : MaccF).legalClr = true ∧ (sMx.atIssue 0).wb0.tag = some ⟨4, true⟩ ∧ (sMx.atIssue 0).arrFree ≤ sMx.cycle := by
  unfold CellReady; decide
theorem witness_matrixIssue_lines : linesFit (sMx.atIssue 0) 2 66 ∧ portFree (sMx.atIssue 0) 52 2 66 ∧ (1572864 - 256 * 66) % 256 = 0 := by
  unfold linesFit portFree; decide
def sUnit (x : Cell) : State := { runs { x with stepEnd := false, pc := 3, issueFree := 160 } with cycle := 100 }
theorem witness_matrixUnitsLand : ((sUnit { wlines := [⟨50, true, 65, 1⟩] }).cell 0).wlines = [⟨50, true, 65, 1⟩] ∧
    ((sUnit { tagSets := [⟨50, true, ⟨4, true⟩⟩] }).cell 0).tagSets = [⟨50, true, ⟨4, true⟩⟩] ∧
    ((sUnit { mclr := [⟨50, 127, 1⟩] }).cell 0).mclr = [⟨50, 127, 1⟩] ∧ 50 ≤ (sUnit {}).dueBound 0 := ⟨rfl, rfl, rfl, by decide⟩
def maddxOp : Maddx := ⟨20, false, 0, 4, [], 0⟩
def mmaOp : MmaOp := ⟨20, { mma0 with rows := 1 }, [], {}, [], 0, []⟩
def outOp : AccOut := ⟨20, .raw, true, 0, 4, 0, []⟩
theorem witness_matrixUnitsLand_rows : Maddx.due maddxOp ≤ (sUnit { maddx := [maddxOp] }).dueBound 0 ∧
    MmaOp.due mmaOp ≤ (sUnit { mma := [mmaOp] }).dueBound 0 ∧ ((sUnit { mma := [mmaOp] }).cell 0).engineDue 100 = false ∧
    mmaOp.landed < mmaOp.f.rows.toNat ∧ AccOut.readDue outOp ((sUnit { accOut := [outOp] }).dueBound 0) = true ∧
    ((sUnit { maddx := [maddxOp] }).cell 0).accOut = [] ∧ eccBad [] 1024 = none ∧ eccBad [] 256 = none := by decide
theorem witness_resultsLand : LandsLast [⟨50, 48, .g 3 8⟩, ⟨50, 50, .g 3 9⟩] 50 (fun w => (gWrite w 3).isSome) ⟨50, 50, .g 3 9⟩ ∧
    LandsLast [⟨50, 50, .p [(3, true)]⟩] 50 (fun w => (pWrite w 3).isSome) ⟨50, 50, .p [(3, true)]⟩ ∧
    LandsLast [⟨50, 50, .v 3 [(63, 7)]⟩] 50 (fun w => (vWrite w 3 63).isSome) ⟨50, 50, .v 3 [(63, 7)]⟩ := by
  refine ⟨⟨[⟨50, 48, .g 3 8⟩], [], rfl, by decide, by decide⟩, ⟨[], [], rfl, by decide, by decide⟩, ⟨[], [], rfl, by decide, by decide⟩⟩
def sLoop (lc : SMap Nat) : State := runs { cell0 with pc := 15, issueFree := 50, loop := some ⟨3, 11, 2, 6, 2, 1, 1, true⟩, lc }
/-- An iteration after which level 1 advances, and the command's last. -/
theorem witness_loopIterations : 50 ≤ (sLoop [(0, 5)]).landBound 0 + 1 ∧ ((sLoop [(0, 5)]).cell 0).pc = 3 + 1 + 11 ∧
    ¬ look 0 ((sLoop [(0, 5)]).cell 0).lc 0 + 1 < 6 ∧ look 0 ((sLoop [(0, 5)]).cell 0).lc 1 + 1 < 2 ∧
    ¬ look 0 ((sLoop [(0, 5), (1, 1)]).cell 0).lc 1 + 1 < 2 := by decide
/-- (p3) ADD.I64 while p3 is 0. -/
theorem witness_disabled : ∃ w, (Instr.addI64 0 ⟨⟨3, false, .ok⟩, 1, 1, 2, 0⟩).cellWord = some (0, w, .ok) ∧ s0.canIssue 0 = true ∧
    (s0.atIssue 0).pc ≤ 8191 ∧ (s0.atIssue 0).enabled (enOf w .ok) = false := ⟨_, rfl, by decide⟩
/-- A reserved field that is not zero, and a fetch past the bank. -/
theorem witness_illegal : ∃ w, (Instr.addI64 0 ⟨e0, 1, 1, 2, 1⟩).cellWord = some (0, w, .ok) ∧ wordLegal w = false ∧ s0.canIssue 0 = true ∧
    (s0.atIssue 0).pc ≤ 8191 ∧ (sPc 8192 []).canIssue 0 = true ∧ 8191 < ((sPc 8192 []).atIssue 0).pc := ⟨_, rfl, by decide⟩
theorem witness_cellWords : (Instr.mma 2033 mma0 []).cellWord = some (2033, mma0.word, .ok) := rfl

/-! ### States and operands that meet the hypotheses of the mesh's and the plan's statements -/

def imgHdr : ImgHeader :=
  { format := 1, kind := 0, mode := 0, grade := 1, stepKinds := 1, cycleLen := 1, drain := 0, settle := 0, diameter := 0, stepCycle := [0]
    positions := 1, gustGroup := 0, gustH := 0, vregions := 15, envelopeW := 1000, sections := 1, seedBase := 0, parent := 0, signer := 0
    planId := 0, imageBytes := 0, tailZero := true }
def imgOf (secs : List Section) : PlanImage :=
  { hdr := imgHdr, secs, sigOk := true }
def secOf (type unit sub : Nat) (data : SecData) : Section :=
  { type, position := 0xFFFF, variant := 0xFFFF, unit, sub, zero := true, off := 0, bytes := 0, digest := 0, data }
/-- A table whose row 0 plays throughout the first 1,024 cycles of epoch 0 of step kind 0. -/
def oneRow {α : Type} (r : α) : Tbl α := { rows := [(0, r)], runs := [{ first := 0, count := 0, rep := 1023, rsv := 0 }], segs := [(0, ⟨0, 1⟩)] }
def partOf (secs : List Section) : Part := { part0 with image := some (imgOf secs) }
def sbW (part kind dkind dblock dmask line : Nat) : Sb :=
  ⟨BitVec.ofNat 4 part, BitVec.ofNat 2 kind, BitVec.ofNat 2 dkind, BitVec.ofNat 6 dblock, BitVec.ofNat 16 dmask, BitVec.ofNat 15 line⟩
def hopOf (port : Nat) (sb : Sb) : Hop := { cyc := 50, port, beat := { sb, data := 7 } }
/-- Block 0 of partition 0, RUNNING in cycle 50, with an image of `secs`. -/
def meshOf (secs : List Section) (b : Block) : State := { cycle := 50, parts := [(0, partOf secs)], blocks := [(0, b)] }

/-- SRC[0] names plan position 1, SRC[o] none elsewhere (code 31). -/
def xrow : BitVec 128 := BitVec.ofNat 128 ((List.range 24).foldl (fun a o => a + (if o = 0 then 1 else 31) * 2 ^ (5 * o)) 0)
def sXbar (h : Hop) : State := meshOf [secOf 0x03 0 0 (.blockTrellis (oneRow xrow) (oneRow xrow))] { block0 with xin := [h] }
/-- A write from position 1 leaves on output 0; one from position 2 leaves on none. -/
theorem witness_crossbarPairsBeats : (sXbar (hopOf 1 (sbW 0 1 0 0 1 6143))).blockRow 0 = some xrow ∧
    (List.range 24).filter (fun o => decide (((sXbar (hopOf 1 (sbW 0 1 0 0 1 6143))).block 0).feeds xrow o = some 1)) = [0] ∧
    (List.range 24).filter (fun o => decide (((sXbar (hopOf 1 (sbW 0 1 0 0 1 6143))).block 0).feeds xrow o = some 2)) = [] := by decide +kernel
theorem test_crossbar_leaves : ((after (.crossbarRow 0 .ok) (sXbar (hopOf 1 (sbW 0 1 0 0 1 6143)))).block 0).xout.map (fun h => (h.cyc, h.port)) = [(54, 0)] := by
  decide +kernel
def sDlv (h : Hop) : State := { meshOf [] { block0 with xout := [h] } with cells := [(0, cell0)] }
/-- A cell store's last line, a block store line, a router channel, a beat of another partition. -/
theorem witness_crossbarDelivers : (sDlv (hopOf 0 (sbW 0 1 0 0 1 6143))).posOf 0 = some 0 ∧ (6143#15).toNat < 6144 ∧ (sbW 0 1 0 0 1 6143).dmask.getLsbD 0 = true ∧
    ((sDlv (hopOf 23 (sbW 0 1 1 0 0 16383))).block 0).xout = [hopOf 23 (sbW 0 1 1 0 0 16383)] ∧ 21 < 22 ∧ (sbW 1 1 0 0 1 0).part.toNat ≠ 0 ∧
    ((sDlv (hopOf 0 (sbW 0 1 0 0 1 6143))).part 0).st = .running := by decide +kernel
theorem test_delivery_violation : (after (.crossbarBeatDelivery 0 []) (sDlv (hopOf 0 (sbW 1 1 0 0 1 0)))).raised.map (·.code) = [0x32] ∧
    ((after (.crossbarBeatDelivery 0 []) (sDlv (hopOf 21 (sbW 0 2 0 0 1 0)))).block 0).rin.map (·.port) = [11] := by decide +kernel
/-- Output 2 (east) of router 0 sends source channel 8 in slot cycle 50, leased for plan traffic. -/
def rrow : BitVec 128 := BitVec.ofNat 128 ((List.range 20).foldl (fun a o => a + (if o = 2 then 8 else 31) * 2 ^ (5 * o)) 0)
def sRtr (part : Nat) : State :=
  { meshOf [secOf 0x05 0 0 (.router (oneRow rrow) (oneRow rrow)), secOf 0x09 0xFFFF 0 (.leases [⟨1, 0, 0, 2, 50, 0, true⟩])]
      { block0 with rin := [hopOf 8 (sbW part 1 0 0 1 0)] } with
    parts := [(0, partOf [secOf 0x05 0 0 (.router (oneRow rrow) (oneRow rrow)), secOf 0x09 0xFFFF 0 (.leases [⟨1, 0, 0, 2, 50, 0, true⟩])]), (1, part0)] }
theorem witness_routerForwardsBeats : (sRtr 0).layerRows 0 = [(0, rrow)] ∧ srcOf rrow 2 = 8 ∧ outExists 0 2 = true ∧ (sRtr 0).outHolder 0 2 (sRtr 0).fcyc = some 0 ∧
    (List.range 20).filter (fun o => outExists 0 o && decide (srcOf rrow o = 8)) = [2] ∧ ((sRtr 1).part 1).st = .running ∧ neighbour 0 2 = some 1 := by decide +kernel
theorem test_router_forwards : ((after (.routerRow 0 [] []) (sRtr 0)).block 1).rin.map (fun h => (h.cyc, h.port)) = [(53, 6)] ∧
    (after (.routerRow 0 [] []) (sRtr 1)).raised.map (·.code) = [0x33] := by decide +kernel
/-- The descriptor of 07's worked example: word 0 is 0x1000_0000_0940_3C00, from block store 0x10000 to cell store 0x70000, 66 lines. -/
def desc0 : Desc :=
  { srcKind := 1, dstKind := 0, pen := false, psense := false, paddr := 0, pbit := 0, dblock := 37, dmask := 0x00F0, spos := 0, rsv0 := 0, rsv1 := 0
    src := 0x10000, rsv2 := 0, dst := 0x70000, lines := 65, rep := 0, srcInc := 0, dstInc := 0 }
def goRow : BitVec 128 := BitVec.ofNat 128 (2 ^ 122 + 2 ^ 123)
def sGo (busy : Nat) (d : Desc) : State :=
  meshOf [secOf 0x03 0 0 (.blockTrellis (oneRow goRow) (oneRow goRow)), secOf 0x04 0 0 (.barrows (oneRow d) (oneRow d))]
    { block0 with barrow0 := { cursor := some 0, stop := 1, busy } }
theorem witness_barrowsStart : (sGo 50 desc0).blockRow 0 = some goRow ∧ goRow.getLsbD 122 = true ∧
    tblRow (((sGo 50 desc0).part 0).barrowTbl 0 0 ((sGo 50 desc0).part 0).ver) 0 = some desc0 ∧ ((sGo 50 desc0).part 0).moveOk desc0 0 = true ∧
    ((sGo 50 desc0).part 0).moveOk { desc0 with src := 0x1000000 } 0 = false ∧ ((sGo 51 desc0).block 0).barrow0.busy = 51 := by decide +kernel
/-- R170: the move occupies the barrow for its 66 lines; a GO while it is busy is BARROW_BUSY. -/
theorem test_barrow_go : ((after (.barrowGo 0 0 .ok .ok .ok) (sGo 50 desc0)).block 0).barrow0.busy = 116 ∧
    (after (.barrowGo 0 0 .ok .ok .ok) (sGo 51 desc0)).raised.map (·.code) = [0x30] := by decide +kernel
def sLine (done : Nat) : State := meshOf [] { block0 with barrow0 := { moves := [{ g := 49 - done, desc := desc0, iter := 0, done }] } }
theorem witness_barrowsRead : ((sLine 0).block 0).barrow0.moves = [⟨49, desc0, 0, 0⟩] ∧ 49 + 1 + 0 ≤ (sLine 0).cycle ∧ ¬ 65 < desc0.lines.toNat ∧ desc0.srcKind = 1 := by
  decide +kernel
/-- Partition 0 with a load of one section for bank 1, of whose lines `done` are written, and a leased use-4 slot in every cycle. -/
def codeSec : Section := secOf 0x02 0 256 (.cellCode [(0, 1#64), (33, 2#64)] [0])
def sLoad (done : Nat) : State :=
  { runs cell0 with parts := [(0, { partOf [codeSec, secOf 0x09 0xFFFF 0 (.leases [⟨1, 4, 0, 0, 0, 1023, true⟩])] with
      bankLoad := some ⟨true, [codeSec], none, done⟩ })] }
theorem witness_planSectionLoads : ((sLoad 257).part 0).bankLoad = some ⟨true, [codeSec], none, 257⟩ ∧ (sLoad 257).cellAt 0 0 0 = some 0 ∧
    257 * [codeSec].length ≤ 257 ∧ 256 < 257 * [codeSec].length ∧ (s0.part 0).bankLoad = none ∧ (sLoad 0).loadSlot 0 = true ∧
    [codeSec][256 / 257]? = some codeSec ∧ 0 % 257 < 256 ∧ 256 % 257 = 256 := by decide +kernel
/-- R75: the second line of a load brings words 32 to 63; a load that is written whole has ended. -/
theorem test_section_load : (look 0#64 (((sLoad 1).loadStep 0).cell 0).bank1.words 33) = 2#64 ∧
    ((after (.instructionLoadComplete 0) (sLoad 256)).part 0).bankLoad ≠ none ∧
    ((after (.instructionLoadComplete 0) (sLoad 257)).part 0).bankLoad = none := by decide +kernel
theorem witness_planCycle : SMap.wf Part.zero s0.parts = true := by decide +kernel
theorem test_plan_cycle : (after (.sequencerEntry []) s0).cycle = 51 ∧ ((after (.sequencerEntry []) s0).part 0).planTime = 51 := by decide +kernel
def sFrame (r : List Raise) : State :=
  { cycle := 2048, frameNo := 2, parts := [(0, { partOf [] with planTime := 2048 })], raised := r, pwr := { capNext := some 2400 } }
def raise0 : Raise := { cls := .partition, code := 0x32, parts := [0], unit := 0, d0 := 0, d1 := 0, cycle := 2047, ending := false }
theorem witness_frameBoundary : (sFrame []).cycle % 1024 = 0 ∧ (sFrame []).frameNo ≤ (sFrame []).cycle / 1024 ∧ (sFrame []).pwr.domOff = 0 ∧
    SMap.wf Part.zero (sFrame []).parts = true ∧ ((sFrame []).part 0).st = .running ∧ raise0.cycle < (sFrame [raise0]).cycle ∧
    ((sFrame [raise0]).part 0).planTime ≠ 1024 * ((sFrame [raise0]).part 0).stepStop ∧ s0.cycle % 1024 ≠ 0 := by decide +kernel
/-- R34: PLAN_FRAME; R502: what the frame raised against the partition fences it. -/
theorem test_frame_boundary : ((after .frameBoundary (sFrame [])).part 0).planFrame = 2 ∧ ((after .frameBoundary (sFrame [raise0])).part 0).st = .faulted ∧
    (after .frameBoundary (sFrame [])).pwr.capW = 2400 := by decide +kernel
def sStepLen (len : Nat) (stop : Option Nat) (q : Part → Part) : State :=
  { cycle := 2048, frameNo := 3, blocks := [(0, block0)], cells := [(0, { cell0 with stepEnd := true })]
    parts := [(0, q { partOf [secOf 0x01 0xFFFF 0 (.steps [{ length := len, window := 1, epochAt := [2], zero := true }])] with
      planTime := 2048, stepNo := 7, epoch := 3, stopReq := stop })] }
def sStep : Option Nat → (Part → Part) → State := sStepLen 1
theorem witness_stepBoundary : ((sStep none id).part 0).st = .running ∧ ((sStep none id).part 0).planTime = 1024 * ((sStep none id).part 0).stepStop ∧
    ((sStep none id).part 0).jobSize ≤ 1 ∧ ((sStep none id).part 0).fenceAt = none ∧ ((sStep none id).part 0).replay = none ∧
    ((sStep none id).part 0).stopReq = none ∧ ((sStep (some 1) id).part 0).stopReq ≠ none := by decide +kernel

/-- R50, R27: the boundary commits step 7 and begins step 8; a stop request ends the plan at it. -/
theorem test_step_boundary : ((after (.stepBoundary 0) (sStep none id)).part 0).stepNo = 8 ∧ ((after (.stepBoundary 0) (sStep none id)).part 0).committed = some 7 ∧
    ((after (.stepBoundary 0) (sStep none id)).part 0).epoch = 4 ∧ ((after (.stepBoundary 0) (sStep (some 1) id)).part 0).st = .stopped := by decide +kernel
def sEpoch (idx at' : Nat) : State := sStepLen 3 none (fun q => { q with epochIdx := idx, planTime := 1024 * at' })
theorem witness_bodyAndEpoch : ((sEpoch 0 1).part 0).planTime = 1024 * (((sEpoch 0 1).part 0).stepStart + (((sEpoch 0 1).part 0).kind 0).window) ∧
    (((sEpoch 1 2).part 0).kind 0).epochAt[0]? = some 2 ∧ ((sEpoch 1 2).part 0).st = .running ∧ (State.reset.part 0).st ≠ .running := by decide +kernel
theorem test_epochs : ((after (.bodyBoundary 0) (sEpoch 0 1)).part 0).epochIdx = 1 ∧ ((after (.epochBoundary 0) (sEpoch 1 2)).part 0).epochIdx = 2 ∧
    ((after (.epochBoundary 0) (sEpoch 1 2)).part 0).epoch = 4 := by decide +kernel
def sZero (gust : Nat) : State :=
  { cycle := 1024, tu := { gust, hall := .locked, mark := 20 }, parts := [(0, { partOf [] with st := .armed, jb := { startMark := some 20 } })] }
theorem witness_jobZero : (sZero 5).cycle % 1024 = 0 ∧ (sZero 5).tu.j = 0 ∧ ((sZero 5).part 0).jb.startMark = some (sZero 5).tu.mark ∧ (sZero 4).tu.gust ≠ 5 ∧
    (∀ k, k < 16 → k ≠ 0 → ((sZero 5).part k).jb.startMark = none) ∧ s0.cycle % 1024 ≠ 0 := by decide +kernel
/-- R362, R369: at step 5 and LOCKED the partition starts; otherwise ZERO_MISS is raised, which the next frame boundary fences. -/
theorem test_job_zero : ((after .jobZero (sZero 5)).part 0).st = .running ∧ ((after .jobZero (sZero 4)).part 0).planTime = (sZero 4 |>.part 0).planTime ∧
    ((after .frameBoundary { (after .jobZero (sZero 4)) with cycle := 2048 }).part 0).st = .faulted := by decide +kernel
/-! ### States and operands that meet the hypotheses of the statements about time, serving, stacks and the cold frame -/

/-- A hall time word that names hall frame `m`, Z set, with its check. -/
def htwOf (m : Nat) : BitVec 128 :=
  let w := 0x1EA7 * 2 ^ 112 + m * 2 ^ 56 + 2 ^ 55
  BitVec.ofNat 128 (w + htwCrc w)
def sHall (st : HallSt) (run : Nat) : State := { tu := { hall := st, mark := 20, named := some 20, goodRun := run, holdRun := 64, refOk := true } }
def voteOf (g : Nat) : Vote := { mark := 20, frm := 0, req := g, dec := some g, lost := false }
def sVote : State := { cycle := 1024, tu := { mark := 20, votes := [voteOf 6], gust := 5 } }
def sRot : State := { sStepLen 65 none id with parts := [(0, { (sStepLen 65 none id).part 0 with jobSize := 2, planTime := 2048 })] }
/-- Both sides of 3 good marks, of the 240 and 320 limits and of 64 marks of HOLD. -/
theorem witness_hallTimeReferenceAndGust : htwGood (htwOf 30).toNat (sHall .hold 2).tu.named = true ∧ bits (htwOf 30).toNat 56 56 = 20 + 10 ∧
    (240 : Int).natAbs ≤ 240 ∧ 320 < (-321 : Int).natAbs ∧ htwGood (htwOf 20).toNat (sHall .locked 3).tu.named = false ∧ (sHall .locked 3).tu.hall ≠ .unlocked ∧
    (1599 : Nat) ≠ 1600 ∧ (sHall .hold 0).tu.hall = .hold ∧ 64 ≤ (sHall .hold 0).tu.holdRun ∧ (sHall .hold 0).tu.refOk = true ∧
    ({ tu := { refLocal := true }, cycle := 1024 } : State).tu.refLocal = true ∧ sVote.tu.decidedAt sVote.tu.mark = some 6 ∧ sVote.tu.gust ≠ 6 ∧
    State.reset.tu.decidedAt 0 = none ∧ (sRot.part 0).st = .running ∧ 1 < (sRot.part 0).jobSize ∧
    (sRot.part 0).planTime / 1024 + 64 = (sRot.part 0).stepStop ∧ (sRot.part 0).jb.rotV ≠ some (sRot.cycle / 1024) := by decide +kernel
/-- R352, R353: the third good mark locks; a wrong frame length unlocks. -/
theorem test_frame_mark : (after (.frameMark 1600 (htwOf 30) 240) (sHall .hold 3)).tu.hall = .locked ∧ (after (.frameMark 1600 (htwOf 30) 240) (sHall .hold 2)).tu.hall = .hold ∧
    (after (.frameMark 1599 (htwOf 30) 0) (sHall .locked 3)).tu.hall = .unlocked ∧ (after .gustSwitch sVote).tu.gust = 6 := by decide +kernel

def rec0 : Rec := { kind := 1, slot := some 0, arg := 0, lines := [], paddr := 0, bytes := 0, flagAt := none, visible := false, held := false, hdr := some hdr0 }
def sRec (x : Option Nat) (k : Nat) : State :=
  { cycle := 1000, parts := [(0, { part0 with recs := [(3, some { rec0 with flagAt := x, kind := k })] })], rings := [(ringKey 0 0 1, { enable := true })] }
theorem witness_completionFlags_slots : ((sRec none 1).landSlots 0 = false) ∧ ({ sRec none 1 with parts := [(0, { part0 with st := .staged })] } : State).landSlots 0 = true := by
  decide +kernel
theorem witness_completionFlags : look none ((sRec none 5).part 0).recs 3 = some { rec0 with kind := 5 } ∧ Listening (sRec none 1) hdr0 0x0501 ∧
    Listening (sRec none 5) hdr0 0x0404 ∧ look none ((sRec (some ((sRec none 1).hallNow - 8)) 1).part 0).recs 3 = some { rec0 with flagAt := some ((sRec none 1).hallNow - 8) } ∧
    8 ≤ (sRec none 1).hallNow ∧ (sRec none 1).hallNow < (sRec none 1).hallNow - 7 + 8 := by
  refine ⟨by decide +kernel, ⟨by decide +kernel, .inr (by decide +kernel)⟩, ⟨by decide +kernel, .inr (by decide +kernel)⟩, ?_, ?_, ?_⟩ <;> decide +kernel
/-- R37: seen 8 ns after it is set. -/
theorem test_flag_visible : ((look none ((after (.completionFlagVisible 0 3) (sRec (some ((sRec none 1).hallNow - 8)) 1)).part 0).recs 3).map (·.visible)) = some true ∧
    ((look none ((after (.completionFlagVisible 0 3) (sRec (some ((sRec none 1).hallNow - 7)) 1)).part 0).recs 3).map (·.visible)) = some false := by decide +kernel

def secServing (e : ServingE) : Section := secOf 0x0B 0xFFFF 0 (.serving e)
/-- Landing slots, load slots and a window engine lease. -/
def secSlots : Section := secOf 0x09 0xFFFF 0 (.leases [⟨3, 2, 0, 0, 0, 7, true⟩, ⟨3, 1, 0, 0, 8, 7, true⟩, ⟨3, 3, 0, 0, 16, 7, true⟩])
def sServe (x : Park) : State :=
  { cycle := 50, cold := { keys := [(0, 1)] }
    parts := [(0, { partOf [secServing { slots := 16 }, secSlots] with coldTabA := [(0, some ⟨0, 2, 1⟩)], coldKey := 1, park := [(4, x)] })] }
def result0 : StepResult := { kind := 0, variantAbsent := 0, stepNo := 7, endHall := 0, startFrame := 0, postLost := 0, slots := [], recs := [], outputs := [] }
def sOut (n : Nat) (r : SMap Ring) : State :=
  { parts := [(0, { part0 with st := .staged, outNext := some result0, outRing := List.replicate n (false, result0) })], rings := r }
def resultRing : SMap Ring := [(ringKey 1 0 3, { enable := true, entry := 12, size := 4 })]
theorem witness_windowAndResults : ((sServe {}).part 0).serving = some { slots := 16 } ∧ ((sServe {}).part 0).st = .running ∧ ((sServe {}).part 0).epochIdx = 0 ∧
    (((sServe {}).part 0).leases.any (fun l => decide (l.res = 3 ∧ l.use = 3))) = true ∧ ((sServe {}).part 0).flips .cold 0 = false ∧
    ((sServe {}).part 0).winRecs 4 = [] ∧ ((sServe {}).part 0).winRecs 1 = [] ∧ ((sServe {}).part 0).planEntry .cold 0 = some ⟨0, 2, 1⟩ ∧
    (sServe {}).cold.state ≠ .failed ∧ look 0 (sServe {}).cold.keys 0 ≠ 0 ∧ ((sOut 64 []).part 0).outNext = some result0 ∧ (sOut 64 []).landSlots 0 = true ∧
    ((sOut 64 []).ring 1 0 3).enable = false ∧ ((sOut 64 []).ring 1 1 3).enable = false ∧ (s0.part 0).outNext = none ∧ s0.landSlots 0 = false ∧
    ((sOut 0 resultRing).ring 1 0 3).enable = true ∧ ((sOut 0 resultRing).ring 1 0 3).free = true ∧ ((sOut 0 resultRing).ring 1 1 3).enable = false ∧
    resultBytes result0 ((sOut 0 resultRing).part 0).serving ≤ 2 ^ ((sOut 0 resultRing).ring 1 0 3).entry ∧ ((sOut 0 resultRing).part 0).outRing = [] := by decide +kernel
/-- R271: a result that waits is posted when its ring takes it, and else stays. -/
theorem test_result_posted : ((after (.stepResultPost 0) { sOut 0 resultRing with parts := [(0, { part0 with st := .staged, outRing := [(false, result0)] })] }).part 0).outRing.map (·.1) = [true] ∧
    ((after (.stepResultPost 0) { sOut 0 [] with parts := [(0, { part0 with st := .staged, outRing := [(false, result0)] })] }).part 0).outRing.map (·.1) = [false] := by decide +kernel
theorem look_single_other {α : Type} (z x : α) (k j : Nat) (h : j ≠ k) : look z [(k, x)] j = z := by
  simpa [look] using fun e => absurd e h
def parkOf (st : ParkState) : Park := { st, ready := true, copied := 1, hdr := some hdr0, ttlS := 1, expiry := 0 }
theorem witness_parkEntriesMove : look Park.zero ((sServe (parkOf .parking)).part 0).park 4 = parkOf .parking ∧ look Park.zero ((sServe (parkOf .zeroising)).part 0).park 4 = parkOf .zeroising ∧
    look Park.zero ((sServe (parkOf .resuming)).part 0).park 4 = parkOf .resuming ∧ ((sServe (parkOf .parked)).part 0).serving = some { slots := 16 } ∧
    (sServe {}).loadSlots 0 = true ∧ (parkOf .parked).expiry ≤ (sServe (parkOf .parked)).hallNow / 10 ^ 6 * 10 ^ 6 ∧
    (hdr0, 0x0505) ∉ (sServe {}).mute ∧ (({ sServe {} with rings := [(ringKey 0 0 1, { enable := true })] } : State).ring 0 0 1).enable = true := by
  decide +kernel
theorem witness_parkTables : ∀ p, SMap.wf Park.zero ((sServe (parkOf .parked)).part p).park = true := by
  intro p; by_cases h : p = 0
  · subst h; decide +kernel
  · have : (sServe (parkOf .parked)).part p = Part.zero := look_single_other _ _ _ _ h
    rw [this]; decide +kernel
/-- R275. -/
theorem test_park : (look Park.zero ((after .parkExpiryCheck (sServe (parkOf .parked))).part 0).park 4).st = .zeroising ∧
    (look Park.zero ((after (.parked 0 4) (sServe (parkOf .parking))).part 0).park 4).st = .parked := by decide +kernel

/-- Address of line 3 of lease 5 and a request beat for it. -/
def adr0 : Nat := 5 * 2 ^ 30 + 256 * 3
def reqLine (op count a : Nat) (ret : Nat) : Line := BitVec.ofNat 2048 (count + op * 2 ^ 60 + a * 2 ^ 64 + ret * 2 ^ 128)
def reqBeat (op count ret : Nat) : Beat := { sb := sbW 0 2 0 0 1 0, data := reqLine op count adr0 ret }
def hopAt (b : Beat) : Hop := { cyc := 50, port := 0, beat := b }
def mrow : Nat → Tbl (BitVec 32) := fun v => { rows := [(18, BitVec.ofNat 32 (v * 2 ^ 31 + 2 ^ 15))], runs := [{ first := 0, count := 1023, rep := 0, rsv := 0 }], segs := [(0, ⟨0, 1⟩)] }
def sMem (key merge : Nat) (x : Stack) (c : Cold) : State :=
  { cycle := 50, cold := { c with keys := if key = 0 then [] else [(0, key)] }, stks := [(0, { x with keys := if key = 0 then [] else [(0, key)] })]
    parts := [(0, { partOf [secOf 0x09 0xFFFF 0 (.leases [⟨1, 0, 1, 12, 0, 1023, true⟩, ⟨4, 0, 4, 0, 0, 127, true⟩, ⟨3, 0, 0, 0, 0, 1023, true⟩]),
        secOf 0x06 0 4 (.merge (mrow merge) (mrow merge))] with
      stackTabA := [(5, some ⟨0, 4, 1⟩)], coldTabA := [(5, some ⟨0, 0, 1⟩)], stackKey := key, coldKey := key })] }
def sRead (key merge op count ret : Nat) : State := sMem key merge { arrive := [hopAt (reqBeat op count ret)] } {}
/-- RETURN to line 127 of the merge buffer of the stack's block. -/
def retMerge : Nat := 2 ^ 58 + 3 * 2 ^ 56 + 2 ^ 50 + 127 * 2 ^ 16
theorem witness_stackReadsReturnLines : ((sRead 1 0 1 0 0).stack 0).arrive = [hopAt (reqBeat 1 0 0)] ∧ ((sRead 1 0 1 0 0).part 0).st = .running ∧
    (reqBeat 1 0 0).isReq 1 = true ∧ (reqBeat 1 0 0).req.paddr = adr0 ∧ mergeRet 0 (reqBeat 1 0 0).req.ret = false ∧ (sRead 1 0 1 0 0).merges 0 50 0 = false ∧
    ((sRead 1 0 1 0 0).stack 0).state ≠ .failed ∧ ((sRead 1 0 1 0 0).stack 0).key 0 ≠ 0 ∧ ((sRead 0 0 1 0 0).stack 0).key 0 = 0 ∧
    ((sRead 1 0 1 0 0).part 0).target adr0 = .at ⟨0, 4, 1⟩ 5 768 ∧ (slotOf 50 0).ch = 4 ∧
    ((sRead 1 0 1 0 0).stack 0).spaced (slotOf 50 0) (dramBank 1 3) = true ∧
    (sRead 1 1 1 0 0).mergeRow 0 50 0 = some (0, BitVec.ofNat 32 (2 ^ 31 + 2 ^ 15)) ∧ (sRead 1 1 1 0 0).merges 0 50 0 = true ∧
    ((sRead 1 1 1 0 0).stack 0).rets = [] ∧ mergeRet 0 (reqBeat 1 0 retMerge).req.ret = true := by decide +kernel
/-- R196, R237, R239: data 72 cycles later; without a key zeros and KEY_ABSENT; a merge fetch the partition does not lease; a merged read. -/
theorem test_stack_read : (((after (.stackRead 0 [] []) (sRead 0 0 1 0 0)).stack 0).rets.map (fun r => (r.due, r.beat.data))) = [(122, 0)] ∧
    (after (.stackRead 0 [] []) (sRead 0 0 1 0 0)).raised.map (·.code) = [0x44] ∧ (after (.mergeFetch 0 [] []) (sRead 1 0 1 0 retMerge)).raised = [] ∧
    (after (.mergeFetch 0 [] []) (sRead 1 0 1 0 (retMerge + 2 ^ 23))).raised = [] ∧ ((after (.mergedRead 0 [] .ok .ok []) (sRead 1 1 1 0 0)).stack 0).rets.length = 1 := by decide +kernel
def open0 (next lines : Nat) : OpenCount := { paddr := adr0, lines, next }
def wrBeat (sb : Sb) : Beat := { sb, data := 9 }
def sWr (key : Nat) (o : Option OpenCount) (b : Beat) : State := sMem key 0 { arrive := [hopAt b], opens := [(openKey 0 4, o)] } {}
theorem witness_stackWritesTakePlaces : ((sWr 1 none (reqBeat 2 4095 0)).stack 0).arrive = [hopAt (reqBeat 2 4095 0)] ∧ (reqBeat 2 4095 0).isReq 2 = true ∧
    (reqBeat 2 4095 0).req.count = 4095 ∧ look none ((sWr 1 none (reqBeat 2 4095 0)).stack 0).opens (openKey 0 (slotOf 50 0).ch) = none ∧
    5 = (reqBeat 2 4095 0).req.paddr / 2 ^ 30 ∧ look none ((sWr 1 (some (open0 0 2)) (wrBeat (sbW 0 1 0 0 1 0))).stack 0).opens (openKey 0 4) = some (open0 0 2) ∧
    ((sWr 1 (some (open0 1 2)) (wrBeat (sbW 0 1 0 0 1 0))).part 0).writeEntry .stack 5 = some ⟨0, 4, 1⟩ ∧ (slotOf 50 0).ch = 4 ∧
    ((sWr 1 none (reqBeat 2 4095 0)).stack 0).spaced (slotOf 50 0) (dramBank 1 3) = true ∧
    ((sWr 1 none (wrBeat (sbW 0 1 0 0 1 0))).stack 0).state ≠ .failed ∧ ((sWr 1 none (wrBeat (sbW 0 1 0 0 1 0))).stack 0).key 0 ≠ 0 ∧ 5 < 0x3F0 := by decide +kernel
/-- R197, R198: the last beat closes the count; a beat without a count is a fault. -/
theorem test_stack_write : look none ((after (.stackWriteBeat 0 []) (sWr 1 (some (open0 0 2)) (wrBeat (sbW 0 1 0 0 1 0)))).stack 0).opens (openKey 0 4) = some (open0 1 2) ∧
    look none ((after (.stackWriteBeat 0 []) (sWr 1 (some (open0 1 2)) (wrBeat (sbW 0 1 0 0 1 0)))).stack 0).opens (openKey 0 4) = none ∧
    (find ((after (.stackWriteBeat 0 []) (sWr 1 (some (open0 1 2)) (wrBeat (sbW 0 1 0 0 1 0)))).stack 0).lines (lineKey 4 1 4)).map (·.data) = some 9 ∧
    (after (.stackWriteBeat 0 []) (sWr 1 none (wrBeat (sbW 0 1 0 0 1 0)))).raised.map (·.code) = [0x43] := by decide +kernel
def sCold (key : Nat) (c : Cold) : State := { sMem key 0 {} c with cycle := 60 }
def coldHop (b : Beat) : Hop := { cyc := 20, port := 0, beat := b }
/-- A request and a write beat for the hub end (DKIND 3). -/
def coldReq (op : Nat) : Beat := { sb := sbW 0 2 3 0 1 0, data := reqLine op 0 adr0 0 }
def coldWr : Beat := wrBeat (sbW 0 1 3 0 1 0)
def sCf (key : Nat) (o : Option OpenCount) (b : Beat) : State := sCold key { arrive := [coldHop b], opens := [(openKey 0 0, o)] }
theorem witness_coldFrameServes : (sCf 1 none (coldReq 1)).coldAddr (coldHop (coldReq 1)) = some adr0 ∧ ((sCf 1 none (coldReq 1)).part 0).st = .running ∧
    ((sCf 1 none (coldReq 1)).part 0).coldSel false adr0 20 = .slot ⟨0, 0, 1⟩ 3 ∧ ((sCf 1 none (coldReq 1)).part 0).leases? 3 0 0 0 3 = true ∧
    (sCf 1 none (coldReq 1)).cold.arrive = [coldHop (coldReq 1)] ∧ look 0 (sCf 0 none (coldReq 1)).cold.keys 0 = 0 ∧ look 0 (sCf 1 none (coldReq 1)).cold.keys 0 ≠ 0 ∧
    (coldReq 1).sb.dkind = 3 ∧ (coldReq 1).isReq 1 = true ∧ (coldReq 2).isReq 2 = true ∧ ((sCf 1 none (coldReq 2)).part 0).coldSel true adr0 20 = .slot ⟨0, 0, 1⟩ 3 ∧
    (sCf 1 none (coldReq 2)).coldAddr (coldHop (coldReq 2)) = some adr0 ∧ look none (sCf 1 none (coldReq 2)).cold.opens (openKey 0 0) = none ∧
    (sCf 1 (some (open0 0 1)) coldWr).coldOpen 0 20 = some (0, open0 0 1) ∧ coldWr.sb.kind = 1 ∧
    (sCf 1 (some (open0 0 1)) coldWr).coldAddr (coldHop coldWr) = some adr0 ∧ (wrBeat (sbW 0 1 0 0 1 0)).sb.dkind ≠ 3 ∧
    (sCf 1 none (coldReq 1)).cold.state ≠ .failed := by decide +kernel
def ret0 (port : Nat) : Ret := { due := 60, port, beat := coldWr, merge := false, ch := 0 }
/-- R196, R250: data of the cold frame 156 cycles later; a data beat reaches its router when it is due. -/
theorem test_cold_frame : (after (.coldRequest [] []) (sCf 0 none (coldReq 1))).cold.rets.map (fun r => (r.due, r.beat.data)) = [(176, 0)] ∧
    (after (.coldRequest [] []) (sCf 0 none (coldReq 1))).raised.map (·.code) = [0x64] ∧
    look none (after (.coldRequest [] []) (sCf 1 (some (open0 0 1)) coldWr)).cold.opens (openKey 0 0) = none ∧
    (after (.coldRequest [] []) (sCf 1 none (wrBeat (sbW 0 1 0 0 1 0)))).raised.map (·.code) = [0x32] ∧
    ((after .coldDataReturn (sCold 1 { rets := [ret0 9] })).block 16).rin.map (fun h => (h.cyc, h.port)) = [(60, 13)] ∧
    ((after (.stackDataReturn 0) { sCold 1 {} with stks := [(0, { rets := [ret0 5] })] }).block 1).rin.map (fun h => (h.cyc, h.port)) = [(60, 17)] := by decide +kernel
def sUp (cyc : Nat) (x : Stack) : State := { cycle := cyc, stks := [(2, x)] }
def sUpC (cyc : Nat) (c : StkChan) : State := sUp cyc { chans := [(1, c)] }
def copy15 : RowCopy := ⟨0, 9, 15⟩
/-- Window of channel 1: cycles 64 to 95; positions 7 and 15 are its last refresh and scrub positions, 16 its first retraining one. -/
theorem witness_memoryUpkeepAndRepairs : windowPos 1 71 = some 7 ∧ windowPos 1 79 = some 15 ∧ windowPos 1 80 = some 16 ∧ windowPos 1 96 = none ∧
    ((sUp 79 { hot := true }).stack 2).hot = true ∧ ((sUpC 71 {}).stack 2 |>.chan 1).refAt ≠ 1 ∧ ((sUpC 71 { refAt := 1 }).stack 2 |>.chan 1).refAt = 1 ∧
    (sUpC 79 { scrub := 16777215, passCorr := 4096 }).scrubNow 2 1 = true ∧ ((sUpC 79 {}).stack 2).evac = none ∧
    ((sUpC 79 { scrub := 16777215 }).stack 2).chan 1 = { scrub := 16777215 } ∧ (((sUpC 80 { sweep := some 17 }).stack 2).chan 1).sweep = some 17 ∧
    (((sUpC 80 { sweep := some 17 }).stack 2).chan 1).trained ≠ 1 ∧ (71 / 4 = 17) ∧ ((sUpC 80 { sweep := some 17 }).stack 2 |>.chan 1).pins = [] ∧ coldGroup 60 = 3 * 1 ∧ coldGroup 80 = 3 * 1 + 1 ∧
    (({ cycle := 1019 } : State).fcyc < 1020) ∧ (look CfChan.zero ({ cycle := 80, cold := { chans := [(1, { sweep := true })] } } : State).cold.chans 1).sweep = true ∧
    (((sUpC 79 { copies := [copy15] }).stack 2).chan 1).copies = [copy15] ∧ (sUpC 79 { copies := [copy15] }).scrubNow 2 1 = true ∧
    (sUp 79 { evac := some (1, 16777215) }).scrubNow 2 1 = true ∧ ((sUp 1024 { evac := some (1, 0), evacDone := true }).stack 2).evacDone = true ∧
    (sUp 1024 {}).fcyc = 0 ∧ (({ cycle := 80, cold := { copy := some (1, 268435455) } } : State).cold.copy = some (1, 268435455)) := by decide +kernel
theorem test_memory_upkeep : (((after (.stackScrub 2 1 []) (sUpC 79 { scrub := 16777215 })).stack 2).chan 1).pass = 1 ∧
    (((after (.stackRetrainStep 2 1 [71] false) (sUpC 80 { sweep := some 17 })).stack 2).state) = .degraded ∧
    (after (.rowRepair 2 1) (sUpC 79 { copies := [copy15] })).raised.map (·.code) = [0xC1] ∧
    ((after (.spareDieAssign 2) (sUp 1024 { evac := some (1, 0), evacDone := true })).stack 2).spareFor = some 1 ∧
    (after .coldChannelCopy { cycle := 80, cold := { copy := some (1, 268435455) } }).cold.copyDone = true := by decide +kernel
/-- Lease 5 of both tiers awaits zeroisation under key 1, of which `done` lines are written. -/
def sZer (l : List (Tier × Nat)) (done : Nat) : State :=
  let w : Wipe := { to' := { key := 1, lease := 5 }, done }
  { parts := [(0, { part0 with st := .staged, sx := { zeroPend := l }, stackTabA := [(5, some ⟨2, 4, 3⟩)], stackTabB := [(5, some ⟨2, 4, 3⟩)], coldTabA := [(5, some ⟨0, 0, 1⟩)], stackKey := 1, coldKey := 1 })]
    stks := [(2, { wipes := [(19, some w)], lines := [(lineKey 4 2 4194303, { key := 1, tweak := 0, data := 8 }), (lineKey 4 3 0, { key := 1, tweak := 0, data := 9 })] })]
    cold := { wipes := [(1, some w)] }, rings := [(ringKey 1 0 2, { enable := true })] }
theorem witness_zeroisedLeasesReadZero : ((sZer [(.stack, 5)] 0).part 0).sx.zeroPend.contains (.stack, 5) = true ∧ ((sZer [(.cold, 5)] 0).part 0).sx.zeroPend.contains (.cold, 5) = true ∧
    ((sZer [(.stack, 5)] 0).part 0).places .stack 5 = [⟨2, 4, 3⟩] ∧ ((sZer [(.cold, 5)] 0).part 0).places .cold 5 = [⟨0, 0, 1⟩] ∧
    look none ((sZer [] 0).stack 2).wipes (4 * 4 + 3) = some { to' := { key := 1, lease := 5 }, done := 0 } ∧ look none (sZer [] 7).cold.wipes (64 * 0 + 1) ≠ none ∧
    (0 : Nat) ≠ (sZer [] 0).cycle / 1024 + 1 ∧ (∀ loc ∈ ((sZer [(.cold, 6)] 0).part 0).places .cold 6, (sZer [(.cold, 6)] 0).wipeOf .cold loc = none) ∧
    (∃ loc ∈ ((sZer [(.cold, 5)] 0).part 0).places .cold 5, (sZer [(.cold, 5)] 0).wipeOf .cold loc ≠ none) ∧
    (sZer [] 0).mgmtDown = false ∧ ((sZer [] 0).ring 1 0 2).enable = true ∧ ((sZer [] 0).ring 1 0 2).free = true := by
  refine ⟨?_, ?_, ?_, ?_, ?_, ?_, ?_, ?_, ⟨⟨0, 0, 1⟩, ?_, ?_⟩, ?_, ?_, ?_⟩ <;> decide +kernel
/-- R218: line 0 of the lease is written in the first frame, line 4,194,303 of the quarter before it is not touched. -/
theorem test_zeroise : ((after (.leaseZeroise 0 .stack 5) (sZer [(.stack, 5)] 0)).stack 2).lines.map (·.1) = [lineKey 4 2 4194303] ∧
    ((after (.zeroDone 0 .stack 5) (sZer [(.stack, 5)] 0)).part 0).sx.zeroPend = [(.stack, 5)] ∧
    ((after (.zeroDone 0 .cold 6) (sZer [(.cold, 6)] 0)).part 0).sx.zeroPend = [] := by decide +kernel
/-! ### States and operands that meet the hypotheses of the fabric's statements -/

/-- A port row of class `c`, source or target port `p`, slot `n`, forwarding mask `m`, PRESENT `pr`. -/
def prow (c n p : Nat) : BitVec 32 := BitVec.ofNat 32 (c * 2 ^ 29 + p * 2 ^ 25 + n * 2 ^ 16)
def ptbl (r : BitVec 32) : Tbl (BitVec 32) := { rows := [(10, r)], runs := [{ first := 0, count := 0, rep := 1023, rsv := 0 }], segs := [(0, ⟨0, 1⟩)] }
/-- Partition 0 RUNNING with slot 10 of both directions of port 2 leased for `use`, with row `r`, budget 110, in slot 10's attachment cycle. -/
def sLinkU (use : Nat) (r : BitVec 32) (x : Port) : State :=
  { cycle := 1024 * 13 + 26, tu := { mark := 20, j := 3, hall := .locked }, ports := [(2, x)]
    parts := [(0, { partOf [secOf 0x01 0xFFFF 0 (.steps [{ length := 9, window := 9, epochAt := [], zero := true }]), secOf 0x09 0xFFFF 0 (.leases [⟨5, use, 2, 0, 10, 0, true⟩, ⟨6, use, 2, 0, 10, 0, true⟩]),
        secOf 0x07 2 0 (.port 110 (ptbl r) (ptbl r)), secOf 0x07 2 1 (.port 110 (ptbl r) (ptbl r))] with planTime := 1024 * 13 + 26, stepStart := 13, epochStart := 13 })] }
def sLink (r : BitVec 32) (x : Port) : State := sLinkU 0 r x
def up0 : Port := { st := .up, latTx := 110, latRx := 110, act := [0], inSync := true }
def beatOut (p : Nat) : Hop := { cyc := 1024 * 13 + 26, port := p, beat := { sb := sbW 0 1 0 0 1 0, data := 7 } }
def dynHdr0 : DynHdr :=
  { dst := 1, src := 0, dpart := 0, rpart := 0, op := 2, ch := 0, last := true, tag := 4, seq := 9, gen := 255, status := 0, piece := 0, total := 1, job := 6, addr := 256, hops := 63 }
def dynFlit0 (cls : Nat) : DynFlit := { due := 0, lay := 0, cls, epoch := none, hdr := dynHdr0, line := 5 }
def plainFlit (typ : Nat) : Flit := { typ, epoch := false, check := 1162, lo := 1, hi := 2 }
def fwd0 : FwdFlit := { due := 1024 * 13 + 26, port := 3, slot := 11, flit := plainFlit 1 }
def upQ (cls : Nat) : Port := { up0 with dynQ := [(dynKey 0 cls, [dynFlit0 cls])] }
def upBoot : Port := { upQ 3 with act := [], lay := [0] }
theorem witness_slotsAreSent : slotAt 1 = none ∧ SlotDue (sLink 0 up0) 2 10 ∧ (sLink 0 { up0 with st := .fenced }).port 2 = { up0 with st := .fenced } ∧
    (({ up0 with inSync := false } : Port).inSync = false) ∧ (sLink 0 { up0 with act := [] }).slotHolder 2 5 10 = none ∧ (sLink 0 { up0 with act := [] }).bootSlot 2 10 = none ∧
    (sLink 0 up0).slotHolder 2 5 10 = some 0 ∧ ((sLink 0 up0).part 0).st = .running ∧ (up0.budgetBad.getLsbD 0 = false) ∧ (sLink 0 up0).fwdIn 2 10 0 = none ∧
    ((sLink (prow 1 0 0) up0).part 0).portRow 2 0 10 (((sLink 0 up0).part 0).planTime / 1024) (((sLink 0 up0).part 0).planTime / 1024) ((sLink 0 up0).part 0).ver = some (prow 1 0 0) ∧
    bits (prow 1 0 0).toNat 29 3 = 1 ∧ ((sLink 0 up0).part 0).leases? 5 0 2 0 10 = true ∧ (beatOut 0).cyc = (sLink 0 up0).cycle ∧ (beatOut 1).beat.live = true ∧
    (beatOut 1).beat.sb.part.toNat = 0 ∧ bits (prow 2 0 0).toNat 29 3 = 2 ∧ bits (prow 3 0 0).toNat 29 3 = 3 ∧ ((sLinkU 5 0 up0).part 0).leases? 5 5 2 0 10 = true ∧
    ((sLinkU 6 0 up0).part 0).leases? 5 6 2 0 10 = true ∧ look [] ((sLinkU 5 (prow 2 0 0) (upQ 2)).port 2).dynQ (dynKey 0 2) = [dynFlit0 2] ∧
    (dynFlit0 2).epoch.getD ((sLink 0 up0).part 0).ver = ((sLink 0 up0).part 0).ver ∧ (sLink 0 upBoot).slotHolder 2 5 10 = none ∧ (sLink 0 upBoot).bootSlot 2 10 = some (0, 3) ∧
    look [] ((sLink 0 upBoot).port 2).dynQ (dynKey 0 3) = [dynFlit0 3] ∧
    ((sLink (prow 4 11 3) up0).part 0).portRow 2 0 10 (((sLink 0 up0).part 0).planTime / 1024) (((sLink 0 up0).part 0).planTime / 1024) fwd0.flit.epoch = some (prow 4 11 3) ∧
    bits (prow 4 11 3).toNat 29 3 = 4 ∧ fwd0.due = (sLink 0 up0).cycle ∧ fwd0.port = bits (prow 4 11 3).toNat 25 4 ∧ fwd0.slot = bits (prow 4 11 3).toNat 16 9 ∧
    (State.reset.port 2).st ≠ .up := by
  refine ⟨?_, ⟨?_, ?_⟩, ?_⟩ <;> decide +kernel
/-- The number, TYPE and SLOT_CHECK of each flit sent. -/
def flitsOf (l : List Sent) : List (Nat × Nat × Nat) := l.filterMap (fun x => match x with
  | .flit _ n _ _ f => some (n, f.typ, f.check)
  | _ => none)
/-- R304, R320, R321: the frame-and-slot check of slot 10 in the third frame of the second mark period is 384 × 3 + 10. -/
theorem test_slot_sent : flitsOf (after (.slotTransmit 2 .ok []) (sLink (prow 1 0 0) { up0 with outBeats := [beatOut 0, beatOut 1] })).out = [(10, 1, 1162)] ∧
    flitsOf (after (.forwardLaunch 2) (sLink (prow 4 11 3) { up0 with fwd := [fwd0] })).out = [(10, 1, 1162)] := by decide +kernel
/-- Sixteen symbols in error: the codeword is not corrected (R285). -/
def badCw : LaneCw := { ends := false, errs := (List.range 16).map (fun k => (k, 1)) }
def segOf (tag : Nat) (bad : Bool) : Seg := { tag := BitVec.ofNat 16 tag, par := BitVec.ofNat 16 tag, pay := 0, cws := if bad then [badCw] else [] }
def segs9 (bad : List Nat) : List Seg := (List.range 10).map (fun k => segOf (2 ^ 13 + 1162) (bad.contains k))
def sRow (r : BitVec 32) (x : Port) : State := { sLink r x with cycle := 1024 * 13 + 136 }
def rx0 (typ : Nat) : RxFlit := { due := 1024 * 13 + 136, frm := 13, slot := 10, flit := plainFlit typ }
/-- A dynamic flit for rank `dst`. -/
def dynRx (dst : Nat) : RxFlit := { rx0 2 with flit := { plainFlit 2 with lo := hdrLine { dynHdr0 with dst } } }
/-- Cycle in which a flit of slot 10 of the present frame that flew 863/8 cycles arrives. -/
def sArr : State := { sLink (prow 1 0 0) up0 with cycle := 1024 * 13 + 133 }
def sOld : State := { sLink (prow 1 0 0) { up0 with inbox := [rx0 1] } with cycle := 1024 * 13 + 136, parts := [(0, { (sRow 0 up0).part 0 with epoch := 1 })] }
/-- Lane 8 fails; the flight that the budget 110 still takes, and lane pairs of which two fail. -/
theorem witness_flitsAreReceived : (∀ k, k < 9 → segPasses ((sArr.port 2).lane (segs9 [8]) k) = decide (some 8 ≠ some k)) ∧
    (∀ k, k < 9 → some 8 ≠ some k → ((sArr.port 2).lane (segs9 [8]) k).tag = BitVec.ofNat 16 (2 ^ 13 + 1162)) ∧ (2 ^ 13 + 1162) / 2 ^ 13 ≤ 3 ∧ 1162 < 3072 ∧ 1162 % 384 = 10 ∧
    sArr.expected 2 10 110 863 (1162 / 384) = some 0 ∧ ({ sArr with ports := [(2, { up0 with inSync := false })] } : State).expected 2 10 110 863 0 = some 0 ∧
    (look [] (sArr.port 2).failAt 8).length < 16 ∧ sArr.slotHolder 2 6 10 = some 0 ∧ sArr.budgetOf 0 2 1 = 110 ∧ 863 < 8 * (110 - 8) + 48 ∧ 8 * 110 < 863 + 768 ∧ 863 ≤ 8 * 110 ∧
    segPasses ((sArr.port 2).lane (segs9 [3, 8]) 3) = false ∧ segPasses ((sArr.port 2).lane (segs9 [3, 8]) 8) = false ∧
    ((sRow (prow 1 0 0) up0).part 0).portRow 2 1 10 13 13 false = some (prow 1 0 0) ∧ ((sRow (prow 2 0 0) up0).part 0).portRow 2 1 10 13 13 false = some (prow 2 0 0) ∧
    (rx0 1).due ≤ (sRow 0 up0).cycle ∧ (sOld.part 0).portRow 2 1 10 13 13 false = none ∧ (hdrOf (dynRx 0).flit.lo).dst = ((sRow 0 up0).part 0).rank ∧
    (hdrOf (dynRx 1).flit.lo).dst ≠ ((sRow 0 up0).part 0).rank ∧ (sRow 0 up0).slotHolder 2 6 11 = none ∧ (sRow 0 up0).bootSlot 2 11 = none := by decide +kernel
/-- R287, R296: one failed lane is rebuilt, two bring the port DOWN; R320, R321: presented, forwarded, refused; R323: to the engine or onward. -/
theorem test_flit_received : ((after (.flitReceive 2 (segs9 [8]) 863) sArr).port 2).inbox.map (fun x => (x.slot, x.flit.check, x.due)) = [(10, 1162, 1024 * 13 + 136)] ∧
    ((after (.flitReceive 2 (segs9 [3, 8]) 863) sArr).port 2).st = .down ∧
    (after (.flitDeliver 2 .ok) (sRow (prow 1 0 0) { up0 with inbox := [rx0 2] })).raised.map (·.code) = [0x80] ∧
    ((after (.flitDeliver 2 .ok) (sRow (prow 1 8 8) { up0 with inbox := [rx0 1] })).port 3).fwd.map (fun x => (x.slot, x.due)) = [(10, 1024 * 13 + 196)] := by decide +kernel
theorem test_dynamic_received : (after (.flitDeliver 2 .ok) (sRow (prow 2 0 0) { up0 with inbox := [dynRx 0] })).fab.inq.length = 1 ∧
    ((after (.flitDeliver 2 .ok) (sRow (prow 2 0 0) { up0 with inbox := [dynRx 1] })).port 2).fwdDyn.map (·.hdr.hops) = [64] := by decide +kernel
def ctl0 (sl at' : Nat) : CtlFlit :=
  { frame := 30, serial := 9, port := 2, role := 0, gustReq := 0, gustRed := 0, gustValid := false, laneBad := 0, spareLane := sl, spareAt := at', latRx := 33
    heartbeat := 0, commit := [(true, 4)], rotReady := 0, rotRed := 0 }
def tr0 (ok : Bool) (storm quiet : Nat) : TrainOut := { trained := ok, lanes := List.range 10, skewNs := 40, storm8 := storm, quiet8 := quiet }
/-- In start-up calibration, port 2 FENCED. -/
def sCal : State := { sLink 0 { up0 with st := .fenced } with boot := { phase := .calibration } }
def sDown : State := sLink 0 { up0 with st := .down }
/-- TF 35 now, 37 two frames on; LAT 4,095 is the largest the twelve bits hold (32,696 eighths). -/
theorem witness_lanesAndTraining : ((sLink 0 { up0 with peer := some (ctl0 8 37) }).port 2).peer = some (ctl0 8 37) ∧ (ctl0 8 37).spareLane ≠ 0xF ∧ up0.dual = false ∧
    (ctl0 8 37).spareAt ≠ 0 ∧ (ctl0 8 37).spareAt ≤ ((sLink 0 up0).tu.ahead 2 (sLink 0 up0).tu.grid).tf ∧ ((sLink 0 { up0 with spareLane := 8, spareAt := 35 }).port 2).spareAt ≤ (sLink 0 up0).tf ∧
    up0.lanesTx[9]? = some 9 ∧ PortLive up0 ∧ ({ sLink 0 up0 with cycle := 1024 * 1024000 } : State).frm = up0.spareSeen + 1024000 ∧
    ((sLink 0 { up0 with spareSeen := 13 }).port 2).spareOk = false ∧ segPasses (segOf 5 false) = true ∧ segPasses (segOf 5 true) = false ∧
    sCal.boot.phase = .calibration ∧ sCal.tu.gust = 0 ∧ (sCal.port 2).st ≠ .up ∧ trainOk (tr0 true 0 0) = true ∧ trainOk { tr0 true 0 0 with skewNs := 41 } = false ∧
    trainOk { tr0 true 0 0 with lanes := [0, 0, 2, 3, 4, 5, 6, 7, 8, 9] } = false ∧ (sLink 0 up0).boot.phase ≠ .calibration ∧
    max 16 ((32696 + 7) / 8 + 8) = 4095 ∧ 4095 < max 16 ((32697 + 7) / 8 + 8) ∧ (sDown.part 0).budget 2 1 = some 110 ∧ (sDown.part 0).onPort 2 = true ∧
    max 16 ((816 + 8 * 0 + 7) / 8 + 8) = 110 ∧ max 16 ((817 + 8 * 0 + 7) / 8 + 8) = 111 ∧ up0.lanesRx[3]? = some 3 ∧ up0.lostLock = 0 := by
  refine ⟨?_, ?_, ?_, ?_, ?_, ?_, ?_, .inl rfl, ?_⟩ <;> decide +kernel
/-- R303, R308, R309: LAT from the flight; LAT 111 breaks the budget 110. -/
theorem test_training : ((after (.portTraining 2 (tr0 true 32697 0)) sCal).port 2).st = .failed ∧ ((after (.portTraining 2 (tr0 true 800 720)) sCal).port 2).latRx = 108 ∧
    (after (.fastRetrain 2 (tr0 true 0 816)) sDown).raised = [] ∧ (after (.fastRetrain 2 (tr0 true 0 817)) sDown).raised.map (·.code) = [0x77] ∧
    ((after (.laneSpared 2) (sLink 0 { up0 with spareLane := 8, spareAt := 35 })).port 2).spareRx = 8 := by decide +kernel
theorem test_link_down : ((after (.linkDown 2 [3] false) (sLink 0 up0)).port 2).badRx = 8 ∧ (after (.linkDown 2 [3, 9] false) (sLink 0 up0)).raised.map (·.code) = [0x76] ∧
    ((after (.spareDualSend 2) (sLink 0 { up0 with peer := some (ctl0 8 37) })).port 2).spareTx = 8 := by decide +kernel
def sCtl (st : PortSt) (v : List Vote) : State := { sLink 0 { up0 with st } with cycle := 1024 * 13 + 1023, tu := { mark := 20, j := 3, votes := v } }
def treePart : Part := partOf [secOf 0x0D 0xFFFF 0 (.tree { depth := 0, voteParent := 15, voteChildren := 4 })]
def sVoted : State := { sCtl .down [{ voteOf 5 with frm := 18 }] with parts := [(0, { treePart with image := treePart.image.map (fun i => { i with hdr := { i.hdr with gustH := 0 } }) })] }
def shadow0 : Shadow := { prov := some (4, [1]), parkReq := [(3, some (2, 1))], map := some { slots := [10], job := 6, rank := 1, key := some 5, fresh := false, region := 8 } }
def sTwin (x : Shadow) (f : List Flit) : State :=
  { ports := [(10, { up0 with peer := some (ctl0 0xF 0), ctlIn := [⟨0, 0, ctl0 0xF 0⟩] })], shadows := [(0, x)], keys := { pairKey := true, twinSerial := some 9 }
    calLoad := { shadow := [{ slices := [], regions := [(0, 8)] }] }, fab := { shadowIn := f } }
theorem witness_controlFlitsTravel : (sLink 0 up0).fcyc ≠ 1023 ∧ (sCtl .up []).fcyc = 1023 ∧ PortLive ((sCtl .up []).port 2) ∧ ((sCtl .up []).port 2).lastTx ≠ (sCtl .up []).cycle + 1 ∧
    (∀ v ∈ (sCtl .fenced []).tu.votes, (sCtl .fenced []).voteUses 2 (sCtl .fenced []).frm v = false) ∧ (sVoted.port 2).st ≠ .up ∧
    sVoted.voteUses 2 sVoted.frm { voteOf 5 with frm := 18 } = true ∧ ((sLink 0 up0).part 0).jb.rotV = none ∧ ((sLink 0 up0).part 0).multi = false ∧
    ((sTwin shadow0 []).port 10).ctlIn = [⟨0, 0, ctl0 0xF 0⟩] ∧ SMap.wf Shadow.zero (sTwin shadow0 []).shadows = true ∧
    ((sTwin shadow0 []).shadow 0).prov = some (4, [1]) ∧ (ctl0 0xF 0).commit.getD 0 (false, 0) = (true, 4) ∧ (({ ctl0 0xF 0 with commit := [] } : CtlFlit).commit.getD 0 (false, 0)).1 = false := by
  refine ⟨?_, ?_, .inl rfl, ?_⟩ <;> decide +kernel
theorem test_control_flits : (after (.controlFlitRx 10) (sTwin shadow0 [])).shadow 0 = { shadow0 with promoted := some (4, [1]), prov := none } ∧
    (after (.controlFlitTx 2) sVoted).raised.map (·.code) = [0x95] ∧
    (after (.controlFlitTx 2) (sCtl .up [])).out.any (fun x => match x with
      | .ctl 2 _ c => decide (c.frame = 35 ∧ c.latRx = 110)
      | _ => false) = true := by decide +kernel
/-- Partition 0 of job 6, STAGED, cold lease 0; transfer 4 of channel 0 waits since the start, its timer 10 µs. -/
def xfer0 (quar : Option Nat) (tries : Nat) : Xfer :=
  { part := 0, hdr := dynHdr0, laddr := 0, gen := 255, tries, retries := 1, timeout := 10, got := [], quar, left := [2], done := none, hdrCmd := some hdr0 }
def sDyn (f : Fab) : State :=
  { wallAt := 25200000, ports := [(2, up0)], parts := [(0, { part0 with st := .staged, jb := { job := 6 }, coldTabA := [(0, some ⟨0, 0, 1⟩)], coldKey := 1 })], fab := f
    cold := { keys := [(0, 1)] }, rings := [(ringKey 0 0 1, { enable := true })] }
def sXfer (quar : Option Nat) (tries : Nat) (q : List (Nat × DynFlit)) : State := sDyn { xfers := [(xferKey 0 4, some (xfer0 quar tries))], inq := q }
def dup0 : DupEntry := { next := 10, recs := [{ seq := 9, pieces := [], total := some 1, status := some 3 }] }
def kDup : Nat := dupKey 6 0 1 0
/-- A switch with one other UP port, which leads to rank 1. -/
def sSwitch (hops : Nat) : State := { sDyn {} with ports := [(2, { up0 with fwdDyn := [{ dynFlit0 2 with hdr := { dynHdr0 with hops } }] })] }
theorem witness_dynamicTransfersComplete : look none (sDyn {}).fab.dups kDup = none ∧ kDup = dupKey dynHdr0.job dynHdr0.src dynHdr0.dst dynHdr0.ch ∧ ((sDyn {}).part 0).dynStatus dynHdr0 1 = 0 ∧
    ((sDyn {}).part 0).dynStatus { dynHdr0 with op := 1 } 1 = 0 ∧ ((sDyn {}).part 0).dynStatus { dynHdr0 with addr := 2 ^ 30 } 1 = 3 ∧ (sDyn {}).cold.state ≠ .failed ∧
    look 0 (sDyn {}).cold.keys 0 ≠ 0 ∧ look none (sDyn { dups := [(kDup, some dup0)] }).fab.dups kDup = some dup0 ∧
    dup0.recs.find? (fun r => decide (r.seq = dynHdr0.seq)) = some { seq := 9, pieces := [], total := some 1, status := some 3 } ∧
    (sDyn { inq := [(2, dynFlit0 3)] }).xfer (xferKey 0 4) = none ∧ (sXfer none 0 []).xfer (xferKey 0 4) = some (xfer0 none 0) ∧ (xfer0 none 0).gen = dynHdr0.gen ∧
    (∀ e ∈ (sXfer none 0 []).fab.xfers, e.1 = xferKey 0 4) ∧ (xfer0 none 0).tries < (xfer0 none 0).retries ∧ (xfer0 none 1).retries ≤ (xfer0 none 1).tries ∧
    (∀ o ∈ (sXfer none 0 []).fab.outq, o.cls ≠ 2) ∧ (sXfer none 0 []).queued (xferKey 0 4) = false ∧ (sXfer none 0 []).answered (xferKey 0 4) = false ∧
    (xfer0 none 0).sentAt + 1000 * (xfer0 none 0).timeout = (sXfer none 0 []).wallNs ∧ ({ sXfer none 0 [] with wallAt := 25199999 } : State).wallNs < (xfer0 none 0).sentAt + 1000 * (xfer0 none 0).timeout ∧
    ((sXfer (some 2) 0 []).port 2).st = .up := by decide +kernel
theorem witness_firstOf : FirstOf (sXfer none 0 []) (xferKey 0 4) (xfer0 none 0) := by
  intro e he y hy _ hk; simp [sXfer, sDyn] at he; subst he; exact absurd rfl hk
/-- R328, R330, R331: a duplicate is answered again, not executed; the last attempt ends with REMOTE_TIMEOUT; hop 64 is a stray. -/
theorem test_dynamic : (after .dynRequestRx (sDyn { inq := [(2, dynFlit0 2)], dups := [(kDup, some dup0)] })).fab.outq.map (·.hdr.status) = [3] ∧
    ((after (.dynTimeout 0 4) (sXfer none 0 [])).xfer (xferKey 0 4)).map (·.gen) = some 0 ∧ (after (.dynTimeout 0 4) (sXfer none 1 [])).xfer (xferKey 0 4) = none ∧
    ((after (.dynForward 2) (sSwitch 64)).port 2).stray = 1 := by decide +kernel
/-- A shadow header flit: magic, kind 1, step 5, line 6, one flit. -/
def shHdr (line n : Nat) : Flit := { typ := 1, epoch := false, check := 10, lo := BitVec.ofNat 2048 (0x49545331 + 2 ^ 32 + 5 * 2 ^ 64 + line * 2 ^ 128 + n * 2 ^ 192), hi := 0 }
def grafted0 (sender : Nat) : MgrMsg :=
  { format := 0x49544D31, kind := 7, cause := 0, sender, job := 6, seq := 1, subject := 1, aux := 0, dseq := 1, arg0 := 7, arg1 := 0, arg2 := 0, digest0 := 0, digest1 := 0, tail := 0, tag := 0 }
def rq0 : ShadowReq := { serial := 7, job := 6, rank := 1 }
theorem witness_twinKeepsShadow : (∃ m, ((sTwin shadow0 [shHdr 6 1]).shadow 0).map = some m ∧ (shHdr 6 1).check % 384 ∈ m.slots) ∧ 11 ∉ ([10] : List Nat) ∧
    bits (shHdr 6 1).lo.toNat 0 32 = 0x49545331 ∧ bits (shHdr 6 1).lo.toNat 32 8 = 1 ∧ bits (shHdr 6 1).lo.toNat 40 24 = 0 ∧ bits (shHdr 6 1).lo.toNat 240 1808 = 0 ∧
    bits (shHdr 6 1).lo.toNat 128 64 % 2 = 0 ∧ bits (shHdr 6 1).lo.toNat 128 64 + 2 * bits (shHdr 6 1).lo.toNat 192 32 ≤ (sTwin shadow0 []).regionSize 0 ∧
    bits (plainFlit 1).lo.toNat 0 32 ≠ 0x49545331 ∧ 0 < ((sTwin { shadow0 with left := 1 } []).shadow 0).left ∧ (sTwin shadow0 []).keys.pairKey = true ∧
    look none ((sTwin shadow0 []).shadow 0).parkReq 3 = some (2, 1) ∧ ((sTwin shadow0 []).port 10).st = .up ∧ (sTwin shadow0 []).keys.twinSerial = some 9 ∧
    ((sTwin shadow0 []).port 10).peer = some (ctl0 0xF 0) ∧ (ctl0 0xF 0).serial = 9 ∧
    ({ shadow0 with grafts := [grafted0 1, grafted0 2, grafted0 3] } : Shadow).grafted rq0 = true ∧ shadow0.grafted rq0 = false := by
  refine ⟨⟨_, rfl, ?_⟩, ?_⟩ <;> decide +kernel
theorem test_shadow : ((after .shadowFlitRx (sTwin shadow0 [shHdr 6 1])).shadow 0).left = 1 ∧ ((after .shadowFlitRx (sTwin shadow0 [shHdr 8 1])).shadow 0).incompl = true ∧
    (after (.twinParkCopy 0 3) (sTwin shadow0 [])).out = [.twinParked 0 3] := by decide +kernel
/-! ### States and operands that meet the hypotheses of the statements about jobs, power, start-up and the host's commands -/

/-- The header with the tag of opcode `op` under key 0, which the sessions of these states have. -/
def tagged (h : Hdr) (op : Nat) : Hdr := { h with tag := cmdTag 0 h op }
/-- `Accepted` for the tagged header, evaluated but for its tag. -/
def accB (s : State) (h0 : Hdr) (op : Nat) : Bool :=
  let h := tagged h0 op
  s.serves h && !s.waits h op && h.encOk && h.dmaOk && h.resOk && decide ((h, op) ∉ s.mute) && (decide (h.fn = 17) || (s.ring h.fn h.set 1).enable) &&
  (sessionless op || match s.session h.sid with
    | some x => x.proved && decide (x.key = 0) && decide (x.counter < h.counter) && !s.denied h op x
    | none => false)
theorem accepted_of (s : State) (h : Hdr) (op : Nat) (e : accB s h op = true) : Accepted s (tagged h op) op := by
  simp only [accB, Bool.and_eq_true, Bool.not_eq_true', Bool.or_eq_true, decide_eq_true_eq] at e
  obtain ⟨⟨⟨⟨⟨⟨⟨a, b⟩, c⟩, d⟩, f⟩, g⟩, i⟩, j⟩ := e
  refine ⟨a, b, c, d, f, ⟨g, i⟩, ?_⟩
  rcases j with j | j
  · exact .inl j
  · right; split at j
    · rename_i x hx
      simp only [Bool.and_eq_true, Bool.not_eq_true', decide_eq_true_eq] at j
      exact ⟨x, hx, j.1.1.1, by rw [j.1.1.2]; rfl, j.1.2, j.2⟩
    · cases j
/-- The outcome of a command's own part, posted. -/
def posted (h : Hdr) (op : Nat) : Did → State
  | (t, none) => t
  | (t, some (st, res)) => t.post h op st res
/-- The state in which the own part of a command of session `x` runs; the tag is no part of the evaluation, since no evaluation
can compute it. -/
def readyOf (s : State) (h : Hdr) (op : Nat) (x : Session) : State :=
  ({ s.begin (tagged h op) op with sessions := put none s.sessions h.sid (some { x with counter := h.counter, lastAt := s.wallNs }) } : State).count locHub 0x408 1
theorem ready_tagged {s : State} {h : Hdr} {op : Nat} (x : Session) (hx : s.session h.sid = some x) (e : accB s h op = true) (hl : sessionless op = false) :
    ready s (tagged h op) op = readyOf s h op x := by
  obtain ⟨-, -, c, d, -, -, g⟩ := accepted_of s h op e
  obtain ⟨y, hy, hp, ht, hc, hd⟩ := g.resolve_left (by rw [hl]; exact Bool.false_ne_true)
  have hxy : x = y := by rw [show (tagged h op).sid = h.sid from rfl, hx] at hy; exact Option.some.inj hy
  subst hxy
  rw [ready, readyOf, s.begin_frame]
  have hc' : ¬ (tagged h op).counter ≤ x.counter := Nat.not_le.2 hc
  have ht' : ¬ (tagged h op).tag ≠ cmdTag x.key (tagged h op) op := fun hn => hn ht
  have hd' : ∀ m : SMap (Option Session), State.denied (State.count { s with
      inProg := (s.begin (tagged h op) op).inProg, taken := (s.begin (tagged h op) op).taken, rings := (s.begin (tagged h op) op).rings, sessions := m } locHub 0x408 1)
      (tagged h op) op x = false := fun m => hd
  have hx'' : State.session { s with inProg := (s.begin (tagged h op) op).inProg, taken := (s.begin (tagged h op) op).taken, rings := (s.begin (tagged h op) op).rings }
      (tagged h op).sid = some x := hx
  simp only [State.accepts, hl, hx'', hp, ht', hc', c, d, decide_false, Bool.not_true, Bool.or_false, Bool.false_eq_true, if_false, Bool.false_and]
  rw [hd']
  rfl
theorem after_tagged (i : Instr) (s : State) (h : Hdr) (op : Nat) (x : Session) {absent enc : Bool} {body : State → Did}
    (hi : exec i s = s.command (tagged h op) op absent enc body) (hx : s.session h.sid = some x) (hl : sessionless op = false) (e : accB s h op = true)
    (ha : absent = false) (hn : enc = true) :
    after i s = posted (tagged h op) op (body (readyOf s h op x)) := by
  obtain ⟨a, b, c, d, f, -, g⟩ := accepted_of s h op e
  rw [after, hi, ha, hn, State.command_runs s _ op body a b c d f g, ← ready_tagged x hx e hl, ready]
  cases body _ with
  | mk t r => cases r with
    | none => rfl
    | some v => rfl
/-- Session 1 of the states below. -/
def sess (role : Role) : Session := { role, proved := true }
/-- READY; session 1 of `role` is proved; partition 0 exists, is `q` of an EMPTY partition, and its operator is entry 0. -/
def sHost (role : Role) (q : Part → Part) : State :=
  { boot := { phase := .ready }, sessions := [(1, some { role, proved := true })], rings := [(ringKey 0 0 1, { enable := true }), (ringKey 0 0 0, { enable := true, db := 1 })]
    cold := { keys := [(0, 1)] }, parts := [(0, q { sx := { created := true } })] }
def ops (role : Role) (l : List Nat) : Bool := l.all (accB (sHost role id) hdr0) && (sHost role id).exists? 0
/-- An image that the Sieve accepts: one step kind of 2 frames, signed by the tenant's key 77, for grade 1. -/
def goodSteps : SecData := .steps [{ length := 1, window := 1, epochAt := [], zero := true }]
def goodImg : PlanImage :=
  { imgOf [{ secOf 0x01 0xFFFF 0 goodSteps with off := 3072, bytes := 64, digest := Config.sha3 (dataBytes goodSteps) }] with
    sigOk := true
    hdr := { imgHdr with format := 0x49545031, kind := 1, mode := 1, drain := 1, positions := 0, vregions := 0, signer := 77, imageBytes := 4096 } }
def tenant (q : Part) : Part := { q with sx := { q.sx with tenants := [(0, 77)] }, pw := { q.pw with alloc := 1000 } }
/-- Job 6, rank 2, managers of ranks 2 to 6. -/
def inJob (js : JState) (q : Part) : Part :=
  { q with rank := 2, jobSize := 3, sx := { q.sx with jobKey := some 5 }, jb := { q.jb with jstate := js, job := 6, mgrs := [2, 3, 4, 5, 6], seedKids := 1#16, seedPar := 4 } }
/-- The message with its tag under job key 5. -/
def signed (m : MgrMsg) : MgrMsg := { m with tag := msgTag 5 m }
def plain0 (kind sender cause : Nat) : MgrMsg :=
  { format := 0x49544D31, kind, cause, sender, job := 6, seq := 1, subject := 2, aux := 7, dseq := 1, arg0 := 399, arg1 := 0, arg2 := 0, digest0 := 8, digest1 := 0, tail := 0, tag := 0 }
def msg0 (kind sender cause : Nat) : MgrMsg := signed (plain0 kind sender cause)
def sMgr (q : Part → Part) : State := sHost .operator (fun x => q (inJob .member x))
theorem takes_of (q : Part → Part) (k : Nat) (m : MgrMsg)
    (e : m.kind = k ∧ m.format = mgrFormat ∧ (sMgr q).mgmtDown = false ∧ (sMgr q).inJob m.job = [0] ∧ ((sMgr q).part 0).sx.jobKey = some 5 ∧
      (m.sender, m.seq) ∉ ((sMgr q).part 0).jb.seen) : Takes (sMgr q) 0 k (signed m) := by
  obtain ⟨a, b, c, d, f, g⟩ := e
  refine ⟨a, ?_, c, d, by decide, g⟩
  rw [f]
  exact decide_eq_true ⟨b, rfl⟩
/-- What a message taken does: the tag is no part of the evaluation. -/
theorem after_taken {i : Instr} {s : State} {p k : Nat} {m : MgrMsg} {act : State → Nat → State} (hi : exec i s = s.receive k m act) (h : Takes s p k m) :
    after i s = act (s.onPart p (fun q => { q with jb := { q.jb with seen := q.jb.seen ++ [(m.sender, m.seq)] } })) p := by
  obtain ⟨a, b, c, d, -, f⟩ := h
  simp only [after, hi, State.receive, a, b, c, d, ok, ne_eq, not_true, Bool.false_eq_true, or_self, if_false, List.filter_cons, if_true,
    List.filter_nil, List.isEmpty_cons, List.foldl_cons, List.foldl_nil]
  rw [if_neg]
  simpa using f
theorem after_msg (i : Instr) (q : Part → Part) (k : Nat) (m : MgrMsg) {act : State → Nat → State} (hi : exec i (sMgr q) = (sMgr q).receive k (signed m) act)
    (e : m.kind = k ∧ m.format = mgrFormat ∧ (sMgr q).mgmtDown = false ∧ (sMgr q).inJob m.job = [0] ∧ ((sMgr q).part 0).sx.jobKey = some 5 ∧
      (m.sender, m.seq) ∉ ((sMgr q).part 0).jb.seen) :
    after i (sMgr q) = act ((sMgr q).onPart 0 (fun q => { q with jb := { q.jb with seen := q.jb.seen ++ [(m.sender, m.seq)] } })) 0 :=
  after_taken (m := signed m) hi (takes_of q k m e)
def asMgr (g : Mgr → Mgr) (q : Part) : Part := { q with jb := { q.jb with manager := true, mgr := g {} } }
theorem witness_membersReportAndManagersVote : Takes (sMgr (asMgr id)) 0 1 (msg0 1 3 0) ∧ Takes (sMgr (asMgr id)) 0 2 (msg0 2 1 0) ∧ Takes (sMgr (asMgr id)) 0 3 (msg0 3 1 1) ∧
    Takes (sMgr (asMgr id)) 0 4 (msg0 4 3 1) ∧ 3 ∈ ((sMgr id).part 0).jb.mgrs ∧ ((sMgr (asMgr id)).part 0).jb.manager = true ∧ ((sMgr (asMgr id)).part 0).jb.decs = [] ∧
    ((sMgr (asMgr id)).part 0).jb.mgr.grafts = [] ∧ ((sMgr id).part 0).jb.jstate.reports = true ∧ ((sMgr id).part 0).msgKey.isSome = true ∧
    (∀ p, p < 16 → ((sMgr id).part p).jb.manager = false) ∧ (sMgr id).detachCmd = none ∧ ({ sMgr id with round := 7 } : State).hallNow / 10 ^ 8 ≠ 7 ∧ (sMgr id).hallNow / 10 ^ 8 = (sMgr id).round ∧
    (∀ r, r < 3 → r ≠ 1 → look none [(0, some 8), (2, some 8)] r = some 8) ∧ (399 < (asMgr id {}).jb.mgr.score) ∧ (∀ p, p < 16 → (State.reset.part p).sx.jobKey = none) := by
  refine ⟨takes_of _ _ _ ?_, takes_of _ _ _ ?_, takes_of _ _ _ ?_, takes_of _ _ _ ?_, ?_⟩ <;> decide +kernel
/-- R384: a score below the threshold counts; at it, not. -/
theorem test_votes : look 0 ((after (.health (msg0 1 3 0)) (sMgr (asMgr id))).part 0).jb.mgr.low 3 = 1 ∧
    look 0 ((after (.health (signed { plain0 1 3 0 with arg0 := 400 })) (sMgr (asMgr id))).part 0).jb.mgr.low 3 = 0 := by
  constructor
  · rw [after_msg (.health _) _ 1 (plain0 1 3 0) rfl (by decide +kernel)]; decide +kernel
  · rw [after_msg (.health _) _ 1 { plain0 1 3 0 with arg0 := 400 } rfl (by decide +kernel)]; decide +kernel
def copies (k : Nat) (q : Part) : Part := { q with jb := { q.jb with decs := [msg0 k 4 0x10, msg0 k 5 0x10] } }
theorem quorum_of (k : Nat) (e : (plain0 k 3 0x10).sender ∈ ((sMgr (copies k)).part 0).jb.mgrs ∧ ((sMgr (copies k)).part 0).jb.applied < (plain0 k 3 0x10).dseq ∧
      msgAgrees (plain0 k 4 0x10) (plain0 k 3 0x10) = true ∧ msgAgrees (plain0 k 5 0x10) (plain0 k 3 0x10) = true) (t : Takes (sMgr (copies k)) 0 k (msg0 k 3 0x10)) :
    Quorum (sMgr (copies k)) 0 k (msg0 k 3 0x10) :=
  ⟨t, e.1, e.2.1, msg0 k 4 0x10, msg0 k 5 0x10, rfl, e.2.2.1, e.2.2.2, (by decide : 4 ≠ 3), (by decide : 5 ≠ 3), (by decide : 4 ≠ 5)⟩
def staged (q : Part) : Part := { q with st := .staged }
theorem witness_decisionsNeedThreeManagers : Takes (sMgr id) 0 5 (msg0 5 3 0) ∧ Quorum (sMgr (copies 6)) 0 6 (msg0 6 3 0x10) ∧ Quorum (sMgr (copies 0x0B)) 0 0x0B (msg0 0x0B 3 0x10) ∧
    ((sMgr (copies 6)).part 0).rank = (msg0 6 3 0x10).subject ∧ (sMgr id).hubOn = true ∧ (sMgr id).hallNow + 10 ^ 6 ≤ 1024 * 977 ∧
    ((sMgr (fun q => staged (inJob .seeded q))).part 0).jb.jstate = .seeded ∧ ((sMgr (fun q => staged (inJob .member q))).part 0).jb.jstate = .member ∧
    ((sMgr (fun q => staged q)).part 0).st = .staged ∧ ((sMgr (fun q => { q with st := .armed })).part 0).st = .armed ∧ ((sMgr (inJob .spare)).part 0).jb.jstate = .spare ∧
    (sMgr id).fuses.serial = 0 ∧ ((sMgr (inJob .seeding)).part 0).jb.jstate = .seeding ∧ ((sMgr id).part 0).image = none := by
  refine ⟨takes_of _ _ _ ?_, quorum_of 6 ?_ (takes_of _ _ _ ?_), quorum_of 0x0B ?_ (takes_of _ _ _ ?_),
    ?_, ?_, ?_, ?_, ?_, ?_, ?_, ?_, ?_, ?_, ?_⟩ <;> decide +kernel
theorem test_prune : ((after (.prune (msg0 6 3 0x10)) (sMgr (copies 6))).part 0).jb.jstate = .pruned ∧ ((after (.prune (msg0 6 3 0x10)) (sMgr id)).part 0).jb.jstate = .member := by
  constructor
  · rw [after_msg (.prune _) (copies 6) 6 (plain0 6 3 0x10) rfl (by decide +kernel)]; decide +kernel
  · rw [after_msg (.prune _) id 6 (plain0 6 3 0x10) rfl (by decide +kernel)]; decide +kernel
/-- A STAGED member of the tree with its key, everything zeroised under new keys, whose one child is still to acknowledge. -/
def seedReady (q : Part) : Part := { staged (inJob .seeding q) with image := some (imgOf []), sx := { q.sx with jobKey := some 5, cleanKeys := true } }
theorem witness_seededMember : (∃ d, ((sMgr seedReady).part 0).seedDigest = some d) ∧
    ((sMgr seedReady).part 0).clean = true ∧ (∀ i, i < 16 → i ≠ 0 → ((sMgr seedReady).part 0).jb.seedKids.getLsbD i = true → look false ((sMgr seedReady).part 0).jb.acks i = true) :=
  ⟨⟨_, rfl⟩, by decide +kernel, by decide +kernel⟩
theorem witness_seededStaged : ((sMgr seedReady).part 0).stagedAll = true := by decide +kernel
/-- A source of the tree (parent 15) with one child and nothing staged; a member whose child's digest comes last; 2 s of silence. -/
theorem witness_seedingSpreads : ((sMgr id).part 0).jb.jstate ≠ .joined ∧ ((sMgr (inJob .joined)).part 0).jb.jstate = .joined ∧ ((sMgr (inJob .joined)).part 0).image = none ∧
    ((sMgr (inJob .seeding)).part 0).jb.seedKids.getLsbD 0 = true ∧ ((sMgr (inJob .seeding)).part 0).jb.manager = false ∧ (sMgr id).mgmtDown = false ∧
    ((sMgr (inJob .seeding)).part 0).seedDigest = none ∧ accB (sMgr (inJob .joined)) hdr0 0x0605 = true ∧ ((sMgr (inJob .joined)).part 0).loadBusy = false ∧
    ({ sMgr (inJob .seeding) with wallAt := 2520 * 2 * 10 ^ 9 } : State).wallNs = ((sMgr (inJob .seeding)).part 0).jb.seedAt + 2 * 10 ^ 9 ∧
    (sMgr id).wallNs < ((sMgr id).part 0).jb.seedAt + 2 * 10 ^ 9 := by decide +kernel
/-- The source has a parent of 15 and what it stages passes the Sieve. -/
def sSource : State := sHost .operator (fun q => tenant { inJob .joined q with jb := { (inJob .joined q).jb with seedPar := 0xF } })
theorem signed_of (s : State) (p : Nat) (h : ImgHeader) (e : (s.part p).sx.tenants.any (fun e => decide (e.2 = h.signer)) = true) :
    s.signed p { goodImg with hdr := h } = true := by
  simp only [State.signed, e, Bool.and_true]
  simp only [goodImg, imgOf, sectionOk, List.all_cons, List.all_nil, Bool.and_true, Bool.true_and, decide_eq_true_eq]
  rfl
theorem test_sieve : (((sHost .operator tenant).withRole 0).sieve 0 goodImg 0 false).check = 0 ∧ (((sHost .operator tenant).withRole 0).sieve 0 goodImg 2 false).check = 4 ∧
    (((sHost .operator id).withRole 0).sieve 0 goodImg 0 false).check = 1 ∧
    (((sHost .operator tenant).withRole 0).sieve 0 { goodImg with hdr := { goodImg.hdr with drain := 2 } } 0 false).check = 2 := by
  refine ⟨?_, ?_, by decide +kernel, ?_⟩ <;>
    rw [State.sieve, signed_of _ _ _ (by decide +kernel), Bool.not_true, if_neg Bool.false_ne_true] <;> decide +kernel
theorem witness_seedSource : accB sSource hdr0 0x0605 = true ∧ (sSource.part 0).jb.jstate = .joined ∧ (sSource.part 0).jb.seedPar = 0xF ∧ (sSource.part 0).loadBusy = false ∧
    (((ready sSource (tagged hdr0 0x0605) 0x0605).withRole 0).sieve 0 goodImg 0 false).check = 0 := by
  refine ⟨by decide +kernel, by decide +kernel, by decide +kernel, by decide +kernel, ?_⟩
  rw [ready_tagged { role := .operator, proved := true } rfl (by decide +kernel) rfl, State.sieve, signed_of _ _ _ (by decide +kernel), Bool.not_true, if_neg Bool.false_ne_true]
  decide +kernel
def join0 : JobIn := { job := 6, rank := 2, cube := 0, boc := 0, mgrs := [2, 3, 4, 5, 6], parent := 0xF, children := 0 }
def hdr1 : Hdr := { hdr0 with cid := 2, counter := 2 }
/-- The seven job commands an operator or installer may give are accepted in these states. -/
theorem witness_jobCommandsSetMembership : ops .operator [0x0601, 0x0602, 0x0603, 0x0604, 0x0609] = true ∧ ops .installer [0x0606, 0x0607, 0x0608] = true ∧
    (sHost .operator id).seedAbsent join0 = false ∧ joinOk join0 = true ∧ (sHost .operator id).keys.debugOn = false ∧ ((sHost .operator id).part 0).active? = false ∧
    ((sHost .operator id).part 0).jb.jstate = .none ∧ ((sHost .operator id).part 0).st = .empty ∧ ((sMgr id).part 0).jb.jstate ≠ .none ∧
    ((sMgr id).part 0).rank ∈ ((sMgr id).part 0).jb.mgrs ∧ accB (sMgr id) hdr0 0x0604 = true ∧ (2 ^ 64 - 1 < 2 ^ 64) ∧
    ((sMgr (asMgr id)).part 0).jb.manager = true ∧ accB (sMgr (asMgr id)) hdr0 0x0609 = true ∧ ((sMgr (asMgr id)).part 0).jb.teardown = none ∧
    (sHost .installer id).detachCmd = none ∧ ((sHost .installer (inJob .member)).part 0).jb.jstate = .member ∧
    accB { sHost .installer (inJob .member) with detachCmd := some hdr1 } hdr0 0x0608 = true ∧ hdr1.fn = 0 := by decide +kernel
/-- A wrap that the partition's wrap key opens. -/
def wrap0 : JobWrap :=
  { format := 0x49544B31, job := 6, ct := 0, masked := 0
    check := Config.kmac (leBytes 32 (Config.decap 0 0).toNat) (leBytes 4 0x49544B31 ++ leBytes 4 6 ++ leBytes 1088 0 ++ leBytes 32 (0 : Hash).toNat) "ITMIR-JOBCHK" }
theorem witness_jobKey : ∃ key, ((sHost .operator id).part 0).unwrap 6 wrap0 = some key := ⟨_, if_pos ⟨rfl, rfl, rfl⟩⟩
theorem test_job_commands : ((after (.jobLeave (tagged hdr0 0x0603)) (sMgr id)).part 0).jb = {} ∧
    ((after (.spareOffer (tagged hdr0 0x0606) 6 [2, 3, 4, 5, 6]) (sHost .installer id)).part 0).jb.jstate = .spare := by
  constructor
  · rw [after_tagged (.jobLeave _) (sMgr id) hdr0 0x0603 (sess .operator) rfl rfl rfl (by decide +kernel) (by decide +kernel) (by decide +kernel)]; decide +kernel
  · rw [after_tagged (.spareOffer _ 6 [2, 3, 4, 5, 6]) (sHost .installer id) hdr0 0x0606 (sess .installer) rfl rfl rfl (by decide +kernel) (by decide +kernel) (by decide +kernel)]; decide +kernel
def sDom (dom : Nat) (st : PState) : State := { pwr := { dom := BitVec.ofNat 96 dom }, parts := [(0, { part0 with st })], blocks := [(0, block0)] }
/-- Block 0, which no partition owns, still has power. -/
def sOff : State := { pwr := { dom := 1 } }
theorem witness_windbreakAndDomains : State.reset.cycle / 2048 ≤ State.reset.pwr.estAt ∧ ({ cycle := 2048 } : State).pwr.estAt < ({ cycle := 2048 } : State).cycle / 2048 ∧
    ({ pwr := { overRun := 1023 } } : State).pwr.overRun < 1024 ∧ 1024 ≤ ({ pwr := { overRun := 1024 } } : State).pwr.overRun ∧ (95 : Nat) < 96 ∧
    ({ sDom 0 .running with wallAt := 2520 * 9999, pwr := { dom := 0, swNext := 10000 } } : State).wallNs < 10000 ∧ (sDom 0 .running).firstDue true 0 = false ∧
    (sDom 1 .running).onDue 0 = false ∧ (sDom 1 .running).offDue 0 = false ∧ (sDom 0 .running).pwr.swNext ≤ (sDom 0 .running).wallNs ∧
    (sDom 0 .running).firstDue true 88 = true ∧ (sDom 0 .running).onDue 88 = true ∧ sOff.firstDue false 0 = true ∧ sOff.offDue 0 = true ∧ SMap.wf Part.zero sOff.parts = true := by decide +kernel
/-- R476: the fault comes with the 1,024th estimate above 110 %. -/
theorem test_overpower : (after .overpower { pwr := { overRun := 1023 } }).raised = [] ∧ (after .overpower { pwr := { overRun := 1024 } }).raised.map (·.code) = [0xB4] ∧
    (after (.domainSwitch 88 true) (sDom 0 .running)).pwr.dom.getLsbD 88 = true ∧ (after (.domainSwitch 0 false) sOff).pwr.dom = 0 := by decide +kernel
/-- Flow and inlet out of range since the start, `ns` nanoseconds ago. -/
def sCool (ns : Nat) : State := { wallAt := 2520 * ns, pwr := { lowFlow := some 0, hotInlet := some 0 } }
/-- Both sides of 40 V, 60 V, 38 V and 63 V; the thresholds of a group; of a sensor index and of 2 s; 4 and 3 converters left. -/
theorem witness_thermalAndSupplyFaults : ((40000 ≤ 40000 ∧ 39999 < 40000) : Prop) ∧ (60000 ≤ 60000 ∧ 60000 < 60001) ∧ (38000 ≤ 38000 ∧ 37999 < 38000 ∧ 63000 ≤ 63000 ∧ 63000 < 63001) ∧
    sensorOf .region 3 = true ∧ sensorOf .region 4 = false ∧ (thresholds .region).1 ≤ 200 ∧ (thresholds .region).2.2.1 ≤ 200 ∧ ¬ (thresholds .region).2.2.1 ≤ 0 ∧
    State.reset.pwr.convOk.getLsbD 4 = true ∧ State.reset.pwr.dom ≠ 0 ∧ ({ pwr := { dom := 0 } } : State).pwr.dom = 0 ∧ ({ pwr := { stages := [(0, 1)] } } : State).stage = 1 ∧
    max State.reset.pwr.capW 1440 ≤ 100 * 30 ∧ 100 * 14 < max State.reset.pwr.capW 1440 ∧ (45 : Nat) ≤ 45 ∧ (45 : Nat) < 46 ∧ State.reset.pwr.lowFlow = none ∧
    (sCool 1999999999).wallNs < 2 * 10 ^ 9 ∧ 2 * 10 ^ 9 ≤ (sCool (2 * 10 ^ 9)).wallNs ∧ (sCool 0).pwr.lowFlow = some 0 ∧ (sCool 0).pwr.hotInlet = some 0 ∧
    look 0 State.reset.pwr.phLost 0 < 3 ∧ 95 * State.reset.railMv 0 ≤ 100 * State.reset.railMv 0 ∧ 100 * 0 < 95 * State.reset.railMv 0 ∧ 3 ≤ look 0 ({ pwr := { phLost := [(0, 3)] } } : State).pwr.phLost 0 := by decide +kernel
theorem test_supply : (after (.supplyUv 39999) State.reset).raised.map (·.code) = [0xB0] ∧ (after (.supplyUv 40000) State.reset).raised = [] ∧
    (after (.inputLockout 37999) State.reset).pwr.dom = 0 ∧ (after (.coolantLost (.flow 14)) (sCool (2 * 10 ^ 9))).raised.map (·.code) = [0xB6] ∧
    (after (.coolantLost (.flow 14)) (sCool 1999999999)).raised = [] ∧ (after (.converterFailure 4) State.reset).raised.map (·.code) = [0xC6] := by decide +kernel
def sBoot (phase : Phase) (low : Bool) : State := { sHost .operator id with boot := { phase, rstLow := low }, pwr := { lockout := false } }
def fwOn (s : State) : Bool := s.spFw.select.isSome && s.mgFw.select.isSome
theorem witness_resetAndStartUp : ((42000 ≤ 42000 ∧ 42000 < 42001) : Prop) ∧ (sBoot .power true).boot.rstLow = true ∧ (sBoot .power true).pwr.lockout = false ∧ (0x5B#8 ≠ 0x5A#8) ∧
    (sBoot .calibration false).boot.phase = .calibration ∧ ((sBoot .calibration false).part 0).sx.created = true ∧ (sBoot .ready true).boot.phase = .ready ∧
    (State.reset.seqr.hubDom &&& ~~~((7#8).setWidth 4)) ≠ 0 ∧ (State.reset.seqr.hubDom &&& ~~~((0xF#8).setWidth 4)) = 0 ∧ (sBoot .ready false).anyActive = false ∧
    fwOn (sBoot .ready false) = true ∧ (sBoot .ready false).pwr.dom.getLsbD 94 = true ∧ ({ sBoot .ready false with mgmtDown := true } : State).mgFw.activ = none ∧
    ({ sBoot .ready false with spFw := { a := none } } : State).spFw.select = none ∧ (sBoot .ready false).spFw.a.isSome = true := by decide +kernel
theorem test_reset : (after (.inputTurnOn 42001) (sBoot .ready false)).boot.phase = .power ∧ (after (.ready 7) (sBoot .calibration false)).boot.phase = .ready ∧
    ((after (.ready 7) (sBoot .calibration false)).part 0).sx.keyGen = 1 ∧ (after (.hubDomWrite 7) State.reset).seqr.refused = true := by decide +kernel
def src0 : Src := .host 0
def loaded (q : Part) : Part := { staged (tenant q) with image := some goodImg }
/-- A plan section for bank 1 of the loaded image. -/
def secImg : PlanImage :=
  { goodImg with secs := [{ secOf 0x02 0 256 (.cellCode [(0, 1#64)] [0]) with off := 3072, bytes := 65792 }], hdr := { goodImg.hdr with kind := 2, parent := 0, imageBytes := 68864 } }
theorem witness_planCommands : ops .operator [0x0301, 0x0302, 0x0303, 0x0304, 0x0305, 0x0306, 0x0307, 0x0308] = true ∧ srcOk hdr0 src0 = true ∧ bindingOk 0xFF = true ∧
    ((sHost .operator tenant).part 0).loadBusy = false ∧ lengthOk goodImg 4096 = true ∧
    ((sHost .operator tenant).part 0).zeroising (((sHost .operator tenant).part 0).touches ((mineOf goodImg ((sHost .operator tenant).part 0).rank).map (·.2))) = false ∧
    ((sHost .operator loaded).part 0).bankLoad = none ∧ ((sHost .operator loaded).part 0).st = .staged ∧ lengthOk secImg 68864 = true ∧
    (∀ x ∈ secImg.secs, x.sub / 256 % 2 = b2n (!((sHost .operator loaded).part 0).bankAct)) ∧ ((sHost .operator loaded).part 0).jb.jstate = .none ∧
    (sHost .operator loaded).hubOn = true ∧ 97660 % 10 = 0 ∧ (sHost .operator loaded).hallNow + 10 ^ 8 ≤ 1024 * 97660 ∧ (sHost .operator loaded).bankValid 0 true = true ∧
    ((sHost .operator (fun q => { loaded q with st := .armed })).part 0).st = .armed ∧ ((sHost .operator (fun q => { loaded q with st := .faulted })).part 0).st = .faulted ∧
    ((sHost .operator (fun q => { loaded q with st := .running })).part 0).st = .running ∧
    accB (sHost .operator (fun q => { loaded q with st := .running })) hdr0 0x0306 = true := by decide +kernel
/-- R403, R408; Table 17.13: PLAN_START at 100 ms from now, not before. -/
theorem test_plan_commands : ((after (.planStart (tagged hdr0 0x0305) 97660) (sHost .operator loaded)).part 0).st = .armed ∧
    ((after (.planStart (tagged hdr0 0x0305) 97650) (sHost .operator loaded)).part 0).st = .staged := by
  constructor
  · rw [after_tagged (.planStart _ 97660) (sHost .operator loaded) hdr0 0x0305 (sess .operator) rfl rfl rfl (by decide +kernel) (by decide +kernel) (by decide +kernel)]; decide +kernel
  · rw [after_tagged (.planStart _ 97650) (sHost .operator loaded) hdr0 0x0305 (sess .operator) rfl rfl rfl (by decide +kernel) (by decide +kernel) (by decide +kernel)]; decide +kernel
/-- A rootstock of one line at the first rotated lease, its data after header, section table and signature. -/
def bundle0 : Bundle :=
  { format := 0x49544231, kind := 1, sections := 1, layouts := 0, modelId := 0, rootDigest := 0, span := 2048, recLines := 1, depth := 0, signer := 77, sigOk := true
    secs := [{ tier := 1, content := 1, paddr := 2 ^ 30, lines := 1, off := 2816, digest := Config.sha3 (linesBytes [0]), data := [0] }] }
def bl0 (scion : Nat) : BLoad := { setB := true, scion, slot := 0, bn := bundle0, hdr := some hdr0 }
def served (q : Part) : Part :=
  { tenant q with image := some (imgOf [secServing { slots := 16, tokLines := 1, kvPages := 4 }, secOf 0x0A 0xFFFF 0 (.addressMap [⟨3, 0, 1, 2, 0⟩])]), landLeases := [2, 3], coldTabA := [(2, some ⟨0, 0, 1⟩), (3, some ⟨0, 2, 1⟩), (5, some ⟨0, 1, 1⟩)], coldKey := 1
                  st := .staged, setB := { valid := true }, park := [(3, { parkOf .parked with length := 64 })] }
theorem witness_bundlesAndServingCommands : ops .operator [0x0401, 0x0402, 0x0403, 0x0404, 0x0405, 0x0501, 0x0502, 0x0503, 0x0504, 0x0505, 0x0506, 0x0507, 0x0508] = true ∧
    (sHost .operator served).mergeAbsent bundle0 = false ∧ srcOk hdr0 src0 = true ∧ 4095 < 4096 ∧ ((sHost .operator served).part 0).bundle = none ∧
    ((sHost .operator id).part 0).bundleRefused (bl0 0) = some 1 ∧ ((sHost .operator served).part 0).bundleRefused (bl0 0) = none ∧
    (false = ((sHost .operator served).part 0).active) ∧
    ((sHost .operator served).part 0).namesScion 9 = false ∧ ((sHost .operator served).part 0).held = false ∧ ((sHost .operator served).part 0).pendRot = none ∧
    0 ≤ ((sHost .operator served).part 0).stepNo ∧ ((sHost .operator served).part 0).stepNo < 1 ∧ ((sHost .operator served).part 0).standby.valid = true ∧
    ((sHost .operator served).part 0).placeRec 4096 = some (2 * 2 ^ 30) ∧ ((sHost .operator id).part 0).placeRec 4096 = none ∧
    ((sHost .operator served).part 0).stageBad (5 * 2 ^ 30 + 256 * 3) = false ∧ (5 * 2 ^ 30 + 256 * 4 ≤ 2 ^ 40) ∧ ((sHost .operator served).part 0).noLoadSlots = false ∧
    ((sHost .operator served).part 0).slotCount = 16 ∧ (sHost .operator served).cold.state ≠ .failed ∧ look 0 (sHost .operator served).cold.keys 0 ≠ 0 ∧
    (look Park.zero ((sHost .operator served).part 0).park 3).st = .parked ∧ ([3] : List Nat).length = (64 + 63) / 64 ∧ (look Park.zero ((sHost .operator served).part 0).park 4).st ≠ .parked := by decide +kernel
theorem witness_bundleLoading : (sHost .operator served).bundleOf 0 src0 bundle0 = bundle0 ∧
    ((sHost .operator (fun q => { served q with bundle := some (bl0 0) })).part 0).bundle = some (bl0 0) ∧
    ((sHost .operator (fun q => { served q with stageHdr := some hdr0 })).part 0).stageHdr = some hdr0 := ⟨rfl, rfl, rfl⟩
theorem test_serving : (look none ((after (.slotAccept (tagged hdr0 0x0502) 15 16) (sHost .operator served)).part 0).recs 0).map (fun r => (r.kind, r.slot, r.arg)) = some (2, some 15, 16) ∧
    ((after (.bundleLoad (tagged hdr0 0x0401) src0 true 0 0 bundle0) (sHost .operator served)).part 0).rotLoad = .busy ∧
    (look Park.zero ((after (.slotResume (tagged hdr0 0x0505) 3 [3]) (sHost .operator served)).part 0).park 3).st = .resuming := by
  refine ⟨?_, ?_, ?_⟩
  · rw [after_tagged (.slotAccept _ 15 16) (sHost .operator served) hdr0 0x0502 (sess .operator) rfl rfl rfl (by decide +kernel) (by decide +kernel) (by decide +kernel)]; decide +kernel
  · rw [after_tagged (.bundleLoad _ src0 true 0 0 bundle0) (sHost .operator served) hdr0 0x0401 (sess .operator) rfl rfl rfl (by decide +kernel) (by decide +kernel) (by decide +kernel)]; decide +kernel
  · rw [after_tagged (.slotResume _ 3 [3]) (sHost .operator served) hdr0 0x0505 (sess .operator) rfl rfl rfl (by decide +kernel) (by decide +kernel) (by decide +kernel)]; decide +kernel
/-- A proof under the key whose image is 0; the session's KH is its hash. -/
def pf0 : ProveIn := { c := 0, pk := 0, proof := 0, certOk := true, sigOk := true, capsOk := true }
def kh0 : Hash := Config.sha3 (leBytes 1312 0)
def open1 (pass : Bool) : State :=
  { sHost .installer id with
    sessions := [(1, some { role := .installer, proved := true }), (2, some { role := .installer, kh := kh0, pass })], keys := { installers := [(0, kh0)], passSet := true } }
def hdrM : Hdr := { hdr0 with fn := 17 }
theorem witness_sessionsAndIdentity : ops .installer [0x0101, 0x0102, 0x0105, 0x0106, 0x0107, 0x0108] = true ∧ accB (open1 true) hdrM 0x0103 = true ∧ accB (open1 true) hdrM 0x0104 = true ∧
    (open1 true).keys.passSet = true ∧ (open1 true).keys.passLock = false ∧ (open1 true).sessions.length < 32 ∧ (open1 false).roleEntry .operator kh0 pf0 = none ∧
    (open1 true).wallNs ≤ 0 + 10 ^ 10 ∧ 0 + 10 ^ 10 < ({ open1 true with wallAt := 2520 * (10 ^ 10 + 1) } : State).wallNs ∧
    (sHost .installer id).wallNs < (sess .installer).lastAt + 900 * 10 ^ 9 ∧ ({ sHost .installer id with wallAt := 2520 * 900 * 10 ^ 9 } : State).wallNs = (sess .installer).lastAt + 900 * 10 ^ 9 ∧
    (sHost .installer id).serves hdr0 = true ∧ (sHost .installer id).waits hdr0 0x0306 = false ∧ (sHost .installer id).session 2 = none ∧
    (sHost .installer id).denied hdr0 0x0306 (sess .installer) = true ∧ (0 < 1 ∧ 0 + 1 ≤ ({ sHost .installer id with auditIdx := 1, audit := [] } : State).auditIdx) := by decide +kernel
theorem witness_openSessions : (open1 false).session 2 = some { role := .installer, kh := kh0 } ∧ (open1 true).session 2 = some { role := .installer, kh := kh0, pass := true } ∧
    (∃ e, (open1 false).roleEntry .installer kh0 pf0 = some e) ∧ Config.sha3 (leBytes 1312 pf0.pk) = kh0 ∧ Config.sha3 (leBytes 1312 pf0.pk) ≠ kh0 + 1 ∧
    (∃ v, v = (open1 true).passProof 2 { role := .installer, kh := kh0, pass := true } 0) ∧ (∃ v, v ≠ (open1 true).passProof 2 { role := .installer, kh := kh0, pass := true } 0) := by
  refine ⟨rfl, rfl, ⟨0, ?_⟩, rfl, ?_, ⟨_, rfl⟩, ⟨(open1 true).passProof 2 { role := .installer, kh := kh0, pass := true } 0 + 1, ?_⟩⟩
  · simp [open1, State.roleEntry, keyEntry]
  · rw [show Config.sha3 (leBytes 1312 pf0.pk) = kh0 from rfl]; bv_omega
  · generalize (open1 true).passProof 2 { role := .installer, kh := kh0, pass := true } 0 = v; bv_omega
theorem test_sessions : (after (.sessionOpen hdr0 2 77) (sHost .installer id)).session (sHost .installer id).freeSid = some { role := .installer, kh := 77, nonce := Config.secret 0 } ∧
    (after (.sessionTimeout 1) { sHost .installer id with wallAt := 2520 * 900 * 10 ^ 9 }).session 1 = none ∧
    (after (.sessionTimeout 1) { sHost .installer id with wallAt := 2520 * 900 * 10 ^ 9 - 1 }).session 1 = some (sess .installer) := by
  refine ⟨rfl, ?_, ?_⟩ <;> decide +kernel
def def0 : PartDef := { blocks := 1, stack := [⟨5, 0, 4, 1⟩], cold := [⟨2, 0, 0, 1⟩], landing := [2], alloc := 100, entry := 3 }
def sIns : State := { sHost .installer id with keys := { operators := [(3, 9)], opParts := [(3, 3)] } }
def hdrP : Hdr := { hdr0 with part := 1 }
theorem witness_keysAndPartitions : ops .installer [0x0109, 0x010A, 0x010E, 0x0202, 0x0203, 0x0204, 0x0205] = true ∧ ops .operator [0x010B, 0x010C, 0x010D] = true ∧
    ops .maker [0x0110, 0x0111] = true ∧ accB sIns hdrP 0x0201 = true ∧ sIns.exists? 1 = false ∧ sIns.masksAbsent def0 = false ∧
    sIns.defOk def0 = true ∧ sIns.layoutBad 1 def0 = false ∧ sIns.layoutBad 0 def0 = false ∧
    put 0 (sHost .installer id).keys.installers 0 (0 : Hash) = [] ∧ (sHost .operator id).keys.debugOn = false ∧ (sHost .maker id).activeParts = [] ∧ look 0 ((sHost .operator tenant).part 0).sx.tenants 0 = 77 ∧
    some 5 ≠ some (sHost .installer id).fuses.serial ∧ (255 < 256 ∧ 12 ≤ 12 ∧ 128 ≤ 128) := by decide +kernel
theorem witness_sessionOfEntry : (open1 false).session 2 = some { role := .installer, kh := look 0 (open1 false).keys.installers 0 } := rfl
theorem test_keys : ((after (.partCreate (tagged hdrP 0x0201) def0) sIns).block 0).owner = some 1 ∧ ((after (.keyRotate (tagged hdr0 0x010D)) (sHost .operator id)).part 0).sx.keyGen = 1 ∧
    (after (.passphraseSet (tagged hdr0 0x010A) (List.replicate 12 0)) (sHost .installer id)).keys.passSet = true := by
  refine ⟨?_, ?_, ?_⟩
  · rw [after_tagged (.partCreate _ def0) sIns hdrP 0x0201 (sess .installer) rfl rfl rfl (by decide +kernel) (by decide +kernel) (by decide +kernel)]; decide +kernel
  · rw [after_tagged (.keyRotate _) (sHost .operator id) hdr0 0x010D (sess .operator) rfl rfl rfl (by decide +kernel) (by decide +kernel) (by decide +kernel)]; decide +kernel
  · rw [after_tagged (.passphraseSet _ (List.replicate 12 0)) (sHost .installer id) hdr0 0x010A (sess .installer) (execPassphraseSet.eq_1 _ _ _) rfl rfl (by decide +kernel) (by decide +kernel) (by decide +kernel)]; decide +kernel
def img1 : FwImage := { version := 1, digest := 4, signed := true }
def sFw : State := { sHost .installer id with mgFw := { a := some { version := 0, digest := 0, signed := true }, b := some img1 }, spFw := { a := some { version := 0, digest := 0, signed := true }, b := some img1 } }
def cal0 : CalOut := { flashOk := true, port := tr0 true 0 816, skews := [], bad := [] }
theorem witness_serviceCommands :
    ops .installer [0x0701, 0x0702, 0x0703, 0x0704, 0x0705, 0x0801, 0x0802, 0x0803, 0x0804, 0x0810, 0x0811, 0x0901, 0x0902, 0x0903, 0x0904, 0x0910, 0x0911, 0x0912, 0x0920, 0x0921] = true ∧
    ops .maker [0x0820, 0x0930] = true ∧ 1200 ≤ (sHost .installer id).fuses.capMax ∧ (sHost .installer id).allocSum ≤ 1200 ∧ ¬ (sHost .installer (fun q => { q with pw := { alloc := 1201 } })).allocSum ≤ 1200 ∧
    (sHost .installer id).hasCounter 0x1000 0 = true ∧ eventOk 1 0 = true ∧ (sHost .installer id).errNext ≤ 0 + 16384 ∧ 0 + 16384 < 16385 ∧
    (sHost .installer id).enginePresent 63 = true ∧ (sHost .installer id).unitAbsent 1 2033 = false ∧ unitExists 1 2033 = true ∧ (sHost .installer id).unitBusy 1 2033 = false ∧
    (sHost .installer id).boot.phase = .ready ∧ (sHost .installer id).installing = false ∧ ((sHost .installer id).fw .management).verifies img1 = true ∧
    (sFw.fw .management).good true = some img1 ∧ (sFw.fw .management).image false = some { version := 0, digest := 0, signed := true } ∧
    (sHost .installer id).slicesLeased [] = false ∧ (sHost .installer id).calBusy false 11 = false ∧ (sHost .installer id).portHeld 10 10 = false ∧ (sHost .installer id).axRole ≠ some 10 ∧
    max 16 ((cal0.port.quiet8 + 8 * 0 + 7) / 8 + 8) ≤ 4095 ∧ (∀ e ∈ (sHost .maker id).fuses.blown, e.1 ≠ 255) := by decide +kernel
/-- The set that READY finds in a chip as made: its digest is of its own fields. -/
theorem witness_calSet : calValid 0 0 (factorySet 0 0) = true := by
  unfold calValid
  rw [decide_eq_true (p := (factorySet 0 0).format = calFormat ∧ (factorySet 0 0).serial = 0 ∧ (factorySet 0 0).digest = calDigest (factorySet 0 0) ∧ (factorySet 0 0).shadow.length ≤ 1)
    ⟨rfl, rfl, rfl, by decide⟩]
  decide +kernel
theorem test_service : (after (.powerCapSet (tagged hdr0 0x0702) 1200) (sHost .installer id)).pwr.capNext = some 1200 ∧
    (after (.fwActivate (tagged hdr0 0x0902) .management true) sFw).mgmtDown = true ∧ (look 0#18 (after (.cellRetire (tagged hdr0 0x0810) 63 17) (sHost .installer id)).retired 63) = 0x20000#18 := by
  refine ⟨?_, ?_, ?_⟩
  · rw [after_tagged (.powerCapSet _ 1200) (sHost .installer id) hdr0 0x0702 (sess .installer) rfl rfl rfl (by decide +kernel) (by decide +kernel) (by decide +kernel)]; decide +kernel
  · rw [after_tagged (.fwActivate _ .management true) sFw hdr0 0x0902 (sess .installer) rfl rfl rfl (by decide +kernel) (by decide +kernel) (by decide +kernel)]; decide +kernel
  · rw [after_tagged (.cellRetire _ 63 17) (sHost .installer id) hdr0 0x0810 (sess .installer) (execCellRetire.eq_1 _ _ _ _) rfl rfl (by decide +kernel) (by decide +kernel) (by decide +kernel)]; decide +kernel
def copy0 (ch : Nat) : CopyIn := { write := true, rank := 1, part := 0, ch, laddr := 5 * 2 ^ 30, raddr := 0, lines := 1, timeout := 1, retries := 7 }
def sCopy : State := sHost .operator (fun q => { q with coldTabA := [(5, some ⟨0, 1, 1⟩)], jb := { job := 6, jstate := .joined } })
theorem witness_hostPathAndLayers : (sHost .operator id).ringExists 16 0 3 = true ∧ ((sHost .operator id).ring 0 0 0).enable = true ∧ 2 ^ ((sHost .operator id).ring 0 0 0).size ≤ (65535#64).toNat % 65536 ∧
    (sHost .operator id).setExists 0 = true ∧ Ring.held ((sHost .operator id).ring 0 0 0).db ((sHost .operator id).ring 0 0 0).ptr ((sHost .operator id).ring 0 0 0).size ≠ 0 ∧
    ((sHost .operator id).ring 0 0 0).flight + Ring.held ((sHost .operator id).ring 0 0 1).ptr ((sHost .operator id).ring 0 0 1).db ((sHost .operator id).ring 0 0 1).size + 1 < 2 ^ ((sHost .operator id).ring 0 0 1).size ∧
    (sHost .operator id).serves hdrM = true ∧ assigned 0x0101 = true ∧ assigned 0x0100 = false ∧ (sHost .operator id).hasCounter 0x1000 0 = true ∧ ops .operator [0x0620, 0x0621, 0x0622, 0x0623] = true ∧
    (sHost .operator id).portAbsent 10 = false ∧ ((sHost .operator id).port 10).opened 0 = false ∧ ((sHost .operator id).part 0).active? = false ∧
    ({ up0 with boot := [(0, some { job := 6, rank := 2, serial := 9, routes := [] })] } : Port).opened 0 = true ∧ copyOk (copy0 3) = true ∧ copyOk (copy0 4) = false ∧ (sCopy.part 0).copyBad (copy0 3) = false ∧
    (sCopy.outstanding 3).length < 64 ∧ (sCopy.part 0).noLoadSlots = false ∧ accB sCopy hdr0 0x0622 = true ∧ (sCopy.part 0).zeroising ((leasesAt (5 * 2 ^ 30) 1).map (fun i => (Tier.cold, i))) = false := by decide +kernel
theorem test_host_path : ((after (.doorbellWrite 0 0 0 65535) (sHost .operator id)).ring 0 0 0).err = true ∧ (after (.submissionFetch hdr0 0x0101) (sHost .operator id)).inProg.map (·.2) = [0x0101] ∧
    (after (.fabricCopy (tagged hdr0 0x0622) (copy0 3)) sCopy).fab.outq.length = 1 ∧ ((after (.portOpen (tagged hdr0 0x0620) 10 6 0 9 []) sCopy).port 10).opened 0 = true := by
  refine ⟨by decide +kernel, by decide +kernel, ?_, ?_⟩
  · rw [after_tagged (.fabricCopy _ (copy0 3)) sCopy hdr0 0x0622 (sess .operator) rfl rfl rfl (by decide +kernel) (by decide +kernel) (by decide +kernel)]; decide +kernel
  · rw [after_tagged (.portOpen _ 10 6 0 9 []) sCopy hdr0 0x0620 (sess .operator) rfl rfl rfl (by decide +kernel) (by decide +kernel) (by decide +kernel)]; decide +kernel
/-- R496: the sample of what SELECT named; 40 ns between selections. -/
theorem test_counter_select : (after (.counterSelect 0x10000000) State.reset).cnt.want = some (0x1000, 0) ∧ (after .counterSample (after (.counterSelect 0x10000000) State.reset)).cnt.valid = true := by
  decide +kernel
/-- An empty queue, and a front command (statement StepRunsFrontCommand). -/
theorem witness_stepRunsFrontCommand : State.reset.pending = [] ∧ ({ pending := [.frameBoundary, .jobZero] } : State).pending = .frameBoundary :: [.jobZero] := ⟨rfl, rfl⟩
/-! ### Registers of the spec's worked examples -/

/-- 00_scope.md: an ITM-A896-768 with eight fused blocks. -/
theorem test_gradeRegister : ({ fuses := { grade := 2, fusedAt := 0x0600084000C30000#64 } } : State).readReg 0 0x08 = 0x0000AF04004038C2#64 := by decide +kernel
/-- 07: B37 of partition 3 with C03 retired. -/
theorem test_blockRegister : ({ retired := [(37, 8#18)], blocks := [(37, { owner := some 3, map := [0, 1, 2, 4, 5, 6, 7, 8, 9, 10, 11, 12, 13, 14, 15, 16], usedPos := 0xFFFF })] } : State).readReg 0 0x1128 =
    0x000002600021FFF7#64 := by decide +kernel
/-- 16: partition 5 with two tenants, zeroised under new keys. -/
theorem test_keysRegister : ({ keys := { attestEp := 3 }, cold := { keys := [(5, 2)] }, parts := [(5, { stackKey := 1, coldKey := 2, sx := { created := true, keyGen := 1, cleanKeys := true, tenants := [(0, 7), (1, 8)] } })] } : State).readReg 0
    (0x800000 + 0x80000 * 5 + 8 * 8) = 0x000300010004F000#64 := by decide +kernel
/-- 19: three retired cells in B21, stack 4's spare die, U2 without its spare lane, 48,000 failed segments, 93 °C, one island warned; round 5. -/
def sHealth : State :=
  { cycle := 488281, round := 4, retired := [(21, 7#18)], stks := [(4, { spareFor := some 3, state := .degraded })]
    ports := [(8, { st := .up, spareOk := false })], pwr := { sensors := [(0, 93)] }, health := { ces := [(3, 0, 48000)], wms := [(70, 4)] } }
theorem test_healthRegister : (after .managerRound sHealth).readReg 0 0x18 / 65536 = 0x974505528064#64 := by decide +kernel

end Sys2Proof.Tests
end

