-- ==== Sys2Proof/Proofs/ResetRegisters.lean ====
section
/-! What the register windows read at reset (O59): one lemma per family of registers, each a finite table evaluated in the
kernel. -/

namespace Sys2Proof.Machine
open Sys2Proof.Stmt

/-- hub.boot.status but for RESETS. Its bit CAL_VALID waits for a boot phase from 2 on, so at reset the calibration set
is not looked at. -/
theorem reset_boot_readsBits : ReadsBits State.reset 0x20 0xFFFFFFFF0000FFFF 0 := by
  have hcal : (State.reset.calOk &&
      decide (2 ≤ phaseNo State.reset.boot.phase ∧ phaseNo State.reset.boot.phase ≤ 6)) = false :=
    Bool.and_eq_false_imp.2 fun _ => rfl
  have hreg : State.reset.readReg 0 0x20 = BitVec.ofNat 64 State.reset.bootReg := rfl
  rw [ReadsBits, hreg]
  simp only [State.bootReg, hcal]
  rfl

/-- The registers that stand once: all but the boot status are closed terms that evaluate. -/
theorem resetRegs_readsBits : ∀ e ∈ resetRegs, ReadsBits State.reset e.1 e.2.1 e.2.2 := by
  have others : ∀ e ∈ resetRegs.eraseIdx 1, ReadsBits State.reset e.1 e.2.1 e.2.2 := by
    unfold ReadsBits
    decide +kernel
  have bootOrOther : ∀ e ∈ resetRegs, e = resetRegs[1] ∨ e ∈ resetRegs.eraseIdx 1 := by decide
  intro e he
  rcases bootOrOther e he with rfl | he
  · exact reset_boot_readsBits
  · exact others e he

/-- The windows of one register a unit: blocks, stacks, the fabric jobs of the partitions, islands. -/
theorem reset_unit_readsBits : (∀ b, b < 64 → ReadsBits State.reset (0x1000 + 8 * b) 0xFFFFF3F00003FFFF 0) ∧
    (∀ k, k < 12 → ReadsBits State.reset (0x2000 + 8 * k) 0xFFE030000000FFFF 0) ∧
    (∀ p, p < 16 → ReadsBits State.reset (0x501100 + 8 * p) 0xFFFFFFFFFFFFFFFF 0) ∧
    ∀ i, i < 95 → ReadsBits State.reset (0x301000 + 8 * i) 0xFFFFBF00FFFFFFFF 0 := by
  unfold ReadsBits
  decide +kernel

/-- The windows of several registers a unit: the partitions (Table 11.7), whose register 8 holds ATTEST_EPOCH above its zero
bits; the fabric ports, whose first register names the port; the management rings, with their vectors, entry sizes and
PHASE 1 (Table 18.11). -/
theorem reset_window_readsBits : (∀ p, p < 16 → ∀ i, i < 11 → ReadsBits State.reset (0x800000 + 0x80000 * p + 8 * i)
      (if i = 8 then 0x0000FFFFFFFFFFFF else 0xFFFFFFFFFFFFFFFF) 0) ∧
    (∀ i, i < 12 → let a := 0x500000 + 0x100 * i
      ReadsBits State.reset a 0xFFFFFFFFFFFFFFFF (BitVec.ofNat 64 (i * 2 ^ 56 + 0xFF * 2 ^ 48)) ∧
      ReadsBits State.reset (a + 8) 0xF00FFFFFFFFFFFFF 0 ∧
      ReadsBits State.reset (a + 16) 0xFFFFFFFFFFFFFFFF 0x0000FF0000000000 ∧
      ReadsBits State.reset (a + 24) 0xFFFFFFFFFFFFFFFF 0) ∧
    ∀ q, q < 4 → let a := 0x100000 + 0x40 * q
      ReadsBits State.reset a 0xFFFFFFFFFFFFFFFF 0 ∧ ReadsBits State.reset (a + 16) 0xFFFFFFFFFFFFFFFF 0 ∧
      ReadsBits State.reset (a + 8) 0xFFFFFFFFFFFFFFFF
        (BitVec.ofNat 64 (q * 2 ^ 48 + (([8, 7, 6, 20] : List Nat).getD q 0) * 2 ^ 40 + 4)) ∧
      ReadsBits State.reset (a + 24) 0xFFFFFFFFFFFFFFFF 0x8000000000000000 := by
  unfold ReadsBits
  decide +kernel

/-- The power sequencer's window (Table 19.12): every hub domain on. -/
theorem reset_seqReg : State.reset.seqReg 0 = 0x53 ∧ State.reset.seqReg 1 = 0x0F ∧ State.reset.seqReg 2 = 0 ∧
    State.reset.seqReg 3 = 0xF8 ∧ State.reset.seqReg 4 = 0 ∧ State.reset.seqReg 6 = 0 :=
  ⟨rfl, rfl, rfl, rfl, rfl, rfl⟩

/-- Settles O59: each family of registers is read off its reset table. -/
theorem registersReadTheirResetValues : Obligations.RegistersReadTheirResetValues := by
  obtain ⟨hblock, hstack, hjob, hisland⟩ := reset_unit_readsBits
  obtain ⟨hpart, hport, hring⟩ := reset_window_readsBits
  exact ⟨rfl, by decide, resetRegs_readsBits, hpart, hblock, hstack, hport, hjob, hisland, hring, reset_seqReg⟩

end Sys2Proof.Machine
end

