-- ==== Sys2Proof/Proofs/HostPath.lean ====
section
/-! The host path (O57): rings and doorbells, the fetch of commands, register writes and counter reads (R453 to R460,
R496). -/

namespace Sys2Proof.Machine
open Sys2Proof.Stmt

/-! ### Rings -/

theorem Ring.enableNow_of_enabled {r : Ring} (h : r.enable = true) : r.enableNow = r := if_pos h

theorem Ring.enableNow_of_disabled {r : Ring} (h : r.enable = false) :
    r.enableNow = { r with enable := true, db := 0, ptr := 0, phase := true } := if_neg (by simp [h])

theorem Ring.enableNow_enable (r : Ring) : r.enableNow.enable = true := by
  cases h : r.enable
  · rw [Ring.enableNow_of_disabled h]
  · rw [Ring.enableNow_of_enabled h, h]

theorem exec_doorbellWrite {fn k q : Nat} (v : Word) {s : State} (h : s.ringExists fn k q = true) :
    exec (.doorbellWrite fn k q v) s = .next (s.setRing fn k q (if 2 ^ (s.ring fn k q).size ≤ v.toNat % 65536
      then { s.ring fn k q with err := true } else { s.ring fn k q with db := v.toNat % 65536 })) := by
  change execDoorbellWrite fn k q v s = _
  simp [execDoorbellWrite, ok, h]

theorem exec_ringEnable {fn k q : Nat} {s : State} (h : s.ringExists fn k q = true) :
    exec (.ringEnable fn k q) s = .next (s.setRing fn k q (s.ring fn k q).enableNow) := by
  change execRingEnable fn k q s = _
  simp [execRingEnable, ok, h]

theorem exec_ringDisable {fn k q : Nat} {s : State} (h : s.ringExists fn k q = true) :
    exec (.ringDisable fn k q) s = .next (s.ringOff fn k q) := by
  change execRingDisable fn k q s = _
  simp [execRingDisable, ok, h]

/-- A ring that is switched on counts from its start; one that is on stays as it is. -/
theorem ringEnable_switchesOn {fn k q : Nat} {s : State} (h : s.ringExists fn k q = true) :
    ∃ t, exec (.ringEnable fn k q) s = .next t ∧ (t.ring fn k q).enable = true ∧ t = { s with rings := t.rings } ∧
      ((s.ring fn k q).enable = false → (t.ring fn k q).db = 0 ∧ (t.ring fn k q).ptr = 0 ∧ (t.ring fn k q).phase = true) ∧
      ((s.ring fn k q).enable = true → t.ring fn k q = s.ring fn k q) := by
  refine ⟨_, exec_ringEnable h, ?_, rfl, fun hoff => ?_, fun hon => ?_⟩
  · rw [State.setRing_ring_same, Ring.enableNow_enable]
  · simp [Ring.enableNow_of_disabled hoff]
  · rw [State.setRing_ring_same, Ring.enableNow_of_enabled hon]

theorem State.ringOff_of_disabled {s : State} {fn k q : Nat} (h : (s.ring fn k q).enable = false) :
    s.ringOff fn k q = s := by
  simp [State.ringOff, h]

/-- A ring that was on goes off; off with a completion ring go the completions of its set's commands in progress. -/
theorem State.ringOff_of_enabled {s : State} {fn k q : Nat} (h : (s.ring fn k q).enable = true) :
    s.ringOff fn k q = { s.setRing fn k q { s.ring fn k q with enable := false } with
      mute := if q = 1 then s.mute ++ s.inProg.filter (fun e => decide (e.1.fn = fn ∧ e.1.set = k) && !s.mute.contains e)
        else s.mute } := by
  simp only [State.ringOff, h, Bool.not_true, Bool.false_eq_true, if_false]
  split <;> rfl

/-- All that switching a ring off changes. -/
theorem State.ringOff_frame (s : State) (fn k q : Nat) :
    s.ringOff fn k q = { s with rings := (s.ringOff fn k q).rings, mute := (s.ringOff fn k q).mute } := by
  cases h : (s.ring fn k q).enable
  · rw [State.ringOff_of_disabled h]
  · rw [State.ringOff_of_enabled h]; rfl

theorem State.ringOff_enable (s : State) (fn k q : Nat) : ((s.ringOff fn k q).ring fn k q).enable = false := by
  cases h : (s.ring fn k q).enable
  · rw [State.ringOff_of_disabled h, h]
  · rw [State.ringOff_of_enabled h]
    exact congrArg Ring.enable (State.setRing_ring_same s fn k q { s.ring fn k q with enable := false })

theorem State.ringOff_mute_of_not_completion (s : State) {fn k q : Nat} (hq : q ≠ 1) :
    (s.ringOff fn k q).mute = s.mute := by
  cases h : (s.ring fn k q).enable
  · rw [State.ringOff_of_disabled h]
  · rw [State.ringOff_of_enabled h]
    exact if_neg hq

theorem State.mem_ringOff_mute {s : State} {fn k : Nat} (hon : (s.ring fn k 1).enable = true) {e : Hdr × Nat}
    (he : e ∈ s.inProg) (hfn : e.1.fn = fn) (hset : e.1.set = k) : e ∈ (s.ringOff fn k 1).mute := by
  rw [State.ringOff_of_enabled hon]
  by_cases hm : e ∈ s.mute
  · simp [hm]
  · simp [he, hfn, hset, hm]

theorem ringDisable_switchesOff {fn k q : Nat} {s : State} (h : s.ringExists fn k q = true) :
    ∃ t, exec (.ringDisable fn k q) s = .next t ∧ (t.ring fn k q).enable = false ∧ t.parts = s.parts ∧
      t.inProg = s.inProg ∧ ((s.ring fn k q).enable = true → q = 1 →
        ∀ e ∈ s.inProg, e.1.fn = fn → e.1.set = k → e ∈ t.mute) ∧ (q ≠ 1 → t.mute = s.mute) := by
  refine ⟨_, exec_ringDisable h, s.ringOff_enable fn k q, ?_, ?_, ?_, s.ringOff_mute_of_not_completion⟩
  · rw [s.ringOff_frame fn k q]
  · rw [s.ringOff_frame fn k q]
  · rintro hon rfl e he hfn hset
    exact State.mem_ringOff_mute hon he hfn hset

/-! ### Register writes and counter reads -/

/-- The model's bit of a register value is the bit vector's. -/
theorem bit_toNat (v : Word) (i : Nat) : bit v.toNat i = v.getLsbD i := by
  rw [bit, BitVec.getLsbD, Nat.testBit_eq_decide_div_mod_eq]
  exact Bool.eq_iff_iff.2 (beq_iff_eq.trans decide_eq_true_iff.symm)

theorem w1c_eq (b : Bool) (v : Word) (i : Nat) : w1c b v i = (b && !v.getLsbD i) := by
  rw [w1c, bit_toNat]

/-- hub.pwr.status: OVER is W1C, RESTART takes the estimate as the peak. -/
theorem registerWrite_powerStatus (v : Word) (s : State) :
    ∃ t, exec (.registerWrite 0 0x00200008 v) s = .next t ∧ t = { s with pwr := t.pwr } ∧
      t.pwr.overW = (s.pwr.overW && !v.getLsbD 38) ∧ (v.getLsbD 0 = true → t.pwr.peakW = s.pwr.estW) ∧
      (v.getLsbD 0 = false → t.pwr.peakW = s.pwr.peakW) :=
  ⟨{ s with pwr := { s.pwr with overW := w1c s.pwr.overW v 38, peakW := if bit v.toNat 0 then s.pwr.estW else s.pwr.peakW } },
    rfl, rfl, w1c_eq _ v 38, fun h => if_pos ((bit_toNat v 0).trans h), fun h => if_neg (by rw [bit_toNat, h]; decide)⟩

/-- The sequencer's status: five W1C fault bits. -/
theorem registerWrite_sequencerStatus (v : Word) (s : State) :
    ∃ t, exec (.registerWrite 18 4 v) s = .next t ∧ t = { s with seqr := t.seqr } ∧
      t.seqr = { s.seqr with clip := t.seqr.clip, lockout := t.seqr.lockout, trip := t.seqr.trip, coolant := t.seqr.coolant
                             refused := t.seqr.refused } ∧
      t.seqr.clip = (s.seqr.clip && !v.getLsbD 0) ∧ t.seqr.lockout = (s.seqr.lockout && !v.getLsbD 1) ∧
      t.seqr.trip = (s.seqr.trip && !v.getLsbD 2) ∧ t.seqr.coolant = (s.seqr.coolant && !v.getLsbD 3) ∧
      t.seqr.refused = (s.seqr.refused && !v.getLsbD 4) :=
  ⟨{ s with seqr := s.seqr.clear v }, rfl, rfl, rfl, w1c_eq _ v 0, w1c_eq _ v 1, w1c_eq _ v 2, w1c_eq _ v 3, w1c_eq _ v 4⟩

theorem exec_restarts (i : Nat) (s : State) :
    exec (.portWmRestart i) s = .next (s.onPort i (fun y => { y with holdMax := 0, holdMin := 0xFF, guardMax := 0 })) ∧
    exec (.islandLagRestart i) s = .next (s.onIsland i (fun y => { y with lagMax := y.lag })) ∧
    exec .pwrPeakRestart s = .next { s with pwr := { s.pwr with peakW := s.pwr.estW } } := ⟨rfl, rfl, rfl⟩

/-- The location that a write to hub.cnt.sel names. -/
theorem fld_location (v : Word) : fld v 16 16 = v.toNat / 65536 % 65536 := rfl

/-- The index that a write to hub.cnt.sel names. -/
theorem fld_index (v : Word) : fld v 0 8 = v.toNat % 256 := by
  simp [fld, bits]

/-- hub.cnt.sel after a write, whether or not a sample is taken. -/
def CntReg.named (c : CntReg) (v : Word) (now : Nat) : CntReg :=
  { c with selErr := w1c c.selErr v 63, loc := fld v 16 16, idx := fld v 0 8, selAt := some now }

theorem exec_counterSelect (v : Word) (s : State) :
    exec (.counterSelect v) s = .next (if s.cnt.selAt.any (fun t => decide (s.wallNs < t + 40)) ∨
        !s.hasCounter (fld v 16 16) (fld v 0 8)
      then { s with cnt := { s.cnt.named v s.wallNs with selErr := true } }
      else { s with cnt := { s.cnt.named v s.wallNs with valid := false, want := some (fld v 16 16, fld v 0 8) } }) := by
  change execCounterSelect v s = _
  simp only [execCounterSelect]
  split <;> rfl

/-- A write to hub.cnt.sel names a counter; one sooner than 40 ns after the last sets SEL_ERR and takes no sample (R496). -/
theorem counterSelect_names (v : Word) (s : State) : ∃ t, exec (.counterSelect v) s = .next t ∧ t = { s with cnt := t.cnt } ∧
    t.cnt.loc = v.toNat / 65536 % 65536 ∧ t.cnt.idx = v.toNat % 256 ∧ t.cnt.selAt = some s.wallNs ∧
    (∀ a, s.cnt.selAt = some a → s.wallNs < a + 40 → t.cnt.selErr = true ∧ t.cnt.valid = s.cnt.valid ∧ t.cnt.want = s.cnt.want) ∧
    ((∀ a, s.cnt.selAt = some a → a + 40 ≤ s.wallNs) → s.hasCounter (v.toNat / 65536 % 65536) (v.toNat % 256) = true →
      t.cnt.valid = false ∧ t.cnt.want = some (v.toNat / 65536 % 65536, v.toNat % 256) ∧ t.cnt.selErr = (s.cnt.selErr && !v.getLsbD 63)) := by
  rw [exec_counterSelect, fld_location, fld_index]
  refine ⟨_, rfl, ?_⟩
  split
  case isTrue hbad =>
    refine ⟨rfl, rfl, fld_index v, rfl, fun _ _ _ => ⟨rfl, rfl, rfl⟩, fun hlate hhas => ?_⟩
    rcases hbad with hsoon | hnone
    · obtain ⟨a, ha, hlt⟩ := (Option.any_eq_true _ _).1 hsoon
      exact absurd (of_decide_eq_true hlt) (Nat.not_lt.2 (hlate a ha))
    · simp [hhas] at hnone
  case isFalse hgood =>
    refine ⟨rfl, rfl, fld_index v, rfl, fun a ha hlt => ?_, fun _ _ => ⟨rfl, rfl, w1c_eq _ v 63⟩⟩
    exact absurd (.inl (by simp [ha, hlt])) hgood

theorem exec_counterSample_idle {s : State} (h : s.cnt.want = none) : exec .counterSample s = .next s := by
  change execCounterSample s = _
  simp only [execCounterSample, h, ok]

/-- The sample of the last accepted write arrives. -/
theorem counterSample_arrives {loc i : Nat} {s : State} (h : s.cnt.want = some (loc, i)) :
    ∃ t, exec .counterSample s = .next t ∧ t = { s with cnt := t.cnt } ∧ t.cnt.valid = true ∧ t.cnt.want = none ∧
      t.cnt.value = (s.counter loc i).value ∧ t.cnt.sticky = (s.counter loc i).sticky := by
  change ∃ t, execCounterSample s = .next t ∧ _
  simp only [execCounterSample, h, ok]
  exact ⟨_, rfl, rfl, rfl, rfl, rfl, rfl⟩

/-- New IDE keys of a stream are counted and change nothing else. -/
theorem ideKeyChange_counts (link stream : Nat) (s : State) :
    ∃ t, exec (.ideKeyChange link stream) s = .next t ∧ t = { s with io := t.io } ∧
      look 0 t.io.ideKeys (8 * link + stream) = look 0 s.io.ideKeys (8 * link + stream) + 1 :=
  ⟨_, rfl, rfl, look_put_same 0 s.io.ideKeys (8 * link + stream) (look 0 s.io.ideKeys (8 * link + stream) + 1)⟩

/-! ### The fetch of commands -/

theorem State.setRing_ring_ne (s : State) {fn k q fn' k' q' : Nat} (r : Ring) (h : ringKey fn' k' q' ≠ ringKey fn k q) :
    (s.setRing fn k q r).ring fn' k' q' = s.ring fn' k' q' := by
  simp only [State.ring, State.setRing]
  rw [look_put_other, if_neg h]

theorem State.ring_congr {s t : State} (h : t.rings = s.rings) (fn k q : Nat) : t.ring fn k q = s.ring fn k q := by
  rw [State.ring, State.ring, h]

theorem State.signal_ring (s : State) (f k v fn' k' q' : Nat) : (s.signal f k v).ring fn' k' q' = s.ring fn' k' q' :=
  State.ring_congr (s.signal_rings f k v) fn' k' q'

theorem State.send_ring (s : State) (m : Sent) (fn k q : Nat) : (s.send m).ring fn k q = s.ring fn k q := rfl

/-- A completion touches the two rings of its command's set only. -/
theorem State.replyTo_ring_ne (s : State) (key : Option Hash) {h : Hdr} (op st : Nat) (rs : List (Nat × Nat)) {fn k q : Nat}
    (h0 : ringKey fn k q ≠ ringKey h.fn h.set 0) (h1 : ringKey fn k q ≠ ringKey h.fn h.set 1) :
    (s.replyTo key h op st rs).ring fn k q = s.ring fn k q := by
  unfold State.replyTo
  dsimp only
  split
  · rfl
  split
  · rfl
  split
  · rw [State.setRing_ring_ne _ _ h0]; rfl
  · rw [State.signal_ring, State.send_ring, State.setRing_ring_ne _ _ h1, State.setRing_ring_ne _ _ h0]; rfl

/-- A completion leaves the submission ring's pointer where the fetch put it. -/
theorem State.replyTo_ring_ptr (s : State) (key : Option Hash) (h : Hdr) (op st : Nat) (rs : List (Nat × Nat)) :
    ((s.replyTo key h op st rs).ring h.fn h.set 0).ptr = (s.ring h.fn h.set 0).ptr := by
  have hne : ringKey h.fn h.set 0 ≠ ringKey h.fn h.set 1 := by unfold ringKey; omega
  unfold State.replyTo
  dsimp only
  split
  · rfl
  split
  · rfl
  split
  · rw [State.setRing_ring_same]; rfl
  · rw [State.signal_ring, State.send_ring, State.setRing_ring_ne _ _ hne, State.setRing_ring_same]; rfl

theorem State.post_ring_ne (s : State) {h : Hdr} (op st : Nat) (rs : List (Nat × Nat)) {fn k q : Nat}
    (h0 : ringKey fn k q ≠ ringKey h.fn h.set 0) (h1 : ringKey fn k q ≠ ringKey h.fn h.set 1) :
    (s.post h op st rs).ring fn k q = s.ring fn k q :=
  (State.replyTo_ring_ne _ _ op st rs h0 h1).trans (State.ring_congr (by simp) fn k q)

theorem State.post_ring_ptr (s : State) (h : Hdr) (op st : Nat) (rs : List (Nat × Nat)) :
    ((s.post h op st rs).ring h.fn h.set 0).ptr = (s.ring h.fn h.set 0).ptr :=
  (State.replyTo_ring_ptr _ _ h op st rs).trans (congrArg Ring.ptr (State.ring_congr (by simp) h.fn h.set 0))

/-- All that the end of a session changes. -/
theorem State.endSession_frame (s : State) (sid : Nat) : s.endSession sid =
    { s with sessions := (s.endSession sid).sessions, counters := (s.endSession sid).counters
             health := (s.endSession sid).health, audit := (s.endSession sid).audit, auditIdx := (s.endSession sid).auditIdx
             auditHead := (s.endSession sid).auditHead, checks := (s.endSession sid).checks } := by
  unfold State.endSession
  split
  · rfl
  · rw [State.auditAdd_frame]

/-- All that a failed authentication changes. -/
theorem State.badTag_frame (s : State) (sid : Nat) : s.badTag sid =
    { s with sessions := (s.badTag sid).sessions, counters := (s.badTag sid).counters
             health := (s.badTag sid).health, audit := (s.badTag sid).audit, auditIdx := (s.badTag sid).auditIdx
             auditHead := (s.badTag sid).auditHead, checks := (s.badTag sid).checks } := by
  unfold State.badTag
  dsimp only
  split
  · rfl
  split
  · rfl
  · rw [State.endSession_frame]; rfl

/-- An unassigned opcode is answered, and apart from sessions and counts nothing else comes of it. -/
theorem State.unassigned_posts (s : State) (h : Hdr) (op : Nat) : ∃ (u : State) (st : Nat),
    s.unassigned h op = u.post h op st [] ∧ u.parts = s.parts ∧ u.rota = s.rota ∧ u.rings = s.rings := by
  have hbad : (s.badTag h.sid).parts = s.parts ∧ (s.badTag h.sid).rota = s.rota ∧ (s.badTag h.sid).rings = s.rings := by
    rw [s.badTag_frame h.sid]
    exact ⟨rfl, rfl, rfl⟩
  unfold State.unassigned
  split
  · exact ⟨_, _, rfl, hbad⟩
  split
  · exact ⟨_, _, rfl, hbad⟩
  · exact ⟨_, _, rfl, rfl, rfl, rfl⟩

/-- Under a session that is proved, with its tag and a new counter, an unassigned opcode answers BAD_PARAM. -/
theorem State.unassigned_answersBadParam {s : State} {h : Hdr} {op : Nat} {x : Session} (hm : (h, op) ∉ s.mute)
    (hr : h.fn = 17 ∨ (s.ring h.fn h.set 1).enable = true) (hx : s.session h.sid = some x) (hp : x.proved = true)
    (ht : h.tag = cmdTag x.key h op) (hc : x.counter < h.counter) : Answered (s.unassigned h op) h op 0x03 [] := by
  have hok : (!x.proved || decide (h.tag ≠ cmdTag x.key h op) || decide (h.counter ≤ x.counter)) = false := by
    simp [hp, ← ht, hc]
  simp only [State.unassigned, hx, hok, Bool.false_eq_true, if_false]
  exact State.post_answered _ h op 0x03 [] hm hr

theorem State.canFetch_of {s : State} {fn k : Nat} (hex : s.ringExists fn k 0 = true) (hsub : (s.ring fn k 0).enable = true)
    (hcpl : (s.ring fn k 1).enable = true) (hheld : Ring.held (s.ring fn k 0).db (s.ring fn k 0).ptr (s.ring fn k 0).size ≠ 0)
    (hflight : (s.ring fn k 0).flight < 64) (hroom : (s.ring fn k 0).flight +
      Ring.held (s.ring fn k 1).ptr (s.ring fn k 1).db (s.ring fn k 1).size + 1 < 2 ^ (s.ring fn k 1).size) :
    s.canFetch fn k = true := by
  simp [State.canFetch, hex, hsub, hcpl, hheld, hflight, hroom]

/-- The submission ring after an entry has been fetched from it. -/
def Ring.fetched (r : Ring) : Ring := { r with ptr := (r.ptr + 1) % 2 ^ r.size, flight := r.flight + 1 }

/-- The state in which the entry of a submission ring has been fetched. -/
def State.fetch (s : State) (h : Hdr) (op : Nat) : State :=
  { s.setRing h.fn h.set 0 (s.ring h.fn h.set 0).fetched with
    inProg := s.inProg ++ [(h, op)], rota := (h.fn + 1) % 18
    rotaSet := if h.set = 0 then s.rotaSet ||| BitVec.ofNat 17 (2 ^ h.fn) else s.rotaSet &&& ~~~BitVec.ofNat 17 (2 ^ h.fn) }

theorem State.fetch_ring (s : State) (h : Hdr) (op : Nat) :
    (s.fetch h op).ring h.fn h.set 0 = (s.ring h.fn h.set 0).fetched :=
  s.setRing_ring_same h.fn h.set 0 _

theorem exec_submissionFetch {h : Hdr} {op : Nat} {s : State} (hs : s.serves h = true) (hfn : h.fn ≤ 16)
    (hcan : s.canFetch h.fn h.set = true) (hturn : s.turnOf h.fn = true) (hset : s.setTurn h.fn h.set = true) :
    exec (.submissionFetch h op) s =
      .next (if assigned op then s.fetch h op else (s.fetch h op).unassigned h op) := by
  have h17 : h.fn ≠ 17 := by omega
  change execSubmissionFetch h op s = _
  simp only [execSubmissionFetch, hs, h17, hcan, hturn, hset, decide_false, Bool.not_true, Bool.or_false,
    Bool.false_eq_true, if_false, ok]
  split <;> rfl

/-- In its turn one entry is fetched: the pointer goes on and the command is in progress. -/
theorem submissionFetch_takesEntry {h : Hdr} (op : Nat) {s : State} (hs : s.serves h = true) (hfn : h.fn ≤ 16)
    (hcan : s.canFetch h.fn h.set = true) (hturn : s.turnOf h.fn = true) (hset : s.setTurn h.fn h.set = true) :
    ∃ t, exec (.submissionFetch h op) s = .next t ∧ t.parts = s.parts ∧ t.rota = (h.fn + 1) % 18 ∧
      (t.ring h.fn h.set 0).ptr = ((s.ring h.fn h.set 0).ptr + 1) % 2 ^ (s.ring h.fn h.set 0).size ∧
      (assigned op = true → t.inProg = s.inProg ++ [(h, op)] ∧
        (t.ring h.fn h.set 0).flight = (s.ring h.fn h.set 0).flight + 1) := by
  have hfetched : ((s.fetch h op).ring h.fn h.set 0).ptr =
      ((s.ring h.fn h.set 0).ptr + 1) % 2 ^ (s.ring h.fn h.set 0).size := congrArg Ring.ptr (s.fetch_ring h op)
  refine ⟨_, exec_submissionFetch hs hfn hcan hturn hset, ?_⟩
  cases ha : assigned op
  · obtain ⟨u, st, hpost, hparts, hrota, hrings⟩ := (s.fetch h op).unassigned_posts h op
    rw [if_neg (by decide), hpost]
    refine ⟨(u.post_parts h op st []).trans hparts, (u.post_rota h op st []).trans hrota, ?_, fun hf => absurd hf Bool.false_ne_true⟩
    rw [u.post_ring_ptr h op st [], State.ring_congr hrings, hfetched]
  · rw [if_pos rfl]
    exact ⟨rfl, rfl, hfetched, fun _ => ⟨rfl, congrArg Ring.flight (s.fetch_ring h op)⟩⟩

/-- A datagram off the management connector or out of its turn waits outside the module. -/
theorem mgmtDatagram_waits {h : Hdr} (op : Nat) {s : State} (hout : h.fn ≠ 17 ∨ s.turnOf 17 = false) :
    exec (.mgmtDatagram h op) s = .next s := by
  change execMgmtDatagram h op s = _
  rcases hout with hfn | hturn
  · simp [execMgmtDatagram, hfn, ok]
  · simp [execMgmtDatagram, hturn, ok]

/-- The state in which the management connector's datagram is in progress. -/
def State.takeDatagram (s : State) (h : Hdr) (op : Nat) : State := { s with inProg := s.inProg ++ [(h, op)], rota := 0 }

theorem exec_mgmtDatagram {h : Hdr} (op : Nat) {s : State} (hs : s.serves h = true) (hfn : h.fn = 17)
    (hturn : s.turnOf 17 = true) : exec (.mgmtDatagram h op) s =
      .next (if assigned op then s.takeDatagram h op else (s.takeDatagram h op).unassigned h op) := by
  change execMgmtDatagram h op s = _
  simp only [execMgmtDatagram, hs, hfn, hturn, ne_eq, not_true_eq_false, decide_false, Bool.not_true, Bool.or_false,
    Bool.false_eq_true, if_false, ok]
  split <;> rfl

/-- At its turn the management connector's datagram comes into progress; an unassigned opcode is answered at once. -/
theorem mgmtDatagram_takesEntry {h : Hdr} (op : Nat) {s : State} (hs : s.serves h = true) (hfn : h.fn = 17)
    (hturn : s.turnOf 17 = true) : ∃ t, exec (.mgmtDatagram h op) s = .next t ∧ t.parts = s.parts ∧
      (assigned op = true → t = { s with inProg := s.inProg ++ [(h, op)], rota := 0 }) ∧
      (∀ x, assigned op = false → (h, op) ∉ s.mute → s.session h.sid = some x → x.proved = true →
        h.tag = cmdTag x.key h op → x.counter < h.counter → Answered t h op 0x03 []) := by
  refine ⟨_, exec_mgmtDatagram op hs hfn hturn, ?_⟩
  cases ha : assigned op
  · rw [if_neg (by decide)]
    refine ⟨?_, fun hf => absurd hf Bool.false_ne_true, fun x _ hm hx hp ht hc => ?_⟩
    · obtain ⟨u, st, hpost, hparts, -, -⟩ := (s.takeDatagram h op).unassigned_posts h op
      rw [hpost]
      exact (u.post_parts h op st []).trans hparts
    · exact State.unassigned_answersBadParam hm (.inl hfn) hx hp ht hc
  · rw [if_pos rfl]
    exact ⟨rfl, fun _ => rfl, fun _ hf => absurd hf.symm Bool.false_ne_true⟩

/-! ### A reset of the host link -/

theorem look_filter_kept {α : Type} (d : α) (m : SMap α) (f : Nat × α → Bool) {k : Nat} (hk : ∀ v, f (k, v) = true) :
    look d (m.filter f) k = look d m k := by
  induction m with
  | nil => rfl
  | cons e m ih =>
    obtain ⟨j, v⟩ := e
    by_cases hj : k = j
    · subst hj; simp [hk, look]
    · by_cases hf : f (j, v) = true
      · simp [hf, look, hj, ih]
      · simp [hf, look, hj, ih]

theorem look_filter_removed {α : Type} (d : α) (m : SMap α) (f : Nat × α → Bool) {k : Nat} (hk : ∀ v, f (k, v) = false) :
    look d (m.filter f) k = d := by
  induction m with
  | nil => rfl
  | cons e m ih =>
    obtain ⟨j, v⟩ := e
    by_cases hf : f (j, v) = true
    · have hj : k ≠ j := fun h => by simp [← h, hk] at hf
      simp [hf, look, hj, ih]
    · simp [hf, ih]

/-- What the end of a link's transfers keeps from `s` to `t`: sessions, cells, the states of the partitions, and the rings
of the functions that are not listed. -/
def LinkKept (fns : List Nat) (s t : State) : Prop :=
  t.sessions = s.sessions ∧ t.cells = s.cells ∧ (∀ p, (t.part p).st = (s.part p).st) ∧
  ∀ fn k q, q < 4 → k < 2 → fn ∉ fns → t.ring fn k q = s.ring fn k q

theorem LinkKept.refl (fns : List Nat) (s : State) : LinkKept fns s s := ⟨rfl, rfl, fun _ => rfl, fun _ _ _ _ _ _ => rfl⟩

theorem LinkKept.trans {fns : List Nat} {s t u : State} (hst : LinkKept fns s t) (htu : LinkKept fns t u) : LinkKept fns s u := by
  obtain ⟨hs, hc, hp, hr⟩ := hst
  obtain ⟨hs', hc', hp', hr'⟩ := htu
  exact ⟨hs'.trans hs, hc'.trans hc, fun p => (hp' p).trans (hp p),
    fun fn k q hq hk hfn => (hr' fn k q hq hk hfn).trans (hr fn k q hq hk hfn)⟩

/-- A completion on a listed function. -/
theorem LinkKept.post {fns : List Nat} (s : State) {h : Hdr} (op st : Nat) (rs : List (Nat × Nat)) (hfn : h.fn ∈ fns)
    (hset : h.set < 2) : LinkKept fns s (s.post h op st rs) := by
  refine ⟨s.post_sessions h op st rs, s.post_cells h op st rs, fun p => ?_, fun fn k q hq hk hout => ?_⟩
  · rw [State.part, s.post_parts h op st rs]; rfl
  · have hne : fn ≠ h.fn := fun he => hout (he ▸ hfn)
    refine State.post_ring_ne s op st rs ?_ ?_ <;> (unfold ringKey; omega)

/-- A partition's record changes otherwise than in its state. -/
theorem LinkKept.onPart (fns : List Nat) (s : State) (p : Nat) {f : Part → Part} (hf : (f (s.part p)).st = (s.part p).st) :
    LinkKept fns s (s.onPart p f) := by
  refine ⟨rfl, rfl, fun j => ?_, fun _ _ _ _ _ _ => rfl⟩
  by_cases hj : j = p
  · subst hj; rw [State.onPart_part_same, hf]
  · rw [State.onPart_part_ne s f hj]

/-- A command whose DMA the link cuts is answered FAULT, or nothing of it is to be ended. -/
theorem State.cutDma_linkKept {fns : List Nat} (s : State) {h : Hdr} (op : Nat) (hfn : h.fn ∈ fns) (hset : h.set < 2) :
    LinkKept fns s (s.cutDma h op) := by
  have hpart (f : Part → Part) (hf : (f (s.part h.part)).st = (s.part h.part).st) (o : Nat) :
      LinkKept fns s ((s.onPart h.part f).post h o 0x09 []) :=
    (LinkKept.onPart fns s h.part hf).trans (.post _ o 0x09 [] hfn hset)
  have hfirmware (sp mg : FwT) (o : Nat) : LinkKept fns s (State.post { s with spFw := sp, mgFw := mg } h o 0x09 []) :=
    LinkKept.trans (t := { s with spFw := sp, mgFw := mg }) ⟨rfl, rfl, fun _ => rfl, fun _ _ _ _ _ _ => rfl⟩
      (.post _ o 0x09 [] hfn hset)
  unfold State.cutDma
  dsimp only
  split
  · split
    · exact hpart _ rfl _
    · exact .refl fns s
  · split
    · exact hpart _ rfl _
    · exact .refl fns s
  · split
    · exact hfirmware { s.spFw with install := none } s.mgFw _
    split
    · exact hfirmware s.spFw { s.mgFw with install := none } _
    · exact .refl fns s
  · split
    · split
      · exact .refl fns s
      · exact hpart _ rfl _
    · exact .refl fns s

theorem LinkKept.foldl_cutDma {fns : List Nat} (l : List (Hdr × Nat)) (hl : ∀ e ∈ l, e.1.fn ∈ fns ∧ e.1.set < 2) (s : State) :
    LinkKept fns s (l.foldl (fun s e => s.cutDma e.1 e.2) s) := by
  induction l generalizing s with
  | nil => exact .refl fns s
  | cons e l ih =>
    obtain ⟨hfn, hset⟩ := hl e (List.mem_cons_self ..)
    exact (s.cutDma_linkKept e.2 hfn hset).trans (ih (fun e he => hl e (List.mem_cons_of_mem _ he)) _)

/-- The commands in progress that came over the link on one of the functions. -/
def State.onLink (s : State) (link : Nat) (fns : List Nat) : List (Hdr × Nat) :=
  s.inProg.filter (fun e => decide (e.1.set = link) && fns.contains e.1.fn)

theorem State.of_mem_onLink {s : State} {link : Nat} {fns : List Nat} {e : Hdr × Nat} (he : e ∈ s.onLink link fns) :
    e.1.set = link ∧ e.1.fn ∈ fns := by
  obtain ⟨-, hset, hfn⟩ : e ∈ s.inProg ∧ e.1.set = link ∧ e.1.fn ∈ fns := by simpa [State.onLink] using he
  exact ⟨hset, hfn⟩

/-- The rings of the listed functions on the link are as at reset, every other ring stays; no session ends. -/
theorem hostLinkReset_clearsRings {link : Nat} (fns : List Nat) (s : State) (hlink : link < 2) :
    ∃ t, exec (.hostLinkReset link fns) s = .next t ∧
      t.sessions = s.sessions ∧ t.cells = s.cells ∧ (∀ p, (t.part p).st = (s.part p).st) ∧
      (∀ fn q, q < 4 → fn ∈ fns → t.ring fn link q = ringReset q) ∧
      ∀ fn k q, q < 4 → k < 2 → fn ∉ fns → t.ring fn k q = s.ring fn k q := by
  obtain ⟨hses, hcells, hst, hrings⟩ := LinkKept.foldl_cutDma (s.onLink link fns)
    (fun e he => by
      obtain ⟨hset, hfn⟩ := State.of_mem_onLink he
      exact ⟨hfn, hset ▸ hlink⟩)
    { s with mute := s.mute ++ (s.onLink link fns).filter (fun e => !s.mute.contains e) }
  refine ⟨_, rfl, ?_⟩
  refine ⟨hses, hcells, hst, fun fn q hq hfn => ?_, fun fn k q hq hk hfn => (?_ : _ = _).trans (hrings fn k q hq hk hfn)⟩
  · have hkey : ringKey fn link q / 8 = fn ∧ ringKey fn link q / 4 % 2 = link := by unfold ringKey; omega
    exact look_filter_removed _ _ _ fun _ => by simp [hkey.1, hkey.2, hfn]
  · have hkey : ringKey fn k q / 8 = fn := by unfold ringKey; omega
    exact look_filter_kept _ _ _ fun _ => by simp [hkey, hfn]

end Sys2Proof.Machine
end

