-- ==== Sys2Proof/Proofs/Layers.lean ====
section
/-! Fabric layers and copies by host command (O57): PORT_OPEN, PORT_FENCE, FABRIC_COPY, FABRIC_STATUS (R326, R333, Table
12.9). -/

namespace Sys2Proof.Machine
open Sys2Proof.Stmt

/-! ### An accepted command about a partition -/

/-- `u` is the state in which the own part of an accepted command runs. -/
def Entered (s u : State) (h : Hdr) (op : Nat) : Prop :=
  u = { s with inProg := u.inProg, taken := u.taken, rings := u.rings, sessions := u.sessions, counters := u.counters
               health := u.health } ∧ Listening u h op

theorem Entered.parts {s u : State} {h : Hdr} {op : Nat} (hu : Entered s u h op) : u.parts = s.parts := by
  rw [hu.1]

theorem Entered.part {s u : State} {h : Hdr} {op : Nat} (hu : Entered s u h op) (p : Nat) : u.part p = s.part p := by
  rw [State.part, hu.parts]; rfl

theorem Entered.port {s u : State} {h : Hdr} {op : Nat} (hu : Entered s u h op) (i : Nat) : u.port i = s.port i := by
  rw [hu.1]; rfl

theorem Entered.fab {s u : State} {h : Hdr} {op : Nat} (hu : Entered s u h op) : u.fab = s.fab := by
  rw [hu.1]

theorem Entered.freeTag {s u : State} {h : Hdr} {op : Nat} (hu : Entered s u h op) (ch : Nat) : u.freeTag ch = s.freeTag ch := by
  simp only [State.freeTag, State.outstanding, hu.fab]

theorem Entered.planKept {s u : State} {h : Hdr} {op : Nat} (hu : Entered s u h op) : PlanKept s u := by
  rw [hu.1]
  exact ⟨rfl, rfl, rfl, rfl, rfl, rfl⟩

theorem planKept_trans {s t u : State} (hst : PlanKept s t) (htu : PlanKept t u) : PlanKept s u := by
  obtain ⟨hparts, hcells, hblocks, hstks, hcold, hraised⟩ := hst
  obtain ⟨hparts', hcells', hblocks', hstks', hcold', hraised'⟩ := htu
  exact ⟨hparts'.trans hparts, hcells'.trans hcells, hblocks'.trans hblocks, hstks'.trans hstks, hcold'.trans hcold,
    hraised'.trans hraised⟩

theorem planKept_post {s u : State} (hk : PlanKept s u) (h : Hdr) (op st : Nat) (rs : List (Nat × Nat)) :
    PlanKept s (u.post h op st rs) := by
  obtain ⟨hparts, hcells, hblocks, hstks, hcold, hraised⟩ := hk
  exact ⟨by simpa using hparts, by simpa using hcells, by simpa using hblocks, by simpa using hstks, by simpa using hcold,
    by simpa using hraised⟩

/-- An accepted command about a partition that exists: its own part runs, and a completion that it gives is posted. -/
theorem State.onPartition_runs {s : State} {h : Hdr} {op : Nat} {absent enc : Bool} (body : State → Did)
    (hacc : AcceptedFor s h op) (habs : absent = false) (henc : enc = true) : ∃ u, Entered s u h op ∧
      (∀ t, body u = (t, none) → s.onPartition h op absent enc body = .next t) ∧
      ∀ t st res, body u = (t, some (st, res)) → s.onPartition h op absent enc body = .next (t.post h op st res) := by
  obtain ⟨⟨hserves, hwaits, hencOk, hdma, hres, ⟨hmute, hring⟩, hses⟩, hex⟩ := hacc
  obtain ⟨u, hu, hframe, -, henable⟩ := s.ready_frame h op hencOk hdma hses
  have hpart : h.part < 16 := by
    simp only [State.exists?, Bool.and_eq_true, decide_eq_true_eq] at hex
    exact hex.1
  have hent : Entered s u h op := by
    refine ⟨hframe, ?_, ?_⟩
    · rw [hframe]; exact hmute
    · rw [henable]; exact hring
  have hexu : u.exists? h.part = true := by rw [State.exists?, hent.part]; exact hex
  have hrun : s.onPartition h op absent enc body =
      s.command h op false true (fun s => if s.exists? h.part then body s else ended s 0x03) := by
    simp only [State.onPartition, habs, henc, hpart, decide_true, Bool.and_true]
  rw [hrun, s.command_runs h op _ hserves hwaits hencOk hdma hres hses, hu]
  refine ⟨u, hent, fun t ht => ?_, fun t st res ht => ?_⟩
  · simp only [hexu, if_true, ht]; rfl
  · simp only [hexu, if_true, ht]; rfl

/-- A command about a partition whose own part answers OK with `res` in state `w u`, where `w` keeps plans, discards and
rings. -/
theorem State.onPartition_answersOk {s : State} {c : Instr} {h : Hdr} {op : Nat} {absent enc : Bool} {body : State → Did}
    (w : State → State) (res : List (Nat × Nat)) (hc : exec c s = s.onPartition h op absent enc body)
    (hacc : AcceptedFor s h op) (habs : absent = false) (henc : enc = true)
    (hbody : ∀ u, Entered s u h op → body u = okWith (w u) res) (hplan : ∀ u, PlanKept u (w u))
    (hmute : ∀ u, (w u).mute = u.mute) (hrings : ∀ u, (w u).rings = u.rings) :
    ∃ u, Entered s u h op ∧ exec c s = .next ((w u).post h op 0 res) ∧ PlanKept s ((w u).post h op 0 res) ∧
      Answered ((w u).post h op 0 res) h op 0 res := by
  obtain ⟨u, hent, -, hrun⟩ := State.onPartition_runs body hacc habs henc
  refine ⟨u, hent, hc.trans (hrun _ 0 res (hbody u hent)), planKept_post (planKept_trans hent.planKept (hplan u)) h op 0 res,
    State.post_answered _ h op 0 res ?_ ?_⟩
  · rw [hmute]; exact hent.2.1
  · rw [State.ring_congr (hrings u)]; exact hent.2.2

/-! ### Layers -/

/-- A port after PORT_OPEN: the layer of partition `p` boots with `b`. -/
def Port.openLayer (y : Port) (p : Nat) (b : Boot) : Port := { y with boot := put none y.boot p (some b) }

/-- A port after PORT_FENCE: the layer of partition `p` is closed. -/
def Port.closeLayer (y : Port) (p : Nat) : Port := { y with boot := put none y.boot p none }

theorem Port.look_openLayer (y : Port) (p : Nat) (b : Boot) : look none (y.openLayer p b).boot p = some b :=
  look_put_same none y.boot p (some b)

theorem Port.closeLayer_opened (y : Port) (p : Nat) : (y.closeLayer p).opened p = false :=
  congrArg Option.isSome (look_put_same none y.boot p none)

theorem planKept_onPort (s : State) (i : Nat) (f : Port → Port) : PlanKept s (s.onPort i f) := ⟨rfl, rfl, rfl, rfl, rfl, rfl⟩

theorem State.post_port (s : State) (h : Hdr) (op st : Nat) (rs : List (Nat × Nat)) (k : Nat) :
    (s.post h op st rs).port k = s.port k := by
  rw [State.port, State.post_ports]; rfl

/-- PORT_OPEN boots the partition's layer on the port with the job, rank, serial and routes given. -/
theorem portOpen_opensLayer {h : Hdr} {i job rank serial : Nat} {routes : SMap (BitVec 16)} {s : State}
    (hacc : AcceptedFor s h 0x0620) (hhere : s.portAbsent i = false) (hfn : h.fn ≠ 17) (hi : i < 12) (hjob : job < 2 ^ 32)
    (hrank : rank < 65536) (hserial : serial < 2 ^ 64) (hroutes : ∀ e ∈ routes, e.2.toNat < 4096)
    (hjoin : (s.part h.part).jb.jstate = .none ∨ job = (s.part h.part).jb.job ∧ rank = (s.part h.part).rank)
    (hidle : (s.part h.part).active? = false) (hshut : (s.port i).opened h.part = false) :
    ∃ t, exec (.portOpen h i job rank serial routes) s = .next t ∧ PlanKept s t ∧ Answered t h 0x0620 0 [] ∧
      look none (t.port i).boot h.part = some { job, rank, serial, routes := putAll 0 [] routes } ∧
      ∀ k, k ≠ i → t.port k = s.port k := by
  have hdma : h.dmaOk = true := by
    obtain ⟨⟨-, -, -, hdma, -, -, -⟩, -⟩ := hacc
    exact hdma
  have hconflict : ¬ ((s.part h.part).jb.jstate ≠ .none ∧
      (job ≠ (s.part h.part).jb.job ∨ ((s.part h.part).jb.jstate ≠ .spare ∧ rank ≠ (s.part h.part).rank))) := by
    rcases hjoin with hnone | ⟨hj, hr⟩
    · exact fun hc => hc.1 hnone
    · exact fun hc => hc.2.elim (fun hne => hne hj) (fun hne => hne.2 hr)
  have henc : (decide (h.fn ≠ 17 ∧ i < 12 ∧ job < 2 ^ 32 ∧ rank < 65536 ∧ serial < 2 ^ 64) &&
      routes.all (fun e => decide (e.2.toNat < 4096))) = true := by
    simp only [Bool.and_eq_true, decide_eq_true_eq, List.all_eq_true]
    exact ⟨⟨hfn, hi, hjob, hrank, hserial⟩, hroutes⟩
  obtain ⟨u, hent, hexec, hplan, hans⟩ := State.onPartition_answersOk (c := .portOpen h i job rank serial routes)
    (fun u => u.onPort i (fun y => y.openLayer h.part { job, rank, serial, routes := putAll 0 [] routes })) []
    rfl hacc hhere henc
    (fun u hu => by
      simp only [hu.part, hu.port, hidle, hshut, hdma, if_neg hconflict, Bool.false_eq_true, Bool.not_true, or_self, if_false]
      rfl)
    (fun u => planKept_onPort u i _) (fun _ => rfl) (fun _ => rfl)
  refine ⟨_, hexec, hplan, hans, ?_, fun k hk => ?_⟩
  · rw [State.post_port, State.onPort_port_same, Port.look_openLayer]
  · rw [State.post_port, State.onPort_port_ne _ _ hk, hent.port]

/-- PORT_FENCE closes the partition's layer on the port. -/
theorem portFence_closesLayer {h : Hdr} {i : Nat} {s : State} (hacc : AcceptedFor s h 0x0621) (hi : i < 12)
    (hidle : (s.part h.part).active? = false) (hopen : (s.port i).opened h.part = true) :
    ∃ t, exec (.portFence h i) s = .next t ∧ PlanKept s t ∧ Answered t h 0x0621 0 [] ∧
      (t.port i).opened h.part = false ∧ ∀ k, k ≠ i → t.port k = s.port k := by
  obtain ⟨u, hent, hexec, hplan, hans⟩ := State.onPartition_answersOk (c := .portFence h i)
    (fun u => u.onPort i (fun y => y.closeLayer h.part)) [] rfl hacc rfl (decide_eq_true hi)
    (fun u hu => by
      simp only [hu.part, hu.port, hidle, hopen, Bool.false_eq_true, Bool.not_true, if_false]
      rfl)
    (fun u => planKept_onPort u i _) (fun _ => rfl) (fun _ => rfl)
  refine ⟨_, hexec, hplan, hans, ?_, fun k hk => ?_⟩
  · rw [State.post_port, State.onPort_port_same, Port.closeLayer_opened]
  · rw [State.post_port, State.onPort_port_ne _ _ hk, hent.port]

/-- FABRIC_STATUS answers the port's masks and counters and changes nothing. -/
theorem fabricStatus_answersCounters {h : Hdr} {i : Nat} {s : State} (hacc : AcceptedFor s h 0x0623) (hi : i < 12) :
    ∃ t a b c d, exec (.fabricStatus h i) s = .next t ∧
    PlanKept s t ∧ Answered t h 0x0623 0 [(2, a), (2, b), (2, c), (1, (s.port i).fwdDrop.toNat), (1, (s.port i).stray.toNat), (2, d),
      (2, s.fab.retries.toNat), (2, s.fab.lateDrop.toNat), (2, ((s.fab.xfers.filterMap (·.2)).filter (·.quar.isSome)).length)] := by
  obtain ⟨u, hent, hexec, hplan, hans⟩ := State.onPartition_answersOk (c := .fabricStatus h i) (fun u => u) _
    rfl hacc rfl (decide_eq_true hi)
    (fun u hu => by
      simp only [hu.part, hu.port, hu.fab]
      rfl)
    (fun u => ⟨rfl, rfl, rfl, rfl, rfl, rfl⟩) (fun _ => rfl) (fun _ => rfl)
  exact ⟨_, _, _, _, _, hexec, hplan, hans⟩

/-! ### Copies -/

/-- The header of the transfer that FABRIC_COPY starts for partition `p` with record `q`, under the next SEQ of its flow. -/
def copyHdr (x : CopyIn) (p : Nat) (q : Part) (tag : Nat) (seqs : SMap Nat) : DynHdr :=
  let hd : DynHdr :=
    { dst := x.rank, src := q.rank, dpart := x.part, rpart := p, op := if x.write then 2 else 1, ch := x.ch, last := false
      tag, seq := 0, gen := 0, status := 0, piece := 0, total := x.lines, job := q.jb.job, addr := x.raddr, hops := 0 }
  { hd with seq := look 0 seqs (seqKey hd) }

/-- The transfer that FABRIC_COPY starts. -/
def copyXfer (h : Hdr) (x : CopyIn) (q : Part) (tag : Nat) (seqs : SMap Nat) : Xfer :=
  { part := h.part, hdr := copyHdr x h.part q tag seqs, laddr := x.laddr, gen := 0, tries := 0, retries := x.retries
    timeout := x.timeout, got := [], quar := none, left := [], done := none, hdrCmd := some h }

/-- The state in which FABRIC_COPY has started its transfer: the SEQ is used and the first attempt waits for output. -/
def State.startCopy (s : State) (h : Hdr) (x : CopyIn) (q : Part) : State :=
  let hd := copyHdr x h.part q (s.freeTag x.ch) s.fab.seqs
  State.attempt { s with fab := { s.fab with seqs := put 0 s.fab.seqs (seqKey hd) ((hd.seq + 1) % 2 ^ 32) } }
    (xferKey x.ch (s.freeTag x.ch)) (copyXfer h x q (s.freeTag x.ch) s.fab.seqs) 0

theorem State.startCopy_planKept (s : State) (h : Hdr) (x : CopyIn) (q : Part) : PlanKept s (s.startCopy h x q) :=
  ⟨rfl, rfl, rfl, rfl, rfl, rfl⟩

theorem State.startCopy_xfer (s : State) (h : Hdr) (x : CopyIn) (q : Part) :
    (s.startCopy h x q).xfer (xferKey x.ch (s.freeTag x.ch)) = some (copyXfer h x q (s.freeTag x.ch) s.fab.seqs) :=
  look_put_same none s.fab.xfers (xferKey x.ch (s.freeTag x.ch)) (some (copyXfer h x q (s.freeTag x.ch) s.fab.seqs))

theorem State.startCopy_queued (s : State) (h : Hdr) (x : CopyIn) (q : Part) :
    ∃ o ∈ (s.startCopy h x q).fab.outq, o.hdr.tag = s.freeTag x.ch ∧ o.cls = 2 := by
  refine ⟨_, List.mem_append_right _ (List.mem_singleton.2 rfl), ?_, rfl⟩
  dsimp only
  split <;> rfl

theorem State.startCopy_seq (s : State) (h : Hdr) (x : CopyIn) (q : Part) :
    look 0 (s.startCopy h x q).fab.seqs (seqKey (copyHdr x h.part q (s.freeTag x.ch) s.fab.seqs)) =
      ((copyHdr x h.part q (s.freeTag x.ch) s.fab.seqs).seq + 1) % 2 ^ 32 :=
  look_put_same 0 s.fab.seqs _ _

/-- FABRIC_COPY's own part ends in the state in which the transfer has started. -/
theorem exec_fabricCopy {h : Hdr} {x : CopyIn} {s : State} (hacc : AcceptedFor s h 0x0622) (hok : copyOk x = true)
    (hjob : (s.part h.part).jb.job ≠ 0) (hgood : (s.part h.part).copyBad x = false)
    (hroom : (s.outstanding x.ch).length < 64) (hslots : (s.part h.part).noLoadSlots = false)
    (hclean : (s.part h.part).zeroising ((leasesAt x.laddr x.lines).map (fun i => (Tier.cold, i))) = false) :
    ∃ u, Entered s u h 0x0622 ∧ exec (.fabricCopy h x) s = .next (u.startCopy h x (s.part h.part)) := by
  obtain ⟨u, hent, hrun, -⟩ := State.onPartition_runs (absent := false) _ hacc rfl hok
  have hfull : ¬ 64 ≤ (u.outstanding x.ch).length := by
    rw [State.outstanding, hent.fab]
    exact Nat.not_le.2 hroom
  refine ⟨u, hent, hrun _ ?_⟩
  simp only [hent.part, hjob, hgood, hfull, hslots, hclean, Bool.false_eq_true, or_self, if_false]
  rfl

/-- FABRIC_COPY starts one transfer under the next SEQ of its flow; its completion comes with the transfer's end. -/
theorem fabricCopy_startsTransfer {h : Hdr} {x : CopyIn} {s : State} (hacc : AcceptedFor s h 0x0622) (hok : copyOk x = true)
    (hjob : (s.part h.part).jb.job ≠ 0) (hgood : (s.part h.part).copyBad x = false)
    (hroom : (s.outstanding x.ch).length < 64) (hslots : (s.part h.part).noLoadSlots = false)
    (hclean : (s.part h.part).zeroising ((leasesAt x.laddr x.lines).map (fun i => (Tier.cold, i))) = false) :
    ∃ t y, exec (.fabricCopy h x) s = .next t ∧ PlanKept s t ∧ t.xfer (xferKey x.ch (s.freeTag x.ch)) = some y ∧
      y.hdrCmd = some h ∧ y.hdr.dst = x.rank ∧ y.hdr.op = (if x.write then 2 else 1) ∧ y.hdr.total = x.lines ∧ y.hdr.addr = x.raddr ∧
      y.hdr.job = (s.part h.part).jb.job ∧ y.hdr.seq = look 0 s.fab.seqs (seqKey y.hdr) ∧ y.done = none ∧
      (∃ o ∈ t.fab.outq, o.hdr.tag = s.freeTag x.ch ∧ o.cls = 2) ∧
      look 0 t.fab.seqs (seqKey y.hdr) = (look 0 s.fab.seqs (seqKey y.hdr) + 1) % 2 ^ 32 := by
  obtain ⟨u, hent, hexec⟩ := exec_fabricCopy hacc hok hjob hgood hroom hslots hclean
  have hxfer := u.startCopy_xfer h x (s.part h.part)
  have hqueued := u.startCopy_queued h x (s.part h.part)
  have hseq := u.startCopy_seq h x (s.part h.part)
  simp only [hent.freeTag, hent.fab] at hxfer hqueued hseq
  exact ⟨_, _, hexec, planKept_trans hent.planKept (u.startCopy_planKept h x _), hxfer, rfl, rfl, rfl, rfl, rfl, rfl, rfl, rfl,
    hqueued, hseq⟩

/-! ### The statement -/

/-- Settles O57: each clause is the lemma about its command. -/
theorem hostPathAndLayers : Obligations.HostPathAndLayers := by
  unfold Obligations.HostPathAndLayers
  refine ⟨fun fn k q v s hex => ⟨exec_doorbellWrite v hex, ringEnable_switchesOn hex, ringDisable_switchesOff hex⟩,
    fun h op s hserves => ⟨?_, mgmtDatagram_waits op, mgmtDatagram_takesEntry op hserves⟩,
    registerWrite_powerStatus, exec_restarts, registerWrite_sequencerStatus, counterSelect_names,
    fun s => exec_counterSample_idle, fun loc i s => counterSample_arrives, fun link fns s => hostLinkReset_clearsRings fns s,
    ideKeyChange_counts,
    fun h i job rank serial routes s => portOpen_opensLayer, fun h i s => portFence_closesLayer,
    fun h x s => fabricCopy_startsTransfer, fun h i s => fabricStatus_answersCounters⟩
  intro hfn hset hsub hcpl hheld hturn hsetTurn hflight hroom
  have hex : s.ringExists h.fn h.set 0 = true := by simp [State.ringExists, hfn, hset]
  exact submissionFetch_takesEntry op hserves hfn (State.canFetch_of hex hsub hcpl hheld hflight hroom) hturn hsetTurn

end Sys2Proof.Machine
end

