-- ==== Sys2Proof/Proofs/Fixed.lean ====
section
/-! SUPPORT. What no command may change of the state: the waiting commands, the grade and the positions of the fused blocks (R8, R14). How the
shared operations of Machine/Ops.lean keep it, and what it is for a command to complete. -/

namespace Sys2Proof.Machine

/-- What no command may change of the state: the commands that wait, the grade and the positions chosen for fused blocks. -/
def State.fixed (s : State) : List Instr × Nat × BitVec 64 := (s.pending, s.fuses.grade, s.fuses.fusedAt)

/-- An update of any other field keeps them. The proof is in parentheses so that `simp` rewrites with the lemma instead of comparing the
two states by unfolding. -/
@[simp] theorem State.fixed_mk (t : State)
    cycle frameNo wallAt freeCtr nextKey out cells blocks stks cold parts raised counters act retired ports fab shadows tu islands pwr
    seqr keys sessions openFail audit auditIdx auditHead checks openSec mute spFw mgFw spRun mgRun mgmtDown boot io rings msix msixWait
    inProg taken rota rotaSet errs errNext flashErr pFaults jFaults health cnt round calFlash calLoad mgrDrop detachCmd :
    (State.mk
      t.pending cycle frameNo wallAt freeCtr nextKey out cells blocks stks cold parts raised counters act retired ports fab shadows tu
      islands pwr seqr keys sessions openFail audit auditIdx auditHead checks openSec mute spFw mgFw spRun mgRun mgmtDown boot io
      t.fuses rings msix msixWait inProg taken rota rotaSet errs errNext flashErr pFaults jFaults health cnt round calFlash calLoad
      mgrDrop detachCmd).fixed =
      t.fixed := (rfl)

@[simp] theorem State.fixed_ite (c : Prop) [Decidable c] (s t : State) :
    (if c then s else t).fixed = if c then s.fixed else t.fixed := apply_ite ..

/-- The command answers a next state, in which nothing is changed that no command may change. -/
def Completes (o : Out) (s : State) : Prop := ∃ t, o = .next t ∧ t.fixed = s.fixed

@[simp] theorem completes_ok (s t : State) : Completes (ok t) s ↔ t.fixed = s.fixed := by simp [Completes, ok]

@[simp] theorem completes_ite (c : Prop) [Decidable c] (a b : Out) (s : State) :
    Completes (if c then a else b) s ↔ if c then Completes a s else Completes b s := by split <;> rfl

@[simp] theorem fst_ite_fixed {β : Type} (c : Prop) [Decidable c] (a b : State × β) :
    (if c then a else b).1.fixed = if c then a.1.fixed else b.1.fixed := by split <;> rfl

/-- A run of updates, each of which keeps them, keeps them. -/
@[simp] theorem foldl_fixed {α : Type} (f : State → α → State) (h : ∀ s a, (f s a).fixed = s.fixed) (l : List α) (s : State) :
    (l.foldl f s).fixed = s.fixed := by
  induction l generalizing s with
  | nil => rfl
  | cons a l ih => rw [List.foldl_cons, ih, h]

@[simp] theorem ended_fixed (s : State) (st : Nat) : (ended s st).1.fixed = s.fixed := rfl
@[simp] theorem okWith_fixed (s : State) (res : List (Nat × Nat)) : (okWith s res).1.fixed = s.fixed := rfl

/-- The same of updates that carry a value beside the state. -/
@[simp] theorem foldl_fst_fixed {α β : Type} (f : State × β → α → State × β) (h : ∀ a x, (f a x).1.fixed = a.1.fixed)
    (l : List α) (a : State × β) : (l.foldl f a).1.fixed = a.1.fixed := by
  induction l generalizing a with
  | nil => rfl
  | cons x l ih => rw [List.foldl_cons, ih, h]

@[simp] theorem State.setCell_fixed (s : State) (c : Nat) (x : Cell) : (s.setCell c x).fixed = s.fixed := (rfl)

@[simp] theorem State.setBlock_fixed (s : State) (b : Nat) (x : Block) : (s.setBlock b x).fixed = s.fixed := (rfl)

@[simp] theorem State.setPart_fixed (s : State) (p : Nat) (x : Part) : (s.setPart p x).fixed = s.fixed := (rfl)

@[simp] theorem State.onCell_fixed (s : State) (c : Nat) (f : Cell → Cell) : (s.onCell c f).fixed = s.fixed := (rfl)

@[simp] theorem State.onBlock_fixed (s : State) (b : Nat) (f : Block → Block) : (s.onBlock b f).fixed = s.fixed := (rfl)

@[simp] theorem State.onPart_fixed (s : State) (p : Nat) (f : Part → Part) : (s.onPart p f).fixed = s.fixed := (rfl)

@[simp] theorem State.onStack_fixed (s : State) (k : Nat) (f : Stack → Stack) : (s.onStack k f).fixed = s.fixed := (rfl)

@[simp] theorem State.onPort_fixed (s : State) (i : Nat) (f : Port → Port) : (s.onPort i f).fixed = s.fixed := (rfl)

@[simp] theorem State.onShadow_fixed (s : State) (p : Nat) (f : Shadow → Shadow) : (s.onShadow p f).fixed = s.fixed := (rfl)

@[simp] theorem State.onIsland_fixed (s : State) (i : Nat) (f : Island → Island) : (s.onIsland i f).fixed = s.fixed := (rfl)

@[simp] theorem State.count_fixed (s : State) (loc ev n : Nat) : (s.count loc ev n).fixed = s.fixed := (rfl)

@[simp] theorem State.spend_fixed (s : State) (row : Nat) (p : Option Nat) (n : Nat) : (s.spend row p n).fixed = s.fixed := (rfl)

@[simp] theorem State.raise_fixed (s : State) (r : Raise) : (s.raise r).fixed = s.fixed := (rfl)

@[simp] theorem State.partFault_fixed (s : State) (code : Nat) (parts : List Nat) (unit d0 d1 : Nat) :
    (s.partFault code parts unit d0 d1).fixed = s.fixed := (rfl)

@[simp] theorem State.jobFault_fixed (s : State) (code : Nat) (parts : List Nat) (unit d0 d1 : Nat) :
    (s.jobFault code parts unit d0 d1).fixed = s.fixed := (rfl)

@[simp] theorem State.modEvent_fixed (s : State) (code unit d0 d1 : Nat) : (s.modEvent code unit d0 d1).fixed = s.fixed := (rfl)

@[simp] theorem State.retireCell_fixed (s : State) (c cause : Nat) : (s.retireCell c cause).fixed = s.fixed := by
  simp [State.retireCell]

@[simp] theorem State.cellFault_fixed (s : State) (c code d0 d1 : Nat) (ending : Bool) :
    (s.cellFault c code d0 d1 ending).fixed = s.fixed := by
  simp only [State.cellFault]
  split <;> simp

@[simp] theorem State.setRing_fixed (s : State) (fn k q : Nat) (r : Ring) : (s.setRing fn k q r).fixed = s.fixed := (rfl)

@[simp] theorem State.send_fixed (s : State) (m : Sent) : (s.send m).fixed = s.fixed := (rfl)

@[simp] theorem State.signal_fixed (s : State) (fn k v : Nat) : (s.signal fn k v).fixed = s.fixed := by
  simp [State.signal]

@[simp] theorem State.eventTo_fixed (s : State) (fn k : Nat) (e : Event) : (s.eventTo fn k e).fixed = s.fixed := by
  simp [State.eventTo]

@[simp] theorem State.event_fixed (s : State) (kind part : Nat) (args : List Nat) : (s.event kind part args).fixed = s.fixed := by
  simp [State.event]

@[simp] theorem State.auditOne_fixed (s : State) (e : Audit) : (s.auditOne e).fixed = s.fixed := (rfl)

@[simp] theorem State.checkpoint_fixed (s : State) : s.checkpoint.fixed = s.fixed := (rfl)

@[simp] theorem State.auditAdd_fixed (s : State) (role : Role) (event opcode status part sid : Nat) (kh param : Hash) :
    (s.auditAdd role event opcode status part sid kh param).fixed = s.fixed := by
  simp [State.auditAdd]

@[simp] theorem State.replyTo_fixed (s : State) (key : Option Hash) (h : Hdr) (opcode status : Nat) (results : List (Nat × Nat)) :
    (s.replyTo key h opcode status results).fixed = s.fixed := by
  simp [State.replyTo]

@[simp] theorem State.reply_fixed (s : State) (h : Hdr) (opcode status : Nat) (results : List (Nat × Nat)) :
    (s.reply h opcode status results).fixed = s.fixed := by
  simp [State.reply]

@[simp] theorem State.postTo_fixed (s : State) (key : Option Hash) (h : Hdr) (opcode status : Nat) (results : List (Nat × Nat)) :
    (s.postTo key h opcode status results).fixed = s.fixed := by
  simp [State.postTo]

@[simp] theorem State.post_fixed (s : State) (h : Hdr) (opcode status : Nat) (results : List (Nat × Nat)) :
    (s.post h opcode status results).fixed = s.fixed := by
  simp [State.post]

@[simp] theorem State.post?_fixed (s : State) (h : Option Hdr) (opcode status : Nat) (results : List (Nat × Nat)) :
    (s.post? h opcode status results).fixed = s.fixed := by
  unfold State.post?
  split <;> simp

end Sys2Proof.Machine
end

