-- ==== Sys2Proof/Proofs/FixedCell.lean ====
section
/-! SUPPORT. The cell and the mesh keep what no command may change (03 to 07). -/

namespace Sys2Proof.Machine

/-! ### Machine/Operands.lean -/

@[simp] theorem issue_fixed (c : Nat) (e : En) (word : Word) (f : Cell → Issue) (s : State) :
    (issue c e word f s).fixed = s.fixed := by
  unfold issue
  dsimp only
  split
  · simp
  split
  · simp
  split <;> simp

/-! ### Machine/CellVector.lean -/

@[simp] theorem issueVec_fixed (opc func occ ports : Nat) (legal : Bool) (whenEn : Cell → List Nat) (act : Cell → PortAct) (effect : Cell → Cell → Cell) (c : Nat) (f : VecF) (s : State) :
    (issueVec opc func occ ports legal whenEn act effect c f s).fixed = s.fixed := by
  simp [issueVec]

@[simp] theorem issueLanes_fixed (opc func occ lat : Nat) (legal : Bool) (val : Cell → Nat → Lane) (c : Nat) (f : VecF) (s : State) :
    (issueLanes opc func occ lat legal val c f s).fixed = s.fixed := by
  simp [issueLanes]

@[simp] theorem issueToG_fixed (opc func lat : Nat) (legal : Bool) (val : Cell → Word) (c : Nat) (f : VecF) (s : State) :
    (issueToG opc func lat legal val c f s).fixed = s.fixed := by
  simp [issueToG]

@[simp] theorem issueArith_fixed (opc func lat : Nat) (legal : Bool) (op : Lane → Lane → Lane → Lane) (c : Nat) (f : VecF) (s : State) :
    (issueArith opc func lat legal op c f s).fixed = s.fixed := by
  simp [issueArith]

@[simp] theorem issueCmpV_fixed (func : Nat) (rel : Lane → Lane → Bool) (c : Nat) (f : VecF) (s : State) :
    (issueCmpV func rel c f s).fixed = s.fixed := by
  simp [issueCmpV]

@[simp] theorem issueReduce_fixed (func : Nat) (op : Nat → Nat → Nat) (ident c : Nat) (f : VecF) (s : State) :
    (issueReduce func op ident c f s).fixed = s.fixed := by
  simp [issueReduce]

@[simp] theorem issueMxsc_fixed (func : Nat) (t : Fmt) (c : Nat) (f : VecF) (s : State) :
    (issueMxsc func t c f s).fixed = s.fixed := by
  simp [issueMxsc]

@[simp] theorem issueGather_fixed (func n c : Nat) (f : VecF) (s : State) : (issueGather func n c f s).fixed = s.fixed := by
  simp [issueGather]

@[simp] theorem issueScatter_fixed (func n c : Nat) (f : VecF) (s : State) : (issueScatter func n c f s).fixed = s.fixed := by
  simp [issueScatter]

@[simp] theorem countStoch_fixed (c : Nat) (f : VecF) (before after : State) : (countStoch c f before after).fixed = after.fixed := by
  simp [countStoch]

@[simp] theorem issuePack_fixed (func : Nat) (t : Fmt) (c : Nat) (f : VecF) (s : State) :
    (issuePack func t c f s).fixed = s.fixed := by
  simp [issuePack]

@[simp] theorem issueUnpack_fixed (func : Nat) (t : Fmt) (c : Nat) (f : VecF) (s : State) :
    (issueUnpack func t c f s).fixed = s.fixed := by
  simp [issueUnpack]

@[simp] theorem issueUnpackInt_fixed (func w c : Nat) (f : VecF) (s : State) : (issueUnpackInt func w c f s).fixed = s.fixed := by
  simp [issueUnpackInt]

@[simp] theorem issueVcvt_fixed (func : Nat) (src dst : Fmt) (c : Nat) (f : VecF) (s : State) :
    (issueVcvt func src dst c f s).fixed = s.fixed := by
  simp [issueVcvt]

/-! ### Machine/CellMatrix.lean -/

@[simp] theorem issueAcc_fixed (c : Nat) (e : En) (word : Word) (legal : Bool) (ag n first : Nat) (act : Nat → PortAct) (add : Cell → Cell → Cell) (s : State) :
    (issueAcc c e word legal ag n first act add s).fixed = s.fixed := by
  simp [issueAcc]

/-! ### Machine/CellEvents.lean -/

@[simp] theorem State.eccCell_fixed (s : State) (c : Nat) (e : EccW) (mem : Nat) (words : List Nat) :
    (s.eccCell c e mem words).fixed = s.fixed := by
  unfold State.eccCell
  split <;> simp

@[simp] theorem execResultLanding_completes (c : Nat) (s : State) : Completes (execResultLanding c s) s := by
  simp [execResultLanding]

@[simp] theorem execLoopIterationEnd_completes (c : Nat) (s : State) : Completes (execLoopIterationEnd c s) s := by
  simp [execLoopIterationEnd]

@[simp] theorem execScalarMemoryAccess_completes (c : Nat) (ecc : Ecc) (s : State) :
    Completes (execScalarMemoryAccess c ecc s) s := by
  unfold execScalarMemoryAccess
  split <;> simp

@[simp] theorem execVectorPortAccess_completes (c : Nat) (ecc : EccW) (s : State) :
    Completes (execVectorPortAccess c ecc s) s := by
  unfold execVectorPortAccess
  split <;> simp

@[simp] theorem execWeightLineWrite_completes (c : Nat) (s : State) : Completes (execWeightLineWrite c s) s := by
  simp [execWeightLineWrite]

@[simp] theorem execWeightTagSet_completes (c : Nat) (s : State) : Completes (execWeightTagSet c s) s := by
  simp [execWeightTagSet]

@[simp] theorem execMmaRowLanding_completes (c : Nat) (ecc : EccW) (s : State) : Completes (execMmaRowLanding c ecc s) s := by
  simp only [execMmaRowLanding]
  split <;> simp

@[simp] theorem execAccRowRead_completes (c : Nat) (ecc : EccW) (s : State) : Completes (execAccRowRead c ecc s) s := by
  unfold execAccRowRead
  dsimp only
  split
  · simp
  split
  · simp
  split <;> simp

@[simp] theorem execMaddxGroupLanding_completes (c : Nat) (ecc : EccW) (s : State) :
    Completes (execMaddxGroupLanding c ecc s) s := by
  simp only [execMaddxGroupLanding]
  split <;> simp

@[simp] theorem execMclrZeroing_completes (c : Nat) (s : State) : Completes (execMclrZeroing c s) s := by
  simp [execMclrZeroing]

/-! ### Machine/CellScalar.lean -/

@[simp] theorem issueRR_fixed (func lat : Nat) (op : Word → Word → Word) (c : Nat) (f : RR) (s : State) :
    (issueRR func lat op c f s).fixed = s.fixed := by
  simp [issueRR]

@[simp] theorem issueDiv_fixed (func : Nat) (op : Word → Word → Word) (c : Nat) (f : RR) (s : State) :
    (issueDiv func op c f s).fixed = s.fixed := by
  simp [issueDiv]

@[simp] theorem issueRI_fixed (opc lat : Nat) (legal : Bool) (op : Word → BitVec 32 → Word) (c : Nat) (f : RI) (s : State) :
    (issueRI opc lat legal op c f s).fixed = s.fixed := by
  simp [issueRI]

@[simp] theorem issueMem_fixed (opc : Nat) (sizes : List Nat) (cs store : Bool) (c : Nat) (f : MemF) (s : State) :
    (issueMem opc sizes cs store c f s).fixed = s.fixed := by
  simp [issueMem]

@[simp] theorem issueCmpR_fixed (cond c : Nat) (f : CmpR) (s : State) : (issueCmpR cond c f s).fixed = s.fixed := by
  simp [issueCmpR]

@[simp] theorem issueCmpI_fixed (cond c : Nat) (f : CmpI) (s : State) : (issueCmpI cond c f s).fixed = s.fixed := by
  simp [issueCmpI]

@[simp] theorem issuePl_fixed (func : Nat) (legal : Bool) (op : Bool → Bool → Bool) (c : Nat) (f : PlF) (s : State) :
    (issuePl func legal op c f s).fixed = s.fixed := by
  simp [issuePl]

/-! ### Machine/Tables.lean -/

@[simp] theorem State.fresh_fixed (s : State) : s.fresh.fixed = s.fixed := (rfl)

/-! ### Machine/Mesh.lean -/

@[simp] theorem State.inputClash_fixed (s : State) (b owner : Nat) (due : List Hop) (i : Nat) :
    (s.inputClash b owner due i).fixed = s.fixed := by
  unfold State.inputClash
  split <;> simp

@[simp] theorem State.enter_fixed (s : State) (b owner : Nat) (feeds : Nat → Option Nat) (due : List Hop) (h : Hop) :
    (s.enter b owner feeds due h).fixed = s.fixed := by
  unfold State.enter
  split
  · simp
  split <;> simp

@[simp] theorem State.readRow_fixed (s : State) (b : Nat) (tecc : Ecc) (ps : List Nat) (row : Option (BitVec 128)) :
    (s.readRow b tecc ps row).1.fixed = s.fixed := by
  unfold State.readRow
  split
  · simp
  split <;> simp

@[simp] theorem execCrossbarRow_completes (b : Nat) (tecc : Ecc) (s : State) : Completes (execCrossbarRow b tecc s) s := by
  simp only [execCrossbarRow]
  split <;> simp

@[simp] theorem State.deliverCell_fixed (s : State) (b c p : Nat) (x : Beat) : (s.deliverCell b c p x).fixed = s.fixed := by
  simp [State.deliverCell]

@[simp] theorem State.readBeat_fixed (s : State) (r unit out : Nat) (ps : List Nat) (e : EccW) (x : Beat) :
    (s.readBeat r unit out ps e x).1.fixed = s.fixed := by
  unfold State.readBeat
  split
  · simp
  split
  · simp
  split <;> simp

@[simp] theorem State.deliver_fixed (s : State) (b p o : Nat) (x : Beat) : (s.deliver b p o x).fixed = s.fixed := by
  simp [State.deliver]

@[simp] theorem State.deliverAll_fixed (s : State) (b p : Nat) (e : BeatEcc) (l : List Hop) :
    (s.deliverAll b p e l).fixed = s.fixed := by
  simp [State.deliverAll]

@[simp] theorem execCrossbarBeatDelivery_completes (b : Nat) (pecc : BeatEcc) (s : State) :
    Completes (execCrossbarBeatDelivery b pecc s) s := by
  simp only [execCrossbarBeatDelivery]
  split <;> simp

@[simp] theorem State.leave_fixed (s : State) (b o : Nat) (x : Beat) : (s.leave b o x).fixed = s.fixed := by
  unfold State.leave
  dsimp only
  split
  · split <;> simp
  split
  · simp
  split <;> simp

@[simp] theorem State.routeOut_fixed (s : State) (b : Nat) (rows : List (Nat × BitVec 128)) (due : List Hop) (o : Nat) :
    (s.routeOut b rows due o).fixed = s.fixed := by
  unfold State.routeOut
  split
  · rfl
  · refine foldl_fixed _ (fun t e => ?_) _ _
    split <;> simp

@[simp] theorem State.readBeats_fixed (s : State) (b : Nat) (e : BeatEcc) (l : List Hop) : (s.readBeats b e l).1.fixed = s.fixed := by
  simp [State.readBeats]

@[simp] theorem State.readLayers_fixed (s : State) (b : Nat) (tecc : List (Nat × Ecc)) (rows : List (Nat × BitVec 128)) :
    (s.readLayers b tecc rows).1.fixed = s.fixed := by
  simp [State.readLayers]

@[simp] theorem execRouterRow_completes (b : Nat) (tecc : List (Nat × Ecc)) (pecc : BeatEcc) (s : State) :
    Completes (execRouterRow b tecc pecc s) s := by
  simp [execRouterRow]

@[simp] theorem State.goBit_fixed (s : State) (row : BitVec 128) (w : Nat) (recc : Ecc) :
    (s.goBit row w recc).1.fixed = s.fixed := by
  unfold State.goBit
  split <;> simp

@[simp] theorem State.readDesc_fixed (s : State) (b w p : Nat) (tecc : Ecc) (d : Desc) :
    (s.readDesc b w p tecc d).1.fixed = s.fixed := by
  unfold State.readDesc
  split <;> simp

@[simp] theorem State.readPred_fixed (s : State) (b w p : Nat) (pecc : Ecc) (d : Desc) :
    (s.readPred b w p pecc d).1.fixed = s.fixed := by
  unfold State.readPred
  split
  · simp
  split <;> simp

@[simp] theorem State.startMove_fixed (s : State) (b w p : Nat) (d : Desc) (i : Nat) :
    (s.startMove b w p d i).fixed = s.fixed := by
  simp [State.startMove]

@[simp] theorem execBarrowGo_completes (b w : Nat) (recc tecc pecc : Ecc) (s : State) :
    Completes (execBarrowGo b w recc tecc pecc s) s := by
  unfold execBarrowGo
  split
  · dsimp only
    split <;> simp
  · simp

@[simp] theorem State.moveBeat_fixed (s : State) (b w p : Nat) (m : Move) (ecc : EccW) :
    (s.moveBeat b w p m ecc).1.fixed = s.fixed := by
  simp only [State.moveBeat]
  split <;> simp

@[simp] theorem execBarrowLine_completes (b w : Nat) (ecc : EccW) (s : State) : Completes (execBarrowLine b w ecc s) s := by
  unfold execBarrowLine
  split
  · simp
  split
  · simp
  split <;> simp

@[simp] theorem State.loadStep_fixed (s : State) (p : Nat) : (s.loadStep p).fixed = s.fixed := by
  unfold State.loadStep
  split
  · rfl
  split
  · rfl
  rw [State.onPart_fixed]
  split
  · split <;> simp
  · simp

@[simp] theorem execInstructionLoadComplete_completes (p : Nat) (s : State) : Completes (execInstructionLoadComplete p s) s := by
  unfold execInstructionLoadComplete
  split <;> simp

end Sys2Proof.Machine
end

