-- ==== Sys2Proof/Proofs/FixedMemory.lean ====
section
/-! SUPPORT. The obliner stacks, the merge units and the cold frame keep what no command may change (08 to 10). -/

namespace Sys2Proof.Machine

/-! ### Machine/Stacks.lean -/

@[simp] theorem State.stkFault_fixed (s : State) (k code p paddr : Nat) (z : Slt) (bank : Nat) :
    (s.stkFault k code p paddr z bank).fixed = s.fixed := (rfl)

@[simp] theorem State.settleFailing_fixed (s : State) (k ch : Nat) : (s.settleFailing k ch).fixed = s.fixed := by
  simp [State.settleFailing]

@[simp] theorem State.serveRead_fixed (s : State) (k : Nat) (h : Hop) (errs : List (Nat × Nat × Nat)) :
    (s.serveRead k h errs).1.fixed = s.fixed := by
  unfold State.serveRead
  extract_lets z p q a x
  split
  · simp
  split
  · simp
  split
  · simp
  · split <;> simp
  · simp

theorem State.withHop_completes (s : State) (k : Nat) (pecc : BeatEcc) (f : Hop → Bool) (g : State → Hop → State)
    (hg : ∀ t h, (g t h).fixed = t.fixed) : Completes (s.withHop k pecc f g) s := by
  unfold State.withHop
  split <;> simp [hg]

@[simp] theorem State.returns_fixed (s : State) (k : Nat) (h : Hop) (d : Line) (merge : Bool) :
    (s.returns k h d merge).fixed = s.fixed := (rfl)

@[simp] theorem execStackRead_completes (k : Nat) (errs : List (Nat × Nat × Nat)) (pecc : BeatEcc) (s : State) :
    Completes (execStackRead k errs pecc s) s :=
  State.withHop_completes _ _ _ _ _ (by simp)

@[simp] theorem execMergeFetch_completes (k : Nat) (errs : List (Nat × Nat × Nat)) (pecc : BeatEcc) (s : State) :
    Completes (execMergeFetch k errs pecc s) s :=
  State.withHop_completes _ _ _ _ _ (by simp)

@[simp] theorem State.readMergeRow_fixed (s : State) (k : Nat) (tecc : Ecc) (p : Nat) (row : BitVec 32) :
    (s.readMergeRow k tecc p row).1.fixed = s.fixed := by
  unfold State.readMergeRow
  split <;> simp

@[simp] theorem execMergedRead_completes (k : Nat) (errs : List (Nat × Nat × Nat)) (mecc tecc : Ecc) (pecc : BeatEcc) (s : State) :
    Completes (execMergedRead k errs mecc tecc pecc s) s := by
  refine State.withHop_completes _ _ _ _ _ (fun t h => ?_)
  dsimp only
  split <;> simp

@[simp] theorem execStackDataReturn_completes (k : Nat) (s : State) : Completes (execStackDataReturn k s) s := by
  simp [execStackDataReturn]

@[simp] theorem execStackWriteOpen_completes (k : Nat) (pecc : BeatEcc) (s : State) : Completes (execStackWriteOpen k pecc s) s := by
  refine State.withHop_completes _ _ _ _ _ (fun t h => ?_)
  dsimp only
  split
  · simp
  split
  · simp
  split
  · simp
  split <;> simp

@[simp] theorem execStackWriteBeat_completes (k : Nat) (pecc : BeatEcc) (s : State) : Completes (execStackWriteBeat k pecc s) s := by
  refine State.withHop_completes _ _ _ _ _ (fun t h => ?_)
  dsimp only
  split
  · simp
  split
  · simp
  split
  · simp
  split <;> simp

@[simp] theorem execStackRefresh_completes (k ch : Nat) (s : State) : Completes (execStackRefresh k ch s) s := by
  unfold execStackRefresh
  split <;> simp

@[simp] theorem execStackScrub_completes (k ch : Nat) (errs : List (Nat × Nat × Nat)) (s : State) :
    Completes (execStackScrub k ch errs s) s := by
  unfold execStackScrub
  simp

@[simp] theorem execRetrainSweepDue_completes (s : State) : Completes (execRetrainSweepDue s) s := by
  simp [execRetrainSweepDue]

@[simp] theorem execStackRetrainStep_completes (k ch : Nat) (failed : List Nat) (whole : Bool) (s : State) :
    Completes (execStackRetrainStep k ch failed whole s) s := by
  simp only [execStackRetrainStep]
  split <;> simp

@[simp] theorem execRowRepair_completes (k ch : Nat) (s : State) : Completes (execRowRepair k ch s) s := by
  simp only [execRowRepair]
  split <;> simp

@[simp] theorem execDieEvacuation_completes (k : Nat) (s : State) : Completes (execDieEvacuation k s) s := by
  unfold execDieEvacuation
  split <;> simp

@[simp] theorem execSpareDieAssign_completes (k : Nat) (s : State) : Completes (execSpareDieAssign k s) s := by
  simp only [execSpareDieAssign]
  split <;> simp

@[simp] theorem State.setWipe_fixed (s : State) (tier : Tier) (loc : LeaseLoc) (w : Option Wipe) :
    (s.setWipe tier loc w).fixed = s.fixed := by
  unfold State.setWipe
  split <;> simp

@[simp] theorem State.startWipe_fixed (s : State) (tier : Tier) (loc : LeaseLoc) (b : Blank) :
    (s.startWipe tier loc b).fixed = s.fixed := by
  simp [State.startWipe]

@[simp] theorem State.wipe_fixed (s : State) (tier : Tier) (loc : LeaseLoc) (n : Nat) : (s.wipe tier loc n).fixed = s.fixed := by
  unfold State.wipe
  dsimp only
  split
  · simp
  split <;> simp

@[simp] theorem execLeaseZeroise_completes (p : Nat) (tier : Tier) (idx : Nat) (s : State) :
    Completes (execLeaseZeroise p tier idx s) s := by
  unfold execLeaseZeroise
  dsimp only
  split
  · refine (completes_ok ..).2 (foldl_fixed _ (fun t loc => ?_) _ _)
    split <;> simp
  · simp

@[simp] theorem execZeroDone_completes (p : Nat) (tier : Tier) (idx : Nat) (s : State) :
    Completes (execZeroDone p tier idx s) s := by
  simp [execZeroDone]

@[simp] theorem State.zeroPlace_fixed (s : State) (tier : Tier) (loc : LeaseLoc) (b : Blank) :
    (s.zeroPlace tier loc b).fixed = s.fixed := by
  simp [State.zeroPlace]

@[simp] theorem State.pendLease_fixed (s : State) (p : Nat) (join : Bool) (f : LeaseLoc → Bool) (e : Tier × Nat) :
    (s.pendLease p join f e).fixed = s.fixed := by
  simp [State.pendLease]

/-! ### Machine/Cold.lean -/

@[simp] theorem State.coldFault_fixed (s : State) (code p a ch idx bank : Nat) :
    (s.coldFault code p a ch idx bank).fixed = s.fixed := (rfl)

@[simp] theorem State.coldReturn_fixed (s : State) (h : Hop) (d : Line) : (s.coldReturn h d).fixed = s.fixed := (rfl)

@[simp] theorem State.coldPlace_fixed (s : State) (p ch : Nat) (o : OpenCount) : (s.coldPlace p ch o).fixed = s.fixed := (rfl)

@[simp] theorem State.coldServe_fixed (s : State) (h : Hop) (clash : Bool) (errs : List (Nat × Nat)) :
    (s.coldServe h clash errs).fixed = s.fixed := by
  have hz (t : State) : (if h.beat.isReq 1 then t.coldReturn h 0 else t).fixed = t.fixed := by simp
  have hp : (match h.beat.coldAsk, s.coldOpen h.beat.sb.part.toNat h.cyc with
      | some .write, some (ch, o) => s.coldPlace h.beat.sb.part.toNat ch o
      | _, _ => s).fixed = s.fixed := by split <;> simp
  unfold State.coldServe
  extract_lets p q a sel own ask key zeros s0
  have hzeros (t : State) : (zeros t).fixed = t.fixed := hz t
  have hs0 : s0.fixed = s.fixed := hp
  clear_value zeros s0 sel ask
  split
  · rfl
  split
  · simp [hzeros, hs0]
  split
  · simp [hs0]
  cases sel with
  | none => simp [hzeros, hs0]
  | bank loc => simp [hzeros, hs0]
  | slot loc idx =>
    dsimp only
    split
    · simp [hzeros, hs0]
    split
    · simp [hs0]
    split
    · simp [hzeros, hs0]
    split <;> simp [hzeros, hs0]

@[simp] theorem State.hubBeats_fixed (s : State) (e : BeatEcc) (l : List Hop) : (s.hubBeats e l).1.fixed = s.fixed := by
  simp [State.hubBeats]

@[simp] theorem execColdRequest_completes (errs : List (Nat × List (Nat × Nat))) (pecc : BeatEcc) (s : State) :
    Completes (execColdRequest errs pecc s) s := by
  simp [execColdRequest]

@[simp] theorem execColdDataReturn_completes (s : State) : Completes (execColdDataReturn s) s := by
  simp [execColdDataReturn]

@[simp] theorem execColdRefresh_completes (ch : Nat) (errs : List (Nat × Nat)) (retrain : RetrainOut) (s : State) :
    Completes (execColdRefresh ch errs retrain s) s := by
  simp [execColdRefresh]

@[simp] theorem execColdChannelCopy_completes (s : State) : Completes (execColdChannelCopy s) s := by
  unfold execColdChannelCopy
  split <;> simp

@[simp] theorem execColdSpared_completes (s : State) : Completes (execColdSpared s) s := by
  unfold execColdSpared
  split <;> simp

end Sys2Proof.Machine
end

