-- ==== Sys2Proof/Proofs/FixedLinks.lean ====
section
/-! SUPPORT. Clocks, lanes and links keep what no command may change (11, 13). -/

namespace Sys2Proof.Machine

/-! ### Machine/Clock.lean -/

@[simp] theorem State.setCore_fixed (s : State) : s.setCore.fixed = s.fixed := (rfl)

@[simp] theorem State.watermark_fixed (s : State) (key : Nat) : (s.watermark key).fixed = s.fixed := (rfl)

@[simp] theorem State.endChecks_fixed (s : State) (p : Nat) (ending : Bool) : (s.endChecks p ending).fixed = s.fixed := by
  simp [State.endChecks]

@[simp] theorem State.weightReads_fixed (s : State) : s.weightReads.fixed = s.fixed := by
  simp [State.weightReads]

@[simp] theorem State.unitSpend_fixed (s : State) : s.unitSpend.fixed = s.fixed := by
  simp [State.unitSpend]

@[simp] theorem State.lagCheck_fixed (s : State) (e : Nat × Nat) : (s.lagCheck e).fixed = s.fixed := by
  simp [State.lagCheck]

@[simp] theorem execFrameMark_completes (refCycles : Nat) (word : BitVec 128) (err8 : Int) (s : State) :
    Completes (execFrameMark refCycles word err8 s) s := by
  simp [execFrameMark]

@[simp] theorem execMissingPulse_completes (s : State) : Completes (execMissingPulse s) s := by
  simp [execMissingPulse]

@[simp] theorem execHallLost_completes (s : State) : Completes (execHallLost s) s := by
  simp [execHallLost]

@[simp] theorem execTimeRefLost_completes (s : State) : Completes (execTimeRefLost s) s := by
  simp [execTimeRefLost]

@[simp] theorem execRefChangeover_completes (s : State) : Completes (execRefChangeover s) s := by
  simp [execRefChangeover]

@[simp] theorem execGustSwitch_completes (s : State) : Completes (execGustSwitch s) s := by
  unfold execGustSwitch
  split <;> simp

@[simp] theorem execRotReadyLatch_completes (p : Nat) (s : State) : Completes (execRotReadyLatch p s) s := by
  simp [execRotReadyLatch]

/-! ### Machine/Lanes.lean -/

@[simp] theorem State.drainTx_fixed (s : State) (i : Nat) : (s.drainTx i).fixed = s.fixed := (rfl)

@[simp] theorem State.handTx_fixed (s : State) (i hold : Nat) (f : Flit) : (s.handTx i hold f).fixed = s.fixed := (rfl)

/-! ### Machine/Links.lean -/

@[simp] theorem State.strayFlit_fixed (s : State) (i : Nat) : (s.strayFlit i).fixed = s.fixed := (rfl)

@[simp] theorem State.dynSend_fixed (s : State) (p cls : Nat) (e : Option Bool) (h : DynHdr) (line : Line) (c at' : Nat) :
    (s.dynSend p cls e h line c at').1.fixed = s.fixed := by
  unfold State.dynSend
  split
  · simp
  split <;> simp

@[simp] theorem State.transmit_fixed (s : State) (i n b : Nat) (f : Flit) : (s.transmit i n b f).fixed = s.fixed := by
  unfold State.transmit
  split <;> simp

@[simp] theorem State.sendLull_fixed (s : State) (i n b : Nat) : (s.sendLull i n b).fixed = s.fixed := by
  simp [State.sendLull]

@[simp] theorem State.portBeats_fixed (s : State) (i p : Nat) (pecc : BeatEcc) : (s.portBeats i p pecc).1.fixed = s.fixed := by
  simp [State.portBeats]

@[simp] theorem State.sendPlan_fixed (s : State) (i n p : Nat) (pecc : BeatEcc) : (s.sendPlan i n p pecc).fixed = s.fixed := by
  simp [State.sendPlan]

@[simp] theorem State.noteSent_fixed (s : State) (cls : Nat) (e : Option Bool) (h : DynHdr) :
    (s.noteSent cls e h).fixed = s.fixed := by
  unfold State.noteSent
  split
  · split <;> simp
  · simp

@[simp] theorem State.launchDyn_fixed (s : State) (i n p cls : Nat) (v : Option Bool) :
    (s.launchDyn i n p cls v).fixed = s.fixed := by
  simp only [State.launchDyn]
  split <;> simp

@[simp] theorem State.sendFwd_fixed (s : State) (i n p : Nat) (x : FwdFlit) : (s.sendFwd i n p x).fixed = s.fixed := by
  simp [State.sendFwd]

@[simp] theorem State.readPortRow_fixed (s : State) (i p : Nat) (tecc : Ecc) (r : BitVec 32) :
    (s.readPortRow i p tecc r).1.fixed = s.fixed := by
  unfold State.readPortRow
  split <;> simp

@[simp] theorem State.planSlot_fixed (s : State) (i n p : Nat) (tecc : Ecc) (pecc : BeatEcc) :
    (s.planSlot i n p tecc pecc).fixed = s.fixed := by
  unfold State.planSlot
  split <;> simp

@[simp] theorem State.sendSlot_fixed (s : State) (i n : Nat) (tecc : Ecc) (pecc : BeatEcc) :
    (s.sendSlot i n tecc pecc).fixed = s.fixed := by
  unfold State.sendSlot
  split
  · split <;> simp
  · simp

@[simp] theorem execSlotTransmit_completes (i : Nat) (tecc : Ecc) (pecc : BeatEcc) (s : State) :
    Completes (execSlotTransmit i tecc pecc s) s := by
  unfold execSlotTransmit
  split <;> simp

@[simp] theorem execForwardLaunch_completes (i : Nat) (s : State) : Completes (execForwardLaunch i s) s := by
  unfold execForwardLaunch
  split
  · simp
  split
  · simp
  split <;> simp

@[simp] theorem State.quarantine_fixed (s : State) (i : Nat) : (s.quarantine i).fixed = s.fixed := (rfl)

@[simp] theorem State.portDown_fixed (s : State) (i last : Nat) : (s.portDown i last).fixed = s.fixed := (rfl)

@[simp] theorem State.linkFatal_fixed (s : State) (i code tag n lanes : Nat) :
    (s.linkFatal i code tag n lanes).fixed = s.fixed := (rfl)

@[simp] theorem State.markLane_fixed (s : State) (i k : Nat) : (s.markLane i k).fixed = s.fixed := by
  simp [State.markLane]

@[simp] theorem State.badSegment_fixed (s : State) (i k : Nat) : (s.badSegment i k).fixed = s.fixed := by
  simp [State.badSegment]

@[simp] theorem execLinkDown_completes (i : Nat) (lost : List Nat) (whole : Bool) (s : State) :
    Completes (execLinkDown i lost whole s) s := by
  simp [execLinkDown]

@[simp] theorem State.waterMarks_fixed (s : State) (i fl b tag n : Nat) : (s.waterMarks i fl b tag n).fixed = s.fixed := by
  simp [State.waterMarks]

@[simp] theorem State.hold_fixed (s : State) (i n b back : Nat) (fl : Flit) : (s.hold i n b back fl).fixed = s.fixed := by
  simp [State.hold]

@[simp] theorem execFlitReceive_completes (i : Nat) (segs : List Seg) (flight8 : Nat) (s : State) :
    Completes (execFlitReceive i segs flight8 s) s := by
  unfold execFlitReceive
  extract_lets +onlyGivenNames x seg bad s0 s1 mask
  have h1 : s1.fixed = s.fixed := by simp [s1, s0]
  clear_value s1
  split
  · simp
  split
  · simp [h1]
  extract_lets +onlyGivenNames tag chk n typ
  split
  · simp [h1]
  split
  · simp [h1]
  split
  · simp [h1]
  split
  · simp [h1]
  extract_lets b pays s2 s3 s4
  split
  · simp [h1]
  have h3 : s3.fixed = s.fixed := by simp [s3, s2, h1]
  have h4 : s4.fixed = s.fixed := by
    unfold s4
    split
    · exact h3
    · simp [h3]
  clear_value s3 s4
  split <;> simp [h3, h4]

@[simp] theorem State.present_fixed (s : State) (i p : Nat) (f : Flit) : (s.present i p f).fixed = s.fixed := (rfl)

@[simp] theorem State.routeFault_fixed (s : State) (i p code : Nat) (f : RxFlit) : (s.routeFault i p code f).fixed = s.fixed := (rfl)

@[simp] theorem State.dynArrive_fixed (s : State) (i p : Nat) (f : Flit) : (s.dynArrive i p f).fixed = s.fixed := by
  simp [State.dynArrive]

@[simp] theorem State.forward_fixed (s : State) (i mask : Nat) (f : RxFlit) : (s.forward i mask f).fixed = s.fixed := by
  simp [State.forward]

@[simp] theorem State.deliverIn_fixed (s : State) (i p : Nat) (tecc : Ecc) (f : RxFlit) :
    (s.deliverIn i p tecc f).fixed = s.fixed := by
  unfold State.deliverIn
  dsimp only
  split
  · simp
  split <;> simp

@[simp] theorem execFlitDeliver_completes (i : Nat) (tecc : Ecc) (s : State) : Completes (execFlitDeliver i tecc s) s := by
  unfold execFlitDeliver
  split
  · simp
  dsimp only
  split
  · simp
  split
  · simp
  split
  · split <;> simp
  · simp

@[simp] theorem execSpareDualSend_completes (i : Nat) (s : State) : Completes (execSpareDualSend i s) s := by
  simp only [execSpareDualSend]
  split <;> simp

@[simp] theorem execLaneSpared_completes (i : Nat) (s : State) : Completes (execLaneSpared i s) s := by
  simp [execLaneSpared]

@[simp] theorem execSpareOkRestore_completes (i : Nat) (s : State) : Completes (execSpareOkRestore i s) s := by
  simp [execSpareOkRestore]

@[simp] theorem execSpareLaneSegment_completes (i : Nat) (sg : Seg) (s : State) : Completes (execSpareLaneSegment i sg s) s := by
  simp [execSpareLaneSegment]

@[simp] theorem State.calPort_fixed (s : State) (i : Nat) : (s.calPort i).fixed = s.fixed := (rfl)

@[simp] theorem execPortTraining_completes (i : Nat) (r : TrainOut) (s : State) : Completes (execPortTraining i r s) s := by
  simp [execPortTraining]

@[simp] theorem State.budgetCheck_fixed (s : State) (i : Nat) : (s.budgetCheck i).fixed = s.fixed := by
  unfold State.budgetCheck
  refine foldl_fixed _ (fun t p => ?_) _ _
  dsimp only
  split <;> simp

@[simp] theorem execFastRetrain_completes (i : Nat) (r : TrainOut) (s : State) : Completes (execFastRetrain i r s) s := by
  simp [execFastRetrain]

@[simp] theorem execControlFlitTx_completes (i : Nat) (s : State) : Completes (execControlFlitTx i s) s := by
  simp [execControlFlitTx]

@[simp] theorem State.takeVote_fixed (s : State) (i f : Nat) (c : CtlFlit) : (s.takeVote i f c).fixed = s.fixed := (rfl)

@[simp] theorem State.takeRot_fixed (s : State) (i f : Nat) (c : CtlFlit) : (s.takeRot i f c).fixed = s.fixed := by
  unfold State.takeRot
  refine foldl_fixed _ (fun t p => ?_) _ _
  dsimp only
  split <;> simp

@[simp] theorem State.takeCommit_fixed (s : State) (i back : Nat) (c : CtlFlit) : (s.takeCommit i back c).fixed = s.fixed := by
  unfold State.takeCommit
  refine foldl_fixed _ (fun t p => ?_) _ _
  dsimp only
  split <;> simp

@[simp] theorem State.takeMarks_fixed (s : State) (c : CtlFlit) : (s.takeMarks c).fixed = s.fixed := (rfl)

@[simp] theorem execControlFlitRx_completes (i : Nat) (s : State) : Completes (execControlFlitRx i s) s := by
  simp only [execControlFlitRx]
  split <;> simp

@[simp] theorem execTwinHeartbeatLost_completes (s : State) : Completes (execTwinHeartbeatLost s) s := by
  simp [execTwinHeartbeatLost]

end Sys2Proof.Machine
end

