-- ==== Sys2Proof/Proofs/FixedServing.lean ====
section
/-! SUPPORT. Landing records, slots, parking, dynamic transfers and the twin keep what no command may change (10, 12). -/

namespace Sys2Proof.Machine

/-! ### Machine/Serving.lean -/

@[simp] theorem State.putLine_fixed (s : State) (tier : Tier) (loc : LeaseLoc) (l : Nat) (x : SLine) :
    (s.putLine tier loc l x).fixed = s.fixed := by
  unfold State.putLine
  split <;> simp

@[simp] theorem State.putPart_fixed (s : State) (p : Nat) (tier : Tier) (setB : Bool) (a : Nat) (d : Line) :
    (s.putPart p tier setB a d).fixed = s.fixed := by
  unfold State.putPart
  split <;> simp

@[simp] theorem State.putOwn_fixed (s : State) (p : Nat) (tier : Tier) (a : Nat) (d : Line) :
    (s.putOwn p tier a d).fixed = s.fixed := by
  simp [State.putOwn]

@[simp] theorem State.putLines_fixed (s : State) (p : Nat) (tier : Tier) (a : Nat) (l : List Line) :
    (s.putLines p tier a l).fixed = s.fixed := by
  induction l generalizing s a with
  | nil => rfl
  | cons d l ih => rw [State.putLines, ih, State.putOwn_fixed]

@[simp] theorem State.commit_fixed (s : State) (p : Nat) : (s.commit p).fixed = s.fixed := (rfl)

@[simp] theorem execCompletionFlagSet_completes (p seq : Nat) (s : State) : Completes (execCompletionFlagSet p seq s) s := by
  unfold execCompletionFlagSet
  split <;> simp

@[simp] theorem execCompletionFlagVisible_completes (p seq : Nat) (s : State) :
    Completes (execCompletionFlagVisible p seq s) s := by
  unfold execCompletionFlagVisible
  split
  · simp
  split <;> simp

@[simp] theorem execWindowEngineSchedule_completes (p : Nat) (s : State) : Completes (execWindowEngineSchedule p s) s := by
  unfold execWindowEngineSchedule
  dsimp only
  split
  · simp
  simp only [completes_ite, completes_ok]
  rw [foldl_fixed _ (fun t x => by split <;> simp)]
  simp

@[simp] theorem State.resultTo_fixed (s : State) (fn k p bytes : Nat) (res : StepResult) :
    (s.resultTo fn k p bytes res).1.fixed = s.fixed := by
  simp only [State.resultTo]
  split <;> simp

@[simp] theorem State.postResult_fixed (s : State) (p : Nat) (x : Bool × StepResult) : (s.postResult p x).1.fixed = s.fixed := by
  unfold State.postResult
  split <;> simp

@[simp] theorem State.placeResult_fixed (s : State) (p : Nat) (r : StepResult) : (s.placeResult p r).fixed = s.fixed := by
  simp [State.placeResult]

@[simp] theorem execStepResultPost_completes (p : Nat) (s : State) : Completes (execStepResultPost p s) s := by
  unfold execStepResultPost
  split
  · simp
  · split <;> simp

@[simp] theorem execParkCopy_completes (p entry : Nat) (s : State) : Completes (execParkCopy p entry s) s := by
  simp [execParkCopy]

@[simp] theorem execParked_completes (p entry : Nat) (s : State) : Completes (execParked p entry s) s := by
  simp [execParked]

@[simp] theorem State.releaseTwin_fixed (s : State) (p entry : Nat) : (s.releaseTwin p entry).fixed = s.fixed := (rfl)

@[simp] theorem execParkExpiryCheck_completes (s : State) : Completes (execParkExpiryCheck s) s := by
  simp [execParkExpiryCheck]

@[simp] theorem State.zeroPark_fixed (s : State) (p : Nat) (x : Park) : (s.zeroPark p x).fixed = s.fixed := by
  simp [State.zeroPark]

@[simp] theorem execExpired_completes (p entry : Nat) (s : State) : Completes (execExpired p entry s) s := by
  simp [execExpired]

@[simp] theorem execResumeCopyDone_completes (p entry : Nat) (s : State) : Completes (execResumeCopyDone p entry s) s := by
  simp [execResumeCopyDone]

/-! ### Machine/Fabric.lean -/

@[simp] theorem State.setXfer_fixed (s : State) (k : Nat) (x : Option Xfer) : (s.setXfer k x).fixed = s.fixed := (rfl)

@[simp] theorem State.putStandby_fixed (s : State) (p : Nat) (tier : Tier) (a : Nat) (d : Line) :
    (s.putStandby p tier a d).fixed = s.fixed := by
  simp [State.putStandby]

@[simp] theorem State.pump_fixed (s : State) (o : Outgo) (fuel : Nat) : (s.pump o fuel).1.fixed = s.fixed := by
  induction fuel generalizing s o with
  | zero => rfl
  | succ fuel ih =>
    unfold State.pump
    split
    · rfl
    extract_lets h full line
    split
    · rfl
    simp only [ih]
    split <;> simp

@[simp] theorem State.pumpAll_fixed (s : State) : s.pumpAll.fixed = s.fixed := by
  simp [State.pumpAll]

@[simp] theorem State.attempt_fixed (s : State) (k : Nat) (x : Xfer) (g : Nat) : (s.attempt k x g).fixed = s.fixed := (rfl)

@[simp] theorem State.again_fixed (s : State) (k : Nat) (x : Xfer) : (s.again k x).fixed = s.fixed := (rfl)

@[simp] theorem State.settleXfers_fixed (s : State) (sk fuel : Nat) : (s.settleXfers sk fuel).fixed = s.fixed := by
  induction fuel generalizing s with
  | zero => rfl
  | succ fuel ih =>
    unfold State.settleXfers
    dsimp only
    split
    · rfl
    split <;> simp [ih]

@[simp] theorem State.finish_fixed (s : State) (k : Nat) (x : Xfer) (st : Nat) : (s.finish k x st).fixed = s.fixed := by
  simp [State.finish]

@[simp] theorem execDynTimeout_completes (ch tag : Nat) (s : State) : Completes (execDynTimeout ch tag s) s := by
  simp only [execDynTimeout]
  split <;> simp

@[simp] theorem execQuarantineResend_completes (ch tag : Nat) (s : State) : Completes (execQuarantineResend ch tag s) s := by
  unfold execQuarantineResend
  dsimp only
  split
  · simp
  split <;> simp

@[simp] theorem State.lateDrop_fixed (s : State) : s.lateDrop.fixed = s.fixed := (rfl)

@[simp] theorem State.takeDyn_fixed (s : State) (cls : Nat) : (s.takeDyn cls).1.fixed = s.fixed := (rfl)

@[simp] theorem State.response_fixed (s : State) (h : DynHdr) (line : Line) : (s.response h line).fixed = s.fixed := by
  simp only [State.response]
  split <;> simp

@[simp] theorem execDynResponseRx_completes (s : State) : Completes (execDynResponseRx s) s := by
  unfold execDynResponseRx
  split
  · rename_i t i d ht
    simpa [ht] using State.takeDyn_fixed s 3
  · simp

@[simp] theorem execDynForward_completes (i : Nat) (s : State) : Completes (execDynForward i s) s := by
  unfold execDynForward
  split <;> simp

@[simp] theorem State.answer_fixed (s : State) (h : DynHdr) (st n : Nat) : (s.answer h st n).fixed = s.fixed := (rfl)

@[simp] theorem State.execute_fixed (s : State) (h : DynHdr) (n : Nat) (pieces : SMap Line) :
    (s.execute h n pieces).1.fixed = s.fixed := by
  unfold State.execute
  split <;> simp

@[simp] theorem State.drainDup_fixed (s : State) (k : Nat) (hs : List (Nat × DynHdr)) (fuel : Nat) :
    (s.drainDup k hs fuel).fixed = s.fixed := by
  induction fuel generalizing s with
  | zero => rfl
  | succ fuel ih =>
    unfold State.drainDup
    split
    · rfl
    split
    · rfl
    split <;> simp [ih]

theorem State.dupEntry_fixed {s t : State} {k seq : Nat} {e : DupEntry} (h : s.dupEntry k seq = some (t, e)) : t.fixed = s.fixed := by
  unfold State.dupEntry at h
  split at h
  · cases h; rfl
  split at h
  · cases h; rfl
  dsimp only at h
  split at h
  · split at h
    · cases h; rfl
    · cases h
  · cases h

@[simp] theorem State.request_fixed (s : State) (i : Nat) (h : DynHdr) (line : Line) : (s.request i h line).fixed = s.fixed := by
  unfold State.request
  dsimp only
  split
  · simp
  · rename_i t e he
    have ht := State.dupEntry_fixed he
    split <;> simp [ht]

@[simp] theorem execDynRequestRx_completes (s : State) : Completes (execDynRequestRx s) s := by
  unfold execDynRequestRx
  split
  · rename_i t i d ht
    simpa [ht] using State.takeDyn_fixed s 2
  · simp

@[simp] theorem execShadowFlitRx_completes (s : State) : Completes (execShadowFlitRx s) s := by
  unfold execShadowFlitRx
  dsimp only
  split
  · simp
  split <;> simp

@[simp] theorem execTwinMapTransfer_completes (q : Nat) (m : TwinMap) (s : State) : Completes (execTwinMapTransfer q m s) s := by
  simp [execTwinMapTransfer]

@[simp] theorem execTwinParkCopy_completes (q entry : Nat) (s : State) : Completes (execTwinParkCopy q entry s) s := by
  unfold execTwinParkCopy
  split <;> simp

@[simp] theorem execTwinRelease_completes (q entry : Nat) (s : State) : Completes (execTwinRelease q entry s) s := by
  simp [execTwinRelease]

@[simp] theorem execTwinShadowServe_completes (q : Nat) (rq : ShadowReq) (s : State) :
    Completes (execTwinShadowServe q rq s) s := by
  simp [execTwinShadowServe]

@[simp] theorem execPairKeyExchange_completes (chainOk : Bool) (s : State) : Completes (execPairKeyExchange chainOk s) s := by
  simp [execPairKeyExchange]

end Sys2Proof.Machine
end

