-- ==== Sys2Proof/Proofs/FixedPlan.lean ====
section
/-! SUPPORT. Power, boundaries and the loading of plans keep what no command may change (02, 15, 18). -/

namespace Sys2Proof.Machine

/-! ### Machine/Power.lean -/

@[simp] theorem State.clearCtrs_fixed (s : State) (d : Nat) : (s.clearCtrs d).fixed = s.fixed := (rfl)

@[simp] theorem State.loseDom_fixed (s : State) (d : Nat) : (s.loseDom d).fixed = s.fixed := by
  simp [State.loseDom]

@[simp] theorem State.domDown_fixed (s : State) (d : Nat) : (s.domDown d).fixed = s.fixed := by
  simp [State.domDown]

@[simp] theorem State.fillSlots_fixed (s : State) (p : Nat) : (s.fillSlots p).fixed = s.fixed := by
  simp [State.fillSlots]

@[simp] theorem State.domUp_fixed (s : State) (d : Nat) : (s.domUp d).fixed = s.fixed := by
  simp [State.domUp]

@[simp] theorem State.domsDown_fixed (s : State) (l : List Nat) : (s.domsDown l).fixed = s.fixed := by
  simp [State.domsDown]

@[simp] theorem State.hubAct_fixed (s : State) : s.hubAct.fixed = s.fixed := (rfl)

@[simp] theorem execDomainSwitch_completes (d : Nat) (on : Bool) (s : State) : Completes (execDomainSwitch d on s) s := by
  simp [execDomainSwitch]

@[simp] theorem State.tripDoms_fixed (s : State) : s.tripDoms.fixed = s.fixed := by
  simp [State.tripDoms]

@[simp] theorem State.charge_fixed (s : State) (k p : Nat) : (s.charge k p).fixed = s.fixed := by
  simp [State.charge]

@[simp] theorem execWindbreakEstimate_completes (s : State) : Completes (execWindbreakEstimate s) s := by
  simp [execWindbreakEstimate]

@[simp] theorem execOverpower_completes (s : State) : Completes (execOverpower s) s := by
  simp [execOverpower]

@[simp] theorem execThermalSensorRead_completes (g : SensorGroup) (idx : Nat) (tempC : Int) (s : State) :
    Completes (execThermalSensorRead g idx tempC s) s := by
  unfold execThermalSensorRead
  split
  · simp
  · dsimp only
    cases g <;> simp

@[simp] theorem execThermalStageStep_completes (s : State) : Completes (execThermalStageStep s) s := by
  simp [execThermalStageStep]

@[simp] theorem execCoolantLost_completes (r : CoolantOut) (s : State) : Completes (execCoolantLost r s) s := by
  simp [execCoolantLost]

@[simp] theorem State.convCheck_fixed (s : State) (i : Nat) : (s.convCheck i).fixed = s.fixed := by
  simp [State.convCheck]

@[simp] theorem execConverterFailure_completes (i : Nat) (s : State) : Completes (execConverterFailure i s) s := by
  simp [execConverterFailure]

@[simp] theorem execPhaseFailure_completes (rail : Nat) (s : State) : Completes (execPhaseFailure rail s) s := by
  simp [execPhaseFailure]

@[simp] theorem execRailFault_completes (rail mV : Nat) (s : State) : Completes (execRailFault rail mV s) s := by
  simp [execRailFault]

@[simp] theorem State.setBus_fixed (s : State) (mV : Nat) : (s.setBus mV).fixed = s.fixed := (rfl)

@[simp] theorem execSupplyUv_completes (mV : Nat) (s : State) : Completes (execSupplyUv mV s) s := by
  simp [execSupplyUv]

@[simp] theorem execSupplyOv_completes (mV : Nat) (s : State) : Completes (execSupplyOv mV s) s := by
  simp [execSupplyOv]

@[simp] theorem State.allOff_fixed (s : State) : s.allOff.fixed = s.fixed := by
  simp [State.allOff]

@[simp] theorem execInputLockout_completes (mV : Nat) (s : State) : Completes (execInputLockout mV s) s := by
  simp [execInputLockout]

@[simp] theorem execClipDetOpen_completes (s : State) : Completes (execClipDetOpen s) s := by
  simp [execClipDetOpen]

/-! ### Machine/Plan.lean -/

@[simp] theorem State.record_fixed (s : State) (since : Nat) (r : Raise) : (s.record since r).fixed = s.fixed := by
  simp [State.record]

@[simp] theorem State.recordAll_fixed (s : State) (l : List Raise) : (s.recordAll l).fixed = s.fixed := by
  simp [State.recordAll]

@[simp] theorem State.quietPart_fixed (s : State) (p : Nat) : (s.quietPart p).fixed = s.fixed := (rfl)

@[simp] theorem State.fencePart_fixed (s : State) (p : Nat) (f : Bool × Nat) (tail : Bool) :
    (s.fencePart p f tail).fixed = s.fixed := by
  simp [State.fencePart]

@[simp] theorem State.fence_fixed (s : State) (l : List Raise) : (s.fence l).fixed = s.fixed := by
  unfold State.fence
  refine foldl_fixed _ (fun t p => ?_) _ _
  split <;> simp

@[simp] theorem State.voteFrame_fixed (s : State) : s.voteFrame.fixed = s.fixed := by
  unfold State.voteFrame
  split
  split <;> simp

@[simp] theorem State.divide_fixed (s : State) : s.divide.fixed = s.fixed := (rfl)

@[simp] theorem State.portsFrame_fixed (s : State) : s.portsFrame.fixed = s.fixed := by
  unfold State.portsFrame
  refine foldl_fixed _ (fun t i => ?_) _ _
  dsimp only
  split <;> simp

@[simp] theorem execFrameBoundary_completes (s : State) : Completes (execFrameBoundary s) s := by
  simp [execFrameBoundary]

@[simp] theorem State.resetBarrows_fixed (s : State) (p : Nat) : (s.resetBarrows p).fixed = s.fixed := by
  simp [State.resetBarrows]

@[simp] theorem State.switchBank_fixed (s : State) (p : Nat) : (s.switchBank p).fixed = s.fixed := by
  simp only [State.switchBank]
  split <;> simp

@[simp] theorem State.switchAt_fixed (s : State) (p i : Nat) (record : Bool) : (s.switchAt p i record).fixed = s.fixed := by
  simp [State.switchAt]

@[simp] theorem State.clearMerge_fixed (s : State) (p : Nat) : (s.clearMerge p).fixed = s.fixed := (rfl)

@[simp] theorem State.beginStep_fixed (s : State) (p : Nat) : (s.beginStep p).fixed = s.fixed := by
  simp [State.beginStep]

@[simp] theorem execStepBoundary_completes (p : Nat) (s : State) : Completes (execStepBoundary p s) s := by
  unfold execStepBoundary
  dsimp only
  split
  · simp
  split <;> simp

@[simp] theorem execBodyBoundary_completes (p : Nat) (s : State) : Completes (execBodyBoundary p s) s := by
  simp [execBodyBoundary]

@[simp] theorem execEpochBoundary_completes (p : Nat) (s : State) : Completes (execEpochBoundary p s) s := by
  simp only [execEpochBoundary]
  split <;> simp

@[simp] theorem execJobZero_completes (s : State) : Completes (execJobZero s) s := by
  unfold execJobZero
  split
  · simp
  refine (completes_ok ..).2 (foldl_fixed _ (fun t p => ?_) _ _)
  dsimp only
  split <;> simp

@[simp] theorem State.retireCells_fixed (s : State) : s.retireCells.fixed = s.fixed := by
  simp [State.retireCells]

@[simp] theorem State.tailChecks_fixed (s : State) (p : Nat) : (s.tailChecks p).fixed = s.fixed := by
  simp [State.tailChecks]

@[simp] theorem execSequencerEntry_completes (lags : List (Nat × Nat)) (s : State) : Completes (execSequencerEntry lags s) s := by
  simp [execSequencerEntry]

/-! ### Machine/Place.lean -/

@[simp] theorem State.place_fixed (s : State) (p : Nat) (valid : Bool → Nat → Nat → Bool) : (s.place p valid).fixed = s.fixed := by
  simp [State.place]

@[simp] theorem State.unplace_fixed (s : State) (p : Nat) : (s.unplace p).fixed = s.fixed := by
  simp [State.unplace]

/-! ### Machine/Load.lean -/

@[simp] theorem State.sendMap_fixed (s : State) (p : Nat) (fresh : Bool) : (s.sendMap p fresh).fixed = s.fixed := by
  simp [State.sendMap]

@[simp] theorem State.clearBudget_fixed (s : State) (p : Nat) : (s.clearBudget p).fixed = s.fixed := (rfl)

@[simp] theorem State.withRole_fixed (s : State) (p : Nat) : (s.withRole p).fixed = s.fixed := (rfl)

@[simp] theorem State.install_fixed (s : State) (p : Nat) (img : PlanImage) (x : Nat) (fresh : Bool) :
    (s.install p img x fresh).fixed = s.fixed := by
  simp [State.install]

@[simp] theorem State.untrip_fixed (s : State) (p : Nat) : (s.untrip p).fixed = s.fixed := by
  simp [State.untrip]

@[simp] theorem State.reinstall_fixed (s : State) (p x : Nat) (graft : BitVec 16) : (s.reinstall p x graft).fixed = s.fixed := by
  simp [State.reinstall]

@[simp] theorem State.restage_fixed (s : State) (p : Nat) (graft : BitVec 16) : (s.restage p graft).1.fixed = s.fixed := by
  unfold State.restage
  split <;> simp

@[simp] theorem State.unload_fixed (s : State) (p : Nat) : (s.unload p).fixed = s.fixed := by
  simp [State.unload]

end Sys2Proof.Machine
end

