-- ==== Sys2Proof/Proofs/FixedHost.lean ====
section
/-! SUPPORT. Host commands keep what no command may change: acceptance, sessions, keys, bundles, plans, fabric (09, 12, 16, 17). -/

namespace Sys2Proof.Machine

/-! ### Machine/Host.lean -/

@[simp] theorem State.begin_fixed (s : State) (h : Hdr) (op : Nat) : (s.begin h op).fixed = s.fixed := by
  simp [State.begin]

@[simp] theorem State.endSession_fixed (s : State) (sid : Nat) : (s.endSession sid).fixed = s.fixed := by
  unfold State.endSession
  split <;> simp

@[simp] theorem State.badTag_fixed (s : State) (sid : Nat) : (s.badTag sid).fixed = s.fixed := by
  simp only [State.badTag]
  split <;> simp

@[simp] theorem State.accepts_fixed (s : State) (h : Hdr) (op : Nat) (absent enc : Bool) :
    (s.accepts h op absent enc).1.fixed = s.fixed := by
  unfold State.accepts
  dsimp only
  split
  · simp
  split <;> simp

theorem State.command_completes (s : State) (h : Hdr) (op : Nat) (absent enc : Bool) (body : State → Did)
    (hb : ∀ t, (body t).1.fixed = t.fixed) : Completes (s.command h op absent enc body) s := by
  have ha := State.accepts_fixed (s.begin h op) h op absent enc
  unfold State.command
  split
  · simp
  split
  next t _ ht =>
    rw [ht] at ha
    simpa using ha
  next t ht =>
    have hd := hb t
    rw [ht] at ha
    split <;> rename_i hu <;> rw [hu] at hd <;> simpa [hd] using ha

theorem State.onPartition_completes (s : State) (h : Hdr) (op : Nat) (absent enc : Bool) (body : State → Did)
    (hb : ∀ t, (body t).1.fixed = t.fixed) : Completes (s.onPartition h op absent enc body) s :=
  State.command_completes _ _ _ _ _ _ (by simp [hb])

@[simp] theorem execSessionTimeout_completes (sid : Nat) (s : State) : Completes (execSessionTimeout sid s) s := by
  unfold execSessionTimeout
  split <;> simp

@[simp] theorem execProveWindowExpiry_completes (sid : Nat) (s : State) : Completes (execProveWindowExpiry sid s) s := by
  unfold execProveWindowExpiry
  split <;> simp

@[simp] theorem execPassLockExpiry_completes (s : State) : Completes (execPassLockExpiry s) s := by
  simp [execPassLockExpiry]

@[simp] theorem execDoorbellWrite_completes (fn k q : Nat) (v : Word) (s : State) :
    Completes (execDoorbellWrite fn k q v s) s := by
  simp [execDoorbellWrite]

@[simp] theorem execRingEnable_completes (fn k q : Nat) (s : State) : Completes (execRingEnable fn k q s) s := by
  simp [execRingEnable]

@[simp] theorem State.ringOff_fixed (s : State) (fn k q : Nat) : (s.ringOff fn k q).fixed = s.fixed := by
  simp [State.ringOff]

@[simp] theorem execRingDisable_completes (fn k q : Nat) (s : State) : Completes (execRingDisable fn k q s) s := by
  simp [execRingDisable]

@[simp] theorem State.unassigned_fixed (s : State) (h : Hdr) (op : Nat) : (s.unassigned h op).fixed = s.fixed := by
  unfold State.unassigned
  split <;> simp

@[simp] theorem execSubmissionFetch_completes (h : Hdr) (opcode : Nat) (s : State) :
    Completes (execSubmissionFetch h opcode s) s := by
  simp [execSubmissionFetch]

@[simp] theorem execMgmtDatagram_completes (h : Hdr) (opcode : Nat) (s : State) : Completes (execMgmtDatagram h opcode s) s := by
  simp [execMgmtDatagram]

@[simp] theorem State.writeRing_fixed (s : State) (fn k q reg : Nat) (v : Word) : (s.writeRing fn k q reg v).fixed = s.fixed := by
  unfold State.writeRing
  split <;> simp

@[simp] theorem State.writePf0_fixed (s : State) (off : Nat) (v : Word) : (s.writePf0 off v).fixed = s.fixed := by
  simp [State.writePf0]

@[simp] theorem State.writeMsix_fixed (s : State) (fn i : Nat) (v : Word) : (s.writeMsix fn i v).fixed = s.fixed := by
  simp [State.writeMsix]

@[simp] theorem execRegisterWrite_completes (fn off : Nat) (v : Word) (s : State) :
    Completes (execRegisterWrite fn off v s) s := by
  simp [execRegisterWrite]

@[simp] theorem execPortWmRestart_completes (i : Nat) (s : State) : Completes (execPortWmRestart i s) s := by
  simp [execPortWmRestart]

@[simp] theorem execIslandLagRestart_completes (i : Nat) (s : State) : Completes (execIslandLagRestart i s) s := by
  simp [execIslandLagRestart]

@[simp] theorem execPwrPeakRestart_completes (s : State) : Completes (execPwrPeakRestart s) s := by
  simp [execPwrPeakRestart]

@[simp] theorem execCounterSelect_completes (v : Word) (s : State) : Completes (execCounterSelect v s) s := by
  simp [execCounterSelect]

@[simp] theorem execCounterSample_completes (s : State) : Completes (execCounterSample s) s := by
  unfold execCounterSample
  split <;> simp

@[simp] theorem State.cutDma_fixed (s : State) (h : Hdr) (op : Nat) : (s.cutDma h op).fixed = s.fixed := by
  unfold State.cutDma
  dsimp only
  split
  · simp
  · simp
  · simp
  · split
    · split <;> simp
    · rfl

@[simp] theorem execHostLinkReset_completes (link : Nat) (fns : List Nat) (s : State) :
    Completes (execHostLinkReset link fns s) s := by
  simp [execHostLinkReset]

@[simp] theorem execIdeKeyChange_completes (link stream : Nat) (s : State) : Completes (execIdeKeyChange link stream s) s := by
  simp [execIdeKeyChange]

@[simp] theorem execPerstNRelease_completes (n : Nat) (s : State) : Completes (execPerstNRelease n s) s := by
  simp [execPerstNRelease]

/-! ### Machine/Secure.lean -/

@[simp] theorem State.failOpen_fixed (s : State) (h : Hdr) (op st : Nat) : (s.failOpen h op st).fixed = s.fixed := by
  simp [State.failOpen]

theorem State.openCommand_completes (s : State) (h : Hdr) (op sid : Nat) (enc : Bool) (body : State → Did)
    (hb : ∀ t, (body t).1.fixed = t.fixed) : Completes (s.openCommand h op sid enc body) s := by
  have ha := State.accepts_fixed (s.begin h op) h op false enc
  unfold State.openCommand
  split
  · simp
  split
  next t _ ht =>
    rw [ht] at ha
    simpa using ha
  next t ht =>
    have hd := hb t
    rw [ht] at ha
    split <;> rename_i hu <;> rw [hu] at hd <;> simpa [hd] using ha

@[simp] theorem execSessionOpen_completes (h : Hdr) (role : Nat) (kh : Hash) (s : State) :
    Completes (execSessionOpen h role kh s) s :=
  State.openCommand_completes _ _ _ _ _ _ (by simp)

@[simp] theorem State.freeUnproved_fixed (s : State) (sid : Nat) : (s.freeUnproved sid).fixed = s.fixed := by
  unfold State.freeUnproved
  split <;> simp

@[simp] theorem State.opened_fixed (s : State) (sid : Nat) (x : Session) : (s.opened sid x).fixed = s.fixed := by
  simp [State.opened]

@[simp] theorem execSessionProve_completes (h : Hdr) (sid : Nat) (pf : ProveIn) (s : State) :
    Completes (execSessionProve h sid pf s) s := by
  refine State.openCommand_completes _ _ _ _ _ _ (fun t => ?_)
  split
  · simp
  split <;> simp

@[simp] theorem execPassOpen_completes (h : Hdr) (s : State) : Completes (execPassOpen h s) s :=
  State.openCommand_completes _ _ _ _ _ _ (by simp)

@[simp] theorem execPassProve_completes (h : Hdr) (sid : Nat) (pf : ProveIn) (s : State) :
    Completes (execPassProve h sid pf s) s := by
  refine State.openCommand_completes _ _ _ _ _ _ (fun t => ?_)
  split
  · simp
  split <;> simp

@[simp] theorem execSessionClose_completes (h : Hdr) (s : State) : Completes (execSessionClose h s) s := by
  have ha := State.accepts_fixed (s.begin h 0x0105) h 0x0105 false true
  unfold execSessionClose
  split
  · simp
  split <;> rename_i he <;> rw [he] at ha <;> simpa using ha

@[simp] theorem execIdentityRead_completes (h : Hdr) (s : State) : Completes (execIdentityRead h s) s :=
  State.command_completes _ _ _ _ _ _ (by simp)

@[simp] theorem execAttest_completes (h : Hdr) (nonce : Hash) (s : State) : Completes (execAttest h nonce s) s :=
  State.onPartition_completes _ _ _ _ _ _ (by simp)

@[simp] theorem execAuditRead_completes (h : Hdr) (sel first count : Nat) (s : State) :
    Completes (execAuditRead h sel first count s) s := by
  refine State.command_completes _ _ _ _ _ _ (fun t => ?_)
  split
  · simp
  split <;> simp

@[simp] theorem State.dropKeySessions_fixed (s : State) (r : Role) (kh : Hash) : (s.dropKeySessions r kh).fixed = s.fixed := by
  unfold State.dropKeySessions
  refine foldl_fixed _ (fun t e => ?_) _ _
  split <;> simp

@[simp] theorem execRoleKeySet_completes (h : Hdr) (table entry : Nat) (kh : Hash) (parts : List Nat) (s : State) :
    Completes (execRoleKeySet h table entry kh parts s) s :=
  State.command_completes _ _ _ _ _ _ (by simp)

@[simp] theorem execPassphraseSet_completes (h : Hdr) (pass : List Nat) (s : State) :
    Completes (execPassphraseSet h pass s) s :=
  State.command_completes _ _ _ _ _ _ (by simp)

@[simp] theorem execTenantBind_completes (h : Hdr) (entry : Nat) (kh : Hash) (s : State) :
    Completes (execTenantBind h entry kh s) s :=
  State.onPartition_completes _ _ _ _ _ _ (by simp)

@[simp] theorem execTenantUnbind_completes (h : Hdr) (entry : Nat) (kh : Hash) (s : State) :
    Completes (execTenantUnbind h entry kh s) s :=
  State.onPartition_completes _ _ _ _ _ _ (by simp)

@[simp] theorem State.newKeys_fixed (s : State) (p : Nat) : (s.newKeys p).fixed = s.fixed := by
  simp [State.newKeys]

@[simp] theorem State.zeroBlock_fixed (s : State) (b : Nat) : (s.zeroBlock b).fixed = s.fixed := (rfl)

@[simp] theorem execKeyRotate_completes (h : Hdr) (s : State) : Completes (execKeyRotate h s) s :=
  State.onPartition_completes _ _ _ _ _ _ (by simp)

@[simp] theorem State.zeroiseAll_fixed (s : State) : s.zeroiseAll.fixed = s.fixed := by
  simp [State.zeroiseAll]

@[simp] theorem execZeroiseAll_completes (h : Hdr) (s : State) : Completes (execZeroiseAll h s) s :=
  State.command_completes _ _ _ _ _ _ (by simp)

@[simp] theorem State.dropKeys_fixed (s : State) : s.dropKeys.fixed = s.fixed := (rfl)

@[simp] theorem execDebugUnlock_completes (h : Hdr) (tokenOk : Bool) (s : State) : Completes (execDebugUnlock h tokenOk s) s := by
  refine State.command_completes _ _ _ _ _ _ (fun t => ?_)
  split
  · rfl
  split
  · rfl
  have hz : t.zeroiseAll.dropKeys.fixed = t.fixed := by simp
  generalize t.zeroiseAll.dropKeys = u at hz
  simp only [okWith_fixed, State.auditAdd_fixed]
  simpa only [State.fixed] using hz

@[simp] theorem execTwinPair_completes (h : Hdr) (serial : Option Nat) (s : State) : Completes (execTwinPair h serial s) s :=
  State.command_completes _ _ _ _ _ _ (by simp)

@[simp] theorem execProvision_completes (h : Hdr) (certs : List Nat) (kh : Hash) (s : State) :
    Completes (execProvision h certs kh s) s :=
  State.command_completes _ _ _ _ _ _ (by simp)

@[simp] theorem State.layout_fixed (s : State) (p : Nat) (d : PartDef) : (s.layout p d).fixed = s.fixed := by
  simp [State.layout]

@[simp] theorem execPartCreate_completes (h : Hdr) (d : PartDef) (s : State) : Completes (execPartCreate h d s) s :=
  State.command_completes _ _ _ _ _ _ (by simp)

@[simp] theorem execPartResize_completes (h : Hdr) (d : PartDef) (s : State) : Completes (execPartResize h d s) s :=
  State.onPartition_completes _ _ _ _ _ _ (by simp)

@[simp] theorem execPartDestroy_completes (h : Hdr) (s : State) : Completes (execPartDestroy h s) s :=
  State.onPartition_completes _ _ _ _ _ _ (by simp)

@[simp] theorem execPartStatus_completes (h : Hdr) (s : State) : Completes (execPartStatus h s) s :=
  State.onPartition_completes _ _ _ _ _ _ (by simp)

/-! ### Machine/Bundles.lean -/

@[simp] theorem State.startBundle_fixed (s : State) (p : Nat) (b : BLoad) : (s.startBundle p b).fixed = s.fixed := by
  simp [State.startBundle]

/-! ### Machine/HostPlan.lean -/

theorem State.land_fixed {s t : State} {p kind arg : Nat} {slot : Option Nat} {lines : List Line} {h : Hdr}
    (ht : s.land p kind slot arg lines h = some t) : t.fixed = s.fixed := by
  unfold State.land at ht
  dsimp only at ht
  split at ht
  · cases ht
  split at ht <;> cases ht
  rfl

@[simp] theorem landed_fixed (s : State) (h : Hdr) (kind : Nat) (slot : Option Nat) (arg : Nat) (lines : List Line) :
    (landed s h kind slot arg lines).1.fixed = s.fixed := by
  unfold landed
  split
  · rfl
  · rename_i ht
    exact State.land_fixed ht

@[simp] theorem execPlanLoad_completes (h : Hdr) (src : Src) (len x : Nat) (given : PlanImage) (s : State) :
    Completes (execPlanLoad h src len x given s) s :=
  State.onPartition_completes _ _ _ _ _ _ (by simp)

@[simp] theorem execPlanCheck_completes (h : Hdr) (src : Src) (len x : Nat) (given : PlanImage) (s : State) :
    Completes (execPlanCheck h src len x given s) s :=
  State.onPartition_completes _ _ _ _ _ _ (by simp)

@[simp] theorem execPlanSectionLoad_completes (h : Hdr) (src : Src) (len : Nat) (given : PlanImage) (s : State) :
    Completes (execPlanSectionLoad h src len given s) s :=
  State.onPartition_completes _ _ _ _ _ _ (by simp)

@[simp] theorem execPlanUnload_completes (h : Hdr) (s : State) : Completes (execPlanUnload h s) s :=
  State.onPartition_completes _ _ _ _ _ _ (by simp)

@[simp] theorem execPlanStart_completes (h : Hdr) (mark : Nat) (s : State) : Completes (execPlanStart h mark s) s :=
  State.onPartition_completes _ _ _ _ _ _ (by simp)

@[simp] theorem execPlanStop_completes (h : Hdr) (s : State) : Completes (execPlanStop h s) s :=
  State.onPartition_completes _ _ _ _ _ _ (by simp)

@[simp] theorem execPlanBankSwitch_completes (h : Hdr) (s : State) : Completes (execPlanBankSwitch h s) s := by
  refine State.onPartition_completes _ _ _ _ _ _ (fun t => ?_)
  dsimp only
  split <;> simp

@[simp] theorem execPlanResume_completes (h : Hdr) (mark : Nat) (s : State) : Completes (execPlanResume h mark s) s :=
  State.onPartition_completes _ _ _ _ _ _ (by simp)

@[simp] theorem execBundleLoad_completes (h : Hdr) (src : Src) (set : Bool) (scion slot : Nat) (bn : Bundle) (s : State) :
    Completes (execBundleLoad h src set scion slot bn s) s := by
  refine State.onPartition_completes _ _ _ _ _ _ (fun t => ?_)
  dsimp only
  split
  · simp
  split
  · simp
  split <;> simp

@[simp] theorem execBundleLoadDone_completes (p : Nat) (s : State) : Completes (execBundleLoadDone p s) s := by
  unfold execBundleLoadDone
  split <;> simp

@[simp] theorem execBundleStatus_completes (h : Hdr) (set : Bool) (scion : Nat) (s : State) :
    Completes (execBundleStatus h set scion s) s :=
  State.onPartition_completes _ _ _ _ _ _ (by simp)

@[simp] theorem execBundleFree_completes (h : Hdr) (set : Bool) (scion : Nat) (s : State) :
    Completes (execBundleFree h set scion s) s :=
  State.onPartition_completes _ _ _ _ _ _ (by simp)

@[simp] theorem execRotate_completes (h : Hdr) (step : Nat) (s : State) : Completes (execRotate h step s) s :=
  State.onPartition_completes _ _ _ _ _ _ (by simp)

@[simp] theorem execColdStage_completes (h : Hdr) (host paddr lines : Nat) (data : List Line) (s : State) :
    Completes (execColdStage h host paddr lines data s) s :=
  State.onPartition_completes _ _ _ _ _ _ (by simp)

@[simp] theorem execColdStageDone_completes (p : Nat) (s : State) : Completes (execColdStageDone p s) s := by
  unfold execColdStageDone
  split <;> simp

@[simp] theorem execSlotInput_completes (h : Hdr) (slot host count : Nat) (tokens : List Lane) (s : State) :
    Completes (execSlotInput h slot host count tokens s) s :=
  State.onPartition_completes _ _ _ _ _ _ (by simp)

@[simp] theorem execSlotAccept_completes (h : Hdr) (slot count : Nat) (s : State) :
    Completes (execSlotAccept h slot count s) s :=
  State.onPartition_completes _ _ _ _ _ _ (by simp)

@[simp] theorem execSlotDeadline_completes (h : Hdr) (slot hallNs : Nat) (s : State) :
    Completes (execSlotDeadline h slot hallNs s) s :=
  State.onPartition_completes _ _ _ _ _ _ (by simp)

@[simp] theorem execSlotEdit_completes (h : Hdr) (slot host : Nat) (e : EditIn) (s : State) :
    Completes (execSlotEdit h slot host e s) s :=
  State.onPartition_completes _ _ _ _ _ _ (by simp)

@[simp] theorem execSlotResume_completes (h : Hdr) (entry : Nat) (pages : List Nat) (s : State) :
    Completes (execSlotResume h entry pages s) s := by
  refine State.onPartition_completes _ _ _ _ _ _ (fun t => ?_)
  dsimp only
  split <;> simp

@[simp] theorem execParkStatus_completes (h : Hdr) (entry : Nat) (s : State) : Completes (execParkStatus h entry s) s :=
  State.onPartition_completes _ _ _ _ _ _ (by simp)

@[simp] theorem execParkDrop_completes (h : Hdr) (entry : Nat) (s : State) : Completes (execParkDrop h entry s) s :=
  State.onPartition_completes _ _ _ _ _ _ (by simp)

@[simp] theorem execSlotRead_completes (h : Hdr) (slot : Nat) (s : State) : Completes (execSlotRead h slot s) s :=
  State.onPartition_completes _ _ _ _ _ _ (by simp)

/-! ### Machine/HostFabric.lean -/

@[simp] theorem execPortOpen_completes (h : Hdr) (i job rank serial : Nat) (routes : SMap (BitVec 16)) (s : State) :
    Completes (execPortOpen h i job rank serial routes s) s :=
  State.onPartition_completes _ _ _ _ _ _ (by simp)

@[simp] theorem execPortFence_completes (h : Hdr) (i : Nat) (s : State) : Completes (execPortFence h i s) s :=
  State.onPartition_completes _ _ _ _ _ _ (by simp)

@[simp] theorem execFabricCopy_completes (h : Hdr) (x : CopyIn) (s : State) : Completes (execFabricCopy h x s) s :=
  State.onPartition_completes _ _ _ _ _ _ (by simp)

@[simp] theorem execFabricStatus_completes (h : Hdr) (i : Nat) (s : State) : Completes (execFabricStatus h i s) s :=
  State.onPartition_completes _ _ _ _ _ _ (by simp)

end Sys2Proof.Machine
end

