-- ==== Sys2Proof/Proofs/FixedService.lean ====
section
/-! SUPPORT. Jobs, start-up and service keep what no command may change (14, 18 to 21). -/

namespace Sys2Proof.Machine

/-! ### Machine/Jobs.lean -/

@[simp] theorem State.tell_fixed (s : State) (p : Nat) (m : MgrMsg) : (s.tell p m).fixed = s.fixed := by
  simp [State.tell]

@[simp] theorem State.issue_fixed (s : State) (p : Nat) (m : MgrMsg) : (s.issue p m).fixed = s.fixed := by
  simp [State.issue]

@[simp] theorem State.notSeeded_fixed (s : State) (p cause subject aux : Nat) :
    (s.notSeeded p cause subject aux).fixed = s.fixed := by
  simp [State.notSeeded]

@[simp] theorem State.restoreShadow_fixed (s : State) (p : Nat) (x : ShadowIn) : (s.restoreShadow p x).fixed = s.fixed := by
  simp [State.restoreShadow]

@[simp] theorem State.stagePiece_fixed (s : State) (p : Nat) (piece : SeedPiece) : (s.stagePiece p piece).1.fixed = s.fixed := by
  unfold State.stagePiece
  split <;> simp

@[simp] theorem State.forwardPiece_fixed (s : State) (p : Nat) (piece : SeedPiece) : (s.forwardPiece p piece).fixed = s.fixed := by
  simp [State.forwardPiece]

@[simp] theorem State.ownSeeded_fixed (s : State) (p : Nat) (d : Hash) : (s.ownSeeded p d).fixed = s.fixed := by
  simp [State.ownSeeded]

@[simp] theorem State.seedCheck_fixed (s : State) (p : Nat) : (s.seedCheck p).fixed = s.fixed := by
  simp only [State.seedCheck]
  split <;> simp

@[simp] theorem State.takePiece_fixed (s : State) (p : Nat) (piece : SeedPiece) : (s.takePiece p piece).fixed = s.fixed := by
  simp [State.takePiece]

@[simp] theorem execSeedTransfer_completes (p : Nat) (sp : SeedPiece) (s : State) : Completes (execSeedTransfer p sp s) s := by
  simp only [execSeedTransfer]
  split <;> simp

@[simp] theorem execSeedTimeout_completes (p : Nat) (s : State) : Completes (execSeedTimeout p s) s := by
  simp [execSeedTimeout]

@[simp] theorem State.reseed_fixed (s : State) (p : Nat) : (s.reseed p).fixed = s.fixed := by
  simp [State.reseed]

@[simp] theorem State.startCheck_fixed (s : State) (p : Nat) : (s.startCheck p).fixed = s.fixed := by
  simp [State.startCheck]

@[simp] theorem State.resumeCheck_fixed (s : State) (p : Nat) : (s.resumeCheck p).fixed = s.fixed := by
  simp [State.resumeCheck]

@[simp] theorem State.graftOrStall_fixed (s : State) (p subject : Nat) : (s.graftOrStall p subject).fixed = s.fixed := by
  simp only [State.graftOrStall]
  split <;> simp

@[simp] theorem State.endCheck_fixed (s : State) (p frame : Nat) : (s.endCheck p frame).fixed = s.fixed := by
  simp [State.endCheck]

@[simp] theorem State.pruneCheck_fixed (s : State) (p subject round : Nat) : (s.pruneCheck p subject round).fixed = s.fixed := by
  simp only [State.pruneCheck]
  split <;> simp

theorem State.armAt_fixed {s t : State} {p mark : Nat} {resume : Option (Nat × Nat × Nat)} (h : s.armAt p mark resume = some t) :
    t.fixed = s.fixed := by
  unfold State.armAt at h
  split at h
  · cases h; rfl
  · cases h

@[simp] theorem State.applyPrune_fixed (s : State) (p : Nat) (m : MgrMsg) : (s.applyPrune p m).fixed = s.fixed := by
  simp [State.applyPrune]

theorem State.applyGraft_fixed {s t : State} {p : Nat} {m : MgrMsg} (h : s.applyGraft p m = some t) : t.fixed = s.fixed := by
  unfold State.applyGraft at h
  dsimp only at h
  split at h
  · split at h <;> cases h <;> rfl
  split at h
  · cases h
  split at h <;> cases h <;> simp

theorem State.applyResume_fixed {s t : State} {p : Nat} {m : MgrMsg} (h : s.applyResume p m = some t) : t.fixed = s.fixed := by
  unfold State.applyResume at h
  dsimp only at h
  split at h
  · cases h
  split at h
  · exact State.armAt_fixed h
  split at h
  · split at h
    · simpa using State.armAt_fixed h
    · cases h
  · cases h

theorem State.applyOne_fixed {s t : State} {p : Nat} {m : MgrMsg} (h : s.applyOne p m = some t) : t.fixed = s.fixed := by
  unfold State.applyOne at h
  dsimp only at h
  split at h
  · split at h
    · exact State.armAt_fixed h
    · cases h
  · cases h; simp
  · exact State.applyGraft_fixed h
  · exact State.applyResume_fixed h
  · split at h <;> cases h
    simp
  · cases h; simp
  · cases h; simp
  · cases h

@[simp] theorem State.settleDecs_fixed (s : State) (p fuel : Nat) : (s.settleDecs p fuel).fixed = s.fixed := by
  induction fuel generalizing s with
  | zero => rfl
  | succ fuel ih =>
    unfold State.settleDecs
    split
    · rfl
    · rename_i m t ht
      obtain ⟨x, -, hx⟩ := List.exists_of_findSome?_eq_some ht
      obtain ⟨u, hu, he⟩ := Option.map_eq_some_iff.1 hx
      cases he
      simp [ih, State.applyOne_fixed hu]

@[simp] theorem State.settle_fixed (s : State) (p : Nat) : (s.settle p).fixed = s.fixed := by
  simp [State.settle]

theorem State.receive_completes (s : State) (k : Nat) (m : MgrMsg) (act : State → Nat → State)
    (ha : ∀ t p, (act t p).fixed = t.fixed) : Completes (s.receive k m act) s := by
  simp [State.receive, ha]

@[simp] theorem takeDecision_fixed (m : MgrMsg) (s : State) (p : Nat) : (takeDecision m s p).fixed = s.fixed := by
  simp [takeDecision]

theorem asManager_fixed (f : State → Nat → State) (hf : ∀ t p, (f t p).fixed = t.fixed) (s : State) (p : Nat) :
    (asManager f s p).fixed = s.fixed := by
  simp [asManager, hf]

@[simp] theorem noteHealth_fixed (m : MgrMsg) (s : State) (p : Nat) : (noteHealth m s p).fixed = s.fixed := (rfl)

@[simp] theorem execHealth_completes (m : MgrMsg) (s : State) : Completes (execHealth m s) s :=
  State.receive_completes _ _ _ _ (asManager_fixed _ (fun t p => by simp))

@[simp] theorem execSeeded_completes (m : MgrMsg) (s : State) : Completes (execSeeded m s) s :=
  State.receive_completes _ _ _ _ (asManager_fixed _ (fun t p => by simp))

@[simp] theorem execNotSeeded_completes (m : MgrMsg) (s : State) : Completes (execNotSeeded m s) s :=
  State.receive_completes _ _ _ _ (asManager_fixed _ (fun t p => by simp))

@[simp] theorem execVote_completes (m : MgrMsg) (s : State) : Completes (execVote m s) s :=
  State.receive_completes _ _ _ _ (asManager_fixed _ (fun t p => by simp))

@[simp] theorem execStartAt_completes (m : MgrMsg) (s : State) : Completes (execStartAt m s) s :=
  State.receive_completes _ _ _ _ (by simp)

@[simp] theorem execPrune_completes (m : MgrMsg) (s : State) : Completes (execPrune m s) s :=
  State.receive_completes _ _ _ _ (by simp)

@[simp] theorem execGraft_completes (m : MgrMsg) (s : State) : Completes (execGraft m s) s :=
  State.receive_completes _ _ _ _ (by simp)

@[simp] theorem execResumeAt_completes (m : MgrMsg) (s : State) : Completes (execResumeAt m s) s :=
  State.receive_completes _ _ _ _ (by simp)

@[simp] theorem execTeardown_completes (m : MgrMsg) (s : State) : Completes (execTeardown m s) s :=
  State.receive_completes _ _ _ _ (by simp)

@[simp] theorem execReseed_completes (m : MgrMsg) (s : State) : Completes (execReseed m s) s :=
  State.receive_completes _ _ _ _ (by simp)

@[simp] theorem execManagerReplace_completes (m : MgrMsg) (s : State) : Completes (execManagerReplace m s) s :=
  State.receive_completes _ _ _ _ (by simp)

@[simp] theorem execSeedAck_completes (p child : Nat) (digest : Hash) (s : State) :
    Completes (execSeedAck p child digest s) s := by
  simp [execSeedAck]

@[simp] theorem State.castVote_fixed (s : State) (p r subject v : Nat) : (s.castVote p r subject v).fixed = s.fixed := by
  simp [State.castVote]

@[simp] theorem State.managerRound_fixed (s : State) (p r : Nat) : (s.managerRound p r).fixed = s.fixed := by
  simp [State.managerRound]

@[simp] theorem State.detachCheck_fixed (s : State) (h : Hdr) : (s.detachCheck h).fixed = s.fixed := by
  simp [State.detachCheck]

@[simp] theorem State.detachAll_fixed (s : State) : s.detachAll.fixed = s.fixed := by
  unfold State.detachAll
  split <;> simp

@[simp] theorem execManagerRound_completes (s : State) : Completes (execManagerRound s) s := by
  simp [execManagerRound]

@[simp] theorem execJobJoin_completes (h : Hdr) (j : JobIn) (wrap : JobWrap) (s : State) : Completes (execJobJoin h j wrap s) s := by
  refine State.onPartition_completes _ _ _ _ _ _ (fun t => ?_)
  dsimp only
  split
  · simp
  split
  · simp
  split
  · simp
  split <;> simp

@[simp] theorem execJobStatus_completes (h : Hdr) (s : State) : Completes (execJobStatus h s) s :=
  State.onPartition_completes _ _ _ _ _ _ (by simp)

@[simp] theorem execJobLeave_completes (h : Hdr) (s : State) : Completes (execJobLeave h s) s :=
  State.onPartition_completes _ _ _ _ _ _ (by simp)

@[simp] theorem execManagerSet_completes (h : Hdr) (on : Bool) (floor budget score : Nat) (spares : List Nat) (s : State) :
    Completes (execManagerSet h on floor budget score spares s) s :=
  State.onPartition_completes _ _ _ _ _ _ (by simp)

@[simp] theorem execSeedSource_completes (h : Hdr) (img : PlanImage) (bundles : List SeedBundle) (s : State) :
    Completes (execSeedSource h img bundles s) s :=
  State.onPartition_completes _ _ _ _ _ _ (by simp)

@[simp] theorem execSpareOffer_completes (h : Hdr) (job : Nat) (mgrs : List Nat) (s : State) :
    Completes (execSpareOffer h job mgrs s) s :=
  State.onPartition_completes _ _ _ _ _ _ (by simp)

@[simp] theorem execDetachPrepare_completes (h : Hdr) (s : State) : Completes (execDetachPrepare h s) s :=
  State.command_completes _ _ _ _ _ _ (by simp)

@[simp] theorem execDetachCancel_completes (h : Hdr) (s : State) : Completes (execDetachCancel h s) s := by
  refine State.command_completes _ _ _ _ _ _ (fun t => ?_)
  dsimp only
  split <;> simp

@[simp] theorem execJobEnd_completes (h : Hdr) (frame : Nat) (s : State) : Completes (execJobEnd h frame s) s :=
  State.onPartition_completes _ _ _ _ _ _ (by simp)

/-! ### Machine/Boot.lean -/

@[simp] theorem State.beginReset_fixed (s : State) : s.beginReset.fixed = s.fixed := (rfl)

theorem State.bootFw_fixed {s t : State} {atReset : Bool} (h : s.bootFw atReset = some t) : t.fixed = s.fixed := by
  unfold State.bootFw at h
  split at h <;> cases h
  rfl

@[simp] theorem State.fixColumn_fixed (s : State) (e : Nat × Nat × Nat × Nat) : (s.fixColumn e).fixed = s.fixed := by
  unfold State.fixColumn
  dsimp only
  split <;> simp

@[simp] theorem State.identify_fixed (s : State) (b : BootOut) : (s.identify b).fixed = s.fixed := by
  unfold State.identify
  dsimp only
  split <;> simp

@[simp] theorem State.loadCal_fixed (s : State) (c : CalSet) : (s.loadCal c).fixed = s.fixed := by
  simp [State.loadCal]

@[simp] theorem State.calibrate_fixed (s : State) (b : BootOut) : (s.calibrate b).fixed = s.fixed := by
  simp [State.calibrate]

@[simp] theorem State.setDoms_fixed (s : State) : s.setDoms.fixed = s.fixed := by
  simp [State.setDoms]

@[simp] theorem State.startDoms_fixed (s : State) : s.startDoms.fixed = s.fixed := by
  simp [State.startDoms]

@[simp] theorem State.auditReset_fixed (s : State) : s.auditReset.fixed = s.fixed := (rfl)

@[simp] theorem State.startUp_fixed (s : State) (b : BootOut) : (s.startUp b).fixed = s.fixed := by
  unfold State.startUp
  dsimp only
  split
  · simp
  · rename_i t ht
    simpa using State.bootFw_fixed ht

@[simp] theorem execModuleReset_completes (b : BootOut) (s : State) : Completes (execModuleReset b s) s := by
  simp [execModuleReset]

@[simp] theorem execReady_completes (startDs : Nat) (s : State) : Completes (execReady startDs s) s := by
  simp [execReady]

@[simp] theorem execInputTurnOn_completes (mV : Nat) (s : State) : Completes (execInputTurnOn mV s) s := by
  simp [execInputTurnOn]

@[simp] theorem execTrayRstN_completes (s : State) : Completes (execTrayRstN s) s := by
  simp [execTrayRstN]

@[simp] theorem execTrayRstNHigh_completes (s : State) : Completes (execTrayRstNHigh s) s := by
  simp [execTrayRstNHigh]

@[simp] theorem execSeqResetWrite_completes (v : BitVec 8) (s : State) : Completes (execSeqResetWrite v s) s := by
  simp [execSeqResetWrite]

@[simp] theorem execSetdasa_completes (addr : BitVec 7) (s : State) : Completes (execSetdasa addr s) s := by
  simp [execSetdasa]

@[simp] theorem State.mgmtOff_fixed (s : State) : s.mgmtOff.fixed = s.fixed := by
  simp [State.mgmtOff]

@[simp] theorem State.hubFollow_fixed (s : State) (i : Nat) : (s.hubFollow i).fixed = s.fixed := by
  simp [State.hubFollow]

@[simp] theorem execHubDomWrite_completes (v : BitVec 8) (s : State) : Completes (execHubDomWrite v s) s := by
  simp [execHubDomWrite]

@[simp] theorem execHubDomBootDone_completes (b : BootOut) (s : State) : Completes (execHubDomBootDone b s) s := by
  unfold execHubDomBootDone
  split
  · simp
  split
  · simp
  · rename_i t ht
    simp [State.bootFw_fixed ht]

/-! ### Machine/Service.lean -/

@[simp] theorem execPowerStatus_completes (h : Hdr) (s : State) : Completes (execPowerStatus h s) s :=
  State.command_completes _ _ _ _ _ _ (by simp)

@[simp] theorem execPowerCapSet_completes (h : Hdr) (watts : Nat) (s : State) : Completes (execPowerCapSet h watts s) s :=
  State.command_completes _ _ _ _ _ _ (by simp)

@[simp] theorem execPowerFloorSet_completes (h : Hdr) (gust : Nat) (s : State) : Completes (execPowerFloorSet h gust s) s :=
  State.command_completes _ _ _ _ _ _ (by simp)

@[simp] theorem execWindbreakMode_completes (h : Hdr) (on : Bool) (s : State) : Completes (execWindbreakMode h on s) s :=
  State.command_completes _ _ _ _ _ _ (by simp)

@[simp] theorem execEnergyRead_completes (h : Hdr) (s : State) : Completes (execEnergyRead h s) s :=
  State.onPartition_completes _ _ _ _ _ _ (by simp)

@[simp] theorem execCounterSet_completes (h : Hdr) (loc idx event mode : Nat) (s : State) :
    Completes (execCounterSet h loc idx event mode s) s :=
  State.command_completes _ _ _ _ _ _ (by simp)

@[simp] theorem execCounterRead_completes (h : Hdr) (loc : Nat) (idxs : List Nat) (s : State) :
    Completes (execCounterRead h loc idxs s) s :=
  State.command_completes _ _ _ _ _ _ (by simp)

@[simp] theorem execErrorLogRead_completes (h : Hdr) (first count : Nat) (s : State) :
    Completes (execErrorLogRead h first count s) s :=
  State.command_completes _ _ _ _ _ _ (by simp)

@[simp] theorem execHealthRead_completes (h : Hdr) (s : State) : Completes (execHealthRead h s) s :=
  State.command_completes _ _ _ _ _ _ (by simp)

@[simp] theorem execCellRetire_completes (h : Hdr) (b cell : Nat) (s : State) : Completes (execCellRetire h b cell s) s :=
  State.command_completes _ _ _ _ _ _ (by simp)

@[simp] theorem State.diagnosed_fixed (s : State) (kind unit : Nat) : (s.diagnosed kind unit).fixed = s.fixed := by
  simp [State.diagnosed]

@[simp] theorem execDiagRun_completes (h : Hdr) (kind unit : Nat) (r : DiagOut) (s : State) :
    Completes (execDiagRun h kind unit r s) s :=
  State.command_completes _ _ _ _ _ _ (by simp)

@[simp] theorem execRmaDiag_completes (h : Hdr) (kind unit _test : Nat) (r : DiagOut) (unretire : Option Nat) (s : State) :
    Completes (execRmaDiag h kind unit _test r unretire s) s := by
  refine State.command_completes _ _ _ _ _ _ (fun t => ?_)
  split
  · simp
  split
  · simp
  split <;> simp

@[simp] theorem State.setFw_fixed (s : State) (t : FwTarget) (f : FwT) : (s.setFw t f).fixed = s.fixed := by
  unfold State.setFw
  split <;> simp

@[simp] theorem State.beginInstall_fixed (s : State) (h : Hdr) (t : FwTarget) (img : FwImage) :
    (s.beginInstall h t img).1.fixed = s.fixed := by
  unfold State.beginInstall
  split <;> simp

@[simp] theorem execFwInstall_completes (h : Hdr) (t : FwTarget) (img : FwImage) (s : State) : Completes (execFwInstall h t img s) s := by
  have hi := State.beginInstall_fixed (s.begin h 0x0901) h t img
  unfold execFwInstall
  split
  · split <;> rename_i hu <;> rw [hu] at hi <;> simpa using hi
  · exact State.command_completes _ _ _ _ _ _ (by simp)

@[simp] theorem execFwInstallDone_completes (t : FwTarget) (good : Bool) (s : State) :
    Completes (execFwInstallDone t good s) s := by
  simp only [execFwInstallDone]
  split <;> simp

@[simp] theorem State.activated_fixed (s : State) (t : FwTarget) : (s.activated t).fixed = s.fixed := by
  unfold State.activated
  split <;> simp

@[simp] theorem State.endSessions_fixed (s : State) : s.endSessions.fixed = s.fixed := by
  simp [State.endSessions]

@[simp] theorem execFwActivate_completes (h : Hdr) (t : FwTarget) (runs : Bool) (s : State) :
    Completes (execFwActivate h t runs s) s := by
  refine State.command_completes _ _ _ _ _ _ (fun t => ?_)
  split
  · simp
  split <;> simp

@[simp] theorem execManagementRestartDone_completes (s : State) : Completes (execManagementRestartDone s) s := by
  unfold execManagementRestartDone
  split <;> simp

@[simp] theorem execFwActivateTimeout_completes (t : FwTarget) (s : State) : Completes (execFwActivateTimeout t s) s := by
  simp only [execFwActivateTimeout]
  split <;> simp

@[simp] theorem execFwStatus_completes (h : Hdr) (t : FwTarget) (s : State) : Completes (execFwStatus h t s) s :=
  State.command_completes _ _ _ _ _ _ (by simp)

@[simp] theorem execFwMinAdvance_completes (h : Hdr) (t : FwTarget) (s : State) : Completes (execFwMinAdvance h t s) s :=
  State.command_completes _ _ _ _ _ _ (by simp)

@[simp] theorem execCalRead_completes (h : Hdr) (host : Nat) (s : State) : Completes (execCalRead h host s) s :=
  State.command_completes _ _ _ _ _ _ (by simp)

@[simp] theorem execCalWrite_completes (h : Hdr) (_host : Nat) (set : CalSet) (flashOk : Bool) (s : State) :
    Completes (execCalWrite h _host set flashOk s) s :=
  State.command_completes _ _ _ _ _ _ (by simp)

@[simp] theorem execSelfCalibrate_completes (h : Hdr) (region : Bool) (idx : Nat) (s : State) :
    Completes (execSelfCalibrate h region idx s) s :=
  State.command_completes _ _ _ _ _ _ (by simp)

@[simp] theorem execSelfCalibrateDone_completes (r : CalOut) (s : State) : Completes (execSelfCalibrateDone r s) s := by
  unfold execSelfCalibrateDone
  split <;> simp

@[simp] theorem State.portPower_fixed (s : State) (i : Nat) (on : Bool) : (s.portPower i on).fixed = s.fixed := by
  simp [State.portPower]

@[simp] theorem execPortConfig_completes (h : Hdr) (i : Nat) (on : Bool) (role : Nat) (s : State) :
    Completes (execPortConfig h i on role s) s :=
  State.command_completes _ _ _ _ _ _ (by simp)

@[simp] theorem execHostLinkConfig_completes (h : Hdr) (bifurcated : Bool) (s : State) :
    Completes (execHostLinkConfig h bifurcated s) s :=
  State.command_completes _ _ _ _ _ _ (by simp)

@[simp] theorem execFuseWrite_completes (h : Hdr) (group : Nat) (value : Word) (s : State) : Completes (execFuseWrite h group value s) s := by
  refine State.command_completes _ _ _ _ _ _ (fun t => ?_)
  split
  · rfl
  split <;> rfl

end Sys2Proof.Machine
end

