-- ==== Sys2Proof/Proofs/EveryCommandCompletes.lean ====
section
/-! PROOF. Every command completes (O60): the meanings together, then a step. -/

namespace Sys2Proof.Machine

/-- Every command answers a next state and leaves the queue, the grade and the fused positions as they are. Each meaning of a
cell instruction is one call of an issue form (FixedCell); every other command has the lemma about its meaning. -/
theorem exec_completes (i : Instr) (s : State) : Completes (exec i s) s := by
  delta exec
  cases i <;> simp [
    execNopC, execAddI64, execSubI64, execAndB64, execOrB64, execXorB64, execShlB64, execShrU64, execSarS64, execMinS64, execMaxS64,
    execMinU64, execMaxU64, execMulI64, execMulhU64, execDivU64, execRemU64, execAddiI64, execAndiB64, execOriB64, execXoriB64,
    execShliB64, execShriU64, execSariS64, execLihB64, execMuliI64, execLd, execSt, execLdx, execStx, execCeqI64, execCneI64,
    execCltS64, execCgeS64, execCltU64, execCgeU64, execCeqiI64, execCneiI64, execCltiS64, execCgeiS64, execCltiU64, execCgeiU64,
    execPandP, execPorP, execPxorP, execPandnP, execPsetP, execPclrP, execPrdP16, execPwrP16, execRdsrI64, execWaitC, execWaitoC,
    execStependC, execLoopC, execAgsetA24, execAgrdU24, execLcrdU11, execAgaddA24, execVaddF32, execVsubF32, execVmulF32,
    execVfmaF32, execVminF32, execVmaxF32, execVabsF32, execVnegF32, execVaddI32, execVsubI32, execVmulI32, execVandB32, execVorB32,
    execVxorB32, execVshlB32, execVshrU32, execVsarS32, execVminS32, execVmaxS32, execVminU32, execVmaxU32, execVrcpF32,
    execVsqrtF32, execVrsqrtF32, execVexp2F32, execVlog2F32, execVceqF32, execVcltF32, execVcleF32, execVcunF32, execVceqI32,
    execVcltS32, execVcltU32, execVcleS32, execVrsumF32, execVrmaxF32, execVrminF32, execVrsumI32, execVmxscE2m1, execVmxscE2m3,
    execVmxscE3m2, execVmxscE4m3, execVmxscE5m2, execVmxscI8, execVldL, execVstL, execVgatherU8, execVgatherU16, execVgatherB32,
    execVscatterB8, execVscatterB16, execVscatterB32, execVcvtI32F32, execVcvtF32I32, execVpkBf16, execVpkF16, execVpkE4m3,
    execVpkE5m2, execVpkE2m3, execVpkE3m2, execVpkE2m1, execVpkI8, execVpkI4, execVunpkBf16, execVunpkF16, execVunpkE4m3,
    execVunpkE5m2, execVunpkE2m3, execVunpkE3m2, execVunpkE2m1, execVunpkI8, execVunpkI4, execVscaleE8m0, execVmovB32,
    execVbcastB32, execViotaI32, execVpermB32, execVinsB32, execVextB32, execMlw, execMma, execMcvt, execMstxX128, execMaddxX128,
    execMclrX128]

/-- The fused blocks depend on the grade and the fused positions only. -/
theorem fused_congr {f g : Fuses} (hg : f.grade = g.grade) (ha : f.fusedAt = g.fusedAt) : f.fused = g.fused := by
  simp only [Fuses.fused, hg, ha]

/-- Settles O60: every meaning answers a next state that keeps the rest of the queue, the grade and the fused positions. -/
theorem everyCommandCompletes : Obligations.EveryCommandCompletes := by
  intro s
  cases hp : s.pending with
  | nil => exact ⟨s, by simp [step, hp], by simp [hp], rfl, rfl⟩
  | cons c rest =>
    obtain ⟨t, ht, hf⟩ := exec_completes c { s with pending := rest }
    simp only [State.fixed, Prod.mk.injEq] at hf
    obtain ⟨hq, hg, ha⟩ := hf
    exact ⟨t, by simpa [step, hp] using ht, hq, hg, fused_congr hg ha⟩

end Sys2Proof.Machine
end

