-- ==== Sys2Proof/Proofs/PlanView.lean ====
section
/-! SUPPORT. The module's cycle and the partitions under the effects of a plan cycle: what is read, counted, launched, retired
and checked at its end changes neither (R21, R73, R177, R329, R349, R484, R547). -/

namespace Sys2Proof.Machine

/-- What the end of a plan cycle moves on: the module's cycle and the partitions. -/
def State.planView (s : State) : Nat × SMap Part := (s.cycle, s.parts)

theorem State.planView_eq_iff {s t : State} : t.planView = s.planView ↔ t.cycle = s.cycle ∧ t.parts = s.parts := Prod.mk_inj

theorem State.part_of_planView {s t : State} (h : t.planView = s.planView) (k : Nat) : t.part k = s.part k := by
  rw [State.part, (State.planView_eq_iff.1 h).2, State.part]

/-- An update of any other field keeps both. The proof is in parentheses so that `simp` rewrites with the lemma instead of
comparing the two states by unfolding. -/
@[simp] theorem State.planView_mk (t : State)
    pending frameNo wallAt freeCtr nextKey out cells blocks stks cold raised counters act retired ports fab shadows tu islands pwr
    seqr keys sessions openFail audit auditIdx auditHead checks openSec mute spFw mgFw spRun mgRun mgmtDown boot io fuses rings msix
    msixWait inProg taken rota rotaSet errs errNext flashErr pFaults jFaults health cnt round calFlash calLoad mgrDrop detachCmd :
    (State.mk
      pending t.cycle frameNo wallAt freeCtr nextKey out cells blocks stks cold t.parts raised counters act retired ports fab shadows
      tu islands pwr seqr keys sessions openFail audit auditIdx auditHead checks openSec mute spFw mgFw spRun mgRun mgmtDown boot io
      fuses rings msix msixWait inProg taken rota rotaSet errs errNext flashErr pFaults jFaults health cnt round calFlash calLoad
      mgrDrop detachCmd).planView =
      t.planView := (rfl)

@[simp] theorem State.planView_ite (c : Prop) [Decidable c] (s t : State) :
    (if c then s else t).planView = if c then s.planView else t.planView := apply_ite ..

/-- A run of updates, each of which keeps what `g` shows, keeps it. -/
theorem foldl_invariant {σ α β : Type} (g : σ → β) {f : σ → α → σ} (h : ∀ s a, g (f s a) = g s) (l : List α) (s : σ) :
    g (l.foldl f s) = g s :=
  (List.foldl_hom g (g₂ := fun b _ => b) fun s a => (h s a).symm).symm.trans (List.foldl_fixed l)

@[simp] theorem foldl_planView {α : Type} (f : State → α → State) (h : ∀ s a, (f s a).planView = s.planView) (l : List α)
    (s : State) : (l.foldl f s).planView = s.planView := foldl_invariant State.planView h l s

/-- The same of updates that carry a value beside the state. -/
@[simp] theorem foldl_fst_planView {α β : Type} (f : State × β → α → State × β) (h : ∀ a x, (f a x).1.planView = a.1.planView)
    (l : List α) (a : State × β) : (l.foldl f a).1.planView = a.1.planView :=
  foldl_invariant (fun a : State × β => a.1.planView) h l a

/-! ### The shared operations -/

@[simp] theorem State.onCell_planView (s : State) (c : Nat) (f : Cell → Cell) : (s.onCell c f).planView = s.planView := (rfl)

@[simp] theorem State.setCell_planView (s : State) (c : Nat) (x : Cell) : (s.setCell c x).planView = s.planView := (rfl)

@[simp] theorem State.onStack_planView (s : State) (k : Nat) (f : Stack → Stack) : (s.onStack k f).planView = s.planView := (rfl)

@[simp] theorem State.onPort_planView (s : State) (i : Nat) (f : Port → Port) : (s.onPort i f).planView = s.planView := (rfl)

@[simp] theorem State.onIsland_planView (s : State) (i : Nat) (f : Island → Island) : (s.onIsland i f).planView = s.planView := (rfl)

@[simp] theorem State.count_planView (s : State) (loc ev n : Nat) : (s.count loc ev n).planView = s.planView := (rfl)

@[simp] theorem State.spend_planView (s : State) (row : Nat) (p : Option Nat) (n : Nat) :
    (s.spend row p n).planView = s.planView := (rfl)

@[simp] theorem State.raise_planView (s : State) (r : Raise) : (s.raise r).planView = s.planView := (rfl)

@[simp] theorem State.jobFault_planView (s : State) (code : Nat) (parts : List Nat) (unit d0 d1 : Nat) :
    (s.jobFault code parts unit d0 d1).planView = s.planView := (rfl)

@[simp] theorem State.modEvent_planView (s : State) (code unit d0 d1 : Nat) :
    (s.modEvent code unit d0 d1).planView = s.planView := (rfl)

@[simp] theorem State.watermark_planView (s : State) (key : Nat) : (s.watermark key).planView = s.planView := (rfl)

@[simp] theorem State.retireCell_planView (s : State) (c cause : Nat) : (s.retireCell c cause).planView = s.planView := by
  simp [State.retireCell]

@[simp] theorem State.cellFault_planView (s : State) (c code d0 d1 : Nat) (ending : Bool) :
    (s.cellFault c code d0 d1 ending).planView = s.planView := by
  simp only [State.cellFault]
  split <;> simp

@[simp] theorem State.eccCell_planView (s : State) (c : Nat) (e : EccW) (mem : Nat) (words : List Nat) :
    (s.eccCell c e mem words).planView = s.planView := by
  unfold State.eccCell
  split <;> simp

/-! ### The effects of a plan cycle's end -/

@[simp] theorem State.weightReads_planView (s : State) : s.weightReads.planView = s.planView := by
  simp [State.weightReads]

@[simp] theorem State.unitSpend_planView (s : State) : s.unitSpend.planView = s.planView := by
  simp [State.unitSpend]

@[simp] theorem State.strayFlit_planView (s : State) (i : Nat) : (s.strayFlit i).planView = s.planView := (rfl)

@[simp] theorem State.dynSend_planView (s : State) (p cls : Nat) (e : Option Bool) (h : DynHdr) (line : Line) (c at' : Nat) :
    (s.dynSend p cls e h line c at').1.planView = s.planView := by
  unfold State.dynSend
  split
  · simp
  split
  · simp
  dsimp only
  split <;> simp

@[simp] theorem State.noteSent_planView (s : State) (cls : Nat) (e : Option Bool) (h : DynHdr) :
    (s.noteSent cls e h).planView = s.planView := by
  unfold State.noteSent
  split
  · split <;> simp
  · rfl

@[simp] theorem State.setXfer_planView (s : State) (k : Nat) (x : Option Xfer) : (s.setXfer k x).planView = s.planView := (rfl)

@[simp] theorem State.pump_planView (s : State) (o : Outgo) (fuel : Nat) : (s.pump o fuel).1.planView = s.planView := by
  induction fuel generalizing s o with
  | zero => rfl
  | succ fuel ih =>
    unfold State.pump
    split
    · rfl
    extract_lets h full line
    split
    · rfl
    simp only [ih]
    split <;> simp

@[simp] theorem State.pumpAll_planView (s : State) : s.pumpAll.planView = s.planView := by
  simp [State.pumpAll]

@[simp] theorem State.lagCheck_planView (s : State) (e : Nat × Nat) : (s.lagCheck e).planView = s.planView := by
  simp [State.lagCheck]

@[simp] theorem State.retireCells_planView (s : State) : s.retireCells.planView = s.planView := by
  simp [State.retireCells]

@[simp] theorem State.endChecks_planView (s : State) (p : Nat) (ending : Bool) :
    (s.endChecks p ending).planView = s.planView := by
  simp [State.endChecks]

@[simp] theorem State.tailChecks_planView (s : State) (p : Nat) : (s.tailChecks p).planView = s.planView := by
  simp [State.tailChecks]

end Sys2Proof.Machine
end

