-- ==== Sys2Proof/Proofs/PlanCycle.lean ====
section
/-! PROOF. A plan cycle ends (O25): one SEQUENCER_ENTRY row moves the module's cycle and every running partition's plan time
(R21, R23, log entry 16), and each partition's instruction load takes at most one line (R75, R79). -/

namespace Sys2Proof.Machine

/-! ### The instruction load of one partition -/

/-- A partition as a cycle of its instruction load may leave it: at most one more line of the load is written, nothing else is
changed. -/
def Part.LoadAdvance (q q' : Part) : Prop :=
  q' = { q with bankLoad := q'.bankLoad } ∧ (q.bankLoad = none → q'.bankLoad = none) ∧
    ∀ l, q.bankLoad = some l → ∃ n, q'.bankLoad = some { l with done := n } ∧ l.done ≤ n ∧ n ≤ l.done + 1

theorem Part.LoadAdvance.refl (q : Part) : q.LoadAdvance q :=
  ⟨rfl, id, fun l h => ⟨l.done, h, Nat.le_refl _, Nat.le_succ _⟩⟩

theorem Part.loadAdvance_line {q : Part} {l : BankLoad} (h : q.bankLoad = some l) :
    q.LoadAdvance { q with bankLoad := some { l with done := l.done + 1 } } := by
  refine ⟨rfl, fun hn => ?_, fun l' hl' => ⟨l.done + 1, ?_⟩⟩
  · simp [h] at hn
  · obtain rfl : l = l' := Option.some.inj (h.symm.trans hl')
    simp

/-- What a cycle of a load can do: beside the cells it writes, nothing, or count one more line. -/
theorem State.loadStep_cases (s : State) (p : Nat) : ∃ u : State, u.planView = s.planView ∧
    (s.loadStep p = u ∨ ∃ l, (s.part p).bankLoad = some l ∧
      s.loadStep p = u.onPart p (fun q => { q with bankLoad := some { l with done := l.done + 1 } })) := by
  unfold State.loadStep
  split
  · exact ⟨s, rfl, .inl rfl⟩
  next l hl =>
    split
    · exact ⟨s, rfl, .inl rfl⟩
    · refine ⟨_, ?_, .inr ⟨l, hl, rfl⟩⟩
      split
      · split <;> simp
      · simp

@[simp] theorem State.loadStep_cycle (s : State) (p : Nat) : (s.loadStep p).cycle = s.cycle := by
  obtain ⟨u, hu, h | ⟨l, -, h⟩⟩ := s.loadStep_cases p <;> rw [h] <;> exact (State.planView_eq_iff.1 hu).1

theorem State.loadStep_part_ne (s : State) {p k : Nat} (hk : k ≠ p) : (s.loadStep p).part k = s.part k := by
  obtain ⟨u, hu, h | ⟨l, -, h⟩⟩ := s.loadStep_cases p <;> rw [h]
  · exact State.part_of_planView hu k
  · rw [State.onPart_part_ne _ _ hk, State.part_of_planView hu]

theorem State.loadStep_part_same (s : State) (p : Nat) : (s.part p).LoadAdvance ((s.loadStep p).part p) := by
  obtain ⟨u, hu, h | ⟨l, hl, h⟩⟩ := s.loadStep_cases p <;> rw [h]
  · rw [State.part_of_planView hu]
    exact .refl _
  · rw [State.onPart_part_same, State.part_of_planView hu]
    exact Part.loadAdvance_line hl

/-! ### All partitions in turn -/

@[simp] theorem State.tailChecks_cycle (s : State) (p : Nat) : (s.tailChecks p).cycle = s.cycle :=
  (State.planView_eq_iff.1 (s.tailChecks_planView p)).1

@[simp] theorem State.tailChecks_part (s : State) (p k : Nat) : (s.tailChecks p).part k = s.part k :=
  State.part_of_planView (s.tailChecks_planView p) k

/-- A run of updates, each of which leaves every partition but its own, leaves a partition that is none of theirs. -/
theorem foldl_part_of_not_mem {f : State → Nat → State} (hother : ∀ s p k, k ≠ p → (f s p).part k = s.part k) {l : List Nat}
    {k : Nat} (hk : k ∉ l) (s : State) : (l.foldl f s).part k = s.part k := by
  induction l generalizing s with
  | nil => rfl
  | cons p l ih =>
    obtain ⟨hp, hl⟩ := not_or.1 (mt List.mem_cons.2 hk)
    rw [List.foldl_cons, ih hl, hother s p k hp]

/-- When each update also relates its own partition by a reflexive `R` and none comes twice, all of them together relate every
partition by `R`. -/
theorem foldl_part_rel {R : Part → Part → Prop} (hrefl : ∀ q, R q q) {f : State → Nat → State}
    (hown : ∀ s p, R (s.part p) ((f s p).part p)) (hother : ∀ s p k, k ≠ p → (f s p).part k = s.part k)
    {l : List Nat} (hl : l.Nodup) (s : State) (k : Nat) : R (s.part k) ((l.foldl f s).part k) := by
  induction l generalizing s with
  | nil => exact hrefl _
  | cons p l ih =>
    obtain ⟨hp, hl⟩ := List.nodup_cons.1 hl
    rw [List.foldl_cons]
    by_cases hk : k = p
    · subst hk
      rw [foldl_part_of_not_mem hother hp]
      exact hown s k
    · rw [← hother s p k hk]
      exact ih hl _

/-- What a partition's load and its end-of-step checks do as the plan cycle begins (R73, R75). -/
def State.partTurn (s : State) (p : Nat) : State := (s.loadStep p).tailChecks p

theorem State.partTurn_cycle (s : State) (p : Nat) : (s.partTurn p).cycle = s.cycle := by
  simp [State.partTurn]

theorem State.partTurn_part_ne (s : State) (p k : Nat) (hk : k ≠ p) : (s.partTurn p).part k = s.part k := by
  rw [State.partTurn, State.tailChecks_part, State.loadStep_part_ne s hk]

theorem State.partTurn_part_same (s : State) (p : Nat) : (s.part p).LoadAdvance ((s.partTurn p).part p) := by
  rw [State.partTurn, State.tailChecks_part]
  exact s.loadStep_part_same p

theorem ok_partTurns (s : State) :
    ok (allParts.foldl (fun s p => (s.loadStep p).tailChecks p) s) = .next (allParts.foldl State.partTurn s) := rfl

theorem State.partTurns_cycle (s : State) : (allParts.foldl State.partTurn s).cycle = s.cycle :=
  foldl_invariant State.cycle State.partTurn_cycle allParts s

theorem State.partTurns_part (s : State) (p : Nat) : (s.part p).LoadAdvance ((allParts.foldl State.partTurn s).part p) :=
  foldl_part_rel Part.LoadAdvance.refl State.partTurn_part_same State.partTurn_part_ne List.nodup_range s p

/-! ### Plan time -/

/-- A partition as the next plan cycle begins (R21, R23). -/
def Part.tick (q : Part) : Part := { q with planTime := if q.st = .running then q.planTime + 1 else q.planTime }

theorem Part.tick_eq_ite (q : Part) : (if q.st = .running then { q with planTime := q.planTime + 1 } else q) = q.tick := by
  unfold Part.tick
  split <;> rfl

theorem Part.tick_zero : Part.zero.tick = Part.zero := by
  rw [← Part.tick_eq_ite]
  exact if_neg (by decide)

/-- SEQUENCER_ENTRY moves the cycle and the plan times of the state it is given, then takes the partitions in turn. -/
theorem execSequencerEntry_eq (lags : List (Nat × Nat)) (s : State) : ∃ u : State, u.cycle = s.cycle + 1 ∧
    u.parts = mapv Part.zero s.parts (fun _ => Part.tick) ∧
    execSequencerEntry lags s = .next (allParts.foldl State.partTurn u) := by
  unfold execSequencerEntry
  extract_lets s2 s3 s4 s5 retired s6
  have hview : s5.planView = s.planView := by simp [s5, s4, s3, s2]
  obtain ⟨hcycle, hparts⟩ := State.planView_eq_iff.1 hview
  exact ⟨s6, congrArg (· + 1) hcycle, by simp only [s6, hparts, Part.tick_eq_ite], ok_partTurns s6⟩

theorem part_of_parts_tick {s u : State} (hwf : SMap.wf Part.zero s.parts = true)
    (hu : u.parts = mapv Part.zero s.parts (fun _ => Part.tick)) (p : Nat) : u.part p = (s.part p).tick := by
  rw [State.part, hu, State.part]
  exact look_mapv _ _ _ (fun _ => Part.tick_zero) (Bool.and_eq_true_iff.1 hwf).1 p

/-- Settles O25: the cycle and the plan times move once, whatever the lags; what follows for each partition is at most one line of
its load. -/
theorem planCycleAdvances : Obligations.PlanCycleAdvances := by
  intro lags s hwf
  obtain ⟨u, hcycle, hparts, hexec⟩ := execSequencerEntry_eq lags s
  refine ⟨_, hexec, u.partTurns_cycle.trans hcycle, fun p => ?_⟩
  have hload := u.partTurns_part p
  rw [part_of_parts_tick hwf hparts] at hload
  exact hload

end Sys2Proof.Machine
end

