-- ==== Sys2Proof/Proofs/PlanParts.lean ====
section
/-! SUPPORT. The partitions under the effects of the boundaries of plan time: what touches no partition, and what the shared
operations on one partition (commit, fence, bank switch, the effects of a host window) leave of it (R27, R36 to R43, R50, R76,
R501, R502). -/

namespace Sys2Proof.Machine

/-! ### Effects that touch no partition -/

@[simp] theorem State.onBlock_planView (s : State) (b : Nat) (f : Block → Block) : (s.onBlock b f).planView = s.planView := (rfl)

@[simp] theorem State.event_planView (s : State) (kind part : Nat) (args : List Nat) :
    (s.event kind part args).planView = s.planView := by
  simp [State.planView]

@[simp] theorem State.post?_planView (s : State) (h : Option Hdr) (op st : Nat) (res : List (Nat × Nat)) :
    (s.post? h op st res).planView = s.planView := by
  cases h <;> simp [State.post?, State.planView]

@[simp] theorem State.record_planView (s : State) (since : Nat) (r : Raise) : (s.record since r).planView = s.planView := by
  simp [State.record]

@[simp] theorem State.recordAll_planView (s : State) (l : List Raise) : (s.recordAll l).planView = s.planView := by
  simp [State.recordAll]

@[simp] theorem State.quietPart_planView (s : State) (p : Nat) : (s.quietPart p).planView = s.planView := (rfl)

@[simp] theorem State.divide_planView (s : State) : s.divide.planView = s.planView := (rfl)

@[simp] theorem State.setCore_planView (s : State) : s.setCore.planView = s.planView := (rfl)

@[simp] theorem State.portsFrame_planView (s : State) : s.portsFrame.planView = s.planView := by
  simp [State.portsFrame]

@[simp] theorem State.resetBarrows_planView (s : State) (p : Nat) : (s.resetBarrows p).planView = s.planView := by
  simp [State.resetBarrows]

@[simp] theorem State.clearMerge_planView (s : State) (p : Nat) : (s.clearMerge p).planView = s.planView := (rfl)

@[simp] theorem State.event_part (s : State) (kind part : Nat) (args : List Nat) (k : Nat) :
    (s.event kind part args).part k = s.part k := State.part_of_planView (s.event_planView ..) k

@[simp] theorem State.post?_part (s : State) (h : Option Hdr) (op st : Nat) (res : List (Nat × Nat)) (k : Nat) :
    (s.post? h op st res).part k = s.part k := State.part_of_planView (s.post?_planView ..) k

@[simp] theorem State.recordAll_part (s : State) (l : List Raise) (k : Nat) : (s.recordAll l).part k = s.part k :=
  State.part_of_planView (s.recordAll_planView l) k

@[simp] theorem State.quietPart_part (s : State) (p k : Nat) : (s.quietPart p).part k = s.part k := rfl

@[simp] theorem State.divide_part (s : State) (k : Nat) : s.divide.part k = s.part k := rfl

@[simp] theorem State.resetBarrows_part (s : State) (p k : Nat) : (s.resetBarrows p).part k = s.part k :=
  State.part_of_planView (s.resetBarrows_planView p) k

@[simp] theorem State.clearMerge_part (s : State) (p k : Nat) : (s.clearMerge p).part k = s.part k := rfl

@[simp] theorem State.endChecks_part (s : State) (p : Nat) (ending : Bool) (k : Nat) :
    (s.endChecks p ending).part k = s.part k := State.part_of_planView (s.endChecks_planView p ending) k

/-! ### Commit and fence (R50 to R52, R501, R502) -/

theorem State.commit_part_ne (s : State) {p k : Nat} (hk : k ≠ p) : (s.commit p).part k = s.part k := by
  simp [State.commit, State.setPart_part_ne _ _ hk]

/-- The partition that a commit leaves: slots, records, parking entries and the state to return to are brought up to date, the
result names the step that ends, and the rest stands. -/
theorem State.commit_part_same (s : State) (p : Nat) : ∃ slots recs park saved res,
    res.stepNo = (s.part p).stepNo ∧ (s.commit p).part p = { s.part p with
      slots, recs, park, saved, held := false, win := {}, lastResult := some res, outNext := some res
      committed := some (s.part p).stepNo, commKind := (s.part p).stepKind, commEpoch := (s.part p).stepEpoch } := by
  simp only [State.commit, State.count_part, State.setPart_part_same]
  split <;> exact ⟨_, _, _, _, _, rfl, rfl⟩

theorem State.fencePart_part_ne (s : State) {p k : Nat} (hk : k ≠ p) (f : Bool × Nat) (tail : Bool) :
    (s.fencePart p f tail).part k = s.part k := by
  unfold State.fencePart
  dsimp only
  split
  · rfl
  · simp only [State.event_part, State.quietPart_part, State.onPart_part_ne _ _ hk]
    split
    · rfl
    · split
      · exact s.commit_part_ne hk
      · exact State.onPart_part_ne _ _ hk

theorem State.fencePart_faulted {s : State} {p : Nat} (ha : (s.part p).active? = true) (f : Bool × Nat) (tail : Bool) :
    ((s.fencePart p f tail).part p).st = .faulted := by
  simp [State.fencePart, ha]

/-! ### Bank switches (R76 to R78) -/

theorem State.setPart_setPart_planView {s u : State} {p : Nat} {x : Part} (hu : u.planView = (s.setPart p x).planView) (y : Part) :
    (u.setPart p y).planView = (s.setPart p y).planView := by
  obtain ⟨hcycle, hparts⟩ := State.planView_eq_iff.1 hu
  refine State.planView_eq_iff.2 ⟨hcycle, ?_⟩
  rw [State.setPart, State.setPart, hparts]
  exact put_put ..

/-- A partition after a bank switch: the other bank is active; of its load and of that load's status either may have changed. -/
def Part.switched (q : Part) (l : Option BankLoad) (st : LoadStatus) : Part :=
  { q with bankAct := !q.bankAct, switches := q.switches + 1, bankLoad := l, bankStatus := st }

theorem State.switchBank_planView (s : State) (p : Nat) : ∃ l st,
    (s.switchBank p).planView = (s.setPart p ((s.part p).switched l st)).planView := by
  unfold State.switchBank
  extract_lets k s1 s2 cs
  suffices h : ∃ l st, s2.planView = (s.setPart p ((s.part p).switched l st)).planView by
    obtain ⟨l, st, h⟩ := h
    refine ⟨l, st, ?_⟩
    rw [← h]
    split <;> simp
  have hs1 : s1 = s.setPart p ((s.part p).switched (s.part p).bankLoad (s.part p).bankStatus) := rfl
  simp only [s2]
  split
  · exact ⟨_, _, congrArg State.planView hs1⟩
  next l hl =>
    split
    · refine ⟨none, .failed, ?_⟩
      rw [State.onPart, State.post?_part, hs1, State.setPart_part_same]
      exact State.setPart_setPart_planView (State.post?_planView ..) _
    · exact ⟨_, _, congrArg State.planView hs1⟩

theorem State.switchBank_part_ne (s : State) {p k : Nat} (hk : k ≠ p) : (s.switchBank p).part k = s.part k := by
  obtain ⟨l, st, h⟩ := s.switchBank_planView p
  rw [State.part_of_planView h, State.setPart_part_ne _ _ hk]

theorem State.switchBank_part_same (s : State) (p : Nat) : ∃ l st, (s.switchBank p).part p = (s.part p).switched l st := by
  obtain ⟨l, st, h⟩ := s.switchBank_planView p
  exact ⟨l, st, by rw [State.part_of_planView h, State.setPart_part_same]⟩

theorem State.switchAt_part_ne (s : State) {p k : Nat} (hk : k ≠ p) (i : Nat) (record : Bool) :
    (s.switchAt p i record).part k = s.part k := by
  unfold State.switchAt
  split
  · exact s.switchBank_part_ne hk
  · rfl

/-- At an epoch boundary the other bank becomes active exactly when the plan names the boundary or a record asks for the switch. -/
theorem State.switchAt_part_same (s : State) (p i : Nat) (record : Bool) : ∃ n l st,
    (s.switchAt p i record).part p = { s.part p with
      bankAct := (s.part p).bankAct != ((s.part p).switchNamed i || record), switches := n, bankLoad := l, bankStatus := st } := by
  unfold State.switchAt
  split
  next h =>
    obtain ⟨l, st, hswitch⟩ := s.switchBank_part_same p
    exact ⟨_, l, st, by rw [hswitch, h, Bool.bne_true]; rfl⟩
  next h =>
    exact ⟨_, _, _, by rw [Bool.eq_false_iff.2 h, Bool.bne_false]⟩

/-! ### What a host window touches -/

/-- A partition without what the landing snapshot and the effects of a window change: slots, records, parking entries, the window
itself, stop and replay, and the rotation in progress (R36 to R43, R55, R245). -/
def Part.schedule (q : Part) : Part :=
  { q with slots := [], park := [], recs := [], win := {}, pendRot := none, stopReq := none, replay := none
           active := false, held := false, jb := { q.jb with rotKept := none } }

theorem Part.edit_schedule {q q' : Part} {e : ServingE} {r : Rec} {i : Nat} (h : q.edit e r i = some q') :
    q'.schedule = q.schedule := by
  unfold Part.edit at h
  dsimp only at h
  split at h <;> simp only [Option.ite_none_left_eq_some, Option.ite_none_right_eq_some, Option.some.injEq, reduceCtorEq] at h
  · obtain ⟨-, -, rfl⟩ := h; rfl
  · obtain ⟨-, rfl⟩ := h; rfl
  · obtain ⟨-, -, rfl⟩ := h; rfl
  · obtain ⟨-, rfl⟩ := h; rfl
  · obtain ⟨-, rfl⟩ := h; rfl

theorem Part.applySlot_schedule {q q' : Part} {e : ServingE} {r : Rec} {i : Nat} (h : q.applySlot e r i = some q') :
    q'.schedule = q.schedule := by
  unfold Part.applySlot at h
  dsimp only at h
  split at h
  · exact Part.edit_schedule h
  all_goals simp only [Option.ite_none_left_eq_some, Option.ite_none_right_eq_some, Option.some.injEq] at h
  · obtain ⟨-, rfl⟩ := h; rfl
  · obtain ⟨-, -, rfl⟩ := h; rfl
  · obtain ⟨-, rfl⟩ := h; rfl

theorem Part.applyKind_schedule (q : Part) (k : Nat) : (q.applyKind k).schedule = q.schedule := by
  unfold Part.applyKind
  split
  · rfl
  refine foldl_invariant Part.schedule (fun q x => ?_) _ q
  split
  · rfl
  split
  next happ => exact Part.applySlot_schedule happ
  next => rfl

theorem Part.slotEffects_schedule (q : Part) : q.slotEffects.schedule = q.schedule := by
  simp only [Part.slotEffects, Part.applyKind_schedule]
  rfl

theorem Part.rotate_schedule (q : Part) : q.rotate.schedule = q.schedule := by
  unfold Part.rotate
  split
  · rfl
  · split <;> rfl

theorem Part.takeParts_schedule (q : Part) : q.takeParts.schedule = q.schedule := by
  unfold Part.takeParts
  split <;> rfl

theorem Part.snapshot_schedule (q : Part) : q.snapshot.schedule = q.schedule := by
  unfold Part.snapshot
  split <;> rfl

/-- A partition as its step boundary hands it to the new step: the epoch is marked as the step's, and the landing snapshot is taken
with the flags visible at hall time `t` (orders 4 and 5 of Table 2.7). -/
def Part.openStep (q : Part) (t : Nat) : Part := ({ q with stepEpoch := q.epoch, fenceAt := none }.showFlags t).snapshot

theorem Part.openStep_schedule (q : Part) (t : Nat) :
    (q.openStep t).schedule = { q with stepEpoch := q.epoch, fenceAt := none }.schedule := Part.snapshot_schedule _

/-- What two partitions of equal `schedule` agree on, of what the boundaries are about. -/
structure Part.SameSchedule (q q' : Part) : Prop where
  st : q.st = q'.st
  planTime : q.planTime = q'.planTime
  stepNo : q.stepNo = q'.stepNo
  stepKind : q.stepKind = q'.stepKind
  cyclePos : q.cyclePos = q'.cyclePos
  stepStart : q.stepStart = q'.stepStart
  epoch : q.epoch = q'.epoch
  epochIdx : q.epochIdx = q'.epochIdx
  bankAct : q.bankAct = q'.bankAct
  committed : q.committed = q'.committed
  lastResult : q.lastResult = q'.lastResult
  startMark : q.jb.startMark = q'.jb.startMark
  switchNamed : q.switchNamed = q'.switchNamed

theorem Part.sameSchedule_of_eq {q q' : Part} (h : q.schedule = q'.schedule) : q.SameSchedule q' where
  st := (congrArg Part.st h :)
  planTime := (congrArg Part.planTime h :)
  stepNo := (congrArg Part.stepNo h :)
  stepKind := (congrArg Part.stepKind h :)
  cyclePos := (congrArg Part.cyclePos h :)
  stepStart := (congrArg Part.stepStart h :)
  epoch := (congrArg Part.epoch h :)
  epochIdx := (congrArg Part.epochIdx h :)
  bankAct := (congrArg Part.bankAct h :)
  committed := (congrArg Part.committed h :)
  lastResult := (congrArg Part.lastResult h :)
  startMark := (congrArg (fun q => q.jb.startMark) h :)
  switchNamed := (congrArg Part.switchNamed h :)


theorem State.beginStep_planView (s : State) (p : Nat) :
    (s.beginStep p).planView = (s.onPart p (fun q => q.openStep s.hallNs)).planView := by
  simp only [State.beginStep, State.resetBarrows_planView, State.clearMerge_planView, State.planView_mk]
  rfl

theorem State.beginStep_part_ne (s : State) {p k : Nat} (hk : k ≠ p) : (s.beginStep p).part k = s.part k := by
  rw [State.part_of_planView (s.beginStep_planView p), State.onPart_part_ne _ _ hk]

theorem State.beginStep_part_same (s : State) (p : Nat) : (s.beginStep p).part p = (s.part p).openStep s.hallNs := by
  rw [State.part_of_planView (s.beginStep_planView p), State.onPart_part_same]

/-- A partition whose step is set takes up its bank and opens the step's window: beside the banks, its schedule stands. -/
theorem State.enterStep_part_same (s : State) (p : Nat) : ∃ n l st,
    (((s.switchAt p 0 false).beginStep p).part p).SameSchedule { s.part p with
      stepEpoch := (s.part p).epoch, fenceAt := none
      bankAct := (s.part p).bankAct != ((s.part p).switchNamed 0 || false), switches := n, bankLoad := l, bankStatus := st } := by
  obtain ⟨n, l, st, hswitch⟩ := s.switchAt_part_same p 0 false
  refine ⟨n, l, st, Part.sameSchedule_of_eq ?_⟩
  rw [State.beginStep_part_same, Part.openStep_schedule, hswitch]

theorem State.enterStep_part_ne (s : State) {p k : Nat} (hk : k ≠ p) : ((s.switchAt p 0 false).beginStep p).part k = s.part k := by
  rw [State.beginStep_part_ne _ hk, State.switchAt_part_ne _ hk]

end Sys2Proof.Machine
end

