-- ==== Sys2Proof/Proofs/StepBoundaries.lean ====
section
/-! PROOF. The boundaries of a partition's steps and epochs, and its job's zero (O27 to O29): what is committed, what begins, which bank
is active, and that no other partition is touched (R25, R27, R35, R50, R362). -/

namespace Sys2Proof.Machine
open Sys2Proof.Stmt

theorem State.running_eq_true {s : State} {p : Nat} (h : (s.part p).st = .running) : s.running p = true := decide_eq_true h

theorem State.running_eq_false {s : State} {p : Nat} (h : (s.part p).st ≠ .running) : s.running p = false := decide_eq_false h

/-! ### A clean step boundary -/

/-- Updates each of which leaves the state they start from leave it together. -/
theorem foldl_eq_self {f : State → Nat → State} {s : State} {l : List Nat} (h : ∀ k ∈ l, f s k = s) : l.foldl f s = s :=
  List.foldlRecOn l f (motive := fun u => u = s) rfl fun _ hu k hk => hu ▸ h k hk

theorem noOpenCounts_onStack {s : State} {p : Nat} (h : NoOpenCounts s p) (k : Nat) (g : Nat × Option OpenCount → Bool) :
    NoOpenCounts (s.onStack k (fun y => { y with opens := y.opens.filter g })) p := by
  obtain ⟨hstacks, hcold⟩ := h
  refine ⟨fun j hj e he => ?_, hcold⟩
  by_cases hjk : j = k
  · subst hjk
    rw [State.onStack_stack_same] at he
    exact hstacks j hj e (List.mem_of_mem_filter he)
  · rw [State.onStack_stack_ne _ _ hjk] at he
    exact hstacks j hj e he

/-- The open counts that the end-of-step checks report of partition `p` are none where it has no count. -/
theorem filter_opens_eq_nil {l : SMap (Option OpenCount)} {p : Nat} (h : ∀ e ∈ l, e.1 / 16 ≠ p) :
    l.filter (fun e => decide (e.1 / 16 = p) && e.2.isSome) = [] :=
  List.filter_eq_nil_iff.2 fun e he => by simp [h e he]

/-- The end-of-step checks find nothing where every code cell has ended its step and no write count is open (R73, R197). -/
theorem State.endChecks_raised {s : State} {p : Nat} (hcells : StepsEnded s p) (hopen : NoOpenCounts s p) (ending : Bool) :
    (s.endChecks p ending).raised = s.raised := by
  unfold State.endChecks
  extract_lets s1 seq s2 mine s3
  have hs1 : s1 = s := foldl_eq_self fun c hc => by
    rcases hcells c hc with hstopped | ⟨hend, hbusy⟩
    · simp [hstopped]
    · simp [hend, hbusy]
  have hs2 : s2.raised = s.raised ∧ NoOpenCounts s2 p := by
    refine List.foldlRecOn (motive := fun u : State => u.raised = s.raised ∧ NoOpenCounts u p) _ _
      (by rw [hs1]; exact ⟨rfl, hopen⟩) ?_
    rintro u ⟨hraised, hu⟩ k hk
    obtain ⟨hstacks, -⟩ := id hu
    dsimp only
    rw [filter_opens_eq_nil (hstacks k (List.mem_range.1 hk))]
    exact ⟨hraised, noOpenCounts_onStack hu k _⟩
  obtain ⟨hraised, -, hcold⟩ := hs2
  have hmine : mine = [] := filter_opens_eq_nil hcold
  simp only [s3, hmine, List.foldl_nil, hraised]

/-- A partition as its next step begins (order 4 of Table 2.7). -/
def Part.nextStep (q : Part) : Part :=
  let pos := (q.cyclePos + 1) % q.cycleLen
  { q.newEpoch 0 with stepNo := q.stepNo + 1, cyclePos := pos, stepKind := q.kindAt pos, stepStart := q.planTime / 1024 }

/-- A boundary at the end of the step, with nothing against the partition, commits the step; then a stop request ends the plan, or the
next step begins (Table 2.7). -/
theorem execStepBoundary_clean {s : State} {p : Nat} (hrun : (s.part p).st = .running)
    (hdue : (s.part p).planTime = 1024 * (s.part p).stepStop) (hsize : (s.part p).jobSize ≤ 1) (hfence : (s.part p).fenceAt = none)
    (hcells : StepsEnded s p) (hopen : NoOpenCounts s p) (hraised : ∀ r ∈ s.raised, r.ending = true → p ∉ r.parts) :
    ∃ u : State, u.planView = s.planView ∧ execStepBoundary p s =
      if ((u.commit p).part p).stopsNow then
        ok (((u.commit p).onPart p (fun q => { q with st := .stopped, stopReq := none })).quietPart p).divide
      else ok ((((u.commit p).onPart p Part.nextStep).switchAt p 0 false).beginStep p) := by
  have hmulti : (s.part p).multi = false := decide_eq_false (by omega)
  have hnone : (s.endChecks p true).raised.filter (fun r => r.ending && r.parts.contains p) = [] := by
    rw [State.endChecks_raised hcells hopen]
    exact List.filter_eq_nil_iff.2 fun r hr => by simpa using hraised r hr
  unfold execStepBoundary
  simp only [State.running_eq_true hrun, hdue, hmulti, hnone, hfence, Bool.not_true, Bool.false_eq_true, ne_eq, not_true_eq_false,
    or_self, if_false]
  refine ⟨_, ?_, rfl⟩
  simp

/-! ### O27 -/

theorem State.commit_stopsNow (s : State) (p : Nat) : ((s.commit p).part p).stopsNow = (s.part p).stopsNow := by
  obtain ⟨_, _, _, _, _, -, h⟩ := s.commit_part_same p
  rw [h]
  rfl

theorem Part.stopsNow_of_stopReq {q : Part} (h : q.stopReq ≠ none) : q.stopsNow = true := by
  simp [Part.stopsNow, Option.isSome_iff_ne_none.2 h]

theorem Part.stopsNow_eq_false {q : Part} (hreq : q.stopReq = none) (hat : q.jb.stopAt = none) (htear : q.jb.teardown = none) :
    q.stopsNow = false := by
  simp [Part.stopsNow, hreq, hat, htear]

/-- Settles O27: nothing stands against the partition, so the boundary commits the step; what applies then is the stop, or the next
step. -/
theorem stepBoundaryCommits : Obligations.StepBoundaryCommits := by
  intro p s _ hrun hdue hsize hfence hcells hopen hraised
  obtain ⟨u, hu, hexec⟩ := execStepBoundary_clean hrun hdue hsize hfence hcells hopen hraised
  have hpart (k : Nat) : u.part k = s.part k := State.part_of_planView hu k
  obtain ⟨slots, recs, park, saved, res, hres, hcommit⟩ := u.commit_part_same p
  rw [hpart] at hres hcommit
  have hother (k : Nat) (hk : k ≠ p) : (u.commit p).part k = s.part k := (u.commit_part_ne hk).trans (hpart k)
  rw [State.commit_stopsNow, hpart] at hexec
  by_cases hstop : (s.part p).stopsNow = true
  · rw [if_pos hstop] at hexec
    refine ⟨_, hexec, ?_⟩
    simp only [State.divide_part, State.quietPart_part, State.onPart_part_same, hcommit]
    refine ⟨trivial, fun k hk => ?_, fun hreq hat htear _ => ?_, fun _ => ⟨trivial, trivial⟩⟩
    · rw [State.onPart_part_ne _ _ hk, hother k hk]
    · simp [Part.stopsNow_eq_false hreq hat htear] at hstop
  · rw [if_neg hstop] at hexec
    refine ⟨_, hexec, ?_⟩
    obtain ⟨_, _, _, hnew⟩ := ((u.commit p).onPart p Part.nextStep).enterStep_part_same p
    rw [State.onPart_part_same, hcommit] at hnew
    refine ⟨hnew.committed, fun k hk => ?_, fun _ _ _ _ => ?_, fun hreq => absurd (Part.stopsNow_of_stopReq hreq) hstop⟩
    · rw [State.enterStep_part_ne _ hk, State.onPart_part_ne _ _ hk, hother k hk]
    · exact ⟨hnew.st.trans hrun, hnew.stepNo, hnew.epoch, hnew.epochIdx, hnew.cyclePos, hnew.stepKind, hnew.stepStart,
        by rw [hnew.lastResult]; exact congrArg some hres⟩

/-! ### The body boundary and epoch boundaries (O28) -/

/-- A partition after the body boundary's own effects, the bank switch aside (R43). -/
def Part.enterBody (q : Part) : Part := ((q.newEpoch 1).slotEffects.rotate).takeParts

theorem Part.enterBody_schedule (q : Part) : q.enterBody.schedule = (q.newEpoch 1).schedule := by
  rw [Part.enterBody, Part.takeParts_schedule, Part.rotate_schedule, Part.slotEffects_schedule]

theorem execBodyBoundary_due {s : State} {p : Nat} (hrun : (s.part p).st = .running) (hidx : (s.part p).epochIdx = 0)
    (hdue : (s.part p).planTime = 1024 * ((s.part p).stepStart + ((s.part p).kind (s.part p).stepKind).window)) :
    execBodyBoundary p s =
      ok (((s.onPart p Part.enterBody).switchAt p 1 (s.part p).win.bankRec.isSome).resetBarrows p) := by
  unfold execBodyBoundary
  simp only [State.running_eq_true hrun, hidx, hdue, Bool.not_true, Bool.false_eq_true, ne_eq, not_true_eq_false, or_self, if_false]
  rfl

theorem execEpochBoundary_due {s : State} {p i f : Nat} (hrun : (s.part p).st = .running) (hidx : (s.part p).epochIdx = i + 1)
    (hat : ((s.part p).kind (s.part p).stepKind).epochAt[i]? = some f)
    (hdue : (s.part p).planTime = 1024 * ((s.part p).stepStart + f)) :
    execEpochBoundary p s =
      ok (((s.onPart p (fun q => q.newEpoch (i + 2))).switchAt p (i + 2) false).resetBarrows p) := by
  unfold execEpochBoundary
  simp only [State.running_eq_true hrun, hidx, hat, hdue, Nat.add_sub_cancel, Bool.not_true, Bool.false_eq_true, ne_eq,
    not_true_eq_false, or_self, if_false]

theorem execEpochBoundary_idle {s : State} {p : Nat} (hrun : (s.part p).st ≠ .running) : execEpochBoundary p s = .next s := by
  unfold execEpochBoundary
  dsimp only
  split
  · simp [State.running_eq_false hrun, ok]
  · rfl

theorem State.resetBarrows_cells (s : State) (p : Nat) : (s.resetBarrows p).cells = s.cells :=
  foldl_invariant State.cells (fun _ b => State.onBlock_cells _ b _) _ s

theorem State.switchAt_of_not_named {s : State} {p i : Nat} (h : (s.part p).switchNamed i = false) : s.switchAt p i false = s :=
  if_neg (by simp [h])

/-- Settles O28: the partition that the boundary's own effects leave keeps its schedule, and the bank switch then changes its banks
alone. -/
theorem bodyAndEpochBoundaries : Obligations.BodyAndEpochBoundaries := by
  refine ⟨fun p s hrun hidx hdue => ?_, fun p i f s hrun hidx hat hdue => ?_, fun p s hrun => ⟨?_, ?_, ?_⟩⟩
  · refine ⟨_, execBodyBoundary_due hrun hidx hdue, ?_⟩
    obtain ⟨n, l, st, hswitch⟩ := (s.onPart p Part.enterBody).switchAt_part_same p 1 (s.part p).win.bankRec.isSome
    rw [State.onPart_part_same] at hswitch
    have hbody := Part.sameSchedule_of_eq (s.part p).enterBody_schedule
    simp only [State.resetBarrows_part, hswitch]
    refine ⟨hbody.epoch, hbody.epochIdx, hbody.stepNo, hbody.stepKind, hbody.st.trans hrun, ?_, fun k hk => ?_⟩
    · rw [hbody.bankAct, hbody.switchNamed, Bool.or_comm]
      rfl
    · rw [State.switchAt_part_ne _ hk, State.onPart_part_ne _ _ hk]
  · refine ⟨_, execEpochBoundary_due hrun hidx hat hdue, ?_⟩
    obtain ⟨n, l, st, hswitch⟩ := (s.onPart p (fun q => q.newEpoch (i + 2))).switchAt_part_same p (i + 2) false
    rw [State.onPart_part_same] at hswitch
    simp only [State.resetBarrows_part, State.resetBarrows_cells, hswitch]
    refine ⟨rfl, rfl, rfl, hrun, fun k hk => ?_, ?_, fun hnamed => ?_⟩
    · rw [State.switchAt_part_ne _ hk, State.onPart_part_ne _ _ hk]
    · rw [Bool.or_false]
      rfl
    · rw [State.switchAt_of_not_named (by rw [State.onPart_part_same]; exact hnamed)]
      rfl
  · exact if_pos (.inl (by simp [State.running_eq_false hrun]))
  · exact execEpochBoundary_idle hrun
  · exact if_pos (.inl (by simp [State.running_eq_false hrun]))

/-! ### Job zero (O29) -/

/-- What a mark does to one partition: one that waits for it starts, one that waits for an earlier mark or finds the hall not ready misses
its zero (R362). -/
def State.zeroTurn (s : State) (p : Nat) : State :=
  match (s.part p).jb.startMark with
  | none => s
  | some m =>
    if (s.part p).st ≠ .armed ∨ s.tu.mark < m then s
    else if m = s.tu.mark ∧ s.tu.gust = 5 ∧ s.tu.hall = .locked then ((s.onPart p Part.start).switchAt p 0 false).beginStep p
    else
      (s.jobFault 0x96 [p] locHub s.tu.alignErr.natAbs m).onPart p (fun q => { q with jb := { q.jb with startMark := none } })

theorem execJobZero_atMark {s : State} (hcyc : s.cycle % 1024 = 0) (hj : s.tu.j = 0) :
    execJobZero s = .next (allParts.foldl State.zeroTurn s) := if_neg (by simp [State.fcyc, hcyc, hj])

theorem State.zeroTurn_idle {s : State} {p : Nat} (h : (s.part p).jb.startMark = none) : s.zeroTurn p = s := by
  simp [State.zeroTurn, h]

section
variable {s : State} {p : Nat} (harmed : (s.part p).st = .armed) (hmark : (s.part p).jb.startMark = some s.tu.mark)
include harmed hmark

theorem State.zeroTurn_starts (hgust : s.tu.gust = 5) (hhall : s.tu.hall = .locked) :
    s.zeroTurn p = ((s.onPart p Part.start).switchAt p 0 false).beginStep p := by
  simp [State.zeroTurn, harmed, hmark, hgust, hhall]

theorem State.zeroTurn_misses (h : s.tu.gust ≠ 5 ∨ s.tu.hall ≠ .locked) :
    s.zeroTurn p = (s.jobFault 0x96 [p] locHub s.tu.alignErr.natAbs s.tu.mark).onPart p
      (fun q => { q with jb := { q.jb with startMark := none } }) := by
  have hnot : ¬ (s.tu.gust = 5 ∧ s.tu.hall = .locked) := fun ⟨hgust, hhall⟩ => h.elim (· hgust) (· hhall)
  simp [State.zeroTurn, harmed, hmark, hnot]

theorem State.zeroTurn_part_ne {k : Nat} (hk : k ≠ p) : (s.zeroTurn p).part k = s.part k := by
  by_cases h : s.tu.gust = 5 ∧ s.tu.hall = .locked
  · rw [State.zeroTurn_starts harmed hmark h.1 h.2, State.enterStep_part_ne _ hk, State.onPart_part_ne _ _ hk]
  · rw [State.zeroTurn_misses harmed hmark (not_and_or.1 h), State.onPart_part_ne _ _ hk]
    rfl

end

/-- Updates of which only one does anything, before and after it, do that one. -/
theorem foldl_eq_of_only {f : State → Nat → State} {s : State} {p : Nat} {l : List Nat} (hl : l.Nodup) (hp : p ∈ l)
    (hbefore : ∀ k ∈ l, k ≠ p → f s k = s) (hafter : ∀ k ∈ l, k ≠ p → f (f s p) k = f s p) : l.foldl f s = f s p := by
  obtain ⟨l₁, l₂, rfl⟩ := List.append_of_mem hp
  obtain ⟨hp₁, hp₂⟩ : p ∉ l₁ ∧ p ∉ l₂ := by simpa using (List.nodup_middle.1 hl).notMem
  rw [List.foldl_append, List.foldl_cons, foldl_eq_self fun k hk => hbefore k (by simp [hk]) (ne_of_mem_of_not_mem hk hp₁),
    foldl_eq_self fun k hk => hafter k (by simp [hk]) (ne_of_mem_of_not_mem hk hp₂)]

/-- A partition without a resumption starts at plan time 0, step 0 and epoch 0 (R25, R27). -/
theorem Part.start_sameSchedule {q : Part} (h : q.jb.resume = none) : q.start.SameSchedule { q with
    st := .running, planTime := 0, stepNo := 0, cyclePos := 0, stepKind := q.kindAt 0, stepStart := 0, epoch := 0, epochIdx := 0
    jb := { q.jb with startMark := none } } := by
  simp only [Part.start, h, Option.getD_none, Nat.zero_mod]
  constructor <;> rfl

theorem State.beginStep_raised (s : State) (p : Nat) : (s.beginStep p).raised = s.raised :=
  foldl_invariant State.raised (fun _ b => State.onBlock_raised _ b _) _ _

/-- Settles O29: only the partition that waits for this mark does anything at it. -/
theorem jobZeroStartsPartitions : Obligations.JobZeroStartsPartitions := by
  refine ⟨fun s h => if_pos h, fun s p hcyc hj hp harmed hmark hresume _ hothers => ?_⟩
  have hother (k : Nat) (hk : k ≠ p) : (s.zeroTurn p).part k = s.part k := State.zeroTurn_part_ne harmed hmark hk
  have hexec : exec .jobZero s = .next (s.zeroTurn p) := by
    refine (execJobZero_atMark hcyc hj).trans (congrArg _ (foldl_eq_of_only List.nodup_range (List.mem_range.2 hp) ?_ ?_))
    · exact fun k hk hne => State.zeroTurn_idle (hothers k (List.mem_range.1 hk) hne)
    · exact fun k hk hne => State.zeroTurn_idle (by rw [hother k hne]; exact hothers k (List.mem_range.1 hk) hne)
  refine ⟨_, hexec, hother, fun hgust hhall => ?_, fun hmiss => ?_⟩
  · rw [State.zeroTurn_starts harmed hmark hgust hhall]
    have hstart := Part.start_sameSchedule hresume
    obtain ⟨_, _, _, hnew⟩ := (s.onPart p Part.start).enterStep_part_same p
    rw [State.onPart_part_same] at hnew
    refine ⟨hnew.st.trans hstart.st, hnew.planTime.trans hstart.planTime, hnew.stepNo.trans hstart.stepNo,
      hnew.epoch.trans hstart.epoch, hnew.stepKind.trans hstart.stepKind, hnew.startMark.trans hstart.startMark, fun hnamed => ?_⟩
    rw [State.beginStep_raised, State.switchAt_of_not_named]
    · rfl
    · rw [State.onPart_part_same, hstart.switchNamed]
      exact hnamed
  · rw [State.zeroTurn_misses harmed hmark hmiss, State.onPart_part_same]
    exact ⟨harmed, rfl, ⟨_, rfl, rfl, rfl, rfl, rfl⟩, rfl⟩

end Sys2Proof.Machine
end

