-- ==== Sys2Proof/Proofs/FrameBoundary.lean ====
section
/-! PROOF. A frame boundary (O26): PLAN_FRAME is shown, the cap that waits comes into force, and the partitions against which the frame
raised a fault are fenced (R34, R479, R500 to R502). -/

namespace Sys2Proof.Machine

/-! ### The frame count and the cap under the effects of a frame boundary -/

/-- What a frame boundary sets once and its later effects leave: the frame count, the cap and the domains to trip. -/
def State.frameView (s : State) : Nat × Nat × Option Nat × BitVec 96 := (s.frameNo, s.pwr.capW, s.pwr.capNext, s.pwr.domOff)

theorem State.frameView_eq {s t : State} (hno : t.frameNo = s.frameNo) (hpwr : t.pwr = s.pwr) : t.frameView = s.frameView := by
  rw [State.frameView, hno, hpwr, State.frameView]

theorem State.event_frameView (s : State) (kind part : Nat) (args : List Nat) : (s.event kind part args).frameView = s.frameView :=
  State.frameView_eq (s.event_frameNo ..) (s.event_pwr ..)

theorem State.divide_frameView (s : State) : s.divide.frameView = s.frameView := rfl

theorem State.setCore_frameView (s : State) : s.setCore.frameView = s.frameView := rfl

theorem State.recordAll_frameView (s : State) (l : List Raise) : (s.recordAll l).frameView = s.frameView :=
  foldl_invariant State.frameView (fun t r => by
    unfold State.record
    dsimp only
    split
    · exact State.frameView_eq rfl rfl
    · exact State.frameView_eq rfl rfl) l s

theorem State.portsFrame_frameView (s : State) : s.portsFrame.frameView = s.frameView :=
  foldl_invariant State.frameView (fun s i => by
    dsimp only
    split
    · rfl
    · exact State.event_frameView ..) _ s

/-- A partition whose rotation vote is decided in frame `frm` of a vote tree of height `h` takes up what was agreed (R392). -/
def Part.agree (q : Part) (frm h : Nat) : Part :=
  if q.jb.rotV = some (frm - 5 * h) ∧ 5 * h ≤ frm then { q with jb := { q.jb with rotAgreed := some q.jb.rotVal } } else q

/-- The vote frame changes the time unit and, at the root, what the partitions hold of their votes. -/
theorem State.voteFrame_cases (s : State) : ∃ tu, s.voteFrame = { s with tu } ∨
    ∃ h, s.voteFrame = { s with tu, parts := mapv Part.zero s.parts (fun _ q => q.agree s.frm h) } := by
  unfold State.voteFrame
  split
  next h t _ =>
    dsimp only
    cases s.tu.voteMark with
    | none =>
      split
      exacts [⟨_, .inl rfl⟩, ⟨_, .inr ⟨h, rfl⟩⟩]
    | some m =>
      by_cases hv : s.tu.votes.any (fun v => decide (v.mark = m)) = true
      · simp only [if_pos hv]
        split
        exacts [⟨_, .inl rfl⟩, ⟨_, .inr ⟨h, rfl⟩⟩]
      · simp only [if_neg hv]
        split
        exacts [⟨_, .inl rfl⟩, ⟨_, .inr ⟨h, rfl⟩⟩]

theorem State.voteFrame_frameView (s : State) : s.voteFrame.frameView = s.frameView := by
  obtain ⟨tu, h | ⟨_, h⟩⟩ := s.voteFrame_cases <;> rw [h] <;> rfl

theorem State.fencePart_frameView (s : State) (p : Nat) (f : Bool × Nat) (tail : Bool) :
    (s.fencePart p f tail).frameView = s.frameView := by
  unfold State.fencePart
  extract_lets q s1 s2
  split
  · rfl
  rw [State.event_frameView]
  change s1.frameView = s.frameView
  simp only [s1]
  repeat' split
  all_goals rfl

/-- The fence of one partition's faults of the frame that ends. -/
def State.fenceTurn (l : List Raise) (s : State) (p : Nat) : State :=
  match faultOf l p with
  | none => s
  | some f =>
    if s.running p && decide ((s.part p).planTime = 1024 * (s.part p).stepStop) then s.onPart p (fun q => { q with fenceAt := some f })
    else s.fencePart p f ((s.part p).inTail ((s.part p).planTime / 1024 - 1))

theorem State.fence_eq (s : State) (l : List Raise) : s.fence l = allParts.foldl (State.fenceTurn l) s := rfl

theorem State.fence_frameView (s : State) (l : List Raise) : (s.fence l).frameView = s.frameView := by
  rw [State.fence_eq]
  refine foldl_invariant State.frameView (fun s p => ?_) _ s
  unfold State.fenceTurn
  split
  · rfl
  · split
    · rfl
    · exact State.fencePart_frameView ..

/-! ### The partitions under the effects of a frame boundary -/

/-- A partition as the frame boundary shows it (R34). -/
def Part.showFrame (q : Part) : Part := if q.st = .running then { q with planFrame := q.planTime / 1024 } else q

theorem Part.showFrame_running {q : Part} (h : q.st = .running) : q.showFrame = { q with planFrame := q.planTime / 1024 } := if_pos h

theorem Part.showFrame_zero : Part.zero.showFrame = Part.zero := if_neg (by decide)

/-- Where an update leaves the partition at reset as it is, every partition stands as the update leaves it. -/
theorem State.part_of_parts_mapv {s u : State} (hwf : SMap.wf Part.zero s.parts = true) {f : Part → Part}
    (hzero : f Part.zero = Part.zero) (hu : u.parts = mapv Part.zero s.parts (fun _ => f)) (p : Nat) : u.part p = f (s.part p) := by
  rw [State.part, hu]
  exact look_mapv _ _ _ (fun _ => hzero) (Bool.and_eq_true_iff.1 hwf).1 p

theorem Part.agree_zero (frm h : Nat) : Part.zero.agree frm h = Part.zero := if_neg (by simp [Part.zero])

theorem Part.agree_eq (frm h : Nat) (q : Part) : ∃ jb, q.agree frm h = { q with jb } := by
  unfold Part.agree
  split
  · exact ⟨_, rfl⟩
  · exact ⟨_, rfl⟩

/-- The vote frame changes what a partition holds of its job at most. -/
theorem State.voteFrame_part {s : State} (hwf : SMap.wf Part.zero s.parts = true) (p : Nat) :
    ∃ jb, s.voteFrame.part p = { s.part p with jb } := by
  obtain ⟨tu, hsame | ⟨n, hroot⟩⟩ := s.voteFrame_cases
  · rw [hsame]
    exact ⟨_, rfl⟩
  · rw [State.part_of_parts_mapv (f := fun q => q.agree s.frm n) hwf
      (Part.agree_zero s.frm n) (congrArg State.parts hroot)]
    exact Part.agree_eq ..

theorem State.fenceTurn_part_ne (l : List Raise) (s : State) (p k : Nat) (hk : k ≠ p) : (s.fenceTurn l p).part k = s.part k := by
  unfold State.fenceTurn
  split
  · rfl
  · split
    · exact State.onPart_part_ne _ _ hk
    · exact s.fencePart_part_ne hk ..

/-- Of a run of updates each of which leaves every partition but its own, a partition has what its own update does to it. -/
theorem foldl_part_eq_turn {f : State → Nat → State} (hother : ∀ s p k, k ≠ p → (f s p).part k = s.part k) {l : List Nat}
    (hl : l.Nodup) {p : Nat} (hp : p ∈ l) (s : State) : ∃ u : State, u.part p = s.part p ∧ (l.foldl f s).part p = (f u p).part p := by
  obtain ⟨l₁, l₂, rfl⟩ := List.append_of_mem hp
  obtain ⟨hp₁, hp₂⟩ : p ∉ l₁ ∧ p ∉ l₂ := by simpa using (List.nodup_middle.1 hl).notMem
  refine ⟨l₁.foldl f s, foldl_part_of_not_mem hother hp₁ s, ?_⟩
  rw [List.foldl_append, List.foldl_cons, foldl_part_of_not_mem hother hp₂]

theorem State.fence_part {s : State} {p : Nat} (hp : p < 16) (l : List Raise) :
    ∃ u : State, u.part p = s.part p ∧ (s.fence l).part p = (u.fenceTurn l p).part p :=
  foldl_part_eq_turn (State.fenceTurn_part_ne l) List.nodup_range (List.mem_range.2 hp) s

/-! ### The faults of the frame that ends -/

theorem faultOf_eq_none {l : List Raise} {p : Nat} (h : ∀ r ∈ l, r.cls = .event ∨ p ∉ r.parts) : faultOf l p = none := by
  have hmine : l.filter (fun r => decide (r.cls ≠ .event) && r.parts.contains p) = [] :=
    List.filter_eq_nil_iff.2 fun r hr => by rcases h r hr with hr | hr <;> simp [hr]
  simp only [faultOf, hmine]

theorem exists_faultOf {l : List Raise} {p : Nat} {r : Raise} (hr : r ∈ l) (hcls : r.cls ≠ .event) (hp : p ∈ r.parts) :
    ∃ f, faultOf l p = some f := by
  have hmem : r ∈ l.filter (fun r => decide (r.cls ≠ .event) && r.parts.contains p) :=
    List.mem_filter.2 ⟨hr, by simp [hcls, hp]⟩
  obtain ⟨r', l', hcons⟩ := List.exists_cons_of_ne_nil (List.ne_nil_of_mem hmem)
  exact ⟨_, by rw [faultOf, hcons]⟩

theorem State.fenceTurn_clean {l : List Raise} {s : State} {p : Nat} (h : faultOf l p = none) : s.fenceTurn l p = s := by
  simp [State.fenceTurn, h]

theorem State.fenceTurn_faulted {l : List Raise} {s : State} {p : Nat} {f : Bool × Nat} (h : faultOf l p = some f)
    (hrun : (s.part p).st = .running) (hgo : (s.part p).planTime ≠ 1024 * (s.part p).stepStop) :
    ((s.fenceTurn l p).part p).st = .faulted := by
  simp only [State.fenceTurn, h, hgo, decide_false, Bool.and_false, Bool.false_eq_true, if_false]
  exact State.fencePart_faulted (by simp [Part.active?, hrun]) ..

/-! ### O26 -/

/-- The raises that a frame boundary takes up: those of earlier cycles, beside the ones that belong to a step's end (R500). -/
def State.dueRaises (s : State) : List Raise := s.raised.filter (fun r => !r.ending && decide (r.cycle < s.cycle))

theorem State.mem_dueRaises {s : State} {r : Raise} : r ∈ s.dueRaises ↔ r ∈ s.raised ∧ r.ending = false ∧ r.cycle < s.cycle := by
  simp [State.dueRaises]

/-- A frame boundary that is due sets the frame count and the cap and shows the partitions their frame; the fence follows, and after it
nothing of these changes where no domain is to be tripped. -/
theorem execFrameBoundary_due {s : State} (hcyc : s.cycle % 1024 = 0) (hfrm : s.frameNo ≤ s.cycle / 1024) (hdom : s.pwr.domOff = 0) :
    ∃ u t : State, execFrameBoundary s = .next t ∧
      u.frameView = (s.cycle / 1024 + 1, s.pwr.capNext.getD s.pwr.capW, none, 0) ∧
      u.parts = mapv Part.zero s.parts (fun _ => Part.showFrame) ∧
      t.frameView = u.frameView ∧ t.planView = (u.portsFrame.voteFrame.setCore.fence s.dueRaises).planView := by
  have hgo : ¬ (s.fcyc ≠ 0 ∨ s.frm < s.frameNo) := by
    simp [State.fcyc, State.frm, hcyc, Nat.not_lt.2 hfrm]
  unfold execFrameBoundary
  rw [if_neg hgo]
  extract_lets now s1 s2 cold pwr s3 s4 s5
  have hview₁ : s1.frameView = s.frameView := State.recordAll_frameView ..
  have hplan₁ : s1.planView = s.planView := State.recordAll_planView ..
  obtain ⟨hcycle, hparts⟩ := State.planView_eq_iff.1 hplan₁
  obtain ⟨-, hcap, hnext, hoff⟩ : s1.frameNo = s.frameNo ∧ s1.pwr.capW = s.pwr.capW ∧ s1.pwr.capNext = s.pwr.capNext ∧
    s1.pwr.domOff = s.pwr.domOff := by simpa only [State.frameView, Prod.mk.injEq] using hview₁
  have hview₃ : s3.frameView = (s.cycle / 1024 + 1, s.pwr.capNext.getD s.pwr.capW, none, 0) := by
    rw [← hcycle, ← hcap, ← hnext, ← hdom, ← hoff]
    rfl
  have hview₅ : s5.frameView = s3.frameView := by
    have hview₄ : s4.frameView = s3.frameView := by
      simp only [s4, State.divide_frameView, State.fence_frameView, State.setCore_frameView, State.voteFrame_frameView,
        State.portsFrame_frameView]
    simp only [s5]
    split
    · rw [State.event_frameView, hview₄]
    · exact hview₄
  have hplan₅ : s5.planView = (s3.portsFrame.voteFrame.setCore.fence now).planView := by
    simp only [s5, State.planView_ite, State.event_planView, ite_self, s4, State.divide_planView]
  have hparts₃ : s3.parts = mapv Part.zero s.parts (fun _ => Part.showFrame) := by
    rw [← hparts]
    rfl
  clear_value s5 s3
  have hoff₅ : s5.pwr.domOff = 0 :=
    congrArg (fun v : Nat × Nat × Option Nat × BitVec 96 => v.2.2.2) (hview₅.trans hview₃)
  have htrip : s5.tripDoms = s5 := if_pos hoff₅
  exact ⟨s3, s5, congrArg _ htrip, hview₃, hparts₃, hview₅, hplan₅⟩

/-- Settles O26: a partition stands after the boundary as its own turn of the fence leaves it. -/
theorem frameBoundaryUpdates : Obligations.FrameBoundaryUpdates := by
  refine ⟨fun s h => if_pos h, fun s hcyc hfrm hdom hwf => ?_⟩
  obtain ⟨u, t, hexec, hu, hparts, hview, hplan⟩ := execFrameBoundary_due hcyc hfrm hdom
  obtain ⟨hno, hcap, hnext, -⟩ : t.frameNo = s.cycle / 1024 + 1 ∧ t.pwr.capW = s.pwr.capNext.getD s.pwr.capW ∧
    t.pwr.capNext = none ∧ t.pwr.domOff = 0 := by simpa only [State.frameView, Prod.mk.injEq] using hview.trans hu
  refine ⟨t, hexec, hno, hcap, hnext, fun p hp hrun => ?_⟩
  have hshow : u.part p = { s.part p with planFrame := (s.part p).planTime / 1024 } := by
    rw [State.part_of_parts_mapv hwf Part.showFrame_zero hparts, Part.showFrame_running hrun]
  have hports : u.portsFrame.parts = u.parts := (State.planView_eq_iff.1 u.portsFrame_planView).2
  obtain ⟨jb, hvote⟩ := State.voteFrame_part (s := u.portsFrame) (by rw [hports, hparts]; exact mapv_wf _ _ _ hwf) p
  rw [State.part_of_planView u.portsFrame_planView, hshow] at hvote
  obtain ⟨v, hv, hfence⟩ := State.fence_part (s := u.portsFrame.voteFrame.setCore) hp s.dueRaises
  rw [State.part_of_planView (State.setCore_planView _), hvote] at hv
  rw [State.part_of_planView hplan, hfence]
  refine ⟨fun hclean => ?_, fun ⟨r, hr, hend, hcycle, hcls, hparts⟩ hgo => ?_⟩
  · have hnone : faultOf s.dueRaises p = none := faultOf_eq_none fun r hr => by
      obtain ⟨hr, hend, hcycle⟩ := State.mem_dueRaises.1 hr
      exact hclean r hr hend hcycle
    rw [State.fenceTurn_clean hnone, hv]
    exact ⟨hrun, rfl⟩
  · obtain ⟨f, hf⟩ := exists_faultOf (State.mem_dueRaises.2 ⟨hr, hend, hcycle⟩) hcls hparts
    exact State.fenceTurn_faulted hf (by rw [hv]; exact hrun) (by rw [hv]; exact hgo)

end Sys2Proof.Machine
end

