-- ==== Sys2Proof/Proofs/CompletionFlags.lean ====
section
/-! PROOF. The completion flag of a landing record (O31): set once, in landing slots, with the completion of the command that made the
record, and seen in the plan domain 8 ns later (R36, R37, R257, R462). -/

namespace Sys2Proof.Machine
open Sys2Proof.Stmt

/-! ### The record in the landing area -/

/-- Lines that the hub writes to the cold frame change the cold frame's lines alone. -/
theorem State.putLines_cold (s : State) (p : Nat) (a : Nat) (ls : List Line) :
    ∃ lines, s.putLines p .cold a ls = { s with cold := { s.cold with lines } } := by
  induction ls generalizing s a with
  | nil => exact ⟨s.cold.lines, rfl⟩
  | cons d ds ih =>
    obtain ⟨lines, hd⟩ : ∃ lines, s.putOwn p .cold a d = { s with cold := { s.cold with lines } } := by
      unfold State.putOwn State.putPart
      split
      · exact ⟨_, rfl⟩
      dsimp only
      split
      · exact ⟨_, rfl⟩
      unfold State.putLine
      dsimp only
      split <;> exact ⟨_, rfl⟩
    rw [State.putLines, hd]
    exact ih _ _

/-- Record `n` of a partition becomes `r`. -/
def Part.setRec (q : Part) (n : Nat) (r : Rec) : Part := { q with recs := put none q.recs n (some r) }

theorem Part.look_setRec_same (q : Part) (n : Nat) (r : Rec) : look none (q.setRec n r).recs n = some r :=
  look_put_same none q.recs n (some r)

theorem Part.look_setRec_ne (q : Part) {n k : Nat} (r : Rec) (hk : k ≠ n) : look none (q.setRec n r).recs k = look none q.recs k :=
  look_put_ne none q.recs (some r) hk

/-- The operation whose completion a landing record of a kind answers (Table 10.4). -/
def recordOp : Nat → Nat
  | 1 => 0x0501
  | 2 => 0x0502
  | 3 => 0x0503
  | 4 => 0x0504
  | 5 => 0x0404
  | 6 => 0x0307
  | _ => 0x0306

/-- A record as its flag is set: stamped with the hall time, its command answered. -/
def Rec.flagged (r : Rec) (t : Nat) : Rec := { r with flagAt := some t, hdr := none }

theorem execCompletionFlagSet_lands {s : State} {p n : Nat} {r : Rec} (hrec : look none (s.part p).recs n = some r)
    (hflag : r.flagAt = none) (hland : s.landSlots p = true) : ∃ lines ctr, execCompletionFlagSet p n s = .next
      (((({ s with freeCtr := ctr, cold := { s.cold with lines } } : State).onPart p (fun q =>
        q.setRec n (r.flagged s.hallNow))).post? r.hdr (recordOp r.kind) 0 [(8, n)]).count
          locHub 0x406 1) := by
  obtain ⟨lines, hput⟩ := s.fresh.putLines_cold p r.paddr (Config.freeLine s.freeCtr :: r.lines)
  refine ⟨lines, s.freeCtr + 1, ?_⟩
  simp only [execCompletionFlagSet, hrec, hflag, hland, Option.isSome_none, Bool.not_true, Bool.false_eq_true, or_self, if_false, hput]
  rfl

theorem execCompletionFlagSet_waits {s : State} {p n : Nat} {r : Rec} (hrec : look none (s.part p).recs n = some r)
    (hland : s.landSlots p = false) : execCompletionFlagSet p n s = .next s := by
  simp [execCompletionFlagSet, hrec, hland, ok]

theorem execCompletionFlagVisible_flagged {s : State} {p n f : Nat} {r : Rec} (hrec : look none (s.part p).recs n = some r)
    (hflag : r.flagAt = some f) : execCompletionFlagVisible p n s =
      if s.hallNow < f + 8 then .next s
      else .next (s.onPart p (fun q => q.setRec n { r with visible := true })) := by
  simp only [execCompletionFlagVisible, hrec, hflag, ok]
  rfl

theorem State.post?_cells (s : State) (h : Option Hdr) (op st : Nat) (res : List (Nat × Nat)) :
    (s.post? h op st res).cells = s.cells := by
  cases h
  · rfl
  · exact State.post_cells ..

theorem State.post?_stks (s : State) (h : Option Hdr) (op st : Nat) (res : List (Nat × Nat)) :
    (s.post? h op st res).stks = s.stks := by
  cases h
  · rfl
  · exact State.post_stks ..

theorem State.post?_cold (s : State) (h : Option Hdr) (op st : Nat) (res : List (Nat × Nat)) :
    (s.post? h op st res).cold = s.cold := by
  cases h
  · rfl
  · exact State.post_cold ..

/-- A completion that answers a waiting command, counted, is still there. -/
theorem post?_count_answered {s : State} {h : Hdr} {op : Nat} {res : List (Nat × Nat)} (hlisten : Listening s h op)
    (loc ev n : Nat) : Answered ((s.post? (some h) op 0 res).count loc ev n) h op 0 res :=
  s.post_answered h op 0 res hlisten.1 hlisten.2

/-- Settles O31: the set flag is one write to the partition's records, one to the cold frame's lines and one completion. -/
theorem completionFlags : Obligations.CompletionFlags := by
  refine ⟨fun p n s r hrec hflag => ⟨fun hland => ?_, execCompletionFlagSet_waits hrec⟩, fun p n f s r hrec hflag => ?_⟩
  · obtain ⟨lines, ctr, hexec⟩ := execCompletionFlagSet_lands hrec hflag hland
    refine ⟨_, hexec, ?_, fun k hk => ?_, fun q hq => ?_, ?_, ?_, ?_, fun h hh hkind hlisten => ?_, fun h hh hkind hlisten => ?_⟩
    · rw [State.count_part, State.post?_part, State.onPart_part_same]
      exact Part.look_setRec_same ..
    · rw [State.count_part, State.post?_part, State.onPart_part_same]
      exact Part.look_setRec_ne _ _ hk
    · rw [State.count_part, State.post?_part, State.onPart_part_ne _ _ hq]
      rfl
    · rw [State.count_cells, State.post?_cells]
      rfl
    · rw [State.count_stks, State.post?_stks]
      rfl
    · rw [State.count_cold, State.post?_cold]
      rfl
    · rw [hh, hkind]
      refine post?_count_answered ?_ ..
      exact hlisten
    · rw [hh, hkind]
      refine post?_count_answered ?_ ..
      exact hlisten
  · rw [show exec (.completionFlagVisible p n) s = _ from execCompletionFlagVisible_flagged hrec hflag]
    refine ⟨fun hlate => ⟨_, if_neg (Nat.not_lt.2 hlate), ?_, fun q hq => ?_, rfl⟩, fun hearly => if_pos hearly⟩
    · rw [State.onPart_part_same]
      exact Part.look_setRec_same ..
    · exact State.onPart_part_ne _ _ hq

end Sys2Proof.Machine
end

