-- ==== Sys2Proof/Proofs/CellIssue.lean ====
section
/-! SUPPORT. Everything that issuing a cell instruction can leave of its cell: a cause stops it, an instruction that is not enabled only
holds its slot and units, a simple one puts its result in flight (R71, R82, R83, R93, R546). -/

namespace Sys2Proof.Machine
open Sys2Proof.Stmt

/-! ### Counting events -/

/-- Between `s` and `t` events were counted and nothing else happened. -/
def Counted (s t : State) : Prop := ∃ counters health, t = { s with counters, health }

theorem Counted.refl (s : State) : Counted s s := ⟨_, _, rfl⟩

theorem State.count_counted (s : State) (loc ev n : Nat) : Counted s (s.count loc ev n) := ⟨_, _, rfl⟩

theorem Counted.ite {s t u : State} {p : Prop} [Decidable p] (ht : Counted s t) (hu : Counted s u) : Counted s (if p then t else u) := by
  split
  · exact ht
  · exact hu

/-! ### A cause stops the cell -/

theorem lowest_eq_none_iff {l : List Nat} : lowest l = none ↔ l = [] := by
  cases l with
  | nil => simp [lowest]
  | cons a l => cases h : lowest l <;> simp [lowest, h]

/-- `lowest` is the least cause of the list. -/
theorem lowest_eq_some_iff {l : List Nat} {m : Nat} : lowest l = some m ↔ m ∈ l ∧ ∀ k ∈ l, m ≤ k := by
  induction l generalizing m with
  | nil => simp [lowest]
  | cons a l ih =>
    cases h : lowest l with
    | none =>
      obtain rfl := lowest_eq_none_iff.1 h
      simp only [lowest, Option.some.injEq, List.mem_singleton, forall_eq]
      omega
    | some d =>
      obtain ⟨hmem, hle⟩ := ih.1 h
      simp only [lowest, h, Option.some.injEq, List.mem_cons, forall_eq_or_imp]
      constructor
      · rintro rfl
        refine ⟨?_, Nat.min_le_left .., fun k hk => le_trans (Nat.min_le_right ..) (hle k hk)⟩
        rcases Nat.le_total a d with had | had
        · exact .inl (Nat.min_eq_left had)
        · rw [Nat.min_eq_right had]
          exact .inr hmem
      · rintro ⟨rfl | hm, hma, hml⟩
        · exact Nat.min_eq_left (hml d hmem)
        · obtain rfl := Nat.le_antisymm (hml d hmem) (hle m hm)
          exact Nat.min_eq_right hma

@[simp] theorem cause_true (code : Nat) : cause true code = [code] := rfl
@[simp] theorem cause_false (code : Nat) : cause false code = [] := rfl

theorem mem_cause {b : Bool} {code k : Nat} : k ∈ cause b code ↔ b = true ∧ k = code := by
  cases b <;> simp

/-- A cause met by a cell whose issue slot is taken for the cycle stops it; of the causes of one cycle the lowest stands (R93, R546). -/
theorem State.cellFault_stops (s : State) (c code d0 d1 : Nat) (x : Cell) :
    ((s.setCell c { x with issueFree := s.cycle + 1 }).cellFault c code d0 d1).cell c = x.stopped code s.cycle := by
  unfold State.cellFault Cell.stopped
  cases x.fault with
  | none => simp
  | some f =>
    by_cases h : f.cycle = s.cycle ∧ code < f.code
    · simp [h, State.cell, State.setCell]
    · simp [h]

theorem State.cellFault_cell_ne (s : State) {c k : Nat} (code d0 d1 : Nat) (h : k ≠ c) :
    (s.cellFault c code d0 d1).cell k = s.cell k := by
  cases hf : (s.cell c).fault with
  | none =>
    obtain ⟨r, -, -, -, -, -, heq⟩ := cellFault_first s c code d0 d1 hf
    rw [heq]
    exact State.setCell_cell_ne _ _ h
  | some f =>
    by_cases hlow : f.cycle = s.cycle ∧ code < f.code
    · simp only [State.cellFault, hf, if_pos hlow]
      exact State.setCell_cell_ne _ _ h
    · rw [cellFault_keeps s c code d0 d1 hf hlow]

/-- Cell `c` has stopped on a cause met as it issued; it raised one partition fault against the owner of its block, unless it had
stopped in this cycle already. -/
structure StopsCell (s t : State) (c code : Nat) : Prop where
  cycle  : t.cycle = s.cycle
  cell   : t.cell c = (s.atIssue c).stopped code s.cycle
  others : ∀ k, k ≠ c → t.cell k = s.cell k
  raised : (s.cell c).fault = none → ∃ r, t.raised = s.raised ++ [r] ∧ r.cls = .partition ∧ r.code = code ∧
    r.parts = (s.cellOwner c).toList ∧ r.unit = locCell c ∧ r.cycle = s.cycle

theorem StopsCell.counted {s t u : State} {c code : Nat} (h : StopsCell s t c code) (hu : Counted t u) : StopsCell s u c code := by
  obtain ⟨counters, health, rfl⟩ := hu
  exact ⟨h.cycle, h.cell, h.others, h.raised⟩

/-- A cell that has stopped issues nothing in the cycle of its fault, and its fault stands. -/
theorem StopsCell.canIssue {s t : State} {c code : Nat} (h : StopsCell s t c code) : t.canIssue c = false := by
  simp [State.canIssue, h.cell, h.cycle, Cell.stopped]

/-- Counting events before a cell stops changes nothing of how it stops. -/
theorem Counted.stopsCell {s u : State} (hu : Counted s u) (c code d0 d1 : Nat) :
    StopsCell s ((u.setCell c { s.atIssue c with issueFree := s.cycle + 1 }).cellFault c code d0 d1) c code := by
  obtain ⟨counters, health, rfl⟩ := hu
  refine ⟨(State.planView_eq_iff.1 (State.cellFault_planView ..)).1, State.cellFault_stops .., fun k hk => ?_, fun hnone => ?_⟩
  · rw [State.cellFault_cell_ne _ _ _ _ hk, State.setCell_cell_ne _ _ hk]
    rfl
  · obtain ⟨r, hcls, hcode, hparts, hunit, hcycle, heq⟩ := cellFault_first
      (({ s with counters, health } : State).setCell c { s.atIssue c with issueFree := s.cycle + 1 }) c code d0 d1
      (by simp [State.atIssue, hnone])
    exact ⟨r, by rw [heq]; rfl, hcls, hcode, hparts, hunit, hcycle⟩

/-! ### What issuing can do -/

section
variable {c : Nat} {e : En} {word : Word} {f : Cell → Issue} {s : State} (hc : s.canIssue c = true)
include hc

/-- A fetch beyond the bank is FETCH_END alone (R71). -/
theorem issue_stops_pastBank (hpc : 8191 < (s.atIssue c).pc) : StopsCell s (issue c e word f s) c 0x07 := by
  have hpc' : ((s.cell c).settle s.cycle).pc > 8191 := hpc
  unfold issue
  simp only [hc, Bool.not_true, Bool.false_eq_true, if_false, if_pos hpc']
  exact (Counted.refl s).stopsCell ..

/-- The lowest cause that an instruction meets stops the cell. -/
theorem issue_stops {code : Nat} (hpc : (s.atIssue c).pc ≤ 8191)
    (hl : lowest (cause (decide (e.fecc = .uncorrectable)) 0x09 ++ (f (s.atIssue c)).always
      ++ (if (s.atIssue c).enabled e then (f (s.atIssue c)).whenEn else [])) = some code) :
    StopsCell s (issue c e word f s) c code := by
  have hpc' : ¬ ((s.cell c).settle s.cycle).pc > 8191 := Nat.not_lt.2 hpc
  unfold State.atIssue at hl
  unfold issue
  simp only [hc, Bool.not_true, Bool.false_eq_true, if_false, if_neg hpc', hl]
  exact Counted.stopsCell (.ite (s.count_counted ..) (.refl s)) ..

/-- An instruction that is not enabled and meets no cause holds its slot and units and does nothing else (R82). -/
theorem issue_holds (hpc : (s.atIssue c).pc ≤ 8191) (hen : (s.atIssue c).enabled e = false) (hf : e.fecc ≠ .uncorrectable)
    (ha : (f (s.atIssue c)).always = []) :
    (issue c e word f s).cell c = (f (s.atIssue c)).hold { s.atIssue c with
      pc := (s.atIssue c).pc + 1, issueFree := s.cycle + (f (s.atIssue c)).slots, slotEn := false } ∧
    ∀ k, k ≠ c → (issue c e word f s).cell k = s.cell k := by
  have hpc' : ¬ ((s.cell c).settle s.cycle).pc > 8191 := Nat.not_lt.2 hpc
  unfold State.atIssue at *
  unfold issue
  simp only [hc, Bool.not_true, Bool.false_eq_true, if_false, if_neg hpc', ha, hen, hf, decide_false, cause_false, List.append_nil,
    lowest, Bool.false_and]
  split
  · exact ⟨look_put_same .., fun k hk => look_put_ne _ _ _ hk⟩
  · exact ⟨look_put_same .., fun k hk => look_put_ne _ _ _ hk⟩
end

end Sys2Proof.Machine
end

