-- ==== Sys2Proof/Proofs/ScalarInstructions.lean ====
section
/-! PROOF. Scalar instructions at issue: arithmetic and the divider (O1, O2), compares and predicates (O3), special reads and address
generators (O4), loads and stores (O5), the issue slot (O7). -/

namespace Sys2Proof.Machine
open Sys2Proof.Stmt

theorem add_eq_ofNat (a b : Word) : a + b = BitVec.ofNat 64 (a.toNat + b.toNat) :=
  BitVec.eq_of_toNat_eq (by simp)

theorem sub_eq_ofInt (a b : Word) : a - b = BitVec.ofInt 64 (a.toNat - b.toNat : Int) := by
  rw [BitVec.sub_eq_add_neg, Int.sub_eq_add_neg, BitVec.ofInt_add, BitVec.ofInt_neg]
  simp

theorem mul_eq_ofNat (a b : Word) : a * b = BitVec.ofNat 64 (a.toNat * b.toNat) :=
  BitVec.eq_of_toNat_eq (by simp)

theorem shiftLeft_eq_ofNat (a : Word) (n : Nat) : a <<< n = BitVec.ofNat 64 (a.toNat * 2 ^ n) :=
  BitVec.eq_of_toNat_eq (by simp [Nat.shiftLeft_eq])

theorem ushiftRight_eq_ofNat (a : Word) (n : Nat) : a >>> n = BitVec.ofNat 64 (a.toNat / 2 ^ n) :=
  BitVec.eq_of_toNat_eq (by
    rw [BitVec.toNat_ushiftRight, Nat.shiftRight_eq_div_pow, BitVec.toNat_ofNat]
    exact (Nat.mod_eq_of_lt (lt_of_le_of_lt (Nat.div_le_self ..) a.isLt)).symm)

theorem sshiftRight_eq_ofInt (a : Word) (n : Nat) : a.sshiftRight n = BitVec.ofInt 64 (a.toInt / 2 ^ n) := by
  rw [BitVec.sshiftRight, Int.shiftRight_eq_div_pow]
  norm_num

theorem ite_sle_eq_min (a b : Word) : (if a.sle b then a else b) = BitVec.ofInt 64 (min a.toInt b.toInt) := by
  simp only [BitVec.sle, decide_eq_true_eq, min_def]
  split <;> simp

theorem ite_sle_eq_max (a b : Word) : (if b.sle a then a else b) = BitVec.ofInt 64 (max a.toInt b.toInt) := by
  simp only [BitVec.sle, decide_eq_true_eq, max_comm a.toInt, max_def]
  split <;> simp

theorem ite_ule_eq_min (a b : Word) : (if a.ule b then a else b) = BitVec.ofNat 64 (min a.toNat b.toNat) := by
  simp only [BitVec.ule, decide_eq_true_eq, min_def]
  split <;> simp

theorem ite_ule_eq_max (a b : Word) : (if b.ule a then a else b) = BitVec.ofNat 64 (max a.toNat b.toNat) := by
  simp only [BitVec.ule, decide_eq_true_eq, max_comm a.toNat, max_def]
  split <;> simp

theorem ofInt_toNat (a : Word) : BitVec.ofInt 64 a.toNat = a := by simp

theorem imm64_eq_ofInt (i : BitVec 32) : imm64 i = BitVec.ofInt 64 i.toInt := by
  rw [imm64, BitVec.signExtend]

theorem add_imm64_eq_ofInt (a : Word) (i : BitVec 32) : a + imm64 i = BitVec.ofInt 64 (a.toNat + i.toInt) := by
  rw [BitVec.ofInt_add, ofInt_toNat, imm64_eq_ofInt]

theorem mul_imm64_eq_ofInt (a : Word) (i : BitVec 32) : a * imm64 i = BitVec.ofInt 64 (a.toNat * i.toInt) := by
  rw [BitVec.ofInt_mul, ofInt_toNat, imm64_eq_ofInt]

theorem lih_eq_ofNat (a : Word) (i : BitVec 32) : lih a i = BitVec.ofNat 64 (i.toNat * 2 ^ 32 + a.toNat % 2 ^ 32) := by
  refine BitVec.eq_of_toNat_eq ?_
  have hi := i.isLt
  simp only [lih, BitVec.toNat_append, BitVec.toNat_setWidth, BitVec.toNat_ofNat]
  rw [← Nat.shiftLeft_add_eq_or_of_lt (Nat.mod_lt _ (by norm_num)), Nat.shiftLeft_eq]
  omega

theorem divU_eq_ofNat (a b : Word) : divU a b = BitVec.ofNat 64 (if b.toNat = 0 then 2 ^ 64 - 1 else a.toNat / b.toNat) := by
  have hb : b = 0 ↔ b.toNat = 0 := by simp [← BitVec.toNat_inj]
  unfold divU
  by_cases h : b = 0
  · rw [if_pos h, if_pos (hb.1 h)]
    rfl
  · rw [if_neg h, if_neg (hb.not.1 h)]
    refine BitVec.eq_of_toNat_eq ?_
    rw [BitVec.toNat_udiv, BitVec.toNat_ofNat]
    exact (Nat.mod_eq_of_lt (lt_of_le_of_lt (Nat.div_le_self ..) a.isLt)).symm

theorem remU_eq_ofNat (a b : Word) : remU a b = BitVec.ofNat 64 (if b.toNat = 0 then a.toNat else a.toNat % b.toNat) := by
  have hb : b = 0 ↔ b.toNat = 0 := by simp [← BitVec.toNat_inj]
  unfold remU
  by_cases h : b = 0
  · rw [if_pos h, if_pos (hb.1 h), BitVec.ofNat_toNat, BitVec.setWidth_eq]
  · rw [if_neg h, if_neg (hb.not.1 h)]
    refine BitVec.eq_of_toNat_eq ?_
    rw [BitVec.toNat_umod, BitVec.toNat_ofNat]
    exact (Nat.mod_eq_of_lt (lt_of_le_of_lt (Nat.mod_le ..) a.isLt)).symm

theorem shiftLeft_imm_eq_ofNat (a : Word) (i : BitVec 32) (hi : i.toNat < 64) :
    a <<< (i.toNat % 64) = BitVec.ofNat 64 (a.toNat * 2 ^ i.toNat) := by
  rw [Nat.mod_eq_of_lt hi, shiftLeft_eq_ofNat]

theorem ushiftRight_imm_eq_ofNat (a : Word) (i : BitVec 32) (hi : i.toNat < 64) :
    a >>> (i.toNat % 64) = BitVec.ofNat 64 (a.toNat / 2 ^ i.toNat) := by
  rw [Nat.mod_eq_of_lt hi, ushiftRight_eq_ofNat]

theorem sshiftRight_imm_eq_ofInt (a : Word) (i : BitVec 32) (hi : i.toNat < 64) :
    a.sshiftRight (i.toNat % 64) = BitVec.ofInt 64 (a.toInt / 2 ^ i.toNat) := by
  rw [Nat.mod_eq_of_lt hi, sshiftRight_eq_ofInt]

/-- An enabled legal instruction of one slot and no unit puts its result in flight and changes nothing else of the cell. -/
theorem simpleIssue_result {c : Nat} {e : En} {word : Word} {legal : Bool} {lat : Nat} {w : Cell → RegWrite} {v : RegWrite} {s : State}
    (hr : CellReady s c e) (hl : legal = true) (hv : w (s.atIssue c) = v) :
    ∃ t, ok (issue c e word (fun x => simpleIssue legal (fun y => y.result s.cycle lat (w x))) s) = .next t ∧ OnlyCell s t c ∧
      t.cell c = withResult ((s.atIssue c).issued s.cycle 1) s.cycle lat v := by
  obtain ⟨t, rfl, honly, hcell⟩ := issue_runs (word := word)
    (f := fun x => simpleIssue legal (fun y => y.result s.cycle lat (w x))) hr (by simp [simpleIssue, hl]) rfl
  exact ⟨_, rfl, honly, by rw [hcell, ← hv]; rfl⟩

theorem issueRR_result {c func lat : Nat} {op val : Word → Word → Word} {f : RR} {s : State} (hop : ∀ a b, op a b = val a b)
    (hr : CellReady s c f.en) (hl : f.rsv = 0) :
    ∃ t, ok (issueRR func lat op c f s) = .next t ∧ OnlyCell s t c ∧
      t.cell c = withResult ((s.atIssue c).issued s.cycle 1) s.cycle lat
        (.g f.rd.toNat (val ((s.atIssue c).readG f.ra.toNat) ((s.atIssue c).readG f.rb.toNat))) :=
  simpleIssue_result hr (by simp [RR.legal, hl]) (congrArg _ (hop _ _))

theorem issueRI_result {c opc lat : Nat} {op val : Word → BitVec 32 → Word} {f : RI} {s : State} (hop : ∀ a i, op a i = val a i)
    (hr : CellReady s c f.en) (hl : f.rsv = 0) :
    ∃ t, ok (issueRI opc lat f.legal op c f s) = .next t ∧ OnlyCell s t c ∧
      t.cell c = withResult ((s.atIssue c).issued s.cycle 1) s.cycle lat
        (.g f.rd.toNat (val ((s.atIssue c).readG f.ra.toNat) f.imm)) :=
  simpleIssue_result hr (by simp [RI.legal, hl]) (congrArg _ (hop _ _))

/-- The shift amount of a legal word is below 64 (R85). -/
theorem issueRI_shift_result {c opc lat : Nat} {op val : Word → BitVec 32 → Word} {f : RI} {s : State}
    (hop : ∀ a i, i.toNat < 64 → op a i = val a i) (hr : CellReady s c f.en) (hl : f.rsv = 0) (hi : f.imm.toNat < 64) :
    ∃ t, ok (issueRI opc lat f.legalShift op c f s) = .next t ∧ OnlyCell s t c ∧
      t.cell c = withResult ((s.atIssue c).issued s.cycle 1) s.cycle lat
        (.g f.rd.toNat (val ((s.atIssue c).readG f.ra.toNat) f.imm)) :=
  simpleIssue_result hr (by simp [RI.legalShift, hl, hi]) (congrArg _ (hop _ _ hi))

/-- Settles O1: each row puts the result of its table in flight; the tables' arithmetic is that of the words. -/
theorem scalarArithmetic : Obligations.ScalarArithmetic := by
  unfold Obligations.ScalarArithmetic
  constructor
  · simp only [rrRows, List.forall_mem_cons]
    refine ⟨?_, ?_, ?_, ?_, ?_, ?_, ?_, ?_, ?_, ?_, ?_, ?_, ?_, ?_, fun _ h => absurd h List.not_mem_nil⟩ <;> intro c f s hr hl
    · exact issueRR_result add_eq_ofNat hr hl
    · exact issueRR_result sub_eq_ofInt hr hl
    · exact issueRR_result (fun _ _ => rfl) hr hl
    · exact issueRR_result (fun _ _ => rfl) hr hl
    · exact issueRR_result (fun _ _ => rfl) hr hl
    · exact issueRR_result (fun a b => shiftLeft_eq_ofNat a _) hr hl
    · exact issueRR_result (fun a b => ushiftRight_eq_ofNat a _) hr hl
    · exact issueRR_result (fun a b => sshiftRight_eq_ofInt a _) hr hl
    · exact issueRR_result ite_sle_eq_min hr hl
    · exact issueRR_result ite_sle_eq_max hr hl
    · exact issueRR_result ite_ule_eq_min hr hl
    · exact issueRR_result ite_ule_eq_max hr hl
    · exact issueRR_result mul_eq_ofNat hr hl
    · exact issueRR_result (fun _ _ => rfl) hr hl
  · simp only [riRows, List.forall_mem_cons]
    refine ⟨?_, ?_, ?_, ?_, ?_, ?_, ?_, ?_, ?_, fun _ h => absurd h List.not_mem_nil⟩ <;> intro c f s hr hl himm
    · exact issueRI_result add_imm64_eq_ofInt hr hl
    · exact issueRI_result (fun _ _ => rfl) hr hl
    · exact issueRI_result (fun _ _ => rfl) hr hl
    · exact issueRI_result (fun _ _ => rfl) hr hl
    · exact issueRI_shift_result shiftLeft_imm_eq_ofNat hr hl (himm trivial)
    · exact issueRI_shift_result ushiftRight_imm_eq_ofNat hr hl (himm trivial)
    · exact issueRI_shift_result sshiftRight_imm_eq_ofInt hr hl (himm trivial)
    · exact issueRI_result lih_eq_ofNat hr hl
    · exact issueRI_result mul_imm64_eq_ofInt hr hl

/-! ### The divider -/

section
variable {c func : Nat} {op : Word → Word → Word} {f : RR} {s : State} (hr : CellReady s c f.en) (hl : f.rsv = 0)
include hr hl

theorem issueDiv_result {val : Nat → Nat → Nat} (hop : ∀ a b, op a b = BitVec.ofNat 64 (val a.toNat b.toNat))
    (hfree : (s.atIssue c).divFree ≤ s.cycle) :
    ∃ t, ok (issueDiv func op c f s) = .next t ∧ OnlyCell s t c ∧
      t.cell c = withResult { (s.atIssue c).issued s.cycle 1 with divFree := s.cycle + 34 } s.cycle 34
        (.g f.rd.toNat (BitVec.ofNat 64
          (val ((s.atIssue c).readG f.ra.toNat).toNat ((s.atIssue c).readG f.rb.toNat).toNat))) := by
  unfold issueDiv
  rw [← hop]
  obtain ⟨t, heq, honly, hcell⟩ := issue_runs (word := f.word func) (f := fun x => {
      always := cause (!f.legal) 0x01 ++ cause (decide (s.cycle < x.divFree)) 0x04
      whenEn := []
      slots := 1
      hold := fun y => { y with divFree := s.cycle + 34 }
      effect := fun y => y.result s.cycle 34 (.g f.rd.toNat (op (x.readG f.ra.toNat) (x.readG f.rb.toNat))) }) hr
    (by simp [RR.legal, hl, Nat.not_lt.2 hfree]) rfl
  exact ⟨t, congrArg _ heq, honly, hcell⟩

theorem issueDiv_busy (hbusy : s.cycle < (s.atIssue c).divFree) :
    ∃ t, ok (issueDiv func op c f s) = .next t ∧ StopsCell s t c 0x04 := by
  obtain ⟨hc, hpc, hen, hf⟩ := hr
  refine ⟨_, rfl, issue_stops hc hpc ?_⟩
  simp [RR.legal, hl, hbusy, hf, lowest]

end

/-- Settles O2: a divider that is free is taken for 34 cycles, one in use is the only cause that a legal word can meet. -/
theorem dividerResults : Obligations.DividerResults := by
  unfold Obligations.DividerResults
  simp only [divRows, List.forall_mem_cons]
  have hbusy : ∀ {func op c} {f : RR} {s : State}, CellReady s c f.en → f.rsv = 0 → s.cycle < (s.atIssue c).divFree →
      ∃ t, ok (issueDiv func op c f s) = .next t ∧ t.cell c = (s.atIssue c).stopped 0x04 s.cycle ∧ ((s.cell c).fault = none →
        ∃ r, t.raised = s.raised ++ [r] ∧ r.cls = .partition ∧ r.code = 0x04 ∧ r.parts = (s.cellOwner c).toList) := by
    intro func op c f s hr hl hb
    obtain ⟨t, hnext, hstop⟩ := issueDiv_busy hr hl hb
    refine ⟨t, hnext, hstop.cell, fun hnone => ?_⟩
    obtain ⟨r, hraised, hcls, hcode, hparts, -, -⟩ := hstop.raised hnone
    exact ⟨r, hraised, hcls, hcode, hparts⟩
  refine ⟨fun c f s hr hl => ⟨fun h => ?_, fun h => ?_⟩, fun c f s hr hl => ⟨fun h => ?_, fun h => ?_⟩, fun _ h => absurd h List.not_mem_nil⟩
  · exact issueDiv_result (val := fun a b => if b = 0 then 2 ^ 64 - 1 else a / b) hr hl divU_eq_ofNat h
  · exact hbusy hr hl h
  · exact issueDiv_result (val := fun a b => if b = 0 then a else a % b) hr hl remU_eq_ofNat h
  · exact hbusy hr hl h

/-! ### Compares -/

/-- COND of Table 3.13 is the relation at its place. -/
theorem condHolds_eq {k : Nat} {rel : Word → Word → Bool} (h : relRows[k]? = some rel) (a b : Word) : condHolds k a b = rel a b := by
  obtain ⟨hk, rfl⟩ := List.getElem?_eq_some_iff.1 h
  change k < 6 at hk
  interval_cases k
  · exact rfl
  · simp [condHolds, relRows, bne, BEq.beq]
  · rfl
  · simp [condHolds, relRows, BitVec.slt, ← decide_not]
  · rfl
  · simp [condHolds, relRows, BitVec.ult, ← decide_not]

theorem issueCmpR_result {c k : Nat} {f : CmpR} {s : State} (hk : k < 6) (hr : CellReady s c f.en) (hhi : f.rsvHi = 0) (hl : f.rsv = 0) :
    ∃ t rel, ok (issueCmpR k c f s) = .next t ∧ OnlyCell s t c ∧ relRows[k]? = some rel ∧
      t.cell c = withResult ((s.atIssue c).issued s.cycle 1) s.cycle 1
        (.p [(f.pd.toNat, rel ((s.atIssue c).readG f.ra.toNat) ((s.atIssue c).readG f.rb.toNat))]) := by
  have hrel : relRows[k]? = some relRows[k] := List.getElem?_eq_getElem hk
  obtain ⟨t, hnext, honly, hcell⟩ := simpleIssue_result (word := f.word k) (lat := 1)
    (w := fun x => .p [(f.pd.toNat, condHolds k (x.readG f.ra.toNat) (x.readG f.rb.toNat))]) hr
    (show f.legal = true by simp [CmpR.legal, hhi, hl]) (by rw [condHolds_eq hrel])
  exact ⟨t, _, hnext, honly, hrel, hcell⟩

theorem issueCmpI_result {c k : Nat} {f : CmpI} {s : State} (hk : k < 6) (hr : CellReady s c f.en) (hhi : f.rsvHi = 0) (hl : f.rsv = 0) :
    ∃ t rel, ok (issueCmpI k c f s) = .next t ∧ OnlyCell s t c ∧ relRows[k]? = some rel ∧
      t.cell c = withResult ((s.atIssue c).issued s.cycle 1) s.cycle 1
        (.p [(f.pd.toNat, rel ((s.atIssue c).readG f.ra.toNat) (BitVec.ofInt 64 f.imm.toInt))]) := by
  have hrel : relRows[k]? = some relRows[k] := List.getElem?_eq_getElem hk
  obtain ⟨t, hnext, honly, hcell⟩ := simpleIssue_result (word := f.word k) (lat := 1)
    (w := fun x => .p [(f.pd.toNat, condHolds k (x.readG f.ra.toNat) (imm64 f.imm))]) hr
    (show f.legal = true by simp [CmpI.legal, hhi, hl]) (by rw [condHolds_eq hrel, imm64_eq_ofInt])
  exact ⟨t, _, hnext, honly, hrel, hcell⟩

/-! ### Predicates -/

/-- A number built of one bit for each place holds those bits. -/
theorem testBit_sum_bits (read : Nat → Bool) (n : Nat) :
    (List.range n).foldl (fun acc i => acc + b2n (read i) * 2 ^ i) 0 < 2 ^ n ∧
    ∀ i, ((List.range n).foldl (fun acc i => acc + b2n (read i) * 2 ^ i) 0).testBit i = (decide (i < n) && read i) := by
  induction n with
  | zero => simp
  | succ n ih =>
    obtain ⟨hlt, hbit⟩ := ih
    rw [List.range_succ, List.foldl_append, List.foldl_cons, List.foldl_nil]
    generalize (List.range n).foldl (fun acc i => acc + b2n (read i) * 2 ^ i) 0 = x at hlt hbit
    have hb : b2n (read n) ≤ 1 := by cases read n <;> simp [b2n]
    refine ⟨?_, fun i => ?_⟩
    · calc x + b2n (read n) * 2 ^ n < 2 ^ n + 1 * 2 ^ n := Nat.add_lt_add_of_lt_of_le hlt (Nat.mul_le_mul_right _ hb)
        _ = 2 ^ (n + 1) := by ring
    · rw [Nat.add_comm, Nat.mul_comm, Nat.testBit_two_pow_mul_add _ hlt]
      rcases Nat.lt_trichotomy i n with h | rfl | h
      · simp [h, hbit, Nat.lt_succ_of_lt h]
      · cases hr : read i <;> simp [b2n]
      · have h1 : ¬ i < n := by omega
        have h2 : ¬ i < n + 1 := by omega
        obtain ⟨k, hk⟩ : ∃ k, i - n = k + 1 := ⟨i - n - 1, by omega⟩
        cases hr : read n <;> simp [b2n, h1, h2, hk, Nat.testBit_succ]

theorem predWord_getLsbD (read : Nat → Bool) (i : Nat) : (predWord read).getLsbD i = (decide (i < 16) && read i) := by
  rw [predWord, BitVec.getLsbD_ofNat, (testBit_sum_bits read 16).2]
  by_cases h : i < 16
  · simp [h, show i < 64 by omega]
  · simp [h]

theorem issuePl_result {c func : Nat} {legal : Bool} {op val : Bool → Bool → Bool} {f : PlF} {s : State}
    (hop : ∀ a b, op a b = val a b) (hr : CellReady s c f.en) (hl : legal = true) :
    ∃ t, ok (issuePl func legal op c f s) = .next t ∧ OnlyCell s t c ∧
      t.cell c = withResult ((s.atIssue c).issued s.cycle 1) s.cycle 1
        (.p [(f.pd.toNat, val ((s.atIssue c).readP f.pa.toNat) ((s.atIssue c).readP f.pb.toNat))]) :=
  simpleIssue_result hr hl (by rw [hop])

/-- Settles O3: each compare is the relation at its place, each predicate instruction its function. -/
theorem comparesAndPredicates : Obligations.ComparesAndPredicates := by
  unfold Obligations.ComparesAndPredicates
  refine ⟨?_, ?_, ?_, fun c f s hr hl hra hmask => ?_, fun c f s hr hl hrd => ?_⟩
  · simp only [cmpRRows, List.forall_mem_cons]
    refine ⟨?_, ?_, ?_, ?_, ?_, ?_, fun _ h => absurd h List.not_mem_nil⟩ <;> intro c f s hr hhi hl <;>
      exact issueCmpR_result (by decide) hr hhi hl
  · simp only [cmpIRows, List.forall_mem_cons]
    refine ⟨?_, ?_, ?_, ?_, ?_, ?_, fun _ h => absurd h List.not_mem_nil⟩ <;> intro c f s hr hhi hl <;>
      exact issueCmpI_result (by decide) hr hhi hl
  · have hconst : ∀ f : PlF, f.rsv = 0 → f.pa = 0 ∧ f.pb = 0 → f.legalConst = true := fun f hl hab => by
      simp [PlF.legalConst, hl, hab]
    have hplain : ∀ f : PlF, f.rsv = 0 → f.legal = true := fun f hl => by simp [PlF.legal, hl]
    simp only [plRows, List.forall_mem_cons]
    refine ⟨?_, ?_, ?_, ?_, ?_, ?_, fun _ h => absurd h List.not_mem_nil⟩ <;> intro c f s hr hl hab
    · exact issuePl_result (fun _ _ => rfl) hr (hplain f hl)
    · exact issuePl_result (fun _ _ => rfl) hr (hplain f hl)
    · exact issuePl_result (fun a b => by cases a <;> cases b <;> rfl) hr (hplain f hl)
    · exact issuePl_result (fun _ _ => rfl) hr (hplain f hl)
    · exact issuePl_result (fun _ _ => rfl) hr (hconst f hl (hab trivial))
    · exact issuePl_result (fun _ _ => rfl) hr (hconst f hl (hab trivial))
  · obtain ⟨t, hnext, honly, hcell⟩ := simpleIssue_result (word := f.word 0) (lat := 1) (w := fun x => .g f.rd.toNat (predWord x.readP)) hr
      (show f.legalRead = true by simp [PmF.legalRead, hl, hra, hmask]) rfl
    exact ⟨t, _, hnext, honly, hcell, predWord_getLsbD _⟩
  · obtain ⟨t, hnext, honly, hcell⟩ := simpleIssue_result (word := f.word 1) (lat := 1)
      (w := fun x => .p (((List.range 16).filter (fun i => decide (1 ≤ i) && f.mask.getLsbD i)).map
        (fun i => (i, (x.readG f.ra.toNat).getLsbD i)))) hr
      (show f.legalWrite = true by simp [PmF.legalWrite, hl, hrd]) rfl
    refine ⟨t, _, hnext, honly, hcell, fun i b => ?_⟩
    simp only [List.mem_map, List.mem_filter, List.mem_range, Bool.and_eq_true, decide_eq_true_eq, Prod.mk.injEq]
    constructor
    · rintro ⟨j, ⟨hj, h1, hm⟩, rfl, rfl⟩
      exact ⟨h1, hj, hm, rfl⟩
    · rintro ⟨h1, hj, hm, rfl⟩
      exact ⟨i, ⟨hj, h1, hm⟩, rfl, rfl⟩

/-! ### Special values and address generators -/

/-- The special values of Table 3.3 by their codes. -/
theorem State.special_eq (s : State) (c : Nat) {sr : Nat} (hsr : sr ≤ 7) : s.special c sr = BitVec.ofNat 64
    (([(s.cellPart c).planTime, (s.cellOwner c).getD 0, s.vcell c, c, (s.cellPart c).stepNo, (s.cellPart c).stepKind,
      (s.cellPart c).planTime - 1024 * (s.cellPart c).stepStart, (s.cellPart c).epoch.toNat] : List Nat).getD sr 0) := by
  interval_cases sr <;> rfl

theorem agSum_eq_ofInt (x : Cell) (f : AgF) : agSum x f = BitVec.ofInt 64 ((x.readG f.ra.toNat).toNat + f.imm.toInt) :=
  add_imm64_eq_ofInt ..

/-- The window that FIELD 5 sets passes the 6,144 lines of the cell store (R110). -/
def PastWindow (v : Word) : Prop := 6144 < v.toNat % 8192 + v.toNat / 65536 % 8192

theorem agset_whenEn_eq_nil {f : AgF} {v : Word} (h : f.field.toNat = 5 → ¬ PastWindow v) :
    cause (decide (f.field = 5) && decide (v.toNat % 2 ^ 13 + v.toNat / 2 ^ 16 % 2 ^ 13 > 6144)) 0x13 = [] := by
  by_cases hf : f.field = 5
  · have hw : ¬ v.toNat % 8192 + v.toNat / 65536 % 8192 > 6144 := h (by rw [hf]; rfl)
    simp [hw]
  · rw [decide_eq_false hf]
    rfl

/-- Settles O4: every row but AGSET.A24 is one result in flight; AGSET.A24 may meet AG_WINDOW besides. -/
theorem specialReadsAndGenerators : Obligations.SpecialReadsAndGenerators := by
  unfold Obligations.SpecialReadsAndGenerators
  refine ⟨fun c f s hr hl hsr => ?_, fun c f s hr hl => ?_, fun c f s hr hl hi => ?_, fun c f s hr hl hfield hwin => ?_,
    fun c f s hr hl hfield hwin => ?_, fun c f s hr hl hfield => ?_⟩
  · exact simpleIssue_result (w := fun _ => .g f.rd.toNat (s.special c f.sr.toNat)) hr (by simp [SrF.legal, hl, hsr])
      (by rw [State.special_eq s c hsr])
  · exact simpleIssue_result (w := fun x => .g f.rd.toNat ((x.agen f.idx.toNat).addr.setWidth 64)) hr (by simp [AgRdF.legal, hl])
      (by rw [← BitVec.ofNat_toNat])
  · exact simpleIssue_result (w := fun x => .g f.rd.toNat (BitVec.ofNat 64 (look 0 x.lc f.idx.toNat))) hr
      (by simp [AgRdF.legalLc, hl, hi]) rfl
  · obtain ⟨t, heq, honly, hcell⟩ := issue_runs (word := f.word 0x25) (f := fun x => {
        always := cause (!f.legalSet) 0x01
        whenEn := cause (decide (f.field = 5) &&
          decide ((agSum x f).toNat % 2 ^ 13 + (agSum x f).toNat / 2 ^ 16 % 2 ^ 13 > 6144)) 0x13
        slots := 1
        hold := id
        effect := fun y => y.result s.cycle 1 (.agSet f.ag.toNat f.field.toNat (agSum x f)) }) hr
      (by simp [AgF.legalSet, hl, hfield])
      (agset_whenEn_eq_nil fun h => by rw [agSum_eq_ofInt]; exact Nat.not_lt.2 (hwin h))
    refine ⟨t, congrArg _ heq, honly, hcell.trans ?_⟩
    rw [agSum_eq_ofInt]
    rfl
  · obtain ⟨hc, hpc, hen, hf⟩ := hr
    have hfive : f.field = 5 := BitVec.eq_of_toNat_eq hfield
    have hpast : 6144 < (agSum (s.atIssue c) f).toNat % 8192 + (agSum (s.atIssue c) f).toNat / 65536 % 8192 := by
      rw [agSum_eq_ofInt]
      exact hwin
    exact ⟨_, rfl, (issue_stops hc hpc (by simp [AgF.legalSet, hl, hfive, hen, hf, hpast, lowest])).cell⟩
  · exact simpleIssue_result (w := fun x => .agMove f.ag.toNat (agSum x f).toInt) hr (by simp [AgF.legalAdd, hl, hfield])
      (by rw [agSum_eq_ofInt])

/-! ### Loads and stores -/

theorem memEa_eq (x : Cell) (f : MemF) : memEa x f = (((x.readG f.ra.toNat).toNat + f.imm.toInt) % 2 ^ 64).toNat := by
  rw [memEa, add_imm64_eq_ofInt, BitVec.toNat_ofInt]
  norm_num

/-- The causes that an enabled load or store meets. -/
def memCauses (top ea n : Nat) : List Nat := cause (decide (top ≤ ea)) 0x02 ++ cause (decide (ea % n ≠ 0)) 0x03

theorem memCauses_good {top ea n : Nat} (hin : ea < top) (hal : n ∣ ea) : memCauses top ea n = [] := by
  simp [memCauses, Nat.not_le.2 hin, Nat.mod_eq_zero_of_dvd hal]

theorem lowest_memCauses_address {top ea n : Nat} (hout : top ≤ ea) : lowest (memCauses top ea n) = some 0x02 :=
  lowest_eq_some_iff.2 ⟨by simp [memCauses, hout], fun k hk => by
    simp only [memCauses, List.mem_append, mem_cause] at hk
    omega⟩

theorem lowest_memCauses_align {top ea n : Nat} (hin : ea < top) (hal : ¬ n ∣ ea) : lowest (memCauses top ea n) = some 0x03 := by
  simp [memCauses, Nat.not_le.2 hin, ← Nat.dvd_iff_mod_eq_zero, hal, lowest]

theorem size_getLsbD_zero (z : BitVec 3) : z.getLsbD 0 = decide (z.toNat % 2 = 1) := by
  rw [BitVec.getLsbD, Nat.testBit_zero]

section
variable {c opc : Nat} {sizes : List Nat} {cs store : Bool} {f : MemF} {s : State} (hr : CellReady s c f.en) (hl : f.rsv = 0)
  (hsize : f.size.toNat ∈ sizes)
include hr hl hsize

/-- A load or store whose address is good is queued with the store's data; otherwise the lowest cause of its address stops the cell. -/
theorem issueMem_cases {ea n top : Nat} (hea : ea = memEa (s.atIssue c) f) (hn : n = sizeBytes f.size.toNat)
    (htop : top = if cs then csBytes else sdmBytes) :
    (ea < top → n ∣ ea → ∃ t, ok (issueMem opc sizes cs store c f s) = .next t ∧ OnlyCell s t c ∧
      t.cell c = { (s.atIssue c).issued s.cycle 1 with macc := (s.atIssue c).macc ++ [{
        due := s.cycle + (if cs then 2 else 1), issued := s.cycle, cs, en := true, store, rd := f.rd.toNat, ea, n
        sx := decide (f.size.toNat % 2 = 1), data := (s.atIssue c).readG f.rd.toNat }] }) ∧
    (∀ code, lowest (memCauses top ea n) = some code →
      ∃ t, ok (issueMem opc sizes cs store c f s) = .next t ∧ t.cell c = (s.atIssue c).stopped code s.cycle) := by
  have hlegal : f.legal sizes = true := by simp [MemF.legal, hl, hsize]
  subst hea hn htop
  refine ⟨fun hin hal => ?_, fun code hcode => ?_⟩
  · unfold issueMem
    rw [← size_getLsbD_zero]
    obtain ⟨t, heq, honly, hcell⟩ := issue_runs (word := f.word opc) (f := fun x =>
      let n := sizeBytes f.size.toNat
      let ea := memEa x f
      let acc (en : Bool) : MemAcc :=
        { due := s.cycle + (if cs then 2 else 1), issued := s.cycle, cs, en, store, rd := f.rd.toNat, ea, n
          sx := f.size.getLsbD 0, data := x.readG f.rd.toNat }
      { always := cause (!f.legal sizes) 0x01
        whenEn := cause (decide ((if cs then csBytes else sdmBytes) ≤ ea)) 0x02 ++ cause (decide (ea % n ≠ 0)) 0x03
        slots := 1
        hold := fun y => { y with macc := y.macc ++ [acc false] }
        effect := fun y => { y with macc := y.macc.dropLast ++ [acc true] } }) hr
      (by simp [hlegal]) (memCauses_good hin hal)
    refine ⟨t, congrArg _ heq, honly, hcell.trans ?_⟩
    simp [Cell.issued]
  · obtain ⟨hc, hpc, hen, hf⟩ := hr
    refine ⟨_, rfl, (issue_stops hc hpc ?_).cell⟩
    simpa [hlegal, hen, hf, memCauses] using hcode

end

/-- Settles O5: the access is queued when its address is good, and the lowest cause of a bad address stops the cell. -/
theorem loadsAndStoresIssue : Obligations.LoadsAndStoresIssue := by
  unfold Obligations.LoadsAndStoresIssue
  intro e he c f s hr hl hsize x ea n top
  have hexec : ∃ opc, exec (e.1 c f) s = ok (issueMem opc e.2.2.2 e.2.1 e.2.2.1 c f s) := by
    simp only [memRows, List.mem_cons, List.not_mem_nil, or_false] at he
    rcases he with rfl | rfl | rfl | rfl <;> exact ⟨_, rfl⟩
  obtain ⟨opc, hexec⟩ := hexec
  obtain ⟨hgood, hbad⟩ := issueMem_cases (opc := opc) (cs := e.2.1) (store := e.2.2.1) hr hl hsize (memEa_eq x f).symm rfl rfl
  rw [hexec]
  exact ⟨hgood, fun hout => hbad _ (lowest_memCauses_address hout), fun hin hal => hbad _ (lowest_memCauses_align hin hal)⟩

/-! ### The issue slot -/

/-- Settles O7: these instructions hold the slot and have no effect; STEPEND.C ends the cell's issue besides. -/
theorem issueSlotHolds : Obligations.IssueSlotHolds := by
  unfold Obligations.IssueSlotHolds
  refine ⟨fun c ecc s hr => ?_, fun c f s hr hhi hra hmid hlo => ?_, fun c f s hr hhi hmid hlo hloop => ⟨fun ho => ?_, fun hg => ?_⟩,
    fun c f s hr hpred hsense hhi hra hmid hlo hloop => ?_⟩
  · obtain ⟨t, heq, honly, hcell⟩ := issue_runs (word := 0) (f := fun _ => simpleIssue (nopLegal 0) id) hr rfl rfl
    exact ⟨t, congrArg _ heq, honly, hcell⟩
  · obtain ⟨t, heq, honly, hcell⟩ := issue_runs (word := f.word 0x21)
      (f := fun _ => { simpleIssue f.legalWait id with slots := f.lo.toNat + 1 }) hr
      (by simp [simpleIssue, Ctl.legalWait, hhi, hra, hmid, show f.lo.toNat < 16777216 from hlo]) rfl
    exact ⟨t, congrArg _ heq, honly, hcell⟩
  · obtain ⟨t, heq, honly, hcell⟩ := issue_runs (word := f.word 0x22) (f := fun x => {
        always := cause (!f.legalWaito) 0x01 ++ cause (decide ((x.readG f.ra.toNat).toNat ≤ (s.cellPart c).offset)) 0x05 ++ inBody x
        whenEn := []
        slots := (x.readG f.ra.toNat).toNat - (s.cellPart c).offset
        hold := id
        effect := id }) hr
      (by
        have hlt : ¬ ((s.atIssue c).readG f.ra.toNat).toNat ≤ (s.cellPart c).offset := Nat.not_le.2 ho
        simp [Ctl.legalWaito, hhi, hmid, hlo, hlt, inBody, hloop]) rfl
    exact ⟨t, congrArg _ heq, honly, hcell⟩
  · obtain ⟨hc, hpc, -, hf⟩ := hr
    have hle : ((s.atIssue c).readG f.ra.toNat).toNat ≤ (s.cellPart c).offset := hg
    exact ⟨_, rfl, (issue_stops hc hpc (by simp [Ctl.legalWaito, hhi, hmid, hlo, hle, inBody, hloop, hf, lowest])).cell⟩
  · obtain ⟨t, heq, honly, hcell⟩ := issue_runs (word := f.word 0x23) (f := fun x => {
        always := cause (!f.legalStepend) 0x01 ++ inBody x
        whenEn := []
        slots := 1
        hold := fun y => { y with stepEnd := true }
        effect := id }) hr (by simp [Ctl.legalStepend, hhi, hra, hmid, hlo, hpred, hsense, inBody, hloop]) rfl
    exact ⟨t, congrArg _ heq, honly, hcell, by simp [State.canIssue, hcell]⟩

end Sys2Proof.Machine
end

