-- ==== Sys2Proof/Proofs/CellAccesses.lean ====
section
/-! PROOF. Accesses of the scalar data memory and the cell store: a scalar access takes or writes its bytes (O6), a port access its
lanes and lines (O11). -/

namespace Sys2Proof.Machine
open Sys2Proof.Stmt

/-! ### Runs of bytes -/

@[simp] theorem length_natLe (x n : Nat) : (natLe x n).length = n := by
  induction n generalizing x with
  | zero => rfl
  | succ n ih => simp [natLe, ih]

theorem natLe_getD {x n i : Nat} (hi : i < n) : (natLe x n).getD i 0#8 = BitVec.ofNat 8 (x / 256 ^ i) := by
  induction n generalizing x i with
  | zero => omega
  | succ n ih =>
    cases i with
    | zero => simp [natLe]
    | succ i =>
      rw [natLe, List.getD_cons_succ, ih (by omega), Nat.div_div_eq_div_mul, Nat.pow_succ']

theorem setCells_cellsAt (m : Mem) (ea : Nat) (bs : List (BitVec 8)) : Mem.setCells m (cellsAt ea bs) = Mem.setBytes m ea bs := by
  induction bs generalizing m ea with
  | nil => rfl
  | cons b bs ih => exact ih _ _

/-- The bytes of a number written at `ea` read back, least significant first. -/
theorem byte_setCells_natLe_in (m : Mem) (ea x n : Nat) {i : Nat} (hi : i < n) :
    Mem.byte (Mem.setCells m (cellsAt ea (natLe x n))) (ea + i) = BitVec.ofNat 8 (x / 256 ^ i) := by
  rw [setCells_cellsAt, byte_setBytes_in _ _ _ _ (by simpa using hi), natLe_getD hi]

theorem byte_setCells_natLe_out (m : Mem) (ea x n : Nat) {j : Nat} (hj : j < ea ∨ ea + n ≤ j) :
    Mem.byte (Mem.setCells m (cellsAt ea (natLe x n))) j = Mem.byte m j := by
  rw [setCells_cellsAt, byte_setBytes_out _ _ _ _ (by simpa using hj)]

theorem setCells_append (m : Mem) (l1 l2 : List Host.Cell) : Mem.setCells m (l1 ++ l2) = Mem.setCells (Mem.setCells m l1) l2 :=
  List.foldl_append ..

/-- A run of bytes is the run of its first part and, above it, that of the rest. -/
theorem Mem.le_add (m : Mem) (ea a b : Nat) : Mem.le m ea (a + b) = Mem.le m ea a + 256 ^ a * Mem.le m (ea + a) b := by
  induction a generalizing ea with
  | zero => simp [Mem.le, Mem.bytes, leNat]
  | succ a ih =>
    have h1 : ∀ n ea, Mem.le m ea (n + 1) = (Mem.byte m ea).toNat + 256 * Mem.le m (ea + 1) n := fun _ _ => rfl
    rw [show a + 1 + b = a + b + 1 by omega, h1, h1, ih, show ea + 1 + a = ea + (a + 1) by omega, Nat.pow_succ]
    ring

theorem Mem.le_one (m : Mem) (ea : Nat) : Mem.le m ea 1 = (Mem.byte m ea).toNat := by
  simp [Mem.le, Mem.bytes, leNat]

theorem Mem.le_lt (m : Mem) (ea n : Nat) : Mem.le m ea n < 256 ^ n := by
  induction n with
  | zero => simp [Mem.le, Mem.bytes, leNat]
  | succ n ih =>
    have hb : (Mem.byte m (ea + n)).toNat < 256 := (Mem.byte m (ea + n)).isLt
    rw [Mem.le_add, Mem.le_one, Nat.pow_succ]
    nlinarith

theorem Mem.le_lt_two_pow (m : Mem) (ea n : Nat) : Mem.le m ea n < 2 ^ (8 * n) := by
  rw [Nat.pow_mul]
  exact Mem.le_lt m ea n

/-- bytes_le of R137 as the sum of its bytes in their places. -/
theorem Mem.le_eq_sum (m : Mem) (ea n : Nat) :
    Mem.le m ea n = ((List.range n).map (fun i => (Mem.byte m (ea + i)).toNat * 256 ^ i)).sum := by
  induction n with
  | zero => rfl
  | succ n ih =>
    rw [Mem.le_add, Mem.le_one, ih, List.range_succ, List.map_append, List.sum_append]
    simp [Nat.mul_comm]

theorem extractLsb'_ofNat_of_lt {n x : Nat} (start len : Nat) (hx : x < 2 ^ n) :
    BitVec.extractLsb' start len (BitVec.ofNat n x) = BitVec.ofNat len (x / 2 ^ start) := by
  refine BitVec.eq_of_toNat_eq ?_
  rw [BitVec.extractLsb'_toNat, BitVec.toNat_ofNat, BitVec.toNat_ofNat, Nat.mod_eq_of_lt hx, Nat.shiftRight_eq_div_pow]

/-- Lane `l` of the line at `ea`. -/
theorem Mem.line_lane (m : Mem) (ea : Nat) {l : Nat} (hl : l < 64) :
    BitVec.extractLsb' (32 * l) 32 (Mem.line m ea) = BitVec.ofNat 32 (Mem.le m (ea + 4 * l) 4) := by
  have hsplit : Mem.le m ea 256 = Mem.le m ea (4 * l) + 2 ^ (8 * (4 * l)) *
      (Mem.le m (ea + 4 * l) 4 + 2 ^ (8 * 4) * Mem.le m (ea + 4 * l + 4) (252 - 4 * l)) := by
    rw [Nat.pow_mul 2 8, Nat.pow_mul 2 8]
    change _ = _ + 256 ^ (4 * l) * (_ + 256 ^ 4 * _)
    rw [← Mem.le_add, ← Mem.le_add, show 4 * l + (4 + (252 - 4 * l)) = 256 by omega]
  rw [Mem.line, extractLsb'_ofNat_of_lt _ _ (Mem.le_lt_two_pow m ea 256), hsplit, show 32 * l = 8 * (4 * l) by omega,
    Nat.add_mul_div_left _ _ (by positivity), Nat.div_eq_of_lt (Mem.le_lt_two_pow ..), Nat.zero_add]
  exact BitVec.eq_of_toNat_eq (by rw [BitVec.toNat_ofNat, BitVec.toNat_ofNat, Nat.add_mul_mod_self_left])

theorem sext_eq_signExtend {v w : Nat} (hw : 0 < w) : sext v w = (BitVec.ofNat w v).signExtend 64 := by
  have hbit : bit v (w - 1) = (BitVec.ofNat w v).msb := by
    rw [BitVec.msb_eq_getLsbD_last, BitVec.getLsbD_ofNat, bit, Nat.testBit_eq_decide_div_mod_eq]
    simp [hw, beq_eq_decide]
  rw [sext, BitVec.signExtend, BitVec.toInt_eq_msb_cond, hbit, BitVec.toNat_ofNat]

/-! ### The cell store across a cycle -/

/-- No access has written the cell store in cycle `t` or later. -/
def Cell.StoreSettled (x : Cell) (t : Nat) : Prop := ∀ w ∈ x.csw, w.cyc < t

theorem Cell.StoreSettled.store {x : Cell} {t u : Nat} (h : x.StoreSettled t) (hu : t ≤ u) : x.store u = applyCsw x.cs x.csw := by
  rw [Cell.store, List.filter_eq_self.2 fun w hw => decide_eq_true (lt_of_lt_of_le (h w hw) hu)]

/-- Without a write the next cycle reads the cell store of this one. -/
theorem Cell.StoreSettled.store_succ {x y : Cell} {t : Nat} (h : x.StoreSettled t) (hcs : y.cs = x.cs) (hcsw : y.csw = x.csw) :
    y.store (t + 1) = x.store t := by
  have hy : y.StoreSettled t := by rwa [Cell.StoreSettled, hcsw]
  rw [hy.store (Nat.le_succ t), h.store (Nat.le_refl t), hcs, hcsw]

/-- The next cycle reads the write of this one over the cell store of this one (R60). -/
theorem Cell.StoreSettled.store_csWrite {x : Cell} {t : Nat} (h : x.StoreSettled t) (port : CsPort) (data : List Host.Cell) :
    (x.csWrite t port data).store (t + 1) = Mem.setCells (x.store t) data := by
  have hnone : x.csw.filter (fun w => decide (t ≤ w.cyc)) = [] :=
    List.filter_eq_nil_iff.2 fun w hw => by simpa using h w hw
  cases port <;> simp [Cell.store, Cell.csWrite, hnone, applyCsw]

/-! ### What an event of one cell leaves of the module -/

theorem onlyCell_iff {s t : State} {c : Nat} : OnlyCell s t c ↔
    (∃ cells counters health act, t = { s with cells, counters, health, act }) ∧ ∀ k, k ≠ c → t.cell k = s.cell k :=
  ⟨fun ⟨heq, hne⟩ => ⟨⟨_, _, _, _, heq⟩, hne⟩, fun ⟨⟨_, _, _, _, heq⟩, hne⟩ => ⟨by rw [heq], hne⟩⟩

theorem OnlyCell.trans {s t u : State} {c : Nat} (h1 : OnlyCell s t c) (h2 : OnlyCell t u c) : OnlyCell s u c := by
  obtain ⟨⟨_, _, _, _, rfl⟩, hne1⟩ := onlyCell_iff.1 h1
  obtain ⟨⟨_, _, _, _, rfl⟩, hne2⟩ := onlyCell_iff.1 h2
  exact ⟨rfl, fun k hk => (hne2 k hk).trans (hne1 k hk)⟩

theorem Counted.onlyCell {s t : State} (h : Counted s t) (c : Nat) : OnlyCell s t c := by
  obtain ⟨_, _, rfl⟩ := h
  exact ⟨rfl, fun _ _ => rfl⟩

theorem Counted.cell {s t : State} (h : Counted s t) (c : Nat) : t.cell c = s.cell c := by
  obtain ⟨_, _, rfl⟩ := h
  rfl

theorem State.onCell_onlyCell (s : State) (c : Nat) (f : Cell → Cell) : OnlyCell s (s.onCell c f) c :=
  ⟨rfl, fun _ hk => State.onCell_cell_ne _ _ hk⟩

theorem State.spend_onlyCell (s : State) (row : Nat) (p : Option Nat) (n c : Nat) : OnlyCell s (s.spend row p n) c :=
  ⟨rfl, fun _ _ => rfl⟩

/-- A read that meets no uncorrectable word counts the corrected ones (R59). -/
theorem State.eccCell_counted {s : State} {e : EccW} {words : List Nat} (h : eccBad e words.length = none) (c mem : Nat) :
    Counted s (s.eccCell c e mem words) := by
  unfold State.eccCell
  simp only [h]
  exact .ite (.refl s) (s.count_counted ..)

/-! ### Scalar accesses -/

theorem takeDue_head {α : Type} {p : α → Bool} {a : α} (h : p a = true) (l : List α) : takeDue p (a :: l) = some (a, l) := by
  simp [takeDue, h]

/-- The first access due is made on the cell without it; nothing else changes but counts. -/
theorem exec_scalarMemoryAccess_due {c : Nat} {ecc : Ecc} {s : State} {a : MemAcc} {rest : List MemAcc}
    (hmacc : (s.cell c).macc = a :: rest) (hdue : a.due ≤ s.dueBound c) (hecc : ecc ≠ .uncorrectable) :
    ∃ t, exec (.scalarMemoryAccess c ecc) s = .next t ∧ OnlyCell s t c ∧
      t.cell c = ({ s.cell c with macc := rest } : Cell).access s.cycle a := by
  have hbad : eccBad [(0, ecc)] [a.ea / 8].length = none := by simp [eccBad, hecc]
  change ∃ t, execScalarMemoryAccess c ecc s = .next t ∧ _
  simp only [execScalarMemoryAccess, hmacc, takeDue_head (p := fun a : MemAcc => decide (a.due ≤ s.dueBound c)) (decide_eq_true hdue),
    hecc, decide_false, Bool.and_false, Bool.false_eq_true, if_false]
  generalize hs1 : s.onCell c (fun x => { x with macc := rest }) = s1
  have h1 : OnlyCell s s1 c ∧ s1.cell c = { s.cell c with macc := rest } := by
    subst hs1
    exact ⟨s.onCell_onlyCell .., State.onCell_cell_same ..⟩
  generalize hs2 : (if (a.en && !a.store) = true then s1.eccCell c [(0, ecc)] (b2n a.cs) [a.ea / 8] else s1) = s2
  have h2 : Counted s1 s2 := by
    subst hs2
    exact .ite (State.eccCell_counted hbad ..) (.refl s1)
  generalize hs3 : (if (a.en && a.cs) = true then s2.spend 8 (s.cellOwner c) 1 else s2) = s3
  have h3 : OnlyCell s2 s3 c ∧ s3.cell c = s2.cell c := by
    subst hs3
    split
    · exact ⟨s2.spend_onlyCell .., rfl⟩
    · exact ⟨(Counted.refl s2).onlyCell c, rfl⟩
  refine ⟨_, rfl, ((h1.1.trans (h2.onlyCell c)).trans h3.1).trans (s3.onCell_onlyCell ..), ?_⟩
  rw [State.onCell_cell_same, h3.2, h2.cell, h1.2]

/-- What an access can change of its cell. -/
theorem Cell.access_frame (x : Cell) (t : Nat) (a : MemAcc) : x.access t a = { x with
    sdm := (x.access t a).sdm, cs := (x.access t a).cs, csw := (x.access t a).csw, pend := (x.access t a).pend } := by
  unfold Cell.access Cell.csWrite
  split
  · rfl
  split
  · dsimp only
    split <;> rfl
  · rfl

theorem Cell.access_disabled {x : Cell} {t : Nat} {a : MemAcc} (h : a.en = false) : x.access t a = x := by
  simp [Cell.access, h]

theorem Cell.access_store_cs {x : Cell} {t : Nat} {a : MemAcc} (hen : a.en = true) (hst : a.store = true) (hcs : a.cs = true) :
    x.access t a = x.csWrite t .scalar (cellsAt a.ea (natLe a.data.toNat a.n)) := by
  simp [Cell.access, hen, hst, hcs]

theorem Cell.access_store_sdm {x : Cell} {t : Nat} {a : MemAcc} (hen : a.en = true) (hst : a.store = true) (hcs : a.cs = false) :
    x.access t a = { x with sdm := Mem.setCells x.sdm (cellsAt a.ea (natLe a.data.toNat a.n)) } := by
  simp [Cell.access, hen, hst, hcs, setCells_cellsAt]

theorem Cell.access_load {x : Cell} {t : Nat} {a : MemAcc} (hen : a.en = true) (hst : a.store = false) :
    x.access t a = { x with pend := x.pend ++ [{ due := a.due + 1, issued := a.issued, w := (.g a.rd
      (if a.sx then sext (Mem.le (if a.cs then x.store t else x.sdm) a.ea a.n) (8 * a.n)
       else BitVec.ofNat 64 (Mem.le (if a.cs then x.store t else x.sdm) a.ea a.n))) }] } := by
  simp [Cell.access, hen, hst]

/-- The memory that an access addresses, as a read of cycle `t` finds it. -/
def Cell.accMem (x : Cell) (a : MemAcc) (t : Nat) : Mem := if a.cs then x.store t else x.sdm

/-- The memory that an access does not address. -/
def Cell.otherMem (x : Cell) (a : MemAcc) (t : Nat) : Mem := if a.cs then x.sdm else x.store t

/-- An access that stores nothing changes neither memory. -/
theorem Cell.access_no_store (x : Cell) (t : Nat) {a : MemAcc} (h : a.en = true → a.store = false) (u : Nat) :
    (x.access t a).accMem a u = x.accMem a u ∧ (x.access t a).otherMem a u = x.otherMem a u := by
  cases hen : a.en with
  | false => rw [Cell.access_disabled hen]; exact ⟨rfl, rfl⟩
  | true => rw [Cell.access_load hen (h hen)]; exact ⟨rfl, rfl⟩

section
variable {x : Cell} {t : Nat} {a : MemAcc} (hx : x.StoreSettled t)
include hx

/-- An enabled store writes its bytes over the memory it addresses and leaves the other one. -/
theorem Cell.access_store (hen : a.en = true) (hst : a.store = true) :
    (x.access t a).accMem a (t + 1) = Mem.setCells (x.accMem a (t + 1)) (cellsAt a.ea (natLe a.data.toNat a.n)) ∧
    (x.access t a).otherMem a (t + 1) = x.otherMem a (t + 1) ∧ (x.access t a).pend = x.pend := by
  unfold Cell.accMem Cell.otherMem
  cases hcs : a.cs with
  | true =>
    rw [Cell.access_store_cs hen hst hcs]
    exact ⟨by simpa [hx.store_succ rfl rfl] using hx.store_csWrite _ _, rfl, rfl⟩
  | false =>
    rw [Cell.access_store_sdm hen hst hcs]
    exact ⟨rfl, rfl, rfl⟩

/-- An enabled load puts the bytes it reads in flight, sign- or zero-extended. -/
theorem Cell.access_load_pend (hen : a.en = true) (hst : a.store = false) (hn : 0 < a.n) {v : Nat}
    (hv : v = Mem.le (x.accMem a (t + 1)) a.ea a.n) :
    (x.access t a).pend = x.pend ++ [{ due := a.due + 1, issued := a.issued, w := (.g a.rd
      (if a.sx then (BitVec.ofNat (8 * a.n) v).signExtend 64 else BitVec.ofNat 64 v)) }] := by
  have hmem : (if a.cs then x.store t else x.sdm) = x.accMem a (t + 1) := by
    rw [Cell.accMem, hx.store_succ rfl rfl]
  rw [Cell.access_load hen hst, hmem, ← hv, sext_eq_signExtend (by omega)]

/-- The memory that an access does not address is as before. -/
theorem Cell.access_otherMem : (x.access t a).otherMem a (t + 1) = x.otherMem a (t + 1) := by
  by_cases h : a.en = true ∧ a.store = true
  · exact (Cell.access_store hx h.1 h.2).2.1
  · exact (x.access_no_store t (fun hen => by simpa [hen] using h) _).2

end

/-- Settles O6: the access due is that of `Cell.access`, whose store writes its bytes and whose load reads them. -/
theorem scalarAccessesReadAndWriteMemory : Obligations.ScalarAccessesReadAndWriteMemory := by
  unfold Obligations.ScalarAccessesReadAndWriteMemory
  intro c ecc s a rest hmacc hdue hecc hn hsettled
  obtain ⟨t, hnext, honly, hcell⟩ := exec_scalarMemoryAccess_due hmacc hdue hecc
  have hx : ({ s.cell c with macc := rest } : Cell).StoreSettled s.cycle := hsettled
  have hpos : 0 < a.n := by
    simp only [List.mem_cons, List.not_mem_nil, or_false] at hn
    omega
  refine ⟨t, hnext, honly, ?_⟩
  rw [hcell]
  refine ⟨?_, ?_, ?_, ?_, ?_, ?_, ?_, ?_, fun hen hst => ?_, fun hen hst => ?_, fun hen => ?_⟩
  iterate 7 rw [Cell.access_frame]
  · have hother := Cell.access_otherMem (a := a) hx
    unfold Cell.otherMem at hother
    split at hother
    · rw [if_pos ‹_›]
      exact hother
    · rw [if_neg ‹_›]
      exact hother
  · obtain ⟨hmem, -, hpend⟩ := Cell.access_store hx hen hst
    refine ⟨hpend, fun i hi => ?_, fun j hj => ?_⟩
    · exact (congrArg (Mem.byte · _) hmem).trans (byte_setCells_natLe_in _ _ _ _ hi)
    · exact (congrArg (Mem.byte · _) hmem).trans (byte_setCells_natLe_out _ _ _ _ hj)
  · refine ⟨fun j => congrArg (Mem.byte · j) (Cell.access_no_store _ _ (fun _ => hst) _).1, _, rfl, ?_⟩
    exact Cell.access_load_pend hx hen hst hpos (Mem.le_eq_sum ..).symm
  · exact ⟨by rw [Cell.access_disabled hen],
      fun j => congrArg (Mem.byte · j) (Cell.access_no_store _ _ (fun h => by simp [hen] at h) _).1⟩

/-! ### Lanes written to the cell store -/

theorem laneCells_append (n : Nat) (l1 l2 : List (Nat × Lane)) : laneCells n (l1 ++ l2) = laneCells n l1 ++ laneCells n l2 := by
  have hacc : ∀ (l : List (Nat × Lane)) (acc : List Host.Cell),
      l.foldl (fun acc e => acc ++ cellsAt e.1 (natLe e.2.toNat n)) acc = acc ++ laneCells n l := by
    intro l
    induction l with
    | nil => simp [laneCells]
    | cons e l ih =>
      intro acc
      rw [laneCells, List.foldl_cons, List.foldl_cons, ih, ih, List.nil_append, List.append_assoc]
  rw [laneCells, List.foldl_append, hacc l2]
  rfl

theorem laneCells_singleton (n : Nat) (e : Nat × Lane) : laneCells n [e] = cellsAt e.1 (natLe e.2.toNat n) := List.nil_append _

/-- A byte that no lane covers reads as before. -/
theorem byte_laneCells_out (m : Mem) (n : Nat) {l : List (Nat × Lane)} {b : Nat} (h : ∀ e ∈ l, b < e.1 ∨ e.1 + n ≤ b) :
    Mem.byte (Mem.setCells m (laneCells n l)) b = Mem.byte m b := by
  induction l using List.reverseRecOn with
  | nil => rfl
  | append_singleton l e ih =>
    rw [laneCells_append, setCells_append, laneCells_singleton, byte_setCells_natLe_out _ _ _ _ (h e (by simp)),
      ih fun e' he' => h e' (by simp [he'])]

/-- The last lane that covers a byte writes it (R107). -/
theorem byte_laneCells_last (m : Mem) {n i : Nat} (l1 : List (Nat × Lane)) (e : Nat × Lane) {l2 : List (Nat × Lane)} (hi : i < n)
    (h : ∀ e' ∈ l2, e.1 + i < e'.1 ∨ e'.1 + n ≤ e.1 + i) :
    Mem.byte (Mem.setCells m (laneCells n (l1 ++ e :: l2))) (e.1 + i) = BitVec.ofNat 8 (e.2.toNat / 256 ^ i) := by
  rw [List.append_cons, laneCells_append, setCells_append, byte_laneCells_out _ _ h, laneCells_append, setCells_append,
    laneCells_singleton, byte_setCells_natLe_in _ _ _ _ hi]

/-- Among lanes no two of which cover one byte, each writes its bytes. -/
theorem byte_laneCells_mem (m : Mem) {n i : Nat} {l : List (Nat × Lane)} {e : Nat × Lane} (he : e ∈ l) (hi : i < n)
    (h : ∀ e' ∈ l, e' ≠ e → e.1 + i < e'.1 ∨ e'.1 + n ≤ e.1 + i) :
    Mem.byte (Mem.setCells m (laneCells n l)) (e.1 + i) = BitVec.ofNat 8 (e.2.toNat / 256 ^ i) := by
  induction l using List.reverseRecOn with
  | nil => exact absurd he List.not_mem_nil
  | append_singleton l e' ih =>
    rw [laneCells_append, setCells_append, laneCells_singleton]
    by_cases heq : e' = e
    · rw [heq, byte_setCells_natLe_in _ _ _ _ hi]
    · rw [byte_setCells_natLe_out _ _ _ _ (h e' (by simp) heq)]
      refine ih ?_ fun e'' he'' => h e'' (by simp [he''])
      simpa [Ne.symm heq] using he

/-! ### Port operations -/

/-- The cell after the port access `o` of cycle `t`. -/
def Cell.afterPort (x : Cell) (t : Nat) (o : PortOp) : Cell := { (x.portAccess t o).stepPort o with lastPort := t + 1 }

/-- The only port operation, when its cycle has come, makes its access; nothing else changes but counts. -/
theorem exec_vectorPortAccess_due {c : Nat} {ecc : EccW} {s : State} {o : PortOp} (hport : (s.cell c).port = [o])
    (hdue : o.next ≤ s.dueBound c) (hact : o.act ≠ .idle) (hecc : eccBad ecc (o.act.words o.done).length = none) :
    ∃ t, exec (.vectorPortAccess c ecc) s = .next t ∧ OnlyCell s t c ∧ t.cell c = (s.cell c).afterPort s.cycle o := by
  change ∃ t, execVectorPortAccess c ecc s = .next t ∧ _
  simp only [execVectorPortAccess, hport, firstPort, if_neg (Nat.not_lt.2 hdue), if_neg hact, hecc, Option.isSome_none,
    Bool.false_eq_true, if_false]
  have h1 := State.eccCell_counted hecc c 1 (s := s)
  generalize s.eccCell c ecc 1 (o.act.words o.done) = s1 at h1
  have h2 := s1.count_counted (locCell c) 0x009 1
  refine ⟨_, rfl, (((h1.onlyCell c).trans (h2.onlyCell c)).trans (State.spend_onlyCell ..)).trans (State.onCell_onlyCell ..), ?_⟩
  rw [State.onCell_cell_same]
  exact congrArg (Cell.afterPort · s.cycle o) ((h2.cell c).trans (h1.cell c))

/-- What a port access can change of its cell. -/
theorem Cell.afterPort_frame (x : Cell) (t : Nat) (o : PortOp) : x.afterPort t o = { x with
    pend := (x.afterPort t o).pend, port := (x.afterPort t o).port, wlines := (x.afterPort t o).wlines, mma := (x.afterPort t o).mma
    maddx := (x.afterPort t o).maddx, accOut := (x.afterPort t o).accOut, cs := (x.afterPort t o).cs, csw := (x.afterPort t o).csw
    lastPort := t + 1 } := by
  unfold Cell.afterPort Cell.stepPort Cell.portAccess
  cases o.act with
  | gather n vd ls got =>
    dsimp only
    split <;> rfl
  | _ => rfl

/-- The cell store that the next cycle reads after an access that wrote nothing. -/
theorem Cell.StoreSettled.afterPort_store {x : Cell} {t : Nat} {o : PortOp} (hx : x.StoreSettled t)
    (hcs : (x.portAccess t o).cs = x.cs) (hcsw : (x.portAccess t o).csw = x.csw) :
    (x.afterPort t o).store (t + 1) = x.store t := hx.store_succ hcs hcsw

/-- An access leaves its own operation in the port, whatever it has gathered. -/
theorem Cell.portAccess_port {x : Cell} {t : Nat} {o : PortOp} (hport : x.port = [o]) :
    ∃ act, (x.portAccess t o).port = [{ o with act }] := by
  unfold Cell.portAccess
  cases hact : o.act with
  | gather n vd ls got =>
    dsimp only
    split
    · exact ⟨_, hport⟩
    · exact ⟨_, by rw [hport, List.map_singleton, if_pos rfl]⟩
  | _ => exact ⟨_, hport⟩

/-- An operation leaves the port with its last access. -/
theorem Cell.afterPort_port {x : Cell} {t : Nat} {o : PortOp} {act : PortAct} (hport : (x.portAccess t o).port = [{ o with act }]) :
    (x.afterPort t o).port = if o.done + 1 < o.count then [{ o with act, done := o.done + 1 }] else [] := by
  simp only [Cell.afterPort, Cell.stepPort, hport, List.map_cons, if_true, List.map_nil, List.filter_cons, List.filter_nil,
    decide_eq_true_eq]

/-- The lanes that a VLD selects, each four bytes of the line. -/
theorem selLanes_line (mask : Word) (m : Mem) (ea : Nat) : selLanes mask (fun l => BitVec.extractLsb' (32 * l) 32 (Mem.line m ea)) =
    ((List.range 64).filter (fun l => mask.getLsbD l)).map (fun l => (l, BitVec.ofNat 32 (Mem.le m (ea + 4 * l) 4))) := by
  refine List.map_congr_left fun l hl => congrArg (Prod.mk l) ?_
  exact Mem.line_lane m ea (List.mem_range.1 (List.mem_filter.1 hl).1)

/-- The bytes that a VST writes: lane `l` at `ea + 4 l`. -/
def vstLanes (mask : Word) (ea : Nat) (data : List Lane) : List (Nat × Lane) :=
  (selLanes mask (fun l => data.getD l 0)).map (fun e => (ea + 4 * e.1, e.2))

theorem mem_vstLanes {mask : Word} {ea : Nat} {data : List Lane} {e : Nat × Lane} :
    e ∈ vstLanes mask ea data ↔ ∃ l, l < 64 ∧ mask.getLsbD l = true ∧ e = (ea + 4 * l, data.getD l 0) := by
  simp only [vstLanes, selLanes, List.map_map, List.mem_map, List.mem_filter, List.mem_range, Function.comp, and_assoc, eq_comm]

theorem byte_vstLanes_in (m : Mem) (ea : Nat) (data : List Lane) {mask : Word} {l i : Nat} (hl : l < 64) (hi : i < 4)
    (hm : mask.getLsbD l = true) :
    Mem.byte (Mem.setCells m (laneCells 4 (vstLanes mask ea data))) (ea + 4 * l + i) =
      BitVec.ofNat 8 ((data.getD l 0).toNat / 256 ^ i) := by
  refine byte_laneCells_mem m (mem_vstLanes.2 ⟨l, hl, hm, rfl⟩) hi fun e' he' hne => ?_
  obtain ⟨l', -, -, rfl⟩ := mem_vstLanes.1 he'
  have hl' : l' ≠ l := fun h => hne (by rw [h])
  dsimp only
  omega

theorem byte_vstLanes_out (m : Mem) (ea : Nat) (data : List Lane) {mask : Word} {b : Nat}
    (h : ∀ l, l < 64 → mask.getLsbD l = true → b < ea + 4 * l ∨ ea + 4 * l + 4 ≤ b) :
    Mem.byte (Mem.setCells m (laneCells 4 (vstLanes mask ea data))) b = Mem.byte m b := by
  refine byte_laneCells_out m 4 fun e he => ?_
  obtain ⟨l, hl, hm, rfl⟩ := mem_vstLanes.1 he
  exact h l hl hm

/-- The output whose lines an operation writes, when no other output has its issue cycle. -/
theorem outLine_eq {x : Cell} {issued : Nat} {q : AccOut} (j : Nat) (hmem : q ∈ x.accOut) (hq : q.issued = issued)
    (huniq : ∀ q' ∈ x.accOut, q'.issued = issued → q' = q) : outLine x issued j = look 0#2048 q.lines j := by
  cases hfind : x.accOut.find? (fun o => decide (o.issued = issued)) with
  | none => exact absurd (decide_eq_true hq) (List.find?_eq_none.1 hfind q hmem)
  | some o =>
    have ho := huniq o (List.mem_of_find?_eq_some hfind) (by simpa using List.find?_some hfind)
    simp only [outLine, hfind, ho]

/-! ### The access of each operation -/

section
variable {x : Cell} {t : Nat} {o : PortOp}

theorem Cell.portAccess_vld {vd : Nat} {mask : Word} {ea : Nat} (h : o.act = .vld vd mask ea) :
    x.portAccess t o = { x with pend := x.pend ++ [{ due := o.next + 2, issued := o.issued, w := (.v vd
      (((List.range 64).filter (fun l => mask.getLsbD l)).map
        (fun l => (l, BitVec.ofNat 32 (Mem.le (x.store t) (ea + 4 * l) 4))))) }] } := by
  simp only [Cell.portAccess, h, ← selLanes_line]

theorem Cell.portAccess_vst {mask : Word} {ea : Nat} {data : List Lane} (h : o.act = .vst mask ea data) :
    x.portAccess t o = x.csWrite t .vec (laneCells 4 (vstLanes mask ea data)) := by
  simp only [Cell.portAccess, h, vstLanes]

theorem Cell.portAccess_scatter {n : Nat} {ls : List (Nat × Nat × Lane)} (h : o.act = .scatter n ls) :
    x.portAccess t o = x.csWrite t .vec (laneCells n ((groupOf ls o.done).map (fun e => e.2))) := by
  simp only [Cell.portAccess, h]

/-- What a gather has when the group of its access is added. -/
def gathered (m : Mem) (n : Nat) (ls : List (Nat × Nat)) (got : List (Nat × Lane)) (j : Nat) : List (Nat × Lane) :=
  got ++ (ls.filter (fun e => decide (e.1 / 16 = j))).map (fun e => (e.1, BitVec.ofNat 32 (Mem.le m e.2 n)))

theorem Cell.portAccess_gather_last {n vd : Nat} {ls : List (Nat × Nat)} {got : List (Nat × Lane)} (h : o.act = .gather n vd ls got)
    (hlast : o.done = 3) : x.portAccess t o = { x with pend := x.pend ++ [{ due := o.next + 3, issued := o.issued
                                                                            w := .v vd (gathered (x.store t) n ls got o.done) }] } := by
  simp only [Cell.portAccess, h, if_pos hlast, gathered, groupOf]

theorem Cell.portAccess_gather_more {n vd : Nat} {ls : List (Nat × Nat)} {got : List (Nat × Lane)} (h : o.act = .gather n vd ls got)
    (hmore : o.done ≠ 3) : x.portAccess t o = { x with port := x.port.map (fun q =>
      if q.issued = o.issued then { q with act := .gather n vd ls (gathered (x.store t) n ls got o.done) } else q) } := by
  simp only [Cell.portAccess, h, if_neg hmore, gathered, groupOf]

theorem Cell.portAccess_mlw {wb : Bool} {ea : Nat} (h : o.act = .mlw wb ea) : x.portAccess t o = { x with
    wlines := x.wlines ++ [{ due := o.next + 1, wb, j := o.done, line := Mem.line (x.store t) (ea + 256 * o.done) }] } := by
  simp only [Cell.portAccess, h]

theorem Cell.portAccess_mma {ea : Nat} (h : o.act = .mma ea) : x.portAccess t o = { x with mma := x.mma.map (fun q =>
    if q.issued = o.issued then { q with xs := put 0#2048 q.xs o.done (Mem.line (x.store t) (ea + 256 * o.done)) } else q) } := by
  simp only [Cell.portAccess, h]

theorem Cell.portAccess_maddx {ea : Nat} (h : o.act = .maddx ea) : x.portAccess t o = { x with maddx := x.maddx.map (fun q =>
    if q.issued = o.issued then { q with lines := put 0#2048 q.lines o.done (Mem.line (x.store t) (ea + 256 * o.done)) } else q) } := by
  simp only [Cell.portAccess, h]

theorem Cell.portAccess_accOut {ea : Nat} (h : o.act = .accOut ea) : x.portAccess t o =
    x.csWrite t .vec (cellsAt (ea + 256 * o.done) (natLe (outLine x o.issued o.done).toNat 256)) := by
  simp only [Cell.portAccess, h, lineBytes]

end

/-- A group of a scatter writes the bytes of its lanes, the later of two that cover one byte prevailing (R106, R107). -/
theorem byte_scatter_last (m : Mem) {n j i : Nat} (l1 : List (Nat × Nat × Lane)) {e : Nat × Nat × Lane} {l2 : List (Nat × Nat × Lane)}
    (hj : e.1 / 16 = j) (hi : i < n) (h : ∀ e' ∈ l2, e'.1 / 16 = j → e.2.1 + i < e'.2.1 ∨ e'.2.1 + n ≤ e.2.1 + i) :
    Mem.byte (Mem.setCells m (laneCells n ((groupOf (l1 ++ e :: l2) j).map (fun e => e.2)))) (e.2.1 + i) =
      BitVec.ofNat 8 (e.2.2.toNat / 256 ^ i) := by
  rw [groupOf, List.filter_append, List.filter_cons_of_pos (by simpa using hj), List.map_append, List.map_cons]
  refine byte_laneCells_last m _ e.2 hi fun e' he' => ?_
  obtain ⟨e'', he'', rfl⟩ := List.mem_map.1 he'
  obtain ⟨hmem, hgroup⟩ := List.mem_filter.1 he''
  exact h e'' hmem (of_decide_eq_true hgroup)

theorem byte_scatter_out (m : Mem) {n j b : Nat} {ls : List (Nat × Nat × Lane)}
    (h : ∀ e ∈ ls, e.1 / 16 = j → b < e.2.1 ∨ e.2.1 + n ≤ b) :
    Mem.byte (Mem.setCells m (laneCells n ((groupOf ls j).map (fun e => e.2)))) b = Mem.byte m b := by
  refine byte_laneCells_out m n fun e he => ?_
  obtain ⟨e', he', rfl⟩ := List.mem_map.1 he
  obtain ⟨hmem, hgroup⟩ := List.mem_filter.1 he'
  exact h e' hmem (of_decide_eq_true hgroup)

/-- Settles O11: the access due is that of `Cell.portAccess`, taken apart by what the operation does. -/
theorem portAccessesMoveData : Obligations.PortAccessesMoveData := by
  unfold Obligations.PortAccessesMoveData
  intro c ecc s o x m j hport hdue hact hecc hcount hsettled
  obtain ⟨t, hnext, honly, hcell⟩ := exec_vectorPortAccess_due hport hdue hact hecc
  obtain ⟨act, hleft⟩ := Cell.portAccess_port (t := s.cycle) hport
  have hx : x.StoreSettled s.cycle := hsettled
  refine ⟨t, hnext, honly, ?_⟩
  rw [hcell]
  intro y new
  have hread (hcs : (x.portAccess s.cycle o).cs = x.cs) (hcsw : (x.portAccess s.cycle o).csw = x.csw) (b : Nat) :
      Mem.byte new b = Mem.byte m b := congrArg (Mem.byte · b) (hx.afterPort_store hcs hcsw)
  have hwrite {data : List Host.Cell} (h : x.portAccess s.cycle o = x.csWrite s.cycle .vec data) :
      new = Mem.setCells m data ∧ y.pend = x.pend := by
    refine ⟨Eq.trans ?_ (hx.store_csWrite .vec data), (congrArg Cell.pend h :)⟩
    rw [← h]
    rfl
  refine ⟨fun hlast => ?_, ?_, ?_, ?_, ?_, fun vd mask ea h => ?_, fun mask ea data h => ?_, fun n ls h => ?_, fun n vd ls got h => ?_,
    fun wb ea h => ?_, fun ea h => ?_, fun ea h => ?_, fun ea q h hmem huniq hq => ?_⟩
  · exact (Cell.afterPort_port hleft).trans (if_neg (by omega))
  iterate 4 exact (congrArg _ (Cell.afterPort_frame x s.cycle o) :)
  · have ha := Cell.portAccess_vld (x := x) (t := s.cycle) h
    exact ⟨(congrArg Cell.pend ha :), hread (by rw [ha]) (by rw [ha])⟩
  · obtain ⟨hnew, hpend⟩ := hwrite (Cell.portAccess_vst h)
    rw [hnew]
    exact ⟨hpend, fun l i hl hi hm => byte_vstLanes_in m ea data hl hi hm, fun b hb => byte_vstLanes_out m ea data hb⟩
  · obtain ⟨hnew, hpend⟩ := hwrite (Cell.portAccess_scatter h)
    rw [hnew]
    refine ⟨hpend, fun b hb => byte_scatter_out m hb, fun l1 e l2 i hls hj hi hlater => ?_⟩
    rw [hls]
    exact byte_scatter_last m l1 hj hi hlater
  · refine ⟨fun b => ?_, fun hlast => ?_, fun hmore hcount' => ?_⟩
    · by_cases hlast : o.done = 3
      · exact hread (by rw [Cell.portAccess_gather_last h hlast]) (by rw [Cell.portAccess_gather_last h hlast]) b
      · exact hread (by rw [Cell.portAccess_gather_more h hlast]) (by rw [Cell.portAccess_gather_more h hlast]) b
    · exact (congrArg Cell.pend (Cell.portAccess_gather_last (x := x) (t := s.cycle) h hlast) :)
    · have ha := Cell.portAccess_gather_more (x := x) (t := s.cycle) h hmore
      refine ⟨(congrArg Cell.pend ha :), ?_⟩
      rw [hport, List.map_singleton, if_pos rfl] at ha
      exact (Cell.afterPort_port (congrArg Cell.port ha :)).trans (if_pos hcount')
  · have ha := Cell.portAccess_mlw (x := x) (t := s.cycle) h
    exact ⟨(congrArg Cell.wlines ha :), hread (by rw [ha]) (by rw [ha])⟩
  · have ha := Cell.portAccess_mma (x := x) (t := s.cycle) h
    exact ⟨hread (by rw [ha]) (by rw [ha]), (congrArg Cell.mma ha :)⟩
  · have ha := Cell.portAccess_maddx (x := x) (t := s.cycle) h
    exact ⟨hread (by rw [ha]) (by rw [ha]), (congrArg Cell.maddx ha :)⟩
  · obtain ⟨hnew, -⟩ := hwrite (Cell.portAccess_accOut h)
    rw [hnew, outLine_eq _ hmem hq huniq]
    exact ⟨fun i hi => byte_setCells_natLe_in _ _ _ _ hi, fun b hb => byte_setCells_natLe_out _ _ _ _ hb⟩

end Sys2Proof.Machine
end

