-- ==== Sys2Proof/Proofs/ResultLanding.lean ====
section
/-! PROOF. Results land in landing order, and a register keeps the last that lands in it (O14). -/

namespace Sys2Proof.Machine
open Sys2Proof.Stmt

/-! ### Landing order -/

/-- `a` lands before `b`: by landing cycle, then by issue cycle (R67). -/
def PendRes.Before (a b : PendRes) : Prop := a.due < b.due ∨ (a.due = b.due ∧ a.issued < b.issued)

theorem PendRes.Before.trans {a b c : PendRes} (h1 : a.Before b) (h2 : b.Before c) : a.Before c := by
  unfold PendRes.Before at *
  omega

/-- No result of the list stands before one that lands earlier. -/
def InLandingOrder (l : List PendRes) : Prop := l.Pairwise (fun a b => ¬ b.Before a)

theorem insertRes_perm (r : PendRes) (l : List PendRes) : (insertRes r l).Perm (r :: l) := by
  induction l with
  | nil => exact .refl _
  | cons q l ih =>
    unfold insertRes
    split
    · exact .refl _
    · exact (ih.cons q).trans (.swap ..)

theorem insertRes_inLandingOrder (r : PendRes) {l : List PendRes} (h : InLandingOrder l) : InLandingOrder (insertRes r l) := by
  induction l with
  | nil => exact List.pairwise_singleton ..
  | cons q l ih =>
    obtain ⟨hq, hl⟩ := List.pairwise_cons.1 h
    unfold insertRes
    split
    · rename_i hrq
      refine List.pairwise_cons.2 ⟨fun e he hbefore => ?_, h⟩
      rcases List.mem_cons.1 he with rfl | he
      · unfold PendRes.Before at hbefore
        omega
      · exact hq e he (hbefore.trans hrq)
    · rename_i hrq
      refine List.pairwise_cons.2 ⟨fun e he => ?_, ih hl⟩
      rcases List.mem_cons.1 ((insertRes_perm r l).mem_iff.1 he) with rfl | he
      · exact hrq
      · exact hq e he

theorem sortRes_spec (l : List PendRes) : (sortRes l).Perm l ∧ InLandingOrder (sortRes l) := by
  induction l using List.reverseRecOn with
  | nil => exact ⟨.refl _, .nil⟩
  | append_singleton l r ih =>
    obtain ⟨hperm, horder⟩ := ih
    rw [sortRes, List.foldl_append, List.foldl_cons, List.foldl_nil]
    change (insertRes r (sortRes l)).Perm (l ++ [r]) ∧ InLandingOrder (insertRes r (sortRes l))
    exact ⟨(insertRes_perm r _).trans ((hperm.cons r).trans (List.perm_append_singleton r l).symm), insertRes_inLandingOrder r horder⟩

/-- The results due by `b` in landing order. -/
def landing (l : List PendRes) (b : Nat) : List PendRes := sortRes (l.filter (fun r => decide (r.due ≤ b)))

theorem mem_landing {l : List PendRes} {b : Nat} {q : PendRes} : q ∈ landing l b ↔ q ∈ l ∧ q.due ≤ b := by
  rw [landing, (sortRes_spec _).1.mem_iff, List.mem_filter, decide_eq_true_eq]

/-- After the result that lands last of those that hit, none of the landing ones hits. -/
theorem landsLast_split {l : List PendRes} {b : Nat} {hit : RegWrite → Bool} {q : PendRes} (h : LandsLast l b hit q) :
    ∃ l1 l2, landing l b = l1 ++ q :: l2 ∧ ∀ o ∈ l2, hit o.w = false := by
  obtain ⟨k1, k2, rfl, hdue, hlast⟩ := h
  obtain ⟨hperm, horder⟩ := sortRes_spec ((k1 ++ q :: k2).filter (fun r => decide (r.due ≤ b)))
  obtain ⟨l1, l2, hsplit⟩ := List.append_of_mem (mem_landing.2 ⟨by simp, hdue⟩ : q ∈ landing (k1 ++ q :: k2) b)
  refine ⟨l1, l2, hsplit, fun o ho => ?_⟩
  rw [← landing, hsplit] at hperm horder
  have hrest : (l1 ++ l2).Perm ((k1 ++ k2).filter (fun r => decide (r.due ≤ b))) := by
    refine List.Perm.cons_inv (a := q) (List.perm_middle.symm.trans (hperm.trans ?_))
    rw [List.filter_append, List.filter_cons_of_pos (by simpa using hdue), List.filter_append]
    exact List.perm_middle
  obtain ⟨hmem, hodue⟩ := List.mem_filter.1 (hrest.mem_iff.1 (List.mem_append_right l1 ho))
  have hafter : ¬ o.Before q := (List.pairwise_cons.1 (List.pairwise_append.1 horder).2.1).1 o ho
  exact Bool.eq_false_iff.2 fun hhit => hafter (hlast o hmem (of_decide_eq_true hodue) hhit)

/-! ### What landing leaves in a register -/

/-- Land results in the order of a list. -/
def Cell.landAll (x : Cell) (l : List PendRes) : Cell := l.foldl (fun x r => x.landOne r.w) x

theorem Cell.land_eq (x : Cell) (b : Nat) :
    x.land b = ({ x with pend := x.pend.filter (fun r => decide (b < r.due)) } : Cell).landAll (landing x.pend b) := rfl

/-- The cells differ in register files and address generators only. -/
def RegsOnly (x y : Cell) : Prop := ∃ g p v ag, y = { x with g, p, v, ag }

theorem RegsOnly.refl (x : Cell) : RegsOnly x x := ⟨_, _, _, _, rfl⟩

theorem RegsOnly.eq {x y : Cell} (h : RegsOnly x y) : y = { x with g := y.g, p := y.p, v := y.v, ag := y.ag } := by
  obtain ⟨_, _, _, _, rfl⟩ := h
  rfl

theorem RegsOnly.trans {x y z : Cell} (h1 : RegsOnly x y) (h2 : RegsOnly y z) : RegsOnly x z := by
  obtain ⟨_, _, _, _, rfl⟩ := h1
  obtain ⟨_, _, _, _, rfl⟩ := h2
  exact ⟨_, _, _, _, rfl⟩

theorem RegsOnly.foldl {α : Type} {f : Cell → α → Cell} (h : ∀ x a, RegsOnly x (f x a)) (l : List α) (x : Cell) :
    RegsOnly x (l.foldl f x) := by
  induction l generalizing x with
  | nil => exact .refl x
  | cons a l ih => exact (h x a).trans (ih _)

theorem Cell.landOne_g_frame (x : Cell) (r : Nat) (v : Word) : ∃ g, x.landOne (.g r v) = { x with g } := by
  unfold Cell.landOne Cell.writeG
  dsimp only
  split
  · exact ⟨x.g, rfl⟩
  · exact ⟨_, rfl⟩

theorem Cell.landOne_p_frame (x : Cell) (l : List (Nat × Bool)) : ∃ p, x.landOne (.p l) = { x with p } := by
  induction l generalizing x with
  | nil => exact ⟨x.p, rfl⟩
  | cons e l ih =>
    obtain ⟨p, hp⟩ : ∃ p, x.writeP e.1 e.2 = { x with p } := by
      unfold Cell.writeP
      split
      · exact ⟨x.p, rfl⟩
      · exact ⟨_, rfl⟩
    obtain ⟨p', hp'⟩ := ih (x.writeP e.1 e.2)
    exact ⟨p', hp'.trans (by rw [hp])⟩

theorem Cell.landOne_regsOnly (x : Cell) (w : RegWrite) : RegsOnly x (x.landOne w) := by
  cases w with
  | g r v =>
    obtain ⟨g, hg⟩ := x.landOne_g_frame r v
    exact ⟨_, _, _, _, hg⟩
  | p l =>
    obtain ⟨p, hp⟩ := x.landOne_p_frame l
    exact ⟨_, _, _, _, hp⟩
  | v r lanes => exact ⟨_, _, _, _, rfl⟩
  | agSet a f v => exact ⟨_, _, _, _, rfl⟩
  | agMove a d => exact ⟨_, _, _, _, rfl⟩

theorem Cell.landAll_regsOnly (x : Cell) (l : List PendRes) : RegsOnly x (x.landAll l) := by
  induction l generalizing x with
  | nil => exact .refl x
  | cons r l ih => exact (x.landOne_regsOnly r.w).trans (ih _)

section
variable {α : Type} {get : Cell → α} {wr : RegWrite → Option α}

/-- Reads of `get` see what `wr` says a landing result writes. -/
def Reads (get : Cell → α) (wr : RegWrite → Option α) (l : List PendRes) : Prop :=
  ∀ q ∈ l, ∀ x : Cell, get (x.landOne q.w) = (wr q.w).getD (get x)

theorem Reads.landAll_none {l : List PendRes} (h : Reads get wr l) (hnone : ∀ q ∈ l, wr q.w = none) (x : Cell) :
    get (x.landAll l) = get x := by
  induction l generalizing x with
  | nil => rfl
  | cons q l ih =>
    have hq := h q (by simp) x
    rw [hnone q (by simp)] at hq
    exact (ih (fun o ho => h o (by simp [ho])) (fun o ho => hnone o (by simp [ho])) _).trans hq

theorem Reads.landAll_last {l1 l2 : List PendRes} {q : PendRes} {v : α} (h : Reads get wr (l1 ++ q :: l2)) (hq : wr q.w = some v)
    (hnone : ∀ o ∈ l2, wr o.w = none) (x : Cell) : get (x.landAll (l1 ++ q :: l2)) = v := by
  rw [Cell.landAll, List.foldl_append, List.foldl_cons]
  refine (Reads.landAll_none (fun o ho => h o (by simp [ho])) hnone _).trans ?_
  rw [h q (by simp), hq]
  rfl

/-- A register takes the value of the result that lands last of those that write it (R66, R67). -/
theorem Reads.land_last {x : Cell} {b : Nat} {q : PendRes} {v : α} (h : Reads get wr (landing x.pend b))
    (hlast : LandsLast x.pend b (fun w => (wr w).isSome) q) (hq : wr q.w = some v) : get (x.land b) = v := by
  obtain ⟨l1, l2, hsplit, hnone⟩ := landsLast_split hlast
  rw [Cell.land_eq]
  rw [hsplit] at h ⊢
  exact h.landAll_last hq (fun o ho => by simpa using hnone o ho) _

theorem Reads.land_none {x : Cell} {b : Nat} (h : Reads get wr (landing x.pend b)) (hget : ∀ pend, get { x with pend } = get x)
    (hnone : ∀ q ∈ x.pend, q.due ≤ b → wr q.w = none) : get (x.land b) = get x := by
  rw [Cell.land_eq]
  refine (h.landAll_none (fun q hq => ?_) _).trans (hget _)
  obtain ⟨hmem, hdue⟩ := mem_landing.1 hq
  exact hnone q hmem hdue

end

/-! ### The register files -/

@[simp] theorem Cell.readG_zero (x : Cell) : x.readG 0 = 0 := if_pos rfl
@[simp] theorem Cell.readP_zero (x : Cell) : x.readP 0 = true := if_pos rfl

theorem Cell.readG_landOne (x : Cell) (w : RegWrite) {r : Nat} (hr : r ≠ 0) : (x.landOne w).readG r = (gWrite w r).getD (x.readG r) := by
  cases w with
  | g r' v =>
    by_cases h : r' = r
    · subst h
      simp [Cell.landOne, Cell.writeG, Cell.readG, gWrite, hr]
    · by_cases h0 : r' = 0
      · simp [Cell.landOne, Cell.writeG, gWrite, h0, Ne.symm hr]
      · simp [Cell.landOne, Cell.writeG, Cell.readG, gWrite, h, h0, hr, look_put_ne _ _ _ (Ne.symm h)]
  | p l =>
    obtain ⟨p, hp⟩ := x.landOne_p_frame l
    rw [hp]
    rfl
  | _ => rfl

theorem Cell.readP_writeP (x : Cell) (r : Nat) (v : Bool) {k : Nat} (hk : k ≠ 0) :
    (x.writeP r v).readP k = if r = k then v else x.readP k := by
  unfold Cell.writeP
  by_cases h0 : r = 0
  · simp [h0, Ne.symm hk]
  · simp [h0, Cell.readP, hk, look_put, eq_comm]

theorem Cell.readP_landOne (x : Cell) (w : RegWrite) {r : Nat} (hr : r ≠ 0) : (x.landOne w).readP r = (pWrite w r).getD (x.readP r) := by
  cases w with
  | g r' v =>
    obtain ⟨g, hg⟩ := x.landOne_g_frame r' v
    rw [hg]
    rfl
  | p l =>
    induction l using List.reverseRecOn with
    | nil => rfl
    | append_singleton l e ih =>
      rw [Cell.landOne, List.foldl_append, List.foldl_cons, List.foldl_nil, Cell.readP_writeP _ _ _ hr, pWrite, List.reverse_append,
        List.reverse_singleton, List.singleton_append, List.find?_cons]
      by_cases h : e.1 = r
      · simp [h]
      · simp only [h, decide_false, if_false]
        exact ih
  | _ => rfl

/-- The lane that a list of lanes leaves in a register (R95): its last entry for the lane. -/
theorem Cell.lane_landOne_v (x : Cell) (r' : Nat) {ls : List (Nat × Lane)} (hls : ∀ e ∈ ls, e.1 < 64) (r : Nat) {l : Nat} (hl : l < 64) :
    (x.landOne (.v r' ls)).lane r l = (vWrite (.v r' ls) r l).getD (x.lane r l) := by
  induction ls using List.reverseRecOn with
  | nil => simp [Cell.landOne, vWrite]
  | append_singleton ls e ih =>
    have he : e.1 < 64 := hls e (by simp)
    replace ih := ih (fun e' he' => hls e' (by simp [he']))
    have hput : (x.landOne (.v r' (ls ++ [e]))).lane r l = if 64 * r + l = 64 * r' + e.1 then e.2 else (x.landOne (.v r' ls)).lane r l := by
      simp only [Cell.landOne, Cell.lane, List.foldl_append, List.foldl_cons, List.foldl_nil, look_put]
    rw [hput, ih, vWrite, vWrite, List.reverse_append, List.reverse_singleton, List.singleton_append, List.find?_cons]
    by_cases hr : r' = r
    · by_cases hle : e.1 = l
      · simp [hr, hle]
      · simp [hr, hle, Ne.symm hle]
    · have hne : ¬ 64 * r + l = 64 * r' + e.1 := by omega
      simp [hr, hne]

theorem Cell.lane_landOne (x : Cell) {w : RegWrite} (hw : ∀ r ls, w = .v r ls → ∀ e ∈ ls, e.1 < 64) (r : Nat) {l : Nat} (hl : l < 64) :
    (x.landOne w).lane r l = (vWrite w r l).getD (x.lane r l) := by
  cases w with
  | g r' v =>
    obtain ⟨g, hg⟩ := x.landOne_g_frame r' v
    rw [hg]
    rfl
  | p ps =>
    obtain ⟨p, hp⟩ := x.landOne_p_frame ps
    rw [hp]
    rfl
  | v r' ls => exact x.lane_landOne_v r' (hw r' ls rfl) r hl
  | _ => rfl

/-- Settles O14: results land in landing order, and each register keeps the last of what lands in it. -/
theorem resultsLandInOrder : Obligations.ResultsLandInOrder := by
  unfold Obligations.ResultsLandInOrder
  intro c s hlanes
  refine ⟨s.onCell c (fun x => x.land (s.landBound c)), rfl, s.onCell_onlyCell .., ?_⟩
  rw [State.onCell_cell_same]
  generalize s.cell c = x at hlanes
  generalize s.landBound c = b
  have hG {r : Nat} (hr : r ≠ 0) : Reads (fun x => x.readG r) (fun w => gWrite w r) (landing x.pend b) :=
    fun q _ y => y.readG_landOne q.w hr
  have hP {r : Nat} (hr : r ≠ 0) : Reads (fun x => x.readP r) (fun w => pWrite w r) (landing x.pend b) :=
    fun q _ y => y.readP_landOne q.w hr
  have hV (r : Nat) {l : Nat} (hl : l < 64) : Reads (fun x => x.lane r l) (fun w => vWrite w r l) (landing x.pend b) :=
    fun q hq y => y.lane_landOne (hlanes q (mem_landing.1 hq).1) r hl
  intro x y b
  refine ⟨?_, y.readG_zero, y.readP_zero, fun r q v hr hlast hq => (hG hr).land_last hlast hq, fun r hnone => ?_,
    fun r q v hr hlast hq => (hP hr).land_last hlast hq, fun r hnone => ?_,
    fun r l q v hl hlast hq => (hV r hl).land_last hlast hq, fun r l hl hnone => (hV r hl).land_none (fun _ => rfl) hnone⟩
  · exact (Cell.landAll_regsOnly _ (landing x.pend b)).eq
  · by_cases hr : r = 0
    · simp [hr]
    · exact (hG hr).land_none (fun _ => rfl) hnone
  · by_cases hr : r = 0
    · simp [hr]
    · exact (hP hr).land_none (fun _ => rfl) hnone

end Sys2Proof.Machine
end

