-- ==== Sys2Proof/Proofs/CellWords.lean ====
section
/-! SUPPORT. The fields of a cell instruction's word, format by format: what the encoder writes the decoder reads. -/

namespace Sys2Proof.Machine
open Sys2Proof.Stmt

/-! ### The fields of a word (Table 3.6, Table 3.8, Table 4.3, Table 4.11, Table 4.12, Tables 6.6 to 6.9) -/

theorem fieldOf_ofNat {lo n v : Nat} {x : BitVec n} (hlo : lo + n ≤ 64) (h : v / 2 ^ lo % 2 ^ n = x.toNat) :
    fieldOf (BitVec.ofNat 64 v) lo n = x := by
  apply BitVec.eq_of_toNat_eq
  rw [fieldOf, BitVec.extractLsb'_toNat, BitVec.toNat_ofNat, Nat.shiftRight_eq_div_pow, ← h]
  obtain ⟨d, hd⟩ := Nat.exists_eq_add_of_le hlo
  rw [hd, pow_add, pow_add, mul_assoc, Nat.mod_mul_right_div_self, Nat.mod_mod_of_dvd _ (Dvd.intro _ rfl)]

theorem flagOf_ofNat {i v : Nat} {b : Bool} (hi : i < 64) (h : v / 2 ^ i % 2 = b.toNat) : flagOf (BitVec.ofNat 64 v) i = b := by
  rw [flagOf, BitVec.getLsbD_ofNat, Nat.testBit_eq_decide_div_mod_eq, h]
  cases b <;> simp [hi]

theorem toNat_fieldOf_ofNat {lo n v : Nat} (hlo : lo + n ≤ 64) : (fieldOf (BitVec.ofNat 64 v) lo n).toNat = v / 2 ^ lo % 2 ^ n := by
  rw [fieldOf_ofNat (x := BitVec.ofNat n (v / 2 ^ lo)) hlo (BitVec.toNat_ofNat ..).symm, BitVec.toNat_ofNat]

theorem rrOf_word (f : RR) {k : Nat} (hk : k < 64) (e : Ecc) :
    rrOf (f.word k) e = { f with en := { f.en with fecc := e } } := by
  obtain ⟨⟨pred, sense, fecc⟩, rd, ra, rb, rsv⟩ := f
  have := sense.toNat_lt
  simp only [rrOf, enOf, RR.word, En.head]
  congr
  any_goals exact fieldOf_ofNat (by omega) (by omega)
  exact flagOf_ofNat (by omega) (by omega)

theorem RR.word_opcode (f : RR) {k : Nat} (hk : k < 64) :
    (fieldOf (f.word k) 58 6).toNat = 0x01 := by
  have := f.en.sense.toNat_lt
  simp only [RR.word, En.head, toNat_fieldOf_ofNat, Nat.reduceAdd, Nat.reduceLeDiff]
  omega

theorem RR.word_function (f : RR) {k : Nat} (hk : k < 64) :
    (fieldOf (f.word k) 32 6).toNat = k := by
  have := f.en.sense.toNat_lt
  simp only [RR.word, En.head, toNat_fieldOf_ofNat, Nat.reduceAdd, Nat.reduceLeDiff]
  omega

theorem riOf_word (f : RI) {opc : Nat} (e : Ecc) :
    riOf (f.word opc) e = { f with en := { f.en with fecc := e } } := by
  obtain ⟨⟨pred, sense, fecc⟩, rd, ra, rsv, imm⟩ := f
  have := sense.toNat_lt
  simp only [riOf, enOf, RI.word, En.head]
  congr
  any_goals exact fieldOf_ofNat (by omega) (by omega)
  exact flagOf_ofNat (by omega) (by omega)

theorem RI.word_opcode (f : RI) {opc : Nat} (hopc : opc < 64) :
    (fieldOf (f.word opc) 58 6).toNat = opc := by
  have := f.en.sense.toNat_lt
  simp only [RI.word, En.head, toNat_fieldOf_ofNat, Nat.reduceAdd, Nat.reduceLeDiff]
  omega

theorem memOf_word (f : MemF) {opc : Nat} (e : Ecc) :
    memOf (f.word opc) e = { f with en := { f.en with fecc := e } } := by
  obtain ⟨⟨pred, sense, fecc⟩, rd, ra, size, rsv, imm⟩ := f
  have := sense.toNat_lt
  simp only [memOf, enOf, MemF.word, En.head]
  congr
  any_goals exact fieldOf_ofNat (by omega) (by omega)
  exact flagOf_ofNat (by omega) (by omega)

theorem MemF.word_opcode (f : MemF) {opc : Nat} (hopc : opc < 64) :
    (fieldOf (f.word opc) 58 6).toNat = opc := by
  have := f.en.sense.toNat_lt
  simp only [MemF.word, En.head, toNat_fieldOf_ofNat, Nat.reduceAdd, Nat.reduceLeDiff]
  omega

theorem cmpROf_word (f : CmpR) {cond : Nat} (hcond : cond < 8) (e : Ecc) :
    cmpROf (f.word cond) e = { f with en := { f.en with fecc := e } } := by
  obtain ⟨⟨pred, sense, fecc⟩, pd, rsvHi, ra, rb, rsv⟩ := f
  have := sense.toNat_lt
  simp only [cmpROf, enOf, CmpR.word, En.head]
  congr
  any_goals exact fieldOf_ofNat (by omega) (by omega)
  exact flagOf_ofNat (by omega) (by omega)

theorem CmpR.word_opcode (f : CmpR) {cond : Nat} (hcond : cond < 8) :
    (fieldOf (f.word cond) 58 6).toNat = 0x18 := by
  have := f.en.sense.toNat_lt
  simp only [CmpR.word, En.head, toNat_fieldOf_ofNat, Nat.reduceAdd, Nat.reduceLeDiff]
  omega

theorem CmpR.word_function (f : CmpR) {cond : Nat} (hcond : cond < 8) :
    (fieldOf (f.word cond) 35 3).toNat = cond := by
  have := f.en.sense.toNat_lt
  simp only [CmpR.word, En.head, toNat_fieldOf_ofNat, Nat.reduceAdd, Nat.reduceLeDiff]
  omega

theorem cmpIOf_word (f : CmpI) {cond : Nat} (hcond : cond < 8) (e : Ecc) :
    cmpIOf (f.word cond) e = { f with en := { f.en with fecc := e } } := by
  obtain ⟨⟨pred, sense, fecc⟩, pd, rsvHi, ra, rsv, imm⟩ := f
  have := sense.toNat_lt
  simp only [cmpIOf, enOf, CmpI.word, En.head]
  congr
  any_goals exact fieldOf_ofNat (by omega) (by omega)
  exact flagOf_ofNat (by omega) (by omega)

theorem CmpI.word_opcode (f : CmpI) {cond : Nat} (hcond : cond < 8) :
    (fieldOf (f.word cond) 58 6).toNat = 0x19 := by
  have := f.en.sense.toNat_lt
  simp only [CmpI.word, En.head, toNat_fieldOf_ofNat, Nat.reduceAdd, Nat.reduceLeDiff]
  omega

theorem CmpI.word_function (f : CmpI) {cond : Nat} (hcond : cond < 8) :
    (fieldOf (f.word cond) 40 3).toNat = cond := by
  have := f.en.sense.toNat_lt
  simp only [CmpI.word, En.head, toNat_fieldOf_ofNat, Nat.reduceAdd, Nat.reduceLeDiff]
  omega

theorem plOf_word (f : PlF) {func : Nat} (hfunc : func < 8) (e : Ecc) :
    plOf (f.word func) e = { f with en := { f.en with fecc := e } } := by
  obtain ⟨⟨pred, sense, fecc⟩, pd, pa, pb, rsv⟩ := f
  have := sense.toNat_lt
  simp only [plOf, enOf, PlF.word, En.head]
  congr
  any_goals exact fieldOf_ofNat (by omega) (by omega)
  exact flagOf_ofNat (by omega) (by omega)

theorem PlF.word_opcode (f : PlF) {func : Nat} (hfunc : func < 8) :
    (fieldOf (f.word func) 58 6).toNat = 0x1A := by
  have := f.en.sense.toNat_lt
  simp only [PlF.word, En.head, toNat_fieldOf_ofNat, Nat.reduceAdd, Nat.reduceLeDiff]
  omega

theorem PlF.word_function (f : PlF) {func : Nat} (hfunc : func < 8) :
    (fieldOf (f.word func) 38 3).toNat = func := by
  have := f.en.sense.toNat_lt
  simp only [PlF.word, En.head, toNat_fieldOf_ofNat, Nat.reduceAdd, Nat.reduceLeDiff]
  omega

theorem pmOf_word (f : PmF) {func : Nat} (hfunc : func < 8) (e : Ecc) :
    pmOf (f.word func) e = { f with en := { f.en with fecc := e } } := by
  obtain ⟨⟨pred, sense, fecc⟩, rd, ra, rsv, mask⟩ := f
  have := sense.toNat_lt
  simp only [pmOf, enOf, PmF.word, En.head]
  congr
  any_goals exact fieldOf_ofNat (by omega) (by omega)
  exact flagOf_ofNat (by omega) (by omega)

theorem PmF.word_opcode (f : PmF) {func : Nat} (hfunc : func < 8) :
    (fieldOf (f.word func) 58 6).toNat = 0x1B := by
  have := f.en.sense.toNat_lt
  simp only [PmF.word, En.head, toNat_fieldOf_ofNat, Nat.reduceAdd, Nat.reduceLeDiff]
  omega

theorem PmF.word_function (f : PmF) {func : Nat} (hfunc : func < 8) :
    (fieldOf (f.word func) 40 3).toNat = func := by
  have := f.en.sense.toNat_lt
  simp only [PmF.word, En.head, toNat_fieldOf_ofNat, Nat.reduceAdd, Nat.reduceLeDiff]
  omega

theorem srOf_word (f : SrF) (e : Ecc) :
    srOf f.word e = { f with en := { f.en with fecc := e } } := by
  obtain ⟨⟨pred, sense, fecc⟩, rd, sr, rsv⟩ := f
  have := sense.toNat_lt
  simp only [srOf, enOf, SrF.word, En.head]
  congr
  any_goals exact fieldOf_ofNat (by omega) (by omega)
  exact flagOf_ofNat (by omega) (by omega)

theorem SrF.word_opcode (f : SrF) :
    (fieldOf f.word 58 6).toNat = 0x20 := by
  have := f.en.sense.toNat_lt
  simp only [SrF.word, En.head, toNat_fieldOf_ofNat, Nat.reduceAdd, Nat.reduceLeDiff]
  omega

theorem ctlOf_word (f : Ctl) {opc : Nat} (e : Ecc) :
    Sys2Proof.ctlOf (f.word opc) e = { f with en := { f.en with fecc := e } } := by
  obtain ⟨⟨pred, sense, fecc⟩, rsvHi, ra, rsvMid, lo⟩ := f
  have := sense.toNat_lt
  simp only [Sys2Proof.ctlOf, enOf, Ctl.word, En.head]
  congr
  any_goals exact fieldOf_ofNat (by omega) (by omega)
  exact flagOf_ofNat (by omega) (by omega)

theorem Ctl.word_opcode (f : Ctl) {opc : Nat} (hopc : opc < 64) :
    (fieldOf (f.word opc) 58 6).toNat = opc := by
  have := f.en.sense.toNat_lt
  simp only [Ctl.word, En.head, toNat_fieldOf_ofNat, Nat.reduceAdd, Nat.reduceLeDiff]
  omega

theorem loopOf_word (f : LoopF) (e : Ecc) :
    loopOf f.word e = { f with en := { f.en with fecc := e } } := by
  obtain ⟨⟨pred, sense, fecc⟩, body, depth, rsv, trip3, trip2, trip1, trip0⟩ := f
  have := sense.toNat_lt
  simp only [loopOf, enOf, LoopF.word, En.head]
  congr
  any_goals exact fieldOf_ofNat (by omega) (by omega)
  exact flagOf_ofNat (by omega) (by omega)

theorem LoopF.word_opcode (f : LoopF) :
    (fieldOf f.word 58 6).toNat = 0x24 := by
  have := f.en.sense.toNat_lt
  simp only [LoopF.word, En.head, toNat_fieldOf_ofNat, Nat.reduceAdd, Nat.reduceLeDiff]
  omega

theorem agOf_word (f : AgF) {opc : Nat} (e : Ecc) :
    agOf (f.word opc) e = { f with en := { f.en with fecc := e } } := by
  obtain ⟨⟨pred, sense, fecc⟩, ag, field, ra, rsv, imm⟩ := f
  have := sense.toNat_lt
  simp only [agOf, enOf, AgF.word, En.head]
  congr
  any_goals exact fieldOf_ofNat (by omega) (by omega)
  exact flagOf_ofNat (by omega) (by omega)

theorem AgF.word_opcode (f : AgF) {opc : Nat} (hopc : opc < 64) :
    (fieldOf (f.word opc) 58 6).toNat = opc := by
  have := f.en.sense.toNat_lt
  simp only [AgF.word, En.head, toNat_fieldOf_ofNat, Nat.reduceAdd, Nat.reduceLeDiff]
  omega

theorem agRdOf_word (f : AgRdF) {sel : Nat} (hsel : sel < 4) (e : Ecc) :
    agRdOf (f.word sel) e = { f with en := { f.en with fecc := e } } := by
  obtain ⟨⟨pred, sense, fecc⟩, rd, idx, rsv⟩ := f
  have := sense.toNat_lt
  simp only [agRdOf, enOf, AgRdF.word, En.head]
  congr
  any_goals exact fieldOf_ofNat (by omega) (by omega)
  exact flagOf_ofNat (by omega) (by omega)

theorem AgRdF.word_opcode (f : AgRdF) {sel : Nat} (hsel : sel < 4) :
    (fieldOf (f.word sel) 58 6).toNat = 0x26 := by
  have := f.en.sense.toNat_lt
  simp only [AgRdF.word, En.head, toNat_fieldOf_ofNat, Nat.reduceAdd, Nat.reduceLeDiff]
  omega

theorem AgRdF.word_function (f : AgRdF) {sel : Nat} (hsel : sel < 4) :
    (fieldOf (f.word sel) 46 2).toNat = sel := by
  have := f.en.sense.toNat_lt
  simp only [AgRdF.word, En.head, toNat_fieldOf_ofNat, Nat.reduceAdd, Nat.reduceLeDiff]
  omega

theorem vecOf_word (f : VecF) {opc : Nat} {func : Nat} (hfunc : func < 64) (e : Ecc) :
    vecOf (f.word opc func) e = { f with en := { f.en with fecc := e } } := by
  obtain ⟨⟨pred, sense, fecc⟩, vd, va, vb, vc, lm, bc, rm, sat, lo⟩ := f
  have hflags := And.intro sense.toNat_lt (And.intro bc.toNat_lt sat.toNat_lt)
  simp only [vecOf, enOf, VecF.word, En.head]
  congr
  any_goals exact fieldOf_ofNat (by omega) (by omega)
  all_goals exact flagOf_ofNat (by omega) (by omega)

theorem VecF.word_opcode (f : VecF) {opc : Nat} (hopc : opc < 64) {func : Nat} (hfunc : func < 64) :
    (fieldOf (f.word opc func) 58 6).toNat = opc := by
  have hflags := And.intro f.en.sense.toNat_lt (And.intro f.bc.toNat_lt f.sat.toNat_lt)
  simp only [VecF.word, En.head, toNat_fieldOf_ofNat, Nat.reduceAdd, Nat.reduceLeDiff]
  omega

theorem VecF.word_function (f : VecF) {opc : Nat} {func : Nat} (hfunc : func < 64) :
    (fieldOf (f.word opc func) 22 6).toNat = func := by
  have hflags := And.intro f.en.sense.toNat_lt (And.intro f.bc.toNat_lt f.sat.toNat_lt)
  simp only [VecF.word, En.head, toNat_fieldOf_ofNat, Nat.reduceAdd, Nat.reduceLeDiff]
  omega

theorem mlwOf_word (f : MlwF) (e : Ecc) :
    mlwOf f.word e = { f with en := { f.en with fecc := e } } := by
  obtain ⟨⟨pred, sense, fecc⟩, ag, wfmt, wmx, wb, rsv⟩ := f
  have hflags := And.intro sense.toNat_lt (And.intro wmx.toNat_lt wb.toNat_lt)
  simp only [mlwOf, enOf, MlwF.word, En.head]
  congr
  any_goals exact fieldOf_ofNat (by omega) (by omega)
  all_goals exact flagOf_ofNat (by omega) (by omega)

theorem MlwF.word_opcode (f : MlwF) :
    (fieldOf f.word 58 6).toNat = 0x34 := by
  have hflags := And.intro f.en.sense.toNat_lt (And.intro f.wmx.toNat_lt f.wb.toNat_lt)
  simp only [MlwF.word, En.head, toNat_fieldOf_ofNat, Nat.reduceAdd, Nat.reduceLeDiff]
  omega

theorem mmaOf_word (f : MmaF) (e : Ecc) :
    mmaOf f.word e = { f with en := { f.en with fecc := e } } := by
  obtain ⟨⟨pred, sense, fecc⟩, ag, vs, afmt, wfmt, amx, wmx, wb, z, acc, rows, rsv⟩ := f
  have hflags := And.intro sense.toNat_lt (And.intro amx.toNat_lt (And.intro wmx.toNat_lt (And.intro wb.toNat_lt z.toNat_lt)))
  simp only [mmaOf, enOf, MmaF.word, En.head]
  congr
  any_goals exact fieldOf_ofNat (by omega) (by omega)
  all_goals exact flagOf_ofNat (by omega) (by omega)

theorem MmaF.word_opcode (f : MmaF) :
    (fieldOf f.word 58 6).toNat = 0x35 := by
  have hflags := And.intro f.en.sense.toNat_lt (And.intro f.amx.toNat_lt
    (And.intro f.wmx.toNat_lt (And.intro f.wb.toNat_lt f.z.toNat_lt)))
  simp only [MmaF.word, En.head, toNat_fieldOf_ofNat, Nat.reduceAdd, Nat.reduceLeDiff]
  omega

theorem mcvtOf_word (f : McvtF) (e : Ecc) :
    mcvtOf f.word e = { f with en := { f.en with fecc := e } } := by
  obtain ⟨⟨pred, sense, fecc⟩, ag, rs, ofmt, rm, sat, clr, accf, acc, rows, rsv⟩ := f
  have hflags := And.intro sense.toNat_lt (And.intro sat.toNat_lt (And.intro clr.toNat_lt accf.toNat_lt))
  simp only [mcvtOf, enOf, McvtF.word, En.head]
  congr
  any_goals exact fieldOf_ofNat (by omega) (by omega)
  all_goals exact flagOf_ofNat (by omega) (by omega)

theorem McvtF.word_opcode (f : McvtF) :
    (fieldOf f.word 58 6).toNat = 0x36 := by
  have hflags := And.intro f.en.sense.toNat_lt (And.intro f.sat.toNat_lt (And.intro f.clr.toNat_lt f.accf.toNat_lt))
  simp only [McvtF.word, En.head, toNat_fieldOf_ofNat, Nat.reduceAdd, Nat.reduceLeDiff]
  omega

theorem maccOf_word (f : MaccF) {opc : Nat} (e : Ecc) :
    maccOf (f.word opc) e = { f with en := { f.en with fecc := e } } := by
  obtain ⟨⟨pred, sense, fecc⟩, ag, acc, rows, opt, rsv⟩ := f
  have hflags := And.intro sense.toNat_lt opt.toNat_lt
  simp only [maccOf, enOf, MaccF.word, En.head]
  congr
  any_goals exact fieldOf_ofNat (by omega) (by omega)
  all_goals exact flagOf_ofNat (by omega) (by omega)

theorem MaccF.word_opcode (f : MaccF) {opc : Nat} (hopc : opc < 64) :
    (fieldOf (f.word opc) 58 6).toNat = opc := by
  have hflags := And.intro f.en.sense.toNat_lt f.opt.toNat_lt
  simp only [MaccF.word, En.head, toNat_fieldOf_ofNat, Nat.reduceAdd, Nat.reduceLeDiff]
  omega

end Sys2Proof.Machine
end

