-- ==== Sys2Proof/Proofs/CellFaults.lean ====
section
/-! PROOF. Every cell instruction issues its own word soundly (it refuses an illegal word and holds time and units only), so an
instruction that is not enabled takes time only (O16) and an illegal word stops the cell (O17). -/

namespace Sys2Proof.Machine
open Sys2Proof.Stmt

/-! ### What an illegal or a disabled instruction may do -/

theorem SameContents.refl (x : Cell) : SameContents x x := ⟨rfl, rfl, rfl, rfl, rfl, rfl, rfl, rfl, rfl, rfl, rfl⟩

/-- The causes of an instruction's code and timing: ILLEGAL, UNIT_BUSY, WAIT_PAST, FETCH_END, BODY_ILLEGAL, PORT_CLASH. -/
def timingCodes : List Nat := [0x01, 0x04, 0x05, 0x07, 0x10, 0x11]

/-- What is issued refuses an illegal word, meets causes of its code and timing whether or not it is enabled, and holds time and
units only. -/
structure Issue.Sound (legal : Bool) (a : Issue) : Prop where
  illegal : legal = false → 0x01 ∈ a.always
  always  : a.always ⊆ timingCodes
  whenEn  : ∀ k ∈ a.whenEn, 0x01 ≤ k
  hold    : ∀ y, SameContents y (a.hold y) ∧ (a.hold y).fault = y.fault

theorem cause_subset {l : List Nat} {code : Nat} (h : code ∈ l) (b : Bool) : cause b code ⊆ l := by
  cases b
  · simp
  · simpa using h

theorem cause_pos {code : Nat} (h : 0x01 ≤ code) (b : Bool) : ∀ k ∈ cause b code, 0x01 ≤ k :=
  fun _ hk => (mem_cause.1 hk).2 ▸ h

/-- In every state the instruction issues its word, soundly. -/
def Issues (i : Instr) (c : CellId) (w : Word) : Prop :=
  ∀ s : State, ∃ f t, exec i s = .next t ∧ Counted (issue c (enOf w .ok) w f s) t ∧ ∀ x, (f x).Sound (wordLegal w)

section
variable {i : Instr} {c c' : CellId} {w w' : Word} {e : En} {legal : Bool}

theorem issues_of {F : State → Cell → Issue} (h : some (c', w', e.fecc) = some (c, w, .ok))
    (hen : enOf w' .ok = { e with fecc := .ok }) (hlegal : wordLegal w' = legal) (hF : ∀ s x, (F s x).Sound legal)
    (hexec : ∀ s, ∃ t, exec i s = .next t ∧ Counted (issue c' e w' (F s) s) t) : Issues i c w := by
  obtain ⟨pred, sense, fecc⟩ := e
  simp only [Option.some.injEq, Prod.mk.injEq] at h
  obtain ⟨rfl, rfl, rfl⟩ := h
  intro s
  obtain ⟨t, ht, hcount⟩ := hexec s
  exact ⟨F s, t, ht, by rwa [hen], by rw [hlegal]; exact hF s⟩

theorem simpleIssue_sound (legal : Bool) (effect : Cell → Cell) : (simpleIssue legal effect).Sound legal where
  illegal hl := by simp [simpleIssue, hl]
  always := cause_subset (by decide) _
  whenEn _ hk := nomatch hk
  hold y := ⟨.refl y, rfl⟩

/-- An instruction that holds one slot and no unit. -/
theorem issues_simple {effect : State → Cell → Cell → Cell} (h : some (c', w', e.fecc) = some (c, w, .ok))
    (hen : enOf w' .ok = { e with fecc := .ok }) (hlegal : wordLegal w' = legal)
    (hexec : ∀ s, exec i s = .next (issue c' e w' (fun x => simpleIssue legal (effect s x)) s)) : Issues i c w :=
  issues_of h hen hlegal (fun _ _ => simpleIssue_sound ..) (fun s => ⟨_, hexec s, .refl _⟩)

theorem issues_div {f : RR} {func : Nat} {op : Word → Word → Word} (h : some (c', f.word func, f.en.fecc) = some (c, w, .ok))
    (hfunc : func < 64) (hlegal : wordLegal (f.word func) = f.legal) (hexec : ∀ s, exec i s = .next (issueDiv func op c' f s)) :
    Issues i c w := by
  refine issues_of h (congrArg RR.en (rrOf_word f hfunc .ok)) hlegal (fun _ _ => ?_) (fun s => ⟨_, hexec s, .refl _⟩)
  exact ⟨fun hl => by simp [hl], by simp [cause_subset, timingCodes], by simp, fun y => ⟨.refl y, rfl⟩⟩

theorem issues_mem {f : MemF} {opc : Nat} {sizes : List Nat} {cs store : Bool}
    (h : some (c', f.word opc, f.en.fecc) = some (c, w, .ok)) (hlegal : wordLegal (f.word opc) = f.legal sizes)
    (hexec : ∀ s, exec i s = .next (issueMem opc sizes cs store c' f s)) : Issues i c w := by
  refine issues_of h (congrArg MemF.en (memOf_word f .ok)) hlegal (fun _ _ => ?_) (fun s => ⟨_, hexec s, .refl _⟩)
  exact ⟨fun hl => by simp [hl], cause_subset (by decide) _,
    List.forall_mem_append.2 ⟨cause_pos (by decide) _, cause_pos (by decide) _⟩, fun y => ⟨.refl y, rfl⟩⟩

theorem issues_vec {f : VecF} {opc func occ ports : Nat} {whenEn : Cell → List Nat} {act : Cell → PortAct}
    {effect : State → Cell → Cell → Cell} (h : some (c', f.word opc func, f.en.fecc) = some (c, w, .ok)) (hfunc : func < 64)
    (hlegal : wordLegal (f.word opc func) = legal) (hwhen : ∀ x, ∀ k ∈ whenEn x, 0x01 ≤ k)
    (hexec : ∀ s, ∃ t, exec i s = .next t ∧ Counted (issueVec opc func occ ports legal whenEn act (effect s) c' f s) t) :
    Issues i c w := by
  refine issues_of h (congrArg VecF.en (vecOf_word f hfunc .ok)) hlegal (fun s x => ?_) hexec
  exact ⟨fun hl => by simp [hl], by simp [cause_subset, timingCodes], hwhen x, fun y => ⟨.refl y, rfl⟩⟩

theorem countStoch_counted (c : Nat) (f : VecF) (s t : State) : Counted t (countStoch c f s t) :=
  .ite (t.count_counted ..) (.refl t)

theorem issues_lanes {f : VecF} {opc func occ lat : Nat} {val : State → Cell → Nat → Lane}
    (h : some (c', f.word opc func, f.en.fecc) = some (c, w, .ok)) (hfunc : func < 64) (hlegal : wordLegal (f.word opc func) = legal)
    (hexec : ∀ s, exec i s = .next (issueLanes opc func occ lat legal (val s) c' f s)) : Issues i c w :=
  issues_vec h hfunc hlegal (by simp) (fun s => ⟨_, hexec s, .refl _⟩)

/-- A conversion, whose stochastic roundings are counted (event 0x00C). -/
theorem issues_conversion {f : VecF} {opc func occ lat : Nat} {val : State → Cell → Nat → Lane}
    (h : some (c', f.word opc func, f.en.fecc) = some (c, w, .ok)) (hfunc : func < 64) (hlegal : wordLegal (f.word opc func) = legal)
    (hexec : ∀ s, exec i s = .next (countStoch c' f s (issueLanes opc func occ lat legal (val s) c' f s))) : Issues i c w :=
  issues_vec h hfunc hlegal (by simp) (fun s => ⟨_, hexec s, countStoch_counted ..⟩)

theorem issues_toG {f : VecF} {opc func lat : Nat} {val : Cell → Word}
    (h : some (c', f.word opc func, f.en.fecc) = some (c, w, .ok)) (hfunc : func < 64) (hlegal : wordLegal (f.word opc func) = legal)
    (hexec : ∀ s, exec i s = .next (issueToG opc func lat legal val c' f s)) : Issues i c w :=
  issues_vec h hfunc hlegal (by simp) (fun s => ⟨_, hexec s, .refl _⟩)

theorem lineChecks_pos (f : VecF) (x : Cell) : ∀ k ∈ lineChecks x f, 0x01 ≤ k :=
  List.forall_mem_append.2 ⟨cause_pos (by decide) _, cause_pos (by decide) _⟩

theorem laneChecks_pos (f : VecF) (n : Nat) (x : Cell) : ∀ k ∈ laneChecks x f n, 0x01 ≤ k := cause_pos (by decide) _

theorem mtxChecks_pos (a : Ag) (n : Nat) : ∀ k ∈ mtxChecks a n, 0x01 ≤ k := cause_pos (by decide) _

theorem issues_acc {ag n first : Nat} {act : Nat → PortAct} {add : State → Cell → Cell → Cell}
    (h : some (c', w', e.fecc) = some (c, w, .ok)) (hen : enOf w' .ok = { e with fecc := .ok }) (hlegal : wordLegal w' = legal)
    (hexec : ∀ s, exec i s = .next (issueAcc c' e w' legal ag n first act (add s) s)) : Issues i c w := by
  refine issues_of h hen hlegal (fun s x => ?_) (fun s => ⟨_, hexec s, .refl _⟩)
  exact ⟨fun hl => by simp [hl], by simp [cause_subset, timingCodes], mtxChecks_pos _ _, fun y => ⟨.refl y, rfl⟩⟩

theorem issues_waitC {f : Ctl} (h : some (c', f.word 0x21, f.en.fecc) = some (c, w, .ok)) : Issues (.waitC c' f) c w := by
  have hlegal : wordLegal (f.word 0x21) = f.legalWait := by
    rw [wordLegal, cellInstr, Ctl.word_opcode f (by decide), ctlOf_word]
    rfl
  refine issues_of h (congrArg Ctl.en (ctlOf_word f .ok)) hlegal (fun s x => ?_) (fun s => ⟨_, rfl, .refl _⟩)
  exact { simpleIssue_sound f.legalWait id with }

theorem issues_waitoC {f : Ctl} (h : some (c', f.word 0x22, f.en.fecc) = some (c, w, .ok)) : Issues (.waitoC c' f) c w := by
  have hlegal : wordLegal (f.word 0x22) = f.legalWaito := by
    rw [wordLegal, cellInstr, Ctl.word_opcode f (by decide), ctlOf_word]
    rfl
  refine issues_of h (congrArg Ctl.en (ctlOf_word f .ok)) hlegal (fun s x => ?_) (fun s => ⟨_, rfl, .refl _⟩)
  exact ⟨fun hl => by simp [hl], by simp [inBody, cause_subset, timingCodes], by simp, fun y => ⟨.refl y, rfl⟩⟩

theorem issues_stependC {f : Ctl} (h : some (c', f.word 0x23, f.en.fecc) = some (c, w, .ok)) : Issues (.stependC c' f) c w := by
  have hlegal : wordLegal (f.word 0x23) = f.legalStepend := by
    rw [wordLegal, cellInstr, Ctl.word_opcode f (by decide), ctlOf_word]
    rfl
  refine issues_of h (congrArg Ctl.en (ctlOf_word f .ok)) hlegal (fun s x => ?_) (fun s => ⟨_, rfl, .refl _⟩)
  exact ⟨fun hl => by simp [hl], by simp [inBody, cause_subset, timingCodes], by simp, fun y => ⟨.refl y, rfl⟩⟩

theorem issues_loopC {f : LoopF} (h : some (c', f.word, f.en.fecc) = some (c, w, .ok)) : Issues (.loopC c' f) c w := by
  have hlegal : wordLegal f.word = f.legal := by
    rw [wordLegal, cellInstr, LoopF.word_opcode, loopOf_word]
    rfl
  refine issues_of h (congrArg LoopF.en (loopOf_word f .ok)) hlegal (fun s x => ?_)
    (fun s => ⟨_, rfl, .ite (State.count_counted ..) (.refl _)⟩)
  exact ⟨fun hl => by simp [hl], by simp [inBody, cause_subset, timingCodes], by simp, fun y => ⟨.refl y, rfl⟩⟩

theorem issues_agset {f : AgF} (h : some (c', f.word 0x25, f.en.fecc) = some (c, w, .ok)) : Issues (.agsetA24 c' f) c w := by
  have hlegal : wordLegal (f.word 0x25) = f.legalSet := by
    rw [wordLegal, cellInstr, AgF.word_opcode f (by decide), agOf_word]
    rfl
  refine issues_of h (congrArg AgF.en (agOf_word f .ok)) hlegal (fun s x => ?_) (fun s => ⟨_, rfl, .refl _⟩)
  exact ⟨fun hl => by simp [hl], by simp [cause_subset, timingCodes], cause_pos (by decide) _, fun y => ⟨.refl y, rfl⟩⟩

theorem issues_mlw {f : MlwF} (h : some (c', f.word, f.en.fecc) = some (c, w, .ok)) : Issues (.mlw c' f) c w := by
  have hlegal : wordLegal f.word = f.legal := by
    rw [wordLegal, cellInstr, MlwF.word_opcode, mlwOf_word]
    rfl
  refine issues_of h (congrArg MlwF.en (mlwOf_word f .ok)) hlegal (fun s x => ?_) (fun s => ⟨_, rfl, .refl _⟩)
  exact ⟨fun hl => by simp [hl], by simp [cause_subset, timingCodes],
    List.forall_mem_append.2 ⟨mtxChecks_pos _ _, cause_pos (by decide) _⟩, fun y => ⟨.refl y, rfl⟩⟩

theorem issues_mma {f : MmaF} (h : some (c', f.word, f.en.fecc) = some (c, w, .ok)) : Issues (.mma c' f []) c w := by
  have hlegal : wordLegal f.word = f.legal := by
    rw [wordLegal, cellInstr, MmaF.word_opcode, mmaOf_word]
    rfl
  refine issues_of h (congrArg MmaF.en (mmaOf_word f .ok)) hlegal (fun s x => ?_) (fun s => ⟨_, rfl, .refl _⟩)
  exact ⟨fun hl => by simp [hl], by simp [cause_subset, timingCodes],
    List.forall_mem_append.2 ⟨List.forall_mem_append.2 ⟨mtxChecks_pos _ _, cause_pos (by decide) _⟩, cause_pos (by decide) _⟩,
    fun y => ⟨.refl y, rfl⟩⟩

theorem issues_mclr {f : MaccF} (h : some (c', f.word 0x39, f.en.fecc) = some (c, w, .ok)) : Issues (.mclrX128 c' f) c w := by
  have hlegal : wordLegal (f.word 0x39) = f.legalClr := by
    rw [wordLegal, cellInstr, MaccF.word_opcode f (by decide), maccOf_word]
    rfl
  refine issues_of h (congrArg MaccF.en (maccOf_word f .ok)) hlegal (fun s x => ?_) (fun s => ⟨_, rfl, .refl _⟩)
  exact ⟨fun hl => by simp [hl], by simp [cause_subset, timingCodes], by simp, fun y => ⟨.refl y, rfl⟩⟩

theorem issues_nop {w' : Word} {e : Ecc} (h : (Instr.nopC c' w' e).cellWord = some (c, w, .ok)) : Issues (.nopC c' w' e) c w := by
  by_cases hop : fieldOf w' 58 6 = 0
  · rw [Instr.cellWord, if_pos hop] at h
    refine issues_simple (e := enOf w' e) h rfl ?_ (fun _ => rfl)
    rw [wordLegal, cellInstr, hop]
    rfl
  · rw [Instr.cellWord, if_neg hop] at h
    exact nomatch h

/-! ### Every cell instruction -/

theorem wordLegal_rr (f : RR) {func : Nat} (hfunc : func < 16) : wordLegal (f.word func) = f.legal := by
  have hwide : func < 64 := by omega
  rw [wordLegal, cellInstr, RR.word_opcode f hwide, rrInstr, RR.word_function f hwide, rrOf_word f hwide]
  interval_cases func <;> rfl

theorem wordLegal_ri (f : RI) {opc : Nat} (hopc : opc ∈ [2, 3, 4, 5, 9, 10]) : wordLegal (f.word opc) = f.legal := by
  fin_cases hopc <;> (rw [wordLegal, cellInstr, RI.word_opcode f (by decide), riOf_word]; rfl)

theorem wordLegal_riShift (f : RI) {opc : Nat} (hopc : opc ∈ [6, 7, 8]) : wordLegal (f.word opc) = f.legalShift := by
  fin_cases hopc <;> (rw [wordLegal, cellInstr, RI.word_opcode f (by decide), riOf_word]; rfl)

theorem wordLegal_cmpR (f : CmpR) {cond : Nat} (hcond : cond < 6) : wordLegal (f.word cond) = f.legal := by
  have hwide : cond < 8 := by omega
  rw [wordLegal, cellInstr, CmpR.word_opcode f hwide, cmpRInstr, CmpR.word_function f hwide, cmpROf_word f hwide]
  interval_cases cond <;> rfl

theorem wordLegal_cmpI (f : CmpI) {cond : Nat} (hcond : cond < 6) : wordLegal (f.word cond) = f.legal := by
  have hwide : cond < 8 := by omega
  rw [wordLegal, cellInstr, CmpI.word_opcode f hwide, cmpIInstr, CmpI.word_function f hwide, cmpIOf_word f hwide]
  interval_cases cond <;> rfl

theorem wordLegal_vec29 (f : VecF) {func : Nat} (hfunc : func < 13) : wordLegal (f.word 0x29 func) = f.noC := by
  have hwide : func < 64 := by omega
  rw [wordLegal, cellInstr, VecF.word_opcode f (by decide) hwide, vec29Instr, VecF.word_function f hwide, vecOf_word f hwide]
  interval_cases func <;> rfl

theorem wordLegal_vec2A (f : VecF) {func : Nat} (hfunc : func < 5) : wordLegal (f.word 0x2A func) = f.noBC := by
  have hwide : func < 64 := by omega
  rw [wordLegal, cellInstr, VecF.word_opcode f (by decide) hwide, vec2AInstr, VecF.word_function f hwide, vecOf_word f hwide]
  interval_cases func <;> rfl

theorem wordLegal_vec2B (f : VecF) {func : Nat} (hfunc : func ∈ [0, 1, 2, 3, 8, 9, 10, 11]) :
    wordLegal (f.word 0x2B func) = f.noCBc := by
  fin_cases hfunc <;> (rw [wordLegal, cellInstr, VecF.word_opcode f (by decide) (by decide), vec2BInstr,
    VecF.word_function f (by decide), vecOf_word f (by decide)]; rfl)

theorem wordLegal_vec2C (f : VecF) {func : Nat} (hfunc : func ∈ [0, 1, 2, 3, 8, 9, 10, 11, 12, 13]) :
    wordLegal (f.word 0x2C func) = f.noBC := by
  fin_cases hfunc <;> (rw [wordLegal, cellInstr, VecF.word_opcode f (by decide) (by decide), vec2CInstr,
    VecF.word_function f (by decide), vecOf_word f (by decide)]; rfl)

theorem wordLegal_vec2D (f : VecF) {func : Nat} (hfunc : func < 2) : wordLegal (f.word 0x2D func) = (f.memPlain && f.vb == 0) := by
  have hwide : func < 64 := by omega
  rw [wordLegal, cellInstr, VecF.word_opcode f (by decide) hwide, vec2DInstr, VecF.word_function f hwide, vecOf_word f hwide]
  interval_cases func <;> rfl

theorem wordLegal_vec2E (f : VecF) {func : Nat} (hfunc : func ∈ [0, 1, 2, 4, 5, 6]) : wordLegal (f.word 0x2E func) = f.memPlain := by
  fin_cases hfunc <;> (rw [wordLegal, cellInstr, VecF.word_opcode f (by decide) (by decide), vec2EInstr,
    VecF.word_function f (by decide), vecOf_word f (by decide)]; rfl)

/-- Every cell instruction issues its word, and refuses it when it is not legal. -/
theorem cellWord_issues {i : Instr} {c : CellId} {w : Word} (h : i.cellWord = some (c, w, .ok)) : Issues i c w := by
  cases i with
  | addI64 c' f | subI64 c' f | andB64 c' f | orB64 c' f | xorB64 c' f | shlB64 c' f | shrU64 c' f | sarS64 c' f | minS64 c' f
    | maxS64 c' f | minU64 c' f | maxU64 c' f | mulI64 c' f | mulhU64 c' f =>
    exact issues_simple h (congrArg RR.en (rrOf_word f (by decide) .ok)) (wordLegal_rr f (by decide)) (fun _ => rfl)
  | divU64 c' f | remU64 c' f =>
    exact issues_div h (by decide) (wordLegal_rr f (by decide)) (fun _ => rfl)
  | addiI64 c' f | andiB64 c' f | oriB64 c' f | xoriB64 c' f | lihB64 c' f | muliI64 c' f =>
    exact issues_simple h (congrArg RI.en (riOf_word f .ok)) (wordLegal_ri f (by decide)) (fun _ => rfl)
  | shliB64 c' f | shriU64 c' f | sariS64 c' f =>
    exact issues_simple h (congrArg RI.en (riOf_word f .ok)) (wordLegal_riShift f (by decide)) (fun _ => rfl)
  | ld c' f | st c' f | ldx c' f | stx c' f =>
    exact issues_mem h (by rw [wordLegal, cellInstr, MemF.word_opcode f (by decide), memOf_word]; rfl) (fun _ => rfl)
  | ceqI64 c' f | cneI64 c' f | cltS64 c' f | cgeS64 c' f | cltU64 c' f | cgeU64 c' f =>
    exact issues_simple h (congrArg CmpR.en (cmpROf_word f (by decide) .ok)) (wordLegal_cmpR f (by decide)) (fun _ => rfl)
  | ceqiI64 c' f | cneiI64 c' f | cltiS64 c' f | cgeiS64 c' f | cltiU64 c' f | cgeiU64 c' f =>
    exact issues_simple h (congrArg CmpI.en (cmpIOf_word f (by decide) .ok)) (wordLegal_cmpI f (by decide)) (fun _ => rfl)
  | pandP c' f | porP c' f | pxorP c' f | pandnP c' f | psetP c' f | pclrP c' f =>
    refine issues_simple h (congrArg PlF.en (plOf_word f (by decide) .ok)) ?_ (fun _ => rfl)
    rw [wordLegal, cellInstr, PlF.word_opcode f (by decide), plInstr, PlF.word_function f (by decide), plOf_word f (by decide)]
    rfl
  | prdP16 c' f | pwrP16 c' f =>
    refine issues_simple h (congrArg PmF.en (pmOf_word f (by decide) .ok)) ?_ (fun _ => rfl)
    rw [wordLegal, cellInstr, PmF.word_opcode f (by decide), pmInstr, PmF.word_function f (by decide), pmOf_word f (by decide)]
    rfl
  | agrdU24 c' f | lcrdU11 c' f =>
    refine issues_simple h (congrArg AgRdF.en (agRdOf_word f (by decide) .ok)) ?_ (fun _ => rfl)
    rw [wordLegal, cellInstr, AgRdF.word_opcode f (by decide), agRdInstr, AgRdF.word_function f (by decide), agRdOf_word f (by decide)]
    rfl
  | rdsrI64 c' f =>
    refine issues_simple h (congrArg SrF.en (srOf_word f .ok)) ?_ (fun _ => rfl)
    rw [wordLegal, cellInstr, SrF.word_opcode, srOf_word]
    rfl
  | agaddA24 c' f =>
    refine issues_simple h (congrArg AgF.en (agOf_word f .ok)) ?_ (fun _ => rfl)
    rw [wordLegal, cellInstr, AgF.word_opcode f (by decide), agOf_word]
    rfl
  | vaddF32 c' f | vsubF32 c' f | vmulF32 c' f | vfmaF32 c' f | vminF32 c' f | vmaxF32 c' f | vabsF32 c' f | vnegF32 c' f =>
    refine issues_lanes h (by decide) ?_ (fun _ => rfl)
    rw [wordLegal, cellInstr, VecF.word_opcode f (by decide) (by decide), vec28Instr, VecF.word_function f (by decide),
      vecOf_word f (by decide)]
    rfl
  | vaddI32 c' f | vsubI32 c' f | vmulI32 c' f | vandB32 c' f | vorB32 c' f | vxorB32 c' f | vshlB32 c' f | vshrU32 c' f
    | vsarS32 c' f | vminS32 c' f | vmaxS32 c' f | vminU32 c' f | vmaxU32 c' f =>
    exact issues_lanes h (by decide) (wordLegal_vec29 f (by decide)) (fun _ => rfl)
  | vrcpF32 c' f | vsqrtF32 c' f | vrsqrtF32 c' f | vexp2F32 c' f | vlog2F32 c' f =>
    exact issues_lanes h (by decide) (wordLegal_vec2A f (by decide)) (fun _ => rfl)
  | vceqF32 c' f | vcltF32 c' f | vcleF32 c' f | vcunF32 c' f | vceqI32 c' f | vcltS32 c' f | vcltU32 c' f | vcleS32 c' f =>
    exact issues_toG h (by decide) (wordLegal_vec2B f (by decide)) (fun _ => rfl)
  | vrsumF32 c' f | vrmaxF32 c' f | vrminF32 c' f | vrsumI32 c' f | vmxscE2m1 c' f | vmxscE2m3 c' f | vmxscE3m2 c' f
    | vmxscE4m3 c' f | vmxscE5m2 c' f | vmxscI8 c' f =>
    exact issues_toG h (by decide) (wordLegal_vec2C f (by decide)) (fun _ => rfl)
  | vldL c' f | vstL c' f =>
    exact issues_vec h (by decide) (wordLegal_vec2D f (by decide)) (lineChecks_pos f) (fun _ => ⟨_, rfl, .refl _⟩)
  | vgatherU8 c' f | vgatherU16 c' f | vgatherB32 c' f | vscatterB8 c' f | vscatterB16 c' f | vscatterB32 c' f =>
    exact issues_vec h (by decide) (wordLegal_vec2E f (by decide)) (laneChecks_pos f _) (fun _ => ⟨_, rfl, .refl _⟩)
  | vcvtI32F32 c' f | vcvtF32I32 c' f | vpkBf16 c' f | vpkF16 c' f | vpkE4m3 c' f | vpkE5m2 c' f | vpkE2m3 c' f | vpkE3m2 c' f
    | vpkE2m1 c' f | vpkI8 c' f | vpkI4 c' f | vscaleE8m0 c' f =>
    refine issues_conversion h (by decide) ?_ (fun _ => rfl)
    rw [wordLegal, cellInstr, VecF.word_opcode f (by decide) (by decide), vec2FInstr, VecF.word_function f (by decide),
      vecOf_word f (by decide)]
    rfl
  | vunpkBf16 c' f | vunpkF16 c' f | vunpkE4m3 c' f | vunpkE5m2 c' f | vunpkE2m3 c' f | vunpkE3m2 c' f | vunpkE2m1 c' f
    | vunpkI8 c' f | vunpkI4 c' f =>
    refine issues_lanes h (by decide) ?_ (fun _ => rfl)
    rw [wordLegal, cellInstr, VecF.word_opcode f (by decide) (by decide), vec2FInstr, VecF.word_function f (by decide),
      vecOf_word f (by decide)]
    rfl
  | vmovB32 c' f | vbcastB32 c' f | viotaI32 c' f | vpermB32 c' f =>
    refine issues_lanes h (by decide) ?_ (fun _ => rfl)
    rw [wordLegal, cellInstr, VecF.word_opcode f (by decide) (by decide), vec30Instr, VecF.word_function f (by decide),
      vecOf_word f (by decide)]
    rfl
  | vinsB32 c' f =>
    refine issues_vec h (by decide) ?_ (by simp) (fun _ => ⟨_, rfl, .refl _⟩)
    rw [wordLegal, cellInstr, VecF.word_opcode f (by decide) (by decide), vec30Instr, VecF.word_function f (by decide),
      vecOf_word f (by decide)]
    rfl
  | vextB32 c' f =>
    refine issues_toG h (by decide) ?_ (fun _ => rfl)
    rw [wordLegal, cellInstr, VecF.word_opcode f (by decide) (by decide), vec30Instr, VecF.word_function f (by decide),
      vecOf_word f (by decide)]
    rfl
  | nopC c' w' e' => exact issues_nop h
  | waitC c' f => exact issues_waitC h
  | waitoC c' f => exact issues_waitoC h
  | stependC c' f => exact issues_stependC h
  | loopC c' f => exact issues_loopC h
  | agsetA24 c' f => exact issues_agset h
  | mlw c' f => exact issues_mlw h
  | mma c' f ecc =>
    cases ecc with
    | nil => exact issues_mma h
    | cons _ _ => exact nomatch h
  | mcvt c' f =>
    refine issues_acc h (congrArg McvtF.en (mcvtOf_word f .ok)) ?_ (fun _ => rfl)
    rw [wordLegal, cellInstr, McvtF.word_opcode, mcvtOf_word]
    rfl
  | mstxX128 c' f | maddxX128 c' f =>
    refine issues_acc h (congrArg MaccF.en (maccOf_word f .ok)) ?_ (fun _ => rfl)
    rw [wordLegal, cellInstr, MaccF.word_opcode f (by decide), maccOf_word]
    rfl
  | mclrX128 c' f => exact issues_mclr h
  | _ => exact nomatch h

end

/-- A stopped cell keeps its contents; its fault is the one it had or the cause it met. -/
theorem Cell.stopped_fault (x : Cell) (code now : Nat) :
    (x.stopped code now).fault = x.fault ∨ (x.stopped code now).fault = some ⟨code, now⟩ := by
  unfold Cell.stopped
  cases x.fault with
  | none => exact .inr rfl
  | some f =>
    by_cases h : f.cycle = now ∧ code < f.code
    · exact .inr (if_pos h)
    · exact .inl (if_neg h)

theorem State.atIssue_fault (s : State) (c : Nat) : (s.atIssue c).fault = (s.cell c).fault := by simp [State.atIssue]

@[simp] theorem enOf_fecc (w : Word) (e : Ecc) : (enOf w e).fecc = e := rfl

theorem timingCodes_pos : ∀ k ∈ timingCodes, 0x01 ≤ k := by decide

/-- Settles O16: an instruction that is not enabled holds its time and units, or its code and timing stop the cell. -/
theorem disabledInstructionsOnlyTakeTime : Obligations.DisabledInstructionsOnlyTakeTime := by
  unfold Obligations.DisabledInstructionsOnlyTakeTime
  intro i c w s hw hc hpc hen
  obtain ⟨f, t, ht, hcount, hsound⟩ := cellWord_issues hw s
  obtain ⟨-, halways, -, hhold⟩ := hsound (s.atIssue c)
  cases hl : lowest (f (s.atIssue c)).always with
  | none =>
    obtain ⟨hcell, hothers⟩ := issue_holds hc hpc hen (word := w) (by simp) (lowest_eq_none_iff.1 hl)
    obtain ⟨hsame, hfault⟩ := hhold { s.atIssue c with
      pc := (s.atIssue c).pc + 1, issueFree := s.cycle + (f (s.atIssue c)).slots, slotEn := false }
    refine ⟨t, ht, ?_, fun k hk => (hcount.cell k).trans (hothers k hk), .inl ?_⟩
    · rw [hcount.cell, hcell]
      exact hsame
    · rw [hcount.cell, hcell, hfault]
      exact s.atIssue_fault c
  | some code =>
    have hstop := (issue_stops (e := enOf w .ok) (word := w) (code := code) hc hpc (by simpa [hen] using hl)).counted hcount
    refine ⟨t, ht, ?_, hstop.others, ?_⟩
    · rw [hstop.cell]
      exact .refl (s.atIssue c)
    · rw [hstop.cell]
      rw [← s.atIssue_fault c]
      exact (Cell.stopped_fault ..).imp_right fun h => ⟨code, h, halways (lowest_eq_some_iff.1 hl).1⟩

/-- Settles O17: of the causes an illegal word meets ILLEGAL is the lowest, and past the bank there is FETCH_END alone. -/
theorem illegalWordsStopTheCell : Obligations.IllegalWordsStopTheCell := by
  unfold Obligations.IllegalWordsStopTheCell
  intro i c w s hw hc code hcode
  obtain ⟨f, t, ht, hcount, hsound⟩ := cellWord_issues hw s
  have hstop : StopsCell s (issue c (enOf w .ok) w f s) c code := by
    rcases hcode with ⟨hpc, hlegal, rfl⟩ | ⟨hpc, rfl⟩
    · obtain ⟨hillegal, halways, hwhen, -⟩ := hsound (s.atIssue c)
      refine issue_stops hc hpc (lowest_eq_some_iff.2 ⟨by simp [hillegal hlegal], fun k hk => ?_⟩)
      simp only [enOf_fecc, reduceCtorEq, decide_false, cause_false, List.nil_append, List.mem_append] at hk
      rcases hk with hk | hk
      · exact timingCodes_pos k (halways hk)
      · split at hk
        · exact hwhen k hk
        · exact nomatch hk
    · exact issue_stops_pastBank hc hpc
  have hstop' := hstop.counted hcount
  exact ⟨t, ht, hstop'.cell, hstop'.canIssue, hstop'.others, hstop'.raised⟩

end Sys2Proof.Machine
end

