-- ==== Sys2Proof/Proofs/InstructionLoad.lean ====
section
/-! PROOF. A plan section's load: one line a write, and at its end VALID exactly when each bank has its digest (O24). -/

namespace Sys2Proof.Machine
open Sys2Proof.Stmt

/-! ### The banks of a cell -/

@[simp] theorem Cell.bank_setBank_same (x : Cell) (b : Bool) (k : Bank) : (x.setBank b k).bank b = k := by
  cases b <;> rfl

@[simp] theorem Cell.bank_setBank_not (x : Cell) (b : Bool) (k : Bank) : (x.setBank b k).bank (!b) = x.bank (!b) := by
  cases b <;> rfl

theorem SameContents.setBank {x y : Cell} (h : SameContents x y) (b : Bool) (k : Bank) : SameContents x (y.setBank b k) := by
  cases b <;> exact h

/-- VALID of one bank is set or cleared (R75). -/
def Cell.setValid (x : Cell) (b v : Bool) : Cell := x.setBank b { x.bank b with valid := v }

theorem Cell.setValid_idem (x : Cell) (b v : Bool) : (x.setValid b v).setValid b v = x.setValid b v := by
  cases b <;> rfl

/-- VALID of one bank is set or cleared in each cell of a list. -/
def State.setValids (s : State) (cs : List Nat) (b v : Bool) : State := cs.foldl (fun s c => s.onCell c (·.setValid b v)) s

theorem State.setValids_frame (s : State) (cs : List Nat) (b v : Bool) : ∃ cells, s.setValids cs b v = { s with cells } := by
  induction cs generalizing s with
  | nil => exact ⟨s.cells, rfl⟩
  | cons c cs ih => exact ih (s.onCell c (·.setValid b v))

theorem State.setValids_part (s : State) (cs : List Nat) (b v : Bool) (p : Nat) : (s.setValids cs b v).part p = s.part p := by
  obtain ⟨cells, h⟩ := s.setValids_frame cs b v
  rw [h]
  rfl

theorem State.setValids_cellAt (s : State) (cs : List Nat) (b v : Bool) (p vb pos : Nat) :
    (s.setValids cs b v).cellAt p vb pos = s.cellAt p vb pos := by
  obtain ⟨cells, h⟩ := s.setValids_frame cs b v
  rw [h]
  rfl

theorem State.setValids_cell (s : State) (cs : List Nat) (b v : Bool) (k : Nat) :
    (s.setValids cs b v).cell k = if k ∈ cs then (s.cell k).setValid b v else s.cell k := by
  induction cs generalizing s with
  | nil => rfl
  | cons c cs ih =>
    have hstep : (s.onCell c (·.setValid b v)).cell k = if k = c then (s.cell k).setValid b v else s.cell k := by
      by_cases hk : k = c
      · subst hk
        simp
      · rw [if_neg hk]
        exact s.onCell_cell_ne _ hk
    rw [State.setValids, List.foldl_cons]
    refine (ih _).trans ?_
    rw [hstep]
    by_cases hk : k = c <;> by_cases hmem : k ∈ cs <;> simp [hk, hmem, Cell.setValid_idem]

/-- Writing VALID keeps the other bank, the contents of the cells and the bank's words and entries. -/
theorem State.setValids_keeps (s : State) (cs : List Nat) (b v : Bool) (k : Nat) :
    ((s.setValids cs b v).cell k).bank (!b) = (s.cell k).bank (!b) ∧ SameContents (s.cell k) ((s.setValids cs b v).cell k) ∧
    ((s.setValids cs b v).cell k).bank b = { (s.cell k).bank b with valid := if k ∈ cs then v else ((s.cell k).bank b).valid } := by
  rw [State.setValids_cell]
  split
  · exact ⟨Cell.bank_setBank_not .., (SameContents.refl _).setBank .., Cell.bank_setBank_same ..⟩
  · exact ⟨rfl, .refl _, rfl⟩

/-! ### The lines of a section -/

theorem look_putAll_range {α : Type} [DecidableEq α] (d : α) (m : SMap α) (a n : Nat) (g : Nat → α) (k : Nat) :
    look d (putAll d m ((List.range n).map (fun j => (a + j, g j)))) k =
      if a ≤ k ∧ k < a + n then g (k - a) else look d m k := by
  induction n with
  | zero => simp [putAll, show ¬ (a ≤ k ∧ k < a) by omega]
  | succ n ih =>
    rw [List.range_succ, List.map_append, List.map_singleton, putAll, List.foldl_append, List.foldl_cons, List.foldl_nil, look_put]
    change (if k = a + n then g n else look d (putAll d m _) k) = _
    rw [ih]
    by_cases hk : k = a + n
    · subst hk
      simp
    · simp only [if_neg hk, show (a ≤ k ∧ k < a + (n + 1)) ↔ (a ≤ k ∧ k < a + n) by omega]

theorem Bank.loadLine_words (b : Bank) (words : SMap Word) (entry : List Nat) {i : Nat} (hi : i < 256) (j : Nat) :
    look 0#64 (b.loadLine words entry i).words j =
      if 32 * i ≤ j ∧ j < 32 * i + 32 then look 0#64 words j else look 0#64 b.words j := by
  rw [Bank.loadLine, if_pos hi]
  refine (look_putAll_range 0#64 b.words (32 * i) 32 (fun j => look 0#64 words (32 * i + j)) j).trans ?_
  refine if_ctx_congr Iff.rfl (fun h => ?_) (fun _ => rfl)
  rw [Nat.add_sub_cancel' h.1]

theorem Bank.loadLine_entry (b : Bank) (words : SMap Word) (entry : List Nat) {k : Nat} (hk : k < 8) :
    look 0 (b.loadLine words entry 256).entry k = entry.getD k 0 := by
  rw [Bank.loadLine, if_neg (by decide)]
  simpa [hk] using look_putAll_range 0 b.entry 0 8 (fun j => entry.getD j 0) k

@[simp] theorem Bank.loadLine_valid (b : Bank) (words : SMap Word) (entry : List Nat) (i : Nat) :
    (b.loadLine words entry i).valid = b.valid := by
  unfold Bank.loadLine
  split <;> rfl

/-! ### The load -/

/-- A cell as one line of a section leaves it. -/
def Cell.loadLine (x : Cell) (b : Bool) (words : SMap Word) (entry : List Nat) (i : Nat) : Cell :=
  x.setBank b ((x.bank b).loadLine words entry i)

/-- A partition whose load has ended. -/
def Part.loadEnded (q : Part) (l : BankLoad) (good : Bool) : Part :=
  { q with
    bankLoad := none
    bankStatus := if good then .done else .failed
    bankCode0 := if good && !l.bank then newCode l.secs q.bankCode0 else q.bankCode0
    bankCode1 := if good && l.bank then newCode l.secs q.bankCode1 else q.bankCode1 }

section
variable {s : State} {p : Nat} {l : BankLoad} (hl : (s.part p).bankLoad = some l)
include hl

theorem execInstructionLoadComplete_ends (hdone : 257 * l.secs.length ≤ l.done) :
    ∃ res, exec (.instructionLoadComplete p) s = .next
      (((s.setValids (s.loadCells p l) l.bank (s.loadGood p l)).post? l.hdr 0x0302 (if s.loadGood p l then 0x00 else 0x09) res).onPart
        p (·.loadEnded l (s.loadGood p l))) := by
  refine ⟨acceptRecord ((s.setValids (s.loadCells p l) l.bank (s.loadGood p l)).part p).binding, ?_⟩
  change execInstructionLoadComplete p s = _
  unfold execInstructionLoadComplete
  simp only [hl, if_neg (show ¬ l.done < l.lines from Nat.not_lt.2 hdone)]
  rfl

theorem execInstructionLoadComplete_waits (hdone : l.done < 257 * l.secs.length) : exec (.instructionLoadComplete p) s = .next s := by
  change execInstructionLoadComplete p s = _
  unfold execInstructionLoadComplete
  simp only [hl]
  exact if_pos hdone

section
variable {x : Section} {words : SMap Word} {entry : List Nat} {c : Nat} (hdone : l.done < 257 * l.secs.length)
  (hslot : s.loadSlot p = true) (hx : l.secs[l.done / 257]? = some x) (hdata : x.data = .cellCode words entry)
  (hc : s.cellAt p x.unit (x.sub % 16) = some c)
include hdone hslot hx hdata hc

theorem State.loadStep_line :
    s.loadStep p = ((s.setValids (if l.done = 0 then s.loadCells p l else []) l.bank false).onCell c
      (·.loadLine l.bank words entry (l.done % 257))).onPart p (fun q => { q with bankLoad := some { l with done := l.done + 1 } }) := by
  obtain ⟨type, position, variant, unit, sub, zero, off, bytes, digest, data⟩ := x
  obtain rfl : data = .cellCode words entry := hdata
  have hstart : (if l.done ≠ 0 then s else (s.loadCells p l).foldl (fun s c =>
      s.onCell c (fun y => y.setBank l.bank { (if l.bank then y.bank1 else y.bank0) with valid := false })) s) =
      s.setValids (if l.done = 0 then s.loadCells p l else []) l.bank false := by
    by_cases h : l.done = 0 <;> simp only [h, ne_eq, not_true_eq_false, not_false_eq_true, if_true, if_false] <;> rfl
  have hlt : ¬ (l.lines ≤ l.done ∨ !s.loadSlot p) := by
    simp [BankLoad.lines, hslot, hdone]
  unfold State.loadStep
  simp only [hl, if_neg hlt, hstart, hx, State.setValids_cellAt, hc]
  rfl

/-- The bank that a line is written to: the first write of the load has cleared its VALID. -/
theorem State.loadStep_bank : ((s.loadStep p).cell c).bank l.bank =
    Bank.loadLine { (s.cell c).bank l.bank with valid := if l.done = 0 then false else ((s.cell c).bank l.bank).valid }
      words entry (l.done % 257) := by
  have hmem : l.done = 0 → c ∈ s.loadCells p l := fun hzero => by
    rw [hzero, Nat.zero_div] at hx
    exact List.mem_filterMap.2 ⟨x, List.mem_of_getElem? hx, hc⟩
  rw [s.loadStep_line hl hdone hslot hx hdata hc, State.onPart_cell, State.onCell_cell_same, Cell.loadLine, Cell.bank_setBank_same,
    (s.setValids_keeps _ l.bank false c).2.2]
  by_cases hzero : l.done = 0
  · simp only [if_pos hzero, if_pos (hmem hzero)]
  · simp [if_neg hzero]

/-- A line of a load writes its target bank only. -/
theorem State.loadStep_keeps (k : Nat) :
    SameContents (s.cell k) ((s.loadStep p).cell k) ∧ ((s.loadStep p).cell k).bank (!l.bank) = (s.cell k).bank (!l.bank) := by
  rw [s.loadStep_line hl hdone hslot hx hdata hc, State.onPart_cell]
  obtain ⟨hother, hsame, -⟩ := s.setValids_keeps (if l.done = 0 then s.loadCells p l else []) l.bank false k
  by_cases hk : k = c
  · subst hk
    rw [State.onCell_cell_same, Cell.loadLine, Cell.bank_setBank_not]
    exact ⟨hsame.setBank .., hother⟩
  · rw [State.onCell_cell_ne _ _ hk]
    exact ⟨hsame, hother⟩

end

end

theorem State.loadGood_eq (s : State) (p : Nat) (l : BankLoad) : s.loadGood p l = l.secs.all (fun x =>
    (s.cellAt p x.unit (x.sub % 16)).elim false (fun c => decide (Bank.digest ((s.cell c).bank l.bank) = x.digest))) := by
  unfold State.loadGood
  congr
  funext x
  cases s.cellAt p x.unit (x.sub % 16) <;> rfl

theorem State.cell_post? (s : State) (h : Option Hdr) (op st : Nat) (res : List (Nat × Nat)) (k : Nat) :
    (s.post? h op st res).cell k = s.cell k := by
  rw [State.cell, State.post?_cells]
  rfl

/-- A load whose lines are all written ends: its banks are VALID exactly when each has its digest. -/
theorem load_ends {p : Nat} {s : State} {l : BankLoad} (hl : (s.part p).bankLoad = some l) (hdone : 257 * l.secs.length ≤ l.done) :
    ∃ t, exec (.instructionLoadComplete p) s = .next t ∧ t.part p = (s.part p).loadEnded l (s.loadGood p l) ∧
      (∀ q, q ≠ p → t.part q = s.part q) ∧
      ∀ c, t.cell c = (s.setValids (s.loadCells p l) l.bank (s.loadGood p l)).cell c := by
  obtain ⟨res, hexec⟩ := execInstructionLoadComplete_ends hl hdone
  refine ⟨_, hexec, ?_, fun q hq => ?_, fun c => ?_⟩
  · rw [State.onPart_part_same, State.post?_part, State.setValids_part]
  · rw [State.onPart_part_ne _ _ hq, State.post?_part, State.setValids_part]
  · rw [State.onPart_cell, State.cell_post?]

/-- Settles O24: the load's end writes VALID only, and each of its writes one line of one section. -/
theorem planSectionLoadsEnd : Obligations.PlanSectionLoadsEnd := by
  unfold Obligations.PlanSectionLoadsEnd
  refine ⟨fun p s l hl hdone => ?_, fun p s hwait => ?_, fun p s l x words entry c hl hdone hslot hx hdata hc => ?_⟩
  · intro good
    obtain ⟨t, hexec, hpart, hparts, hcells⟩ := load_ends hl hdone
    rw [s.loadGood_eq p l] at hpart hcells
    refine ⟨t, hexec, ?_, ?_, ?_, fun hb => ?_, fun hb => ?_, fun hgood => ?_, hparts, fun c => ?_⟩
    · rw [hpart]; rfl
    · rw [hpart]; rfl
    · rw [hpart]; rfl
    · rw [hpart, Part.loadEnded, hb]; simp
    · rw [hpart, Part.loadEnded, hb]; simp
    · rw [hpart, Part.loadEnded, ← s.loadGood_eq p l, (s.loadGood_eq p l).trans hgood]
      exact ⟨rfl, rfl⟩
    · obtain ⟨hother, hsame, hbank⟩ := s.setValids_keeps (s.loadCells p l) l.bank good c
      rw [hcells c]
      exact ⟨hother, hsame, by rw [hbank], by rw [hbank], by rw [hbank]⟩
  · cases hl : (s.part p).bankLoad with
    | none =>
      change execInstructionLoadComplete p s = _
      unfold execInstructionLoadComplete
      rw [hl]
      rfl
    | some l => exact execInstructionLoadComplete_waits hl (hwait l hl)
  · intro t
    have hbank := s.loadStep_bank hl hdone hslot hx hdata hc
    refine ⟨?_, fun q hq => s.loadStep_part_ne hq, s.loadStep_keeps hl hdone hslot hx hdata hc, fun hzero => ?_, fun hline j => ?_,
      fun hline k hk => ?_⟩
    · simp only [t, s.loadStep_line hl hdone hslot hx hdata hc, State.onPart_part_same]
    · rw [hbank, Bank.loadLine_valid, if_pos hzero]
    · rw [hbank, Bank.loadLine_words _ _ _ hline]
    · rw [hbank, hline, Bank.loadLine_entry _ _ _ hk]

end Sys2Proof.Machine
end

