-- ==== Sys2Proof/Proofs/LoopCommands.lean ====
section
/-! PROOF. Loop commands: a LOOP.C header starts one or stops the cell (O8), the end of an iteration advances one (O15). -/

namespace Sys2Proof.Machine
open Sys2Proof.Stmt

/-! ### Headers -/

theorem bodyBad_iff {b : Bank} {h n : Nat} : bodyBad b h n = true ↔
    ∃ j, j < n ∧ (look 0#64 b.words (h + 1 + j)).toNat / 2 ^ 58 ∈ [0x22, 0x23, 0x24] := by
  simp [bodyBad, opcOf, or_left_comm, or_comm]

/-- The command that a header at `h` starts. -/
def loopCommand (f : LoopF) (h : Nat) (en : Bool) : LoopSt :=
  { h, n := f.body.toNat + 1, d := f.depth.toNat + 1, trip0 := f.trip0.toNat + 1, trip1 := f.trip1.toNat + 1
    trip2 := f.trip2.toNat + 1, trip3 := f.trip3.toNat + 1, en }

/-- What a header issues on a cell whose active bank is `bank` (R112). -/
def loopIssue (f : LoopF) (bank : Bool) (x : Cell) : Issue :=
  { always := cause (!f.legal) 0x01 ++ cause (decide (8191 < x.pc + (f.body.toNat + 1))) 0x07 ++ inBody x
      ++ cause (bodyBad (x.bank bank) x.pc (f.body.toNat + 1)) 0x10
    whenEn := []
    slots := 1
    hold := fun y => { y with lc := [], loop := some (loopCommand f x.pc false) }
    effect := fun y => { y with loop := some (loopCommand f x.pc true) } }

theorem exec_loopC (c : CellId) (f : LoopF) (s : State) :
    ∃ t, exec (.loopC c f) s = .next t ∧ Counted (issue c f.en f.word (loopIssue f (s.bankOf c)) s) t :=
  ⟨_, rfl, .ite (State.count_counted ..) (.refl _)⟩

section
variable {c : CellId} {f : LoopF} {s : State} (hr : CellReady s c f.en) (hl : f.legal = true) (hloop : (s.atIssue c).loop = none)
include hr hl hloop

theorem exec_loopC_starts (hend : (s.atIssue c).pc + (f.body.toNat + 1) ≤ 8191)
    (hbody : bodyBad ((s.atIssue c).bank (s.bankOf c)) (s.atIssue c).pc (f.body.toNat + 1) = false) :
    ∃ t, exec (.loopC c f) s = .next t ∧ OnlyCell s t c ∧
      t.cell c = { (s.atIssue c).issued s.cycle 1 with lc := [], loop := some (loopCommand f (s.atIssue c).pc true) } := by
  obtain ⟨t, hnext, hcount⟩ := exec_loopC c f s
  obtain ⟨u, rfl, honly, hcell⟩ := issue_runs (word := f.word) (f := loopIssue f (s.bankOf c)) hr
    (by simp [loopIssue, hl, inBody, hloop, hbody, Nat.not_lt.2 hend]) rfl
  exact ⟨t, hnext, honly.trans (hcount.onlyCell c), (hcount.cell c).trans hcell⟩

/-- Of the causes a legal header meets outside a command, the lowest stops the cell. -/
theorem exec_loopC_stops {code : Nat}
    (hcode : lowest (cause (decide (8191 < (s.atIssue c).pc + (f.body.toNat + 1))) 0x07 ++
      cause (bodyBad ((s.atIssue c).bank (s.bankOf c)) (s.atIssue c).pc (f.body.toNat + 1)) 0x10) = some code) :
    ∃ t, exec (.loopC c f) s = .next t ∧ t.cell c = (s.atIssue c).stopped code s.cycle := by
  obtain ⟨hc, hpc, -, hecc⟩ := hr
  obtain ⟨t, hnext, hcount⟩ := exec_loopC c f s
  have hstop : StopsCell s (issue c f.en f.word (loopIssue f (s.bankOf c)) s) c code :=
    issue_stops hc hpc (by simpa [loopIssue, hl, inBody, hloop, hecc] using hcode)
  exact ⟨t, hnext, (hstop.counted hcount).cell⟩

end

/-- Settles O8: a body inside the bank is checked for control words; a body past the bank's end is FETCH_END, the lower code. -/
theorem loopHeadersStartCommands : Obligations.LoopHeadersStartCommands := by
  unfold Obligations.LoopHeadersStartCommands
  intro c f s hr hl hloop x b n bad
  have hbad : bad ↔ bodyBad b x.pc n = true := bodyBad_iff.symm
  refine ⟨fun hend hgood => ?_, fun hend => ?_, fun hend hb => ?_⟩
  · exact exec_loopC_starts hr hl hloop hend (Bool.eq_false_iff.2 (hbad.not.1 hgood))
  · refine exec_loopC_stops hr hl hloop (lowest_eq_some_iff.2 ⟨by simp [show 8191 < x.pc + n from hend, x, n], fun k hk => ?_⟩)
    simp only [List.mem_append, mem_cause] at hk
    omega
  · have hin : ¬ 8191 < x.pc + n := Nat.not_lt.2 hend
    exact exec_loopC_stops hr hl hloop (by rw [hbad.1 hb, decide_eq_false hin]; rfl)

/-! ### The end of an iteration -/

theorem Cell.land_of_none_due {x : Cell} {b : Nat} (h : ∀ q ∈ x.pend, b < q.due) : x.land b = x := by
  have hnone : landing x.pend b = [] := List.eq_nil_iff_forall_not_mem.2 fun q hq => by
    obtain ⟨hmem, hdue⟩ := mem_landing.1 hq
    exact absurd (h q hmem) (Nat.not_lt.2 hdue)
  rw [Cell.land_eq, hnone, List.filter_eq_self.2 fun q hq => decide_eq_true (h q hq)]
  rfl

/-- Level `k` of the command has trips left. -/
def LoopSt.Left (l : LoopSt) (x : Cell) (k : Nat) : Prop := k < l.d ∧ look 0 x.lc k + 1 < l.trip k

theorem advLevel_eq_none {x : Cell} {l : LoopSt} (h : ∀ k, ¬ l.Left x k) (k fuel : Nat) : advLevel x l k fuel = none := by
  induction fuel generalizing k with
  | zero => rfl
  | succ fuel ih =>
    rw [advLevel]
    split
    · rfl
    · rw [if_neg fun hlt => h k ⟨by omega, hlt⟩, ih]

/-- The search finds the lowest level that has trips left. -/
theorem advLevel_eq_some {x : Cell} {l : LoopSt} {L : Nat} (hL : l.Left x L) (hlow : ∀ k, k < L → ¬ l.Left x k) {k fuel : Nat}
    (hk : k ≤ L) (hfuel : L < k + fuel) : advLevel x l k fuel = some L := by
  obtain ⟨hd, hleft⟩ := hL
  induction fuel generalizing k with
  | zero => omega
  | succ fuel ih =>
    rw [advLevel, if_neg (by omega : ¬ k ≥ l.d)]
    rcases Nat.lt_or_eq_of_le hk with hlt | rfl
    · rw [if_neg fun h => hlow k hlt ⟨by omega, h⟩, ih hlt (by omega)]
    · rw [if_pos hleft]

theorem look_foldl_upd_range {α : Type} [DecidableEq α] (d : α) (m : SMap α) (f : α → α) (n g : Nat) :
    look d ((List.range n).foldl (fun m g => upd d m g f) m) g = if g < n then f (look d m g) else look d m g := by
  induction n with
  | zero => simp
  | succ n ih =>
    rw [List.range_succ, List.foldl_append, List.foldl_cons, List.foldl_nil]
    by_cases hg : g = n
    · subst hg
      simp [ih]
    · rw [look_upd_ne _ _ _ hg, ih]
      simp only [show g < n + 1 ↔ g < n by omega]

/-- All sixteen generators step by the increment of the level that advances, or of the highest (R117). -/
theorem Cell.agen_iterEnd (x : Cell) (l : LoopSt) {g : Nat} (hg : g < 16) :
    (x.iterEnd l).agen g = (x.agen g).move ((x.agen g).inc ((advLevel x l 0 4).getD (l.d - 1))) := by
  unfold Cell.iterEnd Cell.agen
  dsimp only
  rw [look_foldl_upd_range, if_pos hg]

/-- The counters after level `L` advances: the lower ones start again. -/
theorem look_advanced (m : SMap Nat) (L v k : Nat) :
    look 0 (put 0 (m.filter (fun e => decide (L ≤ e.1))) L v) k = if k < L then 0 else if k = L then v else look 0 m k := by
  rcases Nat.lt_trichotomy k L with h | rfl | h
  · rw [if_pos h, look_put_ne _ _ _ (by omega), look_filter_removed _ _ _ fun _ => decide_eq_false (by omega)]
  · simp
  · rw [if_neg (by omega), if_neg (by omega), look_put_ne _ _ _ (by omega),
      look_filter_kept _ _ _ fun _ => decide_eq_true (by omega)]

/-- The end of an iteration changes the loop state, the generators and the program counter only. -/
theorem Cell.iterEnd_keeps (x : Cell) (l : LoopSt) :
    (x.iterEnd l).g = x.g ∧ (x.iterEnd l).p = x.p ∧ (x.iterEnd l).v = x.v ∧ (x.iterEnd l).sdm = x.sdm ∧ (x.iterEnd l).cs = x.cs ∧
    (x.iterEnd l).csw = x.csw ∧ (x.iterEnd l).acc = x.acc ∧ (x.iterEnd l).pend = x.pend := by
  simp only [Cell.iterEnd, and_self]

theorem Cell.iterEnd_of_left {x : Cell} {l : LoopSt} {L : Nat} (hloop : x.loop = some l) (h : advLevel x l 0 4 = some L) :
    (x.iterEnd l).pc = l.h + 1 ∧ (x.iterEnd l).loop = some l ∧
    (∀ k, look 0 (x.iterEnd l).lc k = if k < L then 0 else if k = L then look 0 x.lc k + 1 else look 0 x.lc k) ∧
    ∀ g, g < 16 → (x.iterEnd l).agen g = (x.agen g).move ((x.agen g).inc L) := by
  refine ⟨by simp [Cell.iterEnd, h], by simp [Cell.iterEnd, h, hloop], fun k => ?_, fun g hg => by rw [x.agen_iterEnd l hg, h]; rfl⟩
  simp only [Cell.iterEnd, h, look_advanced]
  by_cases hk : k = L
  · rw [hk]
  · rw [if_neg hk, if_neg hk]

theorem Cell.iterEnd_of_none_left {x : Cell} {l : LoopSt} (h : advLevel x l 0 4 = none) :
    (x.iterEnd l).pc = l.h + l.n + 1 ∧ (x.iterEnd l).loop = none ∧ (x.iterEnd l).lc = [] ∧
    ∀ g, g < 16 → (x.iterEnd l).agen g = (x.agen g).move ((x.agen g).inc (l.d - 1)) :=
  ⟨by simp [Cell.iterEnd, h], by simp [Cell.iterEnd, h], by simp [Cell.iterEnd, h], fun g hg => by rw [x.agen_iterEnd l hg, h]; rfl⟩

/-- An iteration whose last cycle has come, and before whose end nothing else lands, ends. -/
theorem Cell.endIter_of_done {x : Cell} {l : LoopSt} {b : Nat} (hloop : x.loop = some l) (hpc : x.pc = l.h + 1 + l.n)
    (hdue : x.issueFree ≤ b + 1) (hland : ∀ q ∈ x.pend, x.issueFree - 1 < q.due) : x.endIter b = x.iterEnd l := by
  simp [Cell.endIter, Cell.iterDone, hloop, hpc, hdue, Cell.land_of_none_due hland]

/-- Settles O15: nothing lands before the iteration's end, and the search through the levels finds the lowest with trips left. -/
theorem loopIterationsStep : Obligations.LoopIterationsStep := by
  unfold Obligations.LoopIterationsStep
  intro c s l x hloop hpc hpos hdue hnew _ hd
  refine ⟨s.onCell c (fun x => x.endIter (s.landBound c)), rfl, s.onCell_onlyCell .., ?_⟩
  rw [State.onCell_cell_same, Cell.endIter_of_done hloop hpc hdue fun q hq => by have := hnew q hq; omega]
  obtain ⟨hg, hp, hv, hsdm, hcs, hcsw, hacc, hpend⟩ := x.iterEnd_keeps l
  refine ⟨hg, hp, hv, hsdm, hcs, hcsw, hacc, hpend, fun L hL hlow => ?_, fun hnone => ?_⟩
  · have hlt : L < 4 := Nat.lt_of_lt_of_le hL.1 hd
    exact Cell.iterEnd_of_left hloop (advLevel_eq_some hL hlow (Nat.zero_le L) (by omega))
  · exact Cell.iterEnd_of_none_left (advLevel_eq_none hnone 0 4)

end Sys2Proof.Machine
end

