-- ==== Sys2Proof/Proofs/VectorIssue.lean ====
section
/-! SUPPORT. What issuing a vector instruction can leave of its cell: on a free unit it holds the unit and its port cycles, a cause of
its port or its addresses stops the cell (R69, R96, R98). -/

namespace Sys2Proof.Machine
open Sys2Proof.Stmt

/-! ### Signed fields -/

theorem signedN_of_pos (x : Nat) {w : Nat} (hw : 0 < w) :
    signedN x w = if x % 2 ^ w < 2 ^ (w - 1) then ((x % 2 ^ w : Nat) : Int) else ((x % 2 ^ w : Nat) : Int) - 2 ^ w := by
  obtain ⟨k, rfl⟩ : ∃ k, w = k + 1 := ⟨w - 1, by omega⟩
  have hbit : bit x k = decide (2 ^ k ≤ x % 2 ^ (k + 1)) := by
    rw [bit, beq_eq_decide, decide_eq_decide, Nat.pow_succ, Nat.mod_mul]
    have hlt : x % 2 ^ k < 2 ^ k := Nat.mod_lt _ (by positivity)
    rcases Nat.mod_two_eq_zero_or_one (x / 2 ^ k) with h | h
    · simp [h, hlt]
    · simp [h]
  rw [signedN, Nat.add_sub_cancel, hbit]
  simp only [decide_eq_true_eq, ← Nat.not_lt, ite_not]
  norm_num

/-! ### Selected lanes -/

theorem Cell.getLsbD_mask (x : Cell) (lm : BitVec 5) {l : Nat} (hl : l < 64) : (x.mask lm).getLsbD l = sel x lm l := by
  unfold Cell.mask sel
  by_cases h : lm = 0
  · rw [if_pos h, BitVec.getLsbD_allOnes, decide_eq_true h, decide_eq_true hl, Bool.true_or]
  · rw [if_neg h, decide_eq_false h, Bool.false_or]

/-- The lanes of the mask are those that LM selects (R96). -/
theorem filter_mask (x : Cell) (lm : BitVec 5) :
    (List.range 64).filter (fun l => (x.mask lm).getLsbD l) = (List.range 64).filter (fun l => sel x lm l) :=
  List.filter_congr fun _ hl => x.getLsbD_mask lm (List.mem_range.1 hl)

theorem selLanes_mask {α : Type} (x : Cell) (lm : BitVec 5) (f : Nat → α) :
    selLanes (x.mask lm) f = ((List.range 64).filter (fun l => sel x lm l)).map (fun l => (l, f l)) := by
  rw [selLanes, filter_mask]

theorem selLanes_eq_lanesOf {x : Cell} {lm : BitVec 5} {f g : Nat → Lane} (h : ∀ l, l < 64 → f l = g l) :
    selLanes (x.mask lm) f = lanesOf x lm g := by
  rw [selLanes_mask]
  refine List.map_congr_left fun l hl => ?_
  rw [h l (List.mem_range.1 (List.mem_of_mem_filter hl))]

/-! ### Port cycles -/

theorem portClash_eq_false_iff {x : Cell} {start step count : Nat} :
    portClash x.port start step count = false ↔ portFree x start step count := by
  simp only [portClash, portFree, List.any_eq_false, List.mem_range, Bool.not_eq_true]
  exact ⟨fun h o ho i hi => h i hi o ho, fun h i hi o ho => h o ho i hi⟩

/-- The cell with the vector unit occupied for `occ` cycles from `now`. -/
def withVecUnit (x : Cell) (now occ : Nat) : Cell := { x with vecFree := now + occ, vecEn := true }

/-! ### Issue on a free unit -/

/-- What a vector instruction issues: `ports` port cycles from t + 2, the unit for `occ` cycles. -/
def vecIssue (now occ ports : Nat) (e : En) (legal : Bool) (whenEn : Cell → List Nat) (act : Cell → PortAct)
    (effect : Cell → Cell → Cell) (x : Cell) : Issue :=
  let op (a : PortAct) : List PortOp :=
    if ports = 0 then [] else [{ start := now + 2, step := 1, count := ports, done := 0, issued := now, act := a }]
  { always := cause (!legal) 0x01 ++ cause (decide (now < x.vecFree)) 0x04 ++ cause (portClash x.port (now + 2) 1 ports) 0x11
    whenEn := whenEn x
    slots := 1
    hold := fun y => { y with vecFree := now + occ, vecEn := x.enabled e, port := x.port ++ op .idle }
    effect := fun y => effect x { y with port := x.port ++ op (act x) } }

theorem issueVec_eq (opc func occ ports : Nat) (legal : Bool) (whenEn : Cell → List Nat) (act : Cell → PortAct)
    (effect : Cell → Cell → Cell) (c : Nat) (f : VecF) (s : State) :
    issueVec opc func occ ports legal whenEn act effect c f s =
      issue c f.en (f.word opc func) (vecIssue s.cycle occ ports f.en legal whenEn act effect) s := rfl

section
variable {opc func occ ports : Nat} {legal : Bool} {whenEn : Cell → List Nat} {act : Cell → PortAct} {effect : Cell → Cell → Cell}
  {c : Nat} {f : VecF} {s : State} (hr : CellReady s c f.en) (hl : legal = true) (hfree : (s.atIssue c).vecFree ≤ s.cycle)
include hr hl hfree

theorem issueVec_runs (hport : portFree (s.atIssue c) (s.cycle + 2) 1 ports) (hw : whenEn (s.atIssue c) = []) :
    OnlyCell s (issueVec opc func occ ports legal whenEn act effect c f s) c ∧
    (issueVec opc func occ ports legal whenEn act effect c f s).cell c = effect (s.atIssue c)
      (if ports = 0 then withVecUnit ((s.atIssue c).issued s.cycle 1) s.cycle occ
       else withPort (withVecUnit ((s.atIssue c).issued s.cycle 1) s.cycle occ) (s.cycle + 2) 1 ports s.cycle (act (s.atIssue c))) := by
  obtain ⟨t, heq, honly, hcell⟩ := issue_runs (word := f.word opc func)
    (f := vecIssue s.cycle occ ports f.en legal whenEn act effect) hr
    (by simp [vecIssue, hl, Nat.not_lt.2 hfree, portClash_eq_false_iff.2 hport]) hw
  obtain ⟨-, -, hen, -⟩ := hr
  rw [issueVec_eq, heq]
  refine ⟨honly, hcell.trans (congrArg (effect (s.atIssue c)) ?_)⟩
  by_cases h : ports = 0
  · simp [vecIssue, h, hen, withVecUnit, Cell.issued]
  · simp [vecIssue, h, hen, withVecUnit, withPort, Cell.issued]

theorem issueVec_stops {code : Nat}
    (hcode : lowest (cause (portClash (s.atIssue c).port (s.cycle + 2) 1 ports) 0x11 ++ whenEn (s.atIssue c)) = some code) :
    StopsCell s (issueVec opc func occ ports legal whenEn act effect c f s) c code := by
  obtain ⟨hc, hpc, hen, hecc⟩ := hr
  rw [issueVec_eq]
  exact issue_stops hc hpc (by simpa [vecIssue, hl, Nat.not_lt.2 hfree, hen, hecc] using hcode)

/-- An instruction without port cycles and address checks has its effect on the cell whose vector unit it occupies. -/
theorem issueVec_effect :
    OnlyCell s (issueVec opc func occ 0 legal (fun _ => []) (fun _ => .idle) effect c f s) c ∧
    (issueVec opc func occ 0 legal (fun _ => []) (fun _ => .idle) effect c f s).cell c =
      effect (s.atIssue c) (withVecUnit ((s.atIssue c).issued s.cycle 1) s.cycle occ) :=
  issueVec_runs (ports := 0) hr hl hfree (fun _ _ _ hi => absurd hi (Nat.not_lt_zero _)) rfl

/-- An instruction that accesses the cell store takes its port cycles from t + 2. -/
theorem issueVec_ports (hports : ports ≠ 0) (hport : portFree (s.atIssue c) (s.cycle + 2) 1 ports) (hw : whenEn (s.atIssue c) = []) :
    OnlyCell s (issueVec opc func occ ports legal whenEn act (fun _ y => y) c f s) c ∧
    (issueVec opc func occ ports legal whenEn act (fun _ y => y) c f s).cell c = withPort
      (withVecUnit ((s.atIssue c).issued s.cycle 1) s.cycle occ) (s.cycle + 2) 1 ports s.cycle (act (s.atIssue c)) := by
  obtain ⟨honly, hcell⟩ := issueVec_runs (opc := opc) (func := func) (occ := occ) (act := act) (effect := fun _ y => y)
    hr hl hfree hport hw
  exact ⟨honly, hcell.trans (if_neg hports)⟩

end

end Sys2Proof.Machine
end

