-- ==== Sys2Proof/Proofs/VectorMemory.lean ====
section
/-! PROOF. Vector loads, stores, gathers and scatters at issue: port cycles when every address is good, else the lowest cause of
their addresses or their port (O10). -/

namespace Sys2Proof.Machine
open Sys2Proof.Stmt

/-! ### Addresses -/

theorem toNat_ofInt_of_nonneg {a : Int} (h0 : 0 ≤ a) (h : a < 2 ^ 63) : (BitVec.ofInt 64 a).toNat = a.toNat := by
  rw [BitVec.toNat_ofInt, Int.emod_eq_of_lt h0 (by omega)]

/-- A sum below 0 wraps to an address beyond the cell store. -/
theorem csBytes_le_ofInt_iff {a : Int} (hlo : -2 ^ 63 ≤ a) (hhi : a < 2 ^ 63) :
    csBytes ≤ (BitVec.ofInt 64 a).toNat ↔ a < 0 ∨ 1572864 ≤ a := by
  rw [BitVec.toNat_ofInt, csBytes]
  omega

/-- A[ag].ADDR + 256 × sext(OFS, 16) (R104). -/
theorem ofsAddr_eq (x : Cell) (f : VecF) : ofsAddr x f = (x.agen f.agOf).addr.toNat + 256 * signedN f.lo.toNat 16 := by
  have hlt (o : Nat) : (o : Int) < 2 ^ 15 ↔ o < 2 ^ 15 := by norm_cast
  unfold ofsAddr
  simp only [signedN_of_pos _ (show 0 < 16 by decide), hlt]

theorem ofsAddr_bounds (x : Cell) (f : VecF) : -2 ^ 23 ≤ ofsAddr x f ∧ ofsAddr x f < 2 ^ 25 := by
  have haddr := (x.agen f.agOf).addr.isLt
  unfold ofsAddr
  dsimp only
  split <;> omega

/-! ### Line accesses -/

section
variable {x : Cell} {f : VecF}

theorem lineChecks_eq (x : Cell) (f : VecF) : lineChecks x f = memCauses csBytes (lineEa x f) 256 := rfl

theorem lineEa_eq : lineEa x f = (BitVec.ofInt 64 (ofsAddr x f)).toNat := by
  rw [ofsAddr_eq, lineEa]

theorem csBytes_le_lineEa_iff : csBytes ≤ lineEa x f ↔ ofsAddr x f < 0 ∨ 1572864 ≤ ofsAddr x f := by
  obtain ⟨hlo, hhi⟩ := ofsAddr_bounds x f
  rw [lineEa_eq]
  exact csBytes_le_ofInt_iff (by omega) (by omega)

theorem lineEa_of_nonneg (h : 0 ≤ ofsAddr x f) : (lineEa x f : Int) = ofsAddr x f := by
  obtain ⟨-, hhi⟩ := ofsAddr_bounds x f
  rw [lineEa_eq, toNat_ofInt_of_nonneg h (by omega), Int.toNat_of_nonneg h]

theorem lineChecks_good (h0 : 0 ≤ ofsAddr x f) (hin : ofsAddr x f < 1572864) (hal : (256 : Int) ∣ ofsAddr x f) :
    lineChecks x f = [] := by
  refine memCauses_good (Nat.not_le.1 fun h => ?_) ?_
  · have := csBytes_le_lineEa_iff.1 h
    omega
  · rw [← lineEa_of_nonneg h0] at hal
    exact_mod_cast hal

theorem lowest_lineChecks_address (hout : ofsAddr x f < 0 ∨ 1572864 ≤ ofsAddr x f) : lowest (lineChecks x f) = some 0x02 :=
  lowest_memCauses_address (csBytes_le_lineEa_iff.2 hout)

theorem lowest_lineChecks_align (h0 : 0 ≤ ofsAddr x f) (hin : ofsAddr x f < 1572864) (hal : ¬ (256 : Int) ∣ ofsAddr x f) :
    lowest (lineChecks x f) = some 0x03 := by
  refine lowest_memCauses_align (Nat.not_le.1 fun h => ?_) fun h => hal ?_
  · have := csBytes_le_lineEa_iff.1 h
    omega
  · rw [← lineEa_of_nonneg h0]
    exact_mod_cast h

end

/-- The issue of a line access. -/
def issueLine (func : Nat) (act : VecF → Cell → PortAct) (c : Nat) (f : VecF) (s : State) : State :=
  issueVec 0x2D func 1 1 (f.memPlain && f.vb == 0) (fun x => lineChecks x f) (act f) (fun _ y => y) c f s

/-- VLD.L reads its line in one port cycle. -/
theorem exec_vldL (c : CellId) (f : VecF) (s : State) : exec (.vldL c f) s =
    .next (issueLine 0x00 (fun f x => .vld f.vd.toNat (x.mask f.lm) (lineEa x f)) c f s) := rfl

/-- VST.L writes lanes read at issue to its line in one port cycle. -/
theorem exec_vstL (c : CellId) (f : VecF) (s : State) : exec (.vstL c f) s =
    .next (issueLine 0x01 (fun f x => .vst (x.mask f.lm) (lineEa x f) ((List.range 64).map (x.lane f.vd.toNat))) c f s) := rfl

theorem exec_lineAccess {ctor : CellId → VecF → Instr} (h : ctor ∈ ([.vldL, .vstL] : List (CellId → VecF → Instr))) :
    ∃ func act, ∀ c f s, exec (ctor c f) s = .next (issueLine func act c f s) := by
  simp only [List.mem_cons, List.not_mem_nil, or_false] at h
  rcases h with rfl | rfl
  · exact ⟨_, _, exec_vldL⟩
  · exact ⟨_, _, exec_vstL⟩

section
variable {func : Nat} {act : VecF → Cell → PortAct} {c : Nat} {f : VecF} {s : State} (hr : CellReady s c f.en)
  (hl : f.memPlain = true) (hvb : f.vb = 0) (hfree : (s.atIssue c).vecFree ≤ s.cycle)
include hr hl hvb hfree

theorem issueLine_runs (hport : portFree (s.atIssue c) (s.cycle + 2) 1 1) (hgood : lineChecks (s.atIssue c) f = []) :
    OnlyCell s (issueLine func act c f s) c ∧ (issueLine func act c f s).cell c =
      withPort (withVecUnit ((s.atIssue c).issued s.cycle 1) s.cycle 1) (s.cycle + 2) 1 1 s.cycle (act f (s.atIssue c)) :=
  issueVec_ports hr (by simp [hl, hvb]) hfree one_ne_zero hport hgood

theorem issueLine_stops {code : Nat}
    (hcode : lowest (cause (portClash (s.atIssue c).port (s.cycle + 2) 1 1) 0x11 ++ lineChecks (s.atIssue c) f) = some code) :
    StopsCell s (issueLine func act c f s) c code :=
  issueVec_stops hr (by simp [hl, hvb]) hfree hcode

end

/-! ### Gathers and scatters -/

/-- The address of lane `l` before it wraps (Table 4.7). -/
def laneSum (x : Cell) (f : VecF) (n l : Nat) : Int := ofsAddr x f + n * (x.lane f.vb.toNat l).toNat

/-- Every selected lane's address is inside the cell store and a multiple of its size (R105). -/
def LanesGood (x : Cell) (f : VecF) (n : Nat) : Prop :=
  ∀ l, l < 64 → sel x f.lm l = true → 0 ≤ laneSum x f n l ∧ laneSum x f n l < 1572864 ∧ (n : Int) ∣ laneSum x f n l

section
variable {x : Cell} {f : VecF} {n : Nat} (hn : n ≤ 4)

theorem laneAddr_eq (l : Nat) : laneAddr x f n l = (BitVec.ofInt 64 (laneSum x f n l)).toNat := by
  rw [laneSum, ofsAddr_eq, laneAddr]

include hn

theorem laneSum_bounds (l : Nat) : -2 ^ 63 ≤ laneSum x f n l ∧ laneSum x f n l < 2 ^ 63 := by
  obtain ⟨hlo, hhi⟩ := ofsAddr_bounds x f
  have hlane : n * (x.lane f.vb.toNat l).toNat ≤ 4 * 2 ^ 32 := Nat.mul_le_mul hn (x.lane f.vb.toNat l).isLt.le
  unfold laneSum
  omega

theorem laneAddr_of_nonneg {l : Nat} (h : 0 ≤ laneSum x f n l) : laneAddr x f n l = (laneSum x f n l).toNat := by
  rw [laneAddr_eq, toNat_ofInt_of_nonneg h (laneSum_bounds hn l).2]

/-- The check of a lane's address. -/
theorem laneAddr_bad_iff (l : Nat) : (decide (csBytes ≤ laneAddr x f n l) || decide (laneAddr x f n l % n ≠ 0)) = true ↔
    ¬ (0 ≤ laneSum x f n l ∧ laneSum x f n l < 1572864 ∧ (n : Int) ∣ laneSum x f n l) := by
  obtain ⟨hlo, hhi⟩ := laneSum_bounds (x := x) (f := f) hn l
  have htop : csBytes ≤ laneAddr x f n l ↔ laneSum x f n l < 0 ∨ 1572864 ≤ laneSum x f n l := by
    rw [laneAddr_eq]
    exact csBytes_le_ofInt_iff hlo hhi
  by_cases h0 : 0 ≤ laneSum x f n l
  · have hmod : laneAddr x f n l % n = 0 ↔ (n : Int) ∣ laneSum x f n l := by
      rw [← Nat.dvd_iff_mod_eq_zero, ← Int.natCast_dvd_natCast, laneAddr_of_nonneg hn h0, Int.toNat_of_nonneg h0]
    simp only [Bool.or_eq_true, decide_eq_true_eq, htop, ne_eq, hmod, not_and_or, not_le, not_lt, or_assoc]
  · simp [htop, h0, not_le.1 h0]

theorem any_lane_bad_iff : ((selLanes (x.mask f.lm) (laneAddr x f n)).any fun e =>
    decide (csBytes ≤ e.2) || decide (e.2 % n ≠ 0)) = true ↔ ¬ LanesGood x f n := by
  rw [List.any_eq_true, LanesGood, selLanes_mask]
  simp only [List.mem_map, List.mem_filter, List.mem_range, exists_exists_and_eq_and, laneAddr_bad_iff hn]
  push Not
  simp only [and_assoc]

theorem laneChecks_good (h : LanesGood x f n) : laneChecks x f n = [] := by
  rw [laneChecks, Bool.eq_false_iff.2 fun hany => (any_lane_bad_iff hn).1 hany h]
  rfl

theorem laneChecks_bad (h : ¬ LanesGood x f n) : laneChecks x f n = [0x12] := by
  rw [laneChecks, (any_lane_bad_iff hn).2 h]
  rfl

/-- The lanes of a good access with their addresses. -/
theorem lanes_good {α : Type} (hgood : LanesGood x f n) (g : Nat → Nat → α) :
    selLanes (x.mask f.lm) (fun l => g l (laneAddr x f n l)) =
      ((List.range 64).filter (fun l => sel x f.lm l)).map (fun l => (l, g l (laneSum x f n l).toNat)) := by
  rw [selLanes_mask]
  refine List.map_congr_left fun l hl => ?_
  obtain ⟨hmem, hsel⟩ := List.mem_filter.1 hl
  rw [laneAddr_of_nonneg hn (hgood l (List.mem_range.1 hmem) hsel).1]

end

/-- What a gather or scatter of `n` bytes accesses: the selected lanes with their addresses. -/
def laneAct (n : Nat) (scatter : Bool) (f : VecF) (x : Cell) : PortAct :=
  if scatter then .scatter n (selLanes (x.mask f.lm) (fun l => (laneAddr x f n l, x.lane f.vd.toNat l)))
  else .gather n f.vd.toNat (selLanes (x.mask f.lm) (laneAddr x f n)) []

theorem laneAct_good {x : Cell} {f : VecF} {n : Nat} (hn : n ≤ 4) (hgood : LanesGood x f n) (scatter : Bool) :
    laneAct n scatter f x =
      (let lanes := (List.range 64).filter (fun l => sel x f.lm l)
       if scatter then .scatter n (lanes.map (fun l => (l, (laneSum x f n l).toNat, x.lane f.vd.toNat l)))
       else .gather n f.vd.toNat (lanes.map (fun l => (l, (laneSum x f n l).toNat))) []) := by
  cases scatter with
  | true => exact congrArg (PortAct.scatter n) (lanes_good hn hgood fun l a => (a, x.lane f.vd.toNat l))
  | false => exact congrArg (PortAct.gather n f.vd.toNat · []) (lanes_good hn hgood fun _ a => a)

/-- Gathers and scatters are accesses of four port cycles whose lane addresses are checked. -/
theorem exec_laneAccess {e : (CellId → VecF → Instr) × Nat × Bool} (h : e ∈ laneMemRows) : e.2.1 ≤ 4 ∧ ∃ func, ∀ c f s,
    exec (e.1 c f) s = .next (issueVec 0x2E func 4 4 f.memPlain (fun x => laneChecks x f e.2.1) (laneAct e.2.1 e.2.2 f)
      (fun _ y => y) c f s) := by
  simp only [laneMemRows, List.mem_cons, List.not_mem_nil, or_false] at h
  rcases h with rfl | rfl | rfl | rfl | rfl | rfl <;> exact ⟨by decide, _, fun _ _ _ => rfl⟩

/-- Settles O10: a good address takes the port cycles; a bad one, or a port cycle already taken, stops the cell. -/
theorem vectorMemoryIssue : Obligations.VectorMemoryIssue := by
  unfold Obligations.VectorMemoryIssue
  refine ⟨?_, ?_, ?_⟩
  · intro c f s hr hl hvb x hfree hport y
    refine ⟨fun ea hea hin hal => ?_, fun ctor hctor => ?_⟩
    · have hgood : lineChecks x f = [] := lineChecks_good (by omega) (by omega) (by rw [hea]; exact_mod_cast hal)
      have hEa : ea = lineEa x f := by
        have := lineEa_of_nonneg (x := x) (f := f) (by omega)
        omega
      have hmask : ∀ l, l < 64 → (x.mask f.lm).getLsbD l = sel x f.lm l := fun _ hl => x.getLsbD_mask f.lm hl
      obtain ⟨hloads, hload⟩ := issueLine_runs (func := 0x00) (act := fun f x => .vld f.vd.toNat (x.mask f.lm) (lineEa x f))
        hr hl hvb hfree hport hgood
      obtain ⟨hstores, hstore⟩ := issueLine_runs (func := 0x01)
        (act := fun f x => .vst (x.mask f.lm) (lineEa x f) ((List.range 64).map (x.lane f.vd.toNat))) hr hl hvb hfree hport hgood
      subst hEa
      exact ⟨⟨_, _, exec_vldL c f s, hloads, hmask, hload⟩, ⟨_, _, exec_vstL c f s, hstores, hmask, hstore⟩⟩
    · obtain ⟨func, act, hexec⟩ := exec_lineAccess hctor
      have hfreePort : portClash x.port (s.cycle + 2) 1 1 = false := portClash_eq_false_iff.2 hport
      have hstop {code : Nat} (hcode : lowest (lineChecks x f) = some code) :
          ∃ t, exec (ctor c f) s = .next t ∧ t.cell c = x.stopped code s.cycle :=
        ⟨_, hexec c f s, (issueLine_stops hr hl hvb hfree (by rw [hfreePort]; exact hcode)).cell⟩
      exact ⟨fun hout => hstop (lowest_lineChecks_address hout), fun h0 hin hal => hstop (lowest_lineChecks_align h0 hin hal)⟩
  · intro ctor hctor c f s hr hl hvb hfree htaken h0 hin hal
    obtain ⟨func, act, hexec⟩ := exec_lineAccess hctor
    have hclash : portClash (s.atIssue c).port (s.cycle + 2) 1 1 = true :=
      Bool.eq_true_of_not_eq_false (portClash_eq_false_iff.not.2 htaken)
    exact ⟨_, hexec c f s, (issueLine_stops hr hl hvb hfree (by rw [hclash, lineChecks_good h0 hin hal]; rfl)).cell⟩
  · intro e he c f s hr hl x a good lanes hfree hport
    obtain ⟨hn, func, hexec⟩ := exec_laneAccess he
    refine ⟨fun hgood => ?_, fun hbad => ?_⟩
    · obtain ⟨honly, hcell⟩ := issueVec_ports (opc := 0x2E) (func := func) (occ := 4) (act := laneAct e.2.1 e.2.2 f)
        (whenEn := fun x => laneChecks x f e.2.1) hr hl hfree four_ne_zero hport (laneChecks_good hn hgood)
      exact ⟨_, hexec c f s, honly, hcell.trans (congrArg _ (laneAct_good hn hgood e.2.2))⟩
    · have hfreePort : portClash x.port (s.cycle + 2) 1 4 = false := portClash_eq_false_iff.2 hport
      exact ⟨_, hexec c f s, (issueVec_stops hr hl hfree (by rw [hfreePort, laneChecks_bad hn hbad]; rfl)).cell⟩

end Sys2Proof.Machine
end

