-- ==== Sys2Proof/Proofs/VectorResults.lean ====
section
/-! PROOF. Vector instructions deliver the value of their table's row to the selected lanes of V[VD], or to G[VD] (O9). -/

namespace Sys2Proof.Machine
open Sys2Proof.Stmt

/-! ### Arithmetic of lanes -/

theorem setWidth_lane_eq_ofNat (w : Word) : w.setWidth 32 = BitVec.ofNat 32 w.toNat := (BitVec.ofNat_toNat 32 w).symm

theorem vopB_eq_laneB (x : Cell) (f : VecF) (l : Nat) : x.vopB f l = laneB x f l := by
  rw [Cell.vopB, laneB, setWidth_lane_eq_ofNat]

section
variable (a b : Lane)

theorem lane_add_eq_ofNat : a + b = BitVec.ofNat 32 (a.toNat + b.toNat) := BitVec.eq_of_toNat_eq (by simp)

theorem lane_sub_eq_ofInt : a - b = BitVec.ofInt 32 (a.toInt - b.toInt) := by
  rw [BitVec.sub_eq_add_neg, Int.sub_eq_add_neg, BitVec.ofInt_add, BitVec.ofInt_neg, BitVec.ofInt_toInt, BitVec.ofInt_toInt]

theorem lane_mul_eq_ofNat : a * b = BitVec.ofNat 32 (a.toNat * b.toNat) := BitVec.eq_of_toNat_eq (by simp)

theorem lane_and_eq_ofNat : a &&& b = BitVec.ofNat 32 (a.toNat &&& b.toNat) := by
  rw [← BitVec.toNat_and, BitVec.ofNat_toNat, BitVec.setWidth_eq]

theorem lane_or_eq_ofNat : a ||| b = BitVec.ofNat 32 (a.toNat ||| b.toNat) := by
  rw [← BitVec.toNat_or, BitVec.ofNat_toNat, BitVec.setWidth_eq]

theorem lane_xor_eq_ofNat : a ^^^ b = BitVec.ofNat 32 (a.toNat ^^^ b.toNat) := by
  rw [← BitVec.toNat_xor, BitVec.ofNat_toNat, BitVec.setWidth_eq]

theorem lane_shl_eq_ofNat (n : Nat) : a <<< n = BitVec.ofNat 32 (a.toNat * 2 ^ n) :=
  BitVec.eq_of_toNat_eq (by simp [Nat.shiftLeft_eq])

theorem lane_shr_eq_ofNat (n : Nat) : a >>> n = BitVec.ofNat 32 (a.toNat / 2 ^ n) := by
  rw [← Nat.shiftRight_eq_div_pow, ← BitVec.toNat_ushiftRight, BitVec.ofNat_toNat, BitVec.setWidth_eq]

/-- The shift amount of a lane is its low five bits, signed or not. -/
theorem lane_sar_eq_ofInt : a.sshiftRight (b.toNat % 32) = BitVec.ofInt 32 (a.toInt / 2 ^ (b.toInt % 32).toNat) := by
  have hb : (b.toInt % 32).toNat = b.toNat % 32 := by
    rw [BitVec.toInt_eq_toNat_cond]
    split <;> omega
  rw [hb, BitVec.sshiftRight, Int.shiftRight_eq_div_pow]
  norm_num

theorem lane_sle_min : (if a.sle b then a else b) = BitVec.ofInt 32 (min a.toInt b.toInt) := by
  simp only [BitVec.sle, decide_eq_true_eq, min_def]
  split <;> simp

theorem lane_sle_max : (if b.sle a then a else b) = BitVec.ofInt 32 (max a.toInt b.toInt) := by
  simp only [BitVec.sle, decide_eq_true_eq, max_comm a.toInt, max_def]
  split <;> simp

theorem lane_ule_min : (if a.ule b then a else b) = BitVec.ofNat 32 (min a.toNat b.toNat) := by
  simp only [BitVec.ule, decide_eq_true_eq, min_def]
  split <;> simp

theorem lane_ule_max : (if b.ule a then a else b) = BitVec.ofNat 32 (max a.toNat b.toNat) := by
  simp only [BitVec.ule, decide_eq_true_eq, max_comm a.toNat, max_def]
  split <;> simp

/-- The magnitude of a lane: its sign bit cleared. -/
theorem lane_abs_eq_ofNat : a &&& 0x7FFFFFFF#32 = BitVec.ofNat 32 (a.toNat % 2 ^ 31) := by
  rw [lane_and_eq_ofNat, ← Nat.and_two_pow_sub_one_eq_mod]
  rfl

/-- A lane with its sign bit turned. -/
theorem lane_neg_eq_ofNat : a ^^^ 0x80000000#32 = BitVec.ofNat 32 (a.toNat + 2 ^ 31) := by
  refine BitVec.eq_of_getLsbD_eq fun i hi => ?_
  rw [BitVec.getLsbD_xor, show 0x80000000#32 = BitVec.intMin 32 from rfl, BitVec.getLsbD_intMin, BitVec.getLsbD_ofNat, Nat.add_comm a.toNat,
    decide_eq_true hi, Bool.true_and]
  rcases Nat.lt_or_eq_of_le (Nat.lt_succ_iff.1 hi) with h | rfl
  · rw [Nat.testBit_two_pow_add_gt h, decide_eq_false (by omega), Bool.xor_false, BitVec.getLsbD]
  · rw [Nat.testBit_two_pow_add_eq, decide_eq_true rfl, Bool.xor_true, BitVec.getLsbD]

end

/-! ### Rows that write lanes -/

/-- The row delivers its value to the selected lanes of V[VD] at its latency. -/
def DeliversLanes (e : LaneRow) : Prop :=
  ∀ (c : CellId) (f : VecF) (s : State), CellReady s c f.en → e.legal f = true → (s.atIssue c).vecFree ≤ s.cycle →
    ∃ t, exec (e.ctor c f) s = .next t ∧ OnlyCell s t c ∧
      t.cell c = withResult { (s.atIssue c).issued s.cycle 1 with vecFree := s.cycle + e.occ, vecEn := true } s.cycle e.lat
        (.v f.vd.toNat (lanesOf (s.atIssue c) f.lm (e.val s c (s.atIssue c) f)))

section
variable {e : LaneRow} {opc func : Nat}

/-- An instruction over lanes delivers its row, whatever events it counts besides. -/
theorem deliversLanes_of_counted {val : State → CellId → Cell → VecF → Nat → Lane}
    (hexec : ∀ c f s, ∃ t, exec (e.ctor c f) s = .next t ∧
      Counted (issueLanes opc func e.occ e.lat (e.legal f) (fun x l => val s c x f l) c f s) t)
    (hval : ∀ s c x f l, l < 64 → val s c x f l = e.val s c x f l) : DeliversLanes e := by
  intro c f s hr hl hfree
  obtain ⟨t, hnext, hcount⟩ := hexec c f s
  obtain ⟨honly, hcell⟩ := issueVec_effect (opc := opc) (func := func) (occ := e.occ) (effect := fun x y =>
    y.result s.cycle e.lat (.v f.vd.toNat (selLanes (x.mask f.lm) (fun l => val s c x f l)))) hr hl hfree
  refine ⟨t, hnext, honly.trans (hcount.onlyCell c), (hcount.cell c).trans (hcell.trans ?_)⟩
  dsimp only
  rw [selLanes_eq_lanesOf (hval s c (s.atIssue c) f)]
  rfl

theorem deliversLanes_of {val : Cell → VecF → Nat → Lane}
    (hexec : ∀ c f s, exec (e.ctor c f) s = .next (issueLanes opc func e.occ e.lat (e.legal f) (fun x l => val x f l) c f s))
    (hval : ∀ s c x f l, l < 64 → val x f l = e.val s c x f l) : DeliversLanes e :=
  deliversLanes_of_counted (val := fun _ _ => val) (fun c f s => ⟨_, hexec c f s, .refl _⟩) hval

/-- An arithmetic row whose operation is the table's (Table 4.4). -/
theorem deliversLanes_of_arith {op : Lane → Lane → Lane → Lane} (hocc : e.occ = 1)
    (hexec : ∀ c f s, exec (e.ctor c f) s = .next (issueArith opc func e.lat (e.legal f) op c f s))
    (hval : ∀ s c x f l, e.val s c x f l = op (x.lane f.va.toNat l) (laneB x f l) (x.lane f.vc.toNat l)) : DeliversLanes e := by
  refine deliversLanes_of (opc := opc) (func := func)
    (val := fun x f l => op (x.lane f.va.toNat l) (x.vopB f l) (x.lane f.vc.toNat l)) (fun c f s => ?_) (fun s c x f l _ => ?_)
  · rw [hocc]
    exact hexec c f s
  · rw [vopB_eq_laneB, hval]

end

/-- Tables 4.4 and 4.9. -/
theorem laneRows_deliver : ∀ e ∈ laneRows, DeliversLanes e := by
  simp only [laneRows, List.forall_mem_cons]
  refine ⟨?_, ?_, ?_, ?_, ?_, ?_, ?_, ?_, ?_, ?_, ?_, ?_, ?_, ?_, ?_, ?_, ?_, ?_, ?_, ?_, ?_, ?_, ?_, ?_, ?_, ?_, ?_, ?_, ?_, ?_,
    fun _ h => absurd h List.not_mem_nil⟩
  · exact deliversLanes_of_arith rfl (fun _ _ _ => rfl) (fun _ _ _ _ _ => rfl)
  · refine deliversLanes_of_arith rfl (fun _ _ _ => rfl) (fun _ _ _ _ _ => ?_)
    simp [nat2, onNat2]
  iterate 4 exact deliversLanes_of_arith rfl (fun _ _ _ => rfl) (fun _ _ _ _ _ => rfl)
  · exact deliversLanes_of_arith rfl (fun _ _ _ => rfl) (fun _ _ _ _ _ => (lane_abs_eq_ofNat _).symm)
  · exact deliversLanes_of_arith rfl (fun _ _ _ => rfl) (fun _ _ _ _ _ => (lane_neg_eq_ofNat _).symm)
  · exact deliversLanes_of_arith rfl (fun _ _ _ => rfl) (fun _ _ _ _ _ => (lane_add_eq_ofNat ..).symm)
  · exact deliversLanes_of_arith rfl (fun _ _ _ => rfl) (fun _ _ _ _ _ => (lane_sub_eq_ofInt ..).symm)
  · exact deliversLanes_of_arith rfl (fun _ _ _ => rfl) (fun _ _ _ _ _ => (lane_mul_eq_ofNat ..).symm)
  · exact deliversLanes_of_arith rfl (fun _ _ _ => rfl) (fun _ _ _ _ _ => (lane_and_eq_ofNat ..).symm)
  · exact deliversLanes_of_arith rfl (fun _ _ _ => rfl) (fun _ _ _ _ _ => (lane_or_eq_ofNat ..).symm)
  · exact deliversLanes_of_arith rfl (fun _ _ _ => rfl) (fun _ _ _ _ _ => (lane_xor_eq_ofNat ..).symm)
  · exact deliversLanes_of_arith rfl (fun _ _ _ => rfl) (fun _ _ _ _ _ => (lane_shl_eq_ofNat ..).symm)
  · exact deliversLanes_of_arith rfl (fun _ _ _ => rfl) (fun _ _ _ _ _ => (lane_shr_eq_ofNat ..).symm)
  · exact deliversLanes_of_arith rfl (fun _ _ _ => rfl) (fun _ _ _ _ _ => (lane_sar_eq_ofInt ..).symm)
  · exact deliversLanes_of_arith rfl (fun _ _ _ => rfl) (fun _ _ _ _ _ => (lane_sle_min ..).symm)
  · exact deliversLanes_of_arith rfl (fun _ _ _ => rfl) (fun _ _ _ _ _ => (lane_sle_max ..).symm)
  · exact deliversLanes_of_arith rfl (fun _ _ _ => rfl) (fun _ _ _ _ _ => (lane_ule_min ..).symm)
  · exact deliversLanes_of_arith rfl (fun _ _ _ => rfl) (fun _ _ _ _ _ => (lane_ule_max ..).symm)
  iterate 6 exact deliversLanes_of (fun _ _ _ => rfl) (fun _ _ _ _ _ _ => rfl)
  · exact deliversLanes_of (fun _ _ _ => rfl) (fun _ _ x f _ _ => setWidth_lane_eq_ofNat (x.readG f.va.toNat))
  iterate 2 exact deliversLanes_of (fun _ _ _ => rfl) (fun _ _ _ _ _ _ => rfl)

/-! ### Conversions -/

/-- Field `q` of width `w` taken out of a lane. -/
theorem sub_bits_eq (old q w : Nat) : old - bits old (w * q) w * 2 ^ (w * q) =
    old % 2 ^ (w * q) + old / 2 ^ (w * q + w) * 2 ^ (w * q + w) := by
  have h1 : old / 2 ^ (w * q) * 2 ^ (w * q) + old % 2 ^ (w * q) = old := Nat.div_add_mod' ..
  have h2 : old / 2 ^ (w * q) / 2 ^ w * 2 ^ w + old / 2 ^ (w * q) % 2 ^ w = old / 2 ^ (w * q) := Nat.div_add_mod' ..
  rw [bits, Nat.pow_add, ← Nat.div_div_eq_div_mul]
  refine Nat.sub_eq_of_eq_add ?_
  calc old = (old / 2 ^ (w * q) / 2 ^ w * 2 ^ w + old / 2 ^ (w * q) % 2 ^ w) * 2 ^ (w * q) + old % 2 ^ (w * q) := by rw [h2, h1]
    _ = _ := by ring

/-- The pack of a row of Table 4.8, for each format. -/
theorem exec_pack {e : (CellId → VecF → Instr) × (CellId → VecF → Instr) × Fmt × Nat} (h : e ∈ packRows) :
    laneField e.2.2.1 = e.2.2.2 ∧ ∃ func, ∀ c f s, exec (e.1 c f) s = .next (issuePack func e.2.2.1 c f s) := by
  simp only [packRows, List.mem_cons, List.not_mem_nil, or_false] at h
  rcases h with rfl | rfl | rfl | rfl | rfl | rfl | rfl | rfl | rfl <;> exact ⟨rfl, _, fun _ _ _ => rfl⟩

/-- The unpack of a row of Table 4.8: of a float format, or by sign extension of an integer field. -/
theorem exec_unpack {e : (CellId → VecF → Instr) × (CellId → VecF → Instr) × Fmt × Nat} (h : e ∈ packRows) :
    (∃ t func, e.2.2.1 = .flt t ∧ laneField (.flt t) = e.2.2.2 ∧
      ∀ c f s, exec (e.2.1 c f) s = .next (issueUnpack func (.flt t) c f s)) ∨
    ∃ w func, e.2.2.1 = .int w ∧ e.2.2.2 = w ∧ 0 < w ∧ ∀ c f s, exec (e.2.1 c f) s = .next (issueUnpackInt func w c f s) := by
  simp only [packRows, List.mem_cons, List.not_mem_nil, or_false] at h
  rcases h with rfl | rfl | rfl | rfl | rfl | rfl | rfl | rfl | rfl
  iterate 7 exact .inl ⟨_, _, rfl, rfl, fun _ _ _ => rfl⟩
  iterate 2 exact .inr ⟨_, _, rfl, rfl, by decide, fun _ _ _ => rfl⟩

/-- Table 4.8. -/
theorem cvtRows_deliver : ∀ e ∈ cvtRows, DeliversLanes e := by
  simp only [cvtRows, List.forall_mem_append, List.forall_mem_map, List.forall_mem_cons]
  refine ⟨⟨fun e he => ?_, fun e he => ?_⟩, ?_, ?_, ?_, fun _ h => absurd h List.not_mem_nil⟩
  · obtain ⟨hw, func, hexec⟩ := exec_pack he
    refine deliversLanes_of_counted (opc := 0x2F) (func := func) (val := fun s c x f l =>
      let old := (x.lane f.vd.toNat l).toNat
      let v := cvt (x.lane f.va.toNat l).toNat F32 e.2.2.1 f.rm.toNat f.sat (vecBits s c l f.q)
      BitVec.ofNat 32 (old - bits old (e.2.2.2 * f.q) e.2.2.2 * 2 ^ (e.2.2.2 * f.q) + v * 2 ^ (e.2.2.2 * f.q)))
      (fun c f s => ⟨_, hexec c f s, ?_⟩) (fun s c x f l _ => ?_)
    · rw [← hw]
      exact countStoch_counted ..
    · dsimp only
      rw [sub_bits_eq, Nat.add_right_comm]
      rfl
  · rcases exec_unpack he with ⟨t, func, hfmt, hw, hexec⟩ | ⟨w, func, hfmt, hw, hpos, hexec⟩
    · refine deliversLanes_of (opc := 0x2F) (func := func) (val := fun x f l =>
        BitVec.ofNat 32 (cvt (bits (x.lane f.va.toNat l).toNat (e.2.2.2 * f.q) (Fmt.flt t).width) (.flt t) F32 0 false 0))
        (fun c f s => ?_) (fun s c x f l _ => ?_)
      · rw [← hw]
        exact hexec c f s
      · dsimp only
        rw [hfmt]
        rfl
    · refine deliversLanes_of (opc := 0x2F) (func := func) (val := fun x f l =>
        BitVec.ofInt 32 (signedN (bits (x.lane f.va.toNat l).toNat (w * f.q) w) w)) (fun c f s => ?_) (fun s c x f l _ => ?_)
      · rw [hw]
        exact hexec c f s
      · dsimp only
        rw [hfmt, hw, bits, signedN_of_pos _ hpos, Nat.mod_mod]
        push_cast
        rfl
  iterate 2 exact deliversLanes_of_counted (fun _ _ _ => ⟨_, rfl, countStoch_counted ..⟩) (fun _ _ _ _ _ _ => rfl)
  · refine deliversLanes_of_counted (fun _ _ _ => ⟨_, rfl, countStoch_counted ..⟩) (fun s c x f l hl => ?_)
    have hbyte : 8 * (l / 32) = if l < 32 then 0 else 8 := by
      split <;> omega
    dsimp only
    rw [bits, hbyte]
    rfl

/-! ### Rows that write a scalar register -/

theorem laneWord_eq_bitWord {p q : Nat → Bool} (h : ∀ l, l < 64 → p l = q l) : laneWord p = BitVec.ofNat 64 (bitWord q) := by
  rw [laneWord, bitWord, List.sum_eq_foldl, List.foldl_map]
  congr 1
  refine List.foldl_ext _ _ _ fun acc l hl => ?_
  rw [h l (List.mem_range.1 hl)]
  cases q l <;> simp [b2n]

/-- The row delivers its value to G[VD] at its latency. -/
def DeliversG (e : (CellId → VecF → Instr) × Nat × (VecF → Bool) × (Cell → VecF → Nat)) : Prop :=
  ∀ (c : CellId) (f : VecF) (s : State), CellReady s c f.en → e.2.2.1 f = true → (s.atIssue c).vecFree ≤ s.cycle →
    ∃ t, exec (e.1 c f) s = .next t ∧ OnlyCell s t c ∧
      t.cell c = withResult { (s.atIssue c).issued s.cycle 1 with vecFree := s.cycle + 1, vecEn := true } s.cycle e.2.1
        (.g f.vd.toNat (BitVec.ofNat 64 (e.2.2.2 (s.atIssue c) f)))

section
variable {e : (CellId → VecF → Instr) × Nat × (VecF → Bool) × (Cell → VecF → Nat)} {func : Nat}

theorem deliversG_of {opc : Nat} {val : Cell → VecF → Word}
    (hexec : ∀ c f s, exec (e.1 c f) s = .next (issueToG opc func e.2.1 (e.2.2.1 f) (fun x => val x f) c f s))
    (hval : ∀ x f, val x f = BitVec.ofNat 64 (e.2.2.2 x f)) : DeliversG e := by
  intro c f s hr hl hfree
  obtain ⟨honly, hcell⟩ := issueVec_effect (opc := opc) (func := func) (occ := 1) (effect := fun x y =>
    y.result s.cycle e.2.1 (.g f.vd.toNat (val x f))) hr hl hfree
  refine ⟨_, hexec c f s, honly, hcell.trans ?_⟩
  dsimp only
  rw [hval]
  rfl

/-- A compare: a bit for each selected lane whose relation holds. -/
theorem deliversG_of_compare {rel : Lane → Lane → Bool} (hlat : e.2.1 = 2) (hlegal : e.2.2.1 = VecF.noCBc)
    (hexec : ∀ c f s, exec (e.1 c f) s = .next (issueCmpV func rel c f s))
    (hval : ∀ x f, e.2.2.2 x f =
      bitWord (fun l => sel x f.lm l && rel (x.lane f.va.toNat l) (x.lane f.vb.toNat l))) : DeliversG e := by
  refine deliversG_of (opc := 0x2B) (func := func) (val := fun x f =>
    laneWord (fun l => (x.mask f.lm).getLsbD l && rel (x.lane f.va.toNat l) (x.lane f.vb.toNat l))) (fun c f s => ?_) (fun x f => ?_)
  · rw [hlat, hlegal]
    exact hexec c f s
  · rw [hval]
    exact laneWord_eq_bitWord fun l hl => by rw [x.getLsbD_mask f.lm hl]

/-- A reduction: the tree over 64 lanes, with the identity in those not selected. -/
theorem deliversG_of_reduction {op : Nat → Nat → Nat} {ident : Nat} (hlat : e.2.1 = 6) (hlegal : e.2.2.1 = VecF.noBC)
    (hexec : ∀ c f s, exec (e.1 c f) s = .next (issueReduce func op ident c f s))
    (hval : ∀ x f, e.2.2.2 x f =
      tree64 op ((List.range 64).map (fun l => if sel x f.lm l then (x.lane f.va.toNat l).toNat else ident))) : DeliversG e := by
  refine deliversG_of (opc := 0x2C) (func := func) (val := fun x f => BitVec.ofNat 64 (tree64 op ((List.range 64).map (fun l =>
    if (x.mask f.lm).getLsbD l then (x.lane f.va.toNat l).toNat else ident)))) (fun c f s => ?_) (fun x f => ?_)
  · rw [hlat, hlegal]
    exact hexec c f s
  · rw [hval]
    refine congrArg (fun ls => BitVec.ofNat 64 (tree64 op ls)) (List.map_congr_left fun l hl => ?_)
    rw [x.getLsbD_mask f.lm (List.mem_range.1 hl)]

end

/-- Table 4.5 and VEXT.B32. -/
theorem toGRows_deliver : ∀ e ∈ toGRows, DeliversG e := by
  simp only [toGRows, List.forall_mem_cons]
  refine ⟨?_, ?_, ?_, ?_, ?_, ?_, ?_, ?_, ?_, ?_, ?_, ?_, ?_, ?_, ?_, ?_, ?_, ?_, ?_, fun _ h => absurd h List.not_mem_nil⟩
  iterate 8 exact deliversG_of_compare rfl rfl (fun _ _ _ => rfl) (fun _ _ => rfl)
  iterate 4 exact deliversG_of_reduction rfl rfl (fun _ _ _ => rfl) (fun _ _ => rfl)
  iterate 6 exact deliversG_of (fun _ _ _ => rfl) (fun _ _ => rfl)
  · exact deliversG_of (fun _ _ _ => rfl) (fun _ _ => (BitVec.ofNat_toNat ..).symm)

/-! ### One lane written -/

/-- VINS.B32 writes lane G[VB] mod 64, when LM selects it (Table 4.9). -/
theorem exec_vinsB32 {c : CellId} {f : VecF} {s : State} (hr : CellReady s c f.en) (hl : f.noCBc = true)
    (hfree : (s.atIssue c).vecFree ≤ s.cycle) {l : Nat} (hlane : l = ((s.atIssue c).readG f.vb.toNat).toNat % 64) :
    ∃ t, exec (.vinsB32 c f) s = .next t ∧ OnlyCell s t c ∧
      t.cell c = if sel (s.atIssue c) f.lm l then
          withResult (withVecUnit ((s.atIssue c).issued s.cycle 1) s.cycle 1) s.cycle 2
            (.v f.vd.toNat [(l, BitVec.ofNat 32 ((s.atIssue c).readG f.va.toNat).toNat)])
        else withVecUnit ((s.atIssue c).issued s.cycle 1) s.cycle 1 := by
  subst hlane
  obtain ⟨honly, hcell⟩ := issueVec_effect (opc := 0x30) (func := 0x04) (occ := 1) (effect := fun x y =>
    let l := (x.readG f.vb.toNat).toNat % 64
    if (x.mask f.lm).getLsbD l then y.result s.cycle 2 (.v f.vd.toNat [(l, (x.readG f.va.toNat).setWidth 32)]) else y) hr hl hfree
  refine ⟨_, rfl, honly, hcell.trans ?_⟩
  dsimp only
  rw [Cell.getLsbD_mask _ _ (Nat.mod_lt _ (by decide)), setWidth_lane_eq_ofNat]
  rfl

/-- Settles O9: every row of the tables delivers its value; VINS.B32 delivers one lane. -/
theorem vectorResults : Obligations.VectorResults := by
  unfold Obligations.VectorResults
  refine ⟨⟨?_, fun c f s hr hl hfree => exec_vinsB32 hr hl hfree rfl⟩, toGRows_deliver⟩
  exact List.forall_mem_append.2 ⟨laneRows_deliver, cvtRows_deliver⟩

end Sys2Proof.Machine
end

