-- ==== Sys2Proof/Proofs/MatrixIssue.lean ====
section
/-! PROOF. Matrix instructions at issue: on free engines, with free port cycles and lines inside the cell store, each holds its engine
and its port cycles and takes its operands (O12). -/

namespace Sys2Proof.Machine
open Sys2Proof.Stmt

/-! ### No cause at issue -/

/-- A legal word meets no cause on a free engine with free port cycles (R69, R83, R157). -/
theorem engineCauses_eq_nil {legal : Bool} {x : Cell} {free now start step count : Nat} (hl : legal = true) (hfree : free ≤ now)
    (hport : portFree x start step count) :
    cause (!legal) 0x01 ++ cause (decide (now < free)) 0x04 ++ cause (portClash x.port start step count) 0x11 = [] := by
  simp [hl, Nat.not_lt.2 hfree, portClash_eq_false_iff.2 hport]

/-- Lines inside the cell store from a line address meet no MTX_ADDRESS (R147). -/
theorem mtxChecks_eq_nil {x : Cell} {ag : BitVec 4} {n : Nat} (h : linesFit x ag n) : mtxChecks (x.agen ag.toNat) n = [] := by
  obtain ⟨hal, hin⟩ := h
  simp [mtxChecks, csBytes, Nat.mod_eq_zero_of_dvd hal, Nat.not_lt.2 hin]

/-- A buffer that the other engine is not using meets no WBUF_BUSY (R158). -/
theorem wbufBusy_eq_nil {free now : Nat} {buf wb : Bool} (h : free ≤ now ∨ buf ≠ wb) :
    cause (decide (now < free) && buf == wb) 0x21 = [] := by
  rcases h with h | h
  · rw [decide_eq_false (Nat.not_lt.2 h), Bool.false_and, cause_false]
  · rw [beq_false_of_ne h, Bool.and_false, cause_false]

/-- A buffer whose tag is the tile's format meets no WBUF_FORMAT (R159). -/
theorem wbufFormat_eq_nil {x : Cell} {b : Bool} {tag : Tag} (h : (x.wbuf b).tag = some tag) :
    cause (decide ((x.wbuf b).tag ≠ some tag)) 0x22 = [] := by
  rw [decide_eq_false (not_not.2 h), cause_false]

theorem signedN_toNat_eq_toInt (v : Word) : signedN v.toNat 8 = (BitVec.setWidth 8 v).toInt := by
  rw [signedN_of_pos _ (by decide), BitVec.toInt_eq_toNat_cond, BitVec.toNat_setWidth]
  split <;> split <;> omega

/-- The lines of `rows` rows of partials, a multiple of four (R153, R155). -/
theorem partialLines_eq {f : MaccF} (h : f.legal = true) : 33 * (f.rows.toNat + 1) / 4 = 33 * ((f.rows.toNat + 1) / 4) := by
  simp only [MaccF.legal, Bool.and_eq_true, beq_iff_eq] at h
  obtain ⟨-, hrows⟩ := h
  omega

/-! ### Issue on a free accumulator engine -/

/-- The cell with the accumulator engine occupied for the `n` lines of an output or a MADDX. -/
def withAccEngine (x : Cell) (now n : Nat) : Cell := { x with accFree := now + 2 * n, accEn := true }

/-- What an instruction that moves `n` lines issues. -/
def accIssue (now n first : Nat) (e : En) (legal : Bool) (ag : Nat) (act : Nat → PortAct) (add : Cell → Cell → Cell)
    (x : Cell) : Issue :=
  { always := cause (!legal) 0x01 ++ cause (decide (now < x.accFree)) 0x04 ++ cause (portClash x.port (now + first) 2 n) 0x11
    whenEn := mtxChecks (x.agen ag) n
    slots := 1
    hold := fun y => { y with
      accFree := now + 2 * n, accEn := x.enabled e, port := x.port ++ [mkPort (now + first) 2 n now .idle] }
    effect := fun y => add x { y with port := x.port ++ [mkPort (now + first) 2 n now (act (x.agen ag).addr.toNat)] } }

theorem issueAcc_eq (c : Nat) (e : En) (word : Word) (legal : Bool) (ag n first : Nat) (act : Nat → PortAct)
    (add : Cell → Cell → Cell) (s : State) :
    issueAcc c e word legal ag n first act add s = issue c e word (accIssue s.cycle n first e legal ag act add) s := rfl

/-- An instruction that moves `n` lines takes the accumulator engine and `n` port cycles from t + `first` (Table 6.10). -/
theorem issueAcc_runs {c : Nat} {e : En} {word : Word} {legal : Bool} {ag : BitVec 4} {n first : Nat} {act : Nat → PortAct}
    {add : Cell → Cell → Cell} {s : State} (hr : CellReady s c e) (hl : legal = true) (hfree : (s.atIssue c).accFree ≤ s.cycle)
    (hport : portFree (s.atIssue c) (s.cycle + first) 2 n) (hfit : linesFit (s.atIssue c) ag n) :
    OnlyCell s (issueAcc c e word legal ag.toNat n first act add s) c ∧
    (issueAcc c e word legal ag.toNat n first act add s).cell c = add (s.atIssue c)
      (withPort (withAccEngine ((s.atIssue c).issued s.cycle 1) s.cycle n) (s.cycle + first) 2 n s.cycle
        (act ((s.atIssue c).agen ag.toNat).addr.toNat)) := by
  obtain ⟨t, heq, honly, hcell⟩ := issue_runs (word := word) (f := accIssue s.cycle n first e legal ag.toNat act add) hr
    (engineCauses_eq_nil hl hfree hport) (mtxChecks_eq_nil hfit)
  obtain ⟨-, -, hen, -⟩ := hr
  rw [issueAcc_eq, heq]
  refine ⟨honly, hcell.trans ?_⟩
  simp only [accIssue, hen]
  rfl

/-! ### Issue of each instruction -/

/-- An instruction that meets no cause answers the state in which it has run. -/
theorem issue_next {out : Out} {c : Nat} {e : En} {word : Word} {f : Cell → Issue} {s : State} (hout : out = ok (issue c e word f s))
    (hr : CellReady s c e) (ha : (f (s.atIssue c)).always = []) (hw : (f (s.atIssue c)).whenEn = []) :
    ∃ t, out = .next t ∧ OnlyCell s t c ∧
      t.cell c = (f (s.atIssue c)).effect ((f (s.atIssue c)).hold ((s.atIssue c).issued s.cycle (f (s.atIssue c)).slots)) := by
  obtain ⟨t, heq, hrest⟩ := issue_runs (word := word) hr ha hw
  exact ⟨t, hout.trans (congrArg ok heq), hrest⟩

/-- Settles O12: no instruction meets a cause, so each leaves its cell as its row of Table 6.10 says. -/
theorem matrixIssue : Obligations.MatrixIssue := by
  unfold Obligations.MatrixIssue
  refine ⟨?_, ?_, ?_, ?_, ?_⟩
  · intro c f s hr hl x n a hfree hport hfit hbuf
    obtain ⟨t, heq, honly, hcell⟩ := issue_next (out := exec (.mlw c f) s) rfl hr (engineCauses_eq_nil hl hfree hport)
      (List.append_eq_nil_iff.2 ⟨mtxChecks_eq_nil hfit, wbufBusy_eq_nil hbuf⟩)
    refine ⟨t, heq, honly, hcell.trans ?_⟩
    obtain ⟨-, -, hen, -⟩ := hr
    dsimp only
    rw [hen]
    cases f.wb <;> rfl
  · intro c f ecc s hr hl x rows n per step w hfree hport hfit hbuf htag
    obtain ⟨t, heq, honly, hcell⟩ := issue_next (out := exec (.mma c f ecc) s) rfl hr (engineCauses_eq_nil hl hfree hport)
      (List.append_eq_nil_iff.2 ⟨List.append_eq_nil_iff.2 ⟨mtxChecks_eq_nil hfit, wbufBusy_eq_nil hbuf⟩, wbufFormat_eq_nil htag⟩)
    refine ⟨t, heq, honly, hcell.trans ?_⟩
    obtain ⟨-, -, hen, -⟩ := hr
    dsimp only
    rw [hen]
    rfl
  · intro c f s hr hl x n hfree hport hfit
    obtain ⟨honly, hcell⟩ := issueAcc_runs hr hl hfree hport hfit
    refine ⟨_, rfl, honly, hcell.trans ?_⟩
    rw [signedN_toNat_eq_toInt]
    rfl
  · intro c f s hr hl x n hfree hfit
    have hn : 33 * (f.rows.toNat + 1) / 4 = n := partialLines_eq hl
    clear_value n
    subst hn
    exact ⟨fun hport => ⟨_, rfl, issueAcc_runs hr hl hfree hport hfit⟩,
      fun hport => ⟨_, rfl, issueAcc_runs hr hl hfree hport hfit⟩⟩
  · intro c f s hr hl hfree
    obtain ⟨t, heq, honly, hcell⟩ := issue_next (out := exec (.mclrX128 c f) s) rfl hr (by simp [hl, Nat.not_lt.2 hfree]) rfl
    refine ⟨t, heq, honly, hcell.trans ?_⟩
    obtain ⟨-, -, hen, -⟩ := hr
    dsimp only
    rw [hen]
    rfl

end Sys2Proof.Machine
end

