-- ==== Sys2Proof/Proofs/MatrixStores.lean ====
section
/-! SUPPORT. The stores of the matrix units: weight buffers, accumulator rows and runs of lines read back after their writes, and the
queue of the operation whose turn has come (R148, R153, R154, R156). -/

namespace Sys2Proof.Machine

/-! ### Runs of writes -/

section
variable {σ α β : Type} {g : σ → β} {f : σ → α → σ} {l : List α}

/-- A run none of whose writes touches what `g` shows keeps it. -/
theorem foldl_keeps_of_forall_mem (h : ∀ a ∈ l, ∀ s, g (f s a) = g s) (s : σ) : g (l.foldl f s) = g s :=
  List.foldlRecOn l f (motive := fun t => g t = g s) rfl fun t ht a ha => (h a ha t).trans ht

/-- A run whose writes to what `g` shows all write `v` leaves `v` there. -/
theorem foldl_eq_of_writers_agree {v : β} (hit : α → Prop) [DecidablePred hit] (hhit : ∀ a ∈ l, hit a → ∀ s, g (f s a) = v)
    (hmiss : ∀ a, ¬ hit a → ∀ s, g (f s a) = g s) (hex : ∃ a ∈ l, hit a) (s : σ) : g (l.foldl f s) = v := by
  induction l using List.reverseRecOn with
  | nil => simp at hex
  | append_singleton l a ih =>
    rw [List.foldl_append, List.foldl_cons, List.foldl_nil]
    by_cases ha : hit a
    · exact hhit a (by simp) ha _
    · rw [hmiss a ha]
      refine ih (fun b hb => hhit b (by simp [hb])) ?_
      obtain ⟨b, hb, hbhit⟩ := hex
      rcases List.mem_append.1 hb with hb | hb
      · exact ⟨b, hb, hbhit⟩
      · exact absurd (List.mem_singleton.1 hb ▸ hbhit) ha

end

/-! ### Weight buffers -/

theorem Cell.wbuf_setWbuf (x : Cell) (b b' : Bool) (w : WBuf) : (x.setWbuf b w).wbuf b' = if b' = b then w else x.wbuf b' := by
  cases b <;> cases b' <;> rfl

/-- The cell apart from its weight buffers. -/
def Cell.sansBufs (x : Cell) : Cell := { x with wb0 := {}, wb1 := {} }

theorem Cell.setWbuf_sansBufs (x : Cell) (b : Bool) (w : WBuf) : (x.setWbuf b w).sansBufs = x.sansBufs := by
  cases b <;> rfl

theorem Cell.eq_of_sansBufs_eq {x y : Cell} (h : y.sansBufs = x.sansBufs) : y = { x with wb0 := y.wb0, wb1 := y.wb1 } :=
  congrArg (fun z : Cell => { z with wb0 := y.wb0, wb1 := y.wb1 }) h

/-- The cell with a due line in its buffer. -/
def Cell.writeLine (x : Cell) (w : WLine) : Cell :=
  x.setWbuf w.wb { x.wbuf w.wb with lines := put 0#2048 (x.wbuf w.wb).lines w.j w.line }

/-- The cell with a due tag on its buffer. -/
def Cell.writeTag (x : Cell) (w : TagSet) : Cell := x.setWbuf w.wb { x.wbuf w.wb with tag := some w.tag }

theorem Cell.writeLine_tag (x : Cell) (w : WLine) (b : Bool) : ((x.writeLine w).wbuf b).tag = (x.wbuf b).tag := by
  rw [Cell.writeLine, Cell.wbuf_setWbuf]
  split
  · subst b
    rfl
  · rfl

theorem Cell.writeLine_line (x : Cell) (w : WLine) (b : Bool) (j : Nat) : look 0#2048 ((x.writeLine w).wbuf b).lines j =
    if w.wb = b ∧ w.j = j then w.line else look 0#2048 (x.wbuf b).lines j := by
  rw [Cell.writeLine, Cell.wbuf_setWbuf]
  by_cases hb : b = w.wb
  · subst hb
    simp only [if_true, look_put, true_and, eq_comm]
  · rw [if_neg hb, if_neg fun h => hb h.1.symm]

theorem Cell.writeTag_lines (x : Cell) (w : TagSet) (b : Bool) : ((x.writeTag w).wbuf b).lines = (x.wbuf b).lines := by
  rw [Cell.writeTag, Cell.wbuf_setWbuf]
  split
  · subst b
    rfl
  · rfl

theorem Cell.writeTag_tag (x : Cell) (w : TagSet) (b : Bool) :
    ((x.writeTag w).wbuf b).tag = if w.wb = b then some w.tag else (x.wbuf b).tag := by
  rw [Cell.writeTag, Cell.wbuf_setWbuf]
  by_cases hb : b = w.wb
  · subst hb
    simp only [if_true]
  · rw [if_neg hb, if_neg (Ne.symm hb)]

/-! ### Accumulator rows -/

/-- Every entry of row `row` through `f` of its column. -/
def updRow (acc : SMap AccEntry) (row : Nat) (f : Nat → AccEntry → AccEntry) : SMap AccEntry :=
  (List.range 128).foldl (fun m n => upd {} m (128 * row + n) (f n)) acc

theorem look_foldl_upd_from {α : Type} [DecidableEq α] (d : α) (m : SMap α) (base : Nat) (f : Nat → α → α) (k j : Nat) :
    look d ((List.range k).foldl (fun m i => upd d m (base + i) (f i)) m) j =
      if base ≤ j ∧ j < base + k then f (j - base) (look d m j) else look d m j := by
  induction k with
  | zero => simp
  | succ k ih =>
    rw [List.range_succ, List.foldl_append, List.foldl_cons, List.foldl_nil]
    by_cases hj : j = base + k
    · subst hj
      rw [look_upd_same, ih, if_neg (by omega), if_pos (by omega), Nat.add_sub_cancel_left]
    · rw [look_upd_ne _ _ _ hj, ih]
      simp only [show (base ≤ j ∧ j < base + (k + 1)) ↔ (base ≤ j ∧ j < base + k) by omega]

section
variable {acc : SMap AccEntry} {r n : Nat} (hn : n < 128)
include hn

theorem look_updRow (row : Nat) (f : Nat → AccEntry → AccEntry) : look {} (updRow acc row f) (128 * r + n) =
    if r = row then f n (look {} acc (128 * r + n)) else look {} acc (128 * r + n) := by
  rw [updRow, look_foldl_upd_from]
  by_cases hr : r = row
  · subst hr
    rw [if_pos (by omega), if_pos rfl, Nat.add_sub_cancel_left]
  · rw [if_neg (by omega), if_neg hr]

/-- Rows from `row` on, each through its own function. -/
theorem look_updRows (row : Nat) (f : Nat → Nat → AccEntry → AccEntry) (k : Nat) :
    look {} ((List.range k).foldl (fun m i => updRow m (row + i) (f i)) acc) (128 * r + n) =
      if row ≤ r ∧ r < row + k then f (r - row) n (look {} acc (128 * r + n)) else look {} acc (128 * r + n) := by
  induction k with
  | zero => simp
  | succ k ih =>
    rw [List.range_succ, List.foldl_append, List.foldl_cons, List.foldl_nil, look_updRow hn, ih]
    by_cases hr : r = row + k
    · subst hr
      rw [if_pos rfl, if_neg (by omega), if_pos (by omega), Nat.add_sub_cancel_left]
    · rw [if_neg hr]
      simp only [show (row ≤ r ∧ r < row + (k + 1)) ↔ (row ≤ r ∧ r < row + k) by omega]

theorem look_zeroRows (row rows : Nat) : look ({} : AccEntry) (zeroRows acc row rows) (128 * r + n) =
    if row ≤ r ∧ r < row + rows then {} else look {} acc (128 * r + n) := by
  unfold zeroRows
  split
  · exact look_filter_removed _ _ _ fun _ => decide_eq_false (by omega)
  · exact look_filter_kept _ _ _ fun _ => decide_eq_true (by omega)

end

/-- An entry as row `r` of an MMA lands in it (R148, R150). -/
def MmaOp.landEntry (o : MmaOp) (r n : Nat) (e : AccEntry) : AccEntry :=
  if fpMode o.f.afmt.toNat then landFp32 e o.f.z (fpBlock o.f o.w.lines o.xs r n)
  else landX128 e o.f.z (x128Term o.f o.sA o.w.lines o.xs r n).1 (x128Term o.f o.sA o.w.lines o.xs r n).2

theorem MmaOp.landEntry_eq (o : MmaOp) (r n : Nat) (e : AccEntry) : o.landEntry r n e =
    if o.f.afmt = 8 ∨ o.f.afmt = 9 then landFp32 e o.f.z (fpBlock o.f o.w.lines o.xs r n)
    else landX128 e o.f.z (x128Term o.f o.sA o.w.lines o.xs r n).1 (x128Term o.f o.sA o.w.lines o.xs r n).2 := by
  have hmode : fpMode o.f.afmt.toNat = true ↔ o.f.afmt = 8 ∨ o.f.afmt = 9 := by
    simp only [fpMode, Bool.or_eq_true, beq_iff_eq, BitVec.toNat_eq]
    rfl
  simp only [MmaOp.landEntry, hmode]

theorem landRow_eq (acc : SMap AccEntry) (o : MmaOp) (r : Nat) : landRow acc o r = updRow acc (o.f.acc.toNat + r) (o.landEntry r) := rfl

/-- An entry as row `i` of group `g` of a MADDX lands in it (R153, R154). -/
def Maddx.landEntry (o : Maddx) (g i n : Nat) (e : AccEntry) : AccEntry :=
  landX128 e o.z (signedN (lineBits o.lines (2048 * (33 * g + 8 * i) + 128 * n) 128) 128)
    (BitVec.ofNat 4 (lineBits o.lines (2048 * (33 * g + 32) + 512 * i + 4 * n) 4))

theorem landGroup_eq (acc : SMap AccEntry) (o : Maddx) (g : Nat) :
    landGroup acc o g = (List.range 4).foldl (fun m i => updRow m (o.acc + 4 * g + i) (o.landEntry g i)) acc := rfl

/-! ### Lines formed -/

theorem look_putLines (ls : SMap Line) (j cnt x i : Nat) : look 0#2048 (putLines ls j cnt x) i =
    if j ≤ i ∧ i < j + cnt then BitVec.ofNat 2048 (x / 2 ^ (2048 * (i - j))) else look 0#2048 ls i :=
  look_foldl_upd_from 0#2048 ls j (fun i _ => BitVec.ofNat 2048 (x / 2 ^ (2048 * i))) cnt i

/-! ### The operation whose turn has come -/

section
variable {α : Type} {l1 l2 : List α} {o : α}

theorem mem_filter_due (due : α → Nat) {b : Nat} {l : List α} {a : α} :
    a ∈ l.filter (fun a => decide (due a ≤ b)) ↔ a ∈ l ∧ due a ≤ b := by
  rw [List.mem_filter, decide_eq_true_eq]

/-- The first entry due is taken out of its queue. -/
theorem takeDue_append {p : α → Bool} (h : ∀ q ∈ l1, p q = false) (ho : p o = true) :
    takeDue p (l1 ++ o :: l2) = some (o, l1 ++ l2) := by
  induction l1 with
  | nil => exact takeDue_head ho l2
  | cons q l1 ih => simp [takeDue, h q (by simp), ih fun q' hq' => h q' (by simp [hq'])]

/-- An update by issue cycle changes the one operation that has it. -/
theorem map_of_unique_issue (issued : α → Nat) (f : α → α) (h : ∀ q ∈ l1 ++ l2, issued q ≠ issued o) :
    (l1 ++ o :: l2).map (fun q => if issued q = issued o then f q else q) = l1 ++ f o :: l2 := by
  have hid {l : List α} (hl : ∀ q ∈ l, issued q ≠ issued o) : l.map (fun q => if issued q = issued o then f q else q) = l :=
    (List.map_congr_left fun q hq => if_neg (hl q hq)).trans (List.map_id l)
  rw [List.map_append, List.map_cons, if_pos rfl, hid fun q hq => h q (by simp [hq]), hid fun q hq => h q (by simp [hq])]

/-- Only the operation in turn may leave its queue. -/
theorem filter_of_others_kept {p : α → Bool} (h : ∀ q ∈ l1 ++ l2, p q = true) :
    (l1 ++ o :: l2).filter p = if p o then l1 ++ o :: l2 else l1 ++ l2 := by
  rw [List.filter_append, List.filter_cons, List.filter_eq_self.2 fun q hq => h q (by simp [hq]),
    List.filter_eq_self.2 fun q hq => h q (by simp [hq])]
  split <;> rfl

end

/-! ### Reads of the accumulator store -/

/-- An access that meets no uncorrectable word, or reads nothing, lets its event take effect. -/
theorem uncorrectable_eq_false {z : Bool} {ecc : EccW} {n : Nat} (h : z = true ∨ eccBad ecc n = none) :
    (!z && (eccBad ecc n).isSome) = false := by
  rcases h with h | h <;> simp [h]

/-- An access that reads no memory, or meets no uncorrectable word, only counts. -/
theorem State.eccCell_unless_counted {s : State} {ecc : EccW} {words : List Nat} {z : Bool}
    (h : z = true ∨ eccBad ecc words.length = none) (c mem : Nat) : Counted s (if z then s else s.eccCell c ecc mem words) := by
  split
  · exact .refl s
  · exact State.eccCell_counted (h.resolve_left ‹_›) c mem

@[simp] theorem length_accWords (row n : Nat) : (accWords row n).length = 256 * n := by simp [accWords]

end Sys2Proof.Machine
end

