-- ==== Sys2Proof/Proofs/MatrixUnits.lean ====
section
/-! PROOF. What the matrix units have due reaches its store: weight lines and tags, cleared rows, MADDX groups, MMA rows, accumulator row
reads (O13). -/

namespace Sys2Proof.Machine
open Sys2Proof.Stmt

/-! ### Weight lines and tags -/

/-- WEIGHT_LINE_WRITE writes the due lines in their order. -/
theorem exec_weightLineWrite (c : CellId) (s : State) : exec (.weightLineWrite c) s = .next (s.onCell c fun x =>
    (x.wlines.filter (fun w => decide (w.due ≤ s.dueBound c))).foldl Cell.writeLine
      { x with wlines := x.wlines.filter (fun w => decide (s.dueBound c < w.due)) }) := rfl

/-- WEIGHT_TAG_SET sets the due tags in their order. -/
theorem exec_weightTagSet (c : CellId) (s : State) : exec (.weightTagSet c) s = .next (s.onCell c fun x =>
    (x.tagSets.filter (fun w => decide (w.due ≤ s.dueBound c))).foldl Cell.writeTag
      { x with tagSets := x.tagSets.filter (fun w => decide (s.dueBound c < w.due)) }) := rfl

section
variable {x : Cell}

theorem foldl_writeLine_eq (l : List WLine) :
    l.foldl Cell.writeLine x = { x with wb0 := (l.foldl Cell.writeLine x).wb0, wb1 := (l.foldl Cell.writeLine x).wb1 } :=
  Cell.eq_of_sansBufs_eq (foldl_invariant Cell.sansBufs (fun x _ => x.setWbuf_sansBufs _ _) l x)

theorem foldl_writeTag_eq (l : List TagSet) :
    l.foldl Cell.writeTag x = { x with wb0 := (l.foldl Cell.writeTag x).wb0, wb1 := (l.foldl Cell.writeTag x).wb1 } :=
  Cell.eq_of_sansBufs_eq (foldl_invariant Cell.sansBufs (fun x _ => x.setWbuf_sansBufs _ _) l x)

/-- A line of the list stands in its buffer when no other for its place differs. -/
theorem foldl_writeLine_line {l : List WLine} {w : WLine} (hw : w ∈ l)
    (hagree : ∀ w' ∈ l, w'.wb = w.wb → w'.j = w.j → w'.line = w.line) :
    look 0#2048 ((l.foldl Cell.writeLine x).wbuf w.wb).lines w.j = w.line :=
  foldl_eq_of_writers_agree (g := fun x : Cell => look 0#2048 (x.wbuf w.wb).lines w.j) (fun w' => w'.wb = w.wb ∧ w'.j = w.j)
    (fun w' hw' hhit x => by rw [x.writeLine_line, if_pos hhit, hagree w' hw' hhit.1 hhit.2])
    (fun w' hmiss x => by rw [x.writeLine_line, if_neg hmiss]) ⟨w, hw, rfl, rfl⟩ x

theorem foldl_writeLine_line_of_none {l : List WLine} {b : Bool} {j : Nat} (h : ∀ w ∈ l, w.wb = b → w.j ≠ j) :
    look 0#2048 ((l.foldl Cell.writeLine x).wbuf b).lines j = look 0#2048 (x.wbuf b).lines j :=
  foldl_keeps_of_forall_mem (g := fun x : Cell => look 0#2048 (x.wbuf b).lines j)
    (fun w hw x => by rw [x.writeLine_line, if_neg fun hhit => h w hw hhit.1 hhit.2]) x

/-- A tag of the list stands on its buffer when no other for the buffer differs. -/
theorem foldl_writeTag_tag {l : List TagSet} {t : TagSet} (ht : t ∈ l) (hagree : ∀ t' ∈ l, t'.wb = t.wb → t'.tag = t.tag) :
    ((l.foldl Cell.writeTag x).wbuf t.wb).tag = some t.tag :=
  foldl_eq_of_writers_agree (g := fun x : Cell => (x.wbuf t.wb).tag) (fun t' => t'.wb = t.wb)
    (fun t' ht' hhit x => by rw [x.writeTag_tag, if_pos hhit, hagree t' ht' hhit])
    (fun t' hmiss x => by rw [x.writeTag_tag, if_neg hmiss]) ⟨t, ht, rfl⟩ x

theorem foldl_writeTag_tag_of_none {l : List TagSet} {b : Bool} (h : ∀ t ∈ l, t.wb ≠ b) :
    ((l.foldl Cell.writeTag x).wbuf b).tag = (x.wbuf b).tag :=
  foldl_keeps_of_forall_mem (g := fun x : Cell => (x.wbuf b).tag) (fun t ht x => by rw [x.writeTag_tag, if_neg (h t ht)]) x

end

/-! ### Cleared rows -/

/-- The accumulator store with the rows of a list of MCLRs zeroed. -/
def clearRows (acc : SMap AccEntry) (l : List Mclr) : SMap AccEntry := l.foldl (fun a o => zeroRows a o.acc o.rows) acc

/-- MCLR_ZEROING zeroes the rows of the due MCLRs. -/
theorem exec_mclrZeroing (c : CellId) (s : State) : exec (.mclrZeroing c) s = .next (s.onCell c fun x =>
    { x with acc := clearRows x.acc (x.mclr.filter (fun o => decide (o.due ≤ s.dueBound c)))
             mclr := x.mclr.filter (fun o => decide (s.dueBound c < o.due)) }) := by
  have hfold (l : List Mclr) (x : Cell) :
      l.foldl (fun x o => { x with acc := zeroRows x.acc o.acc o.rows }) x = { x with acc := clearRows x.acc l } := by
    induction l generalizing x with
    | nil => rfl
    | cons o l ih => exact ih _
  exact congrArg (fun f => Host.Outcome.next (s.onCell c f)) (funext fun x => hfold _ _)

section
variable {acc : SMap AccEntry} {l : List Mclr} {r n : Nat} (hn : n < 128)
include hn

theorem look_clearRows_of_mem (h : ∃ o ∈ l, o.acc ≤ r ∧ r < o.acc + o.rows) :
    look ({} : AccEntry) (clearRows acc l) (128 * r + n) = {} :=
  foldl_eq_of_writers_agree (g := fun a : SMap AccEntry => look {} a (128 * r + n)) (fun o : Mclr => o.acc ≤ r ∧ r < o.acc + o.rows)
    (fun _ _ hhit _ => by rw [look_zeroRows hn, if_pos hhit]) (fun _ hmiss _ => by rw [look_zeroRows hn, if_neg hmiss]) h acc

theorem look_clearRows_of_none (h : ∀ o ∈ l, r < o.acc ∨ o.acc + o.rows ≤ r) :
    look ({} : AccEntry) (clearRows acc l) (128 * r + n) = look {} acc (128 * r + n) :=
  foldl_keeps_of_forall_mem (g := fun a : SMap AccEntry => look {} a (128 * r + n))
    (fun o ho _ => by rw [look_zeroRows hn, if_neg (by have := h o ho; omega)]) acc

end

/-! ### The operation in turn -/

section
variable {c : CellId} {ecc : EccW} {s : State}

/-- MADDX_GROUP_LANDING lands the next group of the first MADDX due. -/
theorem exec_maddxGroupLanding_due {l1 l2 : List Maddx} {o : Maddx} (hq : (s.cell c).maddx = l1 ++ o :: l2)
    (hlate : ∀ q ∈ l1, s.dueBound c < Maddx.due q) (hdue : Maddx.due o ≤ s.dueBound c)
    (huniq : ∀ q ∈ l1 ++ l2, q.issued ≠ o.issued)
    (hreads : ∀ q ∈ (s.cell c).accOut, AccOut.readDue q (s.dueBound c) = false) (hecc : o.z = true ∨ eccBad ecc 1024 = none) :
    ∃ t, exec (.maddxGroupLanding c ecc) s = .next t ∧ OnlyCell s t c ∧
      t.cell c = { s.cell c with
        acc := landGroup (s.cell c).acc o o.landed
        maddx := (l1 ++ { o with landed := o.landed + 1 } :: l2).filter (fun q => decide (4 * q.landed < q.rows)) } := by
  have htake : takeDue (fun o : Maddx => decide (o.due ≤ s.dueBound c)) (s.cell c).maddx = some (o, l1 ++ l2) := by
    rw [hq]
    exact takeDue_append (fun q hq => decide_eq_false (Nat.not_le.2 (hlate q hq))) (decide_eq_true hdue)
  have hnone : ((s.cell c).accOut.any fun q => q.readDue (s.dueBound c)) = false :=
    List.any_eq_false.2 fun q hq => Bool.eq_false_iff.1 (hreads q hq)
  have h1 : Counted s (if o.z then s else s.eccCell c ecc 2 (accWords (o.acc + 4 * o.landed) 4)) :=
    State.eccCell_unless_counted (by simpa using hecc) c 2
  change ∃ t, execMaddxGroupLanding c ecc s = .next t ∧ _
  simp only [execMaddxGroupLanding, htake, hnone, uncorrectable_eq_false hecc, Bool.false_eq_true, if_false]
  generalize (if o.z then s else s.eccCell c ecc 2 (accWords (o.acc + 4 * o.landed) 4)) = s1 at h1
  refine ⟨_, rfl, (h1.onlyCell c).trans (s1.onCell_onlyCell ..), ?_⟩
  rw [State.onCell_cell_same, h1.cell, hq, map_of_unique_issue Maddx.issued (fun q => { q with landed := q.landed + 1 }) huniq]

/-- MMA_ROW_LANDING lands the next row of the first MMA due. -/
theorem exec_mmaRowLanding_due {l1 l2 : List MmaOp} {o : MmaOp} (hq : (s.cell c).mma = l1 ++ o :: l2)
    (hlate : ∀ q ∈ l1, s.dueBound c < MmaOp.due q) (hdue : MmaOp.due o ≤ s.dueBound c)
    (huniq : ∀ q ∈ l1 ++ l2, q.issued ≠ o.issued)
    (hengine : (s.cell c).engineDue (s.dueBound c) = false) (hecc : o.f.z = true ∨ eccBad ecc 256 = none) :
    ∃ t, exec (.mmaRowLanding c ecc) s = .next t ∧ OnlyCell s t c ∧
      t.cell c = { s.cell c with
        acc := landRow (s.cell c).acc o o.landed
        mma := (l1 ++ { o with landed := o.landed + 1 } :: l2).filter (fun q => decide (q.landed ≤ q.f.rows.toNat)) } := by
  have htake : (s.cell c).mmaDue (s.dueBound c) = some o := by
    rw [Cell.mmaDue, hq, takeDue_append (fun q hq => decide_eq_false (Nat.not_le.2 (hlate q hq))) (decide_eq_true hdue)]
    rfl
  have h1 : Counted s (if o.f.z then s else s.eccCell c ecc 2 (accWords (o.f.acc.toNat + o.landed) 1)) :=
    State.eccCell_unless_counted (by simpa using hecc) c 2
  change ∃ t, execMmaRowLanding c ecc s = .next t ∧ _
  simp only [execMmaRowLanding, htake, hengine, uncorrectable_eq_false hecc, Bool.false_eq_true, if_false]
  generalize (if o.f.z then s else s.eccCell c ecc 2 (accWords (o.f.acc.toNat + o.landed) 1)) = s1 at h1
  refine ⟨_, rfl, (h1.onlyCell c).trans (s1.onCell_onlyCell ..), ?_⟩
  rw [State.onCell_cell_same, h1.cell, hq, map_of_unique_issue MmaOp.issued (fun q => { q with landed := q.landed + 1 }) huniq]

/-- ACC_ROW_READ makes the next row read of the first output due. -/
theorem exec_accRowRead_due {l1 l2 : List AccOut} {o : AccOut} (hq : (s.cell c).accOut = l1 ++ o :: l2)
    (hlate : ∀ q ∈ l1, AccOut.readDue q (s.dueBound c) = false) (hdue : AccOut.readDue o (s.dueBound c) = true)
    (hecc : eccBad ecc (256 * o.rowsRead) = none) :
    ∃ t h, exec (.accRowRead c ecc) s = .next t ∧ OnlyCell s t c ∧ t.cell c = (s.cell c).readRows o h := by
  have hfind : (s.cell c).accOut.find? (fun o => o.readDue (s.dueBound c)) = some o :=
    List.find?_eq_some_iff_append.2 ⟨hdue, l1, l2, hq, fun q hq => by rw [hlate q hq]; rfl⟩
  have h1 : Counted s (s.eccCell c ecc 2 (accWords (o.acc + o.rowsRead * o.reads) o.rowsRead)) :=
    State.eccCell_counted (by rwa [length_accWords]) c 2
  change ∃ t h, execAccRowRead c ecc s = .next t ∧ _
  simp only [execAccRowRead, hfind, hecc, Option.isSome_none, Bool.false_eq_true, if_false]
  generalize s.eccCell c ecc 2 (accWords (o.acc + o.rowsRead * o.reads) o.rowsRead) = s1 at h1
  generalize hs2 : s1.onCell c _ = s2
  have h2 : OnlyCell s s2 c ∧ ∃ h, s2.cell c = (s.cell c).readRows o h := by
    subst hs2
    exact ⟨(h1.onlyCell c).trans (s1.onCell_onlyCell ..), _, by rw [State.onCell_cell_same, h1.cell]⟩
  obtain ⟨honly, h, hcell⟩ := h2
  split
  · exact ⟨_, h, rfl, honly.trans ((s2.count_counted ..).onlyCell c), ((s2.count_counted ..).cell c).trans hcell⟩
  · exact ⟨_, h, rfl, honly, hcell⟩

end

/-- A row read is counted and forms its lines, which of a raw row are the eight of its mantissas; with CLR it zeroes the rows read
(R151, R153). -/
theorem Cell.readRows_eq (x : Cell) (o : AccOut) (h : Nat → Nat → Nat) :
    ∃ lines, x.readRows o h = { x with
      acc := if o.clr then zeroRows x.acc (o.acc + o.rowsRead * o.reads) o.rowsRead else x.acc
      accOut := x.accOut.map (fun q => if q.issued = o.issued then { q with reads := o.reads + 1, lines } else q) } ∧
    (o.kind = .raw → ∀ i, i < 8 → look 0#2048 lines (33 * (o.reads / 4) + 8 * (o.reads % 4) + i) =
      BitVec.ofNat 2048 (rawRow x.acc (o.acc + o.reads) / 2 ^ (2048 * i))) := by
  refine ⟨_, rfl, fun hraw i hi => ?_⟩
  simp only [hraw]
  rw [look_putLines, if_neg (by omega), look_putLines, if_pos (by omega), Nat.add_sub_cancel_left]

/-- Settles O13: lines, tags and cleared rows are runs of writes, and a group, a row or a row read is the turn of the first
operation due. -/
theorem matrixUnitsLand : Obligations.MatrixUnitsLand := by
  unfold Obligations.MatrixUnitsLand
  refine ⟨?_, ?_, ?_, ?_, ?_, ?_⟩
  · intro c s
    refine ⟨_, exec_weightLineWrite c s, s.onCell_onlyCell .., ?_⟩
    rw [State.onCell_cell_same]
    refine ⟨foldl_writeLine_eq _, fun b => ?_, fun w hw hagree => ?_, fun b j hnone => ?_⟩
    · exact foldl_invariant (fun x : Cell => (x.wbuf b).tag) (fun x w => x.writeLine_tag w b) _ _
    · exact foldl_writeLine_line ((mem_filter_due WLine.due).2 hw) fun w' hw' => hagree w' ((mem_filter_due WLine.due).1 hw')
    · exact foldl_writeLine_line_of_none fun w hw => hnone w ((mem_filter_due WLine.due).1 hw)
  · intro c s
    refine ⟨_, exec_weightTagSet c s, s.onCell_onlyCell .., ?_⟩
    rw [State.onCell_cell_same]
    refine ⟨foldl_writeTag_eq _, fun b => ?_, fun t ht hagree => ?_, fun b hnone => ?_⟩
    · exact foldl_invariant (fun x : Cell => (x.wbuf b).lines) (fun x t => x.writeTag_lines t b) _ _
    · exact foldl_writeTag_tag ((mem_filter_due TagSet.due).2 ht) fun t' ht' => hagree t' ((mem_filter_due TagSet.due).1 ht')
    · exact foldl_writeTag_tag_of_none fun t ht => hnone t ((mem_filter_due TagSet.due).1 ht)
  · intro c s
    refine ⟨_, exec_mclrZeroing c s, s.onCell_onlyCell .., ?_⟩
    rw [State.onCell_cell_same]
    refine ⟨rfl, fun r n hn => ⟨fun ⟨o, ho, hdue, hrow⟩ => ?_, fun hnone => ?_⟩⟩
    · exact look_clearRows_of_mem hn ⟨o, (mem_filter_due Mclr.due).2 ⟨ho, hdue⟩, hrow⟩
    · exact look_clearRows_of_none hn fun o ho => hnone o ((mem_filter_due Mclr.due).1 ho).1 ((mem_filter_due Mclr.due).1 ho).2
  · intro c ecc s l1 l2 o hq hlate hdue huniq hreads hecc
    obtain ⟨t, hnext, honly, hcell⟩ := exec_maddxGroupLanding_due hq hlate hdue huniq hreads hecc
    refine ⟨t, hnext, honly, ?_⟩
    rw [hcell]
    refine ⟨rfl, fun hmore hothers => ?_, fun hlast hothers => ?_, fun i n hi hn => ?_, fun r n hn hr => ?_⟩
    · exact (filter_of_others_kept fun q hq => decide_eq_true (hothers q hq)).trans (if_pos (decide_eq_true (by omega)))
    · exact (filter_of_others_kept fun q hq => decide_eq_true (hothers q hq)).trans
        (if_neg (decide_eq_true_iff.not.2 (Nat.not_lt.2 hlast)))
    · dsimp only
      rw [landGroup_eq, look_updRows hn, if_pos (by omega), Nat.add_sub_cancel_left]
      rfl
    · dsimp only
      rw [landGroup_eq, look_updRows hn, if_neg (by omega)]
  · intro c ecc s l1 l2 o hq hlate hdue huniq hengine hecc
    obtain ⟨t, hnext, honly, hcell⟩ := exec_mmaRowLanding_due hq hlate hdue huniq hengine hecc
    refine ⟨t, hnext, honly, ?_⟩
    rw [hcell]
    refine ⟨rfl, fun hmore hothers => ?_, fun hlast hothers => ?_, fun n hn => ?_, fun r n hn hr => ?_⟩
    · exact (filter_of_others_kept fun q hq => decide_eq_true (hothers q hq)).trans (if_pos (decide_eq_true hmore))
    · exact (filter_of_others_kept fun q hq => decide_eq_true (hothers q hq)).trans
        (if_neg (decide_eq_true_iff.not.2 (Nat.not_lt.2 hlast)))
    · dsimp only
      rw [landRow_eq, look_updRow hn, if_pos rfl, o.landEntry_eq]
    · dsimp only
      rw [landRow_eq, look_updRow hn, if_neg hr]
  · intro c ecc s l1 l2 o hq hlate hdue huniq k hecc
    have hk : k = o.rowsRead := rfl
    obtain ⟨t, h, hnext, honly, hcell⟩ := exec_accRowRead_due hq hlate hdue hecc
    obtain ⟨lines, hread, hlines⟩ := (s.cell c).readRows_eq o h
    rw [hq, map_of_unique_issue AccOut.issued (fun q => { q with reads := o.reads + 1, lines }) huniq] at hread
    refine ⟨t, { o with reads := o.reads + 1, lines }, hnext, honly, ?_⟩
    rw [hcell, hread, hk]
    refine ⟨rfl, rfl, hlines, fun r n hn => ?_⟩
    dsimp only
    by_cases hclr : o.clr = true
    · rw [if_pos hclr, look_zeroRows hn]
      simp only [hclr, true_and]
    · rw [if_neg hclr, if_neg fun hrow => hclr hrow.1]

end Sys2Proof.Machine
end

