-- ==== Sys2Proof/Proofs/MeshBeats.lean ====
section
/-! SUPPORT. One beat at a switch: when it is due, what is read of it where no word is in error, the fault it raises, and what
an update of one block leaves of the others (R161, R163). -/

namespace Sys2Proof.Machine
open Sys2Proof.Stmt

/-- A single beat that is due is all there is to handle. -/
theorem Hop.split_due {h : Hop} {now : Nat} (hdue : h.cyc ≤ now) : Hop.split [h] now = ([h], []) := by
  simp [Hop.split, hdue]

@[simp] theorem BeatEcc.at'_nil (o : Nat) : BeatEcc.at' [] o = [] := rfl

/-- A beat without an error is read as it is (R161). -/
@[simp] theorem State.readBeat_clean (s : State) (r unit out : Nat) (ps : List Nat) (x : Beat) :
    s.readBeat r unit out ps [] x = (s, x) := rfl

theorem Beat.live_iff {x : Beat} : x.live = true ↔ x.sb.kind = 1 ∨ x.sb.kind = 2 := decide_eq_true_iff

/-- A live beat is no lull. -/
theorem Beat.carried_of_live {x : Beat} (h : x.live = true) : x.carried = true := by
  refine decide_eq_true fun h0 => ?_
  rcases Beat.live_iff.1 h with h1 | h1 <;> rw [h0] at h1 <;> exact absurd h1 (by decide)

@[simp] theorem State.partFault_block (s : State) (code : Nat) (parts : List Nat) (unit d0 d1 k : Nat) :
    (s.partFault code parts unit d0 d1).block k = s.block k := rfl

@[simp] theorem State.partFault_cell (s : State) (code : Nat) (parts : List Nat) (unit d0 d1 k : Nat) :
    (s.partFault code parts unit d0 d1).cell k = s.cell k := rfl

@[simp] theorem State.partFault_stks (s : State) (code : Nat) (parts : List Nat) (unit d0 d1 : Nat) :
    (s.partFault code parts unit d0 d1).stks = s.stks := rfl

@[simp] theorem State.partFault_parts (s : State) (code : Nat) (parts : List Nat) (unit d0 d1 : Nat) :
    (s.partFault code parts unit d0 d1).parts = s.parts := rfl

/-- A fault raised in a state that has raised what `s` has, in the same cycle. -/
theorem raisedOne_partFault {s u : State} (hraised : u.raised = s.raised) (hcycle : u.cycle = s.cycle) (code : Nat)
    (parts : List Nat) (unit d0 d1 : Nat) : RaisedOne s (u.partFault code parts unit d0 d1) .partition code parts :=
  ⟨_, congrArg (· ++ _) hraised, rfl, rfl, rfl, hcycle⟩

/-- An update of blocks that keeps their maps keeps the position that each cell carries. -/
theorem State.posOf_onBlock (s : State) (b : Nat) {f : Block → Block} (hf : ∀ x, (f x).map = x.map) (c : Nat) :
    (s.onBlock b f).posOf c = s.posOf c := by
  unfold State.posOf
  by_cases hc : blockOf c = b
  · rw [hc, State.onBlock_block_same, hf]
  · rw [State.onBlock_block_ne _ _ hc]

end Sys2Proof.Machine
end

