-- ==== Sys2Proof/Proofs/Crossbar.lean ====
section
/-! PROOF. The block crossbar: a beat at an input leaves on the outputs that its row pairs with it (O20), and a beat that leaves is
written, enters the router or is refused (O21). -/

namespace Sys2Proof.Machine
open Sys2Proof.Stmt

/-! ### Inputs (R162, R163, R165) -/

theorem length_offered_le (h : Hop) (i : Nat) : (offered [h] i).length ≤ 1 := List.length_filter_le _ [h]

/-- One beat clashes with none. -/
theorem State.inputClash_one (s : State) (b owner : Nat) (h : Hop) (i : Nat) : s.inputClash b owner [h] i = s := by
  unfold State.inputClash
  split
  next heq =>
    have hlen := length_offered_le h i
    rw [heq] at hlen
    simp at hlen
  · rfl

/-- The outputs that a row feeds from input `i`, in order. -/
def pairedOuts (feeds : Nat → Option Nat) (i : Nat) : List Nat := (List.range 24).filter (fun o => decide (feeds o = some i))

section
variable {s : State} {b owner : Nat} {feeds : Nat → Option Nat} {h : Hop} (hlive : h.beat.live = true)
include hlive

/-- A beat that its row pairs with outputs is queued for each of them. -/
theorem State.enter_paired (houts : pairedOuts feeds h.port ≠ []) : s.enter b owner feeds [h] h = s.onBlock b (fun x =>
    { x with xout := x.xout ++ (pairedOuts feeds h.port).map (fun o => { cyc := s.cycle + 4, port := o, beat := h.beat }) }) := by
  unfold State.enter
  rw [if_neg (by simp [Beat.carried_of_live hlive, length_offered_le])]
  split
  next heq => exact absurd heq houts
  · rfl

/-- A beat that its row pairs with no output is dropped with a fault. -/
theorem State.enter_unpaired (houts : pairedOuts feeds h.port = []) : s.enter b owner feeds [h] h =
    s.partFault 0x32 [owner] (locBlock b) h.beat.sb.toNat (s.pathD1 h.port) := by
  unfold State.enter
  rw [if_neg (by simp [Beat.carried_of_live hlive, length_offered_le])]
  split
  · simp [hlive]
  next hne => exact absurd houts hne

end

/-- A row in force and one beat that is due: the beat is taken from its input and offered to the outputs. -/
theorem exec_crossbarRow_one {b p : Nat} {s : State} {h : Hop} {row : BitVec 128} (howner : (s.block b).owner = some p)
    (hrun : (s.part p).st = .running) (hxin : (s.block b).xin = [h]) (hdue : h.cyc ≤ s.cycle) (hrow : s.blockRow b = some row) :
    exec (.crossbarRow b .ok) s =
      .next ((s.onBlock b (fun x => { x with xin := [] })).enter b p (fun o => (s.block b).feeds row o) [h] h) := by
  change execCrossbarRow b .ok s = _
  simp [execCrossbarRow, hxin, Hop.split_due hdue, howner, State.running_eq_true hrun, hrow, State.readRow,
    foldl_eq_self (f := fun s i => s.inputClash b p [h] i) fun i _ => State.inputClash_one _ b p h i, ok]

/-- Settles O20: the row's outputs for the beat's input are none, or the beat is queued for each. -/
theorem crossbarPairsBeats : Obligations.CrossbarPairsBeats := by
  intro b p s h row howner hrun hxin hdue hlive hrow outs
  rw [exec_crossbarRow_one howner hrun hxin hdue hrow]
  by_cases houts : outs = []
  · rw [State.enter_unpaired (Beat.live_iff.2 hlive) houts]
    refine ⟨_, rfl, rfl, fun k hk => ?_, fun hne => absurd houts hne, fun _ => ⟨?_, ?_⟩⟩
    · rw [State.partFault_block, State.onBlock_block_ne _ _ hk]
    · exact raisedOne_partFault rfl rfl ..
    · rw [State.partFault_block, State.onBlock_block_same]
  · rw [State.enter_paired (Beat.live_iff.2 hlive) houts]
    refine ⟨_, rfl, rfl, fun k hk => ?_, fun _ => ⟨rfl, ?_⟩, fun heq => absurd heq houts⟩
    · rw [State.onBlock_block_ne _ _ hk, State.onBlock_block_ne _ _ hk]
    · rw [State.onBlock_block_same, State.onBlock_block_same]
      rfl

/-! ### Lines of a store (R60, R166) -/

/-- A line written at `ea`. -/
theorem lineWritten_setLine (m : Mem) (ea : Nat) (l : Line) : LineWritten m (Mem.setLine m ea l) ea l := by
  refine ⟨fun i hi => ?_, fun j hj => ?_⟩
  · rw [Mem.setLine, lineBytes, byte_setBytes_in _ _ _ _ (by simpa using hi), natLe_getD hi]
  · exact byte_setBytes_out _ _ _ _ (by simpa [lineBytes] using hj)

/-- The next cycle reads the one line written in this cycle over the block store of this one (R166). -/
theorem lineWritten_bsWrite {x : Block} {t port : Nat} (hx : ∀ w ∈ x.bsw, w.cyc < t) (hport : port < 2) (ea : Nat) (l : Line) :
    LineWritten (x.storeAt t) ((x.bsWrite t port ea l).storeAt (t + 1)) ea l := by
  have hnone : x.bsw.filter (fun w => decide (t ≤ w.cyc)) = [] := List.filter_eq_nil_iff.2 fun w hw => by simpa using hx w hw
  have hstore : (x.bsWrite t port ea l).storeAt (t + 1) = Mem.setLine (x.storeAt t) ea l := by
    rw [Block.bsWrite, hnone, Block.storeAt]
    obtain rfl | rfl : port = 0 ∨ port = 1 := by omega
    · simp [applyBsw]
    · simp [applyBsw]
  rw [hstore]
  exact lineWritten_setLine ..

/-- The same of a line that the crossbar writes to a cell store (R60). -/
theorem lineWritten_csWrite {x : Cell} {t : Nat} (hx : x.StoreSettled t) (ea : Nat) (l : Line) :
    LineWritten (x.store t) ((x.csWrite t .xbar (cellsAt ea (lineBytes l))).store (t + 1)) ea l := by
  rw [hx.store_csWrite, setCells_cellsAt]
  exact lineWritten_setLine ..

/-! ### Deliveries to a cell (R164) -/

/-- What R164 asks of a write beat that leaves block `b`, of partition `p`, on the port of cell `c`. -/
def State.CellTakes (s : State) (b c p : Nat) (sb : Sb) : Prop :=
  sb.kind = 1 ∧ sb.part.toNat = p ∧ (sb.dkind = 0 ∨ sb.dkind = 2) ∧ sb.dblock.toNat = b ∧
    ∃ k, s.posOf (32 * b + c) = some k ∧ sb.dmask.getLsbD k = true

/-- The test of a delivery to a cell. -/
def State.cellAccepts (s : State) (b c p : Nat) (sb : Sb) : Bool :=
  sb.kind = 1 && decide (sb.part.toNat = p) && decide (sb.dkind = 0 ∨ sb.dkind = 2) && decide (sb.dblock.toNat = b) &&
    (match s.posOf (32 * b + c) with
     | some k => sb.dmask.getLsbD k
     | none => false)

theorem State.cellAccepts_iff {s : State} {b c p : Nat} {sb : Sb} : s.cellAccepts b c p sb = true ↔ s.CellTakes b c p sb := by
  unfold State.cellAccepts State.CellTakes
  cases s.posOf (32 * b + c) <;> simp [and_assoc]

theorem State.deliverCell_refused {s : State} {b c p : Nat} {x : Beat} (h : ¬ s.CellTakes b c p x.sb) :
    s.deliverCell b c p x = s.partFault 0x32 [p] (locBlock b) x.sb.toNat (s.pathD1 c) := by
  have hno : s.cellAccepts b c p x.sb = false := Bool.eq_false_iff.2 fun hyes => h (State.cellAccepts_iff.1 hyes)
  exact if_pos (by rw [Bool.not_eq_true']; exact hno)

theorem State.deliverCell_store {s : State} {b c p : Nat} {x : Beat} (h : s.CellTakes b c p x.sb) (hkind : x.sb.dkind = 0)
    (hline : x.sb.line.toNat < 6144) : s.deliverCell b c p x = ((s.onCell (32 * b + c) (fun y =>
      y.csWrite s.cycle .xbar (cellsAt (256 * x.sb.line.toNat) (lineBytes x.data)))).count (locCell (32 * b + c)) 0x00A 1).spend
        8 (some p) 1 := by
  refine (if_neg ?_).trans ((if_pos hkind).trans (if_pos hline))
  rw [Bool.not_eq_true', Bool.not_eq_false]
  exact State.cellAccepts_iff.2 h

/-- A delivery to a cell changes that cell, the raised faults and counts. -/
theorem State.deliverCell_frame (s : State) (b c p : Nat) (x : Beat) :
    (∃ cells raised counters health act, s.deliverCell b c p x = { s with cells, raised, counters, health, act }) ∧
      ∀ k, k ≠ 32 * b + c → (s.deliverCell b c p x).cell k = s.cell k := by
  unfold State.deliverCell
  extract_lets id pos accept q
  split
  · exact ⟨⟨_, _, _, _, _, rfl⟩, fun _ _ => rfl⟩
  split
  · split
    · refine ⟨⟨_, _, _, _, _, rfl⟩, fun k hk => ?_⟩
      rw [State.spend_cell, State.count_cell, State.onCell_cell_ne _ _ hk]
    · exact ⟨⟨_, _, _, _, _, rfl⟩, fun _ _ => rfl⟩
  · split
    · exact ⟨⟨_, _, _, _, _, rfl⟩, fun _ _ => rfl⟩
    · exact ⟨⟨_, _, _, _, _, rfl⟩, fun k hk => s.onCell_cell_ne _ hk⟩

/-! ### Deliveries (R164, R166) -/

/-- What R164 asks of a write beat that leaves block `b`, of partition `p`, on a barrow port. -/
def BarrowTakes (b p : Nat) (sb : Sb) : Prop := sb.kind = 1 ∧ sb.part.toNat = p ∧ sb.dkind = 1 ∧ sb.dblock.toNat = b

/-- The state in which a beat leaves a crossbar output: the beat is counted. -/
def State.leaving (s : State) (b p : Nat) : State := (s.count (locBlock b) 0x101 1).spend 9 (some p) 1

section
variable (s : State) (b p k : Nat)

@[simp] theorem State.leaving_block : (s.leaving b p).block k = s.block k := rfl

@[simp] theorem State.leaving_cell : (s.leaving b p).cell k = s.cell k := rfl

@[simp] theorem State.leaving_stks : (s.leaving b p).stks = s.stks := rfl

@[simp] theorem State.leaving_parts : (s.leaving b p).parts = s.parts := rfl

@[simp] theorem State.leaving_raised : (s.leaving b p).raised = s.raised := rfl

@[simp] theorem State.leaving_cycle : (s.leaving b p).cycle = s.cycle := rfl

end

section
variable {s : State} {b p o : Nat} {x : Beat}

theorem State.deliver_cell (ho : o < 18) : s.deliver b p o x = (s.leaving b p).deliverCell b o p x := if_pos ho

theorem State.deliver_mesh (h1 : 18 ≤ o) (h2 : o < 22) : s.deliver b p o x =
    (s.leaving b p).onBlock b (fun y => { y with rin := y.rin ++ [{ cyc := s.cycle, port := o - 10, beat := x }] }) :=
  (if_neg (by omega)).trans (if_pos h2)

theorem State.deliver_store (ho : 22 ≤ o) (h : BarrowTakes b p x.sb) : s.deliver b p o x =
    (((s.leaving b p).onBlock b (fun y => y.bsWrite s.cycle (o - 22) (256 * x.sb.line.toNat) x.data)).count
      (locBlock b) 0x104 1).spend 10 (some p) 1 :=
  (if_neg (by omega)).trans ((if_neg (by omega)).trans (if_pos h))

theorem State.deliver_refused (ho : 22 ≤ o) (h : ¬ BarrowTakes b p x.sb) : s.deliver b p o x =
    (s.leaving b p).partFault 0x32 [p] (locBlock b) x.sb.toNat (s.pathD1 o) :=
  (if_neg (by omega)).trans ((if_neg (by omega)).trans (if_neg h))

end

/-- A delivery changes the cell of its port, its block's store and router inputs, the raised faults and counts. -/
theorem State.deliver_frame (s : State) (b p o : Nat) (x : Beat) :
    (s.deliver b p o x).stks = s.stks ∧ (s.deliver b p o x).parts = s.parts ∧
      ((s.deliver b p o x).block b).xout = (s.block b).xout ∧ (∀ k, k ≠ b → (s.deliver b p o x).block k = s.block k) ∧
      ∀ k, k ≠ 32 * b + o → (s.deliver b p o x).cell k = s.cell k := by
  by_cases hcell : o < 18
  · rw [State.deliver_cell hcell]
    obtain ⟨⟨_, _, _, _, _, heq⟩, hne⟩ := (s.leaving b p).deliverCell_frame b o p x
    have hblock (k : Nat) : ((s.leaving b p).deliverCell b o p x).block k = s.block k := by
      rw [heq, ← State.leaving_block s b p k]
      rfl
    refine ⟨?_, ?_, ?_, fun k _ => hblock k, fun k hk => ?_⟩
    · rw [heq, State.leaving_stks]
    · rw [heq, State.leaving_parts]
    · rw [hblock]
    · rw [hne k hk, State.leaving_cell]
  by_cases hmesh : o < 22
  · rw [State.deliver_mesh (by omega) hmesh]
    refine ⟨by simp, by simp, by simp, fun k hk => ?_, by simp⟩
    rw [State.onBlock_block_ne _ _ hk, State.leaving_block]
  by_cases htaken : BarrowTakes b p x.sb
  · rw [State.deliver_store (by omega) htaken]
    refine ⟨by simp, by simp, by simp [Block.bsWrite], fun k hk => ?_, by simp⟩
    rw [State.spend_block, State.count_block, State.onBlock_block_ne _ _ hk, State.leaving_block]
  · rw [State.deliver_refused (by omega) htaken]
    exact ⟨by simp, by simp, by simp, by simp, by simp⟩

/-- One beat that is due in a running partition's block is delivered from its output. -/
theorem exec_crossbarBeatDelivery_one {b p : Nat} {s : State} {h : Hop} (howner : (s.block b).owner = some p)
    (hrun : (s.part p).st = .running) (hxout : (s.block b).xout = [h]) (hdue : h.cyc ≤ s.cycle) :
    exec (.crossbarBeatDelivery b []) s = .next ((s.onBlock b (fun x => { x with xout := [] })).deliver b p h.port h.beat) := by
  change execCrossbarBeatDelivery b [] s = _
  simp [execCrossbarBeatDelivery, hxout, Hop.split_due hdue, howner, State.running_eq_true hrun, State.deliverAll, ok]

/-- Settles O21: the port of the output says which of the deliveries the beat is, and the checks of R164 whether it is one. -/
theorem crossbarDelivers : Obligations.CrossbarDelivers := by
  intro b p s h howner hrun hxout hdue _ _ sb c taken taken'
  rw [exec_crossbarBeatDelivery_one howner hrun hxout hdue]
  generalize hs1 : s.onBlock b (fun x => { x with xout := [] }) = s1
  have hblock : s1.block b = { s.block b with xout := [] } := by rw [← hs1, State.onBlock_block_same]
  have hcell (k : Nat) : s1.cell k = s.cell k := by rw [← hs1, State.onBlock_cell]
  have hraised : s1.raised = s.raised := by rw [← hs1, State.onBlock_raised]
  have hcycle : s1.cycle = s.cycle := by rw [← hs1, State.onBlock_cycle]
  have hpos : (s1.leaving b p).posOf c = s.posOf c := by
    rw [← hs1]
    exact s.posOf_onBlock b (f := fun x => { x with xout := [] }) (fun _ => rfl) c
  have htaken : (s1.leaving b p).CellTakes b h.port p sb ↔ taken := by
    unfold State.CellTakes
    rw [hpos]
  obtain ⟨hstks, hparts, hxout', hblocks, hcells⟩ := s1.deliver_frame b p h.port h.beat
  refine ⟨_, rfl, ?_, fun k hk => ?_, fun k hk => ?_, ?_, ?_, fun hport ht hkind hline hsettled => ?_, fun hport ht => ?_,
    fun h18 h22 => ?_, fun h22 h24 ht hsettled => ?_, fun h22 ht => ?_⟩
  · rw [hxout', hblock]
  · rw [hblocks k hk, ← hs1, State.onBlock_block_ne _ _ hk]
  · rw [hcells k hk, hcell]
  · rw [hstks, ← hs1, State.onBlock_stks]
  · rw [hparts, ← hs1, State.onBlock_parts]
  · rw [State.deliver_cell hport, State.deliverCell_store (htaken.2 ht) hkind hline, State.spend_cell, State.count_cell,
      State.onCell_cell_same, State.leaving_cell, hcell, State.leaving_cycle, hcycle]
    exact ⟨by simpa using hraised, lineWritten_csWrite hsettled .., rfl, rfl⟩
  · rw [State.deliver_cell hport, State.deliverCell_refused (mt htaken.1 ht), State.partFault_cell, State.leaving_cell, hcell]
    exact ⟨raisedOne_partFault (by simpa using hraised) (by simpa using hcycle) .., rfl⟩
  · rw [State.deliver_mesh h18 h22, State.onBlock_block_same, State.leaving_block, hblock, hcycle]
    exact ⟨by simpa using hraised, rfl⟩
  · rw [State.deliver_store h22 ht, State.spend_block, State.count_block, State.onBlock_block_same, State.leaving_block, hblock,
      hcycle]
    exact ⟨by simpa using hraised, lineWritten_bsWrite (x := { s.block b with xout := [] }) hsettled (by omega) ..⟩
  · rw [State.deliver_refused h22 ht, State.partFault_block, State.leaving_block, hblock]
    exact ⟨raisedOne_partFault (by simpa using hraised) (by simpa using hcycle) .., rfl⟩

end Sys2Proof.Machine
end

