-- ==== Sys2Proof/Proofs/RouterRows.lean ====
section
/-! PROOF. A router's row: a beat leaves by the output whose row names it when its partition holds the output, and is refused when
the holder's row names a beat of another partition (O22). -/

namespace Sys2Proof.Machine
open Sys2Proof.Stmt

/-! ### A beat leaves (R182, R183) -/

/-- No router is its own neighbour. -/
theorem neighbour_ne {b o n : Nat} (h : neighbour b o = some n) : n ≠ b := by
  rintro rfl
  unfold neighbour at h
  dsimp only at h
  split at h <;> split at h <;> simp only [Option.some.injEq, reduceCtorEq] at h <;> omega

section
variable (s : State) (b : Nat) {o : Nat} (x : Beat)

/-- A link's beat is at the neighbouring router three cycles later. -/
theorem State.leave_link {n : Nat} (ho : o < 8) (hn : neighbour b o = some n) : s.leave b o x =
    ((s.count (locRegion (b / 16)) 0x201 1).spend 13 (some x.sb.part.toNat) 1).onBlock n (fun y =>
      { y with rin := y.rin ++ [{ cyc := s.cycle + 3, port := farChan o, beat := x }] }) := by
  refine (if_pos ho).trans ?_
  rw [hn]

/-- A mesh port's beat is at the crossbar in the same cycle. -/
theorem State.leave_mesh (h8 : 8 ≤ o) (h12 : o < 12) : s.leave b o x = s.onBlock b (fun y =>
    { y with xin := y.xin ++ [{ cyc := s.cycle, port := o + 10, beat := x }] }) :=
  (if_neg (by omega)).trans (if_pos h12)

/-- A beat that leaves changes no cell and no partition and raises nothing. -/
theorem State.leave_frame (o : Nat) :
    (s.leave b o x).cells = s.cells ∧ (s.leave b o x).parts = s.parts ∧ (s.leave b o x).raised = s.raised := by
  unfold State.leave
  dsimp only
  split
  · split <;> exact ⟨rfl, rfl, rfl⟩
  split
  · exact ⟨rfl, rfl, rfl⟩
  split <;> exact ⟨rfl, rfl, rfl⟩

end

/-! ### One row and one beat (R189) -/

/-- An update of a block that keeps its owner keeps the holders of every output. -/
theorem State.outHolder_onBlock (s : State) (b : Nat) {f : Block → Block} (hf : ∀ x, (f x).owner = x.owner) (k o cyc : Nat) :
    (s.onBlock b f).outHolder k o cyc = s.outHolder k o cyc := by
  unfold State.outHolder
  by_cases hk : k = b
  · rw [hk, State.onBlock_block_same, hf]
    rfl
  · rw [State.onBlock_block_ne _ _ hk]
    rfl

section
variable {s : State} {b p o : Nat} {h : Hop} {row : BitVec 128}

/-- An output that does not exist, or whose row names another input, is idle. -/
theorem State.routeOut_idle (hidle : outExists b o = true → srcOf row o ≠ h.port) : s.routeOut b [(p, row)] [h] o = s := by
  unfold State.routeOut
  cases hex : outExists b o with
  | false => rfl
  | true => simp [(hidle hex).symm]

/-- The output whose holder's row names the beat sends it when it is the holder's own, and refuses it otherwise. -/
theorem State.routeOut_held (hlive : h.beat.live = true) (hex : outExists b o = true) (hsrc : srcOf row o = h.port)
    (hholder : s.outHolder b o s.fcyc = some p) :
    s.routeOut b [(p, row)] [h] o = if h.beat.sb.part.toNat = p then s.leave b o h.beat
      else s.partFault 0x33 [h.beat.sb.part.toNat] (locBlock b) h.beat.sb.toNat (s.pathD1 o) := by
  simp [State.routeOut, hex, hsrc, hholder, hlive, Beat.carried_of_live hlive]

/-- One layer with a row, one beat, one output that names it: the row routes the beat and nothing else. -/
theorem exec_routerRow_one (hrin : (s.block b).rin = [h]) (hdue : h.cyc ≤ s.cycle)
    (hrun : (s.part h.beat.sb.part.toNat).st = .running) (hrows : s.layerRows b = [(p, row)]) (ho : o < 20)
    (hex : outExists b o = true) (hsrc : srcOf row o = h.port)
    (huniq : ∀ o', o' < 20 → outExists b o' = true → srcOf row o' = h.port → o' = o) :
    exec (.routerRow b [] []) s = .next ((s.onBlock b (fun x => { x with rin := [] })).routeOut b [(p, row)] [h] o) := by
  have hroute (u : State) : (List.range 20).foldl (fun s o => s.routeOut b [(p, row)] [h] o) u = u.routeOut b [(p, row)] [h] o := by
    have hidle (v : State) : ∀ k ∈ List.range 20, k ≠ o → v.routeOut b [(p, row)] [h] k = v := fun k hk hne =>
      State.routeOut_idle fun hexk hsrck => hne (huniq k (List.mem_range.1 hk) hexk hsrck)
    exact foldl_eq_of_only (f := fun s o => s.routeOut b [(p, row)] [h] o) List.nodup_range (List.mem_range.2 ho) (hidle u) (hidle _)
  have hnamed : namedBy b [(p, row)] h.port = true := List.any_eq_true.2 ⟨o, List.mem_range.2 ho, by simp [hex, hsrc]⟩
  change execRouterRow b [] [] s = _
  simp [execRouterRow, hrin, Hop.split_due hdue, State.running_eq_true hrun, State.readBeats, State.readLayers, hrows, hroute,
    hnamed, ok]

end

/-- Settles O22: the one output that names the beat either sends it or refuses it. -/
theorem routerForwardsBeats : Obligations.RouterForwardsBeats := by
  intro b p o s h row hrin hdue hlive hrun hrows ho hex hsrc huniq hholder
  have hlive' := Beat.live_iff.2 hlive
  rw [exec_routerRow_one hrin hdue hrun hrows ho hex hsrc huniq]
  generalize hs1 : s.onBlock b (fun x => { x with rin := [] }) = s1
  have hholder1 : s1.outHolder b o s1.fcyc = some p := by
    rw [← hs1]
    exact (s.outHolder_onBlock b (f := fun x => { x with rin := [] }) (fun _ => rfl) ..).trans hholder
  have hblock : s1.block b = { s.block b with rin := [] } := by rw [← hs1, State.onBlock_block_same]
  have hblocks (k : Nat) (hk : k ≠ b) : s1.block k = s.block k := by rw [← hs1, State.onBlock_block_ne _ _ hk]
  have hcells : s1.cells = s.cells := by rw [← hs1, State.onBlock_cells]
  have hparts : s1.parts = s.parts := by rw [← hs1, State.onBlock_parts]
  have hraised : s1.raised = s.raised := by rw [← hs1, State.onBlock_raised]
  have hcycle : s1.cycle = s.cycle := by rw [← hs1, State.onBlock_cycle]
  rw [State.routeOut_held hlive' hex hsrc hholder1]
  by_cases hown : h.beat.sb.part.toNat = p
  · rw [if_pos hown]
    obtain ⟨hcells', hparts', hraised'⟩ := s1.leave_frame b h.beat o
    refine ⟨_, rfl, hcells'.trans hcells, hparts'.trans hparts, fun _ => ⟨hraised'.trans hraised, fun n ho8 hn => ?_,
      fun h8 h12 => ?_⟩, fun hne => absurd hown hne⟩
    · have hnb := neighbour_ne hn
      rw [State.leave_link _ _ _ ho8 hn, State.onBlock_block_same, State.spend_block, State.count_block, hblocks n hnb, if_neg hnb,
        hcycle]
      refine ⟨rfl, fun k hkb hkn => ?_⟩
      rw [State.onBlock_block_ne _ _ hkn, State.spend_block, State.count_block, hblocks k hkb]
    · rw [State.leave_mesh _ _ _ h8 h12, State.onBlock_block_same, hblock, hcycle]
      refine ⟨rfl, fun k hk => ?_⟩
      rw [State.onBlock_block_ne _ _ hk, hblocks k hk]
  · rw [if_neg hown]
    refine ⟨_, rfl, hcells, hparts, fun heq => absurd heq hown, fun _ => ⟨?_, fun k hk => ?_, ?_, ?_⟩⟩
    · exact raisedOne_partFault hraised hcycle ..
    · rw [State.partFault_block, hblocks k hk]
    · rw [State.partFault_block, hblock]
    · rw [State.partFault_block, hblock]

end Sys2Proof.Machine
end

