-- ==== Sys2Proof/Proofs/Barrows.lean ====
section
/-! PROOF. The barrows: what a GO starts or refuses, and what a line read from the block store sends to the crossbar (O23). -/

namespace Sys2Proof.Machine
open Sys2Proof.Stmt

/-! ### A block's barrows -/

@[simp] theorem Block.barrow_setBarrow (x : Block) (w : Nat) (y : Barrow) : (x.setBarrow w y).barrow w = y := by
  by_cases hw : w = 0 <;> simp [Block.barrow, Block.setBarrow, hw]

/-- Setting a barrow leaves the rest of the block. -/
theorem Block.setBarrow_frame (x : Block) (w : Nat) (y : Barrow) :
    ∃ barrow0 barrow1, x.setBarrow w y = { x with barrow0, barrow1 } := by
  unfold Block.setBarrow
  split <;> exact ⟨_, _, rfl⟩

@[simp] theorem Block.setBarrow_store (x : Block) (w : Nat) (y : Barrow) : (x.setBarrow w y).store = x.store := by
  obtain ⟨_, _, heq⟩ := x.setBarrow_frame w y
  rw [heq]

@[simp] theorem Block.setBarrow_bsw (x : Block) (w : Nat) (y : Barrow) : (x.setBarrow w y).bsw = x.bsw := by
  obtain ⟨_, _, heq⟩ := x.setBarrow_frame w y
  rw [heq]

/-- A move entered at barrow `w`. -/
def Block.withMove (x : Block) (w : Nat) (m : Move) : Block :=
  x.setBarrow w { x.barrow w with moves := (x.barrow w).moves ++ [m] }

theorem Block.barrow_withMove (x : Block) (w : Nat) (m : Move) :
    (x.withMove w m).barrow w = { x.barrow w with moves := (x.barrow w).moves ++ [m] } := x.barrow_setBarrow w _

/-! ### A GO (R169 to R171) -/

/-- A move to a store starts without a request to a tier. -/
theorem State.startMove_store (s : State) (b w p : Nat) {d : Desc} (i : Nat) (h2 : d.dstKind ≠ 2) (h3 : d.dstKind ≠ 3) :
    s.startMove b w p d i =
      (s.count (locBlock b) 0x102 1).onBlock b (fun x => x.withMove w { g := s.cycle, desc := d, iter := i, done := 0 }) := by
  have hkind : ¬ ((d.dstKind.toNat = 2 ∨ d.dstKind.toNat = 3) ∧ !(s.part p).mergeMove d i) := fun ⟨hk, _⟩ =>
    hk.elim (fun h => h2 (BitVec.eq_of_toNat_eq h)) fun h => h3 (BitVec.eq_of_toNat_eq h)
  exact if_neg hkind

/-- The iteration after the descriptor's last starts again at 0 (R169). -/
theorem Barrow.advance_iter (y : Barrow) (t : Nat) (d : Desc) :
    (y.advance t d).iter = if y.iter = d.rep.toNat then 0 else y.iter + 1 := by
  simp [Barrow.advance]

/-- A GO on a descriptor without a predicate: a busy barrow and a bad address are faults, else the move starts. -/
theorem exec_barrowGo_due {b w p k : Nat} {s : State} {row : BitVec 128} {d : Desc} (hrow : s.blockRow b = some row)
    (hgo : row.getLsbD (122 + w) = true) (howner : (s.block b).owner = some p)
    (hcursor : ((s.block b).barrow w).cursor = some k)
    (hdesc : tblRow ((s.part p).barrowTbl (s.block b).vblock w (s.part p).ver) k = some d) (hpen : d.pen = false) :
    let y := (s.block b).barrow w
    let s1 := s.onBlock b (fun x => x.setBarrow w (y.advance s.cycle d))
    exec (.barrowGo b w .ok .ok .ok) s = .next (
      if s.cycle < y.busy then s.partFault 0x30 [p] (locBlock b) (descWord0 d) (s.pathD1 (22 + w))
      else if (s.part p).moveOk d y.iter = true then s1.startMove b w p d y.iter
      else s1.partFault 0x31 [p] (locBlock b) (descWord0 d) (s.pathD1 (22 + w))) := by
  intro y s1
  change execBarrowGo b w .ok .ok .ok s = _
  simp only [execBarrowGo, hrow, howner, State.goBit, reduceCtorEq, if_false, hcursor, Option.bind_some, hdesc, hgo, State.readDesc,
    State.readPred, hpen, Bool.not_true, Bool.not_false, Bool.false_eq_true, if_true, Bool.false_and, Bool.not_eq_true']
  by_cases hbusy : s.cycle < y.busy
  · rw [if_pos hbusy, if_pos hbusy]
    rfl
  · rw [if_neg hbusy, if_neg hbusy]
    cases hok : (s.part p).moveOk d y.iter with
    | true => rfl
    | false => rfl

/-! ### A line read from the block store (R172) -/

/-- A line as the words that a read takes it apart in. -/
theorem foldl_words_eq_mod (x n : Nat) :
    (List.range n).foldl (fun a k => a + bits x (64 * k) 64 * 2 ^ (64 * k)) 0 = x % 2 ^ (64 * n) := by
  induction n with
  | zero => simp [Nat.mod_one]
  | succ n ih =>
    rw [List.range_succ, List.foldl_append, ih, List.foldl_cons, List.foldl_nil, bits, Nat.mul_succ, Nat.pow_add, Nat.mod_mul,
      Nat.mul_comm (x / _ % _)]

/-- A line read without an error is the line (R161). -/
theorem freeWords_nil (free data : Line) : freeWords [] free data = data := by
  simp only [freeWords, List.contains_nil, Bool.false_eq_true, if_false, foldl_words_eq_mod]
  rw [Nat.mod_eq_of_lt (show data.toNat < 2 ^ (64 * 32) from data.isLt), BitVec.ofNat_toNat, BitVec.setWidth_eq]

/-- The line of a move from the block store, with the destination's sideband, on the barrow's own port. -/
def State.storeHop (s : State) (b w p : Nat) (m : Move) : Hop :=
  { cyc := s.cycle + 1, port := 22 + w, beat := {
      sb := (s.part p).dataSb p b m.desc m.iter m.done
      data := Mem.line ((s.block b).storeAt s.cycle) (srcAddr m.desc m.iter m.done).toNat } }

theorem State.moveBeat_store (s : State) (b w p : Nat) {m : Move} (hsrc : m.desc.srcKind = 1) :
    s.moveBeat b w p m [] = ((s.count (locBlock b) 0x104 1).spend 10 (some p) 1, s.storeHop b w p m) := by
  have hkind : m.desc.srcKind.toNat = 1 := by rw [hsrc]; rfl
  simp only [State.moveBeat, hkind, freeWords_nil]
  rfl

/-- The block after line `done` of move `m` at barrow `w` was read and sent as `h`. -/
def Block.lineRead (x : Block) (w : Nat) (m : Move) (h : Hop) : Block :=
  { x.setBarrow w { x.barrow w with moves := ((x.barrow w).moves.map (fun n =>
      if n.g = m.g then { n with done := n.done + 1 } else n)).filter (fun n => decide (n.done ≤ n.desc.lines.toNat)) } with
    xin := x.xin ++ [h] }

/-- The one move of a barrow goes on to its next line, or ends with its last. -/
theorem Block.barrow_lineRead_moves {x : Block} {w : Nat} {m : Move} (hm : (x.barrow w).moves = [m]) (h : Hop) :
    ((x.lineRead w m h).barrow w).moves = if m.done < m.desc.lines.toNat then [{ m with done := m.done + 1 }] else [] := by
  change ((x.setBarrow w _).barrow w).moves = _
  simp [hm, List.filter_cons]

/-- The one move of a barrow whose line is due reads it. -/
theorem exec_barrowLine_due {b w p : Nat} {s : State} {m : Move} (howner : (s.block b).owner = some p)
    (hrun : (s.part p).st = .running) (hm : ((s.block b).barrow w).moves = [m]) (hdue : m.g + 1 + m.done ≤ s.cycle)
    (hsrc : m.desc.srcKind = 1) : exec (.barrowLine b w []) s =
      .next (((s.count (locBlock b) 0x104 1).spend 10 (some p) 1).onBlock b (fun x => x.lineRead w m (s.storeHop b w p m))) := by
  change execBarrowLine b w [] s = _
  simp [execBarrowLine, howner, State.running_eq_true hrun, hm, Move.due, hdue, State.moveBeat_store _ b w p hsrc, Block.lineRead, ok]

/-- Settles O23: a GO is one of the three cases of its equation; a line read is one update of its block. -/
theorem barrowsStartAndRead : Obligations.BarrowsStartAndRead := by
  refine ⟨?_, ?_⟩
  · intro b w p k s row d hrow hgo howner _ hcursor hdesc hpen h2 h3 y
    rw [exec_barrowGo_due hrow hgo howner hcursor hdesc hpen]
    by_cases hbusy : s.cycle < y.busy
    · rw [if_pos hbusy]
      exact ⟨_, rfl, rfl, fun _ _ => rfl, rfl, fun _ => ⟨raisedOne_partFault rfl rfl .., rfl⟩,
        fun hfree => absurd hbusy (Nat.not_lt.2 hfree), fun hfree => absurd hbusy (Nat.not_lt.2 hfree)⟩
    rw [if_neg hbusy]
    by_cases hok : (s.part p).moveOk d y.iter = true
    · rw [if_pos hok, State.startMove_store _ _ _ _ _ h2 h3]
      refine ⟨_, rfl, rfl, fun n hn => ?_, ?_, fun hlt => absurd hlt hbusy, fun _ hbad => by simp [hok] at hbad, fun _ _ => ?_⟩
      · rw [State.onBlock_block_ne _ _ hn, State.count_block, State.onBlock_block_ne _ _ hn]
      · rw [State.onBlock_block_same, State.count_block, State.onBlock_block_same, Block.withMove, Block.setBarrow_store,
          Block.setBarrow_store]
      · rw [State.onBlock_block_same, State.count_block, State.onBlock_block_same, Block.barrow_withMove, Block.barrow_setBarrow]
        exact ⟨rfl, rfl, rfl, y.advance_iter s.cycle d⟩
    · rw [if_neg hok]
      refine ⟨_, rfl, rfl, fun n hn => ?_, ?_, fun hlt => absurd hlt hbusy, fun _ _ => ⟨?_, ?_⟩, fun _ hgood => absurd hgood hok⟩
      · rw [State.partFault_block, State.onBlock_block_ne _ _ hn]
      · rw [State.partFault_block, State.onBlock_block_same, Block.setBarrow_store]
      · exact raisedOne_partFault rfl rfl ..
      · rw [State.partFault_block, State.onBlock_block_same, Block.barrow_setBarrow]
        rfl
  · intro b w p s m howner hrun _ hm hdue hsrc
    rw [exec_barrowLine_due howner hrun hm hdue hsrc]
    refine ⟨_, rfl, rfl, rfl, ?_, ?_, fun n hn => ?_, ?_, ?_⟩
    · rw [State.onBlock_block_same]
      exact Block.setBarrow_store ..
    · rw [State.onBlock_block_same]
      exact Block.setBarrow_bsw ..
    · rw [State.onBlock_block_ne _ _ hn, State.spend_block, State.count_block]
    · rw [State.onBlock_block_same]
      rfl
    · rw [State.onBlock_block_same]
      exact Block.barrow_lineRead_moves hm _

end Sys2Proof.Machine
end

