-- ==== Sys2Proof/Proofs/StoredLines.lean ====
section
/-! SUPPORT. What is listed in a sparse table after a write, and what a stored line of a stack or the cold frame reads as (R216, R218). -/

namespace Sys2Proof.Machine
open Sys2Proof.Stmt

/-! ### Listed entries of a sparse table -/

section
variable {α : Type} {m : SMap α} {k j : Nat} {v : α}

theorem find_cons (e : Nat × α) : find (e :: m) k = if e.1 = k then some e.2 else find m k := by
  by_cases h : e.1 = k <;> simp [find, h]

theorem find_eq_none_of_keys_ne (h : ∀ e ∈ m, e.1 ≠ k) : find m k = none := by
  simpa [find] using h

theorem find_without_ne (hne : j ≠ k) : find (SMap.without m k) j = find m j := by
  induction m with
  | nil => rfl
  | cons e m ih =>
    obtain ⟨k', v'⟩ := e
    rw [SMap.without, find_cons]
    split
    · rw [ih, if_neg (by omega)]
    · rw [find_cons, ih]

theorem find_place (hk : ∀ e ∈ m, e.1 ≠ k) : find (SMap.place m k v) j = if j = k then some v else find m j := by
  induction m with
  | nil => simp [SMap.place, find_cons, eq_comm]
  | cons e m ih =>
    obtain ⟨k', v'⟩ := e
    have hk' : k' ≠ k := hk (k', v') (by simp)
    unfold SMap.place
    split
    · simp only [find_cons, eq_comm]
    · rw [find_cons, find_cons, ih fun e he => hk e (by simp [he])]
      by_cases hj : j = k
      · simp [hj, hk']
      · simp [hj]

variable [DecidableEq α] (d : α)

theorem find_put_same (hv : v ≠ d) : find (put d m k v) k = some v := by
  rw [put, if_neg hv, find_place (without_keys m k), if_pos rfl]

theorem find_put_ne (hne : j ≠ k) : find (put d m k v) j = find m j := by
  unfold put
  split
  · exact find_without_ne hne
  · rw [find_place (without_keys m k), if_neg hne, find_without_ne hne]

end

/-! ### What a stored line reads as (R216, R218) -/

/-- A stored line reads under a filled key slot as the statement has it. -/
theorem readsAs_storedLine (lines : SMap SLine) (blank : SMap Blank) (wipes : SMap (Option Wipe)) (lk zk l tweak : Nat) {key : Nat}
    (hkey : key ≠ 0) : ReadsAs lines blank wipes lk zk l key tweak ((storedLine lines blank wipes lk zk l).readAs key tweak) := by
  refine ⟨fun x hx hxkey hxtweak => ?_, fun hnone hwipe => ⟨fun hbkey hbtweak => ?_, fun hbkey => ?_⟩⟩
  · rw [storedLine, hx, Option.getD_some, SLine.readAs, if_pos ⟨hxkey, hxtweak⟩]
  · rw [storedLine, hnone, hwipe, Option.getD_none, SLine.readAs, if_pos]
    · rfl
    · exact ⟨hbkey, (if_neg (hbkey ▸ hkey)).trans hbtweak⟩
  · rw [storedLine, hnone, hwipe, Option.getD_none, SLine.readAs, if_neg fun h => hkey (h.1.symm.trans hbkey), SLine.cipher]
    exact congrArg _ (if_pos hbkey)

end Sys2Proof.Machine
end

