-- ==== Sys2Proof/Proofs/ColdFrame.lean ====
section
/-! PROOF. The cold frame: the beat of a leased slot is served, a beat for another unit is dropped, and data beats that are due enter
the routers (O36). -/

namespace Sys2Proof.Machine
open Sys2Proof.Stmt

/-! ### What a beat asks for (R252, R253) -/

section
variable {x : Beat}

theorem Beat.isReq_iff {op : Nat} : x.isReq op = true ↔ x.sb.kind = 2 ∧ x.req.op = op := decide_eq_true_iff

theorem Beat.isReq_of_write (h : x.sb.kind = 1) (op : Nat) : x.isReq op = false :=
  decide_eq_false fun hreq => by simp [h] at hreq

theorem Beat.coldAsk_read (h : x.isReq 1 = true) : x.coldAsk = some (.read x.req.paddr) := if_pos h

theorem Beat.coldAsk_open (h : x.isReq 2 = true) : x.coldAsk = some (.openW x.req.paddr (x.req.count + 1)) := by
  have h1 : ¬ x.isReq 1 = true := fun h1 => by
    have hop := (Beat.isReq_iff.1 h1).2
    rw [(Beat.isReq_iff.1 h).2] at hop
    exact absurd hop (by decide)
  exact (if_neg h1).trans (if_pos h)

theorem Beat.coldAsk_write (h : x.sb.kind = 1) : x.coldAsk = some .write := by
  simp [Beat.coldAsk, Beat.isReq_of_write h, h]

/-- Only a live beat asks for anything. -/
theorem Beat.live_of_coldAsk (h : x.coldAsk ≠ none) : x.live = true := by
  refine Beat.live_iff.2 ?_
  unfold Beat.coldAsk at h
  split at h
  · exact .inr (Beat.isReq_iff.1 ‹_›).1
  split at h
  · exact .inr (Beat.isReq_iff.1 ‹_›).1
  split at h
  · exact .inl ‹_›
  · exact absurd rfl h

theorem Beat.forCold_iff : x.forCold = true ↔ x.live = true ∧ x.sb.dkind = 3 := by
  rw [Beat.forCold, Bool.and_eq_true, decide_eq_true_iff]

end

/-! ### Service of one beat (R553) -/

/-- What no service of a beat changes. -/
def State.coldView (s : State) : SMap Cell × SMap Stack × SMap Part × List Hop := (s.cells, s.stks, s.parts, s.cold.arrive)

theorem State.coldView_eq_iff {s t : State} : t.coldView = s.coldView ↔
    t.cells = s.cells ∧ t.stks = s.stks ∧ t.parts = s.parts ∧ t.cold.arrive = s.cold.arrive := by
  simp [State.coldView]

section
variable (s : State)

@[simp] theorem State.coldView_ite (c : Prop) [Decidable c] (t : State) :
    (if c then s else t).coldView = if c then s.coldView else t.coldView := apply_ite ..

@[simp] theorem State.count_coldView (loc ev n : Nat) : (s.count loc ev n).coldView = s.coldView := (rfl)

@[simp] theorem State.spend_coldView (row : Nat) (p : Option Nat) (n : Nat) : (s.spend row p n).coldView = s.coldView := (rfl)

@[simp] theorem State.fresh_coldView : s.fresh.coldView = s.coldView := (rfl)

@[simp] theorem State.partFault_coldView (code : Nat) (parts : List Nat) (unit d0 d1 : Nat) :
    (s.partFault code parts unit d0 d1).coldView = s.coldView := (rfl)

@[simp] theorem State.coldFault_coldView (code p a ch idx bank : Nat) :
    (s.coldFault code p a ch idx bank).coldView = s.coldView := (rfl)

@[simp] theorem State.coldReturn_coldView (h : Hop) (d : Line) : (s.coldReturn h d).coldView = s.coldView := (rfl)

theorem State.coldView_ce (ce : BitVec 16) : ({ s with cold := { s.cold with ce } } : State).coldView = s.coldView := (rfl)

theorem State.coldView_lines (lines : SMap SLine) : ({ s with cold := { s.cold with lines } } : State).coldView = s.coldView := (rfl)

end

/-- A write beat's place in its count, before the beat is served (R197). -/
def State.placed (s : State) (h : Hop) : State :=
  match h.beat.coldAsk, s.coldOpen h.beat.sb.part.toNat h.cyc with
  | some .write, some (ch, o) => s.coldPlace h.beat.sb.part.toNat ch o
  | _, _ => s

theorem State.placed_coldView (s : State) (h : Hop) : (s.placed h).coldView = s.coldView := by
  unfold State.placed
  split <;> rfl

/-- Whatever service does, it touches no cell, stack or partition, and no other beat. -/
theorem State.coldServe_coldView (s : State) (h : Hop) (clash : Bool) (errs : List (Nat × Nat)) :
    (s.coldServe h clash errs).coldView = s.coldView := by
  unfold State.coldServe
  extract_lets p q a sel own ask key zeros s0
  have hzeros (t : State) : (zeros t).coldView = t.coldView := (apply_ite State.coldView ..).trans (ite_self _)
  have hs0 : s0.coldView = s.coldView := s.placed_coldView h
  clear_value zeros s0 sel ask
  split
  · rfl
  split
  · simp [hzeros, hs0]
  split
  · simp [hs0]
  cases sel with
  | none => simp [hzeros, hs0]
  | bank loc => simp [hzeros, hs0]
  | slot loc idx =>
    dsimp only
    split
    · simp [hzeros, hs0]
    split
    · simp [hs0]
    split
    · simp [hzeros, hs0]
    split
    · split <;> simp [hzeros, hs0, State.coldView_ce]
    · split
      · simp [hs0]
      · exact hs0
    · rw [State.spend_coldView, State.count_coldView, State.coldView_lines, hs0]

section
variable (s : State) (h : Hop) (d : Line)

theorem State.coldReturn_lines : (s.coldReturn h d).cold.lines = s.cold.lines := rfl

theorem State.coldReturn_raised : (s.coldReturn h d).raised = s.raised := rfl

/-- The data beat leaves 156 cycles after its READ (R252). -/
theorem State.coldReturn_rets :
    (s.coldReturn h d).cold.rets = s.cold.rets ++ [{ dataBeat h d false with due := h.cyc + 156, ch := 0 }] := rfl

end

/-- The open count under `key` becomes `o`. -/
def State.withOpen (s : State) (key : Nat) (o : Option OpenCount) : State :=
  { s with cold := { s.cold with opens := put none s.cold.opens key o } }

theorem State.look_withOpen (s : State) (key : Nat) (o : Option OpenCount) : look none (s.withOpen key o).cold.opens key = o :=
  look_put_same ..

/-- Line `key` of the cold frame becomes `x`. -/
def State.withLine (s : State) (key : Nat) (x : SLine) : State :=
  { s with cold := { s.cold with lines := put {} s.cold.lines key x } }

theorem State.withLine_opens (s : State) (key : Nat) (x : SLine) : (s.withLine key x).cold.opens = s.cold.opens := rfl

theorem State.find_withLine_same (s : State) (key : Nat) {x : SLine} (hx : x.key ≠ 0) :
    find (s.withLine key x).cold.lines key = some x := find_put_same _ fun heq => hx (congrArg SLine.key heq)

theorem State.find_withLine_ne (s : State) {key j : Nat} (x : SLine) (hj : j ≠ key) :
    find (s.withLine key x).cold.lines j = find s.cold.lines j := find_put_ne _ hj

/-- The slot that beat `h`'s address `a` selects is the partition's, and the cold frame works (R250, R553). -/
structure State.ColdGranted (s : State) (h : Hop) (a : Nat) (loc : LeaseLoc) (idx : Nat) : Prop where
  works : s.cold.state ≠ .failed
  addr : s.coldAddr h = some a
  slot : (s.part h.beat.sb.part.toNat).coldSel (!h.beat.isReq 1) a h.cyc = .slot loc idx
  leased : (s.part h.beat.sb.part.toNat).leases? 3 0 loc.ch 0 idx = true

section
variable {s : State} {h : Hop} {a idx : Nat} {loc : LeaseLoc} (hg : s.ColdGranted h a loc idx)
include hg

theorem State.ColdGranted.coldSelOf_eq : s.coldSelOf h = .slot loc idx := by
  simp only [State.coldSelOf, hg.addr, hg.slot]

/-- A READ under an empty key slot returns zeros, with a fault. -/
theorem State.ColdGranted.serve_noKey (hreq : h.beat.isReq 1 = true) (hkey : look 0 s.cold.keys h.beat.sb.part.toNat = 0) :
    s.coldServe h false [] =
      (s.coldFault 0x64 h.beat.sb.part.toNat a loc.ch idx (a / 256 % 16)).coldReturn h 0 := by
  simp [State.coldServe, Beat.coldAsk_read hreq, hg.works, hg.coldSelOf_eq, hg.addr, hg.leased, hkey, hreq]

section
variable (hkey : look 0 s.cold.keys h.beat.sb.part.toNat ≠ 0)
include hkey

/-- A READ under a filled key slot returns its line as it reads under the key. -/
theorem State.ColdGranted.serve_read (hreq : h.beat.isReq 1 = true) : s.coldServe h false [] =
    (((s.count locHub 0x404 1).count locHub 0x405 0).spend 12 (some h.beat.sb.part.toNat) 1).coldReturn h
      ((s.cold.stored loc (a % 2 ^ 30 / 256)).readAs (look 0 s.cold.keys h.beat.sb.part.toNat) (a / 256)) := by
  simp [State.coldServe, Beat.coldAsk_read hreq, hg.works, hg.coldSelOf_eq, hg.addr, hg.leased, hkey, coldEcc]
  rfl

/-- A WRITE_OPEN with no count open on the channel opens one. -/
theorem State.ColdGranted.serve_open (hreq : h.beat.isReq 2 = true)
    (hnone : look none s.cold.opens (openKey h.beat.sb.part.toNat loc.ch) = none) : s.coldServe h false [] =
    s.withOpen (openKey h.beat.sb.part.toNat loc.ch) (some { paddr := a, lines := h.beat.req.count + 1, next := 0 }) := by
  simp [State.coldServe, Beat.coldAsk_open hreq, hg.works, hg.coldSelOf_eq, hg.addr, hg.leased, hkey, hnone, State.withOpen]

/-- A write beat of an open count writes its line, and the count takes its next place. -/
theorem State.ColdGranted.serve_write {c : Nat} {o : OpenCount} (hkind : h.beat.sb.kind = 1)
    (hown : s.coldOpen h.beat.sb.part.toNat h.cyc = some (c, o)) : s.coldServe h false [] =
    (((s.withOpen (openKey h.beat.sb.part.toNat c)
      (if o.next + 1 < o.lines then some { o with next := o.next + 1 } else none)).withLine (coldKeyOf loc a)
        { key := look 0 s.cold.keys h.beat.sb.part.toNat, tweak := a / 256, data := h.beat.data }).count locHub 0x404 1).spend
          12 (some h.beat.sb.part.toNat) 1 := by
  simp [State.coldServe, Beat.coldAsk_write hkind, hg.works, hg.coldSelOf_eq, hg.addr, hg.leased, hkey, hown, State.coldPlace,
    State.withOpen, State.withLine]

end

end

/-! ### The rows -/

/-- The state in which the beats at the hub end have been taken. -/
def State.hubTaken (s : State) : State := { s with cold := { s.cold with arrive := [] } }

section
variable {s : State} {h : Hop} (harrive : s.cold.arrive = [h]) (hdue : h.cyc ≤ s.cycle)
  (hrun : (s.part h.beat.sb.part.toNat).st = .running)
include harrive hdue hrun

theorem exec_coldRequest_served (hcold : h.beat.forCold = true) :
    exec (.coldRequest [] []) s = .next (s.hubTaken.coldServe h false []) := by
  have hclash (e : Hop × ColdSel) : coldClash [e] e = false := by
    unfold coldClash
    split
    · exact decide_eq_false (Nat.not_lt.2 (List.length_filter_le _ [e]))
    · rfl
  change execColdRequest [] [] s = _
  simp [execColdRequest, harrive, Hop.split_due hdue, State.running_eq_true hrun, State.hubBeats, hcold, State.coldPicks, hclash,
    State.hubTaken, ok]

/-- A beat for another unit is dropped with a fault (R184). -/
theorem exec_coldRequest_dropped (hcold : h.beat.forCold = false) : exec (.coldRequest [] []) s =
    .next (s.hubTaken.partFault 0x32 [h.beat.sb.part.toNat] locHub h.beat.sb.toNat (s.hubTaken.pathD1 (12 + h.port % 8))) := by
  change execColdRequest [] [] s = _
  simp [execColdRequest, harrive, Hop.split_due hdue, State.running_eq_true hrun, State.hubBeats, hcold, State.coldPicks,
    State.hubTaken, ok]

end

/-- A data beat that is due is at the router of the region it was asked from (R252). -/
theorem exec_coldDataReturn_one {s : State} {r : Ret} (hrets : s.cold.rets = [r]) (hdue : r.due ≤ s.cycle) :
    exec .coldDataReturn s = .next (({ s with cold := { s.cold with rets := [] } } : State).onBlock (16 * (r.port / 8)) (fun x =>
      { x with rin := x.rin ++ [{ cyc := s.cycle, port := 12 + r.port % 8, beat := r.beat }] })) := by
  change execColdDataReturn s = _
  simp [execColdDataReturn, hrets, hdue, ok]

theorem Stack.landMerge_of_no_rets {x : Stack} (h : x.rets = []) (t : Nat) : x.landMerge t = x := by
  cases x
  subst h
  rfl

/-- A data beat that is due at a stack is at the router on its attachment channel (R196). -/
theorem exec_stackDataReturn_one {k : Nat} {s : State} {r : Ret} (hrets : (s.stack k).rets = [r]) (hmerge : r.merge = false)
    (hdue : r.due ≤ s.cycle) : exec (.stackDataReturn k) s = .next ((s.onStack k (fun x => { x with rets := [] })).onBlock
      (stackBlock k) (fun x => { x with rin := x.rin ++ [{ cyc := s.cycle, port := 12 + r.port, beat := r.beat }] })) := by
  have hstack : s.onStack k (fun x => { x with rets := x.rets.filter (fun r => r.merge || decide (s.cycle < r.due)) }.landMerge
      s.cycle) = s.onStack k (fun x => { x with rets := [] }) := by
    have hnone : (s.stack k).rets.filter (fun r => r.merge || decide (s.cycle < r.due)) = [] := by simp [hrets, hmerge, hdue]
    refine congrArg (fun x => { s with stks := put Stack.zero s.stks k x }) ?_
    change Stack.landMerge { s.stack k with rets := (s.stack k).rets.filter _ } _ = _
    rw [hnone, Stack.landMerge_of_no_rets rfl]
    rfl
  change execStackDataReturn k s = _
  simp [execStackDataReturn, hstack, hrets, hmerge, hdue, ok]

/-- Settles O36: a granted beat is served in one of four ways, any other unit's is dropped, and a beat that is due moves on. -/
theorem coldFrameServes : Obligations.ColdFrameServes := by
  refine ⟨?_, ?_, ?_, ?_⟩
  · intro s h a idx loc harrive hdue haddr p key hrun hdkind hworks hslot hleased
    have hask : h.beat.coldAsk ≠ none := fun hnone => by simp [State.coldAddr, hnone] at haddr
    have hcold : h.beat.forCold = true := Beat.forCold_iff.2 ⟨Beat.live_of_coldAsk hask, hdkind⟩
    have hg : s.hubTaken.ColdGranted h a loc idx := ⟨hworks, haddr, hslot, hleased⟩
    rw [exec_coldRequest_served harrive hdue hrun hcold]
    obtain ⟨hcells, hstks, hparts, harrive'⟩ := State.coldView_eq_iff.1 (s.hubTaken.coldServe_coldView h false [])
    refine ⟨_, rfl, harrive', hcells, hstks, hparts, fun hkey hreq => ?_, fun hkey hreq => ?_, fun hkey hreq hnone => ?_,
      fun c o hkey hkind hown => ?_⟩
    · rw [hg.serve_read hkey hreq]
      rw [State.coldReturn_lines, State.coldReturn_raised, State.coldReturn_rets, State.spend_raised, State.count_raised,
        State.count_raised, State.spend_cold, State.count_cold, State.count_cold]
      exact ⟨rfl, rfl, _, readsAs_storedLine _ _ _ _ _ _ _ hkey, rfl⟩
    · rw [hg.serve_noKey hreq hkey]
      rw [State.coldReturn_rets]
      exact ⟨rfl, raisedOne_partFault rfl rfl .., rfl⟩
    · rw [hg.serve_open hkey hreq hnone]
      exact ⟨rfl, rfl, State.look_withOpen ..⟩
    · rw [hg.serve_write hkey hkind hown]
      rw [State.spend_raised, State.count_raised, State.spend_cold, State.count_cold]
      exact ⟨rfl, rfl, State.find_withLine_same _ _ hkey, fun j hj => State.find_withLine_ne _ _ hj, State.look_withOpen ..⟩
  · intro s h harrive hdue hrun hother
    have hcold : h.beat.forCold = false := by
      refine Bool.eq_false_iff.2 fun hyes => ?_
      obtain ⟨hlive, hdkind⟩ := Beat.forCold_iff.1 hyes
      rcases hother with h | h | h
      · exact h hdkind
      all_goals rcases Beat.live_iff.1 hlive with h' | h' <;> exact absurd (h.symm.trans h') (by decide)
    rw [exec_coldRequest_dropped harrive hdue hrun hcold]
    exact ⟨_, rfl, rfl, raisedOne_partFault rfl rfl ..⟩
  · intro s r hrets hdue
    rw [exec_coldDataReturn_one hrets hdue]
    refine ⟨_, rfl, rfl, rfl, ?_, fun b hb => State.onBlock_block_ne _ _ hb⟩
    rw [State.onBlock_block_same]
    rfl
  · intro k s r hrets hmerge hdue
    rw [exec_stackDataReturn_one hrets hmerge hdue]
    refine ⟨_, rfl, ?_, ?_, ?_, fun b hb => State.onBlock_block_ne _ _ hb⟩
    · rw [State.onBlock_stack, State.onStack_stack_same]
    · rw [State.onBlock_stack, State.onStack_stack_same]
    · rw [State.onBlock_block_same, State.onStack_block]

end Sys2Proof.Machine
end

