-- ==== Sys2Proof/Proofs/StackBeats.lean ====
section
/-! SUPPORT. One beat at a stack: how it is taken, what that and a fault against its sender leave alone, and what the code makes of
a line without an error (R161, R199, R208). -/

namespace Sys2Proof.Machine
open Sys2Proof.Stmt

/-! ### What the service of a beat leaves alone -/

section
variable {s u : State} {k : Nat} (hflow : OnlyStackFlow s u k)
include hflow

/-- An update of the stack that keeps its lines and queues nothing for it. -/
theorem onlyStackFlow_onStack {f : Stack → Stack} (hlines : ∀ x, (f x).lines = x.lines)
    (harrive : ∀ x, (f x).arrive = x.arrive) : OnlyStackFlow s (u.onStack k f) k := by
  obtain ⟨hl, ha, hother, hrest⟩ := hflow
  refine ⟨?_, ?_, fun j hj => ?_, hrest⟩
  · rw [State.onStack_stack_same, hlines, hl]
  · rw [State.onStack_stack_same, harrive, ha]
  · rw [State.onStack_stack_ne _ _ hj, hother j hj]

theorem onlyStackFlow_stkFault (code p paddr : Nat) (z : Slt) (bank : Nat) :
    OnlyStackFlow s (u.stkFault k code p paddr z bank) k := hflow

theorem onlyStackFlow_count (loc ev n : Nat) : OnlyStackFlow s (u.count loc ev n) k := hflow

theorem onlyStackFlow_spend (row : Nat) (p : Option Nat) (n : Nat) : OnlyStackFlow s (u.spend row p n) k := hflow

end

@[simp] theorem State.stkFault_stack (s : State) (k code p paddr : Nat) (z : Slt) (bank j : Nat) :
    (s.stkFault k code p paddr z bank).stack j = s.stack j := rfl

/-- A stack's fault raised in a state that has raised what `s` has, in the same cycle. -/
theorem raisedOne_stkFault {s u : State} (hraised : u.raised = s.raised) (hcycle : u.cycle = s.cycle) (k code p paddr : Nat)
    (z : Slt) (bank : Nat) : RaisedOne s (u.stkFault k code p paddr z bank) .partition code [p] :=
  raisedOne_partFault hraised hcycle ..

/-! ### The beat is taken (R161) -/

/-- `u` is `s` with the one beat at stack `k` taken, as far as its service can tell. -/
structure State.Takes (s u : State) (k : Nat) : Prop where
  stack : u.stack k = { s.stack k with arrive := [] }
  flow : OnlyStackFlow s u k
  raised : u.raised = s.raised
  cycle : u.cycle = s.cycle

/-- The state in which the one beat at stack `k` is taken. -/
def State.stackTaken (s : State) (k : Nat) : State := s.onStack k (fun y => { y with arrive := [] })

theorem State.stackTaken_stack (s : State) (k : Nat) : (s.stackTaken k).stack k = { s.stack k with arrive := [] } :=
  State.onStack_stack_same ..

theorem State.takes_stackTaken (s : State) (k : Nat) : s.Takes (s.stackTaken k) k where
  stack := s.stackTaken_stack k
  flow := by
    refine ⟨?_, ?_, fun j hj => State.onStack_stack_ne _ _ hj, rfl, rfl, rfl, rfl⟩
    · rw [State.stackTaken_stack]
    · rw [State.stackTaken_stack]
  raised := rfl
  cycle := rfl

theorem takeHop_one {h : Hop} {now : Nat} {f : Hop → Bool} (hdue : h.cyc ≤ now) (hf : f h = true) :
    takeHop [h] now f = some (h, []) := by
  simp [takeHop, hdue, hf]

/-- The one beat at a stack, without an error, is taken and served. -/
theorem State.withHop_one {s : State} {k : Nat} {h : Hop} (hat : AtStack s k h) {f : Hop → Bool} (hf : f h = true)
    (g : State → Hop → State) : s.withHop k [] f g = .next (g (s.stackTaken k) h) := by
  obtain ⟨harrive, hdue, hrun⟩ := hat
  simp [State.withHop, harrive, takeHop_one hdue hf, State.running_eq_true hrun, State.stackTaken, ok]

/-! ### A line without an error (R208 to R210) -/

@[simp] theorem errAt_nil (h k : Nat) : errAt [] h k = 0 := rfl

@[simp] theorem errSyms_nil (h : Nat) : errSyms [] h = [] := by
  simp [errSyms]

@[simp] theorem halfEcc_nil (x : Line) (h : Nat) : halfEcc x [] h = .clean := by
  simp [halfEcc]

@[simp] theorem lineEcc_nil (x : Line) : lineEcc x [] = (0, false, false) := by
  simp [lineEcc, b2n]

@[simp] theorem SLine.readEcc_nil (x : SLine) (key tweak : Nat) : x.readEcc [] key tweak = x.readAs key tweak := by
  simp [SLine.readEcc]

end Sys2Proof.Machine
end

