-- ==== Sys2Proof/Proofs/StackReads.lean ====
section
/-! PROOF. READs at a stack: a performed one returns its line, one under an empty key slot zeros with a fault, a merge fetch feeds
its buffer, and a merge slot returns the merged line (O34). -/

namespace Sys2Proof.Machine
open Sys2Proof.Stmt

/-! ### A line is read (R196, R199) -/

/-- The state in which stack `k` has read a line without an error for beat `h`, from bank `bank`. -/
def State.lineRead (s : State) (k : Nat) (h : Hop) (bank : Nat) : State :=
  ((((s.onStack k (fun y => y.use (slotOf h.cyc h.port) bank)).count (locRegion (k / 3)) 0x203 1).spend 11
    (some h.beat.sb.part.toNat) 1).onStack k (fun y => { y with ce := y.ce + 0 })).count (locRegion (k / 3)) 0x204 0

theorem State.lineRead_rets (s : State) (k : Nat) (h : Hop) (bank : Nat) :
    ((s.lineRead k h bank).stack k).rets = (s.stack k).rets := by
  simp [State.lineRead, Stack.use]

theorem State.lineRead_raised (s : State) (k : Nat) (h : Hop) (bank : Nat) : (s.lineRead k h bank).raised = s.raised := by
  simp [State.lineRead]

theorem State.lineRead_cycle (s : State) (k : Nat) (h : Hop) (bank : Nat) : (s.lineRead k h bank).cycle = s.cycle := by
  simp [State.lineRead]

theorem onlyStackFlow_lineRead {s u : State} {k : Nat} (hflow : OnlyStackFlow s u k) (h : Hop) (bank : Nat) :
    OnlyStackFlow s (u.lineRead k h bank) k := by
  have hused : OnlyStackFlow s (u.onStack k (fun y => y.use (slotOf h.cyc h.port) bank)) k :=
    onlyStackFlow_onStack hflow (fun _ => rfl) fun _ => rfl
  have hcounted := onlyStackFlow_spend (onlyStackFlow_count hused (locRegion (k / 3)) 0x203 1) 11 (some h.beat.sb.part.toNat) 1
  refine onlyStackFlow_count (onlyStackFlow_onStack hcounted ?_ ?_) ..
  all_goals exact fun _ => rfl

section
variable {s u : State} {k : Nat} {h : Hop} {loc : LeaseLoc} {lease off : Nat} (htakes : s.Takes u k)
include htakes

/-- A READ that every check lets through gives its line as it reads under the partition's key (R199, R203, R216). -/
theorem State.Takes.serveRead_performed (hperf : StackPerforms s k h h.beat.req.paddr loc lease off) : u.serveRead k h [] =
    (u.lineRead k h (dramBank loc.sub (off / 256)), ((s.stack k).stored loc (off / 256)).readAs
      ((s.stack k).key h.beat.sb.part.toNat) ((lease * 2 ^ 30 + off) / 256), true) := by
  obtain ⟨hworks, hkey, htarget, hunit, hch, hspaced⟩ := hperf
  obtain ⟨-, -, -, -, -, hparts, -⟩ := htakes.flow
  have hworks' : (u.stack k).state ≠ .failed := by rwa [htakes.stack]
  have hkey' : (u.stack k).key h.beat.sb.part.toNat = (s.stack k).key h.beat.sb.part.toNat := by rw [htakes.stack]; rfl
  have htarget' : (u.part h.beat.sb.part.toNat).target h.beat.req.paddr = .at loc lease off := by
    rw [← htarget, State.part, hparts]; rfl
  have hspaced' : (u.stack k).spaced (slotOf h.cyc h.port) (dramBank loc.sub (off / 256)) = true := by rwa [htakes.stack]
  have hstored : (u.stack k).stored loc (off / 256) = (s.stack k).stored loc (off / 256) := by rw [htakes.stack]; rfl
  simp [State.serveRead, hworks', hkey', hkey, htarget', hunit, hch, hspaced', hstored, State.lineRead]

/-- A READ under an empty key slot gives zeros and a fault (R217). -/
theorem State.Takes.serveRead_noKey (hworks : (s.stack k).state ≠ .failed) (hkey : (s.stack k).key h.beat.sb.part.toNat = 0) :
    u.serveRead k h [] =
      (u.stkFault k 0x44 h.beat.sb.part.toNat h.beat.req.paddr (slotOf h.cyc h.port) 0, 0, false) := by
  have hworks' : (u.stack k).state ≠ .failed := by rwa [htakes.stack]
  have hkey' : (u.stack k).key h.beat.sb.part.toNat = 0 := by rw [← hkey, htakes.stack]; rfl
  simp [State.serveRead, hworks', hkey']

end

/-! ### The data beat (R196) -/

section
variable {s u : State} {k : Nat} (h : Hop) (d : Line) (merge : Bool)

theorem State.returns_rets : ((u.returns k h d merge).stack k).rets = (u.stack k).rets ++ [dataBeat h d merge] := by
  simp [State.returns, dataBeat]

theorem State.returns_raised : (u.returns k h d merge).raised = u.raised := rfl

theorem onlyStackFlow_returns (hflow : OnlyStackFlow s u k) : OnlyStackFlow s (u.returns k h d merge) k :=
  onlyStackFlow_onStack hflow (fun _ => rfl) fun _ => rfl

end

/-- A line read and queued. -/
theorem State.Takes.returns_lineRead {s u : State} {k : Nat} (htakes : s.Takes u k) (h : Hop) (bank : Nat) (d : Line)
    (merge : Bool) : OnlyStackFlow s ((u.lineRead k h bank).returns k h d merge) k ∧
      (((u.lineRead k h bank).returns k h d merge).stack k).rets = (s.stack k).rets ++ [dataBeat h d merge] ∧
      ((u.lineRead k h bank).returns k h d merge).raised = s.raised := by
  refine ⟨onlyStackFlow_returns _ _ _ (onlyStackFlow_lineRead htakes.flow _ _), ?_, ?_⟩
  · rw [State.returns_rets, State.lineRead_rets, htakes.stack]
  · rw [State.returns_raised, State.lineRead_raised, htakes.raised]

/-- What a performed READ gives is what the statement says of the line (R216, R218). -/
theorem stackReadsAs_performed {s : State} {k : Nat} {h : Hop} {a : Nat} {loc : LeaseLoc} {lease off : Nat}
    (hperf : StackPerforms s k h a loc lease off) : StackReadsAs s k h.beat.sb.part.toNat loc lease off
      (((s.stack k).stored loc (off / 256)).readAs ((s.stack k).key h.beat.sb.part.toNat) ((lease * 2 ^ 30 + off) / 256)) := by
  obtain ⟨-, hkey, -⟩ := hperf
  exact readsAs_storedLine _ _ _ _ _ _ _ hkey

/-! ### The rows -/

/-- A stack to whose merge buffers no line is on its way has none to land (R236). -/
theorem Stack.landMerge_of_no_merge {x : Stack} (hrets : ∀ r ∈ x.rets, r.merge = false) (t : Nat) : x.landMerge t = x := by
  have hnone : x.rets.filter (fun r => r.merge && decide (r.due < t)) = [] :=
    List.filter_eq_nil_iff.2 fun r hr => by simp [hrets r hr]
  have hall : x.rets.filter (fun r => !(r.merge && decide (r.due < t))) = x.rets :=
    List.filter_eq_self.2 fun r hr => by simp [hrets r hr]
  rw [Stack.landMerge, hnone, hall]
  rfl

/-- The state in which a beat of cycle `y` is taken and the merge buffers hold what was written before `y`. -/
def State.mergeTaken (s : State) (k y : Nat) : State := (s.stackTaken k).onStack k (fun x => x.landMerge y)

theorem State.takes_mergeTaken {s : State} {k : Nat} (hrets : ∀ r ∈ (s.stack k).rets, r.merge = false) (y : Nat) :
    s.Takes (s.mergeTaken k y) k := by
  have htaken := s.takes_stackTaken k
  have hstack : (s.mergeTaken k y).stack k = { s.stack k with arrive := [] } := by
    rw [State.mergeTaken, State.onStack_stack_same, htaken.stack]
    exact Stack.landMerge_of_no_merge (x := { s.stack k with arrive := [] }) hrets y
  obtain ⟨-, -, hother, hrest⟩ := htaken.flow
  refine ⟨hstack, ⟨?_, ?_, fun j hj => ?_, hrest⟩, rfl, rfl⟩
  · rw [hstack]
  · rw [hstack]
  · rw [State.mergeTaken, State.onStack_stack_ne _ _ hj, hother j hj]

section
variable {s : State} {k : Nat} {h : Hop} (hat : AtStack s k h) (hreq : h.beat.isReq 1 = true)
include hat hreq

theorem exec_stackRead_one (hfetch : mergeRet k h.beat.req.ret = false) (hmerges : s.merges k h.cyc h.port = false) {t : State}
    {d : Line} {whole : Bool} (hserve : (s.stackTaken k).serveRead k h [] = (t, d, whole)) :
    exec (.stackRead k [] []) s = .next (t.returns k h d false) := by
  change execStackRead k [] [] s = _
  rw [execStackRead, State.withHop_one hat (by simp [hreq, hfetch, hmerges])]
  simp only [hserve]

theorem exec_mergeFetch_one (hfetch : mergeRet k h.beat.req.ret = true) {t : State} {d : Line} {whole : Bool}
    (hserve : (s.stackTaken k).serveRead k h [] = (t, d, whole)) : exec (.mergeFetch k [] []) s = .next (
      if (s.part h.beat.sb.part.toNat).leases? 4 0 (16 * (s.part h.beat.sb.part.toNat).bindStack k + (slotOf h.cyc h.port).ch) 0
          (h.beat.req.ret.line.toNat % 128) then t.returns k h d true
      else t.stkFault k 0x50 h.beat.sb.part.toNat h.beat.req.paddr (slotOf h.cyc h.port) 0) := by
  change execMergeFetch k [] [] s = _
  rw [execMergeFetch, State.withHop_one hat (by simp [hreq, hfetch])]
  simp only [hserve]
  rfl

theorem exec_mergedRead_one (hfetch : mergeRet k h.beat.req.ret = false) (hmerges : s.merges k h.cyc h.port = true) {q : Nat}
    {row : BitVec 32} (hrow : s.mergeRow k h.cyc h.port = some (q, row)) {t : State} {d : Line}
    (hserve : (s.mergeTaken k h.cyc).serveRead k h [] = (t, d, true)) : exec (.mergedRead k [] .ok .ok []) s = .next (
      (t.count (locRegion (k / 3)) 0x208 1).returns k h (mergeLine row ((List.range (bits row.toNat 24 2 + 1)).map (fun i =>
        look 0#2048 (((s.mergeTaken k h.cyc).stack k).chan (slotOf h.cyc h.port).ch).mbuf (bits row.toNat 10 7 + i))) d)
          false) := by
  have hbit : row.getLsbD 31 = true := by
    rw [State.merges, hrow] at hmerges
    exact hmerges
  have hrow' : (s.mergeTaken k h.cyc).mergeRow k h.cyc h.port = some (q, row) := hrow
  change execMergedRead k [] .ok .ok [] s = _
  rw [execMergedRead, State.withHop_one hat (by simp [hreq, hfetch, hmerges])]
  rw [State.mergeTaken] at hserve hrow'
  simp [hrow', State.readMergeRow, hserve, hbit, State.mergeTaken]

end

/-- Settles O34: the checks of `serveRead` let the READ through or find the key slot empty, and the row says where its line goes. -/
theorem stackReadsReturnLines : Obligations.StackReadsReturnLines := by
  intro k lease off s h loc hat hreq p a
  have htaken := s.takes_stackTaken k
  refine ⟨fun hfetch hmerges => ⟨fun hperf => ?_, fun hworks hkey => ?_⟩, fun hfetch hperf => ?_,
    fun q row hfetch hmerges hrow hrets hperf => ?_⟩
  · obtain ⟨hflow, hdata, hraised⟩ := htaken.returns_lineRead h (dramBank loc.sub (off / 256)) _ false
    exact ⟨_, _, exec_stackRead_one hat hreq hfetch hmerges (htaken.serveRead_performed hperf), hflow,
      stackReadsAs_performed hperf, hdata, hraised⟩
  · refine ⟨_, exec_stackRead_one hat hreq hfetch hmerges (htaken.serveRead_noKey hworks hkey),
      onlyStackFlow_returns _ _ _ (onlyStackFlow_stkFault htaken.flow ..), ?_, ?_⟩
    · rw [State.returns_rets, State.stkFault_stack, htaken.stack]
    · exact raisedOne_stkFault htaken.raised htaken.cycle ..
  · refine ⟨_, _, exec_mergeFetch_one hat hreq hfetch (htaken.serveRead_performed hperf), ?_,
      stackReadsAs_performed hperf, ?_⟩
    all_goals split
    · exact (htaken.returns_lineRead ..).1
    · exact onlyStackFlow_stkFault (onlyStackFlow_lineRead htaken.flow ..) ..
    · exact (htaken.returns_lineRead ..).2
    · rw [State.stkFault_stack, State.lineRead_rets, htaken.stack]
      exact ⟨rfl, raisedOne_stkFault ((State.lineRead_raised ..).trans htaken.raised)
        ((State.lineRead_cycle ..).trans htaken.cycle) ..⟩
  · have hmerge := State.takes_mergeTaken hrets h.cyc
    rw [exec_mergedRead_one hat hreq hfetch hmerges hrow (hmerge.serveRead_performed hperf), hmerge.stack]
    refine ⟨_, _, rfl, ?_, stackReadsAs_performed hperf, ?_⟩
    · exact onlyStackFlow_returns _ _ _ (onlyStackFlow_count (onlyStackFlow_lineRead hmerge.flow ..) ..)
    · rw [State.returns_rets, State.returns_raised, State.count_stack, State.count_raised, State.lineRead_rets,
        State.lineRead_raised, hmerge.stack, hmerge.raised]
      exact ⟨rfl, rfl⟩

end Sys2Proof.Machine
end

