-- ==== Sys2Proof/Proofs/StackWrites.lean ====
section
/-! PROOF. Writes at a stack: a WRITE_OPEN opens a count or is refused, and a write beat writes the line of its place (O35). -/

namespace Sys2Proof.Machine
open Sys2Proof.Stmt

/-- The line of a write's place (R203, R227). -/
theorem Part.writeLoc_eq_some {p : Part} {k ch a : Nat} {loc : LeaseLoc} (hwindow : a / 2 ^ 30 < 0x3F0)
    (hentry : p.writeEntry .stack (a / 2 ^ 30) = some loc) (hunit : loc.unit = k) (hch : loc.ch = ch) :
    p.writeLoc k ch a = some loc := by
  rw [Part.writeLoc, Part.targetW, if_neg (Nat.not_le.2 hwindow), hentry]
  simp [hunit, hch]

/-! ### Counts and lines of a stack -/

/-- The open count of stack `k` under `key` becomes `o`. -/
def State.stackOpen (s : State) (k key : Nat) (o : Option OpenCount) : State :=
  s.onStack k (fun y => { y with opens := put none y.opens key o })

/-- Line `lk` of stack `k` becomes `x`, its bank in use by the burst slot `z`. -/
def State.stackLine (s : State) (k : Nat) (z : Slt) (bank lk : Nat) (x : SLine) : State :=
  s.onStack k (fun y => { y.use z bank with lines := put {} y.lines lk x })

section
variable {s u : State} {k : Nat}

theorem State.stackOpen_opens (key : Nat) (o : Option OpenCount) :
    ((u.stackOpen k key o).stack k).opens = put none (u.stack k).opens key o := by
  rw [State.stackOpen, State.onStack_stack_same]

theorem State.stackOpen_lines (key : Nat) (o : Option OpenCount) :
    ((u.stackOpen k key o).stack k).lines = (u.stack k).lines := by
  rw [State.stackOpen, State.onStack_stack_same]

theorem State.stackOpen_raised (key : Nat) (o : Option OpenCount) : (u.stackOpen k key o).raised = u.raised := rfl

theorem onlyStackFlow_stackOpen (hflow : OnlyStackFlow s u k) (key : Nat) (o : Option OpenCount) :
    OnlyStackFlow s (u.stackOpen k key o) k :=
  onlyStackFlow_onStack hflow (fun _ => rfl) fun _ => rfl

variable (z : Slt) (bank lk : Nat) (x : SLine)

theorem State.stackLine_lines : ((u.stackLine k z bank lk x).stack k).lines = put {} (u.stack k).lines lk x := by
  rw [State.stackLine, State.onStack_stack_same]

theorem State.stackLine_opens : ((u.stackLine k z bank lk x).stack k).opens = (u.stack k).opens := by
  rw [State.stackLine, State.onStack_stack_same, Stack.use]

theorem State.stackLine_raised : (u.stackLine k z bank lk x).raised = u.raised := rfl

theorem State.stackLine_cells : (u.stackLine k z bank lk x).cells = u.cells := rfl

theorem State.stackLine_parts : (u.stackLine k z bank lk x).parts = u.parts := rfl

theorem State.stackLine_stack_ne {j : Nat} (hj : j ≠ k) : (u.stackLine k z bank lk x).stack j = u.stack j :=
  State.onStack_stack_ne _ _ hj

end

/-! ### WRITE_OPEN (R197, R199) -/

section
variable {s : State} {k : Nat} {h : Hop} (hat : AtStack s k h) (hreq : h.beat.isReq 2 = true)
include hat hreq

/-- A count that is open already is kept, and the sender is at fault. -/
theorem exec_stackWriteOpen_again
    (hopen : look none (s.stack k).opens (openKey h.beat.sb.part.toNat (slotOf h.cyc h.port).ch) ≠ none)
    (hworks : (s.stack k).state ≠ .failed) (hkey : (s.stack k).key h.beat.sb.part.toNat ≠ 0) : exec (.stackWriteOpen k []) s =
      .next ((s.stackTaken k).stkFault k 0x43 h.beat.sb.part.toNat h.beat.req.paddr (slotOf h.cyc h.port) 0) := by
  have hkey' : ({ s.stack k with arrive := [] } : Stack).key h.beat.sb.part.toNat ≠ 0 := hkey
  change execStackWriteOpen k [] s = _
  rw [execStackWriteOpen, State.withHop_one hat hreq]
  simp [State.stackTaken_stack, hworks, hkey', Option.isSome_iff_ne_none, hopen]

variable {loc : LeaseLoc} (htakes : StackTakes s k h h.beat.req.paddr loc)
  (hnone : look none (s.stack k).opens (openKey h.beat.sb.part.toNat (slotOf h.cyc h.port).ch) = none)
include htakes hnone

/-- Where the stack has a place and no count is open, the bank's spacing decides. -/
theorem exec_stackWriteOpen_first : exec (.stackWriteOpen k []) s = .next (
    if (s.stack k).spaced (slotOf h.cyc h.port) (dramBank loc.sub (h.beat.req.paddr % 2 ^ 30 / 256)) then
      (s.stackTaken k).stackOpen k (openKey h.beat.sb.part.toNat (slotOf h.cyc h.port).ch)
        (some { paddr := h.beat.req.paddr, lines := h.beat.req.count + 1, next := 0 })
    else (s.stackTaken k).stkFault k 0x42 h.beat.sb.part.toNat h.beat.req.paddr (slotOf h.cyc h.port)
      (dramBank loc.sub (h.beat.req.paddr % 2 ^ 30 / 256))) := by
  obtain ⟨hworks, hkey, hwindow, hentry, hunit, hch⟩ := htakes
  have hkey' : ({ s.stack k with arrive := [] } : Stack).key h.beat.sb.part.toNat ≠ 0 := hkey
  have hloc : ((s.stackTaken k).part h.beat.sb.part.toNat).writeLoc k (slotOf h.cyc h.port).ch h.beat.req.paddr = some loc :=
    Part.writeLoc_eq_some hwindow hentry hunit hch
  have hspaced : ({ s.stack k with arrive := [] } : Stack).spaced (slotOf h.cyc h.port)
      (dramBank loc.sub (h.beat.req.paddr % 2 ^ 30 / 256)) =
        (s.stack k).spaced (slotOf h.cyc h.port) (dramBank loc.sub (h.beat.req.paddr % 2 ^ 30 / 256)) := rfl
  change execStackWriteOpen k [] s = _
  rw [execStackWriteOpen, State.withHop_one hat hreq]
  simp only [State.stackTaken_stack, hworks, hkey', hnone, hloc, hspaced, Option.isSome_none, Bool.false_eq_true, if_false]
  cases (s.stack k).spaced (slotOf h.cyc h.port) (dramBank loc.sub (h.beat.req.paddr % 2 ^ 30 / 256)) <;> rfl

end

/-! ### Write beats (R197 to R199) -/

/-- The place of a count after the present one, if it has one. -/
def OpenCount.advance (o : OpenCount) : Option OpenCount :=
  if o.next + 1 < o.lines then some { o with next := o.next + 1 } else none

section
variable {s : State} {k : Nat} {h : Hop} (hat : AtStack s k h) (hkind : h.beat.sb.kind = 1)
include hat hkind

/-- Without an open count the sender is at fault. -/
theorem exec_stackWriteBeat_unopened
    (hnone : look none (s.stack k).opens (openKey h.beat.sb.part.toNat (slotOf h.cyc h.port).ch) = none)
    (hworks : (s.stack k).state ≠ .failed) (hkey : (s.stack k).key h.beat.sb.part.toNat ≠ 0) : exec (.stackWriteBeat k []) s =
      .next ((s.stackTaken k).stkFault k 0x43 h.beat.sb.part.toNat 0 (slotOf h.cyc h.port) 0) := by
  have hkey' : ({ s.stack k with arrive := [] } : Stack).key h.beat.sb.part.toNat ≠ 0 := hkey
  change execStackWriteBeat k [] s = _
  rw [execStackWriteBeat, State.withHop_one hat (by simp [hkind])]
  simp [State.stackTaken_stack, hworks, hkey', hnone]

/-- A write beat that every check lets through takes its place and writes its line. -/
theorem exec_stackWriteBeat_written {o : OpenCount} {loc : LeaseLoc} {a : Nat} (ha : o.paddr + 256 * o.next = a)
    (hopen : look none (s.stack k).opens (openKey h.beat.sb.part.toNat (slotOf h.cyc h.port).ch) = some o)
    (htakes : StackTakes s k h a loc)
    (hspaced : (s.stack k).spaced (slotOf h.cyc h.port) (dramBank loc.sub (a % 2 ^ 30 / 256)) = true) :
    exec (.stackWriteBeat k []) s = .next (((((s.stackTaken k).stackOpen k
      (openKey h.beat.sb.part.toNat (slotOf h.cyc h.port).ch) o.advance).stackLine k (slotOf h.cyc h.port)
        (dramBank loc.sub (a % 2 ^ 30 / 256)) (lineKey loc.ch loc.sub (a % 2 ^ 30 / 256))
        { key := (s.stack k).key h.beat.sb.part.toNat, tweak := a / 256, data := h.beat.data }).count
          (locRegion (k / 3)) 0x203 1).spend 11 (some h.beat.sb.part.toNat) 1) := by
  obtain ⟨hworks, hkey, hwindow, hentry, hunit, hch⟩ := htakes
  have hkey' : ({ s.stack k with arrive := [] } : Stack).key h.beat.sb.part.toNat = (s.stack k).key h.beat.sb.part.toNat := rfl
  have hloc (f : Stack → Stack) : (((s.stackTaken k).onStack k f).part h.beat.sb.part.toNat).writeLoc k (slotOf h.cyc h.port).ch
      a = some loc := Part.writeLoc_eq_some hwindow hentry hunit hch
  have hspaced' : ({ s.stack k with arrive := [] } : Stack).spaced (slotOf h.cyc h.port)
      (dramBank loc.sub (a % 2 ^ 30 / 256)) = true := hspaced
  change execStackWriteBeat k [] s = _
  rw [execStackWriteBeat, State.withHop_one hat (by simp [hkind])]
  simp only [State.stackTaken_stack, hworks, hkey', hkey, hopen, ha, hloc, hspaced', Bool.not_true, Bool.false_eq_true, if_false]
  rfl

end

/-- Settles O35: the count that is open, or the bank's spacing, decides a WRITE_OPEN; a write beat is one change of its count and
one line written. -/
theorem stackWritesTakePlaces : Obligations.StackWritesTakePlaces := by
  refine ⟨?_, ?_⟩
  · intro k s h loc hat hreq p a key
    have htaken := s.takes_stackTaken k
    refine ⟨fun htakes hnone => ?_, fun hopen hworks hkey => ?_⟩
    · intro sp
      rw [exec_stackWriteOpen_first hat hreq htakes hnone]
      refine ⟨_, rfl, ?_, fun hsp => ?_, fun hsp => ?_⟩
      · split
        · exact onlyStackFlow_stackOpen htaken.flow ..
        · exact onlyStackFlow_stkFault htaken.flow ..
      · rw [if_pos hsp, State.stackOpen_opens, htaken.stack]
        exact ⟨look_put_same .., htaken.raised, fun j hj => look_put_ne _ _ _ hj⟩
      · rw [if_neg (Bool.eq_false_iff.1 hsp), State.stkFault_stack, htaken.stack]
        exact ⟨rfl, raisedOne_stkFault htaken.raised htaken.cycle ..⟩
    · rw [exec_stackWriteOpen_again hat hreq hopen hworks hkey]
      refine ⟨_, rfl, onlyStackFlow_stkFault htaken.flow .., ?_, raisedOne_stkFault htaken.raised htaken.cycle ..⟩
      rw [State.stkFault_stack, htaken.stack]
  · intro k s h loc hat hkind p key
    have htaken := s.takes_stackTaken k
    refine ⟨fun o hopen => ?_, fun hnone hworks hkey => ?_⟩
    · intro a lk htakes hspaced
      have ⟨_, hkey, _⟩ := htakes
      obtain ⟨-, -, hother, hcells, -, hparts, -⟩ := onlyStackFlow_stackOpen htaken.flow key o.advance
      rw [exec_stackWriteBeat_written hat hkind rfl hopen htakes hspaced]
      refine ⟨_, rfl, ?_⟩
      simp only [State.spend_raised, State.spend_cells, State.spend_parts, State.spend_stack, State.count_raised,
        State.count_cells, State.count_parts, State.count_stack, State.stackLine_raised, State.stackLine_cells,
        State.stackLine_parts, State.stackLine_lines, State.stackLine_opens, State.stackOpen_raised, State.stackOpen_lines,
        State.stackOpen_opens, htaken.stack]
      refine ⟨htaken.raised, hcells, hparts, find_put_same _ fun heq => hkey (congrArg SLine.key heq),
        fun j hj => find_put_ne _ hj, fun j hj => ?_, look_put_same ..⟩
      rw [State.stackLine_stack_ne _ _ _ _ hj, hother j hj]
    · rw [exec_stackWriteBeat_unopened hat hkind hnone hworks hkey]
      exact ⟨_, rfl, onlyStackFlow_stkFault htaken.flow .., raisedOne_stkFault htaken.raised htaken.cycle ..⟩

end Sys2Proof.Machine
end

