-- ==== Sys2Proof/Proofs/StackUpkeep.lean ====
section
/-! PROOF. Upkeep of a stack's channels in their windows: refresh, scrub, and the retraining sweep (R205 to R207, R249, O37). -/

namespace Sys2Proof.Machine
open Sys2Proof.Stmt

/-! ### One channel of a stack -/

section
variable (x : Stack) (ch : Nat) (f : StkChan → StkChan)

@[simp] theorem Stack.onChan_pinFail : (x.onChan ch f).pinFail = x.pinFail := rfl

@[simp] theorem Stack.onChan_repairs : (x.onChan ch f).repairs = x.repairs := rfl

@[simp] theorem Stack.onChan_chan_same : (x.onChan ch f).chan ch = f (x.chan ch) := look_upd_same ..

theorem Stack.onChan_chan_ne {c : Nat} (hc : c ≠ ch) : (x.onChan ch f).chan c = x.chan c := look_upd_ne _ _ _ hc

theorem Stack.onChan_chan (c : Nat) : (x.onChan ch f).chan c = if c = ch then f (x.chan c) else x.chan c := by
  split
  next hc => rw [hc, Stack.onChan_chan_same]
  next hc => exact Stack.onChan_chan_ne _ _ _ hc

/-- Only what the update makes of the channel as it stands matters. -/
theorem Stack.onChan_congr {g : StkChan → StkChan} (h : f (x.chan ch) = g (x.chan ch)) : x.onChan ch f = x.onChan ch g :=
  congrArg (fun c => { x with chans := put StkChan.zero x.chans ch c }) h

end

theorem State.onStack_congr {s : State} {k : Nat} {f g : Stack → Stack} (h : f (s.stack k) = g (s.stack k)) :
    s.onStack k f = s.onStack k g :=
  congrArg (fun x => { s with stks := put Stack.zero s.stks k x }) h

theorem chanIs_refl (s : State) (k ch : Nat) : ChanIs s s k ch id := ⟨rfl, fun _ _ => rfl, rfl, fun _ _ => rfl, rfl, rfl⟩

section
variable {s u : State} {k ch : Nat} (hu : ChanIs s u k ch id)
include hu

theorem chanIs_count (loc ev n : Nat) : ChanIs s (u.count loc ev n) k ch id := hu

theorem chanIs_fresh : ChanIs s u.fresh k ch id := hu

/-- An update of the stack that changes the one channel, by `f`. -/
theorem chanIs_onStack {y : Stack → Stack} {f : StkChan → StkChan} (hchan : (y (u.stack k)).chan ch = f ((u.stack k).chan ch))
    (hne : ∀ c, c ≠ ch → (y (u.stack k)).chan c = (u.stack k).chan c) (hlines : (y (u.stack k)).lines = (u.stack k).lines) :
    ChanIs s (u.onStack k y) k ch f := by
  obtain ⟨hself, hchans, hl, hother, hrest⟩ := hu
  refine ⟨?_, fun c hc => ?_, ?_, fun j hj => ?_, hrest⟩
  · rw [State.onStack_stack_same, hchan, hself, id_eq]
  · rw [State.onStack_stack_same, hne c hc, hchans c hc]
  · rw [State.onStack_stack_same, hlines, hl]
  · rw [State.onStack_stack_ne _ _ hj, hother j hj]

theorem chanIs_onChan (f : StkChan → StkChan) : ChanIs s (u.onStack k (fun y => y.onChan ch f)) k ch f :=
  chanIs_onStack hu (Stack.onChan_chan_same ..) (fun _ hc => Stack.onChan_chan_ne _ _ _ hc) rfl

end

/-! ### Refresh (R205) -/

section
variable {k ch w : Nat} {s : State} (hw : windowPos ch s.cycle = some w)
include hw

theorem exec_stackRefresh_due (hin : w < 8 ∨ w < 16 ∧ (s.stack k).hot = true)
    (hdue : ((s.stack k).chan ch).refAt ≠ 2 * (s.cycle / 1024) + w / 8 + 1) : exec (.stackRefresh k ch) s =
      .next ((s.onStack k (fun y => y.onChan ch (fun c => { c with
        refresh := (c.refresh + 1) % 8192, refAt := 2 * (s.cycle / 1024) + w / 8 + 1 }))).count (locRegion (k / 3)) 0x205 1) := by
  change execStackRefresh k ch s = _
  simp only [execStackRefresh, hw]
  exact if_pos ⟨hin, hdue⟩

theorem exec_stackRefresh_done (hdone : ((s.stack k).chan ch).refAt = 2 * (s.cycle / 1024) + w / 8 + 1) :
    exec (.stackRefresh k ch) s = .next s := by
  change execStackRefresh k ch s = _
  simp only [execStackRefresh, hw]
  exact if_neg fun h => h.2 hdone

end

/-! ### Scrub (R206, R211, R214) -/

@[simp] theorem State.fresh_cycle (s : State) : s.fresh.cycle = s.cycle := rfl

@[simp] theorem State.fresh_raised (s : State) : s.fresh.raised = s.raised := rfl

@[simp] theorem State.fresh_stack (s : State) (k : Nat) : s.fresh.stack k = s.stack k := rfl

theorem State.settleFailing_of_sound {s : State} {k ch : Nat} (h : ((s.stack k).chan ch).failing = false) :
    s.settleFailing k ch = s := by
  simp [State.settleFailing, h]

/-- A channel after a line of its scrub was read without an error in frame `frm`, of `total` lines. -/
def StkChan.scrubbed (c : StkChan) (total frm : Nat) : StkChan :=
  if c.scrub + 1 = total then { c with scrub := 0, pass := c.pass + 1, passCorr := 0, window := frm + 1 }
  else { c with scrub := (c.scrub + 1) % total, window := frm + 1 }

theorem StkChan.scrubbed_failing (c : StkChan) (total frm : Nat) : (c.scrubbed total frm).failing = c.failing := by
  unfold StkChan.scrubbed
  split <;> rfl

/-- The state in which a channel's scrub has counted a line without an error. -/
def State.scrubCounted (s : State) (k : Nat) : State :=
  ((s.fresh.onStack k (fun y => { y with ce := y.ce + 0 })).count (locRegion (k / 3)) 0x204 0).count (locRegion (k / 3)) 0x206 1

theorem State.scrubCounted_raised (s : State) (k : Nat) : (s.scrubCounted k).raised = s.raised := by
  simp [State.scrubCounted]

theorem State.scrubCounted_repairs (s : State) (k : Nat) : ((s.scrubCounted k).stack k).repairs = (s.stack k).repairs := by
  simp [State.scrubCounted]

theorem chanIs_scrubCounted (s : State) (k ch : Nat) : ChanIs s (s.scrubCounted k) k ch id := by
  have hstack := chanIs_onStack (y := fun y => { y with ce := y.ce + 0 }) (f := id) (chanIs_fresh (chanIs_refl s k ch)) rfl
    (fun _ _ => rfl) rfl
  exact chanIs_count (chanIs_count hstack ..) ..

/-- Nothing is settled after a line of a sound channel. -/
theorem State.settleFailing_scrubCounted {s : State} {k ch : Nat} (hsound : ((s.stack k).chan ch).failing = false)
    {g : StkChan → StkChan} {total frm : Nat} (hg : g ((s.stack k).chan ch) = ((s.stack k).chan ch).scrubbed total frm) :
    ((s.scrubCounted k).onStack k (fun y => y.onChan ch g)).settleFailing k ch =
      (s.scrubCounted k).onStack k (fun y => y.onChan ch (fun c => c.scrubbed total frm)) := by
  have hchan : ((s.scrubCounted k).stack k).chan ch = (s.stack k).chan ch := (chanIs_scrubCounted s k ch).1
  rw [State.settleFailing_of_sound]
  · exact State.onStack_congr (Stack.onChan_congr _ _ _ (by rw [hchan, hg]))
  · rw [State.onStack_stack_same, Stack.onChan_chan_same, hchan, hg, StkChan.scrubbed_failing, hsound]

theorem exec_stackScrub_clean {k ch : Nat} {s : State} (hnow : s.scrubNow k ch = true)
    (hevac : ∀ c n, (s.stack k).evac = some (c, n) → c ≠ ch) (hcopies : ((s.stack k).chan ch).copies = [])
    (hcorr : ((s.stack k).chan ch).passCorr ≤ 4096) (hsound : ((s.stack k).chan ch).failing = false) :
    exec (.stackScrub k ch []) s = .next ((s.scrubCounted k).onStack k (fun y =>
      y.onChan ch (fun c => c.scrubbed (s.quarters * 4194304) s.frm))) := by
  change execStackScrub k ch [] s = _
  unfold execStackScrub
  extract_lets x evac c n q l total wrap
  have hidle : evac = false := by
    simp only [evac]
    split
    · exact decide_eq_false (hevac _ _ ‹_›)
    · rfl
  rw [if_neg (by simp [hnow, hidle, x, hcopies]), lineEcc_nil]
  refine congrArg Host.Outcome.next (State.settleFailing_scrubCounted hsound ?_)
  simp only [State.frm, State.count_cycle, State.onStack_cycle, State.fresh_cycle, true_and, if_true, Bool.false_and, Bool.or_false,
    Bool.not_false, Nat.add_zero, decide_eq_false (Nat.not_lt.2 hcorr : ¬ 4096 < c.passCorr)]
  have htotal : total = s.quarters * 4194304 := by norm_num [total]
  rw [StkChan.scrubbed, ← htotal]
  by_cases hwrap : n + 1 = total
  · rw [if_pos hwrap]
    simp [wrap, hwrap]
  · rw [if_neg hwrap]
    simp only [wrap, hwrap, decide_false, Bool.false_eq_true, if_false]
    simp [x, c, n]

/-! ### Sweeps that fall due (R207, R249) -/

theorem foldl_onChan (l : List Nat) (x : Stack) (f : StkChan → StkChan) : l.foldl (fun y ch => y.onChan ch f) x =
    { x with chans := l.foldl (fun m ch => upd StkChan.zero m ch f) x.chans } := by
  induction l generalizing x with
  | nil => rfl
  | cons ch l ih => exact ih _

theorem foldl_onStack (l : List Nat) (s : State) (f : Stack → Stack) : l.foldl (fun s k => s.onStack k f) s =
    { s with stks := l.foldl (fun m k => upd Stack.zero m k f) s.stks } := by
  induction l generalizing s with
  | nil => rfl
  | cons k l ih => exact ih _

/-- A channel whose sweep is due: from its first group, unless one is under way. -/
def StkChan.sweepDue (c : StkChan) : StkChan := { c with sweep := some (c.sweep.getD 0) }

/-- A stack whose sixteen channels' sweeps are due. -/
def Stack.sweepDue (x : Stack) : Stack := (List.range 16).foldl (fun y ch => y.onChan ch StkChan.sweepDue) x

theorem Stack.sweepDue_chan (x : Stack) {ch : Nat} (hch : ch < 16) : x.sweepDue.chan ch = (x.chan ch).sweepDue := by
  rw [Stack.sweepDue, foldl_onChan, Stack.chan, look_foldl_upd_range, if_pos hch]
  rfl

theorem Stack.sweepDue_lines (x : Stack) : x.sweepDue.lines = x.lines := by rw [Stack.sweepDue, foldl_onChan]

theorem Stack.sweepDue_state (x : Stack) : x.sweepDue.state = x.state := by rw [Stack.sweepDue, foldl_onChan]

/-- The stacks when the sweeps of all are due. -/
def State.stksSweepDue (s : State) : SMap Stack := (List.range 12).foldl (fun m k => upd Stack.zero m k Stack.sweepDue) s.stks

theorem State.look_stksSweepDue (s : State) (k : Nat) :
    look Stack.zero s.stksSweepDue k = if k < 12 then (s.stack k).sweepDue else s.stack k := by
  rw [State.stksSweepDue, look_foldl_upd_range]
  rfl

/-- The cold frame's channels when the sweeps of all are due. -/
def Cold.chansSweepDue (c : Cold) : SMap CfChan :=
  (List.range 16).foldl (fun m ch => upd CfChan.zero m ch (fun x => { x with sweep := true })) c.chans

theorem Cold.look_chansSweepDue (c : Cold) {ch : Nat} (hch : ch < 16) :
    look CfChan.zero c.chansSweepDue ch = { look CfChan.zero c.chans ch with sweep := true } := by
  rw [Cold.chansSweepDue, look_foldl_upd_range, if_pos hch]

theorem exec_retrainSweepDue (s : State) : ∃ stks cs, exec .retrainSweepDue s =
      .next { s with stks, cold := { s.cold with chans := cs } } ∧
    (∀ k, look Stack.zero stks k = if k < 12 then (s.stack k).sweepDue else s.stack k) ∧
    ∀ ch, ch < 16 → look CfChan.zero cs ch = { look CfChan.zero s.cold.chans ch with sweep := true } := by
  refine ⟨s.stksSweepDue, s.cold.chansSweepDue, ?_, s.look_stksSweepDue, fun ch hch => s.cold.look_chansSweepDue hch⟩
  change execRetrainSweepDue s = _
  unfold execRetrainSweepDue
  change ok (let s1 := (List.range 12).foldl (fun s k => s.onStack k Stack.sweepDue) s
    { s1 with cold := { s1.cold with chans := s1.cold.chansSweepDue } }) = _
  rw [foldl_onStack]
  simp only [ok, State.stksSweepDue]

/-! ### The repair record (R219) -/

section
variable (y : Stack) (gbit : Nat) (es : List (BitVec 64))

@[simp] theorem Stack.record_state : (y.record gbit es).state = y.state := rfl

@[simp] theorem Stack.record_chan (ch : Nat) : (y.record gbit es).chan ch = y.chan ch := rfl

end

/-! ### Retraining steps (R207, R215) -/

/-- Without a lost pair the pin pairs lost before decide. -/
theorem Stack.losePins_none (y : Stack) (gbit ch : Nat) : y.losePins gbit ch [] false =
    { y.onChan ch id with state := if 2 ≤ (y.chan ch).pins.length then .failed else y.state } := by
  have hid : y.onChan ch (fun c => { c with pins := (y.chan ch).pins }) = y.onChan ch id := Stack.onChan_congr _ _ _ rfl
  simp only [Stack.losePins, List.filter_nil, List.eraseDups_nil, List.append_nil, hid]
  simp

section
variable (y : Stack) (gbit ch : Nat)

theorem Stack.losePins_none_chan (c : Nat) : (y.losePins gbit ch [] false).chan c = y.chan c := by
  rw [Stack.losePins_none]
  exact (Stack.onChan_chan ..).trans (ite_self _)

theorem Stack.losePins_none_lines : (y.losePins gbit ch [] false).lines = y.lines := by
  rw [Stack.losePins_none]
  rfl

theorem Stack.losePins_none_state (hpins : (y.chan ch).pins.length < 2) : (y.losePins gbit ch [] false).state = y.state := by
  rw [Stack.losePins_none]
  exact if_neg (Nat.not_le.2 hpins)

end

/-- The channel's first lost pair degrades the stack and enters its record. -/
theorem Stack.losePins_first {y : Stack} {ch : Nat} (hpins : (y.chan ch).pins = []) (hworks : y.state ≠ .failed) (gbit f : Nat) :
    y.losePins gbit ch [f] false =
      { y.onChan ch (fun c => { c with pins := [f] }) with pinFail := y.pinFail + 1, state := .degraded }.record gbit
        [repairEntry 4 ch 0 f 0] := by
  have hnew : ([f].filter (fun f => !(y.chan ch).pins.contains f)).eraseDups = [f] := by
    rw [hpins]
    rfl
  simp only [Stack.losePins, hnew]
  simp [hpins, hworks]

theorem Stack.losePins_first_chan {y : Stack} {ch : Nat} (hpins : (y.chan ch).pins = []) (hworks : y.state ≠ .failed)
    (gbit f c : Nat) : (y.losePins gbit ch [f] false).chan c = (y.onChan ch (fun c => { c with pins := [f] })).chan c := by
  rw [Stack.losePins_first hpins hworks]
  rfl

/-- A channel of whose sweep group `g` is trained in frame `frm`. -/
def StkChan.trainStep (g frm : Nat) (c : StkChan) : StkChan :=
  { c with sweep := if g + 1 = 18 then none else some (g + 1), trained := frm + 1 }

section
variable {k ch w g : Nat} {s : State} (hw : windowPos ch s.cycle = some w) (hlate : 16 ≤ w)
  (hsweep : ((s.stack k).chan ch).sweep = some g) (htrained : ((s.stack k).chan ch).trained ≠ s.frm + 1)
include hw hlate hsweep htrained

theorem exec_stackRetrainStep_trained (failed : List Nat) (whole : Bool) : exec (.stackRetrainStep k ch failed whole) s =
    .next (s.onStack k (fun y => (y.onChan ch (StkChan.trainStep g s.frm)).losePins s.gbit ch
      (failed.filter (fun f => decide (f / 4 = g))) whole)) := by
  change execStackRetrainStep k ch failed whole s = _
  simp only [execStackRetrainStep, hw, hsweep]
  exact if_neg fun h => h.elim (by omega) htrained

/-- A step that loses no pin pair trains the group. -/
theorem retrain_without_loss : ∃ t, exec (.stackRetrainStep k ch [] false) s = .next t ∧ t.raised = s.raised ∧
    ChanIs s t k ch (StkChan.trainStep g s.frm) ∧
      (((s.stack k).chan ch).pins.length < 2 → (t.stack k).state = (s.stack k).state) := by
  rw [exec_stackRetrainStep_trained hw hlate hsweep htrained, List.filter_nil]
  refine ⟨_, rfl, rfl, ?_, fun hpins => ?_⟩
  · refine chanIs_onStack (chanIs_refl ..) ?_ (fun c hc => ?_) ?_
    · rw [Stack.losePins_none_chan, Stack.onChan_chan_same]
    · rw [Stack.losePins_none_chan, Stack.onChan_chan_ne _ _ _ hc]
    · exact Stack.losePins_none_lines ..
  · rw [State.onStack_stack_same, Stack.losePins_none_state]
    · rfl
    · rwa [Stack.onChan_chan_same]

/-- A step that loses the channel's first pin pair records it and degrades the stack besides. -/
theorem retrain_losing_first {f : Nat} (hf : f / 4 = g) (hpins : ((s.stack k).chan ch).pins = [])
    (hworks : (s.stack k).state ≠ .failed) : ∃ t, exec (.stackRetrainStep k ch [f] false) s = .next t ∧
      (t.stack k).state = .degraded ∧ (t.stack k).repairs = ((s.stack k).repairs ++ [repairEntry 4 ch 0 f 0]).take 448 ∧
      (t.stack k).mirror = (t.stack k).repairs ∧ (t.stack k).pinFail = (s.stack k).pinFail + 1 ∧
      ChanIs s t k ch (fun c => { c.trainStep g s.frm with pins := [f] }) := by
  have hgroup : [f].filter (fun f => decide (f / 4 = g)) = [f] := by simp [hf]
  have hpins' : (((s.stack k).onChan ch (StkChan.trainStep g s.frm)).chan ch).pins = [] := by
    rw [Stack.onChan_chan_same]
    exact hpins
  have hlost := Stack.losePins_first hpins' hworks s.gbit f
  rw [exec_stackRetrainStep_trained hw hlate hsweep htrained, hgroup]
  refine ⟨_, rfl, ?_⟩
  rw [State.onStack_stack_same, hlost]
  have hchan := Stack.losePins_first_chan (y := (s.stack k).onChan ch (StkChan.trainStep g s.frm)) hpins' hworks s.gbit f
  refine ⟨rfl, rfl, rfl, rfl, chanIs_onStack (chanIs_refl ..) ?_ (fun c hc => ?_) ?_⟩
  · rw [hchan, Stack.onChan_chan_same, Stack.onChan_chan_same]
  · rw [hchan, Stack.onChan_chan_ne _ _ _ hc, Stack.onChan_chan_ne _ _ _ hc]
  · rw [hlost]
    rfl

end

end Sys2Proof.Machine
end

