-- ==== Sys2Proof/Proofs/MemoryRepairs.lean ====
section
/-! PROOF. Upkeep of the cold frame in its groups, and the copies of rows, dies and channels with the spares that take over (R212,
R214, R219, R249, R255); with the stacks' windows they settle O37. -/

namespace Sys2Proof.Machine
open Sys2Proof.Stmt

/-! ### One channel of the cold frame (R249, R254) -/

/-- Channel `ch` of the cold frame is updated by `f`. -/
def Cold.onChan (c : Cold) (ch : Nat) (f : CfChan → CfChan) : Cold := { c with chans := upd CfChan.zero c.chans ch f }

theorem Cold.look_onChan_same (c : Cold) (ch : Nat) (f : CfChan → CfChan) :
    look CfChan.zero (c.onChan ch f).chans ch = f (look CfChan.zero c.chans ch) := look_upd_same ..

theorem Cold.look_onChan (c : Cold) (ch : Nat) (f : CfChan → CfChan) (j : Nat) : look CfChan.zero (c.onChan ch f).chans j =
    if j = ch then f (look CfChan.zero c.chans j) else look CfChan.zero c.chans j := by
  split
  next hj => rw [hj, Cold.look_onChan_same]
  next hj => exact look_upd_ne _ _ _ hj

/-- Only what the update makes of the channel as it stands matters. -/
theorem Cold.onChan_congr {c : Cold} {ch : Nat} {f g : CfChan → CfChan}
    (h : f (look CfChan.zero c.chans ch) = g (look CfChan.zero c.chans ch)) : c.onChan ch f = c.onChan ch g :=
  congrArg (fun x => { c with chans := put CfChan.zero c.chans ch x }) h

/-- A channel after a line of its scrub was read without an error, of `total` lines, in the group that `now` numbers. -/
def CfChan.scrubbed (x : CfChan) (total now : Nat) : CfChan :=
  { x with scrub := if x.scrub + 1 = total then 0 else x.scrub + 1, passCorr := if x.scrub + 1 = total then 0 else x.passCorr
           refAt := now }

@[simp] theorem coldEcc_nil : coldEcc [] = (0, false, false) := rfl

/-- The state in which a line of channel `ch` was scrubbed without an error, the channel updated by `f`. -/
def State.cfScrubbed (s : State) (ch : Nat) (f : CfChan → CfChan) : State :=
  (({ s with cold := { s.cold.onChan ch f with ce := s.cold.ce + 0 } } : State).count locHub 0x405 0).fresh

theorem State.look_cfScrubbed (s : State) (ch : Nat) (f : CfChan → CfChan) :
    look CfChan.zero (s.cfScrubbed ch f).cold.chans ch = f (look CfChan.zero s.cold.chans ch) := Cold.look_onChan_same ..

theorem State.cfScrubbed_congr {s : State} {ch : Nat} {f g : CfChan → CfChan}
    (h : f (look CfChan.zero s.cold.chans ch) = g (look CfChan.zero s.cold.chans ch)) : s.cfScrubbed ch f = s.cfScrubbed ch g := by
  rw [State.cfScrubbed, Cold.onChan_congr h, State.cfScrubbed]

section
variable {ch : Nat} {s : State} (hlow : s.fcyc < 1020)
  (hrefAt : (look CfChan.zero s.cold.chans ch).refAt ≠ 51 * s.frm + coldGroup s.cycle + 1)
include hlow hrefAt

/-- In its first group a channel is refreshed. -/
theorem exec_coldRefresh_refresh (hgroup : coldGroup s.cycle = 3 * ch) : exec (.coldRefresh ch [] .none) s =
    .next { s with cold := s.cold.onChan ch (fun x => { x with
      refresh := (x.refresh + 1) % 8192, refAt := 51 * s.frm + coldGroup s.cycle + 1 }) } := by
  change execColdRefresh ch [] .none s = _
  unfold execColdRefresh
  extract_lets g c x now onChan copying
  rw [if_neg fun h => h.elim (Nat.not_le.2 hlow) hrefAt, if_pos (.inl hgroup)]
  rfl

section
variable (hgroup : coldGroup s.cycle = 3 * ch + 1) (hhot : s.cold.hot = false)
include hgroup hhot

/-- In its second group a channel whose sweep is due is retrained. -/
theorem exec_coldRefresh_retrain (hsweep : (look CfChan.zero s.cold.chans ch).sweep = true) :
    exec (.coldRefresh ch [] .good) s = .next { s with cold := s.cold.onChan ch (fun x => { x with
      sweep := false, refAt := 51 * s.frm + coldGroup s.cycle + 1 }) } := by
  change execColdRefresh ch [] .good s = _
  unfold execColdRefresh
  extract_lets g c x now onChan copying
  rw [if_neg fun h => h.elim (Nat.not_le.2 hlow) hrefAt, if_neg (by simp [g, c, hgroup, hhot]), if_pos hgroup, if_pos hsweep]
  rfl

/-- Otherwise one of its lines is scrubbed, unless it is being copied. -/
theorem exec_coldRefresh_scrub (hsweep : (look CfChan.zero s.cold.chans ch).sweep = false)
    (hcopy : ∀ n, s.cold.copy ≠ some (ch, n)) (hcorr : (look CfChan.zero s.cold.chans ch).passCorr ≤ 65536) :
    exec (.coldRefresh ch [] .none) s = .next (s.cfScrubbed ch (fun x =>
      x.scrubbed (s.slices * 4194304) (51 * s.frm + coldGroup s.cycle + 1))) := by
  change execColdRefresh ch [] .none s = _
  unfold execColdRefresh
  extract_lets g c x now onChan copying trained n wrap
  have hidle : copying = false := by
    simp only [copying]
    split
    next n heq => exact decide_eq_false fun hch => hcopy n (hch ▸ heq)
    · rfl
  have hscrub : s.cfScrubbed ch (fun y => { y with
      scrub := if wrap then 0 else n + 1, passCorr := if wrap then 0 else x.passCorr, refAt := now }) =
        s.cfScrubbed ch (fun x => x.scrubbed (s.slices * 4194304) now) :=
    State.cfScrubbed_congr (by simp [CfChan.scrubbed, wrap, n, x, c])
  have hfew : ¬ 65536 < x.passCorr := Nat.not_lt.2 hcorr
  rw [if_neg fun h => h.elim (Nat.not_le.2 hlow) hrefAt, if_neg (by simp [g, c, hgroup, hhot]), if_pos hgroup,
    if_neg (by simp [x, c, hsweep]), hidle, coldEcc_nil, ← hscrub]
  simp only [if_true, Nat.add_zero, hfew, if_false, Bool.false_or, Bool.false_and, Bool.false_eq_true]
  rfl

end

end

/-- A module event raised in a state that has raised what `s` has, in the same cycle. -/
theorem raisedOne_modEvent {s u : State} (hraised : u.raised = s.raised) (hcycle : u.cycle = s.cycle) (code unit d0 d1 : Nat) :
    RaisedOne s (u.modEvent code unit d0 d1) .event code [] :=
  ⟨_, congrArg (· ++ _) hraised, rfl, rfl, rfl, hcycle⟩

@[simp] theorem State.modEvent_stack (s : State) (code unit d0 d1 k : Nat) : (s.modEvent code unit d0 d1).stack k = s.stack k := rfl

/-! ### Row copies (R212, R219) -/

/-- A channel whose first row copy has advanced by one line in frame `frm`. -/
def StkChan.copyStep (r : RowCopy) (rs : List RowCopy) (frm : Nat) (c : StkChan) : StkChan :=
  { c with copies := { r with done := r.done + 1 } :: rs, window := frm + 1 }

/-- A channel whose first row copy has ended in frame `frm`: the next spare row of the bank serves the row. -/
def StkChan.copyEnd (r : RowCopy) (rs : List RowCopy) (frm : Nat) (c : StkChan) : StkChan :=
  { c with copies := rs, window := frm + 1, hits := put 0 c.hits (32768 * r.bank + r.row) 0
           rowsUsed := upd 0 c.rowsUsed r.bank (fun n => n + 1) }

theorem StkChan.copyEnd_rowsUsed (r : RowCopy) (rs : List RowCopy) (frm : Nat) (c : StkChan) :
    look 0 (c.copyEnd r rs frm).rowsUsed r.bank = look 0 c.rowsUsed r.bank + 1 :=
  look_upd_same 0 c.rowsUsed r.bank (fun n => n + 1)

section
variable {k ch : Nat} {s : State} {r : RowCopy} {rs : List RowCopy} (hcopies : ((s.stack k).chan ch).copies = r :: rs)
  (hnow : s.scrubNow k ch = true)
include hcopies hnow

theorem exec_rowRepair_step (hmore : r.done + 1 < 16) : exec (.rowRepair k ch) s =
    .next (s.onStack k (fun y => y.onChan ch (StkChan.copyStep r rs s.frm))) := by
  change execRowRepair k ch s = _
  simp only [execRowRepair, hcopies, hnow, Bool.not_true, Bool.false_eq_true, if_false, if_pos hmore]
  rfl

/-- The last line of a row: its entry is appended and the event recorded. -/
theorem exec_rowRepair_end (hlast : 16 ≤ r.done + 1) {e : BitVec 64}
    (he : repairEntry 1 ch r.bank r.row (look 0 ((s.stack k).chan ch).rowsUsed r.bank) = e) : exec (.rowRepair k ch) s =
      .next (((s.onStack k (fun y => (y.onChan ch (StkChan.copyEnd r rs s.frm)).record s.gbit [e])).modEvent 0xC1
        (locRegion (k / 3)) k e.toNat).count (locRegion (k / 3)) 0x207 1) := by
  subst he
  change execRowRepair k ch s = _
  simp only [execRowRepair, hcopies, hnow, Bool.not_true, Bool.false_eq_true, if_false, if_neg (Nat.not_lt.2 hlast)]
  rfl

end

/-! ### A failing die (R214, R215) -/

/-- A stack whose copy of channel `ch` of `total` lines has advanced to line `n` in frame `frm`. -/
def Stack.copyStep (y : Stack) (ch n total frm : Nat) : Stack :=
  { y.onChan ch (fun c => { c with window := frm + 1 }) with evac := some (ch, n), evacDone := decide (n = total) }

theorem Stack.copyStep_chan (y : Stack) (ch n total frm c : Nat) : (y.copyStep ch n total frm).chan c =
    if c = ch then { y.chan c with window := frm + 1 } else y.chan c :=
  Stack.onChan_chan y ch (fun c => { c with window := frm + 1 }) c

theorem exec_dieEvacuation_step {k ch n : Nat} {s : State} (hevac : (s.stack k).evac = some (ch, n))
    (hmore : (s.stack k).evacDone = false) (hnow : s.scrubNow k ch = true) : exec (.dieEvacuation k) s =
      .next (s.onStack k (fun y => y.copyStep ch (n + 1) (s.quarters * 4194304) s.frm)) := by
  change execDieEvacuation k s = _
  simp only [execDieEvacuation, hevac, hmore, hnow, Bool.not_true, Bool.or_self, Bool.false_eq_true, if_false]
  rfl

/-- Another die than that of channel `ch` is failing. -/
def Stack.otherFailing (x : Stack) (ch : Nat) : Bool := (List.range 16).any (fun c => decide (c ≠ ch) && (x.chan c).failing)

theorem Stack.otherFailing_iff {x : Stack} {ch : Nat} :
    x.otherFailing ch = true ↔ ∃ c, c < 16 ∧ c ≠ ch ∧ (x.chan c).failing = true := by
  simp [Stack.otherFailing]

/-- A stack to whose channel `ch` the spare die is assigned; `other`: another die is failing. -/
def Stack.assignSpare (y : Stack) (ch : Nat) (other : Bool) : Stack :=
  { y.onChan ch StkChan.renewed with
    evac := none, evacDone := false, spareFor := some ch
    state := if other ∨ y.state = .failed then .failed else .degraded }

theorem Stack.assignSpare_chan (y : Stack) (ch : Nat) (other : Bool) (c : Nat) :
    (y.assignSpare ch other).chan c = if c = ch then (y.chan c).renewed else y.chan c := Stack.onChan_chan ..

theorem Stack.assignSpare_state (y : Stack) (ch : Nat) (other : Bool) : (y.assignSpare ch other).state =
    if other ∨ y.state = .failed then .failed else .degraded := rfl

theorem Stack.assignSpare_failed_iff {y : Stack} {ch : Nat} {other : Bool} :
    (y.assignSpare ch other).state = .failed ↔ y.state = .failed ∨ other = true := by
  rw [Stack.assignSpare_state]
  split
  next h => exact ⟨fun _ => h.symm, fun _ => rfl⟩
  next h => exact ⟨fun hstate => by simp at hstate, fun h' => absurd h'.symm h⟩

theorem Stack.assignSpare_failed_or_degraded (y : Stack) (ch : Nat) (other : Bool) :
    (y.assignSpare ch other).state = .failed ∨ (y.assignSpare ch other).state = .degraded := by
  rw [Stack.assignSpare_state]
  split
  · exact .inl rfl
  · exact .inr rfl

theorem exec_spareDieAssign_boundary {k ch n : Nat} {s : State} (hevac : (s.stack k).evac = some (ch, n))
    (hdone : (s.stack k).evacDone = true) (hframe : s.fcyc = 0) {e : BitVec 64} (he : repairEntry 3 ch 0 0 0 = e) :
    exec (.spareDieAssign k) s = .next ((s.onStack k (fun y => (y.assignSpare ch ((s.stack k).otherFailing ch)).record s.gbit
      [e])).modEvent 0xC3 (locRegion (k / 3)) k e.toNat) := by
  subst he
  change execSpareDieAssign k s = _
  simp only [execSpareDieAssign, hevac, hdone, hframe, Bool.not_true, Bool.false_eq_true, ne_eq, not_true_eq_false,
    or_self, if_false]
  rfl

/-! ### A failing channel of the cold frame (R255) -/

/-- The cold frame whose copy of channel `ch` of `total` lines has advanced to line `n` in frame `frm`. -/
def Cold.copyStep (c : Cold) (ch n total frm : Nat) : Cold :=
  { c.onChan ch (fun x => { x with window := frm + 1 }) with copy := some (ch, n), copyDone := decide (n = total) }

theorem Cold.look_copyStep (c : Cold) (ch n total frm j : Nat) : look CfChan.zero (c.copyStep ch n total frm).chans j =
    if j = ch then { look CfChan.zero c.chans j with window := frm + 1 } else look CfChan.zero c.chans j :=
  Cold.look_onChan c ch (fun x => { x with window := frm + 1 }) j

section
variable {ch n : Nat} {s : State} (hcopy : s.cold.copy = some (ch, n))
include hcopy

theorem exec_coldChannelCopy_step (hhot : s.cold.hot = false) (hmore : s.cold.copyDone = false) (hlow : s.fcyc < 1020)
    (hgroup : coldGroup s.cycle = 3 * ch + 1) (hnew : (look CfChan.zero s.cold.chans ch).window ≠ s.frm + 1) :
    exec .coldChannelCopy s = .next { s with cold := s.cold.copyStep ch (n + 1) (s.slices * 4194304) s.frm } := by
  change execColdChannelCopy s = _
  simp only [execColdChannelCopy, hcopy]
  rw [if_neg (by simp [hhot, hmore, hlow, hgroup, hnew])]
  rfl

theorem exec_coldSpared_boundary (hdone : s.cold.copyDone = true) (hframe : s.fcyc = 0) : exec .coldSpared s =
    .next (({ s with cold := { s.cold with
      copy := none, copyDone := false, spareFor := some ch
      state := if s.cold.state = .failed then .failed else .degraded } } : State).modEvent 0xC5 locHub ch 0) := by
  change execColdSpared s = _
  simp only [execColdSpared, hcopy]
  rw [if_neg (by simp [hdone, hframe])]
  rfl

end

/-- Settles O37: each row is one update of a channel, a stack or the cold frame, read off by what that update leaves. -/
theorem memoryUpkeepAndRepairs : Obligations.MemoryUpkeepAndRepairs := by
  refine ⟨⟨?_, ?_, ?_, ?_, ?_⟩, ?_, ?_, ?_⟩
  · intro k ch w s hw hin now
    refine ⟨fun hdue => ?_, fun hdone => exec_stackRefresh_done hw hdone⟩
    exact ⟨_, exec_stackRefresh_due hw hin hdue, rfl, chanIs_onChan (chanIs_refl ..) _⟩
  · intro k ch s hnow hevac hcopies hcorr hsound total
    refine ⟨_, exec_stackScrub_clean hnow hevac hcopies hcorr hsound, ?_, ?_, chanIs_onChan (chanIs_scrubCounted ..) _⟩
    · rw [State.onStack_raised, State.scrubCounted_raised]
    · rw [State.onStack_stack_same, Stack.onChan_repairs, State.scrubCounted_repairs]
  · intro s
    obtain ⟨stks, cs, hexec, hstks, hcs⟩ := exec_retrainSweepDue s
    refine ⟨_, hexec, fun k ch hk hch => ?_, fun k => ?_, hcs, rfl⟩
    all_goals rw [State.stack, hstks]
    · rw [if_pos hk]
      exact Stack.sweepDue_chan _ hch
    · split
      · exact ⟨Stack.sweepDue_lines _, Stack.sweepDue_state _⟩
      · exact ⟨rfl, rfl⟩
  · intro k ch w g s hw hlate hsweep htrained
    exact ⟨retrain_without_loss hw hlate hsweep htrained, fun f => retrain_losing_first hw hlate hsweep htrained⟩
  · intro ch s hlow x now hrefAt
    refine ⟨fun hgroup => ?_, fun hgroup hhot hsweep => ?_, fun hgroup hhot hsweep hcopy hcorr => ?_⟩
    · exact ⟨_, exec_coldRefresh_refresh hlow hrefAt hgroup, Cold.look_onChan_same .., rfl⟩
    · exact ⟨_, exec_coldRefresh_retrain hlow hrefAt hgroup hhot hsweep, Cold.look_onChan_same .., rfl⟩
    · refine ⟨_, exec_coldRefresh_scrub hlow hrefAt hgroup hhot hsweep hcopy hcorr, rfl, rfl, rfl, ?_⟩
      rw [State.look_cfScrubbed]
      rfl
  · intro k ch s r rs hcopies hnow
    rcases Nat.lt_or_ge (r.done + 1) 16 with hmore | hlast
    · exact ⟨_, exec_rowRepair_step hcopies hnow hmore, fun _ => ⟨rfl, chanIs_onChan (chanIs_refl ..) _⟩,
        fun hlast => absurd hmore (Nat.not_lt.2 hlast)⟩
    · refine ⟨_, exec_rowRepair_end hcopies hnow hlast rfl, fun hmore => absurd hmore (Nat.not_lt.2 hlast), fun _ => ?_⟩
      rw [State.count_stack, State.modEvent_stack, State.onStack_stack_same]
      refine ⟨raisedOne_modEvent rfl rfl .., ?_, rfl, ?_, rfl, rfl⟩
      · rw [Stack.record_chan, Stack.onChan_chan_same]
        rfl
      · rw [Stack.record_chan, Stack.onChan_chan_same]
        exact StkChan.copyEnd_rowsUsed ..
  · intro k ch n s hevac
    refine ⟨fun hmore hnow => ?_, fun hdone hframe => ?_⟩
    · refine ⟨_, exec_dieEvacuation_step hevac hmore hnow, ?_, fun c => ?_, fun j hj => State.onStack_stack_ne _ _ hj, rfl⟩
      · rw [State.onStack_stack_same]
        rfl
      · rw [State.onStack_stack_same]
        exact Stack.copyStep_chan ..
    · refine ⟨_, exec_spareDieAssign_boundary hevac hdone hframe rfl, ?_⟩
      rw [State.modEvent_stack, State.onStack_stack_same]
      simp only [Stack.record_chan, Stack.record_state, Stack.assignSpare_chan, if_true]
      refine ⟨rfl, rfl, rfl, rfl, rfl, rfl, fun c hc => if_neg hc, rfl, rfl, rfl, ?_, Stack.assignSpare_failed_or_degraded ..,
        fun j hj => ?_, raisedOne_modEvent rfl rfl ..⟩
      · rw [Stack.assignSpare_failed_iff, Stack.otherFailing_iff]
      · rw [State.modEvent_stack, State.onStack_stack_ne _ _ hj]
  · intro ch n s hcopy
    refine ⟨fun hhot hmore hlow hgroup hnew => ?_, fun hdone hframe => ?_⟩
    · refine ⟨_, exec_coldChannelCopy_step hcopy hhot hmore hlow hgroup hnew, rfl, fun c => ?_⟩
      exact Cold.look_copyStep ..
    · exact ⟨_, exec_coldSpared_boundary hcopy hdone hframe, rfl, rfl, raisedOne_modEvent rfl rfl ..⟩

end Sys2Proof.Machine
end

