-- ==== Sys2Proof/Proofs/PartitionCommands.lean ====
section
/-! SUPPORT. What an accepted command about a partition leaves behind: an answer alone, an answer with one partition changed, or one more
landing record (R257, R462, R463, R552). -/

namespace Sys2Proof.Machine
open Sys2Proof.Stmt

/-! ### The state in which the own part runs -/

theorem ready_entered {s : State} {h : Hdr} {op : Nat} (hacc : Accepted s h op) : Entered s (ready s h op) h op := by
  obtain ⟨-, -, hencOk, hdma, -, ⟨hmute, hring⟩, hses⟩ := hacc
  obtain ⟨u, hu, hframe, -, henable⟩ := s.ready_frame h op hencOk hdma hses
  rw [ready, hu]
  refine ⟨hframe, ?_, ?_⟩
  · rw [hframe]; exact hmute
  · rw [henable]; exact hring

section
variable {s u t : State} {h : Hdr} {op : Nat} (hu : Entered s u h op)
include hu

theorem Entered.cells : u.cells = s.cells := by rw [hu.1]

theorem Entered.stks : u.stks = s.stks := by rw [hu.1]

theorem Entered.cold : u.cold = s.cold := by rw [hu.1]

/-- The bundle in the cold frame is the one that stood there when the command came. -/
theorem Entered.bundleOf (p : Nat) (src : Src) (bn : Bundle) : u.bundleOf p src bn = s.bundleOf p src bn := by
  rw [hu.1]; rfl

/-- What the own part did with discards and rings decides whether a completion is written. -/
theorem Entered.answered (hmute : t.mute = u.mute) (hrings : t.rings = u.rings) (st : Nat) (res : List (Nat × Nat)) :
    Answered (t.post h op st res) h op st res := by
  refine State.post_answered t h op st res ?_ ?_
  · rw [hmute]; exact hu.2.1
  · rw [State.ring_congr hrings]; exact hu.2.2

end

theorem dmaOk_of_accepted {s : State} {h : Hdr} {op : Nat} (hacc : Accepted s h op) : h.dmaOk = true := by
  obtain ⟨-, -, -, hdma, -, -, -⟩ := hacc
  exact hdma

/-! ### Answers -/

theorem State.post_part (s : State) (h : Hdr) (op st : Nat) (res : List (Nat × Nat)) (k : Nat) :
    (s.post h op st res).part k = s.part k := s.post?_part (some h) op st res k

section
variable {s : State} {c : Instr} {h : Hdr} {op : Nat} {absent enc : Bool} {body : State → Did}

/-- A command whose own part answers at once changes nothing else. -/
theorem State.onPartition_answersOnly (hc : exec c s = s.onPartition h op absent enc body) (hacc : AcceptedFor s h op)
    (habs : absent = false) (henc : enc = true) (st : Nat) (res : List (Nat × Nat))
    (hbody : ∀ u, Entered s u h op → body u = (u, some (st, res))) :
    ∃ t, exec c s = .next t ∧ t.parts = s.parts ∧ UnitsKept s t ∧ Answered t h op st res := by
  obtain ⟨u, hu, -, hrun⟩ := State.onPartition_runs body hacc habs henc
  obtain ⟨hparts, hunits⟩ := planKept_post hu.planKept h op st res
  exact ⟨_, hc.trans (hrun _ _ _ (hbody u hu)), hparts, hunits, hu.answered rfl rfl ..⟩

/-- A command whose own part changes its partition, may send something and answers. -/
theorem State.onPartition_setsPart (hc : exec c s = s.onPartition h op absent enc body) (hacc : AcceptedFor s h op)
    (habs : absent = false) (henc : enc = true) (f : Part → Part) (st : Nat) (res : List (Nat × Nat))
    (hbody : ∀ u, Entered s u h op → ∃ out, body u = ({ u.onPart h.part f with out }, some (st, res))) :
    ∃ t, exec c s = .next t ∧ OnlyPart s t h.part f ∧ UnitsKept s t ∧ Answered t h op st res := by
  obtain ⟨u, hu, -, hrun⟩ := State.onPartition_runs body hacc habs henc
  obtain ⟨out, hout⟩ := hbody u hu
  obtain ⟨v, hv⟩ : ∃ v : State, v = { u.onPart h.part f with out } := ⟨_, rfl⟩
  have hpart : OnlyPart s v h.part f := by
    rw [hv]
    refine ⟨?_, fun q hq => ?_⟩
    · rw [← hu.part]
      exact u.onPart_part_same h.part f
    · rw [← hu.part]
      exact u.onPart_part_ne f hq
  have hunits : UnitsKept s v := by
    rw [hv]
    exact hu.planKept.2
  have hans : Answered (v.post h op st res) h op st res := by
    refine hu.answered ?_ ?_ st res
    · rw [hv]; rfl
    · rw [hv]; rfl
  rw [← hv] at hout
  refine ⟨_, hc.trans (hrun _ _ _ hout), ?_, ?_, hans⟩
  · simpa only [OnlyPart, State.post_part] using hpart
  · simpa only [UnitsKept, State.post_cells, State.post_blocks, State.post_stks, State.post_cold, State.post_raised] using hunits

end

/-! ### Landing records (R257, R462, R552) -/

/-- The record that a command lands at `a`. -/
def landingRec (h : Hdr) (kind : Nat) (slot : Option Nat) (arg : Nat) (lines : List Line) (a : Nat) : Rec :=
  { kind, slot, arg, lines, paddr := a, bytes := roundUp (256 * (lines.length + 1)) 4096, flagAt := none, visible := false
    held := false, hdr := some h }

/-- A partition whose landing area holds one record more. -/
def Part.landRec (q : Part) (r : Rec) : Part :=
  { q with recs := put none q.recs q.nextSeq (some r), nextSeq := (q.nextSeq + 1) % 2 ^ 48 }

theorem Part.landRec_look_same (q : Part) (r : Rec) : look none (q.landRec r).recs q.nextSeq = some r :=
  look_put_same none q.recs q.nextSeq (some r)

theorem Part.landRec_look_ne (q : Part) (r : Rec) {k : Nat} (hk : k ≠ q.nextSeq) :
    look none (q.landRec r).recs k = look none q.recs k := look_put_ne none q.recs (some r) hk

section
variable {s : State} {h : Hdr} {kind : Nat} {slot : Option Nat} {arg : Nat} {lines : List Line}

theorem landed_placed {a : Nat} (hplace : (s.part h.part).placeRec (roundUp (256 * (lines.length + 1)) 4096) = some a)
    (hroom : (s.part h.part).recs.length < 65536) : landed s h kind slot arg lines =
      (s.onPart h.part (fun q => q.landRec (landingRec h kind slot arg lines a)), none) := by
  simp only [landed, State.land, hplace, Nat.not_le.2 hroom, if_false]
  rfl

theorem landed_full (hfull : (s.part h.part).placeRec (roundUp (256 * (lines.length + 1)) 4096) = none ∨
    65536 ≤ (s.part h.part).recs.length) : landed s h kind slot arg lines = (s, some (0x05, [])) := by
  unfold landed State.land
  rcases hplace : (s.part h.part).placeRec (roundUp (256 * (lines.length + 1)) 4096) with _ | a
  · simp only [hplace]
    rfl
  · have hrecs := hfull.resolve_left (by simp [hplace])
    simp only [hplace, hrecs, if_true]
    rfl

/-- A command whose own part lands a record leaves that record, or ends with BUSY. -/
theorem State.onPartition_lands {c : Instr} {op : Nat} {absent enc : Bool} {body : State → Did}
    (hc : exec c s = s.onPartition h op absent enc body) (hacc : AcceptedFor s h op)
    (habs : absent = false) (henc : enc = true) (hbody : ∀ u, Entered s u h op → body u = landed u h kind slot arg lines) :
    ∃ t, exec c s = .next t ∧ NewRecord s t h op kind slot arg lines := by
  by_cases hfull : (s.part h.part).placeRec (roundUp (256 * (lines.length + 1)) 4096) = none ∨
    65536 ≤ (s.part h.part).recs.length
  · obtain ⟨t, hexec, hparts, -, hans⟩ := State.onPartition_answersOnly hc hacc habs henc 0x05 []
      (fun u hu => (hbody u hu).trans (landed_full (by rwa [hu.part])))
    refine ⟨t, hexec, fun a hplace hroom => ?_, fun _ => ⟨hans, hparts⟩⟩
    exact (hfull.elim (fun hnone => by simp [hnone] at hplace) (Nat.not_le.2 hroom)).elim
  · obtain ⟨hsome, hroom⟩ := not_or.1 hfull
    obtain ⟨a, hplace⟩ := Option.ne_none_iff_exists'.1 hsome
    obtain ⟨u, hu, hrun, -⟩ := State.onPartition_runs body hacc habs henc
    refine ⟨_, hc.trans (hrun _ ((hbody u hu).trans (landed_placed (a := a) (by rwa [hu.part]) (by rw [hu.part]; omega)))),
      fun b hb _ => ?_, fun hnone => absurd hnone hsome⟩
    obtain rfl : a = b := Option.some.inj (hplace.symm.trans hb)
    rw [State.onPart_part_same, hu.part]
    exact ⟨Part.landRec_look_same .., fun k => Part.landRec_look_ne _ _, rfl, rfl,
      fun p hp => (State.onPart_part_ne _ _ hp).trans (hu.part p), hu.cells⟩

end

end Sys2Proof.Machine
end

