-- ==== Sys2Proof/Proofs/BundleSets.lean ====
section
/-! PROOF. Bundles by host command: the load that starts or is refused, its end, the status answered and what is freed (R222, R224, R226,
R234, R243). -/

namespace Sys2Proof.Machine
open Sys2Proof.Stmt

/-! ### The two sets of a partition -/

section
variable (q : Part) (b : Bool) (f : WSet → WSet)

theorem Part.set_onSet_same : (q.onSet b f).set b = f (q.set b) := by cases b <;> rfl

theorem Part.set_onSet_other : (q.onSet b f).set (!b) = q.set (!b) := by cases b <;> rfl

end

/-! ### Writing a bundle's lines touches memories alone -/

/-- Between `s` and `t` nothing changed but the contents of stacks and cold frame. -/
def OnlyMemories (s t : State) : Prop := t = { s with stks := t.stks, cold := t.cold }

section
variable {s t u : State}

theorem OnlyMemories.refl (s : State) : OnlyMemories s s := rfl

theorem OnlyMemories.trans (hst : OnlyMemories s t) (htu : OnlyMemories t u) : OnlyMemories s u := by
  rw [OnlyMemories, htu, hst]

theorem OnlyMemories.part (h : OnlyMemories s t) (p : Nat) : t.part p = s.part p := by rw [h]; rfl

theorem OnlyMemories.cells (h : OnlyMemories s t) : t.cells = s.cells := by rw [h]

theorem onlyMemories_putLine (s : State) (tier : Tier) (loc : LeaseLoc) (l : Nat) (x : SLine) :
    OnlyMemories s (s.putLine tier loc l x) := by
  cases tier with
  | stack => rfl
  | cold => unfold State.putLine; dsimp only; split <;> rfl

theorem onlyMemories_putPart (s : State) (p : Nat) (tier : Tier) (setB : Bool) (a : Nat) (d : Line) :
    OnlyMemories s (s.putPart p tier setB a d) := by
  unfold State.putPart
  split
  · exact .refl s
  dsimp only
  split
  · exact .refl s
  · exact onlyMemories_putLine ..

theorem onlyMemories_foldl {α : Type} (l : List α) {op : State → α → State} (hop : ∀ s x, OnlyMemories s (op s x)) (s : State) :
    OnlyMemories s (l.foldl op s) :=
  List.foldlRecOn l op (.refl s) (fun t ht x _ => ht.trans (hop t x))

end

/-! ### A load begins (R224) -/

/-- A set into which bundle load `b` writes: its rootstock, or the scion named, is not VALID and has the bundle's digest. -/
def WSet.begin (w : WSet) (b : BLoad) : WSet :=
  if b.scion = 0 then { w with valid := false, digest := bundleDigest b.bn, span := b.bn.span, recL := b.bn.recLines }
  else { w with scions := put none w.scions b.scion none, digs := put 0 w.digs b.scion (bundleDigest b.bn)
                pool := put 0 w.pool b.scion (b.slot + 1) }

/-- A partition in which bundle load `b` has begun. -/
def Part.beginBundle (q : Part) (b : BLoad) : Part :=
  { q.onSet b.setB (fun w => w.begin b) with bundle := some b, rotLoad := .busy }

theorem WSet.begin_rootstock (w : WSet) {b : BLoad} (hroot : b.scion = 0) :
    (w.begin b).valid = false ∧ (w.begin b).digest = bundleDigest b.bn := by
  rw [WSet.begin, if_pos hroot]
  exact ⟨rfl, rfl⟩

theorem WSet.begin_scion (w : WSet) {b : BLoad} (hscion : b.scion ≠ 0) :
    look none (w.begin b).scions b.scion = none ∧ look 0 (w.begin b).digs b.scion = bundleDigest b.bn := by
  rw [WSet.begin, if_neg hscion]
  exact ⟨look_put_same none w.scions b.scion none, look_put_same 0 w.digs b.scion (bundleDigest b.bn)⟩

theorem Part.set_beginBundle_same (q : Part) (b : BLoad) : (q.beginBundle b).set b.setB = (q.set b.setB).begin b :=
  q.set_onSet_same b.setB (fun w => w.begin b)

theorem Part.set_beginBundle_other (q : Part) (b : BLoad) : (q.beginBundle b).set (!b.setB) = q.set (!b.setB) :=
  q.set_onSet_other b.setB (fun w => w.begin b)

theorem onlyMemories_startBundle (s : State) (p : Nat) (b : BLoad) :
    OnlyMemories (s.onPart p (fun q => q.beginBundle b)) (s.startBundle p b) :=
  onlyMemories_foldl _ (fun s _ => onlyMemories_foldl _ (fun s _ => onlyMemories_putPart s p ..) s) _

section
variable {h : Hdr} {src : Src} {set : Bool} {scion slot : Nat} {bn : Bundle} {s : State}

/-- Only a host address is read by DMA. -/
theorem srcRead_of_dmaOk (hdma : h.dmaOk = true) : srcRead h src = true := by
  cases src with
  | host _ => exact hdma
  | _ => rfl

/-- An allowed bundle starts its load. -/
theorem bundleLoad_starts (hacc : AcceptedFor s h 0x0401) (hmerge : s.mergeAbsent (s.bundleOf h.part src bn) = false)
    (hsrc : srcOk h src = true) (hscion : scion < 4096) (hidle : (s.part h.part).bundle = none) {b : BLoad}
    (hb : b = { setB := set, scion, slot, bn := s.bundleOf h.part src bn, hdr := some h })
    (hallowed : (s.part h.part).bundleRefused b = none) :
    ∃ u t, Entered s u h 0x0401 ∧ exec (.bundleLoad h src set scion slot bn) s = .next t ∧
      OnlyMemories (u.onPart h.part (fun q => q.beginBundle b)) t := by
  obtain ⟨u, hu, hrun, -⟩ := State.onPartition_runs _ hacc hmerge
    (show (srcOk h src && decide (scion < 4096)) = true by simp [hsrc, hscion])
  refine ⟨u, _, hu, hrun _ ?_, onlyMemories_startBundle u h.part b⟩
  simp only [hu.part, hu.bundleOf, hidle, srcRead_of_dmaOk (dmaOk_of_accepted hacc.1), ← hb, hallowed, Option.isSome_none, Bool.not_true,
    Bool.false_eq_true, if_false]

/-- A bundle that is not allowed answers why and writes nothing. -/
theorem bundleLoad_refused (hacc : AcceptedFor s h 0x0401) (hmerge : s.mergeAbsent (s.bundleOf h.part src bn) = false)
    (hsrc : srcOk h src = true) (hscion : scion < 4096) (hidle : (s.part h.part).bundle = none) {b : BLoad}
    (hb : b = { setB := set, scion, slot, bn := s.bundleOf h.part src bn, hdr := some h }) {st : Nat}
    (hrefused : (s.part h.part).bundleRefused b = some st) :
    ∃ t, exec (.bundleLoad h src set scion slot bn) s = .next t ∧
      OnlyPart s t h.part (fun q => { q with rotLoad := .failed }) ∧ UnitsKept s t ∧ Answered t h 0x0401 st [] := by
  refine State.onPartition_setsPart rfl hacc hmerge (by simp [hsrc, hscion]) _ st [] (fun u hu => ⟨u.out, ?_⟩)
  simp only [hu.part, hu.bundleOf, hidle, srcRead_of_dmaOk (dmaOk_of_accepted hacc.1), ← hb, hrefused, Option.isSome_none, Bool.not_true,
    Bool.false_eq_true, if_false]
  rfl

/-- BUNDLE_LOAD of the bundle that the command finds: the load starts, or a refusal is answered. -/
theorem bundleLoad_startsOrRefuses (hacc : AcceptedFor s h 0x0401) (hmerge : s.mergeAbsent (s.bundleOf h.part src bn) = false)
    (hsrc : srcOk h src = true) (hscion : scion < 4096) (hidle : (s.part h.part).bundle = none) {b : BLoad}
    (hb : b = { setB := set, scion, slot, bn := s.bundleOf h.part src bn, hdr := some h }) :
    ∃ t, exec (.bundleLoad h src set scion slot bn) s = .next t ∧ (∀ p, p ≠ h.part → t.part p = s.part p) ∧ t.cells = s.cells ∧
      (t.part h.part).set (!set) = (s.part h.part).set (!set) ∧
      ((s.part h.part).bundleRefused b = none → (t.part h.part).bundle = some b ∧ (t.part h.part).rotLoad = .busy ∧
        (scion = 0 → ((t.part h.part).set set).valid = false ∧ ((t.part h.part).set set).digest = bundleDigest b.bn) ∧
        (scion ≠ 0 → look none ((t.part h.part).set set).scions scion = none ∧
          look 0 ((t.part h.part).set set).digs scion = bundleDigest b.bn)) ∧
      (∀ st, (s.part h.part).bundleRefused b = some st → Answered t h 0x0401 st [] ∧ t.stks = s.stks ∧ t.cold = s.cold ∧
        t.part h.part = { s.part h.part with rotLoad := .failed }) := by
  have hsetB : b.setB = set := by rw [hb]
  have hbscion : b.scion = scion := by rw [hb]
  rcases hr : (s.part h.part).bundleRefused b with _ | st
  · obtain ⟨u, t, hu, hexec, hmem⟩ := bundleLoad_starts hacc hmerge hsrc hscion hidle hb hr
    have hpart : t.part h.part = (s.part h.part).beginBundle b := by rw [hmem.part, State.onPart_part_same, hu.part]
    have hset : ((s.part h.part).beginBundle b).set set = ((s.part h.part).set set).begin b := by
      rw [← hsetB, Part.set_beginBundle_same]
    refine ⟨t, hexec, fun p hp => ?_, hmem.cells.trans hu.cells, ?_, fun _ => ?_, nofun⟩
    · rw [hmem.part, State.onPart_part_ne _ _ hp, hu.part]
    · rw [hpart, ← hsetB, Part.set_beginBundle_other]
    · rw [hpart, hset, ← hbscion]
      exact ⟨rfl, rfl, WSet.begin_rootstock _, WSet.begin_scion _⟩
  · obtain ⟨t, hexec, ⟨hpart, hothers⟩, ⟨hcells, -, hstks, hcold, -⟩, hans⟩ :=
      bundleLoad_refused hacc hmerge hsrc hscion hidle hb hr
    refine ⟨t, hexec, hothers, hcells, ?_, nofun, fun st' hst => ?_⟩
    · rw [hpart]; rfl
    · cases hst
      exact ⟨hans, hstks, hcold, hpart⟩

end

/-! ### A load ends (R224, R234) -/

section
variable (q : Part) (b : BLoad)

theorem Part.endBundle_rootstock (hroot : b.scion = 0) : ((q.endBundle b).set b.setB).valid = q.bundleGood b := by
  have hset : (q.endBundle b).set b.setB = _ := q.set_onSet_same b.setB _
  rw [hset, if_pos hroot]

theorem Part.endBundle_scion (hscion : b.scion ≠ 0) :
    look none ((q.endBundle b).set b.setB).scions b.scion = if q.bundleGood b then some b.slot else none := by
  have hset : (q.endBundle b).set b.setB = _ := q.set_onSet_same b.setB _
  rw [hset, if_neg hscion]
  exact look_put_same ..

end

theorem exec_bundleLoadDone {p : Nat} {s : State} {b : BLoad} (hb : (s.part p).bundle = some b) :
    exec (.bundleLoadDone p) s = .next ((s.onPart p (fun q => q.endBundle b)).post? b.hdr 0x0401
      (if (s.part p).bundleGood b then 0x00 else 0x09) []) := by
  show execBundleLoadDone p s = _
  rw [execBundleLoadDone, hb]
  rfl

/-- BUNDLE_LOAD_DONE sets VALID of the target when the bundle is good, and answers. -/
theorem bundleLoadDone_ends {p : Nat} {s : State} {b : BLoad} (hb : (s.part p).bundle = some b) :
    let all := (s.part p).bundleGood b
    ∃ t, exec (.bundleLoadDone p) s = .next t ∧ (t.part p).bundle = none ∧
      (t.part p).rotLoad = (if all then .done else .failed) ∧ (∀ q, q ≠ p → t.part q = s.part q) ∧
      (b.scion = 0 → ((t.part p).set b.setB).valid = all) ∧
      (b.scion ≠ 0 → look none ((t.part p).set b.setB).scions b.scion = if all then some b.slot else none) ∧
      ∀ h, b.hdr = some h → Listening s h 0x0401 → Answered t h 0x0401 (if all then 0 else 0x09) [] := by
  refine ⟨_, exec_bundleLoadDone hb, ?_, ?_, fun q hq => ?_, fun hroot => ?_, fun hscion => ?_, fun h hh ⟨hmute, hring⟩ => ?_⟩
  · rw [State.post?_part, State.onPart_part_same]; rfl
  · rw [State.post?_part, State.onPart_part_same]; rfl
  · rw [State.post?_part, State.onPart_part_ne _ _ hq]
  · rw [State.post?_part, State.onPart_part_same, Part.endBundle_rootstock _ _ hroot]
  · rw [State.post?_part, State.onPart_part_same, Part.endBundle_scion _ _ hscion]
  · rw [hh]
    exact State.post_answered _ h _ _ _ hmute hring

/-! ### Status and release -/

section
variable {h : Hdr} {set : Bool} {scion : Nat} {s : State}

/-- BUNDLE_STATUS answers VALID of the target and LOAD_STATUS first. -/
theorem bundleStatus_answers (hacc : AcceptedFor s h 0x0402) (hscion : scion < 4096) :
    ∃ t rest, exec (.bundleStatus h set scion) s = .next t ∧ t.parts = s.parts ∧ UnitsKept s t ∧ Answered t h 0x0402 0
      ((1, b2n (if scion = 0 then ((s.part h.part).set set).valid else (look none ((s.part h.part).set set).scions scion).isSome)) ::
       (1, loadStatusNo (s.part h.part).rotLoad) :: rest) := by
  obtain ⟨t, hexec, hparts, hunits, hans⟩ := State.onPartition_answersOnly (c := .bundleStatus h set scion) rfl hacc rfl
    (decide_eq_true hscion) 0 _
    (fun u hu => by simp only [hu.part]; rfl)
  exact ⟨t, _, hexec, hparts, hunits, hans⟩

/-- A set without scion `v`. -/
def WSet.freeScion (w : WSet) (v : Nat) : WSet := { w with scions := put none w.scions v none, pool := put 0 w.pool v 0 }

/-- A set without rootstock and scions. -/
def WSet.freeAll (w : WSet) : WSet := { w with valid := false, scions := [], pool := [] }

/-- BUNDLE_FREE of a scion of the active set that no assigned slot names. -/
theorem bundleFree_activeScion (hacc : AcceptedFor s h 0x0403) (hscion : scion < 4096) (hidle : (s.part h.part).bundle = none)
    (hset : set = (s.part h.part).active) (hne : scion ≠ 0) (hunnamed : (s.part h.part).namesScion scion = false) :
    ∃ t, exec (.bundleFree h set scion) s = .next t ∧ Answered t h 0x0403 0 [] ∧
      look none ((t.part h.part).set set).scions scion = none ∧ ((t.part h.part).set set).valid = ((s.part h.part).set set).valid ∧
      (t.part h.part).set (!set) = (s.part h.part).set (!set) := by
  obtain ⟨t, hexec, ⟨hpart, -⟩, -, hans⟩ := State.onPartition_setsPart (c := .bundleFree h set scion) rfl hacc rfl
    (decide_eq_true hscion) (fun q => q.onSet set (fun w => w.freeScion scion)) 0 [] (fun u hu => ⟨u.out, by
      simp only [hu.part, hidle, ← hset, hne, hunnamed, Option.any_none, Bool.or_self, Bool.false_eq_true, if_true, if_false]
      rfl⟩)
  refine ⟨t, hexec, hans, ?_⟩
  rw [hpart, Part.set_onSet_same, Part.set_onSet_other]
  exact ⟨look_put_same none ((s.part h.part).set set).scions scion none, rfl, rfl⟩

/-- BUNDLE_FREE of the whole standby set, with no rotation pending or held. -/
theorem bundleFree_standbySet (hacc : AcceptedFor s h 0x0403) (hscion : scion < 4096) (hidle : (s.part h.part).bundle = none)
    (hset : set ≠ (s.part h.part).active) (hall : scion = 0) (hheld : (s.part h.part).held = false)
    (hrot : (s.part h.part).pendRot = none) :
    ∃ t, exec (.bundleFree h set scion) s = .next t ∧ Answered t h 0x0403 0 [] ∧ ((t.part h.part).set set).valid = false ∧
      ((t.part h.part).set set).scions = [] ∧ (t.part h.part).set (!set) = (s.part h.part).set (!set) := by
  obtain ⟨t, hexec, ⟨hpart, -⟩, -, hans⟩ := State.onPartition_setsPart (c := .bundleFree h set scion) rfl hacc rfl
    (decide_eq_true hscion) (fun q => q.onSet set WSet.freeAll) 0 [] (fun u hu => ⟨u.out, by
      simp only [hu.part, hidle, hset, hall, hheld, hrot, Option.any_none, Option.isSome_none, Bool.or_self, Bool.false_eq_true,
        if_true, if_false]
      rfl⟩)
  refine ⟨t, hexec, hans, ?_⟩
  rw [hpart, Part.set_onSet_same, Part.set_onSet_other]
  exact ⟨rfl, rfl, rfl⟩

end

end Sys2Proof.Machine
end

