-- ==== Sys2Proof/Proofs/ServingCommands.lean ====
section
/-! PROOF. Rotation, staging, slot and park commands; with the bundle commands they settle O53 (R225, R243, R257, R275, R462, R552, Tables
10.14, 17.13). -/

namespace Sys2Proof.Machine
open Sys2Proof.Stmt

/-! ### Lines that the hub writes to the cold frame (R216, R227, R253) -/

/-- What the hub writes to lease index `i` of partition `p` in the cold frame reaches the place `loc`. -/
def State.WritesCold (s : State) (p i : Nat) (loc : LeaseLoc) : Prop :=
  s.cold.state ≠ .failed ∧ look 0 s.cold.keys p ≠ 0 ∧ (s.part p).writeEntry .cold i = some loc

/-- A line as partition `p` stores it at cold-frame address `a`. -/
def State.coldLine (s : State) (p a : Nat) (d : Line) : SLine := { key := look 0 s.cold.keys p, tweak := a / 256, data := d }

/-- The cold frame with line `x` at key `k`. -/
def State.withColdLine (s : State) (k : Nat) (x : SLine) : State :=
  { s with cold := { s.cold with lines := put {} s.cold.lines k x } }

/-- Where lines from `a` on all lie in lease index `i`, so do those after the first. -/
theorem lease_of_rest {a i n : Nat} (hin : ∀ j, j < n + 1 → (a + 256 * j) / 2 ^ 30 = i) (j : Nat) (hj : j < n) :
    (a + 256 + 256 * j) / 2 ^ 30 = i := by
  have hnext := hin (j + 1) (Nat.succ_lt_succ hj)
  omega

section
variable {s : State} {p i : Nat} {loc : LeaseLoc} (hs : s.WritesCold p i loc)
include hs

theorem State.WritesCold.withColdLine (k : Nat) (x : SLine) : (s.withColdLine k x).WritesCold p i loc := hs

theorem State.WritesCold.coldLine_ne (a : Nat) (d : Line) : s.coldLine p a d ≠ {} := by
  obtain ⟨-, hkey, -⟩ := hs
  exact fun hx => hkey (congrArg SLine.key hx)

theorem State.putOwn_cold {a : Nat} (ha : a / 2 ^ 30 = i) (d : Line) :
    s.putOwn p .cold a d = s.withColdLine (coldKeyOf loc a) (s.coldLine p a d) := by
  obtain ⟨hworks, hkey, hloc⟩ := hs
  rw [← ha, Part.writeEntry] at hloc
  simp only [State.putOwn, State.putPart, hloc, State.slotKey, hkey, State.putLine, hworks, if_false]
  rfl

/-- Lines after an address leave the line at it as it was. -/
theorem State.putLines_find_before {x a : Nat} {ds : List Line} (hx : x / 2 ^ 30 = i) (hx256 : x % 256 = 0) (ha256 : a % 256 = 0)
    (hxa : x < a) (hin : ∀ j, j < ds.length → (a + 256 * j) / 2 ^ 30 = i) :
    find (s.putLines p .cold a ds).cold.lines (coldKeyOf loc x) = find s.cold.lines (coldKeyOf loc x) := by
  induction ds generalizing s a with
  | nil => rfl
  | cons d ds ih =>
    have ha : a / 2 ^ 30 = i := hin 0 (Nat.succ_pos _)
    have hne : coldKeyOf loc x ≠ coldKeyOf loc a := by unfold coldKeyOf; omega
    rw [State.putLines, State.putOwn_cold hs ha, ih (hs.withColdLine ..) (by omega) (by omega) (lease_of_rest hin)]
    exact find_put_ne _ hne

/-- Each of the lines written is stored under the partition's key at its own address. -/
theorem State.putLines_find {a : Nat} {ds : List Line} (ha256 : a % 256 = 0)
    (hin : ∀ j, j < ds.length → (a + 256 * j) / 2 ^ 30 = i) {j : Nat} (hj : j < ds.length) :
    find (s.putLines p .cold a ds).cold.lines (coldKeyOf loc (a + 256 * j)) = some (s.coldLine p (a + 256 * j) (ds.getD j 0)) := by
  induction ds generalizing s a j with
  | nil => exact absurd hj (Nat.not_lt_zero _)
  | cons d ds ih =>
    have ha : a / 2 ^ 30 = i := hin 0 (Nat.succ_pos _)
    rw [State.putLines, State.putOwn_cold hs ha]
    cases j with
    | zero =>
      refine (State.putLines_find_before (hs.withColdLine ..) ha ha256 (by omega) (by omega) (lease_of_rest hin)).trans ?_
      exact find_put_same _ (hs.coldLine_ne a d)
    | succ j =>
      have hmove : a + 256 * (j + 1) = a + 256 + 256 * j := by omega
      rw [hmove]
      exact ih (hs.withColdLine ..) (by omega) (lease_of_rest hin) (Nat.lt_of_succ_lt_succ hj)

end

/-! ### ROTATE and COLD_STAGE -/

section
variable {h : Hdr} {s : State}

/-- ROTATE for a step that has begun. -/
theorem rotate_late {step : Nat} (hacc : AcceptedFor s h 0x0404) (hstep : step < 2 ^ 48) (hrot : (s.part h.part).pendRot = none)
    (hheld : (s.part h.part).held = false) (hlate : step ≤ (s.part h.part).stepNo) :
    ∃ t, exec (.rotate h step) s = .next t ∧ t.parts = s.parts ∧ UnitsKept s t ∧ Answered t h 0x0404 0x07 [] :=
  State.onPartition_answersOnly rfl hacc rfl (decide_eq_true hstep) 0x07 [] (fun u hu => by
    simp only [hu.part, hrot, hheld, hlate, Option.isSome_none, Bool.or_self, Bool.false_eq_true, if_false, if_true]
    rfl)

/-- ROTATE at a later step lands its record when the standby set is VALID, and ends with BAD_PARAM when not. -/
theorem rotate_ahead {step : Nat} (hacc : AcceptedFor s h 0x0404) (hstep : step < 2 ^ 48) (hrot : (s.part h.part).pendRot = none)
    (hheld : (s.part h.part).held = false) (hahead : (s.part h.part).stepNo < step) :
    ∃ t, exec (.rotate h step) s = .next t ∧ ((s.part h.part).standby.valid = true → NewRecord s t h 0x0404 5 none step []) := by
  cases hvalid : (s.part h.part).standby.valid with
  | true =>
    obtain ⟨t, hexec, hrec⟩ := State.onPartition_lands (c := .rotate h step) (kind := 5) (slot := none) (arg := step) (lines := [])
      rfl hacc rfl (decide_eq_true hstep) (fun u hu => by
        simp only [hu.part, hrot, hheld, Nat.not_le.2 hahead, hvalid, Option.isSome_none, Bool.or_self, Bool.not_true,
          Bool.false_eq_true, if_false])
    exact ⟨t, hexec, fun _ => hrec⟩
  | false =>
    obtain ⟨t, hexec, -, -, -⟩ := State.onPartition_answersOnly (c := .rotate h step) rfl hacc rfl (decide_eq_true hstep) 0x03 []
      (fun u hu => by
        simp only [hu.part, hrot, hheld, Nat.not_le.2 hahead, hvalid, Option.isSome_none, Bool.or_self, Bool.not_false,
          Bool.false_eq_true, if_false, if_true]
        rfl)
    exact ⟨t, hexec, nofun⟩

/-- COLD_STAGE writes its lines at once and waits for COLD_STAGE_DONE. -/
theorem exec_coldStage {host paddr lines : Nat} {data : List Line} (hacc : AcceptedFor s h 0x0405)
    (henc : h.fn ≠ 17 ∧ host < 2 ^ 64 ∧ paddr % 256 = 0 ∧ 1 ≤ lines ∧ paddr + 256 * lines ≤ 2 ^ 40)
    (hgood : ∀ j, j < lines → (s.part h.part).stageBad (paddr + 256 * j) = false) (hslots : (s.part h.part).noLoadSlots = false)
    (hidle : (s.part h.part).stageHdr = none) (hdata : data.length = lines) :
    ∃ u, Entered s u h 0x0405 ∧ exec (.coldStage h host paddr lines data) s =
      .next ((u.putLines h.part .cold paddr data).onPart h.part (fun q => { q with stageHdr := some h })) := by
  obtain ⟨u, hu, hrun, -⟩ := State.onPartition_runs (absent := false) _ hacc rfl (decide_eq_true henc)
  have hnone : (List.range lines).any (fun j => (s.part h.part).stageBad (paddr + 256 * j)) = false := by
    simpa [List.any_eq_false] using hgood
  refine ⟨u, hu, hrun _ ?_⟩
  simp only [hu.part, hnone, hslots, hidle, dmaOk_of_accepted hacc.1, List.take_of_length_le hdata.le, Option.isSome_none, Bool.or_self,
    Bool.not_true, Bool.false_eq_true, if_false]

/-- The lines of COLD_STAGE stand where the partition's write entry of their lease puts them. -/
theorem coldStage_holds {u : State} {paddr : Nat} {data : List Line} (hu : Entered s u h 0x0405) (haligned : paddr % 256 = 0)
    (hlease : (paddr + 256 * data.length - 1) / 2 ^ 30 = paddr / 2 ^ 30) (hworks : s.cold.state ≠ .failed)
    (hkey : look 0 s.cold.keys h.part ≠ 0) {j : Nat} (hj : j < data.length) :
    ColdHolds ((u.putLines h.part .cold paddr data).onPart h.part (fun q => { q with stageHdr := some h })) h.part
      ((s.part h.part).entrySel .cold (paddr / 2 ^ 30) true) (paddr + 256 * j) (data.getD j 0) := by
  have hin : ∀ k, k < data.length → (paddr + 256 * k) / 2 ^ 30 = paddr / 2 ^ 30 := fun k hk => by omega
  obtain ⟨cold, hput⟩ := u.putLines_cold h.part paddr data
  intro loc hentry
  rw [State.onPart_part_same, hput, hin j hj] at hentry
  have hopen : u.WritesCold h.part (paddr / 2 ^ 30) loc := by
    refine ⟨?_, ?_, ?_⟩
    · rw [hu.cold]; exact hworks
    · rw [hu.cold]; exact hkey
    · rw [Part.writeEntry, hu.part, ← hentry, ← hu.part]
      rfl
  refine (State.putLines_find hopen haligned hin hj).trans ?_
  rw [hput]
  rfl

/-- COLD_STAGE changes nothing but its lines and the command that it waits to complete. -/
theorem coldStage_writes {host paddr lines : Nat} {data : List Line} (hacc : AcceptedFor s h 0x0405)
    (henc : h.fn ≠ 17 ∧ host < 2 ^ 64 ∧ paddr % 256 = 0 ∧ 1 ≤ lines ∧ paddr + 256 * lines ≤ 2 ^ 40)
    (hlease : (paddr + 256 * lines - 1) / 2 ^ 30 = paddr / 2 ^ 30)
    (hgood : ∀ j, j < lines → (s.part h.part).stageBad (paddr + 256 * j) = false) (hslots : (s.part h.part).noLoadSlots = false)
    (hidle : (s.part h.part).stageHdr = none) (hworks : s.cold.state ≠ .failed) (hkey : look 0 s.cold.keys h.part ≠ 0)
    (hdata : data.length = lines) :
    ∃ t, exec (.coldStage h host paddr lines data) s = .next t ∧ OnlyPart s t h.part (fun q => { q with stageHdr := some h }) ∧
      t.cells = s.cells ∧ t.stks = s.stks ∧
      ∀ j, j < lines → ColdHolds t h.part ((s.part h.part).entrySel .cold (paddr / 2 ^ 30) true) (paddr + 256 * j) (data.getD j 0) := by
  obtain ⟨u, hu, hexec⟩ := exec_coldStage hacc henc hgood hslots hidle hdata
  obtain ⟨-, -, haligned, -⟩ := henc
  obtain ⟨cold, hput⟩ := u.putLines_cold h.part paddr data
  refine ⟨_, hexec, ⟨?_, fun q hq => ?_⟩, ?_, ?_, fun j hj => ?_⟩
  · rw [State.onPart_part_same, hput, ← hu.part]; rfl
  · rw [State.onPart_part_ne _ _ hq, hput, ← hu.part]; rfl
  · rw [State.onPart_cells, hput, ← hu.cells]
  · rw [State.onPart_stks, hput, ← hu.stks]
  · subst hdata
    exact coldStage_holds hu haligned hlease hworks hkey hj

/-- COLD_STAGE_DONE completes the command that staged. -/
theorem coldStageDone_answers {p : Nat} (hstage : (s.part p).stageHdr = some h) : ∃ t, exec (.coldStageDone p) s = .next t ∧
    OnlyPart s t p (fun q => { q with stageHdr := none }) ∧ (Listening s h 0x0405 → Answered t h 0x0405 0 []) := by
  have hexec : exec (.coldStageDone p) s =
      .next ((s.onPart p (fun q => { q with stageHdr := none })).post h 0x0405 0x00 []) := by
    show execColdStageDone p s = _
    rw [execColdStageDone, hstage]
    rfl
  refine ⟨_, hexec, ⟨?_, fun q hq => ?_⟩, fun ⟨hmute, hring⟩ => State.post_answered _ h _ _ _ hmute hring⟩
  · rw [State.post_part, State.onPart_part_same]
  · rw [State.post_part, State.onPart_part_ne _ _ hq]

/-! ### Slot commands (Table 10.14) -/

theorem slotInput_lands {slot host count : Nat} {tokens : List Lane} {e : ServingE} (hacc : AcceptedFor s h 0x0501)
    (hfn : h.fn ≠ 17) (haligned : host % 8 = 0) (hhost : host < 2 ^ 64) (hserv : (s.part h.part).serving = some e)
    (hslot : slot < (s.part h.part).slotCount) (hpos : 0 < count) (hfits : count ≤ 64 * e.tokLines) :
    ∃ t, exec (.slotInput h slot host count tokens) s = .next t ∧
      NewRecord s t h 0x0501 1 (some slot) count (wordLines ((List.range count).map (fun i => (tokens.getD i 0).toNat))) := by
  refine State.onPartition_lands rfl hacc rfl (decide_eq_true ⟨hfn, haligned, hhost⟩) (fun u hu => ?_)
  simp only [hu.part, hserv, Nat.not_le.2 hslot, Nat.ne_of_gt hpos, Nat.not_lt.2 hfits, dmaOk_of_accepted hacc.1, or_self, Bool.not_true,
    Bool.false_eq_true, if_false]

theorem slotAccept_lands {slot n : Nat} (hacc : AcceptedFor s h 0x0502) (hslot : slot < (s.part h.part).slotCount) (hn : n ≤ 16) :
    ∃ t, exec (.slotAccept h slot n) s = .next t ∧ NewRecord s t h 0x0502 2 (some slot) n [] :=
  State.onPartition_lands rfl hacc rfl (decide_eq_true hn) (fun u hu => by rw [hu.part, if_neg (Nat.not_le.2 hslot)])

theorem slotDeadline_lands {slot n : Nat} (hacc : AcceptedFor s h 0x0503) (hslot : slot < (s.part h.part).slotCount)
    (hn : n < 2 ^ 64) : ∃ t, exec (.slotDeadline h slot n) s = .next t ∧ NewRecord s t h 0x0503 3 (some slot) n [] :=
  State.onPartition_lands rfl hacc rfl (decide_eq_true hn) (fun u hu => by rw [hu.part, if_neg (Nat.not_le.2 hslot)])

theorem slotEdit_lands {slot host : Nat} {e : EditIn} (hacc : AcceptedFor s h 0x0504) (hfn : h.fn ≠ 17) (hhost : host < 2 ^ 64)
    (hslot : slot < (s.part h.part).slotCount) :
    ∃ t, exec (.slotEdit h slot host e) s = .next t ∧ NewRecord s t h 0x0504 4 (some slot) 0 (editLines e) := by
  refine State.onPartition_lands rfl hacc rfl (decide_eq_true ⟨hfn, hhost⟩) (fun u hu => ?_)
  simp only [hu.part, Nat.not_le.2 hslot, dmaOk_of_accepted hacc.1, Bool.not_true, Bool.false_eq_true, if_false]

theorem slotRead_answers {slot : Nat} (hacc : AcceptedFor s h 0x0508) (hslot : slot < (s.part h.part).slotCount) :
    ∃ t, exec (.slotRead h slot) s = .next t ∧ t.parts = s.parts ∧ UnitsKept s t ∧ Answered t h 0x0508 0
      (slotFields (((s.part h.part).lastResult.map (fun r => look {} r.slots slot)).getD {})) :=
  State.onPartition_answersOnly rfl hacc rfl rfl 0 _ (fun u hu => by
    simp only [hu.part, Nat.not_le.2 hslot, if_false]
    rfl)

/-! ### The park table (R275) -/

/-- A park entry whose context SLOT_RESUME copies to `pages`. -/
def Park.resumed (x : Park) (h : Hdr) (e : ServingE) (pages : List Nat) : Park :=
  { x with st := .resuming, dest := pages, toBase := e.kvBase, toGroups := e.kvGroups, hdr := some h }

theorem slotResume_starts {entry : Nat} {pages : List Nat} {e : ServingE} {x : Park} (hentry : entry < 65536)
    (hx : look Park.zero (s.part h.part).park entry = x) (hacc : AcceptedFor s h 0x0505)
    (hserv : (s.part h.part).serving = some e) (hpages : ∀ g ∈ pages, g < e.kvPages) (hparked : x.st = .parked)
    (hcount : pages.length = (x.length + 63) / 64) (hslots : (s.part h.part).noLoadSlots = false) :
    ∃ t, exec (.slotResume h entry pages) s = .next t ∧
      OnlyPart s t h.part (fun q => { q with park := put Park.zero q.park entry (x.resumed h e pages) }) ∧
      .twinRelease h.part entry ∈ t.out := by
  obtain ⟨u, hu, hrun, -⟩ := State.onPartition_runs (absent := false) _ hacc rfl (decide_eq_true hentry)
  have hin : pages.any (fun g => decide (e.kvPages ≤ g)) = false := by
    simpa [List.any_eq_false] using hpages
  refine ⟨(u.onPart h.part (fun q => { q with park := put Park.zero q.park entry (x.resumed h e pages) })).releaseTwin h.part entry,
    hrun _ ?_, ⟨?_, fun q hq => ?_⟩, ?_⟩
  · simp only [hu.part, hx, hserv, hin, hparked, hcount, hslots, ne_eq, not_true_eq_false, Bool.false_eq_true, if_false]
    rfl
  · rw [State.releaseTwin, State.send_part, State.onPart_part_same, hu.part]
  · rw [State.releaseTwin, State.send_part, State.onPart_part_ne _ _ hq, hu.part]
  · exact List.mem_append_right _ (List.mem_singleton.2 rfl)

theorem parkStatus_answers {entry : Nat} {x : Park} (hentry : entry < 65536)
    (hx : look Park.zero (s.part h.part).park entry = x) (hacc : AcceptedFor s h 0x0506) :
    ∃ t, exec (.parkStatus h entry) s = .next t ∧ t.parts = s.parts ∧ UnitsKept s t ∧
      Answered t h 0x0506 0 [(1, parkNo x.st), (4, x.length), (8, x.expiry)] :=
  State.onPartition_answersOnly rfl hacc rfl (decide_eq_true hentry) 0 _ (fun u hu => by
    simp only [hu.part, hx]
    rfl)

theorem parkDrop_parked {entry : Nat} {x : Park} (hentry : entry < 65536)
    (hx : look Park.zero (s.part h.part).park entry = x) (hacc : AcceptedFor s h 0x0507) (hparked : x.st = .parked) :
    ∃ t, exec (.parkDrop h entry) s = .next t ∧
      PartDone s t h 0x0507 [] h.part (fun q => { q with park := put Park.zero q.park entry { x with st := .zeroising } }) := by
  obtain ⟨t, hexec, hpart, -, hans⟩ := State.onPartition_setsPart (c := .parkDrop h entry) rfl hacc rfl (decide_eq_true hentry)
    (fun q => { q with park := put Park.zero q.park entry { x with st := .zeroising } }) 0 []
    (fun u hu => ⟨u.out ++ [.twinRelease h.part entry], by
      simp only [hu.part, hx, hparked, ne_eq, not_true_eq_false, if_false]
      rfl⟩)
  exact ⟨t, hexec, hans, hpart⟩

theorem parkDrop_notParked {entry : Nat} {x : Park} (hentry : entry < 65536)
    (hx : look Park.zero (s.part h.part).park entry = x) (hacc : AcceptedFor s h 0x0507) (hst : x.st ≠ .parked) :
    ∃ t, exec (.parkDrop h entry) s = .next t ∧ t.parts = s.parts ∧ UnitsKept s t ∧ Answered t h 0x0507 x.refuses [] :=
  State.onPartition_answersOnly rfl hacc rfl (decide_eq_true hentry) _ _ (fun u hu => by
    simp only [hu.part, hx, ne_eq, hst, not_false_eq_true, if_true]
    rfl)

end

/-! ### The statement -/

/-- Settles O53: each clause is the lemma about its command. -/
theorem bundlesAndServingCommands : Obligations.BundlesAndServingCommands := by
  unfold Obligations.BundlesAndServingCommands
  refine ⟨?_, fun p s b => bundleLoadDone_ends, fun h set scion s => bundleStatus_answers,
    fun h set scion s hacc hscion hidle => ⟨bundleFree_activeScion hacc hscion hidle, bundleFree_standbySet hacc hscion hidle⟩, ?_, ?_,
    fun p h s => coldStageDone_answers, fun h slot host count tokens s e => slotInput_lands,
    fun h slot n s hslot => ⟨fun hacc => slotAccept_lands hacc hslot, fun hacc => slotDeadline_lands hacc hslot⟩,
    fun h slot host e s => slotEdit_lands, ?_, fun h slot s => slotRead_answers⟩
  · intro h src set scion slot bn s hacc hmerge hsrc hscion hidle
    exact bundleLoad_startsOrRefuses hacc hmerge hsrc hscion hidle (by rw [(ready_entered hacc.1).bundleOf])
  · intro h step s hacc hstep hrot hheld
    rcases Nat.lt_or_ge (s.part h.part).stepNo step with hahead | hlate
    · obtain ⟨t, hexec, hrec⟩ := rotate_ahead hacc hstep hrot hheld hahead
      exact ⟨t, hexec, fun hlate => absurd hahead (Nat.not_lt.2 hlate), fun _ => hrec⟩
    · obtain ⟨t, hexec, hparts, -, hans⟩ := rotate_late hacc hstep hrot hheld hlate
      exact ⟨t, hexec, fun _ => ⟨hans, hparts⟩, fun hahead => absurd hahead (Nat.not_lt.2 hlate)⟩
  · intro h host paddr lines data s hacc hfn hhost haligned hlines hend
    exact coldStage_writes hacc ⟨hfn, hhost, haligned, hlines, hend⟩
  · intro h entry pages s e hentry
    refine ⟨slotResume_starts hentry rfl, parkStatus_answers hentry rfl, parkDrop_parked hentry rfl, fun hacc hst => ?_⟩
    obtain ⟨t, hexec, hparts, -, hans⟩ := parkDrop_notParked hentry rfl hacc hst
    exact ⟨t, hexec, hparts, hans⟩

end Sys2Proof.Machine
end

