-- ==== Sys2Proof/Proofs/ParkEntries.lean ====
section
/-! PROOF. Park entries under the load barrow and the hall clock (O33): copied, PARKED, ZEROISING at the expiry, FREE again after it or
after a resume (R272 to R275, R279, R341). -/

namespace Sys2Proof.Machine
open Sys2Proof.Stmt

/-! ### Lines copied to and zeroed in the cold frame -/

/-- Between `s` and `t` nothing changed but lines of the cold frame. -/
def OnlyColdLines (s t : State) : Prop := ∃ lines, t = { s with cold := { s.cold with lines } }

section
variable {s t u : State}

theorem OnlyColdLines.refl (s : State) : OnlyColdLines s s := ⟨s.cold.lines, rfl⟩

theorem OnlyColdLines.trans (hst : OnlyColdLines s t) (htu : OnlyColdLines t u) : OnlyColdLines s u := by
  obtain ⟨_, rfl⟩ := hst
  obtain ⟨lines, rfl⟩ := htu
  exact ⟨lines, rfl⟩

theorem OnlyColdLines.onlyMemories (h : OnlyColdLines s t) : OnlyMemories s t := by
  obtain ⟨_, rfl⟩ := h
  rfl

theorem OnlyColdLines.stks (h : OnlyColdLines s t) : t.stks = s.stks := by
  obtain ⟨_, rfl⟩ := h
  rfl

theorem OnlyColdLines.rings (h : OnlyColdLines s t) : t.rings = s.rings := by
  obtain ⟨_, rfl⟩ := h
  rfl

theorem OnlyColdLines.mgmtDown (h : OnlyColdLines s t) : t.mgmtDown = s.mgmtDown := by
  obtain ⟨_, rfl⟩ := h
  rfl

theorem onlyColdLines_putOwn (s : State) (p a : Nat) (d : Line) : OnlyColdLines s (s.putOwn p .cold a d) := s.putLines_cold p a [d]

theorem onlyColdLines_foldl {α : Type} (l : List α) {op : State → α → State} (hop : ∀ s x, OnlyColdLines s (op s x)) (s : State) :
    OnlyColdLines s (l.foldl op s) :=
  List.foldlRecOn l op (.refl s) (fun _ ht x _ => ht.trans (hop _ x))

/-- The lines of park entry `x` copied to its park address (R272). -/
def State.copyToCold (s : State) (p : Nat) (x : Park) : State :=
  (parkLines x.length x.groups).foldl (fun s c => s.putOwn p .cold (parkAddr x.groups x.addr c.1 c.2.1 c.2.2)
    (s.partLine p .stack (kvAddr x.kvBase x.groups (x.pages.getD c.1 0) c.2.1 c.2.2))) s

/-- The lines of park entry `x` copied to the pages that SLOT_RESUME named (R275). -/
def State.copyToStack (s : State) (p : Nat) (x : Park) : State :=
  (parkLines x.length x.groups).foldl (fun s c => s.putOwn p .stack (kvAddr x.toBase x.toGroups (x.dest.getD c.1 0) c.2.1 c.2.2)
    (s.partLine p .cold (parkAddr x.groups x.addr c.1 c.2.1 c.2.2))) s

theorem onlyColdLines_copyToCold (s : State) (p : Nat) (x : Park) : OnlyColdLines s (s.copyToCold p x) :=
  onlyColdLines_foldl _ (fun s _ => onlyColdLines_putOwn s p ..) s

theorem onlyMemories_copyToStack (s : State) (p : Nat) (x : Park) : OnlyMemories s (s.copyToStack p x) :=
  onlyMemories_foldl _ (fun s _ => onlyMemories_putPart s p ..) s

theorem onlyColdLines_zeroPark (s : State) (p : Nat) (x : Park) : OnlyColdLines s (s.zeroPark p x) :=
  onlyColdLines_foldl _ (fun s _ => onlyColdLines_putOwn s p ..) s

end

/-! ### Events to a partition's function (R464) -/

section
variable {s u : State} {m : Sent}

theorem State.mem_signal_out (hm : m ∈ s.out) (fn k v : Nat) : m ∈ (s.signal fn k v).out := by
  unfold State.signal
  split
  · exact hm
  · exact List.mem_append_left _ hm

theorem State.mem_eventTo_out (hm : m ∈ s.out) (fn k : Nat) (e : Event) : m ∈ (s.eventTo fn k e).out := by
  unfold State.eventTo
  dsimp only
  split
  · exact hm
  split
  · exact State.mem_signal_out (List.mem_append_left _ hm) ..
  · exact hm

theorem State.eventTo_sends {fn k : Nat} (e : Event) (henable : (s.ring fn k 2).enable = true) (hfree : (s.ring fn k 2).free = true) :
    Sent.event fn k { e with phase := (s.ring fn k 2).phase, lost := (s.ring fn k 2).lost } ∈ (s.eventTo fn k e).out := by
  simp only [State.eventTo, henable, hfree, Bool.not_true, Bool.false_eq_true, if_false, if_true]
  exact State.mem_signal_out (List.mem_append_right _ (List.mem_singleton.2 rfl)) ..

/-- An event about a partition reaches its function, from any state whose rings and management are those of `s`. -/
theorem State.event_notifies (hdown : u.mgmtDown = s.mgmtDown) (hrings : u.rings = s.rings) {p : Nat} (hp : p < 16) (kind : Nat)
    (args : List Nat) : Notified s (u.event kind p args) kind p args := by
  intro hup henable hfree
  rw [← State.ring_congr hrings] at henable hfree
  rw [← hdown] at hup
  simp only [State.event, hup, hp, Bool.false_eq_true, if_false, if_true]
  exact ⟨_, State.mem_eventTo_out (State.mem_eventTo_out (State.mem_eventTo_out (State.eventTo_sends _ henable hfree) ..) ..) ..,
    rfl, rfl, rfl⟩

end

/-! ### One entry of the park table -/

/-- Park entry `k` of a partition becomes `x`. -/
def Part.setPark (q : Part) (k : Nat) (x : Park) : Part := { q with park := put Park.zero q.park k x }

theorem Part.look_setPark_same (q : Part) (k : Nat) (x : Park) : look Park.zero (q.setPark k x).park k = x :=
  look_put_same Park.zero q.park k x

theorem Part.look_setPark_ne (q : Part) {k j : Nat} (x : Park) (hj : j ≠ k) :
    look Park.zero (q.setPark k x).park j = look Park.zero q.park j := look_put_ne Park.zero q.park x hj

section
variable {s : State} {p k : Nat} {x : Park} (hx : look Park.zero (s.part p).park k = x)
include hx

theorem execParkCopy_copies (hst : x.st = .parking) (hready : x.ready = true) (hslots : s.loadSlots p = true) :
    ∃ u, OnlyColdLines s u ∧ exec (.parkCopy p k) s = .next (u.onPart p (fun q => q.setPark k { x with copied := 1 })) := by
  refine ⟨_, onlyColdLines_copyToCold s p x, ?_⟩
  show execParkCopy p k s = _
  simp only [execParkCopy, hx, hst, hready, hslots, ne_eq, not_true_eq_false, Bool.not_true, Bool.false_eq_true, or_self, if_false]
  rfl

theorem execParked_parks (hst : x.st = .parking) (hcopied : x.copied ≠ 0) : exec (.parked p k) s =
    .next ((s.onPart p (fun q => q.setPark k { x with st := .parked, expiry := s.hallNow + x.ttlS * 10 ^ 9, expired := false })).event
      0x01 p [k, x.length, s.hallNow + x.ttlS * 10 ^ 9]) := by
  show execParked p k s = _
  simp only [execParked, hx, hst, hcopied, ne_eq, not_true_eq_false, or_self, if_false]
  rfl

theorem execExpired_frees (hst : x.st = .zeroising) (hslots : s.loadSlots p = true) : ∃ u, OnlyColdLines s u ∧
    exec (.expired p k) s = .next ((u.onPart p (fun q => q.setPark k { expired := x.expired })).event 0x02 p [k]) := by
  refine ⟨_, onlyColdLines_zeroPark s p x, ?_⟩
  show execExpired p k s = _
  simp only [execExpired, hx, hst, hslots, ne_eq, not_true_eq_false, Bool.not_true, Bool.false_eq_true, or_self, if_false]
  rfl

theorem execResumeCopyDone_frees (hst : x.st = .resuming) (hslots : s.loadSlots p = true) : ∃ u, OnlyMemories s u ∧
    exec (.resumeCopyDone p k) s =
      .next ((u.onPart p (fun q => q.setPark k Park.zero)).post? x.hdr 0x0505 0 [(4, x.length), (2, x.variant)]) := by
  refine ⟨_, (onlyMemories_copyToStack s p x).trans (onlyColdLines_zeroPark _ p x).onlyMemories, ?_⟩
  show execResumeCopyDone p k s = _
  simp only [execResumeCopyDone, hx, hst, hslots, ne_eq, not_true_eq_false, Bool.not_true, Bool.false_eq_true, or_self, if_false]
  rfl

/-- PARK_COPY changes one entry of the park table (R272). -/
theorem parkCopy_marksCopied (hst : x.st = .parking) (hready : x.ready = true) (hslots : s.loadSlots p = true) :
    ∃ t, exec (.parkCopy p k) s = .next t ∧ look Park.zero (t.part p).park k = { x with copied := 1 } ∧
      (∀ j, j ≠ k → look Park.zero (t.part p).park j = look Park.zero (s.part p).park j) ∧ t.stks = s.stks ∧ t.cells = s.cells := by
  obtain ⟨u, hu, hexec⟩ := execParkCopy_copies hx hst hready hslots
  refine ⟨_, hexec, ?_, fun j hj => ?_, hu.stks, hu.onlyMemories.cells⟩
  · rw [State.onPart_part_same, Part.look_setPark_same]
  · rw [State.onPart_part_same, Part.look_setPark_ne _ _ hj, hu.onlyMemories.part]

/-- PARKED starts the entry's time to live (R272). -/
theorem parked_setsExpiry (hst : x.st = .parking) (hcopied : x.copied ≠ 0) : ∃ t, exec (.parked p k) s = .next t ∧
    look Park.zero (t.part p).park k = { x with st := .parked, expiry := s.hallNow + x.ttlS * 10 ^ 9, expired := false } ∧
    t.cold = s.cold ∧ ∀ q, q ≠ p → t.part q = s.part q := by
  refine ⟨_, execParked_parks hx hst hcopied, ?_, State.event_cold .., fun q hq => ?_⟩
  · rw [State.event_part, State.onPart_part_same, Part.look_setPark_same]
  · rw [State.event_part, State.onPart_part_ne _ _ hq]

/-- EXPIRED frees the entry and tells the function (R274). -/
theorem expired_freesAndNotifies (hst : x.st = .zeroising) (hslots : s.loadSlots p = true) : ∃ t, exec (.expired p k) s = .next t ∧
    look Park.zero (t.part p).park k = { expired := x.expired } ∧ t.stks = s.stks ∧ (∀ q, q ≠ p → t.part q = s.part q) ∧
    (p < 16 → Notified s t 0x02 p [k]) := by
  obtain ⟨u, hu, hexec⟩ := execExpired_frees hx hst hslots
  refine ⟨_, hexec, ?_, ?_, fun q hq => ?_, fun hp => ?_⟩
  · rw [State.event_part, State.onPart_part_same, Part.look_setPark_same]
  · rw [State.event_stks, State.onPart_stks, hu.stks]
  · rw [State.event_part, State.onPart_part_ne _ _ hq, hu.onlyMemories.part]
  · exact State.event_notifies ((State.onPart_mgmtDown ..).trans hu.mgmtDown) ((State.onPart_rings ..).trans hu.rings) hp _ _

/-- RESUME_COPY_DONE frees the entry and completes SLOT_RESUME (R275). -/
theorem resumeCopyDone_freesAndAnswers (hst : x.st = .resuming) (hslots : s.loadSlots p = true) :
    ∃ t, exec (.resumeCopyDone p k) s = .next t ∧ look Park.zero (t.part p).park k = Park.zero ∧
      ∀ h, x.hdr = some h → Listening s h 0x0505 → Answered t h 0x0505 0 [(4, x.length), (2, x.variant)] := by
  obtain ⟨u, hu, hexec⟩ := execResumeCopyDone_frees hx hst hslots
  refine ⟨_, hexec, ?_, fun h hh ⟨hmute, hring⟩ => ?_⟩
  · rw [State.post?_part, State.onPart_part_same, Part.look_setPark_same]
  · rw [hh]
    refine State.post_answered _ h _ _ _ ?_ ?_
    · rw [hu]; exact hmute
    · rw [hu]; exact hring

end

/-! ### The check of every whole millisecond (R274, R279) -/

/-- A PARKED entry's time to live is over at hall time `m`. -/
def Park.due (x : Park) (m : Nat) : Bool := decide (x.st = .parked ∧ x.expiry ≤ m)

/-- A park entry after the check at hall time `m`. -/
def Park.checked (x : Park) (m : Nat) : Park := if x.due m then { x with st := .zeroising, expired := true } else x

/-- A partition after the check at hall time `m`. -/
def Part.checkParks (q : Part) (m : Nat) : Part := { q with park := mapv Park.zero q.park (fun _ x => x.checked m) }

/-- A partition's turn in the check at hall time `m`. -/
def State.expireParks (m : Nat) (s : State) (p : Nat) : State :=
  (((s.part p).park.filter (fun e => e.2.due m)).map (·.1)).foldl (fun s k => s.releaseTwin p k)
    (s.onPart p (fun q => q.checkParks m))

theorem execParkExpiryCheck_eq (s : State) :
    exec .parkExpiryCheck s = .next (allParts.foldl (State.expireParks (s.hallNow / 10 ^ 6 * 10 ^ 6)) s) := rfl

theorem foldl_releaseTwin (s : State) (p : Nat) (l : List Nat) :
    l.foldl (fun s k => s.releaseTwin p k) s = { s with out := s.out ++ l.map (Sent.twinRelease p) } := by
  induction l generalizing s with
  | nil => simp
  | cons k l ih => rw [List.foldl_cons, ih]; simp [State.releaseTwin, State.send]

theorem State.expireParks_eq (m : Nat) (s : State) (p : Nat) : State.expireParks m s p =
    { s.onPart p (fun q => q.checkParks m) with
      out := s.out ++ (((s.part p).park.filter (fun e => e.2.due m)).map (·.1)).map (Sent.twinRelease p) } :=
  foldl_releaseTwin ..

theorem Park.checked_zero (m : Nat) : Park.zero.checked m = Park.zero := if_neg (by simp [Park.due, Park.zero])

theorem Part.look_checkParks {q : Part} (hwf : SMap.wf Park.zero q.park = true) (m k : Nat) :
    look Park.zero (q.checkParks m).park k = (look Park.zero q.park k).checked m :=
  look_mapv Park.zero q.park (fun _ x => x.checked m) (fun _ => Park.checked_zero m) (Bool.and_eq_true_iff.1 hwf).1 k

theorem mem_of_look_ne {α : Type} {d : α} {m : SMap α} {k : Nat} (h : look d m k ≠ d) : (k, look d m k) ∈ m := by
  induction m with
  | nil => exact absurd rfl h
  | cons e m ih =>
    obtain ⟨k', v⟩ := e
    rw [look] at h ⊢
    split at h
    next hk => rw [if_pos hk, hk]; exact List.mem_cons_self
    next hk => rw [if_neg hk]; exact List.mem_cons_of_mem _ (ih h)

section
variable {m : Nat} {s : State} {p k : Nat}

theorem State.expireParks_part_same : (State.expireParks m s p).part p = (s.part p).checkParks m := by
  rw [State.expireParks_eq]
  exact State.onPart_part_same s p (fun q => q.checkParks m)

theorem State.expireParks_part_ne (hk : k ≠ p) : (State.expireParks m s p).part k = s.part k := by
  rw [State.expireParks_eq]
  exact State.onPart_part_ne s (fun q => q.checkParks m) hk

theorem State.mem_expireParks_out {x : Sent} (hx : x ∈ s.out) : x ∈ (State.expireParks m s p).out := by
  rw [State.expireParks_eq]
  exact List.mem_append_left _ hx

theorem State.expireParks_releases (hdue : (look Park.zero (s.part p).park k).due m = true) :
    Sent.twinRelease p k ∈ (State.expireParks m s p).out := by
  have hlisted : (k, look Park.zero (s.part p).park k) ∈ (s.part p).park := by
    refine mem_of_look_ne fun hzero => ?_
    rw [hzero] at hdue
    simp [Park.due, Park.zero] at hdue
  rw [State.expireParks_eq]
  exact List.mem_append_right _ (List.mem_map_of_mem (List.mem_map.2 ⟨_, List.mem_filter.2 ⟨hlisted, hdue⟩, rfl⟩))

end

section
variable (m : Nat) (s : State)

theorem foldl_expireParks_frame (l : List Nat) : ∃ parts out, l.foldl (State.expireParks m) s = { s with parts, out } := by
  induction l generalizing s with
  | nil => exact ⟨_, _, rfl⟩
  | cons p l ih =>
    obtain ⟨parts, out, h⟩ := ih (State.expireParks m s p)
    refine ⟨parts, out, ?_⟩
    rw [List.foldl_cons, h, State.expireParks_eq]
    rfl

/-- Of the check, a partition has its own turn, and what that sends is sent. -/
theorem foldl_expireParks_turn {p : Nat} (hp : p < 16) : ∃ u : State, u.part p = s.part p ∧
    (allParts.foldl (State.expireParks m) s).part p = (State.expireParks m u p).part p ∧
    ∀ x ∈ (State.expireParks m u p).out, x ∈ (allParts.foldl (State.expireParks m) s).out := by
  obtain ⟨l₁, l₂, hl⟩ := List.append_of_mem (List.mem_range.2 hp)
  obtain ⟨hp₁, hp₂⟩ : p ∉ l₁ ∧ p ∉ l₂ := by
    have hnodup : (l₁ ++ p :: l₂).Nodup := hl ▸ List.nodup_range
    simpa using (List.nodup_middle.1 hnodup).notMem
  have hother : ∀ s p k, k ≠ p → (State.expireParks m s p).part k = s.part k := fun _ _ _ => State.expireParks_part_ne
  rw [allParts, hl, List.foldl_append, List.foldl_cons]
  exact ⟨_, foldl_part_of_not_mem hother hp₁ s, foldl_part_of_not_mem hother hp₂ _, fun x hx =>
    List.foldlRecOn (motive := fun t : State => x ∈ t.out) l₂ _ hx fun _ ht _ _ => State.mem_expireParks_out ht⟩

end

/-- PARK_EXPIRY_CHECK leaves every entry as its own expiry has it, and releases the twin's copy of those that expire. -/
theorem parkExpiryCheck_checks (s : State) (hwf : ∀ p, SMap.wf Park.zero (s.part p).park = true) :
    ∃ t, exec .parkExpiryCheck s = .next t ∧ t = { s with parts := t.parts, out := t.out } ∧ ∀ p k, p < 16 →
      look Park.zero (t.part p).park k = (look Park.zero (s.part p).park k).checked (s.hallNow / 10 ^ 6 * 10 ^ 6) ∧
      ((look Park.zero (s.part p).park k).due (s.hallNow / 10 ^ 6 * 10 ^ 6) = true → Sent.twinRelease p k ∈ t.out) := by
  refine ⟨_, execParkExpiryCheck_eq s, ?_, fun p k hp => ?_⟩
  · obtain ⟨_, _, hframe⟩ := foldl_expireParks_frame (s.hallNow / 10 ^ 6 * 10 ^ 6) s allParts
    rw [hframe]
  · obtain ⟨u, hu, hpart, hout⟩ := foldl_expireParks_turn (s.hallNow / 10 ^ 6 * 10 ^ 6) s hp
    rw [hpart, State.expireParks_part_same, ← hu]
    exact ⟨Part.look_checkParks (hu ▸ hwf p) .., fun hdue => hout _ (State.expireParks_releases hdue)⟩

/-! ### The statement -/

/-- Settles O33: each clause is the lemma about its row. -/
theorem parkEntriesMove : Obligations.ParkEntriesMove := by
  refine ⟨fun p k s => ⟨parkCopy_marksCopied rfl, parked_setsExpiry rfl, expired_freesAndNotifies rfl,
    resumeCopyDone_freesAndAnswers rfl⟩, fun s hwf => ?_⟩
  obtain ⟨t, hexec, hframe, hparts⟩ := parkExpiryCheck_checks s hwf
  refine ⟨t, hexec, hframe, fun p k hp => ?_⟩
  obtain ⟨hlook, hsent⟩ := hparts p k hp
  refine ⟨fun hdue => ⟨?_, hsent (decide_eq_true hdue)⟩, fun hnot => ?_⟩
  · rw [hlook]
    exact if_pos (decide_eq_true hdue)
  · rw [hlook]
    exact if_neg (by simpa [Park.due] using hnot)

end Sys2Proof.Machine
end

