-- ==== Sys2Proof/Proofs/WindowEngine.lean ====
section
/-! PROOF. The window engine (O32): the line of slot words that it leaves in the window area of at most 16 slots (R261, Table 10.9). -/

namespace Sys2Proof.Machine

/-! ### The records of a window while they are applied (R43, R265)

Applying a record never makes another one applied, so a window without records of a kind has none of it at the body boundary. -/

theorem Part.edit_eq {q q' : Part} {e : ServingE} {r : Rec} {i : Nat} (h : q.edit e r i = some q') :
    ∃ slots park, q' = { q with slots, park } := by
  unfold Part.edit at h
  dsimp only at h
  split at h <;> simp only [Option.ite_none_left_eq_some, Option.ite_none_right_eq_some, Option.some.injEq, reduceCtorEq] at h
  · obtain ⟨-, -, rfl⟩ := h; exact ⟨_, _, rfl⟩
  · obtain ⟨-, rfl⟩ := h; exact ⟨_, _, rfl⟩
  · obtain ⟨-, -, rfl⟩ := h; exact ⟨_, _, rfl⟩
  · obtain ⟨-, rfl⟩ := h; exact ⟨_, _, rfl⟩
  · obtain ⟨-, rfl⟩ := h; exact ⟨_, _, rfl⟩

theorem Part.applySlot_eq {q q' : Part} {e : ServingE} {r : Rec} {i : Nat} (h : q.applySlot e r i = some q') :
    ∃ slots park, q' = { q with slots, park } := by
  unfold Part.applySlot at h
  dsimp only at h
  split at h
  · exact Part.edit_eq h
  all_goals simp only [Option.ite_none_left_eq_some, Option.ite_none_right_eq_some, Option.some.injEq] at h
  · obtain ⟨-, rfl⟩ := h; exact ⟨_, _, rfl⟩
  · obtain ⟨-, -, rfl⟩ := h; exact ⟨_, _, rfl⟩
  · obtain ⟨-, rfl⟩ := h; exact ⟨_, _, rfl⟩

theorem Part.winRecs_eq_nil_iff {q : Part} {k : Nat} :
    q.winRecs k = [] ↔ ∀ e ∈ q.win.entries, e.kind = k → e.out = .applied → look none q.recs e.seq = none := by
  simp [Part.winRecs, List.filterMap_eq_nil_iff]

/-- A partition in whose window the record of sequence number `n` is discarded as STALE. -/
def Part.staleRec (q : Part) (n : Nat) : Part :=
  { q with win := { q.win with entries := q.win.entries.map (fun g => if g.seq = n then { g with out := .stale } else g) } }

/-- A record discarded as STALE leaves no other record applied. -/
theorem Part.winRecs_staleRec {q : Part} {k : Nat} (h : q.winRecs k = []) (n : Nat) : (q.staleRec n).winRecs k = [] := by
  rw [Part.winRecs_eq_nil_iff] at h ⊢
  intro e he hkind hout
  obtain ⟨g, hg, rfl⟩ := List.mem_map.1 he
  split at hout
  next => cases hout
  next hseq => rw [if_neg hseq] at hkind ⊢; exact h g hg hkind hout

theorem Part.winRecs_applyKind {q : Part} {k : Nat} (h : q.winRecs k = []) (j : Nat) : (q.applyKind j).winRecs k = [] := by
  unfold Part.applyKind
  split
  · exact h
  refine List.foldlRecOn (motive := fun q : Part => q.winRecs k = []) _ _ h (fun q' hq' x _ => ?_)
  split
  · exact hq'
  split
  next happ => obtain ⟨_, _, rfl⟩ := Part.applySlot_eq happ; exact hq'
  next => exact Part.winRecs_staleRec hq' x.1

theorem Part.winRecs_slotEffects {q : Part} {k : Nat} (h : q.winRecs k = []) : q.slotEffects.winRecs k = [] :=
  have hcleared : ({ q with slots := mapv Slot.zero q.slots (fun _ x =>
    { x with takes := false, tokensIn := 0, groupOff := false }) } : Part).winRecs k = [] := h
  Part.winRecs_applyKind (Part.winRecs_applyKind (Part.winRecs_applyKind (Part.winRecs_applyKind hcleared 4) 3) 2) 1

theorem Part.winRecs_takeParts (q : Part) (k : Nat) : q.takeParts.winRecs k = q.winRecs k := by
  unfold Part.takeParts
  split <;> rfl

theorem Part.winRecs_atBody {q : Part} {k : Nat} (h : q.winRecs k = []) : q.atBody.winRecs k = [] := by
  rw [Part.atBody, Part.winRecs_takeParts]
  exact Part.winRecs_slotEffects h

/-! ### A line of the cold frame that the hub writes and reads back (R216, R227) -/

theorem State.partLine_of_coldLine {t : State} {p a : Nat} {loc : LeaseLoc} {d : Line}
    (hread : (t.part p).planEntry .cold (a / 2 ^ 30) = some loc) (hkey : look 0 t.cold.keys p ≠ 0)
    (hfind : find t.cold.lines (coldKeyOf loc a) = some (t.coldLine p a d)) : t.partLine p .cold a = d := by
  have hstored : t.cold.stored loc (a % 2 ^ 30 / 256) = t.coldLine p a d := by
    rw [Cold.stored, storedLine, ← coldKeyOf, hfind, Option.getD_some]
  simp only [State.partLine, hread, State.slotKey, hkey, if_false, hstored]
  exact if_pos ⟨rfl, rfl⟩

/-- Outside a range of kind FLIP the hub writes a lease index where the plan reads it. -/
theorem Part.writeEntry_of_not_flips {q : Part} {tier : Tier} {i : Nat} (h : q.flips tier i = false) :
    q.writeEntry tier i = q.planEntry tier i := by
  simp only [Part.writeEntry, Part.planEntry, Part.entrySel, h, Bool.false_eq_true, if_false]

theorem State.partLine_putOwn_cold {s : State} {p a : Nat} {loc : LeaseLoc}
    (hread : (s.part p).planEntry .cold (a / 2 ^ 30) = some loc) (hflip : (s.part p).flips .cold (a / 2 ^ 30) = false)
    (hworks : s.cold.state ≠ .failed) (hkey : look 0 s.cold.keys p ≠ 0) (d : Line) :
    (s.putOwn p .cold a d).partLine p .cold a = d := by
  have hs : s.WritesCold p (a / 2 ^ 30) loc := ⟨hworks, hkey, (Part.writeEntry_of_not_flips hflip).trans hread⟩
  rw [State.putOwn_cold hs rfl]
  exact State.partLine_of_coldLine hread hkey (find_put_same _ (hs.coldLine_ne a d))

/-! ### The window engine (R261, Table 10.9) -/

/-- The words of a partition's first `n` slots, 16 bytes each, as one line. -/
def Part.slotLine (q : Part) (n : Nat) : Line :=
  BitVec.ofNat 2048 (((List.range n).map (fun k => slotWord (q.slot k) * 2 ^ (128 * k))).sum)

theorem foldl_add_below (f : Nat → Nat) (n m : Nat) :
    (List.range m).foldl (fun acc k => acc + (if k < n then f k else 0)) 0 = ((List.range (min n m)).map f).sum := by
  induction m with
  | zero => simp
  | succ m ih =>
    rw [List.range_succ, List.foldl_append, ih, List.foldl_cons, List.foldl_nil]
    split
    next h => rw [Nat.min_eq_right h, Nat.min_eq_right (Nat.le_of_lt h), List.range_succ, List.map_append, List.sum_append]; simp
    next h => rw [Nat.min_eq_left (Nat.not_lt.1 h), Nat.min_eq_left (by omega), Nat.add_zero]

/-- At most 16 slots fill one line of the window area. -/
theorem slotLines_eq (q : Part) {n : Nat} (hpos : 0 < n) (hle : n ≤ 16) :
    (List.range ((n + 15) / 16)).map (fun j => BitVec.ofNat 2048 ((List.range 16).foldl (fun acc k =>
      acc + (if 16 * j + k < n then slotWord (q.slot (16 * j + k)) * 2 ^ (128 * k) else 0)) 0)) = [q.slotLine n] := by
  have hone : (n + 15) / 16 = 1 := by omega
  rw [hone, List.range_one, List.map_singleton]
  simp only [Nat.mul_zero, Nat.zero_add]
  rw [foldl_add_below (fun k => slotWord (q.slot k) * 2 ^ (128 * k)), Nat.min_eq_left hle, Part.slotLine]

theorem execWindowEngineSchedule_eq {s : State} {p : Nat} {e : ServingE} (hserv : (s.part p).serving = some e)
    (hrun : (s.part p).st = .running) (hepoch : (s.part p).epochIdx = 0) (hpos : 0 < e.slots) (hle : e.slots ≤ 16)
    (hengine : ∃ l ∈ (s.part p).leases, l.res = 3 ∧ l.use = 3) (hedits : (s.part p).winRecs 4 = [])
    (htokens : (s.part p).winRecs 1 = []) :
    exec (.windowEngineSchedule p) s = .next (s.putOwn p .cold e.winBase ((s.part p).atBody.slotLine e.slots)) := by
  have hany : (s.part p).leases.any (fun l => decide (l.res = 3 ∧ l.use = 3)) = true := by
    obtain ⟨l, hl, huse⟩ := hengine
    exact List.any_eq_true.2 ⟨l, hl, decide_eq_true huse⟩
  have hgo : ¬(!s.running p ∨ (s.part p).epochIdx ≠ 0 ∨ !(s.part p).leases.any (fun l => decide (l.res = 3 ∧ l.use = 3))) := by
    rw [hany, hepoch, State.running, hrun]
    decide
  show execWindowEngineSchedule p s = _
  simp only [execWindowEngineSchedule, hserv, if_neg hgo, Part.winRecs_atBody hedits, Part.winRecs_atBody htokens, List.filterMap_nil,
    List.foldl_nil, slotLines_eq _ hpos hle]
  rfl

end Sys2Proof.Machine
end

