-- ==== Sys2Proof/Proofs/StepResults.lean ====
section
/-! PROOF. Step results (O32): the outbound ring of a partition, whose results are posted as its result rings take them (R270, R271,
R465). -/

namespace Sys2Proof.Machine

/-! ### A result is placed in the outbound ring (R271) -/

/-- A partition whose outbound ring has taken result `r` as its newest. -/
def Part.ringResult (q : Part) (r : StepResult) : Part :=
  let l := q.outRing ++ [(false, r)]
  { q with outNext := none, outRing := l.drop (l.length - 64)
           postLost := q.postLost + ((l.take (l.length - 64)).filter (fun x => !x.1)).length }

/-- In `t`, result `r` is the newest in the outbound ring of partition `p`; no other partition, no cell, no host ring and nothing sent
differs from `s`. -/
structure Placed (s t : State) (p : Nat) (r : StepResult) : Prop where
  part : t.part p = (s.part p).ringResult r
  others : ∀ k, k ≠ p → t.part k = s.part k
  rings : t.rings = s.rings
  cells : t.cells = s.cells
  out : t.out = s.out

theorem State.placeResult_placed (s : State) (p : Nat) (r : StepResult) : Placed s (s.placeResult p r) p r := by
  obtain ⟨lines, hput⟩ := s.putLines_cold p ((s.part p).ringAddr r.stepNo)
    ((r.lines p (slotsOf (s.part p).serving) (outLinesOf (s.part p).serving)).take ((s.part p).resultSlot / 256))
  have hplace : s.placeResult p r = ({ s with cold := { s.cold with lines } } : State).onPart p (fun q => q.ringResult r) := by
    rw [← hput]
    rfl
  rw [hplace]
  exact ⟨State.onPart_part_same .., fun k hk => State.onPart_part_ne _ _ hk, rfl, rfl, rfl⟩

theorem State.withOutputs_eq (s : State) (p : Nat) (r : StepResult) : ∃ outputs, s.withOutputs p r = { r with outputs } := by
  unfold State.withOutputs
  split
  · exact ⟨_, rfl⟩
  · exact ⟨_, rfl⟩

theorem Part.ringResult_of_empty {q : Part} (h : q.outRing = []) (r : StepResult) :
    q.ringResult r = { q with outNext := none, outRing := [(false, r)] } := by
  simp [Part.ringResult, h]

theorem Part.length_ringResult_le (q : Part) (r : StepResult) : (q.ringResult r).outRing.length ≤ 64 := by
  simp only [Part.ringResult, List.length_drop]
  omega

/-! ### The waiting results are posted (R271, R465) -/

/-- One result's turn: the state after it, and the result put back on those before it. -/
def State.postTurn (p : Nat) (a : State × List (Bool × StepResult)) (x : Bool × StepResult) : State × List (Bool × StepResult) :=
  ((a.1.postResult p x).1, a.2 ++ [(a.1.postResult p x).2])

/-- Every result of the outbound ring has its turn, oldest first. -/
def State.postResults (s : State) (p : Nat) : State × List (Bool × StepResult) := (s.part p).outRing.foldl (State.postTurn p) (s, [])

/-- A partition with `l` as its outbound ring. -/
def Part.withRing (q : Part) (l : List (Bool × StepResult)) : Part := { q with outRing := l }

/-- The outcome of STEP_RESULT_POST once the newest result is placed. -/
def State.posted (s : State) (p : Nat) : State := (s.postResults p).1.onPart p (fun q => q.withRing (s.postResults p).2)

/-- A result with the count of results lost before it (Table 10.10). -/
def StepResult.reporting (r : StepResult) (lost : Nat) : StepResult := { r with postLost := lost }

/-- The state once result `r` stands in a result ring and its vector is signalled (R465). -/
def State.wroteResult (s : State) (fn k p : Nat) (r : StepResult) : State :=
  ((s.setRing fn k 3 (s.ring fn k 3).wrote).send (.result fn k p (s.ring fn k 3).phase r)).signal fn k (s.ring fn k 3).vector

section
variable {s : State} {p : Nat}

theorem execStepResultPost_of_none (hland : s.landSlots p = true) (hnext : (s.part p).outNext = none) :
    exec (.stepResultPost p) s = .next (s.posted p) := by
  show execStepResultPost p s = _
  simp only [execStepResultPost, hland, hnext, Bool.not_true, Bool.false_eq_true, if_false]
  rfl

theorem execStepResultPost_of_some {r : StepResult} (hland : s.landSlots p = true) (hnext : (s.part p).outNext = some r) :
    ∃ u outputs, Placed s u p { r with outputs } ∧ exec (.stepResultPost p) s = .next (u.posted p) := by
  obtain ⟨outputs, hout⟩ := s.withOutputs_eq p r
  refine ⟨_, outputs, s.placeResult_placed p { r with outputs }, ?_⟩
  rw [← hout]
  show execStepResultPost p s = _
  simp only [execStepResultPost, hland, hnext, Bool.not_true, Bool.false_eq_true, if_false]
  rfl

theorem execStepResultPost_waits (hland : s.landSlots p = false) : exec (.stepResultPost p) s = .next s := by
  show execStepResultPost p s = _
  simp [execStepResultPost, hland, ok]

theorem State.resultTo_off {fn k : Nat} (h : (s.ring fn k 3).enable = false) (n : Nat) (r : StepResult) :
    s.resultTo fn k p n r = (s, false) := by
  simp [State.resultTo, h]

/-- A free entry of sufficient size takes the result. -/
theorem State.resultTo_takes {fn k n : Nat} (henable : (s.ring fn k 3).enable = true) (hfree : (s.ring fn k 3).free = true)
    (hsize : n ≤ 2 ^ (s.ring fn k 3).entry) (r : StepResult) : s.resultTo fn k p n r = (s.wroteResult fn k p r, true) := by
  simp [State.resultTo, State.wroteResult, henable, hfree, hsize]

theorem State.wroteResult_part (fn k : Nat) (r : StepResult) (j : Nat) : (s.wroteResult fn k p r).part j = s.part j := by
  rw [State.wroteResult, State.signal_frame]
  rfl

theorem State.wroteResult_cells (fn k : Nat) (r : StepResult) : (s.wroteResult fn k p r).cells = s.cells := by
  rw [State.wroteResult, State.signal_frame]
  rfl

theorem State.wroteResult_ring_second (fn : Nat) (r : StepResult) : (s.wroteResult fn 0 p r).ring fn 1 3 = s.ring fn 1 3 := by
  rw [State.wroteResult, State.signal_ring, State.send_ring, State.setRing_ring_ne _ _ (by unfold ringKey; omega)]

theorem State.wroteResult_sends (fn k : Nat) (r : StepResult) :
    Sent.result fn k p (s.ring fn k 3).phase r ∈ (s.wroteResult fn k p r).out :=
  State.mem_signal_out (List.mem_append_right _ (List.mem_singleton.2 rfl)) ..

theorem State.postResult_taken {x : Bool × StepResult} (h : x.1 = true) : s.postResult p x = (s, x) := by
  simp [State.postResult, h]

theorem State.postResult_off (h0 : (s.ring (p + 1) 0 3).enable = false) (h1 : (s.ring (p + 1) 1 3).enable = false)
    (x : Bool × StepResult) : s.postResult p x = (s, x) := by
  simp [State.postResult, State.resultTo_off h0, State.resultTo_off h1]

theorem foldl_postTurn_of_none_posted {l : List (Bool × StepResult)} (h : ∀ x ∈ l, s.postResult p x = (s, x))
    (acc : List (Bool × StepResult)) : l.foldl (State.postTurn p) (s, acc) = (s, acc ++ l) := by
  induction l generalizing acc with
  | nil => simp
  | cons x l ih =>
    rw [List.foldl_cons, State.postTurn, h x List.mem_cons_self, ih (fun y hy => h y (List.mem_cons_of_mem _ hy))]
    simp

/-- Where no waiting result is posted, nothing is sent and no partition changes. -/
theorem State.posted_of_none_posted (h : ∀ x ∈ (s.part p).outRing, s.postResult p x = (s, x)) : s.posted p = s.onPart p id := by
  rw [State.posted, State.postResults, foldl_postTurn_of_none_posted h []]
  rfl

theorem State.part_onPart_id (k : Nat) : (s.onPart p id).part k = s.part k := by
  by_cases hk : k = p
  · subst hk; exact State.onPart_part_same ..
  · exact State.onPart_part_ne _ _ hk

theorem State.postResult_waiting (r : StepResult) : s.postResult p (false, r) =
    let r' := r.reporting (s.part p).postLost
    let a := s.resultTo (p + 1) 0 p (resultBytes r' (s.part p).serving) r'
    let b := a.1.resultTo (p + 1) 1 p (resultBytes r' (s.part p).serving) r'
    if a.2 || b.2 then (b.1.onPart p (fun q => { q with postLost := 0 }), (true, r')) else (s, (false, r)) := rfl

/-- The first set's ring takes a waiting result whole, the second set's being off. -/
theorem State.postResult_first {r : StepResult} (henable : (s.ring (p + 1) 0 3).enable = true)
    (hfree : (s.ring (p + 1) 0 3).free = true) (hsize : resultBytes r (s.part p).serving ≤ 2 ^ (s.ring (p + 1) 0 3).entry)
    (hoff : (s.ring (p + 1) 1 3).enable = false) : s.postResult p (false, r) =
      ((s.wroteResult (p + 1) 0 p (r.reporting (s.part p).postLost)).onPart p (fun q => { q with postLost := 0 }),
        (true, r.reporting (s.part p).postLost)) := by
  have hsize' : resultBytes (r.reporting (s.part p).postLost) (s.part p).serving ≤ 2 ^ (s.ring (p + 1) 0 3).entry := hsize
  rw [← State.wroteResult_ring_second (p := p) (p + 1) (r.reporting (s.part p).postLost)] at hoff
  simp only [State.postResult_waiting, State.resultTo_takes henable hfree hsize', State.resultTo_off hoff, Bool.or_false, if_true]

theorem State.posted_single {r : StepResult} (hring : (s.part p).outRing = [(false, r)]) (henable : (s.ring (p + 1) 0 3).enable = true)
    (hfree : (s.ring (p + 1) 0 3).free = true) (hsize : resultBytes r (s.part p).serving ≤ 2 ^ (s.ring (p + 1) 0 3).entry)
    (hoff : (s.ring (p + 1) 1 3).enable = false) : s.posted p =
      ((s.wroteResult (p + 1) 0 p (r.reporting (s.part p).postLost)).onPart p (fun q => { q with postLost := 0 })).onPart p
        (fun q => q.withRing [(true, r.reporting (s.part p).postLost)]) := by
  rw [State.posted, State.postResults, hring, List.foldl_cons, List.foldl_nil, State.postTurn,
    State.postResult_first henable hfree hsize hoff]
  rfl

end

/-! ### The result of a committed step (R270, R271) -/

section
variable {s : State} {p : Nat} {r : StepResult} (hnext : (s.part p).outNext = some r) (hland : s.landSlots p = true)
include hnext hland

/-- The result of a committed step is placed, and stays waiting while both result rings are off. -/
theorem stepResultPost_places (h0 : (s.ring (p + 1) 0 3).enable = false) (h1 : (s.ring (p + 1) 1 3).enable = false) :
    ∃ t r', exec (.stepResultPost p) s = .next t ∧ r' = { r with outputs := r'.outputs } ∧ Placed s t p r' := by
  obtain ⟨u, outputs, hu, hexec⟩ := execStepResultPost_of_some hland hnext
  rw [← State.ring_congr hu.rings] at h0 h1
  rw [State.posted_of_none_posted (fun x _ => State.postResult_off h0 h1 x)] at hexec
  exact ⟨_, { r with outputs }, hexec, rfl, (State.part_onPart_id p).trans hu.part,
    fun k hk => (State.part_onPart_id k).trans (hu.others k hk), hu.rings, hu.cells, hu.out⟩

/-- The result of a committed step is placed in an empty outbound ring and posted whole to a result ring that has room. -/
theorem stepResultPost_posts (hempty : (s.part p).outRing = []) (henable : (s.ring (p + 1) 0 3).enable = true)
    (hfree : (s.ring (p + 1) 0 3).free = true) (hsize : resultBytes r (s.part p).serving ≤ 2 ^ (s.ring (p + 1) 0 3).entry)
    (hoff : (s.ring (p + 1) 1 3).enable = false) :
    ∃ t r', exec (.stepResultPost p) s = .next t ∧ (t.part p).outNext = none ∧ (t.part p).outRing = [(true, r')] ∧
      r' = { r with outputs := r'.outputs, postLost := (s.part p).postLost } ∧ (t.part p).postLost = 0 ∧
      Sent.result (p + 1) 0 p (s.ring (p + 1) 0 3).phase r' ∈ t.out ∧ (∀ k, k ≠ p → t.part k = s.part k) ∧ t.cells = s.cells := by
  obtain ⟨u, outputs, hu, hexec⟩ := execStepResultPost_of_some hland hnext
  have hpart : u.part p = { s.part p with outNext := none, outRing := [(false, { r with outputs })] } :=
    hu.part.trans (Part.ringResult_of_empty hempty _)
  have hlost : (u.part p).postLost = (s.part p).postLost := (congrArg Part.postLost hpart :)
  have hserv : (u.part p).serving = (s.part p).serving := (congrArg Part.serving hpart :)
  rw [← hserv] at hsize
  rw [← State.ring_congr hu.rings] at henable hfree hsize hoff ⊢
  rw [State.posted_single (congrArg Part.outRing hpart) henable hfree hsize hoff, hlost] at hexec
  refine ⟨_, StepResult.reporting { r with outputs } (s.part p).postLost, hexec, ?_⟩
  simp only [State.onPart_part_same, State.wroteResult_part, hpart]
  refine ⟨rfl, rfl, rfl, rfl, ?_, fun k hk => ?_, ?_⟩
  · rw [State.onPart_out, State.onPart_out]
    exact State.wroteResult_sends ..
  · rw [State.onPart_part_ne _ _ hk, State.onPart_part_ne _ _ hk, State.wroteResult_part, hu.others k hk]
  · rw [State.onPart_cells, State.onPart_cells, State.wroteResult_cells, hu.cells]

end

/-! ### The statement -/

/-- Settles O32: the window engine writes one line and reads it back; a result is placed, and posted where a ring takes it. -/
theorem windowAndResults : Obligations.WindowAndResults := by
  refine ⟨?_, fun p s r hnext hland => ⟨fun h0 h1 => ?_, stepResultPost_posts hnext hland⟩, fun p s => execStepResultPost_waits,
    fun p s hnext htaken => ?_⟩
  · intro p s e loc hserv hrun hepoch hpos hle hengine hedits htokens hread hflip hworks hkey
    obtain ⟨lines, hput⟩ := onlyColdLines_putOwn s p e.winBase ((s.part p).atBody.slotLine e.slots)
    refine ⟨_, execWindowEngineSchedule_eq hserv hrun hepoch hpos hle hengine hedits htokens, ?_, ?_, ?_,
      State.partLine_putOwn_cold hread hflip hworks hkey _⟩
    all_goals rw [hput]
  · obtain ⟨t, r', hexec, hr, ht⟩ := stepResultPost_places hnext hland h0 h1
    refine ⟨t, r', hexec, ?_, hr, ?_, ht.others, ht.cells, ht.out⟩
    · rw [ht.part]; rfl
    · rw [ht.part]
      exact ⟨rfl, Part.length_ringResult_le .., rfl⟩
  · cases hland : s.landSlots p with
    | false => exact ⟨s, execStepResultPost_waits hland, rfl, fun _ => rfl⟩
    | true =>
      refine ⟨_, execStepResultPost_of_none hland hnext, ?_⟩
      rw [State.posted_of_none_posted (fun x hx => State.postResult_taken (htaken x hx))]
      exact ⟨rfl, State.part_onPart_id⟩

end Sys2Proof.Machine
end

