-- ==== Sys2Proof/Proofs/LinkPorts.lean ====
section
/-! SUPPORT. One fabric port at work: what transmitting a flit, marking lanes and taking a port DOWN change of the state, and what
is left of the port itself (R288, R292, R305, R311). -/

namespace Sys2Proof.Machine
open Sys2Proof.Stmt

/-! ### Work on one port -/

/-- Between `s` and `t` only port `i` changed, the transfers of the fabric engine, and what is counted. -/
def OnlyLink (s t : State) (i : Nat) : Prop :=
  t = { s with ports := t.ports, fab := t.fab, counters := t.counters, health := t.health, act := t.act } ∧
  ∀ k, k ≠ i → t.port k = s.port k

section
variable {s t u : State} {i : Nat}

theorem OnlyLink.refl (s : State) (i : Nat) : OnlyLink s s i := ⟨rfl, fun _ _ => rfl⟩

theorem OnlyLink.trans (hst : OnlyLink s t i) (htu : OnlyLink t u i) : OnlyLink s u i := by
  refine ⟨?_, fun k hk => (htu.2 k hk).trans (hst.2 k hk)⟩
  rw [htu.1, hst.1]

theorem OnlyLink.onPort (h : OnlyLink s t i) (f : Port → Port) : OnlyLink s (t.onPort i f) i :=
  h.trans ⟨rfl, fun _ hk => State.onPort_port_ne _ f hk⟩

theorem OnlyLink.count (h : OnlyLink s t i) (loc ev n : Nat) : OnlyLink s (t.count loc ev n) i := h.trans ⟨rfl, fun _ _ => rfl⟩

theorem OnlyLink.spend (h : OnlyLink s t i) (row : Nat) (p : Option Nat) (n : Nat) : OnlyLink s (t.spend row p n) i :=
  h.trans ⟨rfl, fun _ _ => rfl⟩

theorem State.noteSent_frame (s : State) (cls : Nat) (e : Option Bool) (h : DynHdr) :
    s.noteSent cls e h = { s with fab := (s.noteSent cls e h).fab } := by
  unfold State.noteSent
  split
  · split <;> rfl
  · rfl

theorem State.noteSent_port (s : State) (cls : Nat) (e : Option Bool) (h : DynHdr) (k : Nat) : (s.noteSent cls e h).port k = s.port k := by
  rw [State.noteSent_frame]; rfl

theorem OnlyLink.noteSent (h : OnlyLink s t i) (cls : Nat) (e : Option Bool) (hdr : DynHdr) : OnlyLink s (t.noteSent cls e hdr) i :=
  h.trans ⟨by rw [State.noteSent_frame], fun k _ => t.noteSent_port cls e hdr k⟩

theorem OnlyLink.cycle (h : OnlyLink s t i) : t.cycle = s.cycle := by rw [h.1]
theorem OnlyLink.parts (h : OnlyLink s t i) : t.parts = s.parts := by rw [h.1]
theorem OnlyLink.blocks (h : OnlyLink s t i) : t.blocks = s.blocks := by rw [h.1]
theorem OnlyLink.cells (h : OnlyLink s t i) : t.cells = s.cells := by rw [h.1]
theorem OnlyLink.raised (h : OnlyLink s t i) : t.raised = s.raised := by rw [h.1]
theorem OnlyLink.out (h : OnlyLink s t i) : t.out = s.out := by rw [h.1]
theorem OnlyLink.wallNow (h : OnlyLink s t i) : t.wallNow = s.wallNow := by rw [h.1]; rfl
theorem OnlyLink.scope (h : OnlyLink s t i) (f : Nat → Bool) : t.scope f = s.scope f := by rw [h.1]; rfl
theorem OnlyLink.part (h : OnlyLink s t i) (p : Nat) : t.part p = s.part p := by rw [h.1]; rfl
theorem OnlyLink.holdOf (h : OnlyLink s t i) (pos b : Nat) : t.holdOf pos b = s.holdOf pos b := by rw [h.1]; rfl
theorem OnlyLink.fcyc (h : OnlyLink s t i) : t.fcyc = s.fcyc := by rw [h.1]; rfl
theorem OnlyLink.frm (h : OnlyLink s t i) : t.frm = s.frm := by rw [h.1]; rfl

end

/-! ### The transmitter (R288, R292, R305) -/

/-- `y` is port `x` after its transmitter has worked: flits were handed to it, and segment times were filled. -/
def Port.Sends (x y : Port) : Prop :=
  y = { x with lastTx := y.lastTx, txq := y.txq, segNext := y.segNext, superTx := y.superTx, txSegs := y.txSegs }

theorem Port.Sends.trans {x y z : Port} (hxy : x.Sends y) (hyz : y.Sends z) : x.Sends z := by
  rw [Port.Sends, hyz, hxy]

theorem Port.Sends.dynQ {x y : Port} (h : x.Sends y) : y.dynQ = x.dynQ := by rw [h]
theorem Port.Sends.outBeats {x y : Port} (h : x.Sends y) : y.outBeats = x.outBeats := by rw [h]
theorem Port.Sends.fwd {x y : Port} (h : x.Sends y) : y.fwd = x.fwd := by rw [h]

/-- A transmitter at work has sent whole superframes. -/
def Superframes (i : Nat) (l : List Sent) : Prop := ∀ m ∈ l, ∃ k w, m = Sent.superframe i k w

/-- Completing superframes sends them alone. -/
theorem Port.complete_sends (i k fuel : Nat) (x : Port) {l : List Sent} (hl : Superframes i l) :
    x.Sends (Port.complete i k fuel (x, l)).1 ∧ Superframes i (Port.complete i k fuel (x, l)).2 := by
  induction fuel generalizing x l with
  | zero => exact ⟨rfl, hl⟩
  | succ fuel ih =>
    rw [Port.complete]
    split
    · exact ⟨rfl, hl⟩
    · obtain ⟨hport, hsent⟩ := ih { x with superTx := x.superTx + 1, txSegs := [(0, x.alignSegs i (x.superTx + 1))] }
        (l := l ++ [.superframe i x.superTx ((List.range 10).map (fun j => x.laneWords i j x.superTx))])
        (fun m hm => (List.mem_append.1 hm).elim (hl m) fun h => ⟨_, _, List.mem_singleton.1 h⟩)
      exact ⟨Port.Sends.trans (y := { x with superTx := _, txSegs := _ }) rfl hport, hsent⟩

theorem Port.placeFlit_sends (i : Nat) {x : Port} {r : Port × List Sent} (hport : x.Sends r.1) (hsent : Superframes i r.2)
    (e : TxFlit) : x.Sends (Port.placeFlit i r e).1 ∧ Superframes i (Port.placeFlit i r e).2 := by
  obtain ⟨y, l⟩ := r
  obtain ⟨hdone, hl⟩ := Port.complete_sends i _ _ y hsent
  exact ⟨(hport.trans hdone).trans rfl, hl⟩

/-- Port `i` and what it sends when the flits whose launch time has come are placed. -/
def State.drained (s : State) (i : Nat) : Port × List Sent :=
  ((s.port i).txq.filter (fun e => decide (e.at' ≤ s.wallNow))).foldl (Port.placeFlit i)
    ({ s.port i with txq := (s.port i).txq.filter (fun e => decide (s.wallNow < e.at')) }, [])

theorem State.drainTx_eq (s : State) (i : Nat) :
    s.drainTx i = { s.onPort i (fun _ => (s.drained i).1) with out := s.out ++ (s.drained i).2 } := rfl

theorem State.drained_sends (s : State) (i : Nat) : (s.port i).Sends (s.drained i).1 ∧ Superframes i (s.drained i).2 := by
  refine List.foldlRecOn _ (Port.placeFlit i) (motive := fun r => (s.port i).Sends r.1 ∧ Superframes i r.2) ⟨?_, ?_⟩
    fun _ hr e _ => Port.placeFlit_sends i hr.1 hr.2 e
  · rfl
  · exact fun _ hm => absurd hm List.not_mem_nil

theorem State.drainTx_port_same (s : State) (i : Nat) : (s.drainTx i).port i = (s.drained i).1 := by
  rw [State.drainTx_eq]
  exact State.onPort_port_same s i (fun _ => (s.drained i).1)

theorem State.drainTx_port_ne (s : State) {i k : Nat} (hk : k ≠ i) : (s.drainTx i).port k = s.port k := by
  rw [State.drainTx_eq]
  exact State.onPort_port_ne s (fun _ => (s.drained i).1) hk

theorem mem_txInsert (e : TxFlit) (l : List TxFlit) : e ∈ txInsert e l := by
  induction l with
  | nil => exact List.mem_singleton_self e
  | cons x l ih =>
    rw [txInsert]
    split
    · exact List.mem_cons_self
    · exact List.mem_cons_of_mem x ih

/-- What each lane carries of a flit rests on the lanes that the port sends alone. -/
theorem Port.Sends.laneSegs {x y : Port} (h : x.Sends y) (f : Flit) : y.laneSegs f = x.laneSegs f := by
  rw [h]; rfl

/-- A flit handed to the transmitter waits for the end of its hold. -/
theorem State.handTx_sends (s : State) (i hold : Nat) (f : Flit) :
    (s.port i).Sends ((s.handTx i hold f).port i) ∧ (∃ l, Superframes i l ∧ (s.handTx i hold f).out = s.out ++ l) ∧
      { at' := s.wallNow + hold, segs := (s.port i).laneSegs f } ∈ ((s.handTx i hold f).port i).txq := by
  obtain ⟨hport, hsent⟩ := s.drained_sends i
  rw [← State.drainTx_port_same] at hport
  have hhand : (s.handTx i hold f).port i = { (s.drainTx i).port i with
      txq := txInsert { at' := s.wallNow + hold, segs := ((s.drainTx i).port i).laneSegs f } ((s.drainTx i).port i).txq } :=
    State.onPort_port_same (s.drainTx i) i _
  rw [hhand]
  refine ⟨hport.trans rfl, ⟨_, hsent, rfl⟩, ?_⟩
  rw [hport.laneSegs]
  exact mem_txInsert _ _

/-- Handing a flit to a transmitter changes ports and what is sent alone. -/
theorem State.handTx_frame (s : State) (i hold : Nat) (f : Flit) :
    s.handTx i hold f = { s with ports := (s.handTx i hold f).ports, out := (s.handTx i hold f).out } := rfl

theorem State.handTx_port_ne (s : State) {i k : Nat} (hold : Nat) (f : Flit) (hk : k ≠ i) : (s.handTx i hold f).port k = s.port k :=
  (State.onPort_port_ne _ _ hk).trans (s.drainTx_port_ne hk)

/-- What sending a flit of type `typ` in slot `n` counts and spends. -/
def State.flitCounted (s : State) (i n typ : Nat) : State :=
  let s := match typ with
    | 1 => s.count (locPort i) 0x301 1
    | 2 => s.count (locPort i) 0x304 1
    | 3 => s.count (locPort i) 0x304 1
    | _ => s
  if typ = 0 then s else s.spend 15 (s.layerOf i 5 n) 1

theorem State.flitCounted_counts (s : State) (i n typ : Nat) :
    s.flitCounted i n typ = { s with counters := (s.flitCounted i n typ).counters, health := (s.flitCounted i n typ).health
                                     act := (s.flitCounted i n typ).act } := by
  unfold State.flitCounted
  split <;> split <;> rfl

theorem State.flitCounted_port (s : State) (i n typ k : Nat) : (s.flitCounted i n typ).port k = s.port k := by
  rw [s.flitCounted_counts]; rfl

/-- Sending a flit in a slot: the port has sent in this cycle, the flit is counted, and it is handed to the lanes. -/
theorem State.transmit_eq (s : State) (i n b : Nat) (f : Flit) : s.transmit i n b f =
    (((s.onPort i (fun x => { x with lastTx := s.cycle + 1 })).flitCounted i n f.typ).handTx i (s.holdOf s.fcyc b) f).send
      (.flit i n s.cycle (s.holdOf s.fcyc b) f) := by
  have hcycle : ((s.onPort i (fun x => { x with lastTx := s.cycle + 1 })).flitCounted i n f.typ).cycle = s.cycle := by
    rw [State.flitCounted_counts]; rfl
  exact congrArg (fun c => State.send _ (.flit i n c (s.holdOf s.fcyc b) f)) hcycle

/-- The port keeps all that its transmitter does not work on. -/
theorem State.transmit_sends (s : State) (i n b : Nat) (f : Flit) : (s.port i).Sends ((s.transmit i n b f).port i) := by
  have hlast : (s.port i).Sends (((s.onPort i (fun x => { x with lastTx := s.cycle + 1 })).flitCounted i n f.typ).port i) := by
    rw [State.flitCounted_port, State.onPort_port_same]; rfl
  exact hlast.trans (State.handTx_sends _ i _ f).1

theorem OnlyLink.flitCounted {s t : State} {i : Nat} (h : OnlyLink s t i) (n typ : Nat) : OnlyLink s (t.flitCounted i n typ) i :=
  h.trans ⟨by rw [State.flitCounted_counts], fun k _ => t.flitCounted_port i n typ k⟩

/-- A flit that leaves from a state `u` in which only port `i` was made ready for it is the one flit sent. -/
theorem sentFlit_transmit {s u : State} {i : Nat} (hu : OnlyLink s u i)
    (hlanes : ∀ f, (u.port i).laneSegs f = (s.port i).laneSegs f) (n b : Nat) (f : Flit) :
    SentFlit s ((u.transmit i n b f).onPort i (fun y => y.past s.cycle)) i n b f := by
  rw [State.transmit_eq, hu.cycle, hu.fcyc, hu.holdOf]
  have hv : OnlyLink s ((u.onPort i (fun x => { x with lastTx := s.cycle + 1 })).flitCounted i n f.typ) i :=
    (hu.onPort _).flitCounted n f.typ
  have hvlanes : (((u.onPort i (fun x => { x with lastTx := s.cycle + 1 })).flitCounted i n f.typ).port i).laneSegs f =
      (s.port i).laneSegs f := by
    rw [State.flitCounted_port, State.onPort_port_same]; exact hlanes f
  generalize (u.onPort i (fun x => { x with lastTx := s.cycle + 1 })).flitCounted i n f.typ = v at hv hvlanes
  obtain ⟨-, ⟨l, hsuper, hout⟩, hmem⟩ := v.handTx_sends i (s.holdOf s.fcyc b) f
  rw [hv.wallNow, hvlanes] at hmem
  rw [hv.out] at hout
  have hothers : ∀ k, k ≠ i → (v.handTx i (s.holdOf s.fcyc b) f).port k = s.port k := fun k hk =>
    (v.handTx_port_ne _ f hk).trans (hv.2 k hk)
  have hframe := v.handTx_frame i (s.holdOf s.fcyc b) f
  generalize v.handTx i (s.holdOf s.fcyc b) f = w at hout hmem hothers hframe
  refine ⟨⟨l, congrArg (· ++ [_]) hout, hsuper⟩, ?_, (congrArg State.cells hframe).trans hv.cells,
    (congrArg State.blocks hframe).trans hv.blocks, (congrArg State.parts hframe).trans hv.parts,
    (congrArg State.raised hframe).trans hv.raised, fun k hk => ?_⟩
  · rw [State.onPort_port_same]; exact hmem
  · rw [State.onPort_port_ne _ _ hk]; exact hothers k hk

end Sys2Proof.Machine
end

