-- ==== Sys2Proof/Proofs/SlotsSent.lean ====
section
/-! PROOF. What a slot sends in its attachment cycle (O39): a lull, a plan flit, a dynamic flit or a forwarded flit (R292 to R294,
R313, R317, R320, R321). -/

namespace Sys2Proof.Machine
open Sys2Proof.Stmt

section
variable {s : State} {i n p : Nat}

/-! ### What the port sends -/

theorem exec_slotTransmit_due (hdue : SlotDue s i n) (hst : (s.port i).st = .up ∨ (s.port i).st = .fenced) :
    exec (.slotTransmit i .ok []) s = .next ((s.sendSlot i n .ok []).onPort i (fun y => y.past s.cycle)) := by
  obtain ⟨hslot, hfirst⟩ := hdue
  have hgo : ¬((s.port i).st ≠ .up ∧ (s.port i).st ≠ .fenced ∨ (s.port i).lastTx = s.cycle + 1) := by tauto
  show execSlotTransmit i .ok [] s = _
  simp only [execSlotTransmit, hslot, if_neg hgo]
  rfl

/-- A lull leaves while the port is FENCED or out of step, and in a slot that nobody uses (R293, R294). -/
theorem State.sendSlot_lull (h : (s.port i).st = .fenced ∨ (s.port i).st = .up ∧ (s.port i).inSync = false ∨
    (s.port i).st = .up ∧ s.slotHolder i 5 n = none ∧ s.bootSlot i n = none) (tecc : Ecc) (pecc : BeatEcc) :
    s.sendSlot i n tecc pecc = s.sendLull i n (s.port i).latTx := by
  rcases h with hfenced | ⟨-, hsync⟩ | ⟨-, hholder, hboot⟩
  · exact if_pos (.inl hfenced)
  · exact if_pos (.inr (by rw [hsync]; rfl))
  · simp only [State.sendSlot, hholder, hboot, ite_self]

/-- A slot that no partition holds is the bootstrap layer's (R335). -/
theorem State.sendSlot_boot {cls : Nat} (hup : (s.port i).st = .up) (hsync : (s.port i).inSync = true)
    (hholder : s.slotHolder i 5 n = none) (hboot : s.bootSlot i n = some (p, cls)) (tecc : Ecc) (pecc : BeatEcc) :
    s.sendSlot i n tecc pecc = s.launchDyn i n p cls none := by
  simp [State.sendSlot, hup, hsync, hholder, hboot]

/-! ### Dynamic flits (R317) -/

/-- The first flit of a queue leaves the queue and is sent when it may leave in the slot. -/
theorem launchDyn_sends {cls : Nat} {v : Option Bool} {d : DynFlit} {rest : List DynFlit}
    (hqueue : look [] (s.port i).dynQ (dynKey p cls) = d :: rest) (hfits : d.fits s.cycle (s.part p).ver v = true) :
    let t := (s.launchDyn i n p cls v).onPort i (fun y => y.past s.cycle)
    look [] (t.port i).dynQ (dynKey p cls) = rest ∧ SentFlit s t i n (s.budgetOf p i 0)
      { typ := cls, epoch := d.epoch.getD (s.part p).ver, check := slotCheck s.tf n, lo := hdrLine d.hdr, hi := d.line } := by
  let u := (s.onPort i (fun x => { x with dynQ := put [] x.dynQ (dynKey p cls) rest })).noteSent cls d.epoch d.hdr
  have hlaunch : s.launchDyn i n p cls v = u.transmit i n (s.budgetOf p i 0)
      { typ := cls, epoch := d.epoch.getD (s.part p).ver, check := slotCheck s.tf n, lo := hdrLine d.hdr, hi := d.line } := by
    simp only [State.launchDyn, hqueue, List.find?_cons, hfits, List.eraseP_cons]
    rfl
  have hu : OnlyLink s u i := ((OnlyLink.refl s i).onPort _).noteSent ..
  have hport : u.port i = { s.port i with dynQ := put [] (s.port i).dynQ (dynKey p cls) rest } := by
    rw [State.noteSent_port, State.onPort_port_same]
  rw [hlaunch]
  refine ⟨?_, sentFlit_transmit hu (fun f => by rw [hport]; rfl) ..⟩
  rw [State.onPort_port_same, Port.past, (u.transmit_sends i n _ _).dynQ, hport, look_put_same]

/-! ### A slot of a running partition (R313, R318) -/

section
variable (hup : (s.port i).st = .up) (hsync : (s.port i).inSync = true) (hholder : s.slotHolder i 5 n = some p)
  (hrun : (s.part p).st = .running) (hbudget : (s.port i).budgetBad.getLsbD p = false)
include hup hsync hholder hrun hbudget

theorem State.sendSlot_plan (tecc : Ecc) (pecc : BeatEcc) : s.sendSlot i n tecc pecc = s.planSlot i n p tecc pecc := by
  simp [State.sendSlot, hup, hsync, hholder, hbudget, State.running, hrun]

theorem exec_forwardLaunch_due {f : FwdFlit} (hdue : SlotDue s i n) (hfwd : s.fwdIn i n p = some f) :
    exec (.forwardLaunch i) s = .next ((s.sendFwd i n p f).onPort i (fun y => y.past s.cycle)) := by
  obtain ⟨hslot, hfirst⟩ := hdue
  show execForwardLaunch i s = _
  simp [execForwardLaunch, hup, hsync, hfirst, hslot, hholder, hbudget, State.running, hrun, hfwd, ok]

end

theorem State.budgetOf_running (hrun : (s.part p).st = .running) (dir : Nat) : s.budgetOf p i dir = ((s.part p).budget i dir).getD 0 :=
  if_pos (decide_eq_true (.inr hrun))

section
variable {row : BitVec 32} (hfwd : s.fwdIn i n p = none)
  (hrow : (s.part p).portRow i 0 n ((s.part p).planTime / 1024) ((s.part p).planTime / 1024) (s.part p).ver = some row)
include hfwd hrow

theorem State.planSlot_sendPlan (hclass : rowClass row = 1) (pecc : BeatEcc) :
    s.planSlot i n p .ok pecc = s.sendPlan i n p pecc := by
  simp [State.planSlot, hfwd, hrow, State.readPortRow, hclass]

theorem State.planSlot_launchDyn {cls : Nat} (hcls : cls = 2 ∨ cls = 3) (hclass : rowClass row = cls)
    (hlease : (s.part p).leases? 5 (classUse cls) i 0 n = true) (pecc : BeatEcc) :
    s.planSlot i n p .ok pecc = s.launchDyn i n p cls (some (s.part p).ver) := by
  have hplan : cls ≠ 1 := by omega
  simp [State.planSlot, hfwd, hrow, State.readPortRow, hclass, hplan, hcls, hlease]

end

/-! ### Plan flits (R290, R313) -/

/-- The two beats of a plan flit at port `i` in this cycle: live, of partition `p`, one on A0 and one on A1. -/
structure PlanBeats (s : State) (i p : Nat) (h0 h1 : Hop) : Prop where
  beats : (s.port i).outBeats = [h0, h1]
  cyc : h0.cyc = s.cycle ∧ h1.cyc = s.cycle
  port : h0.port = 0 ∧ h1.port = 1
  live : h0.beat.live = true ∧ h1.beat.live = true
  part : h0.beat.sb.part.toNat = p ∧ h1.beat.sb.part.toNat = p

theorem PlanBeats.portBeats {h0 h1 : Hop} (h : PlanBeats s i p h0 h1) : s.portBeats i p [] = (s, [h0, h1]) := by
  have hnow : (s.port i).outBeats.filter (fun h => decide (h.cyc = s.cycle) && h.beat.carried) = [h0, h1] := by
    simp [h.beats, h.cyc, Beat.carried_of_live h.live.1, Beat.carried_of_live h.live.2]
  rw [State.portBeats, hnow]
  rfl

/-- Both beats of the layer's own partition leave as one plan flit. -/
theorem PlanBeats.sendPlan {h0 h1 : Hop} (h : PlanBeats s i p h0 h1) (hlease : (s.part p).leases? 5 0 i 0 n = true) :
    s.sendPlan i n p [] = s.transmit i n (((s.part p).budget i 0).getD 0)
      { typ := 1, epoch := (s.part p).ver, check := slotCheck s.tf n, lo := h0.beat.data, hi := h1.beat.data } := by
  simp [State.sendPlan, h.portBeats, h.part, hlease, h.port]

/-! ### Forwarded flits (R320, R321) -/

/-- The one forwarded flit that is due is the one that its forward row names. -/
theorem State.fwdIn_single {row : BitVec 32} {f : FwdFlit} (hfwd : (s.port i).fwd = [f]) (hdue : f.due = s.cycle)
    (hrow : (s.part p).portRow i 0 n ((s.part p).planTime / 1024) ((s.part p).planTime / 1024) f.flit.epoch = some row)
    (hclass : rowClass row = 4) (hport : f.port = bits row.toNat 25 4) (hslot : f.slot = bits row.toNat 16 9) :
    s.fwdIn i n p = some f := by
  simp [State.fwdIn, hfwd, hdue, hrow, hclass, hport, hslot]

theorem sendFwd_sends (f : FwdFlit) : (s.port i).Sends ((s.sendFwd i n p f).port i) ∧
    SentFlit s ((s.sendFwd i n p f).onPort i (fun y => y.past s.cycle)) i n (s.budgetOf p i 0)
      { f.flit with check := slotCheck s.tf n } := by
  unfold State.sendFwd
  dsimp only
  split
  · exact ⟨s.transmit_sends .., sentFlit_transmit (OnlyLink.refl s i) (fun _ => rfl) ..⟩
  · exact ⟨State.transmit_sends ((s.count (locPort i) 0x309 1).spend 16 (some p) 1) ..,
      sentFlit_transmit (((OnlyLink.refl s i).count ..).spend ..) (fun _ => rfl) ..⟩

theorem Port.past_fwd {x : Port} {f : FwdFlit} {now : Nat} (hfwd : x.fwd = [f]) (hdue : f.due = now) : (x.past now).fwd = [] := by
  simp [Port.past, hfwd, hdue]

theorem Port.past_outBeats {x : Port} {h0 h1 : Hop} {now : Nat} (hbeats : x.outBeats = [h0, h1]) (h0cyc : h0.cyc = now)
    (h1cyc : h1.cyc = now) : (x.past now).outBeats = [] := by
  simp [Port.past, hbeats, h0cyc, h1cyc]

end

/-- Settles O39: by the row in force a slot sends a lull, a plan flit, a dynamic flit or a forwarded flit. -/
theorem slotsAreSent : Obligations.SlotsAreSent := by
  refine ⟨fun i s hslot => ?_,
    fun i n s hdue => ⟨fun hlull => ?_, fun p row hup hsync hholder hrun hbudget hfwd hrow => ⟨?_, ?_⟩, ?_⟩, ?_, ?_⟩
  · show execSlotTransmit i .ok [] s = _
    simp only [execSlotTransmit, hslot]
    rfl
  · have hst : (s.port i).st = .up ∨ (s.port i).st = .fenced := by tauto
    refine ⟨_, exec_slotTransmit_due hdue hst, ?_⟩
    rw [State.sendSlot_lull hlull]
    exact sentFlit_transmit (OnlyLink.refl s i) (fun _ => rfl) ..
  · intro h0 h1 hclass hlease hbeats h0cyc h1cyc h0port h1port h0live h1live h0part h1part
    have hplan : PlanBeats s i p h0 h1 := ⟨hbeats, ⟨h0cyc, h1cyc⟩, ⟨h0port, h1port⟩, ⟨h0live, h1live⟩, h0part, h1part⟩
    refine ⟨_, exec_slotTransmit_due hdue (.inl hup), ?_⟩
    rw [State.sendSlot_plan hup hsync hholder hrun hbudget, State.planSlot_sendPlan hfwd hrow hclass, hplan.sendPlan hlease,
      State.budgetOf_running hrun]
    refine ⟨?_, sentFlit_transmit (OnlyLink.refl s i) (fun _ => rfl) ..⟩
    rw [State.onPort_port_same]
    exact Port.past_outBeats ((State.transmit_sends ..).outBeats.trans hbeats) h0cyc h1cyc
  · intro cls d rest hcls hclass hlease hqueue hready hepoch
    have hfits : d.fits s.cycle (s.part p).ver (some (s.part p).ver) = true := by simp [DynFlit.fits, hready, hepoch]
    have huse : classUse cls = if cls = 2 then 5 else 6 := by rcases hcls with rfl | rfl <;> rfl
    refine ⟨_, exec_slotTransmit_due hdue (.inl hup), ?_⟩
    rw [State.sendSlot_plan hup hsync hholder hrun hbudget, State.planSlot_launchDyn hfwd hrow hcls hclass (huse ▸ hlease)]
    have hsent := launchDyn_sends (i := i) (n := n) hqueue hfits
    rwa [hepoch] at hsent
  · intro p cls d rest hup hsync hholder hboot hqueue hready
    have hfits : d.fits s.cycle (s.part p).ver none = true := by simp [DynFlit.fits, hready]
    refine ⟨_, exec_slotTransmit_due hdue (.inl hup), ?_⟩
    rw [State.sendSlot_boot hup hsync hholder hboot]
    exact launchDyn_sends hqueue hfits
  · intro i n p s row f hdue hup hsync hholder hrun hbudget hrow hclass hfwd hnow hport hslot
    have hflit : s.fwdIn i n p = some f := State.fwdIn_single hfwd hnow hrow hclass hport hslot
    obtain ⟨hsends, hsent⟩ := sendFwd_sends (s := s) (i := i) (n := n) (p := p) f
    refine ⟨_, exec_forwardLaunch_due hup hsync hholder hrun hbudget hdue hflit, ?_, hsent⟩
    rw [State.onPort_port_same]
    exact Port.past_fwd (hsends.fwd.trans hfwd) hnow
  · intro i s hst
    exact ⟨_, if_pos hst, rfl, State.onPort_port_same .., fun k hk => State.onPort_port_ne _ _ hk, rfl, rfl, rfl⟩

end Sys2Proof.Machine
end

