-- ==== Sys2Proof/Proofs/LinkFaults.lean ====
section
/-! SUPPORT. What a receiver makes of what arrives: failed segments counted, lanes marked, watermarks, and a port taken DOWN by a fatal
cause (R297, R298, R306, R311). -/

namespace Sys2Proof.Machine
open Sys2Proof.Stmt

/-! ### Judging what arrives -/

/-- `y` is port `x` after its receiver has judged what arrived: its counts, its failing lanes and its watermarks. -/
def Port.Judges (x y : Port) : Prop :=
  y = { x with badSeg := y.badSeg, rebuilt := y.rebuilt, failAt := y.failAt, badRx := y.badRx, spareLane := y.spareLane
               spareAt := y.spareAt, degraded := y.degraded, warnGuard := y.warnGuard, warnHold := y.warnHold
               holdMax := y.holdMax, holdMin := y.holdMin, guardMax := y.guardMax }

theorem Port.Judges.trans {x y z : Port} (hxy : x.Judges y) (hyz : y.Judges z) : x.Judges z := by
  rw [Port.Judges, hyz, hxy]

theorem Port.Judges.st {x y : Port} (h : x.Judges y) : y.st = x.st := by rw [h]
theorem Port.Judges.inbox {x y : Port} (h : x.Judges y) : y.inbox = x.inbox := by rw [h]
theorem Port.Judges.latRx {x y : Port} (h : x.Judges y) : y.latRx = x.latRx := by rw [h]

/-- Between `s` and `t` the receiver of port `i` judged what arrived, and nothing else changed but what is counted. -/
structure LinkJudged (s t : State) (i : Nat) : Prop where
  only : OnlyLink s t i
  port : (s.port i).Judges (t.port i)

section
variable {s t u : State} {i : Nat}

theorem LinkJudged.refl (s : State) (i : Nat) : LinkJudged s s i := ⟨OnlyLink.refl s i, rfl⟩

theorem LinkJudged.trans (hst : LinkJudged s t i) (htu : LinkJudged t u i) : LinkJudged s u i :=
  ⟨hst.only.trans htu.only, hst.port.trans htu.port⟩

theorem LinkJudged.count (h : LinkJudged s t i) (loc ev n : Nat) : LinkJudged s (t.count loc ev n) i := ⟨h.only.count .., h.port⟩

theorem LinkJudged.spend (h : LinkJudged s t i) (row : Nat) (p : Option Nat) (n : Nat) : LinkJudged s (t.spend row p n) i :=
  ⟨h.only.spend .., h.port⟩

theorem LinkJudged.onPort (h : LinkJudged s t i) {f : Port → Port} (hf : ∀ x : Port, x.Judges (f x)) : LinkJudged s (t.onPort i f) i := by
  refine ⟨h.only.onPort f, h.port.trans ?_⟩
  rw [State.onPort_port_same]
  exact hf _

/-- Marking a lane is the receiver's judgement (R298, R299, R301). -/
theorem LinkJudged.markLane (h : LinkJudged s t i) (k : Nat) : LinkJudged s (t.markLane i k) i := by
  unfold State.markLane
  dsimp only
  split
  · exact h
  · split
    all_goals exact h.onPort fun _ => rfl

/-- A failed segment is counted, and may mark its lane (R297, R298). -/
theorem LinkJudged.badSegment (h : LinkJudged s t i) (k : Nat) : LinkJudged s (t.badSegment i k) i := by
  unfold State.badSegment
  extract_lets l counted
  have hcounted : LinkJudged s counted i := by
    refine LinkJudged.count (h.onPort fun _ => ?_) ..
    rfl
  split
  · exact hcounted.markLane k
  · exact hcounted

theorem LinkJudged.badSegments (h : LinkJudged s t i) (l : List Nat) : LinkJudged s (l.foldl (fun s k => s.badSegment i k) t) i :=
  List.foldlRecOn l _ (motive := fun t => LinkJudged s t i) h fun _ ht k _ => ht.badSegment k

/-! ### A fatal cause (R311) -/

theorem mem_look_mapv_filter {m : SMap (List DynFlit)} {q : DynFlit → Bool} {k : Nat} {d : DynFlit}
    (hd : d ∈ look [] (mapv [] m (fun _ l => l.filter q)) k) : q d = true := by
  have hne : look [] (mapv [] m (fun _ l => l.filter q)) k ≠ [] := List.ne_nil_of_mem hd
  obtain ⟨e, -, he⟩ := List.mem_map.1 (List.mem_filter.1 (mem_of_look_ne hne)).1
  have hlook : e.2.filter q = look [] (mapv [] m (fun _ l => l.filter q)) k := congrArg Prod.snd he
  rw [← hlook] at hd
  exact (List.mem_filter.1 hd).2

theorem State.quarantine_port (s : State) (i k : Nat) : (s.quarantine i).port k = s.port k := rfl

/-- A fatal cause takes the port DOWN and is raised once against the jobs with plan slots on it. -/
theorem linkFailed_linkFatal (hu : OnlyLink s u i) (code tag n lanes : Nat) :
    LinkFailed s (u.linkFatal i code tag n lanes) i code := by
  have hscope : u.scope (fun p => (u.part p).onPort i) = s.scope (fun p => (s.part p).onPort i) := by rw [hu.1]; rfl
  refine ⟨⟨_, congrArg (· ++ _) hu.raised, rfl, rfl, hscope, hu.cycle⟩, ?_, ?_, fun k hk => ?_⟩
  · rw [State.linkFatal, State.portDown, State.quarantine_port, State.count_port, State.onPort_port_same]
  · rw [State.linkFatal, State.portDown, State.quarantine_port, State.count_port, State.onPort_port_same]
    exact fun k d hd => Option.isNone_iff_eq_none.1 (mem_look_mapv_filter hd)
  · rw [State.linkFatal, State.portDown, State.quarantine_port, State.count_port, State.onPort_port_ne _ _ hk]
    exact hu.2 k hk

/-- A live port's receiver works. -/
theorem not_quiet_of_portLive {x : Port} (h : PortLive x) : ¬(x.st ≠ .up ∧ x.st ≠ .fenced ∧ x.st ≠ .calibrating) :=
  fun ⟨hup, hfenced, hcal⟩ => h.elim hup fun h => h.elim hfenced hcal

theorem two_le_length_of_mem {l : List Nat} {j k : Nat} (hj : j ∈ l) (hk : k ∈ l) (hne : j ≠ k) : 2 ≤ l.length := by
  match l with
  | [] => simp at hj
  | [x] => exact absurd ((List.mem_singleton.1 hj).trans (List.mem_singleton.1 hk).symm) hne
  | _ :: _ :: l => simp

end

end Sys2Proof.Machine
end

