-- ==== Sys2Proof/Proofs/FlitWords.lean ====
section
/-! SUPPORT. The payloads of a received flit: the eight data lanes as the words of its two lines, a failed lane as the sum of the
others (R283, R288, R296). -/

namespace Sys2Proof.Machine
open Sys2Proof.Stmt

/-- The model's bit of a number is the library's. -/
theorem bit_eq_testBit (x i : Nat) : bit x i = x.testBit i := by
  rw [bit, Nat.testBit_eq_decide_div_mod_eq]
  exact Bool.eq_iff_iff.2 (beq_iff_eq.trans decide_eq_true_iff.symm)

theorem bit_bits (x lo w : Nat) {k : Nat} (hk : k < w) : bit (bits x lo w) k = x.testBit (lo + k) := by
  rw [bit_eq_testBit, bits, Nat.testBit_mod_two_pow, Nat.testBit_div_two_pow, decide_eq_true hk, Bool.true_and, Nat.add_comm]

/-- A number built of digits below `b`: its size, and each digit read back. -/
theorem foldl_digits {b : Nat} {f : Nat → Nat} (hf : ∀ j, f j < b) (m : Nat) :
    (List.range m).foldl (fun a j => a + f j * b ^ j) 0 < b ^ m ∧
    ∀ k, k < m → (List.range m).foldl (fun a j => a + f j * b ^ j) 0 / b ^ k % b = f k := by
  have hb : 0 < b := (Nat.zero_le _).trans_lt (hf 0)
  induction m with
  | zero => simp
  | succ m ih =>
    obtain ⟨hlt, hdigit⟩ := ih
    rw [List.range_succ, List.foldl_append, List.foldl_cons, List.foldl_nil]
    generalize (List.range m).foldl (fun a j => a + f j * b ^ j) 0 = x at hlt hdigit
    refine ⟨?_, fun k hk => ?_⟩
    · calc x + f m * b ^ m < b ^ m + f m * b ^ m := Nat.add_lt_add_right hlt _
        _ = (f m + 1) * b ^ m := by ring
        _ ≤ b * b ^ m := Nat.mul_le_mul_right _ (hf m)
        _ = b ^ (m + 1) := by ring
    · rcases Nat.lt_succ_iff_lt_or_eq.1 hk with hlow | rfl
      · obtain ⟨d, rfl⟩ := Nat.exists_eq_add_of_lt hlow
        rw [show f (k + d + 1) * b ^ (k + d + 1) = b ^ k * (b * (f (k + d + 1) * b ^ d)) by ring, Nat.add_mul_div_left _ _ (Nat.pow_pos hb),
          Nat.add_mul_mod_self_left, hdigit k hlow]
      · rw [Nat.add_mul_div_right _ _ (Nat.pow_pos hb), Nat.div_eq_of_lt hlt, Nat.zero_add, Nat.mod_eq_of_lt (hf k)]

/-- A word built of `m` fields of `n` bits holds each of them. -/
theorem extract_fields {n m : Nat} (w : Nat → BitVec n) {k : Nat} (hk : k < m) :
    (BitVec.ofNat (n * m) ((List.range m).foldl (fun a j => a + (w j).toNat * 2 ^ (n * j)) 0)).extractLsb' (n * k) n = w k := by
  obtain ⟨hlt, hdigit⟩ := foldl_digits (f := fun j => (w j).toNat) (fun j => (w j).isLt) m
  simp only [Nat.pow_mul]
  refine BitVec.eq_of_toNat_eq ?_
  rw [BitVec.extractLsb'_toNat, BitVec.toNat_ofNat, Nat.pow_mul, Nat.mod_eq_of_lt hlt, Nat.shiftRight_eq_div_pow, Nat.pow_mul]
  exact hdigit k hk

/-- A line built of four payloads holds each of them. -/
theorem extract_line (w : Nat → BitVec 512) {k : Nat} (hk : k < 4) :
    (BitVec.ofNat 2048 ((List.range 4).foldl (fun a j => a + (w j).toNat * 2 ^ (512 * j)) 0)).extractLsb' (512 * k) 512 = w k :=
  extract_fields (n := 512) (m := 4) w hk

theorem getD_map_range {α : Type} (w : Nat → α) (d : α) {n j : Nat} (hj : j < n) : ((List.range n).map w).getD j d = w j := by
  simp [List.getD, hj]

theorem flitOf_lo (typ : Nat) (epoch : Bool) (check : Nat) (w : Nat → BitVec 512) {k : Nat} (hk : k < 4) :
    (flitOf typ epoch check ((List.range 8).map w)).lo.extractLsb' (512 * k) 512 = w k := by
  refine (extract_line (fun j => ((List.range 8).map w).getD (0 + j) 0) hk).trans ?_
  rw [Nat.zero_add, getD_map_range w 0 (by omega)]

theorem flitOf_hi (typ : Nat) (epoch : Bool) (check : Nat) (w : Nat → BitVec 512) {k : Nat} (hk : k < 4) :
    (flitOf typ epoch check ((List.range 8).map w)).hi.extractLsb' (512 * k) 512 = w (4 + k) :=
  (extract_line (fun j => ((List.range 8).map w).getD (4 + j) 0) hk).trans (getD_map_range w 0 (by omega))

/-- A failed lane is the sum of the others, and the lanes that pass are taken as they are. -/
theorem rebuilt_pay (x : Port) (segs : List Seg) (bad : Option Nat) (k : Nat) :
    (if bad.toList = [k] then x.rebuildPay segs k else (x.lane segs k).pay) = paysOf x segs bad k := by
  have hbad : bad.toList = [k] ↔ bad = some k := by cases bad <;> simp
  rw [paysOf, List.foldl_filter]
  simp only [hbad, Port.rebuildPay, decide_eq_true_eq, ite_not]

end Sys2Proof.Machine
end

