-- ==== Sys2Proof/Proofs/FlitsReceived.lean ====
section
/-! PROOF. Receiving a flit (O40): the segments of one segment time give a flit or a fatal cause (R287, R296, R297), and a flit that is
due is presented, forwarded, handed to the fabric engine or the switch, refused or dropped (R315 to R321, R334). -/

namespace Sys2Proof.Machine
open Sys2Proof.Stmt

/-! ### Segments with at most one failed lane (R287, R296) -/

/-- The segments `segs` reach port `i` with lane `bad` failing R287 (none where every lane passes) and one tag on the others. -/
structure Arrival (x : Port) (segs : List Seg) (bad : Option Nat) (tag : BitVec 16) : Prop where
  passes : ∀ k, k < 9 → segPasses (x.lane segs k) = decide (bad ≠ some k)
  bound : ∀ k, bad = some k → k < 9
  tags : ∀ k, k < 9 → bad ≠ some k → (x.lane segs k).tag = tag

section
variable {x : Port} {segs : List Seg} {bad : Option Nat} {tag : BitVec 16} (h : Arrival x segs bad tag)
include h

theorem Arrival.failing : (List.range 9).filter (fun k => !segPasses (x.lane segs k)) = bad.toList := by
  have hone : ∀ b, b < 9 → (List.range 9).filter (fun k => decide (b = k)) = [b] := by decide
  have hfail : ∀ k ∈ List.range 9, (!segPasses (x.lane segs k)) = decide (bad = some k) := fun k hk => by
    rw [h.passes k (List.mem_range.1 hk)]; simp
  rw [List.filter_congr hfail]
  cases hbad : bad with
  | none => simp
  | some b => simpa using hone b (h.bound b hbad)

theorem Arrival.tag_of_mem {k : Nat} (hk : k ∈ (List.range 9).filter (fun k => !bad.toList.contains k)) : (x.lane segs k).tag = tag := by
  obtain ⟨hrange, hgood⟩ := List.mem_filter.1 hk
  refine h.tags k (List.mem_range.1 hrange) ?_
  rintro rfl
  simp at hgood

/-- Some lane passes: the tag is taken from it. -/
theorem Arrival.passing : ∃ g rest, (List.range 9).filter (fun k => !bad.toList.contains k) = g :: rest ∧ (x.lane segs g).tag = tag := by
  obtain ⟨k, hk, hbad⟩ : ∃ k, k < 9 ∧ bad ≠ some k := by
    by_cases h0 : bad = some 0
    · exact ⟨1, by omega, by simp [h0]⟩
    · exact ⟨0, by omega, h0⟩
  have hmem : k ∈ (List.range 9).filter (fun k => !bad.toList.contains k) := by simp [hk, hbad]
  cases hlist : (List.range 9).filter (fun k => !bad.toList.contains k) with
  | nil => exact absurd (hlist ▸ hmem) List.not_mem_nil
  | cons g rest => exact ⟨g, rest, rfl, h.tag_of_mem (hlist ▸ List.mem_cons_self)⟩

theorem Arrival.one_tag :
    (List.range 9).any (fun k => !bad.toList.contains k && decide ((x.lane segs k).tag.toNat ≠ tag.toNat)) = false := by
  refine List.any_eq_false.2 fun k hk hne => ?_
  obtain ⟨hgood, htag⟩ := Bool.and_eq_true_iff.1 hne
  exact of_decide_eq_true htag (congrArg BitVec.toNat (h.tag_of_mem (List.mem_filter.2 ⟨hk, hgood⟩)))

end

/-! ### The flit that they give (R296, R304, R306) -/

section
variable {s : State} {i : Nat}

/-- A flight within its guard and its hold leaves the port UP (R306). -/
theorem LinkJudged.waterMarks {u : State} (h : LinkJudged s u i) {fl b : Nat} (hguard : fl < 8 * ((s.port i).latRx - 8) + 48)
    (hhold : 8 * b < fl + 768) (hflight : fl ≤ 8 * (s.port i).latRx) (tag n : Nat) : LinkJudged s (u.waterMarks i fl b tag n) i := by
  rw [← h.port.latRx] at hguard hflight
  have hg : ¬48 ≤ fl - 8 * ((u.port i).latRx - 8) := by omega
  have hh : ¬768 ≤ 8 * b - fl := by omega
  have hlate : ¬8 * (u.port i).latRx < fl := by omega
  have hearly : ¬1024 < 8 * b - fl := by omega
  simp only [State.waterMarks, if_neg hg, if_neg hh, if_neg hlate, if_neg hearly, if_neg (not_or.2 ⟨hg, hh⟩)]
  exact h.onPort fun _ => rfl

theorem State.hold_waits {n : Nat} (hn : n < 384) (hup : (s.port i).st = .up) (b back : Nat) (fl : Flit) :
    s.hold i n b back fl = s.onPort i (fun y => { y with inbox := y.inbox ++
      [{ due := 1024 * (s.frm - back) + attach n + b, frm := s.frm - back, slot := n, flit := fl }] }) := by
  have hslot : n ≠ 384 := by omega
  simp [State.hold, hslot, hup]

/-- The state in which the segments of one segment time have been counted, and the lanes of `bad` judged failed. -/
def State.segsJudged (s : State) (i : Nat) (segs : List Seg) (bad : List Nat) : State :=
  bad.foldl (fun s k => s.badSegment i k)
    (s.count (locPort i) 0x308 ((List.range 9).foldl (fun n k => n + segFixed ((s.port i).lane segs k)) 0))

/-- A failed data lane is rebuilt, and the rebuild counted (R297). -/
def State.rebuildCounted (s : State) (i : Nat) (bad : Option Nat) : State :=
  if bad.toList.any (fun k => decide (k < 8)) then
    (s.onPort i (fun y => { y with rebuilt := y.rebuilt + 1 })).count (locPort i) 0x307 1
  else s

/-- What a received flit of type `typ` in slot `n` counts and spends. -/
def State.arrivalCounted (s : State) (i n typ : Nat) : State :=
  match rxEvent typ with
  | none => s
  | some e => if typ = 0 then s.count (locPort i) e 1 else (s.count (locPort i) e 1).spend 15 (s.layerOf i 6 n) 1

theorem linkJudged_segsJudged (s : State) (i : Nat) (segs : List Seg) (bad : List Nat) : LinkJudged s (s.segsJudged i segs bad) i :=
  ((LinkJudged.refl s i).count ..).badSegments _

theorem LinkJudged.rebuildCounted {u : State} (h : LinkJudged s u i) (bad : Option Nat) : LinkJudged s (u.rebuildCounted i bad) i := by
  unfold State.rebuildCounted
  split
  · refine LinkJudged.count (h.onPort fun _ => ?_) ..
    rfl
  · exact h

theorem LinkJudged.arrivalCounted {u : State} (h : LinkJudged s u i) (n typ : Nat) : LinkJudged s (u.arrivalCounted i n typ) i := by
  unfold State.arrivalCounted
  split
  · exact h
  · split
    · exact h.count ..
    · exact (h.count ..).spend ..

/-- The budget of inbound slot `n` of port `i`: that of the partition that holds it, LAT without one (R304). -/
def State.inBudget (s : State) (i n : Nat) : Nat :=
  match s.slotHolder i 6 n with
  | none => (s.port i).latRx
  | some p => s.budgetOf p i 1

section
variable {segs : List Seg} {bad : Option Nat} {tag : BitVec 16} {fl back n : Nat} (hup : (s.port i).st = .up)
  (h : Arrival (s.port i) segs bad tag) (htype : tag.toNat / 2 ^ 13 ≤ 3) (hchk : tag.toNat % 4096 < 3072)
  (hn : n = tag.toNat % 4096 % 384) (hback : s.expected i n (s.inBudget i n) fl (tag.toNat % 4096 / 384) = some back)
include hup h htype hchk hn hback

/-- A flit that passes R296 in its slot's segment time is held until its delivery unless its flight takes the port DOWN. -/
theorem execFlitReceive_of_arrival : execFlitReceive i segs fl s =
    let u := ((s.segsJudged i segs bad.toList).rebuildCounted i bad).waterMarks i fl (s.inBudget i n) tag.toNat n
    if (u.port i).st = .down then .next u
    else .next ((u.arrivalCounted i n (tag.toNat / 2 ^ 13)).hold i n (s.inBudget i n) back
      (flitOf (tag.toNat / 2 ^ 13) (bit tag.toNat 12) (tag.toNat % 4096) ((List.range 8).map (paysOf (s.port i) segs bad)))) := by
  obtain ⟨g, rest, hpass, htag⟩ := h.passing
  have hslots : ¬3072 ≤ tag.toNat % 4096 := by omega
  have hlow : ¬3080 ≤ tag.toNat % 4096 := by omega
  have hdata : ¬tag.toNat % 4096 % 384 = 384 := by omega
  have hfill : ¬tag.toNat / 2 ^ 13 = 5 := by omega
  have halign : ¬tag.toNat / 2 ^ 13 = 6 := by omega
  have hfew : ¬2 ≤ bad.toList.length := by cases bad <;> simp
  have hlive : ¬((s.port i).st ≠ .up ∧ (s.port i).st ≠ .fenced ∧ (s.port i).st ≠ .calibrating) := fun hx => hx.1 hup
  subst hn
  unfold execFlitReceive
  rcases hholder : s.slotHolder i 6 (tag.toNat % 4096 % 384) with _ | p
  all_goals
    simp only [State.inBudget, hholder] at hback
    simp only [State.inBudget, if_neg hlive, h.failing, hpass, htag, if_neg hslots, if_neg hlow, if_neg hdata, if_neg hfill,
      if_neg halign, if_neg hfew, h.one_tag, Bool.false_eq_true, if_false, hholder, hback, rebuilt_pay]
    rfl

end

/-- The flit that segments with lane `bad` failed and tag `tag` give, as it waits for its delivery (R304). -/
def State.heldFlit (s : State) (i : Nat) (segs : List Seg) (bad : Option Nat) (tag : BitVec 16) (n b back : Nat) : RxFlit :=
  { due := 1024 * (s.frm - back) + attach n + b, frm := s.frm - back, slot := n
    flit := flitOf (tag.toNat / 2 ^ 13) (bit tag.toNat 12) (tag.toNat % 4096) ((List.range 8).map (paysOf (s.port i) segs bad)) }

/-- A flit within its flight limits waits for its delivery, a failed lane rebuilt, and nothing is raised. -/
theorem flitReceive_waits {segs : List Seg} {bad : Option Nat} {tag : BitVec 16} {fl b back n : Nat} (hup : (s.port i).st = .up)
    (h : Arrival (s.port i) segs bad tag) (htype : tag.toNat / 2 ^ 13 ≤ 3) (hchk : tag.toNat % 4096 < 3072)
    (hn : n = tag.toNat % 4096 % 384) (hback : s.expected i n b fl (tag.toNat % 4096 / 384) = some back) (hb : b = s.inBudget i n)
    (hguard : fl < 8 * ((s.port i).latRx - 8) + 48) (hhold : 8 * b < fl + 768) (hflight : fl ≤ 8 * (s.port i).latRx) :
    ∃ u, LinkJudged s u i ∧ exec (.flitReceive i segs fl) s = .next (u.onPort i (fun y =>
      { y with inbox := y.inbox ++ [s.heldFlit i segs bad tag n b back] })) := by
  subst hb
  have hu : LinkJudged s (((s.segsJudged i segs bad.toList).rebuildCounted i bad).waterMarks i fl (s.inBudget i n) tag.toNat n) i :=
    ((linkJudged_segsJudged s i segs bad.toList).rebuildCounted bad).waterMarks hguard hhold hflight tag.toNat n
  have hv := hu.arrivalCounted n (tag.toNat / 2 ^ 13)
  have hdown : ¬((((s.segsJudged i segs bad.toList).rebuildCounted i bad).waterMarks i fl (s.inBudget i n) tag.toNat n).port i).st = .down := by
    rw [hu.port.st, hup]; decide
  refine ⟨_, hv, ?_⟩
  show execFlitReceive i segs fl s = _
  rw [execFlitReceive_of_arrival hup h htype hchk hn hback]
  dsimp only
  rw [if_neg hdown, State.hold_waits (by omega) (hv.port.st.trans hup), hv.only.frm]
  rfl

/-- Two failed lanes of one flit are a fatal cause (R296). -/
theorem flitReceive_fails {segs : List Seg} {fl j k : Nat} (hlive : PortLive (s.port i)) (hjk : j < k) (hk : k < 9)
    (hj : segPasses ((s.port i).lane segs j) = false) (hkbad : segPasses ((s.port i).lane segs k) = false) :
    ∃ t, exec (.flitReceive i segs fl) s = .next t ∧ LinkFailed s t i 0x71 := by
  have htwo : 2 ≤ ((List.range 9).filter (fun k => !segPasses ((s.port i).lane segs k))).length :=
    two_le_length_of_mem (List.mem_filter.2 ⟨List.mem_range.2 (hjk.trans hk), by rw [hj]; rfl⟩)
      (List.mem_filter.2 ⟨List.mem_range.2 hk, by rw [hkbad]; rfl⟩) (Nat.ne_of_lt hjk)
  have hu := linkJudged_segsJudged s i segs ((List.range 9).filter (fun k => !segPasses ((s.port i).lane segs k)))
  show ∃ t, execFlitReceive i segs fl s = .next t ∧ _
  unfold execFlitReceive
  dsimp only
  rw [if_neg (not_quiet_of_portLive hlive)]
  split
  · exact ⟨_, rfl, linkFailed_linkFatal hu.only ..⟩
  · rw [if_pos htwo]
    exact ⟨_, rfl, linkFailed_linkFatal hu.only ..⟩

end

/-! ### Forwarding (R320) -/

/-- The copies of a delivered flit that wait at port `k` for launch: one if `mask` names the port. -/
def fwdCopies (now i mask : Nat) (f : RxFlit) (k : Nat) : List FwdFlit :=
  if bit mask k then [{ due := now + 60, port := i, slot := f.slot, flit := f.flit }] else []

/-- Launch a copy of a delivered flit on port `k` if `mask` names it. -/
def State.forwardTo (s : State) (i mask : Nat) (f : RxFlit) (k : Nat) : State :=
  if bit mask k then s.onPort k (fun x => { x with fwd := x.fwd ++ [{ due := s.cycle + 60, port := i, slot := f.slot, flit := f.flit }] })
  else s

theorem State.forwardTo_frame (s : State) (i mask : Nat) (f : RxFlit) (k : Nat) :
    s.forwardTo i mask f k = { s with ports := (s.forwardTo i mask f k).ports } := by
  unfold State.forwardTo
  split <;> rfl

theorem State.forwardTo_port_ne (s : State) (i mask : Nat) (f : RxFlit) {j k : Nat} (hk : k ≠ j) :
    (s.forwardTo i mask f j).port k = s.port k := by
  unfold State.forwardTo
  split
  · exact State.onPort_port_ne _ _ hk
  · rfl

theorem State.forwardTo_port_same (s : State) (i mask : Nat) (f : RxFlit) (k : Nat) :
    (s.forwardTo i mask f k).port k = { s.port k with fwd := (s.port k).fwd ++ fwdCopies s.cycle i mask f k } := by
  unfold State.forwardTo fwdCopies
  split
  · exact State.onPort_port_same ..
  · rw [List.append_nil]

/-- What the first `n` ports hold for launch after a flit has been forwarded by `mask`; nothing but ports changes. -/
theorem foldl_forwardTo (s : State) (i mask : Nat) (f : RxFlit) (n : Nat) :
    let t := (List.range n).foldl (fun s k => s.forwardTo i mask f k) s
    t = { s with ports := t.ports } ∧ (∀ k, k < n → t.port k = { s.port k with fwd := (s.port k).fwd ++ fwdCopies s.cycle i mask f k }) ∧
      ∀ k, n ≤ k → t.port k = s.port k := by
  induction n with
  | zero => exact ⟨rfl, fun k hk => absurd hk (Nat.not_lt_zero k), fun _ _ => rfl⟩
  | succ n ih =>
    intro t
    have ht : t = ((List.range n).foldl (fun s k => s.forwardTo i mask f k) s).forwardTo i mask f n := by
      simp only [t, List.range_succ, List.foldl_append, List.foldl_cons, List.foldl_nil]
    obtain ⟨hframe, hdone, hrest⟩ := ih
    generalize (List.range n).foldl (fun s k => s.forwardTo i mask f k) s = u at ht hframe hdone hrest
    have hcycle : u.cycle = s.cycle := by rw [hframe]
    rw [ht]
    refine ⟨by rw [State.forwardTo_frame, hframe], fun k hk => ?_, fun k hk => ?_⟩
    · rcases Nat.lt_succ_iff_lt_or_eq.1 hk with hlow | rfl
      · rw [State.forwardTo_port_ne _ _ _ _ (Nat.ne_of_lt hlow), hdone k hlow]
      · rw [State.forwardTo_port_same, hrest k (Nat.le_refl k), hcycle]
    · rw [State.forwardTo_port_ne _ _ _ _ (Nat.ne_of_gt hk), hrest k (Nat.le_of_succ_le hk)]

theorem State.forward_frame (s : State) (i mask : Nat) (f : RxFlit) : s.forward i mask f = { s with ports := (s.forward i mask f).ports } :=
  (foldl_forwardTo s i mask f 12).1

theorem State.forward_port (s : State) (i mask : Nat) (f : RxFlit) {k : Nat} (hk : k < 12) :
    (s.forward i mask f).port k = { s.port k with fwd := (s.port k).fwd ++ fwdCopies s.cycle i mask f k } :=
  (foldl_forwardTo s i mask f 12).2.1 k hk

theorem State.forward_inbox (s : State) (i mask : Nat) (f : RxFlit) (k : Nat) : ((s.forward i mask f).port k).inbox = (s.port k).inbox := by
  rcases Nat.lt_or_ge k 12 with hk | hk
  · rw [State.forward_port _ _ _ _ hk]
  · rw [show (s.forward i mask f).port k = s.port k from (foldl_forwardTo s i mask f 12).2.2 k hk]

/-! ### A flit is delivered (R315 to R321) -/

section
variable {s : State} {i : Nat}

theorem State.onPort_congr {f g : Port → Port} (h : f (s.port i) = g (s.port i)) : s.onPort i f = s.onPort i g := by
  have hput : put Port.zero s.ports i (f (s.port i)) = put Port.zero s.ports i (g (s.port i)) := by rw [h]
  exact congrArg (fun ports => { s with ports }) hput

/-- The state in which the one flit that was waiting at port `i` has been taken. -/
def State.inboxTaken (s : State) (i : Nat) : State := s.onPort i (fun x => { x with inbox := [] })

theorem State.inboxTaken_of_single {f : RxFlit} (hinbox : (s.port i).inbox = [f]) :
    s.onPort i (fun x => { x with inbox := x.inbox.filter (fun g => decide (g ≠ f)) }) = s.inboxTaken i :=
  State.onPort_congr (by simp [hinbox])

theorem OnlyLink.inboxTaken (s : State) (i : Nat) : OnlyLink s (s.inboxTaken i) i := (OnlyLink.refl s i).onPort _

theorem State.inboxTaken_port (s : State) (i k : Nat) : ((s.inboxTaken i).port k).fwd = (s.port k).fwd ∧
    ((s.inboxTaken i).port k).fwdDyn = (s.port k).fwdDyn ∧ ((s.inboxTaken i).port i).inbox = [] := by
  by_cases hk : k = i
  · subst hk
    rw [State.inboxTaken, State.onPort_port_same]
    exact ⟨rfl, rfl, rfl⟩
  · rw [State.inboxTaken, State.onPort_port_ne _ _ hk, State.onPort_port_same]
    exact ⟨rfl, rfl, rfl⟩

section
variable {f : RxFlit} (hinbox : (s.port i).inbox = [f]) (hdue : f.due ≤ s.cycle) (hup : (s.port i).st = .up) (htwin : i ≠ 10)
include hinbox hdue hup htwin

/-- A flit that is due in a slot of a running partition is delivered there. -/
theorem exec_flitDeliver_running {p : Nat} (hholder : s.slotHolder i 6 f.slot = some p) (hrun : (s.part p).st = .running) :
    exec (.flitDeliver i .ok) s = .next ((s.inboxTaken i).deliverIn i p .ok f) := by
  have hnow : (s.port i).inbox.find? (fun f => decide (f.due ≤ s.cycle)) = some f := by simp [hinbox, hdue]
  have htw : ¬(i = 10 ∧ f.flit.typ = 1) := fun h => htwin h.1
  have hruns : s.running p = true := decide_eq_true hrun
  show execFlitDeliver i .ok s = _
  simp only [execFlitDeliver, hnow, if_neg (not_not_intro hup), if_neg htw, State.inboxTaken_of_single hinbox, hholder, hruns, if_true]
  rfl

/-- A flit that is due in a slot that nobody uses is dropped and counted. -/
theorem exec_flitDeliver_unheld (hholder : s.slotHolder i 6 f.slot = none) (hboot : s.bootSlot i f.slot = none)
    (htyp : f.flit.typ ≠ 0) : exec (.flitDeliver i .ok) s = .next ((s.inboxTaken i).strayFlit i) := by
  have hnow : (s.port i).inbox.find? (fun f => decide (f.due ≤ s.cycle)) = some f := by simp [hinbox, hdue]
  have htw : ¬(i = 10 ∧ f.flit.typ = 1) := fun h => htwin h.1
  show execFlitDeliver i .ok s = _
  simp only [execFlitDeliver, hnow, if_neg (not_not_intro hup), if_neg htw, State.inboxTaken_of_single hinbox, hholder, hboot, if_neg htyp]
  rfl

end

section
variable {p : Nat} {f : RxFlit} {row : BitVec 32}

/-- A plan flit, or its lull, in a slot of class 1 is presented if the row says so, and forwarded (R316, R320). -/
theorem State.deliverIn_plan (hrow : (s.part p).portRow i 1 f.slot ((s.part p).planTime / 1024 + f.frm - s.frm)
    ((s.part p).planTime / 1024) f.flit.epoch = some row) (hclass : rowClass row = 1) (htyp : f.flit.typ ≤ 1) :
    s.deliverIn i p .ok f = (if row.getLsbD 28 ∧ f.flit.typ = 1 then s.present i p f.flit else s).forward i (bits row.toNat 16 12) f := by
  rcases Nat.le_one_iff_eq_zero_or_eq_one.1 htyp with h0 | h1
  · simp [State.deliverIn, hrow, State.readPortRow, hclass, h0]
  · simp [State.deliverIn, hrow, State.readPortRow, hclass, h1]

/-- Another type in a slot of class 1 is a fault of the routing (R316). -/
theorem State.deliverIn_misfit (hrow : (s.part p).portRow i 1 f.slot ((s.part p).planTime / 1024 + f.frm - s.frm)
    ((s.part p).planTime / 1024) f.flit.epoch = some row) (hclass : rowClass row = 1) (htyp : 1 < f.flit.typ) :
    s.deliverIn i p .ok f = s.routeFault i p 0x80 f := by
  have h0 : f.flit.typ ≠ 0 := by omega
  have h1 : f.flit.typ ≠ 1 := by omega
  simp [State.deliverIn, hrow, State.readPortRow, hclass, h0, h1]

/-- A plan flit whose EPOCH no version has is a fault of the routing (R319). -/
theorem State.deliverIn_retired (hrow : (s.part p).portRow i 1 f.slot ((s.part p).planTime / 1024 + f.frm - s.frm)
    ((s.part p).planTime / 1024) f.flit.epoch = none) (htyp : f.flit.typ = 1) :
    s.deliverIn i p .ok f = s.routeFault i p 0x81 f := by
  simp [State.deliverIn, hrow, htyp]

/-- A dynamic flit in a slot of its class arrives as one (R317). -/
theorem State.deliverIn_dynamic (hrow : (s.part p).portRow i 1 f.slot ((s.part p).planTime / 1024 + f.frm - s.frm)
    ((s.part p).planTime / 1024) f.flit.epoch = some row) {c : Nat} (hclass : rowClass row = c) (hc : c = 2 ∨ c = 3)
    (htyp : f.flit.typ = c) : s.deliverIn i p .ok f = s.dynArrive i p f.flit := by
  rcases hc with rfl | rfl
  · simp [State.deliverIn, hrow, State.readPortRow, hclass, htyp]
  · simp [State.deliverIn, hrow, State.readPortRow, hclass, htyp]

/-- A dynamic flit of layer `p` that has arrived, ready from cycle `due` with `hops` hops behind it; it keeps its EPOCH (R317). -/
def arrivedFlit (fl : Flit) (p due hops : Nat) : DynFlit :=
  { due, lay := p, cls := fl.typ, epoch := some fl.epoch, hdr := { hdrOf fl.lo with hops }, line := fl.hi }

/-- A dynamic flit for the own rank enters the fabric engine, another the switch, one hop on (R323, R324). -/
theorem State.dynArrive_running (hrun : (s.part p).st = .running) (fl : Flit) : s.dynArrive i p fl =
    if (hdrOf fl.lo).dst = (s.part p).rank then
      { s with fab := { s.fab with inq := s.fab.inq ++ [(i, arrivedFlit fl p s.cycle (hdrOf fl.lo).hops)] } }
    else s.onPort i (fun x => { x with fwdDyn := x.fwdDyn ++ [arrivedFlit fl p (s.cycle + 60) ((hdrOf fl.lo).hops + 1)] }) := by
  have hactive : (s.part p).active? = true := decide_eq_true (.inr hrun)
  simp only [State.dynArrive, hactive, if_true]
  rfl

theorem raisedOne_routeFault {u : State} (hu : OnlyLink s u i) (code : Nat) :
    RaisedOne s (u.routeFault i p code f) .job code (s.scope (fun q => decide (q = p))) :=
  ⟨_, congrArg (· ++ _) hu.raised, rfl, rfl, hu.scope _, hu.cycle⟩

/-- A plan flit presented in cycle `now` is two beats on A0 and A1 of the port's block. -/
def Block.presented (x : Block) (now : Nat) (sb : Sb) (fl : Flit) : Block :=
  { x with rin := x.rin ++
      [{ cyc := now, port := 12, beat := { sb, data := fl.lo } }, { cyc := now, port := 13, beat := { sb, data := fl.hi } }] }

theorem State.present_eq (s : State) (i p : Nat) (fl : Flit) : s.present i p fl = (s.onBlock (portBlock i) (fun b => b.presented s.cycle
    { sbOf (Config.freeBits s.freeCtr % 2 ^ 64) with part := BitVec.ofNat 4 p, kind := 1 } fl)).fresh := rfl

theorem State.fresh_block (s : State) (k : Nat) : s.fresh.block k = s.block k := rfl

/-- A plan flit is presented in the port's block where `c` says so, and nothing else changes but the free values. -/
theorem State.present_if (s : State) (i p : Nat) (fl : Flit) (c : Prop) [Decidable c] :
    let t := if c then s.present i p fl else s
    ∃ sb : Sb, sb.part = BitVec.ofNat 4 p ∧ sb.kind = 1 ∧ t = { s with blocks := t.blocks, freeCtr := t.freeCtr } ∧
      (∀ k, k ≠ portBlock i → t.block k = s.block k) ∧ (t.block (portBlock i)).rin = (s.block (portBlock i)).rin ++ (if c then
        [{ cyc := s.cycle, port := 12, beat := { sb, data := fl.lo } }, { cyc := s.cycle, port := 13, beat := { sb, data := fl.hi } }]
        else []) := by
  refine ⟨{ sbOf (Config.freeBits s.freeCtr % 2 ^ 64) with part := BitVec.ofNat 4 p, kind := 1 }, rfl, rfl, ?_⟩
  by_cases hc : c
  · rw [if_pos hc, if_pos hc, State.present_eq]
    refine ⟨rfl, fun k hk => ?_, ?_⟩
    · rw [State.fresh_block, State.onBlock_block_ne _ _ hk]
    · rw [State.fresh_block, State.onBlock_block_same]; rfl
  · rw [if_neg hc, if_neg hc, List.append_nil]
    exact ⟨rfl, fun _ _ => rfl, rfl⟩

theorem OnlyLink.strayFlit {u : State} (h : OnlyLink s u i) : OnlyLink s (u.strayFlit i) i := (h.onPort _).count ..

end

end

/-- Settles O40: received segments give a flit or a fatal cause, and a flit that is due goes where its slot's row says. -/
theorem flitsAreReceived : Obligations.FlitsAreReceived := by
  refine ⟨?_, ?_, ?_⟩
  · intro i n fl b back s segs bad tag chk seg hup hpass hbound htags htype hchk hn hback _ hb hguard hhold hflight
    have h : Arrival (s.port i) segs bad tag := ⟨hpass, hbound, htags⟩
    obtain ⟨u, hu, hexec⟩ := flitReceive_waits hup h htype hchk hn hback hb hguard hhold hflight
    refine ⟨_, s.heldFlit i segs bad tag n b back, hexec, hu.only.raised, ?_, ?_, hu.only.parts, hu.only.blocks,
      ?_, rfl, rfl, rfl, rfl, ?_, rfl, ?_, ?_⟩
    · rw [State.onPort_port_same]; exact hu.port.st.trans hup
    · exact (hu.only.onPort _).2
    · rw [State.onPort_port_same, hu.port.inbox]
    · exact bit_eq_testBit ..
    · exact fun k hk => flitOf_lo _ _ _ _ hk
    · exact fun k hk => flitOf_hi _ _ _ _ hk
  · rintro i fl s segs hlive ⟨j, k, hjk, hk, hj, hkbad⟩
    exact flitReceive_fails hlive hjk hk hj hkbad
  · intro i s f hinbox hdue hup htwin
    obtain hu := OnlyLink.inboxTaken s i
    obtain ⟨-, hfwdDyn, hempty⟩ := s.inboxTaken_port i i
    refine ⟨fun p hholder hrun => ?_, fun hholder hboot htyp => ?_⟩
    · have hexec := exec_flitDeliver_running hinbox hdue hup htwin hholder hrun
      refine ⟨fun row hrow hclass => ⟨fun htyp => ?_, fun htyp => ?_⟩, fun hrow htyp => ?_, fun row c hrow hclass hc htyp => ?_⟩
      · rw [State.deliverIn_plan (s := s.inboxTaken i) hrow hclass htyp] at hexec
        obtain ⟨sb, hpart, hkind, hframe, hblocks, hrin⟩ := (s.inboxTaken i).present_if i p f.flit (row.getLsbD 28 ∧ f.flit.typ = 1)
        generalize (if row.getLsbD 28 ∧ f.flit.typ = 1 then (s.inboxTaken i).present i p f.flit else s.inboxTaken i) = v at *
        have hports : ∀ k, v.port k = (s.inboxTaken i).port k := fun k => by rw [hframe]; rfl
        have hcycle : v.cycle = s.cycle := by rw [hframe]; rfl
        have hfwd := v.forward_frame i (bits row.toNat 16 12) f
        have hblock : ∀ k, (v.forward i (bits row.toNat 16 12) f).block k = v.block k := fun k => by rw [hfwd]; rfl
        refine ⟨_, sb, hexec, ?_, ?_, hpart, hkind, fun k hk => ?_, ?_, fun k hk => ?_⟩
        · rw [hfwd, hframe]; rfl
        · rw [State.forward_inbox, hports]; exact hempty
        · rw [hblock]; exact hblocks k hk
        · rw [hblock]; exact hrin
        · rw [State.forward_port _ _ _ _ hk, hports, hcycle, (s.inboxTaken_port i k).1, fwdCopies, bit_bits _ _ _ hk]; rfl
      · rw [State.deliverIn_misfit (s := s.inboxTaken i) hrow hclass htyp] at hexec
        exact ⟨_, hexec, rfl, raisedOne_routeFault hu 0x80⟩
      · rw [State.deliverIn_retired (s := s.inboxTaken i) hrow htyp] at hexec
        exact ⟨_, hexec, rfl, raisedOne_routeFault hu 0x81⟩
      · rw [State.deliverIn_dynamic (s := s.inboxTaken i) hrow hclass hc htyp, State.dynArrive_running (s := s.inboxTaken i) hrun] at hexec
        split at hexec
        next hown => exact ⟨_, arrivedFlit f.flit p s.cycle (hdrOf f.flit.lo).hops, hexec, rfl, rfl, hempty, rfl, htyp, rfl, rfl,
          fun _ => ⟨rfl, rfl, hfwdDyn⟩, fun hne => absurd hown hne⟩
        next hother =>
          refine ⟨_, arrivedFlit f.flit p (s.cycle + 60) ((hdrOf f.flit.lo).hops + 1), hexec, rfl, rfl, ?_, rfl, htyp, rfl, rfl,
            fun hown => absurd hown hother, fun _ => ⟨rfl, rfl, rfl, ?_⟩⟩
          · rw [State.onPort_port_same]; exact hempty
          · rw [State.onPort_port_same, hfwdDyn]; rfl
    · have hv := hu.strayFlit
      refine ⟨_, exec_flitDeliver_unheld hinbox hdue hup htwin hholder hboot htyp, hv.raised, ?_, hv.2, hv.parts, hv.blocks, hv.cells⟩
      rw [State.strayFlit, State.count_port, State.onPort_port_same, State.inboxTaken, State.onPort_port_same]

end Sys2Proof.Machine
end

