-- ==== Sys2Proof/Proofs/LanesAndTraining.lean ====
section
/-! PROOF. Lanes and training (O41): the spare takes over a failing lane, training and retraining set LAT, and a lost link takes its
port DOWN (R298 to R303, R307 to R309, R311). -/

namespace Sys2Proof.Machine
open Sys2Proof.Stmt

/-! ### Masks of lanes and partitions -/

theorem nodup_eraseDups (l : List Nat) : l.eraseDups.Nodup := by
  match l with
  | [] => exact List.nodup_nil
  | a :: l =>
    rw [List.eraseDups_cons, List.nodup_cons, List.mem_eraseDups]
    exact ⟨fun h => by simp at h, nodup_eraseDups _⟩
  termination_by l.length
  decreasing_by exact Nat.lt_succ_of_le (List.length_filter_le ..)

/-- A number built of distinct powers of two has the bits listed. -/
theorem testBit_foldl_two_pow {l : List Nat} (hl : l.Nodup) (k : Nat) :
    (l.foldl (fun a j => a + 2 ^ j) 0).testBit k = decide (k ∈ l) := by
  have hsum : l.foldl (fun a j => a + 2 ^ j) 0 = ∑ j ∈ l.toFinset, 2 ^ j := by
    rw [List.sum_toFinset _ hl, List.sum_eq_foldl, List.foldl_map]
  have hmem : k ∈ (∑ j ∈ l.toFinset, 2 ^ j).bitIndices ↔ k ∈ l := by
    rw [← List.mem_toFinset, Finset.toFinset_bitIndices_sum_two_pow, List.mem_toFinset]
  rw [hsum, ← Bool.coe_iff_coe, ← Nat.mem_bitIndices, hmem, decide_eq_true_iff]

theorem getLsbD_or_two_pow {w : Nat} (b : BitVec w) {k : Nat} (hk : k < w) : (b ||| BitVec.ofNat w (2 ^ k)).getLsbD k = true := by
  rw [BitVec.getLsbD_or, BitVec.getLsbD_ofNat, Nat.testBit_two_pow_self, decide_eq_true hk, Bool.true_and, Bool.or_true]

theorem getLsbD_or_of_left {w : Nat} {b : BitVec w} (c : BitVec w) {k : Nat} (h : b.getLsbD k = true) : (b ||| c).getLsbD k = true := by
  rw [BitVec.getLsbD_or, h, Bool.true_or]

theorem getLsbD_clear_two_pow {w : Nat} (b : BitVec w) (k j : Nat) :
    (b &&& ~~~(BitVec.ofNat w (2 ^ k))).getLsbD j = (b.getLsbD j && decide (j ≠ k)) := by
  rcases Nat.lt_or_ge j w with hj | hj
  · rw [BitVec.getLsbD_and, BitVec.getLsbD_not, BitVec.getLsbD_ofNat, Nat.testBit_two_pow, decide_eq_true hj, Bool.true_and, Bool.true_and,
      ← decide_not, decide_eq_decide.2 (not_congr eq_comm)]
  · simp [BitVec.getLsbD_of_ge _ _ hj]

/-! ### The spare lane (R298 to R301) -/

section
variable {s : State} {i : Nat}

/-- From two frames before SPARE_AT the announced lane is sent on the spare as well; the lane map stays (R300). -/
theorem spareDualSend_doubles {c : CtlFlit} (hpeer : (s.port i).peer = some c) (hlane : c.spareLane ≠ 0xF) (hat : c.spareAt ≠ 0)
    (hdual : (s.port i).dual = false) (hnow : c.spareAt ≤ (s.tu.ahead 2 s.tu.grid).tf) :
    exec (.spareDualSend i) s = .next ((s.drainTx i).onPort i (fun y => { y with dual := true, spareTx := c.spareLane })) := by
  have hgo : ¬(c.spareLane = 0xF ∨ c.spareAt = 0 ∨ (s.port i).dual ∨ (s.tu.ahead 2 s.tu.grid).tf < c.spareAt) := by
    rw [hdual]; simp [hlane, hat, hnow]
  show execSpareDualSend i s = _
  simp only [execSpareDualSend, hpeer, if_neg hgo]
  rfl

theorem Port.laneSegs_getElem? (x : Port) (f : Flit) {j d : Nat} (hj : x.lanesTx[j]? = some d) :
    (x.laneSegs f)[j]? = some (if d < 9 then some (segBits (flitTag f) (lanePay f d))
      else if x.dual then some (segBits (flitTag f) (lanePay f x.spareTx)) else none) := by
  rw [Port.laneSegs, List.getElem?_map, hj]
  rfl

/-- At SPARE_AT the lane and the spare change places in the receive map (R300). -/
theorem laneSpared_swaps {k : Nat} (hlane : (s.port i).spareLane = k) (hk : k ≠ 0xF) (hat : (s.port i).spareAt ≤ s.tf) :
    exec (.laneSpared i) s = .next ((s.onPort i (fun y =>
      { y with lanesRx := swapSpare y.lanesRx k, spareRx := k, spareLane := 0xF, spareAt := 0, spareOk := false, spareSeen := s.frm
               badRx := y.badRx &&& ~~~(BitVec.ofNat 9 (2 ^ k)), failAt := put [] y.failAt k [] })).modEvent 0xC4 (locPort i) i
        (k + (s.port i).spareAt * 2 ^ 4)) := by
  subst hlane
  exact if_neg (not_or.2 ⟨hk, Nat.not_lt.2 hat⟩)

theorem State.modEvent_port (s : State) (code unit d0 d1 k : Nat) : (s.modEvent code unit d0 d1).port k = s.port k := rfl

/-- A segment on the spare lane that passes R287 only counts what was corrected. -/
theorem spareLaneSegment_passes {sg : Seg} (h : segPasses sg = true) :
    exec (.spareLaneSegment i sg) s = .next (s.count (locPort i) 0x308 (segFixed sg)) := if_pos h

/-- A segment on the spare lane that fails R287 clears SPARE_OK_RX (R298). -/
theorem spareLaneSegment_fails {sg : Seg} (h : segPasses sg = false) : exec (.spareLaneSegment i sg) s = .next
    (((s.count (locPort i) 0x308 (segFixed sg)).onPort i (fun y =>
      { y with badSeg := y.badSeg + 1, spareOk := false, spareSeen := s.frm })).count (locPort i) 0x306 1) :=
  if_neg (by rw [h]; decide)

/-! ### Training (R302, R303, R307) -/

/-- In the reset calibration a port that is on ends its training; the calibration set takes what it measured. -/
theorem portTraining_trains (r : TrainOut) (hphase : s.boot.phase = .calibration) (hgust : s.tu.gust = 0)
    (hoff : (s.port i).st ≠ .off) (hfailed : (s.port i).st ≠ .failed) (hup : (s.port i).st ≠ .up) :
    ∃ t, exec (.portTraining i r) s = .next t ∧ t.raised = s.raised ∧ (∀ k, k ≠ i → t.port k = s.port k) ∧
      t.port i = (s.port i).trained r s.superStart := by
  have hgo : ¬(s.boot.phase ≠ .calibration ∨ s.tu.gust ≠ 0 ∨ (s.port i).st = .off ∨ (s.port i).st = .failed ∨ (s.port i).st = .up) := by
    simp [hphase, hgust, hoff, hfailed, hup]
  refine ⟨_, if_neg hgo, ?_, fun k hk => ?_, ?_⟩
  all_goals split
  · rfl
  · rfl
  · exact State.onPort_port_ne s (fun x => x.trained r s.superStart) hk
  · exact State.onPort_port_ne s (fun x => x.trained r s.superStart) hk
  · exact State.onPort_port_same s i (fun x => x.trained r s.superStart)
  · exact State.onPort_port_same s i (fun x => x.trained r s.superStart)

theorem Port.trained_of_untrained {r : TrainOut} (h : trainOk r = false) (x : Port) (start : Nat) :
    x.trained r start = { x with st := .training } := by
  simp [Port.trained, h]

theorem Port.trained_of_long {r : TrainOut} (h : trainOk r = true) (hlat : 4095 < latOf r.storm8) (x : Port) (start : Nat) :
    x.trained r start = { x with st := .failed } := by
  simp [Port.trained, h, hlat]

theorem Port.trained_of_ok {r : TrainOut} (h : trainOk r = true) (hlat : latOf r.storm8 ≤ 4095) (x : Port) (start : Nat) :
    x.trained r start = { x.freshLanes r start with
      st := .fenced, latRx := latOf r.storm8, stormCorr := ceil8 (r.storm8 - r.quiet8), flightMax := r.storm8, fast := false } := by
  simp [Port.trained, h, Nat.not_lt.2 hlat]

/-! ### Retraining and budgets (R308, R309) -/

/-- A port that has retrained with LAT `lat`; its lanes are fresh, its transmitter begins at wall time `start`. -/
def Port.retrained (x : Port) (r : TrainOut) (start lat : Nat) : Port :=
  { x.freshLanes r start with st := .fenced, latRx := lat, flightMax := r.quiet8, fast := true }

/-- The state in which port `i` has retrained with LAT `lat`. -/
def State.linkRetrained (s : State) (i : Nat) (r : TrainOut) (lat : Nat) : State :=
  (s.onPort i (fun x => x.retrained r s.superStart lat)).fresh

theorem State.linkRetrained_port_same (s : State) (i : Nat) (r : TrainOut) (lat : Nat) :
    (s.linkRetrained i r lat).port i = (s.port i).retrained r s.superStart lat :=
  State.onPort_port_same s i (fun x => x.retrained r s.superStart lat)

theorem State.linkRetrained_port_ne (s : State) {i k : Nat} (r : TrainOut) (lat : Nat) (hk : k ≠ i) :
    (s.linkRetrained i r lat).port k = s.port k :=
  State.onPort_port_ne s (fun x => x.retrained r s.superStart lat) hk

/-- A lost link retrains from the quiet flight and the stored correction. -/
theorem exec_fastRetrain_retrains {r : TrainOut} {lat : Nat} (hst : (s.port i).st = .down ∨ (s.port i).st = .training)
    (htrain : trainOk r = true) (hlat : lat = latOf (r.quiet8 + 8 * (s.port i).stormCorr)) (hmax : lat ≤ 4095) :
    exec (.fastRetrain i r) s = .next ((s.linkRetrained i r lat).budgetCheck i) := by
  subst hlat
  have hgo : ¬((s.port i).st ≠ .down ∧ (s.port i).st ≠ .training) := by tauto
  show execFastRetrain i r s = _
  simp only [execFastRetrain, if_neg hgo, htrain, Bool.not_true, Bool.false_eq_true, if_false, if_neg (Nat.not_lt.2 hmax)]
  rfl

/-- The inbound budget of partition `p`, which has plan slots on port `i`, is below the port's LAT. -/
def State.OverBudget (s : State) (i p : Nat) : Prop :=
  ∃ b, (s.part p).budget i 1 = some b ∧ (s.part p).onPort i = true ∧ b < (s.port i).latRx

/-- LINK_BUDGET for one partition. -/
def State.budgetRaise (s : State) (i p : Nat) : State :=
  match (s.part p).budget i 1 with
  | none => s
  | some b =>
    if (s.part p).onPort i ∧ b < (s.port i).latRx then
      (s.jobFault 0x77 (s.scope (fun x => decide (x = p))) (locPort i) 0 i).onPort i (fun y =>
        { y with budgetBad := y.budgetBad ||| BitVec.ofNat 16 (2 ^ p), lastFatal := 7 })
    else s

theorem State.budgetCheck_eq (s : State) (i : Nat) : s.budgetCheck i = allParts.foldl (fun s p => s.budgetRaise i p) s := rfl

theorem State.linkRetrained_overBudget (s : State) (i : Nat) (r : TrainOut) (lat p : Nat) : (s.linkRetrained i r lat).OverBudget i p ↔
    ∃ b, (s.part p).budget i 1 = some b ∧ (s.part p).onPort i = true ∧ b < lat := by
  rw [State.OverBudget, State.linkRetrained_port_same]; rfl

theorem State.budgetRaise_of_over {p : Nat} (h : s.OverBudget i p) : s.budgetRaise i p =
    (s.jobFault 0x77 (s.scope (fun x => decide (x = p))) (locPort i) 0 i).onPort i (fun y =>
      { y with budgetBad := y.budgetBad ||| BitVec.ofNat 16 (2 ^ p), lastFatal := 7 }) := by
  obtain ⟨b, hb, hon, hlow⟩ := h
  simp only [State.budgetRaise, hb, if_pos (And.intro hon hlow)]

theorem State.budgetRaise_of_within {p : Nat} (h : ¬s.OverBudget i p) : s.budgetRaise i p = s := by
  unfold State.budgetRaise
  split
  · rfl
  next b hb => exact if_neg fun ⟨hon, hlow⟩ => h ⟨b, hb, hon, hlow⟩

/-- Between `s` and `t` budgets were checked against port `i`: only raises, and marks on the port, were added. -/
structure BudgetsChecked (s t : State) (i : Nat) : Prop where
  only : t = { s with ports := t.ports, raised := t.raised }
  others : ∀ k, k ≠ i → t.port k = s.port k
  port : t.port i = { s.port i with budgetBad := (t.port i).budgetBad, lastFatal := (t.port i).lastFatal }
  marks : ∀ p, (s.port i).budgetBad.getLsbD p = true → (t.port i).budgetBad.getLsbD p = true
  fatal : (s.port i).lastFatal = 7 → (t.port i).lastFatal = 7
  raised : ∀ r ∈ s.raised, r ∈ t.raised

theorem BudgetsChecked.refl (s : State) (i : Nat) : BudgetsChecked s s i :=
  ⟨rfl, fun _ _ => rfl, rfl, fun _ => id, id, fun _ => id⟩

theorem BudgetsChecked.trans {t u : State} (hst : BudgetsChecked s t i) (htu : BudgetsChecked t u i) : BudgetsChecked s u i where
  only := by rw [htu.only, hst.only]
  others k hk := (htu.others k hk).trans (hst.others k hk)
  port := by rw [htu.port, hst.port]
  marks p := htu.marks p ∘ hst.marks p
  fatal := htu.fatal ∘ hst.fatal
  raised r := htu.raised r ∘ hst.raised r

theorem budgetsChecked_budgetRaise (s : State) (i p : Nat) : BudgetsChecked s (s.budgetRaise i p) i := by
  by_cases h : s.OverBudget i p
  · have hport := State.onPort_port_same (s.jobFault 0x77 (s.scope (fun x => decide (x = p))) (locPort i) 0 i) i (fun y =>
      { y with budgetBad := y.budgetBad ||| BitVec.ofNat 16 (2 ^ p), lastFatal := 7 })
    rw [State.budgetRaise_of_over h]
    refine ⟨rfl, fun k hk => State.onPort_port_ne _ _ hk, ?_, fun q hq => ?_, fun _ => ?_, fun r hr => List.mem_append_left _ hr⟩
    · rw [hport]; rfl
    · rw [hport]; exact getLsbD_or_of_left _ hq
    · rw [hport]
  · rw [State.budgetRaise_of_within h]
    exact BudgetsChecked.refl s i

theorem budgetsChecked_foldl (l : List Nat) (s : State) (i : Nat) : BudgetsChecked s (l.foldl (fun s p => s.budgetRaise i p) s) i :=
  List.foldlRecOn l _ (motive := fun t => BudgetsChecked s t i) (BudgetsChecked.refl s i) fun t ht p _ =>
    ht.trans (budgetsChecked_budgetRaise t i p)

theorem BudgetsChecked.overBudget {t : State} (h : BudgetsChecked s t i) (p : Nat) : t.OverBudget i p ↔ s.OverBudget i p := by
  have hpart : t.part p = s.part p := by rw [h.only]; rfl
  have hlat : (t.port i).latRx = (s.port i).latRx := by rw [h.port]
  rw [State.OverBudget, State.OverBudget, hpart, hlat]

/-- Budgets that no LAT exceeds raise nothing. -/
theorem State.budgetCheck_of_within (h : ∀ p, p < 16 → ¬s.OverBudget i p) : s.budgetCheck i = s :=
  List.foldlRecOn allParts _ (motive := fun t => t = s) rfl fun t ht p hp => by
    rw [ht]; exact State.budgetRaise_of_within (h p (List.mem_range.1 hp))

/-- A budget that LAT exceeds is raised against its partition's job, and the partition is marked. -/
theorem budgetCheck_raises {p : Nat} (hp : p < 16) (h : s.OverBudget i p) :
    ((s.budgetCheck i).port i).budgetBad.getLsbD p = true ∧ ((s.budgetCheck i).port i).lastFatal = 7 ∧
      ∃ r ∈ (s.budgetCheck i).raised, r.cls = .job ∧ r.code = 0x77 ∧ r.parts = s.scope (fun x => decide (x = p)) := by
  obtain ⟨before, after, hsplit⟩ := List.append_of_mem (List.mem_range.2 hp)
  rw [State.budgetCheck_eq, show allParts = before ++ p :: after from hsplit, List.foldl_append, List.foldl_cons]
  have hbefore := budgetsChecked_foldl before s i
  generalize before.foldl (fun s p => s.budgetRaise i p) s = u at hbefore
  have hafter := budgetsChecked_foldl after (u.budgetRaise i p) i
  rw [State.budgetRaise_of_over ((hbefore.overBudget p).2 h)] at hafter ⊢
  have hport := State.onPort_port_same (u.jobFault 0x77 (u.scope (fun x => decide (x = p))) (locPort i) 0 i) i (fun y =>
    { y with budgetBad := y.budgetBad ||| BitVec.ofNat 16 (2 ^ p), lastFatal := 7 })
  have hscope : u.scope (fun x => decide (x = p)) = s.scope (fun x => decide (x = p)) := by rw [hbefore.only]; rfl
  refine ⟨hafter.marks p ?_, hafter.fatal ?_, _, hafter.raised _ (List.mem_append_right _ (List.mem_singleton_self _)), rfl, rfl, hscope⟩
  · rw [hport]; exact getLsbD_or_two_pow _ hp
  · rw [hport]

/-! ### A lost link (R298, R311) -/

/-- The lanes of port `i` without lock after those of `lost` have lost it. -/
def Port.lockLost (x : Port) (lost : List Nat) : BitVec 10 := x.lostLock ||| BitVec.ofNat 10 (lost.eraseDups.foldl (fun a j => a + 2 ^ j) 0)

theorem Port.lockLost_getLsbD (x : Port) {lost : List Nat} {j : Nat} (hj : j < 10) (hmem : j ∈ lost) : (x.lockLost lost).getLsbD j = true := by
  rw [Port.lockLost, BitVec.getLsbD_or, BitVec.getLsbD_ofNat, testBit_foldl_two_pow (nodup_eraseDups lost), decide_eq_true hj,
    decide_eq_true (List.mem_eraseDups.2 hmem), Bool.and_true, Bool.or_true]

/-- The number of lanes without lock. -/
def lanesLost (m : BitVec 10) : Nat := ((List.range 10).filter (fun j => m.getLsbD j)).length

theorem two_le_lanesLost (x : Port) {lost : List Nat} {j k : Nat} (hjk : j < k) (hk : k < 10) (hj : j ∈ lost) (hkmem : k ∈ lost) :
    2 ≤ lanesLost (x.lockLost lost) :=
  two_le_length_of_mem (List.mem_filter.2 ⟨List.mem_range.2 (hjk.trans hk), x.lockLost_getLsbD (hjk.trans hk) hj⟩)
    (List.mem_filter.2 ⟨List.mem_range.2 hk, x.lockLost_getLsbD hk hkmem⟩) (Nat.ne_of_lt hjk)

theorem lanesLost_single {x : Port} {j : Nat} (hnone : x.lostLock = 0) (hj : j < 10) : lanesLost (x.lockLost [j]) = 1 := by
  have hone : ∀ j, j < 10 → lanesLost (0 ||| BitVec.ofNat 10 (0 + 2 ^ j)) = 1 := by decide
  rw [Port.lockLost, hnone]
  exact hone j hj

theorem State.markLane_marks (u : State) (i : Nat) {k : Nat} (hk : k < 9) : ((u.markLane i k).port i).badRx.getLsbD k = true := by
  unfold State.markLane
  dsimp only
  split
  next h => exact h
  next =>
    split
    all_goals
      rw [State.onPort_port_same]
      exact getLsbD_or_two_pow _ hk

section
variable {lost : List Nat} {whole : Bool} (hlive : PortLive (s.port i))
include hlive

/-- A lost link, or two lanes without lock, is a fatal cause. -/
theorem linkDown_fails (h : whole = true ∨ 2 ≤ lanesLost ((s.port i).lockLost lost)) :
    ∃ t, exec (.linkDown i lost whole) s = .next t ∧ LinkFailed s t i 0x76 :=
  ⟨_, (if_neg (not_quiet_of_portLive hlive)).trans (if_pos h), linkFailed_linkFatal ((OnlyLink.refl s i).onPort _) ..⟩

/-- One lane without lock is marked failing, and the port stays (R298). -/
theorem linkDown_marks {j d : Nat} (hj : j < 10) (hnone : (s.port i).lostLock = 0) (hlane : (s.port i).lanesRx[j]? = some d) (hd : d < 9) :
    exec (.linkDown i [j] false) s = .next ((s.onPort i (fun y => { y with lostLock := (s.port i).lockLost [j] })).markLane i d) := by
  have hfew : ¬(false = true ∨ 2 ≤ lanesLost ((s.port i).lockLost [j])) := by rw [lanesLost_single hnone hj]; decide
  have hget : (s.port i).lanesRx.getD j 9 = d := by rw [List.getD_eq_getElem?_getD, hlane]; rfl
  refine (if_neg (not_quiet_of_portLive hlive)).trans ((if_neg hfew).trans ?_)
  show ok (if (s.port i).lanesRx.getD j 9 < 9 then _ else _) = _
  rw [hget, if_pos hd]
  rfl

end

end

/-- Settles O41: the spare takes over a lane, training and retraining set LAT, and a lost link fails its port. -/
theorem lanesAndTraining : Obligations.LanesAndTraining := by
  refine ⟨fun i s c hpeer hlane hat hdual hnow => ?_, fun x f j d hj => x.laneSegs_getElem? f hj, fun i k s hlane hk hk9 hat => ?_,
    fun i s => ⟨fun hlive hok hseen => ?_, fun hnot => ?_⟩, fun i sg s => ?_, fun i r s => ?_, fun i lost whole s hlive => ⟨fun hlost => ?_,
    fun j d hwhole hone hj hnone hlanes hd => ?_⟩⟩
  · have hkeeps := (s.drained_sends i).1
    refine ⟨_, spareDualSend_doubles hpeer hlane hat hdual hnow, ?_, ?_, ?_, fun k hk => ?_, rfl, rfl, rfl⟩
    · rw [State.onPort_port_same]
    · rw [State.onPort_port_same]
    · rw [State.onPort_port_same, State.drainTx_port_same, hkeeps]
    · rw [State.onPort_port_ne _ _ hk, State.drainTx_port_ne s hk]
  · refine ⟨_, laneSpared_swaps hlane hk hat, raisedOne_modEvent rfl rfl .., ?_⟩
    rw [State.modEvent_port, State.onPort_port_same]
    exact ⟨rfl, rfl, rfl, getLsbD_clear_two_pow _ k, rfl, fun j hj => (State.modEvent_port ..).trans (State.onPort_port_ne _ _ hj)⟩
  · exact if_pos ⟨hlive, by rw [hok]; rfl, hseen⟩
  · refine if_neg fun ⟨hlive, hok, hseen⟩ => ?_
    rcases hnot with h | h | h
    · exact h hlive
    · rw [h] at hok; exact absurd hok (by decide)
    · omega
  · cases hpass : segPasses sg with
    | true => exact ⟨_, spareLaneSegment_passes hpass, rfl, fun _ => rfl, fun h => absurd h (by decide)⟩
    | false =>
      refine ⟨_, spareLaneSegment_fails hpass, rfl, fun h => absurd h (by decide), fun _ => ⟨?_, fun k hk => ?_, rfl, rfl, rfl⟩⟩
      · rw [State.count_port, State.onPort_port_same]; rfl
      · rw [State.count_port, State.onPort_port_ne _ _ hk]; rfl
  · refine ⟨fun hphase hgust hoff hfailed hup => ?_, fun hnot => if_pos (hnot.imp_right .inl), fun l hst htrain hl hmax => ?_,
      fun hdown htraining => if_pos ⟨hdown, htraining⟩⟩
    · obtain ⟨t, hexec, hraised, hothers, hport⟩ := portTraining_trains r hphase hgust hoff hfailed hup
      refine ⟨t, hexec, hraised, hothers, fun hno => ?_, fun hok hmax => ?_, fun hok hlong => ?_⟩
      · rw [hport, Port.trained_of_untrained hno]
      · rw [hport, Port.trained_of_ok hok hmax]
        exact ⟨rfl, rfl, rfl, rfl, rfl, rfl⟩
      · rw [hport, Port.trained_of_long hok hlong]
    · have hdone := budgetsChecked_foldl allParts (s.linkRetrained i r l) i
      rw [← State.budgetCheck_eq] at hdone
      have hport := hdone.port
      rw [State.linkRetrained_port_same] at hport
      refine ⟨_, exec_fastRetrain_retrains hst htrain hl hmax, ?_, ?_, ?_, ?_, fun k hk => ?_, fun hwithin => ?_, fun p b hp hb hon hlow => ?_⟩
      · rw [hport]; rfl
      · rw [hport]; rfl
      · rw [hport]; rfl
      · rw [hport]; rfl
      · rw [hdone.others k hk, State.linkRetrained_port_ne _ _ _ hk]
      · rw [State.budgetCheck_of_within fun p hp h => ?_, State.linkRetrained_port_same]
        · exact ⟨rfl, rfl⟩
        · obtain ⟨b, hb, hon, hlow⟩ := (s.linkRetrained_overBudget ..).1 h
          exact absurd hlow (Nat.not_lt.2 (hwithin p b hp hb hon))
      · exact budgetCheck_raises hp ((s.linkRetrained_overBudget ..).2 ⟨b, hb, hon, hlow⟩)
  · refine linkDown_fails hlive (hlost.imp_right ?_)
    rintro ⟨j, k, hjk, hk, hj, hkmem⟩
    exact two_le_lanesLost _ hjk hk hj hkmem
  · subst hwhole hone
    have hu : LinkJudged _ _ i := (LinkJudged.refl (s.onPort i (fun y => { y with lostLock := (s.port i).lockLost [j] })) i).markLane d
    refine ⟨_, linkDown_marks hlive hj hnone hlanes hd, hu.only.raised, ?_, State.markLane_marks _ i hd, fun k hk => ?_⟩
    · rw [hu.port.st, State.onPort_port_same]
    · rw [hu.only.2 k hk, State.onPort_port_ne _ _ hk]

end Sys2Proof.Machine
end

