-- ==== Sys2Proof/Proofs/ControlFlits.lean ====
section
/-! PROOF. Control flits (O42): what a live port sends at cycle 1,023, and what a received one gives when it falls due (R291, R304,
R310, R340, R364, R365, R381, R384). -/

namespace Sys2Proof.Machine
open Sys2Proof.Stmt

section
variable {s : State} {i : Nat}

/-! ### Sending (R291, R365) -/

theorem State.ctlOut_commit (s : State) (i : Nat) {p : Nat} (hp : p < 16) :
    (s.ctlOut i).commit.getD p (false, 0) = (s.running p, (s.part p).committed.getD noStep) :=
  getD_map_range (fun p => (s.running p, (s.part p).committed.getD noStep)) (false, 0) hp

/-- A vote that the port should carry in this frame is lost: the port is not UP (R365). -/
def State.votesLost (s : State) (i : Nat) : Bool :=
  decide ((s.port i).st ≠ .up) && s.tu.votes.any (fun v => s.voteUses i s.frm v && !v.lost)

/-- The state in which the votes that port `i` should carry are lost, and VOTE_LOST is raised. -/
def State.loseVotes (s : State) (i : Nat) : State :=
  ({ s with tu := { s.tu with votes := s.tu.votes.map (fun v => if s.voteUses i s.frm v then { v with lost := true } else v) } }).jobFault
    0x95 s.timeScope (locPort i) 0 0

/-- Port `i` sends its control flit in cycle `now`, held for `lat`. -/
def State.sendCtl (u : State) (i now check lat : Nat) : State :=
  ((u.onPort i (fun y => { y with lastTx := now + 1 })).handTx i (u.holdOf 1023 lat)
    { typ := 4, epoch := false, check, lo := ctlLine (u.ctlOut i), hi := 0 }).send (.ctl i (u.holdOf 1023 lat) (u.ctlOut i))

theorem exec_controlFlitTx (hcyc : s.fcyc = 1023) (hfirst : (s.port i).lastTx ≠ s.cycle + 1) : exec (.controlFlitTx i) s =
    let u := if s.votesLost i then s.loseVotes i else s
    if (s.port i).st ≠ .up ∧ (s.port i).st ≠ .fenced ∧ (s.port i).st ≠ .calibrating then .next u
    else .next (u.sendCtl i s.cycle (3072 + s.tf % 8) (s.port i).latTx) := by
  exact if_neg (by simp [hcyc, hfirst])

/-- A control flit goes out last, behind the superframes complete by then, and nothing but the port changes. -/
theorem sendCtl_sends (u : State) (i now check lat : Nat) :
    u.sendCtl i now check lat = { u with out := (u.sendCtl i now check lat).out, ports := (u.sendCtl i now check lat).ports } ∧
    (∃ l, Superframes i l ∧ (u.sendCtl i now check lat).out = u.out ++ l ++ [.ctl i (u.holdOf 1023 lat) (u.ctlOut i)]) ∧
    ∀ k, k ≠ i → (u.sendCtl i now check lat).port k = u.port k := by
  unfold State.sendCtl
  generalize ({ typ := 4, epoch := false, check, lo := ctlLine (u.ctlOut i), hi := 0 } : Flit) = f
  generalize Sent.ctl i (u.holdOf 1023 lat) (u.ctlOut i) = m
  generalize hv : u.onPort i (fun y => { y with lastTx := now + 1 }) = v
  obtain ⟨-, ⟨l, hsuper, hout⟩, -⟩ := v.handTx_sends i (u.holdOf 1023 lat) f
  have hframe := v.handTx_frame i (u.holdOf 1023 lat) f
  have hothers := fun k (hk : k ≠ i) => v.handTx_port_ne (u.holdOf 1023 lat) f hk
  generalize v.handTx i (u.holdOf 1023 lat) f = w at hout hframe hothers
  subst hv
  exact ⟨congrArg (fun x => State.send x m) hframe, ⟨l, hsuper, congrArg (· ++ [_]) hout⟩, fun k hk =>
    (hothers k hk).trans (State.onPort_port_ne _ _ hk)⟩

/-! ### Receiving (R304, R310) -/

/-- The state in which port `i` has taken control flit `r` and keeps its fields. -/
def State.ctlHeard (s : State) (i : Nat) (r : RxCtl) : State :=
  let same := decide (((s.port i).peer.map (fun c => c.heartbeat)) = some r.ctl.heartbeat)
  (s.onPort i (fun y => { y with ctlIn := y.ctlIn.filter (fun z => decide (z ≠ r)) })).onPort i (fun y =>
    { y with peer := some r.ctl, latTx := r.ctl.latRx, inSync := decide (r.ctl.frame = (s.tu.back (s.frm - r.frm)).tf)
             hbAt := if same then y.hbAt else s.frm, hbLost := y.hbLost && same })

/-- The state in which the votes, rotations and commits of control flit `r` have been taken (R364, R381, R392). -/
def State.ctlTaken (s : State) (i : Nat) (r : RxCtl) : State :=
  ((((s.ctlHeard i r).takeVote i r.frm r.ctl).takeRot i r.frm r.ctl).takeCommit i (s.frm - r.frm) r.ctl).setCore

theorem exec_controlFlitRx_early {r : RxCtl} (hin : (s.port i).ctlIn = [r]) (hearly : s.cycle < r.due) :
    exec (.controlFlitRx i) s = .next s := by
  have hnone : (s.port i).ctlIn.find? (fun r => decide (r.due ≤ s.cycle)) = none := by simp [hin, hearly]
  show execControlFlitRx i s = _
  simp only [execControlFlitRx, hnone]
  rfl

theorem State.ctlHeard_port_same {r : RxCtl} (hin : (s.port i).ctlIn = [r]) : (s.ctlHeard i r).port i = { s.port i with
    ctlIn := [], peer := some r.ctl, latTx := r.ctl.latRx, inSync := decide (r.ctl.frame = (s.tu.back (s.frm - r.frm)).tf)
    hbAt := ((s.ctlHeard i r).port i).hbAt, hbLost := ((s.ctlHeard i r).port i).hbLost } := by
  simp [State.ctlHeard, hin]

theorem State.ctlHeard_port_ne {k : Nat} (r : RxCtl) (hk : k ≠ i) : (s.ctlHeard i r).port k = s.port k :=
  (State.onPort_port_ne _ _ hk).trans (State.onPort_port_ne _ _ hk)

/-! ### What the fields of a control flit change (R364, R381, R392) -/

theorem State.takeVote_frame (s : State) (i f : Nat) (c : CtlFlit) : s.takeVote i f c = { s with tu := (s.takeVote i f c).tu } := rfl

theorem State.setCore_frame (s : State) : s.setCore = { s with pwr := s.setCore.pwr } := rfl

/-- What the rotation fields of frame `f` change of partition `p`, in vote tree `tree` (R392). -/
def State.rotStep (s : State) (tree : Nat × TreeE) (i f : Nat) (c : CtlFlit) (p : Nat) : State :=
  let (h, t) := tree
  let d := t.depth
  let q := s.part p
  match q.jb.rotV, q.peers.getD i none with
  | some v, some e =>
    if t.voteChildren.getLsbD i ∧ f + 5 * (d + 1) = v + 5 * h then
      s.onPart p (fun q => { q with jb := { q.jb with rotVal := q.jb.rotVal && c.rotReady.getLsbD e.part } })
    else if d ≠ 0 ∧ t.voteParent = i ∧ f + 5 = v + 5 * h + 5 * d then
      s.onPart p (fun q => { q with jb := { q.jb with rotAgreed := some (c.rotRed.getLsbD e.part) } })
    else s
  | _, _ => s

theorem State.takeRot_eq (s : State) (i f : Nat) (c : CtlFlit) :
    s.takeRot i f c = allParts.foldl (fun u p => u.rotStep s.voteTree i f c p) s := rfl

theorem State.rotStep_frame (s : State) (tree : Nat × TreeE) (i f : Nat) (c : CtlFlit) (p : Nat) :
    s.rotStep tree i f c p = { s with parts := (s.rotStep tree i f c p).parts } := by
  unfold State.rotStep
  dsimp only
  split
  · split
    · rfl
    · split <;> rfl
  · rfl

theorem State.takeRot_frame (s : State) (i f : Nat) (c : CtlFlit) : s.takeRot i f c = { s with parts := (s.takeRot i f c).parts } := by
  rw [State.takeRot_eq]
  refine List.foldlRecOn allParts _ (motive := fun t : State => t = { s with parts := t.parts }) rfl fun t ht p _ => ?_
  rw [State.rotStep_frame, ht]

/-- What the commit mark of a peer member raises against partition `p` (R381). -/
def State.commitStep (s : State) (i back : Nat) (c : CtlFlit) (p : Nat) : State :=
  let q := s.part p
  match q.peers.getD i none with
  | some e =>
    let (v, n) := c.commit.getD e.part (false, 0)
    if s.running p && q.multi && q.onPort i && !v && decide (q.jb.rampFrom + back ≤ q.planTime / 1024) then
      s.jobFault 0xA0 (s.scope (fun x => decide (x = p))) (locPort i) e.rank n
    else s
  | none => s

theorem State.takeCommit_eq (s : State) (i back : Nat) (c : CtlFlit) :
    s.takeCommit i back c = allParts.foldl (fun u p => u.commitStep i back c p) s := rfl

theorem State.commitStep_frame (s : State) (i back : Nat) (c : CtlFlit) (p : Nat) :
    s.commitStep i back c p = { s with raised := (s.commitStep i back c p).raised } := by
  unfold State.commitStep
  dsimp only
  split
  · split <;> rfl
  · rfl

theorem State.takeCommit_frame (s : State) (i back : Nat) (c : CtlFlit) :
    s.takeCommit i back c = { s with raised := (s.takeCommit i back c).raised } := by
  rw [State.takeCommit_eq]
  refine List.foldlRecOn allParts _ (motive := fun t : State => t = { s with raised := t.raised }) rfl fun t ht p _ => ?_
  rw [State.commitStep_frame, ht]

/-- Without a rotation under way the rotation fields change nothing. -/
theorem State.takeRot_of_none (h : ∀ p, p < 16 → (s.part p).jb.rotV = none) (f : Nat) (c : CtlFlit) : s.takeRot i f c = s := by
  rw [State.takeRot_eq]
  refine List.foldlRecOn allParts _ (motive := fun t => t = s) rfl fun t ht p hp => ?_
  subst ht
  simp only [State.rotStep, h p (List.mem_range.1 hp)]

/-- Without a member that runs over the port the commits raise nothing. -/
theorem State.takeCommit_of_none (h : ∀ p, p < 16 → (s.part p).multi = false ∨ (s.part p).onPort i = false) (back : Nat) (c : CtlFlit) :
    s.takeCommit i back c = s := by
  rw [State.takeCommit_eq]
  refine List.foldlRecOn allParts _ (motive := fun t => t = s) rfl fun t ht p hp => ?_
  subst ht
  unfold State.commitStep
  dsimp only
  split
  · refine if_neg fun hraise => ?_
    simp only [Bool.and_eq_true] at hraise
    obtain ⟨⟨⟨⟨-, hmulti⟩, hon⟩, -⟩, -⟩ := hraise
    rcases h p (List.mem_range.1 hp) with h | h
    · exact absurd (h.symm.trans hmulti) (by decide)
    · exact absurd (h.symm.trans hon) (by decide)
  · rfl

/-- What the fields of a control flit may change beside its port. -/
theorem State.ctlTaken_frame (s : State) (i : Nat) (r : RxCtl) : s.ctlTaken i r = { s.ctlHeard i r with
    tu := (s.ctlTaken i r).tu, parts := (s.ctlTaken i r).parts, raised := (s.ctlTaken i r).raised, pwr := (s.ctlTaken i r).pwr } := by
  have hvote := (s.ctlHeard i r).takeVote_frame i r.frm r.ctl
  have hrot := ((s.ctlHeard i r).takeVote i r.frm r.ctl).takeRot_frame i r.frm r.ctl
  have hcommit := (((s.ctlHeard i r).takeVote i r.frm r.ctl).takeRot i r.frm r.ctl).takeCommit_frame i (s.frm - r.frm) r.ctl
  unfold State.ctlTaken
  generalize (((s.ctlHeard i r).takeVote i r.frm r.ctl).takeRot i r.frm r.ctl).takeCommit i (s.frm - r.frm) r.ctl = w at hcommit
  generalize ((s.ctlHeard i r).takeVote i r.frm r.ctl).takeRot i r.frm r.ctl = v at hrot hcommit
  generalize (s.ctlHeard i r).takeVote i r.frm r.ctl = u at hvote hrot
  rw [State.setCore_frame, hcommit, hrot, hvote]

/-- The fields of a control flit reach no other port, no cell, no block and no shadow. -/
theorem State.ctlTaken_kept (s : State) (i : Nat) (r : RxCtl) : (s.ctlTaken i r).ports = (s.ctlHeard i r).ports ∧
    (s.ctlTaken i r).cells = s.cells ∧ (s.ctlTaken i r).blocks = s.blocks ∧ (s.ctlTaken i r).shadows = s.shadows := by
  have hframe := s.ctlTaken_frame i r
  generalize s.ctlTaken i r = t at hframe ⊢
  rw [hframe]
  exact ⟨rfl, rfl, rfl, rfl⟩

theorem State.takeVote_part (s : State) (i f : Nat) (c : CtlFlit) (p : Nat) : (s.takeVote i f c).part p = s.part p := by
  rw [State.takeVote_frame]; rfl

/-- With no rotation under way and no member run over the port, no partition changes and nothing is raised. -/
theorem State.ctlTaken_quiet (h : ∀ p, p < 16 → (s.part p).jb.rotV = none ∧ ((s.part p).multi = false ∨ (s.part p).onPort i = false))
    (r : RxCtl) : (s.ctlTaken i r).parts = s.parts ∧ (s.ctlTaken i r).raised = s.raised := by
  have hvote := (s.ctlHeard i r).takeVote_frame i r.frm r.ctl
  have hpart : ∀ p, ((s.ctlHeard i r).takeVote i r.frm r.ctl).part p = s.part p := fun p => State.takeVote_part ..
  unfold State.ctlTaken
  generalize (s.ctlHeard i r).takeVote i r.frm r.ctl = u at hvote hpart
  rw [State.takeRot_of_none fun p hp => by rw [hpart]; exact (h p hp).1,
    State.takeCommit_of_none fun p hp => by rw [hpart]; exact (h p hp).2, State.setCore_frame, hvote]
  exact ⟨rfl, rfl⟩

/-! ### Commit marks on TW (R340) -/

/-- What a shadow holds after a commit mark: VALID and the step. -/
def Shadow.marked (x : Shadow) (m : Bool × Nat) : Shadow :=
  if !m.1 then { x with prov := none, building := [], left := 0, lost := false }
  else
    match x.prov with
    | some (k, l) => if k = m.2 then { x with promoted := some (k, l), prov := none } else x
    | none => x

theorem Shadow.marked_zero (m : Bool × Nat) : Shadow.zero.marked m = Shadow.zero := by
  unfold Shadow.marked
  split <;> rfl

theorem State.takeMarks_shadow (hwf : SMap.wf Shadow.zero s.shadows = true) (c : CtlFlit) (p : Nat) :
    (s.takeMarks c).shadow p = (s.shadow p).marked (c.commit.getD p (false, 0)) :=
  look_mapv Shadow.zero s.shadows (fun p x => x.marked (c.commit.getD p (false, 0))) (fun _ => Shadow.marked_zero _)
    (Bool.and_eq_true_iff.1 hwf).1 p

theorem State.takeMarks_commits {p k : Nat} {l : List Line} {c : CtlFlit} (hwf : SMap.wf Shadow.zero s.shadows = true)
    (hprov : (s.shadow p).prov = some (k, l)) (hmark : c.commit.getD p (false, 0) = (true, k)) :
    (s.takeMarks c).shadow p = { s.shadow p with promoted := some (k, l), prov := none } := by
  rw [State.takeMarks_shadow hwf, hmark]
  simp [Shadow.marked, hprov]

theorem State.takeMarks_drops {p : Nat} {c : CtlFlit} (hwf : SMap.wf Shadow.zero s.shadows = true)
    (hmark : (c.commit.getD p (false, 0)).1 = false) :
    (s.takeMarks c).shadow p = { s.shadow p with prov := none, building := [], left := 0, lost := false } := by
  rw [State.takeMarks_shadow hwf, Shadow.marked, hmark]
  rfl

/-- The state in which all of control flit `r` has been taken: on TW its commit marks too. -/
def State.ctlEnd (s : State) (i : Nat) (r : RxCtl) : State := if i = 10 then (s.ctlTaken i r).takeMarks r.ctl else s.ctlTaken i r

theorem exec_controlFlitRx_due {r : RxCtl} (hin : (s.port i).ctlIn = [r]) (hdue : r.due ≤ s.cycle) (hlive : PortLive (s.port i)) :
    exec (.controlFlitRx i) s = .next (s.ctlEnd i r) := by
  have hnow : (s.port i).ctlIn.find? (fun r => decide (r.due ≤ s.cycle)) = some r := by simp [hin, hdue]
  show execControlFlitRx i s = _
  simp only [execControlFlitRx, hnow, if_neg (not_quiet_of_portLive hlive)]
  rfl

theorem State.ctlEnd_frame (s : State) (i : Nat) (r : RxCtl) :
    s.ctlEnd i r = { s.ctlTaken i r with shadows := (s.ctlEnd i r).shadows } := by
  unfold State.ctlEnd
  generalize s.ctlTaken i r = t
  split <;> rfl

theorem State.ctlEnd_port (s : State) (i : Nat) (r : RxCtl) (k : Nat) : (s.ctlEnd i r).port k = (s.ctlHeard i r).port k := by
  obtain ⟨hports, -⟩ := s.ctlTaken_kept i r
  have hframe := s.ctlEnd_frame i r
  generalize s.ctlEnd i r = u at hframe ⊢
  generalize s.ctlTaken i r = t at hports hframe
  rw [hframe]
  exact congrArg (fun ports => look Port.zero ports k) hports

/-- The commit marks reach no cell, block, partition or event. -/
theorem State.ctlEnd_kept (s : State) (i : Nat) (r : RxCtl) : (s.ctlEnd i r).cells = s.cells ∧ (s.ctlEnd i r).blocks = s.blocks ∧
    (s.ctlEnd i r).parts = (s.ctlTaken i r).parts ∧ (s.ctlEnd i r).raised = (s.ctlTaken i r).raised := by
  obtain ⟨-, hcells, hblocks, -⟩ := s.ctlTaken_kept i r
  have hframe := s.ctlEnd_frame i r
  generalize s.ctlEnd i r = u at hframe ⊢
  generalize s.ctlTaken i r = t at hcells hblocks hframe ⊢
  rw [hframe]
  exact ⟨hcells, hblocks, rfl, rfl⟩

theorem State.ctlEnd_shadows_of_ne (hi : i ≠ 10) (r : RxCtl) : (s.ctlEnd i r).shadows = s.shadows := by
  obtain ⟨-, -, -, hshadows⟩ := s.ctlTaken_kept i r
  rw [State.ctlEnd, if_neg hi, hshadows]

theorem State.ctlTaken_shadow (s : State) (i : Nat) (r : RxCtl) (p : Nat) : (s.ctlTaken i r).shadow p = s.shadow p := by
  obtain ⟨-, -, -, hshadows⟩ := s.ctlTaken_kept i r
  generalize s.ctlTaken i r = t at hshadows ⊢
  exact congrArg (fun shadows => look Shadow.zero shadows p) hshadows

/-- On TW a VALID mark for the step held provisionally promotes it (R340). -/
theorem State.ctlEnd_commits {p k : Nat} {l : List Line} {r : RxCtl} (hwf : SMap.wf Shadow.zero s.shadows = true)
    (hprov : (s.shadow p).prov = some (k, l)) (hmark : r.ctl.commit.getD p (false, 0) = (true, k)) :
    (s.ctlEnd 10 r).shadow p = { s.shadow p with promoted := some (k, l), prov := none } := by
  obtain ⟨-, -, -, hshadows⟩ := s.ctlTaken_kept 10 r
  have hshadow := s.ctlTaken_shadow 10 r p
  rw [State.ctlEnd, if_pos rfl, ← hshadow]
  exact State.takeMarks_commits (by rw [hshadows]; exact hwf) (by rw [hshadow]; exact hprov) hmark

/-- On TW a mark that says not running drops what is held provisionally (R340). -/
theorem State.ctlEnd_drops {p : Nat} {r : RxCtl} (hwf : SMap.wf Shadow.zero s.shadows = true)
    (hmark : (r.ctl.commit.getD p (false, 0)).1 = false) :
    (s.ctlEnd 10 r).shadow p = { s.shadow p with prov := none, building := [], left := 0, lost := false } := by
  obtain ⟨-, -, -, hshadows⟩ := s.ctlTaken_kept 10 r
  rw [State.ctlEnd, if_pos rfl, ← s.ctlTaken_shadow 10 r p]
  exact State.takeMarks_drops (by rw [hshadows]; exact hwf) hmark

end

/-- Settles O42: a control flit is sent at cycle 1,023 of a live port, and a received one gives the peer's fields when it is due. -/
theorem controlFlitsTravel : Obligations.ControlFlitsTravel := by
  refine ⟨fun i s hcyc => if_pos (.inl hcyc), fun i s hcyc hfirst => ⟨fun hlive hvotes => ?_, fun hst hlost => ?_⟩,
    fun i r s hin => ⟨fun hdue hlive => ?_, fun hearly => exec_controlFlitRx_early hin hearly⟩, fun s => ?_⟩
  · have hkept : s.votesLost i = false := by
      rcases hvotes with hup | hnone
      · simp [State.votesLost, hup]
      · simp only [State.votesLost, Bool.and_eq_false_iff, List.any_eq_false]
        exact .inr fun v hv => by simp [hnone v hv]
    have hexec := exec_controlFlitTx hcyc hfirst
    simp only [hkept, Bool.false_eq_true, if_false, if_neg (not_quiet_of_portLive hlive)] at hexec
    obtain ⟨hframe, ⟨l, hsuper, hout⟩, hothers⟩ := sendCtl_sends s i s.cycle (3072 + s.tf % 8) (s.port i).latTx
    exact ⟨_, l, _, _, hexec, hframe, hout, hsuper, hothers, rfl, rfl, rfl, rfl, rfl, rfl, rfl, rfl, fun p hp => s.ctlOut_commit i hp⟩
  · have hgone : s.votesLost i = true := by
      obtain ⟨v, hv, huses, hkept⟩ := hlost
      simp only [State.votesLost, Bool.and_eq_true, List.any_eq_true, decide_eq_true_eq]
      exact ⟨hst, v, hv, huses, by rw [hkept]; rfl⟩
    have hexec := exec_controlFlitTx hcyc hfirst
    simp only [hgone, if_true] at hexec
    have hraised : RaisedOne s (s.loseVotes i) .job 0x95 s.timeScope := ⟨_, rfl, rfl, rfl, rfl, rfl⟩
    split at hexec
    · exact ⟨_, hexec, hraised, rfl, fun _ _ => rfl⟩
    · obtain ⟨hframe, -, hothers⟩ := sendCtl_sends (s.loseVotes i) i s.cycle (3072 + s.tf % 8) (s.port i).latTx
      refine ⟨_, hexec, ?_, ?_, hothers⟩
      · rw [hframe]; exact hraised
      · rw [hframe]; rfl
  · have hport := (s.ctlEnd_port i r i).trans (State.ctlHeard_port_same hin)
    have hothers := fun k (hk : k ≠ i) => (s.ctlEnd_port i r k).trans (State.ctlHeard_port_ne r hk)
    obtain ⟨hcells, hblocks, hparts, hraised⟩ := s.ctlEnd_kept i r
    refine ⟨_, exec_controlFlitRx_due hin hdue hlive, ?_, ?_, ?_, ?_, ?_, hothers, hcells, hblocks, fun hquiet => ?_,
      fun hi => State.ctlEnd_shadows_of_ne hi r, fun p k l hi hwf hprov => ?_⟩
    iterate 5 rw [hport]
    · obtain ⟨hparts', hraised'⟩ := State.ctlTaken_quiet hquiet r
      exact ⟨hparts.trans hparts', hraised.trans hraised'⟩
    · subst hi
      refine ⟨State.ctlEnd_commits hwf hprov, fun hmark => ?_⟩
      rw [State.ctlEnd_drops hwf hmark]
      exact ⟨rfl, rfl⟩
  · show execTwinHeartbeatLost s = _
    unfold execTwinHeartbeatLost
    split <;> rfl

end Sys2Proof.Machine
end

