-- ==== Sys2Proof/Proofs/WordsRoundTrip.lean ====
section
/-! PROOF. Words read back as their commands (O18, O19), and a step runs the command at the front of the queue (O58). -/

namespace Sys2Proof.Machine
open Sys2Proof.Stmt

/-- Settles O18: format by format the opcode and the function of a word are those it was written with, and so is every field. -/
theorem cellWordsRoundTrip : Obligations.CellWordsRoundTrip := by
  intro i c w e h
  cases i with
  | nopC c' w' e' =>
    obtain ⟨hopc, rfl, rfl, rfl⟩ : fieldOf w' 58 6 = 0 ∧ c' = c ∧ w' = w ∧ e' = e := by simpa [Instr.cellWord] using h
    rw [cellInstr, hopc]
    rfl
  | addI64 c' f | subI64 c' f | andB64 c' f | orB64 c' f | xorB64 c' f | shlB64 c' f | shrU64 c' f | sarS64 c' f | minS64 c' f
    | maxS64 c' f | minU64 c' f | maxU64 c' f | mulI64 c' f | mulhU64 c' f | divU64 c' f | remU64 c' f =>
    cases h
    rw [cellInstr, RR.word_opcode f (by decide), rrInstr, RR.word_function f (by decide), rrOf_word f (by decide)]
    rfl
  | addiI64 c' f | andiB64 c' f | oriB64 c' f | xoriB64 c' f | lihB64 c' f | muliI64 c' f | shliB64 c' f | shriU64 c' f
    | sariS64 c' f =>
    cases h
    rw [cellInstr, RI.word_opcode f (by decide), riOf_word]
    rfl
  | ld c' f | st c' f | ldx c' f | stx c' f =>
    cases h
    rw [cellInstr, MemF.word_opcode f (by decide), memOf_word]
    rfl
  | ceqI64 c' f | cneI64 c' f | cltS64 c' f | cgeS64 c' f | cltU64 c' f | cgeU64 c' f =>
    cases h
    rw [cellInstr, CmpR.word_opcode f (by decide), cmpRInstr, CmpR.word_function f (by decide), cmpROf_word f (by decide)]
    rfl
  | ceqiI64 c' f | cneiI64 c' f | cltiS64 c' f | cgeiS64 c' f | cltiU64 c' f | cgeiU64 c' f =>
    cases h
    rw [cellInstr, CmpI.word_opcode f (by decide), cmpIInstr, CmpI.word_function f (by decide), cmpIOf_word f (by decide)]
    rfl
  | pandP c' f | porP c' f | pxorP c' f | pandnP c' f | psetP c' f | pclrP c' f =>
    cases h
    rw [cellInstr, PlF.word_opcode f (by decide), plInstr, PlF.word_function f (by decide), plOf_word f (by decide)]
    rfl
  | prdP16 c' f | pwrP16 c' f =>
    cases h
    rw [cellInstr, PmF.word_opcode f (by decide), pmInstr, PmF.word_function f (by decide), pmOf_word f (by decide)]
    rfl
  | rdsrI64 c' f =>
    cases h
    rw [cellInstr, SrF.word_opcode, srOf_word]
    rfl
  | waitC c' f | waitoC c' f | stependC c' f =>
    cases h
    rw [cellInstr, Ctl.word_opcode f (by decide), ctlOf_word]
    rfl
  | loopC c' f =>
    cases h
    rw [cellInstr, LoopF.word_opcode, loopOf_word]
    rfl
  | agsetA24 c' f | agaddA24 c' f =>
    cases h
    rw [cellInstr, AgF.word_opcode f (by decide), agOf_word]
    rfl
  | agrdU24 c' f | lcrdU11 c' f =>
    cases h
    rw [cellInstr, AgRdF.word_opcode f (by decide), agRdInstr, AgRdF.word_function f (by decide), agRdOf_word f (by decide)]
    rfl
  | vaddF32 c' f | vsubF32 c' f | vmulF32 c' f | vfmaF32 c' f | vminF32 c' f | vmaxF32 c' f | vabsF32 c' f | vnegF32 c' f =>
    cases h
    rw [cellInstr, VecF.word_opcode f (by decide) (by decide), vec28Instr, VecF.word_function f (by decide), vecOf_word f (by decide)]
    rfl
  | vaddI32 c' f | vsubI32 c' f | vmulI32 c' f | vandB32 c' f | vorB32 c' f | vxorB32 c' f | vshlB32 c' f | vshrU32 c' f
    | vsarS32 c' f | vminS32 c' f | vmaxS32 c' f | vminU32 c' f | vmaxU32 c' f =>
    cases h
    rw [cellInstr, VecF.word_opcode f (by decide) (by decide), vec29Instr, VecF.word_function f (by decide), vecOf_word f (by decide)]
    rfl
  | vrcpF32 c' f | vsqrtF32 c' f | vrsqrtF32 c' f | vexp2F32 c' f | vlog2F32 c' f =>
    cases h
    rw [cellInstr, VecF.word_opcode f (by decide) (by decide), vec2AInstr, VecF.word_function f (by decide), vecOf_word f (by decide)]
    rfl
  | vceqF32 c' f | vcltF32 c' f | vcleF32 c' f | vcunF32 c' f | vceqI32 c' f | vcltS32 c' f | vcltU32 c' f | vcleS32 c' f =>
    cases h
    rw [cellInstr, VecF.word_opcode f (by decide) (by decide), vec2BInstr, VecF.word_function f (by decide), vecOf_word f (by decide)]
    rfl
  | vrsumF32 c' f | vrmaxF32 c' f | vrminF32 c' f | vrsumI32 c' f | vmxscE2m1 c' f | vmxscE2m3 c' f | vmxscE3m2 c' f
    | vmxscE4m3 c' f | vmxscE5m2 c' f | vmxscI8 c' f =>
    cases h
    rw [cellInstr, VecF.word_opcode f (by decide) (by decide), vec2CInstr, VecF.word_function f (by decide), vecOf_word f (by decide)]
    rfl
  | vldL c' f | vstL c' f =>
    cases h
    rw [cellInstr, VecF.word_opcode f (by decide) (by decide), vec2DInstr, VecF.word_function f (by decide), vecOf_word f (by decide)]
    rfl
  | vgatherU8 c' f | vgatherU16 c' f | vgatherB32 c' f | vscatterB8 c' f | vscatterB16 c' f | vscatterB32 c' f =>
    cases h
    rw [cellInstr, VecF.word_opcode f (by decide) (by decide), vec2EInstr, VecF.word_function f (by decide), vecOf_word f (by decide)]
    rfl
  | vcvtI32F32 c' f | vcvtF32I32 c' f | vpkBf16 c' f | vpkF16 c' f | vpkE4m3 c' f | vpkE5m2 c' f | vpkE2m3 c' f
    | vpkE3m2 c' f | vpkE2m1 c' f | vpkI8 c' f | vpkI4 c' f | vunpkBf16 c' f | vunpkF16 c' f | vunpkE4m3 c' f
    | vunpkE5m2 c' f | vunpkE2m3 c' f | vunpkE3m2 c' f | vunpkE2m1 c' f | vunpkI8 c' f | vunpkI4 c' f | vscaleE8m0 c' f =>
    cases h
    rw [cellInstr, VecF.word_opcode f (by decide) (by decide), vec2FInstr, VecF.word_function f (by decide), vecOf_word f (by decide)]
    rfl
  | vmovB32 c' f | vbcastB32 c' f | viotaI32 c' f | vpermB32 c' f | vinsB32 c' f | vextB32 c' f =>
    cases h
    rw [cellInstr, VecF.word_opcode f (by decide) (by decide), vec30Instr, VecF.word_function f (by decide), vecOf_word f (by decide)]
    rfl
  | mlw c' f =>
    cases h
    rw [cellInstr, MlwF.word_opcode, mlwOf_word]
    rfl
  | mma c' f ecc =>
    cases ecc with
    | nil =>
      cases h
      rw [cellInstr, MmaF.word_opcode, mmaOf_word]
      rfl
    | cons _ _ => exact nomatch h
  | mcvt c' f =>
    cases h
    rw [cellInstr, McvtF.word_opcode, mcvtOf_word]
    rfl
  | mstxX128 c' f | maddxX128 c' f | mclrX128 c' f =>
    cases h
    rw [cellInstr, MaccF.word_opcode f (by decide), maccOf_word]
    rfl
  | _ => exact absurd h (Option.some_ne_none _).symm

/-- Settles O19: each word is read, field by field. -/
theorem exampleWords : Obligations.ExampleWords :=
  ⟨fun _ => rfl, fun _ => rfl, fun _ => rfl, fun _ => rfl, rfl⟩

/-- Settles O58, by the two cases of the queue. -/
theorem stepRunsFrontCommand : Obligations.StepRunsFrontCommand := by
  refine ⟨fun c rest s h => ?_, fun s h => ?_⟩
  · rw [step, h]
  · rw [step, h]

end Sys2Proof.Machine
end

