-- ==== Sys2Proof/Proofs/PoweredDomains.lean ====
section
/-! SUPPORT. Domains switched on and off (R471 to R474), and the leases that are to be zeroised and key slots that are filled with them (R217,
R218, R253): what each leaves of the state. -/

namespace Sys2Proof.Machine
open Sys2Proof.Stmt

/-! ### Leases to zeroise (R218) -/

/-- Between `s` and `t` only zeroisations of stacks and the cold frame began, and of partition `p` only what is to be zeroised changed. -/
structure Pends (s t : State) (p : Nat) : Prop where
  frame : t = { s with stks := t.stks, cold := t.cold, parts := t.parts }
  keys : ∀ k, (t.stack k).keys = (s.stack k).keys
  coldKeys : t.cold.keys = s.cold.keys
  same : ∃ l, t.part p = { s.part p with sx := { (s.part p).sx with zeroPend := l } } ∧ ∀ e ∈ (s.part p).sx.zeroPend, e ∈ l
  other : ∀ q, q ≠ p → t.part q = s.part q

section
variable {s t u : State} {p : Nat}

theorem Pends.refl (s : State) (p : Nat) : Pends s s p := ⟨rfl, fun _ => rfl, rfl, ⟨_, rfl, fun _ h => h⟩, fun _ _ => rfl⟩

theorem Pends.trans (hst : Pends s t p) (htu : Pends t u p) : Pends s u p := by
  obtain ⟨l, hl, hsub⟩ := hst.same
  obtain ⟨l', hl', hsub'⟩ := htu.same
  refine ⟨?_, fun k => (htu.keys k).trans (hst.keys k), htu.coldKeys.trans hst.coldKeys, ⟨l', ?_, fun e he => ?_⟩,
    fun q hq => (htu.other q hq).trans (hst.other q hq)⟩
  · rw [htu.frame, hst.frame]
  · rw [hl', hl]
  · exact hsub' e (by rw [hl]; exact hsub e he)

theorem pends_startWipe (s : State) (p : Nat) (tier : Tier) (loc : LeaseLoc) (b : Blank) : Pends s (s.startWipe tier loc b) p := by
  cases tier with
  | stack =>
    refine ⟨rfl, fun k => ?_, rfl, ⟨_, rfl, fun _ h => h⟩, fun _ _ => rfl⟩
    by_cases hk : k = loc.unit
    · subst hk
      simp [State.startWipe, State.setWipe]
    · exact congrArg Stack.keys (s.onStack_stack_ne _ hk)
  | cold => exact ⟨rfl, fun _ => rfl, rfl, ⟨_, rfl, fun _ h => h⟩, fun _ _ => rfl⟩

/-- A lease index that is to be zeroised is listed, and nothing listed before is lost. -/
theorem pends_pendLease (s : State) (p : Nat) (join : Bool) (f : LeaseLoc → Bool) (e : Tier × Nat) :
    Pends s (s.pendLease p join f e) p ∧ e ∈ ((s.pendLease p join f e).part p).sx.zeroPend := by
  obtain ⟨b, hb⟩ : ∃ b : Blank, b =
    if join = true then { key := if e.1 = .stack then (s.part p).stackKey else (s.part p).coldKey, lease := e.2 } else {} := ⟨_, rfl⟩
  obtain ⟨u, hu⟩ : ∃ u : State, u = (((s.part p).places e.1 e.2).filter f).foldl (fun s loc => s.startWipe e.1 loc b) s := ⟨_, rfl⟩
  have hpends : Pends s u p := by
    rw [hu]
    exact List.foldlRecOn _ _ (motive := fun t => Pends s t p) (.refl s p) fun t ht loc _ => ht.trans (pends_startWipe t p e.1 loc b)
  have hpart : u.part p = s.part p := by
    rw [hu]
    exact foldl_invariant (fun t : State => t.part p) (fun t loc => by cases h : e.1 <;> rfl) _ s
  have heq : s.pendLease p join f e = if (s.part p).sx.zeroPend.contains e then u
      else u.onPart p (fun q => { q with sx := { q.sx with zeroPend := q.sx.zeroPend ++ [e] } }) := by
    rw [hu, hb]; rfl
  rw [heq]
  split
  next hmem => exact ⟨hpends, by rw [hpart]; exact List.contains_iff_mem.1 hmem⟩
  next =>
    refine ⟨hpends.trans ⟨rfl, fun _ => rfl, rfl, ⟨_, State.onPart_part_same .., fun _ h => List.mem_append_left _ h⟩,
      fun q hq => State.onPart_part_ne _ _ hq⟩, ?_⟩
    rw [State.onPart_part_same]
    exact List.mem_append_right _ (List.mem_singleton.2 rfl)

/-- Every lease index of a list that is to be zeroised is listed. -/
theorem pends_foldl (s : State) (p : Nat) (join : Bool) (f : LeaseLoc → Bool) (l : List (Tier × Nat)) :
    Pends s (l.foldl (fun s e => s.pendLease p join f e) s) p ∧
      ∀ e ∈ l, e ∈ ((l.foldl (fun s e => s.pendLease p join f e) s).part p).sx.zeroPend := by
  induction l using List.reverseRecOn with
  | nil => exact ⟨.refl s p, fun e he => nomatch he⟩
  | append_singleton l a ih =>
    obtain ⟨hpends, hmem⟩ := ih
    obtain ⟨hlast, hin⟩ := pends_pendLease (l.foldl (fun s e => s.pendLease p join f e) s) p join f a
    rw [List.foldl_append, List.foldl_cons, List.foldl_nil]
    refine ⟨hpends.trans hlast, fun e he => ?_⟩
    rcases List.mem_append.1 he with he | he
    · obtain ⟨l', hl', hsub⟩ := hlast.same
      rw [hl']
      exact hsub e (hmem e he)
    · exact List.mem_singleton.1 he ▸ hin

end

/-! ### Key slots (R217, R253) -/

/-- The key that the base die of stack `k` holds for a partition once its slots are filled. -/
def State.slotFill (s : State) (p k : Nat) : Nat := if s.onStackK p k then (s.part p).stackKey else 0

theorem State.onStackK_congr {s t : State} (h : t.parts = s.parts) (p k : Nat) : t.onStackK p k = s.onStackK p k := by
  have hpart : t.part p = s.part p := by rw [State.part, h]; rfl
  unfold State.onStackK
  rw [hpart]

/-- One base die takes its key. -/
def State.fillStack (q : Part) (p : Nat) (s : State) (k : Nat) : State :=
  if s.pwr.dom.getLsbD (64 + k) then
    s.onStack k (fun y => { y with keys := put 0 y.keys p (if s.onStackK p k then q.stackKey else 0) })
  else s

theorem State.fillSlots_eq (s : State) (p : Nat) : s.fillSlots p =
    let u := (List.range 12).foldl (State.fillStack (s.part p) p) s
    if u.pwr.dom.getLsbD 93 then { u with cold := { u.cold with keys := put 0 u.cold.keys p (s.part p).coldKey } } else u := rfl

theorem State.fillStack_frame (q : Part) (p : Nat) (s : State) (k : Nat) :
    s.fillStack q p k = { s with stks := (s.fillStack q p k).stks } := by
  unfold State.fillStack
  split <;> rfl

theorem State.fillStacks_frame (q : Part) (p : Nat) (l : List Nat) (s : State) :
    l.foldl (State.fillStack q p) s = { s with stks := (l.foldl (State.fillStack q p) s).stks } :=
  List.foldlRecOn l _ (motive := fun t : State => t = { s with stks := t.stks }) rfl fun t ht k _ => by
    rw [State.fillStack_frame, ht]

/-- Filling key slots changes those of the stacks and the cold frame alone. -/
theorem State.fillSlots_frame (s : State) (p : Nat) :
    s.fillSlots p = { s with stks := (s.fillSlots p).stks, cold := (s.fillSlots p).cold } := by
  rw [State.fillSlots_eq]
  have h := State.fillStacks_frame (s.part p) p (List.range 12) s
  dsimp only
  split
  · rw [h]
  · rw [h]

theorem State.fillSlots_part (s : State) (p q : Nat) : (s.fillSlots p).part q = s.part q := by
  rw [s.fillSlots_frame p]; rfl

theorem State.fillStack_stack_ne (q : Part) (p : Nat) (s : State) {k j : Nat} (h : j ≠ k) :
    (s.fillStack q p k).stack j = s.stack j := by
  unfold State.fillStack
  split
  · exact State.onStack_stack_ne _ _ h
  · rfl

theorem State.fillStack_key {q : Part} {p : Nat} {s : State} {k : Nat} (hon : s.pwr.dom.getLsbD (64 + k) = true) :
    look 0 ((s.fillStack q p k).stack k).keys p = if s.onStackK p k then q.stackKey else 0 := by
  rw [State.fillStack, if_pos hon, State.onStack_stack_same, look_put_same]

/-- Filling the slots of a partition leaves its key on every base die that is on. -/
theorem State.fillSlots_stackKey {s : State} {p k : Nat} (hk : k < 12) (hon : s.pwr.dom.getLsbD (64 + k) = true) :
    look 0 ((s.fillSlots p).stack k).keys p = s.slotFill p k := by
  have hstack : (s.fillSlots p).stack k = ((List.range 12).foldl (State.fillStack (s.part p) p) s).stack k := by
    rw [State.fillSlots_eq]
    dsimp only
    split <;> rfl
  obtain ⟨l₁, l₂, hl⟩ := List.append_of_mem (List.mem_range.2 hk)
  have hk₂ : k ∉ l₂ := fun h => by
    have hd := hl ▸ List.nodup_range (n := 12)
    exact (List.nodup_cons.1 (List.nodup_append.1 hd).2.1).1 h
  rw [hstack, hl, List.foldl_append, List.foldl_cons]
  have hrest := foldl_keeps_of_forall_mem (g := fun t : State => t.stack k) (f := State.fillStack (s.part p) p) (l := l₂)
    fun a ha t => State.fillStack_stack_ne _ _ t (fun h => hk₂ (h ▸ ha))
  have hframe := State.fillStacks_frame (s.part p) p l₁ s
  refine (congrArg (fun y : Stack => look 0 y.keys p) (hrest _)).trans ((State.fillStack_key ?_).trans ?_)
  · rw [hframe]; exact hon
  · rw [State.onStackK_congr (by rw [hframe]) p k]; rfl

/-- Filling the slots of a partition leaves its key in the cold controller when that is on. -/
theorem State.fillSlots_coldKey {s : State} {p : Nat} (hon : s.pwr.dom.getLsbD 93 = true) :
    look 0 (s.fillSlots p).cold.keys p = (s.part p).coldKey := by
  rw [State.fillSlots_eq, State.fillStacks_frame]
  dsimp only
  rw [if_pos hon, look_put_same]

/-! ### A domain goes on (R472) -/

theorem getLsbD_domMask_singleton (d e : Nat) : (domMask [d]).getLsbD e = (decide (e < 96) && decide (e = d)) := by
  rw [domMask, List.foldl_cons, List.foldl_nil, Nat.zero_add, BitVec.getLsbD_ofNat, Nat.testBit_two_pow, decide_eq_decide.2 eq_comm]

/-- Between `s` and `t` domains went on: of the units only key slots and zeroisations changed, of the partitions only what is to be
zeroised. -/
structure PoweredUp (s t : State) : Prop where
  frame : t = { s with pwr := t.pwr, counters := t.counters, stks := t.stks, cold := t.cold, parts := t.parts }
  pwr : t.pwr = { s.pwr with dom := t.pwr.dom }
  parts : ∀ p, ∃ l, t.part p = { s.part p with sx := { (s.part p).sx with zeroPend := l } } ∧ ∀ e ∈ (s.part p).sx.zeroPend, e ∈ l

section
variable {s t u : State} {p d : Nat}

theorem PoweredUp.refl (s : State) : PoweredUp s s := ⟨rfl, rfl, fun _ => ⟨_, rfl, fun _ h => h⟩⟩

theorem PoweredUp.trans (hst : PoweredUp s t) (htu : PoweredUp t u) : PoweredUp s u := by
  refine ⟨?_, ?_, fun p => ?_⟩
  · rw [htu.frame, hst.frame]
  · rw [htu.pwr, hst.pwr]
  · obtain ⟨l, hl, hsub⟩ := hst.parts p
    obtain ⟨l', hl', hsub'⟩ := htu.parts p
    exact ⟨l', by rw [hl', hl], fun e he => hsub' e (by rw [hl]; exact hsub e he)⟩

theorem PoweredUp.raised (h : PoweredUp s t) : t.raised = s.raised := by rw [h.frame]
theorem PoweredUp.cells (h : PoweredUp s t) : t.cells = s.cells := by rw [h.frame]

theorem Pends.poweredUp (h : Pends s t p) : PoweredUp s t := by
  refine ⟨?_, ?_, fun q => ?_⟩
  · rw [h.frame]
  · rw [h.frame]
  · by_cases hq : q = p
    · subst hq; exact h.same
    · exact ⟨_, h.other q hq, fun _ he => he⟩

theorem poweredUp_fillSlots (s : State) (p : Nat) : PoweredUp s (s.fillSlots p) := by
  refine ⟨?_, ?_, fun q => ⟨_, s.fillSlots_part p q, fun _ he => he⟩⟩
  · rw [s.fillSlots_frame p]
  · rw [s.fillSlots_frame p]

theorem PoweredUp.st (h : PoweredUp s t) (p : Nat) : (t.part p).st = (s.part p).st := by
  obtain ⟨l, hl, -⟩ := h.parts p
  rw [hl]

/-- The leases of a domain that goes on are to be zeroised, partition by partition, and the key slots are filled. -/
theorem poweredUp_refill (idx : Part → List (Tier × Nat)) (f : LeaseLoc → Bool) (s : State) : PoweredUp s
      (allParts.foldl (fun s p => ((idx (s.part p)).foldl (fun s e => s.pendLease p true f e) s).fillSlots p) s) ∧
    (allParts.foldl (fun s p => ((idx (s.part p)).foldl (fun s e => s.pendLease p true f e) s).fillSlots p) s).pwr = s.pwr := by
  refine List.foldlRecOn allParts _ (motive := fun t => PoweredUp s t ∧ t.pwr = s.pwr) ⟨.refl s, rfl⟩ fun t ⟨ht, hpwr⟩ p _ => ?_
  have hpends := (pends_foldl t p true f (idx (t.part p))).1
  refine ⟨(ht.trans hpends.poweredUp).trans (poweredUp_fillSlots _ p), ?_⟩
  rw [State.fillSlots_frame, hpends.frame]
  exact hpwr

/-- What a domain that was off leaves when it goes on. -/
theorem State.domUp_poweredUp (s : State) (d : Nat) : PoweredUp s (s.domUp d) ∧
    (s.domUp d).pwr.dom = if s.pwr.dom.getLsbD d then s.pwr.dom else s.pwr.dom ||| domMask [d] := by
  unfold State.domUp
  split
  · exact ⟨.refl s, rfl⟩
  · have hon : PoweredUp s (({ s with pwr := { s.pwr with dom := s.pwr.dom ||| domMask [d] } } : State).clearCtrs d) :=
      ⟨rfl, rfl, fun _ => ⟨_, rfl, fun _ h => h⟩⟩
    dsimp only
    split
    · obtain ⟨h, hpwr⟩ := poweredUp_refill (fun q => q.stackIdx (d - 64)) (fun l => decide (l.unit = d - 64))
        (({ s with pwr := { s.pwr with dom := s.pwr.dom ||| domMask [d] } } : State).clearCtrs d)
      exact ⟨hon.trans h, congrArg Power.dom hpwr⟩
    · split
      · obtain ⟨h, hpwr⟩ := poweredUp_refill Part.coldIdx (fun _ => true)
          (({ s with pwr := { s.pwr with dom := s.pwr.dom ||| domMask [d] } } : State).clearCtrs d)
        exact ⟨hon.trans h, congrArg Power.dom hpwr⟩
      · exact ⟨hon, rfl⟩

theorem State.domUp_dom (s : State) {d : Nat} (hd : d < 96) (e : Nat) :
    (s.domUp d).pwr.dom.getLsbD e = (s.pwr.dom.getLsbD e || decide (e = d)) := by
  rw [(s.domUp_poweredUp d).2]
  split
  next h => by_cases he : e = d <;> simp [he, h]
  next h =>
    rw [BitVec.getLsbD_or, getLsbD_domMask_singleton]
    by_cases he : e = d
    · simp [he, hd]
    · simp [he]

end

/-! ### A domain goes off (R472) -/

/-- Between `s` and `t` domains went off: nothing is raised, and no partition, event, key or clock beside PD_HTIME's is touched. -/
structure PoweredDown (s t : State) : Prop where
  frame : t = { s with
    pwr := t.pwr, counters := t.counters, health := t.health, cells := t.cells, blocks := t.blocks, stks := t.stks, cold := t.cold
    ports := t.ports, fab := t.fab, rings := t.rings, msix := t.msix, msixWait := t.msixWait, tu := t.tu }
  pwr : t.pwr = { s.pwr with dom := t.pwr.dom }

section
variable {s t u : State} {d : Nat}

theorem PoweredDown.refl (s : State) : PoweredDown s s := ⟨rfl, rfl⟩

theorem PoweredDown.trans (hst : PoweredDown s t) (htu : PoweredDown t u) : PoweredDown s u := by
  refine ⟨?_, ?_⟩
  · rw [htu.frame, hst.frame]
  · rw [htu.pwr, hst.pwr]

theorem PoweredDown.raised (h : PoweredDown s t) : t.raised = s.raised := by rw [h.frame]
theorem PoweredDown.parts (h : PoweredDown s t) : t.parts = s.parts := by rw [h.frame]
theorem PoweredDown.seqr (h : PoweredDown s t) : t.seqr = s.seqr := by rw [h.frame]
theorem PoweredDown.io (h : PoweredDown s t) : t.io = s.io := by rw [h.frame]

theorem OnlyLink.poweredDown {i : Nat} (h : OnlyLink s t i) (hact : t.act = s.act) : PoweredDown s t := by
  refine ⟨?_, ?_⟩
  · rw [h.1, hact]
  · rw [h.1]

theorem onlyLink_portDown (s : State) (i last : Nat) : OnlyLink s (s.portDown i last) i :=
  (((OnlyLink.refl s i).onPort _).count _ _ _).trans ⟨rfl, fun k _ => State.quarantine_port _ i k⟩

/-- A port whose domain goes off loses what it held. -/
theorem poweredDown_port (s : State) (i last : Nat) (f : Port → Port) : PoweredDown s ((s.portDown i last).onPort i f) :=
  ((onlyLink_portDown s i last).poweredDown rfl).trans ⟨rfl, rfl⟩

/-- What a domain leaves as it goes off; the cells are lost with their block alone. -/
theorem State.loseDom_poweredDown (s : State) (d : Nat) : PoweredDown s (s.loseDom d) ∧
    (s.loseDom d).pwr.dom = s.pwr.dom &&& ~~~(domMask [d]) ∧
    (s.loseDom d).cells = if d < 64 then Machine.dropKeys s.cells (fun c => decide (blockOf c = d)) else s.cells := by
  obtain ⟨u, hu⟩ : ∃ u, u = ({ s with pwr := { s.pwr with dom := s.pwr.dom &&& ~~~(domMask [d]) } } : State).clearCtrs d := ⟨_, rfl⟩
  have hoff : PoweredDown s u ∧ u.pwr.dom = s.pwr.dom &&& ~~~(domMask [d]) ∧ u.cells = s.cells := by
    rw [hu]
    exact ⟨⟨rfl, rfl⟩, rfl, rfl⟩
  obtain ⟨hdown, hdom, hcells⟩ := hoff
  unfold State.loseDom
  rw [← hu]
  clear hu
  dsimp only
  by_cases hblock : d < 64
  · rw [if_pos hblock, if_pos hblock, ← hcells]
    exact ⟨hdown.trans ⟨rfl, rfl⟩, hdom, rfl⟩
  rw [if_neg hblock, if_neg hblock]
  by_cases hstack : d < 76
  · rw [if_pos hstack]
    exact ⟨hdown.trans ⟨rfl, rfl⟩, hdom, hcells⟩
  rw [if_neg hstack]
  by_cases hport : d < 88
  · rw [if_pos hport]
    exact ⟨hdown.trans (poweredDown_port ..), hdom, hcells⟩
  rw [if_neg hport]
  split
  · exact ⟨hdown.trans ⟨rfl, rfl⟩, hdom, hcells⟩
  split
  · exact ⟨hdown.trans ⟨rfl, rfl⟩, hdom, hcells⟩
  split
  · exact ⟨hdown.trans ⟨rfl, rfl⟩, hdom, hcells⟩
  split
  · exact ⟨hdown.trans ⟨rfl, rfl⟩, hdom, hcells⟩
  · exact ⟨hdown, hdom, hcells⟩

theorem look_dropKeys {α : Type} (d : α) (m : SMap α) (f : Nat → Bool) (k : Nat) :
    look d (dropKeys m f) k = if f k then d else look d m k := by
  induction m with
  | nil => simp [dropKeys, look]
  | cons e m ih =>
    obtain ⟨j, v⟩ := e
    by_cases hf : f j = true
    · rw [dropKeys, List.filter_cons_of_neg (by simp [hf])]
      refine ih.trans ?_
      by_cases hk : k = j
      · simp [hk, hf]
      · simp [look, hk]
    · rw [dropKeys, List.filter_cons_of_pos (by simp [hf])]
      by_cases hk : k = j
      · simp [look, hk, hf]
      · exact (if_neg hk).trans (ih.trans (by rw [look, if_neg hk]))

/-- A block whose domain goes off holds no cell. -/
theorem loseDom_cell_of_block (s : State) {d k : Nat} (hd : d < 64) (hk : k / 32 = d) : (s.loseDom d).cell k = Cell.zero := by
  rw [State.cell, (s.loseDom_poweredDown d).2.2, if_pos hd, look_dropKeys, if_pos (by simp [blockOf, hk])]

/-- A domain that is no block's loses no cell. -/
theorem loseDom_cell_of_other (s : State) {d : Nat} (hd : 64 ≤ d) (k : Nat) : (s.loseDom d).cell k = s.cell k := by
  rw [State.cell, (s.loseDom_poweredDown d).2.2, if_neg (by omega)]
  rfl

theorem State.domDown_poweredDown (s : State) (d : Nat) : PoweredDown s (s.domDown d) := by
  unfold State.domDown
  split
  · exact (s.loseDom_poweredDown d).1
  · exact .refl s

theorem State.domDown_dom (s : State) (d e : Nat) :
    (s.domDown d).pwr.dom.getLsbD e = (s.pwr.dom.getLsbD e && decide (e ≠ d)) := by
  unfold State.domDown
  split
  next h =>
    have hmask : domMask [d] = BitVec.ofNat 96 (2 ^ d) := by rw [domMask, List.foldl_cons, List.foldl_nil, Nat.zero_add]
    rw [(s.loseDom_poweredDown d).2.1, hmask, getLsbD_clear_two_pow]
  next h =>
    by_cases he : e = d
    · simp [he, h]
    · simp [he]

theorem State.domsDown_poweredDown (s : State) (l : List Nat) : PoweredDown s (s.domsDown l) :=
  List.foldlRecOn _ _ (.refl s) fun t ht d _ => ht.trans (t.domDown_poweredDown d)

theorem foldl_domDown_dom (l : List Nat) (s : State) (e : Nat) :
    (l.foldl State.domDown s).pwr.dom.getLsbD e = (s.pwr.dom.getLsbD e && !l.contains e) := by
  induction l generalizing s with
  | nil => simp
  | cons d l ih =>
    rw [List.foldl_cons, ih, State.domDown_dom, List.contains_cons, Bool.not_or, Bool.and_assoc, beq_eq_decide, decide_not]

end

end Sys2Proof.Machine
end

