-- ==== Sys2Proof/Proofs/Windbreak.lean ====
section
/-! PROOF. Windbreak (O49): an estimate charges every partition (R475, R476, R478, R484), OVERPOWER follows 1,024 of them (R480, R482), and one
domain at a time is switched (R471, R474). -/

namespace Sys2Proof.Machine
open Sys2Proof.Stmt

/-! ### Charging a partition (R478, R484, R485) -/

/-- `r` is partition `q` after estimates were charged to it. -/
def Part.Charged (q r : Part) : Prop :=
  r = { q with pw := { q.pw with energyMj := r.pw.energyMj, energyRem := r.pw.energyRem, overClass := r.pw.overClass } } ∧
  (q.pw.overClass = true → r.pw.overClass = true)

theorem Part.Charged.refl (q : Part) : q.Charged q := ⟨rfl, id⟩

theorem State.charge_frame (s : State) (k p : Nat) : s.charge k p = { s with parts := (s.charge k p).parts } := by
  unfold State.charge
  dsimp only
  split <;> rfl

theorem State.charge_part_same (s : State) (k p : Nat) : (s.part p).Charged ((s.charge k p).part p) := by
  unfold State.charge
  dsimp only
  split
  · exact .refl _
  · rw [State.onPart_part_same]
    exact ⟨rfl, fun h => by rw [h, Bool.true_or]⟩

theorem State.charge_part_ne (s : State) (k : Nat) {p q : Nat} (h : q ≠ p) : (s.charge k p).part q = s.part q := by
  unfold State.charge
  dsimp only
  split
  · rfl
  · exact State.onPart_part_ne _ _ h

/-- Every partition charged in turn. -/
def State.chargeAll (s : State) (k : Nat) : State := { allParts.foldl (fun t p => t.charge k p) s with act := [] }

theorem State.chargeAll_kept (s : State) (k : Nat) : (s.chargeAll k).pwr = s.pwr ∧ (s.chargeAll k).raised = s.raised ∧
    (s.chargeAll k).cells = s.cells := by
  have h : allParts.foldl (fun t p => t.charge k p) s = { s with parts := (allParts.foldl (fun t p => t.charge k p) s).parts } :=
    List.foldlRecOn allParts _ (motive := fun t : State => t = { s with parts := t.parts }) rfl fun t ht p _ => by
      rw [State.charge_frame, ht]
  unfold State.chargeAll
  rw [h]
  exact ⟨rfl, rfl, rfl⟩

theorem State.chargeAll_part (s : State) (k p : Nat) : (s.part p).Charged ((s.chargeAll k).part p) := by
  have h := foldl_part_rel Part.Charged.refl (fun s p => s.charge_part_same k p) (fun s _ _ h => s.charge_part_ne k h)
    (List.nodup_range (n := 16)) s p
  unfold State.chargeAll allParts
  generalize (List.range 16).foldl (fun t p => t.charge k p) s = u at h ⊢
  exact h

/-! ### Estimates (R476, R480 to R482) -/

/-- The power state after an estimate. -/
def Power.estimate (x : Power) (at' w overRun low16 actReq : Nat) (above : Bool) : Power :=
  { x with estAt := at', estW := min 4095 w, peakW := max x.peakW (min 4095 w), overW := x.overW || above, overRun, low16, actReq }

theorem Power.estimate_dom (x : Power) (at' w overRun low16 actReq : Nat) (above : Bool) :
    (x.estimate at' w overRun low16 actReq above).dom = x.dom := rfl

/-- The power state after an estimate at the step in force. -/
def State.estimated (s : State) : Power :=
  let k := s.tu.gust
  let est (j : Nat) : Nat := estNum j (s.pjOf (fun _ => true)) (s.baseOf (fun _ => true))
  let lows := if decide (k ≠ 0 ∧ 100 * est (k - 1) ≤ 92 * s.pwr.capW * estDen) then s.pwr.low16 + 1 else 0
  s.pwr.estimate (s.cycle / 2048) ((2 * est k + estDen) / (2 * estDen))
    (if 110 * s.pwr.capW * estDen < 100 * est k then s.pwr.overRun + 1 else 0) lows
    (if s.pwr.gustAct then actNext s.pwr.actReq k s.pwr.capW lows est else 0) (decide (s.pwr.capW * estDen < est k))

/-- The state in which partitions are charged: OVER is counted. -/
def State.overNoted (s : State) : State :=
  if s.pwr.capW * estDen < estNum s.tu.gust (s.pjOf (fun _ => true)) (s.baseOf (fun _ => true)) then
    ({ s with pwr := s.estimated } : State).count locHub 0x40D 1
  else { s with pwr := s.estimated }

theorem State.overNoted_kept (s : State) : s.overNoted.pwr = s.estimated ∧ s.overNoted.raised = s.raised ∧
    s.overNoted.cells = s.cells ∧ s.overNoted.parts = s.parts := by
  unfold State.overNoted
  split <;> exact ⟨rfl, rfl, rfl, rfl⟩

theorem exec_windbreakEstimate_due {s : State} (hdue : s.pwr.estAt < s.cycle / 2048) : exec .windbreakEstimate s =
    .next (s.overNoted.chargeAll s.tu.gust) := by
  change execWindbreakEstimate s = _
  unfold execWindbreakEstimate State.overNoted State.estimated Power.estimate
  rw [if_neg (Nat.not_le.2 hdue)]
  simp only [decide_eq_true_eq]
  rfl

/-- An estimate that is due leaves the power state estimated, the counts afresh and every partition charged. -/
theorem exec_windbreakEstimate {s : State} (hdue : s.pwr.estAt < s.cycle / 2048) : ∃ t, exec .windbreakEstimate s = .next t ∧
    t.pwr = s.estimated ∧ t.act = [] ∧ t.raised = s.raised ∧ t.cells = s.cells ∧ ∀ p, (s.part p).Charged (t.part p) := by
  obtain ⟨hpwr, hraised, hcells, hparts⟩ := s.overNoted_kept
  obtain ⟨hpwr', hraised', hcells'⟩ := s.overNoted.chargeAll_kept s.tu.gust
  refine ⟨_, exec_windbreakEstimate_due hdue, hpwr'.trans hpwr, rfl, hraised'.trans hraised, hcells'.trans hcells, fun p => ?_⟩
  rw [State.part, ← hparts]
  exact s.overNoted.chargeAll_part s.tu.gust p

/-! ### Domains (R471, R474) -/

theorem exec_domainSwitch_idle {d : Nat} {on : Bool} {s : State}
    (h : s.wallNs < s.pwr.swNext ∨ s.firstDue on d = false ∨ (on = true ∧ s.onDue d = false) ∨ (on = false ∧ s.offDue d = false)) :
    exec (.domainSwitch d on) s = .next s := by
  refine if_pos (.inr ?_)
  rcases h with h | h | ⟨rfl, h⟩ | ⟨rfl, h⟩ <;> simp [h]

/-- The state in which a domain that is due is switched: the next switch is 10 us away. -/
def State.switching (s : State) : State := { s with pwr := { s.pwr with swNext := s.wallNs + 10000 } }

theorem exec_domainSwitch_on {d : Nat} {s : State} (hd : d < 96) (hwall : s.pwr.swNext ≤ s.wallNs) (hfirst : s.firstDue true d = true)
    (hdue : s.onDue d = true) : exec (.domainSwitch d true) s = .next (s.switching.domUp d).hubAct := by
  refine (if_neg ?_).trans rfl
  simp [hfirst, hdue]
  omega

theorem exec_domainSwitch_off {d : Nat} {s : State} (hd : d < 96) (hwall : s.pwr.swNext ≤ s.wallNs) (hfirst : s.firstDue false d = true)
    (hdue : s.offDue d = true) : exec (.domainSwitch d false) s = .next (s.switching.domDown d).hubAct := by
  refine (if_neg ?_).trans rfl
  simp [hfirst, hdue]
  omega

/-- Settles O49: an estimate, OVERPOWER and a domain switch, each when it is due and when it is not. -/
theorem windbreakAndDomains : Obligations.WindbreakAndDomains := by
  refine ⟨fun s h => if_pos h, fun s hdue => ?_, fun s => ⟨fun h => if_neg (Nat.not_le.2 h), fun h => ?_⟩,
    fun d on s hd => ⟨exec_domainSwitch_idle, fun hwall hfirst hon hoff => ?_⟩⟩
  · obtain ⟨t, hexec, hpwr, hact, hraised, hcells, hcharged⟩ := exec_windbreakEstimate hdue
    refine ⟨t, hexec, ?_, hact, ?_, ?_, ?_, ?_, fun hgust => ?_, hraised, ?_, hcells, hcharged⟩
    all_goals rw [hpwr]
    exacts [rfl, rfl, rfl, rfl, rfl, if_neg (by simp [hgust]), Power.estimate_dom ..]
  · exact ⟨_, if_pos h, ⟨_, rfl, rfl, rfl, rfl, rfl⟩, rfl, rfl⟩
  · cases on with
    | true =>
      obtain ⟨hup, -⟩ := s.switching.domUp_poweredUp d
      refine ⟨_, exec_domainSwitch_on hd hwall hfirst (hon rfl), hup.raised, ?_, fun e => ?_, fun _ => hup.st, nofun, fun k _ => ?_⟩
      · exact congrArg Power.swNext hup.pwr
      · rw [State.hubAct, State.domUp_dom _ hd]
        by_cases he : e = d <;> simp [he, State.switching]
      · exact congrArg (look Cell.zero · k) hup.cells
    | false =>
      have hdown := s.switching.domDown_poweredDown d
      have hdom : s.pwr.dom.getLsbD d = true := by
        have hdue := hoff rfl
        simp only [State.offDue, Bool.and_eq_true] at hdue
        exact hdue.1.1
      have hlose : s.switching.domDown d = s.switching.loseDom d := if_pos hdom
      refine ⟨_, exec_domainSwitch_off hd hwall hfirst (hoff rfl), hdown.raised, ?_, fun e => ?_, fun _ p => ?_, fun k _ hblock hk => ?_,
        fun k hother => ?_⟩
      · exact congrArg Power.swNext hdown.pwr
      · rw [State.hubAct, State.domDown_dom]
        by_cases he : e = d <;> simp [he, State.switching]
      · exact congrArg (fun m => (look Part.zero m p).st) hdown.parts
      · rw [hlose]
        exact loseDom_cell_of_block s.switching hblock hk
      · rw [hlose]
        exact loseDom_cell_of_other s.switching hother k

end Sys2Proof.Machine
end

