-- ==== Sys2Proof/Proofs/ThermalAndSupply.lean ====
section
/-! PROOF. Temperatures, coolant and supply (O50): stages and trips (R486), the two coolant limits (R487), converters, phases and rails (R468,
R469), and the lockouts that turn everything off (R471, R526, R527). -/

namespace Sys2Proof.Machine
open Sys2Proof.Stmt

/-! ### Everything off (R471, R526) -/

theorem mem_offOrder {d : Nat} (hd : d < 92) : d ∈ offOrder := by
  revert d
  decide

/-- Every domain of the table is off after all of them went off. -/
theorem allDomsDown_dom (s : State) : (s.domsDown allDoms).pwr.dom = 0 := by
  refine BitVec.eq_of_getLsbD_eq fun d hd => ?_
  rw [State.domsDown, foldl_domDown_dom]
  have hmem : d ∈ offOrder.filter (fun d => allDoms.contains d) ++ allDoms.filter (fun d => decide (92 ≤ d)) := by
    have hall : d ∈ allDoms := List.mem_range.2 hd
    rw [List.mem_append, List.mem_filter, List.mem_filter]
    by_cases h92 : d < 92
    · exact .inl ⟨mem_offOrder h92, List.contains_iff_mem.2 hall⟩
    · exact .inr ⟨hall, decide_eq_true (Nat.not_lt.1 h92)⟩
  rw [List.contains_iff_mem.2 hmem]
  simp

/-- A partition after every domain went off. -/
def Part.darkened (q : Part) : Part := if q.active? then { q.discard with st := .faulted } else q

theorem Part.darkened_st (q : Part) : q.darkened.st ≠ .armed ∧ q.darkened.st ≠ .running := by
  unfold Part.darkened
  split
  · exact ⟨nofun, nofun⟩
  next h => simpa [Part.active?] using h

/-- Every entry of a table that a function was applied to is its value at some entry, or the default. -/
theorem look_mapv_mem {α : Type} [DecidableEq α] (d : α) (m : SMap α) (f : Nat → α → α) (k : Nat) :
    look d (mapv d m f) k = d ∨ ∃ j v, look d (mapv d m f) k = f j v := by
  by_cases h : look d (mapv d m f) k = d
  · exact .inl h
  · obtain ⟨e, -, he⟩ := List.mem_map.1 (List.mem_filter.1 (mem_of_look_ne h)).1
    exact .inr ⟨e.1, e.2, (congrArg Prod.snd he).symm⟩

/-- Nothing draws after `State.allOff` under a lockout. -/
theorem allOff_allOff {s : State} (hpwr : s.pwr.lockout = true) (hseqr : s.seqr.lockout = true) : AllOff s.allOff := by
  have hdown := s.domsDown_poweredDown allDoms
  refine ⟨allDomsDown_dom s, (congrArg Power.lockout hdown.pwr).trans hpwr, (congrArg Seqr.lockout hdown.seqr).trans hseqr,
    fun p => ?_⟩
  have hpart : s.allOff.part p = look Part.zero (mapv Part.zero (s.domsDown allDoms).hubAct.parts (fun _ => Part.darkened)) p := rfl
  rw [hpart]
  rcases look_mapv_mem Part.zero (s.domsDown allDoms).hubAct.parts (fun _ => Part.darkened) p with h | ⟨_, q, h⟩
  · rw [h]
    exact ⟨nofun, nofun⟩
  · rw [h]
    exact q.darkened_st

theorem State.allOff_kept (s : State) : s.allOff.raised = s.raised ∧ s.allOff.io = s.io ∧ s.allOff.seqr.clip = s.seqr.clip := by
  have hdown := s.domsDown_poweredDown allDoms
  unfold State.allOff State.hubAct
  generalize s.domsDown allDoms = u at hdown ⊢
  exact ⟨hdown.raised, hdown.io, (congrArg Seqr.clip hdown.seqr :)⟩

/-- The state under a lockout (Table 18.1). -/
def State.lockedOut (s : State) : State := { s with pwr := { s.pwr with lockout := true }, seqr := { s.seqr with lockout := true } }

theorem exec_inputLockout {mV : Nat} {s : State} (h : mV < 38000 ∨ 63000 < mV) :
    ∃ t, exec (.inputLockout mV) s = .next t ∧ AllOff t ∧ t.raised = s.raised := by
  refine ⟨(s.setBus mV).lockedOut.allOff, ?_, allOff_allOff rfl rfl, (s.setBus mV).lockedOut.allOff_kept.1⟩
  change execInputLockout mV s = _
  rw [execInputLockout, if_pos h]
  rfl

/-- The state in which the open clip's domains go off: SUPPLY_UV is raised (R527). -/
def State.clipOpened (s : State) : State :=
  let u := ({ s with io := { s.io with clip := false } } : State).jobFault 0xB0 s.timeScope locHub (250 * s.pwr.busV) 0
  { u with seqr := { u.seqr with clip := true } }

theorem exec_clipDetOpen {s : State} (hdom : s.pwr.dom ≠ 0) : ∃ t, exec .clipDetOpen s = .next t ∧ AllOff t ∧ t.io.clip = false ∧
    t.seqr.clip = true ∧ RaisedOne s t .job 0xB0 s.timeScope := by
  obtain ⟨hraised, hio, hclip⟩ := s.clipOpened.lockedOut.allOff_kept
  exact ⟨s.clipOpened.lockedOut.allOff, if_neg hdom, allOff_allOff rfl rfl, congrArg Io.clip hio, hclip,
    _, hraised, rfl, rfl, rfl, rfl⟩

/-! ### Thermal stages and trips (R486) -/

theorem sensorOf_lt {g : SensorGroup} {idx : Nat} (h : sensorOf g idx = true) : idx < 64 := by
  cases g <;> simp only [sensorOf, decide_eq_true_eq] at h <;> omega

theorem thresholds_pos (g : SensorGroup) : 0 < (thresholds g).1 ∧ (thresholds g).2.2.2 < (thresholds g).1 := by
  cases g <;> decide

/-- A group one of whose sensors reads its stage 1 temperature is not clear. -/
theorem groupClear_of_hot {s : State} {g : SensorGroup} {idx : Nat} {c : Int} (hidx : sensorOf g idx = true)
    (hc : (thresholds g).1 ≤ c) {m : SMap Int} (hm : s.pwr.sensors = put 0 m (sensorKey g idx) c) :
    s.groupClear (stageGroup g) = false := by
  obtain ⟨hpos, hclear⟩ := thresholds_pos g
  have hlt := sensorOf_lt hidx
  have hlook : look 0 s.pwr.sensors (sensorKey g idx) = c := by rw [hm, look_put_same]
  have hmem : (sensorKey g idx, c) ∈ s.pwr.sensors := by
    have h := mem_of_look_ne (d := (0 : Int)) (m := s.pwr.sensors) (k := sensorKey g idx) (by omega)
    rwa [hlook] at h
  have hgroup : sensorKey g idx / 64 = groupNo g := by unfold sensorKey; omega
  have hg : g ∈ allGroups := by cases g <;> decide
  rw [State.groupClear, List.all_eq_false]
  refine ⟨g, hg, ?_⟩
  simp only [bne_self_eq_false, Bool.false_or, List.all_eq_true, not_forall]
  exact ⟨_, hmem, by simp [hgroup]; omega⟩

/-- A sensor's reading is held. -/
def State.sensed (s : State) (g : SensorGroup) (idx : Nat) (tempC : Int) : State :=
  let u : State := { s with pwr := { s.pwr with sensors := put 0 s.pwr.sensors (sensorKey g idx) tempC } }
  match g with
  | .stack => u.onStack idx (fun y => { y with tempC })
  | .cold => { u with cold := { u.cold with tempC } }
  | _ => u

theorem State.sensed_frame (s : State) (g : SensorGroup) (idx : Nat) (tempC : Int) : s.sensed g idx tempC = { s with
    pwr := { s.pwr with sensors := put 0 s.pwr.sensors (sensorKey g idx) tempC }
    stks := (s.sensed g idx tempC).stks, cold := (s.sensed g idx tempC).cold } := by
  cases g <;> rfl

/-- The stage of a group after a reading. -/
def State.reached (s : State) (g : SensorGroup) (tempC : Int) : Nat :=
  if s.groupClear (stageGroup g) then 0
  else max (look 0 s.pwr.stages (stageGroup g)) (if (thresholds g).2.1 ≤ tempC then 2 else if (thresholds g).1 ≤ tempC then 1 else 0)

/-- The stage of a group is taken. -/
def State.stagePut (s : State) (g : SensorGroup) (tempC : Int) : State :=
  { s with pwr := { s.pwr with stages := put 0 s.pwr.stages (stageGroup g) (s.reached g tempC) } }

/-- The thermal request follows the module's stage, which was `old`. -/
def State.thermalAsked (s : State) (old : Nat) : State :=
  { s with pwr := { s.pwr with
    thermReq := thermNext s.pwr.thermReq old s.stage s.tu.gust, stageAt := if s.stage = old then s.pwr.stageAt else s.wallNs } }

/-- The state that a reading below the trip temperature leaves. -/
def State.heated (s : State) (g : SensorGroup) (idx : Nat) (tempC : Int) : State :=
  ((s.sensed g idx tempC).stagePut g tempC).thermalAsked s.stage

/-- The domains that a trip measures are to go off. -/
def State.tripping (s : State) (g : SensorGroup) (idx : Nat) : State :=
  { s with pwr := { s.pwr with domOff := s.pwr.domOff ||| domMask (measured g idx)
                               tripGrp := (measured g idx).foldl (fun m d => put 0 m d (stageGroup g)) s.pwr.tripGrp }
           seqr := { s.seqr with trip := true } }

/-- The trip is raised against those who use the domains that the sensor measures. -/
def State.tripRaised (s : State) (g : SensorGroup) (idx : Nat) (tempC : Int) : State :=
  s.jobFault 0xB5 (s.scope (fun p => (measured g idx).any (fun d => s.usesDom p d))) locHub tempC.toNat (sensorKey g idx)

theorem exec_thermalSensorRead {g : SensorGroup} {idx : Nat} (c : Int) (s : State) (h : sensorOf g idx = true) :
    exec (.thermalSensorRead g idx c) s = if (thresholds g).2.2.1 ≤ c then
      .next (((s.heated g idx c).tripping g idx).tripRaised g idx c) else .next (s.heated g idx c) := by
  change execThermalSensorRead g idx c s = _
  unfold execThermalSensorRead
  rw [if_neg (by simp [h])]
  cases g <;> rfl

theorem State.heated_frame (s : State) (g : SensorGroup) (idx : Nat) (c : Int) : s.heated g idx c =
    { s with pwr := (s.heated g idx c).pwr, stks := (s.heated g idx c).stks, cold := (s.heated g idx c).cold } := by
  rw [State.heated, s.sensed_frame]
  rfl

/-- What a reading leaves of the power state: its sensor, its group's stage, the thermal request. -/
theorem State.heated_pwr (s : State) (g : SensorGroup) (idx : Nat) (c : Int) : (s.heated g idx c).pwr = { s.pwr with
    sensors := put 0 s.pwr.sensors (sensorKey g idx) c
    stages := put 0 s.pwr.stages (stageGroup g) ((s.sensed g idx c).reached g c)
    thermReq := thermNext s.pwr.thermReq s.stage (s.heated g idx c).stage s.tu.gust
    stageAt := (s.heated g idx c).pwr.stageAt } := by
  cases g <;> rfl

theorem State.sensed_pwr (s : State) (g : SensorGroup) (idx : Nat) (c : Int) :
    (s.sensed g idx c).pwr = { s.pwr with sensors := put 0 s.pwr.sensors (sensorKey g idx) c } := by
  cases g <;> rfl

theorem State.reached_hot (s : State) {g : SensorGroup} {idx : Nat} {c : Int} (hidx : sensorOf g idx = true)
    (hc : (thresholds g).1 ≤ c) : (s.sensed g idx c).reached g c =
      max (look 0 s.pwr.stages (stageGroup g)) (if (thresholds g).2.1 ≤ c then 2 else 1) := by
  have hclear := groupClear_of_hot (s := s.sensed g idx c) hidx hc (congrArg Power.sensors (s.sensed_pwr g idx c))
  rw [State.reached, hclear, s.sensed_pwr, if_pos hc]
  rfl

theorem thermNext_two (req a k : Nat) : thermNext req a 2 k = 5 := rfl
theorem thermNext_zero (req a k : Nat) : thermNext req a 0 k = 0 := rfl

/-- Between `s` and `t` a sensor was read, whether or not it trips. -/
def SensorRead (s t : State) (g : SensorGroup) (idx : Nat) (c : Int) : Prop :=
  t.parts = s.parts ∧ t.cells = s.cells ∧ t.pwr.dom = s.pwr.dom ∧ look 0 t.pwr.sensors (sensorKey g idx) = c ∧
  (∀ k, k ≠ sensorKey g idx → look 0 t.pwr.sensors k = look 0 s.pwr.sensors k) ∧
  ((thresholds g).1 ≤ c → look 0 t.pwr.stages (stageGroup g) =
    max (look 0 s.pwr.stages (stageGroup g)) (if (thresholds g).2.1 ≤ c then 2 else 1)) ∧
  (t.stage = 2 → t.pwr.thermReq = 5) ∧ (t.stage = 0 → t.pwr.thermReq = 0)

theorem sensorRead_heated (s : State) {g : SensorGroup} {idx : Nat} (c : Int) (hidx : sensorOf g idx = true) :
    SensorRead s (s.heated g idx c) g idx c := by
  have hpwr := s.heated_pwr g idx c
  have hreq := congrArg Power.thermReq hpwr
  have hsensors := congrArg Power.sensors hpwr
  refine ⟨?_, ?_, (congrArg Power.dom hpwr :), ?_, fun k hk => ?_, fun hc => ?_, fun h => ?_, fun h => ?_⟩
  · rw [s.heated_frame]
  · rw [s.heated_frame]
  · rw [hsensors, look_put_same]
  · rw [hsensors, look_put_ne _ _ _ hk]
  · rw [congrArg Power.stages hpwr, look_put_same, s.reached_hot hidx hc]
  · rw [hreq, h, thermNext_two]
  · rw [hreq, h, thermNext_zero]

/-- A trip changes nothing of what a sensor's reading says. -/
theorem SensorRead.trips {s u : State} {g : SensorGroup} {idx : Nat} {c : Int} (h : SensorRead s u g idx c) :
    SensorRead s ((u.tripping g idx).tripRaised g idx c) g idx c := h

theorem usesDom_congr {s t : State} (hparts : t.parts = s.parts) (hblocks : t.blocks = s.blocks) (p d : Nat) :
    t.usesDom p d = s.usesDom p d := by
  have hpart : t.part p = s.part p := by rw [State.part, hparts]; rfl
  have hblock (b : Nat) : t.block b = s.block b := by rw [State.block, hblocks]; rfl
  simp only [State.usesDom, hpart, hblock, State.ownBlocks, State.onStackK_congr hparts]

theorem State.scope_congr {s t : State} (hparts : t.parts = s.parts) {f g : Nat → Bool} (h : ∀ p, f p = g p) : t.scope f = s.scope g := by
  have hpart (p : Nat) : t.part p = s.part p := by rw [State.part, hparts]; rfl
  simp only [State.scope, State.activeParts, State.sameJob, hpart, h]

/-- A reading at the trip temperature or above: the sequencer's TRIP, the domains that are to go off and THERMAL_TRIP. -/
theorem exec_thermalSensorRead_trips {g : SensorGroup} {idx : Nat} {c : Int} (s : State) (hidx : sensorOf g idx = true)
    (hc : (thresholds g).2.2.1 ≤ c) : ∃ t, exec (.thermalSensorRead g idx c) s = .next t ∧ SensorRead s t g idx c ∧
      t.pwr.domOff = s.pwr.domOff ||| domMask (measured g idx) ∧ t.seqr.trip = true ∧
      RaisedOne s t .job 0xB5 (s.scope (fun p => (measured g idx).any (fun d => s.usesDom p d))) := by
  have hframe := s.heated_frame g idx c
  have hparts : ((s.heated g idx c).tripping g idx).parts = s.parts := (congrArg State.parts hframe :)
  have hblocks : ((s.heated g idx c).tripping g idx).blocks = s.blocks := (congrArg State.blocks hframe :)
  have hraised : ((s.heated g idx c).tripping g idx).raised = s.raised := (congrArg State.raised hframe :)
  have hcycle : ((s.heated g idx c).tripping g idx).cycle = s.cycle := (congrArg State.cycle hframe :)
  refine ⟨_, (exec_thermalSensorRead c s hidx).trans (if_pos hc), (sensorRead_heated s c hidx).trips, ?_, rfl, _,
    congrArg (· ++ [_]) hraised, rfl, rfl, ?_, hcycle⟩
  · exact (congrArg (fun x : Power => x.domOff ||| domMask (measured g idx)) (s.heated_pwr g idx c) :)
  · exact State.scope_congr hparts fun p => by simp only [usesDom_congr hparts hblocks]

theorem exec_thermalSensorRead_below {g : SensorGroup} {idx : Nat} {c : Int} (s : State) (hidx : sensorOf g idx = true)
    (hc : c < (thresholds g).2.2.1) : exec (.thermalSensorRead g idx c) s = .next (s.heated g idx c) :=
  (exec_thermalSensorRead c s hidx).trans (if_neg (Int.not_le.2 hc))

/-! ### Coolant (R487) -/

/-- A coolant reading, in its limit or not since `since`, leaves the power state `x`. -/
def State.coolantRead (s : State) (x : Power) (since : Option Nat) (v : Nat) : State :=
  if since.any (fun a => decide (a + 2 * 10 ^ 9 ≤ s.wallNs)) then
    ({ s with pwr := x, seqr := { s.seqr with coolant := true } } : State).jobFault 0xB6 s.timeScope locHub v 0
  else { s with pwr := x }

theorem exec_coolantLost_flow (v : Nat) (s : State) : exec (.coolantLost (.flow v)) s = .next (s.coolantRead
    { s.pwr with flow := v, lowFlow := badSince s.pwr.lowFlow (flowLow s.pwr.capW v) s.wallNs }
    (badSince s.pwr.lowFlow (flowLow s.pwr.capW v) s.wallNs) v) := by
  change execCoolantLost (.flow v) s = _
  unfold execCoolantLost State.coolantRead
  dsimp only
  split <;> rfl

theorem exec_coolantLost_inlet (c : Nat) (s : State) : exec (.coolantLost (.inlet c)) s = .next (s.coolantRead
    { s.pwr with inletC := c, hotInlet := badSince s.pwr.hotInlet (decide (45 < c)) s.wallNs }
    (badSince s.pwr.hotInlet (decide (45 < c)) s.wallNs) c) := by
  change execCoolantLost (.inlet c) s = _
  unfold execCoolantLost State.coolantRead
  dsimp only
  split <;> rfl

/-- What a coolant reading leaves: the power state it was given, and a fault when its limit has been exceeded for 2 s. -/
theorem State.coolantRead_kept (s : State) (x : Power) (since : Option Nat) (v : Nat) :
    (s.coolantRead x since v).parts = s.parts ∧ (s.coolantRead x since v).pwr = x ∧
    ((∀ a, since = some a → s.wallNs < a + 2 * 10 ^ 9) → (s.coolantRead x since v).raised = s.raised) ∧
    ∀ a, since = some a → a + 2 * 10 ^ 9 ≤ s.wallNs →
      RaisedOne s (s.coolantRead x since v) .job 0xB6 s.timeScope ∧ (s.coolantRead x since v).seqr.coolant = true := by
  unfold State.coolantRead
  cases since with
  | none => exact ⟨rfl, rfl, fun _ => rfl, nofun⟩
  | some a =>
    by_cases ha : a + 2 * 10 ^ 9 ≤ s.wallNs
    · rw [Option.any_some, decide_eq_true ha, if_pos rfl]
      exact ⟨rfl, rfl, fun h => absurd (h a rfl) (by omega), fun _ _ _ => ⟨⟨_, rfl, rfl, rfl, rfl, rfl⟩, rfl⟩⟩
    · rw [Option.any_some, decide_eq_false ha, if_neg Bool.false_ne_true]
      exact ⟨rfl, rfl, fun _ => rfl, fun b hb h => by cases hb; omega⟩

/-- A coolant quantity of which `since` says from when on it has been out of its limit, as one reading leaves it. -/
theorem State.coolantRead_limit (s : State) {x : Power} {old : Option Nat} {bad : Bool} (v : Nat) {field : Power → Option Nat}
    (hx : field x = badSince old bad s.wallNs)
    (hreq : ∀ y : State, (field y.pwr).isSome = true → y.thermalReq = 5) :
    let t := s.coolantRead x (badSince old bad s.wallNs) v
    (bad = false → field t.pwr = none ∧ t.raised = s.raised) ∧
    (bad = true → old = none → field t.pwr = some s.wallNs ∧ t.raised = s.raised ∧ t.thermalReq = 5) ∧
    ∀ a, bad = true → old = some a → field t.pwr = some a ∧ (s.wallNs < a + 2 * 10 ^ 9 → t.raised = s.raised) ∧
      (a + 2 * 10 ^ 9 ≤ s.wallNs → RaisedOne s t .job 0xB6 s.timeScope ∧ t.seqr.coolant = true) := by
  obtain ⟨-, hpwr, hquiet, hraised⟩ := s.coolantRead_kept x (badSince old bad s.wallNs) v
  dsimp only
  refine ⟨fun hgood => ?_, fun hbad hold => ?_, fun a hbad hold => ?_⟩
  · subst hgood
    exact ⟨by rw [hpwr, hx]; rfl, hquiet nofun⟩
  · subst hbad hold
    have hfield : field (s.coolantRead x (badSince none true s.wallNs) v).pwr = some s.wallNs := by rw [hpwr, hx]; rfl
    refine ⟨hfield, hquiet fun a ha => ?_, hreq _ (by rw [hfield]; rfl)⟩
    obtain rfl : s.wallNs = a := by simpa [badSince] using ha
    omega
  · subst hbad hold
    exact ⟨by rw [hpwr, hx]; rfl, fun h => hquiet fun b hb => by cases hb; exact h, hraised a rfl⟩

theorem thermalReq_of_lowFlow (y : State) (h : y.pwr.lowFlow.isSome = true) : y.thermalReq = 5 := by
  simp [State.thermalReq, h]

theorem thermalReq_of_hotInlet (y : State) (h : y.pwr.hotInlet.isSome = true) : y.thermalReq = 5 := by
  simp [State.thermalReq, h]

/-! ### Converters and rails (R468, R469) -/

/-- Converter `i` has stopped. -/
def State.converterOut (s : State) (i : Nat) : State :=
  ({ s with pwr := { s.pwr with convOk := s.pwr.convOk &&& ~~~(BitVec.ofNat 5 (2 ^ i)) } } : State).modEvent 0xC6 locHub i 0

theorem State.convCheck_pwr (s : State) (i : Nat) : (s.convCheck i).pwr = s.pwr := by
  unfold State.convCheck
  dsimp only
  split <;> rfl

/-- With four converters left, or with enough power for the allocations, nothing is raised; else CONVERTER_LOST is. -/
theorem State.convCheck_raised (s : State) (i : Nat) :
    let n := ((List.range 5).filter (fun j => s.pwr.convOk.getLsbD j)).length
    ((4 ≤ n ∨ s.allocSum ≤ 820 * n) → s.convCheck i = s) ∧
    (n < 4 → 820 * n < s.allocSum → s.convCheck i = s.jobFault 0xB2 s.timeScope locHub (820 * n) i) := by
  refine ⟨fun h => if_neg (by omega), fun hn hsum => if_pos ⟨hn, hsum⟩⟩

theorem exec_converterFailure {i : Nat} {s : State} (h : s.pwr.convOk.getLsbD i = true) :
    exec (.converterFailure i) s = .next ((s.converterOut i).convCheck i) := if_neg (by simp [h])

theorem exec_railFault {rail mV : Nat} {s : State}
    (h : 3 ≤ look 0 s.pwr.phLost rail ∨ 100 * mV < 95 * s.railMv rail ∨ 105 * s.railMv rail < 100 * mV) : exec (.railFault rail mV) s =
      .next (s.jobFault 0xB3 (s.scope (fun p => (railDoms rail).any (fun d => s.usesDom p d))) locHub mV rail) := by
  refine if_neg ?_
  simp only [offFive, Bool.not_eq_true', decide_eq_false_iff_not]
  omega

theorem exec_railFault_good {rail mV : Nat} {s : State} (hph : look 0 s.pwr.phLost rail < 3) (hlow : 95 * s.railMv rail ≤ 100 * mV)
    (hhigh : 100 * mV ≤ 105 * s.railMv rail) : exec (.railFault rail mV) s = .next s := by
  refine if_pos ⟨hph, ?_⟩
  simp only [offFive, Bool.not_eq_true', decide_eq_false_iff_not]
  omega

/-- Settles O50: sensors, the two coolant limits, converters, phases, rails, the supply's limits and the lockouts. -/
theorem thermalAndSupplyFaults : Obligations.ThermalAndSupplyFaults := by
  refine ⟨fun g idx c s h => if_pos (by simp [h]), fun g idx c s h => ?_, fun s => ?_, fun v s => ?_, fun c s => ?_,
    fun i s => ⟨fun h => if_pos (by simp [h]), fun h => ?_⟩, fun rail s => ?_, fun rail mV s => exec_railFault_good, fun rail mV s h => ?_,
    fun mV s => ⟨fun h => if_neg (Nat.not_lt.2 h), fun h => ?_⟩, fun mV s => ⟨fun h => if_neg (Nat.not_lt.2 h), fun h => ?_⟩,
    fun mV s => ⟨fun hlow hhigh => if_neg (by omega), exec_inputLockout⟩, fun s => ⟨fun h => if_pos h, fun h => ?_⟩⟩
  · by_cases hc : (thresholds g).2.2.1 ≤ c
    · obtain ⟨t, hexec, ⟨hparts, hcells, hdom, hread, hothers, hstage, htwo, hzero⟩, hoff, htrip, hraised⟩ :=
        exec_thermalSensorRead_trips s h hc
      exact ⟨t, hexec, hparts, hcells, hdom, hread, hothers, hstage, htwo, hzero, fun hlt => absurd hc (Int.not_le.2 hlt),
        fun _ => ⟨hoff, htrip, hraised⟩⟩
    · obtain ⟨hparts, hcells, hdom, hread, hothers, hstage, htwo, hzero⟩ := sensorRead_heated s c h
      exact ⟨_, exec_thermalSensorRead_below s h (Int.not_le.1 hc), hparts, hcells, hdom, hread, hothers, hstage, htwo, hzero,
        fun _ => ⟨(congrArg State.raised (s.heated_frame g idx c) :), (congrArg Power.domOff (s.heated_pwr g idx c) :)⟩,
        fun hle => absurd hle hc⟩
  · change execThermalStageStep s = _
    unfold execThermalStageStep
    split <;> rfl
  · obtain ⟨hparts, hpwr, -, -⟩ := s.coolantRead_kept
      { s.pwr with flow := v, lowFlow := badSince s.pwr.lowFlow (flowLow s.pwr.capW v) s.wallNs }
      (badSince s.pwr.lowFlow (flowLow s.pwr.capW v) s.wallNs) v
    obtain ⟨hgood, hfirst, hlater⟩ := s.coolantRead_limit (bad := flowLow s.pwr.capW v) (old := s.pwr.lowFlow)
      (x := { s.pwr with flow := v, lowFlow := badSince s.pwr.lowFlow (flowLow s.pwr.capW v) s.wallNs }) v rfl thermalReq_of_lowFlow
    refine ⟨_, exec_coolantLost_flow v s, hparts, ?_, fun h => hgood (decide_eq_false (Nat.not_lt.2 h)),
      fun h => hfirst (decide_eq_true h), fun a h => hlater a (decide_eq_true h)⟩
    rw [hpwr]
  · obtain ⟨hparts, hpwr, -, -⟩ := s.coolantRead_kept
      { s.pwr with inletC := c, hotInlet := badSince s.pwr.hotInlet (decide (45 < c)) s.wallNs }
      (badSince s.pwr.hotInlet (decide (45 < c)) s.wallNs) c
    obtain ⟨hgood, hfirst, hlater⟩ := s.coolantRead_limit (bad := decide (45 < c)) (old := s.pwr.hotInlet)
      (x := { s.pwr with inletC := c, hotInlet := badSince s.pwr.hotInlet (decide (45 < c)) s.wallNs }) c rfl thermalReq_of_hotInlet
    refine ⟨_, exec_coolantLost_inlet c s, hparts, ?_, fun h => hgood (decide_eq_false (Nat.not_lt.2 h)),
      fun h => hfirst (decide_eq_true h), fun a h => hlater a (decide_eq_true h)⟩
    rw [hpwr]
  · obtain ⟨hquiet, hlost⟩ := (s.converterOut i).convCheck_raised i
    refine ⟨_, exec_converterFailure h, fun j => ?_, fun hfew => ?_, fun hn hsum => ?_⟩
    · rw [State.convCheck_pwr]
      exact getLsbD_clear_two_pow _ i j
    · rw [State.convCheck_pwr] at hfew
      rw [hquiet hfew]
      exact ⟨_, rfl, rfl, rfl, rfl, rfl⟩
    · rw [State.convCheck_pwr] at hn hsum
      rw [hlost hn hsum]
      exact ⟨_, _, List.append_assoc .., rfl, rfl, rfl, rfl⟩
  · exact ⟨_, rfl, ⟨_, rfl, rfl, rfl, rfl, rfl⟩, look_put_same .., fun j hj => look_put_ne _ _ _ hj⟩
  · exact ⟨_, exec_railFault h, rfl, _, rfl, rfl, rfl, rfl, rfl⟩
  · exact ⟨_, if_pos h, ⟨_, rfl, rfl, rfl, rfl, rfl⟩, rfl, rfl⟩
  · exact ⟨_, if_pos h, ⟨_, rfl, rfl, rfl, rfl, rfl⟩, rfl, rfl⟩
  · exact exec_clipDetOpen h

end Sys2Proof.Machine
end

