-- ==== Sys2Proof/Proofs/NewKeys.lean ====
section
/-! SUPPORT. New keys of a partition (R217, R218, R417, R421): the keys taken, the key slots that hold them, and the leases that are to be
zeroised. -/

namespace Sys2Proof.Machine
open Sys2Proof.Stmt

/-- A partition's keys are replaced by those from `k` on, `l` then being what is to be zeroised (R417, R421). -/
def Part.rekeyed (q : Part) (k : Nat) (l : List (Tier × Nat)) : Part :=
  { q with stackKey := k, coldKey := k + 1, setA := {}, setB := {}
           sx := { q.sx with keyGen := q.sx.keyGen + 1, wrapGen := k + 2, zeroPend := l, cleanKeys := true
                             jobKey := none, jobKeyWait := none } }

theorem Part.rekeyed_allLeases (q : Part) (k : Nat) (l : List (Tier × Nat)) : (q.rekeyed k l).allLeases = q.allLeases := rfl

/-- Between `s` and `t` partition `p` took new keys. -/
structure Rekeyed (s t : State) (p : Nat) : Prop where
  frame : t = { s with nextKey := s.nextKey + 3, stks := t.stks, cold := t.cold, parts := t.parts }
  same : ∃ l, t.part p = (s.part p).rekeyed s.nextKey l ∧ (∀ e ∈ (s.part p).allLeases, e ∈ l) ∧ ∀ e ∈ (s.part p).sx.zeroPend, e ∈ l
  other : ∀ q, q ≠ p → t.part q = s.part q
  stackSlot : ∀ k, k < 12 → s.pwr.dom.getLsbD (64 + k) = true →
    look 0 (t.stack k).keys p = if s.onStackK p k then s.nextKey else 0
  coldSlot : s.pwr.dom.getLsbD 93 = true → look 0 t.cold.keys p = s.nextKey + 1

/-- The partition with its new keys, before its leases are marked. -/
def State.keysDrawn (s : State) (p : Nat) : State :=
  ({ s with nextKey := s.nextKey + 3 } : State).onPart p (fun q => q.rekeyed s.nextKey q.sx.zeroPend)

theorem State.newKeys_eq (s : State) (p : Nat) : s.newKeys p =
    (((s.keysDrawn p).part p).allLeases.foldl (fun s e => s.pendLease p false (fun _ => true) e) (s.keysDrawn p)).fillSlots p := rfl

theorem State.keysDrawn_part_same (s : State) (p : Nat) :
    (s.keysDrawn p).part p = (s.part p).rekeyed s.nextKey (s.part p).sx.zeroPend := State.onPart_part_same ..

theorem State.keysDrawn_part_ne (s : State) {p q : Nat} (h : q ≠ p) : (s.keysDrawn p).part q = s.part q :=
  State.onPart_part_ne ({ s with nextKey := s.nextKey + 3 } : State) _ h

theorem State.onStackK_of_part {s t : State} {p : Nat} (h : ∃ k l, t.part p = (s.part p).rekeyed k l) (i : Nat) :
    t.onStackK p i = s.onStackK p i := by
  obtain ⟨k, l, h⟩ := h
  unfold State.onStackK
  rw [h]
  rfl

theorem State.newKeys_rekeyed (s : State) (p : Nat) : Rekeyed s (s.newKeys p) p := by
  obtain ⟨u, hu⟩ : ∃ u, u = s.keysDrawn p := ⟨_, rfl⟩
  have hown : u.part p = (s.part p).rekeyed s.nextKey (s.part p).sx.zeroPend := hu ▸ s.keysDrawn_part_same p
  have hothers : ∀ q, q ≠ p → u.part q = s.part q := fun q hq => hu ▸ s.keysDrawn_part_ne hq
  have hframe : u = { s with nextKey := s.nextKey + 3, parts := u.parts } := by rw [hu]; rfl
  obtain ⟨hpends, hmem⟩ := pends_foldl u p false (fun _ => true) (u.part p).allLeases
  rw [State.newKeys_eq, ← hu]
  generalize (u.part p).allLeases.foldl (fun s e => s.pendLease p false (fun _ => true) e) u = v at hpends hmem ⊢
  obtain ⟨l, hl, hsub⟩ := hpends.same
  have hlist : (v.part p).sx.zeroPend = l := by rw [hl]
  have hpart : v.part p = (s.part p).rekeyed s.nextKey l := by rw [hl, hown]; rfl
  have hpwr : v.pwr = s.pwr := by rw [hpends.frame, hframe]
  refine ⟨?_, ⟨l, ?_, fun e he => ?_, fun e he => ?_⟩, fun q hq => ?_, fun k hk hon => ?_, fun hon => ?_⟩
  · rw [v.fillSlots_frame p, hpends.frame, hframe]
  · rw [v.fillSlots_part, hpart]
  · exact hlist ▸ hmem e (by rw [hown]; exact he)
  · exact hsub e (by rw [hown]; exact he)
  · rw [v.fillSlots_part, hpends.other q hq, hothers q hq]
  · rw [State.fillSlots_stackKey hk (by rw [hpwr]; exact hon), State.slotFill, State.onStackK_of_part ⟨_, _, hpart⟩, hpart]
    rfl
  · rw [State.fillSlots_coldKey (by rw [hpwr]; exact hon), hpart]
    rfl

section
variable {s t : State} {p : Nat}

theorem Rekeyed.keyGen (h : Rekeyed s t p) : (t.part p).sx.keyGen = (s.part p).sx.keyGen + 1 := by
  obtain ⟨l, hl, -⟩ := h.same
  rw [hl]; rfl

theorem Rekeyed.stackKey (h : Rekeyed s t p) : (t.part p).stackKey = s.nextKey := by
  obtain ⟨l, hl, -⟩ := h.same
  rw [hl]; rfl

theorem Rekeyed.pending (h : Rekeyed s t p) : ∀ e ∈ (t.part p).allLeases, e ∈ (t.part p).sx.zeroPend := by
  obtain ⟨l, hl, hmem, -⟩ := h.same
  rw [hl]
  exact hmem

end

/-! ### New keys for every partition (R421) -/

/-- One partition that exists takes new keys. -/
def State.rekeyTurn (s : State) (p : Nat) : State := if s.exists? p then s.newKeys p else s

/-- A partition that exists, once every partition has new keys. -/
def RekeyedAll (s t : State) : Prop :=
  t = { s with nextKey := t.nextKey, stks := t.stks, cold := t.cold, parts := t.parts } ∧
  ∀ p, p < 16 → (s.part p).sx.created = true → (t.part p).sx.keyGen = (s.part p).sx.keyGen + 1 ∧
    (∀ e ∈ (t.part p).allLeases, e ∈ (t.part p).sx.zeroPend) ∧ s.nextKey ≤ (t.part p).stackKey

theorem State.rekeyTurn_frame (s : State) (p : Nat) : (s.rekeyTurn p) =
      { s with nextKey := (s.rekeyTurn p).nextKey, stks := (s.rekeyTurn p).stks, cold := (s.rekeyTurn p).cold
               parts := (s.rekeyTurn p).parts } ∧ s.nextKey ≤ (s.rekeyTurn p).nextKey := by
  unfold State.rekeyTurn
  split
  · have h := (s.newKeys_rekeyed p).frame
    generalize s.newKeys p = t at h ⊢
    refine ⟨?_, ?_⟩
    · rw [h]
    · rw [h]; exact Nat.le_add_right ..
  · exact ⟨rfl, le_refl _⟩

theorem State.rekeyTurn_part_ne (s : State) (p q : Nat) (h : q ≠ p) : (s.rekeyTurn p).part q = s.part q := by
  unfold State.rekeyTurn
  split
  · exact (s.newKeys_rekeyed p).other q h
  · rfl

theorem foldl_rekeyTurn_nextKey (l : List Nat) (s : State) : s.nextKey ≤ (l.foldl State.rekeyTurn s).nextKey :=
  List.foldlRecOn l _ (motive := fun t : State => s.nextKey ≤ t.nextKey) (le_refl _) fun t ht p _ => ht.trans (t.rekeyTurn_frame p).2

theorem foldl_rekeyTurn_frame (l : List Nat) (s : State) : l.foldl State.rekeyTurn s =
    { s with nextKey := (l.foldl State.rekeyTurn s).nextKey, stks := (l.foldl State.rekeyTurn s).stks
             cold := (l.foldl State.rekeyTurn s).cold, parts := (l.foldl State.rekeyTurn s).parts } :=
  List.foldlRecOn l _ (motive := fun t : State => t = { s with nextKey := t.nextKey, stks := t.stks, cold := t.cold, parts := t.parts })
    rfl fun t ht p _ => by
      have h := (t.rekeyTurn_frame p).1
      generalize t.rekeyTurn p = u at h ⊢
      rw [h, ht]

theorem rekeyedAll (s : State) : RekeyedAll s (allParts.foldl State.rekeyTurn s) := by
  refine ⟨foldl_rekeyTurn_frame allParts s, fun p hp hcreated => ?_⟩
  obtain ⟨l₁, l₂, hl⟩ := List.append_of_mem (List.mem_range.2 hp)
  obtain ⟨hp₁, hp₂⟩ : p ∉ l₁ ∧ p ∉ l₂ := by
    have hd := hl ▸ List.nodup_range (n := 16)
    simpa using (List.nodup_middle.1 hd).notMem
  have hbefore : (l₁.foldl State.rekeyTurn s).part p = s.part p := foldl_part_of_not_mem State.rekeyTurn_part_ne hp₁ s
  have hkey := foldl_rekeyTurn_nextKey l₁ s
  rw [allParts, hl, List.foldl_append, List.foldl_cons, foldl_part_of_not_mem State.rekeyTurn_part_ne hp₂]
  generalize l₁.foldl State.rekeyTurn s = u at hbefore hkey ⊢
  have hturn : u.rekeyTurn p = u.newKeys p := if_pos (by simp [State.exists?, hp, hbefore, hcreated])
  have hrekeyed := u.newKeys_rekeyed p
  rw [hturn]
  exact ⟨by rw [hrekeyed.keyGen, hbefore], hrekeyed.pending, by rw [hrekeyed.stackKey]; exact hkey⟩

end Sys2Proof.Machine
end

