-- ==== Sys2Proof/Proofs/ResetAndStartUp.lean ====
section
/-! PROOF. Module reset and start-up: O51. -/

namespace Sys2Proof.Machine
open Sys2Proof.Stmt

/-! ### What a reset leaves (R506) -/

/-- What every partition is after a reset, and what of it its layout gives. -/
theorem resetBegun_beginReset (s : State) : ResetBegun s s.beginReset := by
  refine ⟨rfl, rfl, rfl, rfl, rfl, rfl, rfl, rfl, rfl, rfl, rfl, rfl, rfl, rfl, rfl, rfl, rfl, rfl, rfl, rfl, fun k => ?_, fun p => ?_⟩
  · have hstack : s.beginReset.stack k = look Stack.zero (mapv Stack.zero s.stks fun _ => Stack.afterReset) k := rfl
    rw [hstack]
    refine ⟨?_, fun hwf => ?_⟩
    · rcases look_mapv_mem Stack.zero s.stks (fun _ => Stack.afterReset) k with h | ⟨_, y, h⟩ <;> rw [h] <;> rfl
    · rw [look_mapv _ _ _ (fun _ => rfl) (Bool.and_eq_true_iff.1 hwf).1]; rfl
  · have hpart : s.beginReset.part p = look Part.zero (mapv Part.zero s.parts fun _ => Part.afterReset) p := rfl
    have hreset : (s.beginReset.part p).st = .empty ∧ (s.beginReset.part p).image = none ∧ (s.beginReset.part p).stackKey = 0 ∧
        (s.beginReset.part p).jb = {} := by
      rw [hpart]
      rcases look_mapv_mem Part.zero s.parts (fun _ => Part.afterReset) p with h | ⟨_, q, h⟩ <;> rw [h] <;> exact ⟨rfl, rfl, rfl, rfl⟩
    refine ⟨hreset.1, hreset.2.1, hreset.2.2.1, hreset.2.2.2, fun hwf => ?_⟩
    rw [State.part_of_parts_mapv (u := s.beginReset) hwf rfl rfl p]
    exact ⟨rfl, rfl, rfl, rfl, rfl⟩

/-! ### The calibration set that start-up writes is valid (R511, R513, R514) -/

/-- The records a set has of a unit. -/
def calCount (c : CalSet) (k u : Nat) : Nat := (c.recs.filter (fun r => decide (r.kind = k ∧ r.unit = u))).length

/-- A set that needs only its DIGEST to be valid (R511). -/
def CalWhole (serial : Nat) (fused : BitVec 64) (c : CalSet) : Prop :=
  c.format = calFormat ∧ c.serial = serial ∧ c.shadow.length ≤ 1 ∧ ∀ k ∈ [1, 2, 3, 4, 5], ∀ u ∈ calUnits fused k, calCount c k u = 1

section
variable {serial : Nat} {fused : BitVec 64} {c : CalSet}

theorem calWhole_of_valid (h : calValid serial fused c = true) : CalWhole serial fused c := by
  obtain ⟨hhead, hrecs⟩ := Bool.and_eq_true_iff.1 h
  obtain ⟨hformat, hserial, -, hshadow⟩ := of_decide_eq_true hhead
  exact ⟨hformat, hserial, hshadow, fun k hk u hu => of_decide_eq_true (List.all_eq_true.1 (List.all_eq_true.1 hrecs k hk) u hu)⟩

theorem CalWhole.valid_sealed (h : CalWhole serial fused c) : calValid serial fused (calSealed c) = true := by
  obtain ⟨hformat, hserial, hshadow, hrecs⟩ := h
  exact Bool.and_eq_true_iff.2 ⟨decide_eq_true ⟨hformat, hserial, rfl, hshadow⟩,
    List.all_eq_true.2 fun k hk => List.all_eq_true.2 fun u hu => decide_eq_true (hrecs k hk u hu)⟩

/-- Replacing measured values keeps every unit's one record. -/
theorem calCount_calPut (h : calCount c k u = 1) (kind unit : Nat) (meas : List Nat) : calCount (calPut c kind unit meas) k u = 1 := by
  unfold calPut
  split
  next hany =>
    have hmap : (fun r : CalRec => decide (r.kind = k ∧ r.unit = u)) ∘ (fun r => if r.kind = kind ∧ r.unit = unit then { r with meas } else r) =
        fun r => decide (r.kind = k ∧ r.unit = u) := by
      funext r
      simp only [Function.comp]
      split <;> rfl
    rw [calCount, List.filter_map, hmap, List.length_map]
    exact h
  next hnone =>
    rw [calCount, List.filter_append, List.length_append]
    have hother : ¬ (kind = k ∧ unit = u) := by
      rintro ⟨rfl, rfl⟩
      exact hnone (List.any_eq_true.2 (by
        obtain ⟨r, hr⟩ := List.exists_mem_of_length_pos (by rw [calCount] at h; rw [h]; exact Nat.one_pos)
        exact ⟨r, (List.mem_filter.1 hr).1, (List.mem_filter.1 hr).2⟩))
    simpa [calCount, hother] using h

theorem CalWhole.put (h : CalWhole serial fused c) (kind unit : Nat) (meas : List Nat) :
    CalWhole serial fused (calPut c kind unit meas) := by
  obtain ⟨hformat, hserial, hshadow, hrecs⟩ := h
  have hheader : (calPut c kind unit meas).format = c.format ∧ (calPut c kind unit meas).serial = c.serial ∧
      (calPut c kind unit meas).shadow = c.shadow := by
    unfold calPut
    split <;> exact ⟨rfl, rfl, rfl⟩
  obtain ⟨hf, hs, hsh⟩ := hheader
  exact ⟨hf.trans hformat, hs.trans hserial, hsh ▸ hshadow, fun k hk u hu => calCount_calPut (hrecs k hk u hu) kind unit meas⟩

theorem CalWhole.foldl {α : Type} {f : CalSet → α → CalSet} (hf : ∀ c a, CalWhole serial fused c → CalWhole serial fused (f c a))
    (h : CalWhole serial fused c) (l : List α) : CalWhole serial fused (l.foldl f c) :=
  List.foldlRecOn l f h fun c hc a _ => hf c a hc

theorem calUnits_nodup (fused : BitVec 64) (k : Nat) : (calUnits fused k).Nodup := by
  unfold calUnits
  split
  · exact List.nodup_range
  · exact List.nodup_range.filter _
  · exact List.nodup_range.filter _
  · exact List.nodup_range
  · exact List.nodup_range
  · exact List.nodup_nil

theorem calWhole_blankSet (serial : Nat) (fused : BitVec 64) : CalWhole serial fused (blankSet serial fused) := by
  refine ⟨rfl, rfl, Nat.zero_le _, fun k hk u hu => ?_⟩
  have hkind : ∀ j, (((calUnits fused j).map (fun u => ({ kind := j, unit := u } : CalRec))).filter
      (fun r => decide (r.kind = k ∧ r.unit = u))).length = if j = k then 1 else 0 := by
    intro j
    rw [List.filter_map, List.length_map]
    split
    next h =>
      subst h
      have hcount := List.count_eq_one_of_mem (calUnits_nodup fused j) hu
      rw [List.count_eq_length_filter] at hcount
      convert hcount using 3
      funext x
      simp [beq_eq_decide]
    next h => simp [h]
  simp only [calCount, blankSet, List.foldl_cons, List.foldl_nil, List.nil_append, List.filter_append, List.length_append, hkind]
  fin_cases hk <;> rfl

end

theorem measuredSet_valid (s : State) (b : BootOut) : calValid s.fuses.serial s.fuses.fused (s.measuredSet b) = true := by
  have hold : CalWhole s.fuses.serial s.fuses.fused (if s.calOk then s.calFlash else blankSet s.fuses.serial s.fuses.fused) := by
    split
    next h => exact calWhole_of_valid h
    next => exact calWhole_blankSet _ _
  have hports := hold.foldl (f := fun c (e : Nat × TrainOut) =>
    if trainOk e.2 then calPut c 1 e.1 [latOf e.2.storm8, ceil8 (e.2.storm8 - e.2.quiet8), e.2.storm8] else c)
    (fun c e hc => by split; exacts [hc.put .., hc]) b.ports
  have hoffsets := hports.foldl (f := fun c (e : Nat × Nat) => calPut c 2 e.1 [e.2]) (fun c e hc => hc.put ..) b.offsets
  have hheader : ∀ c : CalSet, CalWhole s.fuses.serial s.fuses.fused c →
      CalWhole s.fuses.serial s.fuses.fused { c with writer := 3, hallNs := s.hallNow } := fun c hc => hc
  exact ((hheader _ hoffsets).foldl (fun c i hc => hc.put ..) _).valid_sealed

/-! ### Start-up boots both processors (R437, R508, R510) -/

/-- The calibration set in flash, and what start-up settles with the firmware it selects. -/
def State.booted (s : State) : CalSet × BitVec 16 × Bool × Hash × Hash × FwT × FwT × Fuses :=
  (s.calFlash, s.boot.resets, s.mgmtDown, s.spRun, s.mgRun, s.spFw, s.mgFw, s.fuses)

theorem PoweredUp.booted {s t : State} (h : PoweredUp s t) : t.booted = s.booted := by
  unfold State.booted
  rw [h.frame]

theorem State.onStack_booted (s : State) (k : Nat) (f : Stack → Stack) : (s.onStack k f).booted = s.booted := (rfl)
theorem State.onPort_booted (s : State) (k : Nat) (f : Port → Port) : (s.onPort k f).booted = s.booted := (rfl)
theorem State.onIsland_booted (s : State) (k : Nat) (f : Island → Island) : (s.onIsland k f).booted = s.booted := (rfl)
theorem State.withCold_booted (s : State) (c : Cold) : ({ s with cold := c } : State).booted = s.booted := (rfl)

theorem State.withCal_booted (s : State) (c d : CalSet) (n : Nat) :
    ({ s with calFlash := c, calLoad := d, boot := { s.boot with calSource := n } } : State).booted = (c, s.booted.2) := (rfl)

theorem State.identified_booted (s : State) (f : BitVec 4) (x : Io) :
    ({ s with boot := { s.boot with idFail := f }, io := x } : State).booted = s.booted := (rfl)

theorem foldl_booted {α : Type} {f : State → α → State} (h : ∀ s a, (f s a).booted = s.booted) (l : List α) (s : State) :
    (l.foldl f s).booted = s.booted := foldl_invariant State.booted h l s

theorem State.settleFailing_booted (s : State) (k ch : Nat) : (s.settleFailing k ch).booted = s.booted := by
  unfold State.settleFailing
  dsimp only
  repeat' split
  all_goals rfl

theorem State.fixColumn_booted (s : State) (e : Nat × Nat × Nat × Nat) : (s.fixColumn e).booted = s.booted := by
  unfold State.fixColumn
  dsimp only
  split
  · rw [State.settleFailing_booted, State.onStack_booted]
  · rw [State.onStack_booted]

theorem State.identify_booted (s : State) (b : BootOut) : (s.identify b).booted = s.booted := by
  have hcolumns := foldl_booted State.fixColumn_booted b.columns
  have hrecords := foldl_booted (fun s k => s.onStack_booted k Stack.unread) b.recordsBad
  unfold State.identify
  dsimp only
  generalize hu : b.columns.foldl State.fixColumn _ = u
  have hkept : u.booted = s.booted := by rw [← hu, hcolumns, hrecords, State.identified_booted]
  split <;> exact hkept

theorem State.startDoms_booted (s : State) : s.startDoms.booted = s.booted := by
  have hdoms := foldl_booted (f := fun s d => if s.wantsDom d then s.domUp d else s)
    (fun s d => by split; exacts [(s.domUp_poweredUp d).1.booted, rfl]) onOrder { s with boot := { s.boot with phase := .memory } }
  rw [State.startDoms]
  generalize List.foldl _ _ _ = u at hdoms ⊢
  exact hdoms

theorem State.loadCal_booted (s : State) (c : CalSet) : (s.loadCal c).booted = s.booted := by
  simp only [State.loadCal, foldl_booted, State.onPort_booted, State.onIsland_booted, implies_true]

theorem State.calibrate_booted (s : State) (b : BootOut) : (s.calibrate b).booted = (s.measuredSet b, s.booted.2) := by
  have hfresh : ∀ t : State, t.fresh.booted = t.booted := fun t => (rfl)
  simp only [State.calibrate, apply_ite State.booted, State.withCold_booted, foldl_booted, State.onStack_booted,
    State.onPort_booted, hfresh, State.loadCal_booted, State.withCal_booted, implies_true, ite_self]

/-- The module once both processors have booted. -/
def State.processorsUp (s : State) (b : BootOut) : State := ((s.auditReset.identify b).startDoms).calibrate b

theorem State.processorsUp_booted (s : State) (b : BootOut) : ∃ c, calValid s.fuses.serial s.fuses.fused c = true ∧
    (s.processorsUp b).booted = (c, s.booted.2) := by
  have hstart : ((s.auditReset.identify b).startDoms).booted = s.booted :=
    (State.startDoms_booted _).trans (State.identify_booted _ b)
  have hbooted := ((s.auditReset.identify b).startDoms).calibrate_booted b
  have hvalid := measuredSet_valid ((s.auditReset.identify b).startDoms) b
  unfold State.processorsUp
  generalize (s.auditReset.identify b).startDoms = u at hstart hbooted hvalid ⊢
  have hfuses : u.fuses = s.fuses := congrArg (fun x => x.2.2.2.2.2.2.2) hstart
  exact ⟨u.measuredSet b, by rw [← hfuses]; exact hvalid, by rw [hbooted, hstart]⟩

/-- Start-up has the outcome that the firmware that verifies gives it. -/
theorem State.startUp_outcome (s : State) (b : BootOut) : (s.startUp b).boot.resets = s.boot.resets ∧
    ((s.spFw.select = none ∨ s.mgFw.select = none) → (s.startUp b).boot.phase = .bootFail ∧ (s.startUp b).parts = s.parts) ∧
    (∀ x i y j, s.spFw.select = some (x, i) → s.mgFw.select = some (y, j) → (s.startUp b).boot.phase = .calibration ∧
      (s.startUp b).mgmtDown = false ∧ (s.startUp b).spRun = i.digest ∧ (s.startUp b).mgRun = j.digest ∧
      (s.startUp b).spFw.bankB = x ∧ (s.startUp b).mgFw.bankB = y ∧
      calValid s.fuses.serial s.fuses.fused (s.startUp b).calFlash = true) := by
  have hfail : (s.spFw.select = none ∨ s.mgFw.select = none) → s.startUp b =
      ({ s with tu := { s.tu with refOk := b.refOk, refLocal := !b.refOk }, boot := { s.boot with phase := .bootFail } } : State).hubAct := by
    rintro (h | h)
    · simp only [State.startUp, State.bootFw, h]
    · rcases hsp : s.spFw.select with _ | ⟨x, i⟩ <;> simp only [State.startUp, State.bootFw, h, hsp]
  have hup : ∀ x i y j, s.spFw.select = some (x, i) → s.mgFw.select = some (y, j) → (s.startUp b).boot.phase = .calibration ∧
      ∃ c, calValid s.fuses.serial s.fuses.fused c = true ∧ (s.startUp b).booted =
        (c, s.boot.resets, false, i.digest, j.digest, { s.spFw with bankB := x }, { s.mgFw with bankB := y }, s.fuses) := by
    intro x i y j hsp hmg
    obtain ⟨u, hu, hs⟩ : ∃ u : State, u.booted = (s.calFlash, s.boot.resets, false, i.digest, j.digest, { s.spFw with bankB := x },
        { s.mgFw with bankB := y }, s.fuses) ∧
        s.startUp b = { u.processorsUp b with boot := { (u.processorsUp b).boot with phase := .calibration } } :=
      ⟨_, rfl, by simp only [State.startUp, State.bootFw, hsp, hmg]; rfl⟩
    obtain ⟨c, hvalid, hkept⟩ := u.processorsUp_booted b
    have hfuses : u.fuses = s.fuses := congrArg (fun x => x.2.2.2.2.2.2.2) hu
    rw [hs]
    generalize u.processorsUp b = v at hkept ⊢
    exact ⟨rfl, c, hfuses ▸ hvalid, hkept.trans (by rw [hu])⟩
  refine ⟨?_, fun h => ?_, fun x i y j hsp hmg => ?_⟩
  · rcases hsp : s.spFw.select with _ | ⟨x, i⟩
    · rw [hfail (.inl hsp)]; rfl
    · rcases hmg : s.mgFw.select with _ | ⟨y, j⟩
      · rw [hfail (.inr hmg)]; rfl
      · obtain ⟨-, c, -, hbooted⟩ := hup x i y j hsp hmg
        exact congrArg (fun x => x.2.1) hbooted
  · rw [hfail h]
    exact ⟨rfl, rfl⟩
  · obtain ⟨hphase, c, hvalid, hbooted⟩ := hup x i y j hsp hmg
    generalize s.startUp b = t at hphase hbooted ⊢
    injection hbooted with hcal h
    injection h with _ h
    injection h with hdown h
    injection h with hsprun h
    injection h with hmgrun h
    injection h with hspfw h
    injection h with hmgfw _
    exact ⟨hphase, hdown, hsprun, hmgrun, congrArg FwT.bankB hspfw, congrArg FwT.bankB hmgfw, hcal ▸ hvalid⟩

/-! ### READY: domains as R471 wants them, and new keys (R421, R471) -/

/-- Between `s` and `t` domains were switched: nothing but leases to zeroise is added to a partition, and no key, firmware or phase
changes. -/
structure DomsSet (s t : State) : Prop where
  kept : t.boot = s.boot ∧ t.nextKey = s.nextKey ∧ t.mgmtDown = s.mgmtDown ∧ t.spRun = s.spRun ∧ t.mgRun = s.mgRun ∧ t.keys = s.keys
  parts : ∀ p, (t.part p).sx.created = (s.part p).sx.created ∧ (t.part p).sx.keyGen = (s.part p).sx.keyGen

theorem DomsSet.trans {s t u : State} (hst : DomsSet s t) (htu : DomsSet t u) : DomsSet s u := by
  obtain ⟨⟨h1, h2, h3, h4, h5, h6⟩, hp⟩ := hst
  obtain ⟨⟨k1, k2, k3, k4, k5, k6⟩, kp⟩ := htu
  exact ⟨⟨k1.trans h1, k2.trans h2, k3.trans h3, k4.trans h4, k5.trans h5, k6.trans h6⟩,
    fun p => ⟨(kp p).1.trans (hp p).1, (kp p).2.trans (hp p).2⟩⟩

theorem PoweredUp.domsSet {s t : State} (h : PoweredUp s t) : DomsSet s t := by
  refine ⟨?_, fun p => ?_⟩
  · rw [h.frame]
    exact ⟨rfl, rfl, rfl, rfl, rfl, rfl⟩
  · obtain ⟨l, hl, -⟩ := h.parts p
    rw [hl]
    exact ⟨rfl, rfl⟩

theorem PoweredDown.domsSet {s t : State} (h : PoweredDown s t) : DomsSet s t := by
  refine ⟨?_, fun p => ?_⟩
  · rw [h.frame]
    exact ⟨rfl, rfl, rfl, rfl, rfl, rfl⟩
  · rw [State.part, h.parts]
    exact ⟨rfl, rfl⟩

theorem State.setDoms_domsSet (s : State) : DomsSet s s.setDoms := by
  have hoff := (s.domsDown_poweredDown (allDoms.filter (fun d => decide (d < 92) && !s.wantsDom d))).domsSet
  unfold State.setDoms
  dsimp only
  generalize s.domsDown _ = u at hoff ⊢
  have hon : PoweredUp u (onOrder.foldl (fun s d => if s.wantsDom d then s.domUp d else s) u) :=
    List.foldlRecOn _ _ (.refl u) fun t ht d _ => by
      split
      · exact ht.trans (t.domUp_poweredUp d).1
      · exact ht
  generalize onOrder.foldl _ u = v at hon ⊢
  obtain ⟨hkept, hparts⟩ := hoff.trans hon.domsSet
  exact ⟨hkept, hparts⟩

/-- After every partition took new keys, with what stood before the domains were switched. -/
theorem DomsSet.rekeyed {s t : State} (h : DomsSet s t) {p : Nat} (hp : p < 16) (hcreated : (s.part p).sx.created = true) :
    ((allParts.foldl State.rekeyTurn t).part p).sx.keyGen = (s.part p).sx.keyGen + 1 ∧
    (∀ e ∈ ((allParts.foldl State.rekeyTurn t).part p).allLeases, e ∈ ((allParts.foldl State.rekeyTurn t).part p).sx.zeroPend) ∧
    s.nextKey ≤ ((allParts.foldl State.rekeyTurn t).part p).stackKey := by
  obtain ⟨⟨-, hkey, -⟩, hparts⟩ := h
  obtain ⟨-, hall⟩ := rekeyedAll t
  rw [← (hparts p).2, ← hkey]
  exact hall p hp ((hparts p).1.trans hcreated)

theorem exec_ready {s : State} (ds : Nat) (h : s.boot.phase = .calibration) : exec (.ready ds) s =
    .next (allParts.foldl State.rekeyTurn ({ s with boot := { s.boot with phase := .ready, startDs := min 65535 ds } } : State).setDoms) := by
  change execReady ds s = _
  rw [execReady, if_neg (not_not.2 h)]
  rfl

theorem exec_ready_outcome {s : State} (ds : Nat) (h : s.boot.phase = .calibration) : ∃ t, exec (.ready ds) s = .next t ∧
    t.boot.phase = .ready ∧ t.boot.startDs = min 65535 ds ∧
    ∀ p, p < 16 → (s.part p).sx.created = true → (t.part p).sx.keyGen = (s.part p).sx.keyGen + 1 ∧
      (∀ e ∈ (t.part p).allLeases, e ∈ (t.part p).sx.zeroPend) ∧ s.nextKey ≤ (t.part p).stackKey := by
  obtain ⟨u, hu⟩ : ∃ u : State, u = { s with boot := { s.boot with phase := .ready, startDs := min 65535 ds } } := ⟨_, rfl⟩
  have hdoms := u.setDoms_domsSet
  refine ⟨allParts.foldl State.rekeyTurn u.setDoms, by rw [exec_ready ds h, hu], ?_⟩
  generalize u.setDoms = v at hdoms ⊢
  have hboot : (allParts.foldl State.rekeyTurn v).boot = { s.boot with phase := .ready, startDs := min 65535 ds } :=
    (congrArg State.boot (rekeyedAll v).1 :).trans (hdoms.kept.1.trans (congrArg State.boot hu :))
  refine ⟨by rw [hboot], by rw [hboot], fun p hp hcreated => ?_⟩
  have hkeys := hdoms.rekeyed hp (by rw [hu]; exact hcreated)
  generalize allParts.foldl State.rekeyTurn v = t at hkeys ⊢
  rw [hu] at hkeys
  exact hkeys

/-! ### The hub domains follow HUB_DOM (R471, R537, R538) -/

/-- What the hub domains turn on: the domains, HUB_DOM, and the phase. -/
def State.hubView (s : State) : Power × Seqr × Phase := (s.pwr, s.seqr, s.boot.phase)

theorem State.endSession_hubView (s : State) (sid : Nat) : (s.endSession sid).hubView = s.hubView := by
  unfold State.endSession
  split
  · rfl
  · simp [State.hubView]

theorem foldl_hubView {α : Type} {f : State → α → State} (h : ∀ s a, (f s a).hubView = s.hubView) (l : List α) (s : State) :
    (l.foldl f s).hubView = s.hubView := foldl_invariant State.hubView h l s

theorem State.onCell_hubView (s : State) (c : Nat) (f : Cell → Cell) : (s.onCell c f).hubView = s.hubView := (rfl)
theorem State.onBlock_hubView (s : State) (c : Nat) (f : Block → Block) : (s.onBlock c f).hubView = s.hubView := (rfl)
theorem State.dropKeys_hubView (s : State) : s.dropKeys.hubView = s.hubView := (rfl)

theorem State.unplace_hubView (s : State) (p : Nat) : (s.unplace p).hubView = s.hubView := by
  simp only [State.unplace, foldl_hubView, State.onCell_hubView, State.onBlock_hubView, implies_true]

/-- The state once PD_HMGMT's sessions, plans and keys are gone. -/
def State.mgmtEmptied (s : State) : State := (allParts.foldl State.unplace (s.sessions.foldl (fun t e => t.endSession e.1) s)).dropKeys

theorem State.mgmtEmptied_hubView (s : State) : s.mgmtEmptied.hubView = s.hubView := by
  simp only [State.mgmtEmptied, State.dropKeys_hubView, foldl_hubView, State.unplace_hubView, State.endSession_hubView, implies_true]

/-- The domains that go off with PD_HMGMT, and PD_HMGMT itself. -/
def State.mgmtDark (s : State) : State := (s.domsDown (allDoms.filter (fun d => decide (d < 92)))).domDown 94

theorem State.mgmtDark_poweredDown (s : State) : PoweredDown s s.mgmtDark :=
  (s.domsDown_poweredDown _).trans (State.domDown_poweredDown _ 94)

theorem State.mgmtDark_dom (s : State) (j : Nat) :
    s.mgmtDark.pwr.dom.getLsbD (92 + j) = (s.pwr.dom.getLsbD (92 + j) && decide (j ≠ 2)) := by
  have hlist : (offOrder.filter (fun d => (allDoms.filter (fun d => decide (d < 92))).contains d) ++
      (allDoms.filter (fun d => decide (d < 92))).filter (fun d => decide (92 ≤ d))).contains (92 + j) = false := by
    rw [List.contains_eq_mem, decide_eq_false_iff_not, List.mem_append, List.mem_filter, List.mem_filter, List.mem_filter]
    rintro (⟨-, h⟩ | ⟨⟨-, h⟩, -⟩)
    · simp [List.contains_eq_mem] at h
    · simp at h
  rw [State.mgmtDark, State.domDown_dom, State.domsDown, foldl_domDown_dom, hlist, Bool.not_false, Bool.and_true]
  exact congrArg (s.pwr.dom.getLsbD (92 + j) && ·) (decide_eq_decide.2 (by omega))

theorem State.mgmtOff_hubView (s : State) : s.mgmtOff.hubView = s.mgmtEmptied.mgmtDark.hubView := by
  unfold State.mgmtOff State.mgmtDark State.mgmtEmptied
  dsimp only
  generalize State.domsDown _ _ = u
  have hphase := congrArg (fun t : State => t.boot.phase) (u.domDown_poweredDown 94).frame
  generalize u.domDown 94 = v at hphase ⊢
  exact congrArg (fun x => (v.pwr, v.seqr, x)) hphase.symm

theorem State.mgmtOff_hub (s : State) : s.mgmtOff.seqr = s.seqr ∧ s.mgmtOff.boot.phase = s.boot.phase ∧
    ∀ j, j < 4 → s.mgmtOff.pwr.dom.getLsbD (92 + j) = (s.pwr.dom.getLsbD (92 + j) && decide (j ≠ 2)) := by
  have hview := s.mgmtEmptied_hubView
  have hoff := s.mgmtOff_hubView
  have hdown := s.mgmtEmptied.mgmtDark_poweredDown
  have hdom := s.mgmtEmptied.mgmtDark_dom
  generalize s.mgmtEmptied = u at hview hoff hdown hdom
  generalize u.mgmtDark = v at hoff hdown hdom
  generalize s.mgmtOff = t at hoff ⊢
  injection hview with hpwr hview
  injection hview with hseqr hphase
  injection hoff with hpwr' hoff
  injection hoff with hseqr' hphase'
  refine ⟨hseqr'.trans (hdown.seqr.trans hseqr), hphase'.trans (Eq.trans ?_ hphase), fun j _ => by rw [hpwr', hdom j, hpwr]⟩
  rw [hdown.frame]

theorem State.hubFollow_hub (s : State) {i : Nat} (hi : i < 4) : (s.hubFollow i).seqr = s.seqr ∧
    (s.hubFollow i).boot.phase = s.boot.phase ∧
    ∀ j, j < 4 → (s.hubFollow i).pwr.dom.getLsbD (92 + j) = if j = i then s.seqr.hubDom.getLsbD j else s.pwr.dom.getLsbD (92 + j) := by
  unfold State.hubFollow
  split
  next hset =>
    have hup := (s.domUp_poweredUp (92 + i)).1
    have hdom := s.domUp_dom (d := 92 + i) (by omega)
    generalize s.domUp (92 + i) = u at hup hdom ⊢
    refine ⟨by rw [hup.frame], by rw [hup.frame], fun j _ => ?_⟩
    rw [hdom]
    by_cases hj : j = i
    · simp [hj, hset]
    · simp [hj]
  next hclear =>
    have hfalse : s.seqr.hubDom.getLsbD i = false := by simpa using hclear
    split
    next hoff =>
      refine ⟨rfl, rfl, fun j _ => ?_⟩
      split
      next hj => rw [hj, hfalse]; simpa using hoff
      next => rfl
    next =>
      split
      next h2 =>
        obtain ⟨hseqr, hphase, hdom⟩ := s.mgmtOff_hub
        refine ⟨hseqr, hphase, fun j hj => ?_⟩
        rw [hdom j hj]
        by_cases hji : j = i
        · rw [if_pos hji, hji, hfalse]; simp [h2]
        · rw [if_neg hji, decide_eq_true (h2 ▸ hji), Bool.and_true]
      next =>
        have hdown := s.domDown_poweredDown (92 + i)
        have hdom := s.domDown_dom (92 + i)
        generalize s.domDown (92 + i) = u at hdown hdom ⊢
        refine ⟨hdown.seqr, by rw [hdown.frame], fun j _ => ?_⟩
        rw [hdom]
        by_cases hj : j = i
        · simp [hj, hfalse]
        · simp [hj]

/-- Each hub domain in turn follows its bit, and no other changes with it. -/
theorem foldl_hubFollow {l : List Nat} (hnodup : l.Nodup) (hl : ∀ i ∈ l, i < 4) (s : State) :
    (l.foldl State.hubFollow s).seqr = s.seqr ∧ (l.foldl State.hubFollow s).boot.phase = s.boot.phase ∧
    ∀ j, j < 4 → (l.foldl State.hubFollow s).pwr.dom.getLsbD (92 + j) =
      if j ∈ l then s.seqr.hubDom.getLsbD j else s.pwr.dom.getLsbD (92 + j) := by
  induction l generalizing s with
  | nil => exact ⟨rfl, rfl, fun j _ => by simp⟩
  | cons i l ih =>
    obtain ⟨hi, hnodup⟩ := List.nodup_cons.1 hnodup
    obtain ⟨hseqr, hphase, hdom⟩ := s.hubFollow_hub (hl i List.mem_cons_self)
    obtain ⟨ihseqr, ihphase, ihdom⟩ := ih hnodup (fun j hj => hl j (List.mem_cons_of_mem i hj)) (s.hubFollow i)
    refine ⟨ihseqr.trans hseqr, ihphase.trans hphase, fun j hj => ?_⟩
    rw [List.foldl_cons, ihdom j hj, hseqr, hdom j hj]
    by_cases hji : j = i
    · simp [hji, hi]
    · simp [hji]

theorem exec_hubDomWrite (v : BitVec 8) (s : State) : ∃ t, exec (.hubDomWrite v) s = .next t ∧ t.boot.phase = s.boot.phase ∧
    t.seqr.hubDom = (if decide (s.seqr.hubDom &&& ~~~(v.setWidth 4) ≠ 0) && (s.anyActive || decide (s.boot.phase ≠ .ready))
      then s.seqr.hubDom ||| v.setWidth 4 else v.setWidth 4) ∧
    t.seqr.refused = (s.seqr.refused ||
      decide (s.seqr.hubDom &&& ~~~(v.setWidth 4) ≠ 0) && (s.anyActive || decide (s.boot.phase ≠ .ready))) ∧
    (s.pwr.lockout = false → ∀ i, i < 4 → t.pwr.dom.getLsbD (92 + i) = t.seqr.hubDom.getLsbD i) := by
  change ∃ t, execHubDomWrite v s = .next t ∧ _
  unfold execHubDomWrite
  dsimp only
  generalize hrefuse : (decide (s.seqr.hubDom &&& ~~~(v.setWidth 4) ≠ 0) && (s.anyActive || decide (s.boot.phase ≠ .ready))) = refuse
  generalize hdom : (if refuse = true then s.seqr.hubDom ||| v.setWidth 4 else v.setWidth 4) = new
  split
  next h => exact ⟨_, rfl, rfl, rfl, rfl, fun hfalse => absurd h (Bool.eq_false_iff.1 hfalse)⟩
  next =>
    have hfollow := foldl_hubFollow (l := [2, 0, 1, 3]) (by decide) (by decide)
      { s with seqr := { s.seqr with hubDom := new, refused := s.seqr.refused || refuse } }
    generalize List.foldl State.hubFollow _ _ = u at hfollow ⊢
    obtain ⟨hseqr, hphase, hdoms⟩ := hfollow
    refine ⟨u.hubAct, rfl, hphase, (congrArg Seqr.hubDom hseqr :), (congrArg Seqr.refused hseqr :), fun _ i hi => ?_⟩
    refine ((hdoms i hi).trans (if_pos ?_)).trans (congrArg (fun x : Seqr => x.hubDom.getLsbD i) hseqr).symm
    interval_cases i <;> decide

/-! ### Booting after HUB_DOM (R421, R538) -/

theorem exec_hubDomBootDone {b : BootOut} {s : State} {x y : Bool} {i j : FwImage} (hready : s.boot.phase = .ready)
    (hdown : s.mgmtDown = true) (hactiv : s.mgFw.activ = none) (hon : s.pwr.dom.getLsbD 94 = true)
    (hsp : s.spFw.select = some (x, i)) (hmg : s.mgFw.select = some (y, j)) :
    ∃ t, exec (.hubDomBootDone b) s = .next t ∧ t.mgmtDown = false ∧ t.spRun = i.digest ∧ t.mgRun = j.digest ∧
      t.keys.attestEp = s.keys.attestEp ∧
      ∀ p, p < 16 → (s.part p).sx.created = true → (t.part p).sx.keyGen = (s.part p).sx.keyGen + 1 := by
  obtain ⟨u, hboot, hu⟩ : ∃ u, s.bootFw false = some u ∧ u.mgmtDown = false ∧ u.spRun = i.digest ∧ u.mgRun = j.digest ∧
      u.keys.attestEp = s.keys.attestEp ∧ u.parts = s.parts := by
    simp only [State.bootFw, hsp, hmg]
    exact ⟨_, rfl, rfl, rfl, rfl, rfl, rfl⟩
  obtain ⟨hmgmt, hspRun, hmgRun, hattest, hparts⟩ := hu
  have hstep : exec (.hubDomBootDone b) s = .next (allParts.foldl State.rekeyTurn
      (b.stacksBad.foldl (fun s k => s.onStack k (fun y => { y with state := .failed })) u.setDoms)) := by
    change execHubDomBootDone b s = _
    rw [execHubDomBootDone, if_neg (by simp [hready, hdown, hactiv, hon]), hboot]
    rfl
  have hstacks : DomsSet u.setDoms (b.stacksBad.foldl (fun s k => s.onStack k (fun y => { y with state := .failed })) u.setDoms) :=
    List.foldlRecOn _ _ ⟨⟨rfl, rfl, rfl, rfl, rfl, rfl⟩, fun _ => ⟨rfl, rfl⟩⟩ fun t ht k _ =>
      ht.trans ⟨⟨rfl, rfl, rfl, rfl, rfl, rfl⟩, fun _ => ⟨rfl, rfl⟩⟩
  have hset := u.setDoms_domsSet.trans hstacks
  rw [hstep]
  generalize List.foldl _ u.setDoms _ = v at hset ⊢
  obtain ⟨hframe, -⟩ := rekeyedAll v
  have hkeys := fun p hp hcreated => (hset.rekeyed (p := p) hp hcreated).1
  generalize allParts.foldl State.rekeyTurn v = t at hframe hkeys ⊢
  obtain ⟨-, -, hmgmt', hspRun', hmgRun', hkeys'⟩ := hset.kept
  refine ⟨t, rfl, ?_, ?_, ?_, ?_, fun p hp hcreated => ?_⟩
  · rw [hframe]; exact hmgmt'.trans hmgmt
  · rw [hframe]; exact hspRun'.trans hspRun
  · rw [hframe]; exact hmgRun'.trans hmgRun
  · rw [hframe]; exact (congrArg Keys.attestEp hkeys').trans hattest
  · have hpart : u.part p = s.part p := by rw [State.part, hparts]; rfl
    rw [hkeys p hp (by rw [hpart]; exact hcreated), hpart]

/-! ### The obligation -/

theorem getLsbD_or_two_pow_iff {w : Nat} (x : BitVec w) (n : Nat) {j : Nat} (hj : j < w) :
    (x ||| BitVec.ofNat w (2 ^ n)).getLsbD j = (x.getLsbD j || decide (j = n)) := by
  rw [BitVec.getLsbD_or, BitVec.getLsbD_ofNat, Nat.testBit_two_pow, decide_eq_true hj, Bool.true_and]
  exact congrArg (x.getLsbD j || ·) (decide_eq_decide.2 eq_comm)

/-- Settles O51: a reset keeps what R506 names; start-up rests on the firmware it selects, and ends with a calibration set that has one
record of every unit under its DIGEST; the hub domains follow HUB_DOM one after another; every partition takes new keys in its turn. -/
theorem resetAndStartUp : Obligations.ResetAndStartUp := by
  refine ⟨fun mV s => ⟨fun h => ?_, fun h => ?_⟩, fun s => ⟨_, rfl, resetBegun_beginReset _, rfl⟩, fun s => ⟨_, rfl, rfl, rfl, ?_, ?_⟩,
    fun v s => ⟨fun h => ?_, fun h => ⟨s.beginReset, ?_, resetBegun_beginReset s⟩⟩, fun a s => rfl, fun n s _ => ?_, fun b s h => ?_,
    fun b s hready hlow => ?_, fun ds s => ⟨fun h => ?_, fun h => exec_ready_outcome ds h⟩, fun v s => ?_,
    fun b s x y i j hready hdown hactiv hon hsp hmg => exec_hubDomBootDone hready hdown hactiv hon hsp hmg⟩
  · change execInputTurnOn mV s = _
    rw [execInputTurnOn, if_pos h]; rfl
  · refine ⟨_, ?_, resetBegun_beginReset { s with pwr := { (s.setBus mV).pwr with lockout := false }, io := { s.io with clip := true } },
      rfl, rfl⟩
    change execInputTurnOn mV s = _
    rw [execInputTurnOn, if_neg (Nat.not_le.2 h)]; rfl
  · exact fun hphase hlow hlock => if_pos ⟨hphase, hlow, by simp [hlock]⟩
  · exact fun hphase => if_neg fun h => hphase h.1
  · change execSeqResetWrite v s = _
    rw [execSeqResetWrite, if_neg h]; rfl
  · change execSeqResetWrite v s = _
    rw [execSeqResetWrite, if_pos h]; rfl
  · exact ⟨_, rfl, rfl, fun j hj => getLsbD_or_two_pow_iff s.boot.perst n hj⟩
  · have hstep : exec (.moduleReset b) s = if s.boot.rstLow || s.pwr.lockout then .next s else .next (s.startUp b) := by
      change execModuleReset b s = _
      rw [execModuleReset, if_pos (show s.starting = true from decide_eq_true h)]
      rfl
    rw [hstep]
    exact ⟨fun hheld => if_pos (by simpa using hheld),
      fun hrst hlock => ⟨s.startUp b, if_neg (by simp [hrst, hlock]), s.startUp_outcome b⟩⟩
  · refine ⟨s.beginReset, ?_, resetBegun_beginReset s⟩
    change execModuleReset b s = _
    rw [execModuleReset, if_neg (show ¬ s.starting = true from by simp [State.starting, hready])]
    exact if_pos (by rw [show s.beginReset.boot.rstLow = s.boot.rstLow from rfl, hlow]; rfl)
  · change execReady ds s = _
    rw [execReady, if_pos h]; rfl
  · obtain ⟨t, ht, hphase, hdom, hrefused, hfollow⟩ := exec_hubDomWrite v s
    refine ⟨t, ht, hphase, fun hclear hactive => ?_, fun hfine => ?_, hfollow⟩
    · have hrefuse : (decide (s.seqr.hubDom &&& ~~~(v.setWidth 4) ≠ 0) && (s.anyActive || decide (s.boot.phase ≠ .ready))) = true := by
        simpa using ⟨hclear, hactive⟩
      rw [hdom, hrefused, hrefuse]
      exact ⟨rfl, Bool.or_true _⟩
    · have hrefuse : (decide (s.seqr.hubDom &&& ~~~(v.setWidth 4) ≠ 0) && (s.anyActive || decide (s.boot.phase ≠ .ready))) = false := by
        rcases hfine with h | ⟨hidle, hready⟩
        · rw [decide_eq_false (not_not.2 h), Bool.false_and]
        · rw [hidle, decide_eq_false (not_not.2 hready), Bool.or_false, Bool.and_false]
      rw [hdom, hrefused, hrefuse]
      exact ⟨rfl, Bool.or_false _⟩

end Sys2Proof.Machine
end

