-- ==== Sys2Proof/Proofs/HallTime.lean ====
section
/-! PROOF. Hall time, the time reference, gust steps and the rotation latch: O30. -/

namespace Sys2Proof.Machine
open Sys2Proof.Stmt

theorem raisedOne_jobFault {s u : State} (hraised : u.raised = s.raised) (hcycle : u.cycle = s.cycle) {code : Nat} {parts : List Nat}
    (unit d0 d1 : Nat) : RaisedOne s (u.jobFault code parts unit d0 d1) .job code parts :=
  ⟨_, congrArg (· ++ _) hraised, rfl, rfl, rfl, hcycle⟩

/-! ### The parts of FRAME_MARK (R352 to R357) -/

/-- The mark's word is counted, and counted again when it is not good. -/
def State.wordRead (s : State) (good : Bool) : State :=
  let s1 := s.count locHub 0x402 1
  if good then s1 else { s1 with tu := { s1.tu with wordErr := s1.tu.wordErr + 1 } }.count locHub 0x403 1

/-- A good mark while hall time is not to jump: the fourth in a row locks (R353). -/
def State.goodMark (s : State) (live : Bool) (next : Nat) : State :=
  let n := s.tu.goodRun + 1
  if s.tu.hall = .locked then { s with tu := { s.tu with goodRun := n } }
  else if 4 ≤ n then { s with tu := { s.tu with hall := .locked, goodRun := n, holdRun := 0, mark := next - 10, j := 0 } }
  else { s with tu := { s.tu with goodRun := n
                                  holdMarks := if live then s.tu.holdMarks + 1 else s.tu.holdMarks
                                  holdRun := if live then s.tu.holdRun + 1 else 0 } }

/-- Hall time is UNLOCKED by HALL_JUMP (R354). -/
def State.jumped (s : State) (err8 : Int) (mark : Nat) : State :=
  ({ s with tu := { s.tu with hall := .unlocked, goodRun := 0, holdRun := 0 } }).jobFault 0x93 s.timeScope locHub err8.natAbs (mark + 10)

/-- The mark's word and error are kept. -/
def State.markSeen (s : State) (good : Bool) (next : Nat) (err8 : Int) : State :=
  { s with tu := { s.tu with named := if good then some next else s.tu.named.map (· + 10), alignErr := err8, seen := s.tu.mark } }

/-- The alignment error's warning and fault (R357). -/
def State.alignChecked (s : State) (live : Bool) (e mark : Nat) : State :=
  let s1 := if live ∧ 240 < e then
      (({ s with tu := { s.tu with alignWarn := true } }).modEvent 0xCA locHub 0 e).watermark 112 else s
  if live ∧ 320 < e then s1.jobFault 0x91 s1.timeScope locHub e (mark + 10) else s1

theorem exec_frameMark (n : Nat) (w : BitVec 128) (e : Int) (s : State) : exec (.frameMark n w e) s =
    let good := htwGood w.toNat s.tu.named
    let live := decide (s.tu.hall ≠ .unlocked)
    let s2 := s.wordRead good
    let s3 := if live && (decide (n ≠ 1600) || (good && decide (bits w.toNat 56 56 ≠ s.tu.mark + 10))) then s2.jumped e s.tu.mark
      else if good ∧ n = 1600 then s2.goodMark live (bits w.toNat 56 56)
      else { s2 with tu := s2.tu.badMark }
    .next ((s3.markSeen good (bits w.toNat 56 56) e).alignChecked live e.natAbs s.tu.mark) := rfl

/-! ### What the parts leave of the state -/

theorem State.wordRead_kept (s : State) (good : Bool) : (s.wordRead good).raised = s.raised ∧ (s.wordRead good).parts = s.parts ∧
    (s.wordRead good).cycle = s.cycle ∧ (s.wordRead good).timeScope = s.timeScope ∧
    (s.wordRead good).tu = { s.tu with wordErr := if good then s.tu.wordErr else s.tu.wordErr + 1 } := by
  cases good <;> exact ⟨rfl, rfl, rfl, rfl, rfl⟩

theorem State.alignChecked_of_small (s : State) (live : Bool) {e : Nat} (mark : Nat) (he : e ≤ 240) : s.alignChecked live e mark = s := by
  have h240 : ¬ (live = true ∧ 240 < e) := fun h => absurd h.2 (Nat.not_lt.2 he)
  have h320 : ¬ (live = true ∧ 320 < e) := fun h => h240 ⟨h.1, lt_trans (by decide) h.2⟩
  simp only [State.alignChecked, if_neg h240, if_neg h320]

/-- A word that is good names the mark expected: no jump (R353, R354). -/
theorem exec_frameMark_good {s : State} {w : BitVec 128} (e : Int) (hgood : htwGood w.toNat s.tu.named = true)
    (hnext : bits w.toNat 56 56 = s.tu.mark + 10) : exec (.frameMark 1600 w e) s =
    .next ((((s.wordRead true).goodMark (decide (s.tu.hall ≠ .unlocked)) (s.tu.mark + 10)).markSeen true (s.tu.mark + 10) e).alignChecked
      (decide (s.tu.hall ≠ .unlocked)) e.natAbs s.tu.mark) := by
  rw [exec_frameMark, hgood, hnext]
  generalize decide (s.tu.hall ≠ .unlocked) = live
  dsimp only
  rw [if_neg (by simp), if_pos ⟨rfl, rfl⟩]

theorem exec_frameMark_bad {s : State} {w : BitVec 128} (e : Int) (hbad : htwGood w.toNat s.tu.named = false) :
    exec (.frameMark 1600 w e) s =
    .next ((({ s.wordRead false with tu := (s.wordRead false).tu.badMark } : State).markSeen false (bits w.toNat 56 56) e).alignChecked
      (decide (s.tu.hall ≠ .unlocked)) e.natAbs s.tu.mark) := by
  rw [exec_frameMark, hbad]
  generalize decide (s.tu.hall ≠ .unlocked) = live
  dsimp only
  rw [if_neg (by simp), if_neg (by simp)]

theorem exec_frameMark_jump {s : State} {n : Nat} (w : BitVec 128) (e : Int) (hn : n ≠ 1600) (hlive : s.tu.hall ≠ .unlocked) :
    exec (.frameMark n w e) s = .next ((((s.wordRead (htwGood w.toNat s.tu.named)).jumped e s.tu.mark).markSeen
      (htwGood w.toNat s.tu.named) (bits w.toNat 56 56) e).alignChecked true e.natAbs s.tu.mark) := by
  rw [exec_frameMark, decide_eq_true hlive, decide_eq_true hn]
  rfl

/-- What a good mark makes of hall time (R353). -/
theorem State.goodMark_kept (s : State) (live : Bool) : (s.goodMark live (s.tu.mark + 10)).raised = s.raised ∧
    (s.goodMark live (s.tu.mark + 10)).parts = s.parts ∧ (s.goodMark live (s.tu.mark + 10)).tu.goodRun = s.tu.goodRun + 1 ∧
    (s.goodMark live (s.tu.mark + 10)).timeScope = s.timeScope ∧
    (s.goodMark live (s.tu.mark + 10)).tu.hall = if s.tu.hall = .locked ∨ 3 ≤ s.tu.goodRun then .locked else s.tu.hall := by
  unfold State.goodMark
  dsimp only
  split
  next h => exact ⟨rfl, rfl, rfl, rfl, h.trans (if_pos (.inl h)).symm⟩
  next h =>
    split
    next h3 => exact ⟨rfl, rfl, rfl, rfl, (if_pos (.inr (Nat.le_of_succ_le_succ h3))).symm⟩
    next h3 => exact ⟨rfl, rfl, rfl, rfl, (if_neg (by rintro (hl | hr); exacts [h hl, h3 (Nat.succ_le_succ hr)])).symm⟩

theorem TimeU.badMark_live {t : TimeU} (h : t.hall ≠ .unlocked) : t.badMark.hall = .hold ∧ t.badMark.goodRun = 0 ∧
    t.badMark.holdRun = t.holdRun + 1 ∧ t.badMark.holdMarks = t.holdMarks + 1 ∧ t.badMark.wordErr = t.wordErr := by
  refine ⟨?_, rfl, if_neg h, if_neg h, rfl⟩
  unfold TimeU.badMark
  dsimp only
  split
  next => rfl
  next hl => cases hhall : t.hall <;> simp_all

/-- The alignment error's warning and fault, against those whom the timing faults reach (R357). -/
theorem State.alignChecked_large (s : State) {e : Nat} (mark : Nat) (he : 320 < e) : (s.alignChecked true e mark).tu.alignWarn = true ∧
    ∃ r r', (s.alignChecked true e mark).raised = s.raised ++ [r, r'] ∧ r.cls = .event ∧ r.code = 0xCA ∧ r'.cls = .job ∧ r'.code = 0x91 ∧
      r'.parts = s.timeScope := by
  have hwarn : 240 < e := lt_trans (by decide) he
  simp only [State.alignChecked, true_and, hwarn, he, if_true]
  exact ⟨rfl, _, _, List.append_assoc .., rfl, rfl, rfl, rfl, rfl⟩

theorem raised_alignChecked_jumped {s u : State} (good : Bool) (next : Nat) {err8 : Int} (hraised : u.raised = s.raised)
    (hcycle : u.cycle = s.cycle) (hscope : u.timeScope = s.timeScope) (mark : Nat) :
    ((u.jumped err8 mark).markSeen good next err8).tu.hall = .unlocked ∧
    RaisedOne s ((u.jumped err8 mark).markSeen good next err8) .job 0x93 s.timeScope :=
  ⟨rfl, _, congrArg (· ++ _) hraised, rfl, rfl, hscope, hcycle⟩

/-! ### The reference, the gust step and the rotation latch (R355, R366, R392, R534) -/

theorem exec_gustSwitch_due {s : State} {g : Nat} (hdec : s.tu.decidedAt s.tu.mark = some g) (hj : s.tu.j = 0) (hcyc : s.cycle % 1024 = 0)
    (hg : g ≠ s.tu.gust) : exec .gustSwitch s =
      .next ((({ s with tu := { s.tu with gust := g, synthB := !s.tu.synthB } } : State).count locHub 0x40C 1).setCore) := by
  change execGustSwitch s = _
  unfold execGustSwitch
  rw [hdec]
  exact if_neg (by rintro (h | h | h); exacts [h hj, h hcyc, hg h])

theorem exec_gustSwitch_else {s : State} (h : s.tu.decidedAt s.tu.mark = none ∨ s.tu.j ≠ 0 ∨ s.cycle % 1024 ≠ 0) :
    exec .gustSwitch s = .next s := by
  change execGustSwitch s = _
  unfold execGustSwitch
  cases hdec : s.tu.decidedAt s.tu.mark with
  | none => rfl
  | some g => exact if_pos (by rcases h with h | h | h; exacts [absurd (hdec ▸ h) nofun, .inl h, .inr (.inl h)])

/-- The partition holds a rotation record for the next step. -/
def Part.holdsRotation (q : Part) : Bool :=
  match q.pendRot with
  | some (_, n) => decide (n = q.stepNo + 1)
  | none => false

theorem Part.holdsRotation_iff (q : Part) : q.holdsRotation = true ↔ ∃ k, q.pendRot = some (k, q.stepNo + 1) := by
  unfold Part.holdsRotation
  rcases q.pendRot with _ | ⟨k, n⟩ <;> simp

theorem exec_rotReadyLatch {p : Nat} {s : State} (hrun : (s.part p).st = .running) (hsize : 1 < (s.part p).jobSize)
    (hframe : (s.part p).planTime / 1024 + 64 = (s.part p).stepStop) (honce : (s.part p).jb.rotV ≠ some (s.cycle / 1024)) :
    exec (.rotReadyLatch p) s = .next (s.onPart p (fun q => { q with jb := { q.jb with
      rotV := some (s.cycle / 1024), rotVal := (s.part p).holdsRotation
      rotAgreed := if decide (s.voteTree.1 = 0) then some (s.part p).holdsRotation else none } })) := by
  change execRotReadyLatch p s = _
  unfold execRotReadyLatch
  exact if_pos (by simp [State.running, Part.multi, State.frm, hrun, hsize, hframe, honce])

/-- Settles O30: FRAME_MARK part by part, the word, what it makes of hall time, and the alignment error; then each of the other rows. -/
theorem hallTimeReferenceAndGust : Obligations.HallTimeReferenceAndGust := by
  refine ⟨⟨fun s w e hgood hnext he => ?_, fun s w e hbad hlive he => ?_, fun s n w e hn hlive he => ?_,
    fun s w e hgood hnext he hlive => ?_, fun s hlive hseen => ?_, fun s hseen => ?_, fun s hhold hrun => ?_⟩,
    fun s href => ?_, fun s hlocal hcyc => ?_, fun s g hdec hj hcyc hg => ?_, fun s h => exec_gustSwitch_else h,
    fun p s hrun hsize hframe honce => ?_⟩
  · rw [exec_frameMark_good e hgood hnext, State.alignChecked_of_small _ _ _ he]
    obtain ⟨hraised, hparts, -, -, htu⟩ := s.wordRead_kept true
    have hmark : (s.wordRead true).tu.mark = s.tu.mark := rfl
    have hgoodMark := (s.wordRead true).goodMark_kept (decide (s.tu.hall ≠ .unlocked))
    rw [hmark] at hgoodMark
    generalize (s.wordRead true).goodMark _ _ = u at hgoodMark ⊢
    obtain ⟨hr, hp, hrun, -, hhall⟩ := hgoodMark
    exact ⟨_, rfl, hr.trans hraised, hrun, rfl, rfl, hp.trans hparts, hhall⟩
  · rw [exec_frameMark_bad e hbad, State.alignChecked_of_small _ _ _ he]
    obtain ⟨hhall, hgood, hrun, -, hword⟩ := TimeU.badMark_live (t := (s.wordRead false).tu) hlive
    exact ⟨_, rfl, (s.wordRead_kept false).1, hhall, hgood, hrun, hword⟩
  · rw [exec_frameMark_jump w e hn hlive, State.alignChecked_of_small _ _ _ he]
    obtain ⟨hraised, -, hcycle, hscope, -⟩ := s.wordRead_kept (htwGood w.toNat s.tu.named)
    exact ⟨_, rfl, raised_alignChecked_jumped _ _ hraised hcycle hscope _⟩
  · rw [exec_frameMark_good e hgood hnext, decide_eq_true hlive]
    obtain ⟨hraised, -, -, hscope, -⟩ := s.wordRead_kept true
    have hgoodMark := (s.wordRead true).goodMark_kept true
    have hmark : (s.wordRead true).tu.mark = s.tu.mark := rfl
    rw [hmark] at hgoodMark
    obtain ⟨hr, -, -, hs, -⟩ := hgoodMark
    generalize (s.wordRead true).goodMark true _ = u at hr hs ⊢
    obtain ⟨hwarn, r, r', hrr, hcls, hcode, hcls', hcode', hparts⟩ := (u.markSeen true (s.tu.mark + 10) e).alignChecked_large s.tu.mark he
    have hsame : (u.markSeen true (s.tu.mark + 10) e).raised = u.raised ∧ (u.markSeen true (s.tu.mark + 10) e).timeScope = u.timeScope :=
      ⟨rfl, rfl⟩
    obtain ⟨hsr, hss⟩ := hsame
    exact ⟨_, rfl, hwarn, r, r', by rw [hrr, hsr, hr, hraised], hcls, hcode, hcls', hcode', by rw [hparts, hss, hs, hscope]⟩
  · obtain ⟨hhall, -, -, hmarks, -⟩ := TimeU.badMark_live hlive
    exact ⟨_, if_neg hseen, hhall, hmarks, rfl⟩
  · exact if_pos hseen
  · exact ⟨_, if_pos ⟨hhold, hrun⟩, rfl, raisedOne_jobFault rfl rfl _ _ _, rfl⟩
  · exact ⟨_, if_pos href, rfl, raisedOne_jobFault rfl rfl _ _ _, rfl⟩
  · exact ⟨_, if_pos ⟨hlocal, hcyc⟩, rfl⟩
  · exact ⟨_, exec_gustSwitch_due hdec hj hcyc hg, rfl, rfl, rfl, rfl⟩
  · refine ⟨_, exec_rotReadyLatch hrun hsize hframe honce, ?_⟩
    rw [State.onPart_part_same]
    exact ⟨rfl, (s.part p).holdsRotation_iff, rfl, hrun, fun k hk => State.onPart_part_ne s _ hk⟩

end Sys2Proof.Machine
end

