-- ==== Sys2Proof/Proofs/JobCommands.lean ====
section
/-! PROOF. The job commands: O48 fails. A table of partitions that is not in canonical form may hold an entry that equals the default in
front of another entry of the same key; `DETACH_PREPARE` rewrites the table entry by entry and drops the first, so that the second comes
to light. -/

namespace Sys2Proof.Machine
open Sys2Proof.Stmt

/-- The header of a command of session 1 on PF0, under the tag that key 0 gives it. -/
def firstHdr (op : Nat) : Hdr :=
  let h : Hdr := { fn := 0, set := 0, cid := 1, sid := 1, part := 0, indir := false, fence := false, counter := 1, plen := 0, rmax := 4096
                   tag := 0, body := [], data := [], encOk := true, dmaOk := true, resOk := true }
  { h with tag := cmdTag 0 h op }

/-- A module after READY with an installer's session, whose table lists partition 0 twice: first in no job, then as a member. -/
def memberBehind : State :=
  { boot := { phase := .ready }, sessions := [(1, some { role := .installer, proved := true })]
    rings := [(ringKey 0 0 1, { enable := true })]
    parts := [(0, Part.zero), (0, { Part.zero with jb := { jstate := .member } })] }

theorem memberBehind_accepted : Accepted memberBehind (firstHdr 0x0607) 0x0607 := by
  have hserves : ∀ h : Hdr, h.fn = 0 → memberBehind.serves h = true := by
    intro h hfn
    simp only [State.serves, hfn]
    decide
  have hdenied : ∀ h : Hdr, h.fn = 0 → memberBehind.denied h 0x0607 { role := .installer, proved := true } = false := by
    intro h hfn
    simp only [State.denied, State.pathOk, hfn]
    rfl
  exact ⟨hserves _ rfl, rfl, rfl, rfl, rfl, ⟨List.not_mem_nil, .inr rfl⟩,
    .inr ⟨{ role := .installer, proved := true }, rfl, rfl, rfl, Nat.one_pos, hdenied _ rfl⟩⟩

theorem memberBehind_part (p : Nat) : memberBehind.part p = Part.zero := by
  unfold State.part memberBehind
  by_cases h : p = 0
  · rw [h]; rfl
  · simp only [look, if_neg h]

theorem detachCheck_of_member {s : State} (h : Hdr) (hmember : (s.part 0).jb.jstate = .member) : s.detachCheck h = s := by
  have hlt : (allParts.filter (fun p => decide ((s.part p).jb.jstate ≠ .none))).length ≠
      ((allParts.filter (fun p => decide ((s.part p).jb.jstate ≠ .none))).filter
        (fun p => decide ((s.part p).jb.jstate = .pruned))).length := by
    intro heq
    have hall := List.length_filter_eq_length_iff.1 heq.symm 0 (by simp [allParts, hmember])
    simp [hmember] at hall
  unfold State.detachCheck
  exact if_pos hlt

/-- A partition whose membership is to end (R395). -/
def Part.detaching (q : Part) : Part :=
  if q.jb.jstate = .member ∨ q.jb.jstate = .seeded ∨ q.jb.jstate = .seeding ∨ q.jb.jstate = .joined then
    { q with jb := { q.jb with detach := true } }
  else q

/-- The state with every membership to end for command `h`. -/
def State.detaching (s : State) (h : Hdr) : State :=
  { s with detachCmd := some h, parts := mapv Part.zero s.parts (fun _ => Part.detaching) }

theorem memberBehind_rewritten :
    (look Part.zero (mapv Part.zero memberBehind.parts (fun _ => Part.detaching)) 0).jb.jstate = .member := by decide

theorem exec_detachPrepare {s : State} {h : Hdr} (hacc : Accepted s h 0x0607) (hidle : s.detachCmd = none) :
    ∃ u, Entered s u h 0x0607 ∧ exec (.detachPrepare h) s = .next ((u.detaching h).detachCheck h) := by
  have hent := ready_entered hacc
  obtain ⟨hserves, hwaits, henc, hdma, hres, -, hses⟩ := hacc
  have hrun : exec (.detachPrepare h) s = _ := s.command_runs h 0x0607 _ hserves hwaits henc hdma hres hses
  rw [hrun]
  change Entered s (((s.begin h 0x0607).accepts h 0x0607 false true).1) h 0x0607 at hent
  generalize ((s.begin h 0x0607).accepts h 0x0607 false true).1 = u at hent ⊢
  have hnone : u.detachCmd = none := (congrArg State.detachCmd hent.1 :).trans hidle
  refine ⟨u, hent, ?_⟩
  rw [hnone]
  rfl

/-- Refutes O48: for `memberBehind` every partition reads as in no job, but DETACH_PREPARE drops the first entry of partition 0, finds
the member behind it, and waits. -/
theorem not_jobCommandsSetMembership : ¬ Obligations.JobCommandsSetMembership := by
  rintro ⟨-, -, -, -, -, -, hprepare, -⟩
  obtain ⟨t, ht, hnone, -⟩ := hprepare (firstHdr 0x0607) memberBehind memberBehind_accepted rfl
  have hdone : t.detachCmd = none := (hnone fun p _ => by rw [memberBehind_part]; rfl).2
  obtain ⟨u, hu, hexec⟩ := exec_detachPrepare memberBehind_accepted rfl
  have hmember : ((u.detaching (firstHdr 0x0607)).part 0).jb.jstate = .member := by
    rw [State.part, State.detaching, hu.parts]
    exact memberBehind_rewritten
  rw [detachCheck_of_member _ hmember] at hexec
  obtain rfl : u.detaching (firstHdr 0x0607) = t := Host.Outcome.next.inj (hexec.symm.trans ht)
  exact absurd hdone (Option.some_ne_none _)

end Sys2Proof.Machine
end

