-- ==== Sys2Proof/Proofs/ManagerMessages.lean ====
section
/-! SUPPORT. Messages of members and managers (R372, R373): what sending and receiving one leave of the state, and when a decision is
settled. -/

namespace Sys2Proof.Machine
open Sys2Proof.Stmt

/-! ### Sending (R372) -/

theorem State.stamp_tag (s : State) (p : Nat) (m : MgrMsg) {k : Hash} (hk : (s.part p).msgKey = some k) :
    (s.stamp p m).tag = msgTag k (s.stamp p m) := by
  unfold State.stamp
  dsimp only
  rw [hk]
  rfl

/-- A stamped message that was sent is one the partition told. -/
theorem told_stamp {s t u : State} {p : Nat} (hpart : u.part p = s.part p) {m : MgrMsg} {f : MgrMsg → Prop} (hf : f (u.stamp p m))
    (hmem : Sent.mgr (u.stamp p m) ∈ t.out) : Told s t p m.kind f := by
  refine ⟨u.stamp p m, hmem, rfl, ?_, ?_, fun k hk => u.stamp_tag p m (by rw [hpart]; exact hk), hf⟩
  · rw [← hpart]; rfl
  · rw [← hpart]; rfl

theorem Told.mono {s t u : State} {p kind : Nat} {f : MgrMsg → Prop} (h : Told s t p kind f) (hout : ∀ m ∈ t.out, m ∈ u.out) :
    Told s u p kind f := by
  obtain ⟨m, hmem, hm⟩ := h
  exact ⟨m, hout _ hmem, hm⟩

/-- The message that a partition sends next counts. -/
def Part.toldOne (q : Part) : Part := { q with jb := { q.jb with seq := q.jb.seq + 1 } }

section
variable {s : State} {p : Nat}

theorem State.tell_sends (hup : s.mgmtDown = false) (hkey : (s.part p).msgKey.isSome = true) (m : MgrMsg) :
    s.tell p m = (s.send (.mgr (s.stamp p m))).onPart p Part.toldOne :=
  if_neg (by rw [hup]; simpa [Option.isSome_iff_ne_none] using hkey)

/-- What sending a message can do. -/
theorem State.tell_cases (s : State) (p : Nat) (m : MgrMsg) :
    s.tell p m = s ∨ s.tell p m = (s.send (.mgr (s.stamp p m))).onPart p Part.toldOne := by
  unfold State.tell
  split
  · exact .inl rfl
  · exact .inr rfl

theorem State.tell_part_ne (s : State) (m : MgrMsg) {p q : Nat} (h : q ≠ p) : (s.tell p m).part q = s.part q := by
  rcases s.tell_cases p m with ht | ht <;> rw [ht]
  exact State.onPart_part_ne (s.send (.mgr (s.stamp p m))) _ h

theorem State.tell_frame (s : State) (p : Nat) (m : MgrMsg) :
    s.tell p m = { s with parts := (s.tell p m).parts, out := (s.tell p m).out } := by
  rcases s.tell_cases p m with ht | ht <;> rw [ht]
  rfl

/-- A partition's job record with one message more sent. -/
theorem State.tell_part_same (s : State) (p : Nat) (m : MgrMsg) :
    ∃ n, (s.tell p m).part p = { s.part p with jb := { (s.part p).jb with seq := n } } := by
  rcases s.tell_cases p m with ht | ht
  · exact ⟨(s.part p).jb.seq, by rw [ht]⟩
  · exact ⟨(s.part p).jb.seq + 1, by rw [ht, State.onPart_part_same]; rfl⟩

/-! ### Issuing (R373) -/

/-- The decision as it is issued. -/
def State.issued (s : State) (p : Nat) (m : MgrMsg) : MgrMsg :=
  s.stamp p { m with dseq := max (s.part p).jb.mgr.nextDseq ((s.part p).jb.applied + 1) }

theorem State.issue_eq (s : State) (p : Nat) (m : MgrMsg) : s.issue p m = (s.tell p (s.issued p m)).onPart p (fun q =>
    { q with jb := { q.jb with decs := q.jb.decs ++ [s.issued p m], mgr := { q.jb.mgr with nextDseq := (s.issued p m).dseq + 1 } } }) := rfl

theorem State.issue_part_ne (s : State) (m : MgrMsg) {p q : Nat} (h : q ≠ p) : (s.issue p m).part q = s.part q := by
  rw [s.issue_eq, State.onPart_part_ne _ _ h, s.tell_part_ne _ h]

theorem State.issue_frame (s : State) (p : Nat) (m : MgrMsg) :
    s.issue p m = { s with parts := (s.issue p m).parts, out := (s.issue p m).out } := by
  have h := s.tell_frame p (s.issued p m)
  rw [s.issue_eq]
  generalize s.tell p (s.issued p m) = u at h ⊢
  rw [h]
  rfl

/-- A manager that issues a decision holds its own copy of it. -/
theorem State.issue_part_same (s : State) (p : Nat) (m : MgrMsg) : ∃ seq next, (s.issue p m).part p =
    { s.part p with jb := { (s.part p).jb with
      seq := seq, decs := (s.part p).jb.decs ++ [s.issued p m], mgr := { (s.part p).jb.mgr with nextDseq := next } } } := by
  obtain ⟨n, hn⟩ := s.tell_part_same p (s.issued p m)
  exact ⟨n, _, by rw [s.issue_eq, State.onPart_part_same, hn]⟩

/-- An issued decision is told, under a number above the last applied. -/
theorem State.issue_told {m : MgrMsg} (hup : s.mgmtDown = false) (hkey : (s.part p).msgKey.isSome = true) {f : MgrMsg → Prop}
    (hf : ∀ d : MgrMsg, (s.part p).jb.applied < d.dseq → d.subject = m.subject → d.cause = m.cause → d.arg0 = m.arg0 → f d) :
    Told s (s.issue p m) p m.kind f := by
  refine told_stamp (u := s) (m := s.issued p m) rfl (hf _ ?_ rfl rfl rfl) ?_
  · exact lt_of_lt_of_le (Nat.lt_succ_self _) (le_max_right _ _)
  · rw [s.issue_eq, s.tell_sends hup hkey]
    exact List.mem_append_right _ List.mem_cons_self

end

/-! ### Settling (R373) -/

theorem copiesOf_le (l : List MgrMsg) (m : MgrMsg) : copiesOf l m ≤ l.length := by
  have hsub : ((l.filter (fun x => msgAgrees x m)).map (fun x => x.sender)).eraseDups ⊆
      (l.filter (fun x => msgAgrees x m)).map (fun x => x.sender) := fun _ => List.mem_eraseDups.1
  have hlen := ((nodup_eraseDups _).subperm hsub).length_le
  rw [List.length_map] at hlen
  exact hlen.trans (List.length_filter_le ..)

/-- With fewer than three copies held there is no quorum. -/
theorem Part.quorums_of_few {q : Part} (h : q.jb.decs.length < 3) : q.quorums = [] := by
  have hnone : q.jb.decs.filter (fun m => decide (q.jb.applied < m.dseq ∧ 3 ≤ copiesOf q.jb.decs m)) = [] :=
    List.filter_eq_nil_iff.2 fun m _ => by
      have := copiesOf_le q.jb.decs m
      simp only [decide_eq_true_eq]
      omega
  unfold Part.quorums
  rw [hnone]
  rfl

theorem State.settleDecs_of_few {s : State} {p : Nat} (h : (s.part p).jb.decs.length < 3) (fuel : Nat) : s.settleDecs p fuel = s := by
  cases fuel with
  | zero => rfl
  | succ n => rw [State.settleDecs, Part.quorums_of_few h]; rfl

theorem State.settle_of_few {s : State} {p : Nat} (h : (s.part p).jb.decs.length < 3) : s.settle p = s := State.settleDecs_of_few h 16

/-! ### Receiving (R372) -/

/-- The partition has seen the message. -/
def Part.sawMsg (q : Part) (m : MgrMsg) : Part := { q with jb := { q.jb with seen := q.jb.seen ++ [(m.sender, m.seq)] } }

section
variable {s : State} {p k : Nat} {m : MgrMsg}

theorem State.receive_takes (h : Stmt.Takes s p k m) (act : State → Nat → State) :
    s.receive k m act = .next (act (s.onPart p (fun q => q.sawMsg m)) p) := by
  obtain ⟨hkind, hok, hup, hin, -, hnew⟩ := h
  have hseen : ((s.part p).jb.seen.contains (m.sender, m.seq)) = false := by simpa using hnew
  unfold State.receive
  rw [if_neg (by simp [hkind, hup]), hin]
  simp only [List.filter_cons, hok, if_true, List.filter_nil, List.isEmpty_cons, Bool.false_eq_true, if_false, List.foldl_cons,
    List.foldl_nil, hseen]
  rfl

theorem msgKey_of_takes (h : Stmt.Takes s p k m) : (s.part p).msgKey.isSome = true := by
  obtain ⟨-, hok, -⟩ := h
  unfold Part.msgKey
  cases hkey : (s.part p).sx.jobKey with
  | none => rw [hkey] at hok; exact absurd hok (by simp [Sys2Proof.Machine.msgOk])
  | some _ => rfl

end

end Sys2Proof.Machine
end

