-- ==== Sys2Proof/Proofs/PlanImages.lean ====
section
/-! SUPPORT. Plan images placed into blocks and taken out (R405, R418, R555): what each leaves of the state. -/

namespace Sys2Proof.Machine
open Sys2Proof.Stmt

/-! ### Cells and blocks -/

/-- Between `s` and `t` only cells and blocks changed. -/
def CellsOnly (s t : State) : Prop := t = { s with cells := t.cells, blocks := t.blocks }

theorem CellsOnly.trans {s t u : State} (hst : CellsOnly s t) (htu : CellsOnly t u) : CellsOnly s u := by
  unfold CellsOnly at *
  rw [htu, hst]

theorem cellsOnly_foldl {α : Type} {f : State → α → State} (h : ∀ s a, CellsOnly s (f s a)) (l : List α) (s : State) :
    CellsOnly s (l.foldl f s) :=
  List.foldlRecOn l f (motive := fun t => CellsOnly s t) rfl fun t ht a _ => ht.trans (h t a)

theorem cellsOnly_onCell (s : State) (c : Nat) (f : Cell → Cell) : CellsOnly s (s.onCell c f) := rfl

theorem cellsOnly_onBlock (s : State) (b : Nat) (f : Block → Block) : CellsOnly s (s.onBlock b f) := rfl

theorem State.unplace_cellsOnly (s : State) (p : Nat) : CellsOnly s (s.unplace p) :=
  cellsOnly_foldl (fun s b => (cellsOnly_onBlock s b _).trans (cellsOnly_foldl (fun s _ => cellsOnly_onCell s _ _) _ _)) _ _

theorem State.place_cellsOnly (s : State) (p : Nat) (valid : Bool → Nat → Nat → Bool) : CellsOnly s (s.place p valid) :=
  cellsOnly_foldl (fun s b => (cellsOnly_onBlock s b _).trans (cellsOnly_foldl (fun s _ => cellsOnly_onCell s _ _) _ _)) _ _

/-! ### A plan image of partition `p` goes in or out -/

/-- Between `s` and `t` a plan image of partition `p` went in or out: its cells and blocks, what ports hold of its budgets, and what the
twin was sent. -/
structure ImageMoved (s t : State) (p : Nat) : Prop where
  frame : t = { s with cells := t.cells, blocks := t.blocks, ports := t.ports, parts := t.parts, out := t.out }
  other : ∀ q, q ≠ p → t.part q = s.part q
  out : ∃ l, t.out = s.out ++ l

section
variable {s t u : State} {p : Nat}

theorem ImageMoved.trans (hst : ImageMoved s t p) (htu : ImageMoved t u p) : ImageMoved s u p := by
  obtain ⟨l, hl⟩ := hst.out
  obtain ⟨l', hl'⟩ := htu.out
  refine ⟨?_, fun q hq => (htu.other q hq).trans (hst.other q hq), l ++ l', by rw [hl', hl, List.append_assoc]⟩
  rw [htu.frame, hst.frame]

theorem CellsOnly.placed (h : CellsOnly s t) (p : Nat) : ImageMoved s t p := by
  unfold CellsOnly at h
  refine ⟨?_, fun q _ => ?_, [], ?_⟩
  · rw [h]
  · rw [h]; rfl
  · rw [h, List.append_nil]

theorem CellsOnly.part (h : CellsOnly s t) (q : Nat) : t.part q = s.part q := by
  unfold CellsOnly at h
  rw [h]; rfl

theorem placed_onPart (s : State) (p : Nat) (f : Part → Part) : ImageMoved s (s.onPart p f) p :=
  ⟨rfl, fun _ hq => State.onPart_part_ne s f hq, [], (List.append_nil _).symm⟩

theorem placed_clearBudget (s : State) (p : Nat) : ImageMoved s (s.clearBudget p) p := ⟨rfl, fun _ _ => rfl, [], (List.append_nil _).symm⟩

theorem State.sendMap_part (s : State) (p : Nat) (fresh : Bool) (q : Nat) : (s.sendMap p fresh).part q = s.part q := by
  unfold State.sendMap
  split <;> rfl

theorem placed_sendMap (s : State) (p : Nat) (fresh : Bool) : ImageMoved s (s.sendMap p fresh) p := by
  refine ⟨?_, fun q _ => s.sendMap_part p fresh q, ?_⟩
  · unfold State.sendMap
    split <;> rfl
  · unfold State.sendMap
    split
    · exact ⟨_, rfl⟩
    · exact ⟨[], (List.append_nil _).symm⟩

/-- A partition whose image was taken out. -/
def Part.unloaded (q : Part) : Part :=
  { q with st := .empty, image := none, graftSel := 0, bankCode0 := [], bankCode1 := [], bankStatus := .none, bankAct := false
           switches := 0, stopReq := none, committed := none
           pw := { q.pw with envelope := 0, computeW := 0, memoryW := 0, linkW := 0 } }

theorem State.unload_placed (s : State) (p : Nat) : ImageMoved s (s.unload p) p :=
  ((placed_clearBudget s p).trans ((State.unplace_cellsOnly (s.clearBudget p) p).placed p)).trans (placed_onPart _ p Part.unloaded)

theorem State.unload_part (s : State) (p : Nat) : (s.unload p).part p = (s.part p).unloaded := by
  have h : (s.unload p).part p = (((s.clearBudget p).unplace p).part p).unloaded :=
    State.onPart_part_same ((s.clearBudget p).unplace p) p Part.unloaded
  rw [h, (State.unplace_cellsOnly (s.clearBudget p) p).part]
  rfl

/-- The partition as an installation leaves it. -/
def State.installedPart (s : State) (p : Nat) (img : PlanImage) (x : Nat) : Part :=
  ((s.part p).loaded s.axRole img x (s.split p img ((s.withRole p).dryPeaks p img x false))).save

theorem State.install_placed (s : State) (p : Nat) (img : PlanImage) (x : Nat) (fresh : Bool) : ImageMoved s (s.install p img x fresh) p :=
  ((((placed_clearBudget s p).trans ((State.unplace_cellsOnly (s.clearBudget p) p).placed p)).trans (placed_onPart _ p _)).trans
    ((State.place_cellsOnly _ p _).placed p)).trans (placed_sendMap _ p fresh)

theorem State.install_part (s : State) (p : Nat) (img : PlanImage) (x : Nat) (fresh : Bool) :
    (s.install p img x fresh).part p = s.installedPart p img x := by
  unfold State.install
  dsimp only
  rw [State.sendMap_part, (State.place_cellsOnly _ p _).part, State.onPart_part_same, (State.unplace_cellsOnly (s.clearBudget p) p).part]
  rfl

end

end Sys2Proof.Machine
end

