-- ==== Sys2Proof/Proofs/Decisions.lean ====
section
/-! PROOF. Decisions of the managers (R373, R378, R379, R387, R389, R391, R393): O46. -/

namespace Sys2Proof.Machine
open Sys2Proof.Stmt

/-! ### A change of a partition moves no clock -/

theorem State.onPart_hallNow (s : State) (p : Nat) (f : Part → Part) : (s.onPart p f).hallNow = s.hallNow := by
  simp only [State.hallNow, State.hallNs, State.onPart_tu, State.onPart_cycle]

theorem State.onPart_wallNs (s : State) (p : Nat) (f : Part → Part) : (s.onPart p f).wallNs = s.wallNs := by
  simp only [State.wallNs, State.wallNow, State.onPart_tu, State.onPart_cycle, State.onPart_wallAt]

theorem State.onPart_hubOn (s : State) (p : Nat) (f : Part → Part) : (s.onPart p f).hubOn = s.hubOn := by
  unfold State.hubOn
  rw [State.onPart_pwr]

/-! ### A decision with its quorum -/

/-- The partition holds one copy more. -/
def Part.heldCopy (q : Part) (m : MgrMsg) : Part := { q with jb := { q.jb with decs := q.jb.decs ++ [m] } }

/-- The partition has applied the decision of number `n`. -/
def Part.appliedTo (q : Part) (n : Nat) : Part :=
  { q with jb := { q.jb with applied := n, decs := q.jb.decs.filter (fun d => decide (n < d.dseq)) } }

/-- The partition has applied the decision, and holds no copy any more. -/
def Part.settledTo (q : Part) (n : Nat) : Part := { q with jb := { q.jb with applied := n, decs := [] } }

/-- What a decision does rests on the bytes in which copies agree. -/
theorem State.applyOne_congr (s : State) (p : Nat) {a m : MgrMsg} (h : msgAgrees a m = true) : s.applyOne p a = s.applyOne p m := by
  obtain ⟨⟩ := a
  obtain ⟨⟩ := m
  simp only [msgAgrees, decide_eq_true_eq, MgrMsg.mk.injEq, true_and, and_true] at h
  obtain ⟨rfl, rfl, rfl, rfl, rfl, rfl, rfl, rfl, rfl, rfl, rfl⟩ := h
  rfl

theorem dseq_of_agrees {a m : MgrMsg} (h : msgAgrees a m = true) : a.dseq = m.dseq := by
  simp only [msgAgrees, decide_eq_true_eq, MgrMsg.mk.injEq] at h
  obtain ⟨-, -, -, -, -, -, -, -, h, -⟩ := h
  exact h

section
variable {p : Nat} {a b m : MgrMsg} (ha : msgAgrees a m = true) (hb : msgAgrees b m = true) (ham : a.sender ≠ m.sender)
  (hbm : b.sender ≠ m.sender) (hab : a.sender ≠ b.sender)
include ha hb ham hbm hab

/-- Three agreeing copies from distinct senders are a quorum, whose first copy comes first. -/
theorem Part.quorums_of_three {q : Part} (hdecs : q.jb.decs = [a, b, m]) (hnew : q.jb.applied < m.dseq) : q.quorums = [a, b, m] := by
  have hself : msgAgrees m m = true := decide_eq_true rfl
  have hagree : ∀ x ∈ [a, b, m], msgAgrees x m = true := by simp [ha, hb, hself]
  have hcopies : ∀ d ∈ [a, b, m], copiesOf [a, b, m] d = 3 := by
    intro d hd
    have hall : [a, b, m].filter (fun x => msgAgrees x d) = [a, b, m] := List.filter_eq_self.2 fun x hx => by
      have hxm := hagree x hx
      have hdm := hagree d hd
      simp only [msgAgrees, decide_eq_true_eq] at hxm hdm ⊢
      exact hxm.trans hdm.symm
    rw [copiesOf, hall]
    simp [List.eraseDups_cons, ham.symm, hbm.symm, hab.symm]
  have hdseq : ∀ d ∈ [a, b, m], d.dseq = m.dseq := fun d hd => dseq_of_agrees (hagree d hd)
  have hheld : q.jb.decs.filter (fun d => decide (q.jb.applied < d.dseq ∧ 3 ≤ copiesOf q.jb.decs d)) = [a, b, m] := by
    rw [hdecs]
    refine List.filter_eq_self.2 fun d hd => decide_eq_true ⟨?_, ?_⟩
    · rw [hdseq d hd]; exact hnew
    · rw [hcopies d hd]
  unfold Part.quorums
  dsimp only
  rw [hheld]
  simp [hdseq a, hdseq b]

/-- A decision that applies is settled, and with it every copy goes. -/
theorem State.settle_of_three {s t : State} (hdecs : (s.part p).jb.decs = [a, b, m]) (hnew : (s.part p).jb.applied < m.dseq)
    (happly : s.applyOne p m = some t) (hkept : (t.part p).jb.decs = [a, b, m]) :
    s.settle p = t.onPart p (fun q => q.appliedTo m.dseq) := by
  have hdseq := dseq_of_agrees ha
  have hdone : ((t.onPart p (fun q => q.appliedTo m.dseq)).part p).jb.decs = [] := by
    rw [State.onPart_part_same, Part.appliedTo, hkept]
    simp [hdseq, dseq_of_agrees hb]
  rw [State.settle, State.settleDecs, Part.quorums_of_three ha hb ham hbm hab hdecs hnew, List.findSome?_cons,
    s.applyOne_congr p ha, happly]
  dsimp only [Option.map_some]
  rw [hdseq]
  have hfew : ((t.onPart p (fun q => q.appliedTo m.dseq)).part p).jb.decs.length < 3 := by rw [hdone]; decide
  exact State.settleDecs_of_few hfew 15

end

/-- The state in which partition `p` holds the third copy. -/
def State.thirdCopy (s : State) (p : Nat) (m : MgrMsg) : State :=
  (s.onPart p (fun q => q.sawMsg m)).onPart p (fun q => q.heldCopy m)

theorem State.thirdCopy_part (s : State) (p : Nat) (m : MgrMsg) : (s.thirdCopy p m).part p = ((s.part p).sawMsg m).heldCopy m := by
  rw [State.thirdCopy, State.onPart_part_same, State.onPart_part_same]

theorem State.thirdCopy_part_ne (s : State) (m : MgrMsg) {p q : Nat} (h : q ≠ p) : (s.thirdCopy p m).part q = s.part q := by
  rw [State.thirdCopy, State.onPart_part_ne _ _ h, State.onPart_part_ne _ _ h]

section
variable {s : State} {p k : Nat} {m : MgrMsg}

/-- A copy of a decision from one of the managers. -/
theorem receive_decision (h : Stmt.Takes s p k m) (hmgr : m.sender ∈ (s.part p).jb.mgrs) (hnew : (s.part p).jb.applied < m.dseq) :
    s.receive k m (takeDecision m) = .next ((s.thirdCopy p m).settle p) := by
  rw [State.receive_takes h, takeDecision]
  dsimp only
  rw [State.onPart_part_same, if_neg]
  · rfl
  · rintro (hout | hold)
    · simp [Part.sawMsg, hmgr] at hout
    · exact absurd hold (Nat.not_le.2 hnew)

/-- With its quorum a decision has its effect. -/
theorem receive_quorum (h : Quorum s p k m) {t : State} (happly : (s.thirdCopy p m).applyOne p m = some t)
    (hkept : (t.part p).jb.decs = ((s.thirdCopy p m).part p).jb.decs) : ∃ u, s.receive k m (takeDecision m) = .next u ∧
      OnlyPart t u p (fun q => q.settledTo m.dseq) := by
  obtain ⟨htakes, hmgr, hnew, a, b, hdecs, ha, hb, ham, hbm, hab⟩ := h
  have hthree : ((s.thirdCopy p m).part p).jb.decs = [a, b, m] := by
    rw [State.thirdCopy_part, Part.heldCopy, Part.sawMsg, hdecs]
    rfl
  have hnew' : ((s.thirdCopy p m).part p).jb.applied < m.dseq := by rw [State.thirdCopy_part]; exact hnew
  refine ⟨_, ?_, ?_, fun q hq => State.onPart_part_ne t (fun q => q.appliedTo m.dseq) hq⟩
  · rw [receive_decision htakes hmgr hnew, State.settle_of_three ha hb ham hbm hab hthree hnew' happly (hkept.trans hthree)]
  · rw [State.onPart_part_same, Part.appliedTo, hkept, hthree]
    simp [dseq_of_agrees ha, dseq_of_agrees hb, Part.settledTo]

/-- A decision whose effect is a change `f` of its own partition. -/
theorem receive_quorum_onPart (h : Quorum s p k m) {f : Part → Part}
    (happly : (s.thirdCopy p m).applyOne p m = some ((s.thirdCopy p m).onPart p f)) (hkept : ∀ q, (f q).jb.decs = q.jb.decs) :
    ∃ t, s.receive k m (takeDecision m) = .next t ∧
      OnlyPart s t p (fun q => (f ((q.sawMsg m).heldCopy m)).settledTo m.dseq) := by
  obtain ⟨u, hexec, hown, hother⟩ := receive_quorum h happly (by rw [State.onPart_part_same, hkept])
  rw [State.onPart_part_same, State.thirdCopy_part] at hown
  exact ⟨u, hexec, hown, fun q hq => by rw [hother q hq, State.onPart_part_ne _ _ hq, State.thirdCopy_part_ne _ _ hq]⟩

end

/-! ### Each decision's own effect -/

theorem State.onPart_onPart (s : State) (p : Nat) (f g : Part → Part) : (s.onPart p f).onPart p g = s.onPart p (fun q => g (f q)) := by
  rw [State.onPart, State.onPart_part_same, State.onPart, State.onPart]
  unfold State.setPart
  dsimp only
  rw [put_put]


/-- What stands at partition `p` when the third copy has come, but for the copies. -/
theorem State.thirdCopy_jb (s : State) (p : Nat) (m : MgrMsg) : ((s.thirdCopy p m).part p).jb = { (s.part p).jb with
    decs := (s.part p).jb.decs ++ [m], seen := (s.part p).jb.seen ++ [(m.sender, m.seq)] } := by
  rw [State.thirdCopy_part]; rfl

section
variable {s : State} {p : Nat} {m : MgrMsg}

theorem State.armAt_due {mark : Nat} (hmark : s.hallNow + 10 ^ 6 ≤ 1024 * mark) (hhub : s.hubOn = true)
    (resume : Option (Nat × Nat × Nat)) : s.armAt p mark resume = some (s.onPart p (fun q =>
      { q with st := .armed, jb := { q.jb with jstate := .member, startMark := some mark, resume } })) := by
  unfold State.armAt
  rw [if_pos (And.intro hmark hhub)]

theorem applyOne_startAt (hkind : m.kind = 5) (hseeded : (s.part p).jb.jstate = .seeded) (hst : (s.part p).st = .staged)
    (hmark : s.hallNow + 10 ^ 6 ≤ 1024 * m.arg0) (hhub : s.hubOn = true) : s.applyOne p m = some (s.onPart p (fun q =>
      { q with st := .armed, jb := { q.jb with jstate := .member, startMark := some m.arg0, resume := none } })) := by
  unfold State.applyOne
  rw [hkind]
  dsimp only
  rw [if_pos (And.intro hseeded hst), State.armAt_due hmark hhub]
  rfl

theorem applyOne_resumeAt (hkind : m.kind = 8) (hmember : (s.part p).jb.jstate = .member) (hst : (s.part p).st = .staged)
    (hmark : s.hallNow + 10 ^ 6 ≤ 1024 * m.arg0) (hhub : s.hubOn = true) : s.applyOne p m = some (s.onPart p (fun q =>
      { q with st := .armed, jb := { q.jb with
        jstate := .member, startMark := some m.arg0, resume := some (m.arg1, m.arg2 % 2 ^ 48, bits m.arg2 48 16) } })) := by
  have hresume : s.applyOne p m = s.applyResume p m := by
    unfold State.applyOne
    rw [hkind]
    rfl
  rw [hresume, State.applyResume]
  dsimp only
  rw [hmember, hst, if_neg (by decide), if_pos rfl, State.armAt_due hmark hhub]

/-- A partition that is pruned. -/
def Part.prunedBy (q : Part) (m : MgrMsg) : Part :=
  { q with jb := { q.jb with
      mgrs := swapMgr q.jb.mgrs m.subject m.aux, stopAt := if 0x10 ≤ m.cause then some m.arg0 else q.jb.stopAt
      jstate := .pruned, detach := false } }

theorem applyOne_prune (hkind : m.kind = 6) (hrank : (s.part p).rank = m.subject) :
    s.applyOne p m = some (s.onPart p (fun q => q.prunedBy m)) := by
  unfold State.applyOne
  rw [hkind]
  dsimp only [State.applyPrune]
  rw [decide_eq_true hrank]
  simp only [Bool.not_true, Bool.and_false, Bool.false_eq_true, if_false, if_true, decide_eq_true_eq]
  rfl

/-- A spare that is grafted. -/
def Part.graftedBy (q : Part) (m : MgrMsg) (now : Nat) : Part :=
  { q.beginSeeding with rank := m.subject, jb := { q.beginSeeding.jb with grafted := true, seedAt := now } }

theorem applyOne_graft (hkind : m.kind = 7) (hspare : (s.part p).jb.jstate = .spare) (hserial : m.arg0 = s.fuses.serial) :
    s.applyOne p m = some (s.onPart p (fun q => q.graftedBy m s.wallNs)) := by
  unfold State.applyOne
  rw [hkind]
  dsimp only [State.applyGraft]
  rw [if_pos hspare, if_pos hserial]
  rfl

theorem applyOne_teardown (hkind : m.kind = 9) (hactive : (s.part p).active? = true) :
    s.applyOne p m = some (s.onPart p (fun q => { q with jb := { q.jb with teardown := some m.arg0 } })) := by
  unfold State.applyOne
  rw [hkind]
  exact if_pos hactive

theorem applyOne_reseed (hkind : m.kind = 0x0A) (himage : (s.part p).image = none) (hrank : (s.part p).rank = m.subject)
    (hseed : (s.part p).jb.jstate = .seeding ∨ (s.part p).jb.jstate = .seeded) : s.applyOne p m = some (s.reseed p) := by
  unfold State.applyOne
  rw [hkind]
  dsimp only
  rw [himage]
  exact congrArg some (if_pos ⟨decide_eq_true hrank, hseed⟩)

theorem applyOne_managerReplace (hkind : m.kind = 0x0B) : s.applyOne p m = some (s.onPart p (fun q =>
    { q with jb := { q.jb with
        mgrs := swapMgr q.jb.mgrs m.subject m.aux, manager := q.jb.manager && decide (q.rank ≠ m.subject) } })) := by
  unfold State.applyOne
  rw [hkind]
  rfl

theorem reseed_part (s : State) (p : Nat) : ((s.reseed p).part p).jb = { (s.part p).jb with
      jstate := .joined, acks := [], seedBad := false, seedDigs := [] } ∧ ((s.reseed p).part p).st = .empty ∧
    ((s.reseed p).part p).image = none := by
  rw [State.reseed, State.onPart_part_same, State.unload_part]
  exact ⟨rfl, rfl, rfl⟩

theorem reseed_part_ne (s : State) {p q : Nat} (h : q ≠ p) : (s.reseed p).part q = s.part q := by
  rw [State.reseed, State.onPart_part_ne _ _ h, (s.unload_placed p).other q h]

end

/-- A twin that shadows the job keeps a copy of a GRAFT whose tag verifies (R389). -/
def Shadow.keepGraft (x : Shadow) (m : MgrMsg) : Shadow :=
  match x.map with
  | some t => if t.job = m.job ∧ msgOk t.key m ∧ m.kind = 7 then { x with grafts := x.grafts ++ [m] } else x
  | none => x

section
variable {s : State} {p : Nat} {m : MgrMsg}

theorem State.thirdCopy_clock (s : State) (p : Nat) (m : MgrMsg) : (s.thirdCopy p m).hallNow = s.hallNow ∧
    (s.thirdCopy p m).hubOn = s.hubOn ∧ (s.thirdCopy p m).fuses = s.fuses ∧ (s.thirdCopy p m).wallNs = s.wallNs := by
  simp only [State.thirdCopy, State.onPart_hallNow, State.onPart_hubOn, State.onPart_wallNs, State.onPart_fuses, and_self]

theorem State.thirdCopy_kept (s : State) (p : Nat) (m : MgrMsg) : ((s.thirdCopy p m).part p).st = (s.part p).st ∧
    ((s.thirdCopy p m).part p).jb.jstate = (s.part p).jb.jstate ∧ ((s.thirdCopy p m).part p).rank = (s.part p).rank ∧
    ((s.thirdCopy p m).part p).image = (s.part p).image := by
  rw [s.thirdCopy_part]
  exact ⟨rfl, rfl, rfl, rfl⟩

theorem quorum_startAt (hq : Quorum s p 5 m) (hk : m.kind = 5) (hseeded : (s.part p).jb.jstate = .seeded)
    (hstaged : (s.part p).st = .staged) (hmark : s.hallNow + 10 ^ 6 ≤ 1024 * m.arg0) (hhub : s.hubOn = true) :
    ∃ t, exec (.startAt m) s = .next t ∧ OnlyPart s t p (fun q => { q with
      st := .armed, jb := Decided s p m (fun j => { j with jstate := .member, startMark := some m.arg0, resume := none }) }) := by
  obtain ⟨hst, hjstate, -, -⟩ := s.thirdCopy_kept p m
  obtain ⟨hhall, hon, -, -⟩ := s.thirdCopy_clock p m
  rw [← hhall] at hmark
  rw [← hon] at hhub
  obtain ⟨t, ht, hown, hother⟩ := receive_quorum_onPart hq
    (applyOne_startAt hk (hjstate.trans hseeded) (hst.trans hstaged) hmark hhub) (fun _ => rfl)
  refine ⟨t, ht, hown.trans ?_, hother⟩
  simp only [Decided, Part.settledTo, Part.heldCopy, Part.sawMsg]

theorem quorum_resumeAt (hq : Quorum s p 8 m) (hk : m.kind = 8) (hmember : (s.part p).jb.jstate = .member)
    (hstaged : (s.part p).st = .staged) (hmark : s.hallNow + 10 ^ 6 ≤ 1024 * m.arg0) (hhub : s.hubOn = true) :
    ∃ t, exec (.resumeAt m) s = .next t ∧ OnlyPart s t p (fun q => { q with
      st := .armed, jb := Decided s p m (fun j => { j with
        jstate := .member, startMark := some m.arg0, resume := some (m.arg1, m.arg2 % 2 ^ 48, m.arg2 / 2 ^ 48 % 2 ^ 16) }) }) := by
  obtain ⟨hst, hjstate, -, -⟩ := s.thirdCopy_kept p m
  obtain ⟨hhall, hon, -, -⟩ := s.thirdCopy_clock p m
  rw [← hhall] at hmark
  rw [← hon] at hhub
  obtain ⟨t, ht, hown, hother⟩ := receive_quorum_onPart hq
    (applyOne_resumeAt hk (hjstate.trans hmember) (hst.trans hstaged) hmark hhub) (fun _ => rfl)
  refine ⟨t, ht, hown.trans ?_, hother⟩
  simp only [Decided, Part.settledTo, Part.heldCopy, Part.sawMsg, bits]

theorem quorum_prune (hq : Quorum s p 6 m) (hk : m.kind = 6) (hmine : (s.part p).rank = m.subject) :
    ∃ t, exec (.prune m) s = .next t ∧ OnlyPart s t p (fun q => { q with
      jb := Decided s p m (fun j => { j with
        jstate := .pruned, detach := false, mgrs := j.mgrs.map (fun r => if r = m.subject then m.aux else r)
        stopAt := if 0x10 ≤ m.cause then some m.arg0 else j.stopAt }) }) := by
  obtain ⟨-, -, hrank, -⟩ := s.thirdCopy_kept p m
  obtain ⟨t, ht, hown, hother⟩ := receive_quorum_onPart hq (applyOne_prune hk (hrank.trans hmine)) (fun _ => rfl)
  refine ⟨t, ht, hown.trans ?_, hother⟩
  simp only [Decided, Part.settledTo, Part.heldCopy, Part.sawMsg, Part.prunedBy, swapMgr]

theorem quorum_graft (hq : Quorum s p 7 m) (hk : m.kind = 7) (hspare : (s.part p).jb.jstate = .spare)
    (hserial : m.arg0 = s.fuses.serial) : ∃ t, exec (.graft m) s = .next t ∧ OnlyPart s t p (fun q => { q with
      rank := m.subject
      sx := { q.sx with jobKey := if q.sx.jobKeyWait.isSome then q.sx.jobKeyWait else q.sx.jobKey, jobKeyWait := none }
      jb := Decided s p m (fun j =>
        { j with jstate := .seeding, grafted := true, acks := [], seedBad := false, seedDigs := [], restored := false
                 seedAt := s.wallNs }) }) := by
  obtain ⟨u, hu⟩ : ∃ u : State, u = { s with shadows := mapv Shadow.zero s.shadows (fun _ x => x.keepGraft m) } := ⟨_, rfl⟩
  have hexec : exec (.graft m) s = u.receive 7 m (takeDecision m) := by rw [hu]; rfl
  have hqu : Quorum u p 7 m := by rw [hu]; exact hq
  have hpart : ∀ q, u.part q = s.part q := fun q => by rw [hu]; rfl
  obtain ⟨-, hjstate, -, -⟩ := u.thirdCopy_kept p m
  obtain ⟨-, -, hfuses, hwall⟩ := u.thirdCopy_clock p m
  obtain ⟨t, ht, hown, hother⟩ := receive_quorum_onPart hqu
    (applyOne_graft hk (hjstate.trans (by rw [hpart]; exact hspare)) (by rw [hfuses, hu]; exact hserial)) (fun _ => rfl)
  have hclock : (u.thirdCopy p m).wallNs = s.wallNs := hwall.trans (by rw [hu]; rfl)
  rw [hpart, hclock] at hown
  refine ⟨t, hexec.trans ht, hown.trans ?_, fun q hne => (hother q hne).trans (hpart q)⟩
  simp only [Decided, Part.settledTo, Part.heldCopy, Part.sawMsg, Part.graftedBy, Part.beginSeeding]
  rfl

theorem quorum_teardown (hq : Quorum s p 9 m) (hk : m.kind = 9) (hactive : (s.part p).st = .armed ∨ (s.part p).st = .running) :
    ∃ t, exec (.teardown m) s = .next t ∧
      OnlyPart s t p (fun q => { q with jb := Decided s p m (fun j => { j with teardown := some m.arg0 }) }) := by
  obtain ⟨hst, -, -, -⟩ := s.thirdCopy_kept p m
  have hact : ((s.thirdCopy p m).part p).active? = true := by
    rw [Part.active?, hst]
    exact decide_eq_true hactive
  obtain ⟨t, ht, hown, hother⟩ := receive_quorum_onPart hq (applyOne_teardown hk hact) (fun _ => rfl)
  refine ⟨t, ht, hown.trans ?_, hother⟩
  simp only [Decided, Part.settledTo, Part.heldCopy, Part.sawMsg]

theorem quorum_reseed (hq : Quorum s p 0x0A m) (hk : m.kind = 0x0A) (himage : (s.part p).image = none)
    (hmine : (s.part p).rank = m.subject) (hseed : (s.part p).jb.jstate = .seeding ∨ (s.part p).jb.jstate = .seeded) :
    ∃ t, exec (.reseed m) s = .next t ∧ (t.part p).jb.jstate = .joined ∧ (t.part p).st = .empty ∧ (t.part p).image = none ∧
      (t.part p).jb.applied = m.dseq ∧ (t.part p).jb.seedDigs = [] ∧ ∀ q, q ≠ p → t.part q = s.part q := by
  obtain ⟨-, hjstate, hrank, himg⟩ := s.thirdCopy_kept p m
  obtain ⟨hjb, hst, himage'⟩ := reseed_part (s.thirdCopy p m) p
  obtain ⟨t, ht, hdone, hother⟩ := receive_quorum hq
    (applyOne_reseed hk (himg.trans himage) (hrank.trans hmine) (by rw [hjstate]; exact hseed)) (congrArg JobSt.decs hjb :)
  have hne' := fun q hne => reseed_part_ne (s.thirdCopy p m) (p := p) (q := q) hne
  generalize (s.thirdCopy p m).reseed p = v at hjb hst himage' hdone hother hne'
  generalize v.part p = y at hjb hst himage' hdone
  refine ⟨t, ht, ?_, ?_, ?_, ?_, ?_, fun q hne => ?_⟩
  · rw [hdone]; exact (congrArg JobSt.jstate hjb :)
  · rw [hdone]; exact hst
  · rw [hdone]; exact himage'
  · rw [hdone]; rfl
  · rw [hdone]; exact (congrArg JobSt.seedDigs hjb :)
  · rw [hother q hne, hne' q hne, State.thirdCopy_part_ne _ _ hne]

theorem quorum_managerReplace (hq : Quorum s p 0x0B m) (hk : m.kind = 0x0B) :
    ∃ t, exec (.managerReplace m) s = .next t ∧ OnlyPart s t p (fun q => { q with
      jb := Decided s p m (fun j => { j with
        mgrs := j.mgrs.map (fun r => if r = m.subject then m.aux else r)
        manager := j.manager && decide (q.rank ≠ m.subject) }) }) := by
  obtain ⟨t, ht, hown, hother⟩ := receive_quorum_onPart hq (applyOne_managerReplace hk) (fun _ => rfl)
  refine ⟨t, ht, hown.trans ?_, hother⟩
  simp only [Decided, Part.settledTo, Part.heldCopy, Part.sawMsg, swapMgr]
  rfl

end

/-- A first copy is held and changes nothing else. -/
theorem receive_firstCopy {s : State} {p : Nat} {m : MgrMsg} (htakes : Stmt.Takes s p 5 m) (hmgr : m.sender ∈ (s.part p).jb.mgrs)
    (hnew : (s.part p).jb.applied < m.dseq) (hdecs : (s.part p).jb.decs = []) : exec (.startAt m) s = .next (s.onPart p (fun q =>
      { q with jb := { q.jb with decs := [m], seen := q.jb.seen ++ [(m.sender, m.seq)] } })) := by
  have hfew : ((s.thirdCopy p m).part p).jb.decs.length < 3 := by
    rw [State.thirdCopy_jb, hdecs]
    exact (by decide : 1 < 3)
  change s.receive 5 m (takeDecision m) = _
  rw [receive_decision htakes hmgr hnew, State.settle_of_few hfew, State.thirdCopy, State.onPart_onPart]
  exact congrArg (fun l => Host.Outcome.next (s.onPart p (fun q =>
    { q with jb := { q.jb with decs := l, seen := q.jb.seen ++ [(m.sender, m.seq)] } }))) (congrArg (· ++ [m]) hdecs)

/-- Settles O46: the third agreeing copy makes the quorum; each kind of decision is then applied to its own partition. -/
theorem decisionsNeedThreeManagers : Obligations.DecisionsNeedThreeManagers := by
  refine ⟨fun p m s htakes hmgr hnew hdecs => receive_firstCopy htakes hmgr hnew hdecs, fun p m s hq => ⟨fun hk => ?_, fun hk => ?_,
    fun hk => ?_, fun hk => ?_, fun hk => ?_, fun hk => ?_, fun hk => ?_⟩⟩
  · exact quorum_startAt (hk ▸ hq) hk
  · exact quorum_prune (hk ▸ hq) hk
  · exact quorum_graft (hk ▸ hq) hk
  · exact quorum_resumeAt (hk ▸ hq) hk
  · exact quorum_teardown (hk ▸ hq) hk
  · exact quorum_reseed (hk ▸ hq) hk
  · exact quorum_managerReplace (hk ▸ hq) hk

end Sys2Proof.Machine
end

