-- ==== Sys2Proof/Proofs/MembersReport.lean ====
section
/-! PROOF. HEALTH, managers' records and votes (R372, R374, R378, R379, R384, R504, R505): O45. -/

namespace Sys2Proof.Machine
open Sys2Proof.Stmt

/-! ### What was sent stays sent -/

/-- Between `s` and `t` messages were sent, and the round is the same. -/
structure SentOn (s t : State) : Prop where
  round : t.round = s.round
  out : ∃ l, t.out = s.out ++ l

section
variable {s t u : State} {p : Nat}

theorem SentOn.refl (s : State) : SentOn s s := ⟨rfl, [], (List.append_nil _).symm⟩

theorem SentOn.trans (hst : SentOn s t) (htu : SentOn t u) : SentOn s u := by
  obtain ⟨l, hl⟩ := hst.out
  obtain ⟨l', hl'⟩ := htu.out
  exact ⟨htu.round.trans hst.round, l ++ l', by rw [hl', hl, List.append_assoc]⟩

theorem SentOn.mem (h : SentOn s t) (m : Sent) (hm : m ∈ s.out) : m ∈ t.out := by
  obtain ⟨l, hl⟩ := h.out
  rw [hl]
  exact List.mem_append_left l hm

theorem SentOn.of_same (hround : t.round = s.round) (hout : t.out = s.out) : SentOn s t := ⟨hround, [], by rw [hout, List.append_nil]⟩

theorem sentOn_foldl {α : Type} {f : State → α → State} (h : ∀ s a, SentOn s (f s a)) (l : List α) (s : State) : SentOn s (l.foldl f s) :=
  List.foldlRecOn l f (motive := fun t => SentOn s t) (.refl s) fun t ht a _ => ht.trans (h t a)

theorem sentOn_onPart (s : State) (p : Nat) (f : Part → Part) : SentOn s (s.onPart p f) := .of_same rfl rfl

theorem SentOn.onPart (h : SentOn s t) (p : Nat) (f : Part → Part) : SentOn s (t.onPart p f) := h.trans (sentOn_onPart t p f)

theorem sentOn_free (s : State) (n : Nat) : SentOn s { s with freeCtr := n } := .of_same rfl rfl

theorem sentOn_send (s : State) (m : Sent) : SentOn s (s.send m) := ⟨rfl, [m], rfl⟩

theorem sentOn_setRing (s : State) (fn k q : Nat) (r : Ring) : SentOn s (s.setRing fn k q r) := .of_same rfl rfl

theorem sentOn_signal (s : State) (fn k v : Nat) : SentOn s (s.signal fn k v) := by
  unfold State.signal
  split
  · exact .of_same rfl rfl
  · exact sentOn_send ..

theorem sentOn_eventTo (s : State) (fn k : Nat) (e : Event) : SentOn s (s.eventTo fn k e) := by
  unfold State.eventTo
  dsimp only
  split
  · exact .refl s
  · split
    · exact ((sentOn_setRing ..).trans (sentOn_send ..)).trans (sentOn_signal ..)
    · exact sentOn_setRing ..

theorem sentOn_event (s : State) (kind part : Nat) (args : List Nat) : SentOn s (s.event kind part args) := by
  unfold State.event
  dsimp only
  split
  · exact .refl s
  · split
    · exact (((sentOn_eventTo ..).trans (sentOn_eventTo ..)).trans (sentOn_eventTo ..)).trans (sentOn_eventTo ..)
    · exact (sentOn_eventTo ..).trans (sentOn_eventTo ..)

theorem sentOn_replyTo (s : State) (key : Option Hash) (h : Hdr) (op st : Nat) (res : List (Nat × Nat)) :
    SentOn s (s.replyTo key h op st res) := by
  have hdone : SentOn s { s with inProg := s.inProg.erase (h, op), taken := s.taken.erase (h, op), mute := s.mute.erase (h, op) } :=
    .of_same rfl rfl
  unfold State.replyTo
  dsimp only
  split
  · exact hdone
  · split
    · exact hdone.trans (sentOn_send ..)
    · split
      · exact hdone.trans (sentOn_setRing ..)
      · exact (((hdone.trans (sentOn_setRing ..)).trans (sentOn_setRing ..)).trans (sentOn_send ..)).trans (sentOn_signal ..)

theorem sentOn_post (s : State) (h : Hdr) (op st : Nat) (res : List (Nat × Nat)) : SentOn s (s.post h op st res) :=
  SentOn.trans (.of_same (State.auditAdd_round ..) (State.auditAdd_out ..)) (sentOn_replyTo ..)

theorem sentOn_tell (s : State) (p : Nat) (m : MgrMsg) : SentOn s (s.tell p m) := by
  rcases s.tell_cases p m with h | h <;> rw [h]
  · exact .refl s
  · exact (sentOn_send ..).onPart _ _

theorem sentOn_issue (s : State) (p : Nat) (m : MgrMsg) : SentOn s (s.issue p m) := by
  rw [s.issue_eq]
  exact (sentOn_tell ..).onPart _ _

theorem ImageMoved.sentOn (h : ImageMoved s t p) : SentOn s t := ⟨(congrArg State.round h.frame :), h.out⟩

theorem PoweredUp.sentOn (h : PoweredUp s t) : SentOn s t :=
  .of_same (congrArg State.round h.frame :) (congrArg State.out h.frame :)

theorem CellsOnly.sentOn (h : CellsOnly s t) : SentOn s t := (h.placed 0).sentOn

/-! ### Rounds, votes and decisions send, and keep the round -/

theorem sentOn_untrip (s : State) (p : Nat) : SentOn s (s.untrip p) := by
  have hturns := fun (l : List Nat) (u : State) => sentOn_foldl (f := fun s d => if s.wantsDom d then s.domUp d else s)
    (fun s d => by split; exacts [(s.domUp_poweredUp d).1.sentOn, .refl s]) l u
  unfold State.untrip
  dsimp only
  obtain ⟨hround, hout⟩ := hturns (allDoms.filter (fun d => s.pwr.tripped.getLsbD d && s.usesDom p d && s.domCool d)) { s with
    pwr := { s.pwr with tripped := s.pwr.tripped &&&
      ~~~(domMask (allDoms.filter (fun d => s.pwr.tripped.getLsbD d && s.usesDom p d && s.domCool d))) } }
  exact ⟨hround, hout⟩

theorem sentOn_reinstall (s : State) (p x : Nat) (graft : BitVec 16) : SentOn s (s.reinstall p x graft) :=
  (((((sentOn_untrip s p).trans (placed_clearBudget _ p).sentOn).trans (State.unplace_cellsOnly _ p).sentOn).onPart p _).trans (State.place_cellsOnly _ p _).sentOn).trans (placed_sendMap _ p false).sentOn

theorem sentOn_restage (s : State) (p : Nat) (graft : BitVec 16) : SentOn s (s.restage p graft).1 := by
  unfold State.restage
  split
  · exact .refl s
  · dsimp only
    split
    · exact (sentOn_onPart s p _).trans (sentOn_reinstall ..)
    · dsimp only
      exact (sentOn_onPart s p _).onPart ..

theorem sentOn_reseed (s : State) (p : Nat) : SentOn s (s.reseed p) := (s.unload_placed p).sentOn.onPart _ _

theorem sentOn_ite {s t : State} (c : Prop) [Decidable c] (h : SentOn s t) : SentOn s (if c then t else s) := by
  split
  · exact h
  · exact .refl s

theorem sentOn_armAt {s t : State} {p mark : Nat} {r : Option (Nat × Nat × Nat)} (h : s.armAt p mark r = some t) : SentOn s t := by
  unfold State.armAt at h
  split at h
  · cases h
    exact sentOn_onPart ..
  · cases h

theorem sentOn_graftOrStall (s : State) (p subject : Nat) : SentOn s (s.graftOrStall p subject) := by
  unfold State.graftOrStall
  dsimp only
  split
  · split
    · exact ((sentOn_free s _).trans (sentOn_issue ..)).onPart _ _
    · exact (sentOn_free s _).trans (sentOn_event ..)
  · exact sentOn_event ..

theorem sentOn_applyPrune (s : State) (p : Nat) (m : MgrMsg) : SentOn s (s.applyPrune p m) := by
  unfold State.applyPrune
  dsimp only
  split
  · exact ((sentOn_onPart ..).onPart _ _).trans (sentOn_graftOrStall ..)
  · exact sentOn_onPart ..

theorem sentOn_applyGraft {s t : State} {p : Nat} {m : MgrMsg} (h : s.applyGraft p m = some t) : SentOn s t := by
  have hrestaged : SentOn s (if (s.part p).image.isSome ∧ (s.part p).rank ≠ m.subject then
      (s.restage p ((s.part p).graftSel ||| (s.part p).facing m.subject)).1 else s) := by
    split
    · exact sentOn_restage ..
    · exact .refl s
  unfold State.applyGraft at h
  dsimp only at h
  split at h
  · split at h <;> cases h
    · exact sentOn_onPart ..
    · exact .refl s
  · split at h
    · cases h
    · generalize (if (s.part p).image.isSome ∧ (s.part p).rank ≠ m.subject then
        (s.restage p ((s.part p).graftSel ||| (s.part p).facing m.subject)).1 else s) = u at h hrestaged
      split at h <;> cases h
      · exact (hrestaged.onPart _ _).trans (sentOn_foldl (fun s c => sentOn_issue ..) _ _)
      · exact hrestaged

theorem sentOn_applyResume {s t : State} {p : Nat} {m : MgrMsg} (h : s.applyResume p m = some t) : SentOn s t := by
  unfold State.applyResume at h
  dsimp only at h
  split at h
  · cases h
  · split at h
    · exact sentOn_armAt h
    · split at h
      · split at h
        · exact (sentOn_restage s p _).trans (sentOn_armAt h)
        · cases h
      · cases h

theorem sentOn_applyOne {s t : State} {p : Nat} {m : MgrMsg} (h : s.applyOne p m = some t) : SentOn s t := by
  unfold State.applyOne at h
  dsimp only at h
  split at h
  · split at h
    · exact sentOn_armAt h
    · cases h
  · cases h
    exact sentOn_applyPrune ..
  · exact sentOn_applyGraft h
  · exact sentOn_applyResume h
  · split at h <;> cases h
    exact sentOn_onPart ..
  · cases h
    exact sentOn_ite _ (sentOn_reseed ..)
  · cases h
    exact sentOn_onPart ..
  · cases h

theorem sentOn_settle (s : State) (p : Nat) : SentOn s (s.settle p) := by
  have h : ∀ fuel (s : State), SentOn s (s.settleDecs p fuel) := by
    intro fuel
    induction fuel with
    | zero => exact fun s => .refl s
    | succ n ih =>
      intro s
      unfold State.settleDecs
      split
      · exact .refl s
      next m t hfound =>
        obtain ⟨x, -, hx⟩ := List.exists_of_findSome?_eq_some hfound
        obtain ⟨u, hu, he⟩ := Option.map_eq_some_iff.1 hx
        cases he
        exact ((sentOn_applyOne hu).onPart _ _).trans (ih _)
  exact h 16 s

theorem sentOn_pruneCheck (s : State) (p subject round : Nat) : SentOn s (s.pruneCheck p subject round) := by
  unfold State.pruneCheck
  dsimp only
  split
  · exact .refl s
  · split
    · exact (sentOn_free s _).trans (sentOn_issue ..)
    · exact .refl s

theorem sentOn_castVote (s : State) (p r subject v : Nat) : SentOn s (s.castVote p r subject v) := by
  unfold State.castVote
  dsimp only
  split
  · exact ((sentOn_tell ..).onPart _ _).trans (sentOn_pruneCheck ..)
  · exact sentOn_tell ..

theorem sentOn_managerRound (s : State) (p r : Nat) : SentOn s (s.managerRound p r) :=
  ((sentOn_onPart s p _).trans (sentOn_foldl (fun _ _ => sentOn_castVote ..) _ _)).trans (sentOn_foldl (fun _ _ => sentOn_castVote ..) _ _)

theorem sentOn_resumeCheck (s : State) (p : Nat) : SentOn s (s.resumeCheck p) := by
  unfold State.resumeCheck
  dsimp only
  split
  · exact ((sentOn_free s _).trans (sentOn_issue ..)).onPart _ _
  · exact .refl s

theorem sentOn_detachAll (s : State) : SentOn s s.detachAll := by
  have hdone : ∀ (n : Nat) (h : Hdr) (st : Nat), SentOn s (({ s with freeCtr := n, detachCmd := none } : State).post h 0x0607 st []) :=
    fun n h st => by
      have hpost := sentOn_post { s with freeCtr := n, detachCmd := none } h 0x0607 st []
      exact ⟨hpost.round, hpost.out⟩
  unfold State.detachAll
  split
  · exact .refl s
  next h _ =>
    unfold State.detachCheck
    dsimp only
    split
    · exact .refl s
    · split
      · exact hdone _ h _
      · split
        · exact hdone _ h _
        · exact sentOn_free s _

end

/-! ### A round (R374, R384, R504) -/

/-- The state in which a round begins: the round counts, and the module is scored. -/
def State.roundBegun (s : State) : State := { s with round := s.hallNow / 10 ^ 8, health := s.healthNow (s.hallNow / 10 ^ 8) }

/-- A partition's turn in which it reports. -/
def State.reportTurn (s : State) (p : Nat) : State :=
  if !(s.part p).jb.jstate.reports then s
  else if (s.part p).jb.manager then noteHealth (s.healthMsg p) (s.tell p (s.healthMsg p)) p else s.tell p (s.healthMsg p)

/-- A manager's turn in round `r`. -/
def State.managerTurn (r : Nat) (s : State) (p : Nat) : State :=
  if (s.part p).jb.manager then ((s.managerRound p r).resumeCheck p).settle p else s

theorem exec_managerRound {s : State} (hround : s.hallNow / 10 ^ 8 ≠ s.round) : exec .managerRound s =
    if s.mgmtDown then .next s.roundBegun
    else .next (allParts.foldl (State.managerTurn (s.hallNow / 10 ^ 8)) (allParts.foldl State.reportTurn s.roundBegun)).detachAll := by
  change execManagerRound s = _
  unfold execManagerRound
  dsimp only
  rw [if_neg hround]
  rfl

/-- What a report keeps: the clock, the score, and every other partition. -/
theorem State.reportTurn_kept (s : State) (p : Nat) : SentOn s (s.reportTurn p) ∧ (s.reportTurn p).health = s.health ∧
    (s.reportTurn p).mgmtDown = s.mgmtDown ∧ (s.reportTurn p).detachCmd = s.detachCmd ∧
    ∀ q, q ≠ p → (s.reportTurn p).part q = s.part q := by
  have htell := s.tell_frame p (s.healthMsg p)
  have hsent := sentOn_tell s p (s.healthMsg p)
  have hother := fun q (hq : q ≠ p) => s.tell_part_ne (s.healthMsg p) hq
  unfold State.reportTurn
  generalize s.tell p (s.healthMsg p) = u at htell hsent hother
  split
  · exact ⟨.refl s, rfl, rfl, rfl, fun _ _ => rfl⟩
  · split
    · refine ⟨hsent.onPart .., ?_, ?_, ?_, fun q hq => (State.onPart_part_ne _ _ hq).trans (hother q hq)⟩
      · exact (congrArg State.health htell :)
      · exact (congrArg State.mgmtDown htell :)
      · exact (congrArg State.detachCmd htell :)
    · exact ⟨hsent, (congrArg State.health htell :), (congrArg State.mgmtDown htell :), (congrArg State.detachCmd htell :), hother⟩

theorem foldl_reportTurn_kept (l : List Nat) (s : State) : SentOn s (l.foldl State.reportTurn s) ∧
    (l.foldl State.reportTurn s).health = s.health ∧ (l.foldl State.reportTurn s).mgmtDown = s.mgmtDown ∧
    (l.foldl State.reportTurn s).detachCmd = s.detachCmd ∧ ∀ q, q ∉ l → (l.foldl State.reportTurn s).part q = s.part q := by
  refine ⟨sentOn_foldl (fun s p => (s.reportTurn_kept p).1) l s, ?_, ?_, ?_, fun q hq => ?_⟩
  · exact foldl_invariant State.health (fun s p => (s.reportTurn_kept p).2.1) l s
  · exact foldl_invariant State.mgmtDown (fun s p => (s.reportTurn_kept p).2.2.1) l s
  · exact foldl_invariant State.detachCmd (fun s p => (s.reportTurn_kept p).2.2.2.1) l s
  · exact foldl_part_of_not_mem (fun s p k hk => (s.reportTurn_kept p).2.2.2.2 k hk) hq s

/-- A reporting turn changes of a partition neither its being a manager nor anything HEALTH tells of another. -/
theorem State.reportTurn_manager (s : State) (p : Nat) : ((s.reportTurn p).part p).jb.manager = (s.part p).jb.manager := by
  obtain ⟨n, hn⟩ := s.tell_part_same p (s.healthMsg p)
  unfold State.reportTurn
  split
  · rfl
  · split
    · rw [noteHealth, State.onPart_part_same, hn]
      rfl
    · rw [hn]

/-- HEALTH of a partition as R372 gives it, with the score told. -/
def HealthTold (s t : State) (p score : Nat) : Prop := Told s t p 1 (fun m =>
  m.seq = (s.part p).jb.seq + 1 ∧ m.arg0 % 1024 = score % 1024 ∧ m.arg2 = (s.part p).planFrame ∧
  ∀ n, (s.part p).committed = some n → m.arg1 = n)

theorem reportTurn_tells {s : State} {p : Nat} (hup : s.mgmtDown = false) (hreports : (s.part p).jb.jstate.reports = true)
    (hkey : (s.part p).msgKey.isSome = true) : HealthTold s (s.reportTurn p) p s.health.score := by
  have hmem : Sent.mgr (s.stamp p (s.healthMsg p)) ∈ (s.tell p (s.healthMsg p)).out := by
    rw [State.tell_sends hup hkey]
    exact List.mem_append_right _ List.mem_cons_self
  have hturn : SentOn (s.tell p (s.healthMsg p)) (s.reportTurn p) := by
    unfold State.reportTurn
    rw [hreports, Bool.not_true, if_neg Bool.false_ne_true]
    exact sentOn_ite _ (sentOn_onPart ..)
  refine told_stamp (u := s) rfl ⟨rfl, ?_, rfl, fun n hn => ?_⟩ (hturn.mem _ hmem)
  · change (s.health.score + _ * 2 ^ 12 + _ * 2 ^ 16 + _ * 2 ^ 48) % 1024 = _
    omega
  · change (s.part p).committed.getD _ = n
    rw [hn, Option.getD_some]

/-- What a partition tells in its turn it has told when all turns are over. -/
theorem foldl_reportTurn_tells {s : State} {p : Nat} (hp : p < 16) (hup : s.mgmtDown = false)
    (hreports : (s.part p).jb.jstate.reports = true) (hkey : (s.part p).msgKey.isSome = true) :
    HealthTold s (allParts.foldl State.reportTurn s) p s.health.score := by
  obtain ⟨l₁, l₂, hl⟩ := List.append_of_mem (List.mem_range.2 hp)
  have hp₁ : p ∉ l₁ := by
    have hd := hl ▸ List.nodup_range (n := 16)
    simpa using fun h => (List.nodup_middle.1 hd).notMem (List.mem_append_left l₂ h)
  obtain ⟨-, hhealth, hdown, -, hpart⟩ := foldl_reportTurn_kept l₁ s
  have hbefore := hpart p hp₁
  rw [allParts, hl, List.foldl_append, List.foldl_cons]
  generalize l₁.foldl State.reportTurn s = u at hhealth hdown hbefore ⊢
  have htold := reportTurn_tells (s := u) (p := p) (by rw [hdown, hup]) (by rw [hbefore]; exact hreports) (by rw [hbefore]; exact hkey)
  have hsent := (foldl_reportTurn_kept l₂ (u.reportTurn p)).1
  rw [HealthTold, Told, hbefore, hhealth] at htold
  exact Told.mono htold hsent.mem

theorem foldl_managerTurn_of_none {r : Nat} {s : State} {l : List Nat} (h : ∀ p ∈ l, (s.part p).jb.manager = false) :
    l.foldl (State.managerTurn r) s = s :=
  List.foldlRecOn l _ (motive := fun t => t = s) rfl fun t ht p hp => by
    rw [ht, State.managerTurn, h p hp, if_neg Bool.false_ne_true]

theorem sentOn_managerTurn (r : Nat) (s : State) (p : Nat) : SentOn s (State.managerTurn r s p) := by
  unfold State.managerTurn
  split
  · exact ((sentOn_managerRound ..).trans (sentOn_resumeCheck ..)).trans (sentOn_settle ..)
  · exact .refl s

theorem foldl_reportTurn_manager {l : List Nat} (hl : l.Nodup) (s : State) (p : Nat) :
    ((l.foldl State.reportTurn s).part p).jb.manager = (s.part p).jb.manager :=
  foldl_part_rel (R := fun a b => b.jb.manager = a.jb.manager) (fun _ => rfl) State.reportTurn_manager
    (fun s p k hk => (s.reportTurn_kept p).2.2.2.2 k hk) hl s p

/-! ### What a manager takes (R378, R379, R385) -/

/-- A manager of partition `p` issued one decision, or none. -/
structure IssuedAtMostOne (s t : State) (p : Nat) : Prop where
  other : ∀ q, q ≠ p → t.part q = s.part q
  own : ∃ seq decs next, decs.length ≤ (s.part p).jb.decs.length + 1 ∧ t.part p = { s.part p with jb := { (s.part p).jb with
    seq := seq, decs := decs, mgr := { (s.part p).jb.mgr with nextDseq := next } } }

section
variable {s t : State} {p : Nat}

theorem IssuedAtMostOne.refl (s : State) (p : Nat) : IssuedAtMostOne s s p := ⟨fun _ _ => rfl, _, _, _, Nat.le_succ _, rfl⟩

theorem issuedAtMostOne_issue (s : State) (p n : Nat) (m : MgrMsg) : IssuedAtMostOne s (({ s with freeCtr := n } : State).issue p m) p := by
  refine ⟨fun q hq => State.issue_part_ne _ m hq, ?_⟩
  obtain ⟨seq, next, h⟩ := ({ s with freeCtr := n } : State).issue_part_same p m
  exact ⟨seq, _, next, (List.length_append ..).le, h⟩

theorem issuedAtMostOne_startCheck (s : State) (p : Nat) : IssuedAtMostOne s (s.startCheck p) p := by
  unfold State.startCheck
  dsimp only
  split
  · exact issuedAtMostOne_issue ..
  · exact .refl s p

theorem issuedAtMostOne_pruneCheck (s : State) (p subject round : Nat) : IssuedAtMostOne s (s.pruneCheck p subject round) p := by
  unfold State.pruneCheck
  dsimp only
  split
  · exact .refl s p
  · split
    · exact issuedAtMostOne_issue ..
    · exact .refl s p

theorem State.resumeCheck_of_noGrafts (h : (s.part p).jb.mgr.grafts = []) : s.resumeCheck p = s := by
  unfold State.resumeCheck
  simp [h]

/-- With no decision held and no graft under way a manager that issued at most one decision has no more to do. -/
theorem IssuedAtMostOne.settled (h : IssuedAtMostOne s t p) (hdecs : (s.part p).jb.decs = []) (hgrafts : (s.part p).jb.mgr.grafts = []) :
    (t.resumeCheck p).settle p = t ∧ t.settle p = t := by
  obtain ⟨seq, decs, next, hlen, hpart⟩ := h.own
  have hresume : t.resumeCheck p = t := State.resumeCheck_of_noGrafts (by rw [hpart]; exact hgrafts)
  have hsettle : t.settle p = t := State.settle_of_few (by
    rw [hpart]
    rw [hdecs] at hlen
    exact lt_of_le_of_lt hlen (by decide))
  exact ⟨by rw [hresume, hsettle], hsettle⟩

end

/-- The manager's record changed as `g` says, with the message seen. -/
def State.noted (s : State) (p : Nat) (m : MgrMsg) (g : Mgr → Mgr) : State :=
  (s.onPart p (fun q => q.sawMsg m)).onPart p (fun q => q.onMgr g)

section
variable {s : State} {p k : Nat} {m : MgrMsg} {g : Mgr → Mgr}

@[simp] theorem State.noted_part_same (s : State) (p : Nat) (m : MgrMsg) (g : Mgr → Mgr) :
    (s.noted p m g).part p = ((s.part p).sawMsg m).onMgr g := by
  rw [State.noted, State.onPart_part_same, State.onPart_part_same]

theorem State.noted_part_ne (m : MgrMsg) (g : Mgr → Mgr) {q : Nat} (hq : q ≠ p) : (s.noted p m g).part q = s.part q := by
  rw [State.noted, State.onPart_part_ne _ _ hq, State.onPart_part_ne _ _ hq]

theorem mgmtUp_of_takes (h : Takes s p k m) : s.mgmtDown = false := by
  obtain ⟨-, -, hup, -⟩ := h
  exact hup

/-- A report to a manager enters its record, and is acted on. -/
theorem receive_asManager (h : Takes s p k m) (hmanager : (s.part p).jb.manager = true) (act : State → Nat → State) :
    s.receive k m (asManager act) = .next ((act (s.onPart p (fun q => q.sawMsg m)) p).settle p) := by
  rw [State.receive_takes h, asManager, if_pos]
  rw [State.onPart_part_same]
  exact hmanager

end

section
variable {s : State} {p : Nat} {m : MgrMsg}

theorem health_noted (h : Takes s p 1 m) (hmanager : (s.part p).jb.manager = true) (hdecs : (s.part p).jb.decs = [])
    (hgrafts : (s.part p).jb.mgr.grafts = []) : exec (.health m) s = .next (s.noted p m (fun g =>
      { g with health := put none g.health m.sender (some m), lastHeard := put 0 g.lastHeard m.sender (s.round + 1)
               low := put 0 g.low m.sender (if m.arg0 % 1024 < g.score then look 0 g.low m.sender + 1 else 0) })) := by
  refine (receive_asManager h hmanager _).trans (congrArg ok ?_)
  exact ((IssuedAtMostOne.refl (noteHealth m (s.onPart p (fun q => q.sawMsg m)) p) p).settled
    (by rw [noteHealth, State.onPart_part_same, State.onPart_part_same]; exact hdecs)
    (by rw [noteHealth, State.onPart_part_same, State.onPart_part_same]; exact hgrafts)).1

theorem notSeeded_noted (h : Takes s p 3 m) (hmanager : (s.part p).jb.manager = true) (hdecs : (s.part p).jb.decs = [])
    (hgrafts : (s.part p).jb.mgr.grafts = []) : exec (.notSeeded m) s = .next (s.noted p m (fun g =>
      { g with seeded := put none g.seeded m.sender none
               orphans := if m.cause = 1 then g.orphans ++ [(m.sender, m.aux)] else g.orphans })) := by
  have hnone : ¬(m.cause = 2 ∧ ((s.onPart p (fun q => q.sawMsg m)).part p).jb.mgr.grafts.contains m.sender = true) := by
    rw [State.onPart_part_same]
    change ¬(_ ∧ (s.part p).jb.mgr.grafts.contains m.sender = true)
    rw [hgrafts]
    simp
  refine (receive_asManager h hmanager _).trans (congrArg ok ?_)
  dsimp only
  rw [if_neg hnone]
  exact ((IssuedAtMostOne.refl (s.noted p m _) p).settled (by rw [State.noted_part_same]; exact hdecs)
    (by rw [State.noted_part_same]; exact hgrafts)).2

/-- SEEDED enters the record; then START_AT may be issued. -/
theorem seeded_noted (h : Takes s p 2 m) (hmanager : (s.part p).jb.manager = true) (hdecs : (s.part p).jb.decs = [])
    (hgrafts : (s.part p).jb.mgr.grafts = []) : exec (.seeded m) s =
      .next ((s.noted p m (fun g => { g with seeded := put none g.seeded m.sender (some m.digest0) })).startCheck p) := by
  refine (receive_asManager h hmanager _).trans (congrArg ok ?_)
  exact ((issuedAtMostOne_startCheck (s.noted p m _) p).settled (by rw [State.noted_part_same]; exact hdecs)
    (by rw [State.noted_part_same]; exact hgrafts)).1

/-- A manager's PRUNE vote is counted; then PRUNE may be issued. -/
theorem vote_noted (h : Takes s p 4 m) (hmanager : (s.part p).jb.manager = true) (hdecs : (s.part p).jb.decs = [])
    (hgrafts : (s.part p).jb.mgr.grafts = []) (hcause : m.cause = 1) (hsender : m.sender ∈ (s.part p).jb.mgrs) : exec (.vote m) s =
      .next ((s.noted p m (fun g => { g with votes := g.votes ++ [(m.subject, m.sender, m.arg0)] })).pruneCheck p m.subject m.arg0) := by
  have hmgr : ¬(!((s.onPart p (fun q => q.sawMsg m)).part p).jb.mgrs.contains m.sender) = true := by
    rw [State.onPart_part_same]
    simpa [Part.sawMsg] using hsender
  refine (receive_asManager h hmanager _).trans (congrArg ok ?_)
  rw [if_neg hmgr, if_pos hcause]
  exact ((issuedAtMostOne_pruneCheck (s.noted p m _) p _ _).settled (by rw [State.noted_part_same]; exact hdecs)
    (by rw [State.noted_part_same]; exact hgrafts)).2

end

theorem farMark_ahead (s : State) : s.hallNow + 10 ^ 8 ≤ 1024 * s.farMark ∧ s.farMark % 10 = 0 := by
  unfold State.farMark
  omega

/-- START_AT is issued when every rank reported one digest. -/
theorem startCheck_issues {s : State} {p : Nat} {d : Hash} (hmanager : (s.part p).jb.manager = true)
    (hseeded : (s.part p).jb.jstate = .seeded) (hsize : (s.part p).jobSize ≠ 0) (hdecs : (s.part p).jb.decs = [])
    (hall : ∀ r, r < (s.part p).jobSize → look none (s.part p).jb.mgr.seeded r = some d) :
    s.startCheck p = s.fresh.issue p { blankMsg with kind := 5, arg0 := s.farMark } := by
  have hfirst := hall 0 (Nat.pos_of_ne_zero hsize)
  unfold State.startCheck
  dsimp only
  rw [if_pos]
  simpa [hmanager, hseeded, hdecs, hfirst] using hall

/-- Three managers' votes for a candidate are three. -/
theorem three_le_voters {votes : List (Nat × Nat × Nat)} {subject round a b c : Nat} (ha : (subject, a, round) ∈ votes)
    (hb : (subject, b, round) ∈ votes) (hc : (subject, c, round) ∈ votes) (hab : a ≠ b) (hac : a ≠ c) (hbc : b ≠ c) :
    3 ≤ ((votes.filter (fun v => decide (v.1 = subject ∧ v.2.2 = round))).map (fun v => v.2.1)).eraseDups.length := by
  have hmem : ∀ x, (subject, x, round) ∈ votes →
      x ∈ ((votes.filter (fun v => decide (v.1 = subject ∧ v.2.2 = round))).map (fun v => v.2.1)).eraseDups := fun x hx =>
    List.mem_eraseDups.2 (List.mem_map.2 ⟨_, List.mem_filter.2 ⟨hx, by simp⟩, rfl⟩)
  have hnodup : [a, b, c].Nodup := by simp [hab, hac, hbc]
  refine (hnodup.subperm fun x hx => ?_).length_le
  simp only [List.mem_cons, List.not_mem_nil, or_false] at hx
  rcases hx with rfl | rfl | rfl
  exacts [hmem _ ha, hmem _ hb, hmem _ hc]

/-- PRUNE is issued when three voted for the candidate. -/
theorem pruneCheck_tells {s : State} {p subject round c a b d : Nat} (hup : s.mgmtDown = false) (hkey : (s.part p).msgKey.isSome = true)
    (hdecs : (s.part p).jb.decs = []) (hcands : (s.part p).jb.mgr.cands = [(subject, c)])
    (ha : (subject, a, round) ∈ (s.part p).jb.mgr.votes) (hb : (subject, b, round) ∈ (s.part p).jb.mgr.votes)
    (hd : (subject, d, round) ∈ (s.part p).jb.mgr.votes) (hab : a ≠ b) (had : a ≠ d) (hbd : b ≠ d) :
    Told s (s.pruneCheck p subject round) p 6 (fun m => m.subject = subject ∧ m.cause = c) := by
  have hthree := three_le_voters ha hb hd hab had hbd
  unfold State.pruneCheck
  dsimp only
  simp only [hcands, List.find?_cons, decide_true]
  rw [if_pos ⟨hthree, by simp [hdecs]⟩]
  exact State.issue_told (s := { s with freeCtr := s.freeCtr + 2 }) hup hkey fun d _ hsub hcause _ => ⟨hsub, hcause⟩

/-- A message whose tag no partition's key verifies is dropped and counted. -/
theorem State.receive_dropped {s : State} {k : Nat} {m : MgrMsg} (hkind : m.kind = k) (hup : s.mgmtDown = false)
    (hbad : ∀ p, p < 16 → Sys2Proof.Machine.msgOk (s.part p).sx.jobKey m = false) (act : State → Nat → State) :
    s.receive k m act = .next { s with mgrDrop := s.mgrDrop + 1 } := by
  have hnone : (s.inJob m.job).filter (fun p => Sys2Proof.Machine.msgOk (s.part p).sx.jobKey m) = [] :=
    List.filter_eq_nil_iff.2 fun p hp => by
      have hlt : p < 16 := List.mem_range.1 (List.mem_filter.1 hp).1
      simp [hbad p hlt]
  unfold State.receive
  rw [if_neg (by simp [hkind, hup])]
  simp only [hnone, List.isEmpty_nil, if_true]
  rfl

/-- The clause of O45 on SEEDED: the digest is in the record, and with every rank's START_AT is told. -/
theorem seeded_reported {s : State} {p : Nat} {m : MgrMsg} (hup : s.mgmtDown = false) (hkey : (s.part p).msgKey.isSome = true)
    (hmanager : (s.part p).jb.manager = true) (hdecs : (s.part p).jb.decs = []) :
    ∃ t, (.next ((s.noted p m (fun g => { g with seeded := put none g.seeded m.sender (some m.digest0) })).startCheck p) : Out) = .next t ∧
      look none (t.part p).jb.mgr.seeded m.sender = some m.digest0 ∧
      (∀ r, r ≠ m.sender → look none (t.part p).jb.mgr.seeded r = look none (s.part p).jb.mgr.seeded r) ∧
      (∀ q, q ≠ p → t.part q = s.part q) ∧
      ((s.part p).jb.jstate = .seeded → (s.part p).jobSize ≠ 0 →
        (∀ r, r < (s.part p).jobSize → r ≠ m.sender → look none (s.part p).jb.mgr.seeded r = some m.digest0) →
        m.sender < (s.part p).jobSize →
        Told s t p 5 (fun d => s.hallNow + 10 ^ 8 ≤ 1024 * d.arg0 ∧ d.arg0 % 10 = 0 ∧ (s.part p).jb.applied < d.dseq)) := by
  have hown := s.noted_part_same p m (fun g => { g with seeded := put none g.seeded m.sender (some m.digest0) })
  have hother := fun q (hq : q ≠ p) => s.noted_part_ne m (fun g => { g with seeded := put none g.seeded m.sender (some m.digest0) }) hq
  have hhall : (s.noted p m (fun g => { g with seeded := put none g.seeded m.sender (some m.digest0) })).hallNow = s.hallNow := by
    rw [State.noted, State.onPart_hallNow, State.onPart_hallNow]
  have hdown : (s.noted p m (fun g => { g with seeded := put none g.seeded m.sender (some m.digest0) })).mgmtDown = s.mgmtDown := rfl
  generalize s.noted p m (fun g => { g with seeded := put none g.seeded m.sender (some m.digest0) }) = u at hown hother hhall hdown ⊢
  obtain ⟨hpart, seq, decs, next, -, hstarted⟩ := issuedAtMostOne_startCheck u p
  have hnoted : (u.part p).jb.mgr.seeded = put none (s.part p).jb.mgr.seeded m.sender (some m.digest0) := by rw [hown]; rfl
  have hseeded : ((u.startCheck p).part p).jb.mgr.seeded = put none (s.part p).jb.mgr.seeded m.sender (some m.digest0) := by
    rw [hstarted]
    exact hnoted
  refine ⟨_, rfl, ?_, fun r hr => ?_, fun q hq => (hpart q hq).trans (hother q hq), fun hstate hsize hall hlt => ?_⟩
  · rw [hseeded, look_put_same]
  · rw [hseeded, look_put_ne _ _ _ hr]
  · have heach : ∀ r, r < (u.part p).jobSize → look none (u.part p).jb.mgr.seeded r = some m.digest0 := fun r hr => by
      rw [hnoted]
      by_cases heq : r = m.sender
      · rw [heq, look_put_same]
      · rw [look_put_ne _ _ _ heq]
        exact hall r (by rw [hown] at hr; exact hr) heq
    rw [startCheck_issues (by rw [hown]; exact hmanager) (by rw [hown]; exact hstate) (by rw [hown]; exact hsize)
      (by rw [hown]; exact hdecs) heach]
    have hfar := farMark_ahead u
    rw [hhall] at hfar
    have htold := State.issue_told (s := u.fresh) (p := p) (m := { blankMsg with kind := 5, arg0 := u.farMark })
      (f := fun d => s.hallNow + 10 ^ 8 ≤ 1024 * d.arg0 ∧ d.arg0 % 10 = 0 ∧ (s.part p).jb.applied < d.dseq)
      (hdown.trans hup) (by change (u.part p).msgKey.isSome = true; rw [hown]; exact hkey)
      (fun d hseq _ _ harg => by
        rw [harg]
        refine ⟨hfar.1, hfar.2, ?_⟩
        change (u.part p).jb.applied < _ at hseq
        rw [hown] at hseq
        exact hseq)
    change Told u _ p 5 _ at htold
    rw [Told, hown] at htold
    exact htold

/-- The clause of O45 on VOTE: the vote is counted, and the third for the candidate tells PRUNE. -/
theorem vote_counted {s : State} {p : Nat} {m : MgrMsg} (hup : s.mgmtDown = false) (hkey : (s.part p).msgKey.isSome = true)
    (hdecs : (s.part p).jb.decs = []) : ∃ t, (.next ((s.noted p m (fun g =>
      { g with votes := g.votes ++ [(m.subject, m.sender, m.arg0)] })).pruneCheck p m.subject m.arg0) : Out) = .next t ∧
      (t.part p).jb.mgr.votes = (s.part p).jb.mgr.votes ++ [(m.subject, m.sender, m.arg0)] ∧ (∀ q, q ≠ p → t.part q = s.part q) ∧
      ∀ c a b, (s.part p).jb.mgr.cands = [(m.subject, c)] → (m.subject, a, m.arg0) ∈ (s.part p).jb.mgr.votes →
        (m.subject, b, m.arg0) ∈ (s.part p).jb.mgr.votes → a ≠ b → a ≠ m.sender → b ≠ m.sender →
        Told s t p 6 (fun d => d.subject = m.subject ∧ d.cause = c) := by
  have hown := s.noted_part_same p m (fun g => { g with votes := g.votes ++ [(m.subject, m.sender, m.arg0)] })
  have hother := fun q (hq : q ≠ p) => s.noted_part_ne m (fun g => { g with votes := g.votes ++ [(m.subject, m.sender, m.arg0)] }) hq
  have hdown : (s.noted p m (fun g => { g with votes := g.votes ++ [(m.subject, m.sender, m.arg0)] })).mgmtDown = s.mgmtDown := rfl
  generalize s.noted p m (fun g => { g with votes := g.votes ++ [(m.subject, m.sender, m.arg0)] }) = u at hown hother hdown ⊢
  obtain ⟨hpart, seq, decs, next, -, hchecked⟩ := issuedAtMostOne_pruneCheck u p m.subject m.arg0
  have hvotes : (u.part p).jb.mgr.votes = (s.part p).jb.mgr.votes ++ [(m.subject, m.sender, m.arg0)] := by rw [hown]; rfl
  refine ⟨_, rfl, ?_, fun q hq => (hpart q hq).trans (hother q hq), fun c a b hcands ha hb hab has hbs => ?_⟩
  · rw [hchecked]
    exact hvotes
  · have htold := pruneCheck_tells (s := u) (p := p) (c := c) (hdown.trans hup) (by rw [hown]; exact hkey) (by rw [hown]; exact hdecs)
      (by rw [hown]; exact hcands) (by rw [hvotes]; exact List.mem_append_left _ ha) (by rw [hvotes]; exact List.mem_append_left _ hb)
      (by rw [hvotes]; exact List.mem_append_right _ List.mem_cons_self) hab has hbs
    rw [Told, hown] at htold
    exact htold

/-- A round in which no partition is a manager, and no DETACH_PREPARE waits, ends with the score it began with. -/
theorem managerRound_health {s : State} {r : Nat} (hnone : ∀ p, p < 16 → (s.part p).jb.manager = false) (hdetach : s.detachCmd = none) :
    (allParts.foldl (State.managerTurn r) (allParts.foldl State.reportTurn s)).detachAll.health = s.health := by
  obtain ⟨-, hhealth, -, hcmd, -⟩ := foldl_reportTurn_kept allParts s
  rw [foldl_managerTurn_of_none fun p hp => by
    rw [foldl_reportTurn_manager (l := allParts) List.nodup_range]
    exact hnone p (List.mem_range.1 hp)]
  unfold State.detachAll
  rw [hcmd, hdetach]
  exact hhealth

/-- Settles O45: a round scores the module once and tells HEALTH; a manager with nothing under way notes each report, and START_AT and
PRUNE are issued with the last report and the third vote. -/
theorem membersReportAndManagersVote : Obligations.MembersReportAndManagersVote := by
  unfold Obligations.MembersReportAndManagersVote
  refine ⟨fun s hround => if_pos hround, fun s hround => ?_, fun p k m s htakes hmanager hdecs hgrafts => ?_, fun m s hbad hup => ?_⟩
  · have hexec := exec_managerRound hround
    rcases Bool.eq_false_or_eq_true s.mgmtDown with hdown | hdown
    · rw [if_pos hdown] at hexec
      exact ⟨_, hexec, rfl, fun _ => rfl, fun _ _ => rfl, fun _ _ h => absurd (hdown.symm.trans h) (by decide)⟩
    · rw [if_neg (by simp [hdown])] at hexec
      have hafter := (sentOn_foldl (sentOn_managerTurn (s.hallNow / 10 ^ 8)) allParts (allParts.foldl State.reportTurn s.roundBegun)).trans
        (sentOn_detachAll _)
      have hround := ((foldl_reportTurn_kept allParts s.roundBegun).1.trans hafter).round
      refine ⟨_, hexec, hround, fun h => absurd (hdown.symm.trans h) Bool.false_ne_true, fun hnone hdetach => ?_, fun p hp _ hreports hkey => ?_⟩
      · rw [managerRound_health (s := s.roundBegun) hnone hdetach, hround]
        rfl
      · have htold := foldl_reportTurn_tells (s := s.roundBegun) hp hdown hreports hkey
        have hscore : s.roundBegun.health.score % 1024 = s.roundBegun.health.score := Nat.mod_eq_of_lt (by
          change 1000 - _ < 1024
          omega)
        rw [HealthTold, hscore] at htold
        rw [hround]
        exact Told.mono htold hafter.mem
  · have hup := mgmtUp_of_takes htakes
    have hkey := msgKey_of_takes htakes
    refine ⟨?_, ?_, ?_, ?_⟩
    · rintro rfl
      refine ⟨_, health_noted htakes hmanager hdecs hgrafts, ?_, ?_, ?_, fun q hq => State.noted_part_ne m _ hq, rfl⟩ <;>
        rw [State.noted_part_same] <;> simp only [Part.onMgr, Part.sawMsg, look_put_same]
      rfl
    · rintro rfl
      rw [seeded_noted htakes hmanager hdecs hgrafts]
      exact seeded_reported hup hkey hmanager hdecs
    · rintro rfl
      refine ⟨_, notSeeded_noted htakes hmanager hdecs hgrafts, ?_, ?_, fun q hq => State.noted_part_ne m _ hq⟩ <;>
        rw [State.noted_part_same]
      · simp only [Part.onMgr, look_put_same]
      · rfl
    · rintro rfl hcause hsender
      rw [vote_noted htakes hmanager hdecs hgrafts hcause hsender]
      exact vote_counted hup hkey hdecs
  · exact ⟨fun hkind => State.receive_dropped hkind hup hbad _, fun hkind => State.receive_dropped hkind hup hbad _⟩

end Sys2Proof.Machine
end

