-- ==== Sys2Proof/Proofs/HostReady.lean ====
section
/-! SUPPORT. The state in which the own part of an accepted host command runs, and what it leaves (R427, R433, R462, R463). -/

namespace Sys2Proof.Machine
open Sys2Proof.Stmt

section
variable {s : State} {h : Hdr} {op : Nat}

/-- An accepted command runs its own part on `ready s h op`. -/
theorem State.command_ready (hacc : Accepted s h op) (body : State → Did) : s.command h op false true body =
    match body (ready s h op) with
    | (t, none) => .next t
    | (t, some (st, res)) => .next (t.post h op st res) := by
  obtain ⟨hserves, hwaits, henc, hdma, hres, -, hses⟩ := hacc
  rw [s.command_runs h op body hserves hwaits henc hdma hres hses]
  rfl

theorem part_lt_of_acceptedFor (hacc : AcceptedFor s h op) : h.part < 16 := by
  obtain ⟨-, hex⟩ := hacc
  simp only [State.exists?, Bool.and_eq_true, decide_eq_true_eq] at hex
  exact hex.1

/-- An accepted command about a partition that exists runs its own part on `ready s h op`. -/
theorem State.onPartition_ready {absent enc : Bool} (hacc : AcceptedFor s h op) (habs : absent = false) (henc : enc = true)
    (body : State → Did) : s.onPartition h op absent enc body =
      match body (ready s h op) with
      | (t, none) => .next t
      | (t, some (st, res)) => .next (t.post h op st res) := by
  have hex : (ready s h op).exists? h.part = true := by
    rw [State.exists?, (ready_entered hacc.1).part]
    exact hacc.2
  unfold State.onPartition
  rw [habs, henc, decide_eq_true (part_lt_of_acceptedFor hacc), Bool.and_self, State.command_ready hacc.1]
  simp only [hex, if_true]

/-- What the own part of an accepted command answered. -/
theorem answered_ready {t : State} (hacc : Accepted s h op) (hmute : t.mute = (ready s h op).mute) (hrings : t.rings = (ready s h op).rings)
    (st : Nat) (res : List (Nat × Nat)) : Answered (t.post h op st res) h op st res :=
  (ready_entered hacc).answered hmute hrings st res

theorem Entered.hallNow {u : State} (hu : Entered s u h op) : u.hallNow = s.hallNow := by
  have htu : u.tu = s.tu := by rw [hu.1]
  have hcycle : u.cycle = s.cycle := by rw [hu.1]
  simp only [State.hallNow, State.hallNs, htu, hcycle]

theorem Entered.wallNs {u : State} (hu : Entered s u h op) : u.wallNs = s.wallNs := by
  have htu : u.tu = s.tu := by rw [hu.1]
  have hcycle : u.cycle = s.cycle := by rw [hu.1]
  have hwall : u.wallAt = s.wallAt := by rw [hu.1]
  simp only [State.wallNs, State.wallNow, htu, hcycle, hwall]

end

end Sys2Proof.Machine
end

