-- ==== Sys2Proof/Proofs/Seeding.lean ====
section
/-! PROOF. Seeding (R375 to R378): O47. -/

namespace Sys2Proof.Machine
open Sys2Proof.Stmt

/-! ### Pieces (R375, R377) -/

section
variable {s : State} {p : Nat}

/-- The children that a piece is passed to. -/
def Part.kids (q : Part) : List Nat := (List.range 12).filter (fun i => q.jb.seedKids.getLsbD i)

theorem foldl_send_kids (piece : SeedPiece) (l : List Nat) (s : State) :
    l.foldl (fun s i => if (s.part p).jb.seedKids.getLsbD i then s.send (.seed p i piece) else s) s =
      { s with out := s.out ++ (l.filter (fun i => (s.part p).jb.seedKids.getLsbD i)).map (fun i => .seed p i piece) } := by
  induction l generalizing s with
  | nil => simp
  | cons i l ih =>
    rw [List.foldl_cons, ih]
    by_cases hkid : (s.part p).jb.seedKids.getLsbD i = true
    · rw [if_pos hkid, List.filter_cons_of_pos hkid, List.map_cons, List.append_cons]
      rfl
    · rw [if_neg hkid, List.filter_cons_of_neg hkid]

/-- A piece that is passed on goes to every child. -/
theorem State.forwardPiece_eq {piece : SeedPiece} (h : SeedPiece.passes piece = true) (s : State) (p : Nat) :
    s.forwardPiece p piece = { s with out := s.out ++ (s.part p).kids.map (fun i => .seed p i piece) } := by
  unfold State.forwardPiece
  rw [h, Bool.not_true, if_neg Bool.false_ne_true]
  exact foldl_send_kids piece _ s

theorem State.seedCheck_of_noImage (h : (s.part p).image = none) : s.seedCheck p = s := by
  have hdigest : (s.part p).seedDigest = none := by unfold Part.seedDigest; rw [h]
  unfold State.seedCheck
  dsimp only
  rw [hdigest]

/-- Nothing is SEEDED before everything is staged. -/
theorem State.seedCheck_of_unstaged (h : (s.part p).stagedAll = false) : s.seedCheck p = s := by
  unfold State.seedCheck
  dsimp only
  split
  · rfl
  · rw [if_pos (by simp [h])]

theorem State.startCheck_of_member (h : (s.part p).jb.manager = false) : s.startCheck p = s := by
  unfold State.startCheck
  dsimp only
  rw [if_neg (by simp [h])]

/-- A partition to which a job key came at `now`. -/
def Part.keyCame (q : Part) (now : Nat) (key : Option Hash) : Part :=
  { q with jb := { q.jb with seedAt := now }, sx := { q.sx with jobKey := key } }

theorem takePiece_goodKey (himage : (s.part p).image = none) (key : Hash) : s.takePiece p (.jobKey key true) =
    (s.onPart p (fun q => q.keyCame s.wallNs (some key))).forwardPiece p (.jobKey key true) := by
  have hput : (s.onPart p (fun q => { q with jb := { q.jb with seedAt := s.wallNs } })).onPart p
      (fun q => { q with sx := { q.sx with jobKey := some key } }) = s.onPart p (fun q => q.keyCame s.wallNs (some key)) :=
    State.onPart_onPart ..
  have hnone : (((s.onPart p (fun q => q.keyCame s.wallNs (some key))).forwardPiece p (.jobKey key true)).part p).image = none := by
    rw [State.forwardPiece_eq rfl]
    change ((s.onPart p (fun q => q.keyCame s.wallNs (some key))).part p).image = none
    rw [State.onPart_part_same]
    exact himage
  rw [← State.seedCheck_of_noImage hnone, ← hput]
  rfl

theorem takePiece_badKey (s : State) (p : Nat) (key : Hash) : s.takePiece p (.jobKey key false) =
    s.onPart p (fun q => { q with jb := { q.jb with seedAt := s.wallNs, seedBad := true } }) :=
  (congrArg (State.onPart · p (fun q => { q with jb := { q.jb with seedBad := true } })) (State.onPart_onPart ..)).trans
    (State.onPart_onPart ..)

end

/-! ### SEEDED and NOT_SEEDED (R378) -/

section
variable {s t : State} {p : Nat}

/-- What a member that holds digest `d` reports as it becomes SEEDED. -/
def Part.seededMsg (q : Part) (p : Nat) (d : Hash) : MgrMsg :=
  { blankMsg with kind := 2, subject := q.rank, digest0 := d, digest1 := Config.sha3 (leBytes 1 p ++ leBytes 2 q.sx.keyGen.toNat) }

/-- The state once a member has acknowledged to its parent. -/
def State.ackedUp (s : State) (p : Nat) (d : Hash) : State := if (s.part p).jb.seedPar = 0xF then s else s.send (.seedAck p d)

/-- The member becomes SEEDED and reports it. -/
def State.seeded (s : State) (p : Nat) (d : Hash) : State :=
  (((s.ackedUp p d).tell p ((s.part p).seededMsg p d)).onPart p (fun q => { q with jb := { q.jb with jstate := .seeded } })).ownSeeded p d

/-- What the check on a seed can do: nothing, a NOT_SEEDED, or SEEDED. -/
theorem State.seedCheck_cases (s : State) (p : Nat) : s.seedCheck p = s ∨
    s.seedCheck p = s.notSeeded p 3 (s.part p).rank ((s.part p).peerRank (s.part p).jb.seedPar) ∨ ∃ d, s.seedCheck p = s.seeded p d := by
  unfold State.seedCheck
  dsimp only
  split
  · exact .inl rfl
  next d _ =>
    split
    · exact .inl rfl
    · split
      · exact .inr (.inl rfl)
      · split
        · exact .inl rfl
        · exact .inr (.inr ⟨d, rfl⟩)

theorem msgKey_of_seedDigest {q : Part} {d : Hash} (h : q.seedDigest = some d) : q.msgKey.isSome = true := by
  unfold Part.seedDigest at h
  unfold Part.msgKey
  cases hkey : q.sx.jobKey with
  | none => rw [hkey] at h; cases himage : q.image <;> simp [himage] at h
  | some _ => rfl

/-- A clean member with everything staged and every child's acknowledgement becomes SEEDED. -/
theorem State.seedCheck_of_ready {d : Hash} (hdigest : (s.part p).seedDigest = some d) (hstate : (s.part p).jb.jstate = .seeding)
    (hstaged : (s.part p).stagedAll = true) (hkids : (s.part p).kidsAcked = true) (hclean : (s.part p).clean = true) :
    s.seedCheck p = s.seeded p d := by
  have hkey : ¬(s.part p).msgKey.isNone = true := by
    have := msgKey_of_seedDigest hdigest
    cases h : (s.part p).msgKey <;> simp_all
  unfold State.seedCheck
  dsimp only
  rw [hdigest]
  dsimp only
  rw [if_neg (by simp [hstate, hstaged, hkids]), if_neg (by simp [hclean]), if_neg hkey]
  rfl

theorem moved_tell (s : State) (p : Nat) (m : MgrMsg) : ImageMoved s (s.tell p m) p := by
  refine ⟨?_, fun q hq => s.tell_part_ne m hq, (sentOn_tell s p m).out⟩
  rcases s.tell_cases p m with h | h <;> rw [h]
  rfl

theorem ackedUp_part (s : State) (p : Nat) (d : Hash) (q : Nat) : (s.ackedUp p d).part q = s.part q := by
  unfold State.ackedUp
  split <;> rfl

theorem moved_ackedUp (s : State) (p : Nat) (d : Hash) : ImageMoved s (s.ackedUp p d) p := by
  refine ⟨?_, fun q _ => ackedUp_part s p d q, ?_⟩
  · unfold State.ackedUp
    split <;> rfl
  · unfold State.ackedUp
    split
    · exact ⟨[], (List.append_nil _).symm⟩
    · exact ⟨_, rfl⟩

theorem moved_ownSeeded (s : State) (p : Nat) (d : Hash) : ImageMoved s (s.ownSeeded p d) p := by
  unfold State.ownSeeded
  split
  · exact placed_onPart ..
  · exact ⟨rfl, fun _ _ => rfl, [], (List.append_nil _).symm⟩

theorem moved_seeded (s : State) (p : Nat) (d : Hash) : ImageMoved s (s.seeded p d) p :=
  (((moved_ackedUp s p d).trans (moved_tell ..)).trans (placed_onPart ..)).trans (moved_ownSeeded ..)

theorem seeded_jstate (s : State) (p : Nat) (d : Hash) : ((s.seeded p d).part p).jb.jstate = .seeded := by
  unfold State.seeded State.ownSeeded
  split
  · rw [State.onPart_part_same, State.onPart_part_same]
    rfl
  · rw [State.onPart_part_same]

theorem seeded_manager (s : State) (p : Nat) (d : Hash) : ((s.seeded p d).part p).jb.manager = (s.part p).jb.manager := by
  obtain ⟨n, hn⟩ := (s.ackedUp p d).tell_part_same p ((s.part p).seededMsg p d)
  unfold State.seeded State.ownSeeded
  split
  · rw [State.onPart_part_same, State.onPart_part_same, hn, ackedUp_part]
    rfl
  · rw [State.onPart_part_same, hn, ackedUp_part]

theorem seeded_out (s : State) (p : Nat) (d : Hash) :
    (s.seeded p d).out = ((s.ackedUp p d).tell p ((s.part p).seededMsg p d)).out := by
  unfold State.seeded State.ownSeeded
  split <;> rfl

/-- A member that becomes SEEDED reports it with its digest, and acknowledges to its parent. -/
theorem seeded_told {d : Hash} (hup : s.mgmtDown = false) (hkey : (s.part p).msgKey.isSome = true) :
    Told s (s.seeded p d) p 2 (fun m => m.subject = (s.part p).rank ∧ m.digest0 = d) ∧
      ((s.part p).jb.seedPar ≠ 0xF → Sent.seedAck p d ∈ (s.seeded p d).out) := by
  have hdown : (s.ackedUp p d).mgmtDown = s.mgmtDown := (congrArg State.mgmtDown (moved_ackedUp s p d).frame :)
  have hsends := State.tell_sends (s := s.ackedUp p d) (hdown.trans hup) (by rw [ackedUp_part]; exact hkey) ((s.part p).seededMsg p d)
  refine ⟨told_stamp (u := s.ackedUp p d) (m := (s.part p).seededMsg p d) (ackedUp_part ..) ⟨rfl, rfl⟩ ?_, fun hpar => ?_⟩
  · rw [seeded_out, hsends]
    exact List.mem_append_right _ List.mem_cons_self
  · rw [seeded_out]
    refine (sentOn_tell ..).mem _ ?_
    rw [State.ackedUp, if_neg hpar]
    exact List.mem_append_right _ List.mem_cons_self

/-- Between `s` and `t` a seed went on in partition `p`: SEEDING at first, SEEDING or SEEDED after. -/
structure SeedWentOn (s t : State) (p : Nat) : Prop where
  moved : ImageMoved s t p
  jstate : (t.part p).jb.jstate = .seeding ∨ (t.part p).jb.jstate = .seeded

theorem tell_jstate (s : State) (p : Nat) (m : MgrMsg) : ((s.tell p m).part p).jb.jstate = (s.part p).jb.jstate := by
  obtain ⟨n, hn⟩ := s.tell_part_same p m
  rw [hn]

theorem seedCheck_wentOn (h : (s.part p).jb.jstate = .seeding) : SeedWentOn s (s.seedCheck p) p := by
  rcases s.seedCheck_cases p with hs | hs | ⟨d, hs⟩ <;> rw [hs]
  · exact ⟨⟨rfl, fun _ _ => rfl, [], (List.append_nil _).symm⟩, .inl h⟩
  · exact ⟨moved_tell .., .inl ((tell_jstate ..).trans h)⟩
  · exact ⟨moved_seeded .., .inr (seeded_jstate ..)⟩

end

/-! ### The root's image (R377) -/

section
variable {s : State} {p : Nat}

theorem State.install_jb (s : State) (p : Nat) (img : PlanImage) (x : Nat) (fresh : Bool) :
    ((s.install p img x fresh).part p).jb = (s.part p).jb := by
  rw [State.install_part]
  rfl

theorem moved_forwardPiece {piece : SeedPiece} (h : SeedPiece.passes piece = true) (s : State) (p : Nat) :
    ImageMoved s (s.forwardPiece p piece) p := by
  rw [State.forwardPiece_eq h]
  exact ⟨rfl, fun _ _ => rfl, _, rfl⟩

theorem State.stagePiece_image (s : State) (p : Nat) (img : PlanImage) :
    ImageMoved s (s.stagePiece p (.image img)).1 p ∧ ((s.stagePiece p (.image img)).1.part p).jb = (s.part p).jb := by
  have hverdict : ∀ v : SieveReg, ImageMoved s (s.onPart p (fun q => { q with sieve := v })) p ∧
      ((s.onPart p (fun q => { q with sieve := v })).part p).jb = (s.part p).jb := fun v =>
    ⟨placed_onPart .., by rw [State.onPart_part_same]⟩
  unfold State.stagePiece
  dsimp only
  generalize (s.withRole p).sieve p img (if img.hdr.mode = 1 then 0 else 0xFF) false = v
  obtain ⟨hmoved, hjb⟩ := hverdict v.reg
  split
  · exact ⟨hmoved, hjb⟩
  · exact ⟨hmoved.trans (State.install_placed ..), (State.install_jb ..).trans hjb⟩

/-- An image that comes to a SEEDING member is staged and passed on, or marks the seed bad. -/
theorem takePiece_image_wentOn (img : PlanImage) (h : (s.part p).jb.jstate = .seeding) :
    SeedWentOn s (s.takePiece p (.image img)) p := by
  have hcame : ((s.onPart p (fun q => { q with jb := { q.jb with seedAt := s.wallNs } })).part p).jb.jstate = .seeding := by
    rw [State.onPart_part_same]
    exact h
  have hput : ImageMoved s (s.onPart p (fun q => { q with jb := { q.jb with seedAt := s.wallNs } })) p := placed_onPart ..
  unfold State.takePiece
  generalize s.onPart p (fun q => { q with jb := { q.jb with seedAt := s.wallNs } }) = u at hcame hput ⊢
  obtain ⟨hmoved, hjb⟩ := u.stagePiece_image p img
  generalize u.stagePiece p (.image img) = r at hmoved hjb ⊢
  obtain ⟨v, good⟩ := r
  dsimp only at hmoved hjb ⊢
  have hstate : (v.part p).jb.jstate = .seeding := by rw [hjb, hcame]
  split
  · have hforward := State.forwardPiece_eq (piece := .image img) rfl v p
    have hcheck := seedCheck_wentOn (s := v.forwardPiece p (.image img)) (p := p) (by rw [hforward]; exact hstate)
    exact ⟨((hput.trans hmoved).trans (moved_forwardPiece rfl v p)).trans hcheck.moved, hcheck.jstate⟩
  · exact ⟨(hput.trans hmoved).trans (placed_onPart ..), .inl (by rw [State.onPart_part_same]; exact hstate)⟩

end

/-! ### The clauses of O47 -/

section
variable {s : State} {p child : Nat} {d : Hash}

theorem seedTransfer_ignored {sp : SeedPiece} (hjoined : (s.part p).jb.jstate ≠ .joined) (hseeding : (s.part p).jb.jstate ≠ .seeding) :
    exec (.seedTransfer p sp) s = .next s := by
  change execSeedTransfer p sp s = _
  unfold execSeedTransfer
  dsimp only
  split
  · exact absurd ‹_› hjoined
  · exact absurd ‹_› hseeding
  · rfl

theorem exec_seedTransfer_joined (h : (s.part p).jb.jstate = .joined) (sp : SeedPiece) :
    exec (.seedTransfer p sp) s = .next ((s.onPart p Part.beginSeeding).takePiece p sp) := by
  change execSeedTransfer p sp s = _
  unfold execSeedTransfer
  dsimp only
  rw [h]
  rfl

/-- A job key that verifies is held and goes to every child. -/
theorem seedTransfer_goodKey (hjoined : (s.part p).jb.jstate = .joined) (himage : (s.part p).image = none) (key : Hash) :
    ∃ t, exec (.seedTransfer p (.jobKey key true)) s = .next t ∧ (t.part p).jb.jstate = .seeding ∧
      (∀ q, q ≠ p → t.part q = s.part q) ∧ t.cells = s.cells ∧ t.cold = s.cold ∧ (t.part p).sx.jobKey = some key ∧
      (t.part p).jb.seedBad = false ∧ t.out = s.out ++ (s.part p).kids.map (fun i => .seed p i (.jobKey key true)) := by
  have hbegun : ((s.onPart p Part.beginSeeding).part p).image = none := by
    rw [State.onPart_part_same]
    exact himage
  refine ⟨_, exec_seedTransfer_joined hjoined _, ?_⟩
  rw [takePiece_goodKey hbegun, State.onPart_onPart, State.forwardPiece_eq rfl]
  have hpart := s.onPart_part_same p (fun q => (q.beginSeeding).keyCame (s.onPart p Part.beginSeeding).wallNs (some key))
  have hother := fun q (hq : q ≠ p) =>
    s.onPart_part_ne (fun q => (q.beginSeeding).keyCame (s.onPart p Part.beginSeeding).wallNs (some key)) hq
  rw [hpart]
  refine ⟨?_, hother, rfl, rfl, ?_, ?_, rfl⟩
  · exact (congrArg (fun q : Part => q.jb.jstate) hpart :)
  · exact (congrArg (fun q : Part => q.sx.jobKey) hpart :)
  · exact (congrArg (fun q : Part => q.jb.seedBad) hpart :)

/-- A job key that fails marks the seed bad and is not passed on. -/
theorem seedTransfer_badKey (hjoined : (s.part p).jb.jstate = .joined) (key : Hash) :
    ∃ t, exec (.seedTransfer p (.jobKey key false)) s = .next t ∧ (t.part p).jb.jstate = .seeding ∧
      (∀ q, q ≠ p → t.part q = s.part q) ∧ t.cells = s.cells ∧ t.cold = s.cold ∧ (t.part p).jb.seedBad = true ∧ t.out = s.out := by
  refine ⟨_, exec_seedTransfer_joined hjoined _, ?_⟩
  rw [takePiece_badKey, State.onPart_onPart]
  refine ⟨?_, fun q hq => State.onPart_part_ne _ _ hq, rfl, rfl, ?_, rfl⟩ <;> rw [State.onPart_part_same]
  rfl

/-- A partition in which a child has acknowledged. -/
def Part.acked (q : Part) (child : Nat) : Part := { q with jb := { q.jb with acks := put false q.jb.acks child true } }

theorem exec_seedAck (hseeding : (s.part p).jb.jstate = .seeding) (hkid : (s.part p).jb.seedKids.getLsbD child = true)
    (hdigest : (s.part p).seedDigest = some d) :
    exec (.seedAck p child d) s = .next (((s.onPart p (fun q => q.acked child)).seedCheck p).startCheck p) := by
  change execSeedAck p child d s = _
  unfold execSeedAck
  dsimp only
  rw [if_neg (by simp [hseeding, hkid]), if_neg (by simp [hdigest])]
  rfl

theorem seedAck_differs (hseeding : (s.part p).jb.jstate = .seeding) (hkid : (s.part p).jb.seedKids.getLsbD child = true)
    (hdigest : (s.part p).seedDigest ≠ some d) :
    exec (.seedAck p child d) s = .next (s.notSeeded p 2 ((s.part p).peerRank child) (s.part p).rank) := by
  change execSeedAck p child d s = _
  unfold execSeedAck
  dsimp only
  rw [if_neg (by simp [hseeding, hkid]), if_pos hdigest]
  rfl

theorem notSeeded_told (hup : s.mgmtDown = false) (hkey : (s.part p).msgKey.isSome = true) {f : MgrMsg → Prop} {cause subject aux : Nat}
    (hf : f (s.stamp p { blankMsg with kind := 3, cause, subject, aux })) : Told s (s.notSeeded p cause subject aux) p 3 f := by
  refine told_stamp (u := s) (m := { blankMsg with kind := 3, cause, subject, aux }) rfl hf ?_
  rw [State.notSeeded, State.tell_sends hup hkey]
  exact List.mem_append_right _ List.mem_cons_self

/-- An acknowledgement before everything is staged is recorded. -/
theorem seedAck_recorded (hseeding : (s.part p).jb.jstate = .seeding) (hkid : (s.part p).jb.seedKids.getLsbD child = true)
    (hmember : (s.part p).jb.manager = false) (hdigest : (s.part p).seedDigest = some d) (hstaged : (s.part p).stagedAll = false) :
    exec (.seedAck p child d) s = .next (s.onPart p (fun q => q.acked child)) := by
  have hpart := s.onPart_part_same p (fun q => q.acked child)
  rw [exec_seedAck hseeding hkid hdigest, State.seedCheck_of_unstaged (by rw [hpart]; exact hstaged),
    State.startCheck_of_member (by rw [hpart]; exact hmember)]

/-- The last acknowledgement makes a clean member with everything staged SEEDED. -/
theorem seedAck_completes (hseeding : (s.part p).jb.jstate = .seeding) (hkid : (s.part p).jb.seedKids.getLsbD child = true)
    (hmember : (s.part p).jb.manager = false) (hup : s.mgmtDown = false) (hdigest : (s.part p).seedDigest = some d)
    (hstaged : (s.part p).stagedAll = true) (hclean : (s.part p).clean = true)
    (hkids : ∀ i, i < 16 → i ≠ child → (s.part p).jb.seedKids.getLsbD i = true → look false (s.part p).jb.acks i = true) :
    ∃ t, exec (.seedAck p child d) s = .next t ∧ (t.part p).jb.jstate = .seeded ∧ (∀ q, q ≠ p → t.part q = s.part q) ∧
      Told s t p 2 (fun m => m.subject = (s.part p).rank ∧ m.digest0 = d) ∧
      ((s.part p).jb.seedPar ≠ 0xF → Sent.seedAck p d ∈ t.out) := by
  have hexec := exec_seedAck hseeding hkid hdigest
  have hpart := s.onPart_part_same p (fun q => q.acked child)
  have hother := fun q (hq : q ≠ p) => s.onPart_part_ne (fun q => q.acked child) hq
  have hdown : (s.onPart p (fun q => q.acked child)).mgmtDown = false := hup
  generalize s.onPart p (fun q => q.acked child) = u at hexec hpart hother hdown
  have hacked : ((s.part p).acked child).kidsAcked = true := by
    refine List.all_eq_true.2 fun i hi => ?_
    change (!(s.part p).jb.seedKids.getLsbD i || look false (put false (s.part p).jb.acks child true) i) = true
    by_cases heq : i = child
    · rw [heq, look_put_same, Bool.or_true]
    · rw [look_put_ne _ _ _ heq]
      have := hkids i (List.mem_range.1 hi) heq
      cases hbit : (s.part p).jb.seedKids.getLsbD i
      · rfl
      · exact this hbit
  rw [State.seedCheck_of_ready (d := d) (by rw [hpart]; exact hdigest) (by rw [hpart]; exact hseeding) (by rw [hpart]; exact hstaged)
    (by rw [hpart]; exact hacked) (by rw [hpart]; exact hclean), State.startCheck_of_member (by rw [seeded_manager, hpart]; exact hmember)] at hexec
  obtain ⟨htold, hparent⟩ := seeded_told (s := u) (p := p) (d := d) hdown (by rw [hpart]; exact msgKey_of_seedDigest hdigest)
  rw [Told, hpart] at htold
  rw [hpart] at hparent
  exact ⟨_, hexec, seeded_jstate .., fun q hq => ((moved_seeded u p d).other q hq).trans (hother q hq), htold, hparent⟩

end

/-- SEED_SOURCE of an accepted image starts SEEDING at the root. -/
theorem seedSource_begins {s : State} {h : Hdr} (img : PlanImage) (hacc : AcceptedFor s h 0x0605) (hfn : h.fn ≠ 17)
    (hjoined : (s.part h.part).jb.jstate = .joined) (hroot : (s.part h.part).jb.seedPar = 0xF) (hbusy : (s.part h.part).loadBusy = false)
    (hcheck : (((ready s h 0x0605).withRole h.part).sieve h.part img (if img.hdr.mode = 1 then 0 else 0xFF) false).check = 0) :
    ∃ t, exec (.seedSource h img []) s = .next t ∧ Answered t h 0x0605 0 [] ∧
      ((t.part h.part).jb.jstate = .seeding ∨ (t.part h.part).jb.jstate = .seeded) := by
  have hent := ready_entered hacc.1
  have hrun : exec (.seedSource h img []) s = _ := State.onPartition_ready hacc rfl (by simpa using hfn) _
  have hbegun : (((ready s h 0x0605).onPart h.part Part.beginSeeding).part h.part).jb.jstate = .seeding := by
    rw [State.onPart_part_same]
    rfl
  have hpart := hent.part h.part
  have hanswered := fun (t : State) => answered_ready (t := t) hacc.1
  have hwent := takePiece_image_wentOn img hbegun
  have hput : ImageMoved (ready s h 0x0605) ((ready s h 0x0605).onPart h.part Part.beginSeeding) h.part := placed_onPart ..
  generalize ready s h 0x0605 = u at hrun hcheck hpart hanswered hwent hput
  rw [if_neg (by rw [hpart]; simp [hjoined, hroot, hbusy]), if_neg (by simp [dmaOk_of_accepted hacc.1]),
    if_neg (by rw [hcheck]; decide), if_neg (not_not.2 hcheck)] at hrun
  have hframe := (hput.trans hwent.moved).frame
  refine ⟨_, hrun, hanswered _ (congrArg State.mute hframe :) (congrArg State.rings hframe :) 0 [], ?_⟩
  rw [State.post_part]
  exact hwent.jstate

/-- Settles O47: a piece is staged and forwarded or marks the seed bad, and an acknowledgement is recorded, completes the seed or is
reported; what a member then sends is read off `State.seeded` and `State.notSeeded`. -/
theorem seedingSpreads : Obligations.SeedingSpreads := by
  unfold Obligations.SeedingSpreads
  refine ⟨fun p sp s hjoined hseeding => seedTransfer_ignored hjoined hseeding, fun p key good s hjoined himage => ?_,
    fun p child d s hseeding hkid hmember hup => ⟨fun hdigest hstaged => ?_, fun hdigest hstaged hclean hkids => ?_,
      fun hdigest hkey => ?_⟩, fun p s hearly => ?_, fun p s hseeding hup hkey hlate => ?_,
    fun h img s hacc hfn hjoined hroot hbusy hcheck => seedSource_begins img hacc hfn hjoined hroot hbusy hcheck⟩
  · cases good with
    | true =>
      obtain ⟨t, hexec, hseeding, hother, hcells, hcold, htaken⟩ := seedTransfer_goodKey hjoined himage key
      exact ⟨t, hexec, hseeding, hother, hcells, hcold, fun _ => htaken, fun h => absurd h (by decide)⟩
    | false =>
      obtain ⟨t, hexec, hseeding, hother, hcells, hcold, htaken⟩ := seedTransfer_badKey hjoined key
      exact ⟨t, hexec, hseeding, hother, hcells, hcold, fun h => absurd h (by decide), fun _ => htaken⟩
  · exact seedAck_recorded hseeding hkid hmember hdigest hstaged
  · exact seedAck_completes hseeding hkid hmember hup hdigest hstaged hclean hkids
  · refine ⟨_, seedAck_differs hseeding hkid hdigest, (tell_jstate ..).trans hseeding, ?_⟩
    exact notSeeded_told hup hkey rfl
  · exact if_neg fun h => absurd h.2 (Nat.not_le.2 hearly)
  · have hexec : exec (.seedTimeout p) s = .next (s.notSeeded p 1 (s.part p).rank ((s.part p).peerRank (s.part p).jb.seedPar)) :=
      if_pos ⟨hseeding, hlate⟩
    refine ⟨_, hexec, notSeeded_told hup hkey ⟨rfl, rfl⟩, ?_⟩
    rw [State.notSeeded, State.tell_sends hup hkey]
    exact ⟨⟨State.onPart_part_same (s.send _) p Part.toldOne, fun q hq => State.onPart_part_ne (s.send _) Part.toldOne hq⟩, rfl⟩

end Sys2Proof.Machine
end

