-- ==== Sys2Proof/Proofs/DynamicTransfers.lean ====
section
/-! PROOF. Dynamic transfers (R324 to R332): O43. -/

namespace Sys2Proof.Machine
open Sys2Proof.Stmt

/-! ### A request at the responder (R326, R330, R332) -/

section
variable {s : State} {i : Nat} {d : DynFlit}

/-- The engine with the flit that waited taken. -/
def State.inqTaken (s : State) : State := { s with fab := { s.fab with inq := [] } }

theorem takeDyn_only (hin : s.fab.inq = [(i, d)]) {cls : Nat} (hcls : d.cls = cls) : s.takeDyn cls = (s.inqTaken, some (i, d)) := by
  unfold State.takeDyn
  rw [hin]
  simp [hcls, State.inqTaken]

theorem takeDyn_none {cls : Nat} (hin : ∀ e ∈ s.fab.inq, e.2.cls ≠ cls) : s.takeDyn cls = (s, none) := by
  have hfind : s.fab.inq.find? (fun e => decide (e.2.cls = cls)) = none := List.find?_eq_none.2 fun e he => by simpa using hin e he
  have herase : s.fab.inq.eraseP (fun e => decide (e.2.cls = cls)) = s.fab.inq :=
    List.eraseP_of_forall_not fun e he => by simpa using hin e he
  unfold State.takeDyn
  rw [hfind, herase]

/-- The record of a request that came whole in one piece. -/
def wholeRec (h : DynHdr) (line : Line) : DupRec := { seq := h.seq, pieces := [(0, line)], total := some h.total, status := none }

theorem takePiece_whole {h : DynHdr} (hlast : h.last = true) (hpiece : h.piece = 0) (line : Line) :
    takePiece [] h line = [wholeRec h line] := by
  simp [takePiece, wholeRec, hlast, hpiece]

/-- A responder that holds entry `e` at key `k`. -/
def State.withDup (s : State) (k : Nat) (e : DupEntry) : State := { s with fab := { s.fab with dups := put none s.fab.dups k (some e) } }

@[simp] theorem State.withDup_look (s : State) (k : Nat) (e : DupEntry) : look none (s.withDup k e).fab.dups k = some e :=
  look_put_same none s.fab.dups k (some e)

theorem State.drainDup_of_done {k : Nat} {e : DupEntry} (hlook : look none s.fab.dups k = some e) (hdone : ∀ r ∈ e.recs, r.status.isSome = true)
    (hs : List (Nat × DynHdr)) (fuel : Nat) : s.drainDup k hs fuel = s := by
  cases fuel with
  | zero => rfl
  | succ n =>
    have hnone : e.recs.find? (fun r => decide (r.seq = e.next) && r.status.isNone) = none := List.find?_eq_none.2 fun r hr => by
      simp [Option.isNone_eq_false_iff.2 (hdone r hr)]
    rw [State.drainDup, hlook]
    dsimp only
    rw [hnone]

/-- The entry once the request was executed with status `st`. -/
def doneEntry (h : DynHdr) (line : Line) (st now : Nat) : DupEntry :=
  { next := (h.seq + 1) % 2 ^ 32, recs := [{ wholeRec h line with status := some st, pieces := [] }], heads := [], at' := now }

/-- A whole request first in SEQ order is executed and answered, and the entry advances. -/
theorem State.drainDup_whole {k at' : Nat} {h : DynHdr} {line : Line} (hwhole : h.total ≤ 1 ∨ h.op = 1)
    (hlook : look none s.fab.dups k = some { next := h.seq, recs := [wholeRec h line], heads := [(h.seq, h)], at' }) :
    s.drainDup k [(h.seq, h)] 64 = ((s.execute h h.total [(0, line)]).1.withDup k (doneEntry h line (s.execute h h.total [(0, line)]).2 s.hallNow)).answer h
      (s.execute h h.total [(0, line)]).2 h.total := by
  have hahead : seqAhead h.seq h.seq < 64 := by unfold seqAhead; omega
  have hready : ¬((wholeRec h line).pieces.length < h.total ∧ h.op ≠ 1) := by
    simp only [wholeRec, List.length_singleton]
    omega
  have hrec : [wholeRec h line].find? (fun r => decide (r.seq = h.seq) && r.status.isNone) = some (wholeRec h line) := by simp [wholeRec]
  have hhead : [(h.seq, h)].find? (fun x => decide (x.1 = (wholeRec h line).seq)) = some (h.seq, h) := by simp [wholeRec]
  have htotal : (wholeRec h line).total = some h.total := rfl
  rw [State.drainDup, hlook]
  dsimp only
  rw [hrec]
  dsimp only
  rw [hhead, htotal]
  dsimp only
  rw [if_neg hready]
  have hentry : ∀ st, ({ next := (h.seq + 1) % 2 ^ 32
                         recs := ([wholeRec h line].map (fun q => if q.seq = (wholeRec h line).seq then { q with status := some st, pieces := [] } else q)).filter
                           (fun q => decide (seqAhead h.seq q.seq < 64 ∨ seqAhead q.seq h.seq < 64))
                         heads := [(h.seq, h)].filter (fun x => decide (x.1 ≠ (wholeRec h line).seq)), at' := s.hallNow } : DupEntry) =
      doneEntry h line st s.hallNow := fun st => by
    simp [doneEntry, wholeRec, hahead]
  simp only [hentry]
  exact State.drainDup_of_done (s := State.answer (State.withDup _ k (doneEntry h line _ s.hallNow)) h _ h.total)
    (State.withDup_look ..) (by simp [doneEntry]) [(h.seq, h)] 63

/-- The responder with the entry that a first request, come whole, opens. -/
def State.dupOpened (s : State) (h : DynHdr) (line : Line) : State := s.withDup (dupKey h.job h.src h.dst h.ch)
  { next := h.seq, recs := [wholeRec h line], heads := [(h.seq, h)], at' := s.hallNow }

/-- A whole request of a requester that has no entry is executed and answered at once. -/
theorem State.request_whole {h : DynHdr} {line : Line} (hnone : look none s.fab.dups (dupKey h.job h.src h.dst h.ch) = none)
    (hroom : s.fab.dups.length < 4096) (hlast : h.last = true) (hpiece : h.piece = 0) (hwhole : h.total ≤ 1 ∨ h.op = 1) :
    s.request i h line = (((s.dupOpened h line).execute h h.total [(0, line)]).1.withDup (dupKey h.job h.src h.dst h.ch)
      (doneEntry h line ((s.dupOpened h line).execute h h.total [(0, line)]).2 (s.dupOpened h line).hallNow)).answer h
        ((s.dupOpened h line).execute h h.total [(0, line)]).2 h.total := by
  have hahead : ¬64 ≤ seqAhead h.seq h.seq := by unfold seqAhead; omega
  unfold State.request State.dupEntry
  dsimp only
  rw [hnone]
  dsimp only
  rw [if_pos hroom]
  dsimp only
  simp only [List.find?_nil, List.any_nil, takePiece_whole hlast hpiece, Bool.false_eq_true, if_false, List.nil_append]
  rw [if_neg hahead]
  exact State.drainDup_whole hwhole (State.withDup_look ..)

theorem putPart_cold_stks (s : State) (p : Nat) (setB : Bool) (a : Nat) (line : Line) : (s.putPart p .cold setB a line).stks = s.stks := by
  unfold State.putPart
  split
  · rfl
  · dsimp only
    split
    · rfl
    · unfold State.putLine
      dsimp only
      split <;> rfl

/-- A line written to the cold frame is there under the partition's key. -/
theorem coldHolds_putPart {p a : Nat} {setB : Bool} {line : Line} (hworks : s.cold.state ≠ .failed) (hkey : look 0 s.cold.keys p ≠ 0) :
    ColdHolds (s.putPart p .cold setB a line) p setB a line := by
  intro loc hloc
  rw [(onlyMemories_putPart s p .cold setB a line).part] at hloc
  have hput : s.putPart p .cold setB a line = s.withColdLine (coldKeyOf loc a) (s.coldLine p a line) := by
    simp only [State.putPart, hloc, State.slotKey, hkey, State.putLine, hworks, if_false]
    rfl
  rw [hput]
  exact find_put_same _ fun hx => hkey (congrArg SLine.key hx)

theorem execute_write {h : DynHdr} (hop : h.op = 2) (n : Nat) (line : Line) : s.execute h n [(0, line)] =
    if (s.part h.dpart).dynStatus h n = 0 then (s.putStandby h.dpart .cold h.addr line, 0) else (s, (s.part h.dpart).dynStatus h n) := by
  unfold State.execute
  rw [if_pos (.inr hop)]
  dsimp only
  by_cases hst : (s.part h.dpart).dynStatus h n = 0
  · rw [if_pos ⟨hst, hop⟩, if_pos hst]
    rfl
  · rw [if_neg fun hboth => hst hboth.1, if_neg hst]

theorem execute_read {h : DynHdr} (hop : h.op = 1) (n : Nat) (line : Line) :
    s.execute h n [(0, line)] = (s, (s.part h.dpart).dynStatus h n) := by
  unfold State.execute
  rw [if_pos (.inl hop)]
  exact if_neg fun hboth => absurd (hop.symm.trans hboth.2) (by decide)

theorem answer_write {h : DynHdr} (hop : h.op = 2) (st n : Nat) :
    s.answer h st n = { s with fab := { s.fab with outq := s.fab.outq ++ [oneFlit h st n] } } := by
  unfold State.answer
  simp [hop, oneFlit]

theorem answer_read {h : DynHdr} (hop : h.op = 1) (n : Nat) :
    s.answer h 0 n = { s with fab := { s.fab with outq := s.fab.outq ++ [lineFlits h n] } } := by
  unfold State.answer
  simp [hop, lineFlits]

/-- DYN_REQUEST_RX of the one flit that waits. -/
theorem exec_dynRequestRx (hin : s.fab.inq = [(i, d)]) (hcls : d.cls = 2) : exec .dynRequestRx s = .next (s.inqTaken.request i d.hdr d.line) := by
  change execDynRequestRx s = _
  unfold execDynRequestRx
  rw [takeDyn_only hin hcls]
  rfl

end

/-! ### The clauses of O43 on requests -/

section
variable {s : State} {i : Nat} {d : DynFlit} (hin : s.fab.inq = [(i, d)]) (hcls : d.cls = 2)
include hin hcls

section
variable (hnone : look none s.fab.dups (dupKey d.hdr.job d.hdr.src d.hdr.dst d.hdr.ch) = none) (hroom : s.fab.dups.length < 4096)
  (hlast : d.hdr.last = true) (hpiece : d.hdr.piece = 0)
include hnone hroom hlast hpiece

/-- A WRITE of one line that came whole: executed, recorded and answered. -/
theorem dynRequestRx_write (hop : d.hdr.op = 2) (htotal : d.hdr.total = 1) :
    ∃ t st e, exec .dynRequestRx s = .next t ∧ st = (s.part d.hdr.dpart).dynStatus d.hdr 1 ∧ t.fab.inq = [] ∧
      t.fab.outq = s.fab.outq ++ [oneFlit d.hdr st 1] ∧
      look none t.fab.dups (dupKey d.hdr.job d.hdr.src d.hdr.dst d.hdr.ch) = some e ∧
      e.next = (d.hdr.seq + 1) % 2 ^ 32 ∧ t.parts = s.parts ∧ t.cells = s.cells ∧ t.stks = s.stks ∧
      (st ≠ 0 → t.cold = s.cold) ∧
      (st = 0 → s.cold.state ≠ .failed → look 0 s.cold.keys d.hdr.dpart ≠ 0 → ColdHolds t d.hdr.dpart
        ((s.part d.hdr.dpart).rotated .cold (d.hdr.addr / 2 ^ 30) && !(s.part d.hdr.dpart).active) d.hdr.addr d.line) := by
  have hexec := exec_dynRequestRx hin hcls
  rw [State.request_whole (s := s.inqTaken) hnone hroom hlast hpiece (.inl htotal.le), htotal, execute_write hop, answer_write hop] at hexec
  change exec .dynRequestRx s = _ at hexec
  have hpart : (s.inqTaken.dupOpened d.hdr d.line).part d.hdr.dpart = s.part d.hdr.dpart := rfl
  rw [hpart] at hexec
  by_cases hst : (s.part d.hdr.dpart).dynStatus d.hdr 1 = 0
  · rw [if_pos hst] at hexec
    have hmem : OnlyMemories (s.inqTaken.dupOpened d.hdr d.line) ((s.inqTaken.dupOpened d.hdr d.line).putStandby d.hdr.dpart .cold d.hdr.addr d.line) :=
      onlyMemories_putPart ..
    have hstks : ((s.inqTaken.dupOpened d.hdr d.line).putStandby d.hdr.dpart .cold d.hdr.addr d.line).stks = s.stks := putPart_cold_stks ..
    have hholds := coldHolds_putPart (s := s.inqTaken.dupOpened d.hdr d.line) (p := d.hdr.dpart) (a := d.hdr.addr) (line := d.line)
      (setB := (s.part d.hdr.dpart).rotated .cold (d.hdr.addr / 2 ^ 30) && !(s.part d.hdr.dpart).active)
    change _ → _ → ColdHolds ((s.inqTaken.dupOpened d.hdr d.line).putStandby d.hdr.dpart .cold d.hdr.addr d.line) _ _ _ _ at hholds
    generalize (s.inqTaken.dupOpened d.hdr d.line).putStandby d.hdr.dpart .cold d.hdr.addr d.line = u at hexec hmem hstks hholds
    unfold OnlyMemories at hmem
    refine ⟨_, 0, doneEntry d.hdr d.line 0 (s.inqTaken.dupOpened d.hdr d.line).hallNow, hexec, hst.symm, ?_, ?_,
      look_put_same none _ _ (some _), rfl, ?_, ?_, hstks, fun h => absurd rfl h, fun _ hworks hkey => hholds hworks hkey⟩
    · rw [hmem]; rfl
    · rw [hmem]; rfl
    · rw [hmem]; rfl
    · rw [hmem]; rfl
  · rw [if_neg hst] at hexec
    exact ⟨_, _, doneEntry d.hdr d.line _ (s.inqTaken.dupOpened d.hdr d.line).hallNow, hexec, rfl, rfl, rfl,
      look_put_same none _ _ (some _), rfl, rfl, rfl, rfl, fun _ => rfl, fun h => absurd h hst⟩

/-- A READ that came whole is answered with its lines. -/
theorem dynRequestRx_read (hop : d.hdr.op = 1) (hst : (s.part d.hdr.dpart).dynStatus d.hdr d.hdr.total = 0) :
    ∃ t, exec .dynRequestRx s = .next t ∧ t.fab.inq = [] ∧ t.fab.outq = s.fab.outq ++ [lineFlits d.hdr d.hdr.total] ∧ t.cold = s.cold ∧
      t.parts = s.parts := by
  have hexec := exec_dynRequestRx hin hcls
  have hpart : (s.inqTaken.dupOpened d.hdr d.line).part d.hdr.dpart = s.part d.hdr.dpart := rfl
  rw [State.request_whole (s := s.inqTaken) hnone hroom hlast hpiece (.inr hop), execute_read hop, hpart, hst, answer_read hop] at hexec
  exact ⟨_, hexec, rfl, rfl, rfl, rfl⟩

end

/-- A recorded WRITE is answered from the record. -/
theorem dynRequestRx_recorded {e : DupEntry} {r : DupRec} {st : Nat}
    (hlook : look none s.fab.dups (dupKey d.hdr.job d.hdr.src d.hdr.dst d.hdr.ch) = some e)
    (hrec : e.recs.find? (fun r => decide (r.seq = d.hdr.seq)) = some r) (hst : r.status = some st) (hop : d.hdr.op = 2)
    (hlast : d.hdr.last = true) : exec .dynRequestRx s =
      .next { s with fab := { s.fab with inq := [], outq := s.fab.outq ++ [oneFlit d.hdr st (r.total.getD d.hdr.total)] } } := by
  obtain ⟨seq, pieces, total, status⟩ := r
  obtain rfl : status = some st := hst
  have htaken : look none s.inqTaken.fab.dups (dupKey d.hdr.job d.hdr.src d.hdr.dst d.hdr.ch) = some e := hlook
  rw [exec_dynRequestRx hin hcls]
  unfold State.request State.dupEntry
  dsimp only
  rw [htaken]
  dsimp only
  rw [hrec]
  dsimp only
  rw [if_neg (by rw [hop]; decide), if_pos hlast, answer_write hop]
  rfl

end

/-! ### A transfer at the requester (R326 to R331) -/

/-- Transfer `e` comes after `f` in SEQ order. -/
def Behind (e f : Nat × Xfer) : Prop := seqAhead e.2.hdr.seq f.2.hdr.seq < 2 ^ 31 ∧ 2 ^ 31 ≤ seqAhead f.2.hdr.seq e.2.hdr.seq

/-- The first of a list of transfers, every other one of which comes after it. -/
theorem foldl_first {f : Nat × Xfer} {l : List (Nat × Xfer)} {a : Nat × Xfer} (hmem : f ∈ a :: l)
    (hall : ∀ e ∈ a :: l, e = f ∨ Behind e f) :
    l.foldl (fun a b => if seqAhead a.2.hdr.seq b.2.hdr.seq < 2 ^ 31 then b else a) a = f := by
  induction l generalizing a with
  | nil => exact (List.mem_singleton.1 hmem).symm
  | cons b l ih =>
    rw [List.foldl_cons]
    have ha := hall a List.mem_cons_self
    have hb := hall b (List.mem_cons_of_mem _ List.mem_cons_self)
    have hl : ∀ e ∈ l, e = f ∨ Behind e f := fun e he => hall e (List.mem_cons_of_mem _ (List.mem_cons_of_mem _ he))
    apply ih
    · rcases ha with rfl | ha
      · rcases hb with rfl | hb
        · simp
        · rw [if_neg (Nat.not_lt.2 hb.2)]
          exact List.mem_cons_self
      · rcases hb with rfl | hb
        · rw [if_pos ha.1]
          exact List.mem_cons_self
        · refine List.mem_cons_of_mem _ ?_
          rcases List.mem_cons.1 hmem with rfl | hmem
          · have := ha.1.trans_le ha.2
            omega
          · rcases List.mem_cons.1 hmem with rfl | hmem
            · have := hb.1.trans_le hb.2
              omega
            · exact hmem
    · intro e he
      rcases List.mem_cons.1 he with rfl | he
      · split
        · exact hb
        · exact ha
      · exact hl e he

/-- What settling transfers can do: it ends some, and writes completions. -/
structure SettledOn (s t : State) : Prop where
  cold : t.cold = s.cold
  ended : ∀ k, s.xfer k = none → t.xfer k = none
  out : ∀ m ∈ s.out, m ∈ t.out

section
variable {s : State} {k : Nat} {x : Xfer}

theorem post?_settled (s : State) (c : Option Hdr) (op st : Nat) (res : List (Nat × Nat)) : SettledOn s (s.post? c op st res) := by
  cases c with
  | none => exact ⟨rfl, fun _ h => h, fun _ h => h⟩
  | some c =>
    refine ⟨State.post_cold .., fun k hk => ?_, (sentOn_post s c op st res).mem⟩
    rw [State.xfer, State.post?, State.post_fab]
    exact hk

theorem setXfer_xfer_same (s : State) (k : Nat) (x : Option Xfer) : (s.setXfer k x).xfer k = x := look_put_same ..

theorem setXfer_xfer_ne (s : State) (x : Option Xfer) {j : Nat} (h : j ≠ k) : (s.setXfer k x).xfer j = s.xfer j := look_put_ne _ _ _ h

theorem setXfer_none_settled (s : State) (k : Nat) : SettledOn s (s.setXfer k none) := by
  refine ⟨rfl, fun j hj => ?_, fun _ h => h⟩
  by_cases h : j = k
  · rw [h, setXfer_xfer_same]
  · rw [setXfer_xfer_ne _ _ h, hj]

theorem SettledOn.trans {t u : State} (hst : SettledOn s t) (htu : SettledOn t u) : SettledOn s u :=
  ⟨htu.cold.trans hst.cold, fun k h => htu.ended k (hst.ended k h), fun m h => htu.out m (hst.out m h)⟩

theorem settleXfers_settled (s : State) (sk fuel : Nat) : SettledOn s (s.settleXfers sk fuel) := by
  induction fuel generalizing s with
  | zero => exact ⟨rfl, fun _ h => h, fun _ h => h⟩
  | succ n ih =>
    unfold State.settleXfers
    dsimp only
    split
    · exact ⟨rfl, fun _ h => h, fun _ h => h⟩
    · split
      · exact ⟨rfl, fun _ h => h, fun _ h => h⟩
      · exact ((setXfer_none_settled s _).trans (post?_settled ..)).trans (ih _)

/-- The transfers of a sequence. -/
def State.sequence (s : State) (sk : Nat) : List (Nat × Xfer) :=
  s.fab.xfers.filterMap (fun e => e.2.bind (fun x => if seqKey x.hdr = sk then some (e.1, x) else none))

theorem mem_sequence {sk : Nat} {e : Nat × Xfer} : e ∈ s.sequence sk ↔ (e.1, some e.2) ∈ s.fab.xfers ∧ seqKey e.2.hdr = sk := by
  obtain ⟨j, y⟩ := e
  unfold State.sequence
  constructor
  · intro he
    obtain ⟨⟨j', o⟩, hmem, hbind⟩ := List.mem_filterMap.1 he
    obtain ⟨z, rfl, hz⟩ := Option.bind_eq_some_iff.1 hbind
    split at hz <;> cases hz
    exact ⟨hmem, ‹_›⟩
  · rintro ⟨hmem, hkey⟩
    exact List.mem_filterMap.2 ⟨_, hmem, by simp [hkey]⟩

theorem mem_put {α : Type} [DecidableEq α] {d v : α} {m : SMap α} {k : Nat} {e : Nat × α} (he : e ∈ put d m k v) :
    e = (k, v) ∨ e ∈ m ∧ e.1 ≠ k := by
  have hold := fun h : e ∈ SMap.without m k => And.intro (mem_without m k h) (without_keys m k e h)
  unfold put at he
  split at he
  · exact .inr (hold he)
  · exact (mem_place _ k v he).imp_right hold

/-- The transfer at `k`, alone there, comes first in its sequence. -/
structure Leads (s : State) (k : Nat) (x : Xfer) : Prop where
  first : FirstOf s k x
  here : s.xfer k = some x
  only : ∀ e ∈ s.fab.xfers, e.1 = k → e.2 = some x

theorem leads_setXfer {y : Xfer} (hfirst : FirstOf s k x) (hhdr : y.hdr = x.hdr) : Leads (s.setXfer k (some y)) k y := by
  have hput : ∀ e ∈ (s.setXfer k (some y)).fab.xfers, e = (k, some y) ∨ e ∈ s.fab.xfers ∧ e.1 ≠ k := fun e he =>
    mem_put (d := none) (v := some y) he
  refine ⟨fun e he z hz hkey hne => ?_, setXfer_xfer_same .., fun e he hk => ?_⟩
  · rw [hhdr] at hkey ⊢
    rcases hput e he with rfl | ⟨hmem, -⟩
    · exact absurd rfl hne
    · exact hfirst e hmem z hz hkey hne
  · rcases hput e he with rfl | ⟨-, hne⟩
    · rfl
    · exact absurd hk hne

/-- A transfer that is done and leads its sequence completes. -/
theorem settleXfers_first {st fuel : Nat} (h : Leads s k x) (hdone : x.done = some st) : s.settleXfers (seqKey x.hdr) (fuel + 1) =
    ((s.setXfer k none).post? x.hdrCmd 0x0622 st []).settleXfers (seqKey x.hdr) fuel := by
  have hmem : (k, x) ∈ s.sequence (seqKey x.hdr) :=
    mem_sequence.2 ⟨by rw [← h.here]; exact mem_of_look_ne (by rw [← State.xfer, h.here]; simp), rfl⟩
  have hall : ∀ e ∈ s.sequence (seqKey x.hdr), e = (k, x) ∨ Behind e (k, x) := fun e he => by
    obtain ⟨hin, hkey⟩ := mem_sequence.1 he
    by_cases hk : e.1 = k
    · exact .inl (Prod.ext hk (Option.some.inj (h.only _ hin hk)))
    · exact .inr (h.first _ hin e.2 rfl hkey hk)
  rw [State.settleXfers]
  change (match s.sequence (seqKey x.hdr) with | [] => s | e :: es => _) = _
  cases hseq : s.sequence (seqKey x.hdr) with
  | nil => rw [hseq] at hmem; exact absurd hmem List.not_mem_nil
  | cons e es =>
    rw [hseq] at hmem hall
    dsimp only
    rw [foldl_first hmem hall]
    dsimp only
    rw [hdone]

/-- A transfer that leads its sequence ends with its completion. -/
theorem finish_first (hfirst : FirstOf s k x) (st : Nat) : (s.finish k x st).xfer k = none ∧ (s.finish k x st).cold = s.cold ∧
    ∀ c, x.hdrCmd = some c → Listening s c 0x0622 → Answered (s.finish k x st) c 0x0622 st [] := by
  have hfirst' : FirstOf { s with fab := { s.fab with
      outq := s.fab.outq.filter (fun o => !(decide (o.cls = 2 ∧ xferKey o.hdr.ch o.hdr.tag = k))) } } k x := hfirst
  have hleads := leads_setXfer (y := { x with done := some st }) hfirst' rfl
  unfold State.finish
  dsimp only
  have hmute : ∀ u : State, u = State.setXfer { s with fab := { s.fab with
      outq := s.fab.outq.filter (fun o => !(decide (o.cls = 2 ∧ xferKey o.hdr.ch o.hdr.tag = k))) } } k (some { x with done := some st }) →
    u.cold = s.cold ∧ u.mute = s.mute ∧ u.rings = s.rings := fun u h => by rw [h]; exact ⟨rfl, rfl, rfl⟩
  have hsame := hmute _ rfl
  generalize State.setXfer { s with fab := { s.fab with
      outq := s.fab.outq.filter (fun o => !(decide (o.cls = 2 ∧ xferKey o.hdr.ch o.hdr.tag = k))) } } k (some { x with done := some st }) = u at hleads hsame ⊢
  obtain ⟨hcold, hm, hr⟩ := hsame
  have hstep := settleXfers_first (fuel := 255) hleads rfl
  change u.settleXfers (seqKey x.hdr) 256 = _ at hstep
  rw [hstep]
  have hposted := post?_settled (u.setXfer k none) x.hdrCmd 0x0622 st []
  have hrest := settleXfers_settled ((u.setXfer k none).post? x.hdrCmd 0x0622 st []) (seqKey x.hdr) 255
  refine ⟨hrest.ended k (hposted.ended k (setXfer_xfer_same ..)), (hrest.cold.trans hposted.cold).trans hcold, fun c hc hlisten => ?_⟩
  obtain ⟨hmuted, hring⟩ := hlisten
  have hanswered : Answered ((u.setXfer k none).post c 0x0622 st []) c 0x0622 st [] := by
    refine State.post_answered _ c 0x0622 st [] ?_ ?_
    · change (c, 0x0622) ∉ u.mute
      rw [hm]
      exact hmuted
    · rw [State.ring_congr (show (u.setXfer k none).rings = s.rings from hr)]
      exact hring
  obtain ⟨phase, trunc, tag, hsent⟩ := hanswered
  refine ⟨phase, trunc, tag, hrest.out _ ?_⟩
  rw [hc]
  exact hsent

/-- The train of an attempt under generation `g`. -/
def Xfer.train (x : Xfer) (g : Nat) : Outgo :=
  { part := x.part, cls := 2, hdr := if x.hdr.op = 2 then { x.hdr with gen := g } else { x.hdr with gen := g, last := true }
    data := decide (x.hdr.op = 2), laddr := x.laddr, next := 0, n := if x.hdr.op = 2 then x.hdr.total else 1 }

theorem train_gen (x : Xfer) (g : Nat) : (x.train g).hdr.gen = g := by
  unfold Xfer.train
  dsimp only
  split <;> rfl

/-- A later attempt: its train goes to the queue. -/
theorem again_outq {ch tag : Nat} (hquiet : ∀ o ∈ s.fab.outq, o.cls = 2 → xferKey o.hdr.ch o.hdr.tag ≠ xferKey ch tag) :
    (s.again (xferKey ch tag) x).fab.outq = s.fab.outq ++ [x.train ((x.gen + 1) % 256)] := by
  have hkeep : s.fab.outq.filter (fun o => !(decide (o.cls = 2 ∧ xferKey o.hdr.ch o.hdr.tag = xferKey ch tag))) = s.fab.outq :=
    List.filter_eq_self.2 fun o ho => by simpa using imp_iff_not_or.1 (hquiet o ho)
  have houtq : (s.again (xferKey ch tag) x).fab.outq =
      s.fab.outq.filter (fun o => !(decide (o.cls = 2 ∧ xferKey o.hdr.ch o.hdr.tag = xferKey ch tag))) ++ [x.train ((x.gen + 1) % 256)] := by
    unfold State.again State.attempt Xfer.train
    simp only [decide_eq_true_eq]
    rfl
  rw [houtq, hkeep]

theorem again_xfer (s : State) (k : Nat) (x : Xfer) :
    (s.again k x).xfer k = some { x with gen := (x.gen + 1) % 256, quar := none, left := [] } ∧
      (s.again k x).fab.retries = s.fab.retries + 1 ∧ (s.again k x).out = s.out := by
  exact ⟨setXfer_xfer_same .., rfl, rfl⟩

end

/-! ### The clauses of O43 on responses, timers and forwarding -/

section
variable {s : State} {i : Nat} {d : DynFlit}

theorem exec_dynResponseRx (hin : s.fab.inq = [(i, d)]) (hcls : d.cls = 3) :
    exec .dynResponseRx s = .next (s.inqTaken.response d.hdr d.line) := by
  change execDynResponseRx s = _
  unfold execDynResponseRx
  rw [takeDyn_only hin hcls]
  rfl

/-- A response that no transfer waits for is counted. -/
theorem dynResponseRx_late (hin : s.fab.inq = [(i, d)]) (hcls : d.cls = 3) (hnone : s.xfer (xferKey d.hdr.ch d.hdr.tag) = none) :
    ∃ t, exec .dynResponseRx s = .next t ∧ t.fab = { s.fab with inq := [], lateDrop := s.fab.lateDrop + 1 } ∧ t.cold = s.cold ∧
      t.out = s.out := by
  have hexec := exec_dynResponseRx hin hcls
  have hresponse : s.inqTaken.response d.hdr d.line = s.inqTaken.lateDrop := by
    unfold State.response
    dsimp only
    rw [show s.inqTaken.xfer (xferKey d.hdr.ch d.hdr.tag) = none from hnone]
  rw [hresponse] at hexec
  refine ⟨_, hexec, ?_, ?_, ?_⟩
  · rw [State.lateDrop, State.count_fab]; rfl
  · rw [State.lateDrop, State.count_cold]; rfl
  · rw [State.lateDrop, State.count_out]; rfl

/-- The response to a WRITE completes it with its STATUS. -/
theorem dynResponseRx_write {x : Xfer} (hin : s.fab.inq = [(i, d)]) (hcls : d.cls = 3) (hxfer : s.xfer (xferKey d.hdr.ch d.hdr.tag) = some x)
    (hgen : x.gen = d.hdr.gen) (hdone : x.done = none) (hop : x.hdr.op = 2) :
    exec .dynResponseRx s = .next (s.inqTaken.finish (xferKey d.hdr.ch d.hdr.tag) x d.hdr.status) := by
  rw [exec_dynResponseRx hin hcls]
  unfold State.response
  dsimp only
  rw [show s.inqTaken.xfer (xferKey d.hdr.ch d.hdr.tag) = some x from hxfer]
  dsimp only
  rw [if_neg (by simp [hgen, hdone]), if_neg (by simp [hop])]

end

section
variable {s : State} {ch tag : Nat} {x : Xfer} (hxfer : s.xfer (xferKey ch tag) = some x) (hdone : x.done = none)
include hxfer hdone

/-- The timer of a transfer all of whose flits have left. -/
theorem exec_dynTimeout (hquar : x.quar = none) (hquiet : ∀ o ∈ s.fab.outq, o.cls = 2 → xferKey o.hdr.ch o.hdr.tag ≠ xferKey ch tag)
    (hqueued : s.queued (xferKey ch tag) = false) (hanswered : s.answered (xferKey ch tag) = false) : exec (.dynTimeout ch tag) s =
    if s.wallNs < x.sentAt + 1000 * x.timeout then .next s
    else if x.tries < x.retries then .next (s.again (xferKey ch tag) { x with tries := x.tries + 1 })
    else .next (s.finish (xferKey ch tag) x 0x09) := by
  have hnoTrain : s.fab.outq.any (fun o => decide (o.cls = 2 ∧ xferKey o.hdr.ch o.hdr.tag = xferKey ch tag)) = false :=
    List.any_eq_false.2 fun o ho => by simpa using hquiet o ho
  have htimed : s.timedOut (xferKey ch tag) x = decide (x.sentAt + 1000 * x.timeout ≤ s.wallNs) := by
    unfold State.timedOut
    rw [hquar, hqueued, hnoTrain]
    rfl
  change execDynTimeout ch tag s = _
  unfold execDynTimeout
  dsimp only
  rw [hxfer]
  dsimp only
  rw [hdone, hanswered, htimed]
  by_cases hearly : s.wallNs < x.sentAt + 1000 * x.timeout
  · rw [if_pos hearly, if_pos (by simp [Nat.not_le.2 hearly])]
    rfl
  · rw [if_neg hearly, if_neg (by simp [Nat.not_lt.1 hearly])]
    split <;> rfl

theorem exec_quarantineResend {j : Nat} (hquar : x.quar = some j) (hup : (s.port j).st = .up) :
    exec (.quarantineResend ch tag) s = .next (s.again (xferKey ch tag) x) := by
  change execQuarantineResend ch tag s = _
  unfold execQuarantineResend
  dsimp only
  rw [hxfer]
  dsimp only
  rw [hquar]
  dsimp only
  rw [if_pos (by simp [hdone, hup])]
  rfl

end

section
variable {s : State} {i : Nat} {d : DynFlit}

/-- A forwarded flit leaves the port that held it. -/
theorem exec_dynForward (hheld : (s.port i).fwdDyn = [d]) (hdue : d.due ≤ s.cycle) : exec (.dynForward i) s =
    .next ((s.onPort i (fun x => { x with fwdDyn := x.fwdDyn.filter (fun e => decide (e ≠ d)) })).dynSend d.lay d.cls d.epoch d.hdr d.line s.cycle i).1 := by
  change execDynForward i s = _
  unfold execDynForward
  rw [hheld, List.find?_cons_of_pos (by simpa using hdue)]
  rfl

theorem dynSend_spent {p cls : Nat} {e : Option Bool} {h : DynHdr} (hhops : 64 ≤ h.hops) (line : Line) (c at' : Nat) :
    s.dynSend p cls e h line c at' = (s.strayFlit at', none) := if_pos (.inl hhops)

/-- A flit that has a way out and room in its queue waits at the port it takes. -/
theorem dynSend_queued {p cls c at' j : Nat} {e : Option Bool} {h : DynHdr} (hhops : h.hops < 64) (hlive : s.retired? p e = false)
    (hport : s.dynPort p cls h.dst c e = some j) (hroom : (look [] (s.port j).dynQ (dynKey p cls)).length < 64) (line : Line) :
    (s.dynSend p cls e h line c at').1 = s.onPort j (fun x =>
      { x with dynQ := put [] x.dynQ (dynKey p cls) (look [] (s.port j).dynQ (dynKey p cls) ++
          [{ due := c, lay := p, cls := cls, epoch := e, hdr := h, line := line }]) }) := by
  unfold State.dynSend
  rw [if_neg (by simp [hlive, hhops]), hport]
  dsimp only
  rw [if_neg (Nat.not_le.2 hroom)]

theorem strayFlit_port (s : State) (i k : Nat) : ((s.strayFlit i).port k).fwdDyn = (s.port k).fwdDyn ∧
    ((s.strayFlit i).port k).dynQ = (s.port k).dynQ ∧ (k = i → ((s.strayFlit i).port k).stray = (s.port k).stray + 1) := by
  rw [State.strayFlit, State.count_port]
  by_cases h : k = i
  · rw [h, State.onPort_port_same]
    exact ⟨rfl, rfl, fun _ => rfl⟩
  · rw [State.onPort_port_ne _ _ h]
    exact ⟨rfl, rfl, fun hk => absurd hk h⟩

/-- A flit that is sent leaves what ports hold for forwarding. -/
theorem dynSend_fwdDyn (s : State) (p cls : Nat) (e : Option Bool) (h : DynHdr) (line : Line) (c at' k : Nat) :
    ((s.dynSend p cls e h line c at').1.port k).fwdDyn = (s.port k).fwdDyn := by
  have hput : ∀ (u : State) (j : Nat) (f : Port → Port), (∀ x, (f x).fwdDyn = x.fwdDyn) → ((u.onPort j f).port k).fwdDyn = (u.port k).fwdDyn := by
    intro u j f hf
    by_cases hk : k = j
    · rw [hk, State.onPort_port_same, hf]
    · rw [State.onPort_port_ne _ _ hk]
  unfold State.dynSend
  split
  · exact (strayFlit_port ..).1
  · split
    · exact (strayFlit_port ..).1
    · dsimp only
      split
      · exact (hput _ _ (fun x => { x with fwdDrop := x.fwdDrop + 1 }) fun _ => rfl).trans (strayFlit_port ..).1
      · exact hput _ _ (fun x => { x with dynQ := _ }) fun _ => rfl

end

/-- Settles O43: a whole request opens its entry, is executed and answered (`State.request_whole`), a transfer that leads its sequence ends
with its completion (`finish_first`), and the rest are the branches of the rows on timers and forwarding. -/
theorem dynamicTransfersComplete : Obligations.DynamicTransfersComplete := by
  unfold Obligations.DynamicTransfersComplete
  refine ⟨fun i d s hin hcls hnone hroom hlast hpiece =>
      ⟨dynRequestRx_write hin hcls hnone hroom hlast hpiece, dynRequestRx_read hin hcls hnone hroom hlast hpiece⟩,
    fun i d s e r st hin hcls hlook hrec hst hop hlast => dynRequestRx_recorded hin hcls hlook hrec hst hop hlast,
    fun s hin => ?_, fun s hin => ?_, fun i d s hin hcls hnone => dynResponseRx_late hin hcls hnone,
    fun i d s x hin hcls hxfer hgen hdone hfirst hop => ?_, fun ch tag s x hxfer hdone => ⟨fun hquar hquiet hqueued hanswered => ?_, fun j hquar hup => ?_⟩,
    fun i s d hheld hdue => ?_⟩
  · change execDynRequestRx s = _
    unfold execDynRequestRx
    rw [takeDyn_none hin]
    rfl
  · change execDynResponseRx s = _
    unfold execDynResponseRx
    rw [takeDyn_none hin]
    rfl
  · obtain ⟨hnone, hcold, hanswer⟩ := finish_first (s := s.inqTaken) hfirst d.hdr.status
    exact ⟨_, dynResponseRx_write hin hcls hxfer hgen hdone hop, hnone, hcold, hanswer⟩
  · have hexec := exec_dynTimeout hxfer hdone hquar hquiet hqueued hanswered
    refine ⟨fun hearly => ?_, fun hlate hmore => ?_, fun hlate hlast hfirst => ?_⟩
    · rwa [if_pos hearly] at hexec
    · rw [if_neg (Nat.not_lt.2 hlate), if_pos hmore] at hexec
      obtain ⟨hnew, hretries, hout⟩ := again_xfer s (xferKey ch tag) { x with tries := x.tries + 1 }
      exact ⟨_, _, hexec, hnew, again_outq hquiet, train_gen .., rfl, rfl, hretries, hout⟩
    · rw [if_neg (Nat.not_lt.2 hlate), if_neg (Nat.not_lt.2 hlast)] at hexec
      obtain ⟨hnone, -, hanswer⟩ := finish_first hfirst 0x09
      exact ⟨_, hexec, hnone, hanswer⟩
  · exact ⟨_, exec_quarantineResend hxfer hdone hquar hup, again_xfer ..⟩
  · have hexec := exec_dynForward hheld hdue
    have hleft : s.onPort i (fun x => { x with fwdDyn := x.fwdDyn.filter (fun e => decide (e ≠ d)) }) =
        s.onPort i (fun x => { x with fwdDyn := [] }) := by
      simp only [State.onPort, upd]
      rw [show (look Port.zero s.ports i).fwdDyn = [d] from hheld]
      simp
    rw [hleft] at hexec
    refine ⟨_, hexec, ?_, fun hhops => ?_, fun j hhops hlive hport hroom => ?_⟩
    · rw [dynSend_fwdDyn, State.onPort_port_same]
    · obtain ⟨-, hdynQ, hstray⟩ := strayFlit_port (s.onPort i (fun x => { x with fwdDyn := [] })) i i
      rw [dynSend_spent hhops]
      exact ⟨(hstray rfl).trans (by rw [State.onPort_port_same]), hdynQ.trans (by rw [State.onPort_port_same])⟩
    · have hdynQ : ((s.onPort i (fun x => { x with fwdDyn := [] })).port j).dynQ = (s.port j).dynQ := by
        by_cases hj : j = i
        · rw [hj, State.onPort_port_same]
        · rw [State.onPort_port_ne _ _ hj]
      rw [dynSend_queued (s := s.onPort i (fun x => { x with fwdDyn := [] })) hhops hlive hport (by rw [hdynQ]; exact hroom),
        State.onPort_port_same, hdynQ]
      exact look_put_same ..

end Sys2Proof.Machine
end

