-- ==== Sys2Proof/Proofs/TwinShadow.lean ====
section
/-! PROOF. The twin's shadow engine (R338 to R341, R389, R424): O44. -/

namespace Sys2Proof.Machine
open Sys2Proof.Stmt

/-! ### Flits of the stream (R338, R339) -/

/-- Partition `q`'s latest map has slot `n`. -/
def State.twinSlot (s : State) (n q : Nat) : Bool :=
  match (s.shadow q).map with
  | some m => m.slots.contains n
  | none => false

section
variable {s : State} {n q : Nat}

theorem twinSlot_eq_true : s.twinSlot n q = true ↔ ∃ m, (s.shadow q).map = some m ∧ n ∈ m.slots := by
  unfold State.twinSlot
  cases (s.shadow q).map with
  | none => simp
  | some m => simp

theorem twinSlot_eq_false : s.twinSlot n q = false ↔ ∀ m, (s.shadow q).map = some m → n ∉ m.slots := by
  unfold State.twinSlot
  cases (s.shadow q).map with
  | none => simp
  | some m => simp

/-- No partition of this module has the slot. -/
theorem find_twinSlot_none (h : ∀ k, k < 16 → s.twinSlot n k = false) : allParts.find? (s.twinSlot n) = none :=
  List.find?_eq_none.2 fun k hk => by simp [h k (List.mem_range.1 hk)]

/-- The first partition that has the slot. -/
theorem find_twinSlot_first (hq : q < 16) (hhere : s.twinSlot n q = true) (hbefore : ∀ k, k < q → s.twinSlot n k = false) :
    allParts.find? (s.twinSlot n) = some q :=
  List.find?_range_eq_some.2 ⟨hhere, List.mem_range.2 hq, fun k hk => by simp [hbefore k hk]⟩

/-- The engine with the first flit of the stream taken. -/
def State.streamTaken (s : State) (rest : List Flit) : State := { s with fab := { s.fab with shadowIn := rest } }

theorem exec_shadowFlitRx {fl : Flit} {rest : List Flit} (hin : s.fab.shadowIn = fl :: rest) : exec .shadowFlitRx s =
    match allParts.find? (s.twinSlot (fl.check % 384)) with
    | none => .next ((s.streamTaken rest).strayFlit 10)
    | some q => .next ((s.streamTaken rest).onShadow q (fun x => if x.left = 0 then x.header (s.regionSize q) fl else x.data fl)) := by
  change execShadowFlitRx s = _
  unfold execShadowFlitRx
  rw [hin]
  rfl

end

/-- A header flit that R339 accepts for a stream of `size` lines. -/
structure GoodHeader (fl : Flit) (size : Nat) : Prop where
  magic : bits fl.lo.toNat 0 32 = 0x49545331
  kind : bits fl.lo.toNat 32 8 = 1 ∨ bits fl.lo.toNat 32 8 = 2
  zero : bits fl.lo.toNat 40 24 = 0 ∧ bits fl.lo.toNat 240 1808 = 0 ∧ fl.hi = 0
  even : bits fl.lo.toNat 128 64 % 2 = 0
  count : bits fl.lo.toNat 192 32 ≠ 0 ∧ bits fl.lo.toNat 192 32 ≤ 2 ^ 24
  fits : bits fl.lo.toNat 128 64 + 2 * bits fl.lo.toNat 192 32 ≤ size

theorem Shadow.header_good (x : Shadow) {fl : Flit} {size : Nat} (h : GoodHeader fl size) : x.header size fl =
    { x with left := bits fl.lo.toNat 192 32, line := bits fl.lo.toNat 128 64, kind := bits fl.lo.toNat 32 8
             stepNo := bits fl.lo.toNat 64 64, building := [], lost := false } := by
  obtain ⟨hmagic, hkind, ⟨hlow, hhigh, hhi⟩, heven, ⟨hsome, hmany⟩, hfits⟩ := h
  have hthree : bits fl.lo.toNat 32 8 ≠ 3 := by omega
  have hzero : bits fl.lo.toNat 32 8 ≠ 0 := by omega
  have hup : ¬3 < bits fl.lo.toNat 32 8 := by omega
  unfold Shadow.header
  dsimp only
  rw [if_neg hthree, if_neg, if_neg hthree]
  simp [hmagic, hzero, hup, hlow, hhigh, hhi, heven, hsome, hfits]
  omega

theorem Shadow.header_badMagic (x : Shadow) {fl : Flit} (size : Nat) (h : bits fl.lo.toNat 0 32 ≠ 0x49545331) : x.header size fl = x.lose := by
  unfold Shadow.header
  exact if_pos (.inl h)

/-- What a data flit leaves of the stream. -/
theorem Shadow.data_writes (x : Shadow) (fl : Flit) : ∃ building prov, x.data fl =
    { x with lines := put 0 (put 0 x.lines x.line fl.lo) (x.line + 1) fl.hi, line := x.line + 2, left := x.left - 1, building, prov } := by
  unfold Shadow.data
  dsimp only
  split
  · exact ⟨_, _, rfl⟩
  · exact ⟨_, _, rfl⟩

/-! ### The clauses of O44 -/

section
variable {s : State} {q : Nat} {fl : Flit} {rest : List Flit}

/-- A flit in a slot of no map is counted as stray. -/
theorem shadowFlitRx_stray (hin : s.fab.shadowIn = fl :: rest)
    (hnone : ∀ k m, k < 16 → (s.shadow k).map = some m → fl.check % 384 ∉ m.slots) :
    exec .shadowFlitRx s = .next ((s.streamTaken rest).strayFlit 10) := by
  rw [exec_shadowFlitRx hin, find_twinSlot_none fun k hk => twinSlot_eq_false.2 fun m hm => hnone k m hk hm]

/-- A flit in a slot of partition `q`'s map is the next of its stream. -/
theorem shadowFlitRx_takes (hin : s.fab.shadowIn = fl :: rest) (hq : q < 16)
    (hhere : ∃ m, (s.shadow q).map = some m ∧ fl.check % 384 ∈ m.slots)
    (hbefore : ∀ k m, k < q → (s.shadow k).map = some m → fl.check % 384 ∉ m.slots) : exec .shadowFlitRx s =
      .next ((s.streamTaken rest).onShadow q (fun x => if x.left = 0 then x.header (s.regionSize q) fl else x.data fl)) := by
  rw [exec_shadowFlitRx hin, find_twinSlot_first hq (twinSlot_eq_true.2 hhere) fun k hk => twinSlot_eq_false.2 fun m hm => hbefore k m hk hm]

theorem exec_twinMapTransfer_paired (hpair : s.keys.pairKey = true) (m : TwinMap) : exec (.twinMapTransfer q m) s =
    .next (s.onShadow q (fun x => { x with map := some m, incompl := x.incompl && !m.fresh, twinSize := m.region })) :=
  if_neg (by simp [hpair])

theorem exec_twinMapTransfer_alone (hpair : s.keys.pairKey = false) (m : TwinMap) : exec (.twinMapTransfer q m) s = .next s :=
  if_pos (by simp [hpair])

/-- The shadow with `n` lines from `line` on copied into the park area. -/
def Shadow.parked (x : Shadow) (entry line n : Nat) : Shadow :=
  { x with parks := put [] x.parks entry ((List.range n).map (fun j => look 0 x.lines (line + j))), parkReq := put none x.parkReq entry none }

theorem exec_twinParkCopy {entry line n : Nat} (hreq : look none (s.shadow q).parkReq entry = some (line, n)) :
    exec (.twinParkCopy q entry) s = .next (if s.keys.pairKey then (s.onShadow q (fun x => x.parked entry line n)).send (.twinParked q entry)
      else s.onShadow q (fun x => x.parked entry line n)) := by
  change execTwinParkCopy q entry s = _
  unfold execTwinParkCopy
  rw [hreq]
  rfl

/-- The twin's map serves the rank that the spare takes over, and has its job key. -/
def Shadow.servesRank (x : Shadow) (rq : ShadowReq) : Bool :=
  match x.map with
  | some m => decide (m.job = rq.job ∧ m.rank = rq.rank) && m.key.isSome
  | none => false

theorem servesRank_iff {x : Shadow} {rq : ShadowReq} :
    x.servesRank rq = true ↔ ∃ m, x.map = some m ∧ m.job = rq.job ∧ m.rank = rq.rank ∧ m.key.isSome = true := by
  unfold Shadow.servesRank
  cases x.map with
  | none => simp
  | some m => simp [and_assoc]

/-- The status with which the twin answers a spare. -/
def Shadow.serveStatus (x : Shadow) (rq : ShadowReq) : Nat :=
  if !x.servesRank rq ∨ !x.grafted rq then 0x01 else if x.promoted.isNone ∨ x.incompl then 0x06 else 0x00

theorem serveStatus_eq_zero {x : Shadow} {rq : ShadowReq} : x.serveStatus rq = 0 ↔
    x.servesRank rq = true ∧ x.grafted rq = true ∧ x.promoted.isSome = true ∧ x.incompl = false := by
  unfold Shadow.serveStatus
  split
  next h => exact ⟨fun h0 => absurd h0 (by decide), fun ⟨hmine, hgrafted, _⟩ => by simp [hmine, hgrafted] at h⟩
  next h =>
    have hboth : x.servesRank rq = true ∧ x.grafted rq = true := by simpa using h
    split
    next h' =>
      refine ⟨fun h0 => absurd h0 (by decide), fun ⟨_, _, hpromoted, hcomplete⟩ => ?_⟩
      rw [hcomplete, Option.isNone_eq_false_iff.2 hpromoted] at h'
      simp at h'
    next h' =>
      obtain ⟨hpromoted, hcomplete⟩ := not_or.1 h'
      refine ⟨fun _ => ⟨hboth.1, hboth.2, ?_, Bool.eq_false_iff.2 hcomplete⟩, fun _ => rfl⟩
      cases h : x.promoted with
      | none => rw [h] at hpromoted; exact absurd rfl hpromoted
      | some _ => rfl

theorem exec_twinShadowServe (s : State) (q : Nat) (rq : ShadowReq) : exec (.twinShadowServe q rq) s =
    .next (s.send (if (s.shadow q).serveStatus rq = 0 then
        .twinStatus rq.serial ((s.shadow q).serveStatus rq) (s.shadow q).promoted (s.shadow q).lines
      else .twinStatus rq.serial ((s.shadow q).serveStatus rq) none [])) := rfl

theorem onShadow_shadow_ne (s : State) {p k : Nat} (f : Shadow → Shadow) (h : k ≠ p) : (s.onShadow p f).shadow k = s.shadow k :=
  look_upd_ne Shadow.zero s.shadows f h

end

/-- Settles O44: the first partition whose map has the slot takes the flit (`shadowFlitRx_takes`) as a header or as data, and the twin
serves exactly when `Shadow.serveStatus` is 0. -/
theorem twinKeepsShadow : Obligations.TwinKeepsShadow := by
  unfold Obligations.TwinKeepsShadow
  refine ⟨fun s hempty => ?_, fun fl rest s hin hnone => ?_, fun q fl rest s hin hq hhere hbefore => ?_, fun q m s => ?_,
    fun q entry line n s hreq => ?_, fun q entry s => ?_, fun q rq s => ?_, fun b s c n hup hpaired hpeer hserial => ?_⟩
  · change execShadowFlitRx s = _
    unfold execShadowFlitRx
    rw [hempty]
    rfl
  · refine ⟨_, shadowFlitRx_stray hin hnone, rfl, rfl, ?_⟩
    exact (strayFlit_port (s.streamTaken rest) 10 10).2.2 rfl
  · have hpart := (s.streamTaken rest).onShadow_shadow_same q (fun x => if x.left = 0 then x.header (s.regionSize q) fl else x.data fl)
    have hkept : (s.streamTaken rest).shadow q = s.shadow q := rfl
    rw [hkept] at hpart
    refine ⟨_, shadowFlitRx_takes hin hq hhere hbefore, rfl, fun k hk => onShadow_shadow_ne _ _ hk, rfl,
      fun hleft hmagic hkind hres htail hhi heven hsome hmany hfits => ?_, fun hleft hmagic => ?_, fun hleft => ?_⟩
    · rw [hpart, if_pos hleft]
      exact Shadow.header_good _ ⟨hmagic, hkind, ⟨hres, htail, hhi⟩, heven, ⟨hsome, hmany⟩, hfits⟩
    · rw [hpart, if_pos hleft]
      exact Shadow.header_badMagic _ _ hmagic
    · obtain ⟨building, prov, hdata⟩ := (s.shadow q).data_writes fl
      rw [hpart, if_neg (Nat.pos_iff_ne_zero.1 hleft)]
      rw [hdata]
      refine ⟨?_, look_put_same .., fun j hj hj' => ?_, rfl, rfl, rfl⟩
      · rw [look_put_ne _ _ _ (by omega), look_put_same]
      · rw [look_put_ne _ _ _ hj', look_put_ne _ _ _ hj]
  · cases hpair : s.keys.pairKey
    · exact ⟨s, exec_twinMapTransfer_alone hpair m, fun _ => rfl, fun h => absurd h (by decide)⟩
    · refine ⟨_, exec_twinMapTransfer_paired hpair m, fun h => absurd h (by decide), fun _ => ⟨?_, ?_, ?_, ?_, fun k hk => onShadow_shadow_ne _ _ hk⟩⟩ <;>
        rw [State.onShadow_shadow_same]
  · have hpart : (if s.keys.pairKey then (s.onShadow q (fun x => x.parked entry line n)).send (.twinParked q entry)
        else s.onShadow q (fun x => x.parked entry line n)).shadow q = (s.shadow q).parked entry line n := by
      have hput := s.onShadow_shadow_same q (fun x => x.parked entry line n)
      split <;> exact hput
    refine ⟨_, exec_twinParkCopy hreq, ?_, ?_, ?_, fun e he => ?_⟩
    · split
      · rfl
      · exact (List.append_nil _).symm
    · rw [hpart]
      exact look_put_same [] (s.shadow q).parks entry _
    · rw [hpart]
      exact look_put_same none (s.shadow q).parkReq entry none
    · rw [hpart]
      exact look_put_ne [] (s.shadow q).parks _ he
  · cases hpair : s.keys.pairKey
    · exact ⟨s, if_pos (by simp [hpair]), fun _ => rfl, fun h => absurd h (by decide)⟩
    · refine ⟨_, if_neg (by simp [hpair]), fun h => absurd h (by decide), fun _ => ?_⟩
      rw [State.onShadow_shadow_same]
      exact ⟨look_put_same [] (s.shadow q).parks entry [], fun e he => look_put_ne [] (s.shadow q).parks [] he⟩
  · rw [exec_twinShadowServe, ← servesRank_iff]
    by_cases hserved : (s.shadow q).serveStatus rq = 0
    · rw [if_pos hserved]
      exact ⟨_, _, _, rfl, serveStatus_eq_zero, fun _ => ⟨rfl, rfl⟩, fun h => absurd hserved h⟩
    · rw [if_neg hserved]
      exact ⟨_, _, _, rfl, serveStatus_eq_zero, fun h => absurd h hserved, fun _ => ⟨rfl, rfl⟩⟩
  · exact if_pos ⟨hup, by rw [hpaired]; rfl, by rw [hpeer, hpaired, ← hserial]; rfl⟩

end Sys2Proof.Machine
end

