-- ==== Sys2Proof/Proofs/PlanCommands.lean ====
section
/-! PROOF. The plan commands (R404, R405, R408, R418, Table 17.13): O52. -/

namespace Sys2Proof.Machine
open Sys2Proof.Stmt

section
variable {s : State} {h : Hdr} {src : Src}

theorem srcRead_of_accepted {op : Nat} (hacc : Accepted s h op) (src : Src) : srcRead h src = true := by
  cases src with
  | host _ => exact dmaOk_of_accepted hacc
  | _ => rfl

theorem unitsKept_ready {op : Nat} {t : State} (hacc : Accepted s h op) (hunits : UnitsKept (ready s h op) t) (st : Nat)
    (res : List (Nat × Nat)) : UnitsKept s (t.post h op st res) := by
  have hkept : PlanKept s (ready s h op) := (ready_entered hacc).planKept
  obtain ⟨-, hcells, hblocks, hstks, hcold, hraised⟩ := hkept
  obtain ⟨hcells', hblocks', hstks', hcold', hraised'⟩ := hunits
  exact ⟨by rw [State.post_cells, hcells', hcells], by rw [State.post_blocks, hblocks', hblocks], by rw [State.post_stks, hstks', hstks],
    by rw [State.post_cold, hcold', hcold], by rw [State.post_raised, hraised', hraised]⟩

theorem onlyPart_ready {op p : Nat} {t : State} {f : Part → Part} (hacc : Accepted s h op) (honly : OnlyPart (ready s h op) t p f) (st : Nat)
    (res : List (Nat × Nat)) : OnlyPart s (t.post h op st res) p f := by
  have hpart := (ready_entered hacc).part
  obtain ⟨hown, hother⟩ := honly
  exact ⟨by rw [State.post_part, hown, hpart], fun q hq => by rw [State.post_part, hother q hq, hpart]⟩

theorem onlyPart_onPart (s : State) (p : Nat) (f : Part → Part) : OnlyPart s (s.onPart p f) p f :=
  ⟨s.onPart_part_same p f, fun _ hq => s.onPart_part_ne f hq⟩

/-! ### Images (R404, R405, R408) -/

/-- PLAN_LOAD of an image whose leases are zeroised, into a partition that is free for it. -/
theorem planLoad_answers {img : PlanImage} {len x : Nat} {given : PlanImage} (hacc : AcceptedFor s h 0x0301) (hsrc : srcOk h src = true)
    (himg : s.imageOf h.part src given = img) (hbinding : bindingOk x = true) (hbusy : (s.part h.part).loadBusy = false)
    (hlength : lengthOk img len = true)
    (hzero : (s.part h.part).zeroising ((s.part h.part).touches ((mineOf img (s.part h.part).rank).map (·.2))) = false) {v : Verdict}
    (hv : ((ready s h 0x0301).withRole h.part).sieve h.part img x false = v) :
    ∃ t, exec (.planLoad h src len x given) s = .next t ∧ Answered t h 0x0301 (if v.check = 0 then 0 else 0x08) v.results ∧
      (∀ p, p ≠ h.part → t.part p = s.part p) ∧
      (v.check = 0 → (t.part h.part).st = .staged ∧ (t.part h.part).image = some img ∧ (t.part h.part).binding = v.x ∧
        (t.part h.part).stepNo = (s.part h.part).stepNo ∧ (t.part h.part).committed = none ∧ (t.part h.part).rotLoad = .none ∧
        (t.part h.part).pw.energyMj = 0) ∧
      (v.check ≠ 0 → t.part h.part = { s.part h.part with sieve := v.reg } ∧ UnitsKept s t) := by
  have hrun : exec (.planLoad h src len x given) s = _ := State.onPartition_ready hacc rfl (by rw [hsrc, hbinding]; rfl) _
  rw [himg] at hrun
  have hpart := (ready_entered hacc.1).part
  have hanswered := fun t : State => answered_ready (t := t) hacc.1
  have hunits := fun t : State => unitsKept_ready (t := t) hacc.1
  generalize ready s h 0x0301 = u at hrun hv hpart hanswered hunits
  rw [if_neg (by rw [hpart]; simp [hbusy]), if_neg (by simp [srcRead_of_accepted hacc.1]), if_neg (by simp [hlength]),
    if_neg (by rw [hpart]; simp [hzero]), hv] at hrun
  dsimp only at hrun
  have hverdict := u.onPart_part_same h.part (fun q => { q with sieve := v.reg })
  have hput : ImageMoved u (u.onPart h.part (fun q => { q with sieve := v.reg })) h.part := placed_onPart ..
  have hkept : UnitsKept u (u.onPart h.part (fun q => { q with sieve := v.reg })) := ⟨rfl, rfl, rfl, rfl, rfl⟩
  generalize u.onPart h.part (fun q => { q with sieve := v.reg }) = w at hrun hverdict hput hkept
  by_cases hcheck : v.check = 0
  · rw [if_pos hcheck] at hrun ⊢
    have hmoved := hput.trans (w.install_placed h.part img v.x true)
    have hinstalled := w.install_part h.part img v.x true
    generalize w.install h.part img v.x true = z at hrun hmoved hinstalled
    change _ = ok (z.post h 0x0301 0 v.results) at hrun
    refine ⟨_, hrun, hanswered _ (congrArg State.mute hmoved.frame :) (congrArg State.rings hmoved.frame :) _ _, fun p hp => ?_, fun _ => ?_,
      fun hbad => absurd hcheck hbad⟩
    · rw [State.post_part, hmoved.other p hp, hpart]
    · rw [State.post_part, hinstalled]
      refine ⟨rfl, rfl, rfl, ?_, rfl, rfl, rfl⟩
      change (w.part h.part).stepNo = _
      rw [hverdict, hpart]
  · rw [if_neg hcheck] at hrun ⊢
    change _ = ok (w.post h 0x0301 0x08 v.results) at hrun
    refine ⟨_, hrun, hanswered _ (congrArg State.mute hput.frame :) (congrArg State.rings hput.frame :) _ _, fun p hp => ?_,
      fun hgood => absurd hgood hcheck, fun _ => ⟨?_, hunits _ hkept _ _⟩⟩
    · rw [State.post_part, hput.other p hp, hpart]
    · rw [State.post_part, hverdict, hpart]

/-- PLAN_CHECK answers the verdict and changes nothing. -/
theorem planCheck_answers {img : PlanImage} {len x : Nat} {given : PlanImage} (hacc : AcceptedFor s h 0x0303) (hsrc : srcOk h src = true)
    (himg : s.imageOf h.part src given = img) (hbinding : bindingOk x = true) (hlength : lengthOk img len = true) {v : Verdict}
    (hv : ((ready s h 0x0303).withRole h.part).sieve h.part img x false = v) :
    ∃ t, exec (.planCheck h src len x given) s = .next t ∧ Answered t h 0x0303 (if v.check = 0 then 0 else 0x08) v.results ∧
      t.parts = s.parts ∧ UnitsKept s t := by
  have hrun : exec (.planCheck h src len x given) s = _ := State.onPartition_ready hacc rfl (by rw [hsrc, hbinding]; rfl) _
  rw [himg, if_neg (by simp [srcRead_of_accepted hacc.1]), if_neg (by simp [hlength]), hv] at hrun
  obtain ⟨hparts, hunits⟩ := planKept_post (ready_entered hacc.1).planKept h 0x0303 (if v.check = 0 then 0 else 0x08) v.results
  exact ⟨_, hrun, answered_ready hacc.1 rfl rfl _ _, hparts, hunits⟩

/-- PLAN_SECTION_LOAD into a STAGED partition. -/
theorem planSectionLoad_loads {img : PlanImage} {len : Nat} {given : PlanImage} {bank : Bool} (hacc : AcceptedFor s h 0x0302) (hsrc : srcOk h src = true)
    (himg : s.imageOf h.part src given = img) (hbank : (!(s.part h.part).bankAct) = bank) (hidle : (s.part h.part).bankLoad = none)
    (hstaged : (s.part h.part).st = .staged) (hlength : lengthOk img len = true) {v : Verdict}
    (hv : (ready s h 0x0302).sieveSection h.part img = v) :
    ∃ t, exec (.planSectionLoad h src len given) s = .next t ∧ UnitsKept s t ∧
      ((∃ x ∈ img.secs, x.sub / 256 % 2 ≠ b2n bank) → Answered t h 0x0302 0x0B [] ∧
        OnlyPart s t h.part (fun q => { q with bankStatus := .failed })) ∧
      ((∀ x ∈ img.secs, x.sub / 256 % 2 = b2n bank) →
        (v.check ≠ 0 → Answered t h 0x0302 0x08 v.results ∧
          OnlyPart s t h.part (fun q => { q with sieve := v.reg, bankStatus := .failed })) ∧
        (v.check = 0 → OnlyPart s t h.part (fun q => { q with
          sieve := v.reg, bankLoad := some { bank, secs := (mineOf img q.rank).map (·.2), hdr := some h, done := 0 }
          bankStatus := .busy, bankTarget := bank }))) := by
  have hrun : exec (.planSectionLoad h src len given) s = _ := State.onPartition_ready hacc rfl hsrc _
  rw [himg] at hrun
  have hent := ready_entered hacc.1
  have hpart := hent.part
  have hanswered := fun t : State => answered_ready (t := t) hacc.1
  have hunits := fun t : State => unitsKept_ready (t := t) hacc.1
  have honly := fun (t : State) (f : Part → Part) => onlyPart_ready (t := t) (p := h.part) (f := f) hacc.1
  have hplan : PlanKept s (ready s h 0x0302) := hent.planKept
  generalize ready s h 0x0302 = u at hrun hv hpart hanswered hunits honly hplan
  have hswitch : (u.part h.part).switchDue = false := by rw [hpart, Part.switchDue, hstaged]; rfl
  rw [if_neg (by rw [hpart]; simp [hidle]), if_neg (by rw [hpart]; simp [hstaged]), if_neg (by simp [srcRead_of_accepted hacc.1]),
    if_neg (by simp [hlength]), hswitch, hpart, hbank, hv, Bool.false_or] at hrun
  dsimp only at hrun
  have hput := fun f : Part → Part => onlyPart_onPart u h.part f
  have hsame := fun f : Part → Part => (⟨rfl, rfl, rfl, rfl, rfl⟩ : UnitsKept u (u.onPart h.part f))
  have hlisten := fun f : Part → Part => (⟨rfl, rfl⟩ : (u.onPart h.part f).mute = u.mute ∧ (u.onPart h.part f).rings = u.rings)
  by_cases hother : img.secs.any (fun x => decide (x.sub / 256 % 2 ≠ b2n bank)) = true
  · rw [if_pos hother] at hrun
    change _ = ok ((u.onPart h.part (fun q => { q with bankStatus := .failed })).post h 0x0302 0x0B []) at hrun
    obtain ⟨x, hx, hne⟩ := List.any_eq_true.1 hother
    exact ⟨_, hrun, hunits _ (hsame _) _ _, fun _ => ⟨hanswered _ (hlisten _).1 (hlisten _).2 _ _, honly _ _ (hput _) _ _⟩,
      fun hall => absurd (hall x hx) (of_decide_eq_true hne)⟩
  · rw [if_neg hother] at hrun
    have hall : ∀ x ∈ img.secs, x.sub / 256 % 2 = b2n bank := fun x hx => by
      by_contra hne
      exact hother (List.any_eq_true.2 ⟨x, hx, decide_eq_true hne⟩)
    by_cases hcheck : v.check = 0
    · rw [if_neg (not_not.2 hcheck), State.onPart_onPart] at hrun
      change _ = ok (u.onPart h.part (fun q => { q with
        sieve := v.reg, bankLoad := some { bank, secs := (mineOf img q.rank).map (·.2), hdr := some h, done := 0 }
        bankStatus := .busy, bankTarget := bank })) at hrun
      obtain ⟨hparts, hcells, hblocks, hstks, hcold, hraised⟩ := hplan
      refine ⟨_, hrun, ⟨hcells, hblocks, hstks, hcold, hraised⟩, fun ⟨x, hx, hne⟩ => absurd (hall x hx) hne,
        fun _ => ⟨fun hbad => absurd hcheck hbad, fun _ => ⟨?_, fun q hq => ?_⟩⟩⟩
      · rw [State.onPart_part_same, hpart]
      · rw [State.onPart_part_ne _ _ hq, hpart]
    · rw [if_pos hcheck, State.onPart_onPart] at hrun
      change _ = ok ((u.onPart h.part (fun q => { q with sieve := v.reg, bankStatus := .failed })).post h 0x0302 0x08 v.results) at hrun
      exact ⟨_, hrun, hunits _ (hsame _) _ _, fun ⟨x, hx, hne⟩ => absurd (hall x hx) hne,
        fun _ => ⟨fun _ => ⟨hanswered _ (hlisten _).1 (hlisten _).2 _ _, honly _ _ (hput _) _ _⟩, fun hgood => absurd hgood hcheck⟩⟩

/-- PLAN_UNLOAD takes the image out. -/
theorem planUnload_empties (hacc : AcceptedFor s h 0x0304) (hbusy : (s.part h.part).loadBusy = false) :
    ∃ t, exec (.planUnload h) s = .next t ∧ Answered t h 0x0304 0 [] ∧ (t.part h.part).st = .empty ∧ (t.part h.part).image = none ∧
      ∀ p, p ≠ h.part → t.part p = s.part p := by
  have hrun : exec (.planUnload h) s = _ := State.onPartition_ready hacc rfl rfl _
  have hpart := (ready_entered hacc.1).part
  have hanswered := fun t : State => answered_ready (t := t) hacc.1
  generalize ready s h 0x0304 = u at hrun hpart hanswered
  rw [if_neg (by rw [hpart]; simp [hbusy])] at hrun
  have hmoved := u.unload_placed h.part
  have hunloaded := u.unload_part h.part
  generalize u.unload h.part = z at hrun hmoved hunloaded
  change _ = ok (z.post h 0x0304 0 []) at hrun
  refine ⟨_, hrun, hanswered _ (congrArg State.mute hmoved.frame :) (congrArg State.rings hmoved.frame :) _ _, ?_, ?_, fun p hp => ?_⟩
  · rw [State.post_part, hunloaded]; rfl
  · rw [State.post_part, hunloaded]; rfl
  · rw [State.post_part, hmoved.other p hp, hpart]

/-! ### Starting, stopping and switching (R408, R418) -/

/-- A command whose own part changes its partition alone. -/
theorem setsPart_done {c : Instr} {op : Nat} {absent enc : Bool} {body : State → Did} (hc : exec c s = s.onPartition h op absent enc body)
    (hacc : AcceptedFor s h op) (habs : absent = false) (henc : enc = true) (f : Part → Part)
    (hbody : ∀ u, Entered s u h op → body u = okWith (u.onPart h.part f) []) :
    ∃ t, exec c s = .next t ∧ UnitsKept s t ∧ PartDone s t h op [] h.part f := by
  obtain ⟨t, hexec, honly, hunits, hans⟩ := State.onPartition_setsPart hc hacc habs henc f 0 [] fun u hu => ⟨u.out, hbody u hu⟩
  exact ⟨t, hexec, hunits, hans, honly⟩

/-- PLAN_START arms a STAGED partition in no job as rank 0, alone. -/
theorem planStart_arms {mark : Nat} (hacc : AcceptedFor s h 0x0305) (hstaged : (s.part h.part).st = .staged)
    (hjob : (s.part h.part).jb.jstate = .none) (hhub : s.hubOn = true) (hmark : s.markOk mark = true) :
    ∃ t, exec (.planStart h mark) s = .next t ∧ UnitsKept s t ∧ PartDone s t h 0x0305 [] h.part (fun q => { q with
      st := .armed, rank := 0, jobSize := 1, jb := { q.jb with startMark := some mark, resume := none } }) := by
  refine setsPart_done (body := _) rfl hacc rfl rfl _ fun u hu => ?_
  have hhub' : u.hubOn = true := by rw [← hhub, hu.1]; rfl
  have hmark' : u.markOk mark = true := by rw [← hmark, State.markOk, State.markOk, hu.hallNow]
  dsimp only
  rw [if_neg (by rw [hu.part]; simp [hstaged, hjob, hhub']), if_neg (by simp [hmark'])]

/-- PLAN_STOP of an ARMED partition. -/
theorem planStop_disarms (hacc : AcceptedFor s h 0x0306) (hjob : (s.part h.part).jb.jstate = .none) (harmed : (s.part h.part).st = .armed) :
    ∃ t, exec (.planStop h) s = .next t ∧ UnitsKept s t ∧
      PartDone s t h 0x0306 [] h.part (fun q => { q with st := .staged, jb := { q.jb with startMark := none, resume := none } }) := by
  refine setsPart_done (body := _) rfl hacc rfl rfl _ fun u hu => ?_
  dsimp only
  rw [if_neg (by rw [hu.part]; simp [hjob]), if_pos (by rw [hu.part]; exact harmed)]

/-- PLAN_STOP of a RUNNING partition lands a record. -/
theorem planStop_lands (hacc : AcceptedFor s h 0x0306) (hjob : (s.part h.part).jb.jstate = .none) (hrunning : (s.part h.part).st = .running) :
    ∃ t, exec (.planStop h) s = .next t ∧ NewRecord s t h 0x0306 7 none 0 [] := by
  refine State.onPartition_lands (body := _) rfl hacc rfl rfl fun u hu => ?_
  dsimp only
  rw [if_neg (by rw [hu.part]; simp [hjob]), if_neg (by rw [hu.part, hrunning]; decide), if_pos (by rw [hu.part]; exact hrunning)]

/-- PLAN_BANK_SWITCH of a STAGED partition whose other bank is valid. -/
theorem planBankSwitch_switches (hacc : AcceptedFor s h 0x0307) (hstaged : (s.part h.part).st = .staged)
    (hvalid : s.bankValid h.part (!(s.part h.part).bankAct) = true) : ∃ t, exec (.planBankSwitch h) s = .next t ∧ UnitsKept s t ∧
      PartDone s t h 0x0307 [] h.part (fun q => { q with bankAct := !q.bankAct, switches := q.switches + 1 }.save) := by
  refine setsPart_done (body := _) rfl hacc rfl rfl _ fun u hu => ?_
  have hvalid' : u.bankValid h.part (!(s.part h.part).bankAct) = true := by rw [← hvalid, hu.1]; rfl
  dsimp only
  rw [hu.part, hstaged]
  dsimp only
  rw [if_pos hvalid']

/-- PLAN_BANK_SWITCH of an ARMED or RUNNING partition lands a record. -/
theorem planBankSwitch_lands (hacc : AcceptedFor s h 0x0307) (hactive : (s.part h.part).st = .armed ∨ (s.part h.part).st = .running) :
    ∃ t, exec (.planBankSwitch h) s = .next t ∧ NewRecord s t h 0x0307 6 none 0 [] := by
  refine State.onPartition_lands (body := _) rfl hacc rfl rfl fun u hu => ?_
  dsimp only
  rw [hu.part]
  rcases hactive with hst | hst <;> rw [hst]

/-! ### Resuming (R418, R486) -/

/-- Between `s` and `t` the discards and the rings stayed. -/
def Hears (s t : State) : Prop := t.mute = s.mute ∧ t.rings = s.rings

theorem Hears.trans {s t u : State} (hst : Hears s t) (htu : Hears t u) : Hears s u := ⟨htu.1.trans hst.1, htu.2.trans hst.2⟩

theorem ImageMoved.hears {s t : State} {p : Nat} (h : ImageMoved s t p) : Hears s t :=
  ⟨(congrArg State.mute h.frame :), (congrArg State.rings h.frame :)⟩

theorem PoweredUp.hears {s t : State} (h : PoweredUp s t) : Hears s t :=
  ⟨(congrArg State.mute h.frame :), (congrArg State.rings h.frame :)⟩

theorem hears_foldl {α : Type} {f : State → α → State} (hf : ∀ s a, Hears s (f s a)) (l : List α) (s : State) : Hears s (l.foldl f s) :=
  List.foldlRecOn l f (motive := fun t => Hears s t) ⟨rfl, rfl⟩ fun _ ht a _ => ht.trans (hf _ a)

theorem hears_untrip (s : State) (p : Nat) : Hears s (s.untrip p) := by
  have hturns := fun (l : List Nat) (u : State) => hears_foldl (f := fun s d => if s.wantsDom d then s.domUp d else s)
    (fun s d => by split; exacts [(s.domUp_poweredUp d).1.hears, ⟨rfl, rfl⟩]) l u
  unfold State.untrip
  dsimp only
  obtain ⟨hmute, hrings⟩ := hturns (allDoms.filter (fun d => s.pwr.tripped.getLsbD d && s.usesDom p d && s.domCool d)) { s with
    pwr := { s.pwr with tripped := s.pwr.tripped &&&
      ~~~(domMask (allDoms.filter (fun d => s.pwr.tripped.getLsbD d && s.usesDom p d && s.domCool d))) } }
  exact ⟨hmute, hrings⟩

theorem hears_reinstall (s : State) (p x : Nat) (graft : BitVec 16) : Hears s (s.reinstall p x graft) :=
  (hears_untrip s p).trans (((((placed_clearBudget _ p).trans ((State.unplace_cellsOnly _ p).placed p)).trans (placed_onPart ..)).trans
    ((State.place_cellsOnly _ p _).placed p)).trans (placed_sendMap _ p false)).hears

theorem hears_restage (s : State) (p : Nat) (graft : BitVec 16) : Hears s (s.restage p graft).1 := by
  unfold State.restage
  split
  · exact ⟨rfl, rfl⟩
  · dsimp only
    split
    · exact (placed_onPart s p _).hears.trans (hears_reinstall ..)
    · dsimp only
      exact ((placed_onPart s p _).trans (placed_onPart ..)).hears

/-- PLAN_RESUME of a FAULTED or STOPPED partition restages and arms it, or answers REJECTED. -/
theorem planResume_restages {mark : Nat} (hacc : AcceptedFor s h 0x0308) (hst : (s.part h.part).st = .faulted ∨ (s.part h.part).st = .stopped)
    (hjob : (s.part h.part).jb.jstate = .none)
    (hzero : (s.part h.part).zeroising ((s.part h.part).touches ((s.part h.part).base ++ (s.part h.part).variants)) = false)
    (hhub : s.hubOn = true) (hmark : s.markOk mark = true) {v : Verdict}
    (hv : ((ready s h 0x0308).restage h.part (s.part h.part).graftSel).2 = v) :
    ∃ t, exec (.planResume h mark) s = .next t ∧
      (v.check = 0 → Answered t h 0x0308 0 [] ∧ (t.part h.part).st = .armed ∧ (t.part h.part).jobSize = 1 ∧
        (t.part h.part).jb.startMark = some mark ∧ (t.part h.part).jb.resume = some (s.part h.part).resumePoint) ∧
      (v.check ≠ 0 → Answered t h 0x0308 0x08 []) := by
  have hrun : exec (.planResume h mark) s = _ := State.onPartition_ready hacc rfl rfl _
  have hent := ready_entered hacc.1
  have hpart := hent.part
  have hanswered := fun t : State => answered_ready (t := t) hacc.1
  have hhub' : (ready s h 0x0308).hubOn = true := by rw [← hhub, hent.1]; rfl
  have hmark' : (ready s h 0x0308).markOk mark = true := by rw [← hmark, State.markOk, State.markOk, hent.hallNow]
  generalize ready s h 0x0308 = u at hrun hv hpart hanswered hhub' hmark'
  rw [if_neg (by rw [hpart]; simp [hst, hjob, hzero, hhub']), if_neg (by simp [hmark']), hpart] at hrun
  dsimp only at hrun
  rw [hv] at hrun
  have hheard := hears_restage u h.part (s.part h.part).graftSel
  generalize (u.restage h.part (s.part h.part).graftSel).1 = w at hrun hheard
  obtain ⟨hmute, hrings⟩ := hheard
  by_cases hcheck : v.check = 0
  · rw [if_pos hcheck] at hrun
    have harmed := w.onPart_part_same h.part (fun y =>
      { y with st := .armed, jobSize := 1, jb := { y.jb with startMark := some mark, resume := some (s.part h.part).resumePoint } })
    have hkept : Hears w (w.onPart h.part (fun y =>
      { y with st := .armed, jobSize := 1, jb := { y.jb with startMark := some mark, resume := some (s.part h.part).resumePoint } })) := ⟨rfl, rfl⟩
    generalize w.onPart h.part _ = z at hrun harmed hkept
    change _ = ok (z.post h 0x0308 0 []) at hrun
    refine ⟨_, hrun, fun _ => ⟨hanswered _ (hkept.1.trans hmute) (hkept.2.trans hrings) _ _, ?_⟩, fun hbad => absurd hcheck hbad⟩
    rw [State.post_part, harmed]
    exact ⟨rfl, rfl, rfl, rfl⟩
  · rw [if_neg hcheck] at hrun
    change _ = ok (w.post h 0x0308 0x08 []) at hrun
    exact ⟨_, hrun, fun hgood => absurd hgood hcheck, fun _ => hanswered _ hmute hrings _ _⟩

end

/-- Settles O52: each command's own part passes its guards on `ready s h op`, whose partitions are those of `s`, and takes the branch that
the statement names. -/
theorem planCommands : Obligations.PlanCommands := by
  unfold Obligations.PlanCommands
  refine ⟨fun h src len x given s hacc hsrc hbinding hbusy hlength hzero => planLoad_answers hacc hsrc rfl hbinding hbusy hlength hzero rfl,
    fun h src len x given s hacc hsrc hbinding hlength => planCheck_answers hacc hsrc rfl hbinding hlength rfl,
    fun h src len given s hacc hsrc hidle hstaged hlength => planSectionLoad_loads hacc hsrc rfl rfl hidle hstaged hlength rfl,
    fun h s hacc hbusy => planUnload_empties hacc hbusy,
    fun h mark s hacc hstaged hjob hhub hten hfar => planStart_arms hacc hstaged hjob hhub (decide_eq_true ⟨hten, hfar⟩),
    fun h s hacc hjob => ⟨planStop_disarms hacc hjob, planStop_lands hacc hjob⟩,
    fun h s hacc => ⟨fun hstaged hvalid => ?_, planBankSwitch_lands hacc⟩,
    fun h mark s hacc hst hjob hzero hhub hten hfar => planResume_restages hacc hst hjob hzero hhub (decide_eq_true ⟨hten, hfar⟩) rfl⟩
  obtain ⟨t, hexec, hunits, hans, hown, hother⟩ := planBankSwitch_switches hacc hstaged hvalid
  refine ⟨t, hexec, hans, ?_, ?_, ?_, hunits, hother⟩ <;> rw [hown]
  · rfl
  · rfl
  · exact hstaged

end Sys2Proof.Machine
end

