-- ==== Sys2Proof/Proofs/SessionsAndIdentity.lean ====
section
/-! PROOF. Sessions, identity and the audit log (R427, R432 to R436, R440 to R443, R463): O54. -/

namespace Sys2Proof.Machine
open Sys2Proof.Stmt

/-! ### Completions -/

section
variable {s : State} {h : Hdr} {op : Nat}

/-- What is in the completions stays there when an interrupt is signalled. -/
theorem mem_out_signal (s : State) (fn k v : Nat) {m : Sent} (hm : m ∈ s.out) : m ∈ (s.signal fn k v).out := (sentOn_signal s fn k v).mem m hm

/-- What is written to a submission ring leaves the completion ring of the set. -/
theorem setRing_completion (s : State) (fn k : Nat) (r : Ring) : (s.setRing fn k 0 r).ring fn k 1 = s.ring fn k 1 := by
  have hkey : ringKey fn k 1 ≠ ringKey fn k 0 := by unfold ringKey; omega
  unfold State.ring State.setRing
  rw [look_put_other, if_neg hkey]

/-- A completion under any key is written where the command's completion is not discarded and its ring is enabled. -/
theorem State.replyTo_answered (hlisten : Listening s h op) (key : Option Hash) (st : Nat) (res : List (Nat × Nat)) :
    Answered (s.replyTo key h op st res) h op st res := by
  obtain ⟨hmute, hring⟩ := hlisten
  have hloud : s.mute.contains (h, op) = false := by simpa using hmute
  unfold State.replyTo
  dsimp only
  rw [hloud, if_neg Bool.false_ne_true]
  split
  · exact ⟨_, _, _, List.mem_append_right _ List.mem_cons_self⟩
  next hfn =>
    have henabled : ∀ u : State, u.rings = s.rings → ¬(!(u.ring h.fn h.set 1).enable) = true := fun u hu => by
      rw [State.ring_congr hu, hring.resolve_left hfn]
      decide
    rw [setRing_completion]
    split
    next hoff => exact absurd hoff (henabled _ rfl)
    · exact ⟨_, _, _, mem_out_signal _ _ _ _ (List.mem_append_right _ List.mem_cons_self)⟩

theorem replyTo_sessions (s : State) (key : Option Hash) (h : Hdr) (op st : Nat) (res : List (Nat × Nat)) :
    (s.replyTo key h op st res).sessions = s.sessions ∧ (s.replyTo key h op st res).keys = s.keys ∧ PlanKept s (s.replyTo key h op st res) := by
  have hframe := s.replyTo_frame key h op st res
  exact ⟨(congrArg State.sessions hframe :), (congrArg State.keys hframe :), (congrArg State.parts hframe :), (congrArg State.cells hframe :),
    (congrArg State.blocks hframe :), (congrArg State.stks hframe :), (congrArg State.cold hframe :), (congrArg State.raised hframe :)⟩

/-! ### Session opening (R434, R436, R444) -/

/-- A session opening that fails leaves the sessions and the keys, and is answered. -/
theorem failOpen_answers (hlisten : Listening s h op) (st : Nat) : (s.failOpen h op st).sessions = s.sessions ∧
    (s.failOpen h op st).keys = s.keys ∧ PlanKept s (s.failOpen h op st) ∧ Answered (s.failOpen h op st) h op st [] := by
  have hkept : ∀ u : State, u.sessions = s.sessions → u.keys = s.keys → PlanKept s u → u.mute = s.mute → u.rings = s.rings →
      (u.reply h op st []).sessions = s.sessions ∧ (u.reply h op st []).keys = s.keys ∧ PlanKept s (u.reply h op st []) ∧
        Answered (u.reply h op st []) h op st [] := by
    intro u hsessions hkeys hplan hmute hrings
    obtain ⟨hsessions', hkeys', hplan'⟩ := replyTo_sessions u (u.complKey h op) h op st []
    refine ⟨hsessions'.trans hsessions, hkeys'.trans hkeys, planKept_trans hplan hplan', State.replyTo_answered ⟨?_, ?_⟩ _ st []⟩
    · rw [hmute]; exact hlisten.1
    · rw [State.ring_congr hrings]; exact hlisten.2
  unfold State.failOpen
  dsimp only
  generalize (if s.openSec.1 = s.hallNow / 10 ^ 9 then s.openSec.2 else 0) = n
  split
  · exact hkept _ (State.auditAdd_sessions ..) (State.auditAdd_keys ..) ⟨State.auditAdd_parts .., State.auditAdd_cells .., State.auditAdd_blocks ..,
      State.auditAdd_stks .., State.auditAdd_cold .., State.auditAdd_raised ..⟩ (State.auditAdd_mute ..) (State.auditAdd_rings ..)
  · exact hkept _ rfl rfl ⟨rfl, rfl, rfl, rfl, rfl, rfl⟩ rfl rfl

/-- A session opening that succeeds is answered. -/
theorem postTo_answers (hlisten : Listening s h op) (key : Option Hash) (st : Nat) (res : List (Nat × Nat)) :
    (s.postTo key h op st res).sessions = s.sessions ∧ (s.postTo key h op st res).keys = s.keys ∧ PlanKept s (s.postTo key h op st res) ∧
      Answered (s.postTo key h op st res) h op st res := by
  have hframe := s.postTo_frame key h op st res
  refine ⟨(congrArg State.sessions hframe :), (congrArg State.keys hframe :), ⟨(congrArg State.parts hframe :), (congrArg State.cells hframe :),
    (congrArg State.blocks hframe :), (congrArg State.stks hframe :), (congrArg State.cold hframe :), (congrArg State.raised hframe :)⟩, ?_⟩
  unfold State.postTo
  refine State.replyTo_answered ⟨?_, ?_⟩ key st res
  · rw [State.auditAdd_mute]; exact hlisten.1
  · rw [State.ring_congr (State.auditAdd_rings ..)]; exact hlisten.2

theorem ready_sessions_of_sessionless (hless : sessionless op = true) (hacc : Accepted s h op) : (ready s h op).sessions = s.sessions := by
  obtain ⟨-, -, henc, hdma, -, -, -⟩ := hacc
  have hbegin : (s.begin h op).sessions = s.sessions := by rw [s.begin_frame h op]
  unfold ready State.accepts
  simp only [hless, if_true, Bool.false_eq_true, if_false, henc, hdma, Bool.not_true, Bool.or_false, Bool.false_and]
  exact hbegin

/-- An accepted command of session opening runs its own part on `ready s h op`. -/
theorem State.openCommand_ready (hless : sessionless op = true) (hacc : Accepted s h op) {enc : Bool} (henc : enc = true) (sid : Nat)
    (body : State → Did) : s.openCommand h op sid enc body =
      match body (ready s h op) with
      | (t, none) => .next t
      | (t, some (0, res)) => .next (t.postTo (((t.session sid).filter (fun x => x.proved)).map (fun x => x.key)) h op 0 res)
      | (t, some (st, _)) => .next (t.failOpen h op st) := by
  obtain ⟨hserves, hwaits, hencOk, hdma, hres, -, hses⟩ := hacc
  have hses' : sessionless op = true ∨ ∃ x, (s.begin h op).session h.sid = some x ∧ x.proved = true ∧ h.tag = cmdTag x.key h op ∧
      x.counter < h.counter ∧ (s.begin h op).denied h op x = false := .inl hless
  obtain ⟨t, ht, -, -⟩ := (s.begin h op).accepts_passes h op hencOk hdma hses'
  unfold State.openCommand
  rw [hserves, hwaits, henc, if_neg (by decide)]
  have hready : ready s h op = t := by rw [ready, ht]
  rw [ht, hready]
  dsimp only
  have hfinal : ∀ res, finalStatus h 0 res = 0 := fun res => by simp [finalStatus, hres]
  simp only [hfinal]
  rfl

end

/-! ### What the sessions are read from -/

section
variable {s u : State}

theorem session_congr (h : u.sessions = s.sessions) (k : Nat) : u.session k = s.session k := by
  unfold State.session
  rw [h]

theorem freeSid_congr (h : u.sessions = s.sessions) : u.freeSid = s.freeSid := by
  unfold State.freeSid
  simp only [session_congr h]

theorem sessionCert_congr (h : u.fuses = s.fuses) : u.sessionCert = s.sessionCert := by
  unfold State.sessionCert State.sessionCertNo
  rw [h]

theorem sessionKey_congr (h : u.fuses = s.fuses) (sid : Nat) (x : Session) (c : Nat) (v : List Nat) :
    u.sessionKey sid x c v = s.sessionKey sid x c v := by
  unfold State.sessionKey
  rw [h]

theorem passProof_congr (h : u.keys = s.keys) (sid : Nat) (x : Session) (c : Nat) : u.passProof sid x c = s.passProof sid x c := by
  unfold State.passProof
  rw [h]

theorem roleEntry_congr (h : u.keys = s.keys) (r : Role) (kh : Hash) (pf : ProveIn) : u.roleEntry r kh pf = s.roleEntry r kh pf := by
  unfold State.roleEntry
  rw [h]

theorem pathOk_congr (h : u.parts = s.parts) (fn : Nat) (r : Role) (e : Nat) : u.pathOk fn r e = s.pathOk fn r e := by
  unfold State.pathOk State.exists? State.part
  rw [h]

end

/-- What the own part of a command of session opening finds: sessions, keys, fuses, clocks and the rest as the command found them. -/
structure Opening (s u : State) (h : Hdr) (op : Nat) : Prop where
  entered : Entered s u h op
  sessions : u.sessions = s.sessions
  keys : u.keys = s.keys
  fuses : u.fuses = s.fuses
  freeCtr : u.freeCtr = s.freeCtr
  wallNs : u.wallNs = s.wallNs

section
variable {s : State} {h : Hdr} {op : Nat}

theorem opening_ready (hless : sessionless op = true) (hacc : Accepted s h op) : Opening s (ready s h op) h op := by
  have hent := ready_entered hacc
  have hframe := hent.1
  exact ⟨hent, ready_sessions_of_sessionless hless hacc, (congrArg State.keys hframe :), (congrArg State.fuses hframe :),
    (congrArg State.freeCtr hframe :), hent.wallNs⟩

/-- A session opening that fails in a state whose keys and units are those of `u`. -/
theorem Opening.failed {u w : State} (hu : Opening s u h op) (hplan : PlanKept u w) (hears : Hears u w) (st : Nat) :
    PlanKept s (w.failOpen h op st) ∧ (w.failOpen h op st).sessions = w.sessions ∧ (w.failOpen h op st).keys = w.keys ∧
      Answered (w.failOpen h op st) h op st [] := by
  obtain ⟨hmute, hring⟩ := hu.entered.2
  obtain ⟨hmute', hrings'⟩ := hears
  obtain ⟨hsessions, hkeys, hkept, hans⟩ := failOpen_answers (s := w) (h := h) (op := op)
    ⟨by rw [hmute']; exact hmute, by rw [State.ring_congr hrings']; exact hring⟩ st
  exact ⟨planKept_trans (planKept_trans hu.entered.planKept hplan) hkept, hsessions, hkeys, hans⟩

/-- A session opening that succeeds. -/
theorem Opening.done {u w : State} (hu : Opening s u h op) (hplan : PlanKept u w) (hears : Hears u w) (key : Option Hash)
    (res : List (Nat × Nat)) : PlanKept s (w.postTo key h op 0 res) ∧ (w.postTo key h op 0 res).sessions = w.sessions ∧
      (w.postTo key h op 0 res).keys = w.keys ∧ Answered (w.postTo key h op 0 res) h op 0 res := by
  obtain ⟨hmute, hring⟩ := hu.entered.2
  obtain ⟨hmute', hrings'⟩ := hears
  obtain ⟨hsessions, hkeys, hkept, hans⟩ := postTo_answers (s := w) (h := h) (op := op)
    ⟨by rw [hmute']; exact hmute, by rw [State.ring_congr hrings']; exact hring⟩ key 0 res
  exact ⟨planKept_trans (planKept_trans hu.entered.planKept hplan) hkept, hsessions, hkeys, hans⟩

/-! ### The clauses of O54 on sessions -/

/-- The module with an unproved session `x` opened under `sid`. -/
def State.withSession (s : State) (sid : Nat) (x : Session) : State :=
  { s with sessions := put none s.sessions sid (some x), freeCtr := s.freeCtr + 1 }

theorem withSession_session (s : State) (sid : Nat) (x : Session) (k : Nat) :
    (s.withSession sid x).session k = if k = sid then some x else s.session k := look_put none s.sessions sid (some x) k

section
variable {u : State} (hu : Opening s u h op)
include hu

/-- A session opens under the smallest free SID. -/
theorem Opening.opens (x : Session) (key : Option Hash) (res : List (Nat × Nat)) :
    PlanKept s ((u.withSession s.freeSid x).postTo key h op 0 res) ∧
      OtherSessions s ((u.withSession s.freeSid x).postTo key h op 0 res) h s.freeSid ∧
      ((u.withSession s.freeSid x).postTo key h op 0 res).session s.freeSid = some x ∧
      Answered ((u.withSession s.freeSid x).postTo key h op 0 res) h op 0 res := by
  obtain ⟨hplan, hsessions, -, hans⟩ := hu.done (w := u.withSession s.freeSid x) ⟨rfl, rfl, rfl, rfl, rfl, rfl⟩ ⟨rfl, rfl⟩ key res
  refine ⟨hplan, fun k hk _ => ?_, ?_, hans⟩
  · rw [session_congr hsessions, withSession_session, if_neg hk, session_congr hu.sessions]
  · rw [session_congr hsessions, withSession_session, if_pos rfl]

/-- A session is proved: `w` is the state in which it is, with sessions and units as `u` has them. -/
theorem Opening.proves {w : State} (hsessions : w.sessions = u.sessions) (hplan : PlanKept u w) (hears : Hears u w) (sid : Nat) (x : Session)
    (key : Option Hash) : PlanKept s ((w.opened sid x).postTo key h op 0 []) ∧
      OtherSessions s ((w.opened sid x).postTo key h op 0 []) h sid ∧ ((w.opened sid x).postTo key h op 0 []).session sid = some x ∧
      ((w.opened sid x).postTo key h op 0 []).keys = w.keys ∧ Answered ((w.opened sid x).postTo key h op 0 []) h op 0 [] := by
  have hopened : (w.opened sid x).sessions = put none w.sessions sid (some x) := State.auditAdd_sessions ..
  have hkeys : (w.opened sid x).keys = w.keys := State.auditAdd_keys ..
  have hkept : PlanKept w (w.opened sid x) := ⟨State.auditAdd_parts .., State.auditAdd_cells .., State.auditAdd_blocks .., State.auditAdd_stks ..,
    State.auditAdd_cold .., State.auditAdd_raised ..⟩
  have hlisten : Hears w (w.opened sid x) := ⟨State.auditAdd_mute .., State.auditAdd_rings ..⟩
  obtain ⟨hplan', hsessions', hkeys', hans⟩ := hu.done (planKept_trans hplan hkept) (hears.trans hlisten) key []
  have hsession : ∀ k, ((w.opened sid x).postTo key h op 0 []).session k = if k = sid then some x else s.session k := fun k => by
    rw [session_congr hsessions', State.session, hopened, hsessions, hu.sessions]
    exact look_put none s.sessions sid (some x) k
  exact ⟨hplan', fun k hk _ => by rw [hsession, if_neg hk], by rw [hsession, if_pos rfl], hkeys'.trans hkeys, hans⟩

/-- A session that fails to be proved is freed. -/
theorem Opening.frees {sid : Nat} {x : Session} (hx : s.session sid = some x) (hproved : x.proved = false) (st : Nat) :
    PlanKept s ((u.freeUnproved sid).failOpen h op st) ∧ OtherSessions s ((u.freeUnproved sid).failOpen h op st) h sid ∧
      ((u.freeUnproved sid).failOpen h op st).session sid = none ∧ Answered ((u.freeUnproved sid).failOpen h op st) h op st [] := by
  have hfree : u.freeUnproved sid = { u with sessions := put none u.sessions sid none } := by
    unfold State.freeUnproved
    rw [session_congr hu.sessions, hx]
    exact if_neg (by simp [hproved])
  rw [hfree]
  obtain ⟨hplan, hsessions, -, hans⟩ := hu.failed (w := { u with sessions := put none u.sessions sid none })
    ⟨rfl, rfl, rfl, rfl, rfl, rfl⟩ ⟨rfl, rfl⟩ st
  have hsession : ∀ k, (({ u with sessions := put none u.sessions sid none } : State).failOpen h op st).session k =
      if k = sid then none else s.session k := fun k => by
    rw [session_congr hsessions, State.session, ← session_congr hu.sessions]
    exact look_put none u.sessions sid none k
  exact ⟨hplan, fun k hk _ => by rw [hsession, if_neg hk], by rw [hsession, if_pos rfl], hans⟩

end

/-- SESSION_OPEN on an allowed path. -/
theorem exec_sessionOpen {role : Nat} {kh : Hash} (hacc : Accepted s h 0x0101) (hlow : 1 ≤ role) (hhigh : role ≤ 3)
    (hpath : h.fn = 0 ∨ role ≠ 1 ∧ h.fn = 17) : ∃ u key, Opening s u h 0x0101 ∧ exec (.sessionOpen h role kh) s =
      if 32 ≤ u.sessions.length then .next (u.failOpen h 0x0101 0x05)
      else .next ((u.withSession u.freeSid { role := roleOf role, kh, nonce := Config.secret u.freeCtr, openAt := u.wallNs }).postTo
        key h 0x0101 0 ((2, u.freeSid) :: (32, Config.secret u.freeCtr) :: u.sessionCert)) := by
  have hrun : exec (.sessionOpen h role kh) s = _ := State.openCommand_ready rfl hacc (by simp [hlow, hhigh]) 0 _
  have hopen := opening_ready rfl hacc
  generalize ready s h 0x0101 = u at hrun hopen
  have hallowed : (if roleOf role = .operator then decide (h.fn = 0) || (decide (1 ≤ h.fn ∧ h.fn ≤ 16) && u.exists? (h.fn - 1) &&
      decide (look 0 u.keys.operators (u.part (h.fn - 1)).sx.opEntry = kh)) else u.pathOk h.fn (roleOf role) 0) = true := by
    obtain rfl | rfl | rfl : role = 1 ∨ role = 2 ∨ role = 3 := by omega
    · have hfn : h.fn = 0 := hpath.elim id fun h => absurd rfl h.1
      simp [roleOf, hfn]
    · simpa [roleOf, State.pathOk] using hpath
    · simpa [roleOf, State.pathOk] using hpath
  dsimp only at hrun
  rw [hallowed, Bool.not_true, if_neg Bool.false_ne_true] at hrun
  by_cases hfull : 32 ≤ u.sessions.length
  · rw [if_pos hfull] at hrun
    exact ⟨u, none, hopen, Eq.trans hrun (if_pos hfull).symm⟩
  · rw [if_neg hfull] at hrun
    exact ⟨u, _, hopen, Eq.trans hrun (if_neg hfull).symm⟩

theorem sessionOpen_opens {role : Nat} {kh : Hash} (hacc : Accepted s h 0x0101) (hlow : 1 ≤ role) (hhigh : role ≤ 3)
    (hpath : h.fn = 0 ∨ role ≠ 1 ∧ h.fn = 17) : ∃ t, exec (.sessionOpen h role kh) s = .next t ∧ PlanKept s t ∧
      (32 ≤ s.sessions.length → Answered t h 0x0101 0x05 [] ∧ t.sessions = s.sessions) ∧
      (s.sessions.length < 32 → OtherSessions s t h s.freeSid ∧
        t.session s.freeSid = some { role := roleOf role, kh, nonce := Config.secret s.freeCtr, openAt := s.wallNs } ∧
        Answered t h 0x0101 0 ((2, s.freeSid) :: (32, Config.secret s.freeCtr) :: s.sessionCert)) := by
  obtain ⟨u, key, hu, hexec⟩ := exec_sessionOpen (kh := kh) hacc hlow hhigh hpath
  by_cases hfull : 32 ≤ s.sessions.length
  · rw [if_pos (by rw [hu.sessions]; exact hfull)] at hexec
    obtain ⟨hplan, hsessions, -, hans⟩ := hu.failed (w := u) ⟨rfl, rfl, rfl, rfl, rfl, rfl⟩ ⟨rfl, rfl⟩ 0x05
    exact ⟨_, hexec, hplan, fun _ => ⟨hans, hsessions.trans hu.sessions⟩, fun h => absurd hfull (Nat.not_le.2 h)⟩
  · rw [if_neg (by rw [hu.sessions]; exact hfull), freeSid_congr hu.sessions, hu.freeCtr, hu.wallNs, sessionCert_congr hu.fuses] at hexec
    obtain ⟨hplan, hother, hnew, hans⟩ := hu.opens _ key _
    exact ⟨_, hexec, hplan, fun h => absurd h hfull, fun _ => ⟨hother, hnew, hans⟩⟩

/-- PASS_OPEN on the management connector. -/
theorem passOpen_opens (hacc : Accepted s h 0x0103) (hfn : h.fn = 17) (hset : s.keys.passSet = true) (hlock : s.keys.passLock = false)
    (hroom : s.sessions.length < 32) : ∃ t rest, exec (.passOpen h) s = .next t ∧ PlanKept s t ∧
      t.session s.freeSid = some { role := .installer, kh := 0, pass := true, nonce := Config.secret s.freeCtr, openAt := s.wallNs } ∧
      Answered t h 0x0103 0 ((2, s.freeSid) :: rest) := by
  have hrun : exec (.passOpen h) s = _ := State.openCommand_ready rfl hacc rfl 0 _
  have hu := opening_ready rfl hacc
  generalize ready s h 0x0103 = u at hrun hu
  rw [if_neg (by rw [hu.keys]; simp [hfn, hset]), if_neg (by rw [hu.keys, hu.sessions]; simp [hlock, hroom])] at hrun
  obtain ⟨key, hexec⟩ : ∃ key, exec (.passOpen h) s = .next ((u.withSession u.freeSid
      { role := .installer, kh := 0, pass := true, nonce := Config.secret u.freeCtr, openAt := u.wallNs }).postTo key h 0x0103 0
        ((2, u.freeSid) :: (32, Config.secret u.freeCtr) :: (16, u.keys.salt) :: u.sessionCert)) := ⟨_, hrun⟩
  rw [freeSid_congr hu.sessions, hu.freeCtr, hu.wallNs] at hexec
  obtain ⟨hplan, -, hnew, hans⟩ := hu.opens _ key _
  exact ⟨_, _, hexec, hplan, hnew, hans⟩

/-- SESSION_PROVE of an unproved session. -/
theorem sessionProve_proves {sid : Nat} {pf : ProveIn} {x : Session} (hacc : Accepted s h 0x0102) (hsid : sid < 65536)
    (hx : s.session sid = some x) (hproved : x.proved = false) (hpass : x.pass = false) :
    ∃ t, exec (.sessionProve h sid pf) s = .next t ∧ PlanKept s t ∧ OtherSessions s t h sid ∧
      (∀ e, s.roleEntry x.role x.kh pf = some e → s.wallNs ≤ x.openAt + 10 ^ 10 → Config.sha3 (leBytes 1312 pf.pk) = x.kh →
        pf.sigOk = true → pf.capsOk = true →
        t.session sid = some { x with proved := true, entry := e, lastAt := s.wallNs, key := s.sessionKey sid x pf.c [] } ∧
        Answered t h 0x0102 0 []) ∧
      (s.roleEntry x.role x.kh pf = none ∨ x.openAt + 10 ^ 10 < s.wallNs ∨ Config.sha3 (leBytes 1312 pf.pk) ≠ x.kh ∨ pf.sigOk = false →
        t.session sid = none ∧ Answered t h 0x0102 0x01 []) := by
  have hrun : exec (.sessionProve h sid pf) s = _ := State.openCommand_ready rfl hacc (by simp [hsid]) sid _
  have hu := opening_ready rfl hacc
  generalize ready s h 0x0102 = u at hrun hu
  rw [session_congr hu.sessions, hx] at hrun
  dsimp only at hrun
  rw [roleEntry_congr hu.keys] at hrun
  have hfreed := hu.frees hx hproved
  cases hentry : s.roleEntry x.role x.kh pf with
  | none =>
    rw [hentry] at hrun
    obtain ⟨hplan, hother, hgone, hans⟩ := hfreed 0x01
    exact ⟨_, hrun, hplan, hother, fun e he => absurd he (by simp), fun _ => ⟨hgone, hans⟩⟩
  | some e =>
    rw [hentry] at hrun
    dsimp only at hrun
    rw [hu.wallNs] at hrun
    by_cases hbad : (x.proved || x.pass || decide (x.openAt + 10 ^ 10 < s.wallNs) || decide (Config.sha3 (leBytes 1312 pf.pk) ≠ x.kh) || !pf.sigOk || !pf.capsOk) = true
    · rw [if_pos hbad] at hrun
      obtain ⟨hplan, hother, hgone, hans⟩ := hfreed 0x01
      refine ⟨_, hrun, hplan, hother, fun e he hin hkey hsig hcaps => ?_, fun _ => ⟨hgone, hans⟩⟩
      rw [hproved, hpass, decide_eq_false (Nat.not_lt.2 hin), decide_eq_false (not_not.2 hkey), hsig, hcaps] at hbad
      exact absurd hbad (by decide)
    · rw [if_neg hbad, sessionKey_congr hu.fuses] at hrun
      obtain ⟨key, hexec⟩ : ∃ key, exec (.sessionProve h sid pf) s = .next ((u.opened sid
        { x with proved := true, entry := e, lastAt := s.wallNs, key := s.sessionKey sid x pf.c [] }).postTo key h 0x0102 0 []) := ⟨_, hrun⟩
      obtain ⟨hplan, hother, hnew, -, hans⟩ := hu.proves rfl ⟨rfl, rfl, rfl, rfl, rfl, rfl⟩ ⟨rfl, rfl⟩ sid
        { x with proved := true, entry := e, lastAt := s.wallNs, key := s.sessionKey sid x pf.c [] } key
      refine ⟨_, hexec, hplan, hother, fun e' he _ _ _ _ => ⟨?_, hans⟩, fun hfail => ?_⟩
      · rw [hnew, Option.some.inj he]
      · refine absurd ?_ hbad
        rcases hfail with hnone | hlate | hkey | hsig
        · exact absurd hnone (by simp)
        · rw [decide_eq_true hlate, Bool.or_true, Bool.true_or, Bool.true_or, Bool.true_or]
        · simp [hkey]
        · simp [hsig]

/-- The module after a failed passphrase proof. -/
def State.passFailed (s : State) : State := { s with keys := { s.keys with
  passFails := s.keys.passFails + 1, passLock := s.keys.passLock || decide (5 ≤ s.keys.passFails + 1)
  passUntil := if 5 ≤ s.keys.passFails + 1 then s.wallNs + passLockNs (s.keys.passFails + 1) else s.keys.passUntil } }

/-- A proof of the passphrase that fails frees its session and counts. -/
theorem Opening.failsPass {u : State} {sid : Nat} {x : Session} (hu : Opening s u h op) (hx : s.session sid = some x)
    (hproved : x.proved = false) (st : Nat) : PlanKept s ((u.freeUnproved sid).passFailed.failOpen h op st) ∧
      ((u.freeUnproved sid).passFailed.failOpen h op st).session sid = none ∧
      ((u.freeUnproved sid).passFailed.failOpen h op st).keys = s.passFailed.keys ∧
      Answered ((u.freeUnproved sid).passFailed.failOpen h op st) h op st [] := by
  have hfree : u.freeUnproved sid = { u with sessions := put none u.sessions sid none } := by
    unfold State.freeUnproved
    rw [session_congr hu.sessions, hx]
    exact if_neg (by simp [hproved])
  have hwall : ({ u with sessions := put none u.sessions sid none } : State).wallNs = s.wallNs := by
    rw [← hu.wallNs]
    simp only [State.wallNs, State.wallNow]
  have hkeys : ({ u with sessions := put none u.sessions sid none } : State).passFailed.keys = s.passFailed.keys := by
    unfold State.passFailed
    dsimp only
    rw [hwall, hu.keys]
  rw [hfree]
  obtain ⟨hplan, hsessions, hkeys', hans⟩ := hu.failed (w := ({ u with sessions := put none u.sessions sid none } : State).passFailed)
    ⟨rfl, rfl, rfl, rfl, rfl, rfl⟩ ⟨rfl, rfl⟩ st
  refine ⟨hplan, ?_, hkeys'.trans hkeys, hans⟩
  rw [session_congr hsessions]
  exact look_put_same none u.sessions sid none

/-- PASS_PROVE of an unproved passphrase session. -/
theorem passProve_proves {sid : Nat} {pf : ProveIn} {x : Session} (hacc : Accepted s h 0x0104) (hsid : sid < 65536) (hfn : h.fn = 17)
    (hx : s.session sid = some x) (hproved : x.proved = false) (hpass : x.pass = true) :
    ∃ t, exec (.passProve h sid pf) s = .next t ∧ PlanKept s t ∧
      (s.wallNs ≤ x.openAt + 10 ^ 10 → pf.proof = s.passProof sid x pf.c → pf.capsOk = true →
        t.session sid = some { x with proved := true, lastAt := s.wallNs, key := s.sessionKey sid x pf.c (leBytes 32 s.keys.passV.toNat) } ∧
        t.keys.passFails = 0 ∧ Answered t h 0x0104 0 []) ∧
      (pf.proof ≠ s.passProof sid x pf.c → t.session sid = none ∧ t.keys.passFails = s.keys.passFails + 1 ∧
        t.keys.passLock = (s.keys.passLock || decide (5 ≤ s.keys.passFails + 1)) ∧
        (5 ≤ s.keys.passFails + 1 → t.keys.passUntil = s.wallNs + passLockNs (s.keys.passFails + 1)) ∧ Answered t h 0x0104 0x01 []) := by
  have hrun : exec (.passProve h sid pf) s = _ := State.openCommand_ready rfl hacc (by simp [hsid]) sid _
  have hu := opening_ready rfl hacc
  generalize ready s h 0x0104 = u at hrun hu
  rw [if_neg (not_not.2 hfn), session_congr hu.sessions, hx] at hrun
  dsimp only at hrun
  rw [hu.wallNs, passProof_congr hu.keys] at hrun
  by_cases hbad : (x.proved || !x.pass || decide (x.openAt + 10 ^ 10 < s.wallNs) || decide (pf.proof ≠ s.passProof sid x pf.c) || !pf.capsOk) = true
  · rw [if_pos hbad] at hrun
    have hexec : exec (.passProve h sid pf) s = .next ((u.freeUnproved sid).passFailed.failOpen h 0x0104 0x01) := hrun
    obtain ⟨hplan, hgone, hkeys, hans⟩ := hu.failsPass hx hproved 0x01
    refine ⟨_, hexec, hplan, fun hin hproof hcaps => ?_, fun _ => ⟨hgone, ?_, ?_, fun hfive => ?_, hans⟩⟩
    · rw [hproved, hpass, decide_eq_false (Nat.not_lt.2 hin), decide_eq_false (not_not.2 hproof), hcaps] at hbad
      exact absurd hbad (by decide)
    · rw [hkeys]; rfl
    · rw [hkeys]; rfl
    · rw [hkeys]
      exact if_pos hfive
  · rw [if_neg hbad] at hrun
    obtain ⟨key, hexec⟩ : ∃ key, exec (.passProve h sid pf) s = .next ((State.opened { u with keys := { u.keys with passFails := 0 } } sid
        { x with proved := true, lastAt := u.wallNs, key := u.sessionKey sid x pf.c (leBytes 32 u.keys.passV.toNat) }).postTo key h 0x0104 0 []) := by
      rw [hu.wallNs]
      exact ⟨_, hrun⟩
    rw [hu.wallNs, sessionKey_congr hu.fuses] at hexec
    obtain ⟨hplan, -, hnew, hkeys, hans⟩ := hu.proves (w := { u with keys := { u.keys with passFails := 0 } }) rfl
      ⟨rfl, rfl, rfl, rfl, rfl, rfl⟩ ⟨rfl, rfl⟩ sid
      { x with proved := true, lastAt := s.wallNs, key := s.sessionKey sid x pf.c (leBytes 32 u.keys.passV.toNat) } key
    refine ⟨_, hexec, hplan, fun _ _ _ => ⟨?_, by rw [hkeys], hans⟩, fun hproof => ?_⟩
    · rw [hnew, hu.keys]
    · refine absurd ?_ hbad
      rw [decide_eq_true hproof, Bool.or_true, Bool.true_or]

end

/-! ### Sessions that end (R432, R434, R436) -/

section
variable {s : State} {h : Hdr} {op : Nat}

theorem endSession_session (s : State) (sid k : Nat) : (s.endSession sid).session k = if k = sid then none else s.session k := by
  unfold State.endSession
  split
  next hnone =>
    split
    next hk => rw [hk, hnone]
    · rfl
  · rw [session_congr (State.auditAdd_sessions ..)]
    exact look_put none s.sessions sid none k

theorem endSession_planKept (s : State) (sid : Nat) : PlanKept s (s.endSession sid) := by
  rw [s.endSession_frame sid]
  exact ⟨rfl, rfl, rfl, rfl, rfl, rfl⟩

theorem ready_session_ne (hacc : Accepted s h op) {k : Nat} (hk : k ≠ h.sid) : (ready s h op).session k = s.session k := by
  obtain ⟨-, -, henc, hdma, -, -, hses⟩ := hacc
  obtain ⟨u, hu, -, hother, -⟩ := s.ready_frame h op henc hdma hses
  rw [ready, hu, hother k hk]

/-- SESSION_CLOSE answers, and the session ends. -/
theorem sessionClose_ends (hacc : Accepted s h 0x0105) : ∃ t, exec (.sessionClose h) s = .next t ∧ PlanKept s t ∧
    OtherSessions s t h h.sid ∧ t.session h.sid = none ∧ Answered t h 0x0105 0 [] := by
  have hrun : exec (.sessionClose h) s = .next (((ready s h 0x0105).post h 0x0105 0 []).endSession h.sid) := by
    obtain ⟨hserves, hwaits, henc, hdma, -, -, hses⟩ := hacc
    have hses' : sessionless 0x0105 = true ∨ ∃ x, (s.begin h 0x0105).session h.sid = some x ∧ x.proved = true ∧
        h.tag = cmdTag x.key h 0x0105 ∧ x.counter < h.counter ∧ (s.begin h 0x0105).denied h 0x0105 x = false := by
      rw [s.begin_frame h 0x0105]
      exact hses
    obtain ⟨t, ht, -, -⟩ := (s.begin h 0x0105).accepts_passes h 0x0105 henc hdma hses'
    change execSessionClose h s = _
    unfold execSessionClose
    rw [hserves, hwaits, if_neg (by decide), ready, ht]
    rfl
  have hplan := planKept_post (ready_entered hacc).planKept h 0x0105 0 []
  obtain ⟨phase, trunc, tag, hsent⟩ := answered_ready hacc rfl rfl 0 []
  have hout := ((ready s h 0x0105).post h 0x0105 0 []).endSession_frame h.sid
  refine ⟨_, hrun, planKept_trans hplan (endSession_planKept ..), fun k hk _ => ?_, ?_, phase, trunc, tag, ?_⟩
  · rw [endSession_session, if_neg hk, session_congr (State.post_sessions ..), ready_session_ne hacc hk]
  · rw [endSession_session, if_pos rfl]
  · rw [(congrArg State.out hout :)]
    exact hsent

theorem sessionTimeout_ends {sid : Nat} {x : Session} (hx : s.session sid = some x) (hproved : x.proved = true)
    (hlate : x.lastAt + 900 * 10 ^ 9 ≤ s.wallNs) : exec (.sessionTimeout sid) s = .next (s.endSession sid) := by
  change execSessionTimeout sid s = _
  unfold execSessionTimeout
  rw [hx]
  exact if_pos ⟨hproved, hlate⟩

theorem sessionTimeout_waits {sid : Nat} {x : Session} (hx : s.session sid = some x)
    (hlive : x.proved = false ∨ s.wallNs < x.lastAt + 900 * 10 ^ 9) : exec (.sessionTimeout sid) s = .next s := by
  change execSessionTimeout sid s = _
  unfold execSessionTimeout
  rw [hx]
  refine if_neg fun hend => ?_
  rcases hlive with hunproved | hearly
  · exact absurd (hunproved.symm.trans hend.1) (by decide)
  · exact absurd hend.2 (Nat.not_le.2 hearly)

theorem proveWindowExpiry_waits {sid : Nat} {x : Session} (hx : s.session sid = some x)
    (hlive : x.proved = true ∨ s.wallNs ≤ x.openAt + 10 ^ 10) : exec (.proveWindowExpiry sid) s = .next s := by
  change execProveWindowExpiry sid s = _
  unfold execProveWindowExpiry
  rw [hx]
  exact if_pos hlive

theorem proveWindowExpiry_frees {sid : Nat} {x : Session} (hx : s.session sid = some x) (hproved : x.proved = false)
    (hlate : x.openAt + 10 ^ 10 < s.wallNs) : exec (.proveWindowExpiry sid) s = .next { s with sessions := put none s.sessions sid none } := by
  change execProveWindowExpiry sid s = _
  unfold execProveWindowExpiry
  rw [hx]
  exact if_neg (by rw [hproved, not_or]; exact ⟨by decide, Nat.not_le.2 hlate⟩)

end

/-! ### Commands refused (R433, R434, R463) -/

section
variable {s : State} {h : Hdr} {op : Nat}

/-- A command that stages 1 and 2 of R463 end. -/
theorem command_refused {st : Nat} {t : State} {absent enc : Bool} (hserves : s.serves h = true) (hwaits : s.waits h op = false)
    (hends : (s.begin h op).accepts h op absent enc = (t, some st)) (body : State → Did) :
    s.command h op absent enc body = .next (t.post h op st []) := by
  unfold State.command
  rw [hserves, hwaits, if_neg (by decide), hends]
  rfl

theorem refused_answers {t : State} (hlisten : Listening s h op) (hplan : PlanKept (s.begin h op) t) (hears : Hears (s.begin h op) t) (st : Nat) :
    PlanKept s (t.post h op st []) ∧ Answered (t.post h op st []) h op st [] := by
  obtain ⟨hmute, hring⟩ := hlisten
  have hbegin : PlanKept s (s.begin h op) ∧ (s.begin h op).mute = s.mute := by
    rw [s.begin_frame h op]
    exact ⟨⟨rfl, rfl, rfl, rfl, rfl, rfl⟩, rfl⟩
  refine ⟨planKept_post (planKept_trans hbegin.1 hplan) h op st [], State.post_answered t h op st [] ?_ ?_⟩
  · rw [hears.1, hbegin.2]
    exact hmute
  · rw [State.ring_congr hears.2, s.begin_ring]
    exact hring

/-- A command under no session, an unproved one, a wrong tag or a used counter. -/
theorem accepts_badTag (hsession : sessionless op = false)
    (hbad : ∀ x, s.session h.sid = some x → x.proved = false ∨ h.tag ≠ cmdTag x.key h op ∨ h.counter ≤ x.counter) (absent enc : Bool) :
    (s.begin h op).accepts h op absent enc = ((s.begin h op).badTag h.sid, some 0x02) := by
  have hsame : (s.begin h op).session h.sid = s.session h.sid := by rw [s.begin_frame h op]; rfl
  unfold State.accepts
  dsimp only
  rw [hsession, if_neg Bool.false_ne_true, hsame]
  split
  · rfl
  next x hx =>
    refine if_pos ?_
    rcases hbad x hx with h | h | h <;> simp [h]

/-- A command that the session has no right to give. -/
theorem accepts_denied {x : Session} (hsession : sessionless op = false) (hx : s.session h.sid = some x) (hproved : x.proved = true)
    (htag : h.tag = cmdTag x.key h op) (hcounter : x.counter < h.counter) (hdenied : s.denied h op x = true) (absent enc : Bool) :
    ∃ t, (s.begin h op).accepts h op absent enc = (t, some 0x01) ∧ PlanKept (s.begin h op) t ∧ Hears (s.begin h op) t := by
  have hsame : (s.begin h op).session h.sid = s.session h.sid := by rw [s.begin_frame h op]; rfl
  have hparts : (s.begin h op).parts = s.parts := by rw [s.begin_frame h op]
  unfold State.accepts
  dsimp only
  rw [hsession, if_neg Bool.false_ne_true, hsame, hx]
  dsimp only
  rw [if_neg (by simp [hproved, ← htag, hcounter]), if_pos]
  · exact ⟨_, rfl, ⟨rfl, rfl, rfl, rfl, rfl, rfl⟩, rfl, rfl⟩
  · rw [← hdenied]
    unfold State.denied State.pathOk State.exists? State.part
    rw [State.count_parts, hparts]

theorem badTag_kept (s : State) (sid : Nat) : PlanKept s (s.badTag sid) ∧ Hears s (s.badTag sid) := by
  rw [s.badTag_frame sid]
  exact ⟨⟨rfl, rfl, rfl, rfl, rfl, rfl⟩, rfl, rfl⟩

/-- Commands of the statement that need a session run as commands, and need one. -/
theorem sessionCommands_run {op : Nat} {c : Hdr → Instr} (hmem : (op, c) ∈ ([(0x0203, .partDestroy), (0x0205, .zeroiseAll), (0x010D, .keyRotate),
      (0x0304, .planUnload), (0x0306, .planStop), (0x0307, .planBankSwitch), (0x0603, .jobLeave), (0x0607, .detachPrepare)] : List (Nat × (Hdr → Instr)))) :
    sessionless op = false ∧ ∀ h s, ∃ absent enc body, exec (c h) s = s.command h op absent enc body := by
  simp only [List.mem_cons, Prod.mk.injEq, List.not_mem_nil, or_false] at hmem
  rcases hmem with ⟨rfl, rfl⟩ | ⟨rfl, rfl⟩ | ⟨rfl, rfl⟩ | ⟨rfl, rfl⟩ | ⟨rfl, rfl⟩ | ⟨rfl, rfl⟩ | ⟨rfl, rfl⟩ | ⟨rfl, rfl⟩ <;>
    exact ⟨rfl, fun h s => ⟨_, _, _, rfl⟩⟩

end

/-! ### Identity and the audit log (R440 to R443) -/

section
variable {s : State} {h : Hdr}

/-- An accepted command that only answers. -/
theorem answersOnly {c : Instr} {op : Nat} {body : State → Did} (hc : exec c s = s.command h op false true body) (hacc : Accepted s h op)
    {w : State} {res : List (Nat × Nat)} (hbody : body (ready s h op) = (w, some (0, res))) (hplan : PlanKept (ready s h op) w)
    (hears : Hears (ready s h op) w) : ∃ t, exec c s = .next t ∧ PlanKept s t ∧ Answered t h op 0 res := by
  have hrun := State.command_ready hacc body
  rw [hbody] at hrun
  exact ⟨_, hc.trans hrun, planKept_post (planKept_trans (ready_entered hacc).planKept hplan) h op 0 res,
    answered_ready hacc hears.1 hears.2 0 res⟩

theorem identityRead_answers (hacc : Accepted s h 0x0106) : ∃ t, exec (.identityRead h) s = .next t ∧ PlanKept s t ∧ Answered t h 0x0106 0
    ([(4, 3796), (3796, s.keys.certs.getD 0 0), (4, 3796), (3796, s.keys.certs.getD 1 0)] ++ s.sessionCert) := by
  have hu := opening_ready rfl hacc
  rw [← hu.keys, ← sessionCert_congr hu.fuses]
  exact answersOnly (w := ready s h 0x0106) (rfl : exec _ s = execIdentityRead h s) hacc rfl ⟨rfl, rfl, rfl, rfl, rfl, rfl⟩ ⟨rfl, rfl⟩

theorem Entered.report {u : State} {op : Nat} (hu : Entered s u h op) (p : Nat) (nonce : Hash) : u.report p nonce = s.report p nonce := by
  have hhall := hu.hallNow
  have hpart := hu.part p
  have hframe := hu.1
  have hkeys : u.keys = s.keys := (congrArg State.keys hframe :)
  have hpwr : u.pwr = s.pwr := (congrArg State.pwr hframe :)
  have hfuses : u.fuses = s.fuses := (congrArg State.fuses hframe :)
  have hsp : u.spRun = s.spRun := (congrArg State.spRun hframe :)
  have hmg : u.mgRun = s.mgRun := (congrArg State.mgRun hframe :)
  have hhead : u.auditHead = s.auditHead := (congrArg State.auditHead hframe :)
  have hidx : u.auditIdx = s.auditIdx := (congrArg State.auditIdx hframe :)
  unfold State.report
  rw [hhall, hpart, hkeys, hpwr, hfuses, hsp, hmg, hhead, hidx]

theorem attest_answers {nonce : Hash} (hacc : AcceptedFor s h 0x0107) : ∃ t, exec (.attest h nonce) s = .next t ∧ PlanKept s t ∧
    Answered t h 0x0107 0 (s.report h.part nonce ++ [(2420, Config.secret s.freeCtr)]) := by
  have hent := ready_entered hacc.1
  have hfree : (ready s h 0x0107).freeCtr = s.freeCtr := (congrArg State.freeCtr hent.1 :)
  have hrun : exec (.attest h nonce) s = _ := State.onPartition_ready hacc rfl rfl _
  have hkept := hent.planKept
  have hanswered := fun t : State => answered_ready (t := t) hacc.1
  rw [← hent.report, ← hfree]
  generalize ready s h 0x0107 = u at hrun hkept hanswered ⊢
  exact ⟨_, hrun, planKept_post (planKept_trans hkept (t := { u with freeCtr := u.freeCtr + 1 }) ⟨rfl, rfl, rfl, rfl, rfl, rfl⟩) ..,
    hanswered { u with freeCtr := u.freeCtr + 1 } rfl rfl _ _⟩

theorem auditRead_answers {first count : Nat} (hacc : Accepted s h 0x0108) (hsome : 0 < count) (hheld : first + count ≤ s.auditIdx)
    (hkept : s.auditIdx ≤ first + s.audit.length) : ∃ t, exec (.auditRead h 0 first count) s = .next t ∧ PlanKept s t ∧
      Answered t h 0x0108 0 (((s.audit.filter (fun e => decide (first ≤ e.index ∧ e.index < first + count))).map auditFields).flatten) := by
  have hframe := (ready_entered hacc).1
  have haudit : (ready s h 0x0108).audit = s.audit := (congrArg State.audit hframe :)
  have hidx : (ready s h 0x0108).auditIdx = s.auditIdx := (congrArg State.auditIdx hframe :)
  refine answersOnly (w := ready s h 0x0108) (rfl : exec _ s = execAuditRead h 0 first count s) hacc ?_ ⟨rfl, rfl, rfl, rfl, rfl, rfl⟩ ⟨rfl, rfl⟩
  rw [if_pos rfl, haudit, hidx, if_neg (by omega), if_neg (by omega), ← List.flatMap_def, List.flatMap_eq_foldl]
  rfl

end

/-- Settles O54: an opening runs its own part with the sessions and keys as they were, a command that fails stages 1 or 2 is answered before
its own part, and the rest answer what is held. -/
theorem sessionsAndIdentity : Obligations.SessionsAndIdentity := by
  unfold Obligations.SessionsAndIdentity
  refine ⟨fun h role kh s hacc hlow hhigh hpath => sessionOpen_opens hacc hlow hhigh hpath,
    fun h sid pf x s hacc hsid hx hproved hpass => sessionProve_proves hacc hsid hx hproved hpass,
    fun h s hacc hfn hset hlock hroom => passOpen_opens hacc hfn hset hlock hroom,
    fun h sid pf x s hacc hsid hfn hx hproved hpass => passProve_proves hacc hsid hfn hx hproved hpass,
    fun h s hacc => sessionClose_ends hacc,
    fun sid x s hx => ⟨sessionTimeout_waits hx, fun hproved hlate => ?_, proveWindowExpiry_waits hx, fun hproved hlate => ?_⟩,
    fun s => ?_, fun h op c s hmem hserves hwaits hlisten => ?_, fun h s hacc => identityRead_answers hacc,
    fun h nonce s hacc => attest_answers hacc, fun h first count s hacc hsome hheld hkept => auditRead_answers hacc hsome hheld hkept⟩
  · exact ⟨_, sessionTimeout_ends hx hproved hlate, endSession_planKept .., by rw [endSession_session, if_pos rfl],
      fun k hk => by rw [endSession_session, if_neg hk]⟩
  · exact ⟨_, proveWindowExpiry_frees hx hproved hlate, rfl, look_put_same none s.sessions sid none,
      fun k hk => look_put_ne none s.sessions none hk⟩
  · change execPassLockExpiry s = _
    unfold execPassLockExpiry
    split <;> rfl
  · obtain ⟨hsession, hruns⟩ := sessionCommands_run hmem
    obtain ⟨absent, enc, body, hexec⟩ := hruns h s
    refine ⟨fun hbad => ?_, fun x hx hproved htag hcounter hdenied => ?_⟩
    · obtain ⟨hkept, hears⟩ := badTag_kept (s.begin h op) h.sid
      exact ⟨_, hexec.trans (command_refused hserves hwaits (accepts_badTag hsession hbad absent enc) body), refused_answers hlisten hkept hears _⟩
    · obtain ⟨t, hends, hkept, hears⟩ := accepts_denied hsession hx hproved htag hcounter hdenied absent enc
      exact ⟨_, hexec.trans (command_refused hserves hwaits hends body), refused_answers hlisten hkept hears _⟩

end Sys2Proof.Machine
end

