-- ==== Sys2Proof/Proofs/Zeroisation.lean ====
section
/-! SUPPORT. Blocks and leases that join a partition or leave it, and what is zeroised with them (R415 to R418, R421). -/

namespace Sys2Proof.Machine
open Sys2Proof.Stmt

/-! ### Blocks zeroised (R417) -/

section
variable {s : State} {p : Nat}

theorem State.zeroBlock_cellsOnly (s : State) (b : Nat) : CellsOnly s (s.zeroBlock b) := rfl

theorem State.zeroBlock_owner (s : State) (b k : Nat) : ((s.zeroBlock b).block k).owner = (s.block k).owner := by
  unfold State.zeroBlock
  by_cases hk : k = b
  · subst hk
    rw [State.onBlock_block_same]
    rfl
  · rw [State.onBlock_block_ne _ _ hk]
    rfl

theorem State.zeroBlock_cell (s : State) (b c : Nat) : (s.zeroBlock b).cell c = if c / 32 = b then Cell.zero else s.cell c := by
  refine (look_dropKeys Cell.zero s.cells (fun c => decide (blockOf c = b)) c).trans ?_
  rw [blockOf]
  simp only [decide_eq_true_eq, State.cell]

/-- Zeroising blocks leaves their owners, and the cells that are zero already. -/
theorem foldl_zeroBlock (l : List Nat) (s : State) : CellsOnly s (l.foldl State.zeroBlock s) ∧
    (∀ k, ((l.foldl State.zeroBlock s).block k).owner = (s.block k).owner) ∧
    ∀ c, c / 32 ∈ l ∨ s.cell c = Cell.zero → (l.foldl State.zeroBlock s).cell c = Cell.zero := by
  induction l generalizing s with
  | nil => exact ⟨rfl, fun _ => rfl, fun c hc => hc.resolve_left (List.not_mem_nil)⟩
  | cons b l ih =>
    obtain ⟨hcells, howner, hzero⟩ := ih (s.zeroBlock b)
    rw [List.foldl_cons]
    refine ⟨(s.zeroBlock_cellsOnly b).trans hcells, fun k => (howner k).trans (s.zeroBlock_owner b k), fun c hc => hzero c ?_⟩
    rw [State.zeroBlock_cell, List.mem_cons] at *
    by_cases hb : c / 32 = b
    · exact .inr (if_pos hb)
    · rw [if_neg hb]
      exact hc.imp_left fun h => h.resolve_left hb

theorem State.unplace_owner (s : State) (p k : Nat) : ((s.unplace p).block k).owner = (s.block k).owner := by
  unfold State.unplace
  refine foldl_invariant (fun t : State => (t.block k).owner) (fun t b => ?_) _ s
  refine (foldl_invariant (fun t : State => (t.block k).owner) (fun u c => by rw [State.onCell_block]) _ _).trans ?_
  by_cases hk : k = b
  · subst hk
    rw [State.onBlock_block_same]
  · rw [State.onBlock_block_ne _ _ hk]

theorem State.unplace_cell_zero {c : Nat} (h : s.cell c = Cell.zero) : (s.unplace p).cell c = Cell.zero := by
  unfold State.unplace
  refine List.foldlRecOn _ _ (motive := fun t : State => t.cell c = Cell.zero) h fun t ht b _ => ?_
  refine List.foldlRecOn _ _ (motive := fun t : State => t.cell c = Cell.zero) ht fun u hu i _ => ?_
  by_cases hc : c = 32 * b + i
  · rw [hc, State.onCell_cell_same, ← hc, hu]
    rfl
  · rw [State.onCell_cell_ne _ _ hc, hu]

end

/-! ### ZEROISE_ALL (R421) -/

/-- A partition whose records, landing area and bundles are zeroised. -/
def Part.landingZeroised (q : Part) : Part :=
  { q with recs := [], outRing := [], park := [], slots := [], saved := {}, win := {}, replay := none }

/-- The turn of one partition in ZEROISE_ALL. -/
def State.zeroiseTurn (s : State) (p : Nat) : State :=
  if s.exists? p then
    ((((s.unload p).newKeys p).ownBlocks p).foldl State.zeroBlock ((s.unload p).newKeys p)).onPart p Part.landingZeroised
  else s

theorem State.zeroiseAll_eq (s : State) : s.zeroiseAll = { allParts.foldl State.zeroiseTurn s with
    shadows := mapv Shadow.zero (allParts.foldl State.zeroiseTurn s).shadows
      (fun _ x => { Shadow.zero with incompl := true, map := x.map, twinSize := x.twinSize }) } := rfl

/-- What the turn of partition `p` leaves: the owners of the blocks, the cells that are zero, and the other partitions. -/
structure ZeroiseTurn (s t : State) (p : Nat) : Prop where
  frame : t = { s with nextKey := t.nextKey, cells := t.cells, blocks := t.blocks, stks := t.stks, cold := t.cold, ports := t.ports
                       parts := t.parts, out := t.out }
  owner : ∀ k, (t.block k).owner = (s.block k).owner
  zero : ∀ c, s.cell c = Cell.zero → t.cell c = Cell.zero
  other : ∀ q, q ≠ p → t.part q = s.part q

/-- A partition that ZEROISE_ALL zeroised. -/
def ZeroisedPart (s t : State) (p : Nat) : Prop :=
  (t.part p).sx.keyGen = (s.part p).sx.keyGen + 1 ∧ (∀ e ∈ (t.part p).allLeases, e ∈ (t.part p).sx.zeroPend) ∧
    (t.part p).st = .empty ∧ (t.part p).recs = []

theorem State.zeroiseTurn_turn (s : State) (p : Nat) : ZeroiseTurn s (s.zeroiseTurn p) p ∧ (s.exists? p = true → ZeroisedPart s (s.zeroiseTurn p) p ∧
    ∀ c, c / 32 < 64 → (s.block (c / 32)).owner = some p → (s.zeroiseTurn p).cell c = Cell.zero) := by
  unfold State.zeroiseTurn
  split
  next hexists =>
    have hmoved := s.unload_placed p
    have hunloaded := s.unload_part p
    have hunowned : ∀ k, ((s.unload p).block k).owner = (s.block k).owner := fun k => (s.clearBudget p).unplace_owner p k
    have hunzero : ∀ c, s.cell c = Cell.zero → (s.unload p).cell c = Cell.zero := fun c hc => State.unplace_cell_zero (s := s.clearBudget p) hc
    generalize s.unload p = u at hmoved hunloaded hunowned hunzero ⊢
    have hrekeyed := u.newKeys_rekeyed p
    generalize u.newKeys p = v at hrekeyed ⊢
    obtain ⟨hcells, howner, hzero⟩ := foldl_zeroBlock (v.ownBlocks p) v
    generalize hw : (v.ownBlocks p).foldl State.zeroBlock v = w at hcells howner hzero ⊢
    have hvblock : ∀ k, v.block k = u.block k := fun k => by rw [hrekeyed.frame]; rfl
    have hvcell : ∀ c, v.cell c = u.cell c := fun c => by rw [hrekeyed.frame]; rfl
    have hpart : (w.onPart p Part.landingZeroised).part p = (v.part p).landingZeroised := by rw [State.onPart_part_same, hcells.part]
    have howned : ∀ k, (w.block k).owner = (s.block k).owner := fun k => by rw [howner, hvblock, hunowned]
    refine ⟨⟨?_, howned, fun c hc => hzero c (.inr ?_), fun q hq => ?_⟩, fun _ => ⟨?_, fun c hlow hc => hzero c (.inl ?_)⟩⟩
    · have hframe : w = _ := hcells
      rw [hframe, hrekeyed.frame, hmoved.frame]
      rfl
    · rw [hvcell, hunzero c hc]
    · rw [State.onPart_part_ne _ _ hq, hcells.part, hrekeyed.other q hq, hmoved.other q hq]
    · unfold ZeroisedPart
      rw [hpart]
      refine ⟨?_, hrekeyed.pending, ?_, rfl⟩
      · change (v.part p).sx.keyGen = _
        rw [hrekeyed.keyGen, hunloaded]
        rfl
      · obtain ⟨l, hl, -⟩ := hrekeyed.same
        change (v.part p).st = _
        rw [hl, hunloaded]
        rfl
    · refine List.mem_filter.2 ⟨List.mem_range.2 hlow, decide_eq_true ?_⟩
      rw [hvblock, hunowned, hc]
  next hexists => exact ⟨⟨rfl, fun _ => rfl, fun _ h => h, fun _ _ => rfl⟩, fun h => absurd h hexists⟩

theorem foldl_zeroiseTurn_frame (l : List Nat) (s : State) : l.foldl State.zeroiseTurn s =
      { s with nextKey := (l.foldl State.zeroiseTurn s).nextKey, cells := (l.foldl State.zeroiseTurn s).cells
               blocks := (l.foldl State.zeroiseTurn s).blocks, stks := (l.foldl State.zeroiseTurn s).stks, cold := (l.foldl State.zeroiseTurn s).cold
               ports := (l.foldl State.zeroiseTurn s).ports, parts := (l.foldl State.zeroiseTurn s).parts, out := (l.foldl State.zeroiseTurn s).out } ∧
    (∀ k, ((l.foldl State.zeroiseTurn s).block k).owner = (s.block k).owner) ∧
    ∀ c, s.cell c = Cell.zero → (l.foldl State.zeroiseTurn s).cell c = Cell.zero := by
  refine List.foldlRecOn l _ (motive := fun t : State => t = { s with
    nextKey := t.nextKey, cells := t.cells, blocks := t.blocks, stks := t.stks, cold := t.cold, ports := t.ports, parts := t.parts, out := t.out } ∧
    (∀ k, (t.block k).owner = (s.block k).owner) ∧ ∀ c, s.cell c = Cell.zero → t.cell c = Cell.zero) ⟨rfl, fun _ => rfl, fun _ h => h⟩ ?_
  intro t ⟨hframe, howner, hzero⟩ p _
  have hturn := (t.zeroiseTurn_turn p).1
  generalize t.zeroiseTurn p = u at hturn ⊢
  refine ⟨?_, fun k => (hturn.owner k).trans (howner k), fun c hc => hturn.zero c (hzero c hc)⟩
  rw [hturn.frame, hframe]

/-- After ZEROISE_ALL every partition that exists is zeroised, and so are the cells of its blocks. -/
theorem State.zeroiseAll_part {s : State} {p : Nat} (hp : p < 16) (hcreated : (s.part p).sx.created = true) :
    ZeroisedPart s s.zeroiseAll p ∧ ∀ c, c / 32 < 64 → (s.block (c / 32)).owner = some p → s.zeroiseAll.cell c = Cell.zero := by
  have hother := fun (t : State) (k q : Nat) (hq : q ≠ k) => (t.zeroiseTurn_turn k).1.other q hq
  obtain ⟨l₁, l₂, hl⟩ := List.append_of_mem (List.mem_range.2 hp)
  obtain ⟨hp₁, hp₂⟩ : p ∉ l₁ ∧ p ∉ l₂ := by
    have hd := hl ▸ List.nodup_range (n := 16)
    simpa using (List.nodup_middle.1 hd).notMem
  have hbefore : (l₁.foldl State.zeroiseTurn s).part p = s.part p := foldl_part_of_not_mem hother hp₁ s
  obtain ⟨-, howner, -⟩ := foldl_zeroiseTurn_frame l₁ s
  generalize hu : l₁.foldl State.zeroiseTurn s = u at hbefore howner
  obtain ⟨hpart, hcells⟩ := (u.zeroiseTurn_turn p).2 (by simp [State.exists?, hp, hbefore, hcreated])
  obtain ⟨-, -, hzero⟩ := foldl_zeroiseTurn_frame l₂ (u.zeroiseTurn p)
  have hafter : (l₂.foldl State.zeroiseTurn (u.zeroiseTurn p)).part p = (u.zeroiseTurn p).part p := foldl_part_of_not_mem hother hp₂ _
  have hall : allParts.foldl State.zeroiseTurn s = l₂.foldl State.zeroiseTurn (u.zeroiseTurn p) := by
    rw [allParts, hl, List.foldl_append, List.foldl_cons, hu]
  have hendPart : s.zeroiseAll.part p = (u.zeroiseTurn p).part p := by
    rw [State.zeroiseAll_eq, hall]
    exact hafter
  have hendCell : ∀ c, s.zeroiseAll.cell c = (l₂.foldl State.zeroiseTurn (u.zeroiseTurn p)).cell c := fun c => by
    rw [State.zeroiseAll_eq, hall]
    rfl
  refine ⟨?_, fun c hc hown => ?_⟩
  · unfold ZeroisedPart at hpart ⊢
    rw [hendPart, ← hbefore]
    exact hpart
  · rw [hendCell]
    exact hzero c (hcells c hc (by rw [howner, hown]))

theorem State.zeroiseAll_frame (s : State) : s.zeroiseAll = { s with
    nextKey := s.zeroiseAll.nextKey, cells := s.zeroiseAll.cells, blocks := s.zeroiseAll.blocks, stks := s.zeroiseAll.stks
    cold := s.zeroiseAll.cold, ports := s.zeroiseAll.ports, parts := s.zeroiseAll.parts, out := s.zeroiseAll.out
    shadows := s.zeroiseAll.shadows } := by
  have hframe := (foldl_zeroiseTurn_frame allParts s).1
  rw [State.zeroiseAll_eq]
  generalize allParts.foldl State.zeroiseTurn s = t at hframe ⊢
  rw [hframe]

end Sys2Proof.Machine
end

