-- ==== Sys2Proof/Proofs/PartitionLayouts.lean ====
section
/-! SUPPORT. The layout of a partition: blocks and leases given and taken away (R415 to R418). -/

namespace Sys2Proof.Machine
open Sys2Proof.Stmt

/-! ### Blocks that join or leave -/

/-- A block joins the partition or leaves it, zeroised. -/
def State.handBlock (p : Nat) (d : PartDef) (s : State) (b : Nat) : State :=
  (s.zeroBlock b).onBlock b (fun x => { x with owner := if d.blocks.getLsbD b then some p else none })

section
variable {s : State} {p : Nat} {d : PartDef}

theorem State.handBlock_owner (s : State) (b k : Nat) :
    ((s.handBlock p d b).block k).owner = if k = b then (if d.blocks.getLsbD b then some p else none) else (s.block k).owner := by
  unfold State.handBlock
  by_cases hk : k = b
  · subst hk
    rw [State.onBlock_block_same, if_pos rfl]
  · rw [State.onBlock_block_ne _ _ hk, if_neg hk, State.zeroBlock_owner]

/-- The blocks that the layout gives to the partition or takes from it. -/
def State.movedBlocks (s : State) (p : Nat) (d : PartDef) : List Nat :=
  (List.range 64).filter (fun b => d.blocks.getLsbD b != decide ((s.block b).owner = some p))

theorem foldl_handBlock (l : List Nat) (s : State) : CellsOnly s (l.foldl (State.handBlock p d) s) ∧
    ∀ k, ((l.foldl (State.handBlock p d) s).block k).owner =
      if k ∈ l then (if d.blocks.getLsbD k then some p else none) else (s.block k).owner := by
  induction l generalizing s with
  | nil => exact ⟨rfl, fun k => (if_neg List.not_mem_nil).symm⟩
  | cons b l ih =>
    obtain ⟨hcells, howner⟩ := ih (s.handBlock p d b)
    rw [List.foldl_cons]
    refine ⟨((s.zeroBlock_cellsOnly b).trans (cellsOnly_onBlock ..)).trans hcells, fun k => ?_⟩
    rw [howner, State.handBlock_owner]
    by_cases hk : k = b
    · subst hk
      simp
    · simp [hk]

/-- Once its blocks have moved the partition owns those that the layout names. -/
theorem movedBlocks_owner {b : Nat} (hb : b < 64) :
    (((s.movedBlocks p d).foldl (State.handBlock p d) s).block b).owner = some p ↔ d.blocks.getLsbD b = true := by
  rw [(foldl_handBlock _ s).2]
  have hmem : b ∈ s.movedBlocks p d ↔ d.blocks.getLsbD b ≠ decide ((s.block b).owner = some p) := by simp [State.movedBlocks, hb]
  by_cases hmoves : b ∈ s.movedBlocks p d
  · rw [if_pos hmoves]
    by_cases hd : d.blocks.getLsbD b = true
    · rw [if_pos hd]
      exact iff_of_true rfl hd
    · rw [if_neg hd]
      exact iff_of_false (by simp) hd
  · rw [if_neg hmoves]
    have heq := not_not.1 (mt hmem.2 hmoves)
    rw [heq, decide_eq_true_iff]

end

/-! ### Leases that leave (R218) -/

/-- Between `s` and `t` only the stacks and the cold frame changed. -/
def StoresOnly (s t : State) : Prop := t = { s with stks := t.stks, cold := t.cold }

theorem StoresOnly.trans {s t u : State} (hst : StoresOnly s t) (htu : StoresOnly t u) : StoresOnly s u := by
  unfold StoresOnly at *
  rw [htu, hst]

theorem storesOnly_zeroPlace (s : State) (tier : Tier) (loc : LeaseLoc) (b : Blank) : StoresOnly s (s.zeroPlace tier loc b) := by
  have hwipe : ∀ u : State, StoresOnly u (u.wipe tier loc leaseLines) := fun u => by
    unfold StoresOnly State.wipe
    generalize u.wipeOf tier loc = w
    cases w <;> cases tier <;> rfl
  refine StoresOnly.trans ?_ (hwipe (s.startWipe tier loc b))
  cases tier <;> rfl

theorem storesOnly_foldl {α : Type} {f : State → α → State} (h : ∀ s a, StoresOnly s (f s a)) (l : List α) (s : State) : StoresOnly s (l.foldl f s) :=
  List.foldlRecOn l f (motive := fun t => StoresOnly s t) rfl fun _ ht a _ => ht.trans (h _ a)

/-- The places that a partition has in a tier and its new layout does not name. -/
def Part.leaving (q : Part) (t : Tier) (l : List LeaseT) : List LeaseLoc := (q.targets t).filter (fun o => !(l.map locOf).contains o)

/-- The leases that leave are zeroised. -/
def State.dropPlaces (s : State) (q : Part) (d : PartDef) : State :=
  (q.leaving .cold d.cold).foldl (fun s o => s.zeroPlace .cold o {}) ((q.leaving .stack d.stack).foldl (fun s o => s.zeroPlace .stack o {}) s)

theorem storesOnly_dropPlaces (s : State) (q : Part) (d : PartDef) : StoresOnly s (s.dropPlaces q d) :=
  (storesOnly_foldl (fun s o => storesOnly_zeroPlace s .stack o {}) _ s).trans (storesOnly_foldl (fun s o => storesOnly_zeroPlace s .cold o {}) _ _)

/-! ### The tables -/

/-- A partition with the tables of a layout. -/
def Part.tabled (q : Part) (d : PartDef) : Part :=
  { q with stackTabA := tabOf d.stack false, stackTabB := tabOf d.stack true, coldTabA := tabOf d.cold false
           coldTabB := tabOf d.cold true, landLeases := d.landing, pw := { q.pw with alloc := d.alloc } }

/-- A partition as a layout makes it, `l` being what is to be zeroised. -/
def Part.laid (q : Part) (d : PartDef) (l : List (Tier × Nat)) : Part :=
  { q.tabled d with sx := { q.sx with created := true, opEntry := d.entry, zeroPend := l } }

/-- What was to be zeroised before and is still leased. -/
def Part.stillPending (q : Part) (d : PartDef) : List (Tier × Nat) := q.sx.zeroPend.filter (fun e => (q.tabled d).allLeases.contains e)

theorem mem_tabOf {l : List LeaseT} {b : Bool} {e : Nat × Option LeaseLoc} (he : e ∈ tabOf l b) : ∃ x ∈ l, x.idx = e.1 := by
  have hkeys : ∀ (is : List Nat) (m : SMap (Option LeaseLoc)), (∀ e ∈ m, ∃ x ∈ l, x.idx = e.1) → (∀ i ∈ is, ∃ x ∈ l, x.idx = i) →
      ∀ e ∈ is.foldl (fun m i => put none m i
        (((if b then (l.filter (fun x => decide (x.idx = i))).getLast? else (l.filter (fun x => decide (x.idx = i))).head?)).map locOf)) m,
        ∃ x ∈ l, x.idx = e.1 := by
    intro is
    induction is with
    | nil => exact fun m hm _ e he => hm e he
    | cons i is ih =>
      intro m hm his e he
      refine ih _ (fun e he => ?_) (fun i hi => his i (List.mem_cons_of_mem _ hi)) e he
      rcases mem_put he with h | ⟨h, -⟩
      · rw [h]
        exact his i List.mem_cons_self
      · exact hm e h
  refine hkeys _ [] (fun _ h => nomatch h) (fun i hi => ?_) e he
  obtain ⟨x, hx, hi⟩ := List.mem_map.1 (List.mem_eraseDups.1 hi)
  exact ⟨x, hx, hi⟩

/-- The leases that a layout names in a tier. -/
def leasesNamed (d : PartDef) (t : Tier) : List LeaseT := if t = .stack then d.stack else d.cold

/-- Every lease of a partition is one that its layout names. -/
theorem mem_allLeases_tabled {q : Part} {d : PartDef} {e : Tier × Nat} (he : e ∈ (q.tabled d).allLeases) : ∃ x ∈ leasesNamed d e.1, x.idx = e.2 := by
  unfold Part.allLeases at he
  rcases List.mem_append.1 (List.mem_eraseDups.1 he) with h | h <;> obtain ⟨x, hx, rfl⟩ := List.mem_map.1 h <;>
    rcases List.mem_append.1 hx with hx | hx <;> exact mem_tabOf hx

/-! ### Leases that join -/

/-- The places of a layout in a tier that the partition did not have. -/
def Part.joining (q : Part) (t : Tier) (l : List LeaseT) : List LeaseLoc := (l.map locOf).filter (fun o => !(q.targets t).contains o)

/-- Their lease indices. -/
def Part.joiners (q : Part) (t : Tier) (l : List LeaseT) : List (Tier × Nat) :=
  (((l.filter (fun x => (q.joining t l).contains (locOf x))).map (·.idx)).eraseDups).map (fun i => (t, i))

/-- The leases of a tier that join are to be zeroised. -/
def State.joinTier (s : State) (p : Nat) (q : Part) (t : Tier) (l : List LeaseT) : State :=
  (q.joiners t l).foldl (fun s e => s.pendLease p true (fun o => (q.joining t l).contains o) e) s

theorem pends_joinTier (s : State) (p : Nat) (q : Part) (t : Tier) (l : List LeaseT) : Pends s (s.joinTier p q t l) p ∧
    ∀ e ∈ q.joiners t l, e ∈ ((s.joinTier p q t l).part p).sx.zeroPend := pends_foldl ..

theorem mem_joiners {q : Part} {t : Tier} {l : List LeaseT} (hnone : q.targets t = []) {x : LeaseT} (hx : x ∈ l) : (t, x.idx) ∈ q.joiners t l := by
  refine List.mem_map.2 ⟨x.idx, List.mem_eraseDups.2 (List.mem_map.2 ⟨x, List.mem_filter.2 ⟨hx, ?_⟩, rfl⟩), rfl⟩
  unfold Part.joining
  rw [hnone]
  simpa using ⟨x, hx, rfl⟩

/-! ### The whole layout -/

/-- The partition has its tables, its leases are marked and its key slots filled. -/
def State.leased (s : State) (p : Nat) (q : Part) (d : PartDef) : State :=
  ((((s.dropPlaces q d).onPart p (fun q => q.laid d (q.stillPending d))).joinTier p q .stack d.stack).joinTier p q .cold d.cold).fillSlots p

/-- The domains of the blocks go on. -/
def State.blocksUp (s : State) (d : PartDef) : State := (List.range 64).foldl (fun s b => if d.blocks.getLsbD b then s.domUp b else s) s

theorem State.layout_eq (s : State) (p : Nat) (d : PartDef) : s.layout p d =
    if (s.part p).pw.alloc < d.alloc then
      ((((s.movedBlocks p d).foldl (State.handBlock p d) s).leased p (s.part p) d).blocksUp d).convCheck
        (((List.range 5).find? (fun i =>
          !((((s.movedBlocks p d).foldl (State.handBlock p d) s).leased p (s.part p) d).blocksUp d).pwr.convOk.getLsbD i)).getD 0)
    else (((s.movedBlocks p d).foldl (State.handBlock p d) s).leased p (s.part p) d).blocksUp d := by
  unfold State.layout State.leased State.joinTier Part.joiners
  simp only [List.foldl_map]
  rfl

section
variable {s : State} {p : Nat} {d : PartDef}

/-- The partition's tables, and of a partition that had no place its every lease to be zeroised. -/
theorem State.leased_part (s : State) (p : Nat) (d : PartDef) : (∀ k, k ≠ p → (s.leased p (s.part p) d).part k = s.part k) ∧
    s.leased p (s.part p) d = { s with
      stks := (s.leased p (s.part p) d).stks, cold := (s.leased p (s.part p) d).cold, parts := (s.leased p (s.part p) d).parts } ∧
    ∃ l, (s.leased p (s.part p) d).part p = (s.part p).laid d l ∧
      ((∀ t, (s.part p).targets t = []) → ∀ e ∈ ((s.part p).tabled d).allLeases, e ∈ l) := by
  have hstores : s.dropPlaces (s.part p) d = _ := storesOnly_dropPlaces s (s.part p) d
  have hpart : ∀ k, (s.dropPlaces (s.part p) d).part k = s.part k := fun k => by rw [hstores]; rfl
  unfold State.leased
  generalize s.dropPlaces (s.part p) d = u at hstores hpart ⊢
  have hown := u.onPart_part_same p (fun q => q.laid d (q.stillPending d))
  have hother := fun k (hk : k ≠ p) => u.onPart_part_ne (fun q => q.laid d (q.stillPending d)) hk
  have hframe : u.onPart p (fun q => q.laid d (q.stillPending d)) =
    { u with parts := (u.onPart p (fun q => q.laid d (q.stillPending d))).parts } := rfl
  generalize u.onPart p (fun q => q.laid d (q.stillPending d)) = v at hown hother hframe ⊢
  obtain ⟨hstack, hstacked⟩ := pends_joinTier v p (s.part p) .stack d.stack
  generalize v.joinTier p (s.part p) .stack d.stack = w at hstack hstacked ⊢
  obtain ⟨hcold, hcolded⟩ := pends_joinTier w p (s.part p) .cold d.cold
  generalize w.joinTier p (s.part p) .cold d.cold = x at hcold hcolded ⊢
  obtain ⟨l, hl, hsub⟩ := hcold.same
  have hjoins := hstack.trans hcold
  obtain ⟨l', hl', -⟩ := hjoins.same
  have hlist : l' = (x.part p).sx.zeroPend := by rw [hl']
  refine ⟨fun k hk => ?_, ?_, l', ?_, fun hnone e he => ?_⟩
  · rw [State.fillSlots_part, hjoins.other k hk, hother k hk, hpart]
  · rw [x.fillSlots_frame p, hjoins.frame, hframe, hstores]
  · rw [State.fillSlots_part, hl', hown, hpart]
    rfl
  · obtain ⟨a, ha, hidx⟩ := mem_allLeases_tabled he
    obtain ⟨tier, i⟩ := e
    subst hidx
    rw [hlist]
    cases tier with
    | stack =>
      rw [hl]
      exact hsub _ (hstacked _ (mem_joiners (hnone .stack) ha))
    | cold => exact hcolded _ (mem_joiners (hnone .cold) ha)

theorem State.blocksUp_frame (s : State) (d : PartDef) : s.blocksUp d = { s with pwr := (s.blocksUp d).pwr, counters := (s.blocksUp d).counters } := by
  have hup : ∀ (u : State) (b : Nat), b < 64 → u.domUp b = { u with pwr := (u.domUp b).pwr, counters := (u.domUp b).counters } := fun u b hb => by
    unfold State.domUp
    split
    · rfl
    · dsimp only
      rw [if_neg (by omega), if_neg (by omega)]
      rfl
  unfold State.blocksUp
  refine List.foldlRecOn _ _ (motive := fun t : State => t = { s with pwr := t.pwr, counters := t.counters }) rfl fun t ht b hb => ?_
  split
  · rw [hup t b (List.mem_range.1 hb), ht]
  · exact ht

/-- What a layout leaves. -/
structure Laid (s t : State) (p : Nat) (d : PartDef) : Prop where
  frame : t = { s with cells := t.cells, blocks := t.blocks, stks := t.stks, cold := t.cold, parts := t.parts, pwr := t.pwr
                       counters := t.counters, raised := t.raised }
  same : ∃ l, t.part p = (s.part p).laid d l ∧ ((∀ t, (s.part p).targets t = []) → ∀ e ∈ ((s.part p).tabled d).allLeases, e ∈ l)
  other : ∀ k, k ≠ p → t.part k = s.part k
  owner : ∀ b, b < 64 → ((t.block b).owner = some p ↔ d.blocks.getLsbD b = true)

theorem State.convCheck_frame (s : State) (i : Nat) : s.convCheck i = { s with raised := (s.convCheck i).raised } := by
  unfold State.convCheck
  dsimp only
  split <;> rfl

theorem State.layout_laid (s : State) (p : Nat) (d : PartDef) : Laid s (s.layout p d) p d := by
  have hcells : (s.movedBlocks p d).foldl (State.handBlock p d) s = _ := (foldl_handBlock (p := p) (d := d) (s.movedBlocks p d) s).1
  have howner := fun b (hb : b < 64) => movedBlocks_owner (s := s) (p := p) (d := d) hb
  rw [State.layout_eq]
  generalize (s.movedBlocks p d).foldl (State.handBlock p d) s = u at hcells howner ⊢
  have hpart : ∀ k, u.part k = s.part k := fun k => by rw [hcells]; rfl
  rw [← hpart p]
  obtain ⟨hother, hleased, hsame⟩ := u.leased_part p d
  generalize u.leased p (u.part p) d = v at hother hleased hsame ⊢
  rw [hpart p] at hsame
  have hup := v.blocksUp_frame d
  generalize v.blocksUp d = w at hup ⊢
  have hlaid : ∀ x : State, x = { w with raised := x.raised } → Laid s x p d := fun x hx => by
    have hparts : ∀ k, x.part k = v.part k := fun k => by rw [hx, hup]; rfl
    have hblocks : ∀ b, x.block b = u.block b := fun b => by rw [hx, hup, hleased]; rfl
    refine ⟨?_, ?_, fun k hk => ?_, fun b hb => ?_⟩
    · rw [hx, hup, hleased, hcells]
    · rw [hparts]
      exact hsame
    · rw [hparts, hother k hk, hpart]
    · rw [hblocks]
      exact howner b hb
  split
  · exact hlaid _ (w.convCheck_frame _)
  · exact hlaid w rfl

theorem Laid.laidOut {t : State} (h : Laid s t p d) : LaidOut t p d := by
  obtain ⟨l, hl, -⟩ := h.same
  unfold LaidOut
  rw [hl]
  exact ⟨rfl, rfl, rfl, rfl, rfl, rfl, rfl, rfl, h.owner⟩

theorem Laid.hears {t : State} (h : Laid s t p d) : Hears s t := ⟨(congrArg State.mute h.frame :), (congrArg State.rings h.frame :)⟩

end

end Sys2Proof.Machine
end

