-- ==== Sys2Proof/Proofs/KeysAndPartitions.lean ====
section
/-! PROOF. Role keys, tenants, data keys and partitions (R414 to R417, R421, R428, R430, R431, R436, R445, R446): O55. -/

namespace Sys2Proof.Machine
open Sys2Proof.Stmt

section
variable {s : State} {h : Hdr} {op : Nat}

/-- An accepted command about what exists, well encoded, runs its own part on `ready s h op`. -/
theorem exec_accepted {c : Instr} {r : Out} {absent enc : Bool} {body : State → Did} (hc : exec c s = r)
    (hr : r = s.command h op absent enc body) (hacc : Accepted s h op) (habs : absent = false) (henc : enc = true) {w : State} {st : Nat} {res : List (Nat × Nat)}
    (hbody : body (ready s h op) = (w, some (st, res))) : exec c s = .next (w.post h op st res) := by
  rw [hc, hr, habs, henc, State.command_ready hacc, hbody]

/-- The completion of an accepted command whose own part leaves the units. -/
theorem kept_post {w : State} (hacc : Accepted s h op) (hplan : PlanKept (ready s h op) w) (hears : Hears (ready s h op) w) (st : Nat)
    (res : List (Nat × Nat)) : PlanKept s (w.post h op st res) ∧ Answered (w.post h op st res) h op st res :=
  ⟨planKept_post (planKept_trans (ready_entered hacc).planKept hplan) h op st res, answered_ready hacc hears.1 hears.2 st res⟩

/-- The session of an accepted command still stands, with its role and key; so does every other. -/
theorem ready_session {k : Nat} {x : Session} (hacc : Accepted s h op) (hx : s.session k = some x) :
    ∃ y, (ready s h op).session k = some y ∧ y.role = x.role ∧ y.kh = x.kh ∧ y.pass = x.pass := by
  by_cases hless : sessionless op = true
  · exact ⟨x, by rw [session_congr (ready_sessions_of_sessionless hless hacc), hx], rfl, rfl, rfl⟩
  by_cases hk : k = h.sid
  · subst hk
    obtain ⟨-, -, henc, hdma, -, -, hses⟩ := hacc
    obtain ⟨y, hy, hproved, htag, hcounter, hdenied⟩ := hses.resolve_left hless
    obtain rfl : x = y := Option.some.inj (hx.symm.trans hy)
    have hsame : (s.begin h op).session h.sid = some x := by rw [s.begin_frame h op]; exact hx
    have hparts : (s.begin h op).parts = s.parts := by rw [s.begin_frame h op]
    refine ⟨{ x with counter := h.counter, lastAt := (s.begin h op).wallNs }, ?_, rfl, rfl, rfl⟩
    unfold ready State.accepts
    dsimp only
    rw [if_neg hless, hsame]
    dsimp only
    rw [if_neg (by simp [hproved, ← htag, hcounter]), if_neg]
    · simp only [henc, hdma, Bool.not_true, Bool.or_false, Bool.false_and, Bool.false_eq_true, if_false]
      exact look_put_same none (s.begin h op).sessions h.sid (some { x with counter := h.counter, lastAt := (s.begin h op).wallNs })
    · rw [Bool.not_eq_true, ← hdenied]
      unfold State.denied State.pathOk State.exists? State.part
      rw [State.count_parts, hparts]
  · exact ⟨x, (ready_session_ne hacc hk).trans hx, rfl, rfl, rfl⟩

end

/-! ### Sessions that end with their key (R436) -/

theorem endSession_kept (s : State) (sid : Nat) : PlanKept s (s.endSession sid) ∧ Hears s (s.endSession sid) ∧ (s.endSession sid).keys = s.keys := by
  rw [s.endSession_frame sid]
  exact ⟨⟨rfl, rfl, rfl, rfl, rfl, rfl⟩, ⟨rfl, rfl⟩, rfl⟩

/-- One session ends when it was opened with the key. -/
def State.dropKeySession (r : Role) (kh : Hash) (t : State) (e : Nat × Option Session) : State :=
  match e.2 with
  | some x => if x.role = r ∧ x.kh = kh ∧ !x.pass then t.endSession e.1 else t
  | none => t

section
variable (r : Role) (kh : Hash)

theorem dropKeySession_kept (t : State) (e : Nat × Option Session) : PlanKept t (t.dropKeySession r kh e) ∧ Hears t (t.dropKeySession r kh e) ∧
    (t.dropKeySession r kh e).keys = t.keys ∧ ∀ k, t.session k = none → (t.dropKeySession r kh e).session k = none := by
  unfold State.dropKeySession
  split
  · split
    · obtain ⟨hplan, hears, hkeys⟩ := endSession_kept t e.1
      exact ⟨hplan, hears, hkeys, fun k hk => by rw [endSession_session, hk, ite_self]⟩
    · exact ⟨⟨rfl, rfl, rfl, rfl, rfl, rfl⟩, ⟨rfl, rfl⟩, rfl, fun _ h => h⟩
  · exact ⟨⟨rfl, rfl, rfl, rfl, rfl, rfl⟩, ⟨rfl, rfl⟩, rfl, fun _ h => h⟩

theorem foldl_dropKeySession (l : List (Nat × Option Session)) (s : State) : PlanKept s (l.foldl (State.dropKeySession r kh) s) ∧
    Hears s (l.foldl (State.dropKeySession r kh) s) ∧ (l.foldl (State.dropKeySession r kh) s).keys = s.keys ∧
    ∀ k, s.session k = none → (l.foldl (State.dropKeySession r kh) s).session k = none := by
  refine List.foldlRecOn l _ (motive := fun t : State => PlanKept s t ∧ Hears s t ∧ t.keys = s.keys ∧ ∀ k, s.session k = none → t.session k = none)
    ⟨⟨rfl, rfl, rfl, rfl, rfl, rfl⟩, ⟨rfl, rfl⟩, rfl, fun _ h => h⟩ fun t ⟨hplan, hears, hkeys, hnone⟩ e _ => ?_
  obtain ⟨hplan', hears', hkeys', hnone'⟩ := dropKeySession_kept r kh t e
  exact ⟨planKept_trans hplan hplan', hears.trans hears', hkeys'.trans hkeys, fun k hk => hnone' k (hnone k hk)⟩

/-- A session opened with the key has ended. -/
theorem dropKeySessions_ends {s : State} {k : Nat} {x : Session} (hx : s.session k = some x) (hrole : x.role = r) (hkh : x.kh = kh)
    (hpass : x.pass = false) : (s.dropKeySessions r kh).session k = none := by
  have hmem : (k, some x) ∈ s.sessions := by
    have h := mem_of_look_ne (d := none) (m := s.sessions) (k := k) (by rw [← State.session, hx]; exact Option.some_ne_none x)
    rwa [← State.session, hx] at h
  obtain ⟨l₁, l₂, hl⟩ := List.append_of_mem hmem
  change (s.sessions.foldl (State.dropKeySession r kh) s).session k = none
  rw [hl, List.foldl_append, List.foldl_cons]
  refine (foldl_dropKeySession r kh l₂ _).2.2.2 k ?_
  unfold State.dropKeySession
  dsimp only
  rw [if_pos ⟨hrole, hkh, by rw [hpass]; rfl⟩, endSession_session, if_pos rfl]

end

/-! ### Role keys, the passphrase and tenants (R428, R430, R431) -/

section
variable {s : State} {h : Hdr} {entry : Nat} {kh : Hash}

/-- Installer key `entry` set. -/
def State.installerSet (s : State) (entry : Nat) (kh : Hash) : State := { s with keys := { s.keys with installers := put 0 s.keys.installers entry kh } }

/-- The sessions of an installer key end as it is replaced. -/
def State.installerReplaced (s : State) (entry : Nat) (kh : Hash) : State :=
  if look 0 s.keys.installers entry ≠ 0 ∧ look 0 s.keys.installers entry ≠ kh then
    (s.installerSet entry kh).dropKeySessions .installer (look 0 s.keys.installers entry)
  else s.installerSet entry kh

theorem installerReplaced_kept (s : State) (entry : Nat) (kh : Hash) : PlanKept s (s.installerReplaced entry kh) ∧
    Hears s (s.installerReplaced entry kh) ∧ (s.installerReplaced entry kh).keys = (s.installerSet entry kh).keys := by
  unfold State.installerReplaced
  split
  · obtain ⟨hplan, hears, hkeys, -⟩ := foldl_dropKeySession .installer (look 0 s.keys.installers entry) (s.installerSet entry kh).sessions
      (s.installerSet entry kh)
    exact ⟨hplan, hears, hkeys⟩
  · exact ⟨⟨rfl, rfl, rfl, rfl, rfl, rfl⟩, ⟨rfl, rfl⟩, rfl⟩

theorem put_ne_nil {α : Type} [DecidableEq α] {d v : α} (m : SMap α) (k : Nat) (hv : v ≠ d) : (put d m k v).isEmpty = false := by
  rw [List.isEmpty_eq_false_iff]
  intro hnil
  have h := look_put_same d m k v
  rw [hnil] at h
  exact hv h.symm

/-- ROLE_KEY_SET of an installer key. -/
theorem roleKeySet_installer (hacc : Accepted s h 0x0109) (hentry : entry < 4) (hkh : kh ≠ 0) :
    ∃ t, exec (.roleKeySet h 2 entry kh []) s = .next t ∧ PlanKept s t ∧ Answered t h 0x0109 0 [] ∧
      look 0 t.keys.installers entry = kh ∧ (∀ e, e ≠ entry → look 0 t.keys.installers e = look 0 s.keys.installers e) ∧
      t.keys.operators = s.keys.operators ∧
      ∀ sid x, s.session sid = some x → x.role = .installer → x.kh = look 0 s.keys.installers entry → x.kh ≠ 0 → x.kh ≠ kh →
        x.pass = false → t.session sid = none := by
  have hkeys : (ready s h 0x0109).keys = s.keys := (congrArg State.keys (ready_entered hacc).1 :)
  have hsession := fun (k : Nat) (x : Session) => ready_session (k := k) (x := x) hacc
  have hkept := kept_post (w := (ready s h 0x0109).installerReplaced entry kh) hacc
  have hexec := exec_accepted (w := (ready s h 0x0109).installerReplaced entry kh) (st := 0) (res := [])
    (c := (.roleKeySet h 2 entry kh [])) (r := execRoleKeySet h 2 entry kh [] s) rfl rfl hacc rfl (by simp [hentry])
    (by simp only [if_pos, put_ne_nil _ _ hkh]; rfl)
  generalize ready s h 0x0109 = u at hkeys hsession hkept hexec
  obtain ⟨hplan, hears, hset⟩ := installerReplaced_kept u entry kh
  obtain ⟨hkept, hans⟩ := hkept hplan hears 0 []
  refine ⟨_, hexec, hkept, hans, ?_, fun e he => ?_, ?_, fun sid x hx hrole hold hne hnew hpass => ?_⟩
  · rw [State.post_keys, hset]
    exact look_put_same ..
  · rw [State.post_keys, hset, ← hkeys]
    exact look_put_ne _ _ _ he
  · rw [State.post_keys, hset, ← hkeys]
    rfl
  · obtain ⟨y, hy, hyrole, hykh, hypass⟩ := hsession sid x hx
    rw [← hkeys] at hold
    rw [session_congr (State.post_sessions ..), State.installerReplaced, if_pos ⟨hold ▸ hne, hold ▸ hnew⟩]
    exact dropKeySessions_ends _ _ (s := u.installerSet entry kh) hy (hyrole.trans hrole) (hykh.trans hold) (hypass.trans hpass)

/-- ROLE_KEY_SET refuses to remove the last installer key. -/
theorem roleKeySet_last (hacc : Accepted s h 0x0109) (hentry : entry < 4) (hlast : put 0 s.keys.installers entry 0 = []) :
    ∃ t, exec (.roleKeySet h 2 entry 0 []) s = .next t ∧ Answered t h 0x0109 0x03 [] ∧ t.keys = s.keys := by
  have hkeys : (ready s h 0x0109).keys = s.keys := (congrArg State.keys (ready_entered hacc).1 :)
  have hexec := exec_accepted (w := ready s h 0x0109) (st := 0x03) (res := [])
    (c := (.roleKeySet h 2 entry 0 [])) (r := execRoleKeySet h 2 entry 0 [] s) rfl rfl hacc rfl (by simp [hentry])
    (by simp only [if_pos, hkeys, hlast]; rfl)
  exact ⟨_, hexec, answered_ready hacc rfl rfl _ _, (State.post_keys ..).trans hkeys⟩

/-- The bits that a list of partitions sets. -/
theorem testBit_partSet (l : List Nat) (n : Nat) : (List.range n).foldl (fun a p => if l.contains p then a + 2 ^ p else a) 0 < 2 ^ n ∧
    ∀ j, ((List.range n).foldl (fun a p => if l.contains p then a + 2 ^ p else a) 0).testBit j = (decide (j < n) && l.contains j) := by
  induction n with
  | zero => exact ⟨Nat.one_pos, fun j => by simp⟩
  | succ n ih =>
    obtain ⟨hlt, hbits⟩ := ih
    rw [List.range_succ, List.foldl_append, List.foldl_cons, List.foldl_nil]
    generalize (List.range n).foldl (fun a p => if l.contains p then a + 2 ^ p else a) 0 = v at hlt hbits ⊢
    split
    next hin =>
      refine ⟨by rw [Nat.pow_succ]; omega, fun j => ?_⟩
      have hor := Nat.two_pow_add_eq_or_of_lt hlt 1
      rw [Nat.mul_one] at hor
      rw [Nat.add_comm, hor, Nat.testBit_or, Nat.testBit_two_pow, hbits]
      rcases Nat.lt_trichotomy j n with hj | rfl | hj
      · simp [hj, Nat.lt_succ_of_lt hj, Nat.ne_of_gt hj]
      · simpa using hin
      · simp [Nat.not_lt.2 (Nat.succ_le_of_lt hj), Nat.lt_asymm hj, Nat.ne_of_lt hj]
    next hout =>
      refine ⟨by rw [Nat.pow_succ]; omega, fun j => ?_⟩
      rw [hbits]
      by_cases hj : j = n
      · subst hj
        simpa using hout
      · have hlt : j < n ↔ j < n + 1 := by omega
        rw [decide_eq_decide.2 hlt]

/-- Operator key `entry` set, for the partitions of a list. -/
def State.operatorSet (s : State) (entry : Nat) (kh : Hash) (l : List Nat) : State := { s with keys := { s.keys with
  operators := put 0 s.keys.operators entry kh
  opParts := put 0 s.keys.opParts entry (if kh = 0 then 0 else BitVec.ofNat 16 ((List.range 16).foldl (fun a p => if l.contains p then a + 2 ^ p else a) 0)) } }

/-- The sessions of an operator key end as it is replaced. -/
def State.operatorReplaced (s : State) (entry : Nat) (kh : Hash) (l : List Nat) : State :=
  if look 0 s.keys.operators entry ≠ 0 ∧ look 0 s.keys.operators entry ≠ kh then
    (s.operatorSet entry kh l).dropKeySessions .operator (look 0 s.keys.operators entry)
  else s.operatorSet entry kh l

theorem operatorReplaced_kept (s : State) (entry : Nat) (kh : Hash) (l : List Nat) : PlanKept s (s.operatorReplaced entry kh l) ∧
    Hears s (s.operatorReplaced entry kh l) ∧ (s.operatorReplaced entry kh l).keys = (s.operatorSet entry kh l).keys := by
  unfold State.operatorReplaced
  split
  · obtain ⟨hplan, hears, hkeys, -⟩ := foldl_dropKeySession .operator (look 0 s.keys.operators entry) (s.operatorSet entry kh l).sessions
      (s.operatorSet entry kh l)
    exact ⟨hplan, hears, hkeys⟩
  · exact ⟨⟨rfl, rfl, rfl, rfl, rfl, rfl⟩, ⟨rfl, rfl⟩, rfl⟩

/-- ROLE_KEY_SET of an operator key. -/
theorem roleKeySet_operator {l : List Nat} (hacc : Accepted s h 0x0109) (hentry : entry < 16) (hkh : kh ≠ 0) (hl : ∀ p ∈ l, p < 16) :
    ∃ t, exec (.roleKeySet h 1 entry kh l) s = .next t ∧ PlanKept s t ∧ Answered t h 0x0109 0 [] ∧
      look 0 t.keys.operators entry = kh ∧ (∀ e, e ≠ entry → look 0 t.keys.operators e = look 0 s.keys.operators e) ∧
      ∀ p, (look 0 t.keys.opParts entry).getLsbD p = decide (p ∈ l) := by
  have hkeys : (ready s h 0x0109).keys = s.keys := (congrArg State.keys (ready_entered hacc).1 :)
  have hkept := kept_post (w := (ready s h 0x0109).operatorReplaced entry kh l) hacc
  have hexec := exec_accepted (w := (ready s h 0x0109).operatorReplaced entry kh l) (st := 0) (res := [])
    (c := (.roleKeySet h 1 entry kh l)) (r := execRoleKeySet h 1 entry kh l s) rfl rfl hacc rfl (by simpa [hentry] using hl) rfl
  generalize ready s h 0x0109 = u at hkeys hkept hexec
  obtain ⟨hplan, hears, hset⟩ := operatorReplaced_kept u entry kh l
  obtain ⟨hkept, hans⟩ := hkept hplan hears 0 []
  refine ⟨_, hexec, hkept, hans, ?_, fun e he => ?_, fun p => ?_⟩
  · rw [State.post_keys, hset]
    exact look_put_same ..
  · rw [State.post_keys, hset, ← hkeys]
    exact look_put_ne _ _ _ he
  · rw [State.post_keys, hset]
    unfold State.operatorSet
    rw [look_put_same, if_neg hkh, BitVec.getLsbD_ofNat, (testBit_partSet l 16).2]
    by_cases hp : p ∈ l
    · simp [hp, hl p hp]
    · simp [hp]

/-- PASSPHRASE_SET. -/
theorem passphraseSet_sets {pass : List Nat} (hacc : Accepted s h 0x010A) (hbytes : ∀ b ∈ pass, b < 256)
    (hlength : pass.length = 0 ∨ 12 ≤ pass.length ∧ pass.length ≤ 128) : ∃ t, exec (.passphraseSet h pass) s = .next t ∧ PlanKept s t ∧
      Answered t h 0x010A 0 [] ∧ t.keys.passSet = decide (pass.length ≠ 0) := by
  have hkept := fun w : State => kept_post (w := w) hacc
  have henc : pass.all (fun b => decide (b < 256)) = true := by simpa using hbytes
  have hexec := fun w => exec_accepted (w := w) (st := 0) (res := [])
    (c := (.passphraseSet h pass)) (r := execPassphraseSet h pass s) rfl rfl hacc rfl henc
  generalize ready s h 0x010A = u at hkept hexec
  rcases hlength with hzero | ⟨hlow, hhigh⟩
  · obtain rfl := List.eq_nil_of_length_eq_zero hzero
    obtain ⟨hkept, hans⟩ := hkept { u with keys := { u.keys with passSet := false, salt := 0, passV := 0 } }
      ⟨rfl, rfl, rfl, rfl, rfl, rfl⟩ ⟨rfl, rfl⟩ 0 []
    exact ⟨_, hexec _ rfl, hkept, hans, by rw [State.post_keys]; rfl⟩
  · obtain ⟨w, hw⟩ : ∃ w : State, w = { u with
        keys := { u.keys with passSet := true, salt := Config.secret u.freeCtr
                              passV := Config.sha3 (leBytes 16 (Config.secret u.freeCtr) ++ pass), passFails := 0 }
        freeCtr := u.freeCtr + 1 } := ⟨_, rfl⟩
    have hne : pass.isEmpty = false := by
      cases pass with
      | nil => exact absurd hlow (by decide)
      | cons => rfl
    obtain ⟨hkept, hans⟩ := hkept w (by rw [hw]; exact ⟨rfl, rfl, rfl, rfl, rfl, rfl⟩) (by rw [hw]; exact ⟨rfl, rfl⟩) 0 []
    refine ⟨_, hexec w ?_, hkept, hans, ?_⟩
    · rw [hne, if_neg Bool.false_ne_true, if_neg (by omega), hw]
      rfl
    · rw [State.post_keys, hw]
      exact (decide_eq_true (by omega)).symm

/-- TENANT_BIND and TENANT_UNBIND of a partition with no plan running and no job. -/
theorem tenant_binds (hentry : entry < 4) (hkh : kh ≠ 0) (hidle : (s.part h.part).st = .empty ∨ (s.part h.part).st = .staged)
    (hjob : (s.part h.part).jb.jstate = .none) :
    (AcceptedFor s h 0x010B → ∃ t, exec (.tenantBind h entry kh) s = .next t ∧ UnitsKept s t ∧ PartDone s t h 0x010B [] h.part (fun q =>
      { q with sx := { q.sx with tenants := put 0 q.sx.tenants entry kh } })) ∧
    (AcceptedFor s h 0x010C → look 0 (s.part h.part).sx.tenants entry = kh → ∃ t, exec (.tenantUnbind h entry kh) s = .next t ∧
      UnitsKept s t ∧ PartDone s t h 0x010C [] h.part (fun q => { q with sx := { q.sx with tenants := put 0 q.sx.tenants entry 0 } })) := by
  have hfree : (s.part h.part).bindBusy = false := by
    unfold Part.bindBusy
    rw [decide_eq_true ⟨hidle, hjob⟩, Bool.not_true]
  refine ⟨fun hacc => setsPart_done rfl hacc rfl (decide_eq_true hentry) _ fun u hu => ?_,
    fun hacc hheld => setsPart_done rfl hacc rfl (decide_eq_true hentry) _ fun u hu => ?_⟩
  · rw [hu.part, hfree, if_neg hkh, if_neg Bool.false_ne_true]
  · rw [hu.part, hfree, hheld, if_neg (not_or.2 ⟨hkh, not_not.2 rfl⟩), if_neg Bool.false_ne_true]

end

/-! ### Data keys (R417, R421, R445, R446) -/

section
variable {s : State} {h : Hdr}

theorem anyActive_of_activeParts {u : State} (hparts : u.parts = s.parts) (hidle : s.activeParts = []) : u.anyActive = false := by
  have hsame : u.activeParts = s.activeParts := by
    unfold State.activeParts State.part
    rw [hparts]
  rw [State.anyActive, hsame, hidle]
  rfl

theorem exists?_congr {u : State} (hparts : u.parts = s.parts) (p : Nat) : u.exists? p = s.exists? p := by
  unfold State.exists? State.part
  rw [hparts]

/-- KEY_ROTATE of a partition with no plan active, no job and no load under way. -/
theorem keyRotate_rotates (hacc : AcceptedFor s h 0x010D) (hdebug : s.keys.debugOn = false) (hidle : (s.part h.part).active? = false)
    (hjob : (s.part h.part).jb.jstate = .none) (hbundle : (s.part h.part).bundle = none) (hbank : (s.part h.part).bankLoad = none) :
    ∃ t, exec (.keyRotate h) s = .next t ∧ t.cells = s.cells ∧ t.blocks = s.blocks ∧ t.raised = s.raised ∧
      (∀ e ∈ (s.part h.part).allLeases, e ∈ (t.part h.part).sx.zeroPend) ∧
      (∀ k, k < 12 → s.pwr.dom.getLsbD (64 + k) = true →
        look 0 (t.stack k).keys h.part = if s.onStackK h.part k then s.nextKey else 0) ∧
      (s.pwr.dom.getLsbD 93 = true → look 0 t.cold.keys h.part = s.nextKey + 1) ∧
      PartDone s t h 0x010D [] h.part (fun q => { q with
        stackKey := s.nextKey, coldKey := s.nextKey + 1, setA := {}, setB := {}
        sx := { q.sx with keyGen := q.sx.keyGen + 1, wrapGen := s.nextKey + 2, zeroPend := (t.part h.part).sx.zeroPend, cleanKeys := true
                          jobKey := none, jobKeyWait := none } }) := by
  have hrun : exec (.keyRotate h) s = _ := State.onPartition_ready hacc rfl rfl _
  have hent := ready_entered hacc.1
  have hpart := hent.part
  have hkeys : (ready s h 0x010D).keys = s.keys := (congrArg State.keys hent.1 :)
  have hkey : (ready s h 0x010D).nextKey = s.nextKey := (congrArg State.nextKey hent.1 :)
  have hpwr : (ready s h 0x010D).pwr = s.pwr := (congrArg State.pwr hent.1 :)
  have hraised : (ready s h 0x010D).raised = s.raised := (congrArg State.raised hent.1 :)
  have hcells := hent.cells
  have hblocks : (ready s h 0x010D).blocks = s.blocks := (congrArg State.blocks hent.1 :)
  have hstack := State.onStackK_congr hent.parts h.part
  have hanswered := fun t : State => answered_ready (t := t) hacc.1
  generalize ready s h 0x010D = u at hrun hpart hkeys hkey hpwr hraised hcells hblocks hstack hanswered
  dsimp only at hrun
  rw [hkeys, hdebug, if_neg Bool.false_ne_true, hpart, if_neg (by simp [hidle, hjob, hbundle, hbank])] at hrun
  have hrekeyed := u.newKeys_rekeyed h.part
  generalize u.newKeys h.part = v at hrun hrekeyed
  change _ = ok (v.post h 0x010D 0 []) at hrun
  obtain ⟨l, hl, hleases, -⟩ := hrekeyed.same
  rw [hpart, hkey] at hl
  rw [hpart] at hleases
  have hpend : ((v.post h 0x010D 0 []).part h.part).sx.zeroPend = l := by rw [State.post_part, hl]; rfl
  refine ⟨_, hrun, ?_, ?_, ?_, ?_, fun k hk hon => ?_, fun hon => ?_, hanswered v (congrArg State.mute hrekeyed.frame :)
    (congrArg State.rings hrekeyed.frame :) _ _, ?_, fun q hq => ?_⟩
  · rw [State.post_cells, ← hcells, (congrArg State.cells hrekeyed.frame :)]
  · rw [State.post_blocks, ← hblocks, (congrArg State.blocks hrekeyed.frame :)]
  · rw [State.post_raised, ← hraised, (congrArg State.raised hrekeyed.frame :)]
  · rw [hpend]
    exact hleases
  · rw [State.stack, State.post_stks]
    exact (hrekeyed.stackSlot k hk (by rw [hpwr]; exact hon)).trans (by rw [hstack, hkey])
  · rw [State.post_cold, hrekeyed.coldSlot (by rw [hpwr]; exact hon), hkey]
  · rw [hpend, State.post_part, hl]
    rfl
  · rw [State.post_part, hrekeyed.other q hq, hpart]

/-- ZEROISE_ALL with no plan active. -/
theorem zeroiseAll_zeroises (hacc : Accepted s h 0x0205) (hidle : s.activeParts = []) : ∃ t, exec (.zeroiseAll h) s = .next t ∧
    Answered t h 0x0205 0 [] ∧ (∀ p, p < 16 → (s.part p).sx.created = true → (t.part p).sx.keyGen = (s.part p).sx.keyGen + 1 ∧
      (∀ e ∈ (t.part p).allLeases, e ∈ (t.part p).sx.zeroPend) ∧ (t.part p).st = .empty ∧ (t.part p).recs = [] ∧
      ∀ c, c / 32 < 64 → (s.block (c / 32)).owner = some p → t.cell c = Cell.zero) := by
  have hent := ready_entered hacc
  have hexec := fun w => exec_accepted (w := w) (st := 0) (res := []) (c := (.zeroiseAll h)) (r := execZeroiseAll h s) rfl rfl hacc rfl rfl
  have hanswered := fun t : State => answered_ready (t := t) hacc
  have hactive := anyActive_of_activeParts hent.parts hidle
  have hpart := hent.part
  have hblocks : (ready s h 0x0205).blocks = s.blocks := (congrArg State.blocks hent.1 :)
  generalize ready s h 0x0205 = u at hexec hanswered hactive hpart hblocks
  have hframe := u.zeroiseAll_frame
  have hzero := fun p hp hcreated => State.zeroiseAll_part (s := u) (p := p) hp hcreated
  specialize hexec u.zeroiseAll (by rw [hactive, if_neg Bool.false_ne_true]; rfl)
  generalize u.zeroiseAll = v at hexec hframe hzero
  refine ⟨_, hexec, hanswered v (congrArg State.mute hframe :) (congrArg State.rings hframe :) _ _, fun p hp hcreated => ?_⟩
  obtain ⟨⟨hgen, hpend, hst, hrecs⟩, hcells⟩ := hzero p hp (by rw [hpart]; exact hcreated)
  rw [State.post_part]
  refine ⟨by rw [hgen, hpart], hpend, hst, hrecs, fun c hc howner => ?_⟩
  rw [State.cell, State.post_cells]
  refine hcells c hc ?_
  rw [State.block, hblocks]
  exact howner

/-- Without its keys no partition has any. -/
theorem dropKeys_part (s : State) (p : Nat) : (s.dropKeys.part p).stackKey = 0 ∧ (s.dropKeys.part p).coldKey = 0 ∧
    (s.dropKeys.part p).sx.jobKey = none := by
  rcases look_mapv_mem Part.zero s.parts (fun _ (q : Part) =>
      { q with stackKey := 0, coldKey := 0, sx := { q.sx with jobKey := none, jobKeyWait := none } }) p with hzero | ⟨j, v, hv⟩
  · have hpart : s.dropKeys.part p = Part.zero := hzero
    rw [hpart]
    exact ⟨rfl, rfl, rfl⟩
  · have hpart : s.dropKeys.part p = { v with stackKey := 0, coldKey := 0, sx := { v.sx with jobKey := none, jobKeyWait := none } } := hv
    rw [hpart]
    exact ⟨rfl, rfl, rfl⟩

/-- Everything zeroised, no keys held, and debug on. -/
def State.debugOpened (s : State) : State :=
  { s.zeroiseAll.dropKeys with
    fuses := { s.zeroiseAll.dropKeys.fuses with debugCnt := s.zeroiseAll.dropKeys.fuses.debugCnt + 1 }
    keys := { s.zeroiseAll.dropKeys.keys with debugOn := true } }

theorem State.debugOpened_kept (s : State) : s.debugOpened.mute = s.mute ∧ s.debugOpened.rings = s.rings ∧
    s.debugOpened.fuses.debugCnt = s.fuses.debugCnt + 1 ∧ s.debugOpened.keys.debugOn = true ∧ s.debugOpened.keys.pairKey = false ∧
    ∀ p, (s.debugOpened.part p).stackKey = 0 ∧ (s.debugOpened.part p).coldKey = 0 ∧ (s.debugOpened.part p).sx.jobKey = none := by
  have hframe := s.zeroiseAll_frame
  have hnone := dropKeys_part s.zeroiseAll
  unfold State.debugOpened
  generalize s.zeroiseAll = t at hframe hnone ⊢
  refine ⟨(congrArg State.mute hframe :), (congrArg State.rings hframe :), ?_, rfl, rfl, hnone⟩
  exact congrArg (fun f : Fuses => f.debugCnt + 1) (congrArg State.fuses hframe :)

/-- DEBUG_UNLOCK with the token and no plan active. -/
theorem debugUnlock_unlocks (hacc : Accepted s h 0x0111) (hidle : s.activeParts = []) : ∃ t, exec (.debugUnlock h true) s = .next t ∧
    Answered t h 0x0111 0 [] ∧ t.keys.debugOn = true ∧ t.fuses.debugCnt = s.fuses.debugCnt + 1 ∧ t.keys.pairKey = false ∧
    ∀ p, (t.part p).stackKey = 0 ∧ (t.part p).coldKey = 0 ∧ (t.part p).sx.jobKey = none := by
  have hent := ready_entered hacc
  have hexec := fun w => exec_accepted (w := w) (st := 0) (res := []) (c := (.debugUnlock h true)) (r := execDebugUnlock h true s) rfl rfl hacc rfl rfl
  have hanswered := fun t : State => answered_ready (t := t) hacc
  have hactive := anyActive_of_activeParts hent.parts hidle
  have hfuses : (ready s h 0x0111).fuses = s.fuses := (congrArg State.fuses hent.1 :)
  generalize ready s h 0x0111 = u at hexec hanswered hactive hfuses
  have hopened := u.debugOpened_kept
  obtain ⟨w, hw⟩ : ∃ w : State, w = u.debugOpened.auditAdd ((u.debugOpened.session h.sid).getD {}).role 0x08 0 0 0xFF h.sid
    ((u.debugOpened.session h.sid).getD {}).kh 0 := ⟨_, rfl⟩
  specialize hexec w (by rw [hactive, if_neg (by decide), if_neg Bool.false_ne_true, hw]; rfl)
  generalize u.debugOpened = v at hopened hw
  obtain ⟨hmute, hrings, hcnt, hon, hpair, hnone⟩ := hopened
  have hparts : w.parts = v.parts := by rw [hw, State.auditAdd_parts]
  have hkeys : w.keys = v.keys := by rw [hw, State.auditAdd_keys]
  refine ⟨_, hexec, hanswered w (by rw [hw, State.auditAdd_mute, hmute]) (by rw [hw, State.auditAdd_rings, hrings]) _ _, ?_, ?_, ?_, fun p => ?_⟩
  · rw [State.post_keys, hkeys, hon]
  · rw [State.post_fuses, hw, State.auditAdd_fuses, hcnt, hfuses]
  · rw [State.post_keys, hkeys, hpair]
  · rw [State.post_part, State.part, hparts]
    exact hnone p

end

/-! ### The twin and the certificates (R431, R446) -/

section
variable {s : State} {h : Hdr}

/-- The twin's serial taken. -/
def State.twinNamed (s : State) (serial : Option Nat) : State :=
  { s with keys := { s.keys with twinSerial := serial, pairKey := s.keys.pairKey && decide (serial = s.keys.twinSerial) } }

/-- With no twin nothing is held for it. -/
def State.twinPaired (s : State) (serial : Option Nat) : State :=
  if serial.isNone then
    { s.twinNamed serial with shadows := mapv Shadow.zero (s.twinNamed serial).shadows (fun _ _ => { Shadow.zero with incompl := true }) }
  else s.twinNamed serial

/-- A shadow region given up holds nothing. -/
theorem look_mapv_given_up (m : SMap Shadow) (p : Nat) : ∃ b, look Shadow.zero (mapv Shadow.zero m (fun _ _ => { Shadow.zero with incompl := true })) p =
    { Shadow.zero with incompl := b } := by
  rcases look_mapv_mem Shadow.zero m (fun _ _ => { Shadow.zero with incompl := true }) p with hzero | ⟨j, v, hv⟩
  · exact ⟨false, hzero⟩
  · exact ⟨true, hv⟩

theorem twinPaired_kept (s : State) (serial : Option Nat) : PlanKept s (s.twinPaired serial) ∧ Hears s (s.twinPaired serial) ∧
    (s.twinPaired serial).keys = (s.twinNamed serial).keys ∧ (serial ≠ none → (s.twinPaired serial).shadows = s.shadows) ∧
    (serial = none → ∀ p, ((s.twinPaired serial).shadow p).lines = [] ∧ ((s.twinPaired serial).shadow p).promoted = none ∧
      ((s.twinPaired serial).shadow p).parks = []) := by
  unfold State.twinPaired
  cases serial with
  | none =>
    refine ⟨⟨rfl, rfl, rfl, rfl, rfl, rfl⟩, ⟨rfl, rfl⟩, rfl, fun h => absurd rfl h, fun _ p => ?_⟩
    obtain ⟨b, hb⟩ := look_mapv_given_up (s.twinNamed none).shadows p
    exact ⟨congrArg Shadow.lines hb, congrArg Shadow.promoted hb, congrArg Shadow.parks hb⟩
  | some n => exact ⟨⟨rfl, rfl, rfl, rfl, rfl, rfl⟩, ⟨rfl, rfl⟩, rfl, fun _ => rfl, fun h => absurd h (by simp)⟩

/-- TWIN_PAIR with another module, or with none. -/
theorem twinPair_pairs {serial : Option Nat} (hacc : Accepted s h 0x010E) (hserial : serial ≠ some s.fuses.serial) :
    ∃ t, exec (.twinPair h serial) s = .next t ∧ PlanKept s t ∧ Answered t h 0x010E 0 [] ∧ t.keys.twinSerial = serial ∧
      (serial ≠ s.keys.twinSerial → t.keys.pairKey = false) ∧ (serial ≠ none → t.shadows = s.shadows) ∧
      (serial = none → ∀ p, (t.shadow p).lines = [] ∧ (t.shadow p).promoted = none ∧ (t.shadow p).parks = []) := by
  have hframe := (ready_entered hacc).1
  have hfuses : (ready s h 0x010E).fuses = s.fuses := (congrArg State.fuses hframe :)
  have hkeys : (ready s h 0x010E).keys = s.keys := (congrArg State.keys hframe :)
  have hshadows : (ready s h 0x010E).shadows = s.shadows := (congrArg State.shadows hframe :)
  have hkept := kept_post (w := (ready s h 0x010E).twinPaired serial) hacc
  have hexec := exec_accepted (w := (ready s h 0x010E).twinPaired serial) (st := 0) (res := []) (c := .twinPair h serial)
    (r := execTwinPair h serial s) rfl rfl hacc rfl rfl ((if_neg (by rw [hfuses]; exact hserial)).trans rfl)
  generalize ready s h 0x010E = u at hfuses hkeys hshadows hkept hexec
  obtain ⟨hplan, hears, hset, hheld, hdropped⟩ := twinPaired_kept u serial
  generalize u.twinPaired serial = v at hkept hexec hplan hears hset hheld hdropped
  obtain ⟨hkept, hans⟩ := hkept hplan hears 0 []
  have hshadow : ∀ p, (v.post h 0x010E 0 []).shadow p = v.shadow p := fun p => by rw [State.shadow, State.post_shadows]; rfl
  refine ⟨_, hexec, hkept, hans, ?_, fun hne => ?_, fun hsome => ?_, fun hnone p => ?_⟩
  · rw [State.post_keys, hset]
    rfl
  · rw [State.post_keys, hset]
    unfold State.twinNamed
    rw [hkeys, decide_eq_false hne, Bool.and_false]
  · rw [State.post_shadows, hheld hsome, hshadows]
  · rw [hshadow]
    exact hdropped hnone p

/-- PROVISION with certificates and an installer key, no plan active. -/
theorem provision_provisions {certs : List Nat} {kh : Hash} (hacc : Accepted s h 0x0110) (hkh : kh ≠ 0) (hcerts : certs ≠ [])
    (hidle : s.activeParts = []) : ∃ t, exec (.provision h certs kh) s = .next t ∧ PlanKept s t ∧ Answered t h 0x0110 0 [] ∧
      t.keys.certs = certs ∧ look 0 t.keys.installers 0 = kh := by
  have hactive := anyActive_of_activeParts (ready_entered hacc).parts hidle
  have hkept := fun w => kept_post (w := w) hacc
  have hexec := fun w => exec_accepted (w := w) (st := 0) (res := []) (c := .provision h certs kh) (r := execProvision h certs kh s) rfl rfl hacc rfl rfl
  generalize ready s h 0x0110 = u at hactive hkept hexec
  obtain ⟨hkept, hans⟩ := hkept { u with keys := { u.keys with certs, installers := put 0 u.keys.installers 0 kh } }
    ⟨rfl, rfl, rfl, rfl, rfl, rfl⟩ ⟨rfl, rfl⟩ 0 []
  refine ⟨_, hexec { u with keys := { u.keys with certs, installers := put 0 u.keys.installers 0 kh } } ?_, hkept, hans, ?_, ?_⟩
  · rw [if_neg (not_or.2 ⟨hkh, by simp [hcerts]⟩), hactive, if_neg Bool.false_ne_true]
    rfl
  · rw [State.post_keys]
  · rw [State.post_keys]
    exact look_put_same 0 u.keys.installers 0 kh

end

/-! ### Partitions (R414 to R416) -/

section
variable {s : State} {h : Hdr} {d : PartDef}

theorem layoutBad_entered {u : State} {op : Nat} (hu : Entered s u h op) (p : Nat) (d : PartDef) : u.layoutBad p d = s.layoutBad p d := by
  rw [hu.1]
  rfl

/-- PART_CREATE of a partition that does not exist. -/
theorem partCreate_creates (hacc : Accepted s h 0x0201) (hp : h.part < 16) (hmasks : s.masksAbsent d = false) (hdef : s.defOk d = true)
    (hgood : s.layoutBad h.part d = false) (hdebug : s.keys.debugOn = false) (hnew : s.exists? h.part = false) :
    ∃ t, exec (.partCreate h d) s = .next t ∧ Answered t h 0x0201 0 [] ∧ LaidOut t h.part d ∧ (t.part h.part).sx.keyGen = 1 ∧
      (t.part h.part).st = .empty ∧ (∀ e ∈ (t.part h.part).allLeases, e ∈ (t.part h.part).sx.zeroPend) ∧ ∀ p, p ≠ h.part → t.part p = s.part p := by
  have hent := ready_entered hacc
  have hpart := hent.part
  have hbad := layoutBad_entered hent h.part d
  have hkeys : (ready s h 0x0201).keys = s.keys := (congrArg State.keys hent.1 :)
  have hexists := exists?_congr hent.parts h.part
  have hexec := fun w => exec_accepted (w := w) (st := 0) (res := []) (c := .partCreate h d) (r := execPartCreate h d s) rfl rfl hacc hmasks
    (by rw [hdef, decide_eq_true hp]; rfl)
  have hanswered := fun t : State => answered_ready (t := t) hacc
  generalize ready s h 0x0201 = u at hpart hbad hkeys hexists hexec hanswered
  specialize hexec (((u.setPart h.part Part.zero).newKeys h.part).layout h.part d) (by
    rw [hkeys, hdebug, hexists, hnew, hbad, hgood, if_neg Bool.false_ne_true, if_neg Bool.false_ne_true, if_neg Bool.false_ne_true]
    rfl)
  have hempty : (u.setPart h.part Part.zero).part h.part = Part.zero := u.onPart_part_same h.part (fun _ => Part.zero)
  have hothers : ∀ p, p ≠ h.part → (u.setPart h.part Part.zero).part p = u.part p := fun p hp => u.onPart_part_ne (fun _ => Part.zero) hp
  have hheard : Hears u (u.setPart h.part Part.zero) := ⟨rfl, rfl⟩
  generalize u.setPart h.part Part.zero = v at hexec hempty hothers hheard
  have hrekeyed := v.newKeys_rekeyed h.part
  generalize v.newKeys h.part = w at hexec hrekeyed
  have hlaid := w.layout_laid h.part d
  generalize w.layout h.part d = t at hexec hlaid
  obtain ⟨k, hk, -⟩ := hrekeyed.same
  obtain ⟨l, hl, hpend⟩ := hlaid.same
  rw [hk, hempty] at hl hpend
  have hmute : t.mute = u.mute := hlaid.hears.1.trans ((congrArg State.mute hrekeyed.frame :).trans hheard.1)
  have hrings : t.rings = u.rings := hlaid.hears.2.trans ((congrArg State.rings hrekeyed.frame :).trans hheard.2)
  have hout : LaidOut (t.post h 0x0201 0 []) h.part d := by
    have hlaidOut := hlaid.laidOut
    unfold LaidOut State.block at hlaidOut ⊢
    rw [State.post_part, State.post_blocks]
    exact hlaidOut
  refine ⟨_, hexec, hanswered t hmute hrings _ _, hout, ?_, ?_, ?_, fun p hp => ?_⟩
  · rw [State.post_part, hl]
    rfl
  · rw [State.post_part, hl]
    rfl
  · rw [State.post_part, hl]
    exact hpend fun tier => by cases tier <;> rfl
  · rw [State.post_part, hlaid.other p hp, hrekeyed.other p hp, hothers p hp, hpart]

/-- PART_RESIZE of a partition with no plan and no job. -/
theorem partResize_resizes (hacc : AcceptedFor s h 0x0202) (hmasks : s.masksAbsent d = false) (hdef : s.defOk d = true)
    (hgood : s.layoutBad h.part d = false) (hempty : (s.part h.part).st = .empty) (hjob : (s.part h.part).jb.jstate = .none) :
    ∃ t, exec (.partResize h d) s = .next t ∧ Answered t h 0x0202 0 [] ∧ LaidOut t h.part d ∧
      (t.part h.part).sx.keyGen = (s.part h.part).sx.keyGen ∧ (t.part h.part).sx.tenants = (s.part h.part).sx.tenants ∧
      ∀ p, p ≠ h.part → t.part p = s.part p := by
  have hrun : exec (.partResize h d) s = _ := State.onPartition_ready hacc hmasks hdef _
  have hent := ready_entered hacc.1
  have hpart := hent.part
  have hbad := layoutBad_entered hent h.part d
  have hanswered := fun t : State => answered_ready (t := t) hacc.1
  generalize ready s h 0x0202 = u at hrun hpart hbad hanswered
  rw [hpart, if_neg (by simp [Part.resizeBusy, hempty, hjob]), hbad, hgood, if_neg Bool.false_ne_true] at hrun
  have hlaid := u.layout_laid h.part d
  generalize u.layout h.part d = t at hrun hlaid
  change _ = ok (t.post h 0x0202 0 []) at hrun
  obtain ⟨l, hl, -⟩ := hlaid.same
  have hout : LaidOut (t.post h 0x0202 0 []) h.part d := by
    have hlaidOut := hlaid.laidOut
    unfold LaidOut State.block at hlaidOut ⊢
    rw [State.post_part, State.post_blocks]
    exact hlaidOut
  refine ⟨_, hrun, hanswered t hlaid.hears.1 hlaid.hears.2 _ _, hout, ?_, ?_, fun p hp => ?_⟩
  · rw [State.post_part, hl, hpart]
    rfl
  · rw [State.post_part, hl, hpart]
    rfl
  · rw [State.post_part, hlaid.other p hp, hpart]

/-- PART_DESTROY of a partition with no plan and no job. -/
theorem partDestroy_destroys (hacc : AcceptedFor s h 0x0203) (hempty : (s.part h.part).st = .empty) (hjob : (s.part h.part).jb.jstate = .none) :
    ∃ t, exec (.partDestroy h) s = .next t ∧ Answered t h 0x0203 0 [] ∧ t.part h.part = Part.zero ∧
      (∀ b, b < 64 → (t.block b).owner ≠ some h.part) ∧ ∀ p, p ≠ h.part → t.part p = s.part p := by
  have hrun : exec (.partDestroy h) s = _ := State.onPartition_ready hacc rfl rfl _
  have hpart := (ready_entered hacc.1).part
  have hanswered := fun t : State => answered_ready (t := t) hacc.1
  generalize ready s h 0x0203 = u at hrun hpart hanswered
  dsimp only at hrun
  rw [hpart, if_neg (by simp [Part.resizeBusy, hempty, hjob])] at hrun
  have hlaid := u.layout_laid h.part { blocks := 0, stack := [], cold := [], landing := [], alloc := 0, entry := 0 }
  generalize u.layout h.part { blocks := 0, stack := [], cold := [], landing := [], alloc := 0, entry := 0 } = v at hrun hlaid
  have hgone : (v.setPart h.part Part.zero).part h.part = Part.zero := v.onPart_part_same h.part (fun _ => Part.zero)
  have hothers : ∀ p, p ≠ h.part → (v.setPart h.part Part.zero).part p = v.part p := fun p hp => v.onPart_part_ne (fun _ => Part.zero) hp
  have hheard : Hears v (v.setPart h.part Part.zero) := ⟨rfl, rfl⟩
  have hblocks : (v.setPart h.part Part.zero).blocks = v.blocks := rfl
  generalize v.setPart h.part Part.zero = w at hrun hgone hothers hheard hblocks
  have hfilled := w.fillSlots_frame h.part
  have hparts := w.fillSlots_part h.part
  generalize w.fillSlots h.part = t at hrun hfilled hparts
  change _ = ok (t.post h 0x0203 0 []) at hrun
  have hmute : t.mute = u.mute := (congrArg State.mute hfilled :).trans (hheard.1.trans hlaid.hears.1)
  have hrings : t.rings = u.rings := (congrArg State.rings hfilled :).trans (hheard.2.trans hlaid.hears.2)
  refine ⟨_, hrun, hanswered t hmute hrings _ _, ?_, fun b hb howner => ?_, fun p hp => ?_⟩
  · rw [State.post_part, hparts, hgone]
  · have hsame : (t.post h 0x0203 0 []).block b = v.block b := by
      rw [State.block, State.post_blocks, (congrArg State.blocks hfilled :), hblocks]
      rfl
    rw [hsame, hlaid.owner b hb] at howner
    exact absurd howner (by simp)
  · rw [State.post_part, hparts, hothers p hp, hlaid.other p hp, hpart]

/-- PART_STATUS answers the partition's layout. -/
theorem partStatus_answers (hacc : AcceptedFor s h 0x0204) : ∃ t rest, exec (.partStatus h) s = .next t ∧ PlanKept s t ∧
    Answered t h 0x0204 0 ((1, pstateNo (s.part h.part).st) :: (1, jstateNo (s.part h.part).jb.jstate) ::
      (2, (s.part h.part).sx.opEntry) :: (4, (s.part h.part).pw.alloc) :: rest) := by
  have hrun : exec (.partStatus h) s = _ := State.onPartition_ready hacc rfl rfl _
  have hpart := (ready_entered hacc.1).part
  obtain ⟨hkept, hans⟩ : (∀ res, PlanKept s ((ready s h 0x0204).post h 0x0204 0 res)) ∧
      ∀ res, Answered ((ready s h 0x0204).post h 0x0204 0 res) h 0x0204 0 res :=
    ⟨fun res => planKept_post (ready_entered hacc.1).planKept _ _ _ _, fun res => answered_ready hacc.1 rfl rfl 0 res⟩
  generalize ready s h 0x0204 = u at hrun hpart hkept hans
  dsimp only at hrun
  rw [hpart] at hrun
  exact ⟨_, _, hrun, hkept _, hans _⟩

end

/-- Settles O55: each command runs its own part on the state as it is accepted; new keys, zeroisation and layouts are described once, for a
partition, and nothing after them writes what they leave. -/
theorem keysAndPartitions : Obligations.KeysAndPartitions := by
  unfold Obligations.KeysAndPartitions
  exact ⟨fun h entry kh s hacc hentry hkh => roleKeySet_installer hacc hentry hkh,
    fun h entry s hacc hentry hlast => roleKeySet_last hacc hentry hlast,
    fun h entry kh l s hacc hentry hkh hl => roleKeySet_operator hacc hentry hkh hl,
    fun h pass s hacc hbytes hlength => passphraseSet_sets hacc hbytes hlength,
    fun h entry kh s hentry hkh hidle hjob => tenant_binds hentry hkh hidle hjob,
    fun h s hacc hdebug hidle hjob hbundle hbank => keyRotate_rotates hacc hdebug hidle hjob hbundle hbank,
    fun h s hacc hidle => zeroiseAll_zeroises hacc hidle,
    fun h s hacc hidle => debugUnlock_unlocks hacc hidle,
    fun h serial s hacc hserial => twinPair_pairs hacc hserial,
    fun h certs kh s hacc hkh hcerts hidle => provision_provisions hacc hkh hcerts hidle,
    fun h d s hp hmasks hdef hgood => ⟨fun hacc hdebug hnew => partCreate_creates hacc hp hmasks hdef hgood hdebug hnew,
      fun hacc hempty hjob => partResize_resizes hacc hmasks hdef hgood hempty hjob⟩,
    fun h s hacc hempty hjob => partDestroy_destroys hacc hempty hjob,
    fun h s hacc => partStatus_answers hacc⟩

end Sys2Proof.Machine
end

