-- ==== Sys2Proof/Proofs/PowerAndCounters.lean ====
section
/-! SUPPORT. Power, counter and log commands (R360, R476, R479, R480, R490 to R495, R499, R505): what each answers or sets. -/

namespace Sys2Proof.Machine
open Sys2Proof.Stmt

section
variable {s : State} {h : Hdr} {op : Nat}

/-- An accepted command that answers and changes no unit. -/
theorem exec_keeps {c : Instr} {r : Out} {absent enc : Bool} {body : State → Did} (hc : exec c s = r)
    (hr : r = s.command h op absent enc body) (hacc : Accepted s h op) (habs : absent = false) (henc : enc = true) {w : State} {st : Nat}
    {res : List (Nat × Nat)} (hbody : body (ready s h op) = (w, some (st, res))) (hplan : PlanKept (ready s h op) w)
    (hears : Hears (ready s h op) w) :
    exec c s = .next (w.post h op st res) ∧ PlanKept s (w.post h op st res) ∧ Answered (w.post h op st res) h op st res := by
  obtain ⟨hkept, hans⟩ := kept_post hacc hplan hears st res
  exact ⟨exec_accepted hc hr hacc habs henc hbody, hkept, hans⟩

theorem planKept_refl (s : State) : PlanKept s s := ⟨rfl, rfl, rfl, rfl, rfl, rfl⟩

theorem hears_refl (s : State) : Hears s s := ⟨rfl, rfl⟩

/-! ### Power (R360, R476, R479, R480) -/

theorem powerStatus_answers (hacc : Accepted s h 0x0701) : ∃ t rest, exec (.powerStatus h) s = .next t ∧ PlanKept s t ∧
    Answered t h 0x0701 0 ([(2, s.pwr.capW), (2, s.pwr.estW), (1, s.windReq), (1, s.floorReq), (1, s.rampReq), (1, s.gustReq)] ++ rest) := by
  have hframe := (ready_entered hacc).1
  have hgust : (ready s h 0x0701).pwr = s.pwr ∧ (ready s h 0x0701).windReq = s.windReq ∧ (ready s h 0x0701).floorReq = s.floorReq ∧
      (ready s h 0x0701).rampReq = s.rampReq ∧ (ready s h 0x0701).gustReq = s.gustReq := by
    rw [hframe]
    exact ⟨rfl, rfl, rfl, rfl, rfl⟩
  obtain ⟨hpwr, hwind, hfloor, hramp, hgust⟩ := hgust
  obtain ⟨hexec, hkept, hans⟩ := exec_keeps (c := .powerStatus h) (r := execPowerStatus h s) rfl rfl hacc rfl rfl rfl (planKept_refl _) (hears_refl _)
  rw [← hpwr, ← hwind, ← hfloor, ← hramp, ← hgust]
  exact ⟨_, _, hexec, hkept, hans⟩

theorem powerCapSet_sets {w : Nat} (hacc : Accepted s h 0x0702) (hlow : 1200 ≤ w) (hhigh : w ≤ s.fuses.capMax) :
    ∃ t, exec (.powerCapSet h w) s = .next t ∧ PlanKept s t ∧
      (s.allocSum ≤ w → Answered t h 0x0702 0 [] ∧ t.pwr = { s.pwr with capNext := some w }) ∧
      (w < s.allocSum → Answered t h 0x0702 0x05 [] ∧ t.pwr = s.pwr) := by
  have hframe := (ready_entered hacc).1
  have hpwr : (ready s h 0x0702).pwr = s.pwr := (congrArg State.pwr hframe :)
  have hfuses : (ready s h 0x0702).fuses = s.fuses := (congrArg State.fuses hframe :)
  have hsum : (ready s h 0x0702).allocSum = s.allocSum := by rw [hframe]; rfl
  have hin : ¬((ready s h 0x0702).fuses.capMax < w ∨ w < 1200) := by rw [hfuses]; omega
  have hrun := fun (v : State) (st : Nat) => exec_keeps (w := v) (st := st) (res := []) (c := .powerCapSet h w) (r := execPowerCapSet h w s)
    rfl rfl hacc rfl rfl
  generalize ready s h 0x0702 = u at hpwr hsum hin hrun
  by_cases hfits : s.allocSum ≤ w
  · obtain ⟨hexec, hkept, hans⟩ := hrun { u with pwr := { u.pwr with capNext := some w } } 0
      ((if_neg hin).trans (if_neg (by rw [hsum]; exact Nat.not_lt.2 hfits))) ⟨rfl, rfl, rfl, rfl, rfl, rfl⟩ ⟨rfl, rfl⟩
    exact ⟨_, hexec, hkept, fun _ => ⟨hans, by rw [State.post_pwr, hpwr]⟩, fun hover => absurd hfits (Nat.not_le.2 hover)⟩
  · obtain ⟨hexec, hkept, hans⟩ := hrun u 0x05 ((if_neg hin).trans (if_pos (by rw [hsum]; exact Nat.not_le.1 hfits))) (planKept_refl u)
      (hears_refl u)
    exact ⟨_, hexec, hkept, fun hin => absurd hin hfits, fun _ => ⟨hans, by rw [State.post_pwr, hpwr]⟩⟩

theorem powerFloorSet_sets {g : Nat} (hacc : Accepted s h 0x0703) (hg : g ≤ 5) : ∃ t, exec (.powerFloorSet h g) s = .next t ∧ PlanKept s t ∧
    Answered t h 0x0703 0 [] ∧ t.tu = { s.tu with floor := g } := by
  have htu : (ready s h 0x0703).tu = s.tu := (congrArg State.tu (ready_entered hacc).1 :)
  have hrun := fun v : State => exec_keeps (w := v) (st := 0) (res := []) (c := .powerFloorSet h g) (r := execPowerFloorSet h g s) rfl rfl hacc rfl
    (decide_eq_true hg)
  generalize ready s h 0x0703 = u at htu hrun
  obtain ⟨hexec, hkept, hans⟩ := hrun { u with tu := { u.tu with floor := g } } rfl ⟨rfl, rfl, rfl, rfl, rfl, rfl⟩ ⟨rfl, rfl⟩
  exact ⟨_, hexec, hkept, hans, by rw [State.post_tu, htu]⟩

theorem windbreakMode_sets {on : Bool} (hacc : Accepted s h 0x0704) (hidle : s.activeParts = []) : ∃ t, exec (.windbreakMode h on) s = .next t ∧
    PlanKept s t ∧ Answered t h 0x0704 0 [] ∧ t.pwr.gustAct = on ∧ (on = false → t.pwr.actReq = 0) ∧ t.pwr.capW = s.pwr.capW := by
  have hpwr : (ready s h 0x0704).pwr = s.pwr := (congrArg State.pwr (ready_entered hacc).1 :)
  have hactive := anyActive_of_activeParts (ready_entered hacc).parts hidle
  have hrun := fun v : State => exec_keeps (w := v) (st := 0) (res := []) (c := .windbreakMode h on) (r := execWindbreakMode h on s) rfl rfl hacc rfl rfl
  generalize ready s h 0x0704 = u at hpwr hactive hrun
  obtain ⟨hexec, hkept, hans⟩ := hrun { u with pwr := { u.pwr with gustAct := on, actReq := if on then u.pwr.actReq else 0, low16 := 0 } }
    (if_neg (by rw [hactive]; exact Bool.false_ne_true)) ⟨rfl, rfl, rfl, rfl, rfl, rfl⟩ ⟨rfl, rfl⟩
  refine ⟨_, hexec, hkept, hans, by rw [State.post_pwr], fun hoff => ?_, by rw [State.post_pwr, hpwr]⟩
  rw [State.post_pwr, hoff]
  rfl

theorem energyRead_answers (hacc : AcceptedFor s h 0x0705) : ∃ t, exec (.energyRead h) s = .next t ∧ PlanKept s t ∧
    Answered t h 0x0705 0 [(8, (s.part h.part).pw.energyMj)] := by
  have hrun : exec (.energyRead h) s = _ := State.onPartition_ready hacc rfl rfl _
  have hent := ready_entered hacc.1
  have hkept := fun st res => planKept_post hent.planKept h 0x0705 st res
  have hans := fun st res => answered_ready (t := ready s h 0x0705) hacc.1 rfl rfl st res
  rw [← hent.part]
  exact ⟨_, hrun, hkept _ _, hans _ _⟩

/-! ### Counters (R490 to R495) -/

theorem locAbsent_of_hasCounter {loc i : Nat} (hhas : s.hasCounter loc i = true) : s.locAbsent loc = false := by
  unfold State.hasCounter at hhas
  unfold State.locAbsent
  dsimp only at hhas
  split
  next hk => simp_all
  next hk => simp_all
  · rfl

/-- The counter under key `k`, wherever it is listed, satisfies `P`. -/
def CounterIs (P : Counter → Prop) (m : SMap Counter) (k : Nat) : Prop := (∀ e ∈ m, e.1 = k → P e.2) ∧ ((∀ e ∈ m, e.1 ≠ k) → P Counter.zero)

section
variable {P : Counter → Prop} {m : SMap Counter} {k : Nat}

theorem look_of_absent {α : Type} {d : α} {m : SMap α} {k : Nat} (h : ∀ e ∈ m, e.1 ≠ k) : look d m k = d := by
  by_contra hne
  exact h _ (mem_of_look_ne hne) rfl

theorem mem_look_or_absent {α : Type} (d : α) (m : SMap α) (k : Nat) : (k, look d m k) ∈ m ∨ ∀ e ∈ m, e.1 ≠ k := by
  induction m with
  | nil => exact .inr fun _ h => nomatch h
  | cons e m ih =>
    by_cases hk : k = e.1
    · refine .inl ?_
      rw [look, if_pos hk, hk]
      exact List.mem_cons_self
    · rw [look, if_neg hk]
      exact ih.imp (List.mem_cons_of_mem _) fun h x hx => (List.mem_cons.1 hx).elim (fun hx => hx ▸ Ne.symm hk) (h x)

theorem CounterIs.look (h : CounterIs P m k) : P (look Counter.zero m k) := by
  rcases mem_look_or_absent Counter.zero m k with hmem | habs
  · exact h.1 _ hmem rfl
  · rw [look_of_absent habs]
    exact h.2 habs

theorem counterIs_put {v : Counter} (h : P v) (m : SMap Counter) (k : Nat) : CounterIs P (put Counter.zero m k v) k := by
  refine ⟨fun e he hk => ?_, fun habs => ?_⟩
  · rcases mem_put he with heq | ⟨-, hne⟩
    · rw [heq]
      exact h
    · exact absurd hk hne
  · have hv := look_put_same Counter.zero m k v
    rw [look_of_absent habs] at hv
    rw [hv]
    exact h

theorem CounterIs.mapv {f : Nat → Counter → Counter} (hf : ∀ c, P c → P (f k c)) (h : CounterIs P m k) : CounterIs P (mapv Counter.zero m f) k := by
  obtain ⟨hall, hnone⟩ := h
  refine ⟨fun e he hk => ?_, fun habs => ?_⟩
  · obtain ⟨x, hx, rfl⟩ := List.mem_map.1 (List.mem_filter.1 he).1
    obtain rfl : x.1 = k := hk
    exact hf _ (hall x hx rfl)
  · by_cases hex : ∀ e ∈ m, e.1 ≠ k
    · exact hnone hex
    · push Not at hex
      obtain ⟨x, hx, rfl⟩ := hex
      have hz : f x.1 x.2 = Counter.zero := by
        by_contra hne
        exact habs (x.1, f x.1 x.2) (List.mem_filter.2 ⟨List.mem_map.2 ⟨x, hx, rfl⟩, decide_eq_true hne⟩) rfl
      exact hz ▸ hf _ (hall x hx rfl)

/-- The audit entry of a completion counts in the counters of the hub's event 0x40E alone. -/
theorem CounterIs.post (hP : ∀ c, P c → c.mode = 0 → c.event = 0x40E → P (c.bump 1)) {u : State} (h : CounterIs P u.counters k) (hd : Hdr)
    (op st : Nat) (res : List (Nat × Nat)) : CounterIs P (u.post hd op st res).counters k := by
  have hone : ∀ (v : State) (e : Audit), CounterIs P v.counters k → CounterIs P (v.auditOne e).counters k := fun v e hv => by
    have hcounters : (v.auditOne e).counters = Machine.mapv Counter.zero v.counters
        (fun j c => if j / 32 = locHub ∧ c.mode = 0 ∧ c.event = 0x40E then c.bump 1 else c) := rfl
    rw [hcounters]
    refine hv.mapv fun c hc => ?_
    split
    next hsel => exact hP c hc hsel.2.1 hsel.2.2
    next => exact hc
  have hcheck : ∀ v : State, CounterIs P v.counters k → CounterIs P v.checkpoint.counters k := fun v hv => by
    unfold State.checkpoint
    dsimp only
    refine hone _ _ ?_
    exact hv
  have hreply : ∀ (v : State) (key : Option Hash), CounterIs P v.counters k → CounterIs P (v.replyTo key hd op st res).counters k := fun v key hv => by
    rw [(congrArg State.counters (v.replyTo_frame key hd op st res) :)]
    exact hv
  unfold State.post State.postTo
  refine hreply _ _ ?_
  unfold State.auditAdd
  dsimp only
  split
  · exact hcheck _ (hone _ _ h)
  · exact hone _ _ h

end

end

section
variable {s : State} {h : Hdr}

/-- A counter that selects event `ev`, cleared unless the event is that of audit entries. -/
def Counter.fresh (ev : Nat) (c : Counter) : Prop := c.event = ev ∧ c.mode = 0 ∧ (ev ≠ 0x40E → c.value = 0 ∧ c.sticky = false)

/-- COUNTER_SET of an event. -/
theorem counterSet_selects {loc i ev : Nat} (hacc : Accepted s h 0x0801) (hhas : s.hasCounter loc i = true) (hev : eventOk (loc / 4096) ev = true) :
    ∃ t, exec (.counterSet h loc i ev 0) s = .next t ∧ PlanKept s t ∧ Answered t h 0x0801 0 [] ∧ (t.counter loc i).event = ev ∧
      (t.counter loc i).mode = 0 ∧ (ev ≠ 0x40E → (t.counter loc i).value = 0 ∧ (t.counter loc i).sticky = false) := by
  have hsame : (ready s h 0x0801).hasCounter loc i = true := by
    rw [← hhas, (ready_entered hacc).1]
    rfl
  have hrun := fun v : State => exec_keeps (w := v) (st := 0) (res := []) (c := .counterSet h loc i ev 0) (r := execCounterSet h loc i ev 0 s)
    rfl rfl hacc (locAbsent_of_hasCounter hhas) rfl
  generalize ready s h 0x0801 = u at hsame hrun
  obtain ⟨hexec, hkept, hans⟩ := hrun { u with counters := put Counter.zero u.counters (ctrKey loc i) { event := ev, mode := 0 } }
    (if_neg (by rw [hsame, if_pos rfl, hev]; decide)) ⟨rfl, rfl, rfl, rfl, rfl, rfl⟩ ⟨rfl, rfl⟩
  have hset : CounterIs (Counter.fresh ev) (put Counter.zero u.counters (ctrKey loc i) { event := ev, mode := 0 }) (ctrKey loc i) :=
    counterIs_put ⟨rfl, rfl, fun _ => ⟨rfl, rfl⟩⟩ _ _
  have hposted := CounterIs.post (u := { u with counters := put Counter.zero u.counters (ctrKey loc i) { event := ev, mode := 0 } })
    (fun c hc _ hsel => ⟨hc.1, hc.2.1, fun hne => absurd (hc.1.symm.trans hsel) hne⟩) hset h 0x0801 0 []
  obtain ⟨hevent, hmode, hclear⟩ := hposted.look
  refine ⟨_, hexec, hkept, hans, ?_⟩
  unfold State.counter
  dsimp only
  split
  · exact ⟨hevent, hmode, hclear⟩
  · exact ⟨hevent, hmode, fun _ => ⟨rfl, rfl⟩⟩

/-- The role of the session of an accepted command is that under which the command was given. -/
theorem ready_who {op : Nat} (hsession : sessionless op = false) (hacc : Accepted s h op) (hrole : ∀ x, s.session h.sid = some x → x.role ≠ .operator) :
    ((ready s h op).who h).role ≠ .operator := by
  have hready := fun x => ready_session (k := h.sid) (x := x) hacc
  obtain ⟨-, -, -, -, -, -, hses⟩ := hacc
  obtain ⟨x, hx, -⟩ := hses.resolve_left (by rw [hsession]; exact Bool.false_ne_true)
  obtain ⟨y, hy, hyrole, -⟩ := hready x hx
  rw [State.who, hy]
  exact hyrole ▸ hrole x hx

/-- COUNTER_READ of counters that a location has, by no operator. -/
theorem counterRead_answers {loc : Nat} {l : List Nat} (hacc : Accepted s h 0x0802) (hne : l ≠ []) (hlength : l.length ≤ 16)
    (hhas : ∀ i ∈ l, s.hasCounter loc i = true) (hrole : ∀ x, s.session h.sid = some x → x.role ≠ .operator) :
    ∃ t, exec (.counterRead h loc l) s = .next t ∧ PlanKept s t ∧ Answered t h 0x0802 0 (l.map (fun i =>
      (8, (if ((ready s h 0x0802).counter loc i).sticky then 2 ^ 63 else 0) + ((ready s h 0x0802).counter loc i).value.toNat))) := by
  have hsame : ∀ i ∈ l, (ready s h 0x0802).hasCounter loc i = true := fun i hi => by
    rw [← hhas i hi, (ready_entered hacc).1]
    rfl
  have hwho := ready_who rfl hacc hrole
  obtain ⟨i, hi⟩ := List.exists_mem_of_ne_nil l hne
  have hrun := fun res => exec_keeps (w := ready s h 0x0802) (st := 0) (res := res) (c := .counterRead h loc l) (r := execCounterRead h loc l s)
    rfl rfl hacc (locAbsent_of_hasCounter (hhas i hi)) rfl
  generalize ready s h 0x0802 = u at hsame hwho hrun ⊢
  have hmay : u.mayRead (u.who h) loc = true := by
    unfold State.mayRead
    rw [decide_eq_true hwho]
    rfl
  have hbits : ∀ b : Bool, 2 ^ 63 * b2n b = if b then 2 ^ 63 else 0 := fun b => by cases b <;> rfl
  obtain ⟨hexec, hkept, hans⟩ := hrun (l.map (fun i => (8, (if (u.counter loc i).sticky then 2 ^ 63 else 0) + (u.counter loc i).value.toNat)))
    (by
      rw [hmay, Bool.not_true, if_neg Bool.false_ne_true, if_neg (by
        rw [List.isEmpty_eq_false_iff.2 hne, decide_eq_false (Nat.not_lt.2 hlength), List.all_eq_true.2 hsame]
        decide)]
      simp only [hbits]
      rfl) (planKept_refl u) (hears_refl u)
  exact ⟨_, hexec, hkept, hans⟩

/-! ### The error log and health (R499, R505) -/

/-- ERROR_LOG_READ by no operator. -/
theorem errorLogRead_answers {first n : Nat} (hacc : Accepted s h 0x0803) (hrole : ∀ x, s.session h.sid = some x → x.role ≠ .operator) :
    ∃ t, exec (.errorLogRead h first n) s = .next t ∧ PlanKept s t ∧
      (first + 16384 < s.errNext → Answered t h 0x0803 0x07 []) ∧
      (s.errNext ≤ first + 16384 → Answered t h 0x0803 0
        (((s.errs.filter (fun e => decide (first ≤ e.index ∧ e.index < first + n))).map errFields).flatten)) := by
  have hwho := ready_who rfl hacc hrole
  have hnext : (ready s h 0x0803).errNext = s.errNext := (congrArg State.errNext (ready_entered hacc).1 :)
  have herrs : (ready s h 0x0803).errs = s.errs := (congrArg State.errs (ready_entered hacc).1 :)
  have hrun := fun st res => exec_keeps (w := ready s h 0x0803) (st := st) (res := res) (c := .errorLogRead h first n)
    (r := execErrorLogRead h first n s) rfl rfl hacc rfl rfl
  generalize ready s h 0x0803 = u at hwho hnext herrs hrun
  by_cases hold : first + 16384 < s.errNext
  · obtain ⟨hexec, hkept, hans⟩ := hrun 0x07 [] (if_pos (by rw [hnext]; exact hold)) (planKept_refl u) (hears_refl u)
    exact ⟨_, hexec, hkept, fun _ => hans, fun hnew => absurd hold (Nat.not_lt.2 hnew)⟩
  · obtain ⟨hexec, hkept, hans⟩ := hrun 0
      (((s.errs.filter (fun e => decide (first ≤ e.index ∧ e.index < first + n))).map errFields).flatten)
      ((if_neg (by rw [hnext]; exact hold)).trans (by
        dsimp only
        simp only [decide_eq_true hwho, Bool.true_or, Bool.and_true, herrs]
        rw [← List.flatMap_def, List.flatMap_eq_foldl]
        rfl)) (planKept_refl u) (hears_refl u)
    exact ⟨_, hexec, hkept, fun h => absurd h hold, fun _ => hans⟩

/-- Counting keeps the score and its round. -/
theorem count_score (s : State) (loc ev n : Nat) : (s.count loc ev n).health.score = s.health.score ∧
    (s.count loc ev n).health.round = s.health.round := by
  unfold State.count State.noteCe
  dsimp only
  split <;> exact ⟨rfl, rfl⟩

theorem ready_score {op : Nat} (hacc : Accepted s h op) : (ready s h op).health.score = s.health.score ∧
    (ready s h op).health.round = s.health.round := by
  obtain ⟨-, -, henc, hdma, -, -, hses⟩ := hacc
  have hbegin : (s.begin h op).health = s.health ∧ (s.begin h op).sessions = s.sessions ∧ (s.begin h op).parts = s.parts := by
    rw [s.begin_frame h op]
    exact ⟨rfl, rfl, rfl⟩
  obtain ⟨hhealth, hsessions, hparts⟩ := hbegin
  rw [← hhealth]
  unfold ready State.accepts
  dsimp only
  simp only [henc, hdma, Bool.not_true, Bool.or_false, Bool.false_and, Bool.false_eq_true, if_false]
  by_cases hless : sessionless op = true
  · rw [if_pos hless]
    exact count_score ..
  · obtain ⟨x, hx, hproved, htag, hcounter, hdenied⟩ := hses.resolve_left hless
    rw [if_neg hless, session_congr hsessions, hx]
    dsimp only
    rw [if_neg (by simp [hproved, ← htag, hcounter])]
    split <;> exact count_score ..

theorem length_foldl_pairs {α : Type} (f g : Nat → α) (l : List Nat) (a : List α) :
    (l.foldl (fun a i => a ++ [f i, g i]) a).length = a.length + 2 * l.length := by
  induction l generalizing a with
  | nil => rfl
  | cons i l ih =>
    rw [List.foldl_cons, ih, List.length_append, List.length_cons, List.length_cons, List.length_nil, List.length_cons]
    omega

/-- HEALTH_READ answers the score with its inputs. -/
theorem healthRead_answers (hacc : Accepted s h 0x0804) : ∃ t rest, exec (.healthRead h) s = .next t ∧ PlanKept s t ∧
    Answered t h 0x0804 0 ((2, s.health.score) :: (2, s.health.round) :: rest) ∧ rest.length = 30 := by
  have hscore := ready_score hacc
  have hrun := fun res => exec_keeps (w := ready s h 0x0804) (st := 0) (res := res) (c := .healthRead h) (r := execHealthRead h s) rfl rfl hacc rfl rfl
  generalize ready s h 0x0804 = u at hscore hrun
  obtain ⟨hexec, hkept, hans⟩ := hrun _ rfl (planKept_refl u) (hears_refl u)
  rw [← hscore.1, ← hscore.2]
  exact ⟨_, _, hexec, hkept, hans, by rw [length_foldl_pairs, List.length_range, List.length_nil]⟩

end

end Sys2Proof.Machine
end

