-- ==== Sys2Proof/Proofs/Firmware.lean ====
section
/-! SUPPORT. Cell, diagnostic and firmware commands (R177, R219, R437 to R439, R518): what each answers or sets. -/

namespace Sys2Proof.Machine
open Sys2Proof.Stmt

/-! ### Cells and diagnostics (R177, R219) -/

section
variable {s : State} {h : Hdr}

/-- Retiring a cell marks it, and records it once. -/
theorem retireCell_retires (s : State) {b c : Nat} (hc : c < 18) : (s.retireCell (32 * b + c) 0).parts = s.parts ∧
    (s.retireCell (32 * b + c) 0).cells = s.cells ∧ Hears s (s.retireCell (32 * b + c) 0) ∧
    (∀ k, k < 18 → (look 0#18 (s.retireCell (32 * b + c) 0).retired b).getLsbD k = ((look 0#18 s.retired b).getLsbD k || decide (k = c))) ∧
    (∀ k, k ≠ b → look 0#18 (s.retireCell (32 * b + c) 0).retired k = look 0#18 s.retired k) ∧
    ((look 0#18 s.retired b).getLsbD c = false → RaisedOne s (s.retireCell (32 * b + c) 0) .event 0xC0 []) := by
  have hblock : blockOf (32 * b + c) = b := by unfold blockOf; omega
  have hphys : physOf (32 * b + c) = c := by unfold physOf; omega
  unfold State.retireCell
  dsimp only
  rw [hblock, hphys]
  split
  next hold =>
    refine ⟨rfl, rfl, ⟨rfl, rfl⟩, fun k _ => ?_, fun _ _ => rfl, fun hnew => absurd hold (by rw [hnew]; exact Bool.false_ne_true)⟩
    by_cases hk : k = c
    · rw [hk, hold, decide_eq_true rfl, Bool.or_true]
    · rw [decide_eq_false hk, Bool.or_false]
  next hnew =>
    refine ⟨rfl, rfl, ⟨rfl, rfl⟩, fun k hk => ?_, fun k hk => ?_, fun _ => ⟨_, rfl, rfl, rfl, rfl, rfl⟩⟩
    · refine (congrArg (fun m : BitVec 18 => m.getLsbD k) (look_put_same 0#18 s.retired b _)).trans ?_
      exact getLsbD_or_two_pow_iff _ _ hk
    · exact look_put_ne 0#18 s.retired _ hk

/-- CELL_RETIRE of a cell of a block that is there. -/
theorem cellRetire_retires {b c : Nat} (hacc : Accepted s h 0x0810) (hb : b < 64) (hpresent : s.enginePresent b = true) (hc : c < 18) :
    ∃ t, exec (.cellRetire h b c) s = .next t ∧ Answered t h 0x0810 0 [] ∧ t.parts = s.parts ∧ t.cells = s.cells ∧
      (∀ k, k < 18 → (look 0#18 t.retired b).getLsbD k = ((look 0#18 s.retired b).getLsbD k || decide (k = c))) ∧
      (∀ k, k ≠ b → look 0#18 t.retired k = look 0#18 s.retired k) ∧
      ((look 0#18 s.retired b).getLsbD c = false → RaisedOne s t .event 0xC0 []) := by
  have hframe := (ready_entered hacc).1
  have hparts := (ready_entered hacc).parts
  have hcells := (ready_entered hacc).cells
  have hretired : (ready s h 0x0810).retired = s.retired := (congrArg State.retired hframe :)
  have hraised : (ready s h 0x0810).raised = s.raised := (congrArg State.raised hframe :)
  have hcycle : (ready s h 0x0810).cycle = s.cycle := (congrArg State.cycle hframe :)
  have hans := fun t : State => answered_ready (t := t) hacc
  have hexec := exec_accepted (w := (ready s h 0x0810).retireCell (32 * b + c) 0) (st := 0) (res := []) (c := .cellRetire h b c)
    (r := execCellRetire h b c s) rfl rfl hacc (by rw [hpresent]; exact Bool.and_false _) (decide_eq_true ⟨hb, hc⟩) rfl
  generalize ready s h 0x0810 = u at hparts hcells hretired hraised hcycle hans hexec
  obtain ⟨hkeeps, hkeepCells, hears, hbits, hothers, hrecorded⟩ := retireCell_retires u (b := b) hc
  generalize u.retireCell (32 * b + c) 0 = v at hexec hkeeps hkeepCells hears hbits hothers hrecorded
  rw [hretired] at hbits hothers hrecorded
  refine ⟨_, hexec, hans v hears.1 hears.2 _ _, by rw [State.post_parts, hkeeps, hparts], by rw [State.post_cells, hkeepCells, hcells],
    fun k hk => by rw [State.post_retired, hbits k hk], fun k hk => by rw [State.post_retired, hothers k hk], fun hnew => ?_⟩
  obtain ⟨r, hr, hcls, hcode, hrparts, hrcycle⟩ := hrecorded hnew
  exact ⟨r, by rw [State.post_raised, hr, hraised], hcls, hcode, hrparts, hrcycle.trans hcycle⟩

theorem diagnosed_kept (s : State) (kind unit : Nat) : (s.diagnosed kind unit).parts = s.parts ∧ (s.diagnosed kind unit).cells = s.cells ∧
    (s.diagnosed kind unit).retired = s.retired ∧ Hears s (s.diagnosed kind unit) := by
  unfold State.diagnosed
  split <;> exact ⟨rfl, rfl, rfl, rfl, rfl⟩

/-- The repair record no longer holds cell `c`. -/
def State.cellRestored (s : State) (c : Nat) : State :=
  { s with retired := put 0#18 s.retired (blockOf c) (look 0#18 s.retired (blockOf c) &&& ~~~(BitVec.ofNat 18 (2 ^ physOf c))) }

theorem cellRestored_retired (s : State) (c : Nat) : (look 0#18 (s.cellRestored c).retired (c / 32)).getLsbD (c % 32) = false ∧
    ∀ k, k ≠ c / 32 → look 0#18 (s.cellRestored c).retired k = look 0#18 s.retired k := by
  refine ⟨?_, fun k hk => look_put_ne 0#18 s.retired _ hk⟩
  refine (congrArg (fun m : BitVec 18 => m.getLsbD (c % 32)) (look_put_same 0#18 s.retired (c / 32) _)).trans ?_
  rw [getLsbD_clear_two_pow]
  simp [physOf]

/-- DIAG_RUN and RMA_DIAG of a unit that is there and idle. -/
theorem diagnostics_answer {kind unit : Nat} {test c : Nat} {r : DiagOut} (habsent : s.unitAbsent kind unit = false) (hexists : unitExists kind unit = true)
    (hidle : s.unitBusy kind unit = false) (hgood : r.fault = false) :
    (Accepted s h 0x0811 → ∃ t, exec (.diagRun h kind unit r) s = .next t ∧ t.parts = s.parts ∧ t.cells = s.cells ∧
      Answered t h 0x0811 0 [(8, r.mask)]) ∧
    (Accepted s h 0x0820 → unitExists 1 c = true → s.unitAbsent 1 c = false → ∃ t, exec (.rmaDiag h kind unit test r (some c)) s = .next t ∧
      t.parts = s.parts ∧ Answered t h 0x0820 0 [(8, r.mask)] ∧ (look 0#18 t.retired (c / 32)).getLsbD (c % 32) = false ∧
      ∀ k, k ≠ c / 32 → look 0#18 t.retired k = look 0#18 s.retired k) := by
  have hstill : ∀ {op : Nat}, Accepted s h op → (ready s h op).unitBusy kind unit = false := fun hacc => by
    rw [← hidle, (ready_entered hacc).1]
    rfl
  refine ⟨fun hacc => ?_, fun hacc hcell hpresent => ?_⟩
  · have hparts := (ready_entered hacc).parts
    have hcells := (ready_entered hacc).cells
    have hans := fun t : State => answered_ready (t := t) hacc
    have hexec := fun w => exec_accepted (w := w) (st := 0) (res := [(8, r.mask)]) (c := .diagRun h kind unit r) (r := execDiagRun h kind unit r s)
      rfl rfl hacc habsent hexists
    have hfree := hstill hacc
    generalize ready s h 0x0811 = u at hparts hcells hans hexec hfree
    specialize hexec (u.diagnosed kind unit) (by rw [hfree, hgood, if_neg Bool.false_ne_true, if_neg Bool.false_ne_true]; rfl)
    obtain ⟨hkeeps, hkeepCells, -, hears⟩ := diagnosed_kept u kind unit
    exact ⟨_, hexec, by rw [State.post_parts, hkeeps, hparts], by rw [State.post_cells, hkeepCells, hcells], hans _ hears.1 hears.2 _ _⟩
  · have hparts := (ready_entered hacc).parts
    have hretired : (ready s h 0x0820).retired = s.retired := (congrArg State.retired (ready_entered hacc).1 :)
    have hans := fun t : State => answered_ready (t := t) hacc
    have hexec := fun w => exec_accepted (w := w) (st := 0) (res := [(8, r.mask)]) (c := .rmaDiag h kind unit test r (some c))
      (r := execRmaDiag h kind unit test r (some c) s) rfl rfl hacc (by rw [habsent, Option.any_some, hpresent]; rfl)
      (by rw [hexists, Option.all_some, hcell]; rfl)
    have hfree := hstill hacc
    generalize ready s h 0x0820 = u at hparts hretired hans hexec hfree
    specialize hexec ((u.diagnosed kind unit).cellRestored c) (by rw [hfree, hgood, if_neg Bool.false_ne_true, if_neg Bool.false_ne_true]; rfl)
    obtain ⟨hkeeps, -, hkeepRetired, hears⟩ := diagnosed_kept u kind unit
    generalize u.diagnosed kind unit = v at hexec hkeeps hkeepRetired hears
    obtain ⟨hcleared, hothers⟩ := cellRestored_retired v c
    refine ⟨_, hexec, ?_, hans (v.cellRestored c) hears.1 hears.2 _ _, by rw [State.post_retired, hcleared], fun k hk => ?_⟩
    · rw [State.post_parts, ← hparts, ← hkeeps]
      rfl
    · rw [State.post_retired, hothers k hk, hkeepRetired, hretired]

end

/-! ### Firmware banks (R437 to R439) -/

theorem FwT.image_fill (f : FwT) (x : Option FwImage) (i : Option (Option Hdr × FwImage)) :
    ({ f.fill x with install := i } : FwT).image true = x ∧ ({ f.fill x with install := i } : FwT).image false = f.image false := by
  unfold FwT.fill FwT.image
  cases f.bankB <;> exact ⟨rfl, rfl⟩

/-- What a change of one processor's firmware state leaves. -/
theorem setFw_kept (s : State) (tg : FwTarget) (f : FwT) : (s.setFw tg f).fw tg = f ∧ PlanKept s (s.setFw tg f) ∧ Hears s (s.setFw tg f) := by
  cases tg <;> exact ⟨rfl, ⟨rfl, rfl, rfl, rfl, rfl, rfl⟩, rfl, rfl⟩

theorem fw_congr {s t : State} (hsp : t.spFw = s.spFw) (hmg : t.mgFw = s.mgFw) (tg : FwTarget) : t.fw tg = s.fw tg := by
  cases tg
  · exact hsp
  · exact hmg

theorem State.post_fw (s : State) (h : Hdr) (op st : Nat) (res : List (Nat × Nat)) (tg : FwTarget) : (s.post h op st res).fw tg = s.fw tg :=
  fw_congr (s.post_spFw ..) (s.post_mgFw ..) tg

/-- A completion for a command that may have none waiting. -/
theorem post?_kept (s : State) (hd : Option Hdr) (op st : Nat) (res : List (Nat × Nat)) : PlanKept s (s.post? hd op st res) ∧
    (∀ tg, (s.post? hd op st res).fw tg = s.fw tg) ∧ ∀ h, hd = some h → s.post? hd op st res = s.post h op st res := by
  cases hd with
  | none => exact ⟨⟨rfl, rfl, rfl, rfl, rfl, rfl⟩, fun _ => rfl, fun _ h => nomatch h⟩
  | some h => exact ⟨planKept_post ⟨rfl, rfl, rfl, rfl, rfl, rfl⟩ h op st res, fun tg => s.post_fw h op st res tg, fun _ h => by rw [Option.some.inj h]; rfl⟩

section
variable {s : State} {h : Hdr} {op : Nat} {tg : FwTarget}

/-- An accepted command that is not answered yet. -/
theorem exec_pending {c : Instr} {r : Out} {absent enc : Bool} {body : State → Did} (hc : exec c s = r)
    (hr : r = s.command h op absent enc body) (hacc : Accepted s h op) (habs : absent = false) (henc : enc = true) {w : State}
    (hbody : body (ready s h op) = (w, none)) : exec c s = .next w := by
  rw [hc, hr, habs, henc, State.command_ready hacc, hbody]

theorem fw_entered {u : State} (hu : Entered s u h op) (tg : FwTarget) : u.fw tg = s.fw tg :=
  fw_congr (congrArg State.spFw hu.1 :) (congrArg State.mgFw hu.1 :) tg

/-- FW_INSTALL of an image that verifies empties the inactive bank. -/
theorem fwInstall_begins {img : FwImage} (hacc : Accepted s h 0x0901) (hfn : h.fn ≠ 17)
    (hidle : s.installing = false) (hverifies : (s.fw tg).verifies img = true) : ∃ t, exec (.fwInstall h tg img) s = .next t ∧ PlanKept s t ∧
      (t.fw tg).install = some (some h, img) ∧ (t.fw tg).image true = none ∧ (t.fw tg).image false = (s.fw tg).image false := by
  have hfw := fw_entered (ready_entered hacc) tg
  have hplan := (ready_entered hacc).planKept
  have hinstalling : (ready s h 0x0901).installing = false := by
    rw [← hidle, (ready_entered hacc).1]
    rfl
  have hdirect : ¬(s.boot.phase = .bootFail ∧ h.fn = 17) := fun hboot => hfn hboot.2
  have hexec := fun w => exec_pending (w := w) (c := .fwInstall h tg img) (r := execFwInstall h tg img s) rfl (if_neg hdirect) hacc rfl
    (decide_eq_true hfn)
  generalize ready s h 0x0901 = u at hfw hplan hinstalling hexec
  obtain ⟨hset, hkept, -⟩ := setFw_kept u tg { (u.fw tg).fill none with install := some (some h, img) }
  specialize hexec (u.setFw tg { (u.fw tg).fill none with install := some (some h, img) }) (by
    unfold State.beginInstall
    rw [hinstalling, if_neg Bool.false_ne_true, dmaOk_of_accepted hacc, if_neg (by decide), hfw, hverifies, if_neg (by decide)])
  obtain ⟨hother, hactive⟩ := (u.fw tg).image_fill none (some (some h, img))
  refine ⟨_, hexec, planKept_trans hplan hkept, ?_, ?_, ?_⟩
  · rw [hset]
  · rw [hset]
    exact hother
  · rw [hset, ← hfw]
    exact hactive

/-- FW_INSTALL_DONE. -/
theorem fwInstallDone_fills {good : Bool} {hd : Option Hdr} {img : FwImage} (hinstall : (s.fw tg).install = some (hd, img)) :
    ∃ t, exec (.fwInstallDone tg good) s = .next t ∧ PlanKept s t ∧ (t.fw tg).install = none ∧
      (t.fw tg).image true = (if good then some img else none) ∧ (t.fw tg).image false = (s.fw tg).image false ∧
      ∀ h, hd = some h → Listening s h 0x0901 → Answered t h 0x0901 (if good then 0 else 0x09) [] := by
  have hexec : exec (.fwInstallDone tg good) s = .next ((s.setFw tg { (s.fw tg).fill (if good then some img else none) with install := none }).post?
      hd 0x0901 (if good then 0 else 0x09) []) := by
    change execFwInstallDone tg good s = _
    unfold execFwInstallDone
    dsimp only
    rw [hinstall]
    rfl
  obtain ⟨hset, hkept, hears⟩ := setFw_kept s tg { (s.fw tg).fill (if good then some img else none) with install := none }
  obtain ⟨hother, hactive⟩ := (s.fw tg).image_fill (if good then some img else none) none
  generalize s.setFw tg { (s.fw tg).fill (if good then some img else none) with install := none } = u at hexec hset hkept hears
  obtain ⟨hposted, hfw, hanswers⟩ := post?_kept u hd 0x0901 (if good then 0 else 0x09) []
  refine ⟨_, hexec, planKept_trans hkept hposted, ?_, ?_, ?_, fun h hh ⟨hmute, hring⟩ => ?_⟩
  · rw [hfw, hset]
  · rw [hfw, hset]
    exact hother
  · rw [hfw, hset]
    exact hactive
  · rw [hanswers h hh]
    refine State.post_answered u h 0x0901 _ [] ?_ ?_
    · rw [hears.1]
      exact hmute
    · rw [State.ring_congr hears.2]
      exact hring

end

/-! ### Firmware that runs (R438, R439) -/

/-- An event goes to event rings alone. -/
theorem event_completion (s : State) (kind part : Nat) (args : List Nat) (fn k : Nat) : (s.event kind part args).ring fn k 1 = s.ring fn k 1 := by
  have hsignal : ∀ (u : State) (f j v : Nat), (u.signal f j v).rings = u.rings := fun u f j v => by
    unfold State.signal
    split <;> rfl
  have hone : ∀ (u : State) (f j : Nat) (e : Event), (u.eventTo f j e).ring fn k 1 = u.ring fn k 1 := fun u f j e => by
    have hkey : ringKey fn k 1 ≠ ringKey f j 2 := by unfold ringKey; omega
    unfold State.eventTo
    dsimp only
    split
    · rfl
    · split
      · rw [State.ring_congr (hsignal ..)]
        exact State.setRing_ring_ne u _ hkey
      · exact State.setRing_ring_ne u _ hkey
  unfold State.event
  dsimp only
  split
  · rfl
  · split <;> simp only [hone]

/-- What new firmware that runs leaves. -/
theorem activated_kept (s : State) (tg : FwTarget) : PlanKept s (s.activated tg) ∧ (s.activated tg).spFw = s.spFw ∧
    (s.activated tg).mgFw = s.mgFw ∧ ((∀ h op, Listening s h op → Listening (s.activated tg) h op)) := by
  obtain ⟨u, hu⟩ : ∃ u : State, u = match tg with
    | .security => { s with spRun := ((s.fw tg).image false).elim 0 (·.digest), keys := { s.keys with attestEp := s.keys.attestEp + 1 } }
    | .management => { s with mgRun := ((s.fw tg).image false).elim 0 (·.digest), mgmtDown := false, rota := 0, rotaSet := 0 } := ⟨_, rfl⟩
  have heq : s.activated tg = (u.auditAdd .module 0x07 0 0 0xFF 0 0 0).event 0x09 0xFF [] := by
    rw [hu]
    cases tg <;> rfl
  have hkept : PlanKept s u ∧ u.spFw = s.spFw ∧ u.mgFw = s.mgFw ∧ u.mute = s.mute ∧ u.rings = s.rings := by
    rw [hu]
    cases tg <;> exact ⟨⟨rfl, rfl, rfl, rfl, rfl, rfl⟩, rfl, rfl, rfl, rfl⟩
  obtain ⟨⟨hparts, hcells, hblocks, hstks, hcold, hraised⟩, hsp, hmg, hmute, hrings⟩ := hkept
  rw [heq]
  refine ⟨⟨by simp [hparts], by simp [hcells], by simp [hblocks], by simp [hstks], by simp [hcold], by simp [hraised]⟩, by simp [hsp], by simp [hmg],
    fun h op ⟨hloud, hring⟩ => ⟨by simpa [hmute] using hloud, ?_⟩⟩
  rw [event_completion, State.ring_congr (State.auditAdd_rings ..), State.ring_congr hrings]
  exact hring

theorem activated_security (s : State) : (s.activated .security).spRun = (s.spFw.image false).elim 0 (·.digest) ∧
    (s.activated .security).keys.attestEp = s.keys.attestEp + 1 := by
  unfold State.activated
  exact ⟨by simp only [State.event_spRun, State.auditAdd_spRun]; rfl, by simp only [State.event_keys, State.auditAdd_keys]⟩

theorem activated_management (s : State) : (s.activated .management).mgRun = (s.mgFw.image false).elim 0 (·.digest) ∧
    (s.activated .management).mgmtDown = false := by
  unfold State.activated
  exact ⟨by simp only [State.event_mgRun, State.auditAdd_mgRun]; rfl, by simp only [State.event_mgmtDown, State.auditAdd_mgmtDown]⟩

/-- Between `s` and `t` sessions ended, with their audit entries. -/
structure SessionsEnd (s t : State) : Prop where
  frame : t = { s with sessions := t.sessions, counters := t.counters, health := t.health, audit := t.audit, auditIdx := t.auditIdx
                       auditHead := t.auditHead, checks := t.checks }
  gone : ∀ k, s.session k = none → t.session k = none

theorem SessionsEnd.trans {s t u : State} (hst : SessionsEnd s t) (htu : SessionsEnd t u) : SessionsEnd s u := by
  refine ⟨?_, fun k hk => htu.gone k (hst.gone k hk)⟩
  rw [htu.frame, hst.frame]

theorem sessionsEnd_endSession (s : State) (sid : Nat) : SessionsEnd s (s.endSession sid) :=
  ⟨s.endSession_frame sid, fun k hk => by rw [endSession_session, hk, ite_self]⟩

theorem foldl_endSession (l : List (Nat × Option Session)) (s : State) : SessionsEnd s (l.foldl (fun t e => t.endSession e.1) s) ∧
    ∀ e ∈ l, (l.foldl (fun t e => t.endSession e.1) s).session e.1 = none := by
  induction l generalizing s with
  | nil => exact ⟨⟨rfl, fun _ h => h⟩, fun _ h => nomatch h⟩
  | cons e l ih =>
    obtain ⟨hend, hall⟩ := ih (s.endSession e.1)
    refine ⟨(sessionsEnd_endSession s e.1).trans hend, fun x hx => ?_⟩
    rcases List.mem_cons.1 hx with rfl | hx
    · exact hend.gone x.1 (by rw [endSession_session, if_pos rfl])
    · exact hall x hx

/-- When every session ends, none is left. -/
theorem endSessions_ends (s : State) : SessionsEnd s s.endSessions ∧ ∀ k, s.endSessions.session k = none := by
  obtain ⟨hend, hall⟩ := foldl_endSession s.sessions s
  refine ⟨hend, fun k => ?_⟩
  by_cases hk : s.session k = none
  · exact hend.gone k hk
  · exact hall (k, s.session k) (mem_of_look_ne hk)

section
variable {s : State} {h : Hdr} {tg : FwTarget}

/-- The other bank becomes the bank in use. -/
def State.bankSwitched (s : State) (h : Hdr) (tg : FwTarget) : State :=
  s.setFw tg { s.fw tg with bankB := !(s.fw tg).bankB, activ := some h, activAt := s.wallNs }

/-- Security firmware runs and completes its activation. -/
def State.securityRuns (s : State) (h : Hdr) : State :=
  ((((s.bankSwitched h .security).setFw .security { (s.bankSwitched h .security).fw .security with activ := none }).activated .security).post
    h 0x0902 0 []).endSessions

theorem image_of_good {f : FwT} {img : FwImage} (hgood : f.good (!f.bankB) = some img) :
    ({ f with bankB := !f.bankB } : FwT).image false = some img := by
  unfold FwT.good at hgood
  obtain ⟨himg, -⟩ := Option.filter_eq_some_iff.1 hgood
  unfold FwT.image
  simpa using himg

theorem securityRuns_runs {u : State} {img : FwImage} (hlisten : Listening u h 0x0902) (hgood : u.spFw.good (!u.spFw.bankB) = some img) :
    PlanKept u (u.securityRuns h) ∧ (u.securityRuns h).spFw.bankB = !u.spFw.bankB ∧ (u.securityRuns h).spRun = img.digest ∧
      (u.securityRuns h).keys.attestEp = u.keys.attestEp + 1 ∧ (∀ sid, (u.securityRuns h).session sid = none) ∧
      Answered (u.securityRuns h) h 0x0902 0 [] := by
  obtain ⟨v, hv⟩ : ∃ v : State, v = (u.bankSwitched h .security).setFw .security { (u.bankSwitched h .security).fw .security with activ := none } :=
    ⟨_, rfl⟩
  have hfw : v.spFw = { u.spFw with bankB := !u.spFw.bankB, activ := none, activAt := u.wallNs } := by rw [hv]; rfl
  have hkept : PlanKept u v ∧ v.keys = u.keys ∧ v.mute = u.mute ∧ v.rings = u.rings := by
    rw [hv]
    exact ⟨⟨rfl, rfl, rfl, rfl, rfl, rfl⟩, rfl, rfl, rfl⟩
  obtain ⟨hplan, hkeys, hmute, hrings⟩ := hkept
  obtain ⟨hactivated, hsp, -, hheard⟩ := activated_kept v .security
  obtain ⟨hrun, hep⟩ := activated_security v
  have himg : v.spFw.image false = some img := by
    rw [hfw]
    exact image_of_good hgood
  unfold State.securityRuns
  rw [← hv]
  generalize v.activated .security = x at hactivated hsp hheard hrun hep ⊢
  obtain ⟨hloud, hring⟩ := hheard h 0x0902 ⟨by rw [hmute]; exact hlisten.1, by rw [State.ring_congr hrings]; exact hlisten.2⟩
  have hans := State.post_answered x h 0x0902 0 [] hloud hring
  have hposted := planKept_post (planKept_trans hplan hactivated) h 0x0902 0 []
  have hsp' : (x.post h 0x0902 0 []).spFw = x.spFw := State.post_spFw ..
  have hrun' : (x.post h 0x0902 0 []).spRun = x.spRun := State.post_spRun ..
  have hkeys' : (x.post h 0x0902 0 []).keys = x.keys := State.post_keys ..
  generalize x.post h 0x0902 0 [] = y at hans hposted hsp' hrun' hkeys' ⊢
  obtain ⟨⟨hframe, -⟩, hgone⟩ := endSessions_ends y
  generalize y.endSessions = z at hframe hgone ⊢
  obtain ⟨phase, trunc, tag, hsent⟩ := hans
  refine ⟨planKept_trans hposted ?_, ?_, ?_, ?_, hgone, phase, trunc, tag, ?_⟩
  · rw [hframe]
    exact ⟨rfl, rfl, rfl, rfl, rfl, rfl⟩
  · rw [(congrArg State.spFw hframe :), hsp', hsp, hfw]
  · rw [(congrArg State.spRun hframe :), hrun', hrun, himg]
    rfl
  · rw [(congrArg State.keys hframe :), hkeys', hep, hkeys]
  · rw [(congrArg State.out hframe :)]
    exact hsent

/-- FW_ACTIVATE of a bank that holds a good image. -/
theorem fwActivate_switches {img : FwImage} (hacc : Accepted s h 0x0902) (hinstall : s.installing = false) (hsp : s.spFw.activ = none)
    (hmg : s.mgFw.activ = none) (hgood : (s.fw tg).good (!(s.fw tg).bankB) = some img) : ∃ t, exec (.fwActivate h tg true) s = .next t ∧
      PlanKept s t ∧ (t.fw tg).bankB = !(s.fw tg).bankB ∧
      (tg = .management → t.mgmtDown = true ∧ t.mgFw.activ = some h ∧ t.mgFw.activAt = s.wallNs) ∧
      (tg = .security → t.spRun = img.digest ∧ t.keys.attestEp = s.keys.attestEp + 1 ∧ (∀ sid, t.session sid = none) ∧
        Answered t h 0x0902 0 []) := by
  have hent := ready_entered hacc
  have hfw := fw_entered hent tg
  have hspSame : (ready s h 0x0902).spFw = s.spFw := (congrArg State.spFw hent.1 :)
  have hmgSame : (ready s h 0x0902).mgFw = s.mgFw := (congrArg State.mgFw hent.1 :)
  have hkeys : (ready s h 0x0902).keys = s.keys := (congrArg State.keys hent.1 :)
  have hplan := hent.planKept
  have hwall := hent.wallNs
  have hlisten := hent.2
  have hinstalling : (ready s h 0x0902).installing = false := by
    rw [← hinstall, hent.1]
    rfl
  have hexec := fun w => exec_pending (w := w) (c := .fwActivate h tg true) (r := execFwActivate h tg true s) rfl rfl hacc rfl rfl
  generalize ready s h 0x0902 = u at hfw hspSame hmgSame hkeys hplan hwall hlisten hinstalling hexec
  have hfree : ¬(u.installing || u.spFw.activ.isSome || u.mgFw.activ.isSome) = true := by rw [hinstalling, hspSame, hmgSame, hsp, hmg]; decide
  have hheld : ¬((u.fw tg).good (!(u.fw tg).bankB)).isNone = true := by rw [hfw, hgood]; exact Bool.false_ne_true
  cases tg with
  | management =>
    have hbody := hexec { u.bankSwitched h .management with mgmtDown := true } ((if_neg hfree).trans ((if_neg hheld).trans rfl))
    refine ⟨_, hbody, planKept_trans hplan ⟨rfl, rfl, rfl, rfl, rfl, rfl⟩, congrArg (fun f : FwT => !f.bankB) hfw, fun _ => ⟨rfl, rfl, hwall⟩,
      fun h => nomatch h⟩
  | security =>
    have hbody := hexec (u.securityRuns h) ((if_neg hfree).trans ((if_neg hheld).trans rfl))
    obtain ⟨hkept, hbank, hrun, hep, hgone, hans⟩ := securityRuns_runs (u := u) (h := h) (img := img) hlisten (by rw [hspSame]; exact hgood)
    exact ⟨_, hbody, planKept_trans hplan hkept, hbank.trans (by rw [hspSame]; rfl), fun h => (nomatch h),
      fun _ => ⟨hrun, by rw [hep, hkeys], hgone, hans⟩⟩

/-- MANAGEMENT_RESTART_DONE after an activation. -/
theorem managementRestartDone_runs (hactiv : s.mgFw.activ = some h) : ∃ t, exec .managementRestartDone s = .next t ∧ PlanKept s t ∧
    t.mgmtDown = false ∧ t.mgFw.activ = none ∧ (∀ img, s.mgFw.image false = some img → t.mgRun = img.digest) ∧
    (Listening s h 0x0902 → Answered t h 0x0902 0 []) := by
  have hexec : exec .managementRestartDone s =
      .next ((({ s with mgFw := { s.mgFw with activ := none } } : State).activated .management).post h 0x0902 0 []) := by
    change execManagementRestartDone s = _
    unfold execManagementRestartDone
    rw [hactiv]
    rfl
  obtain ⟨hplan, -, hmg, hlisten⟩ := activated_kept { s with mgFw := { s.mgFw with activ := none } } .management
  obtain ⟨hrun, hup⟩ := activated_management { s with mgFw := { s.mgFw with activ := none } }
  generalize ({ s with mgFw := { s.mgFw with activ := none } } : State).activated .management = v at hexec hplan hmg hlisten hrun hup
  refine ⟨_, hexec, planKept_post hplan _ _ _ _, by rw [State.post_mgmtDown, hup], by rw [State.post_mgFw, hmg], fun img himg => ?_, fun hl => ?_⟩
  · rw [State.post_mgRun, hrun]
    exact congrArg (fun o : Option FwImage => o.elim 0 (·.digest)) himg
  · obtain ⟨hmute, hring⟩ := hlisten h 0x0902 hl
    exact State.post_answered v h 0x0902 0 [] hmute hring

/-- The activation is given up: the previous bank is in use and the bank left is erased. -/
def State.bankReturned (s : State) (tg : FwTarget) : State :=
  if tg = FwTarget.management then { s.setFw tg (({ s.fw tg with bankB := !(s.fw tg).bankB, activ := none } : FwT).fill none) with
      mgmtDown := false, rota := 0, rotaSet := 0 }
  else s.setFw tg (({ s.fw tg with bankB := !(s.fw tg).bankB, activ := none } : FwT).fill none)

theorem bankReturned_kept (s : State) (tg : FwTarget) : PlanKept s (s.bankReturned tg) ∧ Hears s (s.bankReturned tg) ∧
    (s.bankReturned tg).fw tg = ({ s.fw tg with bankB := !(s.fw tg).bankB, activ := none } : FwT).fill none := by
  cases tg <;> exact ⟨⟨rfl, rfl, rfl, rfl, rfl, rfl⟩, ⟨rfl, rfl⟩, rfl⟩

theorem fwActivateTimeout_waits (hwait : s.wallNs < (s.fw tg).activAt + 10 ^ 10) : exec (.fwActivateTimeout tg) s = .next s := by
  change execFwActivateTimeout tg s = _
  unfold execFwActivateTimeout
  dsimp only
  split
  · rfl
  · exact if_pos hwait

/-- FW_ACTIVATE_TIMEOUT, 10 s after the activation. -/
theorem fwActivateTimeout_returns (hactiv : (s.fw tg).activ = some h) (hlate : (s.fw tg).activAt + 10 ^ 10 ≤ s.wallNs) :
    ∃ t, exec (.fwActivateTimeout tg) s = .next t ∧ PlanKept s t ∧ (t.fw tg).bankB = !(s.fw tg).bankB ∧ (t.fw tg).activ = none ∧
      (t.fw tg).image true = none ∧ (Listening s h 0x0902 → Answered t h 0x0902 0x09 []) := by
  have hexec : exec (.fwActivateTimeout tg) s = .next ((s.bankReturned tg).post h 0x0902 0x09 []) := by
    change execFwActivateTimeout tg s = _
    unfold execFwActivateTimeout
    dsimp only
    rw [hactiv]
    exact if_neg (Nat.not_lt.2 hlate)
  obtain ⟨hplan, ⟨hmute, hrings⟩, hfw⟩ := bankReturned_kept s tg
  generalize s.bankReturned tg = v at hexec hplan hmute hrings hfw
  have hfields : ∀ f : FwT, (f.fill none).bankB = f.bankB ∧ (f.fill none).activ = f.activ := fun f => by
    unfold FwT.fill
    split <;> exact ⟨rfl, rfl⟩
  refine ⟨_, hexec, planKept_post hplan _ _ _ _, ?_, ?_, ?_, fun ⟨hloud, hring⟩ => State.post_answered v h 0x0902 0x09 [] ?_ ?_⟩
  · rw [State.post_fw, hfw, (hfields _).1]
  · rw [State.post_fw, hfw, (hfields _).2]
  · rw [State.post_fw, hfw]
    exact (FwT.image_fill { s.fw tg with bankB := !(s.fw tg).bankB, activ := none } none
      (({ s.fw tg with bankB := !(s.fw tg).bankB, activ := none } : FwT).fill none).install).1
  · rw [hmute]
    exact hloud
  · rw [State.ring_congr hrings]
    exact hring

theorem fwStatus_answers (hacc : Accepted s h 0x0903) : ∃ t, exec (.fwStatus h tg) s = .next t ∧ PlanKept s t ∧
    Answered t h 0x0903 0 (bankFields (s.fw tg).a ++ bankFields (s.fw tg).b ++ [(4, (s.fw tg).min)]) := by
  have hrun := fun res => exec_keeps (w := ready s h 0x0903) (st := 0) (res := res) (c := .fwStatus h tg) (r := execFwStatus h tg s) rfl rfl hacc rfl rfl
  obtain ⟨hexec, hkept, hans⟩ := hrun _ rfl (planKept_refl _) (hears_refl _)
  rw [← fw_entered (ready_entered hacc)]
  exact ⟨_, hexec, hkept, hans⟩

/-- FW_MIN_ADVANCE to the version of the bank in use. -/
theorem fwMinAdvance_advances {a : FwImage} (hacc : Accepted s h 0x0904) (ha : (s.fw tg).image false = some a)
    (hother : ∀ b, (s.fw tg).image true = some b → a.version ≤ b.version) : ∃ t, exec (.fwMinAdvance h tg) s = .next t ∧ PlanKept s t ∧
      Answered t h 0x0904 0 [] ∧ (t.fw tg).min = max (s.fw tg).min a.version := by
  have hfw := fw_entered (ready_entered hacc) tg
  have hrun := fun w => exec_keeps (w := w) (st := 0) (res := []) (c := .fwMinAdvance h tg) (r := execFwMinAdvance h tg s) rfl rfl hacc rfl rfl
  generalize ready s h 0x0904 = u at hfw hrun
  obtain ⟨hset, hplan, hears⟩ := setFw_kept u tg { u.fw tg with min := max (u.fw tg).min a.version }
  have hnewer : ((u.fw tg).image true).all (fun i => decide (a.version ≤ i.version)) = true := by
    rw [hfw]
    cases hi : (s.fw tg).image true with
    | none => rfl
    | some b => exact decide_eq_true (hother b hi)
  obtain ⟨hexec, hkept, hans⟩ := hrun (u.setFw tg { u.fw tg with min := max (u.fw tg).min a.version }) (by
    dsimp only
    rw [hfw] at hnewer ⊢
    rw [ha, Option.elim_some, hnewer, if_neg (by decide)]
    rfl) hplan hears
  exact ⟨_, hexec, hkept, hans, by rw [State.post_fw, hset, hfw]⟩

end

end Sys2Proof.Machine
end

