-- ==== Sys2Proof/Proofs/ServiceCommands.lean ====
section
/-! PROOF. Calibration, port, link and fuse commands (R511, R516, R517), and the service commands as a whole: O56. -/

namespace Sys2Proof.Machine
open Sys2Proof.Stmt

section
variable {s : State} {h : Hdr}

/-! ### Calibration (R511, R516, R517) -/

theorem calRead_sends {host : Nat} (hacc : Accepted s h 0x0910) (hfn : h.fn ≠ 17) : ∃ t, exec (.calRead h host) s = .next t ∧ PlanKept s t ∧
    Answered t h 0x0910 0 [] ∧ Sent.calSet host s.calFlash ∈ t.out := by
  have hflash : (ready s h 0x0910).calFlash = s.calFlash := (congrArg State.calFlash (ready_entered hacc).1 :)
  have hrun := fun w => exec_keeps (w := w) (st := 0) (res := []) (c := .calRead h host) (r := execCalRead h host s) rfl rfl hacc rfl (decide_eq_true hfn)
  obtain ⟨-, -, -, -, hres, -⟩ := hacc
  generalize ready s h 0x0910 = u at hflash hrun
  obtain ⟨hexec, hkept, hans⟩ := hrun (u.send (.calSet host u.calFlash)) (by rw [hres, if_pos rfl]; rfl) ⟨rfl, rfl, rfl, rfl, rfl, rfl⟩ ⟨rfl, rfl⟩
  refine ⟨_, hexec, hkept, hans, (sentOn_post ..).mem _ ?_⟩
  rw [hflash]
  exact List.mem_append_right _ (List.mem_singleton.2 rfl)

theorem calWrite_writes {host : Nat} {set : CalSet} (hacc : Accepted s h 0x0911) (hfn : h.fn ≠ 17)
    (hvalid : calValid s.fuses.serial s.fuses.fused set = true) (hfree : s.slicesLeased (calShadow set).slices = false) :
    ∃ t, exec (.calWrite h host set true) s = .next t ∧ PlanKept s t ∧ Answered t h 0x0911 0 [] ∧ t.calFlash = set ∧ t.calLoad = s.calLoad := by
  have hframe := (ready_entered hacc).1
  have hload : (ready s h 0x0911).calLoad = s.calLoad := (congrArg State.calLoad hframe :)
  have hfuses : (ready s h 0x0911).fuses = s.fuses := (congrArg State.fuses hframe :)
  have hleased : (ready s h 0x0911).slicesLeased (calShadow set).slices = false := by
    rw [← hfree, hframe]
    rfl
  have hrun := fun w => exec_keeps (w := w) (st := 0) (res := []) (c := .calWrite h host set true) (r := execCalWrite h host set true s) rfl rfl hacc rfl
    (decide_eq_true hfn)
  generalize ready s h 0x0911 = u at hload hfuses hleased hrun
  obtain ⟨hexec, hkept, hans⟩ := hrun { u with calFlash := set }
    ((if_neg (by rw [dmaOk_of_accepted hacc]; decide)).trans ((if_neg (by rw [hfuses, hvalid, hleased]; decide)).trans rfl))
    ⟨rfl, rfl, rfl, rfl, rfl, rfl⟩ ⟨rfl, rfl⟩
  exact ⟨_, hexec, hkept, hans, by rw [State.post_calFlash], by rw [State.post_calLoad, hload]⟩

/-- SELF_CALIBRATE of a port that no active partition uses. -/
theorem selfCalibrate_begins {i : Nat} (hacc : Accepted s h 0x0912) (hi : i < 12) (hidle : s.boot.selfcal = none) (hfree : s.calBusy false i = false) :
    ∃ t, exec (.selfCalibrate h false i) s = .next t ∧ t.parts = s.parts ∧ t.boot.selfcal = some (false, i) ∧
      t.boot.selfHdr = some h ∧ (t.port i).st = (if (s.port i).st = .off then .off else .calibrating) ∧
      ∀ k, k ≠ i → t.port k = s.port k := by
  have hframe := (ready_entered hacc).1
  have hparts := (ready_entered hacc).parts
  have hport := (ready_entered hacc).port
  have hboot : (ready s h 0x0912).boot = s.boot := (congrArg State.boot hframe :)
  have hbusy : (ready s h 0x0912).calBusy false i = false := by
    rw [hframe]
    exact hfree
  have hexec := fun w => exec_pending (w := w) (c := .selfCalibrate h false i) (r := execSelfCalibrate h false i s) rfl rfl hacc rfl (decide_eq_true hi)
  generalize ready s h 0x0912 = u at hparts hport hboot hbusy hexec
  specialize hexec (({ u with boot := { u.boot with selfcal := some (false, i), selfHdr := some h } } : State).onPort i
    (fun y => if y.st = .off then y else { y with st := .calibrating }))
    ((if_neg (by rw [hboot, hidle, hbusy]; decide)).trans rfl)
  refine ⟨_, hexec, hparts, rfl, rfl, ?_, fun k hk => ?_⟩
  · rw [State.onPort_port_same, ← hport]
    change (if (u.port i).st = .off then u.port i else { u.port i with st := .calibrating }).st = _
    split
    next hoff => exact hoff
    · rfl
  · exact (State.onPort_port_ne _ _ hk).trans (hport k)

/-- A port that trains within the largest latency is fenced, with the latency of R308. -/
theorem calibrated_fenced {y : Port} {r : TrainOut} {start : Nat} (hst : y.st = .calibrating) (htrain : trainOk r = true)
    (hlat : max 16 ((r.quiet8 + 8 * y.stormCorr + 7) / 8 + 8) ≤ 4095) : (y.calibrated r start).st = .fenced ∧
      (y.calibrated r start).latRx = max 16 ((r.quiet8 + 8 * y.stormCorr + 7) / 8 + 8) := by
  unfold Port.calibrated latOf ceil8
  rw [if_neg (not_not.2 hst), htrain, if_neg (by decide)]
  dsimp only
  rw [if_neg (Nat.not_lt.2 hlat)]
  exact ⟨rfl, rfl⟩

/-- The module after the self-calibration of a port. -/
def State.portCalibrated (s : State) (i : Nat) (r : CalOut) : State :=
  let s2 := (s.onPort i (fun y => y.calibrated r.port s.superStart)).fresh
  let port := [(s2.port i).latRx, (s2.port i).stormCorr, (s2.port i).flightMax]
  { s2 with
    calLoad := calReplaced s.calLoad s.fuses.fused false i r port s.hallNow
    calFlash := if r.flashOk then calReplaced s.calFlash s.fuses.fused false i r port s.hallNow else {}
    boot := { s2.boot with selfcal := none, selfHdr := none, calSource := 3 } }

theorem portCalibrated_kept (s : State) (i : Nat) {r : CalOut} (hflash : r.flashOk = true) : (s.portCalibrated i r).parts = s.parts ∧
    (s.portCalibrated i r).boot.selfcal = none ∧ (s.portCalibrated i r).calFlash.writer = 3 ∧
    (s.portCalibrated i r).port i = (s.port i).calibrated r.port s.superStart ∧ Hears s (s.portCalibrated i r) := by
  have hwriter : (s.portCalibrated i r).calFlash.writer = 3 := by
    unfold State.portCalibrated
    dsimp only
    rw [hflash, if_pos rfl]
    rfl
  have hport := s.onPort_port_same i (fun y => y.calibrated r.port s.superStart)
  unfold State.portCalibrated at hwriter ⊢
  exact ⟨rfl, rfl, hwriter, hport, rfl, rfl⟩

/-- SELF_CALIBRATE_DONE of a port that trains. -/
theorem selfCalibrateDone_fences {i : Nat} {r : CalOut} (hcal : s.boot.selfcal = some (false, i)) (hhdr : s.boot.selfHdr = some h)
    (hst : (s.port i).st = .calibrating) (hflash : r.flashOk = true) (htrain : trainOk r.port = true)
    (hlat : max 16 ((r.port.quiet8 + 8 * (s.port i).stormCorr + 7) / 8 + 8) ≤ 4095) :
    ∃ t, exec (.selfCalibrateDone r) s = .next t ∧ t.parts = s.parts ∧ t.boot.selfcal = none ∧ t.calFlash.writer = 3 ∧
      (t.port i).st = .fenced ∧ (t.port i).latRx = max 16 ((r.port.quiet8 + 8 * (s.port i).stormCorr + 7) / 8 + 8) ∧
      (Listening s h 0x0912 → Answered t h 0x0912 0 []) := by
  have hexec : exec (.selfCalibrateDone r) s = .next ((s.portCalibrated i r).post h 0x0912 0 []) := by
    change execSelfCalibrateDone r s = _
    unfold execSelfCalibrateDone
    rw [hcal, hhdr, hflash]
    unfold State.portCalibrated
    rw [hflash]
    rfl
  obtain ⟨hparts, hselfcal, hwriter, hport, hmute, hrings⟩ := portCalibrated_kept s i hflash
  generalize s.portCalibrated i r = u at hexec hparts hselfcal hwriter hport hmute hrings
  obtain ⟨hfenced, hlatRx⟩ := calibrated_fenced (start := s.superStart) hst htrain hlat
  refine ⟨_, hexec, by rw [State.post_parts, hparts], by rw [State.post_boot, hselfcal], by rw [State.post_calFlash, hwriter],
    by rw [State.post_port, hport, hfenced], by rw [State.post_port, hport, hlatRx], fun ⟨hloud, hring⟩ => State.post_answered u h 0x0912 0 [] ?_ ?_⟩
  · rw [hmute]
    exact hloud
  · rw [State.ring_congr hrings]
    exact hring

/-! ### Ports, links and fuses -/

theorem hears_portDown (s : State) (i last : Nat) : Hears s (s.portDown i last) := by
  have hframe := (onlyLink_portDown s i last).1
  exact ⟨(congrArg State.mute hframe :), (congrArg State.rings hframe :)⟩

theorem hears_onPort (s : State) (i : Nat) (f : Port → Port) : Hears s (s.onPort i f) := ⟨rfl, rfl⟩

/-- A port whose domain goes off while it is off keeps no more than it had open. -/
theorem domDown_port {i : Nat} (hi : i < 12) (hoff : (s.port i).st = .off) : ((s.domDown (76 + i)).port i).st = .off ∧
    ((s.domDown (76 + i)).port i).boot = (s.port i).boot ∧ (∀ k, k ≠ i → (s.domDown (76 + i)).port k = s.port k) ∧
    Hears s (s.domDown (76 + i)) := by
  unfold State.domDown
  split
  · unfold State.loseDom
    dsimp only
    rw [if_neg (by omega), if_neg (by omega), if_pos (by omega), Nat.add_sub_cancel_left]
    obtain ⟨u, hu⟩ : ∃ u : State, u = ({ s with pwr := { s.pwr with dom := s.pwr.dom &&& ~~~(domMask [76 + i]) } } : State).clearCtrs (76 + i) := ⟨_, rfl⟩
    have hport : ∀ k, u.port k = s.port k := fun k => by rw [hu]; rfl
    have hheard : Hears s u := by rw [hu]; exact ⟨rfl, rfl⟩
    rw [← hu]
    refine ⟨?_, ?_, fun k hk => ?_, hheard.trans ((hears_portDown ..).trans (hears_onPort ..))⟩
    · rw [State.onPort_port_same, hport, hoff, if_pos rfl]
    · rw [State.onPort_port_same, State.portDown, State.quarantine_port, State.count_port, State.onPort_port_same, hport]
    · rw [State.onPort_port_ne _ _ hk, State.portDown, State.quarantine_port, State.count_port, State.onPort_port_ne _ _ hk, hport]
  · exact ⟨hoff, rfl, fun _ _ => rfl, rfl, rfl⟩

theorem portPower_on {i : Nat} (hrole : s.axRole ≠ some i) : ((s.portPower i true).port i).st = (if (s.port i).st = .off then .down else (s.port i).st) ∧
    (∀ k, k ≠ i → (s.portPower i true).port k = s.port k) ∧ Hears s (s.portPower i true) := by
  unfold State.portPower
  rw [decide_eq_true hrole, Bool.and_self, if_pos rfl]
  have hup := ((s.onPort i (fun y => { y with st := if y.st = .off then .down else y.st })).domUp_poweredUp (76 + i)).1
  have hsame := fun k (hk : k ≠ i) => s.onPort_port_ne (fun y => { y with st := if y.st = .off then .down else y.st }) hk
  have hown := s.onPort_port_same i (fun y => { y with st := if y.st = .off then .down else y.st })
  have hheard : Hears s (s.onPort i (fun y => { y with st := if y.st = .off then .down else y.st })) := ⟨rfl, rfl⟩
  generalize s.onPort i (fun y => { y with st := if y.st = .off then .down else y.st }) = u at hup hsame hown hheard ⊢
  have hports : ∀ k, (u.domUp (76 + i)).port k = u.port k := fun k => by rw [hup.frame]; rfl
  exact ⟨by rw [hports, hown], fun k hk => by rw [hports, hsame k hk], hheard.trans hup.hears⟩

theorem portPower_off {i : Nat} (hi : i < 11) : ((s.portPower i false).port i).st = .off ∧ ((s.portPower i false).port i).boot = [] ∧
    (∀ k, k ≠ i → (s.portPower i false).port k = s.port k) ∧ Hears s (s.portPower i false) := by
  unfold State.portPower
  rw [Bool.false_and, if_neg Bool.false_ne_true]
  have hsame := fun k (hk : k ≠ i) => s.onPort_port_ne (fun y => { y with st := .off, boot := [] }) hk
  have hown := s.onPort_port_same i (fun y => { y with st := .off, boot := [] })
  have hheard : Hears s (s.onPort i (fun y => { y with st := .off, boot := [] })) := ⟨rfl, rfl⟩
  generalize s.onPort i (fun y => { y with st := .off, boot := [] }) = u at hsame hown hheard ⊢
  obtain ⟨hst, hboot, hothers, hdown⟩ := domDown_port (s := u) (Nat.lt_succ_of_lt hi) (by rw [hown])
  exact ⟨hst, by rw [hboot, hown], fun k hk => by rw [hothers k hk, hsame k hk], hheard.trans hdown⟩

/-- PORT_CONFIG of a port that no active partition holds and AX does not substitute. -/
theorem portConfig_configures {i : Nat} {on : Bool} (hacc : Accepted s h 0x0920) (hi : i < 11) (hfree : s.portHeld i i = false)
    (hrole : s.axRole ≠ some i) : ∃ t, exec (.portConfig h i on i) s = .next t ∧ Answered t h 0x0920 0 [] ∧ (∀ k, k ≠ i → t.port k = s.port k) ∧
      (on = true → (t.port i).st = (if (s.port i).st = .off then .down else (s.port i).st)) ∧
      (on = false → (t.port i).st = .off ∧ (t.port i).boot = []) := by
  have hframe := (ready_entered hacc).1
  have hport := (ready_entered hacc).port
  have hheld : (ready s h 0x0920).portHeld i i = false := by
    rw [hframe]
    exact hfree
  have haxis : (ready s h 0x0920).axRole = s.axRole := by
    rw [hframe]
    rfl
  have hans := fun t : State => answered_ready (t := t) hacc
  have hexec := fun w => exec_accepted (w := w) (st := 0) (res := []) (c := .portConfig h i on i) (r := execPortConfig h i on i s) rfl rfl hacc rfl
    (decide_eq_true ⟨by omega, .inl rfl⟩)
  generalize ready s h 0x0920 = u at hport hheld haxis hans hexec
  specialize hexec (u.portPower i on) ((if_neg (by rw [hheld]; exact Bool.false_ne_true)).trans ((if_pos (by omega)).trans rfl))
  cases on with
  | true =>
    obtain ⟨hst, hothers, hears⟩ := portPower_on (s := u) (i := i) (by rw [haxis]; exact hrole)
    refine ⟨_, hexec, hans _ hears.1 hears.2 _ _, fun k hk => by rw [State.post_port, hothers k hk, hport], fun _ => ?_, fun hoff => absurd hoff (by decide)⟩
    rw [State.post_port, hst, hport]
  | false =>
    obtain ⟨hst, hboot, hothers, hears⟩ := portPower_off (s := u) hi
    exact ⟨_, hexec, hans _ hears.1 hears.2 _ _, fun k hk => by rw [State.post_port, hothers k hk, hport], fun hon => absurd hon (by decide),
      fun _ => ⟨by rw [State.post_port, hst], by rw [State.post_port, hboot]⟩⟩

theorem hostLinkConfig_sets {b : Bool} (hacc : Accepted s h 0x0921) : ∃ t, exec (.hostLinkConfig h b) s = .next t ∧ PlanKept s t ∧
    Answered t h 0x0921 0 [] ∧ t.io = { s.io with bifurNxt := b } := by
  have hio : (ready s h 0x0921).io = s.io := (congrArg State.io (ready_entered hacc).1 :)
  have hrun := fun w => exec_keeps (w := w) (st := 0) (res := []) (c := .hostLinkConfig h b) (r := execHostLinkConfig h b s) rfl rfl hacc rfl rfl
  generalize ready s h 0x0921 = u at hio hrun
  obtain ⟨hexec, hkept, hans⟩ := hrun { u with io := { u.io with bifurNxt := b } } rfl ⟨rfl, rfl, rfl, rfl, rfl, rfl⟩ ⟨rfl, rfl⟩
  exact ⟨_, hexec, hkept, hans, by rw [State.post_io, hio]⟩

/-- FUSE_WRITE of an unblown group, no plan active. -/
theorem fuseWrite_blows {g : Nat} {v : Word} (hacc : Accepted s h 0x0930) (hg : g < 256) (hidle : s.activeParts = [])
    (hunblown : ∀ e ∈ s.fuses.blown, e.1 ≠ g) : ∃ t, exec (.fuseWrite h g v) s = .next t ∧ PlanKept s t ∧ Answered t h 0x0930 0 [] ∧
      t.fuses = { s.fuses with blown := t.fuses.blown } ∧ look 0 t.fuses.blown g = v := by
  have hfuses : (ready s h 0x0930).fuses = s.fuses := (congrArg State.fuses (ready_entered hacc).1 :)
  have hactive := anyActive_of_activeParts (ready_entered hacc).parts hidle
  have hrun := fun w => exec_keeps (w := w) (st := 0) (res := []) (c := .fuseWrite h g v) (r := execFuseWrite h g v s) rfl rfl hacc rfl (decide_eq_true hg)
  generalize ready s h 0x0930 = u at hfuses hactive hrun
  have hnone : ¬u.fuses.blown.any (fun e => decide (e.1 = g)) = true := by
    rw [hfuses]
    simpa using fun v hv => hunblown (g, v) hv rfl
  obtain ⟨hexec, hkept, hans⟩ := hrun { u with fuses := { u.fuses with blown := put 0 u.fuses.blown g v } }
    ((if_neg hnone).trans ((if_neg (by rw [hactive]; exact Bool.false_ne_true)).trans rfl)) ⟨rfl, rfl, rfl, rfl, rfl, rfl⟩ ⟨rfl, rfl⟩
  refine ⟨_, hexec, hkept, hans, ?_, ?_⟩
  · rw [State.post_fuses, ← hfuses]
  · rw [State.post_fuses]
    exact look_put_same 0 u.fuses.blown g v

end

/-- Settles O56: each command runs its own part on the state as it is accepted, which sets its field or answers what is held there. -/
theorem serviceCommands : Obligations.ServiceCommands := by
  unfold Obligations.ServiceCommands
  exact ⟨fun h s hacc => powerStatus_answers hacc, fun h w s hacc hlow hhigh => powerCapSet_sets hacc hlow hhigh,
    fun h g s hacc hg => powerFloorSet_sets hacc hg, fun h on s hacc hidle => windbreakMode_sets hacc hidle,
    fun h s hacc => energyRead_answers hacc, fun h loc i ev s hacc hhas hev => counterSet_selects hacc hhas hev,
    fun h loc l s hacc hne hlength hhas hrole => counterRead_answers hacc hne hlength hhas hrole,
    fun h first n s hacc hrole => errorLogRead_answers hacc hrole, fun h s hacc => healthRead_answers hacc,
    fun h b c s hacc hb hpresent hc => cellRetire_retires hacc hb hpresent hc,
    fun h kind unit test c r s habsent hexists hidle hgood => diagnostics_answer habsent hexists hidle hgood,
    fun h tg img s hacc hfn _ hidle hverifies => fwInstall_begins hacc hfn hidle hverifies,
    fun tg good hd img s hinstall => fwInstallDone_fills hinstall,
    fun h tg img s hacc hinstall hsp hmg hgood => fwActivate_switches hacc hinstall hsp hmg hgood,
    fun h s hactiv => managementRestartDone_runs hactiv, fun tg s hwait => fwActivateTimeout_waits hwait,
    fun tg h s hactiv hlate => fwActivateTimeout_returns hactiv hlate, fun h tg s hacc => fwStatus_answers hacc,
    fun h tg a s hacc ha hother => fwMinAdvance_advances hacc ha hother, fun h host s hacc hfn => calRead_sends hacc hfn,
    fun h host set s hacc hfn hvalid hfree => calWrite_writes hacc hfn hvalid hfree,
    fun h i s hacc hi hidle hfree => selfCalibrate_begins hacc hi hidle hfree,
    fun h i r s hcal hhdr hst hflash htrain hlat => selfCalibrateDone_fences hcal hhdr hst hflash htrain hlat,
    fun h i on s hacc hi hfree hrole => portConfig_configures hacc hi hfree hrole, fun h b s hacc => hostLinkConfig_sets hacc,
    fun h g v s hacc hg hidle hunblown => fuseWrite_blows hacc hg hidle hunblown⟩

end Sys2Proof.Machine
end
